-- ==== Sys2Proof/Word.lean ====
section
/-! DEFINITION. The words of the SZ-460: bytes, 32-bit register words, 64-bit pairs and the 16-byte
slots that code is made of (R5, R84, R143). -/

namespace Sys2Proof

/-- One byte of a memory. -/
abbrev Byte := BitVec 8

/-- One 32-bit register word (R84). -/
abbrev Word := BitVec 32

/-- A 64-bit value: a register pair, an address or an item identifier (R66, R13). -/
abbrev DWord := BitVec 64

/-- A 128-bit code slot: a header or an instruction word (R143). -/
abbrev Slot := BitVec 128

end Sys2Proof
end

