-- ==== Sys2Proof/Syntax.lean ====
section
/-! DEFINITION. The syntax of the machine: the operand and modifier types of an instruction word
(chapter 05) and the one inductive `Instr`, with one constructor per row of spec/opcode_table.json.
The rows are of two kinds: the instructions of the Glager set, and the device's other indivisible
steps (events of the memories, the engines, the placer, the Brehel service and the world outside),
whose arguments name the instance that the step acts on. -/

namespace Sys2Proof

/-- The operand formats that an instruction takes; FMT 11 is never taken (R147). -/
inductive Fmt where
  | f00 | f01 | f10
  deriving DecidableEq, Repr

/-- Guard combine, the GC field (R146, R152). -/
inductive GuardCombine where
  | none | g0 | and | or
  deriving DecidableEq, Repr

/-- The type codes of R149, both classes. -/
inductive Ty where
  | s8 | s16 | s32 | s64 | n8 | n16 | n32 | n64 | b8 | b16 | b32 | b64 | b128 | s16x2 | n16x2
  | f32 | f16 | bf16 | e4m3 | e5m2 | e3m2 | e2m3 | e2m1 | e3m5 | f16x2 | bf16x2
  deriving DecidableEq, Repr

/-- The rounding modes of R125. -/
inductive Rnd where
  | rne | rz | rup | rdn | rs
  deriving DecidableEq, Repr

/-- The scopes of R72 and R243. -/
inductive Scope where
  | tr | sec | ens | die | dev | pool
  deriving DecidableEq, Repr

/-- The access class in the order field of the mem layout (R150, R236). -/
inductive Order where
  | weak | strong (σ : Scope)
  deriving DecidableEq, Repr

/-- The memory spaces of R72. -/
inductive Space where
  | priv | core | clu | chip | glob
  deriving DecidableEq, Repr

/-- The integer relations of ICMP (R151). -/
inductive Rel where
  | eq | ne | lt | le | gt | ge
  deriving DecidableEq, Repr

/-- The float predicates of FCMP (R212): ordered relations, the two NaN tests, unordered relations. -/
inductive FRel where
  | ord (r : Rel) | num | nan | unord (r : Rel)
  deriving DecidableEq, Repr

/-- The operations of ATOM and RED (R240). -/
inductive AtomOp where
  | add | min | max | and | or | xor | exch
  deriving DecidableEq, Repr

/-- The operations of REDUX and SCAN (R253). -/
inductive RedOp where
  | add | min | max | and | or | xor
  deriving DecidableEq, Repr

/-- The variants of CLINE (R244). -/
inductive LineOp where
  | inv | wb | wbinv | iinv
  deriving DecidableEq, Repr

/-- The variants of SHFL (R256). -/
inductive ShflKind where
  | idx | up | down | xor
  deriving DecidableEq, Repr

/-- The semirings of MMA (R272). -/
inductive Semiring where
  | ptimes | minplus | maxplus | maxtimes | orand | minmax
  deriving DecidableEq, Repr

/-- The variants of COLL (R293). -/
inductive CollOp where
  | allred | allgat | redsc | bcast | a2a
  deriving DecidableEq, Repr

/-- The fields that every instruction word carries beside its major and its modifiers (R146): the
format, the five operand fields as written (used or not, since R85 and R91 apply to all of them),
the immediate of formats 01 and 10, the guard and the scheduling fields. -/
structure Ins where
  fmt : Fmt
  d : BitVec 9
  a : BitVec 9
  b : BitVec 9
  c : BitVec 9
  e : BitVec 9
  imm : Word
  gc : GuardCombine
  g0 : BitVec 9
  s0 : Bool
  g1 : BitVec 9
  s1 : Bool
  stl : BitVec 4
  ch : BitVec 4
  yld : Bool
  ru : BitVec 3
  deriving DecidableEq, Repr

/-- Why a word at an instruction position is not an instruction: rows 1 to 5 of R158. -/
inductive Reject where
  | majorZero | majorReserved | majorUnassigned | reservedBits | format | immHigh | function | type | modifier
  deriving DecidableEq, Repr

/-- A path of a troupe: one of the two ordinary paths, or the handler path of a slice (R31, R404). -/
inductive PathSel where
  | ord (n : Nat)
  | handler (slice : Nat)
  deriving DecidableEq, Repr

/-- A troupe, by its number in the state, and one of its paths. -/
structure PathRef where
  troupe : Nat
  sel : PathSel
  deriving DecidableEq, Repr

/-- Where a pre-emption request comes from (R411). -/
inductive PreemptCause where
  | placer | cancel | fetch | service | retirement
  deriving DecidableEq, Repr

/-- What the device brings in of its own accord (R320, R174). -/
inductive PrefetchKind where
  | l1 | l2 | code
  deriving DecidableEq, Repr

/-- What the debugger does with a register of a Stopped slice (R409). -/
inductive DebugAccess where
  | read | write (v : Word)
  deriving DecidableEq, Repr

/-- What every message of a Nerkan switch names: a line, and the transaction tag (R324). -/
structure Tagged where
  line : Nat
  tag : Nat
  deriving DecidableEq, Repr

/-- A boot image offered to the boot ROM: its content and whether its signature verifies (R430). -/
structure BootImage where
  bytes : List Byte
  version : Word
  signed : Bool
  deriving DecidableEq, Repr

/-- The steps of the machine, one constructor per row of spec/opcode_table.json. -/
inductive Instr where
  -- control and system instructions (chapter 06)
  | bra (x : Ins)
  | brc (x : Ins) (first : Bool)
  | brd (x : Ins)
  | jmpi (x : Ins) (first : Bool)
  | call (x : Ins)
  | calli (x : Ins) (first : Bool)
  | ret (x : Ins) (first : Bool)
  | regang (x : Ins)
  | exit (x : Ins)
  | ipf (x : Ins)
  | yield (x : Ins)
  | nop (x : Ins)
  | maskset (x : Ins) (first : Bool)
  | maskget (x : Ins)
  | bar (x : Ins)
  | bararv (x : Ins)
  | barwt (x : Ins) (first : Bool)
  | xacq (x : Ins)
  | extendedSetGrant (p : PathRef)
  | xrel (x : Ins)
  | idf (x : Ins)
  | movs (x : Ins)
  | movsw (x : Ins) (first : Bool)
  | trap (x : Ins)
  | bkpt (x : Ins)
  | tret (x : Ins)
  | fwcall (x : Ins) (first : Bool)
  | fwcallAnswer (p : PathRef)
  | savemark (x : Ins)
  | rxdone (x : Ins)
  | entrydone (x : Ins)
  | halt (x : Ins)
  | sleep (x : Ins)
  | sleepExpiry (p : PathRef)
  | stallCountExpiry (p : PathRef)
  | pathAged (p : PathRef)
  -- integer and address instructions (chapter 07)
  | iadd (x : Ins) (ty : Ty) (sat : Bool)
  | isub (x : Ins) (ty : Ty) (sat : Bool)
  | imul (x : Ins) (ty : Ty) (sat : Bool)
  | imulhi (x : Ins) (ty : Ty)
  | imad (x : Ins) (ty : Ty) (sat : Bool)
  | imin (x : Ins) (ty : Ty)
  | imax (x : Ins) (ty : Ty)
  | iabs (x : Ins) (ty : Ty) (sat : Bool)
  | ineg (x : Ins) (ty : Ty) (sat : Bool)
  | isad (x : Ins) (ty : Ty) (sat : Bool)
  | iaddc (x : Ins) (ty : Ty)
  | isubb (x : Ins) (ty : Ty)
  | and (x : Ins) (ty : Ty)
  | or (x : Ins) (ty : Ty)
  | xor (x : Ins) (ty : Ty)
  | andn (x : Ins) (ty : Ty)
  | not (x : Ins) (ty : Ty)
  | shl (x : Ins) (ty : Ty)
  | shrl (x : Ins) (ty : Ty)
  | shra (x : Ins) (ty : Ty)
  | rotl (x : Ins) (ty : Ty)
  | bfx (x : Ins) (ty : Ty)
  | bfi (x : Ins) (ty : Ty)
  | popc (x : Ins) (ty : Ty)
  | clz (x : Ins) (ty : Ty)
  | ctz (x : Ins) (ty : Ty)
  | brev (x : Ins) (ty : Ty)
  | prmb (x : Ins)
  | icmp (x : Ins) (ty : Ty) (rel : Rel)
  | sel (x : Ins) (ty : Ty)
  | lea (x : Ins)
  | addw (x : Ins) (ty : Ty)
  | subw (x : Ins) (ty : Ty)
  | shlw (x : Ins)
  | mulw (x : Ins) (ty : Ty)
  | leaw (x : Ins) (ty : Ty)
  | dot4 (x : Ins) (ty : Ty) (sat : Bool)
  | mov (x : Ins) (ty : Ty)
  | movi (x : Ins)
  | moviw (x : Ins) (ty : Ty)
  | rhash (x : Ins)
  -- float, special-function and conversion instructions (chapter 07)
  | fadd (x : Ins) (ty : Ty) (rnd : Rnd) (sat : Bool)
  | fsub (x : Ins) (ty : Ty) (rnd : Rnd) (sat : Bool)
  | fmul (x : Ins) (ty : Ty) (rnd : Rnd) (sat : Bool)
  | ffma (x : Ins) (ty : Ty) (rnd : Rnd) (sat : Bool)
  | fmin (x : Ins) (ty : Ty)
  | fmax (x : Ins) (ty : Ty)
  | fminn (x : Ins) (ty : Ty)
  | fmaxn (x : Ins) (ty : Ty)
  | fabs (x : Ins) (ty : Ty)
  | fneg (x : Ins) (ty : Ty)
  | fcmp (x : Ins) (ty : Ty) (rel : FRel)
  | fclass (x : Ins) (ty : Ty)
  | frnd (x : Ins) (ty : Ty) (rnd : Rnd)
  | fscale (x : Ins) (ty : Ty) (rnd : Rnd) (sat : Bool)
  | frcp (x : Ins)
  | frsq (x : Ins)
  | fsqrt (x : Ins)
  | fdiv (x : Ins)
  | flog2 (x : Ins)
  | fexp2 (x : Ins)
  | fsin (x : Ins)
  | fcos (x : Ins)
  | ftanh (x : Ins)
  | flgst (x : Ins)
  | hadd2 (x : Ins) (ty : Ty) (rnd : Rnd) (sat : Bool)
  | hmul2 (x : Ins) (ty : Ty) (rnd : Rnd) (sat : Bool)
  | hfma2 (x : Ins) (ty : Ty) (rnd : Rnd) (sat : Bool)
  | fdot2 (x : Ins) (ty : Ty) (rnd : Rnd) (sat : Bool)
  | cvt (x : Ins) (dst src : Ty) (rnd : Rnd) (sat : Bool)
  | cvts (x : Ins) (dst src : Ty) (rnd : Rnd) (sat : Bool)
  | quant (x : Ins) (ty : Ty) (rnd : Rnd)
  | deq (x : Ins) (dst src : Ty) (rnd : Rnd) (sat : Bool)
  | blkscale (x : Ins) (ty : Ty) (first : Bool)
  | amaxrec (x : Ins) (first : Bool)
  | amaxrecRecord (troupe : Nat)
  | amaxrd (x : Ins) (ty : Ty) (first : Bool)
  | pack6 (x : Ins)
  | unpack6 (x : Ins)
  | pack4 (x : Ins)
  | unpack4 (x : Ins)
  -- memory, atomic and fence instructions (chapter 08)
  | ld (x : Ins) (ty : Ty) (ord : Order) (sp : Space)
  | loadReturn (troupe op : Nat) (lanes : Word) (fromL1 : Bool)
  | st (x : Ins) (ty : Ty) (ord : Order) (sp : Space)
  | storePerformed (troupe op : Nat) (lanes : Word)
  | ldv (x : Ins) (ty : Ty) (sp : Space)
  | stv (x : Ins) (ty : Ty) (sp : Space)
  | atom (x : Ins) (op : AtomOp) (ty : Ty) (σ : Scope) (sp : Space)
  | atomc (x : Ins) (ty : Ty) (σ : Scope) (sp : Space)
  | red (x : Ins) (op : AtomOp) (ty : Ty) (σ : Scope) (sp : Space)
  | fence (x : Ins) (pre post : BitVec 4) (σ : Scope)
  | fenceRelease (p : PathRef)
  | cline (x : Ins) (op : LineOp)
  | pfd (x : Ins)
  | mbput (x : Ins) (first : Bool)
  | mbget (x : Ins) (first : Bool)
  | mbtryGet (x : Ins) (first : Bool)
  | mbtryPut (x : Ins) (first : Bool)
  | ldwp (x : Ins) (first : Bool)
  -- cross-lane instructions (chapter 08)
  | shfl (x : Ins) (k : ShflKind) (ty : Ty)
  | vote (x : Ins) (any : Bool)
  | ballot (x : Ins)
  | redux (x : Ins) (op : RedOp) (ty : Ty) (rnd : Rnd) (sat : Bool)
  | argmx (x : Ins) (ty : Ty)
  | argmn (x : Ins) (ty : Ty)
  | scan (x : Ins) (excl : Bool) (op : RedOp) (ty : Ty) (rnd : Rnd) (sat : Bool)
  | bcast (x : Ins) (ty : Ty) (first : Bool)
  | matchKey (x : Ins) (ty : Option Ty)
  | firstl (x : Ins)
  -- matrix and engine instructions (chapter 09)
  | mma (x : Ins) (sr : Semiring) (first : Bool)
  | mmaComplete (troupe op : Nat)
  | pageWaitResume (troupe op : Nat)
  | mmae (x : Ins) (sr : Semiring) (first : Bool)
  | tzero (x : Ins) (first : Bool)
  | tld (x : Ins) (ty : Ty) (first : Bool)
  | tst (x : Ins) (ty : Ty) (rnd : Rnd) (sat : Bool) (first : Bool)
  | tileOpComplete (troupe op : Nat)
  | tmovr (x : Ins) (ty : Ty) (first : Bool)
  | tmovt (x : Ins) (ty : Ty) (first : Bool)
  | cpy (x : Ins) (first : Bool)
  | cpyDelivery (troupe op units : Nat)
  | cpyTransferComplete (troupe op : Nat)
  | gather (x : Ins) (first : Bool)
  | scatter (x : Ins) (first : Bool)
  | gatherScatterComplete (troupe op elements : Nat)
  | coll (x : Ins) (op : CollOp) (ty : Ty) (first : Bool)
  | collComplete (troupe op : Nat) (parts : List (Nat × List Byte)) (changed : Bool)
  | umcfg (x : Ins) (first : Bool)
  | umrank (x : Ins) (first : Bool)
  | umcommit (x : Ins) (first : Bool)
  | umdirty (x : Ins) (first : Bool)
  | umCommandComplete (die slot : Nat)
  | waitc (x : Ins)
  | fwait (x : Ins) (first : Bool)
  | ftest (x : Ins) (first : Bool)
  | fcancel (x : Ins) (first : Bool)
  -- steps of paths, troupes and ensembles (chapters 01, 05, 13, 16)
  | headerEntry (p : PathRef)
  | troupeIdleRefill (troupe : Nat)
  | blockRefill (ens : Nat)
  | demandFetch (p : PathRef)
  | hwPrefetch (die core : Nat) (sid : Nat) (va : Nat) (k : PrefetchKind)
  | placement
  | placerPreemptRequest
  | placerStarvationHold
  | preemptRequest (ens : Nat) (why : PreemptCause)
  | pboundExpiry (ens : Nat)
  | pageFirstTouchFill (sid va : Nat)
  -- steps of the memories and the pool (chapters 10, 12, 16)
  | leaseExpiry (die core line : Nat)
  | horizonPass (die line : Nat)
  | gntS (die : Nat) (m : Tagged) (data : List (Nat × Byte))
  | gntE (die : Nat) (m : Tagged) (data : List (Nat × Byte))
  | gntNC (die : Nat) (m : Tagged) (data : List (Nat × Byte))
  | cmp (die : Nat) (m : Tagged)
  | snpDat (die : Nat) (m : Tagged)
  | snpInv (die : Nat) (m : Tagged)
  | switchLinkDown (die port : Nat)
  | switchRequestTimeout (die line : Nat)
  | coherenceRecoveryEnd (die : Nat)
  | dieChannelDelivery (src dst : Nat)
  -- the debugger (chapters 06, 16)
  | debuggerStop (troupe : Nat) (slices : BitVec 8)
  | debuggerResume (troupe : Nat) (slices : BitVec 8)
  | singleStep (troupe slice : Nat)
  | debuggerRegisterAccess (troupe lane reg : Nat) (acc : DebugAccess)
  -- commands and the launch queue (chapter 13)
  | commandArrival (sid : Nat) (msg : List Byte)
  | unknownOp (sid : Nat) (msg : List Byte)
  | commandStart (cmd : Nat)
  | commandComplete (cmd : Nat)
  | signalDrain (cmd : Nat)
  | launch (cmd : Nat)
  | launchAdmission (cmd : Nat)
  | launchComplete (launch : Nat)
  | tlimitExpiry (launch : Nat)
  | graph (cmd : Nat)
  | signal (cmd : Nat)
  | query (cmd : Nat)
  | cancel (cmd : Nat)
  -- table commands and membership (chapter 14)
  | nodes (cmd : Nat)
  | nodefree (cmd : Nat)
  | map (cmd : Nat)
  | unmap (cmd : Nat)
  | protect (cmd : Nat)
  | ringallot (cmd : Nat)
  | ringfree (cmd : Nat)
  | group (cmd : Nat)
  | groupFormTimeout (grp : Nat)
  | memberConfirm (grp slot : Nat)
  | groupfree (cmd : Nat)
  | memberSessionTimeout (grp slot : Nat)
  | dropNotice (grp fromSlot slot : Nat)
  -- system commands (chapter 17)
  | ident (cmd : Nat)
  | attest (cmd : Nat)
  | handler (cmd : Nat)
  | depgrant (cmd : Nat)
  | telem (cmd : Nat)
  | readback (cmd : Nat)
  | ckpt (cmd : Nat)
  | ckptload (cmd : Nat)
  | fwstage (cmd : Nat)
  | fwcommit (cmd : Nat)
  | fwcommitCommitPoint
  | power (cmd : Nat)
  | wakefilt (cmd : Nat)
  | setparam (cmd : Nat)
  | mode (cmd : Nat)
  | reset (cmd : Nat)
  | load (cmd : Nat)
  -- the device as a whole (chapters 15, 17)
  | deviceReset (loader service config : BootImage)
  | coreRetirement (die phys : Nat)
  | watchdogExpiry (ctl : Nat)
  | thermalWithhold (die : Nat)
  | thermalRecover (die : Nat)
  | thermalShutdown (die : Nat)
  | idleGate
  | wakeFrame (src : DWord) (sid : Nat) (msg : List Byte)
  | wakeReplay
  | internalWake (ctl : Nat)
  | undefinedInstruction (w : Slot)
  | submitterAdmission (sid : Nat) (addr : DWord)
  | submitterPoolWrite (pa : Nat) (bytes : List Byte)
  | memberSessionFailure (grp slot : Nat)
  | memberSessionRestored (grp slot : Nat)
  | powerWithhold
  | debuggerAttach (launch : Nat) (stopAll : Bool)
  deriving DecidableEq, Repr

end Sys2Proof
end

