-- ==== Sys2Proof/Decode.lean ====
section
/-! DEFINITION. Decoding and encoding of instruction words (R146–R151, R158 rows 1–5) and of block
headers (R154, R155). -/

namespace Sys2Proof

/-- The class of a type: the fifth bit of its code (R149). -/
def Ty.cls : Ty → Bool
  | .s8 | .s16 | .s32 | .s64 | .n8 | .n16 | .n32 | .n64 | .b8 | .b16 | .b32 | .b64 | .b128
  | .s16x2 | .n16x2 => false
  | _ => true

/-- The TY value of a type (R149). -/
def Ty.code : Ty → BitVec 4
  | .s8 => 0 | .s16 => 1 | .s32 => 2 | .s64 => 3 | .n8 => 4 | .n16 => 5 | .n32 => 6 | .n64 => 7
  | .b8 => 8 | .b16 => 9 | .b32 => 10 | .b64 => 11 | .b128 => 12 | .s16x2 => 13 | .n16x2 => 14
  | .f32 => 0 | .f16 => 1 | .bf16 => 2 | .e4m3 => 3 | .e5m2 => 4 | .e3m2 => 5 | .e2m3 => 6
  | .e2m1 => 7 | .e3m5 => 8 | .f16x2 => 9 | .bf16x2 => 10

/-- The type that a class and a TY value name, where they name one (R149). -/
def Ty.ofCode (cls : Bool) (code : BitVec 4) : Option Ty :=
  if cls then
    match code.toNat with
    | 0 => some .f32 | 1 => some .f16 | 2 => some .bf16 | 3 => some .e4m3 | 4 => some .e5m2
    | 5 => some .e3m2 | 6 => some .e2m3 | 7 => some .e2m1 | 8 => some .e3m5 | 9 => some .f16x2
    | 10 => some .bf16x2 | _ => none
  else
    match code.toNat with
    | 0 => some .s8 | 1 => some .s16 | 2 => some .s32 | 3 => some .s64 | 4 => some .n8
    | 5 => some .n16 | 6 => some .n32 | 7 => some .n64 | 8 => some .b8 | 9 => some .b16
    | 10 => some .b32 | 11 => some .b64 | 12 => some .b128 | 13 => some .s16x2
    | 14 => some .n16x2 | _ => none

def intTys6 : List Ty := [.s32, .n32, .s64, .n64, .s16x2, .n16x2]
def intTys4 : List Ty := [.s32, .n32, .s64, .n64]
def bitTys : List Ty := [.b32, .b64]
def fpTys : List Ty := [.f32, .f16, .bf16]
def fpCodes : List Ty := [.f32, .f16, .bf16, .e4m3, .e5m2, .e3m2, .e2m3, .e2m1, .e3m5]
def ldTys : List Ty := [.b32, .b64, .b128, .b8, .b16, .s8, .s16, .n8, .n16]
def volTys : List Ty := [.b32, .b64, .b8, .b16]

/-- The element formats of block quantization (R219). -/
def quantTys : List Ty := [.e4m3, .e5m2, .e3m2, .e2m3, .e2m1]

/-- The types between which CVT and CVTS convert (R217). -/
def cvtTys : List Ty :=
  [.s8, .s16, .s32, .s64, .n8, .n16, .n32, .n64, .f32, .f16, .bf16, .e4m3, .e5m2, .e3m2, .e2m3,
   .e2m1, .e3m5]

/-- The types that an operation of ATOM or RED takes (R240). -/
def atomTys : AtomOp → List Ty
  | .add => [.s32, .n32, .s64, .n64, .f32, .f16x2, .bf16x2]
  | .min | .max => [.s32, .n32, .s64, .n64]
  | .and | .or | .xor | .exch => [.b32, .b64]

/-- The types that an operation of REDUX or SCAN takes (R253). -/
def redTys : RedOp → List Ty
  | .add | .min | .max => [.s32, .n32, .f32]
  | .and | .or | .xor => [.b32]

/-- The types that a variant of COLL takes (R293). -/
def collTys : CollOp → List Ty
  | .allred | .redsc => [.s32, .n32, .f32, .bf16, .f16]
  | _ => [.s32, .n32, .b32, .b16, .b8, .f32, .bf16, .f16]

/-- The check of one condition of R158. -/
def need (c : Bool) (r : Reject) : Except Reject Unit := if c then .ok () else .error r

/-- A type of the list, from its class and TY value (R149). -/
def tyIn (cls : Bool) (t : BitVec 4) (tys : List Ty) : Except Reject Ty :=
  match Ty.ofCode cls t with
  | some ty => if ty ∈ tys then .ok ty else .error .type
  | none => .error .type

def Rnd.code : Rnd → BitVec 3
  | .rne => 0 | .rz => 1 | .rup => 2 | .rdn => 3 | .rs => 4

def Rnd.ofCode (c : BitVec 3) : Option Rnd :=
  match c.toNat with
  | 0 => some .rne | 1 => some .rz | 2 => some .rup | 3 => some .rdn | 4 => some .rs | _ => none

/-- MOD in the arith layout (R150). -/
def modOf (r : Rnd) (sat first : Bool) : BitVec 6 :=
  BitVec.ofBool first ++ (0 : BitVec 1) ++ BitVec.ofBool sat ++ r.code

/-- MOD read in the arith layout, where it has that form (R150). -/
def modArith (m : BitVec 6) : Except Reject (Rnd × Bool × Bool) :=
  if m.getLsbD 4 then .error .modifier else
  match Rnd.ofCode (m.extractLsb' 0 3) with
  | some r => .ok (r, m.getLsbD 3, m.getLsbD 5)
  | none => .error .modifier

def ctlPlain (x : Ins) (f : BitVec 8) (t : BitVec 4) (m : BitVec 6) (k : Ins → Instr) :
    Except Reject Instr := do
  need (f == 0) .function; need (t == 0) .type; need (m == 0) .modifier; pure (k x)

/-- FN and TY 0, MOD `.first` or nothing (R164, R263). -/
def ctlFirst (x : Ins) (f : BitVec 8) (t : BitVec 4) (m : BitVec 6) (k : Ins → Bool → Instr) :
    Except Reject Instr := do
  need (f == 0) .function; need (t == 0) .type
  need (m.extractLsb' 0 5 == 0) .modifier
  pure (k x (m.getLsbD 5))

def plainFirst := ctlFirst
def arithPlain := ctlPlain

def arithTy (x : Ins) (f : BitVec 8) (t : BitVec 4) (m : BitVec 6) (cls : Bool) (tys : List Ty)
    (k : Ins → Ty → Instr) : Except Reject Instr := do
  need (f == 0) .function
  let ty ← tyIn cls t tys
  need (m == 0) .modifier
  pure (k x ty)

def arithSat (x : Ins) (f : BitVec 8) (t : BitVec 4) (m : BitVec 6) (cls : Bool) (tys : List Ty)
    (k : Ins → Ty → Bool → Instr) : Except Reject Instr := do
  need (f == 0) .function
  let ty ← tyIn cls t tys
  let (r, s, fi) ← modArith m
  need (r == .rne && !fi) .modifier
  pure (k x ty s)

def arithFirst (x : Ins) (f : BitVec 8) (t : BitVec 4) (m : BitVec 6) (tys : List Ty)
    (k : Ins → Ty → Bool → Instr) : Except Reject Instr := do
  need (f == 0) .function
  let ty ← tyIn true t tys
  let (r, s, fi) ← modArith m
  need (r == .rne && !s) .modifier
  pure (k x ty fi)

def arithRndSat (x : Ins) (f : BitVec 8) (t : BitVec 4) (m : BitVec 6) (tys : List Ty)
    (k : Ins → Ty → Rnd → Bool → Instr) : Except Reject Instr := do
  need (f == 0) .function
  let ty ← tyIn true t tys
  let (r, s, fi) ← modArith m
  need (r != .rs && !fi) .modifier
  pure (k x ty r s)

def arithRnd (x : Ins) (f : BitVec 8) (t : BitVec 4) (m : BitVec 6) (tys : List Ty)
    (k : Ins → Ty → Rnd → Instr) : Except Reject Instr := do
  need (f == 0) .function
  let ty ← tyIn true t tys
  let (r, s, fi) ← modArith m
  need (r != .rs && !s && !fi) .modifier
  pure (k x ty r)

def arithF32 (x : Ins) (f : BitVec 8) (t : BitVec 4) (m : BitVec 6) (k : Ins → Instr) :
    Except Reject Instr := do
  need (f == 0) .function
  let _ ← tyIn true t [.f32]
  need (m == 0) .modifier
  pure (k x)

def relCode : Rel → BitVec 8
  | .eq => 0 | .ne => 1 | .lt => 2 | .le => 3 | .gt => 4 | .ge => 5

def relOf (n : Nat) : Option Rel :=
  match n with
  | 0 => some .eq | 1 => some .ne | 2 => some .lt | 3 => some .le | 4 => some .gt | 5 => some .ge
  | _ => none

def relOp (x : Ins) (f : BitVec 8) (t : BitVec 4) (m : BitVec 6) (tys : List Ty)
    (k : Ins → Ty → Rel → Instr) : Except Reject Instr := do
  match relOf f.toNat with
  | none => .error .function
  | some r =>
    let ty ← tyIn false t tys
    need (m == 0) .modifier
    pure (k x ty r)

def frelCode : FRel → BitVec 8
  | .ord r => relCode r | .num => 6 | .nan => 7 | .unord r => 8 + relCode r

def frelOf (n : Nat) : Option FRel :=
  if n = 6 then some .num else if n = 7 then some .nan
  else if n < 6 then (relOf n).map .ord else (relOf (n - 8)).map .unord

def frelOp (x : Ins) (f : BitVec 8) (t : BitVec 4) (m : BitVec 6)
    (k : Ins → Ty → FRel → Instr) : Except Reject Instr := do
  match frelOf f.toNat with
  | none => .error .function
  | some r =>
    let ty ← tyIn true t fpTys
    need (m == 0) .modifier
    pure (k x ty r)

/-- FN of CVT, CVTS, QUANT and DEQ: bit 5 the destination's class, bits [4:0] the source type
(R151). -/
def cvtFn (d s : Ty) : BitVec 8 :=
  (0 : BitVec 2) ++ BitVec.ofBool d.cls ++ BitVec.ofBool s.cls ++ s.code

/-- The conversions that CVT takes (R217): between any two of `cvtTys`, and `.f32` to a packed
pair. -/
def cvtTaken (d s : Ty) : Bool :=
  (d ∈ cvtTys && s ∈ cvtTys) || ((d == .f16x2 || d == .bf16x2) && s == .f32)

def cvtPair (f : BitVec 8) (t : BitVec 4) : Except Reject (Ty × Ty) := do
  need (f.extractLsb' 6 2 == 0) .function
  match Ty.ofCode (f.getLsbD 4) (f.extractLsb' 0 4), Ty.ofCode (f.getLsbD 5) t with
  | some s, some d => .ok (d, s)
  | none, _ => .error .function
  | _, none => .error .type

def cvtOp (x : Ins) (f : BitVec 8) (t : BitVec 4) (m : BitVec 6) : Except Reject Instr := do
  let (d, s) ← cvtPair f t
  need (cvtTaken d s) .type
  let (r, sa, fi) ← modArith m
  need (!fi && (r != .rs || d.cls)) .modifier
  pure (.cvt x d s r sa)

def cvtsOp (x : Ins) (f : BitVec 8) (t : BitVec 4) (m : BitVec 6) : Except Reject Instr := do
  let (d, s) ← cvtPair f t
  need (d ∈ cvtTys && s ∈ cvtTys && (d.cls || s.cls)) .type
  let (r, sa, fi) ← modArith m
  need (!fi && (r != .rs || (d.cls && x.fmt == .f00))) .modifier
  pure (.cvts x d s r sa)

def quantOp (x : Ins) (f : BitVec 8) (t : BitVec 4) (m : BitVec 6) : Except Reject Instr := do
  need (f == 0x30) .function
  let ty ← tyIn true t quantTys
  let (r, sa, fi) ← modArith m
  need (!fi && !sa) .modifier
  pure (.quant x ty r)

def deqOp (x : Ins) (f : BitVec 8) (t : BitVec 4) (m : BitVec 6) : Except Reject Instr := do
  match Ty.ofCode true (f.extractLsb' 0 4) with
  | none => .error .function
  | some s =>
    need (f.extractLsb' 4 4 == 3 && s ∈ quantTys) .function
    let d ← tyIn true t fpTys
    let (r, sa, fi) ← modArith m
    need (!fi && r != .rs) .modifier
    pure (.deq x d s r sa)

def scopeCode : Scope → BitVec 3
  | .tr => 0 | .sec => 1 | .ens => 2 | .die => 3 | .dev => 4 | .pool => 5

def scopeOf (n : Nat) : Option Scope :=
  match n with
  | 0 => some .tr | 1 => some .sec | 2 => some .ens | 3 => some .die | 4 => some .dev
  | 5 => some .pool | _ => none

def spaceCode : Space → BitVec 3
  | .priv => 0 | .core => 1 | .clu => 2 | .chip => 3 | .glob => 4

def spaceOf (n : Nat) : Option Space :=
  match n with
  | 0 => some .priv | 1 => some .core | 2 => some .clu | 3 => some .chip | 4 => some .glob
  | _ => none

def orderCode : Order → BitVec 3
  | .weak => 0 | .strong σ => 1 + scopeCode σ

/-- MOD in the mem layout (R150). -/
def memMod (o : Order) (sp : Space) : BitVec 6 := orderCode o ++ spaceCode sp

def memModOf (m : BitVec 6) : Except Reject (Order × Space) :=
  match spaceOf (m.extractLsb' 0 3).toNat with
  | none => .error .modifier
  | some sp =>
    if (m.extractLsb' 3 3) = 0 then .ok (.weak, sp)
    else match scopeOf ((m.extractLsb' 3 3).toNat - 1) with
      | none => .error .modifier
      | some σ => .ok (.strong σ, sp)

def memOp (x : Ins) (f : BitVec 8) (t : BitVec 4) (m : BitVec 6) (tys : List Ty)
    (k : Ins → Ty → Order → Space → Instr) : Except Reject Instr := do
  need (f == 0) .function
  let ty ← tyIn false t tys
  let (o, sp) ← memModOf m
  match k x ty o sp with
  | .ldv _ _ _ | .stv _ _ _ => need (o == .weak) .modifier
  | _ => pure ()
  pure (k x ty o sp)

def atomCode : AtomOp → BitVec 3
  | .add => 0 | .min => 1 | .max => 2 | .and => 3 | .or => 4 | .xor => 5 | .exch => 6

def atomOf (n : Nat) : Option AtomOp :=
  match n with
  | 0 => some .add | 1 => some .min | 2 => some .max | 3 => some .and | 4 => some .or
  | 5 => some .xor | 6 => some .exch | _ => none

/-- FN with an operation in bits [2:0] and the type's class in bit 7 (R151). -/
def opFn (op : BitVec 3) (ty : Ty) : BitVec 8 :=
  BitVec.ofBool ty.cls ++ (0 : BitVec 4) ++ op

def atomOpD (x : Ins) (f : BitVec 8) (t : BitVec 4) (m : BitVec 6) (exch : Bool)
    (k : Ins → AtomOp → Ty → Scope → Space → Instr) : Except Reject Instr := do
  match atomOf (f.extractLsb' 0 3).toNat with
  | none => .error .function
  | some op =>
    need (f.extractLsb' 3 4 == 0 && (exch || op != .exch)) .function
    let ty ← tyIn (f.getLsbD 7) t (atomTys op)
    let (o, sp) ← memModOf m
    match o with
    | .weak => .error .modifier
    | .strong σ => pure (k x op ty σ sp)

def atomcOp (x : Ins) (f : BitVec 8) (t : BitVec 4) (m : BitVec 6) : Except Reject Instr := do
  need (f == 0) .function
  let ty ← tyIn false t bitTys
  let (o, sp) ← memModOf m
  match o with
  | .weak => .error .modifier
  | .strong σ => pure (.atomc x ty σ sp)

def fenceOp (x : Ins) (f : BitVec 8) (t : BitVec 4) (m : BitVec 6) : Except Reject Instr := do
  need (f.extractLsb' 0 4 != 0 && f.extractLsb' 4 4 != 0) .function
  need (t == 0) .type
  match scopeOf m.toNat with
  | none => .error .modifier
  | some σ => pure (.fence x (f.extractLsb' 0 4) (f.extractLsb' 4 4) σ)

def lineCode : LineOp → BitVec 8
  | .inv => 0 | .wb => 1 | .wbinv => 2 | .iinv => 3

def lineOf (n : Nat) : Option LineOp :=
  match n with
  | 0 => some .inv | 1 => some .wb | 2 => some .wbinv | 3 => some .iinv | _ => none

def clineOp (x : Ins) (f : BitVec 8) (t : BitVec 4) (m : BitVec 6) : Except Reject Instr := do
  match lineOf f.toNat with
  | none => .error .function
  | some op =>
    need (t == 0) .type; need (m == memMod .weak .glob) .modifier
    pure (.cline x op)

def pfdOp (x : Ins) (f : BitVec 8) (t : BitVec 4) (m : BitVec 6) : Except Reject Instr := do
  need (f == 0) .function; need (t == 0) .type; need (m == memMod .weak .glob) .modifier
  pure (.pfd x)

def mbtryOp (x : Ins) (f : BitVec 8) (t : BitVec 4) (m : BitVec 6) : Except Reject Instr :=
  if f = 1 then do
    need (x.fmt == .f00) .format
    ctlFirst x 0 t m .mbtryPut
  else ctlFirst x f t m .mbtryGet

def shflCode : ShflKind → BitVec 8
  | .idx => 0 | .up => 1 | .down => 2 | .xor => 3

def shflOf (n : Nat) : Option ShflKind :=
  match n with
  | 0 => some .idx | 1 => some .up | 2 => some .down | 3 => some .xor | _ => none

def shflOp (x : Ins) (f : BitVec 8) (t : BitVec 4) (m : BitVec 6) : Except Reject Instr := do
  match shflOf f.toNat with
  | none => .error .function
  | some k =>
    let ty ← tyIn false t bitTys
    need (m == 0) .modifier
    pure (.shfl x k ty)

def voteOp (x : Ins) (f : BitVec 8) (t : BitVec 4) (m : BitVec 6) : Except Reject Instr := do
  need (f == 0 || f == 1) .function; need (t == 0) .type; need (m == 0) .modifier
  pure (.vote x (f == 1))

def redCode : RedOp → BitVec 3
  | .add => 0 | .min => 1 | .max => 2 | .and => 3 | .or => 4 | .xor => 5

def redOf (n : Nat) : Option RedOp :=
  match n with
  | 0 => some .add | 1 => some .min | 2 => some .max | 3 => some .and | 4 => some .or
  | 5 => some .xor | _ => none

/-- The MOD values that REDUX and SCAN take (R253): a rounding mode only with a float add, `.sat`
only with an integer add. -/
def redModOk (op : RedOp) (ty : Ty) (r : Rnd) (sat first : Bool) : Bool :=
  !first && r != .rs && (r == .rne || (op == .add && ty == .f32)) &&
    (!sat || (op == .add && ty != .f32))

def reduxOp (x : Ins) (f : BitVec 8) (t : BitVec 4) (m : BitVec 6) : Except Reject Instr := do
  match redOf (f.extractLsb' 0 3).toNat with
  | none => .error .function
  | some op =>
    need (f.extractLsb' 3 4 == 0) .function
    let ty ← tyIn (f.getLsbD 7) t (redTys op)
    let (r, s, fi) ← modArith m
    need (redModOk op ty r s fi) .modifier
    pure (.redux x op ty r s)

def scanOp (x : Ins) (f : BitVec 8) (t : BitVec 4) (m : BitVec 6) : Except Reject Instr := do
  match redOf (f.extractLsb' 0 3).toNat with
  | none => .error .function
  | some op =>
    need (f.extractLsb' 4 3 == 0) .function
    let ty ← tyIn (f.getLsbD 7) t (redTys op)
    let (r, s, fi) ← modArith m
    need (redModOk op ty r s fi) .modifier
    pure (.scan x (f.getLsbD 3) op ty r s)

def argOp (x : Ins) (f : BitVec 8) (t : BitVec 4) (m : BitVec 6) (k : Ins → Ty → Instr) :
    Except Reject Instr := do
  need (f == 0 || f == 0x80) .function
  let ty ← tyIn (f == 0x80) t [.s32, .n32, .f32]
  need (m == 0) .modifier
  pure (k x ty)

def bcastOp (x : Ins) (f : BitVec 8) (t : BitVec 4) (m : BitVec 6) : Except Reject Instr := do
  need (f == 0) .function
  let ty ← tyIn false t bitTys
  let (r, s, fi) ← modArith m
  need (r == .rne && !s) .modifier
  pure (.bcast x ty fi)

/-- MATCH takes `.b32` and `.b64` in format 00 and no type in format 01 (R253). -/
def matchOp (x : Ins) (f : BitVec 8) (t : BitVec 4) (m : BitVec 6) : Except Reject Instr := do
  need (f == 0) .function
  need (m == 0) .modifier
  if x.fmt = .f00 then do
    let ty ← tyIn false t bitTys
    pure (.matchKey x (some ty))
  else do
    need (t == 0) .type
    pure (.matchKey x none)

def semiCode : Semiring → BitVec 3
  | .ptimes => 0 | .minplus => 1 | .maxplus => 2 | .maxtimes => 3 | .orand => 4 | .minmax => 5

def semiOf (n : Nat) : Option Semiring :=
  match n with
  | 0 => some .ptimes | 1 => some .minplus | 2 => some .maxplus | 3 => some .maxtimes
  | 4 => some .orand | 5 => some .minmax | _ => none

/-- MOD in the matrix layout (R150). -/
def semiMod (sr : Semiring) (first : Bool) : BitVec 6 :=
  BitVec.ofBool first ++ (0 : BitVec 2) ++ semiCode sr

def semiOp (x : Ins) (f : BitVec 8) (t : BitVec 4) (m : BitVec 6)
    (k : Ins → Semiring → Bool → Instr) : Except Reject Instr := do
  need (f == 0) .function; need (t == 0) .type
  match semiOf (m.extractLsb' 0 3).toNat with
  | none => .error .modifier
  | some sr =>
    need (m.extractLsb' 3 2 == 0) .modifier
    pure (k x sr (m.getLsbD 5))

/-- The element types of TLD and TST (R263). -/
def tileTys : List Ty := [.s32, .b32, .f32, .f16, .bf16, .e4m3, .e5m2]

def tldOp (x : Ins) (f : BitVec 8) (t : BitVec 4) (m : BitVec 6) : Except Reject Instr := do
  need (f == 0 || f == 0x80) .function
  let ty ← tyIn (f == 0x80) t tileTys
  let (r, s, fi) ← modArith m
  need (r == .rne && !s) .modifier
  pure (.tld x ty fi)

def tstOp (x : Ins) (f : BitVec 8) (t : BitVec 4) (m : BitVec 6) : Except Reject Instr := do
  need (f == 0 || f == 0x80) .function
  let ty ← tyIn (f == 0x80) t tileTys
  let (r, s, fi) ← modArith m
  need (r != .rs && (ty.cls || (r == .rne && !s))) .modifier
  pure (.tst x ty r s fi)

def tmovOp (x : Ins) (f : BitVec 8) (t : BitVec 4) (m : BitVec 6) (k : Ins → Ty → Bool → Instr) :
    Except Reject Instr := do
  need (f == 0 || f == 0x80) .function
  let ty ← tyIn (f == 0x80) t [.b32, .f32]
  let (r, s, fi) ← modArith m
  need (r == .rne && !s) .modifier
  pure (k x ty fi)

def collCode : CollOp → BitVec 3
  | .allred => 0 | .allgat => 1 | .redsc => 2 | .bcast => 3 | .a2a => 4

def collOf (n : Nat) : Option CollOp :=
  match n with
  | 0 => some .allred | 1 => some .allgat | 2 => some .redsc | 3 => some .bcast | 4 => some .a2a
  | _ => none

def collOpD (x : Ins) (f : BitVec 8) (t : BitVec 4) (m : BitVec 6) : Except Reject Instr := do
  match collOf (f.extractLsb' 0 3).toNat with
  | none => .error .function
  | some op =>
    need (f.extractLsb' 3 4 == 0) .function
    let ty ← tyIn (f.getLsbD 7) t (collTys op)
    need (m.extractLsb' 0 5 == 0) .modifier
    pure (.coll x op ty (m.getLsbD 5))

/-- An instruction's common fields with its major, FN, TY and MOD values. -/
structure Parts where
  x : Ins
  maj : BitVec 8
  fn : BitVec 8
  ty : BitVec 4
  mod : BitVec 6
  deriving DecidableEq, Repr

/-- The operand formats that a major takes (R147 and the form tables of chapters 06 to 09); none for
a major that is not assigned (R151). -/
def formats (maj : Nat) : Option (List Fmt) :=
  match maj with
  | 0x01 | 0x05 | 0x0F | 0x10 | 0x14 | 0x15 | 0x17 | 0x19 | 0x1F | 0x46 | 0x47 | 0xDF => some [.f01]
  | 0x02 | 0x03 | 0x11 | 0x16 | 0x1A | 0xA0 | 0xA1 | 0xA2 | 0xA3 | 0xA6 | 0xA8 | 0xA9 => some [.f10]
  | 0x04 | 0x06 | 0x07 | 0x08 | 0x09 | 0x0B | 0x0C | 0x0D | 0x0E | 0x12 | 0x13 | 0x18 | 0x1B
  | 0x1C | 0x1D | 0x1E | 0x24 | 0x27 | 0x28 | 0x29 | 0x2A | 0x2B | 0x30 | 0x36 | 0x37 | 0x38
  | 0x39 | 0x3A | 0x3B | 0x3D | 0x3E | 0x43 | 0x44 | 0x45 | 0x63 | 0x68 | 0x69 | 0x6B | 0x6C
  | 0x6E | 0x6F | 0x70 | 0x72 | 0x73 | 0x74 | 0x75 | 0x76 | 0x77 | 0x7A | 0x7B | 0x7C | 0x7E
  | 0x7F | 0x80 | 0x83 | 0x84 | 0x85 | 0x86 | 0xA4 | 0xA5 | 0xA7 | 0xAA | 0xC0 | 0xC1 | 0xC2
  | 0xC3 | 0xC4 | 0xC5 | 0xC6 | 0xD0 | 0xD1 | 0xD2 | 0xD3 | 0xD4 | 0xD5 | 0xD6 | 0xD7 | 0xD8
  | 0xD9 | 0xDA | 0xDB | 0xDC | 0xDD | 0xDE | 0xE0 | 0xE1 | 0xE2 => some [.f00]
  | 0x0A | 0x82 | 0xAB | 0xAC | 0xC8 | 0xC9 => some [.f00, .f01]
  | 0x20 | 0x21 | 0x22 | 0x23 | 0x25 | 0x26 | 0x2C | 0x2D | 0x2E | 0x2F | 0x31 | 0x32 | 0x33
  | 0x34 | 0x35 | 0x3C | 0x3F | 0x40 | 0x41 | 0x42 | 0x48 | 0x60 | 0x61 | 0x62 | 0x64 | 0x65
  | 0x66 | 0x67 | 0x6A | 0x6D | 0x71 | 0x78 | 0x79 | 0x7D | 0x81 | 0xAD | 0xC7 => some [.f00, .f10]
  | _ => none

/-- The instruction of an assigned major, or the row of R158 that its FN, TY or MOD value breaks
(the opcode map of R151). -/
def decodeMajor (maj : Nat) (x : Ins) (f : BitVec 8) (t : BitVec 4) (m : BitVec 6) :
    Except Reject Instr :=
  match maj with
  | 0x01 => ctlPlain x f t m .bra
  | 0x02 => ctlFirst x f t m .brc
  | 0x03 => ctlPlain x f t m .brd
  | 0x04 => ctlFirst x f t m .jmpi
  | 0x05 => ctlPlain x f t m .call
  | 0x06 => ctlFirst x f t m .calli
  | 0x07 => ctlFirst x f t m .ret
  | 0x08 => ctlPlain x f t m .regang
  | 0x09 => ctlPlain x f t m .exit
  | 0x0A => ctlPlain x f t m .ipf
  | 0x0B => ctlPlain x f t m .yield
  | 0x0C => ctlPlain x f t m .nop
  | 0x0D => ctlFirst x f t m .maskset
  | 0x0E => ctlPlain x f t m .maskget
  | 0x0F => ctlPlain x f t m .bar
  | 0x10 => ctlPlain x f t m .bararv
  | 0x11 => ctlFirst x f t m .barwt
  | 0x12 => ctlPlain x f t m .xacq
  | 0x13 => ctlPlain x f t m .xrel
  | 0x14 => ctlPlain x f t m .idf
  | 0x15 => ctlPlain x f t m .movs
  | 0x16 => ctlFirst x f t m .movsw
  | 0x17 => ctlPlain x f t m .trap
  | 0x18 => ctlPlain x f t m .bkpt
  | 0x19 => ctlPlain x f t m .tret
  | 0x1A => ctlFirst x f t m .fwcall
  | 0x1B => ctlPlain x f t m .savemark
  | 0x1C => ctlPlain x f t m .rxdone
  | 0x1D => ctlPlain x f t m .entrydone
  | 0x1E => ctlPlain x f t m .halt
  | 0x1F => ctlPlain x f t m .sleep
  | 0x20 => arithSat x f t m false intTys6 .iadd
  | 0x21 => arithSat x f t m false intTys6 .isub
  | 0x22 => arithSat x f t m false intTys4 .imul
  | 0x23 => arithTy x f t m false [.s32, .n32] .imulhi
  | 0x24 => arithSat x f t m false intTys4 .imad
  | 0x25 => arithTy x f t m false intTys6 .imin
  | 0x26 => arithTy x f t m false intTys6 .imax
  | 0x27 => arithSat x f t m false [.s32, .s64] .iabs
  | 0x28 => arithSat x f t m false [.s32, .s64] .ineg
  | 0x29 => arithSat x f t m false [.s32, .n32] .isad
  | 0x2A => arithTy x f t m false [.n32] .iaddc
  | 0x2B => arithTy x f t m false [.n32] .isubb
  | 0x2C => arithTy x f t m false bitTys .and
  | 0x2D => arithTy x f t m false bitTys .or
  | 0x2E => arithTy x f t m false bitTys .xor
  | 0x2F => arithTy x f t m false bitTys .andn
  | 0x30 => arithTy x f t m false bitTys .not
  | 0x31 => arithTy x f t m false bitTys .shl
  | 0x32 => arithTy x f t m false bitTys .shrl
  | 0x33 => arithTy x f t m false [.s32, .s64] .shra
  | 0x34 => arithTy x f t m false bitTys .rotl
  | 0x35 => arithTy x f t m false [.n32, .s32] .bfx
  | 0x36 => arithTy x f t m false [.b32] .bfi
  | 0x37 => arithTy x f t m false bitTys .popc
  | 0x38 => arithTy x f t m false bitTys .clz
  | 0x39 => arithTy x f t m false bitTys .ctz
  | 0x3A => arithTy x f t m false bitTys .brev
  | 0x3B => arithPlain x f t m .prmb
  | 0x3C => relOp x f t m intTys4 .icmp
  | 0x3D => arithTy x f t m false bitTys .sel
  | 0x3E => arithPlain x f t m .lea
  | 0x3F => arithTy x f t m false [.n32, .s32] .addw
  | 0x40 => arithTy x f t m false [.n32, .s32] .subw
  | 0x41 => arithPlain x f t m .shlw
  | 0x42 => arithTy x f t m false [.n32, .s32] .mulw
  | 0x43 => arithTy x f t m false [.n32, .s32] .leaw
  | 0x44 => arithSat x f t m false [.s8, .n8] .dot4
  | 0x45 => arithTy x f t m false bitTys .mov
  | 0x46 => arithPlain x f t m .movi
  | 0x47 => arithTy x f t m false [.s64, .n64] .moviw
  | 0x48 => arithPlain x f t m .rhash
  | 0x60 => arithRndSat x f t m fpTys .fadd
  | 0x61 => arithRndSat x f t m fpTys .fsub
  | 0x62 => arithRndSat x f t m fpTys .fmul
  | 0x63 => arithRndSat x f t m fpTys .ffma
  | 0x64 => arithTy x f t m true fpTys .fmin
  | 0x65 => arithTy x f t m true fpTys .fmax
  | 0x66 => arithTy x f t m true fpTys .fminn
  | 0x67 => arithTy x f t m true fpTys .fmaxn
  | 0x68 => arithTy x f t m true fpTys .fabs
  | 0x69 => arithTy x f t m true fpTys .fneg
  | 0x6A => frelOp x f t m .fcmp
  | 0x6B => arithTy x f t m true fpCodes .fclass
  | 0x6C => arithRnd x f t m fpTys .frnd
  | 0x6D => arithRndSat x f t m fpTys .fscale
  | 0x6E => arithF32 x f t m .frcp
  | 0x6F => arithF32 x f t m .frsq
  | 0x70 => arithF32 x f t m .fsqrt
  | 0x71 => arithF32 x f t m .fdiv
  | 0x72 => arithF32 x f t m .flog2
  | 0x73 => arithF32 x f t m .fexp2
  | 0x74 => arithF32 x f t m .fsin
  | 0x75 => arithF32 x f t m .fcos
  | 0x76 => arithF32 x f t m .ftanh
  | 0x77 => arithF32 x f t m .flgst
  | 0x78 => arithRndSat x f t m [.f16x2, .bf16x2] .hadd2
  | 0x79 => arithRndSat x f t m [.f16x2, .bf16x2] .hmul2
  | 0x7A => arithRndSat x f t m [.f16x2, .bf16x2] .hfma2
  | 0x7B => arithRndSat x f t m [.f16x2, .bf16x2] .fdot2
  | 0x7C => cvtOp x f t m
  | 0x7D => cvtsOp x f t m
  | 0x7E => quantOp x f t m
  | 0x7F => deqOp x f t m
  | 0x80 => arithFirst x f t m [.e4m3, .e5m2, .e3m2, .e2m3, .e2m1] .blkscale
  | 0x81 => arithFirst x f t m [.f32] (fun x _ fi => .amaxrec x fi)
  | 0x82 => arithFirst x f t m [.f32, .e2m1, .e2m3, .e3m2, .e4m3, .e5m2] .amaxrd
  | 0x83 => arithPlain x f t m .pack6
  | 0x84 => arithPlain x f t m .unpack6
  | 0x85 => arithPlain x f t m .pack4
  | 0x86 => arithPlain x f t m .unpack4
  | 0xA0 => memOp x f t m ldTys .ld
  | 0xA1 => memOp x f t m [.b32, .b64, .b128, .b8, .b16] .st
  | 0xA2 => memOp x f t m volTys (fun x ty _ sp => .ldv x ty sp)
  | 0xA3 => memOp x f t m volTys (fun x ty _ sp => .stv x ty sp)
  | 0xA4 => atomOpD x f t m true .atom
  | 0xA5 => atomcOp x f t m
  | 0xA6 => atomOpD x f t m false .red
  | 0xA7 => fenceOp x f t m
  | 0xA8 => clineOp x f t m
  | 0xA9 => pfdOp x f t m
  | 0xAA => ctlFirst x f t m .mbput
  | 0xAB => ctlFirst x f t m .mbget
  | 0xAC => mbtryOp x f t m
  | 0xAD => ctlFirst x f t m .ldwp
  | 0xC0 => shflOp x f t m
  | 0xC1 => voteOp x f t m
  | 0xC2 => arithPlain x f t m .ballot
  | 0xC3 => reduxOp x f t m
  | 0xC4 => argOp x f t m .argmx
  | 0xC5 => argOp x f t m .argmn
  | 0xC6 => scanOp x f t m
  | 0xC7 => bcastOp x f t m
  | 0xC8 => matchOp x f t m
  | 0xC9 => arithPlain x f t m .firstl
  | 0xD0 => semiOp x f t m .mma
  | 0xD1 => semiOp x f t m .mmae
  | 0xD2 => plainFirst x f t m .tzero
  | 0xD3 => tldOp x f t m
  | 0xD4 => tstOp x f t m
  | 0xD5 => tmovOp x f t m .tmovr
  | 0xD6 => tmovOp x f t m .tmovt
  | 0xD7 => plainFirst x f t m .cpy
  | 0xD8 => plainFirst x f t m .gather
  | 0xD9 => plainFirst x f t m .scatter
  | 0xDA => collOpD x f t m
  | 0xDB => plainFirst x f t m .umcfg
  | 0xDC => plainFirst x f t m .umrank
  | 0xDD => plainFirst x f t m .umcommit
  | 0xDE => plainFirst x f t m .umdirty
  | 0xDF => ctlPlain x f t m .waitc
  | 0xE0 => plainFirst x f t m .fwait
  | 0xE1 => plainFirst x f t m .ftest
  | 0xE2 => plainFirst x f t m .fcancel
  | _ => .error .majorUnassigned

/-- Major, FN, TY and MOD of an instruction (R149–R151); none for a step that has no word. -/
def Instr.parts : Instr → Option Parts
  | .bra x => some ⟨x, 0x01, 0, 0, 0⟩
  | .brc x fi => some ⟨x, 0x02, 0, 0, modOf .rne false fi⟩
  | .brd x => some ⟨x, 0x03, 0, 0, 0⟩
  | .jmpi x fi => some ⟨x, 0x04, 0, 0, modOf .rne false fi⟩
  | .call x => some ⟨x, 0x05, 0, 0, 0⟩
  | .calli x fi => some ⟨x, 0x06, 0, 0, modOf .rne false fi⟩
  | .ret x fi => some ⟨x, 0x07, 0, 0, modOf .rne false fi⟩
  | .regang x => some ⟨x, 0x08, 0, 0, 0⟩
  | .exit x => some ⟨x, 0x09, 0, 0, 0⟩
  | .ipf x => some ⟨x, 0x0A, 0, 0, 0⟩
  | .yield x => some ⟨x, 0x0B, 0, 0, 0⟩
  | .nop x => some ⟨x, 0x0C, 0, 0, 0⟩
  | .maskset x fi => some ⟨x, 0x0D, 0, 0, modOf .rne false fi⟩
  | .maskget x => some ⟨x, 0x0E, 0, 0, 0⟩
  | .bar x => some ⟨x, 0x0F, 0, 0, 0⟩
  | .bararv x => some ⟨x, 0x10, 0, 0, 0⟩
  | .barwt x fi => some ⟨x, 0x11, 0, 0, modOf .rne false fi⟩
  | .xacq x => some ⟨x, 0x12, 0, 0, 0⟩
  | .xrel x => some ⟨x, 0x13, 0, 0, 0⟩
  | .idf x => some ⟨x, 0x14, 0, 0, 0⟩
  | .movs x => some ⟨x, 0x15, 0, 0, 0⟩
  | .movsw x fi => some ⟨x, 0x16, 0, 0, modOf .rne false fi⟩
  | .trap x => some ⟨x, 0x17, 0, 0, 0⟩
  | .bkpt x => some ⟨x, 0x18, 0, 0, 0⟩
  | .tret x => some ⟨x, 0x19, 0, 0, 0⟩
  | .fwcall x fi => some ⟨x, 0x1A, 0, 0, modOf .rne false fi⟩
  | .savemark x => some ⟨x, 0x1B, 0, 0, 0⟩
  | .rxdone x => some ⟨x, 0x1C, 0, 0, 0⟩
  | .entrydone x => some ⟨x, 0x1D, 0, 0, 0⟩
  | .halt x => some ⟨x, 0x1E, 0, 0, 0⟩
  | .sleep x => some ⟨x, 0x1F, 0, 0, 0⟩
  | .iadd x ty s => some ⟨x, 0x20, 0, ty.code, modOf .rne s false⟩
  | .isub x ty s => some ⟨x, 0x21, 0, ty.code, modOf .rne s false⟩
  | .imul x ty s => some ⟨x, 0x22, 0, ty.code, modOf .rne s false⟩
  | .imulhi x ty => some ⟨x, 0x23, 0, ty.code, 0⟩
  | .imad x ty s => some ⟨x, 0x24, 0, ty.code, modOf .rne s false⟩
  | .imin x ty => some ⟨x, 0x25, 0, ty.code, 0⟩
  | .imax x ty => some ⟨x, 0x26, 0, ty.code, 0⟩
  | .iabs x ty s => some ⟨x, 0x27, 0, ty.code, modOf .rne s false⟩
  | .ineg x ty s => some ⟨x, 0x28, 0, ty.code, modOf .rne s false⟩
  | .isad x ty s => some ⟨x, 0x29, 0, ty.code, modOf .rne s false⟩
  | .iaddc x ty => some ⟨x, 0x2A, 0, ty.code, 0⟩
  | .isubb x ty => some ⟨x, 0x2B, 0, ty.code, 0⟩
  | .and x ty => some ⟨x, 0x2C, 0, ty.code, 0⟩
  | .or x ty => some ⟨x, 0x2D, 0, ty.code, 0⟩
  | .xor x ty => some ⟨x, 0x2E, 0, ty.code, 0⟩
  | .andn x ty => some ⟨x, 0x2F, 0, ty.code, 0⟩
  | .not x ty => some ⟨x, 0x30, 0, ty.code, 0⟩
  | .shl x ty => some ⟨x, 0x31, 0, ty.code, 0⟩
  | .shrl x ty => some ⟨x, 0x32, 0, ty.code, 0⟩
  | .shra x ty => some ⟨x, 0x33, 0, ty.code, 0⟩
  | .rotl x ty => some ⟨x, 0x34, 0, ty.code, 0⟩
  | .bfx x ty => some ⟨x, 0x35, 0, ty.code, 0⟩
  | .bfi x ty => some ⟨x, 0x36, 0, ty.code, 0⟩
  | .popc x ty => some ⟨x, 0x37, 0, ty.code, 0⟩
  | .clz x ty => some ⟨x, 0x38, 0, ty.code, 0⟩
  | .ctz x ty => some ⟨x, 0x39, 0, ty.code, 0⟩
  | .brev x ty => some ⟨x, 0x3A, 0, ty.code, 0⟩
  | .prmb x => some ⟨x, 0x3B, 0, 0, 0⟩
  | .icmp x ty r => some ⟨x, 0x3C, relCode r, ty.code, 0⟩
  | .sel x ty => some ⟨x, 0x3D, 0, ty.code, 0⟩
  | .lea x => some ⟨x, 0x3E, 0, 0, 0⟩
  | .addw x ty => some ⟨x, 0x3F, 0, ty.code, 0⟩
  | .subw x ty => some ⟨x, 0x40, 0, ty.code, 0⟩
  | .shlw x => some ⟨x, 0x41, 0, 0, 0⟩
  | .mulw x ty => some ⟨x, 0x42, 0, ty.code, 0⟩
  | .leaw x ty => some ⟨x, 0x43, 0, ty.code, 0⟩
  | .dot4 x ty s => some ⟨x, 0x44, 0, ty.code, modOf .rne s false⟩
  | .mov x ty => some ⟨x, 0x45, 0, ty.code, 0⟩
  | .movi x => some ⟨x, 0x46, 0, 0, 0⟩
  | .moviw x ty => some ⟨x, 0x47, 0, ty.code, 0⟩
  | .rhash x => some ⟨x, 0x48, 0, 0, 0⟩
  | .fadd x ty r s => some ⟨x, 0x60, 0, ty.code, modOf r s false⟩
  | .fsub x ty r s => some ⟨x, 0x61, 0, ty.code, modOf r s false⟩
  | .fmul x ty r s => some ⟨x, 0x62, 0, ty.code, modOf r s false⟩
  | .ffma x ty r s => some ⟨x, 0x63, 0, ty.code, modOf r s false⟩
  | .fmin x ty => some ⟨x, 0x64, 0, ty.code, 0⟩
  | .fmax x ty => some ⟨x, 0x65, 0, ty.code, 0⟩
  | .fminn x ty => some ⟨x, 0x66, 0, ty.code, 0⟩
  | .fmaxn x ty => some ⟨x, 0x67, 0, ty.code, 0⟩
  | .fabs x ty => some ⟨x, 0x68, 0, ty.code, 0⟩
  | .fneg x ty => some ⟨x, 0x69, 0, ty.code, 0⟩
  | .fcmp x ty r => some ⟨x, 0x6A, frelCode r, ty.code, 0⟩
  | .fclass x ty => some ⟨x, 0x6B, 0, ty.code, 0⟩
  | .frnd x ty r => some ⟨x, 0x6C, 0, ty.code, modOf r false false⟩
  | .fscale x ty r s => some ⟨x, 0x6D, 0, ty.code, modOf r s false⟩
  | .frcp x => some ⟨x, 0x6E, 0, 0, 0⟩
  | .frsq x => some ⟨x, 0x6F, 0, 0, 0⟩
  | .fsqrt x => some ⟨x, 0x70, 0, 0, 0⟩
  | .fdiv x => some ⟨x, 0x71, 0, 0, 0⟩
  | .flog2 x => some ⟨x, 0x72, 0, 0, 0⟩
  | .fexp2 x => some ⟨x, 0x73, 0, 0, 0⟩
  | .fsin x => some ⟨x, 0x74, 0, 0, 0⟩
  | .fcos x => some ⟨x, 0x75, 0, 0, 0⟩
  | .ftanh x => some ⟨x, 0x76, 0, 0, 0⟩
  | .flgst x => some ⟨x, 0x77, 0, 0, 0⟩
  | .hadd2 x ty r s => some ⟨x, 0x78, 0, ty.code, modOf r s false⟩
  | .hmul2 x ty r s => some ⟨x, 0x79, 0, ty.code, modOf r s false⟩
  | .hfma2 x ty r s => some ⟨x, 0x7A, 0, ty.code, modOf r s false⟩
  | .fdot2 x ty r s => some ⟨x, 0x7B, 0, ty.code, modOf r s false⟩
  | .cvt x d s r sa => some ⟨x, 0x7C, cvtFn d s, d.code, modOf r sa false⟩
  | .cvts x d s r sa => some ⟨x, 0x7D, cvtFn d s, d.code, modOf r sa false⟩
  | .quant x ty r => some ⟨x, 0x7E, 0x30, ty.code, modOf r false false⟩
  | .deq x d s r sa => some ⟨x, 0x7F, 0x30 ||| s.code.setWidth 8, d.code, modOf r sa false⟩
  | .blkscale x ty fi => some ⟨x, 0x80, 0, ty.code, modOf .rne false fi⟩
  | .amaxrec x fi => some ⟨x, 0x81, 0, 0, modOf .rne false fi⟩
  | .amaxrd x ty fi => some ⟨x, 0x82, 0, ty.code, modOf .rne false fi⟩
  | .pack6 x => some ⟨x, 0x83, 0, 0, 0⟩
  | .unpack6 x => some ⟨x, 0x84, 0, 0, 0⟩
  | .pack4 x => some ⟨x, 0x85, 0, 0, 0⟩
  | .unpack4 x => some ⟨x, 0x86, 0, 0, 0⟩
  | .ld x ty o sp => some ⟨x, 0xA0, 0, ty.code, memMod o sp⟩
  | .st x ty o sp => some ⟨x, 0xA1, 0, ty.code, memMod o sp⟩
  | .ldv x ty sp => some ⟨x, 0xA2, 0, ty.code, memMod .weak sp⟩
  | .stv x ty sp => some ⟨x, 0xA3, 0, ty.code, memMod .weak sp⟩
  | .atom x op ty σ sp => some ⟨x, 0xA4, opFn (atomCode op) ty, ty.code, memMod (.strong σ) sp⟩
  | .atomc x ty σ sp => some ⟨x, 0xA5, 0, ty.code, memMod (.strong σ) sp⟩
  | .red x op ty σ sp => some ⟨x, 0xA6, opFn (atomCode op) ty, ty.code, memMod (.strong σ) sp⟩
  | .fence x p q σ => some ⟨x, 0xA7, q ++ p, 0, (0 : BitVec 3) ++ scopeCode σ⟩
  | .cline x op => some ⟨x, 0xA8, lineCode op, 0, memMod .weak .glob⟩
  | .pfd x => some ⟨x, 0xA9, 0, 0, memMod .weak .glob⟩
  | .mbput x fi => some ⟨x, 0xAA, 0, 0, modOf .rne false fi⟩
  | .mbget x fi => some ⟨x, 0xAB, 0, 0, modOf .rne false fi⟩
  | .mbtryGet x fi => some ⟨x, 0xAC, 0, 0, modOf .rne false fi⟩
  | .mbtryPut x fi => some ⟨x, 0xAC, 1, 0, modOf .rne false fi⟩
  | .ldwp x fi => some ⟨x, 0xAD, 0, 0, modOf .rne false fi⟩
  | .shfl x k ty => some ⟨x, 0xC0, shflCode k, ty.code, 0⟩
  | .vote x any => some ⟨x, 0xC1, if any then 1 else 0, 0, 0⟩
  | .ballot x => some ⟨x, 0xC2, 0, 0, 0⟩
  | .redux x op ty r s => some ⟨x, 0xC3, opFn (redCode op) ty, ty.code, modOf r s false⟩
  | .argmx x ty => some ⟨x, 0xC4, opFn 0 ty, ty.code, 0⟩
  | .argmn x ty => some ⟨x, 0xC5, opFn 0 ty, ty.code, 0⟩
  | .scan x ex op ty r s => some ⟨x, 0xC6, opFn (redCode op) ty ||| (if ex then 8 else 0), ty.code, modOf r s false⟩
  | .bcast x ty fi => some ⟨x, 0xC7, 0, ty.code, modOf .rne false fi⟩
  | .matchKey x ty => some ⟨x, 0xC8, 0, (ty.map Ty.code).getD 0, 0⟩
  | .firstl x => some ⟨x, 0xC9, 0, 0, 0⟩
  | .mma x sr fi => some ⟨x, 0xD0, 0, 0, semiMod sr fi⟩
  | .mmae x sr fi => some ⟨x, 0xD1, 0, 0, semiMod sr fi⟩
  | .tzero x fi => some ⟨x, 0xD2, 0, 0, modOf .rne false fi⟩
  | .tld x ty fi => some ⟨x, 0xD3, opFn 0 ty, ty.code, modOf .rne false fi⟩
  | .tst x ty r s fi => some ⟨x, 0xD4, opFn 0 ty, ty.code, modOf r s fi⟩
  | .tmovr x ty fi => some ⟨x, 0xD5, opFn 0 ty, ty.code, modOf .rne false fi⟩
  | .tmovt x ty fi => some ⟨x, 0xD6, opFn 0 ty, ty.code, modOf .rne false fi⟩
  | .cpy x fi => some ⟨x, 0xD7, 0, 0, modOf .rne false fi⟩
  | .gather x fi => some ⟨x, 0xD8, 0, 0, modOf .rne false fi⟩
  | .scatter x fi => some ⟨x, 0xD9, 0, 0, modOf .rne false fi⟩
  | .coll x op ty fi => some ⟨x, 0xDA, opFn (collCode op) ty, ty.code, modOf .rne false fi⟩
  | .umcfg x fi => some ⟨x, 0xDB, 0, 0, modOf .rne false fi⟩
  | .umrank x fi => some ⟨x, 0xDC, 0, 0, modOf .rne false fi⟩
  | .umcommit x fi => some ⟨x, 0xDD, 0, 0, modOf .rne false fi⟩
  | .umdirty x fi => some ⟨x, 0xDE, 0, 0, modOf .rne false fi⟩
  | .waitc x => some ⟨x, 0xDF, 0, 0, 0⟩
  | .fwait x fi => some ⟨x, 0xE0, 0, 0, modOf .rne false fi⟩
  | .ftest x fi => some ⟨x, 0xE1, 0, 0, modOf .rne false fi⟩
  | .fcancel x fi => some ⟨x, 0xE2, 0, 0, modOf .rne false fi⟩
  | _ => none

def Fmt.code : Fmt → BitVec 2
  | .f00 => 0 | .f01 => 1 | .f10 => 2

def Fmt.ofCode (c : BitVec 2) : Option Fmt :=
  match c.toNat with
  | 0 => some .f00 | 1 => some .f01 | 2 => some .f10 | _ => none

def GuardCombine.code : GuardCombine → BitVec 2
  | .none => 0 | .g0 => 1 | .and => 2 | .or => 3

def GuardCombine.ofCode (c : BitVec 2) : GuardCombine :=
  match c.toNat with
  | 0 => .none | 1 => .g0 | 2 => .and | _ => .or

/-- The fields of a word by R146, for a given format: in formats 01 and 10 the E, C and B fields and
IMH hold the immediate (R147). -/
def Ins.ofSlot (w : Slot) (fmt : Fmt) : Ins :=
  let imm : Word := w.extractLsb' 107 5 ++ w.extractLsb' 46 27
  let full := fmt == .f00
  { fmt := fmt
    d := w.extractLsb' 28 9
    a := w.extractLsb' 37 9
    b := if full then w.extractLsb' 46 9 else 0
    c := if full then w.extractLsb' 55 9 else 0
    e := if full then w.extractLsb' 64 9 else 0
    imm := if full then 0 else imm
    gc := GuardCombine.ofCode (w.extractLsb' 93 2)
    g0 := w.extractLsb' 73 9
    s0 := w.getLsbD 82
    g1 := w.extractLsb' 83 9
    s1 := w.getLsbD 92
    stl := w.extractLsb' 100 4
    ch := w.extractLsb' 96 4
    yld := w.getLsbD 95
    ru := w.extractLsb' 104 3 }

/-- The instruction that a word stands for, or the row of R158 that rejects it. Total on any word. -/
def decode (w : Slot) : Except Reject Instr :=
  let maj := (w.extractLsb' 0 8).toNat
  if maj = 0 then .error .majorZero
  else if 0xE8 ≤ maj ∧ maj ≤ 0xFE then .error .majorReserved
  else match formats maj with
    | none => .error .majorUnassigned
    | some fs =>
      if w.extractLsb' 112 16 ≠ 0 then .error .reservedBits
      else match Fmt.ofCode (w.extractLsb' 26 2) with
        | none => .error .format
        | some fmt =>
          if fmt ∉ fs then .error .format
          else if fmt = .f00 ∧ w.extractLsb' 107 5 ≠ 0 then .error .immHigh
          else decodeMajor maj (Ins.ofSlot w fmt) (w.extractLsb' 8 8) (w.extractLsb' 16 4)
            (w.extractLsb' 20 6)

/-- The word with the given parts (R146). -/
def Parts.slot (p : Parts) : Slot :=
  let x := p.x
  let full := x.fmt == .f00
  let e : BitVec 9 := if full then x.e else x.imm.extractLsb' 18 9
  let c : BitVec 9 := if full then x.c else x.imm.extractLsb' 9 9
  let b : BitVec 9 := if full then x.b else x.imm.extractLsb' 0 9
  let imh : BitVec 5 := if full then 0 else x.imm.extractLsb' 27 5
  (0 : BitVec 16) ++ imh ++ x.ru ++ x.stl ++ x.ch ++ BitVec.ofBool x.yld ++ x.gc.code ++
    BitVec.ofBool x.s1 ++ x.g1 ++ BitVec.ofBool x.s0 ++ x.g0 ++ e ++ c ++ b ++ x.a ++ x.d ++
    x.fmt.code ++ p.mod ++ p.ty ++ p.fn ++ p.maj

/-- The word of an instruction; none for a step of the device that has no word. -/
def encode (i : Instr) : Option Slot := i.parts.map Parts.slot

/-- A slot from its bytes, lowest address first (R143); missing bytes count as 0. -/
def slotOfBytes : List Byte → Slot
  | bs => BitVec.ofNat 128 (bs.foldr (fun b n => n * 256 + b.toNat) 0)

/-- The 16 bytes of a slot, lowest address first (R143). -/
def bytesOfSlot (w : Slot) : List Byte :=
  (List.range 16).map fun k => w.extractLsb' (8 * k) 8

/-- The decoder on bytes as memory holds them. -/
def decodeBytes (bs : List Byte) : Except Reject Instr := decode (slotOfBytes bs)

/-- What the decoder reads from a table row's word: its bits laid out as memory holds them, every
bit above `nbits` 0. -/
def decodeTableWord (nbits w : Nat) : Option Instr :=
  match decodeBytes (bytesOfSlot (BitVec.ofNat 128 (w % 2 ^ nbits))) with
  | .ok i => some i
  | .error _ => none

/-- A valid block header (R154). Offsets are signed counts of slots. -/
structure Header where
  len : Nat
  live : Nat
  rcv : BitVec 16
  pfd : Nat
  pfk : BitVec 2
  rfp : Bool
  rgn : Bool
  idem : Bool
  exito : BitVec 24
  entry : BitVec 24
  save : Nat
  deriving DecidableEq, Repr

/-- A header's fields, where every check of R155 holds. -/
def decodeHeader (w : Slot) : Option Header :=
  let len := (w.extractLsb' 8 8).toNat
  let live := (w.extractLsb' 16 9).toNat
  let pfd := (w.extractLsb' 41 8).toNat
  let pfk : BitVec 2 := w.extractLsb' 49 2
  let rgn := w.getLsbD 52
  let id := w.getLsbD 64
  let rb := w.getLsbD 65
  let save := (w.extractLsb' 120 8).toNat
  if w.extractLsb' 0 8 ≠ 0 ∨ len = 0 ∨ live > 384 ∨ w.extractLsb' 53 11 ≠ 0 then none
  else if (pfk.getLsbD 1 = false ∧ pfd ≠ 0) ∨ (pfk.getLsbD 1 = true ∧ pfd = 0) then none
  else if rgn = false ∧ w.extractLsb' 64 64 ≠ 0 then none
  else if rgn = true ∧ (id = rb ∨ w.extractLsb' 66 6 ≠ 0) then none
  else if id = true ∧ w.extractLsb' 72 56 ≠ 0 then none
  else if rb = true ∧ save = 0 then none
  else some
    { len := len, live := live, rcv := w.extractLsb' 25 16, pfd := pfd, pfk := pfk,
      rfp := w.getLsbD 51, rgn := rgn, idem := id, exito := w.extractLsb' 72 24,
      entry := w.extractLsb' 96 24, save := save }

end Sys2Proof
end

