-- ==== Sys2Proof/Config.lean ====
section
/-! DEFINITION. What the device fixes (R3, R107, R308, R371, R372, R425) and what the manual leaves
open. An open value is an opaque constant with no body: no proof can know a value of it. -/

namespace Sys2Proof.Config

/-- Compute dies (R1). -/
def dies : Nat := 4
/-- Active cores of a die (R3). -/
def coresPerDie : Nat := 64
/-- Troupe slots of a partition (R3, R55). -/
def slotsPerPartition : Nat := 16
/-- Bytes of one core scratchpad (R3). -/
def scratchBytes : Nat := 1048576
/-- Bytes of the tile store of one partition (R3, R266). -/
def tileBytes : Nat := 131072
/-- Bytes of the stacked SRAM of a die, in MiB (R3). -/
def stackedMib : Nat := 512
/-- Lines of an L1 of 256 KiB, and of an instruction cache of 128 KiB (R3). -/
def l1Lines : Nat := 2048
def icacheLines : Nat := 1024
/-- Mailbox words of a die (R246). -/
def mboxWords : Nat := 65536
/-- The first mailbox word that MBOX may allot (R364). -/
def mboxFirst : Nat := 4096
/-- Entries of a path stack (R31, R41). -/
def stackDepth : Nat := 16
/-- The wait count at which a ready head is aged (R50). -/
def agedAt : Nat := 1024
/-- Entries of a troupe's future table (R284). -/
def futures : Nat := 16
/-- Transfers that a copy channel's queue holds (R290). -/
def chanDepth : Nat := 4
/-- The greatest value of an outstanding counter (R238). -/
def counterMax : Nat := 63
/-- Clocks after which a starved first candidate blocks its priority (R371). -/
def starveClocks : Nat := 1048576
/-- Clocks of waiting after which a candidate causes a pre-emption request (R372). -/
def preemptClocks : Nat := 65536
/-- Clocks without an answer after which a switch has failed (R425). -/
def switchClocks : Nat := 3600000
/-- Clocks of the 1.8 GHz clock in one millisecond (R3, R375). -/
def clocksPerMs : Nat := 1800000
/-- %pbound after device reset (R106). -/
def pboundReset : Nat := 16384
/-- Λ after device reset (R308). -/
def lambdaReset : Nat := 1024
/-- Commands that stand in one queue at most (R359, R361). -/
def queueDepth : Nat := 64
/-- Command queues of one submitter, and of the device (R360). -/
def queuesPerSubmitter : Nat := 16
def queuesPerDevice : Nat := 256
/-- Frames of the wake buffer (R359). -/
def wakeFrames : Nat := 64
/-- Clocks of the 24 hours of R445. -/
def dayClocks : Nat := 86400000 * 1800000
/-- Halt records that the cellar holds (R440). -/
def haltRecords : Nat := 256
/-- First byte of the engine windows (R301, R305). -/
def windowBase : Nat := 0xFFFFF00000000000
def windowCore : Nat := 0xFFFFF00000000000
def windowClu : Nat := 0xFFFFF10000000000
def windowChip : Nat := 0xFFFFF20000000000
/-- The Brehel service's window of every address space (R454). -/
def serviceLo : Nat := 0xFFFFE00000000000
def serviceHi : Nat := 0xFFFFEFFFFFFFFFFF
/-- Where the model maps the standard handler in that window; the manual gives the window and not
the place (R403, R454; log 21). -/
def standardHandler : Nat := 0xFFFFE00000000000
/-- Where the model maps %save areas in that window (R454; log 21). -/
def saveBase : Nat := 0xFFFFE10000000000
/-- Where %save areas stand in the pool; the manual does not say (log 21). -/
def savePa : Nat := 0x3F0000000000
/-- Where the standard handler's code stands in the pool; the manual does not say (log 21). -/
def handlerPa : Nat := 0x3EFFFFFF0000
/-- Pool physical addresses lie below 64 TiB (R313). -/
def poolEnd : Nat := 0x400000000000

/-- The silicon stepping that FWCALL 0x00 reports (R193): not given. -/
opaque stepping : BitVec 8
/-- The n-th value that a device register returns to an LDV (R317): the registers are those of other
devices, so the value is open. -/
opaque deviceRead : Nat → DWord
/-- Byte 0 of the slot that the check of a branch target finds on a device-register page (R157), by clock and
address: the registers are those of other devices. -/
opaque deviceByte : Nat → Nat → BitVec 8
/-- SHA-256 (R430, R433); its definition is not the manual's. -/
opaque sha256 : List Byte → BitVec 256
/-- ECDSA on P-256 by the device identity key over a digest, r ‖ s (R433). -/
opaque signature : BitVec 256 → BitVec 512
/-- The identity certificate installed at manufacture (R432). -/
opaque certificate : List Byte
/-- The VERSION that a service image carries, and whether its signature verifies against the fused vendor key
(R430, R434): the layout of an image is not the manual's. -/
opaque imageVersion : List Byte → Word
opaque imageSigned : List Byte → Bool
/-- What a configuration block holds (R430): its admission list, with true for an operator, and the number of its
L2 split; its layout is not the manual's. -/
opaque configAdmission : List Byte → List (DWord × Bool)
opaque configSplit : List Byte → Nat
/-- What RFC 8878 makes of byte strings: one to one, those that begin with 1 go to the frames that the device writes
(R437), and the others to every other byte string. -/
opaque zstd : List Byte ≃ List Byte
/-- The bytes of a frame that the device has not written, none where it is no Zstandard frame (R439). -/
opaque zstdOther : List Byte → Option (List Byte)
/-- One Zstandard frame of exactly these bytes (R437); RFC 8878 admits many frames. -/
def zstdFrame (b : List Byte) : List Byte := zstd (1 :: b)
/-- The bytes of a Zstandard frame, which are those that `zstdFrame` has framed (R439). -/
def zstdBytes (d : List Byte) : Option (List Byte) :=
  match zstd.symm d with
  | 1#8 :: b => some b
  | _ => zstdOther d
/-- The n-th pool byte that two writers of a held line leave (R450, "is not fixed"). -/
opaque poolRace : Nat → Bool
/-- The two operands of a combining step of a float collective (R293, R142), by a free value and how many operands are
left: the order of combination is not fixed. -/
opaque combinePick : Nat → Nat → Nat × Nat

end Sys2Proof.Config
end

