-- ==== Sys2Proof/Machine/State.lean ====
section
/-! DEFINITION. The state of the device as plain data: dies with their cores, caches, mailbox words,
rings and unmasking slots; submitters with their page tables and queues; commands, launches,
ensembles and troupes with their lanes, slices and paths; the service's tables, firmware and power
state; and the agenda, which holds the choices of order and moment that the manual leaves open. -/

namespace Sys2Proof.Machine

/-- A memory: address and byte pairs, addresses strictly rising, no entry equal to what an unlisted
address reads as (chapter 10; log 1). -/
abbrev Memory := List Host.Cell

/-- What an address that nothing has written reads as (R300: on-chip memories hold 0; log 1 for
pool memory, whose content the manual leaves to the memory devices). -/
def Memory.unlisted : Byte := 0

/-- The states of a lane (R19). -/
inductive LaneState where
  | absent | live | exited | drained
  deriving DecidableEq, Repr

/-- One lane of a troupe: registers, poison marks, and the registers whose word carries an uncorrectable
error that nothing has found yet (R100), sparse by register number (R84, R106). While
the troupe holds its pair's extended set, v192–v383 stand here too; otherwise they stand in the
set's own store `ExtSet`. -/
structure Lane where
  regs : List (Nat × Word)
  poison : List Nat
  ecc : List Nat
  st : LaneState
  item : DWord
  refills : Word
  faddr : DWord
  priv : Memory
  deriving DecidableEq, Repr

/-- The states of a slice (R30). -/
inductive SliceState where
  | following | idle | inHandler | stopped
  deriving DecidableEq, Repr

/-- One slice with its fault registers (R30, R106, R111, R112). -/
structure SliceSt where
  st : SliceState
  fcode : Word
  fpc : DWord
  fmask : Word
  forig : DWord
  deriving DecidableEq, Repr

/-- An entry of a path stack (R41): a slice set and the PC it will run from. -/
inductive StackEntry where
  | join (slices : BitVec 8) (pc : Nat)
  | deferred (slices : BitVec 8) (pc : Nat)
  deriving DecidableEq, Repr

/-- The block that a path executes: its header's address, its LEN and its RCV (R154). -/
structure Block where
  hdr : Nat
  len : Nat
  rcv : BitVec 16
  deriving DecidableEq, Repr

/-- A deferred fault of an operation (R275, R283): its code, and its address where it has one. -/
structure DeferredFault where
  code : Nat
  addr : Nat
  deriving DecidableEq, Repr

/-- The fields of a per-quarter MMA operand: quarter number, m0 and n0 (R264, R273); the rows written so far, and the
operand fault at which the quarter has stopped (R275); `fused` is set once it shares a wide pass (R274). -/
structure Quarter where
  q : Nat
  m0 : Nat
  n0 : Nat
  start : Nat
  stop : Option DeferredFault := none
  fused : Bool := false
  deriving DecidableEq, Repr

/-- The format block of R270. -/
structure FormatBlock where
  abase : Nat
  bbase : Nat
  ascl : Nat
  bscl : Nat
  aband : Nat
  bband : Nat
  lda : Nat
  ldb : Nat
  ldsa : Nat
  ldsb : Nat
  afmt : Ty
  bfmt : Ty
  blk : Nat
  m : Nat
  n : Nat
  k : Nat
  deriving DecidableEq, Repr

/-- An operand row along K: its elements as one little-endian value, and its block scales. -/
structure RowData where
  bits : Nat
  scales : List Byte
  deriving DecidableEq, Repr

/-- The work of one MMA or MMAE (R273). For an MMAE `join` numbers its join, and `common` are the rows of A that a
participant has read for all of them (R277). -/
structure MmaWork where
  sr : Semiring
  fbAddr : Nat
  fb : FormatBlock
  t : Nat
  k0 : Nat
  quarters : List Quarter
  join : Option Nat := none
  common : List (Nat × RowData) := []
  deriving DecidableEq, Repr

/-- An operand fragment of one quarter (R270, R274): the fields that fix its addresses, its first row and its
rows, and its K positions. -/
structure Fragment where
  base : Nat
  ld : Nat
  scl : Nat
  lds : Nat
  band : Nat
  ty : Ty
  blk : Nat
  row : Nat
  rows : Nat
  k0 : Nat
  k : Nat
  deriving DecidableEq, Repr

/-- A fragment in the operand collector of a path (R274): the PCs of the instructions whose RU latches it,
whether it is a B fragment, whether the hold bit keeps it, and the rows read so far. -/
structure Latch where
  path : PathSel
  pcs : List Nat
  opB : Bool
  hold : Bool
  frag : Fragment
  rows : List (Nat × RowData)
  deriving DecidableEq, Repr

/-- What holds a path besides its stall count (R48): nothing; a `wait until` of its head that failed
when last tried; or a wait whose instruction has issued and whose result is still owed. `d` is the
destination code and `lanes` are the lanes that the result goes to. -/
inductive Wait where
  | none
  | retry
  | regang
  | bar (id : Nat) (phase : BitVec 16) (d : Nat) (lanes : Word)
  | barwt (id : Nat) (token : BitVec 16) (d : Nat) (lanes : Word)
  | xacq
  | sleep (until_ : Nat)
  | fence (pre post : BitVec 4) (σ : Scope) (lanes : Word)
  | mbput (addr : Nat) (v : DWord)
  | mbget (addr : Nat) (d : Nat) (lanes : Word)
  | fwcall (fn : Word) (arg : DWord) (at_ : DWord) (d : Nat) (lanes : Word)
  | rxdone
  | entrydone
  | mmae (w : Option MmaWork) (lanes : Word)
  | fwait (owner ent : Nat) (gen : BitVec 12) (d : Nat) (lanes : Word)
  | preempt
  deriving DecidableEq, Repr

/-- What a handler path that a BRD has formed makes wait (R170, R191, R451): every path with a slice of the
BRD, only the path of these slices, or none. -/
inductive BrdHold where
  | all
  | set (ss : BitVec 8)
  | none
  deriving DecidableEq, Repr

/-- How a handler path came about, which decides how its slice goes on: a word of a block (R192), a
branch that moves the path whole (R452), a BRD with its targets, the sets that moved and what its handlers
hold (R451), or the entry or fetch of the slot at %fpc (R192). -/
inductive Origin where
  | word (blk : Option Block)
  | branch (blk : Option Block)
  | brd (blk : Option Block) (taken : Int) (fall : Nat) (tset fset : BitVec 8) (hold : BrdHold)
  | slot
  deriving DecidableEq, Repr

/-- Slices that wait at a REGANG (R42, R43): the address after it and the block it stands in. -/
structure Parked where
  slices : BitVec 8
  pc : Nat
  blk : Option Block
  deriving DecidableEq, Repr

/-- One path of a troupe (R31, R404). For a handler path `home` is the number of the ordinary path
that its slice left. `waiting` holds slices that wait at a REGANG, each with the address after it.
`again` holds the lanes
that execute an instruction once more: those of a branch's handlers that ended with k = 0 (R452), or,
where `retry` is set, those of a slice that executes the instruction at its %fpc on its own (R192). `rdPass` is the greatest pass
time of a write that a read of the path returned (R347); `marks` and `reads` date the path's reads
of a line for read-read coherence (R330); `wrote` holds the lines that the path has written with the clocks,
from which its resume on another core makes marks (R330). -/
structure Path where
  sel : PathSel
  home : Nat
  origin : Origin
  slices : BitVec 8
  pc : Nat
  last : Nat
  blk : Option Block
  waiting : List Parked
  stack : List StackEntry
  stamp : Nat
  waitCnt : Nat
  aged : Bool
  stall : Nat
  wait : Wait
  ibuf : Option Slot
  again : Word
  retry : Bool
  rdPass : Nat
  rdShared : List Nat
  marks : List (Nat × Nat)
  strongReads : List (Nat × Nat)
  reads : List (Nat × Nat)
  wrote : List (Nat × Nat)
  deriving DecidableEq, Repr

/-- The kind of a page (R316, R317). -/
inductive PageKind where
  | priv | coherent | noncoherent | device
  deriving DecidableEq, Repr

/-- A page table entry (R386). `home` is none until the first translation of an unpinned page; `walked` has
the bit of each die whose agents have translated the page on a demand access (R174, R320), and `touched` is set once an
access has found the page not resident (R386). -/
structure Pte where
  size : Nat
  kind : PageKind
  r : Bool
  w : Bool
  x : Bool
  home : Option Nat
  pin : Bool
  res : Bool
  pa : Nat
  walked : BitVec 4
  touched : Bool := false
  deriving DecidableEq, Repr

/-- The location that one lane's access reaches, after translation (R301, R313); a device register lies behind the
ports of its page's home die (R314). -/
inductive Target where
  | priv (off : Nat)
  | sect (sec off : Nat)
  | chip (die off : Nat)
  | pool (home pa : Nat) (kind : PageKind)
  | device (home pa : Nat)
  deriving DecidableEq, Repr

/-- How far an access of one lane has come: issued; entered in a die-to-die channel (R350); made at its
memory, with its result not yet returned or its write not yet at `.pool` scope (R351); or performed. -/
inductive AccPhase where
  | issued | entered | made | performed
  deriving DecidableEq, Repr

/-- One lane's access: where, how many bytes, which of its bytes stand (R233), its data, the
comparison value of ATOMC, the pass time of its write (R309), and whether its data carry an uncorrectable error, with the
die whose storage gave them (R234, R397). -/
structure Acc where
  lane : Nat
  va : Nat
  tgt : Target
  size : Nat
  mask : BitVec 16
  data : BitVec 128
  cmpv : BitVec 64
  phase : AccPhase
  pass : Nat
  bad : Bool
  badDie : Nat := 0
  deriving DecidableEq, Repr

/-- The classes of the outstanding counters (R395), and `tr` for TMOVR, which no counter counts (R268). -/
inductive OpClass where
  | ld | st | cp | tm | gt | cl | um | tr
  deriving DecidableEq, Repr

/-- The states of an unmasking slot (R296). -/
inductive UmState where
  | free | ready | selected
  deriving DecidableEq, Repr

/-- The configuration of an unmasking slot (R295). -/
structure UmConfig where
  conf : Nat
  tgt : Nat
  sel : Nat
  dirty : Nat
  mask0 : Nat
  p : Nat
  lb : Nat
  share : Nat
  min : Nat
  max : Nat
  deriving DecidableEq, Repr

/-- An unmasking slot (R392): owner, state, configuration, masked positions, selection, dirty map
as one list of positions per layer block, and its queue of commands. -/
structure UmSlot where
  owner : Option Nat
  st : UmState
  cfg : Option UmConfig
  masked : List Nat
  sel : List Nat
  dirty : List (List Nat)
  queue : List (Nat × Nat)
  deriving DecidableEq, Repr

/-- How far an unmasking command has come: the die of its slot; what it has read before its turn, by engine address
(R354); and once it is worked out the slot after it, its value, what it writes, and the writes made in order. -/
structure UmWork where
  die : Nat
  cache : List (Nat × List Byte) := []
  slot : Option UmSlot := none
  value : Nat := 0
  out : List (Nat × List Byte) := []
  moved : Nat := 0
  deriving DecidableEq, Repr

/-- How far a COLL has come (R293, R294): the member slots that were live when it issued; its descriptor, once read;
the elements of SEND read so far, by number; the parts of the other members, once they have arrived; a free value for
the order of combination; whether a member was lost whose part has been left out; and the elements that it has gone
through in order. -/
structure CollWork where
  slots : List Nat
  got : List Byte := []
  own : List (Nat × List Byte) := []
  parts : Option (List (Nat × List Byte)) := none
  free : Nat := 0
  changed : Bool := false
  moved : Nat := 0
  deriving DecidableEq, Repr

/-- The unmasking commands (R295–R298). -/
inductive UmKind where
  | cfg | rank | commit | dirty
  deriving DecidableEq, Repr

/-- What an outstanding operation does. -/
inductive OpKind where
  | load (ty : Ty) (ord : Order) (volatile : Bool) (hint : Nat) (d : Nat) (accs : List Acc)
  | store (ord : Order) (volatile : Bool) (hint : Nat) (accs : List Acc)
  | atom (op : AtomOp) (ty : Ty) (σ : Scope) (d : Option Nat) (accs : List Acc)
  | atomc (ty : Ty) (σ : Scope) (d : Nat) (accs : List Acc)
  | cline (op : LineOp) (lines : List (Nat × Nat))
  | mma (w : MmaWork)
  | tzero (off len : Nat) (w : Word)
  | tld (ty : Ty) (fb : FormatBlock) (t : Nat) (o : DWord) (pitch : Nat) (quarters : List Quarter)
      (moved : Nat)
  | tst (ty : Ty) (rnd : Rnd) (sat : Bool) (fb : FormatBlock) (t : Nat) (o : DWord) (pitch : Nat)
      (quarters : List Quarter) (moved : Nat)
  | tmovr (d : Nat) (cells : List (Nat × Nat))
  | cpy (chan src dst len delivered : Nat) (image : Option (List Byte))
  | gather (idx src dst n z moved : Nat)
  | scatter (idx src dst n z moved : Nat)
  | coll (op : CollOp) (ty : Ty) (grp gen desc : Nat) (work : CollWork)
  | um (k : UmKind) (slot : Nat) (blockAddr : Nat) (work : UmWork)
  deriving DecidableEq, Repr

/-- One outstanding operation of a troupe (R238, R282): its number, class, the PC that issued it,
the paths for which it is an earlier access (R329), its future entry, how it stands, and, for an engine
operation, the lines that it has written, as home dies and line numbers, and the address of a page that
it waits for (R275, R283). For a CLINE `lines` are those whose maintenance the slice has begun (R244). `rdPass` is the greatest pass time of a write that its reads returned, and
`rdShared` are the coherent bytes that they returned before these stood at `.pool` (R347, R356). `volSeen` holds
the lanes and bytes of the same kind that its volatile loads have returned (R352). `ahead` are the elements that
it has moved before their turn, with the addresses written, and `pre` the bytes that it has read before their turn
(R354). `by_` and `at_` are the path and the clock of its issue (R274). `ends` holds the status, the value and the fault
with which it ends once its accesses are performed (R282, R356), and `mark` a register on which an FCANCEL has left its
pending mark (R285). `merges` counts the merges of its troupe since it issued (R333). -/
structure Op where
  id : Nat
  cls : OpClass
  kind : OpKind
  pc : Nat
  own : List PathSel
  lanes : Word
  future : Option Nat
  done : Bool
  cancelled : Bool
  fault : Option DeferredFault
  value : Nat
  lines : List (Nat × Nat)
  waitPage : Option Nat
  rdPass : Nat := 0
  rdShared : List Nat := []
  volSeen : List (Nat × Nat) := []
  ahead : List (Nat × Nat) := []
  pre : List (Nat × Byte) := []
  by_ : Option PathSel := none
  at_ : Option Nat := none
  ends : Option (Nat × Nat × Option DeferredFault) := none
  mark : Option Nat := none
  merges : Nat := 0
  deriving DecidableEq, Repr

/-- One future entry of a troupe (R284, R286): generation, whether an operation holds it, and the
status and value words, status [7:0] = 0 while pending. `mark` is the register that carries the
pending mark (R285); `place` is bits [29:16] of the entry's handle; `fin` is the clock of the last completion, with the
status and the value that it gave (R299). -/
structure FutureEntry where
  gen : BitVec 12
  busy : Bool
  status : Word
  value : Word
  mark : Option Nat
  place : Nat
  fin : Option (Nat × Word × Word) := none
  deriving DecidableEq, Repr

/-- A troupe's current region (R410). -/
structure Region where
  hdr : Nat
  idem : Bool
  exito : BitVec 24
  entry : BitVec 24
  save : Nat
  mask : Word
  committed : Bool
  deriving DecidableEq, Repr

/-- Which region routine a troupe runs (R415, R416). -/
inductive Routine where
  | none | exit | entry
  deriving DecidableEq, Repr

/-- How a troupe of a Pre-empting ensemble has finished (R411), which decides its resume. -/
inductive Finish where
  | no
  | ended
  | discarded
  | lifeless
  | spilled (cut : Bool)
  deriving DecidableEq, Repr

/-- Whether a troupe runs, is done (R26) or halted (R58). -/
inductive TroupeRun where
  | running | done | halted
  deriving DecidableEq, Repr

/-- A record on its way to an amax ring (R226, R228): the ring, the value, the paths for which it is an
earlier access, for the partner of a pas de deux pair the slot of the head that it issued with, and the first clock in
which it may take effect. -/
structure RingRec where
  ring : Nat
  value : Word
  own : List PathSel
  partner : Option Nat
  from_ : Nat
  deriving DecidableEq, Repr

/-- One troupe with everything it owns (chapters 01, 03, 09, 16). `die` to `slot` are its place while
its ensemble is resident. `gang` says whether the troupe is ganged, as the end of the last clock left it
(R31). `stepping` holds the slices that stop again after one instruction (R190), and
`gone` the paths that have ended since the troupe last ganged, whose accesses a refill orders before its
own (R329). `latches` are the fragments in the operand collectors of its paths (R274). `overrun` is set while R419's fault is due. In the clock of a MOVSW to %mrow `mrowOld` is what it
held before; `asked` are the states, items and %refills of its lanes as at the request for its pre-emption (R413);
and `mrowSet` are the bits that the matrix unit has written in this clock (R105, R115). -/
structure Troupe where
  id : Nat
  ens : Nat
  sec : Nat
  idx : Nat
  die : Nat
  core : Nat
  part : Nat
  slot : Nat
  run : TroupeRun
  lanes : List Lane
  slices : List SliceSt
  paths : List Path
  enable : Word
  prevEnable : Word
  tilePart : Word
  mrow : Word
  mrowOld : Option Word
  mrowSet : Word
  rsm : DWord
  save : DWord
  saveHeld : Bool
  refillPc : Option Nat
  region : Option Region
  routine : Routine
  manifest : List Nat
  finish : Finish
  overrun : Bool
  holdsExt : Bool
  hadExt : Bool
  stepping : BitVec 8
  gone : List Path
  latches : List Latch := []
  tile : Memory
  ops : List Op
  futures : List FutureEntry
  recs : List RingRec
  lastFault : Word
  gang : Bool := true
  asked : List (LaneState × DWord × Word) := []
  deriving DecidableEq, Repr

/-- A barrier instance (R181, R182): phase, who has arrived in it, who has an arrival held for the
next phase, which paths of a parted troupe have executed a pending arrival, the flag, and the troupes with a second arrival
held for one phase (R184). -/
structure Barrier where
  phase : BitVec 16
  arrived : List Nat
  held : List Nat
  partial_ : List (Nat × Nat × BitVec 16)
  abandoned : Bool
  twice : List (Nat × BitVec 16) := []
  deriving DecidableEq, Repr

/-- One section of an ensemble (R54, R300): scratchpad allotment, write pointers, channel queues as
troupe and operation numbers, section barriers, and for each channel the destination of the transfer that it
opened last, to which its write pointer belongs (R357). -/
structure Section where
  core : Nat
  allot : Memory
  wp : List Word
  chans : List (List (Nat × Nat))
  bars : List Barrier
  dests : List Nat := List.replicate 8 0
  deriving DecidableEq, Repr

/-- The states of an ensemble (R57). -/
inductive EnsState where
  | queued | running | preempting | swapped | retired
  deriving DecidableEq, Repr

/-- One ensemble (chapters 01, 13, 16). `kept` are the sections whose allotments stand in the cellar from swap-out to
resume, since a COLL or an unmasking operation names them (R288, R306). -/
structure Ensemble where
  id : Nat
  launch : Nat
  num : Nat
  st : EnsState
  die : Nat
  cluster : Nat
  offset : Nat
  sections : List Section
  bars : List Barrier
  troupes : List Nat
  bound : Nat
  boundMax : Nat
  pending : Bool
  lastRefill : Bool
  spilled : Bool
  fetchSpill : Bool
  waitPage : Option Nat
  endOnSwap : Bool
  placedAt : Nat
  kept : List Nat := []
  deriving DecidableEq, Repr

/-- A launch header (R381). -/
structure LaunchHeader where
  block : Bool
  sections : Nat
  troupes : Nat
  prio : Nat
  fields : Nat
  tlv : Nat
  elv : Nat
  chan : Nat
  widths : List Nat
  priv : Nat
  scratch : Nat
  ringBase : Nat
  ringCnt : Nat
  grpBase : Nat
  grpCnt : Nat
  umMask : BitVec 16
  deriving DecidableEq, Repr

/-- An entry of a launch's telemetry trace (R193). -/
structure TraceEntry where
  arg : DWord
  troupe : Nat
  clock : DWord
  deriving DecidableEq, Repr

/-- A launch (R368, R369): its command (that of its node for a node launch), header, item queue, allotments
and ends; `checked` is set once its header has been read and checked. -/
structure Launch where
  id : Nat
  sid : Nat
  cmd : Nat
  tag : DWord
  admitted : Bool
  entry : Nat
  lhdr : Nat
  hdr : LaunchHeader
  base : Nat
  next : Nat
  stop : Nat
  handedOut : Nat
  chipUnits : Nat
  chip : List Memory
  mboxFirst : Nat
  mboxCount : Nat
  dies : BitVec 4
  grants : List Nat
  maxEns : Nat
  tlimit : Nat
  firstPlaced : Option Nat
  handler : Nat
  nextNum : Nat
  debugger : Option Bool
  trace : List TraceEntry
  endStatus : Option Nat
  halts : List (Nat × Nat)
  complete : Bool
  checked : Bool := false
  deriving DecidableEq, Repr

/-- A candidate of the launch queues (R371): a swapped-out ensemble, or the next ensemble of a
launch; with the clock it was offered at, since when it has stood first, and the ensemble that holds
its pre-emption request (R372). -/
structure Candidate where
  swapped : Option Nat
  launch : Nat
  prio : Nat
  since : Nat
  firstSince : Option Nat
  request : Option Nat
  blocking : Bool
  deriving DecidableEq, Repr

/-- The states of a command (R365). -/
inductive CmdState where
  | arrived | waiting | started | placing | running | draining | complete
  deriving DecidableEq, Repr

/-- A wait entry and a signal entry (R364). -/
structure WaitEntry where
  addr : Nat
  want : Bool
  consume : Bool
  deriving DecidableEq, Repr

structure SignalEntry where
  addr : Nat
  mode : Nat
  value : DWord
  deriving DecidableEq, Repr

/-- A command that has been accepted (R360, R365). `prev` is the command before it in its queue. `effect`
is set once its effect is made and its status is decided; `startedAt` numbers the starts in their order (R368); `lines` are the lines that it has written, as home
dies and line numbers. `node` names the graph and the node of an entry that stands for a node launch of a
GRAPH, with the node's signals (R370, R385): such an entry is no command of a submitter. -/
structure Command where
  id : Nat
  sid : Nat
  queue : Nat
  seq : Nat
  tag : DWord
  op : Nat
  ordered : Bool
  notify : Bool
  waits : List WaitEntry
  sigs : List SignalEntry
  msg : List Byte
  prev : Option Nat
  st : CmdState
  startedAt : Nat
  status : Nat
  detail0 : DWord
  detail1 : DWord
  sigsLeft : Nat
  effect : Bool
  lines : List (Nat × Nat)
  node : Option (Nat × Nat)
  deriving DecidableEq, Repr

/-- A record sent to a submitter (R363). -/
structure Record where
  sid : Nat
  tag : DWord
  seq : Nat
  queue : Nat
  kind : Nat
  status : Nat
  detail0 : DWord
  detail1 : DWord
  deriving DecidableEq, Repr

/-- A command queue (R359, R361): the next SEQ expected, the commands that stand in it, head first,
and the messages held ahead of sequence. -/
structure CmdQueue where
  num : Nat
  next : Nat
  cmds : List Nat
  lastCmd : Option Nat
  held : List (Nat × List Byte)
  deriving DecidableEq, Repr

/-- An admitted submitter (R427): its role, address space, handler address and queues. -/
structure Submitter where
  sid : Nat
  addr : DWord
  operator : Bool
  pages : List (Nat × Pte)
  handler : Nat
  queues : List CmdQueue
  deriving DecidableEq, Repr

/-- A launch-node entry (R383). -/
structure NodeEntry where
  pred : Nat
  succ : List Nat
  sigs : List SignalEntry
  body : List Byte
  deriving DecidableEq, Repr

/-- A running GRAPH (R370, R385): its nodes that have started, that are Complete, and its ready list. -/
structure GraphRun where
  cmd : Nat
  table : Nat
  counters : List Nat
  started : List Nat
  done : List Nat
  ready : List Nat
  deriving DecidableEq, Repr

/-- The states of a membership table (R389). -/
inductive GroupState where
  | free | forming | active | dissolved
  deriving DecidableEq, Repr

/-- A member slot: its fabric address, whether it is Live, the clock at which its session failed, and whether it has been
declared Lost (R390). -/
structure Member where
  addr : DWord
  live : Bool
  failedAt : Option Nat
  lost : Bool := false
  deriving DecidableEq, Repr

/-- A membership table (R389), the clock at which its GROUP began, and the drop notices that the device has
sent: to which slot, about which (R390). `also` are earlier GROUP commands whose Forming table this one has replaced. -/
structure Group where
  num : Nat
  sid : Nat
  st : GroupState
  cmd : Nat
  self : Nat
  tmo : Nat
  gen : BitVec 16
  formedAt : Nat
  members : List Member
  notices : List (Nat × Nat)
  also : List Nat := []
  deriving DecidableEq, Repr

/-- A request in a die-to-die channel (R350): an access of a lane of a troupe's operation, a mailbox operation
of a path, an access of an engine for a troupe's operation, a line of a CLINE, a code line for a core's instruction
cache, or a prefetch of a line, with its kind and whether the L1 takes it. -/
inductive ChanReq where
  | lane (troupe op lane : Nat)
  | mail (p : PathRef)
  | engine (troupe op : Nat)
  | cline (troupe op line : Nat)
  | code (core line : Nat) (coh : Bool)
  | fill (core line : Nat) (coh l1 : Bool)
  deriving DecidableEq, Repr

/-- Who asks for a coherent line (R323): a lane's access, an engine's operation, a path that reads at issue or
fetches, a fetch of a core that has come through a channel, the service, or a device agent that needs it for nobody. -/
inductive Asker where
  | lane (troupe op lane : Nat)
  | op (troupe op : Nat)
  | path (p : PathRef)
  | code (die core line : Nat)
  | service
  | device
  deriving DecidableEq, Repr

/-- The states of a shared-coherent line (R322). A line of another kind stands in `m` while dirty
and `e` while clean. -/
inductive Moesi where
  | m | o | e | s | i
  deriving DecidableEq, Repr

/-- A line of an L2 slice (R308, R311): its bytes by offset, the dirty mask, horizon, the pass time
of its latest write and of each byte's, its state, and a write-back-invalidate that waits for the horizon (R244). `accepted`
holds the offsets of bytes written while the line stood in I, S or O, which await ownership (R351), `owned` what the
dirty bytes among them held before, which is the line's as far as its owner knows, and `openNo` numbers the time
since which some byte has awaited it;
`raced` holds the offsets of bytes that the submitter wrote to the pool while the line was held (R450). `once` names
whom a GntNC answer serves, alone and once (R323). -/
structure L2Line where
  data : Memory
  dirty : List Nat
  accepted : List Nat
  raced : List Nat
  horizon : Nat
  pass : Nat
  passes : List (Nat × Nat)
  st : Moesi
  coherent : Bool
  leaving : Bool
  once : Option Asker
  owned : List (Nat × Byte) := []
  openNo : Nat := 0
  deriving DecidableEq, Repr

/-- A line of an L1 (R307): its bytes with the pass times of their writes, its lease end, the number that dates its
bytes, whether the line that it was filled from carried an uncorrectable error (R312), the clock of its grant, and the
bytes that awaited ownership in the slice when it took them, in the time that `openNo` numbers (R347, R351). -/
structure L1Line where
  data : Memory
  lease : Nat
  filled : Nat
  passes : List (Nat × Nat)
  bad : Bool
  since : Nat := 0
  opens : List Nat := []
  openNo : Nat := 0
  deriving DecidableEq, Repr

/-- One core: L1 by home die and line, instruction cache by line, event counters (R300, R397). -/
structure Core where
  l1 : List (Nat × L1Line)
  icache : List (Nat × Memory)
  ev : List (Nat × DWord)
  deriving DecidableEq, Repr

/-- Who waits at a mailbox word: a path with a MBPUT or MBGET, a Draining command with its signal, or a Waiting
command with a wait entry (R248, R366, R367). -/
inductive Waiter where
  | path (p : PathRef)
  | signal (cmd : Nat)
  | start (cmd : Nat)
  deriving DecidableEq, Repr

/-- A mailbox word with those that wait on it, in order (R246–R248). -/
structure MailboxWord where
  full : Bool
  value : DWord
  waiters : List Waiter
  deriving DecidableEq, Repr

/-- An amax ring (R138, R388). -/
structure Ring where
  entries : List Word
  head : Nat
  deriving DecidableEq, Repr

/-- The requests of R324 that await an answer. -/
inductive CxlReq where
  | rdS | rdX | upg | wb | evc
  deriving DecidableEq, Repr

/-- A request that awaits the switch's answer: its line, its transaction tag, its kind, the clock at which it
was sent, who asked for it and who awaits it besides, of a write-back, the bytes whose writes are at `.pool` once it is
answered (R423, R425), and whether the slice is to keep the line that it brings (R237). -/
structure CxlWait where
  line : Nat
  tag : Nat
  kind : CxlReq
  since : Nat
  who : Asker
  bytes : List Nat := []
  also : List Asker := []
  keep : Bool := true
  deriving DecidableEq, Repr

/-- The kinds of messages that the device sends to a Nerkan switch (R324). -/
inductive CxlMsg where
  | rdS | rdX | upg | evC | wbI | wbS | wbE | rspS | rspI | rspO
  deriving DecidableEq, Repr

/-- A message that the device has sent (R324): its kind, the line's address by number, the transaction tag, and
the line's data with the byte mask, where the message carries them. -/
structure CxlSent where
  msg : CxlMsg
  line : Nat
  tag : Nat
  data : Option (Memory × List Nat)
  deriving DecidableEq, Repr

/-- A snoop that waits for its line's horizon (R323): the line, whether it invalidates, and its tag. -/
structure Snoop where
  line : Nat
  inv : Bool
  tag : Nat
  deriving DecidableEq, Repr

/-- A logged uncorrectable error (R440 class 2). -/
structure ErrorRec where
  addr : Nat
  core : Nat
  clock : DWord
  deriving DecidableEq, Repr

/-- A halt by fault 0x13, or a second mismatch, attributed to a physical core at a clock (R445). -/
structure Strike where
  phys : Nat
  mismatch : Bool
  clock : Nat
  deriving DecidableEq, Repr

/-- One compute die (chapters 10, 12, 14, 15). `mapped` gives the physical core behind a logical number that a
spare has taken (R400; log 28), `faulty` the logical and physical numbers of cores that are being retired.
`fails` holds the lines of a failed switch that wait for their horizons (R425), `tags` the next transaction
tag (R324), and `held` the lines whose fills find every line of the slice held by its horizon (R308). -/
structure Die where
  skew : Nat
  cores : List (Nat × Core)
  l2 : List (Nat × L2Line)
  lambda : Nat
  mbox : List (Nat × MailboxWord)
  depOwner : List (Nat × Nat)
  rings : List (Nat × Ring)
  um : List UmSlot
  ev : List (Nat × DWord)
  off : DWord
  spares : Nat
  retired : Nat
  replace : Bool
  faulty : List (Nat × Nat)
  mapped : List (Nat × Nat)
  strikes : List Strike
  errlog : List ErrorRec
  portsDown : List Nat
  recovering : List Nat
  reqs : List CxlWait
  snoops : List Snoop
  msgs : List CxlSent
  hot : Bool
  fails : List Nat
  tags : Nat
  held : List Nat := []
  deriving DecidableEq, Repr

/-- The states of a pair's extended set (R90): the slot that holds it, the ensemble of its last
holder (R94), the registers, poison marks and unfound errors of its lanes while it is Free, and the clock of its release
(R115). -/
structure ExtSet where
  die : Nat
  core : Nat
  part : Nat
  pair : Nat
  holder : Option Nat
  lastEns : Option Nat
  regs : List (List (Nat × Word))
  poison : List (List Nat)
  ecc : List (List Nat) := []
  freed : Option Nat := none
  deriving DecidableEq, Repr

/-- An entry of the wake filter (R444). -/
structure WakeEntry where
  valid : Bool
  src : DWord
  srcMask : DWord
  pat : BitVec 128
  patMask : BitVec 128
  deriving DecidableEq, Repr

/-- A staged service image (R434). -/
structure Staged where
  image : BootImage
  next : BitVec 256
  deriving DecidableEq, Repr

/-- The configuration block that boot verifies (R430): the admission list with its roles. -/
structure BootConfig where
  digest : BitVec 256
  admission : List (DWord × Bool)
  deriving DecidableEq, Repr

/-- Firmware state (R430–R436, R441). `mode` 0 is service and 1 is maintenance (R428); `flash` holds the
images of the last boot, with a committed service image in their place, for the next one; `resetDue` is set
once a RESET is Complete. -/
structure Firmware where
  recovery : Bool
  mode : Nat
  version : Word
  meas : BitVec 256
  m1 : BitVec 256
  config : BootConfig
  lastGood : Option BootConfig
  recoveryAddr : DWord
  antiRollback : Word
  staged : Option Staged
  committing : Option Nat
  frozen : Bool
  thermalCause : Bool
  l2Mib : Nat
  flash : List BootImage
  resetDue : Bool
  deriving DecidableEq, Repr

/-- A frame in the wake buffer: a command's message with its submitter, or a drop notice of a group, from a slot about
a slot (R377, R390). -/
inductive Frame where
  | cmd (sid : Nat) (msg : List Byte)
  | notice (grp fromSlot slot : Nat)
  deriving DecidableEq, Repr

/-- Power, cooling and wake (R442–R444, R377); `gatedAt` is the clock in which the last control core gated (R379). -/
structure Power where
  cap : Nat
  idleMs : Nat
  idleSince : Nat
  withhold : Bool
  gated : List Nat
  restoring : Bool
  filter : List WakeEntry
  buffer : List Frame
  gatedAt : Option Nat := none
  deriving DecidableEq, Repr

/-- A place whose word carries an uncorrectable error (R100, R234, R312, R407): a register of a lane, a byte of
a lane-private slice, of a troupe's tile window, of a section's allotment or of a chip allotment, a line of an
L2 slice, an L1's copy of a line, or a line of an instruction cache. -/
inductive Upset where
  | reg (troupe lane reg : Nat)
  | priv (troupe lane off : Nat)
  | tile (troupe off : Nat)
  | sect (ens sec off : Nat)
  | chip (launch die off : Nat)
  | line (die line : Nat)
  | l1 (die core key : Nat)
  | code (die core line : Nat)
  deriving DecidableEq, Repr

/-- An instruction that issued in the current clock: its partition, port, path, PC and slices, whether
a partner has issued with it (R47, R52), and how many of its register reads the uniform store may have served (R97). -/
structure Issued where
  die : Nat
  core : Nat
  part : Nat
  port : Nat
  path : PathRef
  pc : Nat
  slices : BitVec 8
  paired : Bool
  uni : Nat := 0
  deriving DecidableEq, Repr

/-- A place at which the requests of one clock are served in a given order (R27, R115, R198, R228, R248, R290,
R299, R315, R325, R341, R350, R358, R379, R393, R396, R401): a troupe, an ensemble, a pair of slots, the item
queue for a section, a mailbox word, a die-to-die channel, a copy channel, an unmasking slot, a line of a slice,
a core's copy of a line, an on-chip range of a launch or section by its 128-byte line, a ring, a page, a launch,
a membership table, the retirements of a die, the start of commands, a die's setting of leases, the recovery of a die's switches, and the hand-over of the service. -/
inductive Spot where
  | troupe (t : Nat)
  | ens (e : Nat)
  | pair (die core part k : Nat)
  | refill (ens sec : Nat)
  | word (addr : Nat)
  | chan (src dst : Nat)
  | copy (ens sec k : Nat)
  | slot (die k : Nat)
  | line (home ln : Nat)
  | copyOf (die core key : Nat)
  | scratch (ens sec ln : Nat)
  | chip (launch die ln : Nat)
  | ring (die n : Nat)
  | page (sid base : Nat)
  | launch (l : Nat)
  | group (g : Nat)
  | retire (die : Nat)
  | start
  | lease (die : Nat)
  | recovery (die : Nat)
  | handover
  deriving DecidableEq, Repr

/-- One choice of the agenda: a happening; the issue of one path; a unit that does not accept a path's head in
this clock (R48); a clock; a clock in which a die's %clock goes on by none or two, within R107; an uncorrectable error; a
corrected error of a register of a core, or of a die's SRAM (R99, R312); a mismatch of the double issue of a path's head
(R51), or of a pass of a matrix operation (R276); one row of a quarter of a matrix operation (R273), or its end, which may use the latched fragments
(R274); one element of an operation moved before its turn, or bytes that it reads before their turn (R354); a line that a
cache of a core gives up, its L1 or with `code` its instruction cache (R300, R307); a quarter that joins the pass of another
(R274); or `n` register reads of an instruction that has issued in this clock, served from the uniform store (R97). -/
inductive Act where
  | event (i : Instr)
  | issue (p : PathRef)
  | busy (p : PathRef)
  | tick
  | skew (die k : Nat)
  | upset (u : Upset)
  | corrected (die : Nat) (core : Option Nat)
  | mismatch (p : PathRef) (second : Bool)
  | residue (troupe op : Nat) (second : Bool)
  | row (troupe op q : Nat) (reuse : Bool)
  | reuse (troupe op : Nat)
  | part (troupe op k : Nat)
  | replace (die core : Nat) (code : Bool) (key : Nat)
  | ahead (troupe op va n : Nat)
  | fuse (troupe op q op2 q2 : Nat)
  | uniform (p : PathRef) (n : Nat)
  deriving DecidableEq, Repr

/-- The whole device. `seenPass` and `seenOpen` hold, within one step, the greatest pass time of a write that an
engine's reads have returned, and the coherent bytes that these found before they stood at `.pool` (R356). `turns` holds, for each place that requests of this clock have reached, the rank of the
last one, and `late` is set by a request that should have come before it. -/
structure State where
  now : Nat
  agenda : List Act
  cur : Option PathRef
  issued : List Issued
  turns : List (Spot × Nat)
  late : Bool
  seenPass : Nat
  seenOpen : List Nat
  free : Nat
  fresh : Nat
  pbound : Nat
  dies : List Die
  ext : List ExtSet
  pool : Memory
  devWrites : List (Nat × Nat × DWord)
  errs : List Upset
  channels : List (Nat × List ChanReq)
  unmaps : List (Nat × Nat)
  subs : List Submitter
  cmds : List Command
  sent : List Record
  launches : List Launch
  queue : List Candidate
  ens : List Ensemble
  troupes : List Troupe
  nodeTables : List (Nat × List NodeEntry)
  graphs : List GraphRun
  ringOwner : List (Nat × Nat)
  groups : List Group
  halts : List Troupe
  fw : Firmware
  pw : Power
  ev : List (Nat × DWord)
  deriving DecidableEq, Repr

/-- The reasons a step can stop the machine with a fault. The faults of chapter 05 are none of
these: a step TAKES them, as a next state. -/
inductive Fault where
  /-- Raised by every instruction when no path of a running troupe issues it (`State.cur` names
  none): no agent executes the instruction, so the manual gives no effect. Safe: no step of the
  machine reaches it, since a step sets the issuing path before it executes an instruction. -/
  | noIssuer
  deriving DecidableEq, Repr

/-- The reasons a step can be refused. -/
inductive Refusal where
  /-- Raised by an arm of `exec` whose instruction has no meaning yet. Safe. -/
  | notModelled (mnemonic : String)
  deriving DecidableEq, Repr

/-- A die after device reset: caches and mailbox words empty, rings +0, slots Free (R300, R380,
R394, R400). -/
def Die.reset : Die :=
  { skew := 0, cores := [], l2 := [], lambda := Config.lambdaReset, mbox := [], depOwner := [],
    rings := [],
    um := List.replicate 16
      { owner := none, st := .free, cfg := none, masked := [], sel := [], dirty := [], queue := [] },
    ev := [], off := 0, spares := 4, retired := 0, replace := false, faulty := [], mapped := [], strikes := [],
    errlog := [],
    portsDown := [], recovering := [], reqs := [], snoops := [], msgs := [], hot := false, fails := [], tags := 0 }

/-- Firmware after a device reset whose three stages verified (R430, R437; log 3: the images are
not the manual's, so their measurement, version and lists are empty). -/
def Firmware.reset : Firmware :=
  { recovery := false, mode := 1, version := 0, meas := 0, m1 := 0,
    config := { digest := 0, admission := [] }, lastGood := none, recoveryAddr := 0,
    antiRollback := 0, staged := none, committing := none, frozen := false, thermalCause := false,
    l2Mib := 448, flash := [], resetDue := false }

/-- Power state after device reset (R442, R444): CAP is 2,400 W; no filter entry is valid. -/
def Power.reset : Power :=
  { cap := 2400, idleMs := 0, idleSince := 0, withhold := false, gated := [], restoring := false,
    filter := List.replicate 16 { valid := false, src := 0, srcMask := 0, pat := 0, patMask := 0 },
    buffer := [] }

/-- The machine right after device reset: nothing placed, every queue and table empty (R359, R380),
%clock 0, %pbound 16,384 (R106), every memory with nothing listed. -/
def State.reset : State :=
  { now := 0, agenda := [], cur := none, issued := [], turns := [], late := false, seenPass := 0, seenOpen := [], free := 0, fresh := 1, pbound := Config.pboundReset,
    dies := List.replicate 4 Die.reset, ext := [], pool := [], devWrites := [], errs := [], channels := [], unmaps := [],
    subs := [], cmds := [], sent := [], launches := [], queue := [], ens := [], troupes := [],
    nodeTables := [], graphs := [], ringOwner := [], groups := [], halts := [],
    fw := Firmware.reset, pw := Power.reset, ev := [] }

end Sys2Proof.Machine
end

