-- ==== Sys2Proof/Machine/Maps.lean ====
section
/-! DEFINITION. Sparse maps in canonical form (keys strictly rising, no entry equal to what an unlisted
key reads as), memories over them, byte order, and small list operations that the kernel evaluates. -/

namespace Sys2Proof.Machine

/-- The value at a key; `z` where the map lists none. -/
def mget {α : Type} (z : α) : List (Nat × α) → Nat → α
  | [], _ => z
  | (j, v) :: r, k => if j = k then v else mget z r k

/-- An entry put at its place. -/
def mput {α : Type} (k : Nat) (v : α) : List (Nat × α) → List (Nat × α)
  | [] => [(k, v)]
  | (j, w) :: r => if k < j then (k, v) :: (j, w) :: r else if j = k then (k, v) :: r
    else (j, w) :: mput k v r

/-- A key's entries taken out. -/
def mdel {α : Type} (k : Nat) : List (Nat × α) → List (Nat × α)
  | [] => []
  | (j, w) :: r => if j = k then mdel k r else (j, w) :: mdel k r

/-- A key set to a value; the value `z` of unlisted keys removes the entry. -/
def mset {α : Type} [DecidableEq α] (z : α) (m : List (Nat × α)) (k : Nat) (v : α) : List (Nat × α) :=
  if v = z then mdel k m else mput k v m

/-- Keys strictly rising. -/
def mrising {α : Type} : List (Nat × α) → Bool
  | [] => true
  | (j, _) :: r => (match r with | [] => true | (k, _) :: _ => decide (j < k)) && mrising r

/-- The canonical form of a map. -/
def mwf {α : Type} [DecidableEq α] (z : α) (m : List (Nat × α)) : Bool :=
  mrising m && m.all fun e => !decide (e.2 = z)

/-- The entry at a key, where there is one. -/
def mfind {α : Type} : List (Nat × α) → Nat → Option α
  | [], _ => none
  | (j, v) :: r, k => if j = k then some v else mfind r k

/-- The canonical form of a memory: addresses strictly rising, and no entry equal to what an unlisted
address reads as. -/
abbrev Memory.wf (m : Memory) : Bool := mwf Memory.unlisted m

/-- One byte of a memory. -/
def Memory.byte (m : Memory) (a : Nat) : Byte := mget Memory.unlisted m a

/-- One byte written. -/
def Memory.put (m : Memory) (a : Nat) (b : Byte) : Memory := mset Memory.unlisted m a b

/-- `n` bytes from an address, lowest first. -/
def Memory.bytes (m : Memory) (a : Nat) : Nat → List Byte
  | 0 => []
  | n + 1 => m.byte a :: Memory.bytes m (a + 1) n

/-- Bytes written from an address upward. -/
def Memory.write (m : Memory) (a : Nat) : List Byte → Memory
  | [] => m
  | b :: bs => Memory.write (m.put a b) (a + 1) bs

/-- The value of bytes in little-endian order (chapter 00). -/
def leNat : List Byte → Nat
  | [] => 0
  | b :: bs => b.toNat + 256 * leNat bs

/-- The `n` low bytes of a value, lowest first. -/
def leBytes : Nat → Nat → List Byte
  | 0, _ => []
  | n + 1, v => BitVec.ofNat 8 v :: leBytes n (v / 256)

/-- `n` bytes as a little-endian value. -/
def Memory.nat (m : Memory) (a n : Nat) : Nat := leNat (m.bytes a n)

/-- The entries of [a, a + n), renumbered from 0: a line's copy. -/
def Memory.cut (m : Memory) (a n : Nat) : Memory :=
  (m.filter fun e => decide (a ≤ e.1 ∧ e.1 < a + n)).map fun e => (e.1 - a, e.2)

/-- A Nat put into a rising list of Nats. -/
def ninsert (k : Nat) : List Nat → List Nat
  | [] => [k]
  | j :: r => if k < j then k :: j :: r else if j = k then j :: r else j :: ninsert k r

/-- The list of all the numbers from a to b, both included. -/
def nspan (a b : Nat) : List Nat := (List.range (b + 1 - a)).map (a + ·)

/-- The union of two rising lists. -/
def nunion (a b : List Nat) : List Nat := b.foldl (fun l k => ninsert k l) a

/-- An element of a list changed. -/
def lmod {α : Type} (f : α → α) : List α → Nat → List α
  | [], _ => []
  | x :: r, 0 => f x :: r
  | x :: r, n + 1 => x :: lmod f r n

/-- Truncating lookup in a list of default zero. -/
def lget {α : Type} (z : α) : List α → Nat → α
  | [], _ => z
  | x :: _, 0 => x
  | _ :: r, n + 1 => lget z r n

/-- Elements with their positions. -/
def lenumFrom {α : Type} (k : Nat) : List α → List (Nat × α)
  | [] => []
  | x :: r => (k, x) :: lenumFrom (k + 1) r

def lenum {α : Type} (l : List α) : List (Nat × α) := lenumFrom 0 l

/-- The lanes of a 32-bit mask, rising (R33). -/
def lanesOf (m : Word) : List Nat := (List.range 32).filter fun l => m.getLsbD l

/-- The mask of a list of lanes. -/
def maskOf (ls : List Nat) : Word := ls.foldl (fun m l => m ||| BitVec.ofNat 32 (2 ^ l)) 0

/-- The lanes of a slice set (chapter 01: slice s holds lanes 4s to 4s + 3). -/
def sliceLanes (ss : BitVec 8) : Word := maskOf ((List.range 32).filter fun l => ss.getLsbD (l / 4))

/-- The slices with a lane of the mask. -/
def slicesOf (m : Word) : BitVec 8 :=
  (List.range 8).foldl (fun b s =>
    if m.getLsbD (4 * s) || m.getLsbD (4 * s + 1) || m.getLsbD (4 * s + 2) || m.getLsbD (4 * s + 3)
    then b ||| BitVec.ofNat 8 (2 ^ s) else b) 0

/-- One bit of a slice set. -/
def sliceBit (s : Nat) : BitVec 8 := BitVec.ofNat 8 (2 ^ s)

/-- The slices of a set, rising. -/
def sliceList (b : BitVec 8) : List Nat := (List.range 8).filter fun s => b.getLsbD s

/-- Whether the mask holds the lane. -/
def hasLane (m : Word) (l : Nat) : Bool := m.getLsbD l

/-- A signed 32-bit displacement or offset (R165, R231). -/
def sext32 (w : Word) : Int := w.toInt

end Sys2Proof.Machine
end

