-- ==== Sys2Proof/Machine/Memsys.lean ====
section
/-! DEFINITION. The memory system (chapters 10 to 12): dies and cores, event counters, translation,
the L2 slices with their horizons and MOESI states, the L1s with their leases, and reads and writes of
one byte range at a resolved location. -/

namespace Sys2Proof.Machine

/-! ### Dies, cores and counters -/

/-- A compute die. -/
def State.die (s : State) (d : Nat) : Die := lget Die.reset s.dies d

/-- A compute die changed. -/
def State.modDie (s : State) (d : Nat) (f : Die → Die) : State := { s with dies := lmod f s.dies d }

/-- A core with empty caches and counters at 0 (R300, R394). -/
def Core.empty : Core := { l1 := [], icache := [], ev := [] }

/-- A core of a die. -/
def State.core (s : State) (d c : Nat) : Core := mget Core.empty (s.die d).cores c

/-- A core changed. -/
def State.modCore (s : State) (d c : Nat) (f : Core → Core) : State :=
  s.modDie d fun D => { D with cores := mset Core.empty D.cores c (f (mget Core.empty D.cores c)) }

/-- A 64-bit event counter raised, wrapping to 0 (R394, R397). -/
def bump (ev : List (Nat × DWord)) (k n : Nat) : List (Nat × DWord) :=
  mset 0 ev k (mget 0 ev k + BitVec.ofNat 64 n)

/-- A core event counted (R397, 0x00–0x13). -/
def State.countCore (s : State) (d c k n : Nat) : State :=
  s.modCore d c fun C => { C with ev := bump C.ev k n }

/-- A die event counted (R397, 0x40–0x4F). -/
def State.countDie (s : State) (d k n : Nat) : State := s.modDie d fun D => { D with ev := bump D.ev k n }

/-- %clock of a die: 64 bits, within 2 of the others (R106, R107). -/
def State.clock (s : State) (d : Nat) : DWord := BitVec.ofNat 64 (s.now + (s.die d).skew)

/-! ### The order of requests of one clock -/

/-- A request reaches a place: it comes too late where one of a higher rank has been served there in this clock. -/
def State.takes (s : State) (sp : Spot) (k : Nat) : State :=
  match s.turns.find? fun e => e.1 == sp with
  | none => { s with turns := (sp, k) :: s.turns }
  | some e =>
    if k < e.2 then { s with late := true }
    else { s with turns := s.turns.map fun e => if e.1 = sp then (sp, k) else e }

/-- A request has been served at a place in the course of another: what comes later in the clock has the higher rank. -/
def State.notes (s : State) (sp : Spot) (k : Nat) : State :=
  match s.turns.find? fun e => e.1 == sp with
  | none => { s with turns := (sp, k) :: s.turns }
  | some e => if k < e.2 then s else { s with turns := s.turns.map fun e => if e.1 = sp then (sp, k) else e }

/-- The rank of a compute-die troupe among requesters: by die, %coreid, partition and troupe slot (R248, R325). -/
def rankAt (d c p k : Nat) : Nat := ((d * 64 + c) * 4 + p) * 16 + k

/-- The rank of a troupe, below every engine's. -/
def Troupe.rank (t : Troupe) : Nat := rankAt t.die t.core t.part t.slot

/-- The rank of the engines of a die: after every core (R325, R350). -/
def engineRank (d : Nat) : Nat := 2 ^ 14 + d

/-- A rank above those of every core and engine: what comes after the writes of a clock (R325). -/
def afterWrites : Nat := 2 ^ 15

/-! ### Pages (R313–R318, R386) -/

/-- The submitter whose address space an identifier names. -/
def State.sub? (s : State) (sid : Nat) : Option Submitter := s.subs.find? fun u => u.sid == sid

/-- A submitter changed. -/
def State.modSub (s : State) (sid : Nat) (f : Submitter → Submitter) : State :=
  { s with subs := s.subs.map fun u => if u.sid = sid then f u else u }

/-- The page that holds a global address, with its first address. -/
def pageOf : List (Nat × Pte) → Nat → Option (Nat × Pte)
  | [], _ => none
  | (b, p) :: r, va => if b ≤ va ∧ va < b + p.size then some (b, p) else pageOf r va

/-- The page of an address in a submitter's space. -/
def State.page? (s : State) (sid va : Nat) : Option (Nat × Pte) :=
  match s.sub? sid with
  | some u => pageOf u.pages va
  | none => none

/-- A page table entry changed. -/
def State.modPage (s : State) (sid base : Nat) (f : Pte → Pte) : State :=
  s.modSub sid fun u => { u with pages := u.pages.map fun e => if e.1 = base then (e.1, f e.2) else e }

/-- The home die of a page as seen from die `d`: an unpinned page takes the die of its first
translation (R315). -/
def Pte.homeFrom (p : Pte) (d : Nat) : Nat := p.home.getD d

/-- A demand translation by an agent of a die: the first one of an unpinned page fixes its home die, the lowest
of the dies that touch it in that clock (R315, R320). -/
def State.touchPage (s : State) (sid va d : Nat) : State :=
  match s.page? sid va with
  | none => s
  | some (b, p) =>
    let s := if p.walked.getLsbD d && p.home.isSome then s
      else s.modPage sid b fun q => { q with home := some (q.homeFrom d), walked := q.walked ||| BitVec.ofNat 4 (2 ^ d) }
    if p.home.isNone || s.turns.any fun e => e.1 == .page sid b then s.takes (.page sid b) d else s

/-- An access has found a page not resident: it will be filled (R386). -/
def State.touchAbsent (s : State) (sid va : Nat) : State :=
  match s.page? sid va with
  | some (b, p) => if p.res then s else s.modPage sid b fun q => { q with touched := true }
  | none => s

/-- Whether a page has been translated for an agent of a die on demand, so that a prefetch may use it (R174,
R320). -/
def Pte.translated (p : Pte) (d : Nat) : Bool := p.walked.getLsbD d

/-- What a translation gives: no page, a page not resident, or the location with the page's kind and
permissions (R318). -/
inductive Trans where
  | unmapped
  | absent
  | ok (home pa : Nat) (p : Pte)
  deriving DecidableEq, Repr

/-- The translation of a global address for an agent of die `d`. No page ever maps the engine
windows (R305). -/
def State.translate (s : State) (sid d va : Nat) : Trans :=
  if Config.windowBase ≤ va then .unmapped
  else match s.page? sid va with
    | none => .unmapped
    | some (b, p) => if p.res then .ok (p.homeFrom d) (p.pa + (va - b)) p else .absent

/-- The location behind a translated address. -/
def targetOf (home pa : Nat) (p : Pte) : Target :=
  if p.kind = .device then .device home pa else .pool home pa p.kind

/-! ### Ports and the pool (R314) -/

/-- The port that carries an address: PA[9:7], or the next working port after it. -/
def portWith (down : List Nat) (pa : Nat) : Option Nat :=
  ((List.range 8).map fun k => (pa / 128 + k) % 8).find? fun p => !down.contains p

/-- The port of an address on its home die. -/
def State.port (s : State) (d pa : Nat) : Option Nat := portWith (s.die d).portsDown pa

/-- Whether a shared-coherent line waits for the recovery of its port's switch (R425 step 1). -/
def State.inRecovery (s : State) (d ln : Nat) : Bool :=
  let D := s.die d
  match portWith (D.portsDown.filter fun p => !D.recovering.contains p) (ln * 128) with
  | some p => D.recovering.contains p
  | none => false

/-! ### Lines of an L2 slice (R308, R311, R322) -/

/-- A line of a slice. -/
def State.line? (s : State) (d ln : Nat) : Option L2Line := mfind (s.die d).l2 ln

/-- A line put into a slice. -/
def State.putLine (s : State) (d ln : Nat) (l : L2Line) : State :=
  s.modDie d fun D => { D with l2 := mput ln l D.l2 }

/-- What a line holds as far as its owner knows: the bytes that await ownership are as they were (R351). -/
def L2Line.ownData (l : L2Line) : Memory := l.owned.foldl (fun m e => m.put e.1 e.2) l.data

/-- The dirty bytes that are the owner's: those that no accepted write alone has made dirty. -/
def L2Line.ownDirty (l : L2Line) : List Nat :=
  l.dirty.filter fun k => !l.accepted.contains k || (mfind l.owned k).isSome

/-- A line that its owner holds in M, with nothing left to accept (R351). -/
def L2Line.owns (l : L2Line) : L2Line := { l with st := .m, accepted := [], owned := [] }

/-- A line taken out of a slice. -/
def State.delLine (s : State) (d ln : Nat) : State :=
  { s.modDie d fun D => { D with l2 := mdel ln D.l2 } with
    errs := s.errs.filter fun e => e != .line d ln }

/-- A line as a fill brings it in at the current clock (R308: the horizon starts there), with the
bytes that the pool holds. -/
def State.fresh? (s : State) (ln : Nat) (coh : Bool) (st : Moesi) : L2Line :=
  { data := s.pool.cut (ln * 128) 128, dirty := [], accepted := [], raced := [], horizon := s.now, pass := 0,
    passes := [], st := st, coherent := coh, leaving := false, once := none }

/-- The pool bytes that a line's dirty bytes become (R311: dirty bytes alone). -/
def poolWith (pool : Memory) (ln : Nat) (l : L2Line) : Memory :=
  l.dirty.foldl (fun p k => p.put (ln * 128 + k) (l.data.byte k)) pool

/-- The dirty bytes of a line whose values the pool takes at a write-back: of a byte that the submitter wrote to
the pool meanwhile, the pool may keep either value (R450, log 29). -/
def L2Line.written (l : L2Line) (free : Nat) : L2Line :=
  { l with dirty := l.dirty.filter fun k => !(l.raced.contains k && Config.poolRace (free + k)) }

/-- A line's dirty bytes written to the pool (R312), counted by POOL_WR (R398). -/
def State.writeBack (s : State) (d ln : Nat) : State :=
  match s.line? d ln with
  | none => s
  | some l =>
    if l.dirty = [] then s
    else
      let s := { s with pool := poolWith s.pool ln (l.written s.free), free := s.free + 128 }
      (s.putLine d ln { l with dirty := [], accepted := [], raced := [] }).countDie d 0x45 l.dirty.length

/-- A message to the switch, with its tag and, where it carries them, data (R324). -/
def State.sendCxl (s : State) (d : Nat) (m : CxlMsg) (ln tag : Nat) (data : Option (Memory × List Nat)) : State :=
  s.modDie d fun D => { D with msgs := D.msgs ++ [{ msg := m, line := ln, tag := tag, data := data }] }

/-- A request to the switch that awaits its answer, under a tag of its own. -/
def State.askAs (s : State) (d ln : Nat) (m : CxlMsg) (data : Option (Memory × List Nat)) (r : CxlWait) : State :=
  let tag := (s.die d).tags
  (s.sendCxl d m ln tag data).modDie d fun D =>
    { D with reqs := D.reqs ++ [{ r with line := ln, tag := tag, since := s.now }], tags := tag + 1 }

/-- A request for a line, sent once for a line at a time. -/
def State.askCxl (s : State) (d ln : Nat) (k : CxlReq) (who : Asker) (keep : Bool) : State :=
  s.askAs d ln (match k with | .rdS => .rdS | .rdX => .rdX | .upg => .upg | .wb => .wbI | .evc => .evC) none
    { line := ln, tag := 0, kind := k, since := 0, who := who, keep := keep }

/-- A write-back of the bytes of a line that are dirty, in the message WbI, WbS or WbE. -/
def State.sendWb (s : State) (d ln : Nat) (m : CxlMsg) (l : L2Line) : State :=
  s.askAs d ln m (some (l.data, l.dirty)) { line := ln, tag := 0, kind := .wb, since := 0, who := .device }

/-- A write-back by WbI of bytes that are at `.pool` once it is answered (R423, R425). -/
def State.sendOpen (s : State) (d ln : Nat) (l : L2Line) : State :=
  s.askAs d ln .wbI (some (l.data, l.dirty))
    { line := ln, tag := 0, kind := .wb, since := 0, who := .device, bytes := l.dirty }

/-- Whether a request asks for a line's data or ownership. -/
def CxlReq.gets : CxlReq → Bool
  | .rdS | .rdX | .upg => true
  | .wb | .evc => false

/-- An agent awaits the answer to a request that another has made; the slice keeps the line where one of them
wants it (R237). -/
def State.joinAsk (s : State) (d ln : Nat) (who : Asker) (keep : Bool) : State :=
  s.modDie d fun D => { D with reqs := D.reqs.map fun r =>
    if r.line = ln ∧ r.kind.gets = true then
      { r with also := if r.who = who ∨ r.also.contains who = true then r.also else r.also ++ [who]
               keep := r.keep || keep }
    else r }

/-- Whether a write of a line's byte awaits the answer to its write-back (R423, R425). -/
def State.sending (s : State) (d ln off : Nat) : Bool :=
  (s.die d).reqs.any fun r => r.line == ln && r.bytes.contains off

/-- Whether a request for a line's data or ownership is outstanding. -/
def State.asking (s : State) (d ln : Nat) : Bool :=
  (s.die d).reqs.any fun r => r.line == ln && r.kind.gets

/-- A line is asked for, or its asker joins those that await it. -/
def State.ask (s : State) (d ln : Nat) (k : CxlReq) (who : Asker) (keep : Bool) : State :=
  if s.asking d ln then s.joinAsk d ln who keep else s.askCxl d ln k who keep

/-- A line leaves its slice, its horizon having passed: dirty bytes go to the pool; a coherent line
sends EvC or WbI (R312, R323). -/
def State.leave (s : State) (d ln : Nat) : State :=
  match s.line? d ln with
  | none => s
  | some l =>
    if l.coherent then
      match l.st with
      | .m | .o => ((s.writeBack d ln).delLine d ln).sendWb d ln .wbI l
      | .e | .s => (s.delLine d ln).askCxl d ln .evc .device true
      | .i => if l.accepted = [] then s.delLine d ln else s
    else (s.writeBack d ln).delLine d ln

/-- What an access to a line finds: the line; a wait for the switch; or no working port (R314). -/
inductive Avail where
  | ready (s : State) (l : L2Line)
  | waits (s : State)
  | dead
  deriving DecidableEq, Repr

/-- The lines that a slice holds, or has asked the switch for to keep them (R3, R303). -/
def State.used (s : State) (d : Nat) : Nat :=
  (s.die d).l2.length + ((s.die d).reqs.filter fun r => r.kind.gets && r.keep && (s.line? d r.line).isNone).length

/-- Whether a slice has no room for another line in its part of the stacked SRAM (R3, R303, R436). -/
def State.full (s : State) (d : Nat) : Bool := decide (s.fw.l2Mib * 8192 ≤ s.used d)

/-- A fill that finds no room waits; where every line's horizon lies ahead, it waits for the earliest one (R308). A
prefetch does not wait. -/
def State.holdFill (s : State) (d ln : Nat) (who : Asker) : State :=
  if who ≠ .device ∧ ((s.die d).l2.all fun e => decide (s.now < e.2.horizon)) = true then
    s.modDie d fun D => { D with held := ninsert ln D.held }
  else s

/-- Whether a line serves an access: one that a GntNC answer has brought serves its asker alone (R323), and with a
load's lane the lanes that read the same bytes (R233). -/
def L2Line.serves (l : L2Line) (who : Asker) : Bool :=
  match l.once, who with
  | none, _ => true
  | some (.lane i k _), .lane j m _ => i == j && k == m
  | some w, _ => w == who

/-- The line of a read of the bytes `offs`: a fill where it is absent (R307, R311), kept but for a bypass
(R237), RdS where a coherent line is I (R323); accepted bytes are readable at once (R351). A line that a GntNC
answer has brought serves its asker alone. A fill of a full slice waits until a line has left. -/
def State.lineRead (s : State) (d ln : Nat) (coh : Bool) (offs : List Nat) (who : Asker) (keep : Bool) :
    Avail :=
  match s.line? d ln with
  | some l =>
    if coh && s.inRecovery d ln || !l.serves who then .waits s
    else if l.st = .i && !offs.all fun o => l.dirty.contains o then .waits (s.ask d ln .rdS who keep)
    else .ready s l
  | none =>
    if coh && s.inRecovery d ln then .waits s
    else match s.port d (ln * 128) with
    | none => .dead
    | some _ =>
      if keep && !(coh && s.asking d ln) && s.full d then .waits (s.holdFill d ln who)
      else if coh then .waits (s.ask d ln .rdS who keep)
      else
        let l := s.fresh? ln false .e
        .ready ((if keep then s.putLine d ln l else s).countDie d 0x44 128) l

/-- The line of a write: in I, S and O the bytes are accepted at once and ownership is asked for
(R351); E becomes M without a message (R323). -/
def State.lineWrite (s : State) (d ln : Nat) (coh : Bool) (who : Asker) (keep : Bool) : Avail :=
  match s.line? d ln with
  | some l =>
    if coh && s.inRecovery d ln || !l.serves who then .waits s
    else if coh then
      match l.st with
      | .m => .ready s l
      | .e => .ready s { l with st := .m }
      | .s | .o => .ready (s.ask d ln .upg who keep) l
      | .i => .ready (s.ask d ln .rdX who keep) l
    else .ready s { l with st := .m }
  | none =>
    if coh && s.inRecovery d ln then .waits s
    else match s.port d (ln * 128) with
    | none => .dead
    | some _ =>
      if !s.asking d ln && s.full d then .waits (s.holdFill d ln who)
      else if coh then .ready (s.ask d ln .rdX who keep) { s.fresh? ln true .i with data := [] }
      else .ready (s.countDie d 0x44 128) { s.fresh? ln false .m with st := .m }

/-- The line of an atomic or RED: at `.pool` on a coherent line it must be in M before the read
(R323, R351); otherwise its old bytes must be readable. -/
def State.lineAtomic (s : State) (d ln : Nat) (coh pool : Bool) (offs : List Nat)
    (who : Asker) : Avail :=
  if coh && pool then
    match s.line? d ln with
    | some l =>
      if s.inRecovery d ln || !l.serves who then .waits s
      else match l.st with
        | .m => .ready s l
        | .e => .ready s { l with st := .m }
        | .s | .o => .waits (s.ask d ln .upg who true)
        | .i => .waits (s.ask d ln .rdX who true)
    | none =>
      if s.inRecovery d ln then .waits s
      else match s.port d (ln * 128) with
        | none => .dead
        | some _ =>
          if !s.asking d ln && s.full d then .waits (s.holdFill d ln who) else .waits (s.ask d ln .rdX who true)
  else
    match s.lineRead d ln coh offs who true with
    | .ready s _ => s.lineWrite d ln coh who true
    | a => a

/-- The offsets of `n` bytes of a line from an offset. -/
def lineOffs (off n : Nat) : List Nat := (List.range n).map (off + ·)

/-- The greatest pass time of the writes that bytes of a line hold (R309). -/
def passOf (ps : List (Nat × Nat)) (off n : Nat) : Nat := (lineOffs off n).foldl (fun m o => max m (mget 0 ps o)) 0

/-- The key of a pool byte: its home die and physical address. -/
def byteKey (home pa : Nat) : Nat := pa * 4 + home

/-- The bytes of a coherent line that stand accepted and not yet at `.pool` (R351). -/
def L2Line.open_ (l : L2Line) (home ln off n : Nat) : List Nat :=
  ((lineOffs off n).filter l.accepted.contains).map fun o => byteKey home (ln * 128 + o)

/-- The bytes of a line from an offset. -/
def L2Line.read (l : L2Line) (off n : Nat) : List Byte := l.data.bytes off n

/-- Bytes written into a line with its dirty mask: the positions whose mask bit is 1. Bytes of a coherent line
that is not in M are accepted (R351); of a dirty byte among them, what it held stays known. -/
def L2Line.write (l : L2Line) (off : Nat) (bs : List Byte) (mask : BitVec 16) : L2Line :=
  (lenum bs).foldl (fun l e =>
    let k := off + e.1
    if mask.getLsbD e.1 then
      { l with data := l.data.put k e.2, dirty := ninsert k l.dirty
               accepted := if l.coherent && l.st != .m then ninsert k l.accepted else l.accepted
               owned := if l.coherent && l.st != .m && l.dirty.contains k && !l.accepted.contains k then
                   mput k (l.data.byte k) l.owned else l.owned }
    else l) l

/-- The pass times of a line after a write of some bytes at `w`. -/
def passesWith (ps : List (Nat × Nat)) (off n : Nat) (mask : BitVec 16) (w : Nat) : List (Nat × Nat) :=
  (List.range n).foldl (fun ps i => if mask.getLsbD i then mput (off + i) w ps else ps) ps

/-- Bytes written into an L1 copy, with their pass time. -/
def L1Line.write (l : L1Line) (off : Nat) (bs : List Byte) (mask : BitVec 16) (w : Nat) : L1Line :=
  (lenum bs).foldl (fun l e =>
    if mask.getLsbD e.1 then { l with data := l.data.put (off + e.1) e.2 } else l)
    { l with passes := passesWith l.passes off bs.length mask w }

/-- A copy that a write of its core has updated: its bytes date from `n`, and those of the line that await ownership now
are the copy's too (R330, R347). -/
def L1Line.follows (q : L1Line) (l : L2Line) (n : Nat) : L1Line :=
  { q with filled := n, opens := l.accepted, openNo := l.openNo }

/-- The key of a line in an L1: the home die and the line number. -/
def l1Key (d ln : Nat) : Nat := ln * 4 + d

/-- A core's copy of a line. -/
def State.l1? (s : State) (d c home ln : Nat) : Option L1Line := mfind (s.core d c).l1 (l1Key home ln)

/-- A core's copy dropped (R310). -/
def State.dropL1 (s : State) (d c home ln : Nat) : State :=
  s.modCore d c fun C => { C with l1 := mdel (l1Key home ln) C.l1 }

/-- Every core's copy of a line dropped (R319). -/
def State.dropL1All (s : State) (home ln : Nat) : State :=
  { s with dies := s.dies.map fun D =>
      { D with cores := D.cores.map fun e => (e.1, { e.2 with l1 := mdel (l1Key home ln) e.2.l1 }) } }

/-- Traffic of `n` bytes between die `d` and home die `h` (R398). -/
def State.traffic (s : State) (d h n : Nat) (write : Bool) : State :=
  s.countDie d ((if d = h then 0x40 else 0x42) + if write then 1 else 0) n

/-- A write made at a line at the current clock: the slice holds the bytes, the issuing core's copy is
updated, and the pass time is max(t, H) (R309). -/
def State.commitWrite (s : State) (d c home ln : Nat) (l : L2Line) (off : Nat) (bs : List Byte)
    (mask : BitVec 16) : State × Nat :=
  let w := max s.now l.horizon
  let l := { l.write off bs mask with
    pass := max l.pass w, passes := passesWith l.passes off bs.length mask w
    openNo := if l.accepted = [] then s.fresh else l.openNo }
  let s := ({ s with fresh := s.fresh + 1 } : State).putLine home ln l
  (s.modCore d c fun C =>
    { C with l1 := C.l1.map fun e =>
        if e.1 = l1Key home ln then (e.1, (e.2.write off bs mask w).follows l (s.fresh - 1)) else e }, w)

/-! ### Sections, allotments and tile stores -/

/-- A troupe by its number. -/
def State.troupe? (s : State) (id : Nat) : Option Troupe := s.troupes.find? fun t => t.id == id

/-- A troupe changed. -/
def State.modTroupe (s : State) (id : Nat) (f : Troupe → Troupe) : State :=
  { s with troupes := s.troupes.map fun t => if t.id = id then f t else t }

/-- An ensemble by its number. -/
def State.ens? (s : State) (id : Nat) : Option Ensemble := s.ens.find? fun e => e.id == id

/-- An ensemble changed. -/
def State.modEns (s : State) (id : Nat) (f : Ensemble → Ensemble) : State :=
  { s with ens := s.ens.map fun e => if e.id = id then f e else e }

/-- A launch by its number. -/
def State.launch? (s : State) (id : Nat) : Option Launch := s.launches.find? fun l => l.id == id

/-- A launch changed. -/
def State.modLaunch (s : State) (id : Nat) (f : Launch → Launch) : State :=
  { s with launches := s.launches.map fun l => if l.id = id then f l else l }

/-- The launch of an ensemble. -/
def State.launchOf (s : State) (ens : Nat) : Option Launch :=
  match s.ens? ens with
  | some e => s.launch? e.launch
  | none => none

/-- The address space of a troupe: its launch's submitter (R313). -/
def State.sidOf (s : State) (t : Troupe) : Nat :=
  match s.launchOf t.ens with
  | some l => l.sid
  | none => 0

/-- A section with nothing in it. -/
def Section.empty : Section := { core := 0, allot := [], wp := [], chans := [], bars := [] }

/-- A section of an ensemble. -/
def State.sect (s : State) (ens k : Nat) : Section :=
  match s.ens? ens with
  | some e => lget Section.empty e.sections k
  | none => Section.empty

/-- A section changed. -/
def State.modSect (s : State) (ens k : Nat) (f : Section → Section) : State :=
  s.modEns ens fun e => { e with sections := lmod f e.sections k }

/-- The location that an explicit-space offset names for a troupe, where it is valid (R301). -/
def explicitTarget (t : Troupe) (l : Launch) (sp : Space) (off : Nat) : Option Target :=
  match sp with
  | .priv => if off < l.hdr.priv then some (.priv off) else none
  | .core => if off < l.hdr.scratch * 1024 then some (.sect t.sec off) else none
  | .clu =>
    let k := off / 2 ^ 20
    if off < 2 ^ 22 ∧ k < l.hdr.sections ∧ off % 2 ^ 20 < l.hdr.scratch * 1024 then
      some (.sect k (off % 2 ^ 20)) else none
  | .chip =>
    if off < 2 ^ 31 ∧ off % 2 ^ 29 < l.chipUnits * 65536 then
      some (.chip (off / 2 ^ 29) (off % 2 ^ 29)) else none
  | .glob => none

/-- The die at whose memory a location lies, for an agent of die `d` (R350). -/
def Target.dieOf (g : Target) (d : Nat) : Nat :=
  match g with
  | .chip k _ => k
  | .pool h _ _ | .device h _ => h
  | _ => d

/-- Who makes an access: a troupe, and the lane for a private slice. -/
structure Agent where
  t : Troupe
  lane : Nat
  deriving DecidableEq, Repr

/-- Bytes of an on-chip location (R304). -/
def State.readChip (s : State) (t : Troupe) (lane : Nat) (g : Target) (n : Nat) : List Byte :=
  match g with
  | .priv off =>
    match (s.troupe? t.id) with
    | some t => match t.lanes[lane]? with
      | some l => l.priv.bytes off n
      | none => List.replicate n 0
    | none => List.replicate n 0
  | .sect k off => (s.sect t.ens k).allot.bytes off n
  | .chip d off =>
    match s.launchOf t.ens with
    | some l => Memory.bytes (lget [] l.chip d) off n
    | none => List.replicate n 0
  | _ => List.replicate n 0

/-- A memory with the masked bytes written. -/
def Memory.writeMask (m : Memory) (a : Nat) (bs : List Byte) (mask : BitVec 16) : Memory :=
  (lenum bs).foldl (fun m e => if mask.getLsbD e.1 then m.put (a + e.1) e.2 else m) m

/-- A lane of a troupe changed. -/
def Troupe.modLane (t : Troupe) (l : Nat) (f : Lane → Lane) : Troupe := { t with lanes := lmod f t.lanes l }

/-- Bytes written at an on-chip location (R304). -/
def State.writeChip (s : State) (t : Troupe) (lane : Nat) (g : Target) (bs : List Byte)
    (mask : BitVec 16) : State :=
  match g with
  | .priv off =>
    s.modTroupe t.id fun t => t.modLane lane fun l => { l with priv := l.priv.writeMask off bs mask }
  | .sect k off => s.modSect t.ens k fun c => { c with allot := c.allot.writeMask off bs mask }
  | .chip d off =>
    match s.ens? t.ens with
    | some e => s.modLaunch e.launch fun l =>
        { l with chip := lmod (fun m => m.writeMask off bs mask) l.chip d }
    | none => s
  | _ => s

/-- Whether an on-chip range holds an uncorrectable error (R312). -/
def State.chipBad (s : State) (t : Troupe) (lane : Nat) (g : Target) (n : Nat) : Bool :=
  s.errs.any fun e => match g, e with
    | .priv off, .priv x l o => x == t.id && l == lane && decide (off ≤ o ∧ o < off + n)
    | .sect k off, .sect x j o => x == t.ens && j == k && decide (off ≤ o ∧ o < off + n)
    | .chip d off, .chip l j o =>
      (match s.ens? t.ens with | some n => n.launch == l | none => false) && j == d &&
        decide (off ≤ o ∧ o < off + n)
    | _, _ => false

/-- An uncorrectable error found: counted on the die of the storage, and logged with the core that has met it (R397,
R440). -/
def State.logFound (s : State) (at_ d c addr : Nat) : State :=
  (s.countDie at_ 0x4B 1).modDie d fun D =>
    { D with errlog := D.errlog ++ [{ addr := addr, core := c, clock := s.clock d }] }

/-- The same in storage of the core's own die. -/
def State.logError (s : State) (d c addr : Nat) : State := s.logFound d d c addr

/-! ### The turns of accesses (R325, R341) -/

/-- The number of the launch of a troupe. -/
def State.launchNo (s : State) (t : Troupe) : Nat := match s.ens? t.ens with | some e => e.launch | none => 0

/-- A write of a troupe, or of an engine for it, reaches its place: cores first, then engines, and before what
reads there; the issuing core's copy of the line is read before it (R325, R341). -/
def State.writeTurn (s : State) (t : Troupe) (eng : Bool) (g : Target) : State :=
  let k := if eng then engineRank t.die else t.rank
  match g with
  | .pool h pa _ => (s.takes (.line h (pa / 128)) k).takes (.copyOf t.die t.core (l1Key h (pa / 128))) 1
  | .sect j off => s.takes (.scratch t.ens j (off / 128)) k
  | .chip d off => s.takes (.chip (s.launchNo t) d (off / 128)) k
  | _ => s

/-- A lane's read follows the writes of its clock (R325, R449), but for those of its own core to a line, before which it
comes (R341): such a write waits for the next clock. -/
def State.readTurn (s : State) (t : Troupe) (g : Target) : State :=
  match g with
  | .pool h pa _ => (s.takes (.copyOf t.die t.core (l1Key h (pa / 128))) 0).takes (.line h (pa / 128)) afterWrites
  | .sect j off => s.takes (.scratch t.ens j (off / 128)) afterWrites
  | .chip d off => s.takes (.chip (s.launchNo t) d (off / 128)) afterWrites
  | _ => s

/-! ### The channels between dies (R350) -/

/-- Whether a request of a path, which waits for one answer at a time, is withdrawn from a channel by its next. -/
def ChanReq.moves : ChanReq → Bool
  | .mail _ => true
  | _ => false

/-- A request passes the channel from a die to another, once it is the oldest that stands there; until then it
stands in the channel. `k` is its rank among those that enter in this clock. -/
def State.passChan (s : State) (src dst : Nat) (r : ChanReq) (k : Nat) : State × Bool :=
  let c := src * 4 + dst
  let q := mget [] s.channels c
  if src = dst then (s, true)
  else match q with
    | [] => (s.takes (.chan src dst) k, true)
    | x :: rest =>
      if x = r then ({ s with channels := mset [] s.channels c rest }, true)
      else if rest.contains r then (s, false)
      else
        let cs := if r.moves then
            s.channels.map fun e => if e.1 / 4 = src then (e.1, e.2.filter fun y => y != r) else e
          else s.channels
        ({ s.takes (.chan src dst) k with channels := mput c (mget [] cs c ++ [r]) cs }, false)

/-- A request put into a channel that it does not stand in yet (R350). -/
def State.sendChan (s : State) (src dst : Nat) (r : ChanReq) (k : Nat) : State :=
  let c := src * 4 + dst
  if (mget [] s.channels c).contains r then s
  else { s.takes (.chan src dst) k with channels := mput c (mget [] s.channels c ++ [r]) s.channels }

/-- The request by which an agent's access stands in a channel. -/
def Asker.req : Asker → ChanReq
  | .lane t o l => .lane t o l
  | .op t o => .engine t o
  | .path p => .mail p
  | .code _ c ln => .code c ln true
  | .service | .device => .engine 0 0

/-! ### Engine addresses (R305) -/

/-- The location of one engine address for a troupe: a window of R301, or a global address. An error
is none for a window fault, or the fault of the translation. -/
def State.engineTarget (s : State) (t : Troupe) (va : Nat) : Option Trans × Option Target :=
  match s.launchOf t.ens with
  | none => (none, none)
  | some l =>
    if Config.windowBase ≤ va then
      let off := va % 2 ^ 40
      let sp : Option Space :=
        if va < Config.windowClu then some .core
        else if va < Config.windowChip then some .clu
        else if va < Config.windowChip + 2 ^ 40 then some .chip else none
      match sp with
      | some sp => if off < 2 ^ 32 then (none, explicitTarget t l sp off) else (none, none)
      | none => (none, none)
    else
      match s.translate l.sid t.die va with
      | .ok h pa p => (some (.ok h pa p), some (targetOf h pa p))
      | tr => (some tr, none)

/-- Whether an engine range lies whole in one window, where it begins at or above the windows, or
does not reach them (R305). Allotments of the greatest size leave no gap between one and the next. -/
def State.windowOk (s : State) (t : Troupe) (va n : Nat) : Bool :=
  let whole := match s.launchOf t.ens with
    | some l => (l.hdr.scratch == 1024, l.chipUnits * 65536 == 2 ^ 29)
    | none => (false, false)
  if n = 0 then true
  else if Config.windowBase ≤ va then
    match (s.engineTarget t va).2, (s.engineTarget t (va + n - 1)).2 with
    | some (.sect k a), some (.sect j b) =>
      (decide (k = j ∧ b = a + (n - 1)) || (whole.1 && decide (k < j))) && va / 2 ^ 40 == (va + n - 1) / 2 ^ 40
    | some (.chip k a), some (.chip j b) =>
      decide (k = j ∧ b = a + (n - 1)) || (whole.2 && decide (k < j) && va / 2 ^ 40 == (va + n - 1) / 2 ^ 40)
    | _, _ => false
  else decide (va + n ≤ Config.windowBase)

/-! ### Immediate reads and writes by engines and the service -/

/-- The result of an engine's access: bytes; a wait for a coherent line; an uncorrectable error. -/
inductive Got where
  | bytes (s : State) (bs : List Byte)
  | waits (s : State)
  | bad (s : State)
  deriving DecidableEq, Repr

/-- One byte of a pool location read at its slice by an agent of die `d`, with what it shows of the write that it
returns (R356). -/
def State.poolByte (s : State) (d home pa : Nat) (coh : Bool) (who : Asker) : Got :=
  let ln := pa / 128
  match s.lineRead home ln coh [pa % 128] who true with
  | .ready s l =>
    if s.errs.contains (.line home ln) then .bad s
    else
      let s := { s with seenPass := max s.seenPass (mget 0 l.passes (pa % 128))
                        seenOpen := nunion s.seenOpen (l.open_ home ln (pa % 128) 1) }
      .bytes (s.traffic d home 1 false) [l.data.byte (pa % 128)]
  | .waits s => .waits s
  | .dead => .bad s

/-- One byte of a location read by an engine, for which R325 has no row. -/
def State.readByte (s : State) (t : Troupe) (who : Asker) (g : Target) : Got :=
  match g with
  | .pool h pa k => s.poolByte t.die h pa (k == .coherent) who
  | g =>
    if s.chipBad t 0 g 1 then .bad s
    else .bytes (match g with | .chip d _ => s.traffic t.die d 1 false | _ => s) (s.readChip t 0 g 1)

/-- One byte of a location written: performed at its home slice or memory, with its pass time. -/
def State.writeByte (s : State) (t : Troupe) (who : Asker) (g : Target) (b : Byte) : Got :=
  let s := s.writeTurn t true g
  match g with
  | .pool h pa k =>
    match s.lineWrite h (pa / 128) (k == .coherent) who true with
    | .ready s l =>
      .bytes ((s.commitWrite t.die t.core h (pa / 128) l (pa % 128) [b] 1).1.traffic t.die h 1 true) []
    | .waits s => .waits s
    | .dead => .bad s
  | .chip d _ => .bytes ((s.writeChip t 0 g [b] 1).traffic t.die d 1 true) []
  | g => .bytes (s.writeChip t 0 g [b] 1) []

/-- How an engine access ends: bytes; a wait; an uncorrectable error; or a fault of its address
(R283, R305): 0x17 for a window, 0x07, or 0x08, with the address. -/
inductive EGot where
  | bytes (s : State) (bs : List Byte)
  | waits (s : State) (page : Option Nat)
  | fault (s : State) (code addr : Nat)
  deriving DecidableEq, Repr

/-- One engine byte's location, with the permission it needs (R305, R316, R318). A page that is not
resident makes the access wait (R283); a translation that permission then refuses has been served (R315). -/
def State.engineAt (s : State) (t : Troupe) (va : Nat) (write : Bool) : EGot ⊕ Target :=
  match s.engineTarget t va with
  | (some .unmapped, _) => .inl (.fault s 0x07 va)
  | (some .absent, _) => .inl (.waits s (some va))
  | (some (.ok _ _ p), some g) =>
    let no := .inl (.fault (s.touchPage (s.sidOf t) va t.die) 0x08 va)
    if p.kind = .device then no else if (if write then p.w else p.r) then .inr g else no
  | (_, some g) => .inr g
  | (_, none) => .inl (.fault s 0x17 va)

/-- An engine access passes the channel to its memory's die, where that is another (R350); `last` is the die whose
channel it has passed. -/
def State.enginePass (s : State) (t : Troupe) (who : Asker) (last : Nat) (g : Target) : State × Bool :=
  if g.dieOf t.die = last then (s, true) else s.passChan t.die (g.dieOf t.die) who.req (engineRank t.die)

/-- `n` bytes read by an engine from an engine address upward, for `who`. Those in `pre` it has read before their turn
(R354). An uncorrectable error is counted and logged (R397, R440). -/
def State.engineReadFrom (s : State) (t : Troupe) (who : Asker) (pre : List (Nat × Byte)) (last va : Nat) : Nat → EGot
  | 0 => .bytes s []
  | n + 1 =>
    let more := fun (s : State) (b : List Byte) (d : Nat) => match State.engineReadFrom s t who pre d (va + 1) n with
      | .bytes s bs => .bytes s (b ++ bs)
      | g => g
    match mfind pre va with
    | some b => more s [b] last
    | none =>
      match s.engineAt t va false with
      | .inl g => g
      | .inr g =>
        match (s.touchPage (s.sidOf t) va t.die).enginePass t who last g with
        | (s, false) => .waits s none
        | (s, true) =>
          match s.readByte t who g with
          | .waits s => .waits s none
          | .bad s => .fault (s.logFound (g.dieOf t.die) t.die t.core va) 0x13 va
          | .bytes s b => more s b (g.dieOf t.die)

/-- A read by an engine from its own die. -/
def State.engineRead (s : State) (t : Troupe) (who : Asker) (va n : Nat) : EGot := s.engineReadFrom t who [] t.die va n

/-- A read by an engine for an operation, which may have read bytes before their turn. -/
def State.opRead (s : State) (t : Troupe) (o : Op) (va n : Nat) : EGot :=
  s.engineReadFrom t (.op t.id o.id) o.pre t.die va n

/-- Bytes written by an engine from an engine address upward. -/
def State.engineWriteFrom (s : State) (t : Troupe) (who : Asker) (last va : Nat) : List Byte → EGot
  | [] => .bytes s []
  | b :: bs =>
    match s.engineAt t va true with
    | .inl g => g
    | .inr g =>
      match (s.touchPage (s.sidOf t) va t.die).enginePass t who last g with
      | (s, false) => .waits s none
      | (s, true) =>
        match s.writeByte t who g b with
        | .waits s => .waits s none
        | .bad s => .fault (s.logFound (g.dieOf t.die) t.die t.core va) 0x13 va
        | .bytes s _ => State.engineWriteFrom s t who (g.dieOf t.die) (va + 1) bs

/-- A write by an engine from its own die. -/
def State.engineWrite (s : State) (t : Troupe) (who : Asker) (va : Nat) (bs : List Byte) : EGot :=
  s.engineWriteFrom t who t.die va bs

/-- A state after an attempt that waits: what it has asked of the switch, what stands in the channels, and the
translations that it has made; its reads will be made again. -/
def State.keepAsks (s u : State) : State :=
  { s with
    channels := u.channels, subs := u.subs, turns := u.turns, late := u.late
    dies := (lenum s.dies).map fun e =>
      let D := lget Die.reset u.dies e.1
      { e.2 with reqs := D.reqs, msgs := D.msgs, tags := D.tags, held := D.held } }

/-- One byte of a global address as the service or an observer finds it: the home slice's, or the
pool's where the slice holds none. -/
def State.peekPool (s : State) (home pa : Nat) : Byte :=
  match s.line? home (pa / 128) with
  | some l => if l.st = .i && !l.dirty.contains (pa % 128) then s.pool.byte pa else l.data.byte (pa % 128)
  | none => s.pool.byte pa

/-! ### Instruction fetch (R143, R173) -/

/-- The key of a code line in an instruction cache: home die and line. -/
def codeKey (home pa : Nat) : Nat := l1Key home (pa / 128)

/-- A line as fetches find it at the home slice: of a line in I, the accepted bytes and the pool's others. -/
def State.codeLine (s : State) (home ln : Nat) : Memory :=
  match s.line? home ln with
  | some l => if l.st = .i then l.dirty.foldl (fun m k => m.put k (l.data.byte k)) (s.pool.cut (ln * 128) 128) else l.data
  | none => s.pool.cut (ln * 128) 128

/-- A copy put into a cache of `n` lines: the entry before all others leaves a full one (R3, R300). -/
def mcap {α : Type} (n k : Nat) (v : α) (m : List (Nat × α)) : List (Nat × α) :=
  if (mfind m k).isSome || decide (m.length < n) then mput k v m else mput k v (m.drop 1)

/-- The state that a GntNC answer leaves its line in, once used: I. A line whose horizon lies ahead stays in its slice
until then, so that no copy outlives it (R308, R423). -/
def State.leaveNC (s : State) (home ln : Nat) (l : L2Line) : State :=
  if s.now < l.horizon then s.putLine home ln { l with st := .i, dirty := [], accepted := [], owned := [], once := none }
  else s.delLine home ln

/-- A line that a GntNC answer has brought for an asker leaves its slice once it has been used: what was written
goes out by WbI (R323); the answer to RdX and Upg is followed by WbI in any case (R423). -/
def State.dropOnce (s : State) (home ln : Nat) (who : Asker) (wb : Bool) : State :=
  match s.line? home ln with
  | some l =>
    if l.once = some who then
      let s := (s.writeBack home ln).leaveNC home ln l
      if l.dirty = [] ∧ wb = false then s else s.sendOpen home ln l
    else s
  | none => s

/-- Every such line of the askers that `p` picks leaves its slice. -/
def State.dropOnceOf (s : State) (p : Asker → Bool) : State :=
  (List.range 4).foldl (fun s d => (s.die d).l2.foldl (fun s e => match e.2.once with
    | some w => if p w then s.dropOnce d e.1 w false else s
    | none => s) s) s

/-- A code line put into a core's instruction cache as it stands at its home slice. -/
def State.putCode (s : State) (d c home ln : Nat) : State :=
  s.modCore d c fun C => { C with icache := mcap Config.icacheLines (l1Key home ln) (s.codeLine home ln) C.icache }

/-- A code line read at its home slice for a core's instruction cache, and whether nothing is awaited: a coherent line
that is asked for, or room in the slice. Behind no working port nothing comes, and the fetch finds the error (R314). -/
def State.readCode (s : State) (who : Asker) (d c home ln : Nat) (coh : Bool) : State × Bool :=
  match s.lineRead home ln coh (lineOffs 0 128) who true with
  | .ready s _ => ((s.putCode d c home ln).dropOnce home ln who false, true)
  | .waits s => (s, false)
  | .dead => (s, true)

/-- The rank of a path's requests among those of its clock, or of the core's own. -/
def State.askRank (s : State) (who : Asker) (d c : Nat) : Nat :=
  match who with
  | .path r => match s.troupe? r.troupe with | some t => t.rank | none => rankAt d c 0 0
  | _ => rankAt d c 0 0

/-- A code line brought into a core's instruction cache from the home slice, where it is not there yet (R173,
R311), through the channel where that is another die's (R350), and whether nothing is awaited. -/
def State.fillCode (s : State) (who : Asker) (d c home pa : Nat) (coh : Bool) : State × Bool :=
  if ((mfind (s.core d c).icache (codeKey home pa)).isSome) then (s, true)
  else if d = home ∨ s.port home (pa / 128 * 128) = none then s.readCode who d c home (pa / 128) coh
  else (s.sendChan d home (.code c (pa / 128) coh) (s.askRank who d c), false)

/-- The slot at a physical address as a fetch would find it now: from the instruction cache of a core, or else at
the home slice. -/
def State.slotNow (s : State) (d c home pa : Nat) : Slot :=
  slotOfBytes (Memory.bytes ((mfind (s.core d c).icache (codeKey home pa)).getD (s.codeLine home (pa / 128))) (pa % 128) 16)

/-- The slot at a physical address, from the instruction cache of a core. -/
def State.cachedSlot (s : State) (d c home pa : Nat) : Slot :=
  slotOfBytes (Memory.bytes (mget [] (s.core d c).icache (codeKey home pa)) (pa % 128) 16)

end Sys2Proof.Machine
end

