-- ==== Sys2Proof/Machine/Ops.lean ====
section
/-! DEFINITION. The named operations over registers, lanes, slices and paths; barriers; halts, forced
spills and swap-out; taking a fault (R402–R407), once for all instructions, and the return from a
handler (R192) beside it. -/

namespace Sys2Proof.Machine

/-! ### Registers (R84–R88, R101, R102) -/

/-- A register of a lane: vz reads 0 (R86). -/
def Lane.reg (l : Lane) (r : Nat) : Word := if r = 511 then 0 else mget 0 l.regs r

/-- A register written, its poison mark cleared (R102); a write to vz is discarded (R86). -/
def Lane.setReg (l : Lane) (r : Nat) (v : Word) : Lane :=
  if r = 511 then l
  else { l with regs := mset 0 l.regs r v, poison := l.poison.filter fun q => q != r,
                ecc := l.ecc.filter fun q => q != r }

/-- Whether a register is poisoned. -/
def Lane.bad (l : Lane) (r : Nat) : Bool := l.poison.contains r

/-- Several registers written. -/
def Lane.setRegs (l : Lane) (ws : List (Nat × Word)) : Lane := ws.foldl (fun l w => l.setReg w.1 w.2) l

/-- A lane that does not exist reads as an absent one. -/
def Lane.none_ : Lane :=
  { regs := [], poison := [], ecc := [], st := .absent, item := 0, refills := 0, faddr := 0, priv := [] }

/-- A lane of a troupe. -/
def Troupe.lane (t : Troupe) (l : Nat) : Lane := lget Lane.none_ t.lanes l

/-- A register of a lane of a troupe. -/
def Troupe.reg (t : Troupe) (l r : Nat) : Word := (t.lane l).reg r

/-- The register pair from an even code, low word first (R66). -/
def Troupe.pair (t : Troupe) (l r : Nat) : DWord := t.reg l (r + 1) ++ t.reg l r

/-- Registers written in the lanes of a mask: `f l` gives each lane's writes, in order. -/
def Troupe.writeLanes (t : Troupe) (m : Word) (f : Nat → List (Nat × Word)) : Troupe :=
  { t with lanes := (lenum t.lanes).map fun e =>
      if m.getLsbD e.1 then e.2.setRegs (f e.1) else e.2 }

/-- One word, or a pair, as register writes. -/
def wr1 (d : BitVec 9) (v : Word) : List (Nat × Word) := [(d.toNat, v)]
def wr2 (d : BitVec 9) (v : DWord) : List (Nat × Word) :=
  if d = 511 then []
  else [(d.toNat, v.extractLsb' 0 32), (d.toNat + 1, v.extractLsb' 32 32)]

/-! ### Lane and slice sets (R19, R30, R33) -/

/-- The lanes in a state. -/
def Troupe.inState (t : Troupe) (x : LaneState) : Word :=
  maskOf (((lenum t.lanes).filter fun e => e.2.st == x).map (·.1))

/-- The Live lanes. -/
def Troupe.live (t : Troupe) : Word := t.inState .live

/-- A slice. -/
def Troupe.slice (t : Troupe) (k : Nat) : SliceSt :=
  lget { st := .idle, fcode := 0, fpc := 0, fmask := 0, forig := 0 } t.slices k

/-- A slice changed. -/
def Troupe.modSlice (t : Troupe) (k : Nat) (f : SliceSt → SliceSt) : Troupe :=
  { t with slices := lmod f t.slices k }

/-- The slices in a state. -/
def Troupe.slicesIn (t : Troupe) (x : SliceState) : BitVec 8 :=
  ((lenum t.slices).filter fun e => e.2.st == x).foldl (fun b e => b ||| sliceBit e.1) 0

/-- A path of a troupe. -/
def Troupe.path? (t : Troupe) (p : PathSel) : Option Path := t.paths.find? fun q => q.sel == p

/-- A path changed. -/
def Troupe.modPath (t : Troupe) (p : PathSel) (f : Path → Path) : Troupe :=
  { t with paths := t.paths.map fun q => if q.sel = p then f q else q }

/-- A path changed, in the whole state. -/
def State.modPath (s : State) (r : PathRef) (f : Path → Path) : State :=
  s.modTroupe r.troupe fun t => t.modPath r.sel f

/-- Whether a path is an ordinary one. -/
def Path.ordinary (p : Path) : Bool := match p.sel with | .ord _ => true | .handler _ => false

/-- Whether a path runs a trap handler: a slice that executes one instruction again does not. -/
def Path.inHandler (p : Path) : Bool := !p.ordinary && !p.retry

/-- The ordinary paths. -/
def Troupe.ordPaths (t : Troupe) : List Path := t.paths.filter Path.ordinary

/-- The slices that a path runs or has deferred on its stack. -/
def Path.carries (p : Path) : BitVec 8 :=
  p.stack.foldl (fun b e => match e with | .join _ _ => b | .deferred x _ => b ||| x) p.slices

/-- Whether a handler path, or a slice that executes an instruction again, makes an ordinary path hold: the path
that its slice left (R191). A BRD that formed it makes every path with a set of it hold (R451), but where the
fault is that of one set's target only the path of that set (R170), and a path that waits for the slice. -/
def Path.holds (h p : Path) : Bool :=
  match h.origin with
  | .brd _ _ _ ts fs w =>
    match w with
    | .all => p.sel == .ord h.home || p.carries &&& (ts ||| fs) != 0
    | .set ss => p.slices &&& ss != 0 || (p.sel == .ord h.home && p.slices == 0)
    | .none => p.sel == .ord h.home && p.slices == 0
  | _ => p.sel == .ord h.home

/-- Whether slices of an ordinary path run as handler paths, or execute an instruction again, so that
the path holds (R170, R191, R451). -/
def Troupe.held (t : Troupe) (p : Path) : Bool :=
  p.ordinary && t.paths.any fun h => !h.ordinary && h.holds p

/-- What makes a troupe ganged: one ordinary path, its stack empty, no REGANG pending (R31). -/
def Troupe.whole (t : Troupe) : Bool :=
  match t.ordPaths with
  | [p] => p.stack == [] && p.waiting == []
  | _ => false

/-- The troupe is ganged, as the end of the last clock has left it (R31). -/
def Troupe.ganged (t : Troupe) : Bool := t.gang

/-- A(p) of R33: the Live, enabled lanes of the path's slices; for a handler path the faulting lanes of
its slice; while an instruction executes again, the lanes that execute it (R192, R452). -/
def Troupe.pathLanes (t : Troupe) (p : Path) : Word :=
  let own := match p.sel with
    | .ord _ => if p.again = 0 then sliceLanes p.slices else p.again
    | .handler k => if p.retry then p.again else (t.slice k).fmask &&& sliceLanes (sliceBit k)
  t.live &&& own &&& t.enable

/-- The Live lanes of a path's slices, for R168. -/
def Troupe.liveLanes (t : Troupe) (p : Path) : Word :=
  let own := match p.sel with
    | .ord _ => sliceLanes p.slices
    | .handler k => sliceLanes (sliceBit k)
  t.live &&& own

/-- The lanes in which a fault of R145, R155 or R156 is raised: A(p), or every Live lane of the path
when A(p) is empty (R168). -/
def Troupe.faultLanes (t : Troupe) (p : Path) : Word :=
  if t.pathLanes p = 0 then t.liveLanes p else t.pathLanes p

/-! ### Guards (R33, R70, R152, R453) -/

/-- One guard register's tested bit: none where the register is poisoned. -/
def guardBit (l : Lane) (r : BitVec 9) (sense : Bool) : Option Bool :=
  if l.bad r.toNat then none else some ((l.reg r.toNat).getLsbD 0 != sense)

/-- The guard of an instruction in a lane; none where its value rests on a poisoned register (R453). -/
def guardOf (x : Ins) (l : Lane) : Option Bool :=
  match x.gc with
  | .none => some true
  | .g0 => guardBit l x.g0 x.s0
  | .and =>
    match guardBit l x.g0 x.s0, guardBit l x.g1 x.s1 with
    | some a, some b => some (a && b)
    | some false, none => some false
    | none, some false => some false
    | _, _ => none
  | .or =>
    match guardBit l x.g0 x.s0, guardBit l x.g1 x.s1 with
    | some a, some b => some (a || b)
    | some true, none => some true
    | none, some true => some true
    | _, _ => none

/-- active(i) for lanes `m`: those whose guard is 1 or rests on a poisoned register (R33, R453). A guard v192–v383 reads 0
while the troupe does not hold the extended set: the manual does not say (DESIGN CHOICE, log 42). -/
def Troupe.guarded (t : Troupe) (m : Word) (x : Ins) : Word :=
  maskOf ((lanesOf m).filter fun l => guardOf x (t.lane l) != some false)

/-- The lanes of a mask whose guard rests on a poisoned register. -/
def Troupe.guardBad (t : Troupe) (m : Word) (x : Ins) : Word :=
  maskOf ((lanesOf m).filter fun l => (guardOf x (t.lane l)).isNone)

/-! ### Walking on -/

/-- Scheduling effects of an issue: the wait count returns to 0, STL holds the next head, YLD renews
the stamp (R48, R49, R153). -/
def Path.issued (p : Path) (now : Nat) (x : Ins) : Path :=
  { p with waitCnt := 0, aged := false, stall := now + 1 + x.stl.toNat, ibuf := none, wait := .none,
           stamp := if x.yld then now else p.stamp }

/-- The next word of the block, or the header after it (R143). -/
def Path.next (p : Path) : Path :=
  let n := p.pc + 16
  { p with pc := n, last := p.pc, again := 0, ibuf := none, wait := .none,
           blk := match p.blk with
             | some b => if n ≤ b.hdr + 16 * b.len then some b else none
             | none => none }

/-- An address that a header or a branch computes, so that one below 0 reads as no address below 2^64: its fetch
raises 0x06 by R145 (log 42). -/
def addrOf (a : Int) : Nat := (a % 2 ^ 65).toNat

/-- The path stands before the header at `t` (R144, R157). -/
def Path.goto (p : Path) (t : Nat) : Path :=
  { p with pc := t, last := p.pc, again := 0, ibuf := none, wait := .none, blk := none }

/-- The later of two marks for each key. -/
def mergeMax (a b : List (Nat × Nat)) : List (Nat × Nat) :=
  b.foldl (fun m e => mput e.1 (max (mget 0 m e.1) e.2) m) a

/-- What a path has observed, added to another's (R329, R347). -/
def Path.learn (p q : Path) : Path :=
  { p with rdPass := max p.rdPass q.rdPass, rdShared := nunion p.rdShared q.rdShared,
           marks := mergeMax p.marks q.marks, strongReads := mergeMax p.strongReads q.strongReads,
           reads := mergeMax p.reads q.reads, wrote := mergeMax p.wrote q.wrote }

/-- The paths of every access of a troupe changed, of its operations and of its records on their way to a ring, which
count as writes (R226, R242). -/
def Troupe.mapOwn (t : Troupe) (f : List PathSel → List PathSel) : Troupe :=
  { t with ops := t.ops.map fun o => { o with own := f o.own }
           recs := t.recs.map fun r => { r with own := f r.own } }

/-- Accesses of one path become earlier accesses of another as well (R329). -/
def Troupe.lend (t : Troupe) (a b : PathSel) : Troupe :=
  t.mapOwn fun own => if own.contains a && !own.contains b then own ++ [b] else own

/-- Accesses of every path of the troupe, and of those that have ended, precede those of a path (R329). -/
def Troupe.lendAll (t : Troupe) (b : PathSel) : Troupe :=
  t.mapOwn fun own => if own.contains b then own else own ++ [b]

/-- A path's number no longer names any access. -/
def Troupe.forget (t : Troupe) (a : PathSel) : Troupe := t.mapOwn fun own => own.filter fun q => q != a

/-- A slice goes back to its path: Following, or Idle when it has no Live lane (R30, R192). -/
def Troupe.rejoin (t : Troupe) (k : Nat) : Troupe :=
  match t.path? (.handler k) with
  | none => t
  | some h =>
    let alive := t.live &&& sliceLanes (sliceBit k) != 0
    let back : SliceState := if t.stepping.getLsbD k then .stopped else .following
    let t := { t.modSlice k fun x => { x with st := if alive then back else .idle } with
      stepping := t.stepping &&& ~~~sliceBit k }
    let t := (t.lend (.handler k) (.ord h.home)).forget (.handler k)
    let t := { t with paths := t.paths.filter fun (q : Path) => q.sel != PathSel.handler k }
    t.modPath (.ord h.home) fun p =>
      ((if alive then { p with slices := p.slices ||| sliceBit k } else p)).learn h

/-- After the last handler of a branch ended with k = 1, its path goes on at the next word; with k = 0
it executes the branch once more (R452). -/
def Troupe.settleBranch (t : Troupe) (n : Nat) (o : Origin) : Troupe :=
  if t.paths.any fun h => !h.ordinary && h.home == n then t
  else match o with
    | .branch _ => t.modPath (.ord n) fun p => if p.again = 0 then p.next else p
    | _ => t

/-- The end of a handler path or of an execution once more: the slice rejoins its path (R192). -/
def Troupe.endHandler (t : Troupe) (k : Nat) : Troupe :=
  match t.path? (.handler k) with
  | none => t
  | some h => (t.rejoin k).settleBranch h.home h.origin

/-- A path has completed its head: it goes to the next word; a slice that executed an instruction once
more rejoins its path (R192). -/
def Troupe.advance (t : Troupe) (r : PathSel) : Troupe :=
  match t.path? r with
  | none => t
  | some p =>
    match p.sel with
    | .handler k => if p.retry then t.endHandler k else t.modPath r Path.next
    | .ord _ => t.modPath r Path.next

def State.advance (s : State) (r : PathRef) : State := s.modTroupe r.troupe fun t => t.advance r.sel

/-- A result written in lanes of a troupe. -/
def State.writeLanes (s : State) (id : Nat) (m : Word) (f : Nat → List (Nat × Word)) : State :=
  s.modTroupe id fun t => t.writeLanes m f

/-! ### Paths that end, pop or merge (R30, R31, R42, R43, R45) -/

/-- A path's number changed, in the path, in handlers that left it, in accesses, in records on their way to a
ring and in fragments. -/
def Troupe.renumber (t : Troupe) (a b : Nat) : Troupe :=
  if a = b then t
  else
    let f := fun (q : PathSel) => if q = .ord a then PathSel.ord b else q
    { t.mapOwn fun own => own.map f with
      paths := t.paths.map fun p =>
        if p.sel = .ord a then { p with sel := .ord b }
        else if !p.ordinary && p.home = a then { p with home := b } else p
      latches := t.latches.map fun l => { l with path := f l.path } }

/-- A pop of the path stack: a deferred entry's slices run at its PC; a join entry's whole set, less
the Idle slices, runs from the join PC (R42). -/
def Troupe.pop (t : Troupe) (n : Nat) : Troupe :=
  let ok := t.slicesIn .following ||| t.slicesIn .stopped
  t.modPath (.ord n) fun p =>
    match p.stack with
    | [] => p
    | .deferred ss pc :: rest => { p.goto pc with stack := rest, slices := ss &&& ok, last := p.last }
    | .join ss pc :: rest =>
      { p.goto pc with
        stack := rest
        slices := ss &&& ok
        last := p.last
        waiting := (p.waiting.map fun w => { w with slices := w.slices &&& ~~~ss }).filter
          fun w => w.slices != 0 }

/-- Whether a path is left with no running slice, so that it pops (R42). -/
def Troupe.drained (t : Troupe) (p : Path) : Bool :=
  p.ordinary && p.slices == 0 && p.stack != [] && !t.held p

/-- Pops until a slice runs. -/
def Troupe.popAll (t : Troupe) : Nat → Troupe
  | 0 => t
  | n + 1 =>
    match t.paths.find? fun p => t.drained p with
    | some p => match p.sel with
      | .ord k => Troupe.popAll (t.pop k) n
      | _ => t
    | none => t

/-- Slices whose lanes have all left Live become Idle (R30, R45). -/
def Troupe.idleSlices (t : Troupe) : Troupe :=
  let alive := slicesOf t.live
  let gone := t.slicesIn .following &&& ~~~alive
  { t with
    slices := (lenum t.slices).map fun e =>
      if gone.getLsbD e.1 then { e.2 with st := .idle } else e.2
    paths := t.paths.map fun p =>
      if p.ordinary then
        { p with slices := p.slices &&& ~~~gone
                 waiting := (p.waiting.map fun w => { w with slices := w.slices &&& ~~~gone }).filter
                   fun w => w.slices != 0 }
      else p }

/-- Whether an ordinary path has no slice left and ceases to exist (R45). -/
def Troupe.pathGone (t : Troupe) (p : Path) : Bool :=
  p.ordinary && p.slices == 0 && p.stack == [] && p.waiting == [] && !t.held p

/-- Whether a path is ready to merge (R43). -/
def Troupe.mergeReady (t : Troupe) (p : Path) : Bool :=
  p.slices == 0 && p.stack == [] && p.waiting != [] && !t.held p

/-- The lowest REGANG at which a slice waits: the address after it (R43). -/
def lowestPark : List Parked → Option Parked
  | [] => none
  | w :: r => match lowestPark r with
    | some v => if v.pc < w.pc then some v else some w
    | none => some w

/-- The merge of R43: one path 0, the oldest stamp, with every former path's accesses before its own;
it acts as a `.tr` fence, so the new path waits (R333), and the stall of path 0's REGANG still holds its head (R48). -/
def Troupe.merge (t : Troupe) (now : Nat) : Troupe :=
  match t.ordPaths with
  | [] => t
  | p :: ps =>
    match lowestPark ((p :: ps).flatMap (·.waiting)) with
    | none => t
    | some w =>
      let all := (p :: ps).foldl (fun b q => q.waiting.foldl (fun b v => b ||| v.slices) b) 0
      let q := ps.foldl Path.learn p
      let q := { q with
        sel := .ord 0, home := 0, slices := all, pc := w.pc, blk := w.blk, waiting := [],
        stamp := ps.foldl (fun x v => min x v.stamp) p.stamp, wait := .regang, ibuf := none,
        stall := max p.stall (now + 1), again := 0 }
      let q := t.gone.foldl Path.learn q
      let f := fun (own : List PathSel) => PathSel.ord 0 :: own.filter fun r => match r with
        | .ord _ => false | .handler _ => true
      { t with
        paths := q :: t.paths.filter fun v => !v.ordinary
        gone := []
        ops := t.ops.map fun o => { o with own := f o.own, merges := o.merges + 1 }
        recs := t.recs.map fun r => { r with own := f r.own } }

/-- Whether every path is ready to merge. -/
def Troupe.canMerge (t : Troupe) : Bool := t.ordPaths != [] && t.ordPaths.all fun p => t.mergeReady p

/-- A path that has ended: what it has seen stands in `gone`, and its number no longer names its accesses (R45,
R329). -/
def Troupe.endPath (t : Troupe) (p : Path) : Troupe :=
  { (t.forget p.sel) with
    paths := t.paths.filter fun q => q.sel != p.sel
    gone := t.gone ++ [p] }

/-- Slices and paths after lanes have left Live or slices have come to wait: Idle slices, pops, ended paths and
a merge (R43, R45). The troupe becomes ganged only at the end of the clock (R31). -/
def Troupe.settle (t : Troupe) (now : Nat) : Troupe :=
  let t := (t.idleSlices).popAll 17
  let t := (t.paths.filter t.pathGone).foldl Troupe.endPath t
  if t.canMerge then t.merge now else t

/-! ### Barriers (R181–R185) -/

/-- The number of the ordinary path for which a path arrives: a handler path arrives for the path that its slice
left (log 42: the manual does not say). -/
def Path.number (p : Path) : Nat := match p.sel with | .ord n => n | .handler _ => p.home

/-- The ordinary paths of a troupe but one that do not wait in BAR at a barrier for a phase. -/
def Troupe.othersAt (t : Troupe) (n id : Nat) (q : BitVec 16) : List Nat :=
  t.ordPaths.filterMap fun p =>
    let bar := match p.wait with | .bar i r _ _ => i == id && r == q | _ => false
    if p.number = n ∨ bar = true then none else some p.number

/-- A barrier at placement (R181). -/
def Barrier.new : Barrier := { phase := 0, arrived := [], held := [], partial_ := [], abandoned := false }

/-- The instance of barrier `id` for a section of an ensemble. -/
def Ensemble.bar (e : Ensemble) (sec id : Nat) : Barrier :=
  if id < 8 then lget Barrier.new (lget Section.empty e.sections sec).bars id
  else lget Barrier.new e.bars (id - 8)

/-- An instance changed. -/
def Ensemble.modBar (e : Ensemble) (sec id : Nat) (f : Barrier → Barrier) : Ensemble :=
  if id < 8 then
    { e with sections := lmod (fun c => { c with bars := lmod f c.bars id }) e.sections sec }
  else { e with bars := lmod f e.bars (id - 8) }

/-- The participants of barrier `id`: the troupes of the section, or of the ensemble, that are neither
done nor halted (R181, R182). -/
def State.awaited (s : State) (e : Ensemble) (sec id : Nat) : List Nat :=
  (s.troupes.filter fun t => t.ens == e.id && t.run == .running && (8 ≤ id || t.sec == sec)).map (·.id)

/-- A release: the phase advances by 1 modulo 2^16, and held arrivals count at once (R182). -/
def Barrier.release (b : Barrier) : Barrier :=
  { b with phase := b.phase + 1, arrived := b.held, held := [], twice := b.twice.filter fun x => x.2 != b.phase }

/-- Releases while every awaited participant has arrived. -/
def Barrier.test (b : Barrier) (ps : List Nat) : Nat → Barrier
  | 0 => b
  | n + 1 => if ps != [] && ps.all fun p => b.arrived.contains p then Barrier.test b.release ps n else b

/-- Whether the phase `q` has passed: (current − q) mod 2^16 in 1–32,767 (R184). -/
def Barrier.past (b : Barrier) (q : BitVec 16) : Bool :=
  let k := (b.phase - q).toNat
  decide (1 ≤ k ∧ k ≤ 32767)

/-- The status that ends a wait at a barrier, where something ends it (R184). -/
def Barrier.ends (b : Barrier) (q : BitVec 16) : Option Word :=
  if b.past q then some 0 else if b.abandoned then some 0x80 else none

/-- A waiting path whose barrier wait has ended: D is written in its lanes and it goes on. -/
def Troupe.endBarWait (t : Troupe) (e : Ensemble) (p : Path) : Troupe :=
  match p.wait with
  | .bar id q d ls | .barwt id q d ls =>
    match (e.bar t.sec id).ends q with
    | some v => (t.writeLanes ls fun _ => [(d, v)]).advance p.sel
    | none => t
  | _ => t

/-- Every wait of a troupe that its barriers end. -/
def Troupe.endBarWaits (t : Troupe) (e : Ensemble) : Troupe :=
  t.paths.foldl (fun t p => t.endBarWait e p) t

/-- A parted troupe's arrivals that count once each of its paths has executed one (R182). Two that one path makes
before the other path's first count as one arrival (log 42: the manual does not say). -/
def Barrier.settlePartial (b : Barrier) (t : Troupe) : Barrier :=
  let mine := b.partial_.filter fun x => x.1 == t.id
  if mine != [] && t.ordPaths.all fun p => mine.any fun x => p.sel == .ord x.2.1 then
    let b := { b with partial_ := b.partial_.filter fun x => x.1 != t.id }
    if b.arrived.contains t.id then
      { b with held := ninsert t.id b.held
               twice := if b.held.contains t.id then (t.id, b.phase + 1) :: b.twice else b.twice }
    else { b with arrived := ninsert t.id b.arrived }
  else b

/-- Arrivals, releases and ended waits of every barrier of an ensemble, after any change. -/
def State.sweepBars (s : State) (ens : Nat) : State :=
  match s.ens? ens with
  | none => s
  | some e =>
    let mine := s.troupes.filter fun t => t.ens == ens && t.run == .running
    let e := (List.range 16).foldl (fun e id =>
      (List.range e.sections.length).foldl (fun e sec =>
        e.modBar sec id fun b =>
          let b := mine.foldl (fun b t => if 8 ≤ id || t.sec == sec then b.settlePartial t else b) b
          b.test (s.awaited e sec id) 3) e) e
    let s := s.modEns ens fun _ => e
    { s with troupes := s.troupes.map fun t =>
        if t.ens = ens ∧ t.run = .running then t.endBarWaits e else t }

/-- The arrival that path `n` of a troupe made by BAR for phase `q`, withdrawn (R184, R185). Where it has counted,
the paths `rest`, which arrived by BARARV, stand as before it did. An arrival by BARARV is never withdrawn: where the troupe
has made another for the phase, that one stands. -/
def Barrier.withdraw (b : Barrier) (id n : Nat) (q : BitVec 16) (rest : List Nat) : Barrier :=
  let back := b.partial_ ++ rest.map fun m => (id, m, q)
  if b.partial_.contains (id, n, q) then { b with partial_ := b.partial_.erase (id, n, q) }
  else if b.twice.contains (id, q) then { b with twice := b.twice.erase (id, q) }
  else if q = b.phase + 1 ∧ b.held.contains id = true then
    { b with held := b.held.filter fun x => x != id, partial_ := back }
  else if q = b.phase ∧ b.arrived.contains id = true then
    { b with arrived := b.arrived.filter fun x => x != id, partial_ := back }
  else b

/-- The partial arrivals of a troupe that is parted no longer: those of its one path `n`, which is path 0 now; where the
paths have merged, `n` is none, and those of both stand (log 42: the manual does not say). -/
def Barrier.gang (b : Barrier) (id : Nat) (n : Option Nat) : Barrier :=
  { b with partial_ := (b.partial_.filter fun x => x.1 != id || n.isNone || n == some x.2.1).map fun x =>
      if x.1 = id then (id, 0, x.2.2) else x }

/-- The same at every instance that a troupe of a section may reach. -/
def Ensemble.gang (e : Ensemble) (sec id : Nat) (n : Option Nat) : Ensemble :=
  (List.range 16).foldl (fun e k => e.modBar sec k fun b => b.gang id n) e

/-- A participant has halted: the flag of each of its instances is set (R183). -/
def Ensemble.abandon (e : Ensemble) (sec : Nat) : Ensemble :=
  (List.range 16).foldl (fun e id => e.modBar sec id fun b => { b with abandoned := true }) e

/-! ### The extended set (R89–R95) -/

/-- The set of a pair of slots, Free and never held (R94). -/
def ExtSet.new (d c p k : Nat) : ExtSet :=
  { die := d, core := c, part := p, pair := k, holder := none, lastEns := none, regs := [], poison := [] }

/-- Whether a set is the one of a pair. -/
def ExtSet.at_ (x : ExtSet) (d c p k : Nat) : Bool := x.die == d && x.core == c && x.part == p && x.pair == k

/-- The extended set of a troupe's pair of slots. -/
def State.extOf (s : State) (t : Troupe) : ExtSet :=
  (s.ext.find? fun x => x.at_ t.die t.core t.part (t.slot / 2)).getD
    (ExtSet.new t.die t.core t.part (t.slot / 2))

/-- The extended set of a pair changed. -/
def State.setExt (s : State) (x : ExtSet) : State :=
  { s with ext := (s.ext.filter fun y => !y.at_ x.die x.core x.part x.pair) ++ [x] }

/-- Whether a register belongs to the extended set. -/
def isExt (r : Nat) : Bool := decide (192 ≤ r ∧ r < 384)

/-- The set released: its lock is Free, and its values and marks stand for the next holder of the same
ensemble (R93–R95). -/
def State.releaseExt (s : State) (id : Nat) (keep : Bool) : State :=
  match s.troupe? id with
  | none => s
  | some t =>
    if t.holdsExt then
      let x := s.extOf t
      let s := s.setExt { x with
        holder := none, lastEns := some t.ens, freed := some s.now,
        regs := t.lanes.map fun l => l.regs.filter fun e => isExt e.1,
        poison := t.lanes.map fun l => l.poison.filter isExt,
        ecc := t.lanes.map fun l => l.ecc.filter isExt }
      s.modTroupe id fun t =>
        { t with holdsExt := false
                 lanes := if keep then t.lanes else t.lanes.map fun l =>
                   { l with regs := l.regs.filter fun e => !isExt e.1,
                            poison := l.poison.filter fun r => !isExt r,
                            ecc := l.ecc.filter fun r => !isExt r } }
    else s

/-- Whether the lock of a set is Free for the taking: since an earlier clock (R92, R115). -/
def ExtSet.isFree (x : ExtSet) (now : Nat) : Bool := x.holder.isNone && x.freed != some now

/-- The set taken: unchanged values for the last holder's ensemble, zeros and no marks for another
(R92, R94). -/
def State.takeExt (s : State) (id : Nat) : State :=
  match s.troupe? id with
  | none => s
  | some t =>
    let x := s.extOf t
    let same := x.lastEns == some t.ens
    let s := s.setExt { x with holder := some t.slot, lastEns := some t.ens, regs := [], poison := [], ecc := [], freed := none }
    s.modTroupe id fun t =>
      { t with holdsExt := true
               lanes := (lenum t.lanes).map fun e =>
                 { e.2 with
                   regs := (e.2.regs.filter fun r => !isExt r.1) ++ (if same then lget [] x.regs e.1 else [])
                   poison := (e.2.poison.filter fun r => !isExt r) ++
                     (if same then lget [] x.poison e.1 else [])
                   ecc := (e.2.ecc.filter fun r => !isExt r) ++ (if same then lget [] x.ecc e.1 else []) } }

/-! ### Records, futures and counters -/

/-- A record sent to a submitter (R363). -/
def State.send (s : State) (r : Record) : State := { s with sent := s.sent ++ [r] }

/-- A command by its number. -/
def State.cmd? (s : State) (id : Nat) : Option Command := s.cmds.find? fun c => c.id == id

/-- A command changed. -/
def State.modCmd (s : State) (id : Nat) (f : Command → Command) : State :=
  { s with cmds := s.cmds.map fun c => if c.id = id then f c else c }

/-- Every future entry freed, its generation raised (R284). -/
def freeFutures (fs : List FutureEntry) : List FutureEntry :=
  fs.map fun f =>
    if f.busy then { gen := f.gen + 1, busy := false, status := 0, value := 0, mark := none, place := f.place } else f

/-- The class of an operation, and whether it counts complete; see Counters for the prefix rule. -/
def Op.inClass (o : Op) (c : OpClass) : Bool := o.cls == c

/-- Whether a store's or load's accesses are over (R238). -/
def Acc.over (a : Acc) (now : Nat) : Bool := a.phase == .performed && decide (a.pass ≤ now)

/-- Whether an operation is complete: a load when every lane's data is written; a store when each
access is performed at its scope, or at `.dev` for a weak one; an engine operation when its completion
has happened (R238, R282). -/
def Op.complete (o : Op) (now : Nat) : Bool :=
  match o.kind with
  | .load _ _ _ _ _ as => as == []
  | .atom _ _ _ (some _) as => as.all fun a => a.phase == .performed
  | .atomc _ _ _ as => as.all fun a => a.phase == .performed
  | .atom _ _ σ none as =>
    as.all fun a => a.phase == .performed && (σ == .tr || σ == .sec || decide (a.pass ≤ now))
  | .store ord _ _ as =>
    as.all fun a => a.phase == .performed &&
      (ord == .strong .tr || ord == .strong .sec || decide (a.pass ≤ now))
  | .cline _ ls => ls == []
  | _ => o.done

/-- The older operations of a class that do not yet count, in issue order: an operation counts complete
only when every older one does (R238, R282). -/
def pendingOf (now : Nat) (c : OpClass) (ops : List Op) : List Op :=
  (ops.filter fun o => o.inClass c).dropWhile fun o => o.complete now

/-- An outstanding counter (R395); a halt has discarded it (R197, R394). -/
def Troupe.counter (t : Troupe) (now : Nat) (c : OpClass) : Nat :=
  if t.run = .halted then 0 else (pendingOf now c t.ops).length

/-! ### Done, retired and swapped out (R26, R95, R411) -/

/-- A candidate entered in the launch queues: after those already offered (R371). -/
def State.offer (s : State) (c : Candidate) : State := { s with queue := s.queue ++ [c] }

/-- The priority of an ensemble's launch. -/
def State.prioOf (s : State) (e : Ensemble) : Nat :=
  match s.launch? e.launch with | some l => l.hdr.prio | none => 0

/-- Whether a troupe is finished for a Pre-empting ensemble (R411). -/
def Troupe.finished (t : Troupe) : Bool := t.run != .running || t.finish != .no

/-- Whether the forced spill has taken a troupe. -/
def Troupe.spilled (t : Troupe) : Bool := match t.finish with | .spilled _ => true | _ => false

/-- The page of a %save area. -/
def savePage (va : Nat) : Nat := va / 65536 * 65536

/-- Whether the area `k` of 16 KiB of the service's part of the window is free for a troupe: four areas share a
64 KiB page, which serves troupes of one launch on the page's home die, and a page that is still to be unmapped serves none
(R454; log 21). -/
def State.saveFree (s : State) (t : Troupe) (k : Nat) : Bool :=
  let va := Config.saveBase + k * 16384
  let here := match s.page? (s.sidOf t) (savePage va) with | some (_, p) => p.home == some t.die | none => true
  (s.unmaps.all fun e => e.2 != savePage va) && s.troupes.all fun u =>
    !(u.saveHeld && savePage u.save.toNat == savePage va) ||
      (u.save.toNat != va && here && (s.ens? u.ens).map Ensemble.launch == (s.ens? t.ens).map Ensemble.launch)

/-- Where the service puts a troupe's %save area, as an offset into its part of the window: the lowest free
area (log 21). -/
def State.saveOffset (s : State) (t : Troupe) : Nat :=
  (((List.range (4 * (s.troupes.length + s.unmaps.length + 1))).find? fun k => s.saveFree t k).getD 0) * 16384

/-- A troupe's area is released. The page with no other area in it is to be unmapped, once R319 lets it go
(R454). -/
def State.freeSave (s : State) (id : Nat) : State :=
  match s.troupe? id with
  | none => s
  | some t =>
    if !t.saveHeld then s
    else
      let s := s.modTroupe id fun t => { t with saveHeld := false }
      let page := savePage t.save.toNat
      if s.troupes.any fun u => u.saveHeld && savePage u.save.toNat == page then s
      else { s with unmaps := s.unmaps ++ [(s.sidOf t, page)] }

/-- An ensemble retires: its troupes' resources return to the placer, and their future entries are freed (R26,
R284). -/
def State.retire (s : State) (ens : Nat) : State :=
  let ids := (s.troupes.filter fun t => t.ens == ens).map (·.id)
  let s := ids.foldl (fun s id => ((s.releaseExt id false).freeSave id).modTroupe id fun t =>
    { t with futures := freeFutures t.futures }) s
  s.modEns ens fun e => { e with st := .retired }

/-- The section that an engine address of a troupe names. -/
def State.sectionsAt (s : State) (t : Troupe) (va : Nat) : List Nat :=
  match (s.engineTarget t va).2 with | some (.sect k _) => [k] | _ => []

/-- A byte of an engine address as it stands. -/
def State.peekByte (s : State) (t : Troupe) (va : Nat) : Byte :=
  match (s.engineTarget t va).2 with
  | some (.pool h pa _) => s.peekPool h pa
  | some g => (s.readChip t 0 g 1).headD 0
  | none => 0

/-- The eight-byte addresses of a block at some offsets. -/
def State.peekFields (s : State) (t : Troupe) (va : Nat) (os : List Nat) : List Nat :=
  os.map fun o => leNat ((List.range 8).map fun i => s.peekByte t (va + o + i))

/-- The sections whose allotments a COLL or unmasking operation in flight names, in its command, its descriptor or its
configuration block (R288). -/
def State.namedSections (s : State) (ens : Nat) : List Nat :=
  (s.troupes.filter fun t => t.ens == ens).flatMap fun t => t.ops.flatMap fun o =>
    if o.done then []
    else match o.kind with
      | .coll _ _ _ _ d w =>
        (d :: if w.got = [] then s.peekFields t d [0, 8]
          else [0, 8].map fun o => leNat ((w.got.drop o).take 8)).flatMap (s.sectionsAt t)
      | .um .cfg _ b _ => (b :: s.peekFields t b [0, 8, 16, 24, 32]).flatMap (s.sectionsAt t)
      | .um _ k _ w => match ((s.die w.die).um[k]?).bind (·.cfg) with
        | some c => [c.conf, c.tgt, c.sel, c.dirty].flatMap (s.sectionsAt t)
        | none => []
      | _ => []

/-- The swap-out: sets are released, and the ensemble goes back to its launch queue, or ends where a
cancel or a time limit asked for it (R95, R373, R376, R411). -/
def State.swapOut (s : State) (ens : Nat) : State :=
  match s.ens? ens with
  | none => s
  | some e =>
    let ids := (s.troupes.filter fun t => t.ens == ens).map (·.id)
    let s := ids.foldl (fun s id =>
      let s := s.modTroupe id fun t => { t with hadExt := t.holdsExt }
      s.releaseExt id true) s
    let s := { s with troupes := s.troupes.map fun (t : Troupe) =>
      if t.ens = ens then
        { t with lanes := if t.spilled then t.lanes
                   else t.lanes.map fun (l : Lane) =>
                     { l with regs := l.regs.filter fun e => !isExt e.1,
                              poison := l.poison.filter fun r => !isExt r,
                              ecc := l.ecc.filter fun r => !isExt r } }
      else t }
    if e.endOnSwap then s.retire ens
    else
      (s.modEns ens fun e => { e with st := .swapped, kept := s.namedSections ens }).offer
        { swapped := some ens, launch := e.launch, prio := s.prioOf e, since := s.now, firstSince := none,
          request := none, blocking := false }

/-- Whether the operations of a troupe are over, but for those that go on in their engines after swap-out
(R288), and its amax records are written. -/
def Troupe.drainedOps (t : Troupe) (now : Nat) : Bool :=
  t.recs == [] && t.ops.all fun o => o.cls == .cl || o.cls == .um || o.complete now

/-- What an ensemble becomes once its troupes are done, halted or finished (R26, R411). A Pre-empting ensemble whose
troupes are all done or halted retires at once, by R26, and is not swapped out (log 42: R57 and R411 name only
the swap-out). -/
def State.settleEns (s : State) (ens : Nat) : State :=
  match s.ens? ens with
  | none => s
  | some e =>
    let mine := s.troupes.filter fun t => t.ens == ens
    match e.st with
    | .running => if mine.all fun t => t.run != .running then s.retire ens else s
    | .preempting =>
      if mine.all fun t => t.run != .running then s.retire ens
      else if mine.all fun t => t.finished && t.drainedOps s.now then s.swapOut ens else s
    | _ => s

/-- Waits that rest on a troupe that becomes done or halts: the MMAEs of its join and the FWAITs on its
futures stop waiting and are tried again (R277, R284). -/
def State.wake (s : State) (t : Troupe) : State :=
  { s with troupes := s.troupes.map fun (u : Troupe) =>
      { u with paths := u.paths.map fun (p : Path) =>
          match p.wait with
          | .mmae _ _ => if u.ens = t.ens ∧ u.idx = t.idx then { p with wait := .retry } else p
          | .fwait o _ _ _ _ => if o = t.id then { p with wait := .retry } else p
          | _ => p } }

/-- A troupe becomes done: it issues nothing more, its set is released and its future entries are freed
(R26, R95, R284). -/
def State.makeDone (s : State) (id : Nat) : State :=
  match s.troupe? id with
  | none => s
  | some t =>
    let s := s.releaseExt id false
    let s := s.modTroupe id fun t => { t with run := .done, paths := [], futures := freeFutures t.futures }
    ((s.wake t).sweepBars t.ens).settleEns t.ens

/-- Whether a troupe has become done: no Live and no Exited lane, and in block mode only after its
ensemble's last refill (R26). -/
def State.isDone (s : State) (t : Troupe) : Bool :=
  t.run == .running && t.inState .live == 0 && t.inState .exited == 0 &&
    (match s.ens? t.ens, s.launchOf t.ens with
      | some e, some l => !l.hdr.block || e.lastRefill
      | _, _ => true)

/-- A troupe after lanes have changed state: slices, paths, barriers, and done (R26, R30, R45). -/
def State.settle (s : State) (id : Nat) : State :=
  match s.troupe? id with
  | none => s
  | some t0 =>
    let t := t0.settle s.now
    let merged := t.paths.any (fun p => p.wait == .regang) && !t0.paths.any fun p => p.wait == .regang
    let s := s.modTroupe id fun _ => t
    let s := if merged then (s.countCore t.die t.core 0x06 1).modEns t.ens fun e => e.gang t.sec id none else s
    if s.isDone t then s.makeDone id else s.sweepBars t.ens

/-! ### Halts and forced spills (R58, R197, R406, R407, R417) -/

/-- The physical core behind a logical number (R400; log 28). -/
def Die.phys (D : Die) (c : Nat) : Nat := (mfind D.mapped c).getD c

/-- A halt by fault 0x13 or a second mismatch is attributed to the physical core (R445). -/
def State.strike (s : State) (d c : Nat) (mismatch : Bool) : State :=
  s.modDie d fun D => { D with strikes := D.strikes ++ [{ phys := D.phys c, mismatch := mismatch, clock := s.now }] }

/-- A troupe halts: it issues nothing more, its counters are discarded, its set is released, its
barriers are abandoned, and the submitter receives a halt notice (R58, R183, R197, R363). -/
def State.halt (s : State) (id pc code : Nat) : State :=
  match s.troupe? id with
  | none => s
  | some t =>
    if t.run ≠ .running then s
    else
      let s := if code = 0x13 then s.strike t.die t.core false else s
      let s := s.releaseExt id true
      let s := { s with halts := (s.halts ++ [t]).drop (s.halts.length + 1 - Config.haltRecords) }
      let s := s.modTroupe id fun t =>
        { t with run := .halted, paths := [], futures := freeFutures t.futures }
      let s := s.modEns t.ens fun e => e.abandon t.sec
      let s := match s.launchOf t.ens with
        | some l =>
          let s := s.modLaunch l.id fun l => { l with halts := l.halts ++ [(pc, code)] }
          let (seq, q) := match s.cmd? l.cmd with | some c => (c.seq, c.queue) | none => (0, 0)
          s.send { sid := l.sid, tag := l.tag, seq := seq, queue := q, kind := 1, status := 0x07,
                   detail0 := BitVec.ofNat 64 pc, detail1 := BitVec.ofNat 64 code }
        | none => s
      ((s.wake t).sweepBars t.ens).settleEns t.ens

/-- A barrier wait ended by a pre-emption request or a forced spill: D reads 0x40, and an arrival of BAR is
withdrawn (R185, R420). -/
def State.endBarrierWaits (s : State) (id : Nat) : State :=
  match s.troupe? id with
  | none => s
  | some t =>
    t.paths.foldl (fun s (p : Path) => match p.wait with
      | .bar b q d ls =>
        ((s.writeLanes id ls fun _ => [(d, 0x40)]).modEns t.ens fun e => e.modBar t.sec b fun x =>
          x.withdraw id p.number q (t.othersAt p.number b q)).advance { troupe := id, sel := p.sel }
      | .barwt _ _ d ls => (s.writeLanes id ls fun _ => [(d, 0x40)]).advance { troupe := id, sel := p.sel }
      | _ => s) s

/-- SLEEP ended (R178). -/
def Troupe.endSleep (t : Troupe) : Troupe :=
  { t with paths := t.paths.map fun (p : Path) => match p.wait with
      | .sleep _ => { p with wait := .none }
      | _ => p }

/-- The wait with which a spilled path goes on at resume: an instruction that waited issues again (R418,
R420); an answer of the service, a merge's fence and an ENTRYDONE that has been executed stay. -/
def Wait.spilled (w : Wait) : Wait :=
  match w with
  | .fwcall .. | .regang | .entrydone | .rxdone => w
  | _ => .none

/-- Waiters of a troupe taken off every mailbox word, and its mailbox requests out of the channels. -/
def State.dropWaiters (s : State) (id : Nat) : State :=
  { s with
    channels := s.channels.map fun e => (e.1, e.2.filter fun q => match q with
      | .mail r => r.troupe != id
      | _ => true)
    dies := s.dies.map fun D => { D with mbox := D.mbox.map fun e =>
      (e.1, { e.2 with waiters := e.2.waiters.filter fun w => match w with
        | .path r => r.troupe != id
        | .signal _ | .start _ => true }) } }

/-- The header by which a spilled troupe's %rsm is set: that of the block in which path 0's next
instruction stands (R418). -/
def Troupe.spillRsm (t : Troupe) : DWord :=
  match t.path? (.ord 0) with
  | some p => match p.blk with
    | some b => BitVec.ofNat 64 b.hdr
    | none => BitVec.ofNat 64 p.pc
  | none => t.rsm

/-- The forced spill of one troupe (R417, R418, R420): it stops issuing at once, its state is kept, and its
waiting instructions will issue again. A troupe in its exit routine keeps the %rsm of its vectoring, and
`rsm` is that of a fetch (R421). -/
def State.spillTroupe (s : State) (id : Nat) (rsm : Option Nat) : State :=
  match s.troupe? id with
  | none => s
  | some t =>
    if t.finished then s
    else
      let cut := t.routine == .exit
      (((s.endBarrierWaits id).dropWaiters id).modTroupe id fun t =>
        { t with
          finish := .spilled cut
          rsm := if cut then t.rsm else match rsm with | some a => BitVec.ofNat 64 a | none => t.spillRsm
          paths := t.paths.map fun (p : Path) => { p with wait := p.wait.spilled, ibuf := none } }).modEns t.ens
        fun e => { e with spilled := true }

/-- A troupe is taken by the forced spill (R417). -/
def State.spill (s : State) (id : Nat) : State :=
  match s.troupe? id with
  | none => s
  | some t => ((s.spillTroupe id none).sweepBars t.ens).settleEns t.ens

/-- A fetch-fault swap-out: every troupe of the ensemble that is not finished is spilled, and the
ensemble is offered again once the page is resident (R373, R421, R422). `who` fetches, with its %rsm. -/
def State.fetchSwap (s : State) (ens va who rsm : Nat) : State :=
  match s.ens? ens with
  | none => s
  | some e =>
    let st := if e.st = .running then .preempting else e.st
    let sid := match s.launch? e.launch with | some l => l.sid | none => 0
    let s := (s.touchAbsent sid va).modEns ens fun e => { e with st := st, waitPage := some va, fetchSpill := true }
    let s := (s.troupes.filter fun t => t.ens == ens).foldl (fun s t =>
      s.spillTroupe t.id (if t.id = who then some rsm else none)) s
    (s.sweepBars ens).settleEns ens

/-- A demand fetch or a target fetch of a page that is mapped but not resident: in an entry routine the
troupe halts with 0x14 and in an exit routine it is spilled (R402, R422); otherwise %rsm is the header concerned and the ensemble is swapped out
(R421). -/
def State.fetchMiss (s : State) (id va rsm pc : Nat) : State :=
  match s.troupe? id with
  | none => s
  | some t =>
    if t.routine = .entry then (s.touchAbsent (s.sidOf t) va).halt id pc 0x14
    else if t.routine = .exit then (s.touchAbsent (s.sidOf t) va).spill id
    else s.fetchSwap t.ens va id rsm

/-! ### Branch targets (R157) -/

/-- What the check of a branch target finds. -/
inductive TargetCheck where
  | ok
  | fault (code : Nat)
  | swap
  deriving DecidableEq, Repr

/-- Byte 0 of the slot at a translated address, for R157: from the instruction cache or the home slice, and on a
device-register page what the register gives (log 39). -/
def State.targetByte (s : State) (t : Troupe) (h pa : Nat) (p : Pte) : Byte :=
  if p.kind = .device then Config.deviceByte s.now pa else (s.slotNow t.die t.core h pa).extractLsb' 0 8

/-- The checks of R157 on a target, in order: alignment, range, translation, and byte 0 of its slot. A
mapped page without X whose slot begins with 0 passes, and its demand fetch faults (R173). -/
def State.checkTarget (s : State) (t : Troupe) (a : Int) : TargetCheck :=
  if a % 16 ≠ 0 then .fault 0x04
  else if a < 0 ∨ 2 ^ 64 - 15 ≤ a then .fault 0x06
  else
    match s.translate (s.sidOf t) t.die a.toNat with
    | .unmapped => .fault 0x05
    | .absent => .swap
    | .ok h pa p => if s.targetByte t h pa p = 0 then .ok else .fault 0x04

/-- The handler address of a troupe's launch (R403). -/
def State.handlerOf (s : State) (t : Troupe) : Nat :=
  match s.launchOf t.ens with | some l => l.handler | none => Config.standardHandler

/-! ### Taking a fault (R402–R407) -/

/-- A fault of one lane: its code and %faddr, and for a deferred fault the PC of the operation that raised it. -/
structure LaneFault where
  lane : Nat
  code : Nat
  addr : Nat
  orig : Option Nat := none
  deriving DecidableEq, Repr

/-- One code and address in every lane of a mask. -/
def faultAll (m : Word) (code addr : Nat) : List LaneFault :=
  (lanesOf m).map fun l => { lane := l, code := code, addr := addr }

/-- Faults by rising lane. -/
def sortFaults (fs : List LaneFault) : List LaneFault :=
  (List.range 32).flatMap fun l => (fs.find? fun f => f.lane == l).toList

/-- The fault registers of the slices with faulting lanes (R404 step 2, R111): CODE, DEF and %forig of the lowest
faulting lane of the slice. -/
def Troupe.setFaultRegs (t : Troupe) (fs : List LaneFault) (pc : Nat) : Troupe :=
  let t := { t with
    slices := (lenum t.slices).map fun (e : Nat × SliceSt) =>
      match fs.find? fun (f : LaneFault) => f.lane / 4 == e.1 with
      | none => e.2
      | some f =>
        { e.2 with
          fcode := BitVec.ofNat 32 (f.code + if f.orig.isSome then 256 else 0)
          fpc := BitVec.ofNat 64 pc
          fmask := maskOf ((fs.filter fun (g : LaneFault) => g.lane / 4 == e.1).map LaneFault.lane)
          forig := BitVec.ofNat 64 (f.orig.getD 0) } }
  { t with
    lastFault := match fs.head? with | some f => BitVec.ofNat 32 f.code | none => t.lastFault
    lanes := (lenum t.lanes).map fun (e : Nat × Lane) =>
      match fs.find? fun (f : LaneFault) => f.lane == e.1 with
      | none => e.2
      | some f => { e.2 with faddr := BitVec.ofNat 64 f.addr } }

/-- The handler path of a slice (R404 step 3): an empty stack, the stamp of its former path, and the
handler address. -/
def handlerPath (p : Path) (k home pc : Nat) (o : Origin) (now : Nat) : Path :=
  { p with sel := .handler k, home := home, origin := o, slices := sliceBit k, pc := pc, last := p.pc,
           blk := none, waiting := [], stack := [], waitCnt := 0, aged := false, stall := now + 1,
           wait := .none, ibuf := none, again := 0, retry := false }

/-- The slices `ks` leave their path and become handler paths (R404 step 3). -/
def Troupe.enterHandlers (t : Troupe) (p : Path) (ks : BitVec 8) (o : Origin) (handler now : Nat) :
    Troupe :=
  let home := match p.sel with | .ord n => n | .handler _ => p.home
  let t := sliceList ks |>.foldl (fun t k =>
    let t := if p.sel = .handler k then t else t.lend p.sel (.handler k)
    t.modSlice k fun x => { x with st := .inHandler }) t
  let t := { t with paths := (t.paths.filter fun (q : Path) => !(sliceList ks).any fun k => q.sel == PathSel.handler k) ++
    (sliceList ks).map fun k => handlerPath p k home handler o now }
  t.modPath (.ord home) fun q => { q with slices := q.slices &&& ~~~ks }

/-- Taking the faults `fs` that the instruction or slot at `pc` raised in lanes of path `r` (R402):
0x13 halts the troupe; a fault in a handler path or an entry routine halts it with 0x14; in an exit
routine it is spilled; any other fault is delivered to handler paths (R404). The caller has already
moved the path's other slices to where they hold. -/
def State.takeFaults (s : State) (r : PathRef) (pc : Nat) (fs : List LaneFault) (o : Origin) : State :=
  match s.troupe? r.troupe with
  | none => s
  | some t =>
    match t.path? r.sel with
    | none => s
    | some p =>
      let fs := sortFaults fs
      if fs = [] then s
      else if fs.any fun f => f.code == 0x13 then s.halt t.id pc 0x13
      else if p.inHandler || t.routine == .entry then s.halt t.id pc 0x14
      else if t.routine = .exit then
        (s.modTroupe t.id fun t => t.setFaultRegs fs pc).spill t.id
      else
        let ks := slicesOf (maskOf (fs.map (·.lane)))
        let h := s.handlerOf t
        let s := s.modTroupe t.id fun t =>
          (t.setFaultRegs fs pc).enterHandlers p ks o h s.now
        let s := s.countDie t.die 0x4F (sliceList ks).length
        if h = Config.standardHandler then s
        else match s.checkTarget t h with
          | .ok => s
          | .swap => s.fetchSwap t.ens h t.id h
          | _ => s.halt t.id pc 0x14

/-- The lanes that fault leave their path at the word `p.pc`, and the others go on to the next word
(R191). -/
def State.faultWord (s : State) (r : PathRef) (fs : List LaneFault) : State :=
  match s.troupe? r.troupe with
  | none => s
  | some t => match t.path? r.sel with
    | none => s
    | some p =>
      if fs = [] then s.advance r
      else if p.retry then s.takeFaults r p.pc fs (.word p.blk)
      else (s.modTroupe t.id fun t => t.modPath r.sel Path.next).takeFaults r p.pc fs (.word p.blk)

/-- A fault of a branch that moves its path whole: the path holds at the branch (R452). -/
def State.faultBranch (s : State) (r : PathRef) (fs : List LaneFault) : State :=
  match s.troupe? r.troupe with
  | none => s
  | some t => match t.path? r.sel with
    | none => s
    | some p =>
      (s.modTroupe t.id fun t => t.modPath r.sel fun p => { p with again := 0 }).takeFaults r p.pc fs
        (.branch p.blk)

/-- A fault of the entry or the fetch of a slot: the path holds at the slot (R145, R155, R173, R192).
`pc` is %fpc. -/
def State.faultSlot (s : State) (r : PathRef) (pc code addr : Nat) : State :=
  match s.troupe? r.troupe with
  | none => s
  | some t => match t.path? r.sel with
    | none => s
    | some p =>
      s.takeFaults r pc (faultAll (t.faultLanes p) code addr) .slot

/-! ### Returning from a handler (R192, R451, R452) -/

/-- A slice executes the instruction at its %fpc again, in the lanes of %fmask (R192). -/
def Troupe.startRetry (t : Troupe) (k : Nat) (blk : Option Block) (now : Nat) : Troupe :=
  let x := t.slice k
  (t.modSlice k fun y => { y with st := .following }).modPath (.handler k) fun p =>
    { p with pc := x.fpc.toNat, blk := blk, stack := [], waiting := [], retry := true, again := x.fmask,
             ibuf := none, wait := .none, stall := now + 1 }

/-- TRET with k = 0 or 1 for the origins whose slices rejoin without a choice of side: k = 0 executes a
word again; a branch is left to its path (R452); a slot is entered or fetched again by the path
itself. -/
def Troupe.tret (t : Troupe) (k : Nat) (again : Bool) (now : Nat) : Troupe :=
  match t.path? (.handler k) with
  | none => t
  | some h =>
    match h.origin with
    | .word blk => if again then t.startRetry k blk now else t.endHandler k
    | .branch _ =>
      let m := (t.slice k).fmask
      let t := if again then t.modPath (.ord h.home) fun p => { p with again := p.again ||| m } else t
      t.endHandler k
    | .brd blk _ _ _ _ _ => if again then t.startRetry k blk now else t
    | .slot => t.endHandler k

end Sys2Proof.Machine
end

