-- ==== Sys2Proof/Machine/Operands.lean ====
section
/-! DEFINITION. Operand forms and the checks that stand before every instruction's effect: operand
codes, the extended set, errors and poison, and uniform operands (R37, R85, R91, R100, R101, R152,
R158 rows 6 to 9, R159, R453). -/

namespace Sys2Proof.Machine

/-- What an instruction does with its register fields: the fields it writes and those it reads in each
lane, with the number of registers each names; its uniform operands; whether it reads those from the
lowest active lane only; whether a poisoned read stops it whole (R159, R252); and its operands per
quarter (R264). `skip` says that it reads no lane outside active(i) (R228, R252), and `grp` that one field is
read only in the head lane of each group of as many active lanes as another field's lowest lane holds (R220); `bits` are the bits
that it reads of its uniform operands (R159). -/
structure Use where
  wr : List (BitVec 9 × Nat)
  rd : List (BitVec 9 × Nat)
  un : List (BitVec 9 × Nat)
  first : Bool
  whole : Bool
  qu : List (BitVec 9 × Nat) := []
  skip : Bool := false
  grp : Option (BitVec 9 × BitVec 9) := none
  bits : Word := 0xFFFFFFFF
  deriving DecidableEq, Repr

/-- No register operand. -/
def Use.none_ : Use := { wr := [], rd := [], un := [], first := false, whole := false }

/-- Lane-wise writes and reads. -/
def Use.lanes (wr rd : List (BitVec 9 × Nat)) : Use :=
  { wr := wr, rd := rd, un := [], first := false, whole := false }

/-- An instruction with uniform operands or a command: a poisoned read stops it whole (R159). -/
def Use.cmd (wr un : List (BitVec 9 × Nat)) (first : Bool) : Use :=
  { wr := wr, rd := [], un := un, first := first, whole := true }

/-- The registers of a field: `n` from its code, none for vz. -/
def fieldRegs (f : BitVec 9 × Nat) : List Nat :=
  if f.1 = 511 then [] else (List.range f.2).map (f.1.toNat + ·)

/-- A code that names nothing: 384 to 510 (R85). -/
def badCode (f : BitVec 9) : Bool := decide (384 ≤ f.toNat ∧ f.toNat ≤ 510)

/-- A pair or quad position with a code it does not take (R85, R229): not aligned to its size, 511, or
reaching beyond v383. -/
def badGroup (f : BitVec 9 × Nat) : Bool :=
  decide (2 ≤ f.2) &&
    (f.1 == 511 || f.1.toNat % f.2 != 0 || decide (384 < f.1.toNat + f.2))

/-- The operand fields that a word's format holds (R147). -/
def operandFields (x : Ins) : List (BitVec 9) :=
  if x.fmt = .f00 then [x.d, x.a, x.b, x.c, x.e] else [x.d, x.a]

/-- The guard fields that GC uses (R152). -/
def guardsUsed (x : Ins) : List (BitVec 9) :=
  match x.gc with
  | .none => []
  | .g0 => [x.g0]
  | .and | .or => [x.g0, x.g1]

/-- Row 6 of R158, apart from guard fields that GC uses. -/
def illegalOperand (x : Ins) (u : Use) : Bool :=
  (operandFields x).any badCode || badCode x.g0 || badCode x.g1 || (u.wr ++ u.rd ++ u.un ++ u.qu).any badGroup

/-- Whether an instruction names the extended set (R91). -/
def namesExt (x : Ins) (u : Use) : Bool :=
  (operandFields x ++ guardsUsed x).any (fun f => isExt f.toNat) ||
    (u.wr ++ u.rd ++ u.un ++ u.qu).any fun f => (fieldRegs f).any isExt

/-- Where a lane stands among those of active(i): whether it is the lowest, the lowest of its quarter, and the head
of a group of `Use.grp`. -/
structure Head3 where
  low : Bool
  qlow : Bool
  head : Bool
  deriving DecidableEq, Repr

/-- The source registers that an instruction reads in a lane of active(i): with `.first`, uniform operands
in the lowest lane only, and those per quarter in each quarter's lowest lane; the field of a group in its head. -/
def sourcesIn (u : Use) (h : Head3) : List Nat :=
  (u.rd.flatMap fieldRegs) ++ (if u.first && !h.low then [] else u.un.flatMap fieldRegs) ++
    (if u.first && !h.qlow then [] else u.qu.flatMap fieldRegs) ++
    (match u.grp with | some g => if h.head then fieldRegs (g.1, 1) else [] | none => [])

/-- The guard registers. -/
def guardRegs (x : Ins) : List Nat := (guardsUsed x).map BitVec.toNat

/-- The lowest lane of a mask. -/
def lowest (m : Word) : Nat := (lanesOf m).headD 32

/-- The lanes of a mask in a lane's quarter (R264). -/
def quarterOf (m : Word) (l : Nat) : Word := maskOf ((lanesOf m).filter fun k => k / 8 == l / 8)

/-- Whether a lane is the lowest of a mask in its quarter. -/
def qlowest (m : Word) (l : Nat) : Bool := l == lowest (quarterOf m l)

/-- Whether a lane is the lowest of active(i) in its group, whose size the lowest lane of active(i) holds (R220). Where
that is no size, no lane reads the field (log 42: the manual does not say which lanes would). -/
def Use.isHead (u : Use) (t : Troupe) (act : Word) (l : Nat) : Bool :=
  match u.grp with
  | none => false
  | some g =>
    let n := (t.reg (lowest act) g.2.toNat).toNat
    (n == 8 || n == 16 || n == 32) && l == lowest (maskOf ((lanesOf act).filter fun k => k / n == l / n))

/-- Where a lane stands in active(i). -/
def Use.place (u : Use) (t : Troupe) (act : Word) (l : Nat) : Head3 :=
  { low := l == lowest act, qlow := qlowest act l, head := u.isHead t act l }

/-- Lanes of active(i) that read a poisoned register, in a source or through the guard (R101, R453). -/
def Troupe.poisoned (t : Troupe) (x : Ins) (u : Use) (act : Word) : Word :=
  maskOf ((lanesOf act).filter fun l =>
    (guardOf x (t.lane l)).isNone || (sourcesIn u (u.place t act l)).any fun r => (t.lane l).bad r)

/-- Lanes of active(i) that read a register with an uncorrectable error (R100). -/
def Troupe.consumed (t : Troupe) (x : Ins) (u : Use) (act : Word) : Word :=
  maskOf ((lanesOf act).filter fun l =>
    (sourcesIn u (u.place t act l) ++ guardRegs x).any fun r => (t.lane l).ecc.contains r)

/-- The registers that an instruction reads in a lane outside active(i): its guards, where the lane is one of A(p) (R453),
and, but for one that reads only the lanes of active(i), the sources that it reads in every lane: with `.first` no uniform
operand is one (R100, R159, R228, R252). -/
def readsOutside (x : Ins) (u : Use) (inPath : Bool) : List Nat :=
  (if u.skip then [] else sourcesIn u { low := false, qlow := false, head := false }) ++
    if inPath then guardRegs x else []

/-- Errors found in lanes outside active(i), of a path with the lanes `m`: those registers are poisoned (R100). -/
def Troupe.markErrors (t : Troupe) (m : Word) (x : Ins) (u : Use) (act : Word) : Troupe :=
  { t with lanes := (lenum t.lanes).map fun e =>
      if act.getLsbD e.1 then e.2
      else
        let rs := readsOutside x u (m.getLsbD e.1)
        { e.2 with poison := nunion e.2.poison (rs.filter fun r => e.2.ecc.contains r)
                   ecc := e.2.ecc.filter fun r => !rs.contains r } }

/-- How many errors that marks (R397: UNCORR, POISON). -/
def Troupe.errorsOutside (t : Troupe) (m : Word) (x : Ins) (u : Use) (act : Word) : Nat :=
  ((lenum t.lanes).map fun e =>
    if act.getLsbD e.1 then 0 else ((readsOutside x u (m.getLsbD e.1)).filter fun r => e.2.ecc.contains r).length).sum

/-- Whether the uniform operands are uniform over active(i), in the bits that the instruction reads (R159). -/
def Troupe.uniform (t : Troupe) (u : Use) (act : Word) : Bool :=
  u.first || (lanesOf act).all fun l =>
    ((u.un.flatMap fieldRegs).all fun r => t.reg l r &&& u.bits == t.reg (lowest act) r &&& u.bits) &&
      (u.qu.flatMap fieldRegs).all fun r => t.reg l r == t.reg (lowest (quarterOf act l)) r

/-- Where an instruction stands before its effect. -/
inductive Gate where
  /-- no path issues it -/
  | nobody
  /-- active(i) is empty: no effect (R37) -/
  | empty (t : Troupe) (p : Path)
  /-- a fault of rows 6 to 9 in the lanes `m`, with no other effect -/
  | fault (t : Troupe) (p : Path) (m : Word) (code : Nat)
  /-- the lanes `act` execute; the lanes `bad` take fault 0x12 (R101) -/
  | go (t : Troupe) (p : Path) (act bad : Word)
  deriving DecidableEq, Repr

/-- The checks of R158 rows 6 to 9 over lanes `m` as A(p). -/
def gateOn (t : Troupe) (p : Path) (m : Word) (x : Ins) (u : Use) : Gate :=
  if (guardsUsed x).any badCode then (if m = 0 then .empty t p else .fault t p m 0x0B)
  else
    let act := t.guarded m x
    if act = 0 then .empty t p
    else if illegalOperand x u then .fault t p act 0x0B
    else if namesExt x u && !t.holdsExt then .fault t p act 0x0D
    else if t.consumed x u act ≠ 0 then .fault t p (t.consumed x u act) 0x13
    else
      let bad := t.poisoned x u act
      if u.whole && bad != 0 then .fault t p bad 0x12
      else if !t.uniform u act then .fault t p act 0x0A
      else .go t p (act &&& ~~~bad) bad

/-- The issuing troupe and path. -/
def State.issuer (s : State) : Option (PathRef × Troupe × Path) :=
  match s.cur with
  | none => none
  | some r => match s.troupe? r.troupe with
    | none => none
    | some t => match t.path? r.sel with
      | none => none
      | some p => if t.run = .running then some (r, t, p) else none

/-- The checks for the issuing path. -/
def State.gate (s : State) (x : Ins) (u : Use) : Gate :=
  match s.issuer with
  | none => .nobody
  | some (_, t, p) => gateOn t p (t.pathLanes p) x u

/-- The reference of a troupe's path. -/
def refOf (t : Troupe) (p : Path) : PathRef := { troupe := t.id, sel := p.sel }

/-- Uncorrectable errors found outside active(i): each is counted and logged, and a poison mark set for it (R100,
R397, R440). -/
def State.logOutside (s : State) (t : Troupe) (p : Path) : Nat → State
  | 0 => s
  | n + 1 => State.logOutside ((s.logError t.die t.core p.pc).countDie t.die 0x4E 1) t p n

/-- Uncorrectable errors that lanes of active(i) consume: each is counted and logged (R100, R397, R440). -/
def State.logInside (s : State) (t : Troupe) (p : Path) : Nat → State
  | 0 => s
  | n + 1 => State.logInside (s.logError t.die t.core p.pc) t p n

/-- How many errors the lanes of active(i) consume, where the checks come to them (R158 row 7). -/
def Troupe.errorsInside (t : Troupe) (p : Path) (m : Word) (x : Ins) (u : Use) : Nat :=
  match gateOn t p m x u with
  | .fault _ _ ls 0x13 =>
    let act := t.guarded m x
    ((lanesOf ls).map fun l =>
      ((sourcesIn u (u.place t act l) ++ guardRegs x).dedup.filter fun r => (t.lane l).ecc.contains r).length).sum
  | _ => 0

/-- The effects of issuing over lanes `m` as A(p), which stand whatever the instruction does: its scheduling fields,
and what it finds of uncorrectable errors. An instruction with an empty active(i), or one that faults by rows 6 or 7 of R158,
reads its registers too: R100 does not say (DESIGN CHOICE, log 42). -/
def State.startOn (s : State) (t : Troupe) (p : Path) (m : Word) (x : Ins) (u : Use) : State :=
  let act := t.guarded m x
  ((s.modTroupe t.id fun t => (t.markErrors m x u act).modPath p.sel fun p => p.issued s.now x).logOutside t p
    (t.errorsOutside m x u act)).logInside t p (t.errorsInside p m x u)

/-- The effects of issuing that stand whatever the instruction does. -/
def State.start (s : State) (t : Troupe) (p : Path) (x : Ins) (u : Use) : State := s.startOn t p (t.pathLanes p) x u

/-- The end of an instruction of a block: its faults are taken, and the path goes on (R191, R404). -/
def State.finish (s : State) (r : PathRef) (bad : Word) : State := s.faultWord r (faultAll bad 0x12 0)

/-- An instruction that has issued and waits: its path stands at it until the wait ends; lanes whose
guard was poisoned take their faults meanwhile (R48, R453). -/
def State.waitAt (s : State) (r : PathRef) (w : Wait) (bad : Word) : State :=
  match (s.troupe? r.troupe).bind fun t => t.path? r.sel with
  | none => s
  | some p => (s.modPath r fun p => { p with wait := w }).takeFaults r p.pc (faultAll bad 0x12 0)
      (.word p.blk)

/-- An instruction that neither branches nor waits: the checks, then `f`, which changes the state for
the lanes that execute, then the next word. -/
def runWord (x : Ins) (u : Use) (s : State)
    (f : State → Troupe → Path → Word → State) : Host.Outcome State Fault Refusal :=
  match s.gate x u with
  | .nobody => .fault .noIssuer
  | .empty t p => .next ((s.start t p x u).advance (refOf t p))
  | .fault t p m c => .next ((s.start t p x u).faultWord (refOf t p) (faultAll m c 0))
  | .go t p act bad => .next ((f (s.start t p x u) t p act).finish (refOf t p) bad)

/-- How the effect of an instruction ends: done, with the faults of lanes that did not execute; or its
own `wait until` holds the head, which stays where it is and has no effect yet (R48), but for requests
that its reads have sent (`wait`). -/
inductive Eff where
  | done (s : State) (fs : List LaneFault)
  | hold
  | wait (s : State)
  deriving DecidableEq, Repr

/-- An instruction whose effect may fault in lanes or hold its head. -/
def runEff (x : Ins) (u : Use) (s : State)
    (f : State → Troupe → Path → Word → Eff) : Host.Outcome State Fault Refusal :=
  match s.gate x u with
  | .nobody => .fault .noIssuer
  | .empty t p => .next ((s.start t p x u).advance (refOf t p))
  | .fault t p m c => .next ((s.start t p x u).faultWord (refOf t p) (faultAll m c 0))
  | .go t p act bad =>
    match f (s.start t p x u) t p act with
    | .done s fs => .next (s.faultWord (refOf t p) (fs ++ faultAll bad 0x12 0))
    | .hold => .next (s.modPath (refOf t p) fun p => { p with wait := .retry })
    | .wait s => .next (s.modPath (refOf t p) fun _ => { p with wait := .retry })

/-- A deferred fault in lanes: DEF = 1 and the PC of the operation that raised it (R275, R287). -/
def faultsDeferred (act : Word) (code addr orig : Nat) : List LaneFault :=
  (faultAll act code addr).map fun f => { f with orig := some orig }

/-- A deferred fault taken by an instruction in its lanes; other lanes may take a fault of their own with it
(R404). The instruction itself does not execute. -/
def State.faultDeferred (s : State) (r : PathRef) (act : Word) (code addr orig : Nat) (own : List LaneFault) :
    State := s.faultWord r (faultsDeferred act code addr orig ++ own)

/-- An instruction that only writes registers in the lanes that execute: `f l` gives a lane's writes
from its registers. -/
def runLanes (x : Ins) (u : Use) (s : State) (f : (Nat → Word) → List (Nat × Word)) :
    Host.Outcome State Fault Refusal :=
  runWord x u s fun s t _ act => s.writeLanes t.id act fun l => f (t.reg l)

/-! ### Operands -/

/-- The last source: the register B in format 00, IMM32 in format 10. -/
def srcB (x : Ins) (rd : Nat → Word) : Word := if x.fmt = .f00 then rd x.b.toNat else x.imm

/-- A register pair as a 64-bit value, low word first (R66). -/
def rdPair (rd : Nat → Word) (r : BitVec 9) : DWord := rd (r.toNat + 1) ++ rd r.toNat

/-- IMM32 sign-extended to 64 bits. -/
def imm64s (x : Ins) : DWord := x.imm.signExtend 64

/-- IMM32 zero-extended to 64 bits. -/
def imm64z (x : Ins) : DWord := x.imm.zeroExtend 64

/-- The uniform value of a register operand over the lanes that execute (R159): the lowest lane's. -/
def uni (t : Troupe) (act : Word) (r : BitVec 9) : Word := t.reg (lowest act) r.toNat

/-- The uniform value of a pair. -/
def uniPair (t : Troupe) (act : Word) (r : BitVec 9) : DWord := t.pair (lowest act) r.toNat

end Sys2Proof.Machine
end

