-- ==== Sys2Proof/Machine/Formats.lean ====
section
/-! DEFINITION. Number formats and exact arithmetic (chapter 04): values of codes (R116, R117), one
rounding of an exact rational (R125–R129), special values (R130, R131), minimum and maximum (R133),
band scales (R139) and the block scale of R140. -/

namespace Sys2Proof.Machine

/-- The value of a floating-point code: a NaN, an infinity, or ±m × 2^e held exactly; a zero keeps
its sign (R117, R131). -/
inductive Num where
  | nan
  | inf (neg : Bool)
  | fin (neg : Bool) (m : Nat) (e : Int)
  deriving DecidableEq, Repr

/-- A row of R116: exponent bits, mantissa bits, bias, width, whether the format has a sign bit and
infinities, its NaN kind (0 none, 1 the all-ones exponent with m ≠ 0, 2 the all-ones code only), its
canonical NaN (R130) and its largest finite code. -/
structure FloatFormat where
  e : Nat
  m : Nat
  bias : Nat
  width : Nat
  signed : Bool
  hasInf : Bool
  nanKind : Nat
  nanCode : Nat
  maxCode : Nat
  deriving DecidableEq, Repr

/-- The table of R116 and R130. A type that is no float format reads as FP32; no instruction asks. -/
def floatFormat : Ty → FloatFormat
  | .f16 | .f16x2 => ⟨5, 10, 15, 16, true, true, 1, 0x7E00, 0x7BFF⟩
  | .bf16 | .bf16x2 => ⟨8, 7, 127, 16, true, true, 1, 0x7FC0, 0x7F7F⟩
  | .e5m2 => ⟨5, 2, 15, 8, true, true, 1, 0x7E, 0x7B⟩
  | .e4m3 => ⟨4, 3, 7, 8, true, false, 2, 0x7F, 0x7E⟩
  | .e3m2 => ⟨3, 2, 3, 6, true, false, 0, 0, 0x1F⟩
  | .e2m3 => ⟨2, 3, 1, 6, true, false, 0, 0, 0x1F⟩
  | .e2m1 => ⟨2, 1, 1, 4, true, false, 0, 0, 0x7⟩
  | .e3m5 => ⟨3, 5, 3, 8, false, false, 2, 0xFF, 0xFE⟩
  | _ => ⟨8, 23, 127, 32, true, true, 1, 0x7FC00000, 0x7F7FFFFF⟩

/-- The magnitude bits of a code: the code without its sign bit. -/
def magBits (f : FloatFormat) (code : Nat) : Nat :=
  code % 2 ^ (if f.signed then f.width - 1 else f.width)

/-- Whether a code's sign bit is set; E3M5 has none (R117). -/
def signBit (f : FloatFormat) (code : Nat) : Bool :=
  f.signed && code / 2 ^ (f.width - 1) % 2 == 1

/-- The value of a finite magnitude (R117). -/
def magValue (f : FloatFormat) (neg : Bool) (mag : Nat) : Num :=
  let ex := mag / 2 ^ f.m
  let m := mag % 2 ^ f.m
  if ex = 0 then .fin neg m (1 - (f.bias : Int) - f.m)
  else .fin neg (2 ^ f.m + m) ((ex : Int) - f.bias - f.m)

/-- The value of a code (R116, R117). Bits above the format's width are ignored (R200). -/
def value (ty : Ty) (code : Nat) : Num :=
  let f := floatFormat ty
  let mag := magBits f code
  let neg := signBit f code
  let ex := mag / 2 ^ f.m
  let m := mag % 2 ^ f.m
  if f.nanKind = 1 ∧ ex = 2 ^ f.e - 1 then if m = 0 then .inf neg else .nan
  else if f.nanKind = 2 ∧ mag = 2 ^ (f.e + f.m) - 1 then .nan
  else magValue f neg mag

/-- Whether a code is a NaN code of its format. -/
def isNanCode (ty : Ty) (code : Nat) : Bool := value ty code == .nan

/-- 2^k as a fraction: numerator and denominator. -/
def pow2 (k : Int) : Nat × Nat := if 0 ≤ k then (2 ^ k.toNat, 1) else (1, 2 ^ (-k).toNat)

/-- A finite magnitude m × 2^e as a fraction. -/
def frac (m : Nat) (e : Int) : Nat × Nat := (m * (pow2 e).1, (pow2 e).2)

/-- The exponent k with 2^k ≤ num/den < 2^(k+1), for num and den positive. -/
def floorLog2 (num den : Nat) : Int :=
  let l := (Nat.log2 num : Int) - Nat.log2 den
  let p := pow2 l
  if den * p.1 ≤ num * p.2 then l else l - 1

/-- Whether rounding goes away from zero: `n` is the kept quotient, `rem / den` the discarded part
(R125, R126). -/
def roundsUp (r : Rnd) (neg : Bool) (rho n rem den : Nat) : Bool :=
  match r with
  | .rne => decide (2 * rem > den) || (decide (2 * rem = den) && n % 2 == 1)
  | .rz => false
  | .rup => decide (rem ≠ 0) && !neg
  | .rdn => decide (rem ≠ 0) && neg
  | .rs => decide (rem ≠ 0) && decide (65536 * rem / den + rho ≥ 65536)

/-- The largest finite magnitude of a format as m × 2^e. -/
def maxFinite (f : FloatFormat) : Nat × Int :=
  match magValue f false f.maxCode with
  | .fin _ m e => (m, e)
  | _ => (0, 0)

/-- Whether num/den overflows the format under a mode (R127): `up` is the rounded magnitude n × 2^q
with an unbounded exponent. -/
def overflows (f : FloatFormat) (r : Rnd) (neg : Bool) (num den n : Nat) (q : Int) : Bool :=
  let (mm, me) := maxFinite f
  let top := frac mm me
  let next := frac (2 * mm + 1) (me - 1)
  let up := frac n q
  match r with
  | .rne => decide (next.1 * den ≤ num * next.2)
  | .rz => false
  | .rup => !neg && decide (top.1 * den < num * top.2)
  | .rdn => neg && decide (top.1 * den < num * top.2)
  | .rs => decide (top.1 * up.2 < up.1 * top.2)

/-- The magnitude code of n × 2^q, which the format holds. -/
def magCode (f : FloatFormat) (n : Nat) (q : Int) : Nat :=
  if n < 2 ^ f.m then n
  else if n < 2 ^ (f.m + 1) then (q + f.m + f.bias).toNat * 2 ^ f.m + (n - 2 ^ f.m)
  else (q + 1 + f.m + f.bias).toNat * 2 ^ f.m + (n / 2 - 2 ^ f.m)

/-- A magnitude with its sign. -/
def withSign (f : FloatFormat) (neg : Bool) (mag : Nat) : Nat :=
  if f.signed && neg then 2 ^ (f.width - 1) + mag else mag

/-- What an overflow delivers (R127). -/
def overflowCode (f : FloatFormat) (sat neg : Bool) : Nat :=
  if sat || f.nanKind = 0 then withSign f neg f.maxCode
  else if f.hasInf then withSign f neg ((2 ^ f.e - 1) * 2 ^ f.m)
  else f.nanCode

/-- One rounding of the exact value ±num/den to a format, in `ρ` the random input of `.rs` (R125 to
R129). -/
def roundQ (ty : Ty) (r : Rnd) (sat : Bool) (rho : Nat) (neg : Bool) (num den : Nat) : Nat :=
  let f := floatFormat ty
  if num = 0 then withSign f neg 0
  else if neg && !f.signed then (if sat then 0 else f.nanCode)
  else
    let k := floorLog2 num den
    let q := max k (1 - (f.bias : Int)) - f.m
    let p := pow2 (-q)
    let d := den * p.2
    let x := num * p.1
    let n := x / d
    let n' := if roundsUp r neg rho n (x % d) d then n + 1 else n
    let top := maxFinite f
    let t := frac top.1 top.2
    if overflows f r neg num den n' q then overflowCode f sat neg
    else if decide (t.1 * den < num * t.2) && r != .rs then withSign f neg f.maxCode
    else withSign f neg (magCode f n' q)

/-- One rounding of a value to a format (R125–R130). -/
def roundTo (ty : Ty) (r : Rnd) (sat : Bool) (rho : Nat) (x : Num) : Nat :=
  let f := floatFormat ty
  match x with
  | .nan => f.nanCode
  | .inf neg =>
    if neg && !f.signed then (if sat then 0 else f.nanCode) else overflowCode f sat neg
  | .fin neg m e => roundQ ty r sat rho neg (frac m e).1 (frac m e).2

/-- Rounding to nearest even without saturation. -/
def rne (ty : Ty) (x : Num) : Nat := roundTo ty .rne false 0 x

def Num.neg : Num → Num
  | .nan => .nan
  | .inf s => .inf (!s)
  | .fin s m e => .fin (!s) m e

def Num.isNan : Num → Bool
  | .nan => true
  | _ => false

def Num.isInf : Num → Bool
  | .inf _ => true
  | _ => false

def Num.isZero : Num → Bool
  | .fin _ m _ => m == 0
  | _ => false

def Num.signNeg : Num → Bool
  | .inf s => s
  | .fin s _ _ => s
  | .nan => false

def Num.abs : Num → Num
  | .nan => .nan
  | .inf _ => .inf false
  | .fin _ m e => .fin false m e

/-- The exact product; infinity × 0 is a NaN (R131). -/
def Num.mul : Num → Num → Num
  | .nan, _ => .nan
  | _, .nan => .nan
  | .inf s, y => if y.isZero then .nan else .inf (s != y.signNeg)
  | x, .inf s => if x.isZero then .nan else .inf (x.signNeg != s)
  | .fin s m e, .fin t n f => .fin (s != t) (m * n) (e + f)

/-- A finite value as an integer multiple of 2^q, where q is at most its exponent. -/
def Num.atExp (q : Int) : Num → Int
  | .fin s m e => (if s then -1 else 1) * ((m * 2 ^ (e - q).toNat : Nat) : Int)
  | _ => 0

/-- The exact sum of a list, with the sign of an exact zero as R131 and R254 give. -/
def sumNum (rdn : Bool) (l : List Num) : Num :=
  if l.any Num.isNan then .nan
  else
    let pos := l.any fun x => x == .inf false
    let neg := l.any fun x => x == .inf true
    if pos && neg then .nan
    else if pos then .inf false
    else if neg then .inf true
    else
      let q : Int := l.foldl (fun q x => match x with | .fin _ _ e => min q e | _ => q) 0
      let s : Int := l.foldl (fun a x => a + x.atExp q) 0
      if s = 0 then
        if l.all fun x => x.isZero && x.signNeg then (if l.isEmpty then .fin false 0 0 else .fin true 0 0)
        else if l.all fun x => x.isZero && !x.signNeg then .fin false 0 0
        else .fin rdn 0 0
      else .fin (decide (s < 0)) s.natAbs q

/-- IEEE comparison of two numbers that are not NaN: the sign of x − y (R133: −0 equals +0). -/
def Num.cmp : Num → Num → Int
  | .inf s, .inf t => if s = t then 0 else if s then -1 else 1
  | .inf s, _ => if s then -1 else 1
  | _, .inf t => if t then 1 else -1
  | x, y =>
    match sumNum false [x, y.neg] with
    | .fin s m _ => if m = 0 then 0 else if s then -1 else 1
    | _ => 0

/-- The order of R133 with −0 below +0, for two numbers that are not NaN. -/
def Num.below (x y : Num) : Bool :=
  let c := x.cmp y
  decide (c < 0) || (decide (c = 0) && x.isZero && y.isZero && x.signNeg && !y.signNeg)

/-- FMIN and FMAX on codes (R133); `prefer` is the form that returns the number (FMINN, FMAXN). -/
def minMaxCode (ty : Ty) (isMax prefer : Bool) (a b : Nat) : Nat :=
  let x := value ty a
  let y := value ty b
  let nan := (floatFormat ty).nanCode
  if x.isNan && y.isNan then nan
  else if x.isNan then (if prefer then b else nan)
  else if y.isNan then (if prefer then a else nan)
  else if isMax then (if x.below y then b else a)
  else (if y.below x then b else a)

/-- The exact quotient of two finite non-zero magnitudes as a fraction. -/
def quotFrac (m : Nat) (e : Int) (n : Nat) (f : Int) : Nat × Nat :=
  let p := pow2 (e - f)
  (m * p.1, n * p.2)

/-- IEEE division rounded once to a format (R131). -/
def divRound (ty : Ty) (r : Rnd) (x y : Num) : Nat :=
  let f := floatFormat ty
  match x, y with
  | .nan, _ => f.nanCode
  | _, .nan => f.nanCode
  | .inf _, .inf _ => f.nanCode
  | .inf s, y => roundTo ty r false 0 (.inf (s != y.signNeg))
  | x, .inf s => roundTo ty r false 0 (.fin (x.signNeg != s) 0 0)
  | .fin s m e, .fin t n g =>
    if n = 0 then
      if m = 0 then f.nanCode else roundTo ty r false 0 (.inf (s != t))
    else if m = 0 then roundTo ty r false 0 (.fin (s != t) 0 0)
    else roundQ ty r false 0 (s != t) (quotFrac m e n g).1 (quotFrac m e n g).2

/-- The integral value that a mode gives for a finite magnitude num/den with its sign. -/
def roundInt (r : Rnd) (neg : Bool) (num den : Nat) : Int :=
  let n := num / den
  let n' := if roundsUp r neg 0 n (num % den) den then n + 1 else n
  if neg then -(n' : Int) else n'

/-- FRND: the integral value in the same type; a zero keeps the sign of the operand (R214). -/
def roundIntegral (ty : Ty) (r : Rnd) (code : Nat) : Nat :=
  match value ty code with
  | .nan => (floatFormat ty).nanCode
  | .inf _ => code % 2 ^ (floatFormat ty).width
  | .fin s m e => rne ty (.fin s (roundInt r s (frac m e).1 (frac m e).2).natAbs 0)

/-- FCLASS: the one-hot class of a code (R213). -/
def classBit (ty : Ty) (code : Nat) : Nat :=
  let f := floatFormat ty
  let neg := signBit f code
  match value ty code with
  | .nan => 8
  | .inf s => if s then 0 else 7
  | .fin _ m _ =>
    if m = 0 then (if neg then 3 else 4)
    else if magBits f code < 2 ^ f.m then (if neg then 2 else 5)
    else (if neg then 1 else 6)

/-- The largest finite value of an element format. -/
def maxValue (ty : Ty) : Num := value ty (floatFormat ty).maxCode

/-- Whether a BF16 code is a valid band scale: positive and finite (R219). -/
def bandValid (code : Nat) : Bool :=
  match value .bf16 code with
  | .fin false m _ => m != 0
  | _ => false

/-- x / β rounded to FP32 (R139, R140 step 1). -/
def overBand (x : Num) (beta : Nat) : Nat := divRound .f32 .rne x (value .bf16 beta)

/-- The block scale of a group with greatest magnitude α (R140 step 3): α over the largest finite
value of the element format, rounded up to E3M5 and saturated. -/
def blockScale (ty : Ty) (alpha : Num) : Nat :=
  match alpha, maxValue ty with
  | .fin _ 0 _, _ => 0
  | .fin _ m e, .fin _ n g => roundQ .e3m5 .rup true 0 false (quotFrac m e n g).1 (quotFrac m e n g).2
  | .inf _, _ => 0xFE
  | _, _ => 0xFF

/-- The element code of y under the block scale s (R140 step 4, R221): the exact quotient rounded
once and saturated. -/
def quantCode (ty : Ty) (r : Rnd) (rho : Nat) (y : Num) (s : Nat) : Nat :=
  match y, value .e3m5 s with
  | .fin t m e, .fin _ n g =>
    if n = 0 then 0
    else if m = 0 then withSign (floatFormat ty) t 0
    else roundQ ty r true rho t (quotFrac m e n g).1 (quotFrac m e n g).2
  | .inf t, _ => withSign (floatFormat ty) t (floatFormat ty).maxCode
  | _, _ => 0

/-- The band scale β for an element format from a ring maximum μ (R139), as a BF16 code: 1.0 for 0,
2^127 for infinity, otherwise 2^k with k = ceil(log2(μ / Lf)) clamped to −133 … 127. -/
def bandScale (ty : Ty) (mu : Num) : Nat :=
  match mu, maxValue ty with
  | .fin _ m e, .fin _ n g =>
    if m = 0 then 0x3F80
    else
      let (num, den) := quotFrac m e n (g + 4)
      let k := floorLog2 num den
      let p := pow2 k
      let k' := if num * p.2 = den * p.1 then k else k + 1
      let k'' := max (-133) (min 127 k')
      rne .bf16 (.fin false 1 k'')
  | _, _ => rne .bf16 (.fin false 1 127)

/-- The integer square root of x, for x below 4^(fuel). -/
def isqrtLoop (x : Nat) : Nat → Nat → Nat
  | 0, acc => acc
  | i + 1, acc =>
    let t := acc + 2 ^ i
    isqrtLoop x i (if t * t ≤ x then t else acc)

def isqrt (x : Nat) : Nat := isqrtLoop x (Nat.log2 x / 2 + 1) 0

/-- The square root of num/den rounded to FP32: the integer root of a scaled argument, with half a
unit added where it is inexact, which rounds as the exact root does. -/
def sqrtRound (num den : Nat) : Nat :=
  let k := 2 * (Nat.log2 den + 200)
  let x := num * 2 ^ k / den
  let s := isqrt x
  let exact := decide (s * s * den = num * 2 ^ k)
  if exact then roundQ .f32 .rne false 0 false s (2 ^ (k / 2))
  else roundQ .f32 .rne false 0 false (2 * s + 1) (2 ^ (k / 2 + 1))

end Sys2Proof.Machine
end

