-- ==== Sys2Proof/Machine/Special.lean ====
section
/-! DEFINITION. The special functions of R132 and R215. Each is computed as a 512-bit fixed-point
value of the exact function and then rounded once to FP32; arguments with an exact result are taken
apart first, so that no rounding tie is approximated (log 8). -/

namespace Sys2Proof.Machine

/-- Fraction bits of the fixed-point arithmetic. -/
def fxBits : Nat := 512

/-- 1.0 in fixed point. -/
def fxOne : Int := 2 ^ fxBits

/-- num/den in fixed point, rounded down. -/
def fxOf (neg : Bool) (num den : Nat) : Int :=
  let v : Int := (num * 2 ^ fxBits / den : Nat)
  if neg then -v else v

/-- A product in fixed point. -/
def fxMul (a b : Int) : Int := a * b / fxOne

/-- The sum of z^(2i+1) / (2i+1) with alternating sign where `alt`, `n` terms: atan or atanh. -/
def fxAtanLoop (alt : Bool) (z2 : Int) : Nat → Nat → Int → Int → Int
  | 0, _, _, acc => acc
  | n + 1, i, p, acc =>
    let t := p / (2 * i + 1)
    fxAtanLoop alt z2 n (i + 1) (fxMul p z2) (if alt && i % 2 == 1 then acc - t else acc + t)

def fxAtan (alt : Bool) (z : Int) (terms : Nat) : Int := fxAtanLoop alt (fxMul z z) terms 0 z 0

/-- ln 2 = 2 atanh(1/3). -/
def fxLn2 : Int := 2 * fxAtan false (fxOf false 1 3) 170

/-- π = 16 atan(1/5) − 4 atan(1/239) (Machin). -/
def fxPi : Int := 16 * fxAtan true (fxOf false 1 5) 120 - 4 * fxAtan true (fxOf false 1 239) 40

/-- The sum of r^i / i!. -/
def fxExpLoop (r : Int) : Nat → Nat → Int → Int → Int
  | 0, _, _, acc => acc
  | n + 1, i, p, acc => fxExpLoop r n (i + 1) (fxMul p r / (i + 1)) (acc + p)

/-- e^r for r in [0, ln 2] in fixed point. -/
def fxExp (r : Int) : Int := fxExpLoop r 110 0 fxOne 0

/-- The sum of (−1)^i r^(2i+s) / (2i+s)!, with `s` 1 for the sine and 0 for the cosine. -/
def fxSinLoop (r2 : Int) : Nat → Nat → Int → Int → Int
  | 0, _, _, acc => acc
  | n + 1, k, p, acc => fxSinLoop r2 n (k + 2) (-(fxMul p r2) / ((k + 1) * (k + 2))) (acc + p)

def fxSin (r : Int) : Int := fxSinLoop (fxMul r r) 60 1 r 0
def fxCos (r : Int) : Int := fxSinLoop (fxMul r r) 60 0 fxOne 0

/-- A fixed-point value times 2^k rounded to FP32, nearest even. -/
def fxRound (v : Int) (k : Int) : Nat :=
  let p := pow2 (k - fxBits)
  roundQ .f32 .rne false 0 (decide (v < 0)) (v.natAbs * p.1) p.2

/-- The exponent n and the fixed-point power t with e^y = t × 2^n, 1 ≤ t < 2, for y in fixed
point. -/
def fxExpSplit (y : Int) : Int × Int :=
  let n := y / fxLn2
  (n, fxExp (y - n * fxLn2))

/-- The base-2 logarithm of a positive finite value: exact for powers of two (R132). -/
def log2Round (m : Nat) (e : Int) : Nat :=
  let k := Nat.log2 m
  if m = 2 ^ k then
    let i := e + k
    rne .f32 (.fin (decide (i < 0)) i.natAbs 0)
  else
    let z := fxOf false (m - 2 ^ k) (m + 2 ^ k)
    let ln := 2 * fxAtan false z 170
    fxRound ((e + k) * fxOne + ln * fxOne / fxLn2) 0

/-- FLOG2 (R132, R215). -/
def flog2 (a : Nat) : Nat :=
  match value .f32 a with
  | .nan => 0x7FC00000
  | .inf s => if s then 0x7FC00000 else 0x7F800000
  | .fin s m e => if m = 0 then 0xFF800000 else if s then 0x7FC00000 else log2Round m e

/-- FEXP2 (R132, R215): an integral argument gives a power of two exactly. -/
def fexp2 (a : Nat) : Nat :=
  match value .f32 a with
  | .nan => 0x7FC00000
  | .inf s => if s then 0 else 0x7F800000
  | .fin s m e =>
    let (num, den) := frac m e
    if s && decide (200 * den ≤ num) then 0
    else if decide (200 * den ≤ num) then 0x7F800000
    else
      let n := roundInt .rdn s num den
      if num % den = 0 then rne .f32 (.fin false 1 n)
      else
        let x := fxOf s num den
        fxRound (fxExp (fxMul (x - n * fxOne) fxLn2)) n

/-- The argument of a sine or cosine reduced by multiples of π/2: the multiple modulo 4 and the rest
in fixed point, in [−π/4, π/4]. -/
def reduceArg (s : Bool) (num den : Nat) : Nat × Int :=
  let x := fxOf s num den
  let half := fxPi / 2
  let k := (2 * x + half) / (2 * half)
  let wide := 2 ^ 160
  -- π/2 to 160 bits more, so that a multiple of up to 2^129 loses nothing
  let k0 := k
  let x' := x * wide
  let piWide := fxPiWide
  let r := (x' - k0 * (piWide / 2)) / wide
  ((k0 % 4).toNat, r)
where
  /-- π with 160 further bits, by the same series. -/
  fxPiWide : Int :=
    let one : Int := 2 ^ (fxBits + 160)
    let rec go (z2 : Nat) : Nat → Nat → Int → Int → Int
      | 0, _, _, acc => acc
      | n + 1, i, p, acc =>
        go z2 n (i + 1) (p / z2) (if i % 2 = 1 then acc - p / (2 * i + 1) else acc + p / (2 * i + 1))
    16 * go 25 160 0 (one / 5) 0 - 4 * go 57121 60 0 (one / 239) 0

/-- FSIN and FCOS (R132, R215): radians, correctly rounded for every finite argument. -/
def fsincos (cos : Bool) (a : Nat) : Nat :=
  match value .f32 a with
  | .nan => 0x7FC00000
  | .inf _ => 0x7FC00000
  | .fin s m e =>
    if m = 0 then (if cos then 0x3F800000 else a)
    else
      let (k, r) := reduceArg s (frac m e).1 (frac m e).2
      match (k + if cos then 1 else 0) % 4 with
      | 0 => fxRound (fxSin r) 0
      | 1 => fxRound (fxCos r) 0
      | 2 => fxRound (-(fxSin r)) 0
      | _ => fxRound (-(fxCos r)) 0

def fsin (a : Nat) : Nat := fsincos false a
def fcos (a : Nat) : Nat := fsincos true a

/-- FTANH (R132, R215): (e^2x − 1) / (e^2x + 1); ±1 from 2^6 on, where 1 − |tanh x| < 2^−180. -/
def ftanh (a : Nat) : Nat :=
  match value .f32 a with
  | .nan => 0x7FC00000
  | .inf s => if s then 0xBF800000 else 0x3F800000
  | .fin s m e =>
    let (num, den) := frac m e
    if m = 0 then a
    else if 64 * den ≤ num then (if s then 0xBF800000 else 0x3F800000)
    else
      let (n, t) := fxExpSplit (2 * fxOf false num den)
      let p := t * 2 ^ n.toNat
      roundQ .f32 .rne false 0 s (p - fxOne).toNat (p + fxOne).toNat

/-- FLGST (R132, R215): 1 / (1 + e^−x); +0 below −128 and 1 from 64 on, where rounding decides. -/
def flgst (a : Nat) : Nat :=
  match value .f32 a with
  | .nan => 0x7FC00000
  | .inf s => if s then 0 else 0x3F800000
  | .fin s m e =>
    let (num, den) := frac m e
    if s && decide (128 * den ≤ num) then 0
    else if !s && decide (64 * den ≤ num) then 0x3F800000
    else
      let (n, t) := fxExpSplit (2 * fxOf false num den / 2)
      let p := t * 2 ^ n.toNat
      if s then roundQ .f32 .rne false 0 false fxOne.toNat (fxOne + p).toNat
      else roundQ .f32 .rne false 0 false p.toNat (p + fxOne).toNat

/-- FRCP (R132): the correctly rounded reciprocal. -/
def frcp (a : Nat) : Nat := divRound .f32 .rne (.fin false 1 0) (value .f32 a)

/-- FSQRT (R132). -/
def fsqrt (a : Nat) : Nat :=
  match value .f32 a with
  | .nan => 0x7FC00000
  | .inf s => if s then 0x7FC00000 else 0x7F800000
  | .fin s m e =>
    if m = 0 then a else if s then 0x7FC00000 else sqrtRound (frac m e).1 (frac m e).2

/-- FRSQ (R132). -/
def frsq (a : Nat) : Nat :=
  match value .f32 a with
  | .nan => 0x7FC00000
  | .inf s => if s then 0x7FC00000 else 0
  | .fin s m e =>
    if m = 0 then (if s then 0xFF800000 else 0x7F800000)
    else if s then 0x7FC00000 else sqrtRound (frac m e).2 (frac m e).1

/-- FDIV (R132). -/
def fdiv (a b : Nat) : Nat := divRound .f32 .rne (value .f32 a) (value .f32 b)

end Sys2Proof.Machine
end

