-- ==== Sys2Proof/Machine/Flags.lean ====
section
/-! DEFINITION. The machine has no status flags: a comparison writes 1 or 0 to a register, a carry or
borrow goes to the second register of a pair (R206). Here are the relations and the carries. -/

namespace Sys2Proof.Machine

/-- A relation on integers (R206). -/
def Rel.holds (r : Rel) (a b : Int) : Bool :=
  match r with
  | .eq => a == b | .ne => a != b | .lt => decide (a < b) | .le => decide (a ≤ b)
  | .gt => decide (b < a) | .ge => decide (b ≤ a)

/-- A truth value as a whole register (R206, R212). -/
def flag (b : Bool) : Word := if b then 1 else 0

/-- A float predicate on two values (R212): −0 equals +0, and a NaN is unordered with everything. -/
def FRel.holds (r : FRel) (a b : Num) : Bool :=
  let un := a.isNan || b.isNan
  match r with
  | .num => !un
  | .nan => un
  | .ord q => !un && Rel.holds q (a.cmp b) 0
  | .unord q => un || Rel.holds q (a.cmp b) 0

/-- Sum and carry-out of IADDC (R206). -/
def addCarry (a b c : Word) : Word × Word :=
  let s := a.toNat + b.toNat + c.toNat % 2
  (BitVec.ofNat 32 s, BitVec.ofNat 32 (s / 2 ^ 32))

/-- Difference and borrow-out of ISUBB (R206). -/
def subBorrow (a b c : Word) : Word × Word :=
  let s : Int := a.toNat - b.toNat - (c.toNat % 2 : Nat)
  (BitVec.ofInt 32 s, flag (decide (s < 0)))

end Sys2Proof.Machine
end

