-- ==== Sys2Proof/Machine/Integer.lean ====
section
/-! DEFINITION. The integer and address instructions (R205–R209). Each reads its sources in a lane at
its type, computes an exact integer and narrows it once. -/

namespace Sys2Proof

/-- The width of a type's values in bits (R149). -/
def Ty.width : Ty → Nat
  | .s8 | .n8 | .b8 => 8
  | .s16 | .n16 | .b16 | .s16x2 | .n16x2 | .f16 | .bf16 | .f16x2 | .bf16x2 => 16
  | .s64 | .n64 | .b64 => 64
  | .b128 => 128
  | .e4m3 | .e5m2 | .e3m5 => 8
  | .e3m2 | .e2m3 => 6
  | .e2m1 => 4
  | _ => 32

/-- Whether an integer type is signed. -/
def Ty.signed : Ty → Bool
  | .s8 | .s16 | .s32 | .s64 | .s16x2 => true
  | _ => false

/-- Registers that an operand of the type takes (R200). -/
def Ty.regs (ty : Ty) : Nat := if ty.width = 64 then 2 else if ty.width = 128 then 4 else 1

/-- An n-bit value as the type reads it. -/
def Ty.toInt (ty : Ty) (v : Nat) : Int :=
  let n := ty.width
  let v := v % 2 ^ n
  if ty.signed && decide (2 ^ (n - 1) ≤ v) then (v : Int) - 2 ^ n else v

/-- The least and the greatest value of an integer type. -/
def Ty.least (ty : Ty) : Int := if ty.signed then -(2 ^ (ty.width - 1)) else 0
def Ty.greatest (ty : Ty) : Int := if ty.signed then 2 ^ (ty.width - 1) - 1 else 2 ^ ty.width - 1

/-- An exact result delivered at the type: wrapped, or clamped under `.sat` (R206); as an n-bit
value. -/
def Ty.deliver (ty : Ty) (sat : Bool) (x : Int) : Nat :=
  let y := if sat then min (max x ty.least) ty.greatest else x
  (y % ((2 ^ ty.width : Nat) : Int)).toNat

/-- Whether the type is a packed integer pair. -/
def Ty.packed (ty : Ty) : Bool := ty == .s16x2 || ty == .n16x2

/-- The value of N bits, all ones. -/
def Ty.ones (ty : Ty) : Nat := 2 ^ ty.width - 1

end Sys2Proof

namespace Sys2Proof.Machine

/-- A result of 32 or 64 bits written to D (R200). -/
def wrTy (ty : Ty) (d : BitVec 9) (v : Nat) : List (Nat × Word) :=
  if ty.width = 64 then wr2 d (BitVec.ofNat 64 v) else wr1 d (BitVec.ofNat 32 v)

/-- A source at a type of 32 or 64 bits, as a bit value. -/
def rdTy (ty : Ty) (rd : Nat → Word) (r : BitVec 9) : Nat :=
  if ty.width = 64 then (rdPair rd r).toNat else (rd r.toNat).toNat

/-- The source after A: the register B, or IMM32 read by R201. -/
def srcTy (ty : Ty) (x : Ins) (rd : Nat → Word) : Nat :=
  if x.fmt = .f00 then rdTy ty rd x.b
  else if ty.width = 64 then (if ty = .n64 then imm64z x else imm64s x).toNat
  else x.imm.toNat

/-- A two-source operation at a type; packed halves each on their own (R206). -/
def intOp2 (ty : Ty) (sat : Bool) (f : Int → Int → Int) (a b : Nat) : Nat :=
  if ty.packed then
    ty.deliver sat (f (ty.toInt (a % 65536)) (ty.toInt (b % 65536))) +
      65536 * ty.deliver sat (f (ty.toInt (a / 65536)) (ty.toInt (b / 65536)))
  else ty.deliver sat (f (ty.toInt a) (ty.toInt b))

/-- Registers of the forms `d, a` and `d, a, b` or `d, a, #n` at `n` registers each. -/
def use2 (x : Ins) (d a b : Nat) : Use :=
  Use.lanes [(x.d, d)] ([(x.a, a)] ++ if x.fmt = .f00 then [(x.b, b)] else [])
def use1 (x : Ins) (d a : Nat) : Use := Use.lanes [(x.d, d)] [(x.a, a)]
def use3 (x : Ins) (d a b c : Nat) : Use := Use.lanes [(x.d, d)] [(x.a, a), (x.b, b), (x.c, c)]

/-- An instruction of two sources at its type. -/
def int2 (x : Ins) (ty : Ty) (sat : Bool) (s : State) (f : Int → Int → Int) :
    Host.Outcome State Fault Refusal :=
  runLanes x (use2 x ty.regs ty.regs ty.regs) s fun rd =>
    wrTy ty x.d (intOp2 ty sat f (rdTy ty rd x.a) (srcTy ty x rd))

/-- An instruction of one source at its type. -/
def int1 (x : Ins) (ty : Ty) (sat : Bool) (s : State) (f : Int → Int) :
    Host.Outcome State Fault Refusal :=
  runLanes x (use1 x ty.regs ty.regs) s fun rd =>
    wrTy ty x.d (ty.deliver sat (f (ty.toInt (rdTy ty rd x.a))))

/-- An instruction on the bits of its sources. -/
def bits2 (x : Ins) (ty : Ty) (s : State) (f : Nat → Nat → Nat) : Host.Outcome State Fault Refusal :=
  runLanes x (use2 x ty.regs ty.regs ty.regs) s fun rd =>
    wrTy ty x.d (f (rdTy ty rd x.a) (srcTy ty x rd))

/-- IADD (R206). -/
def execIadd (x : Ins) (ty : Ty) (sat : Bool) (s : State) : Host.Outcome State Fault Refusal :=
  int2 x ty sat s fun a b => a + b

/-- ISUB (R206). -/
def execIsub (x : Ins) (ty : Ty) (sat : Bool) (s : State) : Host.Outcome State Fault Refusal :=
  int2 x ty sat s fun a b => a - b

/-- IMUL (R206). -/
def execImul (x : Ins) (ty : Ty) (sat : Bool) (s : State) : Host.Outcome State Fault Refusal :=
  int2 x ty sat s fun a b => a * b

/-- IMULHI (R206): bits [63:32] of the exact product. -/
def execImulhi (x : Ins) (ty : Ty) (s : State) : Host.Outcome State Fault Refusal :=
  int2 x ty false s fun a b => a * b / 2 ^ 32

/-- IMAD (R206). -/
def execImad (x : Ins) (ty : Ty) (sat : Bool) (s : State) : Host.Outcome State Fault Refusal :=
  runLanes x (use3 x ty.regs ty.regs ty.regs ty.regs) s fun rd =>
    wrTy ty x.d (ty.deliver sat
      (ty.toInt (rdTy ty rd x.a) * ty.toInt (rdTy ty rd x.b) + ty.toInt (rdTy ty rd x.c)))

/-- IMIN (R206). -/
def execImin (x : Ins) (ty : Ty) (s : State) : Host.Outcome State Fault Refusal :=
  int2 x ty false s min

/-- IMAX (R206). -/
def execImax (x : Ins) (ty : Ty) (s : State) : Host.Outcome State Fault Refusal :=
  int2 x ty false s max

/-- IABS (R206). -/
def execIabs (x : Ins) (ty : Ty) (sat : Bool) (s : State) : Host.Outcome State Fault Refusal :=
  int1 x ty sat s fun a => (a.natAbs : Int)

/-- INEG (R206). -/
def execIneg (x : Ins) (ty : Ty) (sat : Bool) (s : State) : Host.Outcome State Fault Refusal :=
  int1 x ty sat s fun a => -a

/-- ISAD (R206). -/
def execIsad (x : Ins) (ty : Ty) (sat : Bool) (s : State) : Host.Outcome State Fault Refusal :=
  runLanes x (use3 x 1 1 1 1) s fun rd =>
    wrTy ty x.d (ty.deliver sat
      (((ty.toInt (rdTy ty rd x.a) - ty.toInt (rdTy ty rd x.b)).natAbs : Int) +
        ty.toInt (rdTy ty rd x.c)))

/-- IADDC (R206). -/
def execIaddc (x : Ins) (_ty : Ty) (s : State) : Host.Outcome State Fault Refusal :=
  runLanes x (use3 x 2 1 1 1) s fun rd =>
    let r := addCarry (rd x.a.toNat) (rd x.b.toNat) (rd x.c.toNat)
    wr2 x.d (r.2 ++ r.1)

/-- ISUBB (R206). -/
def execIsubb (x : Ins) (_ty : Ty) (s : State) : Host.Outcome State Fault Refusal :=
  runLanes x (use3 x 2 1 1 1) s fun rd =>
    let r := subBorrow (rd x.a.toNat) (rd x.b.toNat) (rd x.c.toNat)
    wr2 x.d (r.2 ++ r.1)

/-- AND (R206). -/
def execAnd (x : Ins) (ty : Ty) (s : State) : Host.Outcome State Fault Refusal :=
  bits2 x ty s fun a b => a &&& b

/-- OR (R206). -/
def execOr (x : Ins) (ty : Ty) (s : State) : Host.Outcome State Fault Refusal :=
  bits2 x ty s fun a b => a ||| b

/-- XOR (R206). -/
def execXor (x : Ins) (ty : Ty) (s : State) : Host.Outcome State Fault Refusal :=
  bits2 x ty s fun a b => a ^^^ b

/-- ANDN (R206). -/
def execAndn (x : Ins) (ty : Ty) (s : State) : Host.Outcome State Fault Refusal :=
  bits2 x ty s fun a b => a &&& (b ^^^ ty.ones)

/-- NOT (R206). -/
def execNot (x : Ins) (ty : Ty) (s : State) : Host.Outcome State Fault Refusal :=
  runLanes x (use1 x ty.regs ty.regs) s fun rd => wrTy ty x.d (rdTy ty rd x.a ^^^ ty.ones)

/-- The shifts: a control operand of one register or IMM32, of which bits [7:0] count (R207). -/
def shiftOp (x : Ins) (ty : Ty) (s : State) (f : Nat → Nat → Nat) : Host.Outcome State Fault Refusal :=
  runLanes x (use2 x ty.regs ty.regs 1) s fun rd =>
    wrTy ty x.d (f (rdTy ty rd x.a) ((srcB x rd).toNat % 256))

/-- SHL (R207). -/
def execShl (x : Ins) (ty : Ty) (s : State) : Host.Outcome State Fault Refusal :=
  shiftOp x ty s fun a n => if ty.width ≤ n then 0 else a * 2 ^ n % 2 ^ ty.width

/-- SHRL (R207). -/
def execShrl (x : Ins) (ty : Ty) (s : State) : Host.Outcome State Fault Refusal :=
  shiftOp x ty s fun a n => if ty.width ≤ n then 0 else a / 2 ^ n

/-- SHRA (R207): with n ≥ N every bit is the sign bit. -/
def execShra (x : Ins) (ty : Ty) (s : State) : Host.Outcome State Fault Refusal :=
  shiftOp x ty s fun a n => ty.deliver false (ty.toInt a / 2 ^ min n ty.width)

/-- ROTL (R207). -/
def execRotl (x : Ins) (ty : Ty) (s : State) : Host.Outcome State Fault Refusal :=
  shiftOp x ty s fun a n =>
    let k := n % ty.width
    (a * 2 ^ k % 2 ^ ty.width) + a / 2 ^ (ty.width - k)

/-- The bit field of BFX (R207). -/
def bfxField (signed : Bool) (a c : Word) : Word :=
  let p := c.toNat % 256
  let w := c.toNat / 256 % 256
  if 32 ≤ p ∨ w = 0 then 0
  else
    let w' := min w (32 - p)
    let f := a.toNat / 2 ^ p % 2 ^ w'
    if signed && decide (2 ^ (w' - 1) ≤ f) then BitVec.ofInt 32 ((f : Int) - 2 ^ w') else BitVec.ofNat 32 f

/-- BFX (R207). -/
def execBfx (x : Ins) (ty : Ty) (s : State) : Host.Outcome State Fault Refusal :=
  runLanes x (use2 x 1 1 1) s fun rd => wr1 x.d (bfxField ty.signed (rd x.a.toNat) (srcB x rd))

/-- The insertion of BFI (R207). -/
def bfiWord (a b c : Word) : Word :=
  let p := c.toNat % 256
  let w := c.toNat / 256 % 256
  if 32 ≤ p ∨ w = 0 then a
  else
    let mask := BitVec.ofNat 32 ((2 ^ min w (32 - p) - 1) * 2 ^ p)
    (a &&& ~~~mask) ||| (BitVec.ofNat 32 (b.toNat * 2 ^ p) &&& mask)

/-- BFI (R207). -/
def execBfi (x : Ins) (_ty : Ty) (s : State) : Host.Outcome State Fault Refusal :=
  runLanes x (use3 x 1 1 1 1) s fun rd => wr1 x.d (bfiWord (rd x.a.toNat) (rd x.b.toNat) (rd x.c.toNat))

/-- The number of 1 bits among the `n` low bits. -/
def popcount (v : Nat) : Nat → Nat
  | 0 => 0
  | n + 1 => v % 2 + popcount (v / 2) n

/-- POPC (R206). -/
def execPopc (x : Ins) (ty : Ty) (s : State) : Host.Outcome State Fault Refusal :=
  runLanes x (use1 x 1 ty.regs) s fun rd =>
    wr1 x.d (BitVec.ofNat 32 (popcount (rdTy ty rd x.a) ty.width))

/-- CLZ (R206): N for 0. -/
def execClz (x : Ins) (ty : Ty) (s : State) : Host.Outcome State Fault Refusal :=
  runLanes x (use1 x 1 ty.regs) s fun rd =>
    let a := rdTy ty rd x.a
    wr1 x.d (BitVec.ofNat 32 (if a = 0 then ty.width else ty.width - 1 - Nat.log2 a))

/-- The number of trailing 0 bits, at most `n`. -/
def trailing (v : Nat) : Nat → Nat
  | 0 => 0
  | n + 1 => if v % 2 = 1 then 0 else trailing (v / 2) n + 1

/-- CTZ (R206): N for 0. -/
def execCtz (x : Ins) (ty : Ty) (s : State) : Host.Outcome State Fault Refusal :=
  runLanes x (use1 x 1 ty.regs) s fun rd =>
    wr1 x.d (BitVec.ofNat 32 (trailing (rdTy ty rd x.a) ty.width))

/-- The `n` low bits in reverse order. -/
def reverseBits (v : Nat) : Nat → Nat
  | 0 => 0
  | n + 1 => v % 2 * 2 ^ n + reverseBits (v / 2) n

/-- BREV (R206). -/
def execBrev (x : Ins) (ty : Ty) (s : State) : Host.Outcome State Fault Refusal :=
  runLanes x (use1 x ty.regs ty.regs) s fun rd =>
    wrTy ty x.d (reverseBits (rdTy ty rd x.a) ty.width)

/-- One byte of PRMB: the field `f` over the eight source bytes (R207). -/
def prmbByte (src f : Nat) : Nat :=
  let t := src / 256 ^ (f % 8) % 256
  match f / 8 with
  | 1 => 255 - t
  | 2 => reverseBits t 8
  | 3 => t % 16 * 16 + t / 16
  | 4 => 0
  | 5 => 255
  | _ => t

/-- The permuted word (R207). -/
def prmbWord (a b c : Word) : Word :=
  let src := a.toNat + 2 ^ 32 * b.toNat
  BitVec.ofNat 32 (((List.range 4).map fun k =>
    prmbByte src (c.toNat / 64 ^ k % 64) * 256 ^ k).sum)

/-- PRMB (R207). -/
def execPrmb (x : Ins) (s : State) : Host.Outcome State Fault Refusal :=
  runLanes x (use3 x 1 1 1 1) s fun rd =>
    wr1 x.d (prmbWord (rd x.a.toNat) (rd x.b.toNat) (rd x.c.toNat))

/-- ICMP (R206). -/
def execIcmp (x : Ins) (ty : Ty) (rel : Rel) (s : State) : Host.Outcome State Fault Refusal :=
  runLanes x (use2 x 1 ty.regs ty.regs) s fun rd =>
    wr1 x.d (flag (Rel.holds rel (ty.toInt (rdTy ty rd x.a)) (ty.toInt (srcTy ty x rd))))

/-- SEL (R206). -/
def execSel (x : Ins) (ty : Ty) (s : State) : Host.Outcome State Fault Refusal :=
  runLanes x (use3 x ty.regs ty.regs ty.regs 1) s fun rd =>
    wrTy ty x.d (if (rd x.c.toNat).getLsbD 0 then rdTy ty rd x.a else rdTy ty rd x.b)

/-- LEA (R208). -/
def execLea (x : Ins) (s : State) : Host.Outcome State Fault Refusal :=
  runLanes x (use3 x 1 1 1 1) s fun rd =>
    wr1 x.d (rd x.a.toNat + BitVec.ofNat 32 ((rd x.b.toNat).toNat * 2 ^ ((rd x.c.toNat).toNat % 8)))

/-- A 32-bit value extended by its type (R208). -/
def extTy (ty : Ty) (v : Word) : DWord := if ty.signed then v.signExtend 64 else v.zeroExtend 64

/-- ADDW (R208). -/
def execAddw (x : Ins) (ty : Ty) (s : State) : Host.Outcome State Fault Refusal :=
  runLanes x (use2 x 2 2 1) s fun rd =>
    wr2 x.d (rdPair rd x.a + extTy ty (srcB x rd))

/-- SUBW (R208). -/
def execSubw (x : Ins) (ty : Ty) (s : State) : Host.Outcome State Fault Refusal :=
  runLanes x (use2 x 2 2 1) s fun rd => wr2 x.d (rdPair rd x.a - extTy ty (srcB x rd))

/-- SHLW (R208): 0 when n ≥ 64. -/
def execShlw (x : Ins) (s : State) : Host.Outcome State Fault Refusal :=
  runLanes x (use2 x 2 2 1) s fun rd =>
    let n := (srcB x rd).toNat % 256
    wr2 x.d (if 64 ≤ n then 0 else BitVec.ofNat 64 ((rdPair rd x.a).toNat * 2 ^ n))

/-- MULW (R208): exact in 64 bits. -/
def execMulw (x : Ins) (ty : Ty) (s : State) : Host.Outcome State Fault Refusal :=
  runLanes x (use2 x 2 1 1) s fun rd => wr2 x.d (extTy ty (rd x.a.toNat) * extTy ty (srcB x rd))

/-- LEAW (R208). -/
def execLeaw (x : Ins) (ty : Ty) (s : State) : Host.Outcome State Fault Refusal :=
  runLanes x (use3 x 2 2 1 1) s fun rd =>
    wr2 x.d (rdPair rd x.a +
      BitVec.ofNat 64 ((extTy ty (rd x.b.toNat)).toNat * 2 ^ ((rd x.c.toNat).toNat % 8)))

/-- The sum of DOT4 (R206): byte products at `.s8` or `.n8`, the accumulator at 32 bits. -/
def dot4Sum (ty : Ty) (a b c : Word) : Int :=
  let acc : Ty := if ty = .s8 then .s32 else .n32
  acc.toInt c.toNat + ((List.range 4).map fun k =>
    ty.toInt (a.toNat / 256 ^ k % 256) * ty.toInt (b.toNat / 256 ^ k % 256)).sum

/-- DOT4 (R206). -/
def execDot4 (x : Ins) (ty : Ty) (sat : Bool) (s : State) : Host.Outcome State Fault Refusal :=
  runLanes x (use3 x 1 1 1 1) s fun rd =>
    wr1 x.d (BitVec.ofNat 32 ((if ty = .s8 then Ty.s32 else Ty.n32).deliver sat
      (dot4Sum ty (rd x.a.toNat) (rd x.b.toNat) (rd x.c.toNat))))

/-- MOV (R206). -/
def execMov (x : Ins) (ty : Ty) (s : State) : Host.Outcome State Fault Refusal :=
  runLanes x (use1 x ty.regs ty.regs) s fun rd => wrTy ty x.d (rdTy ty rd x.a)

/-- MOVI (R206). -/
def execMovi (x : Ins) (s : State) : Host.Outcome State Fault Refusal :=
  runLanes x (Use.lanes [(x.d, 1)] []) s fun _ => wr1 x.d x.imm

/-- MOVIW (R206). -/
def execMoviw (x : Ins) (ty : Ty) (s : State) : Host.Outcome State Fault Refusal :=
  runLanes x (Use.lanes [(x.d, 2)] []) s fun _ => wr2 x.d (if ty = .n64 then imm64z x else imm64s x)

/-- h(a, b) of R209. -/
def rhash (a b : Word) : Word :=
  let x := a ^^^ (b * 0x6C8E9CF5).rotateLeft 16 ^^^ 0xA5C30E47
  let x := x ^^^ (x >>> 15)
  let x := x * 0x3B9A73C5
  let x := x ^^^ (x >>> 13)
  let x := x * 0xD168AAAD
  x ^^^ (x >>> 16)

/-- RHASH (R209). -/
def execRhash (x : Ins) (s : State) : Host.Outcome State Fault Refusal :=
  runLanes x (use2 x 1 1 1) s fun rd => wr1 x.d (rhash (rd x.a.toNat) (srcB x rd))

end Sys2Proof.Machine
end

