-- ==== Sys2Proof/Machine/FloatOps.lean ====
section
/-! DEFINITION. The float and special-function instructions (R210–R216): each computes an exact value
and rounds it once. -/

namespace Sys2Proof.Machine

/-- A source at a float type (R200). -/
def fval (ty : Ty) (rd : Nat → Word) (r : BitVec 9) : Num := value ty (rd r.toNat).toNat

/-- The source after A: a register at the type, or an immediate, which is an FP32 value used exactly
(R201). -/
def fsrc (ty : Ty) (x : Ins) (rd : Nat → Word) : Num :=
  if x.fmt = .f00 then fval ty rd x.b else value .f32 x.imm.toNat

/-- A float code written to D, zero above its width (R200). -/
def wrF (d : BitVec 9) (code : Nat) : List (Nat × Word) := wr1 d (BitVec.ofNat 32 code)

/-- An instruction of two float sources: the exact result rounded once (R211). -/
def float2 (x : Ins) (ty : Ty) (rnd : Rnd) (sat : Bool) (s : State) (f : Num → Num → Num) :
    Host.Outcome State Fault Refusal :=
  runLanes x (use2 x 1 1 1) s fun rd =>
    wrF x.d (roundTo ty rnd sat 0 (f (fval ty rd x.a) (fsrc ty x rd)))

/-- FADD (R211). -/
def execFadd (x : Ins) (ty : Ty) (rnd : Rnd) (sat : Bool) (s : State) :
    Host.Outcome State Fault Refusal :=
  float2 x ty rnd sat s fun a b => sumNum (rnd == .rdn) [a, b]

/-- FSUB (R211). -/
def execFsub (x : Ins) (ty : Ty) (rnd : Rnd) (sat : Bool) (s : State) :
    Host.Outcome State Fault Refusal :=
  float2 x ty rnd sat s fun a b => sumNum (rnd == .rdn) [a, b.neg]

/-- FMUL (R211). -/
def execFmul (x : Ins) (ty : Ty) (rnd : Rnd) (sat : Bool) (s : State) :
    Host.Outcome State Fault Refusal :=
  float2 x ty rnd sat s fun a b => a.mul b

/-- FFMA (R211): rounded once. -/
def execFfma (x : Ins) (ty : Ty) (rnd : Rnd) (sat : Bool) (s : State) :
    Host.Outcome State Fault Refusal :=
  runLanes x (use3 x 1 1 1 1) s fun rd =>
    wrF x.d (roundTo ty rnd sat 0
      (sumNum (rnd == .rdn) [(fval ty rd x.a).mul (fval ty rd x.b), fval ty rd x.c]))

/-- The operand that FMIN, FMAX, FMINN or FMAXN returns (R133), as a value. -/
def pickMinMax (isMax prefer : Bool) (a b : Num) : Num :=
  if a.isNan && b.isNan then .nan
  else if a.isNan then (if prefer then b else .nan)
  else if b.isNan then (if prefer then a else .nan)
  else if isMax then (if a.below b then b else a) else (if b.below a then b else a)

/-- FMIN to FMAXN: the operand chosen, an immediate rounded to the type (R201, R211). -/
def floatPick (x : Ins) (ty : Ty) (isMax prefer : Bool) (s : State) :
    Host.Outcome State Fault Refusal :=
  runLanes x (use2 x 1 1 1) s fun rd =>
    wrF x.d (rne ty (pickMinMax isMax prefer (fval ty rd x.a) (fsrc ty x rd)))

/-- FMIN (R133, R211). -/
def execFmin (x : Ins) (ty : Ty) (s : State) : Host.Outcome State Fault Refusal :=
  floatPick x ty false false s

/-- FMAX (R133, R211). -/
def execFmax (x : Ins) (ty : Ty) (s : State) : Host.Outcome State Fault Refusal :=
  floatPick x ty true false s

/-- FMINN (R133, R211). -/
def execFminn (x : Ins) (ty : Ty) (s : State) : Host.Outcome State Fault Refusal :=
  floatPick x ty false true s

/-- FMAXN (R133, R211). -/
def execFmaxn (x : Ins) (ty : Ty) (s : State) : Host.Outcome State Fault Refusal :=
  floatPick x ty true true s

/-- FABS (R211). -/
def execFabs (x : Ins) (ty : Ty) (s : State) : Host.Outcome State Fault Refusal :=
  runLanes x (use1 x 1 1) s fun rd => wrF x.d (rne ty (fval ty rd x.a).abs)

/-- FNEG (R211). -/
def execFneg (x : Ins) (ty : Ty) (s : State) : Host.Outcome State Fault Refusal :=
  runLanes x (use1 x 1 1) s fun rd => wrF x.d (rne ty (fval ty rd x.a).neg)

/-- FCMP (R212). -/
def execFcmp (x : Ins) (ty : Ty) (rel : FRel) (s : State) : Host.Outcome State Fault Refusal :=
  runLanes x (use2 x 1 1 1) s fun rd => wr1 x.d (flag (FRel.holds rel (fval ty rd x.a) (fsrc ty x rd)))

/-- FCLASS (R213). -/
def execFclass (x : Ins) (ty : Ty) (s : State) : Host.Outcome State Fault Refusal :=
  runLanes x (use1 x 1 1) s fun rd => wrF x.d (2 ^ classBit ty (rd x.a.toNat).toNat)

/-- FRND (R214). -/
def execFrnd (x : Ins) (ty : Ty) (rnd : Rnd) (s : State) : Host.Outcome State Fault Refusal :=
  runLanes x (use1 x 1 1) s fun rd => wrF x.d (roundIntegral ty rnd (rd x.a.toNat).toNat)

/-- A value times 2^k (R214, R218). Beyond ±1,024 the rounded result no longer depends on k. -/
def scaleBy (v : Num) (k : Int) : Num :=
  match v with
  | .fin s m e => .fin s m (e + max (-1024) (min 1024 k))
  | v => v

/-- FSCALE (R214). -/
def execFscale (x : Ins) (ty : Ty) (rnd : Rnd) (sat : Bool) (s : State) :
    Host.Outcome State Fault Refusal :=
  runLanes x (use2 x 1 1 1) s fun rd =>
    wrF x.d (roundTo ty rnd sat 0 (scaleBy (fval ty rd x.a) (srcB x rd).toInt))

/-- A special function of one FP32 operand (R215). -/
def special (x : Ins) (s : State) (f : Nat → Nat) : Host.Outcome State Fault Refusal :=
  runLanes x (use1 x 1 1) s fun rd => wrF x.d (f (rd x.a.toNat).toNat)

/-- FRCP (R215). -/
def execFrcp (x : Ins) (s : State) : Host.Outcome State Fault Refusal := special x s frcp

/-- FRSQ (R215). -/
def execFrsq (x : Ins) (s : State) : Host.Outcome State Fault Refusal := special x s frsq

/-- FSQRT (R215). -/
def execFsqrt (x : Ins) (s : State) : Host.Outcome State Fault Refusal := special x s fsqrt

/-- FDIV (R215). -/
def execFdiv (x : Ins) (s : State) : Host.Outcome State Fault Refusal :=
  runLanes x (use2 x 1 1 1) s fun rd => wrF x.d (fdiv (rd x.a.toNat).toNat (srcB x rd).toNat)

/-- FLOG2 (R215). -/
def execFlog2 (x : Ins) (s : State) : Host.Outcome State Fault Refusal := special x s flog2

/-- FEXP2 (R215). -/
def execFexp2 (x : Ins) (s : State) : Host.Outcome State Fault Refusal := special x s fexp2

/-- FSIN (R215). -/
def execFsin (x : Ins) (s : State) : Host.Outcome State Fault Refusal := special x s fsin

/-- FCOS (R215). -/
def execFcos (x : Ins) (s : State) : Host.Outcome State Fault Refusal := special x s fcos

/-- FTANH (R215). -/
def execFtanh (x : Ins) (s : State) : Host.Outcome State Fault Refusal := special x s ftanh

/-- FLGST (R215). -/
def execFlgst (x : Ins) (s : State) : Host.Outcome State Fault Refusal := special x s flgst

/-- Element `i` of a packed word (R122). -/
def half (v : Word) (i : Nat) : Nat := v.toNat / 65536 ^ i % 65536

/-- A packed operation: each element rounded on its own (R216). -/
def packed2 (ty : Ty) (rnd : Rnd) (sat : Bool) (f : Nat → Num) : Word :=
  BitVec.ofNat 32 (roundTo ty rnd sat 0 (f 0) + 65536 * roundTo ty rnd sat 0 (f 1))

/-- HADD2 (R216). -/
def execHadd2 (x : Ins) (ty : Ty) (rnd : Rnd) (sat : Bool) (s : State) :
    Host.Outcome State Fault Refusal :=
  runLanes x (use2 x 1 1 1) s fun rd =>
    wr1 x.d (packed2 ty rnd sat fun i =>
      sumNum (rnd == .rdn) [value ty (half (rd x.a.toNat) i), value ty (half (srcB x rd) i)])

/-- HMUL2 (R216). -/
def execHmul2 (x : Ins) (ty : Ty) (rnd : Rnd) (sat : Bool) (s : State) :
    Host.Outcome State Fault Refusal :=
  runLanes x (use2 x 1 1 1) s fun rd =>
    wr1 x.d (packed2 ty rnd sat fun i =>
      (value ty (half (rd x.a.toNat) i)).mul (value ty (half (srcB x rd) i)))

/-- HFMA2 (R216). -/
def execHfma2 (x : Ins) (ty : Ty) (rnd : Rnd) (sat : Bool) (s : State) :
    Host.Outcome State Fault Refusal :=
  runLanes x (use3 x 1 1 1 1) s fun rd =>
    wr1 x.d (packed2 ty rnd sat fun i =>
      sumNum (rnd == .rdn)
        [(value ty (half (rd x.a.toNat) i)).mul (value ty (half (rd x.b.toNat) i)),
         value ty (half (rd x.c.toNat) i)])

/-- FDOT2 (R216): the exact sum of an FP32 accumulator and two products, rounded once to FP32. -/
def execFdot2 (x : Ins) (ty : Ty) (rnd : Rnd) (sat : Bool) (s : State) :
    Host.Outcome State Fault Refusal :=
  runLanes x (use3 x 1 1 1 1) s fun rd =>
    let p := fun i => (value ty (half (rd x.a.toNat) i)).mul (value ty (half (rd x.b.toNat) i))
    wrF x.d (roundTo .f32 rnd sat 0
      (sumNum (rnd == .rdn) [value .f32 (rd x.c.toNat).toNat, p 0, p 1]))

end Sys2Proof.Machine
end

