-- ==== Sys2Proof/Machine/Convert.lean ====
section
/-! DEFINITION. Conversions, block quantization, the amax rings and packing (R217–R227). -/

namespace Sys2Proof.Machine

/-- Whether a type is a float format (R149). -/
def isFloat (ty : Ty) : Bool := ty.cls

/-- An integer as an exact number. -/
def numOfInt (v : Int) : Num := .fin (decide (v < 0)) v.natAbs 0

/-- A source of CVT or CVTS as an exact number (R218). -/
def cvtValue (src : Ty) (v : Nat) : Num := if isFloat src then value src v else numOfInt (src.toInt v)

/-- A number delivered to an integer type: rounded, then clamped; a NaN gives 0 (R218). -/
def toIntClamped (dst : Ty) (rnd : Rnd) (v : Num) : Int :=
  match v with
  | .nan => 0
  | .inf n => if n then dst.least else dst.greatest
  | .fin n m e => min (max (roundInt rnd n (frac m e).1 (frac m e).2) dst.least) dst.greatest

/-- An integer result: a pair, or one register sign- or zero-extended by its type (R200). -/
def wrInt (dst : Ty) (d : BitVec 9) (v : Int) : List (Nat × Word) :=
  if dst.width = 64 then wr2 d (BitVec.ofInt 64 v) else wr1 d (BitVec.ofInt 32 v)

/-- The conversion of one value (R218): `v` is the source's exact value times any scale. -/
def cvtWrite (dst src : Ty) (rnd : Rnd) (sat : Bool) (rho : Nat) (d : BitVec 9) (v : Num) :
    List (Nat × Word) :=
  if isFloat dst then wrF d (roundTo dst rnd sat rho v)
  else if isFloat src then wrInt dst d (toIntClamped dst rnd v)
  else
    let x : Int := match v with | .fin n m _ => if n then -(m : Int) else m | _ => 0
    wrInt dst d (dst.toInt (dst.deliver sat x))

/-- The source of CVT. -/
def cvtSource (x : Ins) (src : Ty) (rd : Nat → Word) : Num := cvtValue src (rdTy src rd x.a)

/-- The packed destinations of CVT (R217). -/
def isX2 (ty : Ty) : Bool := ty == .f16x2 || ty == .bf16x2

/-- CVT (R217, R218). -/
def execCvt (x : Ins) (dst src : Ty) (rnd : Rnd) (sat : Bool) (s : State) :
    Host.Outcome State Fault Refusal :=
  let rs := if rnd = .rs then [(x.e, 1)] else []
  if isX2 dst then
    runLanes x (Use.lanes [(x.d, 1)] ([(x.a, 1), (x.b, 1)] ++ rs)) s fun rd =>
      let lo := roundTo dst rnd sat (half (rd x.e.toNat) 0) (value .f32 (rd x.a.toNat).toNat)
      let hi := roundTo dst rnd sat (half (rd x.e.toNat) 1) (value .f32 (rd x.b.toNat).toNat)
      wrF x.d (lo + 65536 * hi)
  else
    runLanes x (Use.lanes [(x.d, dst.regs)] ([(x.a, src.regs)] ++ rs)) s fun rd =>
      cvtWrite dst src rnd sat (half (rd x.e.toNat) 0) x.d (cvtSource x src rd)

/-- CVTS (R217, R218): the source times 2^k, exactly, then as CVT. -/
def execCvts (x : Ins) (dst src : Ty) (rnd : Rnd) (sat : Bool) (s : State) :
    Host.Outcome State Fault Refusal :=
  let bs := if x.fmt = .f00 then [(x.b, 1)] else []
  let rs := if rnd = .rs then [(x.e, 1)] else []
  runLanes x (Use.lanes [(x.d, dst.regs)] ([(x.a, src.regs)] ++ bs ++ rs)) s fun rd =>
    cvtWrite dst src rnd sat (half (rd x.e.toNat) 0) x.d
      (scaleBy (cvtSource x src rd) (srcB x rd).toInt)

/-! ### Block quantization (R219–R222) -/

/-- The greatest of a list of non-negative numbers; +0 for none. -/
def maxNum (l : List Num) : Num :=
  l.foldl (fun m x => if decide (m.cmp x < 0) then x else m) (.fin false 0 0)

/-- The block scale of a group of values under the band scale `beta` (R220). -/
def groupScale (ty : Ty) (vs : List Num) (beta : Nat) : Nat :=
  if !bandValid beta || vs.any Num.isNan || (vs.any Num.isInf && ty != .e5m2) then 0xFF
  else blockScale ty (maxNum (vs.map fun v => (value .f32 (overBand v beta)).abs))

/-- The lowest active lane of a lane's group of L, from which B is read (R220). -/
def groupHead (act : Word) (L l : Nat) : Nat := ((lanesOf act).filter fun k => k / L == l / L).headD l

/-- What BLKSCALE reads: A in each lane, the uniform C, and B in the head lane of each group (R220); no lane outside
active(i) (R228). -/
def blkscaleUse (x : Ins) (first : Bool) : Use :=
  { wr := [(x.d, 1)], rd := [(x.a, 1)], un := [(x.c, 1)], first := first, whole := true, skip := true,
    grp := some (x.b, x.c) }

/-- BLKSCALE (R220): per group of L lanes, over the lanes of active(i). -/
def execBlkscale (x : Ins) (ty : Ty) (first : Bool) (s : State) : Host.Outcome State Fault Refusal :=
  runEff x (blkscaleUse x first) s fun s t _ act =>
    let L := (uni t act x.c).toNat
    if L ≠ 8 ∧ L ≠ 16 ∧ L ≠ 32 then .done s (faultAll act 0x0B 0)
    else .done (s.writeLanes t.id act fun l =>
      let g := (lanesOf act).filter fun k => k / L == l / L
      let beta := half (t.reg (groupHead act L l) x.b.toNat) 0
      wrF x.d (groupScale ty (g.map fun k => value .f32 (t.reg k x.a.toNat).toNat) beta)) []

/-- The code of QUANT (R221). -/
def quantize (ty : Ty) (rnd : Rnd) (rho : Nat) (v : Num) (beta sc : Nat) : Nat :=
  if sc = 0xFF ∨ sc = 0 ∨ bandValid beta = false ∨ v.isNan = true then 0
  else quantCode ty rnd rho (value .f32 (overBand v beta)) sc

/-- QUANT (R221). -/
def execQuant (x : Ins) (ty : Ty) (rnd : Rnd) (s : State) : Host.Outcome State Fault Refusal :=
  let rs := if rnd = .rs then [(x.e, 1)] else []
  runLanes x (Use.lanes [(x.d, 1)] ([(x.a, 1), (x.b, 1), (x.c, 1)] ++ rs)) s fun rd =>
    wrF x.d (quantize ty rnd (half (rd x.e.toNat) 0) (value .f32 (rd x.a.toNat).toNat)
      (half (rd x.b.toNat) 0) ((rd x.c.toNat).toNat % 256))

/-- The result of DEQ (R222). -/
def dequantize (dst src : Ty) (rnd : Rnd) (sat : Bool) (q sc beta : Nat) : Nat :=
  if sc = 0xFF ∨ (value src q).isNan = true ∨ bandValid beta = false then (floatFormat dst).nanCode
  else roundTo dst rnd sat 0 (((value src q).mul (value .e3m5 sc)).mul (value .bf16 beta))

/-- DEQ (R222). -/
def execDeq (x : Ins) (dst src : Ty) (rnd : Rnd) (sat : Bool) (s : State) :
    Host.Outcome State Fault Refusal :=
  runLanes x (use3 x 1 1 1 1) s fun rd =>
    wrF x.d (dequantize dst src rnd sat (rd x.a.toNat).toNat ((rd x.b.toNat).toNat % 256)
      (half (rd x.c.toNat) 0))

/-! ### Amax rings (R138, R223–R226, R388) -/

/-- A ring when it is created: every entry +0 (R138). -/
def Ring.new : Ring := { entries := List.replicate 16 0, head := 0 }

/-- A ring of a die. -/
def State.ring (s : State) (d n : Nat) : Ring := mget Ring.new (s.die d).rings n

/-- The record of R388: the entry at the head, then the head raised by 1 modulo 16. -/
def Ring.record (r : Ring) (m : Word) : Ring :=
  { entries := lmod (fun _ => m) r.entries r.head, head := (r.head + 1) % 16 }

/-- The ring maximum μ (R138). -/
def Ring.maximum (r : Ring) : Num := maxNum (r.entries.map fun e => value .f32 e.toNat)

/-- Whether a ring number names a ring allotted to the troupe's launch (R223). -/
def State.ringOk (s : State) (t : Troupe) (n : Nat) : Bool :=
  match s.launchOf t.ens with
  | some l => decide (n ≤ 4095 ∧ l.hdr.ringBase ≤ n ∧ n < l.hdr.ringBase + l.hdr.ringCnt)
  | none => false

/-- The absolute maximum that AMAXREC records (R224): NaN values left out, +0 for none. -/
def absMax (vs : List Num) : Word :=
  BitVec.ofNat 32 (rne .f32 (maxNum ((vs.filter fun v => !v.isNan).map Num.abs)))

/-- AMAXREC (R224): the record is made at the ring by a later step of its own (R226). It commits an
idempotent region (R414). -/
def execAmaxrec (x : Ins) (first : Bool) (s : State) : Host.Outcome State Fault Refusal :=
  let un := if x.fmt = .f00 then [(x.b, 1)] else []
  runEff x { wr := [], rd := [(x.a, 1)], un := un, first := first, whole := true, skip := true } s fun s t p act =>
    let n := if x.fmt = .f00 then (uni t act x.b).toNat else x.imm.toNat
    if s.ringOk t n then
      .done (s.modTroupe t.id fun t =>
        { t with
          region := t.region.map fun g => { g with committed := true }
          recs := t.recs ++
            [{ ring := n, value := absMax ((lanesOf act).map fun l => value .f32 (t.reg l x.a.toNat).toNat),
               own := [p.sel], partner := none, from_ := s.now }] }) []
    else .done s (faultAll act 0x0B 0)

/-- The rank of a record among those that take effect at a ring in one clock: by %coreid, partition and slot, with the
partner of a pas de deux pair after the head that it issued with (R228). -/
def RingRec.rank (r : RingRec) (t : Troupe) : Nat :=
  (t.core * 4 + t.part) * 64 + match r.partner with
    | some k => if t.slot < k then 2 * k + 1 else 2 * t.slot
    | none => 2 * t.slot

/-- A record takes effect at the ring, the troupe's oldest first (R226), in the order of the clock (R228); without one
nothing happens. -/
def execAmaxrecRecord (troupe : Nat) (s : State) : Host.Outcome State Fault Refusal :=
  match s.troupe? troupe with
  | none => .next s
  | some t =>
    match t.recs with
    | [] => .next s
    | r :: rest =>
      if s.now < r.from_ then .next s
      else
        .next ((((s.takes (.ring t.die r.ring) (r.rank t)).modTroupe troupe fun t => { t with recs := rest }).modDie t.die fun D =>
          { D with rings := mput r.ring ((mget Ring.new D.rings r.ring).record r.value) D.rings }).settleEns t.ens)

/-- What AMAXRD delivers (R225). -/
def ringRead (ty : Ty) (r : Ring) : Nat :=
  if ty = .f32 then rne .f32 r.maximum else bandScale ty r.maximum

/-- AMAXRD (R225): it follows the troupe's earlier records of the ring (R226). -/
def execAmaxrd (x : Ins) (ty : Ty) (first : Bool) (s : State) : Host.Outcome State Fault Refusal :=
  let un := if x.fmt = .f00 then [(x.a, 1)] else []
  runEff x { wr := [(x.d, 1)], rd := [], un := un, first := first, whole := true } s fun s t _ act =>
    let n := if x.fmt = .f00 then (uni t act x.a).toNat else x.imm.toNat
    if s.ringOk t n then
      if t.recs.any fun r => r.ring == n then .hold
      else .done (s.writeLanes t.id act fun _ => wrF x.d (ringRead ty (s.ring t.die n))) []
    else .done s (faultAll act 0x0B 0)

/-! ### Packing (R227) -/

/-- A string of 32 elements of `w` bits, element e at bits [w e + w − 1 : w e]. -/
def packString (w : Nat) (f : Nat → Nat) : Nat :=
  ((List.range 32).map fun e => f e % 2 ^ w * 2 ^ (w * e)).sum

/-- Word `j` of a string. -/
def wordOf (v j : Nat) : Word := BitVec.ofNat 32 (v / 2 ^ (32 * j))

/-- PACK6 and PACK4: element codes from the active lanes; `w` words, one per lane (R227). -/
def packOp (x : Ins) (w : Nat) (s : State) : Host.Outcome State Fault Refusal :=
  runWord x { use1 x 1 1 with whole := true, skip := true } s fun s t _ act =>
    let v := packString w fun e => if act.getLsbD e then (t.reg e x.a.toNat).toNat else 0
    s.writeLanes t.id act fun l => wr1 x.d (if l < w then wordOf v l else 0)

/-- UNPACK6 and UNPACK4: words from the active lanes; one element per lane (R227). -/
def unpackOp (x : Ins) (w : Nat) (s : State) : Host.Outcome State Fault Refusal :=
  runWord x { use1 x 1 1 with whole := true, skip := true } s fun s t _ act =>
    let v := ((List.range w).map fun j =>
      (if act.getLsbD j then (t.reg j x.a.toNat).toNat else 0) * 2 ^ (32 * j)).sum
    s.writeLanes t.id act fun e => wr1 x.d (BitVec.ofNat 32 (v / 2 ^ (w * e) % 2 ^ w))

/-- PACK6 (R227). -/
def execPack6 (x : Ins) (s : State) : Host.Outcome State Fault Refusal := packOp x 6 s

/-- UNPACK6 (R227). -/
def execUnpack6 (x : Ins) (s : State) : Host.Outcome State Fault Refusal := unpackOp x 6 s

/-- PACK4 (R227). -/
def execPack4 (x : Ins) (s : State) : Host.Outcome State Fault Refusal := packOp x 4 s

/-- UNPACK4 (R227). -/
def execUnpack4 (x : Ins) (s : State) : Host.Outcome State Fault Refusal := unpackOp x 4 s

end Sys2Proof.Machine
end

