-- ==== Sys2Proof/Machine/Lanes.lean ====
section
/-! DEFINITION. The cross-lane instructions (R251–R260). Each combines lanes of active(i) within one
%part tile. -/

namespace Sys2Proof.Machine

/-- The first lane of a lane's tile of width `w` (R251). -/
def tileBase (w l : Nat) : Nat := l / w * w

/-- S(l): the lanes of active(i) in the tile of lane l, rising (R251). -/
def tileSet (w : Nat) (act : Word) (l : Nat) : List Nat :=
  (lanesOf act).filter fun k => k / w == l / w

/-- A cross-lane instruction: sources read in every lane before any destination is written; a poisoned
read stops it whole (R252). `f` gives a lane's writes from its tile width and the active lanes. -/
def crossLane (x : Ins) (wr rd : List (BitVec 9 × Nat)) (s : State)
    (f : Troupe → Nat → Word → Nat → List (Nat × Word)) : Host.Outcome State Fault Refusal :=
  runWord x { Use.lanes wr rd with whole := true, skip := true } s fun s t _ act =>
    s.writeLanes t.id act fun l => f t t.tilePart.toNat act l

/-- The source lane of SHFL, where it is in range (R256). -/
def shflSource (k : ShflKind) (w l b : Nat) : Option Nat :=
  let t0 := tileBase w l
  match k with
  | .idx => if b < w then some (t0 + b) else none
  | .up => if b ≤ l - t0 then some (l - b) else none
  | .down => if b < t0 + w - l then some (l + b) else none
  | .xor => if b < 32 ∧ (l ^^^ b) / w = l / w then some (l ^^^ b) else none

/-- An operand of one register or a pair in a lane, as bits. -/
def laneTy (ty : Ty) (t : Troupe) (l : Nat) (r : BitVec 9) : Nat := rdTy ty (t.reg l) r

/-- SHFL (R256): the source lane's A, or the lane's own C. -/
def execShfl (x : Ins) (k : ShflKind) (ty : Ty) (s : State) : Host.Outcome State Fault Refusal :=
  crossLane x [(x.d, ty.regs)] [(x.a, ty.regs), (x.b, 1), (x.c, ty.regs)] s fun t w act l =>
    wrTy ty x.d <|
      match shflSource k w l (t.reg l x.b.toNat).toNat with
      | some q => if act.getLsbD q then laneTy ty t q x.a else laneTy ty t l x.c
      | none => laneTy ty t l x.c

/-- VOTE (R257). -/
def execVote (x : Ins) (any : Bool) (s : State) : Host.Outcome State Fault Refusal :=
  crossLane x [(x.d, 1)] [(x.a, 1)] s fun t w act l =>
    let bits := (tileSet w act l).map fun k => (t.reg k x.a.toNat).getLsbD 0
    wr1 x.d (flag (if any then bits.any id else bits.all id))

/-- BALLOT (R257). -/
def execBallot (x : Ins) (s : State) : Host.Outcome State Fault Refusal :=
  crossLane x [(x.d, 1)] [(x.a, 1)] s fun t w act l =>
    wr1 x.d (maskOf ((tileSet w act l).filter fun k => (t.reg k x.a.toNat).getLsbD 0))

/-- The combination of values under an operation (R254); the identity for none. -/
def combine (op : RedOp) (ty : Ty) (rnd : Rnd) (sat : Bool) (vs : List Nat) : Nat :=
  if ty = .f32 then
    let ns := vs.map (value .f32)
    match op with
    | .add => if vs = [] then 0 else roundTo .f32 rnd false 0 (sumNum (rnd == .rdn) ns)
    | .min => rne .f32 (ns.foldl (pickMinMax false false) (.inf false))
    | .max => rne .f32 (ns.foldl (pickMinMax true false) (.inf true))
    | _ => 0
  else
    match op with
    | .add => ty.deliver sat ((vs.map ty.toInt).sum)
    | .min => ty.deliver false ((vs.map ty.toInt).foldl min ty.greatest)
    | .max => ty.deliver false ((vs.map ty.toInt).foldl max ty.least)
    | .and => vs.foldl (· &&& ·) (2 ^ 32 - 1)
    | .or => vs.foldl (· ||| ·) 0
    | .xor => vs.foldl (· ^^^ ·) 0

/-- REDUX (R254). -/
def execRedux (x : Ins) (op : RedOp) (ty : Ty) (rnd : Rnd) (sat : Bool) (s : State) :
    Host.Outcome State Fault Refusal :=
  crossLane x [(x.d, 1)] [(x.a, 1)] s fun t w act l =>
    wr1 x.d (BitVec.ofNat 32 (combine op ty rnd sat
      ((tileSet w act l).map fun k => (t.reg k x.a.toNat).toNat)))

/-- The better of two lanes for ARGMX or ARGMN: `a` stands before `b`; the lower index wins among
equals; −0 below +0; a NaN is never better than a number (R255). -/
def argBetter (isMax : Bool) (ty : Ty) (a b : Nat) : Bool :=
  if ty = .f32 then
    let x := value .f32 a
    let y := value .f32 b
    if x.isNan then !y.isNan else if y.isNan then false
    else if isMax then x.below y else y.below x
  else if isMax then decide (ty.toInt a < ty.toInt b) else decide (ty.toInt b < ty.toInt a)

/-- The lane that ARGMX or ARGMN names among a set, in rising order (R255). -/
def argLane (isMax : Bool) (ty : Ty) (v : Nat → Nat) : List Nat → Word
  | [] => 0xFFFFFFFF
  | k :: ks =>
    let best := ks.foldl (fun b l => if argBetter isMax ty (v b) (v l) then l else b) k
    if ty = .f32 ∧ (value .f32 (v best)).isNan = true then 0xFFFFFFFF else BitVec.ofNat 32 best

/-- ARGMX (R255). -/
def execArgmx (x : Ins) (ty : Ty) (s : State) : Host.Outcome State Fault Refusal :=
  crossLane x [(x.d, 1)] [(x.a, 1)] s fun t w act l =>
    wr1 x.d (argLane true ty (fun k => (t.reg k x.a.toNat).toNat) (tileSet w act l))

/-- ARGMN (R255). -/
def execArgmn (x : Ins) (ty : Ty) (s : State) : Host.Outcome State Fault Refusal :=
  crossLane x [(x.d, 1)] [(x.a, 1)] s fun t w act l =>
    wr1 x.d (argLane false ty (fun k => (t.reg k x.a.toNat).toNat) (tileSet w act l))

/-- SCAN (R254): over the lanes of S(l) numbered at most l, or below l under `.excl`. -/
def execScan (x : Ins) (excl : Bool) (op : RedOp) (ty : Ty) (rnd : Rnd) (sat : Bool) (s : State) :
    Host.Outcome State Fault Refusal :=
  crossLane x [(x.d, 1)] [(x.a, 1)] s fun t w act l =>
    let ls := (tileSet w act l).filter fun k => if excl then decide (k < l) else decide (k ≤ l)
    wr1 x.d (BitVec.ofNat 32 (combine op ty rnd sat (ls.map fun k => (t.reg k x.a.toNat).toNat)))

/-- BCAST (R258): B, or IMM32, is uniform; the lane's own C, or 0 in format 10, where the named lane
is outside the tile or active(i). -/
def execBcast (x : Ins) (ty : Ty) (first : Bool) (s : State) : Host.Outcome State Fault Refusal :=
  let reg := x.fmt == .f00
  runWord x
    { wr := [(x.d, ty.regs)], rd := [(x.a, ty.regs)] ++ if reg then [(x.c, ty.regs)] else [],
      un := if reg then [(x.b, 1)] else [], first := first, whole := true, skip := true } s fun s t _ act =>
    let w := t.tilePart.toNat
    let n := if reg then (uni t act x.b).toNat else x.imm.toNat
    s.writeLanes t.id act fun l =>
      let q := tileBase w l + n
      wrTy ty x.d <|
        if n < w ∧ act.getLsbD q = true then laneTy ty t q x.a
        else if reg then laneTy ty t l x.c else 0

/-- The IDF value of a selector for an item (R187): a field, a group number, or a position; none for
a selector that R187 does not name. -/
def idfValue (h : LaunchHeader) (item : DWord) (sel : Nat) : Option DWord :=
  let b := fun i => if i < h.fields then (h.widths.take i).sum else 64
  let x := item.toNat
  if sel ≤ 5 then
    some (if sel < h.fields then BitVec.ofNat 64 (x / 2 ^ b sel % 2 ^ (b (sel + 1) - b sel)) else 0)
  else if sel = 0x10 then some (BitVec.ofNat 64 (x / 2 ^ b h.tlv))
  else if sel = 0x11 then some (BitVec.ofNat 64 (x / 2 ^ b h.elv))
  else if sel = 0x12 then some (BitVec.ofNat 64 (x % 2 ^ b h.tlv))
  else if sel = 0x13 then some (BitVec.ofNat 64 (x % 2 ^ b h.elv))
  else none

/-- A launch header with nothing in it. -/
def LaunchHeader.empty : LaunchHeader :=
  { block := false, sections := 1, troupes := 1, prio := 0, fields := 1, tlv := 0, elv := 0, chan := 0,
    widths := [], priv := 0, scratch := 0, ringBase := 0, ringCnt := 0, grpBase := 0, grpCnt := 0,
    umMask := 0 }

/-- The launch header of a troupe. -/
def State.headerOf (s : State) (t : Troupe) : LaunchHeader :=
  match s.launchOf t.ens with | some l => l.hdr | none => LaunchHeader.empty

/-- The lanes of S(l) whose key equals lane l's (R259). -/
def matchMask (w : Nat) (act : Word) (key : Nat → Nat) (l : Nat) : Word :=
  maskOf ((tileSet w act l).filter fun k => key k == key l)

/-- MATCH (R259): the key is a register or pair, or the IDF value of a selector. -/
def execMatch (x : Ins) (ty : Option Ty) (s : State) : Host.Outcome State Fault Refusal :=
  match ty with
  | some ty =>
    crossLane x [(x.d, 1)] [(x.a, ty.regs)] s fun t w act l =>
      wr1 x.d (matchMask w act (fun k => laneTy ty t k x.a) l)
  | none =>
    runEff x { Use.lanes [(x.d, 1)] [] with whole := true, skip := true } s fun s t _ act =>
      let h := s.headerOf t
      if (idfValue h 0 x.imm.toNat).isNone then .done s (faultAll act 0x0B 0)
      else .done (s.writeLanes t.id act fun l =>
        wr1 x.d (matchMask t.tilePart.toNat act
          (fun k => ((idfValue h (t.lane k).item x.imm.toNat).getD 0).toNat) l)) []

/-- FIRSTL (R260): the lowest lane of S(l) with bit 0 of A, or of IMM32, equal to 1. -/
def execFirstl (x : Ins) (s : State) : Host.Outcome State Fault Refusal :=
  let reg := x.fmt == .f00
  crossLane x [(x.d, 1)] (if reg then [(x.a, 1)] else []) s fun t w act l =>
    let v := fun k => if reg then t.reg k x.a.toNat else x.imm
    wr1 x.d (match (tileSet w act l).find? fun k => (v k).getLsbD 0 with
      | some k => BitVec.ofNat 32 k
      | none => 0xFFFFFFFF)

end Sys2Proof.Machine
end

