-- ==== Sys2Proof/Machine/Control.lean ====
section
/-! DEFINITION. Control instructions (chapter 06) but for the region routines, and the events of single
paths: branches, BRD, REGANG, EXIT, the enable mask, barriers, the extended set, special registers,
traps, handlers and firmware calls. -/

namespace Sys2Proof.Machine

/-! ### Branches (R169, R452) -/

/-- PC + 16 × the signed offset, without wrap (R165). -/
def branchTarget (pc : Nat) (imm : Word) : Int := (pc : Int) + 16 * imm.toInt

/-- The page of a fetched address fixes its home die (R315). -/
def State.touchFetch (s : State) (t : Troupe) (a : Nat) : State := s.touchPage (s.sidOf t) a t.die

/-- The lines of a slot brought into the core's instruction cache, where its page translates. -/
def State.fetchSlot (s : State) (t : Troupe) (who : Asker) (a : Nat) : State :=
  match s.translate (s.sidOf t) t.die a with
  | .ok h pa p => ((s.fillCode who t.die t.core h pa (p.kind == .coherent)).1).touchFetch t a
  | _ => s

/-- The state in which a branch waits for its target's slot, where the slot must be awaited (R157 step 4, R323). -/
def State.targetWaits (s : State) (t : Troupe) (who : Asker) (a : Int) : Option State :=
  if a % 16 ≠ 0 ∨ a < 0 ∨ 2 ^ 64 - 15 ≤ a then none
  else match s.translate (s.sidOf t) t.die a.toNat with
    | .ok h pa p =>
      if p.kind = .device ∨ p.x = false then none
      else match s.fillCode who t.die t.core h pa (p.kind == .coherent) with
        | (s, false) => some s
        | _ => none
    | _ => none

/-- A head that waits for its target's slot. -/
def State.holdHead (s : State) (r : PathRef) : State := s.modPath r fun p => { p with wait := .retry }

/-- The check of a target and the move of the path to it (R157). -/
def State.branchTo (s : State) (t : Troupe) (p : Path) (a : Int) (lanes : Word) : State :=
  let r := refOf t p
  match s.checkTarget t a with
  | .ok => (s.fetchSlot t (.path r) a.toNat).modPath r fun p => p.goto a.toNat
  | .fault c => s.faultBranch r (faultAll lanes c (a % 2 ^ 64).toNat)
  | .swap => (s.modPath r fun p => p.goto a.toNat).fetchMiss t.id a.toNat a.toNat p.pc

/-- A slice that executes a branch again leaves it to its path, which executes it in these lanes
(R452). -/
def Troupe.deferBranch (t : Troupe) (p : Path) (k : Nat) : Troupe :=
  (t.modPath (.ord p.home) fun q =>
    { q with pc := p.pc, blk := p.blk, again := q.again ||| p.again, ibuf := none }).rejoin k

/-- A branch that moves the issuing path whole: `tgt` gives its target, or none where it is not taken;
the link pair, if any, is written before the target is checked (R169). A RET is counted (R397). -/
def branchOn (x : Ins) (u : Use) (s : State) (link ret : Bool)
    (tgt : Troupe → Path → Word → Option Int) : Host.Outcome State Fault Refusal :=
  match s.gate x u with
  | .nobody => .fault .noIssuer
  | .empty t p => .next ((s.start t p x u).advance (refOf t p))
  | .fault t p m c => .next ((s.start t p x u).faultBranch (refOf t p) (faultAll m c 0))
  | .go t p act bad =>
      match if bad ≠ 0 then none else (tgt t p act).bind fun a => s.targetWaits t (.path (refOf t p)) a with
      | some s => .next (s.holdHead (refOf t p))
      | none =>
        let s := s.start t p x u
        let s := if ret then s.countCore t.die t.core 0x0E 1 else s
        let s := if link then s.writeLanes t.id act fun _ => wr2 x.d (BitVec.ofNat 64 (p.pc + 16)) else s
        if bad ≠ 0 then .next (s.faultBranch (refOf t p) (faultAll bad 0x12 0))
        else match tgt t p act with
          | none => .next (s.advance (refOf t p))
          | some a => .next (s.branchTo t p a act)

/-- Whether the path that a slice left still has the instruction to execute in other lanes. -/
def Troupe.othersLeft (t : Troupe) (p : Path) : Bool :=
  match t.path? (.ord p.home) with | some q => q.again != 0 | none => false

/-- A slice that the debugger steps has come to an instruction that moves its path, and no other lane of the path has it
to execute still: the path executes it, whole (R190). -/
def State.stepWhole (s : State) (t : Troupe) (p : Path) (k : Nat) : State :=
  { s.modTroupe t.id fun t => (t.deferBranch p k).modPath (.ord p.home) fun q => { q with again := 0 } with
    cur := some { troupe := t.id, sel := .ord p.home } }

/-- A branch, in the path that issues it, or in a slice of a path: one that executes it again leaves it to its path
(R452); one that the debugger steps has executed it, and waits for the path, which executes it in the lanes that have not
(R190). -/
def runBranch (x : Ins) (u : Use) (s : State) (link ret : Bool)
    (tgt : Troupe → Path → Word → Option Int) : Host.Outcome State Fault Refusal :=
  match s.gate x u with
  | .fault t p m c =>
    match p.retry, p.sel with
    | true, .handler k =>
      if t.stepping.getLsbD k then .next ((s.start t p x u).takeFaults (refOf t p) p.pc (faultAll m c 0) p.origin)
      else .next (s.modTroupe t.id fun t => t.deferBranch p k)
    | _, _ => branchOn x u s link ret tgt
  | .go t p act bad =>
    match p.retry, p.sel with
    | true, .handler k =>
      if t.stepping.getLsbD k = false then .next (s.modTroupe t.id fun t => t.deferBranch p k)
      else if bad ≠ 0 then .next ((s.start t p x u).takeFaults (refOf t p) p.pc (faultAll bad 0x12 0) p.origin)
      else if t.othersLeft p then
        let s := s.start t p x u
        .next ((if link then s.writeLanes t.id act fun _ => wr2 x.d (BitVec.ofNat 64 (p.pc + 16)) else s).modTroupe t.id
          fun t => t.rejoin k)
      else branchOn x u (s.stepWhole t p k) link ret tgt
    | _, _ => branchOn x u s link ret tgt
  | _ => branchOn x u s link ret tgt

/-- BRA (R169). -/
def execBra (x : Ins) (s : State) : Host.Outcome State Fault Refusal :=
  runBranch x Use.none_ s false false fun _ p _ => some (branchTarget p.pc x.imm)

/-- BRC (R38, R169): the uniform condition's bit 0. -/
def execBrc (x : Ins) (first : Bool) (s : State) : Host.Outcome State Fault Refusal :=
  runBranch x { Use.cmd [] [(x.a, 1)] first with bits := 1 } s false false fun t p act =>
    if (uni t act x.a).getLsbD 0 then some (branchTarget p.pc x.imm) else none

/-- JMPI (R169). -/
def execJmpi (x : Ins) (first : Bool) (s : State) : Host.Outcome State Fault Refusal :=
  runBranch x (Use.cmd [] [(x.a, 2)] first) s false false fun t _ act => some (uniPair t act x.a).toNat

/-- CALL (R169). -/
def execCall (x : Ins) (s : State) : Host.Outcome State Fault Refusal :=
  runBranch x (Use.lanes [(x.d, 2)] []) s true false fun _ p _ => some (branchTarget p.pc x.imm)

/-- CALLI (R169). -/
def execCalli (x : Ins) (first : Bool) (s : State) : Host.Outcome State Fault Refusal :=
  runBranch x (Use.cmd [(x.d, 2)] [(x.a, 2)] first) s true false fun t _ act =>
    some (uniPair t act x.a).toNat

/-- RET (R169): as JMPI, and counted (R397). -/
def execRet (x : Ins) (first : Bool) (s : State) : Host.Outcome State Fault Refusal :=
  runBranch x (Use.cmd [] [(x.a, 2)] first) s false true fun t _ act => some (uniPair t act x.a).toNat

/-! ### BRD (R39–R41, R170, R451) -/

/-- How the slices of a BRD sort (R39): taken, fall-through, and trapping slices with their faults. -/
structure BrdSort where
  taken : BitVec 8
  fall : BitVec 8
  traps : List LaneFault
  deriving DecidableEq, Repr

/-- The sort of one slice: `cond` gives a lane's condition. -/
def BrdSort.add (b : BrdSort) (k : Nat) (act bad : Word) (cond : Nat → Bool) : BrdSort :=
  let ls := (lanesOf act).filter fun l => l / 4 == k
  let bs := (lanesOf bad).filter fun l => l / 4 == k
  if bs ≠ [] then { b with traps := b.traps ++ bs.map fun l => { lane := l, code := 0x12, addr := 0 } }
  else if ls.all fun l => !cond l then { b with fall := b.fall ||| sliceBit k }
  else if ls.all cond then { b with taken := b.taken ||| sliceBit k }
  else { b with traps := b.traps ++ ls.map fun l => { lane := l, code := 0x0A, addr := 0 } }

/-- The sort of a path's slices. -/
def brdSort (slices : BitVec 8) (act bad : Word) (cond : Nat → Bool) : BrdSort :=
  (sliceList slices).foldl (fun b k => b.add k act bad cond) { taken := 0, fall := 0, traps := [] }

/-- Whether the lowest slice of the first set lies below that of the second (R40). -/
def lowerSet (a b : BitVec 8) : Bool := decide ((sliceList a).headD 8 < (sliceList b).headD 8)

/-- The two paths of a two-step from path `q` (R40): path 0 takes the set with the lowest slice, both
have the former path's stamp and empty stacks, and every access of the troupe precedes those of both (R329). -/
def Troupe.twoStep (t : Troupe) (q : Path) (ts fs : BitVec 8) (tt tf : Nat) : Troupe :=
  let q := t.gone.foldl Path.learn q
  let a : Path := { (q.goto tt) with slices := ts }
  let b : Path := { (q.goto tf) with slices := fs }
  let (p0, p1) := if lowerSet ts fs then (a, b) else (b, a)
  let t := (t.lendAll (.ord 0)).lendAll (.ord 1)
  { t with
    gone := [], gang := false
    paths := ({ p0 with sel := .ord 0 } : Path) :: ({ p1 with sel := .ord 1, stack := [] } : Path) ::
      t.paths.filter fun v => !v.ordinary }

/-- The entries that a serialising BRD pushes: a join entry where RCV ≠ 0, with the path's former slice set, then the
deferred set (R41). -/
def pushEntries (former fs : BitVec 8) (tf : Nat) (blk : Option Block) : List StackEntry :=
  let join : List StackEntry := match blk with
    | some b => if b.rcv = 0 then [] else [.join former (addrOf ((b.hdr : Int) + 16 * b.rcv.toInt))]
    | none => []
  .deferred fs tf :: join

/-- The faults of the check of one set's target, in its active lanes (R170); none where it passes, where
the set has no active lane, or where the page is absent. -/
def State.setFaults (s : State) (t : Troupe) (set : BitVec 8) (act : Word) (a : Int) : List LaneFault :=
  let m := act &&& sliceLanes set
  if m = 0 then []
  else match s.checkTarget t a with
    | .fault c => faultAll m c (a % 2 ^ 64).toNat
    | _ => []

/-- Whether a set's target lies on a page that is not resident. -/
def State.setMiss (s : State) (t : Troupe) (set : BitVec 8) (act : Word) (a : Int) : Bool :=
  act &&& sliceLanes set != 0 && s.checkTarget t a == .swap

/-- The path that holds a slice set as its running slices. -/
def Troupe.holder (t : Troupe) (set : BitVec 8) : Option Path :=
  t.ordPaths.find? fun q => q.slices &&& set != 0

/-- Handlers of one BRD learn of a slice that has joined a side (R451). -/
def Troupe.joined (t : Troupe) (home fpc k : Nat) (toT : Bool) : Troupe :=
  { t with paths := t.paths.map fun h =>
      match h.sel, h.origin with
      | .handler j, .brd b x y ts fs w =>
        if h.home = home ∧ (t.slice j).fpc.toNat = fpc then
          { h with origin := if toT then .brd b x y (ts ||| sliceBit k) fs w
                             else .brd b x y ts (fs ||| sliceBit k) w }
        else h
      | _, _ => h }

/-- The slices that handlers of one BRD run, or execute again (R451). -/
def Troupe.trapping (t : Troupe) (home fpc : Nat) : BitVec 8 :=
  t.paths.foldl (fun b h => match h.sel, h.origin with
    | .handler j, .brd .. => if h.home = home ∧ (t.slice j).fpc.toNat = fpc then b ||| sliceBit j else b
    | _, _ => b) 0

/-- The operations of a path by their numbers, and its records by their places. -/
def Troupe.accessesOf (t : Troupe) (a : PathSel) : List Nat × List Nat :=
  ((t.ops.filter fun o => o.own.contains a).map Op.id, ((lenum t.recs).filter fun e => e.2.own.contains a).map (·.1))

/-- Some operations and records precede the accesses of a path (R329). -/
def Troupe.lendOps (t : Troupe) (ids : List Nat × List Nat) (b : PathSel) : Troupe :=
  { t with
    ops := t.ops.map fun o =>
      if ids.1.contains o.id && !o.own.contains b then { o with own := o.own ++ [b] } else o
    recs := (lenum t.recs).map fun e =>
      if ids.2.contains e.1 && !e.2.own.contains b then { e.2 with own := e.2.own ++ [b] } else e.2 }

/-- Where a slice that joins a side of its BRD finds the side's set (R451): the path that runs it, the path with the
deferred entry that holds it, or nowhere. A set all of whose slices have left it is found by its target: in the
path that the slices left, or in its entry. -/
inductive SidePlace where
  | runs (p : PathSel)
  | waits (p : PathSel)
  | empty
  deriving DecidableEq, Repr

/-- Whether a stack entry is the deferred entry of a side. -/
def StackEntry.isSide (e : StackEntry) (side : BitVec 8) (a : Nat) : Bool :=
  match e with
  | .deferred x pc => x &&& side != 0 || (side == 0 && x == 0 && pc == a)
  | .join _ _ => false

/-- The place of a side of a BRD, whose target is `a`, for a slice that left path `home`. -/
def Troupe.sidePlace (t : Troupe) (side : BitVec 8) (a home : Nat) : SidePlace :=
  let run := if side = 0 then (t.path? (.ord home)).filter fun p => p.slices == 0 && p.pc == a else t.holder side
  match run with
  | some q => .runs q.sel
  | none => match t.ordPaths.find? fun p => p.stack.any fun e => e.isSide side a with
    | some q => .waits q.sel
    | none => .empty

/-- A slice joins a side of its BRD: the path or the deferred entry that holds the set; or, where the
set was empty, the sets part or serialise from where the BRD left them (R451). A fault of this join is delivered to
the slice, as the BRD would have raised it (log 42). -/
def State.brdJoin (s : State) (id k : Nat) (toT : Bool) : State :=
  match s.troupe? id with
  | none => s
  | some t =>
    match t.path? (.handler k) with
    | none => s
    | some h =>
      match h.origin with
      | .brd blk tt tf ts fs _ =>
        let bit := sliceBit k
        let fpc := (t.slice k).fpc.toNat
        let lanes := t.live &&& sliceLanes bit
        if lanes = 0 then (s.modTroupe id fun t => t.endHandler k)
        else
          let ti : Int := if toT then tt else tf
          let a := addrOf ti
          let side := if tt = (tf : Int) then ts ||| fs else if toT then ts else fs
          let other := if tt = (tf : Int) then 0 else if toT then fs else ts
          let mine := t.accessesOf (.handler k)
          -- the slice leaves its handler path and is no path's yet
          let t1 := t.rejoin k
          let t1 := t1.modPath (.ord h.home) fun p => { p with slices := p.slices &&& ~~~bit }
          let t1 := t1.joined h.home fpc k toT
          let put := fun (sel : PathSel) (t' : Troupe) => s.modTroupe id fun _ =>
            (t'.lendOps mine sel).modPath sel fun p => p.learn h
          let fail := fun (c va : Nat) =>
            (s.modPath { troupe := id, sel := .handler k } fun p => { p with retry := true }).takeFaults
              { troupe := id, sel := .handler k } fpc (faultAll lanes c va) h.origin
          -- where no slice of the side has passed the check of its target, this one is checked
          match (if side = 0 then s.checkTarget t ti else .ok), t1.sidePlace side a h.home with
          | .fault c, _ => fail c (ti % 2 ^ 64).toNat
          | .swap, _ => s.fetchMiss id a a fpc
          | .ok, .runs q => put q (t1.modPath q fun p => { p with slices := p.slices ||| bit })
          | .ok, .waits q =>
            put q (t1.modPath q fun p => { p with stack := p.stack.map fun e => match e with
              | .deferred x pc => if e.isSide side a then .deferred (x ||| bit) pc else e
              | e => e })
          | .ok, .empty =>
            match s.checkTarget t ti with
            | .fault c => fail c (ti % 2 ^ 64).toNat
            | .swap => s.fetchMiss id a a fpc
            | .ok =>
              match (if other = 0 then none else t1.holder other) with
              | none =>
                put (.ord h.home) (t1.modPath (.ord h.home) fun p => { p.goto a with slices := p.slices ||| bit })
              | some q =>
                if t1.ganged then
                  (put (.ord 0) ((if toT then t1.twoStep q bit q.slices a q.pc
                        else t1.twoStep q q.slices bit q.pc tf).lendOps mine (.ord 1))).countCore t.die t.core 0x04 1
                else
                  let run := if toT then bit else q.slices
                  let wait := if toT then q.slices else bit
                  let es := pushEntries (q.slices ||| bit ||| t.trapping h.home fpc) wait tf blk
                  if 16 < q.stack.length + es.length then fail 0x0F 0
                  else
                    (put q.sel (t1.modPath q.sel fun p =>
                      { (if toT then p.goto a else p) with
                        slices := run, stack := es ++ p.stack })).countCore t.die t.core 0x05 1
      | _ => s

/-- The state in which a slice waits to join a side of its BRD, for the slot at the side's target (R157, R323). -/
def State.joinWaits (s : State) (t : Troupe) (p : Path) (toT : Bool) : Option State :=
  match p.origin with
  | .brd _ tt tf _ _ _ => (s.targetWaits t (.path (refOf t p)) (if toT then tt else tf)).map fun s => s.holdHead (refOf t p)
  | _ => none

/-- The origin of the handlers of a BRD that has not sorted its slices, at the instruction of a path: those that do
not fault have no lane in active(i), and stand at the fall-through target (R39). -/
def Path.brdUnsorted (p : Path) (x : Ins) (fs : List LaneFault) : Origin :=
  .brd p.blk (branchTarget p.pc x.imm) (p.pc + 16) 0 (p.slices &&& ~~~slicesOf (maskOf (fs.map LaneFault.lane))) .all

/-- BRD on an ordinary path: the sort, the moves, the target checks of each set that moves, and the
faults of the trapping slices (R39–R41, R170). -/
def State.brdMove (s : State) (t : Troupe) (p : Path) (act bad : Word) (x : Ins) : State :=
  let ti := branchTarget p.pc x.imm
  let tt := addrOf ti
  let tf := p.pc + 16
  let b := brdSort p.slices act bad fun l => (t.reg l x.a.toNat).getLsbD 0
  let r := refOf t p
  let q := ((s.troupe? t.id).bind fun t => t.path? p.sel).getD p
  let split := b.taken != 0 && b.fall != 0 && ti != (tf : Int)
  let es := pushEntries p.slices b.fall tf p.blk
  if split && !t.ganged && decide (16 < p.stack.length + es.length) then
    let fs := faultAll act 0x0F 0 ++ b.traps.filter fun f => f.code == 0x12
    (s.modPath r Path.next).takeFaults r p.pc fs (p.brdUnsorted x fs)
  else
    let tset := if ti = (tf : Int) then b.taken ||| b.fall else b.taken
    let fset := if ti = (tf : Int) then 0 else b.fall
    let fT := s.setFaults t tset act ti
    let fF := s.setFaults t fset act tf
    let miss := s.setMiss t tset act ti || s.setMiss t fset act tf
    let ks := fun (fs : List LaneFault) => slicesOf (maskOf (fs.map LaneFault.lane))
    let o : BrdHold → Origin := .brd p.blk ti tf (b.taken &&& ~~~(ks fT ||| ks fF)) (b.fall &&& ~~~(ks fT ||| ks fF))
    let s := if split then
        if t.ganged then
          (s.modTroupe t.id fun t => t.twoStep q b.taken b.fall tt tf).countCore t.die t.core 0x04 1
        else
          (s.modPath r fun p =>
            { p.goto tt with slices := b.taken, stack := es ++ p.stack }).countCore t.die t.core 0x05 1
      else
        s.modPath r fun p =>
          { p.goto (if b.taken != 0 then tt else tf) with slices := b.taken ||| b.fall }
    let s := if tset = 0 ∨ fT ≠ [] then s else s.fetchSlot t (.path r) tt
    let s := if fset = 0 ∨ fF ≠ [] then s else s.fetchSlot t (.path r) tf
    let home := { troupe := t.id, sel := PathSel.ord (if split && t.ganged then 0 else p.number) : PathRef }
    let at_ := fun (s : State) (set : BitVec 8) =>
      match (s.troupe? t.id).bind fun t => t.holder set with
      | some q => { troupe := t.id, sel := q.sel : PathRef }
      | none => home
    let rT := at_ s tset
    let rF := at_ s fset
    let s := s.takeFaults home p.pc b.traps (o .all)
    let s := s.takeFaults rT p.pc fT (o (.set tset))
    let s := s.modTroupe t.id fun t => { t with paths := t.paths.map fun q =>
      { q with stack := q.stack.map fun e => match e with
          | .deferred ss pc => if ss = b.fall ∧ pc = tf then .deferred (ss &&& ~~~ks fF) pc else e
          | e => e } }
    let s := s.takeFaults rF p.pc fF (o (.set fset))
    let lost := if s.setMiss t tset act ti then tt else tf
    if miss then s.fetchMiss t.id lost lost p.pc else s

/-- The targets that the sets of a BRD move to, for whose slots it waits (R157, R170): of a set with an active lane; none
where its stack is full. -/
def brdTargets (t : Troupe) (p : Path) (act bad : Word) (x : Ins) : List Int :=
  let ti := branchTarget p.pc x.imm
  let tf := p.pc + 16
  let b := brdSort p.slices act bad fun l => (t.reg l x.a.toNat).getLsbD 0
  let same := ti == (tf : Int)
  if (b.taken != 0 && b.fall != 0 && !same) && !t.ganged &&
      decide (16 < p.stack.length + (pushEntries p.slices b.fall tf p.blk).length) then []
  else
    (if act &&& sliceLanes (if same then b.taken ||| b.fall else b.taken) = 0 then [] else [ti]) ++
      if same || act &&& sliceLanes b.fall == 0 then [] else [(tf : Int)]

/-- BRD as an ordinary path executes it (R170). -/
def State.brdPath (s : State) (x : Ins) : Host.Outcome State Fault Refusal :=
  let u := Use.lanes [] [(x.a, 1)]
  match s.gate x u with
  | .nobody => .fault .noIssuer
  | .empty t p => .next ((s.start t p x u).advance (refOf t p))
  | .fault t p m c =>
    let fs := faultAll m c 0
    .next (((s.start t p x u).modPath (refOf t p) Path.next).takeFaults (refOf t p) p.pc fs (p.brdUnsorted x fs))
  | .go t p act bad =>
    match (brdTargets t p act bad x).findSome? fun a => s.targetWaits t (.path (refOf t p)) a with
    | some s => .next (s.holdHead (refOf t p))
    | none => .next ((s.start t p x u).brdMove t p act bad x)

/-- A slice that executes a BRD on its own, as the debugger steps it, waits for its path, which executes the BRD in all its
slices once no other has it to execute still (R190). -/
def State.brdAlone (s : State) (t : Troupe) (p : Path) (k : Nat) (x : Ins) : Host.Outcome State Fault Refusal :=
  if t.othersLeft p then .next (s.modTroupe t.id fun t => t.rejoin k) else (s.stepWhole t p k).brdPath x

/-- BRD (R170). In a handler path the one slice moves whole or faults (R405); a slice that executes its
BRD again chooses a side or traps again (R451). An ordinary path executes it in every slice, those among them that the
debugger has stepped (R190). -/
def execBrd (x : Ins) (s : State) : Host.Outcome State Fault Refusal :=
  let u := Use.lanes [] [(x.a, 1)]
  match s.issuer with
  | none => .fault .noIssuer
  | some (r, _, p) =>
    match p.sel with
    | .ord _ => (if p.again = 0 then s else s.modPath r fun p => { p with again := 0 }).brdPath x
    | .handler k =>
      match s.gate x u with
      | .nobody => .fault .noIssuer
      | .empty t p =>
        match p.retry, p.origin with
        | true, .brd .. =>
          match s.joinWaits t p false with
          | some s => .next s
          | none => .next (((s.start t p x u).brdJoin t.id k false).settle t.id)
        | true, _ => s.brdAlone t p k x
        | false, _ => .next ((s.start t p x u).advance r)
      | .fault t p m c =>
        let fs := faultAll m c 0
        let s := s.start t p x u
        if p.retry then .next (s.takeFaults r p.pc fs p.origin) else .next (s.faultWord r fs)
      | .go t p act bad =>
        let b := brdSort (sliceBit k) act bad fun l => (t.reg l x.a.toNat).getLsbD 0
        let toT := b.taken != 0
        let a : Int := if toT then branchTarget p.pc x.imm else (p.pc + 16 : Nat)
        if b.traps ≠ [] then .next ((s.start t p x u).takeFaults r p.pc b.traps p.origin)
        else match p.retry, p.origin with
          | true, .brd .. =>
            match s.joinWaits t p toT with
            | some s => .next s
            | none => .next (((s.start t p x u).brdJoin t.id k toT).settle t.id)
          | true, _ => s.brdAlone t p k x
          | false, _ =>
            match s.targetWaits t (.path r) a with
            | some s => .next (s.holdHead r)
            | none => .next ((s.start t p x u).branchTo t p a act)

/-! ### REGANG and EXIT -/

/-- The running slices of a path wait at a REGANG (R43). -/
def Path.park (p : Path) : Path :=
  let q := p.next
  { p with waiting := p.waiting ++ [{ slices := p.slices, pc := q.pc, blk := q.blk }], slices := 0,
           last := p.pc, ibuf := none, wait := .none }

/-- REGANG's control effect on an ordinary path of a parted troupe, or an RFP header's (R22, R43): the
running slices wait; a stack pops; the troupe merges once every path is ready. -/
def State.regang (s : State) (t : Troupe) (p : Path) : State :=
  let s := s.modPath (refOf t p) Path.park
  let s := match p.sel, p.stack with
    | .ord n, _ :: _ => s.modTroupe t.id fun t => t.pop n
    | _, _ => s
  s.settle t.id

/-- Some running slices of a path wait at a REGANG, and the path stands at the word after it (R43, R191). -/
def Path.parkSome (p : Path) (ss : BitVec 8) : Path :=
  let q := p.next
  { q with waiting := if ss = 0 then p.waiting else p.waiting ++ [{ slices := ss, pc := q.pc, blk := q.blk }]
           slices := p.slices &&& ~~~ss }

/-- A slice that executes a REGANG again on its own waits at it with the slices of its path (R192). -/
def Troupe.parkAgain (t : Troupe) (p : Path) (k : Nat) : Troupe :=
  let q := p.next
  (t.endHandler k).modPath (.ord p.home) fun h =>
    if h.slices.getLsbD k then
      { h with slices := h.slices &&& ~~~sliceBit k
               waiting := h.waiting ++ [{ slices := sliceBit k, pc := q.pc, blk := q.blk }] }
    else h

/-- REGANG (R43, R171): no control effect in a ganged troupe or a handler path. Slices with a poisoned guard take
their faults, and the path pops no stack until their handlers have ended (R191). -/
def execRegang (x : Ins) (s : State) : Host.Outcome State Fault Refusal :=
  let u := Use.none_
  match s.gate x u with
  | .nobody => .fault .noIssuer
  | .empty t p => .next ((s.start t p x u).advance (refOf t p))
  | .fault t p m c => .next ((s.start t p x u).faultWord (refOf t p) (faultAll m c 0))
  | .go t p _ bad =>
    let s := s.start t p x u
    let r := refOf t p
    if t.ganged = true ∨ p.inHandler = true then .next (s.finish r bad)
    else match p.sel with
      | .handler k =>
        .next (if bad ≠ 0 then s.finish r bad else (s.modTroupe t.id fun t => t.parkAgain p k).settle t.id)
      | .ord _ =>
        .next (if bad = 0 then s.regang t p
          else ((s.modPath r fun p => p.parkSome (p.slices &&& ~~~slicesOf bad)).takeFaults r p.pc
            (faultAll bad 0x12 0) (.word p.blk)).settle t.id)

/-- The end of a handler path: as TRET gives for k, with the choice of a side after a BRD (R192,
R451). -/
def State.endTrap (s : State) (id k : Nat) (again : Bool) : State :=
  match s.troupe? id with
  | none => s
  | some t => match t.path? (.handler k) with
    | none => s
    | some h => match h.origin, again with
      | .brd .., false => (s.brdJoin id k false).settle id
      | _, _ => (s.modTroupe id fun t => t.tret k again s.now).settle id

/-- Lanes become Exited (R19, R45). -/
def Troupe.exitLanes (t : Troupe) (m : Word) : Troupe :=
  { t with lanes := (lenum t.lanes).map fun e =>
      if m.getLsbD e.1 then { e.2 with st := .exited } else e.2 }

/-- EXIT (R45, R172): in a region routine it raises fault 0x0B (R415, R416). -/
def execExit (x : Ins) (s : State) : Host.Outcome State Fault Refusal :=
  let u := Use.none_
  match s.gate x u with
  | .nobody => .fault .noIssuer
  | .empty t p => .next ((s.start t p x u).advance (refOf t p))
  | .fault t p m c => .next ((s.start t p x u).faultWord (refOf t p) (faultAll m c 0))
  | .go t p act bad =>
    let s := s.start t p x u
    if t.routine ≠ .none then
      .next (s.faultWord (refOf t p) (faultAll act 0x0B 0 ++ faultAll bad 0x12 0))
    else
      let s := s.modTroupe t.id fun t => t.exitLanes act
      match p.sel, p.inHandler with
      | .handler k, true =>
        let left := (t.slice k).fmask &&& t.live &&& ~~~act
        if bad ≠ 0 then .next (s.faultWord (refOf t p) (faultAll bad 0x12 0))
        else if left = 0 then .next (s.endTrap t.id k false)
        else .next ((s.advance (refOf t p)).settle t.id)
      | _, _ => .next ((s.finish (refOf t p) bad).settle t.id)

/-! ### Prefetch, YIELD, NOP, SLEEP -/

/-- A prefetch request of one slot at `a` (R174): dropped and counted where the page does not translate
yet, is a device page, or the slot lies past the end. -/
def State.prefetchSlot (s : State) (t : Troupe) (a : Nat) : State :=
  let drop := s.countCore t.die t.core 0x0F 1
  if 2 ^ 64 - 15 ≤ a then drop
  else match s.page? (s.sidOf t) a, s.translate (s.sidOf t) t.die a with
    | some (_, q), .ok h pa p =>
      if p.kind = .device ∨ q.translated t.die = false then drop
      else (s.fillCode .device t.die t.core h pa (p.kind == .coherent)).1
    | _, _ => drop

/-- IPF's slot and, where it is a valid header, the words of its block (R175). -/
def State.prefetchBlock (s : State) (t : Troupe) (a : Nat) : State :=
  let s := s.prefetchSlot t a
  match s.translate (s.sidOf t) t.die a with
  | .ok h pa _ =>
    match decodeHeader (s.cachedSlot t.die t.core h pa) with
    | some hd =>
      if (mfind (s.core t.die t.core).icache (codeKey h pa)).isSome then
        (List.range hd.len).foldl (fun s k => s.prefetchSlot t (a + 16 * (k + 1))) s
      else s
    | none => s
  | _ => s

/-- IPF (R175): the pair of the lowest active lane, where that lane executes, or a PC-relative slot. -/
def execIpf (x : Ins) (s : State) : Host.Outcome State Fault Refusal :=
  runWord x { Use.none_ with un := if x.fmt = .f00 then [(x.a, 2)] else [], first := true } s
    fun s t p act =>
      let low := lowest (t.guarded (t.pathLanes p) x)
      let a : Int := if x.fmt = .f00 then (t.pair low x.a.toNat).toNat else branchTarget p.pc x.imm
      if act = 0 ∨ (x.fmt = .f00 ∧ act.getLsbD low = false) then s
      else if a < 0 then s.countCore t.die t.core 0x0F 1 else s.prefetchBlock t (a.toNat / 16 * 16)

/-- YIELD (R177): the stamp is renewed, and the next head is not ready in the clock that follows. -/
def execYield (x : Ins) (s : State) : Host.Outcome State Fault Refusal :=
  runWord x Use.none_ s fun s t p _ =>
    s.modPath (refOf t p) fun p =>
      { p with stamp := s.now, stall := max p.stall (s.now + 2) }

/-- NOP (R177). -/
def execNop (x : Ins) (s : State) : Host.Outcome State Fault Refusal :=
  runWord x Use.none_ s fun s _ _ _ => s

/-- SLEEP (R178): the path is held for n clocks after it has issued; a slice that executes SLEEP again holds the path
that it rejoins. -/
def execSleep (x : Ins) (s : State) : Host.Outcome State Fault Refusal :=
  let u := Use.none_
  match s.gate x u with
  | .nobody => .fault .noIssuer
  | .empty t p => .next ((s.start t p x u).advance (refOf t p))
  | .fault t p m c => .next ((s.start t p x u).faultWord (refOf t p) (faultAll m c 0))
  | .go t p act bad =>
    let s := s.start t p x u
    if 65535 < x.imm.toNat then
      .next (s.faultWord (refOf t p) (faultAll act 0x0B 0 ++ faultAll bad 0x12 0))
    else
      let s := s.finish (refOf t p) bad
      let sel := if p.retry then PathSel.ord p.home else p.sel
      .next (if x.imm.toNat = 0 ∨ bad ≠ 0 then s
        else s.modPath { troupe := t.id, sel := sel } fun p => { p with wait := .sleep (s.now + 1 + x.imm.toNat) })

/-- The sleep count of a path has run out (R178). -/
def execSleepExpiry (r : PathRef) (s : State) : Host.Outcome State Fault Refusal :=
  .next (s.modPath r fun p => match p.wait with
    | .sleep n => if n ≤ s.now then { p with wait := .none } else p
    | _ => p)

/-- The stall count of a path's previous instruction has run out (R48). -/
def execStallCountExpiry (r : PathRef) (s : State) : Host.Outcome State Fault Refusal :=
  .next (s.modPath r fun p => if p.stall ≤ s.now then { p with stall := 0 } else p)

/-- A head whose wait count has reached 1,024 enters the aged set (R50). -/
def execPathAged (r : PathRef) (s : State) : Host.Outcome State Fault Refusal :=
  .next (s.modPath r fun p => if Config.agedAt ≤ p.waitCnt then { p with aged := true } else p)

/-! ### The enable mask (R179, R180) -/

/-- The lanes whose enable bits a path writes (R179): those of its own slices. -/
def Troupe.ownLanes (t : Troupe) (p : Path) : Word :=
  match p.sel with
  | .ord _ => sliceLanes p.slices
  | .handler k => if p.retry then sliceLanes (sliceBit k) else (t.slice k).fmask &&& sliceLanes (sliceBit k)

/-- The lanes of MASKSET's activity set (R179): every enable bit counts as 1, and an execution again is restricted to
its lanes (R192). -/
def Troupe.maskLanes (t : Troupe) (p : Path) : Word :=
  t.live &&& (if p.again = 0 then t.ownLanes p else p.again)

/-- MASKSET (R179): its activity set takes every enable bit as 1. -/
def execMaskset (x : Ins) (first : Bool) (s : State) : Host.Outcome State Fault Refusal :=
  let u := Use.cmd [] [(x.a, 1)] first
  match s.issuer with
  | none => .fault .noIssuer
  | some (r, t, p) =>
    let own := t.ownLanes p
    let m := t.maskLanes p
    match gateOn t p m x u with
    | .nobody => .fault .noIssuer
    | .empty t p => .next ((s.startOn t p m x u).advance r)
    | .fault t p ls c => .next ((s.startOn t p m x u).faultWord r (faultAll ls c 0))
    | .go t p act bad =>
      let v := uni t act x.a
      .next (((s.startOn t p m x u).modTroupe t.id fun t =>
        { t with enable := (t.enable &&& ~~~own) ||| (v &&& own) }).finish r bad)

/-- MASKGET (R180): the mask at the end of the previous clock. -/
def execMaskget (x : Ins) (s : State) : Host.Outcome State Fault Refusal :=
  runWord x (Use.lanes [(x.d, 1)] []) s fun s t _ act =>
    s.writeLanes t.id act fun _ => wr1 x.d t.prevEnable

/-! ### Barriers (R181–R185) -/

/-- The phase in which an arrival of a troupe counts (R182). -/
def Barrier.phaseFor (b : Barrier) (id : Nat) : BitVec 16 :=
  match b.partial_.find? fun x => x.1 == id with
  | some x => x.2.2
  | none => if b.arrived.contains id then b.phase + 1 else b.phase

/-- One path's arrival: it counts at once for a ganged troupe, and once every path has made one for a
parted troupe (R182). -/
def Barrier.arrive (b : Barrier) (t : Troupe) (n : Nat) : Barrier :=
  { b with partial_ := b.partial_ ++ [(t.id, n, b.phaseFor t.id)] }

/-- The fields of an ensemble that a barrier instruction needs. -/
def State.ensOf (s : State) (t : Troupe) : Option Ensemble := s.ens? t.ens

/-- BAR (R182, R184, R185): the arrival, then the wait for its phase's release. With active(i) not empty it arrives, as
BARARV does, though every active lane has a poisoned guard, so that none executes it: R182 does not say (DESIGN CHOICE, log 42). On an abandoned instance of a
Pre-empting ensemble it returns 0x40 and no arrival stands (log 42: R184 alone would give 0x80 and the arrival). -/
def execBar (x : Ins) (s : State) : Host.Outcome State Fault Refusal :=
  let u := Use.lanes [(x.d, 1)] []
  match s.gate x u with
  | .nobody => .fault .noIssuer
  | .empty t p => .next ((s.start t p x u).advance (refOf t p))
  | .fault t p m c => .next ((s.start t p x u).faultWord (refOf t p) (faultAll m c 0))
  | .go t p act bad =>
    let s := s.start t p x u
    let id := x.imm.toNat
    let r := refOf t p
    match s.ensOf t with
    | none => .next (s.finish r bad)
    | some e =>
      if 15 < id then .next (s.faultWord r (faultAll act 0x0B 0 ++ faultAll bad 0x12 0))
      else
        let b := e.bar t.sec id
        let s := s.modTroupe t.id fun t => { t with region := t.region.map fun g => { g with committed := true } }
        if e.st = .preempting then
          .next ((s.writeLanes t.id act fun _ => wr1 x.d 0x40).finish r bad)
        else if b.abandoned then
          let s := s.modEns e.id fun e => e.modBar t.sec id fun b => b.arrive t p.number
          .next (((s.writeLanes t.id act fun _ => wr1 x.d 0x80).finish r bad).sweepBars e.id)
        else
          let s := s.modEns e.id fun e => e.modBar t.sec id fun b => b.arrive t p.number
          .next ((s.waitAt r (.bar id (b.phaseFor t.id) x.d.toNat act) bad).sweepBars e.id)

/-- BARARV (R182, R184): the arrival, and its token. -/
def execBararv (x : Ins) (s : State) : Host.Outcome State Fault Refusal :=
  let u := Use.lanes [(x.d, 1)] []
  match s.gate x u with
  | .nobody => .fault .noIssuer
  | .empty t p => .next ((s.start t p x u).advance (refOf t p))
  | .fault t p m c => .next ((s.start t p x u).faultWord (refOf t p) (faultAll m c 0))
  | .go t p act bad =>
    let s := s.start t p x u
    let id := x.imm.toNat
    let r := refOf t p
    match s.ensOf t with
    | none => .next (s.finish r bad)
    | some e =>
      if 15 < id then .next (s.faultWord r (faultAll act 0x0B 0 ++ faultAll bad 0x12 0))
      else
        let b := e.bar t.sec id
        let s := s.modTroupe t.id fun t => { t with region := t.region.map fun g => { g with committed := true } }
        let tok : Word := (b.phaseFor t.id).zeroExtend 32 ||| if b.abandoned then 0x80000000 else 0
        let s := s.modEns e.id fun e => e.modBar t.sec id fun b => b.arrive t p.number
        .next (((s.writeLanes t.id act fun _ => wr1 x.d tok).finish r bad).sweepBars e.id)

/-- BARWT (R184, R185). -/
def execBarwt (x : Ins) (first : Bool) (s : State) : Host.Outcome State Fault Refusal :=
  let u := { Use.cmd [(x.d, 1)] [(x.a, 1)] first with bits := 0xFFFF }
  match s.gate x u with
  | .nobody => .fault .noIssuer
  | .empty t p => .next ((s.start t p x u).advance (refOf t p))
  | .fault t p m c => .next ((s.start t p x u).faultWord (refOf t p) (faultAll m c 0))
  | .go t p act bad =>
    let s := s.start t p x u
    let id := x.imm.toNat
    let r := refOf t p
    match s.ensOf t with
    | none => .next (s.finish r bad)
    | some e =>
      if 15 < id then .next (s.faultWord r (faultAll act 0x0B 0 ++ faultAll bad 0x12 0))
      else
        let b := e.bar t.sec id
        let q : BitVec 16 := (uni t act x.a).extractLsb' 0 16
        if e.st = .preempting then .next ((s.writeLanes t.id act fun _ => wr1 x.d 0x40).finish r bad)
        else if b.abandoned then .next ((s.writeLanes t.id act fun _ => wr1 x.d 0x80).finish r bad)
        else if b.past q then .next ((s.writeLanes t.id act fun _ => wr1 x.d 0).finish r bad)
        else .next (s.waitAt r (.barwt id q x.d.toNat act) bad)

/-! ### The extended set (R92, R93, R186) -/

/-- XACQ (R92): a wait where the partner holds the set. -/
def execXacq (x : Ins) (s : State) : Host.Outcome State Fault Refusal :=
  let u := Use.none_
  match s.gate x u with
  | .nobody => .fault .noIssuer
  | .empty t p => .next ((s.start t p x u).advance (refOf t p))
  | .fault t p m c => .next ((s.start t p x u).faultWord (refOf t p) (faultAll m c 0))
  | .go t p _ bad =>
    let s := s.start t p x u
    if t.holdsExt then .next (s.finish (refOf t p) bad)
    else if (s.extOf t).isFree s.now then .next ((s.takeExt t.id).finish (refOf t p) bad)
    else .next (s.waitAt (refOf t p) .xacq bad)

/-- A waiting XACQ takes the set once the lock is Free (R92, R94), or finds that its troupe holds it. -/
def execExtendedSetGrant (r : PathRef) (s : State) : Host.Outcome State Fault Refusal :=
  match s.troupe? r.troupe with
  | none => .next s
  | some t => match t.path? r.sel with
    | none => .next s
    | some p =>
      if p.wait ≠ .xacq then .next s
      else if t.holdsExt then .next (s.advance r)
      else if (s.extOf t).isFree s.now then .next ((s.takeExt t.id).advance r)
      else .next s

/-- Whether an operation still owes a write to an extended register. -/
def Op.owesExt (o : Op) : Bool :=
  match o.kind with
  | .load ty _ _ _ d as => as != [] && decide (192 ≤ d + ty.regs - 1) && d != 511
  | .atom _ ty _ (some d) as => (as.any fun a => a.phase != .performed) && decide (192 ≤ d + ty.regs - 1) && d != 511
  | .atomc ty _ d as => (as.any fun a => a.phase != .performed) && decide (192 ≤ d + ty.regs - 1) && d != 511
  | .tmovr d _ => !o.done && decide (192 ≤ d) && d != 511
  | _ => false

/-- Whether an instruction that waits owes a write to an extended register. -/
def Wait.owesExt (w : Wait) : Bool :=
  match w with
  | .bar _ _ d ls | .barwt _ _ d ls | .mbget _ d ls | .fwcall _ _ _ d ls | .fwait _ _ _ d ls => isExt d && ls != 0
  | _ => false

/-- Whether a write to an extended register is pending for any path (R93). The mark of a future is no pending write
(log 42: the manual does not say). -/
def Troupe.owesExt (t : Troupe) : Bool := t.ops.any Op.owesExt || t.paths.any fun p => p.wait.owesExt

/-- XREL (R93). -/
def execXrel (x : Ins) (s : State) : Host.Outcome State Fault Refusal :=
  runEff x Use.none_ s fun s t _ _ =>
    if !t.holdsExt then .done s []
    else if t.owesExt then .hold
    else .done (s.releaseExt t.id false) []

/-! ### Identity and special registers (R104–R110, R187, R188) -/

/-- IDF (R187). -/
def execIdf (x : Ins) (s : State) : Host.Outcome State Fault Refusal :=
  runEff x (Use.lanes [(x.d, 2)] []) s fun s t _ act =>
    let h := s.headerOf t
    if (idfValue h 0 x.imm.toNat).isNone then .done s (faultAll act 0x0B 0)
    else .done (s.writeLanes t.id act fun l =>
      wr2 x.d ((idfValue h (t.lane l).item x.imm.toNat).getD 0)) []

/-- Whether a selector names a 64-bit special register (R104). -/
def selWide (n : Nat) : Bool :=
  n == 0x02 || n == 0x1A || n == 0x1B || n == 0x1D || n == 0x1E || n == 0x20 || n == 0x21

/-- The value of a special register in a lane (R104, R106), zero-extended. -/
def State.special (s : State) (t : Troupe) (p : Path) (n l : Nat) : DWord :=
  let w := fun (v : Word) => v.zeroExtend 64
  let c := t.lane l
  let sl := t.slice (l / 4)
  if n = 0x00 then w (c.item.extractLsb' 0 32)
  else if n = 0x01 then w (c.item.extractLsb' 32 32)
  else if n = 0x02 then c.item
  else if n = 0x03 then w c.refills
  else if n ≤ 0x09 then
    w (((idfValue (s.headerOf t) c.item (n - 4)).getD 0).extractLsb' 0 32)
  else if n = 0x0A then BitVec.ofNat 64 l
  else if n = 0x0B then BitVec.ofNat 64 (l / 4)
  else if n = 0x0C then BitVec.ofNat 64 t.idx
  else if n = 0x0D then BitVec.ofNat 64 t.sec
  else if n = 0x0E then (match s.ens? t.ens with | some e => BitVec.ofNat 64 e.num | none => 0)
  else if n = 0x0F then w (t.pathLanes p)
  else if n = 0x10 then w t.tilePart
  else if n = 0x11 then w t.mrow
  else if n ≤ 0x19 then w (lget 0 (s.sect t.ens t.sec).wp (n - 0x12))
  else if n = 0x1A then t.rsm
  else if n = 0x1B then t.save
  else if n = 0x1C then w sl.fcode
  else if n = 0x1D then sl.fpc
  else if n = 0x1E then c.faddr
  else if n = 0x1F then w sl.fmask
  else if n = 0x20 then sl.forig
  else if n = 0x21 then s.clock t.die
  else if n = 0x22 then BitVec.ofNat 64 s.pbound
  else if n = 0x23 then BitVec.ofNat 64 t.die
  else BitVec.ofNat 64 t.core

/-- MOVS (R104, R188). -/
def execMovs (x : Ins) (s : State) : Host.Outcome State Fault Refusal :=
  let n := x.imm.toNat
  runEff x (Use.lanes [(x.d, if selWide n then 2 else 1)] []) s fun s t p act =>
    if 0x24 < n then .done s (faultAll act 0x0B 0)
    else .done (s.writeLanes t.id act fun l =>
      let v := s.special t p n l
      if selWide n then wr2 x.d v else wr1 x.d (v.extractLsb' 0 32)) []

/-- Whether a value may stand in %part (R109). -/
def partOk (v : Word) : Bool := v == 2 || v == 4 || v == 8 || v == 16 || v == 32

/-- MOVSW (R105, R109, R188). -/
def execMovsw (x : Ins) (first : Bool) (s : State) : Host.Outcome State Fault Refusal :=
  runEff x (Use.cmd [] [(x.a, 1)] first) s fun s t _ act =>
    let v := uni t act x.a
    if x.imm = 0x10 ∧ partOk v = true then .done (s.modTroupe t.id fun t => { t with tilePart := v }) []
    else if x.imm = 0x11 then .done (s.modTroupe t.id fun t =>
      { t with mrow := (v &&& ~~~t.mrowSet) ||| (t.mrow &&& t.mrowSet), mrowOld := some (t.mrowOld.getD t.mrow) }) []
    else .done s (faultAll act 0x0B 0)

/-! ### Traps, handlers, firmware -/

/-- TRAP (R189): fault 0x10 with %faddr = IMM32. -/
def execTrap (x : Ins) (s : State) : Host.Outcome State Fault Refusal :=
  runEff x Use.none_ s fun s _ _ act => .done s (faultAll act 0x10 x.imm.toNat)

/-- Slices stopped by the debugger (R60). -/
def Troupe.stopSlices (t : Troupe) (m : BitVec 8) : Troupe :=
  { t with slices := (lenum t.slices).map fun e => if m.getLsbD e.1 then { e.2 with st := .stopped } else e.2 }

/-- Slices stopped by the debugger: a SLEEP of their path ends (R178). -/
def Troupe.debugStop (t : Troupe) (m : BitVec 8) : Troupe :=
  { t.stopSlices m with paths := t.paths.map fun (p : Path) => match p.wait with
      | .sleep _ => if p.slices &&& m != 0 then { p with wait := .none } else p
      | _ => p }

/-- Slices of a troupe stopped, or, under stop-all, every slice of its ensemble (R60, R190). -/
def State.debugStop (s : State) (t : Troupe) (m : BitVec 8) (all : Bool) : State :=
  { s with troupes := s.troupes.map fun u =>
      if u.id = t.id then u.debugStop (if all then 0xFF else m)
      else if all && u.ens == t.ens then u.debugStop 0xFF else u }

/-- BKPT (R190): with a debugger attached the slices of active(i) become Stopped once it has completed. -/
def execBkpt (x : Ins) (s : State) : Host.Outcome State Fault Refusal :=
  let u := Use.none_
  match s.gate x u with
  | .nobody => .fault .noIssuer
  | .empty t p => .next ((s.start t p x u).advance (refOf t p))
  | .fault t p m c => .next ((s.start t p x u).faultWord (refOf t p) (faultAll m c 0))
  | .go t p act bad =>
    let s := s.start t p x u
    match (s.launchOf t.ens).bind (·.debugger) with
    | none => .next (s.faultWord (refOf t p) (faultAll act 0x11 0 ++ faultAll bad 0x12 0))
    | some all => .next ((s.finish (refOf t p) bad).debugStop t (slicesOf act) all)

/-- TRET (R192). -/
def execTret (x : Ins) (s : State) : Host.Outcome State Fault Refusal :=
  let u := Use.none_
  match s.gate x u with
  | .nobody => .fault .noIssuer
  | .empty t p => .next ((s.start t p x u).advance (refOf t p))
  | .fault t p m c => .next ((s.start t p x u).faultWord (refOf t p) (faultAll m c 0))
  | .go t p act bad =>
    if bad ≠ 0 ∨ 1 < x.imm.toNat ∨ p.inHandler = false then
      .next ((s.start t p x u).faultWord (refOf t p)
        ((if 1 < x.imm.toNat ∨ p.inHandler = false then faultAll act 0x0B 0 else []) ++ faultAll bad 0x12 0))
    else match p.sel, if x.imm = 0 then none else s.joinWaits t p false with
      | .handler _, some s => .next s
      | .handler k, none => .next ((s.start t p x u).endTrap t.id k (x.imm == 0))
      | .ord _, _ => .next (s.start t p x u)

/-- FWCALL (R193): the request; the path waits for the answer. -/
def execFwcall (x : Ins) (first : Bool) (s : State) : Host.Outcome State Fault Refusal :=
  let u := Use.cmd [(x.d, 1)] [(x.a, 2)] first
  match s.gate x u with
  | .nobody => .fault .noIssuer
  | .empty t p => .next ((s.start t p x u).advance (refOf t p))
  | .fault t p m c => .next ((s.start t p x u).faultWord (refOf t p) (faultAll m c 0))
  | .go t p act _ =>
    .next ((s.start t p x u).modPath (refOf t p) fun p =>
      { p with wait := .fwcall x.imm (uniPair t act x.a) (s.clock t.die) x.d.toNat act })

/-- The service's answer to a FWCALL, and its effect on the launch's trace (R193). -/
def State.fwAnswer (s : State) (t : Troupe) (fn : Word) (arg clk : DWord) : State × Word :=
  if fn = 0 then (s, 0x04600100 ||| Config.stepping.zeroExtend 32)
  else match s.launchOf t.ens with
    | none => (s, 0xFFFFFFFF)
    | some l =>
      if fn = 1 then
        (s.modLaunch l.id fun l =>
          { l with trace := l.trace ++ [{ arg := arg, troupe := t.id, clock := clk }] }, 0)
      else if fn = 2 then (s, if l.mboxCount = 0 then 0xFFFFFFFF else BitVec.ofNat 32 l.mboxFirst)
      else (s, 0xFFFFFFFF)

/-- The answer to a pending FWCALL (R193). -/
def execFwcallAnswer (r : PathRef) (s : State) : Host.Outcome State Fault Refusal :=
  match s.troupe? r.troupe with
  | none => .next s
  | some t => match t.path? r.sel with
    | none => .next s
    | some p => match p.wait with
      | .fwcall fn arg clk d ls =>
        let a := s.fwAnswer t fn arg clk
        .next ((a.1.writeLanes t.id ls fun _ => [(d, a.2)]).advance r)
      | _ => .next s

/-- HALT (R197, R407): the notice carries HALT's PC, or %fpc of the fault that a handler path handles. -/
def execHalt (x : Ins) (s : State) : Host.Outcome State Fault Refusal :=
  let u := Use.none_
  match s.gate x u with
  | .nobody => .fault .noIssuer
  | .empty t p => .next ((s.start t p x u).advance (refOf t p))
  | .fault t p m c => .next ((s.start t p x u).faultWord (refOf t p) (faultAll m c 0))
  | .go t p act bad =>
    let s := s.start t p x u
    if act = 0 then .next (s.faultWord (refOf t p) (faultAll bad 0x12 0))
    else
      let k := lowest act / 4
      let pc := if p.inHandler then (t.slice k).fpc.toNat else p.pc
      .next (s.halt t.id pc ((t.slice k).fcode.toNat % 256))

/-- SAVEMARK (R194). -/
def execSavemark (x : Ins) (s : State) : Host.Outcome State Fault Refusal :=
  runEff x Use.none_ s fun s t _ act =>
    if t.routine ≠ .exit ∨ x.a = 511 ∨ x.b = 511 ∨ x.b.toNat < x.a.toNat then
      .done s (faultAll act 0x0B 0)
    else .done (s.modTroupe t.id fun t =>
      { t with manifest := nunion t.manifest (nspan x.a.toNat x.b.toNat) }) []

end Sys2Proof.Machine
end

