-- ==== Sys2Proof/Machine/Memory.lean ====
section
/-! DEFINITION. Loads, stores, atomics, fences and cache control (R229–R245) with their returns and
their performance at the memories, and the die-to-die channels (R350). -/

namespace Sys2Proof.Machine

/-! ### Accesses of lanes (R231, R232) -/

/-- A lane's address: a global address from a pair, or an offset from one register (R231). -/
def laneAddr (sp : Space) (x : Ins) (rd : Nat → Word) : Nat :=
  if sp = .glob then ((rdPair rd x.a) + imm64s x).toNat else (rd x.a.toNat + x.imm).toNat

/-- What an access needs of its page: to read, to write; and whether it is volatile (R232, R316). -/
structure Need where
  rd : Bool
  wr : Bool
  vol : Bool
  deriving DecidableEq, Repr

/-- The checks of one lane's access of `n` bytes, in the order of R232 (`n` = 0: no alignment): the
first that fails gives its fault code; otherwise the location. -/
def State.checkAccess (s : State) (t : Troupe) (sp : Space) (va n : Nat) (w : Need) : Nat ⊕ Target :=
  if n ≠ 0 ∧ va % n ≠ 0 then .inl 0x09
  else if sp = .glob then
    match s.translate (s.sidOf t) t.die va with
    | .ok h pa p =>
      let may := (!w.rd || p.r) && (!w.wr || p.w)
      if p.kind = .device then
        if w.vol && (n == 4 || n == 8) && may then .inr (.device h pa) else .inl 0x08
      else if may then .inr (targetOf h pa p) else .inl 0x08
    | _ => .inl 0x07
  else match s.launchOf t.ens with
    | some l => match explicitTarget t l sp va with
      | some g => .inr g
      | none => .inl 0x08
    | none => .inl 0x08

/-- The accesses that the lanes of a mask make, and the faults of those that make none. -/
structure Access where
  accs : List Acc
  fs : List LaneFault
  deriving DecidableEq, Repr

/-- Every lane's access; `data` gives what a lane writes, `cmp` what ATOMC compares. -/
def State.accesses (s : State) (t : Troupe) (x : Ins) (sp : Space) (n : Nat) (w : Need) (act : Word)
    (data cmp : Nat → Nat) : Access :=
  (lanesOf act).foldl (fun (a : Access) l =>
    let va := laneAddr sp x (t.reg l)
    match s.checkAccess t sp va n w with
    | .inl c => { a with fs := a.fs ++ [{ lane := l, code := c, addr := va }] }
    | .inr g => { a with accs := a.accs ++
        [{ lane := l, va := va, tgt := g, size := n, mask := BitVec.ofNat 16 (2 ^ n - 1),
           data := BitVec.ofNat 128 (data l), cmpv := BitVec.ofNat 64 (cmp l), phase := .issued,
           pass := 0, bad := false }] }) { accs := [], fs := [] }

/-- The first translations that lanes' global accesses bring about, those that permission then refuses among them
(R315). -/
def State.touchAll (s : State) (t : Troupe) (sp : Space) (a : Access) : State :=
  if sp = .glob then
    (a.accs.map Acc.va ++ (a.fs.filter fun f => f.code == 0x08).map LaneFault.addr).foldl
      (fun s va => s.touchPage (s.sidOf t) va t.die) s
  else s

/-- The pages that lanes' accesses have found not resident (R318, R386). -/
def State.touchMissing (s : State) (t : Troupe) (fs : List LaneFault) : State :=
  fs.foldl (fun s f => if f.code = 0x07 then s.touchAbsent (s.sidOf t) f.addr else s) s

/-- The byte location of an access: space, unit and offset, equal for `.core` and `.clu` (R301). -/
def Acc.loc (a : Acc) : Nat × Nat × Nat :=
  match a.tgt with
  | .priv o => (0, a.lane, o)
  | .sect k o => (1, k, o)
  | .chip d o => (2, d, o)
  | .pool _ pa _ => (3, 0, pa)
  | .device _ pa => (4, 0, pa)

/-- Whether two accesses touch a common byte. -/
def Acc.meets (a b : Acc) : Bool :=
  a.loc.1 == b.loc.1 && a.loc.2.1 == b.loc.2.1 &&
    decide (a.loc.2.2 < b.loc.2.2 + b.size ∧ b.loc.2.2 < a.loc.2.2 + a.size)

/-- The bytes of stores that a higher lane also writes do not stand (R233). -/
def dropLower (accs : List Acc) : List Acc :=
  accs.map fun a =>
    { a with mask := (List.range a.size).foldl (fun (m : BitVec 16) i =>
        if accs.any fun b => decide (a.lane < b.lane) &&
          a.loc.1 == b.loc.1 && a.loc.2.1 == b.loc.2.1 &&
            decide (b.loc.2.2 ≤ a.loc.2.2 + i ∧ a.loc.2.2 + i < b.loc.2.2 + b.size)
        then m &&& ~~~(BitVec.ofNat 16 (2 ^ i)) else m) a.mask }

/-! ### Operations -/

/-- The accesses of an operation. -/
def OpKind.accs : OpKind → List Acc
  | .load _ _ _ _ _ as | .store _ _ _ as | .atom _ _ _ _ as | .atomc _ _ _ as => as
  | _ => []

/-- The accesses of an operation changed. -/
def OpKind.withAccs (k : OpKind) (f : List Acc → List Acc) : OpKind :=
  match k with
  | .load ty ord v h d as => .load ty ord v h d (f as)
  | .store ord v h as => .store ord v h (f as)
  | .atom op ty σ d as => .atom op ty σ d (f as)
  | .atomc ty σ d as => .atomc ty σ d (f as)
  | k => k

/-- Whether an operation's accesses write. -/
def OpKind.writes : OpKind → Bool
  | .store .. | .atom .. | .atomc .. => true
  | _ => false

/-- Whether they are volatile (R239). -/
def OpKind.volatile : OpKind → Bool
  | .load _ _ v _ _ _ | .store _ v _ _ => v
  | _ => false

/-- Whether they are strong or volatile, for R330's read-read row. -/
def OpKind.strong : OpKind → Bool
  | .load _ ord v _ _ _ | .store ord v _ _ => v || ord != .weak
  | .atom .. | .atomc .. => true
  | _ => false

/-- Whether an access has not been made yet. -/
def Acc.unmade (a : Acc) : Bool := a.phase == .issued || a.phase == .entered

/-- Whether a pool byte stands accepted at its slice, or in a write-back without an answer, and not yet at `.pool`
(R351, R423). -/
def State.openByte (s : State) (k : Nat) : Bool :=
  s.sending (k % 4) (k / 512) (k / 4 % 128) ||
    match s.line? (k % 4) (k / 512) with
    | some l => l.accepted.contains (k / 4 % 128)
    | none => false

/-- Whether the bytes that an access writes to a coherent line stand at `.pool`; only shared-coherent lines have a
wider scope than `.dev` (R343, R351, R353). -/
def State.accPool (s : State) (a : Acc) : Bool :=
  match a.tgt with
  | .pool h pa .coherent => (List.range a.size).all fun i => !(a.mask.getLsbD i && s.openByte (byteKey h (pa + i)))
  | _ => true

/-- Whether an earlier operation of a path holds back an access of a later one (R330, R239): of two volatile accesses
of one lane, or of two between which their paths have merged (R333), the first is performed at `.pool`, and what it read
stands there, before the second (R352). -/
def State.blocks (s : State) (e o : Op) (a : Acc) : Bool :=
  (e.own.any fun r => o.own.contains r) &&
    ((e.kind.accs.any fun b =>
      (b.unmade && b.meets a && (e.kind.writes || o.kind.writes || (e.kind.strong && o.kind.strong))) ||
        (e.kind.volatile && o.kind.volatile && (b.lane == a.lane || decide (o.merges < e.merges)) &&
          (b.unmade || (e.kind.writes && !s.accPool b)))) ||
      (o.kind.volatile && e.volSeen.any fun v => (v.1 == a.lane || decide (o.merges < e.merges)) && s.openByte v.2))

/-- Whether an access may be made now: nothing earlier holds it back, and the atomics of one
instruction on one byte are applied in lane order (R233). -/
def State.mayMake (s : State) (t : Troupe) (o : Op) (a : Acc) : Bool :=
  !((t.ops.takeWhile fun e => e.id != o.id).any fun e => s.blocks e o a) &&
    !(o.kind.writes && o.kind.accs.any fun b => decide (b.lane < a.lane) && b.unmade && b.meets a)

/-- An operation of a troupe. -/
def Troupe.op? (t : Troupe) (id : Nat) : Option Op := t.ops.find? fun o => o.id == id

/-- An operation changed. -/
def State.modOp (s : State) (troupe id : Nat) (f : Op → Op) : State :=
  s.modTroupe troupe fun t => { t with ops := t.ops.map fun o => if o.id = id then f o else o }

/-- A new operation of a path. -/
def State.addOp (s : State) (t : Troupe) (p : Path) (c : OpClass) (k : OpKind) (act : Word) : State :=
  let o : Op := { id := s.fresh, cls := c, kind := k, pc := p.pc, own := [p.sel], lanes := act, future := none,
                  done := false, cancelled := false, fault := none, value := 0, lines := [], waitPage := none, by_ := some p.sel,
                  at_ := some s.now }
  ({ s with fresh := s.fresh + 1 } : State).modTroupe t.id fun t => { t with ops := t.ops ++ [o] }

/-- One access replaced. -/
def State.setAcc (s : State) (troupe id : Nat) (a : Acc) : State :=
  s.modOp troupe id fun o =>
    { o with kind := o.kind.withAccs fun as => as.map fun b => if b.lane = a.lane then a else b }

/-- A region becomes committed (R414). -/
def State.commitRegion (s : State) (id : Nat) : State :=
  s.modTroupe id fun t => { t with region := t.region.map fun g => { g with committed := true } }

/-- Whether every write accepted for a coherent line has reached `.pool` (R351, R353). -/
def State.poolDone (s : State) (home ln : Nat) : Bool :=
  ((s.die home).reqs.all fun r => r.line != ln || r.bytes == []) && match s.line? home ln with
  | some l => l.accepted == []
  | none => true

/-- Whether a write of a path is known at every scope, so that nothing waits for it any more. -/
def State.accOver (s : State) (a : Acc) : Bool := a.over s.now && s.accPool a

/-- Operations that nothing waits for any more leave the troupe, but none before an older one of its class is
complete (R238); those younger than one with a deferred fault stay, for WAITC's count (R287). -/
def State.prune (s : State) (id : Nat) : State :=
  let s := s.modTroupe id fun t => { t with ops := t.ops.filter fun o =>
    !(o.complete s.now && o.fault.isNone && (o.kind.accs.all fun a => s.accOver a) &&
      (o.volSeen.all fun v => !s.openByte v.2) &&
      !(t.ops.takeWhile fun e => e.id != o.id).any fun e =>
        e.cls == o.cls && (e.fault.isSome || !e.complete s.now)) }
  match s.troupe? id with
  | some t => s.settleEns t.ens
  | none => s

/-! ### Making an access -/

/-- The agent of an access. -/
def whoOf (t : Troupe) (o : Op) (a : Acc) : Asker := .lane t.id o.id a.lane

/-- Whether an access goes to another die's memory (R350). -/
def Acc.remote (a : Acc) (t : Troupe) : Bool := a.tgt.dieOf t.die != t.die

/-- The access enters the channel from its die to the other (R350). -/
def State.enter (s : State) (t : Troupe) (o : Op) (a : Acc) : State :=
  let k := t.die * 4 + a.tgt.dieOf t.die
  { (s.setAcc t.id o.id { a with phase := .entered }).takes (.chan t.die (a.tgt.dieOf t.die)) t.rank with
    channels := mput k (mget [] s.channels k ++ [.lane t.id o.id a.lane]) s.channels }

/-- The paths of an operation learn of a read of a lane: the pass time of the write that it returned, the coherent
bytes that do not stand at `.pool` yet, and the mark of the read (R330, R347, R352). -/
def State.learnRead (s : State) (t : Troupe) (o : Op) (lane home ln pass seq : Nat) (opens : List Nat) : State :=
  let s := if o.kind.volatile ∧ opens ≠ [] then
      s.modOp t.id o.id fun o => { o with volSeen := o.volSeen ++ opens.map fun k => (lane, k) }
    else s
  s.modTroupe t.id fun t => { t with paths := t.paths.map fun (p : Path) =>
      let k := l1Key home ln
      if !(o.own.contains p.sel) then p
      else { p with
        rdPass := max p.rdPass pass
        rdShared := nunion p.rdShared opens
        reads := mput k (max (mget 0 p.reads k) seq) p.reads
        strongReads := if o.kind.strong then mput k (max (mget 0 p.strongReads k) seq) p.strongReads
                       else p.strongReads } }

/-- The paths of an operation have written a line (R330). -/
def State.markWrote (s : State) (t : Troupe) (o : Op) (home ln : Nat) : State :=
  let n := s.fresh
  ({ s with fresh := n + 1 } : State).modTroupe t.id fun t => { t with
    paths := t.paths.map fun (p : Path) =>
      if o.own.contains p.sel then { p with wrote := mput (l1Key home ln) n p.wrote } else p }

/-- A lease granted to a core's L1 with a fill at the current clock, after the writes of this clock and before a change
of the setting (R307, R308, R325); one grant of a clock serves all who ask in it. A copy of a line with an uncorrectable error carries it (R312). -/
def State.grant (s : State) (d c home ln seq : Nat) (l : L2Line) : State :=
  let e := s.now + (s.die home).lambda
  let q : L1Line := { data := l.data, lease := e, filled := seq, passes := l.passes, bad := s.errs.contains (.line home ln),
                      since := s.now, opens := l.accepted, openNo := l.openNo }
  if (match s.l1? d c home ln with | some q => q.lease == e && q.since == s.now && !q.bad | none => false) then s
  else
    ((((s.takes (.lease home) 0).takes (.line home ln) afterWrites).putLine home ln
      { l with horizon := max l.horizon e }).countDie home 0x47 1).modCore d c fun C =>
        { C with l1 := mcap Config.l1Lines (l1Key home ln) q C.l1 }

/-- Whether a load may use the L1 (R307). -/
def OpKind.leasable : OpKind → Bool
  | .load _ ord v _ _ _ => !v && (ord == .weak || ord == .strong .tr || ord == .strong .sec)
  | _ => false

/-- The cache hint of a load or store (R237). -/
def OpKind.hint : OpKind → Nat
  | .load _ _ _ h _ _ | .store _ _ h _ => h
  | _ => 0

/-- Whether a load fills the L1 under its hint (R237). -/
def OpKind.fills (k : OpKind) : Bool := k.hint != 3 && k.hint != 5

/-- Whether an access may bring its line into the slice under its hint (R237). -/
def OpKind.keeps (k : OpKind) : Bool := k.hint != 5

/-- A load's access made at its memory: its value is fixed. None while the line is awaited. -/
def State.makeRead (s : State) (t : Troupe) (o : Op) (a : Acc) : State × Option Acc :=
  match a.tgt with
  | .pool h pa k =>
    let ln := pa / 128
    let coh := k == .coherent
    match s.lineRead h ln coh (lineOffs (pa % 128) a.size) (whoOf t o a) o.kind.keeps with
    | .waits s => (s, none)
    | .dead => (s, some { a with phase := .made, bad := true, badDie := h, data := 0 })
    | .ready s l =>
      let seq := s.fresh
      let s := { s with fresh := s.fresh + 1 }
      let s := (s.traffic t.die h a.size false).readTurn t a.tgt
      let s := if o.kind.leasable && o.kind.fills && l.st != .i then s.grant t.die t.core h ln seq l else s
      let s := s.learnRead t o a.lane h ln (passOf l.passes (pa % 128) a.size) seq (l.open_ h ln (pa % 128) a.size)
      (s, some { a with phase := .made, bad := s.errs.contains (.line h ln), badDie := h
                        data := BitVec.ofNat 128 (leNat (l.read (pa % 128) a.size)) })
  | .device h _ =>
    ({ s.traffic t.die h a.size false with free := s.free + 1 },
      some { a with phase := .made, data := (Config.deviceRead s.free).zeroExtend 128 &&&
        BitVec.ofNat 128 (2 ^ (8 * a.size) - 1) })
  | g =>
    let s := (match g with | .chip d _ => s.traffic t.die d a.size false | _ => s).readTurn t g
    (s, some { a with phase := .made, bad := s.chipBad t a.lane g a.size, badDie := g.dieOf t.die
                      data := BitVec.ofNat 128 (leNat (s.readChip t a.lane g a.size)) })

/-- Whether bytes that awaited ownership in the time `n` of a line may await it still: the line's time is that one, or
the line has left its slice (R347, R351, R423). -/
def State.openIn (s : State) (home ln n : Nat) : Bool :=
  match s.line? home ln with
  | some l => l.openNo == n
  | none => true

/-- A read served from the core's L1 under its lease (R307), which a line in recovery does not serve (R425); none where
the L1 may not serve it. -/
def State.makeL1 (s : State) (t : Troupe) (o : Op) (a : Acc) : State × Option Acc :=
  match a.tgt with
  | .pool h pa k =>
    let ln := pa / 128
    let key := l1Key h ln
    match s.l1? t.die t.core h ln with
    | some q =>
      let ok := o.kind.leasable && decide (s.now < q.lease) && !(k == .coherent && s.inRecovery h ln) && t.paths.all fun p =>
        !o.own.contains p.sel || (decide (mget 0 p.marks key ≤ q.filled) &&
          (!o.kind.strong || decide (mget 0 p.strongReads key ≤ q.filled)))
      if ok then
        let s := ((s.countCore t.die t.core 0x0C 1).traffic t.die h a.size false).takes (.copyOf t.die t.core key) 0
        let opens := if k = .coherent ∧ s.openIn h ln q.openNo then
            ((lineOffs (pa % 128) a.size).filter q.opens.contains).map fun b => byteKey h (ln * 128 + b) else []
        (s.learnRead t o a.lane h ln (passOf q.passes (pa % 128) a.size) q.filled opens,
          some { a with phase := .made, bad := q.bad, badDie := t.die
                        data := BitVec.ofNat 128 (leNat (q.data.bytes (pa % 128) a.size)) })
      else (s, none)
    | none => (s, none)
  | _ => (s, none)

/-- Bytes of a line that the slice does not hold, written to the pool past it (R237). -/
def State.writePast (s : State) (h pa : Nat) (bs : List Byte) (mask : BitVec 16) : State :=
  ({ s with pool := s.pool.writeMask pa bs mask } : State).countDie h 0x45 bs.length

/-- A store's access made at its memory (R309, R351). -/
def State.makeWrite (s : State) (t : Troupe) (o : Op) (a : Acc) : State × Option Acc :=
  let bs := leBytes a.size a.data.toNat
  let s := s.writeTurn t false a.tgt
  match a.tgt with
  | .pool h pa k =>
    let ln := pa / 128
    if o.kind.keeps = false ∧ k ≠ .coherent ∧ (s.line? h ln).isNone = true ∧ (s.port h pa).isSome = true then
      (((s.writePast h pa bs a.mask).traffic t.die h a.size true).markWrote t o h ln,
        some { a with pass := s.now, phase := .performed })
    else match s.lineWrite h ln (k == .coherent) (whoOf t o a) o.kind.keeps with
    | .waits s => (s, none)
    | .dead => (s, some { a with phase := .performed, pass := s.now })
    | .ready s l =>
      let (s, w) := s.commitWrite t.die t.core h ln l (pa % 128) bs a.mask
      let s := (s.traffic t.die h a.size true).markWrote t o h ln
      let pool := match o.kind with | .store (.strong .pool) _ _ _ => true | _ => false
      (s, some { a with pass := w, phase := if pool && !s.accPool a then .made else .performed })
  | .device h pa =>
    ({ s.traffic t.die h a.size true with devWrites := s.devWrites ++ [(pa, a.size, a.data.extractLsb' 0 64)] },
      some { a with phase := .performed, pass := s.now })
  | g =>
    let s := match g with | .chip d _ => s.traffic t.die d a.size true | _ => s
    (s.writeChip t a.lane g bs a.mask, some { a with phase := .performed, pass := s.now })

/-- The new value of ATOM and RED (R240): integers wrap; float sums are rounded once to nearest even. -/
def atomNew (op : AtomOp) (ty : Ty) (old v : Nat) : Nat :=
  let flt := fun (i : Nat) => roundTo ty .rne false 0 (sumNum false
    [value ty (old / 65536 ^ i % 65536), value ty (v / 65536 ^ i % 65536)])
  match op with
  | .add =>
    if ty = .f32 then roundTo .f32 .rne false 0 (sumNum false [value .f32 old, value .f32 v])
    else if ty.cls then flt 0 + 65536 * flt 1
    else (old + v) % 2 ^ ty.width
  | .min => if ty.toInt v < ty.toInt old then v else old
  | .max => if ty.toInt old < ty.toInt v then v else old
  | .and => old &&& v
  | .or => old ||| v
  | .xor => old ^^^ v
  | .exch => v

/-- The read-modify-write of an operation on an old value: the value written, or none (R241). -/
def OpKind.modify (k : OpKind) (a : Acc) (old : Nat) : Option Nat :=
  match k with
  | .atom op ty _ _ _ => some (atomNew op ty old a.data.toNat)
  | .atomc _ _ _ _ => if old = a.cmpv.toNat then some a.data.toNat else none
  | _ => none

/-- The scope of an atomic. -/
def OpKind.scope : OpKind → Scope
  | .atom _ _ σ _ _ | .atomc _ σ _ _ => σ
  | _ => .tr

/-- An uncorrectable error in the data of an atomic: the troupe halts with 0x13 (R234, R407). -/
def State.atomBad (s : State) (t : Troupe) (o : Op) (a : Acc) : State :=
  (s.logFound (a.tgt.dieOf t.die) t.die t.core a.va).halt t.id o.pc 0x13

/-- An atomic's access made: one indivisible read and write (R241). `data` then holds the old value. -/
def State.makeAtom (s : State) (t : Troupe) (o : Op) (a : Acc) : State × Option Acc :=
  match a.tgt with
  | .pool h pa k =>
    let ln := pa / 128
    let coh := k == .coherent
    match s.lineAtomic h ln coh (o.kind.scope == .pool) (lineOffs (pa % 128) a.size)
        (whoOf t o a) with
    | .waits s => (s, none)
    | .dead => (s.atomBad t o a, some { a with phase := .performed, bad := true, pass := s.now })
    | .ready s l =>
      if s.errs.contains (.line h ln) then
        (s.atomBad t o a, some { a with phase := .performed, bad := true, pass := s.now })
      else
        let old := leNat (l.read (pa % 128) a.size)
        let s := (s.traffic t.die h a.size false).traffic t.die h a.size true
        let seq := s.fresh
        let s := (({ s with fresh := s.fresh + 1 }).writeTurn t false a.tgt).learnRead t o a.lane h ln
          (passOf l.passes (pa % 128) a.size) seq (l.open_ h ln (pa % 128) a.size)
        match o.kind.modify a old with
        | some v =>
          let (s, w) := s.commitWrite t.die t.core h ln l (pa % 128) (leBytes a.size v) a.mask
          (s.markWrote t o h ln, some { a with phase := .made, pass := w, data := BitVec.ofNat 128 old })
        | none => (s.putLine h ln l, some { a with phase := .made, pass := s.now, data := BitVec.ofNat 128 old })
  | .device _ _ => (s, none)
  | g =>
    if s.chipBad t a.lane g a.size then
      (s.atomBad t o a, some { a with phase := .performed, bad := true, pass := s.now })
    else
      let old := leNat (s.readChip t a.lane g a.size)
      let s := (match g with
        | .chip d _ => (s.traffic t.die d a.size false).traffic t.die d a.size true | _ => s).writeTurn t false g
      let s := match o.kind.modify a old with
        | some v => s.writeChip t a.lane g (leBytes a.size v) a.mask
        | none => s
      (s, some { a with phase := .made, pass := s.now, data := BitVec.ofNat 128 old })

/-- An access of an operation made at its memory, by its kind. A RED returns nothing: it is then
performed (R241). -/
def State.make (s : State) (t : Troupe) (o : Op) (a : Acc) : State × Option Acc :=
  match o.kind with
  | .load .. => s.makeRead t o a
  | .store .. => s.makeWrite t o a
  | .atom _ _ _ none _ =>
    match s.makeAtom t o a with
    | (s, some b) => (s, some { b with phase := .performed })
    | r => r
  | _ => s.makeAtom t o a

/-- The other accesses of a load to the bytes of one of its accesses: they read the same value, so they are made
with it (R233). All have its size. -/
def Op.twins (o : Op) (a : Acc) : List Acc :=
  match o.kind with
  | .load .. => o.kind.accs.filter fun b => b.lane != a.lane && b.phase == a.phase && b.meets a
  | _ => []

/-- The twins of an access made with it, which gave `b`: each is a read of its own, and finds the same value (R233). -/
def State.makeTwins (s : State) (t : Troupe) (o : Op) (a b : Acc) (f : State → Acc → State × Option Acc) : State :=
  (o.twins a).foldl (fun s c => match f s c with
    | (s, some d) => s.setAcc t.id o.id { d with data := b.data, bad := b.bad }
    | (s, none) => s) s

/-- The twins of an access made at their memory with it. -/
def State.makeWith (s : State) (t : Troupe) (o : Op) (a : Acc) : State × Option Acc :=
  match s.make t o a with
  | (s, some b) => (s.makeTwins t o a b fun s c => s.make t o c, some b)
  | r => r

/-! ### Results -/

/-- The register writes of a load's result (R235): extended by its type, or a pair or quad, the
lowest-addressed bytes in the lowest register. -/
def loadWrites (ty : Ty) (d v : Nat) : List (Nat × Word) :=
  if ty.regs = 1 then
    [(d, if ty.signed && decide (ty.width < 32) then BitVec.ofInt 32 (ty.toInt v) else BitVec.ofNat 32 v)]
  else (List.range ty.regs).map fun k => (d + k, BitVec.ofNat 32 (v / 2 ^ (32 * k)))

/-- Registers of a lane poisoned. -/
def Lane.poisonRegs (l : Lane) (rs : List Nat) : Lane :=
  { l with poison := nunion l.poison (rs.filter fun r => r != 511) }

/-- A result delivered to a lane; data with an uncorrectable error poisons it and is logged (R234). A
write to a register of a set that the troupe has given up is discarded (R95). -/
def State.deliver (s : State) (t : Troupe) (ty : Ty) (d : Nat) (a : Acc) : State :=
  let ws := (loadWrites ty d a.data.toNat).filter fun w => !isExt w.1 || t.holdsExt
  let s := s.writeLanes t.id (maskOf [a.lane]) fun _ => ws
  if a.bad then
    ((s.modTroupe t.id fun t => t.modLane a.lane fun l => l.poisonRegs (ws.map (·.1))).logFound
      a.badDie t.die t.core a.va).countDie t.die 0x4E (ws.filter fun w => w.1 != 511).length
  else s

/-- A made access returns to its lane: a load's leaves the operation, an atomic's is performed (R238). -/
def State.return_ (s : State) (troupe id : Nat) (a : Acc) : State :=
  match s.troupe? troupe with
  | none => s
  | some t => match t.op? id with
    | none => s
    | some o => match o.kind with
      | .load ty _ _ _ d _ =>
        (s.deliver t ty d a).modOp troupe id fun o =>
          { o with kind := o.kind.withAccs fun as => as.filter fun b => b.lane != a.lane }
      | .atom _ ty _ (some d) _ | .atomc ty _ d _ =>
        (if a.bad then s else s.deliver t ty d a).setAcc troupe id { a with phase := .performed }
      | _ => s.setAcc troupe id { a with phase := .performed }

/-- Whether a lane's load finds its line in the L1 with its lease ended (R307, L1_EXPIRED). -/
def State.leaseOver (s : State) (t : Troupe) (o : Op) (a : Acc) : Bool :=
  o.kind.leasable && (match a.tgt with
    | .pool h pa _ => (match s.l1? t.die t.core h (pa / 128) with
      | some q => decide (q.lease ≤ s.now)
      | none => false)
    | _ => false)

/-- One lane of a load or atomic: it is made at its memory, or enters the channel to the other die, or
returns what has been fixed. A load's accesses of the same bytes are made with it, and return in turn (R233). `s0` is the state in which the lanes of the operation look into the L1. -/
def State.returnLane (s0 : State) (troupe id : Nat) (fromL1 : Bool) (s : State) (l : Nat) : State :=
  match s.troupe? troupe with
  | none => s
  | some t => match t.op? id with
    | none => s
    | some o => match o.kind.accs.find? fun a => a.lane == l with
      | none => s
      | some a =>
        match a.phase with
        | .made => s.return_ troupe id a
        | .entered | .performed => s
        | .issued =>
          let as := a :: o.twins a
          if !as.all (s.mayMake t o) then s
          else if fromL1 then
            match s.makeL1 t o a with
            | (s, some b) => (s.makeTwins t o a b fun s c => s.makeL1 t o c).return_ troupe id b
            | (s, none) => s
          else
            let n := (as.filter (s0.leaseOver t o)).length
            if a.remote t then (as.foldl (fun s c => s.enter t o c) s).countCore t.die t.core 0x0D n
            else match s.makeWith t o a with
              | (s, some b) =>
                (if b.phase = .made then s.return_ troupe id b else s.setAcc troupe id b).countCore t.die t.core 0x0D n
              | (s, none) => s

/-- LOAD_RETURN (R238): lanes of a load or atomic, in lane order. -/
def execLoadReturn (troupe op : Nat) (lanes : Word) (fromL1 : Bool) (s : State) :
    Host.Outcome State Fault Refusal :=
  let isLd := match (s.troupe? troupe).bind fun (t : Troupe) => t.op? op with
    | some (o : Op) => o.cls == OpClass.ld | none => false
  .next (if isLd then
    ((lanesOf lanes).foldl (s.returnLane troupe op fromL1) s).prune troupe else s)

/-! ### Maintenance (R244) -/

/-- The state of a line that a slice holds. -/
def State.setSt (s : State) (home ln : Nat) (st : Moesi) : State :=
  match s.line? home ln with
  | some l => s.putLine home ln { l with st := st }
  | none => s

/-- `.wb` of a line (R244, R323). -/
def State.writeOut (s : State) (home ln : Nat) : State :=
  match s.line? home ln with
  | none => s
  | some l =>
    if l.coherent then
      match l.st with
      | .m => ((s.writeBack home ln).setSt home ln .e).sendWb home ln .wbE l
      | .o => ((s.writeBack home ln).setSt home ln .s).sendWb home ln .wbS l
      | _ => s
    else (s.writeBack home ln).setSt home ln .e

/-- One line of a CLINE: done, or waiting for its channel (R350), for an answer of the switch, or (`.wbinv`) for the
line's horizon. `begun` says that the slice has begun with it: a line that has come in anew since then is another's. -/
def State.maintain (s : State) (t : Troupe) (id : Nat) (op : LineOp) (home ln : Nat) (begun : Bool) : State × Bool :=
  let pass := fun (s : State) => s.passChan t.die home (.cline t.id id ln) t.rank
  match op with
  | .inv => ((s.takes (.copyOf t.die t.core (l1Key home ln)) 2).dropL1 t.die t.core home ln, true)
  | .iinv => (s.modCore t.die t.core fun C => { C with icache := mdel (l1Key home ln) C.icache }, true)
  | .wb =>
    if s.inRecovery home ln || s.asking home ln then (s, false)
    else match pass s with
      | (s, true) => (s.writeOut home ln, true)
      | r => r
  | .wbinv =>
    let s := (s.takes (.copyOf t.die t.core (l1Key home ln)) 2).dropL1 t.die t.core home ln
    match s.line? home ln with
    | none => (s, true)
    | some l =>
      if begun && !l.leaving then (s, true)
      else match if begun then (s, true) else pass s with
        | (s, false) => (s, false)
        | (s, true) =>
          if s.inRecovery home ln = false ∧ l.horizon ≤ s.now ∧ s.asking home ln = false then (s.leave home ln, true)
          else (s.putLine home ln { l with leaving := true }, false)

/-- Whether a slice holds a line that a CLINE `.wbinv` makes leave. -/
def State.isLeaving (s : State) (home ln : Nat) : Bool := match s.line? home ln with | some l => l.leaving | none => false

/-- The lines of a CLINE, each maintained. The lines whose maintenance is not over remain. -/
def State.maintainAll (s : State) (troupe id : Nat) : State :=
  match s.troupe? troupe with
  | none => s
  | some t => match t.op? id with
    | none => s
    | some o => match o.kind with
      | .cline op ls =>
        let r := ls.foldl (fun (acc : State × List (Nat × Nat)) (e : Nat × Nat) =>
          let m := acc.1.maintain t id op e.1 e.2 (o.lines.contains e)
          (m.1, if m.2 then acc.2 else acc.2 ++ [e])) (s, [])
        r.1.modOp troupe id fun o =>
          { o with kind := .cline op r.2, lines := r.2.filter fun e => r.1.isLeaving e.1 e.2 }
      | _ => s

/-- One lane of a store or RED: made, entered in the channel, or, once at `.pool`, performed. -/
def State.performLane (s : State) (troupe id l : Nat) : State :=
  match s.troupe? troupe with
  | none => s
  | some t => match t.op? id with
    | none => s
    | some o => match o.kind.accs.find? fun a => a.lane == l with
      | none => s
      | some a =>
        match a.phase with
        | .performed | .entered => s
        | .made => if s.accPool a then s.setAcc troupe id { a with phase := .performed } else s
        | .issued =>
          if !s.mayMake t o a then s
          else if a.remote t then s.enter t o a
          else match s.make t o a with
            | (s, some b) => s.setAcc troupe id b
            | (s, none) => s

/-- STORE_PERFORMED (R238, R309): lanes of a store or RED, in lane order; or the lines of a CLINE. -/
def execStorePerformed (troupe op : Nat) (lanes : Word) (s : State) : Host.Outcome State Fault Refusal :=
  let isSt := match (s.troupe? troupe).bind fun (t : Troupe) => t.op? op with
    | some (o : Op) => o.cls == OpClass.st | none => false
  .next (if isSt then
    ((((lanesOf lanes).foldl (fun s l => s.performLane troupe op l) s).maintainAll troupe op)).prune troupe
  else s)

/-- The access of a lane that a request in a channel names, while it stands there. -/
def State.enteredAcc (s : State) (troupe op lane : Nat) : Option (Troupe × Op × Acc) :=
  match s.troupe? troupe with
  | none => none
  | some t => match t.op? op with
    | none => none
    | some o => match o.kind.accs.find? fun a => a.lane == lane && a.phase == .entered with
      | some a => some (t, o, a)
      | none => none

/-- Whether a CLINE has a line to maintain still. -/
def State.maintains (s : State) (troupe op home ln : Nat) : Bool :=
  match (s.troupe? troupe).bind fun t => t.op? op with
  | some o => (match o.kind with | .cline _ ls => ls.contains (home, ln) | _ => false)
  | none => false

/-- A line brought into its home slice ahead of use, and into a core's L1 under a new lease where `l1` (R245, R320). A
coherent line is asked for by RdS. -/
def State.fetchLine (s : State) (d c home ln : Nat) (coh l1 : Bool) : State :=
  match s.lineRead home ln coh [] .device true with
  | .ready s l => if l1 && l.st != .i then ({ s with fresh := s.fresh + 1 }).grant d c home ln s.fresh l else s
  | .waits s => s
  | .dead => s

/-- DIE_CHANNEL_DELIVERY (R350): the oldest request of a channel is made at its memory. Those of a path, of an engine and
of a CLINE are made by the step that issues the one or moves the other; one that nobody waits for any more leaves. -/
def execDieChannelDelivery (src dst : Nat) (s : State) : Host.Outcome State Fault Refusal :=
  let k := src * 4 + dst
  match mget [] s.channels k with
  | [] => .next s
  | r :: rest =>
    let pop := fun (s : State) => { s with channels := mset [] s.channels k rest }
    match r with
    | .lane i o l =>
      match s.enteredAcc i o l with
      | none => .next (pop s)
      | some (t, o, a) =>
        match s.makeWith t o a with
        | (s, some b) => .next (pop (s.setAcc t.id o.id b))
        | (s, none) => .next s
    | .mail r =>
      .next (if ((s.troupe? r.troupe).bind fun t => t.path? r.sel).isSome then s else pop s)
    | .engine i o =>
      .next (if ((s.troupe? i).bind fun t => t.ops.find? fun e => e.id == o && !e.done).isSome then s else pop s)
    | .cline i o ln =>
      .next (if s.maintains i o dst ln then s else pop s)
    | .code c ln coh =>
      .next (match s.readCode (.code src c ln) src c dst ln coh with
        | (s, true) => pop s
        | (s, false) => s)
    | .fill c ln coh l1 => .next (pop (s.fetchLine src c dst ln coh l1))

/-! ### LD, ST and the atomics -/

/-- A memory instruction that issues one operation of class `c`, held while its counter reads 63
(R238): `acc` gives the lanes' accesses, `kind` the operation. -/
def runMem (x : Ins) (u : Use) (c : OpClass) (sp : Space) (commit : Bool) (s : State)
    (acc : State → Troupe → Word → Access) (kind : List Acc → OpKind) : Host.Outcome State Fault Refusal :=
  runEff x u s fun s t p act =>
    if Config.counterMax ≤ t.counter s.now c then .hold
    else
      let a := acc s t act
      let s := if commit then s.commitRegion t.id else s
      let s := (s.touchAll t sp a).touchMissing t a.fs
      .done (s.addOp t p c (kind a.accs) act) a.fs

/-- The bytes that a lane's access of a type reaches; a packed type is one 32-bit word (R229, R240). -/
def accBytes (ty : Ty) : Nat :=
  match ty with
  | .s16x2 | .n16x2 | .f16x2 | .bf16x2 => 4
  | ty => ty.width / 8

/-- Base registers of a memory operand: a pair for `.glob`, one register otherwise (R231). -/
def baseUse (x : Ins) (sp : Space) : BitVec 9 × Nat := (x.a, if sp = .glob then 2 else 1)

/-- The value of a register group in a lane, the lowest register in the lowest bits. -/
def groupVal (n : Nat) (rd : Nat → Word) (r : BitVec 9) : Nat :=
  (List.range n).foldl (fun v k => v + (rd (r.toNat + k)).toNat * 2 ^ (32 * k)) 0

/-- LD (R235, R236). -/
def execLd (x : Ins) (ty : Ty) (ord : Order) (sp : Space) (s : State) : Host.Outcome State Fault Refusal :=
  runMem x (Use.lanes [(x.d, ty.regs)] [baseUse x sp]) .ld sp false s
    (fun s t act => s.accesses t x sp (accBytes ty) ⟨true, false, false⟩ act (fun _ => 0) (fun _ => 0))
    (fun as => .load ty ord false x.ch.toNat x.d.toNat as)

/-- ST (R235, R236). -/
def execSt (x : Ins) (ty : Ty) (ord : Order) (sp : Space) (s : State) : Host.Outcome State Fault Refusal :=
  runMem x (Use.lanes [] [(x.d, ty.regs), baseUse x sp]) .st sp (ord != .weak) s
    (fun s t act => s.accesses t x sp (accBytes ty) ⟨false, true, false⟩ act
      (fun l => groupVal ty.regs (t.reg l) x.d) (fun _ => 0))
    (fun as => .store ord false x.ch.toNat (dropLower as))

/-- LDV (R239). -/
def execLdv (x : Ins) (ty : Ty) (sp : Space) (s : State) : Host.Outcome State Fault Refusal :=
  runMem x (Use.lanes [(x.d, ty.regs)] [baseUse x sp]) .ld sp true s
    (fun s t act => s.accesses t x sp (accBytes ty) ⟨true, false, true⟩ act (fun _ => 0) (fun _ => 0))
    (fun as => .load ty .weak true 0 x.d.toNat as)

/-- STV (R239). -/
def execStv (x : Ins) (ty : Ty) (sp : Space) (s : State) : Host.Outcome State Fault Refusal :=
  runMem x (Use.lanes [] [(x.d, ty.regs), baseUse x sp]) .st sp true s
    (fun s t act => s.accesses t x sp (accBytes ty) ⟨false, true, true⟩ act
      (fun l => groupVal ty.regs (t.reg l) x.d) (fun _ => 0))
    (fun as => .store .weak true 0 (dropLower as))

/-- ATOM (R240, R241). -/
def execAtom (x : Ins) (op : AtomOp) (ty : Ty) (σ : Scope) (sp : Space) (s : State) :
    Host.Outcome State Fault Refusal :=
  runMem x (Use.lanes [(x.d, ty.regs)] [(x.b, ty.regs), baseUse x sp]) .ld sp true s
    (fun s t act => s.accesses t x sp (accBytes ty) ⟨false, true, false⟩ act
      (fun l => groupVal ty.regs (t.reg l) x.b) (fun _ => 0))
    (fun as => .atom op ty σ (some x.d.toNat) as)

/-- ATOMC (R241): B is compared, C is written. -/
def execAtomc (x : Ins) (ty : Ty) (σ : Scope) (sp : Space) (s : State) : Host.Outcome State Fault Refusal :=
  runMem x (Use.lanes [(x.d, ty.regs)] [(x.b, ty.regs), (x.c, ty.regs), baseUse x sp]) .ld sp true s
    (fun s t act => s.accesses t x sp (accBytes ty) ⟨false, true, false⟩ act
      (fun l => groupVal ty.regs (t.reg l) x.c) (fun l => groupVal ty.regs (t.reg l) x.b))
    (fun as => .atomc ty σ x.d.toNat as)

/-- RED (R241): as ATOM, with the data in D and nothing returned. -/
def execRed (x : Ins) (op : AtomOp) (ty : Ty) (σ : Scope) (sp : Space) (s : State) :
    Host.Outcome State Fault Refusal :=
  runMem x (Use.lanes [] [(x.d, ty.regs), baseUse x sp]) .st sp true s
    (fun s t act => s.accesses t x sp (accBytes ty) ⟨false, true, false⟩ act
      (fun l => groupVal ty.regs (t.reg l) x.d) (fun _ => 0))
    (fun as => .atom op ty σ none as)

/-! ### FENCE (R242, R243, R332–R336, R347–R350) -/

/-- Whether one write is performed at a scope. -/
def State.writeAt (s : State) (t : Troupe) (σ : Scope) (a : Acc) : Bool :=
  let made := a.phase == .made || a.phase == .performed
  match a.tgt, σ with
  | .pool .., .tr | .pool .., .sec => made
  | .pool .., .pool => made && decide (a.pass ≤ s.now) && s.accPool a
  | .pool .., _ => made && decide (a.pass ≤ s.now)
  | .chip d _, .die => made || (d != t.die && a.phase == .entered)
  | .device .., .dev | .device .., .pool => made
  | .device .., _ => true
  | _, _ => made

/-- Whether an operation's accesses of the kinds in a set are performed at a scope. Bit 0 is reads, bit 1
writes; engine commands have read their registers once they have issued, and mailbox operations are
performed before their path goes on. -/
def State.opAt (s : State) (t : Troupe) (pre : BitVec 4) (σ : Scope) (o : Op) : Bool :=
  match o.kind with
  | .load _ _ _ _ _ as => !pre.getLsbD 0 || as.all fun a => !a.unmade
  | .store _ _ _ as => !pre.getLsbD 1 || as.all (s.writeAt t σ)
  | .atom _ _ _ _ as | .atomc _ _ _ as =>
    (!pre.getLsbD 0 || as.all fun a => !a.unmade) && (!pre.getLsbD 1 || as.all (s.writeAt t σ))
  | .cline op ls =>
    (match op with
      | .inv | .iinv => !pre.getLsbD 0
      | .wb | .wbinv => !pre.getLsbD 1) || ls == []
  | _ => true

/-- Whether a fence with the set `pre` at scope σ need not wait (R242, R347); at `.die` or wider its path's ring records
count as writes (R226, R334). -/
def State.fenceOk (s : State) (t : Troupe) (p : Path) (pre : BitVec 4) (σ : Scope) : Bool :=
  let wide := σ != .tr && σ != .sec
  ((t.ops.filter fun o => o.own.contains p.sel).all fun o => s.opAt t pre σ o) &&
    (!(pre.getLsbD 1 && wide && σ != .ens) || t.recs.all fun r => !r.own.contains p.sel) &&
    (!(pre.getLsbD 0 && wide) || decide (p.rdPass ≤ s.now)) &&
    (!(pre.getLsbD 0 && σ == .pool) || p.rdShared.all fun k => !s.openByte k)

/-- A fence that orders reads before reads dates the path's earlier reads (R330). -/
def Path.fenced (p : Path) (pre post : BitVec 4) : Path :=
  if pre.getLsbD 0 && post.getLsbD 0 then { p with marks := mergeMax p.marks p.reads } else p

/-- FENCE (R242): the path waits until its predecessors are performed. -/
def execFence (x : Ins) (pre post : BitVec 4) (σ : Scope) (s : State) : Host.Outcome State Fault Refusal :=
  let u := Use.none_
  match s.gate x u with
  | .nobody => .fault .noIssuer
  | .empty t p => .next ((s.start t p x u).advance (refOf t p))
  | .fault t p m c => .next ((s.start t p x u).faultWord (refOf t p) (faultAll m c 0))
  | .go t p act bad =>
    let s := s.start t p x u
    let r := refOf t p
    if act = 0 then .next (s.finish r bad)
    else
      let s := if pre.getLsbD 1 && σ != .tr then s.commitRegion t.id else s
      if s.fenceOk t p pre σ then .next ((s.modPath r fun p => p.fenced pre post).finish r bad)
      else .next (s.waitAt r (.fence pre post σ act) bad)

/-- FENCE_RELEASE (R242): a waiting fence whose predecessors are performed lets its path go on. -/
def execFenceRelease (r : PathRef) (s : State) : Host.Outcome State Fault Refusal :=
  match s.troupe? r.troupe with
  | none => .next s
  | some t => match t.path? r.sel with
    | none => .next s
    | some p => match p.wait with
      | .fence pre post σ _ =>
        if s.fenceOk t p pre σ then .next (((s.modPath r fun p => p.fenced pre post).advance r).prune t.id)
        else .next s
      | _ => .next s

/-! ### CLINE and PFD (R244, R245) -/

/-- CLINE (R244): lanes that name one line act once. -/
def execCline (x : Ins) (op : LineOp) (s : State) : Host.Outcome State Fault Refusal :=
  runEff x (Use.lanes [] [(x.a, 2)]) s fun s t p act =>
    if Config.counterMax ≤ t.counter s.now .st then .hold
    else
      let w : Need := ⟨false, op == .wb || op == .wbinv, false⟩
      let a := s.accesses t x .glob 0 w act (fun _ => 0) (fun _ => 0)
      let s := (s.touchAll t .glob a).touchMissing t a.fs
      let ls := a.accs.filterMap fun c => match c.tgt with | .pool h pa _ => some (h, pa / 128) | _ => none
      .done (s.addOp t p .st (.cline op ls.dedup) act) a.fs

/-- A prefetch of a line, under its hint (R237, R245, R320): at its home slice, by the channel where that is another
die's (R350). -/
def State.prefetchLine (s : State) (t : Troupe) (home ln : Nat) (k : PageKind) (l1 keep : Bool) : State :=
  if !keep && (s.line? home ln).isNone then s
  else if home = t.die then s.fetchLine t.die t.core home ln (k == .coherent) l1
  else s.sendChan t.die home (.fill t.core ln (k == .coherent) l1) t.rank

/-- PFD (R245): a lane's request, dropped and counted where the page does not translate yet, is a device
page, or the address is no multiple of 4. -/
def execPfd (x : Ins) (s : State) : Host.Outcome State Fault Refusal :=
  runWord x (Use.lanes [] [(x.a, 2)]) s fun s t _ act =>
    (lanesOf act).foldl (fun s l =>
      let va := laneAddr .glob x (t.reg l)
      let drop := s.countCore t.die t.core 0x10 1
      match s.page? (s.sidOf t) va, s.translate (s.sidOf t) t.die va with
      | some (_, q), .ok h pa p =>
        if p.kind = .device ∨ q.translated t.die = false ∨ va % 4 ≠ 0 then drop
        else s.prefetchLine t h (pa / 128) p.kind (x.ch != 3 && x.ch != 5) (x.ch != 5)
      | _, _ => drop) s

/-- LEASE_EXPIRY (R307): an ended lease's copy leaves the L1. -/
def execLeaseExpiry (die core line : Nat) (s : State) : Host.Outcome State Fault Refusal :=
  .next (match mfind (s.core die core).l1 line with
    | some q => if q.lease ≤ s.now then
        s.modCore die core fun C => { C with l1 := mdel line C.l1 } else s
    | none => s)

end Sys2Proof.Machine
end

