-- ==== Sys2Proof/Machine/Mailbox.lean ====
section
/-! DEFINITION. Mailbox words (R246–R249), with the Waiting commands and Draining signals that touch them
(R364–R367), and LDWP (R250). -/

namespace Sys2Proof.Machine

/-- A mailbox word at reset: empty, holding 0 (R246). -/
def MailboxWord.empty : MailboxWord := { full := false, value := 0, waiters := [] }

/-- The word at a mailbox address (R246). -/
def State.word (s : State) (a : Nat) : MailboxWord :=
  mget MailboxWord.empty (s.die (a / 65536 % 4)).mbox (a % 65536)

/-- A word changed. -/
def State.modWord (s : State) (a : Nat) (f : MailboxWord → MailboxWord) : State :=
  s.modDie (a / 65536 % 4) fun D =>
    { D with mbox := mset MailboxWord.empty D.mbox (a % 65536) (f (mget MailboxWord.empty D.mbox (a % 65536))) }

/-- A word filled. -/
def MailboxWord.fill (w : MailboxWord) (v : DWord) : MailboxWord := { w with full := true, value := v }

/-- A word emptied; its value stays. -/
def MailboxWord.drain (w : MailboxWord) : MailboxWord := { w with full := false }

/-- Whether a launch may reach a mailbox address (R246, R364): its allotted words on its permitted dies,
and the words of its GRANT list. -/
def Launch.mayReach (l : Launch) (a : Nat) : Bool :=
  decide (a < 2 ^ 18) && (l.grants.contains a ||
    (decide (l.mboxFirst ≤ a % 65536 ∧ a % 65536 < l.mboxFirst + l.mboxCount) && l.dies.getLsbD (a / 65536)))

/-! ### Commands that stand in their queues (R361, R363–R366) -/

/-- A little-endian field of a message (R360). -/
def fld (m : List Byte) (o n : Nat) : Nat := leNat ((m.drop o).take n)

/-- The 32 bytes of a record (R363): TAG, SEQ, QUEUE, KIND, STATUS, a reserved byte 0, DETAIL0 and DETAIL1. -/
def Record.bytes (r : Record) : List Byte :=
  leBytes 8 r.tag.toNat ++ leBytes 4 r.seq ++ leBytes 1 r.queue ++ leBytes 1 r.kind ++ leBytes 1 r.status ++ [0] ++
    leBytes 8 r.detail0.toNat ++ leBytes 8 r.detail1.toNat

/-- A record about a command (R363). -/
def State.record (s : State) (c : Command) (kind status : Nat) (d0 d1 : DWord) : State :=
  s.send { sid := c.sid, tag := c.tag, seq := c.seq, queue := c.queue, kind := kind, status := status,
           detail0 := d0, detail1 := d1 }

/-- A queue of a submitter changed. -/
def State.modQueue (s : State) (sid q : Nat) (f : CmdQueue → CmdQueue) : State :=
  s.modSub sid fun u => { u with queues := u.queues.map fun k => if k.num = q then f k else k }

/-- A command leaves its queue's order, and the words at which it waits. -/
def State.leaveQueue (s : State) (c : Command) : State :=
  c.waits.foldl (fun s w => s.modWord w.addr fun m => { m with waiters := m.waiters.erase (.start c.id) })
    (s.modQueue c.sid c.queue fun q => { q with cmds := q.cmds.filter fun i => i != c.id })

/-- Whether a mailbox address names a dependency word granted to a submitter (R364). -/
def State.granted (s : State) (sid a : Nat) : Bool :=
  decide (a < 2 ^ 18 ∧ a % 65536 < Config.mboxFirst) &&
    mfind (s.die (a / 65536)).depOwner (a % 65536) == some sid

/-- The granted words that a launch body lists (R362). -/
def grantList (m : List Byte) : List Nat := (List.range (fld m 0xA5 1)).map fun k => fld m (0xB0 + 4 * k) 4

/-- The first wait, signal or grant of a command that names a word not granted to its submitter. -/
def State.badAddr (s : State) (c : Command) : Option Nat :=
  (c.waits.map WaitEntry.addr ++ c.sigs.map SignalEntry.addr ++ (if c.op = 1 then grantList c.msg else [])).find?
    fun a => !s.granted c.sid a

/-- Whether a command may become Waiting: the head of its queue is Arrived, and with ORDERED the command before
it is Complete (R365). -/
def State.mayWait (s : State) (c : Command) : Bool :=
  c.st == .arrived &&
    (match s.sub? c.sid with
      | some (u : Submitter) => u.queues.any fun q => q.num == c.queue && q.cmds.head? == some c.id
      | none => false) &&
    (!c.ordered || (match c.prev.bind s.cmd? with | some (d : Command) => d.st == .complete | none => true))

/-- A command becomes Waiting, and from then on it waits at the words of its entries, in order with the other
waiters there; or it is Complete with status 0x09 where an address is not granted, and makes no signals (R365,
R366, R367). -/
def State.promote (s : State) (c : Command) : State :=
  match s.badAddr c with
  | none =>
    c.waits.foldl (fun s w => s.modWord w.addr fun m =>
        if m.waiters.contains (.start c.id) then m else { m with waiters := m.waiters ++ [.start c.id] })
      (s.modCmd c.id fun c => { c with st := .waiting })
  | some a =>
    let d := BitVec.ofNat 64 a
    (((s.leaveQueue c).modCmd c.id fun c =>
      { c with st := .complete, effect := true, status := 0x09, detail0 := d })).record c 0 0x09 d 0

/-- Whether every wait entry of a command holds at this moment (R365). -/
def State.waitsHold (s : State) (c : Command) : Bool := c.waits.all fun w => (s.word w.addr).full == w.want

/-- The commands that recovery mode takes (R431). -/
def recoveryOps : List Nat := [0x20, 0x21, 0x25, 0x28, 0x29, 0x2E]

/-- Whether a command may start: none but ATTEST while a hand-over runs, and none but those of recovery mode
while the device is frozen (R435, R436, R441). -/
def State.mayStart (s : State) (c : Command) : Bool :=
  (s.fw.committing.isNone || c.op == 0x21) && (!s.fw.frozen || recoveryOps.contains c.op)

/-- The words that a command's CONSUME entries name, each once (R365). -/
def Command.consumed (c : Command) : List Nat :=
  ((c.waits.filter WaitEntry.consume).map WaitEntry.addr).dedup

/-- A command starts and leaves its queue: the words of its CONSUME entries flip in the same step (R365). -/
def State.startCmd (s : State) (c : Command) : State :=
  let n := s.fresh
  let s := c.consumed.foldl (fun s a => s.modWord a fun m => { m with full := !m.full }) { s with fresh := n + 1 }
  (s.leaveQueue c).modCmd c.id fun c => { c with st := .started, startedAt := n }

/-- The place of a command among those tested in one clock: by its queue, then its submitter (R366). -/
def Command.rank (c : Command) : Nat := c.queue * 2 ^ 32 + c.sid

/-- Control core 1 tests a command's words, after the signals of the clock and before the requests of troupes, and commands
in the order of their queue and submitter (R248, R366, R379). -/
def State.startTurn (s : State) (c : Command) : State :=
  c.waits.foldl (fun s w => s.takes (.word w.addr) 1) (s.takes .start c.rank)

/-- Whether a command may start now. -/
def State.canStart (s : State) (c : Command) : Bool := c.st == .waiting && s.mayStart c && s.waitsHold c

/-- What a waiter asks of its word: to fill it with a value, to take it, or to start with all of its entries. -/
inductive MailWant where
  | put (v : DWord)
  | get
  | start (c : Command)
  | gone
  deriving DecidableEq, Repr

/-- What a waiter at a word still wants: nothing where its path or command waits there no more. Paths of a frozen device are
not served (R441). -/
def State.wantOf (s : State) (a : Nat) (w : Waiter) : MailWant :=
  match w with
  | .path r =>
    match if s.fw.frozen then none else (s.troupe? r.troupe).bind fun (t : Troupe) => t.path? r.sel with
    | some (p : Path) => match p.wait with
      | .mbput b v => if b = a then .put v else .gone
      | .mbget b _ _ => if b = a then .get else .gone
      | _ => .gone
    | none => .gone
  | .signal id =>
    match s.cmd? id with
    | some (c : Command) => match c.st, c.sigs[c.sigs.length - c.sigsLeft]? with
      | .draining, some g => if g.addr = a then .put g.value else .gone
      | _, _ => .gone
    | none => .gone
  | .start id => match s.cmd? id with
    | some c => .start c
    | none => .gone

/-- The bytes of a mailbox operation counted (R398). -/
def State.mailTraffic (s : State) (d a : Nat) (write : Bool) : State := s.traffic d (a / 65536 % 4) 8 write

/-- A waiter served at a word whose state allows it. -/
def State.serveWaiter (s : State) (a : Nat) (w : Waiter) : State :=
  let s := s.modWord a fun m => { m with waiters := m.waiters.erase w }
  match w with
  | .path r =>
    match s.troupe? r.troupe with
    | none => s
    | some t => match t.path? r.sel with
      | none => s
      | some p => match p.wait with
        | .mbput _ v => ((s.modWord a fun m => m.fill v).mailTraffic t.die a true).advance r
        | .mbget _ d ls =>
          let x := (s.word a).value
          (((s.modWord a MailboxWord.drain).mailTraffic t.die a false).writeLanes t.id ls fun _ =>
            wr2 (BitVec.ofNat 9 d) x).advance r
        | _ => s
  | .signal id =>
    match s.cmd? id with
    | none => s
    | some c => match c.sigs[c.sigs.length - c.sigsLeft]? with
      | some g => (s.modWord a fun m => m.fill g.value).modCmd id fun c => { c with sigsLeft := c.sigsLeft - 1 }
      | none => s
  | .start id => match s.cmd? id with
    | some c => s.startCmd c
    | none => s

/-- The first waiter that a word's state allows, in the order in which they began to wait (R248). -/
def State.nextWaiter (s : State) (a : Nat) : Option Waiter :=
  let m := s.word a
  m.waiters.find? fun w => match s.wantOf a w with
    | .put _ => !m.full
    | .get => m.full
    | .start c => s.canStart c
    | .gone => false

/-- The words of every die that have waiters. -/
def State.waitedWords (s : State) : List Nat :=
  (List.range 4).flatMap fun d => ((s.die d).mbox.filter fun e => e.2.waiters != []).map fun e => d * 65536 + e.1

/-- The Waiting command that starts next: of those whose entries all hold, the one of the lowest queue number, and
then of the lowest submitter number (R366). -/
def State.nextCommand (s : State) : Option Command :=
  (s.cmds.filter fun c => s.canStart c &&
      c.waits.any fun w => (s.word w.addr).waiters.contains (.start c.id)).foldl (fun b c => match b with
    | none => some c
    | some d => if c.queue < d.queue ∨ (c.queue = d.queue ∧ c.sid < d.sid) then some c else some d) none

/-- A step of service: the first waiter that its word allows is served, and where these are commands alone, the
first of the commands starts. -/
def State.serveOne (s : State) : Option State :=
  match s.waitedWords.find? fun a => match s.nextWaiter a with
    | none | some (.start _) => false
    | some _ => true with
  | some a => (s.nextWaiter a).map (s.serveWaiter a)
  | none => s.nextCommand.map fun c =>
    (c.waits.foldl (fun s w => s.modWord w.addr fun m => { m with waiters := m.waiters.erase (.start c.id) })
      (s.notes .start c.rank)).startCmd c

/-- Service until nothing more may be served (R248). -/
def State.serveLoop (s : State) : Nat → State
  | 0 => s
  | n + 1 => match s.serveOne with
    | some s => State.serveLoop s n
    | none => s

/-- Every command and waiter that the words' states now allow is served, before any operation that reaches a
word later (R248, R366). -/
def State.serveMail (s : State) : State :=
  s.serveLoop (s.waitedWords.map fun a => (s.word a).waiters.length).sum

/-- A mailbox operation of a path passes the channel to its word's die (R350). -/
def State.passMail (s : State) (t : Troupe) (p : Path) (a : Nat) : State × Bool :=
  s.passChan t.die (a / 65536) (.mail (refOf t p)) t.rank

/-- The checks that every mailbox operation shares: where they pass, `f` continues; `a` is the address. On another
die's word the operation first stands in the channel, and its path's head waits (R247, R350). At its word it comes after
the control cores, and by die, core, partition and slot (R248). -/
def runMail (x : Ins) (u : Use) (s : State) (addr : Troupe → Word → Nat)
    (f : State → Troupe → Path → Word → Nat → State) : Host.Outcome State Fault Refusal :=
  match s.gate x u with
  | .nobody => .fault .noIssuer
  | .empty t p => .next ((s.start t p x u).advance (refOf t p))
  | .fault t p m c => .next ((s.start t p x u).faultWord (refOf t p) (faultAll m c 0))
  | .go t p act _ =>
    let a := addr t act
    let ok := match s.launchOf t.ens with | some l => l.mayReach a | none => false
    if !ok then .next ((s.start t p x u).faultWord (refOf t p) (faultAll act 0x18 0))
    else match s.passMail t p a with
      | (s, false) => .next (s.holdHead (refOf t p))
      | (s, true) => .next (f (((s.takes (.word a) (t.rank + 2)).start t p x u).commitRegion t.id) t p act a).serveMail

/-- MBPUT (R247): the data pair stands in B. -/
def execMbput (x : Ins) (first : Bool) (s : State) : Host.Outcome State Fault Refusal :=
  runMail x (Use.cmd [] [(x.a, 1), (x.b, 2)] first) s (fun t act => (uni t act x.a).toNat)
    fun s t p act a =>
      let v := uniPair t act x.b
      if (s.word a).full then
        (s.modPath (refOf t p) fun p => { p with wait := .mbput a v }).modWord a fun m =>
          { m with waiters := m.waiters ++ [.path (refOf t p)] }
      else ((s.modWord a fun m => m.fill v).mailTraffic t.die a true).advance (refOf t p)

/-- The address of MBGET and MBTRY.get: A, or IMM32 (R229). -/
def mailAddr (x : Ins) (t : Troupe) (act : Word) : Nat :=
  if x.fmt = .f00 then (uni t act x.a).toNat else x.imm.toNat

/-- The uniform operands of MBGET and MBTRY.get. -/
def mailUse (x : Ins) (first : Bool) (n : Nat) : Use :=
  Use.cmd [(x.d, n)] (if x.fmt = .f00 then [(x.a, 1)] else []) first

/-- MBGET (R247). -/
def execMbget (x : Ins) (first : Bool) (s : State) : Host.Outcome State Fault Refusal :=
  runMail x (mailUse x first 2) s (mailAddr x) fun s t p act a =>
    if (s.word a).full then
      let v := (s.word a).value
      (((s.modWord a MailboxWord.drain).mailTraffic t.die a false).writeLanes t.id act fun _ =>
        wr2 x.d v).advance (refOf t p)
    else
      (s.modPath (refOf t p) fun p => { p with wait := .mbget a x.d.toNat act }).modWord a fun m =>
        { m with waiters := m.waiters ++ [.path (refOf t p)] }

/-- MBTRY.get (R247). -/
def execMbtryGet (x : Ins) (first : Bool) (s : State) : Host.Outcome State Fault Refusal :=
  runMail x (mailUse x first 4) s (mailAddr x) fun s t p act a =>
    let m := s.word a
    let s := if m.full then
        ((s.modWord a MailboxWord.drain).mailTraffic t.die a false).mailTraffic t.die a true else s
    let v := if m.full then m.value else 0
    (s.writeLanes t.id act fun _ =>
      wr2 x.d v ++ [(x.d.toNat + 2, flag m.full), (x.d.toNat + 3, 0)]).advance (refOf t p)

/-- MBTRY.put (R247). -/
def execMbtryPut (x : Ins) (first : Bool) (s : State) : Host.Outcome State Fault Refusal :=
  runMail x (Use.cmd [(x.d, 1)] [(x.a, 1), (x.b, 2)] first) s (fun t act => (uni t act x.a).toNat)
    fun s t p act a =>
      let m := s.word a
      let s := if m.full then s
        else ((s.modWord a fun m => m.fill (uniPair t act x.b)).mailTraffic t.die a false).mailTraffic t.die a true
      (s.writeLanes t.id act fun _ => wr1 x.d (flag (!m.full))).advance (refOf t p)

/-! ### LDWP (R250) -/

/-- The pool lines of an engine range, as home dies and line numbers. -/
def State.linesOf (s : State) (t : Troupe) (va n : Nat) : List (Nat × Nat) :=
  if n = 0 then []
  else (List.range ((va % 128 + n + 127) / 128)).filterMap fun j =>
    match (s.engineTarget t (va - va % 128 + 128 * j)).2 with
    | some (.pool h pa _) => some (h, pa / 128)
    | _ => none

/-- The latest pass time among the writes that the bytes of an engine range hold, and those of its coherent bytes that
stand accepted and not yet at `.pool` (R347, R356, R357). -/
def State.rangeSeen (s : State) (t : Troupe) (va n : Nat) : Nat × List Nat :=
  if n = 0 then (0, [])
  else (List.range ((va % 128 + n + 127) / 128)).foldl (fun r j =>
    let b := va - va % 128 + 128 * j
    let lo := max va b - b
    let k := min (va + n) (b + 128) - b - lo
    match (s.engineTarget t b).2 with
    | some (.pool h pa _) =>
      (match s.line? h (pa / 128) with
        | some l => (max r.1 (passOf l.passes lo k), nunion r.2 (l.open_ h (pa / 128) lo k))
        | none => r)
    | _ => r) (0, [])

/-- LDWP (R250, R357): the path waits until %wpk has reached the threshold, and observes the units below it. -/
def execLdwp (x : Ins) (first : Bool) (s : State) : Host.Outcome State Fault Refusal :=
  let un := (x.a, 1) :: if x.fmt = .f00 then [(x.b, 1)] else []
  runEff x (Use.cmd [(x.d, 1)] un first) s fun s t p act =>
    let k := (uni t act x.a).toNat
    let n := if x.fmt = .f00 then uni t act x.b else x.imm
    if (s.headerOf t).chan ≤ k then .done s (faultAll act 0x0B 0)
    else
      let wp := lget 0 (s.sect t.ens t.sec).wp k
      if wp.toNat < n.toNat then .hold
      else
        let seen := s.rangeSeen t (lget 0 (s.sect t.ens t.sec).dests k) wp.toNat
        let s := s.modPath (refOf t p) fun p =>
          { p with rdPass := max p.rdPass seen.1, rdShared := nunion p.rdShared seen.2 }
        .done (s.writeLanes t.id act fun _ => wr1 x.d wp) []

end Sys2Proof.Machine
end

