-- ==== Sys2Proof/Machine/Matrix.lean ====
section
/-! DEFINITION. The matrix and tile instructions (R262–R281): the tile store, the format block, MMA and
MMAE with their rows and deferred faults, TZERO, TLD, TST, TMOVR and TMOVT. -/

namespace Sys2Proof.Machine

/-! ### The tile store (R266–R269) -/

/-- Bytes of a troupe's tile window (R266). -/
def tileWindow (troupes : Nat) : Nat :=
  let p := (troupes + 3) / 4
  Config.tileBytes / (if p ≤ 1 then 1 else if p ≤ 2 then 2 else if p ≤ 4 then 4 else if p ≤ 8 then 8 else 16)

/-- The window of a troupe. -/
def State.windowOf (s : State) (t : Troupe) : Nat := tileWindow (s.headerOf t).troupes

/-- A word of a tile. -/
def Troupe.tileWord (t : Troupe) (off : Nat) : Nat := t.tile.nat off 4

/-- Whether a range of a troupe's tile holds an uncorrectable error (R407). -/
def State.tileBad (s : State) (id off n : Nat) : Bool :=
  s.errs.any fun e => match e with
    | .tile x o => x == id && decide (off ≤ o ∧ o < off + n)
    | _ => false

/-- Bytes written to a troupe's tile; what they replace is gone, an error included. -/
def State.tileWrite (s : State) (id off : Nat) (bs : List Byte) : State :=
  { s.modTroupe id fun t => { t with tile := t.tile.write off bs } with
    errs := s.errs.filter fun e => match e with
      | .tile x o => !(x == id && decide (off ≤ o ∧ o < off + bs.length))
      | _ => true }

/-- The ranges of the tile that an operation touches (R268, R269). -/
def OpKind.tileRanges : OpKind → List (Nat × Nat)
  | .mma w => w.quarters.map fun q => (w.t + 4 * q.q * w.fb.m * w.fb.n, 4 * w.fb.m * w.fb.n)
  | .tzero off n _ => [(off, n)]
  | .tld _ fb t _ _ qs _ | .tst _ _ _ fb t _ _ qs _ =>
    qs.map fun q => (t + 4 * q.q * fb.m * fb.n, 4 * fb.m * fb.n)
  | .tmovr _ cells => cells.map fun c => (c.2, 4)
  | _ => []

/-- Whether two lists of ranges have a byte in common. -/
def rangesMeet (a b : List (Nat × Nat)) : Bool :=
  a.any fun x => b.any fun y => decide (x.1 < y.1 + y.2 ∧ y.1 < x.1 + x.2)

/-- Whether the operations of a list that have not taken effect leave a range free (R268). -/
def tileFree (ops : List Op) (rs : List (Nat × Nat)) : Bool :=
  !ops.any fun e => !e.done && e.ends.isNone && rangesMeet e.kind.tileRanges rs

/-- Whether the earlier operations of a troupe leave the ranges of an operation free. -/
def Troupe.tileReady (t : Troupe) (o : Op) : Bool :=
  tileFree (t.ops.takeWhile fun e => e.id != o.id) o.kind.tileRanges

/-! ### The format block (R270, R271) -/

/-- The type of a five-bit type code (R149, R270). -/
def tyOfByte (b : Nat) : Option Ty := if b < 32 then Ty.ofCode (decide (16 ≤ b)) (BitVec.ofNat 4 b) else none

/-- A format block from its 128 bytes, where every field lies within its limits and every reserved byte is
0 (R271). -/
def formatBlock (bs : List Byte) : Option FormatBlock :=
  let f := fun (o n : Nat) => leNat ((bs.drop o).take n)
  match tyOfByte (f 0x40 1), tyOfByte (f 0x41 1) with
  | some a, some b =>
    let fb : FormatBlock :=
      { abase := f 0x00 8, bbase := f 0x08 8, ascl := f 0x10 8, bscl := f 0x18 8, aband := f 0x20 8,
        bband := f 0x28 8, lda := f 0x30 4, ldb := f 0x34 4, ldsa := f 0x38 4, ldsb := f 0x3C 4,
        afmt := a, bfmt := b, blk := f 0x42 1, m := f 0x43 1, n := f 0x44 2, k := f 0x48 4 }
    if fb.abase % 16 = 0 ∧ fb.bbase % 16 = 0 ∧ fb.aband % 2 = 0 ∧ fb.bband % 2 = 0 ∧ fb.lda % 16 = 0 ∧
        fb.ldb % 16 = 0 ∧ [8, 16, 32].contains fb.blk ∧ [8, 16, 32].contains fb.m ∧
        [16, 32, 64, 128].contains fb.n ∧ 32 ≤ fb.k ∧ fb.k ≤ 65536 ∧ f 0x46 2 = 0 ∧ f 0x4C 52 = 0
    then some fb else none
  | _, _ => none

/-- The narrow float formats, which take block scales (R134, R272). -/
def narrow (ty : Ty) : Bool := ty == .e2m1 || ty == .e3m2 || ty == .e2m3 || ty == .e4m3 || ty == .e5m2

/-- Whether R272 takes the formats and scales of a block for a semiring. -/
def semiringTakes (sr : Semiring) (fb : FormatBlock) : Bool :=
  let plain := fb.ascl == 0 && fb.bscl == 0 && fb.aband == 0 && fb.bband == 0
  let wide := fun (t : Ty) => t == .f32 || t == .bf16 || t == .f16
  let int8 := fun (t : Ty) => t == .s8 || t == .n8
  match sr with
  | .ptimes => (narrow fb.afmt && narrow fb.bfmt) ||
      (plain && ((fb.afmt == fb.bfmt && (fb.afmt == .bf16 || fb.afmt == .f16)) ||
        (int8 fb.afmt && int8 fb.bfmt)))
  | .orand => plain && fb.afmt == .b32 && fb.bfmt == .b32
  | _ => plain && wide fb.afmt && wide fb.bfmt

/-- The checks of K and k0 for MMA and MMAE (R271). -/
def kOk (fb : FormatBlock) (k0 : Nat) : Bool :=
  let step := if fb.afmt = .e2m1 ∨ fb.bfmt = .e2m1 then 64 else 32
  fb.k % step == 0 && k0 % step == 0 && ((fb.ascl == 0 && fb.bscl == 0) || k0 % fb.blk == 0)

/-- ROWSq of %mrow (R110). -/
def rowsOf (m : Word) (q : Nat) : Nat := (m.extractLsb' (8 * q) 8).toNat

/-- %mrow with ROWSq set. -/
def setRows (m : Word) (q n : Nat) : Word :=
  (m &&& ~~~((255 : Word) <<< (8 * q))) ||| ((BitVec.ofNat 32 (n % 256)) <<< (8 * q))

/-- The quarters with a lane of a mask, with their uniform coordinates and first rows (R264, R265). -/
def quartersOf (t : Troupe) (act : Word) (a : BitVec 9) : List Quarter :=
  ((List.range 4).filter fun q => quarterOf act (8 * q) != 0).map fun q =>
    let v := t.reg (lowest (quarterOf act (8 * q))) a.toNat
    { q := q, m0 := (v.extractLsb' 0 16).toNat, n0 := (v.extractLsb' 16 16).toNat, start := rowsOf (t.mrowOld.getD t.mrow) q }

/-- Whether the ranges of issuing quarters lie in the window (R267). -/
def windowFits (w t : Nat) (fb : FormatBlock) (qs : List Quarter) : Bool :=
  t % 16 == 0 && qs.all fun q => decide (t + 4 * (q.q + 1) * fb.m * fb.n ≤ w)

/-- How the read of a format block ends: a fault of the issue, a hold, a wait for the line, or the block's
bytes. -/
inductive BlockGot where
  | fault (s : State) (code : Nat)
  | hold
  | waits (s : State)
  | bytes (s : State) (bs : List Byte)
  deriving DecidableEq, Repr

/-- The format block read once at issue, as a weak read of the path, which passes the channel to another die (R271,
R350, R354). An uncorrectable error is counted and logged. -/
def State.readBlock (s : State) (t : Troupe) (p : Path) (va : Nat) : BlockGot :=
  match s.translate (s.sidOf t) t.die va with
  | .ok h pa q =>
    if q.kind = .device ∨ q.r = false then .fault (s.touchPage (s.sidOf t) va t.die) 0x08
    else
      let r := refOf t p
      let ln := pa / 128
      let a : Acc := { lane := 0, va := va, tgt := .pool h pa q.kind, size := 128, mask := 0, data := 0, cmpv := 0,
                       phase := .issued, pass := 0, bad := false }
      if t.ops.any fun o => o.own.contains p.sel && o.kind.writes && o.kind.accs.any fun b => b.unmade && b.meets a
      then .hold
      else
        match (s.touchPage (s.sidOf t) va t.die).passChan t.die h (.mail r) t.rank with
        | (s, false) => .waits s
        | (s, true) =>
          match s.lineRead h ln (q.kind == PageKind.coherent) (lineOffs 0 128) (.path r) true with
          | .waits s => .waits s
          | .dead => .fault (s.logFound h t.die t.core va) 0x13
          | .ready s l =>
            if s.errs.contains (.line h ln) then .fault (s.logFound h t.die t.core va) 0x13
            else
              let k := l1Key h ln
              let s : State := (({ s with fresh := s.fresh + 1 } : State).traffic t.die h 128 false).modPath r fun p =>
                { p with rdPass := max p.rdPass (passOf l.passes 0 128),
                         reads := mput k (max (mget 0 p.reads k) s.fresh) p.reads,
                         rdShared := nunion p.rdShared (l.open_ h ln 0 128) }
              .bytes (s.dropOnce h ln (.path r) false) (l.read 0 128)
  | _ => .fault (s.touchAbsent (s.sidOf t) va) 0x07

/-! ### Issue -/

/-- The oldest tm operation of a troupe that holds a deferred fault of R275. -/
def Troupe.tileFault (t : Troupe) : Option (Op × DeferredFault) :=
  match t.ops.find? fun o => o.cls == OpClass.tm && o.done && o.fault.isSome with
  | some o => match o.fault with | some f => some (o, f) | none => none
  | none => none

/-- A deferred fault leaves its operation. -/
def State.clearFault (s : State) (id op : Nat) : State := s.modOp id op fun o => { o with fault := none }

/-- MMA, MMAE, TZERO, TLD and TST: the checks, a deferred fault to be taken first (R275), the hold at 63
(R282), then `f`. -/
def runTile (x : Ins) (u : Use) (s : State) (f : State → Troupe → Path → Word → Eff) :
    Host.Outcome State Fault Refusal :=
  match (match s.gate x u with
    | .go t p act _ => t.tileFault.map fun d => (t, p, act, d)
    | _ => none) with
  | some (t, p, act, (o, d)) =>
    .next (((s.start t p x u).clearFault t.id o.id).faultDeferred (refOf t p) act d.code d.addr o.pc [])
  | none =>
    runEff x u s fun s t p act =>
      if Config.counterMax ≤ t.counter s.now .tm then .hold else f s t p act

/-- The format block at an address, checked; `f` continues with it. -/
def withBlock (s : State) (t : Troupe) (p : Path) (act : Word) (addr : Nat)
    (f : State → FormatBlock → Eff) : Eff :=
  if addr % 128 ≠ 0 then .done s (faultAll act 0x16 addr)
  else match s.readBlock t p addr with
    | .fault s c => .done s (faultAll act c addr)
    | .hold => .hold
    | .waits s => .wait s
    | .bytes s bs => match formatBlock bs with
      | none => .done s (faultAll act 0x16 addr)
      | some fb => f s fb

/-- The operands of MMA and MMAE (R262). -/
def mmaUse (x : Ins) (first : Bool) : Use :=
  { wr := [], rd := [], un := [(x.d, 1), (x.b, 1), (x.c, 2)], first := first, whole := true, qu := [(x.a, 1)] }

/-- The checks of R271 for MMA and MMAE, and the work that then issues. -/
def mmaChecked (x : Ins) (sr : Semiring) (s : State) (t : Troupe) (p : Path) (act : Word)
    (f : State → MmaWork → Eff) : Eff :=
  let addr := (uniPair t act x.c).toNat
  withBlock s t p act addr fun s fb =>
    let k0 := (uni t act x.b).toNat
    let qs := quartersOf t act x.a
    let base := (uni t act x.d).toNat
    if semiringTakes sr fb && kOk fb k0 && (qs.all fun q => decide (q.start ≤ fb.m)) &&
        windowFits (s.windowOf t) base fb qs
    then f s { sr := sr, fbAddr := addr, fb := fb, t := base, k0 := k0, quarters := qs }
    else .done s (faultAll act 0x16 addr)

/-- MMA (R273). -/
def execMma (x : Ins) (sr : Semiring) (first : Bool) (s : State) : Host.Outcome State Fault Refusal :=
  runTile x (mmaUse x first) s fun s t p act =>
    mmaChecked x sr s t p act fun s w => .done (s.addOp t p .tm (.mma w) act) []

/-! ### MMAE (R277, R278) -/

/-- The work with which a troupe waits at its join: the path, the work (none for an empty active(i)) and
the lanes. -/
def Troupe.joining (t : Troupe) : Option (Path × Option MmaWork × Word) :=
  match t.paths.find? fun (p : Path) => match p.wait with | .mmae _ _ => true | _ => false with
  | some p => match p.wait with
    | .mmae w ls => some (p, w, ls)
    | _ => none
  | none => none

/-- Whether two participants agree (R277). -/
def worksAgree (a b : MmaWork) : Bool :=
  a.fbAddr == b.fbAddr && a.k0 == b.k0 && a.sr == b.sr &&
    a.quarters.all fun q => b.quarters.all fun r => q.q != r.q || q.m0 == r.m0

/-- The participants of a join: the troupes of one number, one in each section. -/
def State.joiners (s : State) (ens idx : Nat) : List Troupe :=
  s.troupes.filter fun t => t.ens == ens && t.idx == idx

/-- The work of a participant whose active(i) is empty: it computes nothing, and counts in tm (R278). -/
def MmaWork.empty : MmaWork :=
  { sr := .ptimes, fbAddr := 0, t := 0, k0 := 0, quarters := []
    fb := { abase := 0, bbase := 0, ascl := 0, bscl := 0, aband := 0, bband := 0, lda := 0, ldb := 0, ldsa := 0,
            ldsb := 0, afmt := .b32, bfmt := .b32, blk := 8, m := 8, n := 16, k := 32 } }

/-- The join, once every participant has issued: a fault in each where they differ, otherwise each has its
own operation (R277, R278). It comes after the halts of its clock (R299). -/
def State.joinMmae (s : State) (ens idx : Nat) : State :=
  let ts := s.joiners ens idx
  if ts.all fun t => t.joining.isSome then
    let works := ts.filterMap fun t => match t.joining with | some (_, w, _) => w | none => none
    let ok := works.all fun a => works.all fun b => worksAgree a b
    let j := s.fresh
    ts.foldl (fun s t => match t.joining with
      | some (p, some w, ls) =>
        if ok then (s.addOp t p .tm (.mma { w with join := some j }) ls).advance (refOf t p)
        else s.faultWord (refOf t p) (faultAll ls 0x16 w.fbAddr)
      | some (p, none, _) => (s.addOp t p .tm (.mma MmaWork.empty) 0).advance (refOf t p)
      | none => s) (s.takes (.ens ens) 2)
  else s

/-- Whether a participant of a join can issue no more (R277). -/
def State.joinLost (s : State) (t : Troupe) : Bool := (s.joiners t.ens t.idx).any fun u => u.run != .running

/-- MMAE (R277, R278): a participant whose active(i) is empty joins as well. -/
def execMmae (x : Ins) (sr : Semiring) (first : Bool) (s : State) : Host.Outcome State Fault Refusal :=
  let u := mmaUse x first
  match s.gate x u with
  | .empty t p =>
    let s' := s.start t p x u
    if s.joinLost t ∨ t.ganged = false then .next (s'.advance (refOf t p))
    else if Config.counterMax ≤ t.counter s.now .tm then
      .next (s.modPath (refOf t p) fun p => { p with wait := .retry })
    else .next ((s'.waitAt (refOf t p) (.mmae none 0) 0).joinMmae t.ens t.idx)
  | .nobody => .fault .noIssuer
  | .fault t p m c => .next ((s.start t p x u).faultWord (refOf t p) (faultAll m c 0))
  | .go t p act _ =>
    match t.tileFault with
    | some (o, d) =>
      .next (((s.start t p x u).clearFault t.id o.id).faultDeferred (refOf t p) act d.code d.addr o.pc [])
    | none =>
      if Config.counterMax ≤ t.counter s.now .tm then
        .next (s.modPath (refOf t p) fun p => { p with wait := .retry })
      else
        let s' := s.start t p x u
        if s.joinLost t ∨ t.ganged = false then .next (s'.faultWord (refOf t p) (faultAll act 0x16 0))
        else match mmaChecked x sr s' t p act fun s w =>
            .done (s.waitAt (refOf t p) (.mmae (some w) act) 0) [] with
          | .done s [] => .next (s.joinMmae t.ens t.idx)
          | .done s fs => .next (s.faultWord (refOf t p) fs)
          | .hold => .next (s.modPath (refOf t p) fun p => { p with wait := .retry })
          | .wait s => .next (s.modPath (refOf t p) fun _ => { p with wait := .retry })

/-! ### The cells (R135, R137, R272) -/

/-- Bits of an element in storage (R121–R123). -/
def elemBits (ty : Ty) : Nat :=
  match ty with
  | .f32 | .s32 | .n32 => 32 | .f16 | .bf16 | .s16 | .n16 | .b16 => 16 | .e4m3 | .e5m2 | .e3m5 | .s8 | .n8 | .b8 => 8
  | .e3m2 | .e2m3 => 6 | .e2m1 => 4 | .b32 => 1 | _ => 32

/-- Element i of a row. -/
def RowData.elem (r : RowData) (ty : Ty) (i : Nat) : Nat := r.bits / 2 ^ (elemBits ty * i) % 2 ^ elemBits ty

/-- The block scale of group g of eight elements; 1.0 where the block states none (R134). -/
def RowData.scale (r : RowData) (blk g : Nat) : Num :=
  match r.scales with
  | [] => .fin false 1 0
  | ss => value .e3m5 (lget 0 ss (8 * g / blk)).toNat

/-- An FP32 code from an exact value, rounded to nearest even. -/
def rne32 (v : Num) : Nat := rne .f32 v

/-- One group of eight of a float product (R135). -/
def stepGroup (fb : FormatBlock) (a b : RowData) (acc g : Nat) : Nat :=
  let S := sumNum false ((List.range 8).map fun i =>
    (value fb.afmt (a.elem fb.afmt (8 * g + i))).mul (value fb.bfmt (b.elem fb.bfmt (8 * g + i))))
  let c := S.mul ((a.scale fb.blk g).mul (b.scale fb.blk g))
  let c := if c.isZero then .fin false 0 0 else value .f32 (rne32 c)
  rne32 (sumNum false [value .f32 acc, c])

/-- The accumulator word after the K positions of one row of A and one of B (R272). -/
def cell (sr : Semiring) (fb : FormatBlock) (acc : Nat) (a b : RowData) : Nat :=
  let x := fun i => value fb.afmt (a.elem fb.afmt i)
  let y := fun i => value fb.bfmt (b.elem fb.bfmt i)
  let mm := fun (isMax : Bool) (acc v : Nat) => rne32 (pickMinMax isMax false (value .f32 acc) (value .f32 v))
  match sr with
  | .ptimes =>
    if fb.afmt.cls then (List.range (fb.k / 8)).foldl (stepGroup fb a b) acc
    else
      let s : Int := (List.range fb.k).foldl (fun (s : Int) i =>
        s + fb.afmt.toInt (a.elem fb.afmt i) * fb.bfmt.toInt (b.elem fb.bfmt i)) 0
      (BitVec.ofInt 32 ((acc : Int) + s)).toNat
  | .minplus => (List.range fb.k).foldl (fun acc i => mm false acc (rne32 (sumNum false [x i, y i]))) acc
  | .maxplus => (List.range fb.k).foldl (fun acc i => mm true acc (rne32 (sumNum false [x i, y i]))) acc
  | .maxtimes => (List.range fb.k).foldl (fun acc i => mm true acc (rne32 ((x i).mul (y i)))) acc
  | .orand => (List.range fb.k).foldl (fun acc i => acc ||| (a.elem .b32 i &&& b.elem .b32 i)) acc
  | .minmax => (List.range fb.k).foldl (fun acc i =>
      mm false acc (rne32 (pickMinMax true false (x i) (y i)))) acc

/-! ### The accesses of operations (R282, R354–R356) -/

/-- The agent of an operation's accesses. -/
def engineOf (t : Troupe) (o : Op) : Asker := .op t.id o.id

/-- The bytes of a fragment: of its rows, their scales and their bands, as first addresses and lengths. -/
def Fragment.ranges (f : Fragment) : List (Nat × Nat) :=
  (List.range f.rows).flatMap fun i =>
    let r := f.row + i
    ((f.base + r * f.ld + elemBits f.ty * f.k0 / 8) % 2 ^ 64, elemBits f.ty * f.k / 8) ::
      ((if f.scl = 0 then [] else [((f.scl + r * f.lds + f.k0 / f.blk) % 2 ^ 64, f.k / f.blk)]) ++
        if f.band = 0 then [] else [((f.band + 2 * (r / 64)) % 2 ^ 64, 2)])

/-- Whether a byte range and a fragment have a byte in common. -/
def Fragment.meets (f : Fragment) (va n : Nat) : Bool := rangesMeet f.ranges [(va, n)]

/-- A write of an engine for an operation of a troupe, which drops the latched fragments that it meets (R274). -/
def State.opWrite (s : State) (t : Troupe) (o : Op) (va : Nat) (bs : List Byte) : EGot :=
  (s.modTroupe t.id fun t => { t with latches := t.latches.filter fun l => !l.frag.meets va bs.length }).engineWrite t
    (engineOf t o) va bs

/-- Whether writes to lines are performed at `.dev`, and at `.pool` for coherent lines (R282, R351, R356). -/
def State.linesOver (s : State) (ls : List (Nat × Nat)) : Bool :=
  ls.all fun e => (match s.line? e.1 e.2 with | some l => decide (l.pass ≤ s.now) | none => true) &&
    s.poolDone e.1 e.2

/-- Whether every access of an operation is performed, so that it may be complete: its writes, and those that its
reads have returned (R282, R345, R356). -/
def State.opOver (s : State) (o : Op) : Bool :=
  s.linesOver o.lines && decide (o.rdPass ≤ s.now) && o.rdShared.all fun k => !s.openByte k

/-- An operation takes over what the reads of this step have shown (R356); the lines that a GntNC answer has brought for it
are used up (R323). -/
def State.saw (s : State) (id op : Nat) : State :=
  ({ s.modOp id op fun o => { o with rdPass := max o.rdPass s.seenPass, rdShared := nunion o.rdShared s.seenOpen } with
    seenPass := 0, seenOpen := [] } : State).dropOnceOf fun w => w == .op id op

/-- The work of an operation is over, with a status, a value and perhaps a fault. -/
def State.endWork (s : State) (id op status value : Nat) (f : Option DeferredFault) : State :=
  s.modOp id op fun o => { o with ends := some (status, value, f) }

/-- An operation waits for a page, which its access has found not resident (R283, R386), or for none. -/
def State.waitsFor (s : State) (id op : Nat) (page : Option Nat) : State :=
  (match s.troupe? id, page with
    | some t, some va => s.touchAbsent (s.sidOf t) va
    | _, _ => s).modOp id op fun o => { o with waitPage := page }

/-- An operation waits: for a page, or for what its attempt has asked for (R283). Its reads are made again. -/
def State.opWaits (s u : State) (id op : Nat) (page : Option Nat) : State := (s.keepAsks u).waitsFor id op page

/-- How one element of an operation ends: moved, with the address and the lines that it has written; a wait; or a
fault. -/
inductive ElemGot where
  | moved (s : State) (dst : Nat) (ls : List (Nat × Nat))
  | waits (s : State) (page : Option Nat)
  | fault (s : State) (code addr : Nat)
  deriving DecidableEq, Repr

/-- The elements that an operation has gone through in order. -/
def OpKind.moved : OpKind → Nat
  | .tld _ _ _ _ _ _ m | .tst _ _ _ _ _ _ _ _ m | .gather _ _ _ _ _ m | .scatter _ _ _ _ _ m => m
  | .coll _ _ _ _ _ w => w.moved
  | .um _ _ _ w => w.moved
  | _ => 0

/-- The progress of an operation recorded. -/
def OpKind.withMoved (k : OpKind) (m : Nat) : OpKind :=
  match k with
  | .tld ty fb t o pitch qs _ => .tld ty fb t o pitch qs m
  | .tst ty rnd sat fb t o pitch qs _ => .tst ty rnd sat fb t o pitch qs m
  | .gather i a b n z _ => .gather i a b n z m
  | .scatter i a b n z _ => .scatter i a b n z m
  | .coll op ty g gen d w => .coll op ty g gen d { w with moved := m }
  | .um c k b w => .um c k b { w with moved := m }
  | k => k

/-- An operation that still works: neither complete nor over, and with no page to wait for. -/
def Op.working (o : Op) : Bool := !o.done && o.ends.isNone && o.waitPage.isNone

/-- An operation of a troupe, with the troupe. -/
def State.opOf (s : State) (id op : Nat) : Option (Troupe × Op) :=
  (s.troupe? id).bind fun t => (t.op? op).map fun o => (t, o)

/-- The next elements of an operation moved in order, up to a wait or a fault; one that it has moved ahead is passed
over. `one` moves an element, and `code` is that of its faults. -/
def State.moveNext (one : State → Troupe → Op → Nat → ElemGot) (code : Nat → Nat) (s : State) (id op : Nat) : Nat → State
  | 0 => s
  | n + 1 =>
    match s.opOf id op with
    | none => s
    | some (t, o) =>
      if !o.working then s
      else
        let k := o.kind.moved
        let step := fun (s : State) (ls : List (Nat × Nat)) => s.modOp id op fun o =>
          { o with kind := o.kind.withMoved (k + 1), lines := (ls ++ o.lines).dedup,
                   ahead := o.ahead.filter fun e => e.1 != k }
        if o.ahead.any fun e => e.1 == k then State.moveNext one code (step s []) id op n
        else match one s t o k with
          | .moved s' _ ls => State.moveNext one code ((step s' ls).saw id op) id op n
          | .waits s' pg => s.opWaits s' id op pg
          | .fault s' c a => (s'.saw id op).endWork id op 3 0 (some { code := code c, addr := a })

/-- One element of an operation moved before its turn (R354): element `k` of `n`. -/
def State.moveAhead (one : State → Troupe → Op → Nat → ElemGot) (code : Nat → Nat) (s : State) (t : Troupe) (o : Op)
    (k n : Nat) : State :=
  if o.working = false ∨ n ≤ k ∨ k < o.kind.moved ∨ (o.ahead.any fun e => e.1 == k) = true then s
  else match one s t o k with
    | .moved s' a ls => (s'.modOp t.id o.id fun o =>
        { o with ahead := o.ahead ++ [(k, a)], lines := (ls ++ o.lines).dedup }).saw t.id o.id
    | .waits s' pg => s.opWaits s' t.id o.id pg
    | .fault s' c a => (s'.saw t.id o.id).endWork t.id o.id 3 0 (some { code := code c, addr := a })

/-! ### Operand reads (R273, R275) -/

/-- A read of the matrix unit at a global address, which names no engine window. -/
def State.matRead (s : State) (t : Troupe) (o : Op) (va n : Nat) : EGot :=
  let va := va % 2 ^ 64
  if n = 0 then .bytes s []
  else if Config.windowBase < va + n then .fault s 0x07 va
  else s.opRead t o va n

/-- A write of the matrix unit at a global address. -/
def State.matWrite (s : State) (t : Troupe) (o : Op) (va : Nat) (bs : List Byte) : EGot :=
  let va := va % 2 ^ 64
  if Config.windowBase < va + bs.length then .fault s 0x07 va else s.opWrite t o va bs

/-- How an operand row ends. -/
inductive RowGot where
  | row (s : State) (r : RowData)
  | waits (s : State) (page : Option Nat)
  | fault (s : State) (code addr : Nat)
  deriving DecidableEq, Repr

/-- The row `r` of an operand along the K positions of a fragment, with its block scales and its band scale (R270,
R273). No cell needs the band scale: TST applies it (R136). -/
def State.operandRow (s : State) (t : Troupe) (o : Op) (f : Fragment) (r : Nat) : RowGot :=
  match s.matRead t o (f.base + r * f.ld + elemBits f.ty * f.k0 / 8) (elemBits f.ty * f.k / 8) with
  | .waits s pg => .waits s pg
  | .fault s c a => .fault s c a
  | .bytes s es =>
    match s.matRead t o (f.scl + r * f.lds + f.k0 / f.blk) (if f.scl = 0 then 0 else f.k / f.blk) with
    | .waits s pg => .waits s pg
    | .fault s c a => .fault s c a
    | .bytes s ss =>
      match s.matRead t o (f.band + 2 * (r / 64)) (if f.band = 0 then 0 else 2) with
      | .waits s pg => .waits s pg
      | .fault s c a => .fault s c a
      | .bytes s _ => .row s { bits := leNat es, scales := ss }

/-! ### Latched fragments and common rows (R274, R277) -/

/-- The A and the B fragment of a quarter. -/
def MmaWork.fragment (w : MmaWork) (q : Quarter) (opB : Bool) : Fragment :=
  let fb := w.fb
  if opB then { base := fb.bbase, ld := fb.ldb, scl := fb.bscl, lds := fb.ldsb, band := fb.bband, ty := fb.bfmt,
                blk := fb.blk, row := q.n0, rows := fb.n, k0 := w.k0, k := fb.k }
  else { base := fb.abase, ld := fb.lda, scl := fb.ascl, lds := fb.ldsa, band := fb.aband, ty := fb.afmt,
         blk := fb.blk, row := q.m0, rows := fb.m, k0 := w.k0, k := fb.k }

/-- Whether an operation reads the bytes of a latched fragment. -/
def MmaWork.takes (w : MmaWork) (l : Latch) : Bool := w.quarters.any fun q => w.fragment q l.opB == l.frag

/-- The ranges of engine addresses that an operation reads in one go (R354). -/
def OpKind.sources : OpKind → List (Nat × Nat)
  | .cpy _ src _ len _ none => [(src, len)]
  | .gather i a _ n z _ => (i, 4 * n) :: [(a, z * 2 ^ 32)]
  | .scatter i a _ n z _ => [(i, 4 * n), (a, n * z)]
  | .mma w => w.quarters.flatMap fun q => (w.fragment q false).ranges ++ (w.fragment q true).ranges
  | _ => []

/-- The fragments that a matrix instruction latches by its RU (R274), that its path does not hold yet. -/
def MmaWork.latches (w : MmaWork) (x : Ins) (p : PathSel) (pc : Nat) (held : List Latch) : List Latch :=
  let side := fun (opB : Bool) => if x.ru.getLsbD (if opB then 1 else 0) then
      (w.quarters.map fun q => ({ path := p, pcs := [pc], opB := opB, hold := x.ru.getLsbD 2,
                                  frag := w.fragment q opB, rows := [] } : Latch)).dedup
    else []
  (side false ++ side true).filter fun l => !held.any fun h => h.path == p && h.opB == l.opB && h.frag == l.frag

/-- A latched fragment that one more instruction latches. -/
def Latch.renew (l : Latch) (x : Ins) (pc : Nat) : Latch :=
  if x.ru.getLsbD (if l.opB then 1 else 0) then { l with pcs := ninsert pc l.pcs, hold := x.ru.getLsbD 2 } else l

/-- The latched row r of a fragment, where it has been read. -/
def latchedRow (ls : List Latch) (f : Fragment) (opB : Bool) (r : Nat) : Option RowData :=
  ls.findSome? fun l => if l.opB == opB && l.frag == f then mfind l.rows r else none

/-- The row `r` of a quarter's operand: the latched one, or a read. -/
def State.fragmentRow (s : State) (t : Troupe) (o : Op) (ls : List Latch) (f : Fragment) (opB : Bool) (r : Nat) : RowGot :=
  match latchedRow ls f opB r with
  | some d => .row s d
  | none => s.operandRow t o f (f.row + r)

/-- The row `r` of A that a participant of the same join has read for an operation (R277). -/
def State.commonRow (s : State) (t : Troupe) (o : Op) (r : Nat) : Option RowData :=
  match s.opOf t.id o.id with
  | some (_, v) => match v.kind with
    | .mma w => mfind w.common r
    | _ => none
  | none => none

/-- A row of A that an operation has read goes to every operation of its join, with what the read has shown (R277). -/
def State.shareRow (s : State) (w : MmaWork) (r : Nat) (d : RowData) : State :=
  if w.join.isNone then s
  else { s with troupes := s.troupes.map fun t => { t with ops := t.ops.map fun o => match o.kind with
      | .mma v =>
        if v.join = w.join ∧ v.fb = w.fb then
          { o with kind := .mma { v with common := mput r d v.common }, rdPass := max o.rdPass s.seenPass,
                   rdShared := nunion o.rdShared s.seenOpen }
        else o
      | _ => o } }

/-- The row `i` of a quarter's A: from its join, or latched, or read. -/
def State.rowOfA (s : State) (t : Troupe) (o : Op) (ls : List Latch) (w : MmaWork) (q : Quarter) (i : Nat) : RowGot :=
  match s.commonRow t o (q.m0 + i) with
  | some d => .row s d
  | none => match s.fragmentRow t o ls (w.fragment q false) false i with
    | .row s d => .row (s.shareRow w (q.m0 + i) d) d
    | g => g

/-- How the rows of a quarter end: all written; a wait; an operand fault; an uncorrectable error in a row that
the pass reads, which halts the troupe and writes no row of the pass (R276, R407). -/
inductive QuarterEnd where
  | done
  | halted
  | waits (page : Option Nat)
  | fault (code addr : Nat)
  deriving DecidableEq, Repr

/-- The words of one result row: `n` cells from column j on. -/
def State.rowCells (s : State) (t : Troupe) (o : Op) (ls : List Latch) (w : MmaWork) (q : Quarter) (i : Nat)
    (a : RowData) (j : Nat) : Nat → State × List Nat × QuarterEnd
  | 0 => (s, [], .done)
  | n + 1 =>
    match s.fragmentRow t o ls (w.fragment q true) true j with
    | .waits s pg => (s, [], .waits pg)
    | .fault s c ad => (s, [], .fault c ad)
    | .row s b =>
      let acc := t.tileWord (w.t + 4 * (q.q * w.fb.m * w.fb.n + i * w.fb.n + j))
      let v := cell w.sr w.fb acc a b
      match s.rowCells t o ls w q i a (j + 1) n with
      | (s, vs, e) => (s, v :: vs, e)

/-- The rows of a quarter from row i on; the result counts the rows written. A row whose reads wait is begun again. -/
def State.quarterRows (s : State) (id : Nat) (o : Op) (ls : List Latch) (w : MmaWork) (q : Quarter) (i : Nat) :
    Nat → State × Nat × QuarterEnd
  | 0 => (s, i, .done)
  | n + 1 =>
    match s.troupe? id with
    | none => (s, i, .done)
    | some t =>
      let off := w.t + 4 * (q.q * w.fb.m * w.fb.n + i * w.fb.n)
      if s.tileBad id off (4 * w.fb.n) then ((s.logError t.die t.core o.pc).halt id o.pc 0x13, i, .halted)
      else match s.rowOfA t o ls w q i with
      | .waits u pg => (s.keepAsks u, i, .waits pg)
      | .fault u c a => (u, i, .fault c a)
      | .row u a =>
        match u.rowCells t o ls w q i a 0 w.fb.n with
        | (u, vs, .done) =>
          (u.tileWrite id off (vs.flatMap fun v => leBytes 4 v)).quarterRows id o ls w q (i + 1) n
        | (u, _, .waits pg) => (s.keepAsks u, i, .waits pg)
        | (u, _, e) => (u, i, e)

/-- %mrow after an MMA: cleared for the quarters that issued, unless a deferred fault is pending; or, after
an operand fault, the rows of every quarter (R273, R275). -/
def mrowAfter (m : Word) (w : MmaWork) (faulted pending : Bool) : Word :=
  if faulted then
    (List.range 4).foldl (fun m q => setRows m q (match w.quarters.find? fun e => e.q == q with
      | some e => e.start
      | none => 0)) m
  else if pending then m
  else w.quarters.foldl (fun m q => setRows m q.q 0) m

/-- The bits of %mrow that an MMA's end writes: while they are written, no MOVSW of the clock changes them
(R115). -/
def mrowBits (w : MmaWork) (faulted pending : Bool) : Word :=
  if faulted then 0xFFFFFFFF
  else if pending then 0
  else w.quarters.foldl (fun m q => m ||| (255 <<< (8 * q.q))) 0

/-- The latches of a troupe after an operation has read the fragments of some quarters: those that its
instruction latches hold the rows that it has read, `ls` giving those that it has taken from a latch (R274). -/
def State.fillLatches (s : State) (t : Troupe) (o : Op) (ls : List Latch) (w : MmaWork) (qs : List Quarter) :
    List Latch :=
  t.latches.map fun l =>
    if l.pcs.contains o.pc && o.own.contains l.path then
      match qs.find? fun q => w.fragment q l.opB == l.frag && decide (q.start < w.fb.m) with
      | some q =>
        { l with rows := ((List.range l.frag.rows).drop (if l.opB then 0 else q.start)).foldl (fun m r =>
            match s.fragmentRow t o ls l.frag l.opB r with | .row _ d => mput r d m | _ => m) l.rows }
      | none => l
    else l

/-- A quarter after an attempt at its rows: the rows written, and the fault at which it stops (R275). -/
def Quarter.after (q : Quarter) (rows : Nat) (e : QuarterEnd) : Quarter :=
  { q with start := rows
           stop := match e with
             | .fault c a => some { code := if c = 0x13 then 0x13 else 0x16, addr := a }
             | _ => q.stop }

/-- An operation's quarters replaced. -/
def OpKind.withQuarters (k : OpKind) (f : Quarter → Quarter) : OpKind :=
  match k with
  | .mma w => .mma { w with quarters := w.quarters.map f }
  | k => k

/-- A quarter worked on: its rows up to a wait, a fault or its end; one that has stopped stays (R275). -/
def State.workQuarter (s : State) (id op : Nat) (ls : List Latch) (w : MmaWork) (q : Quarter) (n : Nat) :
    State × QuarterEnd :=
  match s.opOf id op with
  | none => (s, .done)
  | some (_, o) =>
    if q.stop.isSome then (s, .done)
    else
      let e := s.quarterRows id o ls w q q.start n
      ((e.1.modOp id op fun o =>
        { o with kind := o.kind.withQuarters fun v => if v.q = q.q then v.after e.2.1 e.2.2 else v }).saw id op, e.2.2)

/-- A matrix operation whose quarters have all stopped is complete once its reads are performed: %mrow is written, and
the operation holds its deferred fault (R273, R275, R356). -/
def State.finishMma (s : State) (id op : Nat) : State :=
  match s.opOf id op with
  | none => s
  | some (t, o) => match o.kind, o.ends with
    | .mma w, some (_, _, f) =>
      if o.done ∨ s.opOver o = false then s
      else
        let pending := t.ops.any fun e => e.cls == OpClass.tm && e.fault.isSome
        let s := s.modTroupe id fun u =>
          { u with
            mrow := mrowAfter u.mrow w f.isSome pending
            mrowOld := u.mrowOld.map fun m => mrowAfter m w f.isSome pending
            mrowSet := u.mrowSet ||| mrowBits w f.isSome pending }
        (s.modOp id op fun o => { o with done := true, fault := f }).prune id
    | _, _ => s

/-- The end of a matrix operation (R273, R275): the rows of every issuing quarter are computed and written, up to
an operand fault; a page that is not resident makes the operation wait with its rows so far. With `reuse`
the fragments that its path has latched serve it (R274). -/
def State.endMma (s : State) (troupe op : Nat) (reuse : Bool) : State :=
  match s.opOf troupe op with
  | none => s
  | some (t, o) => match o.kind with
    | .mma w =>
      if o.working = false ∨ t.tileReady o = false then s.finishMma troupe op
      else
        let ls := if reuse then t.latches.filter fun l => o.own.contains l.path else []
        let r := w.quarters.foldl (fun (acc : State × List (Nat × QuarterEnd)) (q : Quarter) =>
          if acc.2.any fun e => e.2 == .halted then acc
          else
            let e := acc.1.workQuarter troupe op ls w q (w.fb.m - q.start)
            (e.1, acc.2 ++ [(q.q, e.2)])) (s, ([] : List (Nat × QuarterEnd)))
        let u : State := r.1
        let ends : List (Nat × QuarterEnd) := r.2
        if ends.any fun e => e.2 == .halted then (u.modOp troupe op fun o => { o with done := true }).prune troupe
        else match ends.findSome? fun e => match e.2 with | .waits pg => some pg | _ => none with
          | some pg => u.waitsFor troupe op pg
          | none =>
            let full := s.fillLatches t o ls w (w.quarters.filter fun q => ends.any fun e => e.1 == q.q && e.2 == .done)
            ((u.modTroupe troupe fun u => { u with latches := full }).modOp troupe op fun o =>
              { o with ends := some (1, 0, match o.kind with
                  | .mma w => w.quarters.findSome? fun q => q.stop
                  | _ => none) }).finishMma troupe op
    | _ => s

/-- The next row of one quarter of a matrix operation, read and written before the others (R273). -/
def State.rowMma (s : State) (troupe op k : Nat) (reuse : Bool) : State :=
  match s.opOf troupe op with
  | none => s
  | some (t, o) => match o.kind with
    | .mma w =>
      if o.working = false ∨ t.tileReady o = false then s
      else match w.quarters.find? fun q => q.q == k && decide (q.start < w.fb.m) with
        | none => s
        | some q =>
          let ls := if reuse then t.latches.filter fun l => o.own.contains l.path else []
          match s.workQuarter troupe op ls w q 1 with
          | (s, .waits pg) => s.waitsFor troupe op pg
          | (s, .halted) => (s.modOp troupe op fun o => { o with done := true }).prune troupe
          | (s, _) => s
    | _ => s

/-- MMA_COMPLETE (R273, R275): a matrix operation that reads its operands from memory. -/
def execMmaComplete (troupe op : Nat) (s : State) : Host.Outcome State Fault Refusal := .next (s.endMma troupe op false)

/-- PAGE_WAIT_RESUME (R275, R318): the page that an operation waits for has become resident. -/
def execPageWaitResume (troupe op : Nat) (s : State) : Host.Outcome State Fault Refusal :=
  match (s.troupe? troupe).bind fun (t : Troupe) => (t.op? op).map fun o => (t, o) with
  | none => .next s
  | some (t, o) => match o.waitPage with
    | none => .next s
    | some va => match s.translate (s.sidOf t) t.die va with
      | .absent => .next s
      | _ => .next (s.modOp troupe op fun o => { o with waitPage := none })

/-! ### TZERO, TLD, TST -/

/-- TZERO (R279). -/
def execTzero (x : Ins) (first : Bool) (s : State) : Host.Outcome State Fault Refusal :=
  runTile x (Use.cmd [] [(x.d, 1), (x.a, 1), (x.b, 1)] first) s fun s t p act =>
    let off := (uni t act x.d).toNat
    let n := (uni t act x.a).toNat
    if off % 16 ≠ 0 ∨ n % 16 ≠ 0 ∨ n = 0 ∨ s.windowOf t < off + n then .done s (faultAll act 0x16 0)
    else .done (s.addOp t p .tm (.tzero off n (uni t act x.b)) act) []

/-- The operands of TLD and TST (R262). -/
def tileUse (x : Ins) (first : Bool) : Use :=
  { wr := [], rd := [], un := [(x.d, 1), (x.b, 2), (x.c, 2), (x.e, 1)], first := first, whole := true,
    qu := [(x.a, 1)] }

/-- TLD and TST at issue (R271, R280). -/
def tileMove (x : Ins) (ty : Ty) (first : Bool) (s : State)
    (kind : FormatBlock → Nat → DWord → Nat → List Quarter → OpKind) : Host.Outcome State Fault Refusal :=
  runTile x (tileUse x first) s fun s t p act =>
    let addr := (uniPair t act x.b).toNat
    withBlock s t p act addr fun s fb =>
      let o := uniPair t act x.c
      let pitch := (uni t act x.e).toNat
      let z := if ty.cls then elemBits ty / 8 else 4
      let qs := quartersOf t act x.a
      let base := (uni t act x.d).toNat
      if o.toNat % z = 0 ∧ pitch % z = 0 ∧ (qs.all fun q => decide (q.start ≤ fb.m)) = true ∧
          windowFits (s.windowOf t) base fb qs = true
      then .done (s.addOp t p .tm (kind fb base o pitch qs) act) []
      else .done s (faultAll act 0x16 addr)

/-- TLD (R280). -/
def execTld (x : Ins) (ty : Ty) (first : Bool) (s : State) : Host.Outcome State Fault Refusal :=
  tileMove x ty first s fun fb t o pitch qs => .tld ty fb t o pitch qs 0

/-- TST (R280). -/
def execTst (x : Ins) (ty : Ty) (rnd : Rnd) (sat : Bool) (first : Bool) (s : State) :
    Host.Outcome State Fault Refusal :=
  tileMove x ty first s fun fb t o pitch qs => .tst ty rnd sat fb t o pitch qs 0

/-- The elements that a tile operation moves: quarter, row and column. -/
def tileElems (fb : FormatBlock) (qs : List Quarter) : List (Quarter × Nat × Nat) :=
  qs.flatMap fun q => (List.range fb.m).flatMap fun i => (List.range fb.n).map fun j => (q, i, j)

/-- The tile offset of an element (R269). -/
def elemOff (fb : FormatBlock) (t : Nat) (e : Quarter × Nat × Nat) : Nat :=
  t + 4 * (e.1.q * fb.m * fb.n + e.2.1 * fb.n + e.2.2)

/-- The memory address of an element (R280). -/
def elemAddr (o : DWord) (pitch z : Nat) (e : Quarter × Nat × Nat) : Nat :=
  (o.toNat + (e.1.m0 + e.2.1) * pitch + (e.1.n0 + e.2.2) * z) % 2 ^ 64

/-- Bytes of an element of a TLD or TST in memory. -/
def moveSize (ty : Ty) : Nat := if ty.cls then elemBits ty / 8 else 4

/-- An element of a TLD, read and written to the tile. -/
def State.tldElem (s : State) (t : Troupe) (op : Op) (ty : Ty) (fb : FormatBlock) (base : Nat) (o : DWord) (pitch : Nat)
    (e : Quarter × Nat × Nat) : ElemGot :=
  match s.matRead t op (elemAddr o pitch (moveSize ty) e) (moveSize ty) with
  | .waits s pg => .waits s pg
  | .fault s c a => .fault s c a
  | .bytes s bs =>
    let v := if ty.cls then rne32 (value ty (leNat bs)) else leNat bs
    .moved (s.tileWrite t.id (elemOff fb base e) (leBytes 4 v)) 0 []

/-- A band scale of an operand row; 1.0 where the block states none (R134, R136). -/
def State.bandOf (s : State) (t : Troupe) (op : Op) (band r : Nat) : EGot × Num :=
  if band = 0 then (.bytes s [], .fin false 1 0)
  else match s.matRead t op (band + 2 * (r / 64)) 2 with
    | .bytes s bs => (.bytes s bs, value .bf16 (leNat bs))
    | g => (g, .fin false 1 0)

/-- An element of a TST, written with its bands applied (R136). -/
def State.tstElem (s : State) (t : Troupe) (op : Op) (ty : Ty) (rnd : Rnd) (sat : Bool) (fb : FormatBlock) (base : Nat)
    (o : DWord) (pitch : Nat) (e : Quarter × Nat × Nat) : ElemGot :=
  let z := moveSize ty
  let acc := t.tileWord (elemOff fb base e)
  let a := elemAddr o pitch z e
  match s.bandOf t op (if ty.cls then fb.aband else 0) (e.1.m0 + e.2.1) with
  | (.waits s pg, _) => .waits s pg
  | (.fault s c ad, _) => .fault s c ad
  | (.bytes s _, p) =>
    match s.bandOf t op (if ty.cls then fb.bband else 0) (e.1.n0 + e.2.2) with
    | (.waits s pg, _) => .waits s pg
    | (.fault s c ad, _) => .fault s c ad
    | (.bytes s _, q) =>
      let v := if ty.cls then roundTo ty rnd sat 0 ((value .f32 acc).mul (p.mul q)) else acc
      match s.matWrite t op a (leBytes z v) with
      | .waits s pg => .waits s pg
      | .fault s c ad => .fault s c ad
      | .bytes s _ => .moved s a (s.linesOf t a z)

/-- Element `k` of a TLD or TST. -/
def State.tileElem (s : State) (t : Troupe) (op : Op) (k : Nat) : ElemGot :=
  match op.kind with
  | .tld ty fb base o pitch qs _ => match (tileElems fb qs)[k]? with
    | some e => s.tldElem t op ty fb base o pitch e
    | none => .moved s 0 []
  | .tst ty rnd sat fb base o pitch qs _ => match (tileElems fb qs)[k]? with
    | some e => s.tstElem t op ty rnd sat fb base o pitch e
    | none => .moved s 0 []
  | _ => .moved s 0 []

/-- How many elements a TLD or TST moves. -/
def OpKind.tileCount : OpKind → Nat
  | .tld _ fb _ _ _ qs _ | .tst _ _ _ fb _ _ _ qs _ => (tileElems fb qs).length
  | _ => 0

/-- The code of a deferred fault of the matrix unit (R275, R280): an uncorrectable error keeps its own (R407). -/
def tileCode (c : Nat) : Nat := if c = 0x13 then 0x13 else 0x16

/-- A TLD or TST is complete once all its elements are moved, or it has faulted, and its accesses are performed at `.dev`
(R280, R356). -/
def State.finishTile (s : State) (id op : Nat) : State :=
  match s.opOf id op with
  | none => s
  | some (_, o) =>
    let s := if o.working && o.kind.moved == o.kind.tileCount then s.endWork id op 1 0 none else s
    match s.opOf id op with
    | none => s
    | some (_, o) => match o.ends with
      | some (_, _, f) =>
        if o.done ∨ s.opOver o = false then s
        else (s.modOp id op fun o => { o with done := true, fault := f }).prune id
      | none => s

/-- A TMOVR's read has taken effect: D is written in its lanes (R268, R281). A register of a set that the troupe has
given up is not written (R95). -/
def State.endTmovr (s : State) (t : Troupe) (o : Op) (d : Nat) (cells : List (Nat × Nat)) : State :=
  if cells.any fun c => s.tileBad t.id c.2 4 then
    (((s.logError t.die t.core o.pc).halt t.id o.pc 0x13).modOp t.id o.id fun o => { o with done := true }).prune t.id
  else
    let w := fun (l : Nat) => match mfind cells l with
      | some off => if isExt d && !t.holdsExt then [] else [(d, BitVec.ofNat 32 (t.tileWord off))]
      | none => []
    ((s.writeLanes t.id (maskOf (cells.map (·.1))) w).modOp t.id o.id fun o => { o with done := true }).prune t.id

/-- TILE_OP_COMPLETE (R268, R279, R280): the range is written; the words are read; or the elements are moved, and the
operation completes once its accesses are performed at `.dev`. -/
def execTileOpComplete (troupe op : Nat) (s : State) : Host.Outcome State Fault Refusal :=
  match s.opOf troupe op with
  | none => .next s
  | some (t, o) =>
    if o.working = false then .next (s.finishTile troupe op)
    else if t.tileReady o = false then .next s
    else match o.kind with
      | .tzero off n w =>
        let s := s.tileWrite troupe off ((List.range (n / 4)).flatMap fun _ => leBytes 4 w.toNat)
        .next ((s.modOp troupe op fun o => { o with done := true }).prune troupe)
      | .tmovr d cells => .next (s.endTmovr t o d cells)
      | .tld .. => .next ((s.moveNext State.tileElem tileCode troupe op (o.kind.tileCount - o.kind.moved)).finishTile troupe op)
      | .tst .. =>
        if o.kind.tileRanges.any fun r => s.tileBad troupe r.1 r.2 then
          .next ((((s.logError t.die t.core o.pc).halt troupe o.pc 0x13).modOp troupe op fun o =>
            { o with done := true }).prune troupe)
        else .next ((s.moveNext State.tileElem tileCode troupe op (o.kind.tileCount - o.kind.moved)).finishTile troupe op)
      | _ => .next s

/-! ### TMOVR and TMOVT (R281) -/

/-- A lane's word address (R281). -/
def tileAddr (t : Troupe) (base : Nat) (x : BitVec 9) (l : Nat) : Nat := base + 4 * (t.reg l x.toNat).toNat

/-- The per-lane faults of TMOVR and TMOVT, %faddr at the lane's word address, and the lanes that go on. -/
def tileLanes (t : Troupe) (w base : Nat) (x : BitVec 9) (act : Word) : Word × List LaneFault :=
  let bad := maskOf ((lanesOf act).filter fun l => decide (w < tileAddr t base x l + 4))
  (act &&& ~~~bad, (lanesOf bad).map fun l => { lane := l, code := 0x16, addr := tileAddr t base x l })

/-- TMOVR (R281): while earlier operations on the words it reads have not taken effect, D stays pending (R268). -/
def execTmovr (x : Ins) (_ty : Ty) (first : Bool) (s : State) : Host.Outcome State Fault Refusal :=
  runEff x { wr := [(x.d, 1)], rd := [(x.b, 1)], un := [(x.a, 1)], first := first, whole := true } s
    fun s t p act =>
      let base := (uni t act x.a).toNat
      if base % 16 ≠ 0 then .done s (faultAll act 0x16 0)
      else
        let r := tileLanes t (s.windowOf t) base x.b act
        let ws := (lanesOf r.1).map fun l => (tileAddr t base x.b l, 4)
        if !tileFree t.ops ws then
          .done (s.addOp t p .tr (.tmovr x.d.toNat ((lanesOf r.1).map fun l => (l, tileAddr t base x.b l))) r.1) r.2
        else if ws.any fun e => s.tileBad t.id e.1 4 then .done (s.logError t.die t.core p.pc) (faultAll r.1 0x13 0)
        else .done (s.writeLanes t.id r.1 fun l => wr1 x.d (BitVec.ofNat 32 (t.tileWord (tileAddr t base x.b l)))) r.2

/-- TMOVT (R281): the highest lane's value stands. -/
def execTmovt (x : Ins) (_ty : Ty) (first : Bool) (s : State) : Host.Outcome State Fault Refusal :=
  runEff x { wr := [], rd := [(x.a, 1), (x.b, 1)], un := [(x.d, 1)], first := first, whole := true } s
    fun s t _ act =>
      let base := (uni t act x.d).toNat
      if base % 16 ≠ 0 then .done s (faultAll act 0x16 0)
      else
        let r := tileLanes t (s.windowOf t) base x.a act
        let ws := (lanesOf r.1).map fun l => (tileAddr t base x.a l, 4)
        if !tileFree t.ops ws then .hold
        else .done ((lanesOf r.1).foldl (fun s l =>
          s.tileWrite t.id (tileAddr t base x.a l) (leBytes 4 (t.reg l x.b.toNat).toNat)) s) r.2

end Sys2Proof.Machine
end

