-- ==== Sys2Proof/Machine/Engines.lean ====
section
/-! DEFINITION. Engine operations, counters and futures (R282–R294): CPY with its channels, GATHER and
SCATTER, COLL, WAITC, FWAIT, FTEST and FCANCEL. -/

namespace Sys2Proof.Machine

/-! ### Futures (R284–R286) -/

/-- Bits [29:16] of the handles of a troupe's entries: die, core, partition and slot (R284). -/
def Troupe.place (t : Troupe) : Nat := t.die * 4096 + t.core * 64 + t.part * 16 + t.slot

/-- The handle of an entry (R284). -/
def handleOf (place ent : Nat) (gen : BitVec 12) : Word :=
  BitVec.ofNat 32 (2 * 2 ^ 30 + place * 65536 + ent * 4096 + gen.toNat)

/-- A free future entry at placement, of generation 0: the manual gives no first generation (DESIGN CHOICE, log 42). -/
def FutureEntry.new : FutureEntry := { gen := 0, busy := false, status := 0, value := 0, mark := none, place := 0 }

/-- The lowest free entry of a troupe: which free entry a command takes the manual does not say (log 42). -/
def Troupe.freeEntry (t : Troupe) : Option Nat :=
  ((lenum t.futures).find? fun e => !e.2.busy).map (·.1)

/-- An entry taken for an operation: the handle goes to D, which the path's scoreboard marks (R284, R285). -/
def State.takeEntry (s : State) (t : Troupe) (act : Word) (d : BitVec 9) (op : Nat) : State :=
  if d = 511 then s
  else match t.freeEntry with
    | none => s
    | some e =>
      let f := lget FutureEntry.new t.futures e
      let s := s.modTroupe t.id fun t => { t with futures := lmod (fun f =>
        { f with busy := true, status := 0, value := 0, mark := some d.toNat, place := t.place }) t.futures e }
      (s.modOp t.id op fun o => { o with future := some e }).writeLanes t.id act fun _ =>
        wr1 d (handleOf t.place e f.gen)

/-- An entry freed: its generation rises, and no operation holds it any more (R284). While the operation runs on, its
register stays marked (R285). -/
def State.freeEntryOf (s : State) (id e : Nat) : State :=
  s.modTroupe id fun t =>
    { t with futures := lmod (fun f => { f with gen := f.gen + 1, busy := false, status := 0, value := 0, mark := none })
               t.futures e
             ops := t.ops.map fun o => if o.future = some e then
                 { o with future := none, mark := if o.done then none else (lget FutureEntry.new t.futures e).mark }
               else o }

/-- Every FWAIT on an entry returns: status and value in its lanes (R286, R299). -/
def State.serveFwait (s : State) (id e : Nat) (status value : Word) : State × Bool :=
  let ps := s.troupes.flatMap fun (t : Troupe) => t.paths.filterMap fun (p : Path) =>
    match p.wait with
    | .fwait o k _ d ls => if o = id ∧ k = e then some (refOf t p, d, ls) else none
    | _ => none
  (ps.foldl (fun s (r : PathRef × Nat × Word) =>
    (s.writeLanes r.1.troupe r.2.2 fun _ => wr2 (BitVec.ofNat 9 r.2.1) (value ++ status)).advance r.1) s, ps != [])

/-- The fault that status 3 reports is taken by the instruction that returned it (R283). -/
def State.takeOpFault (s : State) (id e : Nat) : State :=
  s.modTroupe id fun t =>
    { t with ops := t.ops.map fun o => if o.future = some e then { o with fault := none } else o }

/-- An operation reaches its final state: done (1), cancelled (2) or faulted (3) (R282, R286). -/
def State.finishOp (s : State) (id op status value : Nat) (changed : Bool) : State :=
  match (s.troupe? id).bind fun (t : Troupe) => t.op? op with
  | none => s
  | some (o : Op) =>
    let code := match o.fault with | some f => f.code | none => 0
    let st := BitVec.ofNat 32 (status + (if changed then 256 else 0) + if status = 3 then code * 65536 else 0)
    let v := if status = 3 then 0 else BitVec.ofNat 32 value
    let s := s.modOp id op fun o => { o with done := true, value := value }
    match o.future with
    | none => s.prune id
    | some e =>
      let s := s.modTroupe id fun t => { t with futures := lmod (fun f =>
        { f with status := st, value := v, mark := none, fin := some (s.now, st, v) }) t.futures e }
      match s.serveFwait id e st v with
      | (s, true) => ((if status = 3 then s.takeOpFault id e else s).freeEntryOf id e).prune id
      | (s, false) => s.prune id

/-- What a handle names. -/
inductive FutGot where
  | invalid
  | stale
  | entry (owner ent : Nat) (f : FutureEntry)
  deriving DecidableEq, Repr

/-- Whether an ensemble is on cores. -/
def Ensemble.resident (e : Ensemble) : Bool := e.st == .running || e.st == .preempting

/-- The entry that a handle names for a troupe (R286). -/
def State.lookup (s : State) (t : Troupe) (h : Word) : FutGot :=
  let pl := (h.extractLsb' 16 14).toNat
  let ent := (h.extractLsb' 12 4).toNat
  let gen := h.extractLsb' 0 12
  let launch := fun (e : Nat) => (s.ens? e).map Ensemble.launch
  let mine := s.troupes.filter fun (u : Troupe) => launch u.ens == launch t.ens
  if h.extractLsb' 30 2 ≠ 2 then .invalid
  else
    match mine.find? fun (u : Troupe) =>
      let f := lget FutureEntry.new u.futures ent
      f.busy && f.place == pl && f.gen == gen with
    | some u => .entry u.id ent (lget FutureEntry.new u.futures ent)
    | none =>
      if mine.any fun (u : Troupe) => (u.place == pl && match s.ens? u.ens with
          | some (e : Ensemble) => e.resident | none => false) ||
          (u.run == .running && (lget FutureEntry.new u.futures ent).busy &&
            (lget FutureEntry.new u.futures ent).place == pl)
      then .stale else .invalid

/-- What the operation of a handle gave, where an FWAIT has freed its entry in the very clock of the completion
(R299). -/
def State.justDone (s : State) (t : Troupe) (h : Word) : Option (Word × Word) :=
  let launch := fun (e : Nat) => (s.ens? e).map Ensemble.launch
  (s.troupes.filter fun u => launch u.ens == launch t.ens).findSome? fun u =>
    let f := lget FutureEntry.new u.futures (h.extractLsb' 12 4).toNat
    match f.fin with
    | some (k, st, v) =>
      if k = s.now ∧ f.place = (h.extractLsb' 16 14).toNat ∧ f.gen = h.extractLsb' 0 12 + 1 then some (st, v) else none
    | none => none

/-- The operands of FWAIT and FTEST. -/
def futureUse (x : Ins) (first : Bool) : Use := Use.cmd [(x.d, 2)] [(x.a, 1)] first

/-- FWAIT (R286): it waits until the state is final, returns it and frees the entry. -/
def execFwait (x : Ins) (first : Bool) (s : State) : Host.Outcome State Fault Refusal :=
  match s.gate x (futureUse x first) with
  | .nobody => .fault .noIssuer
  | .empty t p => .next ((s.start t p x (futureUse x first)).advance (refOf t p))
  | .fault t p m c => .next ((s.start t p x (futureUse x first)).faultWord (refOf t p) (faultAll m c 0))
  | .go t p act _ =>
    let s := s.start t p x (futureUse x first)
    let r := refOf t p
    match s.lookup t (uni t act x.a) with
    | .invalid => .next (s.faultWord r (faultAll act 0x0E 0))
    | .stale =>
      let v : DWord := match s.justDone t (uni t act x.a) with | some (st, v) => v ++ st | none => 4
      .next ((s.writeLanes t.id act fun _ => wr2 x.d v).advance r)
    | .entry o e f =>
      if f.status.extractLsb' 0 8 = 0 then .next (s.waitAt r (.fwait o e f.gen x.d.toNat act) 0)
      else
        let s := (s.writeLanes t.id act fun _ => wr2 x.d (f.value ++ f.status)).advance r
        .next (((if f.status.extractLsb' 0 8 = 3 then s.takeOpFault o e else s).freeEntryOf o e).prune o)

/-- FTEST (R286). -/
def execFtest (x : Ins) (first : Bool) (s : State) : Host.Outcome State Fault Refusal :=
  runEff x (futureUse x first) s fun s t _ act =>
    match s.lookup t (uni t act x.a) with
    | .invalid => .done s (faultAll act 0x0E 0)
    | .stale => .done (s.writeLanes t.id act fun _ => wr2 x.d 4) []
    | .entry o e f =>
      let s := if f.status.extractLsb' 0 8 = 3 then s.takeOpFault o e else s
      .done (s.writeLanes t.id act fun _ => wr2 x.d (f.value ++ f.status)) []

/-! ### Issue of engine commands (R283) -/

/-- An engine command: its value checks (fault `code`), the holds for its counter, a future entry and `room`,
then its operation; `after` acts on the operation's number. -/
def runEngine (x : Ins) (u : Use) (c : OpClass) (code : Nat) (s : State)
    (ok room : State → Troupe → Word → Bool) (kind : State → Troupe → Word → OpKind)
    (after : State → Troupe → Word → Nat → State) : Host.Outcome State Fault Refusal :=
  runEff x u s fun s t p act =>
    if !ok s t act then .done s (faultAll act code 0)
    else if decide (Config.counterMax ≤ t.counter s.now c) || (x.d != 511 && t.freeEntry.isNone) || !room s t act
    then .hold
    else
      let k := kind s t act
      let s := s.commitRegion t.id
      let id := s.fresh
      let s := (s.addOp t p c k act).takeEntry t act x.d id
      .done (after s t act id) []

/-- The operands of CPY, GATHER and SCATTER (R262). -/
def copyUse (x : Ins) (first : Bool) (a : Nat) : Use :=
  Use.cmd [(x.d, 1)] [(x.a, a), (x.b, 2), (x.c, 2), (x.e, 1)] first

/-! ### CPY (R289, R290) -/

/-- A channel of a troupe's section. -/
def State.chan (s : State) (t : Troupe) (k : Nat) : List (Nat × Nat) := lget [] (s.sect t.ens t.sec).chans k

/-- A transfer opens: %wpk is 0, and counts its destination (R290, R357). -/
def State.openChan (s : State) (t : Troupe) (k dst : Nat) : State :=
  s.modSect t.ens t.sec fun c => { c with wp := lmod (fun _ => 0) c.wp k, dests := lmod (fun _ => dst) c.dests k }

/-- %wpk set. -/
def State.setWp (s : State) (t : Troupe) (k : Nat) (v : Nat) : State :=
  s.modSect t.ens t.sec fun c => { c with wp := lmod (fun _ => BitVec.ofNat 32 v) c.wp k }

/-- CPY (R289): it joins its channel's queue, after those of lower %troupe of the clock; an idle channel opens it at once,
with %wpk 0 (R290). -/
def execCpy (x : Ins) (first : Bool) (s : State) : Host.Outcome State Fault Refusal :=
  runEngine x (copyUse x first 1) .cp 0x17 s
    (fun s t act =>
      let src := (uniPair t act x.b).toNat
      let dst := (uniPair t act x.c).toNat
      let n := (uni t act x.e).toNat
      decide ((uni t act x.a).toNat < (s.headerOf t).chan ∧ src % 16 = 0 ∧ dst % 16 = 0 ∧ n % 16 = 0 ∧ 16 ≤ n) &&
        s.windowOk t src n && s.windowOk t dst n)
    (fun s t act => decide ((s.chan t (uni t act x.a).toNat).length < Config.chanDepth))
    (fun _ t act => .cpy (uni t act x.a).toNat (uniPair t act x.b).toNat (uniPair t act x.c).toNat
      (uni t act x.e).toNat 0 none)
    (fun s t act id =>
      let k := (uni t act x.a).toNat
      let s := s.takes (.copy t.ens t.sec k) t.idx
      let s := if s.chan t k = [] then s.openChan t k (uniPair t act x.c).toNat else s
      s.modSect t.ens t.sec fun c => { c with chans := lmod (fun q => q ++ [(t.id, id)]) c.chans k })

/-- A transfer leaves its channel; the next one opens (R290). -/
def State.leaveChan (s : State) (t : Troupe) (k op : Nat) : State :=
  let q := s.chan t k
  let q' := q.filter fun e => e != (t.id, op)
  let s := s.modSect t.ens t.sec fun c => { c with chans := lmod (fun _ => q') c.chans k }
  if q.head? = some (t.id, op) then
    match q'.head?.bind fun e => s.opOf e.1 e.2 with
    | some (_, o) => match o.kind with
      | .cpy _ _ dst _ _ _ => s.openChan t k dst
      | _ => s
    | none => s
  else s

/-- Whether two engine ranges have a byte in common: as addresses, or as the bytes they reach (R289). -/
def State.rangesAlias (s : State) (t : Troupe) (a b n : Nat) : Bool :=
  decide (a < b + n ∧ b < a + n) ||
    match (s.engineTarget t a).2, (s.engineTarget t b).2 with
    | some (.sect j x), some (.sect k y) => decide (j = k ∧ x < y + n ∧ y < x + n)
    | some (.pool _ x _), some (.pool _ y _) => decide (x < y + n ∧ y < x + n)
    | _, _ => false

/-- The progress of a CPY recorded. -/
def OpKind.withDelivered (k : OpKind) (n : Nat) : OpKind :=
  match k with
  | .cpy c src dst len _ im => .cpy c src dst len n im
  | k => k

/-- Units of 16 bytes delivered in address order, each raising %wpk (R290). -/
def State.deliverUnits (s : State) (id op : Nat) : Nat → State
  | 0 => s
  | u + 1 =>
    match s.opOf id op with
    | none => s
    | some (t, o) => match o.kind with
      | .cpy c src dst len n im =>
        if !o.working || decide (len ≤ n) then s
        else
          match (match im with
            | some bs => EGot.bytes s ((bs.drop n).take 16)
            | none => s.opRead t o (src + n) 16) with
          | .waits v pg => s.opWaits v id op pg
          | .fault v code a => (v.saw id op).endWork id op 3 0 (some { code := code, addr := a })
          | .bytes v bs =>
            match v.opWrite t o (dst + n) bs with
            | .waits v pg => s.opWaits v id op pg
            | .fault v code a => (v.saw id op).endWork id op 3 0 (some { code := code, addr := a })
            | .bytes v _ =>
              (((v.modOp id op fun o =>
                { o with kind := o.kind.withDelivered (n + 16), lines := (v.linesOf t (dst + n) 16 ++ o.lines).dedup }).setWp
                  t c (n + 16)).saw id op).deliverUnits id op u
      | _ => s

/-- CPY_DELIVERY (R290): the open transfer delivers `units` units. Overlapping ranges are read whole before
any write (R289). -/
def execCpyDelivery (troupe op units : Nat) (s : State) : Host.Outcome State Fault Refusal :=
  match s.opOf troupe op with
  | none => .next s
  | some (t, o) => match o.kind with
    | .cpy c src dst len n im =>
      if o.working = false ∨ (s.chan t c).head? ≠ some (troupe, op) then .next s
      else if im = none ∧ s.rangesAlias t src dst len = true then
        match s.opRead t o src len with
        | .waits v pg => .next (s.opWaits v troupe op pg)
        | .fault v code a => .next ((v.saw troupe op).endWork troupe op 3 0 (some { code := code, addr := a }))
        | .bytes v bs =>
          .next (((v.saw troupe op).modOp troupe op fun o =>
            { o with kind := .cpy c src dst len n (some bs) }).deliverUnits troupe op units)
      else .next (s.deliverUnits troupe op units)
    | _ => .next s

/-- The live members of a group. -/
def State.liveOf (s : State) (n : Nat) : List Nat :=
  match s.groups.find? fun g => g.num == n with
  | some g => ((lenum g.members).filter fun e => e.2.live).map (·.1)
  | none => []

/-- An operation whose work is over is complete once its accesses are performed (R282, R356): a transfer leaves its
channel, and after an FCANCEL the entry is freed (R284). The value of a COLL is its live members then (R286). -/
def State.tryFinish (s : State) (id op : Nat) : State :=
  match s.opOf id op with
  | none => s
  | some (t, o) => match o.ends with
    | none => s
    | some (st, v, f) =>
      if o.done ∨ s.opOver o = false then s
      else
        let s := match o.kind with | .cpy c _ _ _ _ _ => s.leaveChan t c op | _ => s
        let s := s.modOp id op fun o => { o with fault := f }
        let s := match o.kind with
          | .coll _ _ n _ _ w => s.finishOp id op st (s.liveOf n).length w.changed
          | _ => s.finishOp id op st v false
        match o.cancelled, o.future with
        | true, some e =>
          let held := match s.troupe? id with
            | some u => (lget FutureEntry.new u.futures e).busy &&
                (lget FutureEntry.new u.futures e).gen == (lget FutureEntry.new t.futures e).gen
            | none => false
          if held then (s.freeEntryOf id e).prune id else s
        | _, _ => s

/-- CPY_TRANSFER_COMPLETE (R290): every byte is performed at `.dev`, or the transfer has faulted or is cancelled. -/
def execCpyTransferComplete (troupe op : Nat) (s : State) : Host.Outcome State Fault Refusal :=
  match s.opOf troupe op with
  | none => .next s
  | some (_, o) => match o.kind with
    | .cpy _ _ _ len n _ =>
      .next ((if o.working && n == len then s.endWork troupe op 1 n none else s).tryFinish troupe op)
    | _ => .next s

/-! ### GATHER and SCATTER (R291) -/

/-- n and z of the count-and-size word. -/
def countOf (e : Word) : Nat := (e.extractLsb' 0 24).toNat
def sizeOf (e : Word) : Nat := 2 ^ (e.extractLsb' 24 3).toNat

/-- The value checks of GATHER and SCATTER: `base` is indexed, `dense` is not. -/
def indexedOk (s : State) (t : Troupe) (idx base dense : Nat) (e : Word) : Bool :=
  let n := countOf e
  let z := sizeOf e
  e.extractLsb' 27 5 == 0 && decide (1 ≤ n ∧ z ≤ 16 ∧ idx % 4 = 0 ∧ base % z = 0 ∧ dense % z = 0) &&
    s.windowOk t idx (4 * n) && s.windowOk t dense (n * z)

/-- GATHER (R291). -/
def execGather (x : Ins) (first : Bool) (s : State) : Host.Outcome State Fault Refusal :=
  runEngine x (copyUse x first 2) .gt 0x17 s
    (fun s t act => indexedOk s t (uniPair t act x.a).toNat (uniPair t act x.b).toNat (uniPair t act x.c).toNat
      (uni t act x.e))
    (fun _ _ _ => true)
    (fun _ t act => .gather (uniPair t act x.a).toNat (uniPair t act x.b).toNat (uniPair t act x.c).toNat
      (countOf (uni t act x.e)) (sizeOf (uni t act x.e)) 0)
    (fun s _ _ _ => s)

/-- SCATTER (R291). -/
def execScatter (x : Ins) (first : Bool) (s : State) : Host.Outcome State Fault Refusal :=
  runEngine x (copyUse x first 2) .gt 0x17 s
    (fun s t act => indexedOk s t (uniPair t act x.a).toNat (uniPair t act x.c).toNat (uniPair t act x.b).toNat
      (uni t act x.e))
    (fun _ _ _ => true)
    (fun _ t act => .scatter (uniPair t act x.a).toNat (uniPair t act x.b).toNat (uniPair t act x.c).toNat
      (countOf (uni t act x.e)) (sizeOf (uni t act x.e)) 0)
    (fun s _ _ _ => s)

/-- Element `k` of a GATHER or SCATTER, moved as one access (R291). Where SCATTER has written a later element to the same
place, that one stands. -/
def State.indexElem (s : State) (t : Troupe) (o : Op) (idx src dst z k : Nat) (gather : Bool) : ElemGot :=
  match s.opRead t o (idx + 4 * k) 4 with
  | .waits s pg => .waits s pg
  | .fault s c a => .fault s c a
  | .bytes s bs =>
    let i := leNat bs
    let a := if gather then src + i * z else src + k * z
    let b := if gather then dst + k * z else dst + i * z
    if 2 ^ 64 ≤ a then .fault s 0x17 (a % 2 ^ 64)
    else if 2 ^ 64 ≤ b then .fault s 0x17 (b % 2 ^ 64)
    else match s.opRead t o a z with
      | .waits s pg => .waits s pg
      | .fault s c a => .fault s c a
      | .bytes s v =>
        if !gather && o.ahead.any fun e => decide (k < e.1) && e.2 == b then .moved s b []
        else match s.opWrite t o b v with
          | .waits s pg => .waits s pg
          | .fault s c a => .fault s c a
          | .bytes s _ => .moved s b (s.linesOf t b z)

/-- Element `k` of an operation that is a GATHER or SCATTER. -/
def State.copyElem (s : State) (t : Troupe) (o : Op) (k : Nat) : ElemGot :=
  match o.kind with
  | .gather i a b _ z _ => s.indexElem t o i a b z k true
  | .scatter i a b _ z _ => s.indexElem t o i a b z k false
  | _ => .moved s 0 []

/-- How many elements a GATHER or SCATTER moves. -/
def OpKind.copyCount : OpKind → Nat
  | .gather _ _ _ n _ _ | .scatter _ _ _ n _ _ => n
  | _ => 0

/-- GATHER_SCATTER_COMPLETE (R291): up to `elements` of the elements that are left are moved; the operation is
complete once they all are and its accesses are performed, or it has faulted or is cancelled. -/
def execGatherScatterComplete (troupe op elements : Nat) (s : State) : Host.Outcome State Fault Refusal :=
  match s.opOf troupe op with
  | none => .next s
  | some (_, o) =>
    let n := o.kind.copyCount
    if n = 0 then .next s
    else if o.working && decide (o.kind.moved < n) then
      .next (s.moveNext State.copyElem (fun c => c) troupe op (min elements (n - o.kind.moved)))
    else .next ((if o.working then s.endWork troupe op 1 n none else s).tryFinish troupe op)

/-! ### FCANCEL and WAITC -/

/-- FCANCEL (R286): a CPY, GATHER or SCATTER that works is stopped, and is cancelled, with its entry freed, once the writes
that it has made are performed (R282, R356), one whose work is over too, with its value, unless it has faulted; of any other
operation the entry is freed, and the FWAITs on it return status 4 and value 0, as of a stale handle: R286 does not say
(DESIGN CHOICE, log 42). -/
def execFcancel (x : Ins) (first : Bool) (s : State) : Host.Outcome State Fault Refusal :=
  runEff x (Use.cmd [] [(x.a, 1)] first) s fun s t _ act =>
    match s.lookup t (uni t act x.a) with
    | .invalid => .done s (faultAll act 0x0E 0)
    | .stale => .done s []
    | .entry o e f =>
      let stop := fun (v : Op) (n : Nat) =>
        ((s.modOp o v.id fun v => { v with cancelled := true }).endWork o v.id 2 n none).tryFinish o v.id
      let free := fun (s : State) => (s.freeEntryOf o e).prune o
      match (s.troupe? o).bind fun u => u.ops.find? fun v => v.future == some e with
      | some v =>
        if v.done ∨ f.status.extractLsb' 0 8 ≠ 0 then .done (free s) []
        else match v.kind, v.ends with
          | .cpy _ _ _ _ _ _, some (_, n, d) | .gather .., some (_, n, d) | .scatter .., some (_, n, d) =>
            .done (if d.isSome then (s.modOp o v.id fun v => { v with cancelled := true }).tryFinish o v.id else stop v n) []
          | .cpy _ _ _ _ n _, none => .done (stop v n) []
          | .gather _ _ _ _ _ m, none | .scatter _ _ _ _ _ m, none => .done (stop v (m + v.ahead.length)) []
          | _, _ => .done (free (s.serveFwait o e 4 0).1) []
      | none => .done (free s) []

/-- The seven classes in the order of WAITC's thresholds (R287). -/
def waitClasses : List OpClass := [.ld, .st, .cp, .tm, .gt, .cl, .um]

/-- The threshold of a class; 15 sets none. -/
def threshold (imm : Word) (k : Nat) : Nat := (imm.extractLsb' (4 * k) 4).toNat

/-- Whether every threshold is met (R287), by what the counters read before the issues of the clock (R396). -/
def Troupe.waitMet (t : Troupe) (now : Nat) (imm : Word) : Bool :=
  let t := { t with ops := t.ops.filter fun o => o.at_ != some now }
  (lenum waitClasses).all fun e => threshold imm e.1 == 15 || decide (t.counter now e.2 ≤ threshold imm e.1)

/-- The deferred faults assigned to a WAITC: those of operations whose completion a threshold required
(R275, R283); the first issued comes first. -/
def Troupe.assigned (t : Troupe) (imm : Word) : Option (Op × DeferredFault) :=
  let ok := fun (o : Op) => match (lenum waitClasses).find? fun e => e.2 == o.cls with
    | some e => threshold imm e.1 != 15 && decide (threshold imm e.1 ≤
        (t.ops.filter fun v => v.cls == o.cls && decide (o.id < v.id)).length)
    | none => false
  match t.ops.find? fun o => o.done && o.fault.isSome && ok o with
  | some o => o.fault.map fun f => (o, f)
  | none => none

/-- WAITC (R287). -/
def execWaitc (x : Ins) (s : State) : Host.Outcome State Fault Refusal :=
  let u := Use.none_
  match s.gate x u with
  | .nobody => .fault .noIssuer
  | .empty t p => .next ((s.start t p x u).advance (refOf t p))
  | .fault t p m c => .next ((s.start t p x u).faultWord (refOf t p) (faultAll m c 0))
  | .go t p act bad =>
    let r := refOf t p
    if act = 0 ∨ x.imm.extractLsb' 28 4 ≠ 0 then
      .next ((s.start t p x u).faultWord r ((if act = 0 then [] else faultAll act 0x0B 0) ++ faultAll bad 0x12 0))
    else if !t.waitMet s.now x.imm then .next (s.modPath r fun p => { p with wait := .retry })
    else match t.assigned x.imm with
      | none => .next ((s.start t p x u).finish r bad)
      | some (o, f) =>
        .next (((s.start t p x u).clearFault t.id o.id).faultDeferred r act f.code f.addr o.pc (faultAll bad 0x12 0))

/-! ### COLL (R292–R294) -/

/-- A membership table. -/
def State.group? (s : State) (n : Nat) : Option Group := s.groups.find? fun g => g.num == n

/-- Whether a launch may name an Active group (R292, R382, R389). -/
def State.groupOk (s : State) (t : Troupe) (n : Nat) : Bool :=
  let h := s.headerOf t
  decide (h.grpBase ≤ n ∧ n < h.grpBase + h.grpCnt) &&
    match s.group? n with | some g => g.st == .active | none => false

/-- COLL (R292). In the clock of a loss it comes after it (R393). -/
def execColl (x : Ins) (op : CollOp) (ty : Ty) (first : Bool) (s : State) : Host.Outcome State Fault Refusal :=
  runEngine x (Use.cmd [(x.d, 1)] [(x.a, 1), (x.b, 2)] first) .cl 0x17 s
    (fun s t act =>
      let d := (uniPair t act x.b).toNat
      s.groupOk t (uni t act x.a).toNat && d % 64 == 0 && s.windowOk t d 64)
    (fun _ _ _ => true)
    (fun s t act =>
      let n := (uni t act x.a).toNat
      .coll op ty n (match s.group? n with | some g => g.gen.toNat | none => 0) (uniPair t act x.b).toNat
        { slots := s.liveOf n })
    (fun s t act _ => s.takes (.group (uni t act x.a).toNat) 1)

/-- The descriptor of a COLL (R292). -/
structure CollDesc where
  send : Nat
  recv : Nat
  count : Nat
  root : Nat
  rop : Nat
  deriving DecidableEq, Repr

/-- A descriptor within its limits: reserved bytes 0, a ROP that the type takes (R292, R293). -/
def collDesc (bs : List Byte) (op : CollOp) (ty : Ty) (g : Nat) : Option CollDesc :=
  let f := fun (o n : Nat) => leNat ((bs.drop o).take n)
  let d : CollDesc := { send := f 0 8, recv := f 8 8, count := f 0x10 4, root := f 0x14 2, rop := f 0x16 1 }
  if 1 ≤ d.count ∧ d.count ≤ 2 ^ 28 ∧ d.rop ≤ 3 ∧ (d.rop = 1 → ty.cls = true) ∧ (op = .bcast → d.root < g) ∧
      f 0x17 41 = 0 then some d else none

/-- Bytes of an element of a collective. -/
def collSize (ty : Ty) : Nat :=
  match ty with | .b8 => 1 | .b16 | .bf16 | .f16 => 2 | _ => 4

/-- Bytes of this member's input and output (R293). -/
def collSend (op : CollOp) (d : CollDesc) (z g self : Nat) : Nat :=
  match op with
  | .allred | .allgat => d.count * z
  | .redsc | .a2a => g * d.count * z
  | .bcast => if self = d.root then d.count * z else 0
def collRecv (op : CollOp) (d : CollDesc) (z g : Nat) : Nat :=
  match op with
  | .allred | .redsc | .bcast => d.count * z
  | .allgat | .a2a => g * d.count * z

/-- One combining step of two FP32 codes, or of two integers (R293). -/
def collStep (ty : Ty) (rop a b : Nat) : Nat :=
  if ty.cls then
    if rop = 2 then rne32 (pickMinMax false false (value .f32 a) (value .f32 b))
    else if rop = 3 then rne32 (pickMinMax true false (value .f32 a) (value .f32 b))
    else rne32 (sumNum false [value .f32 a, value .f32 b])
  else if rop = 2 then (if ty.toInt b < ty.toInt a then b else a)
  else if rop = 3 then (if ty.toInt a < ty.toInt b then b else a)
  else (a + b) % 2 ^ 32

/-- Values combined two at a time until one is left, in an order that is not fixed (R142, R293): `n` numbers the free
values. -/
def combineAll (f : Nat → Nat → Nat) (n : Nat) : Nat → List Nat → Nat
  | 0, xs => xs.headD 0
  | _ + 1, [] => 0
  | _ + 1, [x] => x
  | k + 1, x :: y :: r =>
    let xs := x :: y :: r
    let p := Config.combinePick (n + k) xs.length
    let i := p.1 % xs.length
    let rest := xs.eraseIdx i
    let j := p.2 % rest.length
    combineAll f n k (f (xs.getD i 0) (rest.getD j 0) :: rest.eraseIdx j)

/-- One element combined over its members' values; a mean divides by how many they are (R293). -/
def collElem (ty : Ty) (rop free : Nat) (vs : List Nat) : Nat :=
  let live := vs.length
  let xs := if ty.cls then vs.map fun v => rne32 (value ty v) else vs
  let r := combineAll (collStep ty rop) free xs.length xs
  if ty.cls then
    let r := if rop = 1 then divRound .f32 .rne (value .f32 r) (.fin false live 0) else r
    rne ty (value .f32 r)
  else r

/-- Element i of a part. -/
def partElem (z : Nat) (bs : List Byte) (i : Nat) : List Byte := (bs.drop (i * z)).take z

/-- The element of SEND that element j of RECV needs (R293). -/
def collOwn (op : CollOp) (d : CollDesc) (self j : Nat) : Option Nat :=
  match op with
  | .allred => some j
  | .redsc => some (self * d.count + j)
  | .allgat => if j / d.count = self then some (j % d.count) else none
  | .a2a => if j / d.count = self then some j else none
  | .bcast => if self = d.root then some j else none

/-- What element j of RECV receives: `own` is the element of SEND that it needs, `parts` what each other member sends, by
slot; none where the part would come from a lost member (R293, R294). -/
def collValue (op : CollOp) (ty : Ty) (d : CollDesc) (free j : Nat) (own : Option (List Byte))
    (parts : List (Nat × List Byte)) : Option (List Byte) :=
  let z := collSize ty
  match op with
  | .allred | .redsc =>
    some (leBytes z (collElem ty d.rop free ((own.toList ++ parts.map fun e => partElem z e.2 j).map leNat)))
  | .allgat | .a2a =>
    match own with
    | some b => some b
    | none => (mfind parts (j / d.count)).map fun b => partElem z b (j % d.count)
  | .bcast =>
    match own with
    | some b => some b
    | none => (mfind parts d.root).map fun b => partElem z b j

/-- An element of SEND read into the operation, once (R293). -/
def State.sendElem (s : State) (t : Troupe) (o : Op) (w : CollWork) (d : CollDesc) (z m : Nat) : EGot :=
  match mfind w.own m with
  | some b => .bytes s b
  | none => match s.opRead t o (d.send + m * z) z with
    | .bytes s b =>
      .bytes (s.modOp t.id o.id fun o => match o.kind with
        | .coll op ty g gen a w => { o with kind := .coll op ty g gen a { w with own := mput m b w.own } }
        | _ => o) b
    | g => g

/-- This member's slot in a group, and how many slots the group has. -/
def State.groupSelf (s : State) (n : Nat) : Nat × Nat :=
  match s.group? n with | some g => (g.self, g.members.length) | none => (0, 0)

/-- How many elements a COLL goes through: those of SEND, then those of RECV. -/
def collCounts (op : CollOp) (ty : Ty) (d : CollDesc) (self G : Nat) : Nat × Nat :=
  (collSend op d (collSize ty) G self / collSize ty, collRecv op d (collSize ty) G / collSize ty)

/-- Element `k` of a COLL: one of SEND read, or one of RECV written once the other members' parts have arrived. -/
def State.collMove (s : State) (t : Troupe) (o : Op) (k : Nat) : ElemGot :=
  match o.kind with
  | .coll c ty n _ _ w =>
    let (self, G) := s.groupSelf n
    match collDesc w.got c ty G with
    | none => .waits s none
    | some d =>
      let z := collSize ty
      let ns := (collCounts c ty d self G).1
      if k < ns then match s.sendElem t o w d z k with
        | .waits s pg => .waits s pg
        | .fault s c a => .fault s c a
        | .bytes s _ => .moved s 0 []
      else
        let j := k - ns
        match w.parts with
        | none => .waits s none
        | some parts =>
          match (match collOwn c d self j with
            | some m => match s.sendElem t o w d z m with
              | .bytes s b => (EGot.bytes s b, some b)
              | g => (g, none)
            | none => (.bytes s [], none)) with
          | (.waits s pg, _) => .waits s pg
          | (.fault s c a, _) => .fault s c a
          | (.bytes s _, own) => match collValue c ty d (w.free + 32 * j) j own parts with
            | none => .moved s 0 []
            | some bs => match s.opWrite t o (d.recv + j * z) bs with
              | .waits s pg => .waits s pg
              | .fault s c a => .fault s c a
              | .bytes s _ => .moved s (d.recv + j * z) (s.linesOf t (d.recv + j * z) z)
  | _ => .moved s 0 []

/-- How many elements a COLL goes through in all, once its descriptor is known. -/
def State.collTotal (s : State) (k : OpKind) : Nat :=
  match k with
  | .coll c ty n _ _ w =>
    let (self, G) := s.groupSelf n
    match collDesc w.got c ty G with
    | some d => (collCounts c ty d self G).1 + (collCounts c ty d self G).2
    | none => 0
  | _ => 0

/-- The work of a COLL changed. -/
def OpKind.withColl (k : OpKind) (f : CollWork → CollWork) : OpKind :=
  match k with
  | .coll op ty g gen d w => .coll op ty g gen d (f w)
  | k => k

/-- The descriptor of a COLL read and checked (R292, R305). -/
def State.collBegin (s : State) (t : Troupe) (o : Op) (c : CollOp) (ty : Ty) (n desc : Nat) : State :=
  let (self, G) := s.groupSelf n
  match s.opRead t o desc 64 with
  | .waits v pg => s.opWaits v t.id o.id pg
  | .fault v code a => (v.saw t.id o.id).endWork t.id o.id 3 0 (some { code := code, addr := a })
  | .bytes v bs =>
    let v := v.saw t.id o.id
    let bad := v.endWork t.id o.id 3 0 (some { code := 0x17, addr := desc })
    match collDesc bs c ty G with
    | none => bad
    | some d =>
      let z := collSize ty
      if s.windowOk t d.send (collSend c d z G self) && s.windowOk t d.recv (collRecv c d z G) then
        v.modOp t.id o.id fun o => { o with kind := o.kind.withColl fun w => { w with got := bs } }
      else bad

/-- The other members' parts arrive: one of every live member that sends one, and no other. A member lost since the issue
has its part left out, and `changed` says so (R293, R294); one that is lost later stays combined. The arrival comes
after the losses of its clock. -/
def State.collArrive (s : State) (t : Troupe) (o : Op) (c : CollOp) (ty : Ty) (n : Nat) (w : CollWork)
    (parts : List (Nat × List Byte)) (changed : Bool) : State :=
  let (self, G) := s.groupSelf n
  match collDesc w.got c ty G with
  | none => s
  | some d =>
    let live := s.liveOf n
    let need := live.filter fun k => k != self && (c != .bcast || k == d.root)
    let lost := w.slots.any fun k => !live.contains k
    if (need.all fun k => (mfind parts k).isSome) && (parts.all fun e => need.contains e.1 && e.2.length == d.count * collSize ty) &&
        (changed == lost) then
      (({ s with free := s.free + 32 * (d.count + 1) } : State).takes (.group n) 1).modOp t.id o.id fun o =>
        { o with kind := o.kind.withColl fun w => { w with parts := some parts, free := s.free, changed := lost } }
    else s

/-- COLL_COMPLETE (R293, R294): the descriptor is read; then the other members' parts arrive; then the elements of SEND
that are left are read and those of RECV written; and the operation is complete once its accesses are performed. -/
def execCollComplete (troupe op : Nat) (parts : List (Nat × List Byte)) (changed : Bool) (s : State) :
    Host.Outcome State Fault Refusal :=
  match s.opOf troupe op with
  | none => .next s
  | some (t, o) => match o.kind with
    | .coll c ty n _ desc w =>
      if o.working = false then .next (s.tryFinish troupe op)
      else if w.got = [] then .next ((s.collBegin t o c ty n desc).tryFinish troupe op)
      else if w.parts.isNone then .next (s.collArrive t o c ty n w parts changed)
      else if w.moved = s.collTotal o.kind then .next ((s.endWork troupe op 1 0 none).tryFinish troupe op)
      else .next (s.moveNext State.collMove (fun c => c) troupe op (s.collTotal o.kind - w.moved))
    | _ => .next s

end Sys2Proof.Machine
end

