-- ==== Sys2Proof/Machine/Unmask.lean ====
section
/-! DEFINITION. The unmasking engine (R295–R298, R447, R456): the issue of its four commands, and their
execution at a slot of the die, one command of a slot after another. -/

namespace Sys2Proof.Machine

/-- A slot of a die. -/
def UmSlot.free : UmSlot :=
  { owner := none, st := .free, cfg := none, masked := [], sel := [], dirty := [], queue := [] }

/-- A slot of a die, by its number. -/
def State.slot (s : State) (d k : Nat) : UmSlot := lget UmSlot.free (s.die d).um k

/-- A slot changed. -/
def State.modSlot (s : State) (d k : Nat) (f : UmSlot → UmSlot) : State :=
  s.modDie d fun D => { D with um := lmod f D.um k }

/-- Whether a troupe may name a slot of its die: it is allotted to its launch (R392, R393). -/
def State.slotOk (s : State) (t : Troupe) (k : Nat) : Bool :=
  decide (k < 16) && match s.launchOf t.ens with
    | some l => (s.slot t.die k).owner == some l.id
    | none => false

/-- An unmasking command issues: its operation joins the queue of its slot, in the order of R248 with others of the
clock, and before a launch completion frees the slot (R262, R283, R299, R393). `blk` says
whether it takes a configuration block in B. -/
def runUm (x : Ins) (k : UmKind) (first blk : Bool) (s : State) : Host.Outcome State Fault Refusal :=
  runEngine x (Use.cmd [(x.d, 1)] ((x.a, 1) :: if blk then [(x.b, 2)] else []) first) .um 0x1A s
    (fun s t act => s.slotOk t (uni t act x.a).toNat &&
      (!blk || ((uniPair t act x.b).toNat % 64 == 0 && s.windowOk t (uniPair t act x.b).toNat 64)))
    (fun _ _ _ => true)
    (fun _ t act => .um k (uni t act x.a).toNat (if blk then (uniPair t act x.b).toNat else 0) { die := t.die })
    (fun s t act id => (s.takes (.slot t.die (uni t act x.a).toNat) t.rank).modSlot t.die (uni t act x.a).toNat fun u => { u with queue := u.queue ++ [(t.id, id)] })

/-- UMCFG (R295). -/
def execUmcfg (x : Ins) (first : Bool) (s : State) : Host.Outcome State Fault Refusal :=
  runUm x .cfg first true s

/-- UMRANK (R297). -/
def execUmrank (x : Ins) (first : Bool) (s : State) : Host.Outcome State Fault Refusal :=
  runUm x .rank first false s

/-- UMCOMMIT (R298). -/
def execUmcommit (x : Ins) (first : Bool) (s : State) : Host.Outcome State Fault Refusal :=
  runUm x .commit first false s

/-- UMDIRTY (R298). -/
def execUmdirty (x : Ins) (first : Bool) (s : State) : Host.Outcome State Fault Refusal :=
  runUm x .dirty first false s

/-! ### Execution -/

/-- How a command is worked out at its slot: a wait; a deferred fault; or the slot after it, its value and what it
writes, by engine address. -/
inductive UmEnd where
  | waits (s : State) (page : Option Nat)
  | fault (s : State) (code addr : Nat)
  | done (s : State) (u : UmSlot) (value : Nat) (out : List (Nat × List Byte))
  deriving DecidableEq, Repr

/-- The code of a fault of the unmasking engine: a window fault has code 0x1A (R305). -/
def umCode (c : Nat) : Nat := if c = 0x17 then 0x1A else c

/-- An engine access of the unmasking engine. -/
def umGot (g : EGot) (k : State → List Byte → UmEnd) : UmEnd :=
  match g with
  | .waits s pg => .waits s pg
  | .fault s c a => .fault s (umCode c) a
  | .bytes s bs => k s bs

/-- Elements of `z` bytes read by a command from an address upward; one that it has read before its turn is not read
again (R354). -/
def State.umRead (s : State) (t : Troupe) (o : Op) (w : UmWork) (z va : Nat) : Nat → EGot
  | 0 => .bytes s []
  | n + 1 =>
    match (match mfind w.cache va with | some b => EGot.bytes s b | none => s.engineRead t (engineOf t o) va z) with
    | .bytes s b => match State.umRead s t o w z (va + z) n with
      | .bytes s bs => .bytes s (b ++ bs)
      | g => g
    | g => g

/-- Words of a bitmap row. -/
def rowWords (p : Nat) : Nat := (p + 31) / 32

/-- A configuration block within its limits (R295). -/
def umConfig (bs : List Byte) : Option UmConfig :=
  let f := fun (o n : Nat) => leNat ((bs.drop o).take n)
  let c : UmConfig :=
    { conf := f 0 8, tgt := f 8 8, sel := f 0x10 8, dirty := f 0x18 8, mask0 := f 0x20 8, p := f 0x28 2,
      lb := f 0x2A 1, share := f 0x2C 2, min := f 0x2E 2, max := f 0x30 2 }
  if 1 ≤ c.p ∧ c.p ≤ 8192 ∧ 1 ≤ c.lb ∧ c.lb ≤ 64 ∧ c.share ≤ 256 ∧ c.min ≤ c.max ∧ f 0x2B 1 = 0 ∧ f 0x32 14 = 0 ∧
      c.conf % 4 = 0 ∧ c.tgt % 4 = 0 ∧ c.sel % 4 = 0 ∧ c.dirty % 4 = 0 ∧ c.mask0 % 4 = 0 then some c else none

/-- The set bits below `n` of a bitmap. -/
def bitsBelow (bs : List Byte) (n : Nat) : List Nat :=
  let v := leNat bs
  (List.range n).filter fun k => v.testBit k

/-- UMCFG at its slot (R295). -/
def State.umCfg (s : State) (t : Troupe) (o : Op) (w : UmWork) (u : UmSlot) (blk : Nat) : UmEnd :=
  umGot (s.umRead t o w 4 blk 16) fun s bs =>
    match umConfig bs with
    | none => .fault s 0x1A blk
    | some c =>
      let ready := fun (m : List Nat) => { u with
        st := .ready, cfg := some c, masked := m, sel := [], dirty := List.replicate c.lb [] }
      if c.mask0 = 0 then .done s (ready (List.range c.p)) 0 []
      else
        let n := 4 * rowWords c.p
        if s.windowOk t c.mask0 n then
          umGot (s.umRead t o w 4 c.mask0 (rowWords c.p)) fun s bs => .done s (ready (bitsBelow bs c.p)) 0 []
        else .fault s 0x1A c.mask0

/-- The confidences of the masked positions, read one by one (R297). -/
def State.readConf (s : State) (t : Troupe) (o : Op) (w : UmWork) (base : Nat) : List Nat → List (Nat × Nat) →
    (State → List (Nat × Nat) → UmEnd) → UmEnd
  | [], acc, k => k s acc.reverse
  | p :: ps, acc, k =>
    match s.umRead t o w 4 (base + 4 * p) 1 with
    | .waits s pg => .waits s pg
    | .fault s c a => .fault s (umCode c) a
    | .bytes s bs => State.readConf s t o w base ps ((p, leNat bs) :: acc) k

/-- Whether position-and-confidence `a` ranks before `b` (R297): −0 equals +0. -/
def ranksBefore (a b : Nat × Nat) : Bool :=
  let x := value .f32 a.2
  let y := value .f32 b.2
  if x.isNan then y.isNan && decide (a.1 < b.1)
  else if y.isNan then true
  else if x.isZero && y.isZero then decide (a.1 < b.1)
  else if y.below x then true
  else if x.below y then false
  else decide (a.1 < b.1)

/-- An entry put into a ranking. -/
def rankInsert (a : Nat × Nat) : List (Nat × Nat) → List (Nat × Nat)
  | [] => [a]
  | b :: r => if ranksBefore a b then a :: b :: r else b :: rankInsert a r

/-- The ranking of R297. -/
def ranked (cs : List (Nat × Nat)) : List (Nat × Nat) := cs.foldr rankInsert []

/-- c of R297, for n masked positions of which v have a number. -/
def selectCount (c : UmConfig) (n v : Nat) : Nat :=
  let s := (c.share * n + 255) / 256
  let k := min (min (max s c.min) c.max) n
  if v < k then max v (min c.min n) else k

/-- UMRANK at its slot (R297, R447). -/
def State.umRank (s : State) (t : Troupe) (o : Op) (w : UmWork) (u : UmSlot) (c : UmConfig) : UmEnd :=
  if !s.windowOk t c.conf (4 * c.p) then .fault s 0x1A c.conf
  else s.readConf t o w c.conf u.masked [] fun s cs =>
    let n := cs.length
    let v := (cs.filter fun e => !(value .f32 e.2).isNan).length
    let k := selectCount c n v
    let sel := ((ranked cs).take k).map (·.1)
    if !s.windowOk t c.sel (2 * k) then .fault s 0x1A c.sel
    else .done s { u with st := .selected, sel := sel } k ((lenum sel).map fun e => (c.sel + 2 * e.1, leBytes 2 e.2))

/-- The target of position p, block b, number j in TGT's bytes (R295). -/
def tgtAt (c : UmConfig) (bs : List Byte) (p b j : Nat) : Nat :=
  leNat ((bs.drop (2 * ((p * c.lb + b) * 4 + j))).take 2)

/-- The dirty positions of block b after `sel` has been committed (R298). -/
def dirtyRow (c : UmConfig) (bs : List Byte) (sel : List Nat) (b : Nat) : List Nat :=
  (List.range c.p).filter fun p => sel.contains p || (List.range 4).any fun j => sel.contains (tgtAt c bs p b j)

/-- How many entries of a map are dirty. -/
def dirtyCount (m : List (List Nat)) : Nat := (m.map List.length).sum

/-- UMCOMMIT at its slot (R298). The fault of a bad target has TGT's address: R298 names none (DESIGN CHOICE, log 42). -/
def State.umCommit (s : State) (t : Troupe) (o : Op) (w : UmWork) (u : UmSlot) (c : UmConfig) : UmEnd :=
  let n := 8 * c.p * c.lb
  if !s.windowOk t c.tgt n then .fault s 0x1A c.tgt
  else umGot (s.umRead t o w 2 c.tgt (n / 2)) fun s bs =>
    let bad := (List.range (4 * c.p * c.lb)).any fun i =>
      let v := leNat ((bs.drop (2 * i)).take 2)
      v != 0xFFFF && decide (c.p ≤ v)
    if bad then .fault s 0x1A c.tgt
    else
      let m := (List.range c.lb).map (dirtyRow c bs u.sel)
      .done s { u with st := .ready, masked := u.masked.filter fun p => !u.sel.contains p, sel := [], dirty := m }
        (dirtyCount m) []

/-- A row of the map as its words (R295). -/
def rowBytes (c : UmConfig) (row : List Nat) : List Byte :=
  leBytes (4 * rowWords c.p) (row.foldl (fun v p => v + 2 ^ p) 0)

/-- UMDIRTY at its slot (R298): the map as words. -/
def State.umDirty (s : State) (t : Troupe) (u : UmSlot) (c : UmConfig) : UmEnd :=
  if !s.windowOk t c.dirty (4 * rowWords c.p * c.lb) then .fault s 0x1A c.dirty
  else
    let bs := u.dirty.flatMap (rowBytes c)
    .done s u (dirtyCount u.dirty)
      ((List.range (rowWords c.p * c.lb)).map fun i => (c.dirty + 4 * i, (bs.drop (4 * i)).take 4))

/-- A command at its slot; one that the slot's state does not take faults (R296), with address 0: R296 names none
(DESIGN CHOICE, log 42). -/
def State.umRun (s : State) (t : Troupe) (o : Op) (w : UmWork) (u : UmSlot) (k : UmKind) (blk : Nat) : UmEnd :=
  match k, u.st, u.cfg with
  | .cfg, _, _ => s.umCfg t o w u blk
  | .rank, .ready, some c | .rank, .selected, some c => s.umRank t o w u c
  | .commit, .selected, some c => s.umCommit t o w u c
  | .dirty, .ready, some c | .dirty, .selected, some c => s.umDirty t u c
  | _, _, _ => .fault s 0x1A 0

/-- The elements that a command reads, as a first address, their size and their number: what it may read before its
turn. -/
def UmSlot.reads (u : UmSlot) (k : UmKind) (blk : Nat) (w : UmWork) : List (Nat × Nat × Nat) :=
  match k, u.cfg with
  | .cfg, _ =>
    let bs := (List.range 16).map fun i => mfind w.cache (blk + 4 * i)
    (blk, 4, 16) :: (if bs.all Option.isSome then match umConfig (bs.flatMap fun b => b.getD []) with
      | some c => if c.mask0 = 0 then [] else [(c.mask0, 4, rowWords c.p)]
      | none => []
    else [])
  | .rank, some c => u.masked.map fun p => (c.conf + 4 * p, 4, 1)
  | .commit, some c => [(c.tgt, 2, 4 * c.p * c.lb)]
  | _, _ => []

/-- The work of an unmasking command changed. -/
def OpKind.withUm (k : OpKind) (f : UmWork → UmWork) : OpKind :=
  match k with
  | .um c k b w => .um c k b (f w)
  | k => k

/-- A write of a command that has been worked out. -/
def State.umElem (s : State) (t : Troupe) (o : Op) (k : Nat) : ElemGot :=
  match o.kind with
  | .um _ _ _ w => match w.out[k]? with
    | some e => match s.opWrite t o e.1 e.2 with
      | .waits s pg => .waits s pg
      | .fault s c a => .fault s c a
      | .bytes s _ => .moved s e.1 (s.linesOf t e.1 e.2.length)
    | none => .moved s 0 []
  | _ => .moved s 0 []

/-- The head of a slot's queue leaves it. -/
def State.popSlot (s : State) (d k : Nat) : State := s.modSlot d k fun u => { u with queue := u.queue.drop 1 }

/-- The writes of a command that are left are made; after the last the slot is as the command leaves it (R297, R298). -/
def State.umWrite (s : State) (d k id op : Nat) : State :=
  match s.opOf id op with
  | none => s
  | some (_, o) => match o.kind with
    | .um _ _ _ w =>
      let s := s.moveNext State.umElem umCode id op (w.out.length - w.moved)
      match s.opOf id op with
      | none => s
      | some (_, o) => match o.kind with
        | .um _ _ _ w =>
          match w.slot with
          | some v =>
            if o.working && w.moved == w.out.length then
              (s.modSlot d k fun u => { v with queue := u.queue, owner := u.owner }).endWork id op 1 w.value none
            else s
          | none => s
        | _ => s
    | _ => s

/-- An unmasking command is complete once its accesses are performed; its slot then takes the next one (R299). -/
def State.finishUm (s : State) (d k id op : Nat) : State :=
  let s := s.tryFinish id op
  match s.opOf id op with
  | some (_, o) => if o.done then s.popSlot d k else s
  | none => s.popSlot d k

/-- UM_COMMAND_COMPLETE (R296–R299, R456): the oldest command of a slot is worked out, its writes are made, and it is
complete once they are performed at `.dev`. A UMCFG that fails leaves the slot Free. -/
def execUmCommandComplete (die slot : Nat) (s : State) : Host.Outcome State Fault Refusal :=
  match (s.slot die slot).queue with
  | [] => .next s
  | q :: _ =>
    match s.opOf q.1 q.2 with
    | none => .next (s.popSlot die slot)
    | some (t, o) => match o.kind with
      | .um k _ blk w =>
        if o.done then .next (s.popSlot die slot)
        else if o.working = false then .next (s.finishUm die slot q.1 q.2)
        else if w.slot.isSome then .next (s.umWrite die slot q.1 q.2)
        else match s.umRun t o w (s.slot die slot) k blk with
          | .waits u pg => .next (s.opWaits u q.1 q.2 pg)
          | .fault u c a =>
            let u := (u.saw q.1 q.2).endWork q.1 q.2 3 0 (some { code := c, addr := a })
            .next (if k = .cfg then
                u.modSlot die slot fun u => { u with st := .free, cfg := none, masked := [], sel := [], dirty := [] }
              else u)
          | .done u v n out =>
            .next (((u.saw q.1 q.2).modOp q.1 q.2 fun o =>
              { o with kind := o.kind.withUm fun w => { w with slot := some v, value := n, out := out } }).umWrite
                die slot q.1 q.2)
      | _ => .next (s.popSlot die slot)

/-! ### Elements before their turn (R354) -/

/-- An element at an engine address that a command reads, read before its turn. -/
def State.umAhead (s : State) (t : Troupe) (o : Op) (k : UmKind) (n blk va : Nat) (w : UmWork) : State :=
  match ((s.slot w.die n).reads k blk w).find? fun r => decide (r.1 ≤ va ∧ va < r.1 + r.2.1 * r.2.2 ∧ (va - r.1) % r.2.1 = 0) with
  | none => s
  | some r =>
    if o.working = false ∨ (mfind w.cache va).isSome = true ∨ (s.slot w.die n).queue.head? ≠ some (t.id, o.id) then s
    else match s.engineRead t (engineOf t o) va r.2.1 with
      | .bytes v b => (v.modOp t.id o.id fun o =>
          { o with kind := o.kind.withUm fun w => { w with cache := mput va b w.cache } }).saw t.id o.id
      | .waits v _ => s.opWaits v t.id o.id none
      | .fault _ _ _ => s

/-- An element of an operation before its turn: element `k` of a TLD, TST, GATHER, SCATTER or COLL moved, or of the
writes of an unmasking command; or the element at address `k` that an unmasking command reads. -/
def State.partAhead (s : State) (troupe op k : Nat) : State :=
  match s.opOf troupe op with
  | none => s
  | some (t, o) =>
    match o.kind with
    | .tld .. | .tst .. =>
      if t.tileReady o = false ∨ (o.kind.tileRanges.any fun r => s.tileBad troupe r.1 r.2) = true then s
      else s.moveAhead State.tileElem tileCode t o k o.kind.tileCount
    | .gather .. | .scatter .. => s.moveAhead State.copyElem (fun c => c) t o k o.kind.copyCount
    | .coll .. => s.moveAhead State.collMove (fun c => c) t o k (s.collTotal o.kind)
    | .um c n blk w =>
      if w.slot.isSome then s.moveAhead State.umElem umCode t o k w.out.length else s.umAhead t o c n blk k w
    | _ => s

end Sys2Proof.Machine
end

