-- ==== Sys2Proof/Machine/Entry.lean ====
section
/-! DEFINITION. Fetches and header entry (R143–R145, R155, R156, R173, R174), refill (R20–R29), vectoring
to an exit routine and the stop of a path under pre-emption (R412–R415, R455), the standard handler
(R408), and the fault of a word that is no instruction (R158 rows 1 to 5). -/

namespace Sys2Proof.Machine

/-! ### Paths that may go on -/

/-- Whether the ensemble of a troupe is on cores. -/
def State.onCores (s : State) (t : Troupe) : Bool :=
  match s.ens? t.ens with | some e => e.resident | none => false

/-- Whether the ensemble of a troupe is Pre-empting. -/
def State.preempting (s : State) (t : Troupe) : Bool :=
  match s.ens? t.ens with | some e => e.st == .preempting | none => false

/-- Whether a slice of a path is Stopped: running, waiting at a REGANG or on its stack (R60). -/
def Troupe.stopped (t : Troupe) (p : Path) : Bool :=
  let ss := p.waiting.foldl (fun b w => b ||| w.slices) (p.stack.foldl (fun b e => match e with
    | .join _ _ => b | .deferred x _ => b ||| x) p.slices)
  ss &&& t.slicesIn .stopped != 0

/-- Whether a path may fetch, enter a header or issue, apart from its stall count: its troupe runs and is
resident, nothing holds it, and no slice of it is Stopped (R26, R48, R58, R60, R191). -/
def State.canRun (s : State) (t : Troupe) (p : Path) : Bool :=
  t.run == .running && t.finish == .no && s.onCores t && p.slices != 0 &&
    (p.wait == .none || p.wait == .retry) && !t.held p && !t.stopped p

/-- The running troupe and path that a reference names. -/
def State.runner (s : State) (r : PathRef) : Option (Troupe × Path) :=
  match s.troupe? r.troupe with
  | none => none
  | some t => match t.path? r.sel with
    | none => none
    | some p => if s.canRun t p then some (t, p) else none

/-! ### Demand fetch (R145, R173) -/

/-- What a demand fetch gives: the slot; a wait for its line; or the state after its fault, halt or swap-out. -/
inductive Fetched where
  | slot (s : State) (w : Slot)
  | waits (s : State)
  | taken (s : State)
  deriving DecidableEq, Repr

/-- Whether a code line to be fetched carries an uncorrectable error, or lies behind no working port
(R314, R407). -/
def State.codeBad (s : State) (d c home pa : Nat) : Bool :=
  if (mfind (s.core d c).icache (codeKey home pa)).isSome then s.errs.contains (.code d c (codeKey home pa))
  else match s.line? home (pa / 128) with
    | some _ => s.errs.contains (.line home (pa / 128))
    | none => (s.port home pa).isNone

/-- The demand fetch of the slot at a path's PC (R173): its faults have %fpc and %faddr at the slot; past
the last address, %fpc is the last slot that the path executed (R145). -/
def State.fetchHead (s : State) (t : Troupe) (p : Path) : Fetched :=
  let r := refOf t p
  match p.ibuf with
  | some w => .slot s w
  | none =>
    if 2 ^ 64 ≤ p.pc then .taken (s.faultSlot r p.last 0x06 0)
    else match s.translate (s.sidOf t) t.die p.pc with
      | .unmapped => .taken (s.faultSlot r p.pc 0x05 p.pc)
      | .absent => .taken (s.fetchMiss t.id p.pc (match p.blk with | some b => b.hdr | none => p.pc) p.pc)
      | .ok h pa q =>
        if q.kind = .device ∨ q.x = false then .taken ((s.touchFetch t p.pc).faultSlot r p.pc 0x08 p.pc)
        else if s.codeBad t.die t.core h pa then .taken ((s.logError t.die t.core p.pc).halt t.id p.pc 0x13)
        else match (s.touchFetch t p.pc).fillCode (.path r) t.die t.core h pa (q.kind == .coherent) with
          | (s, true) => .slot s (s.cachedSlot t.die t.core h pa)
          | (s, false) => .waits (s.holdHead r)

/-- DEMAND_FETCH (R173): the slot that a path is about to decode is brought to it. -/
def execDemandFetch (r : PathRef) (s : State) : Host.Outcome State Fault Refusal :=
  match s.runner r with
  | none => .next s
  | some (t, p) => match s.fetchHead t p with
    | .slot s w => .next (s.modPath r fun p => { p with ibuf := some w })
    | .waits s | .taken s => .next s

/-- The port of a word, by its major (R47): 0, 1 and 2 for A, B and C. -/
def portOf (w : Slot) : Option Nat :=
  let m := w.toNat % 256
  if (0x20 ≤ m ∧ m ≤ 0x48) ∨ (0x60 ≤ m ∧ m ≤ 0x86) then some 0
  else if (0x01 ≤ m ∧ m ≤ 0x1F) ∨ (0xA0 ≤ m ∧ m ≤ 0xAD) ∨ (0xC0 ≤ m ∧ m ≤ 0xC9) then some 1
  else if 0xD0 ≤ m ∧ m ≤ 0xE2 then some 2
  else none

/-- The scheduling effects of a word that faults by rows 1 to 5 of R158: one on a port issues as any other; one on
none takes no issue slot and keeps its path's wait count (R47). -/
def Path.undefined (p : Path) (now : Nat) (w : Slot) : Path :=
  if (portOf w).isSome then
    { p with waitCnt := 0, aged := false, stall := now + 1 + (w.extractLsb' 100 4).toNat, ibuf := none, wait := .none,
             stamp := if w.getLsbD 95 then now else p.stamp }
  else { p with stall := now + 1 }

/-- A word of a block that is no instruction (R158 rows 1 to 5): fault 0x02 for a reserved major and 0x01
otherwise, in every lane of A(p), whatever the guard. -/
def execUndefinedInstruction (w : Slot) (s : State) : Host.Outcome State Fault Refusal :=
  match s.issuer with
  | none => .fault .noIssuer
  | some (r, t, p) =>
    let code := match decode w with | .error .majorReserved => 0x02 | _ => 0x01
    .next ((s.modPath r fun p => p.undefined s.now w).faultWord r (faultAll (t.pathLanes p) code 0))

/-- HW_PREFETCH (R174, R320): the device brings in a line of its own accord: into an L2 slice, an L1 under a
new lease, or an instruction cache, through the channel from another die's slice (R350); never of a device page, or of a page not translated yet. A look-ahead request
that is dropped is counted (R397). -/
def execHwPrefetch (die core sid va : Nat) (k : PrefetchKind) (s : State) : Host.Outcome State Fault Refusal :=
  let drop := if k = .code then s.countCore die core 0x0F 1 else s
  match s.page? sid va, s.translate sid die va with
  | some (_, q), .ok h pa p =>
    let coh := p.kind == .coherent
    if p.kind = .device ∨ q.translated die = false then .next drop
    else match k with
      | .code => .next (s.fillCode .device die core h pa coh).1
      | k =>
        if h = die then .next (s.fetchLine die core h (pa / 128) coh (k == .l1))
        else .next (s.sendChan die h (.fill core (pa / 128) coh (k == .l1)) (rankAt die core 0 0))
  | _, _ => .next drop

/-! ### Refill (R20–R29, R46) -/

/-- A lane receives an item at a refill (R20). -/
def Lane.refill (l : Lane) (item : Nat) : Lane :=
  { l with st := .live, item := BitVec.ofNat 64 item,
           refills := if l.refills = 0xFFFFFFFF then l.refills else l.refills + 1 }

/-- The Exited lanes of a troupe take items in rising order; one that finds the queue empty is Drained
(R22). The result is the lanes and the next item. -/
def refillLanes (stop : Nat) : List Lane → Nat → List Lane × Nat
  | [], n => ([], n)
  | l :: ls, n =>
    if l.st = .exited then
      if n < stop then
        let r := refillLanes stop ls (n + 1)
        (l.refill n :: r.1, r.2)
      else
        let r := refillLanes stop ls n
        ({ l with st := .drained } :: r.1, r.2)
    else
      let r := refillLanes stop ls n
      (l :: r.1, r.2)

/-- Slices with a Live lane that were Idle become Following (R30). -/
def Troupe.wakeSlices (t : Troupe) : Troupe :=
  let alive := slicesOf t.live
  { t with slices := (lenum t.slices).map fun (e : Nat × SliceSt) =>
      if alive.getLsbD e.1 && e.2.st == .idle then { e.2 with st := .following } else e.2 }

/-- The refill of a ganged troupe at the RFP header `h` (R22): items, enable bits, the refill PC, and the
slices of its path, which every access of the troupe precedes (R329). Of the troupes of a section that refill in one
clock the lower %troupe comes first (R27). -/
def State.refillAt (s : State) (t : Troupe) (p : Path) (h : Nat) : State :=
  match s.launchOf t.ens with
  | none => s
  | some l =>
    let ex := t.inState .exited
    let r := refillLanes l.stop t.lanes l.next
    let got := r.2 - l.next
    let lost := (lanesOf ex).length - got
    let s := (s.takes (.refill t.ens t.sec) t.idx).modLaunch l.id fun l =>
      { l with next := r.2, handedOut := l.handedOut + got }
    let s := s.modTroupe t.id fun t =>
      let t := ({ t with lanes := r.1, refillPc := some h } : Troupe).wakeSlices.lendAll p.sel
      let fresh := ex &&& t.live
      ({ t with enable := t.enable ||| fresh, gone := [] } : Troupe).modPath p.sel fun p =>
        t.gone.foldl Path.learn { p with slices := (p.slices ||| slicesOf fresh) &&& slicesOf t.live }
    (s.countCore t.die t.core 0x07 got).countCore t.die t.core 0x08 lost

/-- The one path 0 of a troupe that a refill, a resume or an ENTRYDONE gangs: it follows every access of the paths
before it (R46, R329, R333). A parted troupe is ganged at the end of the clock (R31). Its issue stamp
is the current clock (log 42: R49 gives none). -/
def Troupe.gangAt (t : Troupe) (ss : BitVec 8) (pc now : Nat) : Troupe :=
  let q : Path :=
    { sel := .ord 0, home := 0, origin := .slot, slices := ss, pc := pc, last := pc, blk := none, waiting := [],
      stack := [], stamp := now, waitCnt := 0, aged := false, stall := now + 1, wait := .none, ibuf := none,
      again := 0, retry := false, rdPass := 0, rdShared := [], marks := [], strongReads := [], reads := [],
      wrote := [] }
  let q := (t.gone ++ t.paths).foldl Path.learn q
  { t.mapOwn fun _ => [.ord 0] with
    paths := [if t.ops = [] then { q with marks := q.reads } else { q with wait := .regang }]
    gone := [] }

/-- Exited lanes become Drained (R19, R23). -/
def Troupe.drain (t : Troupe) : Troupe :=
  { t with lanes := t.lanes.map fun (l : Lane) => if l.st = .exited then { l with st := .drained } else l }

/-- A troupe's Exited lanes Drained, counted, and what that ends. -/
def State.drainTroupe (s : State) (t : Troupe) : State :=
  (((s.modTroupe t.id Troupe.drain).countCore t.die t.core 0x08 (lanesOf (t.inState .exited)).length).settle t.id)

/-- TROUPE_IDLE_REFILL (R23, R59): a stream-mode troupe with no Live lane and an Exited one goes to its
refill PC while the queue holds items, and otherwise drains. It waits for every handler path; of the troupes of a section
that do so in one clock the lower %troupe comes first (R27). -/
def execTroupeIdleRefill (troupe : Nat) (s : State) : Host.Outcome State Fault Refusal :=
  match s.troupe? troupe with
  | none => .next s
  | some t => match s.launchOf t.ens with
    | none => .next s
    | some l =>
      if t.run ≠ .running ∨ t.finish ≠ .no ∨ s.onCores t = false ∨ l.hdr.block = true ∨ t.live ≠ 0 ∨
          t.inState .exited = 0 ∨ (t.paths.any fun p => !p.ordinary || p.slices != 0) = true then .next s
      else
        let s := s.takes (.refill t.ens t.sec) t.idx
        match decide (l.next < l.stop), t.refillPc with
        | true, some h =>
          .next (s.modTroupe t.id fun t => t.gangAt (slicesOf (t.inState .exited)) h s.now)
        | _, _ => .next (s.drainTroupe t)

/-- The ensemble lane number of lane l of a troupe (R17). -/
def Troupe.ensLane (t : Troupe) (T l : Nat) : Nat := t.sec * 32 * T + t.idx * 32 + l

/-- A troupe takes its lanes' items of a block-mode group: the items [lo, hi) with their ensemble lanes;
`first` at placement (R24, R25). -/
def Troupe.takeGroup (t : Troupe) (T size lo hi : Nat) (first : Bool) : Troupe :=
  let item := fun (l : Nat) =>
    let k := t.ensLane T l
    let i := lo / size * size + k
    if k < size ∧ lo ≤ i ∧ i < hi then some i else none
  { t with
    lanes := (lenum t.lanes).map fun (e : Nat × Lane) => match item e.1 with
      | some i => if first then { e.2 with st := .live, item := BitVec.ofNat 64 i } else e.2.refill i
      | none => { e.2 with st := .absent }
    enable := t.enable ||| maskOf ((List.range 32).filter fun l => (item l).isSome)
    slices := (lenum t.slices).map fun (e : Nat × SliceSt) =>
      { e.2 with st := if e.2.st = .stopped then .stopped
          else if (List.range 4).any fun j => (item (4 * e.1 + j)).isSome then .following else .idle } }

/-- Items of one ensemble group of a header (R16). -/
def LaunchHeader.groupSize (h : LaunchHeader) : Nat :=
  2 ^ (if h.elv < h.fields then (h.widths.take h.elv).sum else 64)

/-- The end of the group that holds item `next`, cut at the end of the queue. -/
def groupEnd (size next stop : Nat) : Nat := min ((next / size + 1) * size) stop

/-- Troupes of an ensemble that run. -/
def State.running (s : State) (ens : Nat) : List Troupe := s.troupes.filter fun t => t.ens == ens && t.run == .running

/-- A block-mode group taken by an ensemble (R25): each troupe that receives an item restarts at the
kernel's entry header. -/
def State.takeBlock (s : State) (e : Ensemble) (l : Launch) : State :=
  let size := l.hdr.groupSize
  let hi := groupEnd size l.next l.stop
  let s := s.modLaunch l.id fun l => { l with next := hi, handedOut := l.handedOut + (hi - l.next) }
  (s.running e.id).foldl (fun s t =>
    let u := t.takeGroup l.hdr.troupes size l.next hi false
    let n := (lanesOf u.live).length
    let u := if n = 0 then { u with paths := [] } else u.gangAt (slicesOf u.live) l.entry s.now
    (s.modTroupe t.id fun _ => u).countCore t.die t.core 0x07 n) s

/-- The last refill of a block-mode ensemble: its Exited lanes are Drained and its troupes done (R25, R26). -/
def State.lastBlock (s : State) (e : Ensemble) : State :=
  let s := s.modEns e.id fun e => { e with lastRefill := true }
  (s.running e.id).foldl State.drainTroupe s

/-- A troupe is finished by R455: no exit routine, %rsm at the header that it would have entered. -/
def State.lifeless (s : State) (id h : Nat) : State :=
  match s.troupe? id with
  | none => s
  | some t => (s.modTroupe id fun t =>
      { t with finish := .lifeless, rsm := BitVec.ofNat 64 h, gone := t.gone ++ t.paths, paths := [] }).settleEns t.ens

/-- The states, items and %refills of a troupe's lanes put down, to which a discard returns (R413). -/
def Troupe.noteLanes (t : Troupe) : Troupe := { t with asked := t.lanes.map fun (l : Lane) => (l.st, l.item, l.refills) }

/-- The lanes as they were put down. -/
def Troupe.askedLanes (t : Troupe) : List Lane :=
  if t.asked = [] then t.lanes
  else (lenum t.lanes).map fun (e : Nat × Lane) => match t.asked[e.1]? with
    | some a => { e.2 with st := a.1, item := a.2.1, refills := a.2.2 }
    | none => e.2

/-- A troupe is discarded; its lanes are as at the request, or, where it has entered the region since, as at that (R413;
log 42). -/
def State.discard (s : State) (id : Nat) : State :=
  match s.troupe? id with
  | none => s
  | some t => match t.region with
    | none => s
    | some g => ((s.dropWaiters id).modTroupe id fun t =>
        { t with finish := .discarded, rsm := BitVec.ofNat 64 g.hdr, gone := t.gone ++ t.paths, paths := []
                 lanes := t.askedLanes }).settleEns
          t.ens

/-- A block-mode troupe of a Pre-empting ensemble whose refill is due, by its current region (R412, R455);
`adopt` is the entry header's region, where it has one. -/
def State.blockFinish (s : State) (t : Troupe) (entry : Nat) (adopt : Option Region) : State :=
  let g := match t.region, adopt with
    | some g, a => if g.idem && g.committed then a else some g
    | none, a => a
  match g with
  | some g => if g.idem then (s.modTroupe t.id fun t =>
      { (if t.region = some g then t else t.noteLanes) with region := some g }).discard t.id
    else (s.modTroupe t.id fun t => { t with region := some g }).lifeless t.id entry
  | none => s

/-- The region that a header at `h` opens for a troupe (R410). -/
def regionAt (hd : Header) (h : Nat) (enable : Word) : Option Region :=
  if hd.rgn then some { hdr := h, idem := hd.idem, exito := hd.exito, entry := hd.entry, save := hd.save,
                        mask := enable, committed := false }
  else none

/-- The header at an address, as fetches find it now, where it is valid. -/
def State.headerAt (s : State) (t : Troupe) (a : Nat) : Option Header :=
  match s.translate (s.sidOf t) t.die a with
  | .ok h pa p => if p.kind = .device then none
    else decodeHeader (s.slotNow t.die t.core h pa)
  | _ => none

/-- BLOCK_REFILL (R25, R59): a block-mode ensemble with no Live lane and no handler path takes its next
group, or its last refill. While the ensemble is Pre-empting, a troupe in a region is finished instead. -/
def execBlockRefill (ens : Nat) (s : State) : Host.Outcome State Fault Refusal :=
  match s.ens? ens with
  | none => .next s
  | some e => match s.launch? e.launch with
    | none => .next s
    | some l =>
      let ts := s.running ens
      if !e.resident || !l.hdr.block || e.lastRefill || ts.any (fun t => t.live != 0 || t.paths != [] || t.finish != .no)
      then .next s
      else if decide (l.next < l.stop) && e.st == .preempting then
        let s' := ts.foldl (fun s t => s.blockFinish t l.entry
          ((s.headerAt t l.entry).bind fun hd => regionAt hd l.entry t.enable)) s
        if ts.all fun t => match s'.troupe? t.id with | some u => u.finish == .no | none => true
        then .next (s.takeBlock e l) else .next s'
      else if l.next < l.stop then .next (s.takeBlock e l)
      else .next (s.lastBlock e)

/-! ### Vectoring (R412–R415) -/

/-- The service sets a troupe's %save to an area in a resident private page, homed on its die (R415, R454;
log 21). An area that it still holds is released first. -/
def State.mapSave (s : State) (t : Troupe) : State :=
  let s := s.freeSave t.id
  let o := s.saveOffset t
  let va := savePage (Config.saveBase + o)
  let p : Pte := { size := 65536, kind := .priv, r := true, w := true, x := false, home := some t.die, pin := true,
                   res := true, pa := Config.savePa + (va - Config.saveBase), walked := 0 }
  (s.modSub (s.sidOf t) fun u =>
    { u with pages := if (mfind u.pages va).isSome then u.pages else mput va p u.pages }).modTroupe t.id fun t =>
    { t with saveHeld := true, save := BitVec.ofNat 64 (Config.saveBase + o) }

/-- The region of a troupe as its header gives it now: EXITO, ENTRY and SAVE are read when exit handling starts (R156).
Where no valid header stands there any more, they are as at the region entry (log 42). -/
def State.reread (s : State) (t : Troupe) (g : Region) : Region :=
  match s.headerAt t g.hdr with
  | some hd => { g with exito := hd.exito, entry := hd.entry, save := hd.save }
  | none => g

/-- A path's vectoring to the exit routine of the region `g`, with %rsm := h (R415, R455); every access of the troupe
precedes those of the routine (R341). -/
def State.vector (s : State) (t : Troupe) (p : Path) (g : Region) (h : Nat) : State :=
  if t.live = 0 then s.lifeless t.id h
  else
    let g := s.reread t g
    (s.mapSave t).modTroupe t.id fun t =>
      ({ t.lendAll p.sel with rsm := BitVec.ofNat 64 h, manifest := [], routine := .exit, region := some g, gone := [] } :
        Troupe).modPath p.sel fun p =>
          t.gone.foldl Path.learn { p.goto (addrOf ((g.hdr : Int) + 16 * g.exito.toInt)) with last := p.last }

/-- A path of an idempotent, uncommitted region stops; once every path has stopped the troupe is discarded
(R412). -/
def State.stopPath (s : State) (t : Troupe) (p : Path) : State :=
  let s := s.modPath (refOf t p) fun p => { p with wait := .preempt }
  match s.troupe? t.id with
  | some u => if u.paths.all fun q => q.ordinary && q.wait == .preempt then s.discard t.id else s
  | none => s

/-- What a path about to enter a header does in a Pre-empting ensemble (R412, R414): none where it enters
it. `hd` is the header, where it is valid. A troupe of an idempotent region that a pending refill takes to its refill
PC is finished there, with %rsm at it, as R59 says, and is not discarded with R413's %rsm (log 42). -/
def State.preemptEntry (s : State) (t : Troupe) (p : Path) (hd : Option Header) : Option State :=
  if !s.preempting t || t.routine != .none || !p.ordinary then none
  else
    let act := fun (s : State) (g : Region) =>
      if g.idem then some (if t.live = 0 && t.ganged then s.lifeless t.id p.pc else s.stopPath t p) else if t.ganged then some (s.vector t p g p.pc) else none
    let adopt := fun (_ : Unit) => match hd.bind fun h => regionAt h p.pc t.enable with
      | some g => if t.ganged then act (s.modTroupe t.id fun t => { t.noteLanes with region := some g }) g else none
      | none => none
    match t.region with
    | some g => if g.idem && g.committed then adopt () else act s g
    | none => adopt ()

/-! ### Header entry (R144, R155, R156) -/

/-- Whether a path stands at the PC of a join entry that is on top, or directly beneath the top deferred
entry (R42). -/
def Path.atJoin (p : Path) : Bool :=
  match p.stack with
  | .join _ pc :: _ => pc == p.pc
  | .deferred _ _ :: .join _ pc :: _ => pc == p.pc
  | _ => false

/-- The prefetches that a header asks for (R156, R174). -/
def State.headerPrefetch (s : State) (t : Troupe) (h : Nat) (hd : Header) : State :=
  let s := if hd.pfk.getLsbD 0 then s.prefetchSlot t (h + 16 * (hd.len + 1)) else s
  if hd.pfk.getLsbD 1 then s.prefetchSlot t (h + 16 * hd.pfd) else s

/-- A path goes on at the first word of its header's block. -/
def Path.entered (p : Path) (hd : Header) : Path :=
  { p with blk := some { hdr := p.pc, len := hd.len, rcv := hd.rcv }, pc := p.pc + 16, last := p.pc, ibuf := none,
           wait := .none, again := 0 }

/-- A valid header takes effect (R22, R43, R156): RGN, RFP, prefetch, and the block. -/
def State.takeHeader (s : State) (t : Troupe) (p : Path) (hd : Header) : State :=
  let r := refOf t p
  let block := match s.launchOf t.ens with | some l => l.hdr.block | none => false
  let rfp := hd.rfp && p.ordinary
  let join := rfp && (block || t.routine != .none)
  let refill := rfp && !join
  if hd.rgn && t.routine == .none && (!p.ordinary || !t.ganged) then s.faultSlot r p.pc 0x0C 0
  else if refill && !t.ganged then s.faultSlot r p.pc 0x0C 0
  else
    let h := p.pc
    let s := if refill then s.refillAt t p h else s
    let s := if hd.rgn && t.routine == .none then
        s.modTroupe t.id fun t => { t with region := regionAt hd h t.enable } else s
    let s := s.headerPrefetch t h hd
    let s := s.modPath r fun p => p.entered hd
    if join && !t.ganged then
      (s.modPath r fun p => { p with pc := h }).regang t p
    else if refill then s.settle t.id else s

/-! ### The standard handler (R403, R408) -/

/-- The standard handler of one slice: it waits for a mapped page, returns, or records and halts. CODE is the fault of the
lowest lane of %fmask (R404), so the page is the one that this lane's %faddr names; the others' faults show again after
TRET #0. -/
def State.standard (s : State) (t : Troupe) (k : Nat) : State :=
  let x := t.slice k
  let code := x.fcode.toNat % 256
  let sid := s.sidOf t
  let page := (lanesOf x.fmask).head?.bind fun l => s.page? sid (t.lane l).faddr.toNat
  if code = 0x07 ∧ page.isSome = true then
    if page.any fun e => e.2.res then s.endTrap t.id k true else s
  else if code = 0x11 then s.endTrap t.id k false
  else if code = 0x15 then s.endTrap t.id k true
  else
    let s := ((s.fwAnswer t 1 x.fpc (s.clock t.die)).1.fwAnswer t 1 (x.fcode.zeroExtend 64) (s.clock t.die)).1
    s.halt t.id x.fpc.toNat code

/-- A path about to enter the header at its PC does so, pops its stack where a header stands at a join, acts by its
region in a Pre-empting ensemble, or takes the fault of the fetch or of an invalid header; no fetch has been made where
the address lies outside the address space (R145). A path that a merge or a refill has formed in this clock waits until the
troupe is ganged (R31, R43), and one with a Stopped slice, which the debugger steps, is not vectored (R409). A handler path
at the standard handler takes its action. -/
def State.headerStep (s : State) (t : Troupe) (p : Path) : State :=
  let r := refOf t p
  let enter := fun (act : State → Header → Option State) => match s.fetchHead t p with
    | .taken s | .waits s => s
    | .slot s w => match decodeHeader w with
      | none => s.faultSlot r p.pc 0x03 0
      | some hd => match act s hd with
        | some s => s
        | none => s.takeHeader t p hd
  match p.sel with
  | .handler k =>
    if p.pc = Config.standardHandler then s.standard t k
    else enter fun _ _ => none
  | .ord n =>
    let stay := fun (s : State) (o : Option State) => o.map fun v => if t.stopped p then s else v
    if !t.gang && t.whole && decide (s.now < p.stall) then s
    else match if 2 ^ 64 ≤ p.pc then none else stay s (s.preemptEntry t p none) with
    | some s => s
    | none =>
      enter fun s hd =>
        if p.atJoin then some ((s.modTroupe t.id fun t => t.pop n).settle t.id) else stay s (s.preemptEntry t p (some hd))

/-- HEADER_ENTRY (R144). -/
def execHeaderEntry (r : PathRef) (s : State) : Host.Outcome State Fault Refusal :=
  match s.runner r with
  | none => .next s
  | some (t, p) => if p.blk.isSome then .next s else .next (s.headerStep t p)

end Sys2Proof.Machine
end

