-- ==== Sys2Proof/Machine/Preempt.lean ====
section
/-! DEFINITION. Pre-emption: requests, the ends of the region routines, the time bound, and the resume of a
troupe (R194–R196, R409–R422); and the debugger (R60, R190, R409). -/

namespace Sys2Proof.Machine

/-! ### Requests and the bound (R411, R412) -/

/-- The refill PC that a stream-mode troupe with no Live lane is about to enter: its refill is pending (R23, R59). -/
def State.refillDue (s : State) (t : Troupe) : Option Nat :=
  match s.launchOf t.ens, t.refillPc with
  | some l, some h =>
    if l.hdr.block = false ∧ t.live = 0 ∧ t.inState .exited ≠ 0 ∧ t.routine = .none ∧ t.paths.all Path.ordinary = true ∧
        (l.next < l.stop ∨ t.paths.any (fun p => p.slices != 0 && p.pc == h && p.blk.isNone) = true) then some h else none
  | _, _ => none

/-- A request takes effect: the ensemble is Pre-empting, its bound count starts at 0, SLEEP, BAR and
BARWT waits end (R411, R412), and the lanes are put down for a discard (R413). A troupe whose refill is pending is taken
at once, with %rsm at its refill PC (R59, R455). -/
def State.startPreempt (s : State) (ens : Nat) : State :=
  let s := s.modEns ens fun e => { e with st := .preempting, bound := 0, pending := false }
  let s := (s.running ens).foldl (fun s t =>
    let s := (s.endBarrierWaits t.id).modTroupe t.id fun t => t.endSleep.noteLanes
    match s.refillDue t with
    | some h => s.lifeless t.id h
    | none => s) s
  (s.sweepBars ens).settleEns ens

/-- A pre-emption request to an ensemble: to a Running one it takes effect at once, or when the last of its
troupes in an entry routine has executed ENTRYDONE (R416); to a Pre-empting one it has no effect. The bound
is %pbound as the request arrives. -/
def State.request (s : State) (ens : Nat) : State :=
  match s.ens? ens with
  | none => s
  | some e =>
    if e.st ≠ .running then s
    else if (s.running ens).any fun t => t.routine == .entry then
      if e.pending then s else s.modEns ens fun e => { e with pending := true, boundMax := s.pbound }
    else (s.modEns ens fun e => { e with boundMax := s.pbound }).startPreempt ens

/-- PBOUND_EXPIRY (R411, R417): the bound count has reached its value, and every troupe that is not finished
is taken by the forced spill, after what ends a routine or a handler in its clock (R426). -/
def execPboundExpiry (ens : Nat) (s : State) : Host.Outcome State Fault Refusal :=
  match s.ens? ens with
  | none => .next s
  | some e =>
    if e.st = .preempting ∧ e.boundMax ≤ e.bound then
      let s := (s.running ens).foldl (fun s t => s.spillTroupe t.id none) (s.takes (.ens ens) 3)
      .next ((s.sweepBars ens).settleEns ens)
    else .next s

/-! ### Ends of the routines (R195, R196) -/

/-- Whether every other ordinary path of a troupe waits with `w`. -/
def Troupe.othersWait (t : Troupe) (p : Path) (w : Wait) : Bool :=
  t.ordPaths.all fun q => q.sel == p.sel || q.wait == w

/-- Whether every outstanding counter of a troupe reads 0. -/
def Troupe.countersZero (t : Troupe) (now : Nat) : Bool :=
  [OpClass.ld, .st, .cp, .tm, .gt, .cl, .um].all fun c => t.counter now c == 0

/-- RXDONE (R195). -/
def execRxdone (x : Ins) (s : State) : Host.Outcome State Fault Refusal :=
  let u := Use.none_
  match s.gate x u with
  | .nobody => .fault .noIssuer
  | .empty t p => .next ((s.start t p x u).advance (refOf t p))
  | .fault t p m c => .next ((s.start t p x u).faultWord (refOf t p) (faultAll m c 0))
  | .go t p act bad =>
    let r := refOf t p
    let wrong := t.routine != .exit || !p.ordinary
    if wrong || bad != 0 then
      .next ((s.start t p x u).faultWord r ((if wrong then faultAll act 0x0B 0 else []) ++ faultAll bad 0x12 0))
    else if !t.countersZero s.now then .next (s.modPath r fun p => { p with wait := .retry })
    else
      let s := s.start t p x u
      if t.othersWait p .rxdone then
        .next ((s.modTroupe t.id fun t =>
          { t with finish := .ended, gone := t.gone ++ t.paths, paths := [] }).settleEns t.ens)
      else .next (s.modPath r fun p => { p with wait := .rxdone })

/-- The manifest registers still poisoned in a Live lane (R196). -/
def Troupe.shortRestore (t : Troupe) : Nat :=
  (t.manifest.filter fun r => t.lanes.any fun (l : Lane) => l.st == .live && l.bad r).length

/-- The end of a troupe's entry routine: RESTORE_SHORT, the %save area released, and path 0 about to enter
%rsm (R196, R454); a request that waited for it takes effect (R416). -/
def State.endEntry (s : State) (t : Troupe) : State :=
  let s := (s.countCore t.die t.core 0x11 t.shortRestore).freeSave t.id
  let s := s.modTroupe t.id fun t =>
    let t := { t with routine := .none }
    if t.ganged then { t with paths := t.paths.map fun p => if p.ordinary then p.goto t.rsm.toNat else p }
    else t.gangAt (slicesOf t.live) t.rsm.toNat s.now
  match s.ens? t.ens with
  | some e =>
    if e.pending && !(s.running e.id).any fun t => t.routine == .entry then s.startPreempt e.id else s
  | none => s

/-- ENTRYDONE (R196). -/
def execEntrydone (x : Ins) (s : State) : Host.Outcome State Fault Refusal :=
  let u := Use.none_
  match s.gate x u with
  | .nobody => .fault .noIssuer
  | .empty t p => .next ((s.start t p x u).advance (refOf t p))
  | .fault t p m c => .next ((s.start t p x u).faultWord (refOf t p) (faultAll m c 0))
  | .go t p act bad =>
    let r := refOf t p
    let s := s.start t p x u
    let wrong := t.routine != .entry || !p.ordinary
    if wrong || bad != 0 then
      .next (s.faultWord r ((if wrong then faultAll act 0x0B 0 else []) ++ faultAll bad 0x12 0))
    else if t.othersWait p .entrydone then .next (s.endEntry t)
    else .next (s.modPath r fun p => { p with wait := .entrydone })

/-! ### Resume (R306, R413, R416, R418, R419, R455) -/

/-- Every register from `lo` up that exists for the troupe is poisoned in every lane (R103). -/
def Troupe.poisonFrom (t : Troupe) (lo : Nat) : Troupe :=
  let hi := if t.holdsExt then 383 else 191
  { t with lanes := t.lanes.map fun (l : Lane) => { l with poison := nunion l.poison (nspan lo hi) } }

/-- The slices of a set are Following and the others Idle, but for those that are Stopped (R60). -/
def Troupe.following (t : Troupe) (ss : BitVec 8) : Troupe :=
  { t with slices := (lenum t.slices).map fun (e : Nat × SliceSt) =>
      { e.2 with st := if e.2.st = .stopped then .stopped else if ss.getLsbD e.1 then .following else .idle } }

/-- A ganged troupe's path 0 with a set of slices, about to enter the header at `pc`; no path where the set is empty. -/
def Troupe.startAt (t : Troupe) (ss : BitVec 8) (pc now : Nat) : Troupe :=
  { (if ss = 0 then { t with paths := [] } else t.gangAt ss pc now) with gang := true }

/-- The troupe after a discard (R413). -/
def Troupe.restart (t : Troupe) (now : Nat) : Troupe :=
  let t := { t with
    enable := match t.region with | some g => g.mask | none => t.enable
    tilePart := 32, mrow := 0, mrowOld := none, mrowSet := 0, routine := .none }
  let ss := slicesOf t.live
  ((t.poisonFrom 0).following ss).startAt ss t.rsm.toNat now

/-- The troupe after an exit routine that ended: its entry routine, at the header + 16 × ENTRY of the region `g`
(R416). -/
def Troupe.enterRoutine (t : Troupe) (g : Option Region) (now : Nat) : Troupe :=
  let a := match g with | some g => addrOf ((g.hdr : Int) + 16 * g.entry.toInt) | none => t.rsm.toNat
  let ss := slicesOf t.live
  ((({ t with routine := .entry, region := g } : Troupe).poisonFrom 0 |>.following ss).startAt ss a now).modPath (.ord 0)
    fun p => { p with last := t.rsm.toNat }

/-- The troupe after R455: path 0 with every slice that has an Exited lane, in a stream-mode launch. -/
def Troupe.restartLifeless (t : Troupe) (block : Bool) (now : Nat) : Troupe :=
  let t := ({ t with routine := .none } : Troupe).poisonFrom 0
  (t.following 0).startAt (if block then 0 else slicesOf (t.inState .exited)) t.rsm.toNat now

/-- The troupe after a forced spill: at vectoring, with R419's fault due, or where each path stood (R418). -/
def Troupe.restoreSpill (t : Troupe) (cut : Bool) (live : Option Nat) (now : Nat) : Troupe :=
  let t := match live with | some n => t.poisonFrom n | none => t
  if cut then
    let ss := slicesOf t.live
    (({ t with routine := .none, manifest := [], overrun := true } : Troupe).following ss).startAt ss t.rsm.toNat now
  else { t with paths := t.paths.map fun (p : Path) => { p with stall := now + 1 } }

/-- A spilled troupe's set, taken again for it with the values it had (R418). -/
def State.retakeExt (s : State) (id : Nat) : State :=
  match s.troupe? id with
  | none => s
  | some t =>
    if t.hadExt && t.spilled then
      let x := s.extOf t
      (s.setExt { x with holder := some t.slot, lastEns := some t.ens, regs := [], poison := [], ecc := [] }).modTroupe id
        fun t => { t with holdsExt := true, hadExt := false }
    else s.modTroupe id fun t => { t with hadExt := false }

/-- A path that goes on in another core: its L1 may serve it nothing older than its own writes (R330). -/
def Path.moved (p : Path) : Path := { p with marks := mergeMax p.marks p.wrote }

/-- One troupe resumes by the way it had finished; marks of futures are gone (R285). -/
def State.resumeTroupe (s : State) (id : Nat) : State :=
  match s.troupe? id with
  | none => s
  | some t0 =>
    let s := s.retakeExt id
    let block := match s.launchOf t0.ens with | some l => l.hdr.block | none => false
    let live := (s.headerAt t0 t0.rsm.toNat).map (·.live)
    let g := t0.region
    s.modTroupe id fun t =>
      let t := { t with
        futures := t.futures.map fun (f : FutureEntry) => { f with mark := none }
        ops := t.ops.map fun (o : Op) => { o with mark := none }
        paths := t.paths.map Path.moved, gone := t.gone.map Path.moved }
      let u := match t.finish with
        | .discarded => t.restart s.now
        | .ended => t.enterRoutine g s.now
        | .lifeless => t.restartLifeless block s.now
        | .spilled cut => t.restoreSpill cut live s.now
        | .no => t
      { u with finish := .no }

/-- The on-chip memories of an ensemble that resumes without a forced spill (R306): 0, but for allotments
that R288 keeps. -/
def State.clearChip (s : State) (ens : Nat) : State :=
  let keep := match s.ens? ens with | some e => e.kept | none => []
  let s := s.modEns ens fun e =>
    { e with sections := (lenum e.sections).map fun (c : Nat × Section) =>
        if keep.contains c.1 then c.2 else { c.2 with allot := [] } }
  let mine := (s.troupes.filter fun t => t.ens == ens).map (·.id)
  { s with
    troupes := s.troupes.map fun (t : Troupe) =>
      if t.ens = ens then { t with tile := [], lanes := t.lanes.map fun (l : Lane) => { l with priv := [] } } else t
    errs := s.errs.filter fun u => match u with
      | .tile x _ => !mine.contains x
      | .priv x _ _ => !mine.contains x
      | .sect x k _ => x != ens || keep.contains k
      | _ => true }

/-- An ensemble that has been placed again resumes (R57). -/
def State.resume (s : State) (ens : Nat) : State :=
  match s.ens? ens with
  | none => s
  | some e =>
    let s := if e.spilled then s else s.clearChip ens
    let s := s.modEns ens fun e =>
      { e with st := .running, bound := 0, pending := false, spilled := false, fetchSpill := false, waitPage := none,
               kept := [] }
    (s.running ens).foldl (fun s t => s.resumeTroupe t.id) s

/-! ### The debugger (R60, R190, R409) -/

/-- Whether a debugger is attached to a troupe's launch. -/
def State.debugged (s : State) (t : Troupe) : Bool := ((s.launchOf t.ens).bind (·.debugger)).isSome

/-- DEBUGGER_STOP (R60): the slices become Stopped, an Idle one too, or under stop-all every slice of the ensemble. -/
def execDebuggerStop (troupe : Nat) (slices : BitVec 8) (s : State) : Host.Outcome State Fault Refusal :=
  match s.troupe? troupe with
  | none => .next s
  | some t => match (s.launchOf t.ens).bind (·.debugger) with
    | none => .next s
    | some all => .next (s.debugStop t slices all)

/-- The state of a slice that the debugger lets go on. -/
def Troupe.runState (t : Troupe) (k : Nat) : SliceState :=
  match t.path? (.handler k) with
  | some h => if h.retry then .following else .inHandler
  | none => if t.live &&& sliceLanes (sliceBit k) = 0 then .idle else .following

/-- DEBUGGER_RESUME (R60). -/
def execDebuggerResume (troupe : Nat) (slices : BitVec 8) (s : State) : Host.Outcome State Fault Refusal :=
  match s.troupe? troupe with
  | none => .next s
  | some t =>
    if s.debugged t then
      .next (s.modTroupe troupe fun t => { t with
        stepping := t.stepping &&& ~~~slices
        slices := (lenum t.slices).map fun (e : Nat × SliceSt) =>
          if slices.getLsbD e.1 && e.2.st == .stopped then { e.2 with st := t.runState e.1 } else e.2 })
    else .next s

/-- A Stopped slice leaves its ordinary path for the instruction at the path's PC (R190): the path will
execute it in the other lanes, or go on where none are left. -/
def Troupe.stepAlone (t : Troupe) (p : Path) (k n now : Nat) : Troupe :=
  let bit := sliceBit k
  let all := if p.again = 0 then sliceLanes p.slices else p.again
  let mine := all &&& sliceLanes bit
  let rest := all &&& ~~~sliceLanes bit &&& t.live
  if mine = 0 then t
  else
    let h : Path := { handlerPath p k n p.pc (.word p.blk) now with blk := p.blk, again := mine, retry := true }
    let t := (t.lend p.sel (.handler k)).modPath p.sel fun p =>
      let p := { p with slices := p.slices &&& ~~~bit, again := rest }
      if rest = 0 then p.next else p
    let t := t.modSlice k fun x => { x with st := .following }
    { t with paths := t.paths ++ [h], stepping := t.stepping ||| bit }

/-- SINGLE_STEP (R190, R409): a Stopped slice advances by one instruction; a path about to enter a header
enters it. -/
def execSingleStep (troupe slice : Nat) (s : State) : Host.Outcome State Fault Refusal :=
  match s.troupe? troupe with
  | none => .next s
  | some t =>
    if !s.debugged t || (t.slice slice).st != .stopped || t.run != .running || t.finish != .no || !s.onCores t
    then .next s
    else match t.path? (.handler slice) with
      | some h =>
        if h.blk.isNone then .next (s.headerStep t h)
        else .next (s.modTroupe troupe fun t =>
          { t.modSlice slice fun x => { x with st := t.runState slice } with
            stepping := t.stepping ||| sliceBit slice })
      | none => match t.ordPaths.find? fun p => p.slices.getLsbD slice with
        | none => .next s
        | some p =>
          if (p.wait != .none && p.wait != .retry) || t.held p then .next s
          else match p.blk, p.sel with
            | none, _ => .next (s.headerStep t p)
            | some _, .ord n => .next (s.modTroupe troupe fun t => t.stepAlone p slice n s.now)
            | _, _ => .next s

/-- A handler slice that was let go for one instruction stops again. -/
def Troupe.restop (t : Troupe) (r : PathSel) : Troupe :=
  match r with
  | .handler k =>
    if t.stepping.getLsbD k && (t.slice k).st == .inHandler then
      { t.modSlice k fun x => { x with st := .stopped } with stepping := t.stepping &&& ~~~sliceBit k }
    else t
  | .ord _ => t

/-- DEBUGGER_REGISTER_ACCESS (R409): a register of a lane of a Stopped slice; a write clears its mark. -/
def execDebuggerRegisterAccess (troupe lane reg : Nat) (acc : DebugAccess) (s : State) :
    Host.Outcome State Fault Refusal :=
  match s.troupe? troupe with
  | none => .next s
  | some t =>
    match acc with
    | .read => .next s
    | .write v =>
      if s.debugged t && (t.slice (lane / 4)).st == .stopped && decide (reg < 384) && (!isExt reg || t.holdsExt) then
        .next (s.modTroupe troupe fun t => t.modLane lane fun l => l.setReg reg v)
      else .next s

/-- DEBUGGER_ATTACH (R190, R409): a debugger attaches to a launch, with or without stop-all. -/
def execDebuggerAttach (launch : Nat) (stopAll : Bool) (s : State) : Host.Outcome State Fault Refusal :=
  .next (s.modLaunch launch fun l => { l with debugger := some stopAll })

end Sys2Proof.Machine
end

