-- ==== Sys2Proof/Machine/Placement.lean ====
section
/-! DEFINITION. The placer (R54–R56, R266, R371–R373): the order of candidates, what fits where, placement of
a new or a swapped-out ensemble, pre-emption requests and the hold of a starved candidate. -/

namespace Sys2Proof.Machine

/-! ### Candidates and their order (R371, R373) -/

/-- Ensembles of a launch that are on cores. -/
def State.residents (s : State) (launch : Nat) : Nat :=
  (s.ens.filter fun e => e.launch == launch && e.resident).length

/-- Whether a launch has fewer than MAXENS ensembles on cores (R362). -/
def State.roomEns (s : State) (l : Launch) : Bool := l.maxEns == 0 || decide (s.residents l.id < l.maxEns)

/-- Whether a launch offers a next ensemble: items are left (R371). -/
def Launch.offers (l : Launch) : Bool := l.endStatus.isNone && decide (l.next < l.stop)

/-- Whether a candidate is offered now: MAXENS leaves room for it (R362; log 11), and one swapped out for a fetch has its
page (R373). -/
def State.offered (s : State) (c : Candidate) : Bool :=
  match c.swapped, s.launch? c.launch with
  | some e, some l => s.roomEns l && match (s.ens? e).bind Ensemble.waitPage with
    | some va => (match s.translate l.sid 0 va with | .ok .. => true | _ => false)
    | none => true
  | none, some l => l.offers && s.roomEns l
  | _, none => false

/-- The candidates in the order of R371. -/
def State.candidates (s : State) : List Candidate :=
  let cs := s.queue.filter s.offered
  [7, 6, 5, 4, 3, 2, 1, 0].flatMap fun p =>
    let here := cs.filter fun c => c.prio == p
    (here.filter fun c => c.swapped.isSome) ++ here.filter fun c => c.swapped.isNone

/-- Whether a candidate holds its priority: it has stood first there for 1,048,576 clocks (R371). -/
def Candidate.starved (c : Candidate) (now : Nat) : Bool :=
  c.blocking || match c.firstSince with | some n => decide (Config.starveClocks ≤ now - n) | none => false

/-- The candidates that may be placed: where one holds its priority, those of a higher one, and itself (R371). -/
def placeable (now : Nat) (cs : List Candidate) : List Candidate :=
  match cs.find? fun c => c.starved now with
  | none => cs
  | some b => (cs.filter fun c => decide (b.prio < c.prio)) ++ [b]

/-! ### Resources (R54–R56, R266) -/

/-- The troupes that hold places: those of the ensembles on cores. -/
def State.placed (s : State) : List Troupe := s.troupes.filter s.onCores

/-- Slots taken in a partition. -/
def State.slotsTaken (s : State) (d c p : Nat) : List Nat :=
  (s.placed.filter fun t => t.die == d && t.core == c && t.part == p).map (·.slot)

/-- Bytes of a core scratchpad that one section of a launch needs (R56, R74). -/
def LaunchHeader.padBytes (h : LaunchHeader) : Nat := 32 * h.troupes * h.priv + h.scratch * 1024

/-- The header of an ensemble's launch. -/
def State.headerFor (s : State) (launch : Nat) : LaunchHeader :=
  match s.launch? launch with | some l => l.hdr | none => LaunchHeader.empty

/-- Bytes of a core scratchpad that are reserved. -/
def State.padTaken (s : State) (d c : Nat) : Nat :=
  ((s.ens.filter fun e => e.resident && e.die == d).map fun e =>
    (e.sections.filter fun k => k.core == c).length * (s.headerFor e.launch).padBytes).sum

/-- Bytes of a partition's tile store that are reserved (R266). -/
def State.tileTaken (s : State) (d c p : Nat) : Nat :=
  ((s.placed.filter fun t => t.die == d && t.core == c && t.part == p).map s.windowOf).sum

/-- Whether the placer may use a core: it is in service and not being retired (R400, R445). -/
def State.usable (s : State) (d c : Nat) : Bool :=
  !(s.die d).off.getLsbD c && !(s.die d).faulty.any fun e => e.1 == c

/-- The permitted core sets of R54. -/
def coreSets : Nat → List (List Nat)
  | 1 => [[0], [1], [2], [3]]
  | 2 => [[0, 1], [2, 3]]
  | 3 => [[0, 1, 2], [1, 2, 3]]
  | _ => [[0, 1, 2, 3]]

/-- What an ensemble asks for: its header, and which of its troupes, by section and number, need a slot with
a Free set (R56, R418). -/
structure Ask where
  hdr : LaunchHeader
  ext : List (Nat × Nat)
  dies : BitVec 4
  deriving DecidableEq, Repr

/-- One troupe's place: section, number, core, partition and slot. -/
structure Seat where
  sec : Nat
  idx : Nat
  core : Nat
  part : Nat
  slot : Nat
  deriving DecidableEq, Repr

/-- Where an ensemble is placed. -/
structure Site where
  die : Nat
  cluster : Nat
  offset : Nat
  cores : List Nat
  seats : List Seat
  deriving DecidableEq, Repr

/-- Whether the extended set of a slot's pair is Free (R89), since an earlier clock (R93). -/
def State.setFree (s : State) (d c p k : Nat) : Bool :=
  !s.ext.any fun x => x.at_ d c p (k / 2) && !x.isFree s.now

/-- The lowest free slot of a partition, beside seats already given; with `ext`, one whose pair's set is Free
and not given to another. -/
def State.freeSlot (s : State) (d c p : Nat) (ext : Bool) (given : List (Seat × Bool)) : Option Nat :=
  let here := given.filter fun g => g.1.core == c && g.1.part == p
  (List.range Config.slotsPerPartition).find? fun k =>
    !(s.slotsTaken d c p).contains k && !(here.any fun g => g.1.slot == k) &&
      (!ext || (s.setFree d c p k && !here.any fun g => g.2 && g.1.slot / 2 == k / 2))

/-- Seats for troupes in the order given: those that need a set come first. -/
def State.seatAll (s : State) (d off : Nat) (cores : List Nat) : List (Nat × Nat × Bool) →
    List (Seat × Bool) → Option (List Seat)
  | [], given => some (given.map (·.1))
  | (k, i, x) :: ts, given =>
    let c := lget 0 cores k
    let p := (i + off) % 4
    match s.freeSlot d c p x given with
    | some n => State.seatAll s d off cores ts (given ++ [({ sec := k, idx := i, core := c, part := p, slot := n }, x)])
    | none => none

/-- The seats of an ensemble on a core set with an offset, where every resource fits (R55, R56, R266). -/
def State.seats (s : State) (a : Ask) (d off : Nat) (cores : List Nat) : Option (List Seat) :=
  let h := a.hdr
  let n := fun (p : Nat) => ((List.range h.troupes).filter fun i => (i + off) % 4 == p).length
  let ok := cores.all fun c => s.usable d c && decide (s.padTaken d c + h.padBytes ≤ Config.scratchBytes) &&
    (List.range 4).all fun p =>
      decide ((s.slotsTaken d c p).length + n p ≤ Config.slotsPerPartition) &&
        decide (s.tileTaken d c p + n p * tileWindow h.troupes ≤ Config.tileBytes)
  if !ok then none
  else
    let all := (List.range h.sections).flatMap fun k => (List.range h.troupes).map fun i => (k, i)
    let need := a.ext.filter fun e => all.contains e
    s.seatAll d off cores ((need.map fun e => (e.1, e.2, true)) ++
      (all.filter fun e => !need.contains e).map fun e => (e.1, e.2, false)) []

/-- The first value that a function gives over a list. -/
def firstSome {α β : Type} (f : α → Option β) : List α → Option β
  | [] => none
  | x :: r => match f x with | some y => some y | none => firstSome f r

/-- Free troupe slots of a die. -/
def State.freeSlots (s : State) (d : Nat) : Nat :=
  ((List.range Config.coresPerDie).filter fun c => s.usable d c).length * 4 * Config.slotsPerPartition -
    (s.placed.filter fun t => t.die == d && s.usable d t.core).length

/-- A die put into the order of R371: most free troupe slots first, then the lowest number. -/
def dieInsert (f : Nat → Nat) (d : Nat) : List Nat → List Nat
  | [] => [d]
  | e :: r => if f e < f d then d :: e :: r else e :: dieInsert f d r

/-- Where an ensemble fits: die, cluster, core set and offset in the order of R371. -/
def State.fit (s : State) (a : Ask) : Option Site :=
  let ds := ((List.range 4).filter fun d => a.dies.getLsbD d).foldl (fun l d => dieInsert s.freeSlots d l) []
  firstSome (fun d =>
    firstSome (fun cl =>
      firstSome (fun (set : List Nat) =>
        let cores := set.map fun c => 4 * cl + c
        firstSome (fun off =>
          (s.seats a d off cores).map fun ss => { die := d, cluster := cl, offset := off, cores := cores, seats := ss })
          [0, 1, 2, 3])
        (coreSets a.hdr.sections))
      (List.range 16))
    ds

/-- What a candidate asks for. -/
def State.askOf (s : State) (c : Candidate) : Option Ask :=
  match s.launch? c.launch with
  | none => none
  | some l =>
    let ext := match c.swapped with
      | some e => ((s.running e).filter fun t => t.hadExt && t.spilled).map fun t => (t.sec, t.idx)
      | none => []
    some { hdr := l.hdr, ext := ext, dies := l.dies }

/-- Where a candidate fits. -/
def State.fits (s : State) (c : Candidate) : Option Site := (s.askOf c).bind s.fit

/-! ### Placing -/

/-- The rank of placements at the retirements of a die: after every core's. -/
def afterCores : Nat := 128

/-- A lane at placement (R87). -/
def Lane.new : Lane :=
  { regs := [], poison := [], ecc := [], st := .absent, item := 0, refills := 0, faddr := 0, priv := [] }

/-- A troupe at placement (R31, R32, R106), with no item yet. -/
def Troupe.new (id ens die : Nat) (x : Seat) : Troupe :=
  { id := id, ens := ens, sec := x.sec, idx := x.idx, die := die, core := x.core, part := x.part, slot := x.slot,
    run := .running, lanes := List.replicate 32 Lane.new,
    slices := List.replicate 8 { st := .idle, fcode := 0, fpc := 0, fmask := 0, forig := 0 }, paths := [],
    enable := 0xFFFFFFFF, prevEnable := 0xFFFFFFFF, tilePart := 32, mrow := 0, mrowOld := none, mrowSet := 0, rsm := 0, save := 0, saveHeld := false,
    refillPc := none, region := none, routine := .none, manifest := [], finish := .no, overrun := false,
    holdsExt := false, hadExt := false, stepping := 0, gone := [], tile := [], ops := [],
    futures := List.replicate Config.futures FutureEntry.new, recs := [], lastFault := 0 }

/-- A section at placement (R106, R181, R290). -/
def Section.new (core chan : Nat) : Section :=
  { core := core, allot := [], wp := List.replicate 8 0, chans := List.replicate chan [],
    bars := List.replicate 8 Barrier.new }

/-- The items of a stream-mode placement: a troupe's lanes by their ensemble lane numbers, from `next` up to
`stop` (R21). -/
def Troupe.takeFirst (t : Troupe) (T next stop : Nat) : Troupe :=
  let t := { t with lanes := (lenum t.lanes).map fun (e : Nat × Lane) =>
    let i := next + t.ensLane T e.1
    if i < stop then { e.2 with st := .live, item := BitVec.ofNat 64 i } else e.2 }
  t.wakeSlices

/-- Path 0 of a troupe at the kernel's entry header, with every slice that has a Live lane (R31). -/
def Troupe.begin (t : Troupe) (entry now : Nat) : Troupe :=
  if t.live = 0 then t else t.gangAt (slicesOf t.live) entry now

/-- A candidate that waits anew: after its launch's ensemble has been placed, or its request has been
fulfilled (R372). -/
def Candidate.restart (c : Candidate) (now : Nat) : Candidate :=
  { c with since := now, firstSince := none, request := none, blocking := false }

/-- Whether two candidates are the same. -/
def Candidate.same (a b : Candidate) : Bool := a.swapped == b.swapped && a.launch == b.launch

/-- A new ensemble of a launch placed (R21, R24, R26, R56). -/
def State.placeNew (s : State) (l : Launch) (x : Site) : State :=
  let h := l.hdr
  let eid := s.fresh
  let n := h.sections * h.troupes
  let size := h.groupSize
  let stop := if h.block then groupEnd size l.next l.stop else min l.stop (l.next + 32 * n)
  let e : Ensemble :=
    { id := eid, launch := l.id, num := l.nextNum, st := .running, die := x.die, cluster := x.cluster,
      offset := x.offset, sections := x.cores.map fun c => Section.new c h.chan,
      bars := List.replicate 8 Barrier.new, troupes := (List.range n).map (eid + 1 + ·), bound := 0, boundMax := 0,
      pending := false, lastRefill := false, spilled := false, fetchSpill := false, waitPage := none,
      endOnSwap := false, placedAt := eid }
  let ts := x.seats.map fun (q : Seat) =>
    let t := Troupe.new (eid + 1 + (q.sec * h.troupes + q.idx)) eid x.die q
    let t := if h.block then t.takeGroup h.troupes size l.next stop true else t.takeFirst h.troupes l.next stop
    t.begin l.entry s.now
  let s := { s with fresh := eid + n + 1, ens := s.ens ++ [e], troupes := s.troupes ++ ts }
  let s := s.modLaunch l.id fun l =>
    { l with next := stop, handedOut := l.handedOut + (stop - l.next), nextNum := l.nextNum + 1,
             firstPlaced := if l.firstPlaced.isNone then some s.now else l.firstPlaced }
  let s := s.modCmd l.cmd fun c => if c.st = .placing then { c with st := .running } else c
  ts.foldl (fun s t => if s.isDone t then s.makeDone t.id else s) s

/-- A swapped-out ensemble placed again: its places, then the resume of its troupes (R55, R373). -/
def State.placeAgain (s : State) (ens : Nat) (x : Site) : State :=
  let s := s.modEns ens fun e =>
    { e with die := x.die, cluster := x.cluster, offset := x.offset, placedAt := s.fresh,
             sections := (lenum e.sections).map fun (c : Nat × Section) => { c.2 with core := lget 0 x.cores c.1 } }
  let s := { s with fresh := s.fresh + 1, troupes := s.troupes.map fun (t : Troupe) =>
    if t.ens = ens then
      match x.seats.find? fun (q : Seat) => q.sec == t.sec && q.idx == t.idx with
      | some q => { t with die := x.die, core := q.core, part := q.part, slot := q.slot, latches := [] }
      | none => t
    else t }
  s.resume ens

/-- A candidate placed where it fits, after the retirements of the clock on its die (R446). -/
def State.place (s : State) (c : Candidate) (x : Site) : State :=
  let s := s.takes (.retire x.die) afterCores
  match c.swapped with
  | some e => ({ s with queue := s.queue.filter fun q => !q.same c } : State).placeAgain e x
  | none => match s.launch? c.launch with
    | some l =>
      ({ s with queue := s.queue.map fun q => if q.same c then q.restart s.now else q } : State).placeNew l x
    | none => s

/-- PLACEMENT (R56, R371): the first candidate that fits is placed. -/
def execPlacement (s : State) : Host.Outcome State Fault Refusal :=
  match firstSome (fun c => (s.fits c).map fun x => (c, x)) (placeable s.now s.candidates) with
  | some (c, x) => .next (s.place c x)
  | none => .next s

/-- Whether an ensemble's release would let a candidate fit (R372). -/
def State.wouldFit (s : State) (c : Candidate) (ens : Nat) : Bool :=
  let mine := fun (x : ExtSet) => s.troupes.any fun t =>
    t.ens == ens && t.holdsExt && x.at_ t.die t.core t.part (t.slot / 2)
  (({ s.modEns ens fun e => { e with st := .retired } with
      ext := s.ext.map fun x => if mine x then { x with holder := none } else x } : State).fits c).isSome

/-- The better target of a pre-emption request: the lower priority, then the later placement (R372). -/
def State.target (s : State) (c : Candidate) : Option Ensemble :=
  (s.ens.filter fun e => e.st == .running && decide (s.prioOf e < c.prio) && s.wouldFit c e.id).foldl
    (fun b e => match b with
      | none => some e
      | some f => if s.prioOf e < s.prioOf f ∨ (s.prioOf e = s.prioOf f ∧ f.placedAt < e.placedAt) then some e else b)
    none

/-- The pre-emption request that the placer makes now (R372): of the first candidate that has waited 65,536 clocks without
fitting and holds no request, where a target exists, to that target. -/
def State.placerAsks (s : State) : Option (Candidate × Ensemble) :=
  firstSome (fun c => (s.target c).map fun e => (c, e)) (s.candidates.filter fun c =>
    c.request.isNone && decide (Config.preemptClocks ≤ s.now - c.since) && (s.fits c).isNone)

/-- A candidate makes its request to an ensemble and holds it (R372). -/
def State.askFor (s : State) (c : Candidate) (ens : Nat) : State :=
  ({ s with queue := s.queue.map fun q => if q.same c then { q with request := some ens } else q } : State).request ens

/-- PLACER_PREEMPT_REQUEST (R372). -/
def execPlacerPreemptRequest (s : State) : Host.Outcome State Fault Refusal :=
  match s.placerAsks with
  | some (c, e) => .next (s.askFor c e.id)
  | none => .next s

/-- PREEMPT_REQUEST (R411): whoever asks, the request acts alike; but the placer asks only as R372 lets it. -/
def execPreemptRequest (ens : Nat) (why : PreemptCause) (s : State) : Host.Outcome State Fault Refusal :=
  match why with
  | .placer => (match s.placerAsks with
    | some (c, e) => if e.id = ens then .next (s.askFor c ens) else .next s
    | none => .next s)
  | .cancel | .fetch | .service | .retirement => .next (s.request ens)

/-- PLACER_STARVATION_HOLD (R371): a candidate that has stood first in its priority for 1,048,576 clocks holds
its priority and those below, until it fits. -/
def execPlacerStarvationHold (s : State) : Host.Outcome State Fault Refusal :=
  .next { s with queue := s.queue.map fun c => { c with blocking := c.starved s.now } }

/-- The placer's counts in a clock: a candidate not offered does not wait, one that stands first in its
priority is dated where none holds it, a hold lasts until the candidate fits, and a request ends when its target has left
its cores (R371, R372). -/
def State.placerClock (s : State) : State :=
  let cs := s.candidates
  let first := fun (c : Candidate) => (match cs.find? fun d => d.prio == c.prio with
    | some d => d.same c
    | none => false) && cs.all fun d => d.prio != c.prio || d.same c || !d.starved s.now
  let held := fun (c : Candidate) => match c.request with
    | some e => match s.ens? e with
      | some e => e.resident
      | none => false
    | none => true
  { s with queue := s.queue.map fun c =>
      if !s.offered c then c.restart s.now
      else
        let c := if held c then c else { c with request := none, since := s.now }
        let c := { c with blocking := c.starved s.now }
        if first c then { c with firstSince := some (c.firstSince.getD s.now) } else { c with firstSince := none } }

end Sys2Proof.Machine
end

