-- ==== Sys2Proof/Machine/Service.lean ====
section
/-! DEFINITION. The Brehel service's own accesses to a submitter's memory (R427, R450), first touch (R386),
changes of a translation (R319), the start of an effect and its end, signals and the end of a command
(R364, R367), and the nodes of a running GRAPH (R370, R385). -/

namespace Sys2Proof.Machine

/-! ### Pages as the service handles them (R319, R386) -/

/-- Whether a line lies in a page. -/
def Pte.holds (p : Pte) (ln : Nat) : Bool := decide (p.pa ≤ ln * 128 ∧ ln * 128 < p.pa + p.size)

/-- Every L1 copy of a page's lines dropped, on every core of the device (R308, R319). -/
def State.dropPageL1 (s : State) (h : Nat) (p : Pte) : State :=
  { s with dies := s.dies.map fun D => { D with cores := D.cores.map fun e =>
      (e.1, { e.2 with l1 := e.2.l1.filter fun q => !(q.1 % 4 == h && p.holds (q.1 / 4)) }) } }

/-- The lines of a page that its home slice holds. -/
def State.pageLines (s : State) (h : Nat) (p : Pte) : List Nat :=
  ((s.die h).l2.filter fun e => p.holds e.1).map (·.1)

/-- A page's lines leave the home slice without waiting for their horizons, their dirty bytes written back,
and every L1 copy goes with them (R319). -/
def State.dropPage (s : State) (p : Pte) : State :=
  match p.home with
  | none => s
  | some h =>
    let s := (s.pageLines h p).foldl (fun s ln => match s.line? h ln with
      | some l => if l.coherent && l.st == .i then (s.writeBack h ln).delLine h ln else s.leave h ln
      | none => s) s
    s.dropPageL1 h p

/-- The first touch of a page with RES = 0: zeros in its pool memory, and RES set (R386). No cached line of the
page outlives the fill, and a page of KIND 3, which has no pool memory, is only made resident (log 22). -/
def State.firstTouch (s : State) (sid va : Nat) : State :=
  match s.page? sid va with
  | none => s
  | some (b, p) =>
    if p.res then s
    else
      let s := if p.kind = .device then s
        else { s.dropPage p with pool := s.pool.filter fun e => !decide (p.pa ≤ e.1 ∧ e.1 < p.pa + p.size) }
      s.modPage sid b fun q => { q with res := true, touched := false }

/-- PAGE_FIRST_TOUCH_FILL (R386): of a page that an access has touched. -/
def execPageFirstTouchFill (sid va : Nat) (s : State) : Host.Outcome State Fault Refusal :=
  .next (match s.page? sid va with
    | some (_, p) => if p.touched then s.firstTouch sid va else s
    | none => s)

/-- Whether an access is still under way that was translated by a page. -/
def Acc.uses (a : Acc) (home : Option Nat) (p : Pte) (now : Nat) : Bool :=
  !a.over now && match a.tgt with
    | .pool h pa _ => home == some h && decide (p.pa ≤ pa ∧ pa < p.pa + p.size)
    | .device _ pa => p.kind == .device && decide (p.pa ≤ pa ∧ pa < p.pa + p.size)
    | _ => false

/-- Whether an operation has written lines of a page that are not performed yet, or still maintains such lines. -/
def State.opUses (s : State) (o : Op) (p : Pte) : Bool :=
  let mine := fun (ls : List (Nat × Nat)) => ls.filter fun e => p.home == some e.1 && p.holds e.2
  !s.linesOver (mine o.lines) || (match o.kind with | .cline _ ls => mine ls != [] | _ => false)

/-- Whether every access that used a page's translation has been performed, at `.pool` for a shared-coherent
page, so that a change of it may be reported (R319). -/
def State.pageQuiet (s : State) (sid : Nat) (p : Pte) : Bool :=
  (s.troupes.all fun t => s.sidOf t != sid || t.ops.all fun o =>
      !s.opUses o p && o.kind.accs.all fun a => !a.uses p.home p s.now) &&
    (match p.home with
      | some h => p.kind != .coherent || (s.pageLines h p).all fun ln => s.poolDone h ln
      | none => true)

/-- Pages of %save areas that have been released are unmapped, once no access that used them is under way (R319,
R454). -/
def State.unmapSaves (s : State) : State :=
  s.unmaps.foldl (fun s e => match (s.sub? e.1).bind fun u => mfind u.pages e.2 with
    | none => { s with unmaps := s.unmaps.erase e }
    | some p =>
      if s.pageQuiet e.1 p then
        ({ s.dropPage p with unmaps := s.unmaps.erase e } : State).modSub e.1 fun u => { u with pages := mdel e.2 u.pages }
      else s) s

/-! ### The service's reads and writes -/

/-- What an access of the service finds: its bytes and the lines that it wrote; a wait for a line; or the
offset of the first byte that it may not reach. -/
inductive Svc where
  | ok (s : State) (bs : List Byte) (lines : List (Nat × Nat))
  | waits (s : State)
  | bad (off : Nat)
  deriving DecidableEq, Repr

/-- The page behind an address for the service, with R or W; a first touch fills it, and a first translation
homes it on die 0 (log 23). -/
def State.svcAt (s : State) (sid va : Nat) (w : Bool) : Option (State × Nat × Nat × Pte) :=
  match s.page? sid va with
  | none => none
  | some (_, p) =>
    if p.kind = .device ∨ (if w then p.w else p.r) = false ∨ Config.windowBase ≤ va then none
    else
      let s := (s.firstTouch sid va).touchPage sid va 0
      match s.translate sid 0 va with
      | .ok h pa q => some (s, h, pa, q)
      | _ => none

/-- Bytes read by the service from `va + k` upward, at the home slices. -/
def State.svcRead (s : State) (sid va k : Nat) : Nat → Svc
  | 0 => .ok (s.dropOnceOf fun w => w == .service) [] []
  | n + 1 =>
    match s.svcAt sid (va + k) false with
    | none => .bad k
    | some (s, h, pa, p) =>
      match s.lineRead h (pa / 128) (p.kind == .coherent) [pa % 128] .service true with
      | .waits s => .waits s
      | .dead => .bad k
      | .ready s l =>
        if s.errs.contains (.line h (pa / 128)) then .bad k
        else match State.svcRead s sid va (k + 1) n with
          | .ok s bs ls => .ok s (l.data.byte (pa % 128) :: bs) ls
          | g => g

/-- Bytes written by the service from `va + k` upward, at the home slices. -/
def State.svcWrite (s : State) (sid va k : Nat) : List Byte → List (Nat × Nat) → Svc
  | [], ls => .ok (s.dropOnceOf fun w => w == .service) [] ls
  | b :: bs, ls =>
    match s.svcAt sid (va + k) true with
    | none => .bad k
    | some (s, h, pa, p) =>
      match s.lineWrite h (pa / 128) (p.kind == .coherent) .service true with
      | .waits s => .waits s
      | .dead => .bad k
      | .ready s l =>
        let s := (s.commitWrite 0 Config.coresPerDie h (pa / 128) l (pa % 128) [b] 1).1
        State.svcWrite s sid va (k + 1) bs (if ls.head? = some (h, pa / 128) then ls else (h, pa / 128) :: ls)

/-- Whether the service may write a range: its ends and every 64 KiB boundary in it. -/
def State.svcCan (s : State) (sid va n : Nat) : Bool :=
  n == 0 || ((va :: (va + n - 1) :: (List.range (n / 65536 + 1)).map fun k => (va / 65536 + k + 1) * 65536).all fun a =>
    decide (va + n ≤ a) || (s.svcAt sid a true).isSome)

/-! ### The course of a command's effect (R365, R367) -/

/-- The command whose effect is made: it has started, and its effect is not made yet. -/
def State.started (s : State) (id op : Nat) : Option Command :=
  match s.cmd? id with
  | some c => if c.op = op ∧ c.st = .started ∧ c.effect = false ∧ c.node = none then some c else none
  | none => none

/-- A command's effect is made: its status, details and the lines that it wrote stand for its completion. -/
def State.effectDone (s : State) (id status d0 d1 : Nat) (ls : List (Nat × Nat)) : State :=
  s.modCmd id fun c =>
    { c with effect := true, status := status, detail0 := BitVec.ofNat 64 d0, detail1 := BitVec.ofNat 64 d1,
             lines := ls }

/-- A command's effect `f`, where it may be made. -/
def runCmd (id op : Nat) (s : State) (f : Command → State) : Host.Outcome State Fault Refusal :=
  match s.started id op with
  | none => .next s
  | some c => .next (f c)

/-- Bytes written at a command's result address, which end its effect; an address that is not writable is
status 0x02 with the offset `at_` of its field (R427). -/
def State.answer (s : State) (c : Command) (va at_ : Nat) (bs : List Byte) : State :=
  if !s.svcCan c.sid va bs.length then s.effectDone c.id 0x02 at_ 0 []
  else match s.svcWrite c.sid va 0 bs [] with
    | .ok s _ ls => s.effectDone c.id 0 0 0 ls
    | .waits s => s
    | .bad _ => s.effectDone c.id 0x02 at_ 0 []

/-! ### Launches before their admission, and nodes (R362, R370, R385) -/

/-- A launch that has started and waits for admission, from a launch body at 0x80 of a message (R362). -/
def Launch.new (id : Nat) (c : Command) : Launch :=
  let dies := fld c.msg 0xA4 1 % 16
  { id := id, sid := c.sid, cmd := c.id, tag := c.tag, admitted := false, entry := fld c.msg 0x80 8,
    lhdr := fld c.msg 0x88 8, hdr := LaunchHeader.empty, base := fld c.msg 0x90 8, next := fld c.msg 0x90 8,
    stop := fld c.msg 0x90 8 + fld c.msg 0x98 8, handedOut := 0, chipUnits := fld c.msg 0xA0 2, chip := [],
    mboxFirst := 0, mboxCount := fld c.msg 0xA2 2, dies := if dies = 0 then 0xF else BitVec.ofNat 4 dies,
    grants := grantList c.msg, maxEns := fld c.msg 0xA6 2, tlimit := fld c.msg 0xA8 4, firstPlaced := none,
    handler := 0, nextNum := 0, debugger := none, trace := [], endStatus := none, halts := [], complete := false }

/-- A launch joins those that wait for admission, in order of start (R368). -/
def State.addLaunch (s : State) (c : Command) : State :=
  { s with fresh := s.fresh + 1, launches := s.launches ++ [Launch.new s.fresh c] }

/-- The entry of a node in its table. -/
def State.nodeEntry (s : State) (table k : Nat) : Option NodeEntry := (mget [] s.nodeTables table)[k]?

/-- The running GRAPH of a command. -/
def State.graph? (s : State) (cmd : Nat) : Option GraphRun := s.graphs.find? fun g => g.cmd == cmd

/-- A running GRAPH changed. -/
def State.modGraph (s : State) (cmd : Nat) (f : GraphRun → GraphRun) : State :=
  { s with graphs := s.graphs.map fun g => if g.cmd = cmd then f g else g }

/-- The entry that stands for a node launch: it carries the node's body and signals and the tag of its GRAPH. -/
def nodeCmd (id k : Nat) (g : Command) (e : NodeEntry) : Command :=
  { id := id, sid := g.sid, queue := g.queue, seq := g.seq, tag := g.tag, op := 1, ordered := false, notify := false,
    waits := [], sigs := e.sigs, msg := e.body, prev := none, st := .started, startedAt := 0, status := 0,
    detail0 := 0, detail1 := 0, sigsLeft := 0, effect := false, lines := [], node := some (g.id, k) }

/-- A node that starts, or that ends with a status without starting. Its signals and grants are checked as a
command's are (log 24). -/
def State.startNode (s : State) (g : Command) (e : NodeEntry) (k : Nat) (status : Nat) : State :=
  let c := { nodeCmd s.fresh k g e with startedAt := s.fresh }
  let s := { s with fresh := s.fresh + 1, cmds := s.cmds ++ [c] }
  let s := s.modGraph g.id fun r => { r with started := ninsert k r.started }
  if status ≠ 0 then s.effectDone c.id status 0 0 []
  else match s.badAddr c with
    | some a => s.effectDone c.id 0x09 a 0 []
    | none => (s.addLaunch c).modGraph g.id fun r => { r with ready := r.ready ++ [k] }

/-- The nodes of a GRAPH whose counters read 0 and that have not started, in increasing order, start (R370). -/
def State.startReady (s : State) (g : Command) : State :=
  match s.graph? g.id with
  | none => s
  | some r => (lenum r.counters).foldl (fun s e =>
      if e.2 = 0 ∧ r.started.contains e.1 = false then
        match s.nodeEntry r.table e.1 with
        | some n => s.startNode g n e.1 0
        | none => s
      else s) s

/-- A node is Complete: its successors' counters fall by 1, and the GRAPH takes the status of the first node that has one,
and ends with its last node (R370, R385). The nodes that reach 0 start together at the end of the clock (R393). -/
def State.nodeDone (s : State) (g k : Nat) (c : Command) : State :=
  match s.cmd? g, s.graph? g with
  | some gc, some r =>
    let succ := match s.nodeEntry r.table k with | some e => e.succ | none => []
    let s := s.modGraph g fun r =>
      { r with done := ninsert k r.done,
               counters := (lenum r.counters).map fun e => if succ.contains e.1 then e.2 - 1 else e.2 }
    let s := if gc.status = 0 ∧ c.status ≠ 0 then
        s.modCmd g fun x => { x with status := c.status, detail0 := c.detail0, detail1 := c.detail1 } else s
    if (ninsert k r.done).length = r.counters.length then
      ({ s with graphs := s.graphs.filter fun q => q.cmd != g } : State).modCmd g fun x => { x with effect := true }
    else s
  | _, _ => s

/-! ### Signals and the end of a command (R364, R367) -/

/-- One signal made (R364). -/
def State.makeSignal (s : State) (g : SignalEntry) : State :=
  s.modWord g.addr fun m => if g.mode = 2 then m.drain else m.fill g.value

/-- A command is Complete: its record follows its last signal, where NOTIFY or its status asks for one; a node
tells its GRAPH instead. After a RESET the device reset is due (R428). -/
def State.endCmd (s : State) (c : Command) : State :=
  let s := s.modCmd c.id fun c => { c with st := .complete }
  let s := if c.op = 0x2E ∧ c.status = 0 then { s with fw := { s.fw with resetDue := true } } else s
  match c.node with
  | some (g, k) => (s.nodeDone g k c).serveMail
  | none =>
    (if c.notify ∨ c.status ≠ 0 then s.record c 0 c.status c.detail0 c.detail1 else s).serveMail

/-- The turns that a signal takes: it comes before other requests of the clock at its word, and the commands that wait there
are tested at all of their words with it (R248, R366, R379). -/
def State.signalTurn (s : State) (a : Nat) : State :=
  (s.word a).waiters.foldl (fun s w => match w with
    | .start id => (match s.cmd? id with
      | some c => c.waits.foldl (fun s w => s.takes (.word w.addr) 0) s
      | none => s)
    | _ => s) (s.takes (.word a) 0)

/-- The signals of a Draining command from the next one on, in entry order, each in its turn. A signal of mode 0 on a full word waits for it to empty. -/
def State.drainSignals (s : State) (id : Nat) : Nat → State
  | 0 => s
  | n + 1 =>
    match s.cmd? id with
    | none => s
    | some c =>
      if c.st ≠ .draining then s
      else match c.sigs[c.sigs.length - c.sigsLeft]? with
        | none => s.endCmd c
        | some g =>
          let w : Waiter := .signal id
          let s := s.signalTurn g.addr
          if g.mode = 0 ∧ (s.word g.addr).full = true then
            s.modWord g.addr fun m => if m.waiters.contains w then m else { m with waiters := m.waiters ++ [w] }
          else
            let s := (s.modWord g.addr fun m => { m with waiters := m.waiters.erase w }).makeSignal g
            State.drainSignals ((s.modCmd id fun c => { c with sigsLeft := c.sigsLeft - 1 }).serveMail) id n

/-- The statuses with which a command makes no signals (R367). -/
def silent (status : Nat) : Bool := [0x01, 0x02, 0x05, 0x09].contains status

/-- A command becomes Draining and makes its signals. -/
def State.completeCmd (s : State) (id : Nat) : State :=
  match s.cmd? id with
  | none => s
  | some c =>
    (s.modCmd id fun c =>
      { c with st := .draining, effect := true, sigsLeft := if silent c.status then 0 else c.sigs.length }).drainSignals
      id (c.sigs.length + 1)

/-- The lines that a command wrote: their dirty bytes go to the pool, but for shared-coherent ones (R450). -/
def State.publish (s : State) (ls : List (Nat × Nat)) : State :=
  ls.foldl (fun s e => match s.line? e.1 e.2 with
    | some l => if l.coherent then s else s.writeBack e.1 e.2
    | none => s) s

/-- COMMAND_COMPLETE (R367, R450): the command's effect is made and its writes are performed at `.pool`. -/
def execCommandComplete (cmd : Nat) (s : State) : Host.Outcome State Fault Refusal :=
  match s.cmd? cmd with
  | none => .next s
  | some c =>
    if c.effect = true ∧ c.st ≠ .draining ∧ c.st ≠ .complete ∧ s.linesOver c.lines = true then
      .next ((s.publish c.lines).completeCmd cmd)
    else .next s

/-- SIGNAL_DRAIN (R364, R367): the signal that waited for its word to empty is made, and the rest follow. -/
def execSignalDrain (cmd : Nat) (s : State) : Host.Outcome State Fault Refusal :=
  match s.cmd? cmd with
  | none => .next s
  | some c => .next (s.drainSignals cmd (c.sigs.length + 1))

end Sys2Proof.Machine
end

