-- ==== Sys2Proof/Machine/Commands.lean ====
section
/-! DEFINITION. Commands (chapter 13): their arrival and checks, the start, launches with their admission,
completion and time limit, GRAPH, SIGNAL, QUERY and CANCEL. -/

namespace Sys2Proof.Machine

/-! ### The checks of a message (R360–R364, R387, R428) -/

/-- Checks of a message: each holds or gives the offset of the first byte that breaks it. -/
abbrev Checks := List (Bool × Nat)

/-- The lowest offset that a check gives. -/
def firstBad (cs : Checks) : Option Nat :=
  cs.foldl (fun b c => if c.1 then b else match b with
    | some o => some (min o c.2)
    | none => some c.2) none

/-- Reserved bytes are 0. -/
def zeros (m : List Byte) (o n : Nat) : Checks := (List.range n).map fun k => (fld m (o + k) 1 == 0, o + k)

/-- A field lies within limits. -/
def within (m : List Byte) (o n lo hi : Nat) : Checks := [(decide (lo ≤ fld m o n ∧ fld m o n ≤ hi), o)]

/-- A field is a multiple of a number. -/
def multiple (m : List Byte) (o n k : Nat) : Checks := [(fld m o n % k == 0, o)]

/-- The ops that name a command (R360, R387, R428). -/
def knownOp (op : Nat) : Bool :=
  decide (1 ≤ op ∧ op ≤ 5) || decide (0x10 ≤ op ∧ op ≤ 0x18) || decide (0x20 ≤ op ∧ op ≤ 0x2F)

/-- The bytes of an op's body, with its padding (R362, R387, R428). -/
def bodyBytes (op : Nat) : Nat :=
  match op with
  | 0x01 => 80
  | 0x03 => 0
  | 0x12 | 0x13 | 0x14 => 32
  | 0x21 => 48
  | 0x29 | 0x2E => 0
  | 0x2B => 64
  | 0x2F => 48
  | _ => 16

/-- The header (R360, R364). -/
def headerChecks (m : List Byte) : Checks :=
  let nw := fld m 3 1 % 8
  let ns := fld m 3 1 / 16 % 8
  [(decide (fld m 1 1 < 16), 1), (decide (fld m 2 1 < 4), 2),
   (decide (nw ≤ 4 ∧ ns ≤ 4) && fld m 3 1 / 8 % 2 == 0 && decide (fld m 3 1 < 128), 3)] ++
  ((List.range 4).flatMap fun k => if k < nw then
      (decide (fld m (0x14 + 8 * k) 1 < 4), 0x14 + 8 * k) :: zeros m (0x15 + 8 * k) 3
    else zeros m (0x10 + 8 * k) 8) ++
  ((List.range 4).flatMap fun k => if k < ns then within m (0x34 + 16 * k) 4 0 2
    else zeros m (0x30 + 16 * k) 16) ++
  zeros m 0x70 16

/-- The body of a launch at 0x80 (R13, R362). -/
def launchChecks (m : List Byte) : Checks :=
  let n := fld m 0x98 8
  [(decide (1 ≤ n ∧ fld m 0x90 8 + n ≤ 2 ^ 64), 0x98)] ++ within m 0xA2 2 0 61440 ++ within m 0xA4 1 0 15 ++
    within m 0xA5 1 0 8 ++ zeros m 0xAC 4 ++ zeros m (0xB0 + 4 * min 8 (fld m 0xA5 1)) (32 - 4 * min 8 (fld m 0xA5 1))

/-- Bytes of a page by the SIZE field of a PTE (R316, R386). -/
def pageBytes (pte : Nat) : Nat :=
  match pte / 2 ^ 61 % 4 with
  | 0 => 65536
  | 1 => 2097152
  | _ => 1073741824

/-- Whether a range of addresses touches the engine windows or the service's window (R305, R454). -/
def barredRange (va n : Nat) : Bool :=
  decide (Config.windowBase < va + n) || decide (va ≤ Config.serviceHi ∧ Config.serviceLo < va + n)

/-- MAP, UNMAP and PROTECT (R386, R387, R457). -/
def pageChecks (op : Nat) (m : List Byte) : Checks :=
  let va := fld m 0x80 8
  let pte := fld m 0x88 8
  let z := pageBytes pte
  [(va % z == 0, 0x80), (decide (pte / 2 ^ 61 % 4 < 3), 0x8F)] ++
  (if op = 0x13 then zeros m 0x88 7 ++ [(fld m 0x8F 1 / 32 % 4 * 32 == fld m 0x8F 1, 0x8F)]
   else zeros m 0x88 2 ++ [(decide (fld m 0x8D 1 < 64), 0x8D), (fld m 0x8E 1 % 16 == 0, 0x8E)]) ++
  within m 0x90 4 1 65536 ++ zeros m 0x94 12 ++
  (if op = 0x12 then
    [(pte % 2 ^ 46 % z == 0 && decide (pte % 2 ^ 46 + fld m 0x90 4 * z ≤ 2 ^ 46), 0x8A),
     (!barredRange va (fld m 0x90 4 * z), 0x80)]
   else [])

/-- A power of two. -/
def powerOfTwo (n : Nat) : Bool := (List.range 17).any fun k => n == 2 ^ k

/-- The body of a command (R362, R387, R428). -/
def bodyChecks (op : Nat) (m : List Byte) : Checks :=
  match op with
  | 0x01 => launchChecks m
  | 0x02 => zeros m 0x84 12
  | 0x04 | 0x05 => zeros m 0x88 8
  | 0x10 => within m 0x80 4 0 255 ++ within m 0x84 2 1 1024 ++ zeros m 0x86 2 ++ multiple m 0x88 8 256
  | 0x11 => within m 0x80 4 0 255 ++ zeros m 0x84 12
  | 0x12 | 0x13 | 0x14 => pageChecks op m
  | 0x15 => within m 0x80 2 0 4095 ++ within m 0x82 2 1 (4096 - fld m 0x80 2) ++ zeros m 0x84 12
  | 0x16 => zeros m 0x84 12
  | 0x17 => zeros m 0x81 1 ++ within m 0x82 2 1 4096 ++ [(decide (fld m 0x84 2 < fld m 0x82 2), 0x84)] ++
      within m 0x86 2 1 60000
  | 0x18 => zeros m 0x81 15
  | 0x20 => zeros m 0x88 8
  | 0x21 => zeros m 0xA8 8
  | 0x22 => multiple m 0x80 8 16 ++ zeros m 0x88 8
  | 0x23 => within m 0x80 1 0 3 ++ zeros m 0x81 1 ++ within m 0x82 2 0 4095 ++
      within m 0x84 2 0 (4096 - fld m 0x82 2) ++ zeros m 0x86 10
  | 0x24 => within m 0x88 1 0 3 ++ within m 0x89 1 0 63 ++ zeros m 0x8A 6
  | 0x25 => within m 0x88 1 0 5 ++ within m 0x89 1 0 1 ++ zeros m 0x8A 2 ++
      (match fld m 0x88 1 with
        | 0 => within m 0x8C 4 0 255
        | 2 | 3 => within m 0x8C 4 0 3
        | _ => [])
  | 0x28 => zeros m 0x8C 4
  | 0x2A => within m 0x80 2 600 2400 ++ zeros m 0x86 10
  | 0x2B => within m 0x80 1 0 15 ++ within m 0x81 1 0 1 ++ zeros m 0x82 2 ++ zeros m 0xB4 12
  | 0x2C => within m 0x80 4 1024 65536 ++ within m 0x84 2 256 8192 ++ [(powerOfTwo (fld m 0x84 2), 0x84)] ++
      zeros m 0x86 10
  | 0x2D => within m 0x80 1 0 1 ++ zeros m 0x81 15
  | 0x2F => zeros m 0x8C 4 ++ multiple m 0x90 8 65536 ++ multiple m 0x98 8 65536 ++ zeros m 0xA8 8
  | _ => []

/-- The offset of the first bad byte of a message; a message that is too short or too long is bad where it ends
or where its body ends (R363; log 25). -/
def malformed (m : List Byte) : Option Nat :=
  let n := 0x80 + bodyBytes (fld m 0 1)
  firstBad ((m.length == n, min m.length n) :: headerChecks m ++ bodyChecks (fld m 0 1) m)

/-! ### Arrival (R361, R363, R427, R431) -/

/-- A command as its message gives it (R360, R364). -/
def cmdOf (id sid : Nat) (m : List Byte) (prev : Option Nat) : Command :=
  { id := id, sid := sid, queue := fld m 1 1 % 16, seq := fld m 4 4, tag := BitVec.ofNat 64 (fld m 8 8),
    op := fld m 0 1, ordered := fld m 2 1 % 2 == 1, notify := fld m 2 1 / 2 % 2 == 1,
    waits := (List.range (min 4 (fld m 3 1 % 8))).map fun k =>
      { addr := fld m (0x10 + 8 * k) 4, want := fld m (0x14 + 8 * k) 1 % 2 == 1,
        consume := fld m (0x14 + 8 * k) 1 / 2 % 2 == 1 }
    sigs := (List.range (min 4 (fld m 3 1 / 16 % 8))).map fun k =>
      { addr := fld m (0x30 + 16 * k) 4, mode := fld m (0x34 + 16 * k) 4,
        value := BitVec.ofNat 64 (fld m (0x38 + 16 * k) 8) }
    msg := m, prev := prev, st := .arrived, startedAt := 0, status := 0, detail0 := 0, detail1 := 0, sigsLeft := 0,
    effect := false, lines := [], node := none }

/-- Whether an op is an operator's (R427). -/
def operatorOp (op : Nat) : Bool := decide (0x22 ≤ op ∧ op ≤ 0x2E)

/-- Why a message that is next in its queue is rejected on arrival, with its offset: the first of 0x01, 0x02,
0x0B and 0x05 that applies (R361, R427, R431, R446; log 25). -/
def State.rejection (s : State) (u : Submitter) (q : CmdQueue) (m : List Byte) : Option (Nat × Nat) :=
  let op := fld m 0 1
  if !knownOp op then some (0x01, 0)
  else match malformed m with
    | some o => some (0x02, o)
    | none =>
      if (operatorOp op && !u.operator) || (s.fw.recovery && !(u.operator && recoveryOps.contains op)) then some (0x0B, 0)
      else if op = 0x28 ∧ s.fw.committing.isSome = true then some (0x02, 0)
      else if Config.queueDepth ≤ q.cmds.length then some (0x05, 0)
      else none

/-- The queue of a submitter that a message names. -/
def Submitter.queue? (u : Submitter) (n : Nat) : Option CmdQueue := u.queues.find? fun q => q.num == n

/-- The message next in its queue: rejected with a record, its SEQ still expected, or accepted. An ATTEST that
arrives while a hand-over runs is answered at once: it starts, or waits at its words, with no place in its queue (R436). -/
def State.takeMsg (s : State) (u : Submitter) (q : CmdQueue) (m : List Byte) : State × Bool :=
  let c := cmdOf s.fresh u.sid m q.lastCmd
  match s.rejection u q m with
  | some (st, o) => (s.record c 0 st (BitVec.ofNat 64 o) 0, false)
  | none =>
    let now := c.op = 0x21 && s.fw.committing.isSome
    let c := if now && c.waits == [] then { c with st := .started, startedAt := s.fresh } else c
    let s' := ({ s with fresh := s.fresh + 1, cmds := s.cmds ++ [c] } : State).modQueue u.sid q.num fun q =>
      { q with next := q.next + 1, lastCmd := some c.id, cmds := if now then q.cmds else q.cmds ++ [c.id] }
    (if now && (c.waits != [] || (s.badAddr c).isSome) then s'.promote c else s', true)

/-- Messages held for a queue that are now next (R361). -/
def State.takeHeld (s : State) (sid n : Nat) : Nat → State
  | 0 => s
  | k + 1 =>
    match s.sub? sid with
    | none => s
    | some u => match u.queue? n with
      | none => s
      | some q => match q.held.find? fun h => h.1 == q.next with
        | none => s
        | some h =>
          let s := s.modQueue sid n fun q => { q with held := q.held.filter fun e => e.1 != h.1 }
          match s.takeMsg u q h.2 with
          | (s, true) => State.takeHeld s sid n k
          | (s, false) => s

/-- The queue that a message opens, where the device holds fewer than 256 (R360). -/
def State.openQueue (s : State) (u : Submitter) (n : Nat) : State × Option CmdQueue :=
  match u.queue? n with
  | some q => (s, some q)
  | none =>
    if (s.subs.map fun u => u.queues.length).sum < Config.queuesPerDevice then
      let q : CmdQueue := { num := n, next := 0, cmds := [], lastCmd := none, held := [] }
      (s.modSub u.sid fun u => { u with queues := u.queues ++ [q] }, some q)
    else (s, none)

/-- A message arrives: a duplicate is dropped, one ahead of its turn is held, and the next one is taken, with
those held behind it (R361). -/
def State.arrive (s : State) (sid : Nat) (m : List Byte) : State :=
  match s.sub? sid with
  | none => s
  | some u =>
    let n := fld m 1 1 % 16
    match s.openQueue u n with
    | (s, none) => s.record (cmdOf 0 sid m none) 0 0x05 0 0
    | (s, some q) =>
      let seq := fld m 4 4
      if seq < q.next ∨ (q.held.any fun h => h.1 == seq) = true then s
      else if q.next < seq then s.modQueue sid n fun q => { q with held := q.held ++ [(seq, m)] }
      else match s.takeMsg u q m with
        | (s, true) => (s.takeHeld sid n q.held.length).serveMail
        | (s, false) => s

/-- Whether control core 0 runs, so that a frame is parsed as it arrives (R377). -/
def State.parsing (s : State) : Bool := !s.pw.gated.contains 0 && !s.pw.restoring

/-- A frame held in the wake buffer, or dropped and counted where it is full (R377). -/
def State.hold (s : State) (f : Frame) : State :=
  if s.pw.buffer.length < Config.wakeFrames then { s with pw := { s.pw with buffer := s.pw.buffer ++ [f] } }
  else { s with ev := bump s.ev 0x80 1 }

/-- A frame that arrives while core 0 does not run; `hit` says whether it matches the wake filter. One that matches begins
the restore, and from then on every frame is held; before, one that does not match is dropped and counted, but held in the
clock in which the last core gates (R377, R379). -/
def State.frame (s : State) (f : Frame) (hit : Bool) : State :=
  if s.pw.restoring || hit then ({ s with pw := { s.pw with restoring := true } } : State).hold f
  else if s.pw.gatedAt = some s.now then s.hold f
  else { s with ev := bump s.ev 0x80 1 }

/-- COMMAND_ARRIVAL (R361): frames that arrive while core 0 is gated are WAKE_FRAME's. -/
def execCommandArrival (sid : Nat) (msg : List Byte) (s : State) : Host.Outcome State Fault Refusal :=
  .next (if s.parsing then s.arrive sid msg else s)

/-- UNKNOWN_OP (R363): the arrival of a message whose OP names no command. -/
def execUnknownOp (sid : Nat) (msg : List Byte) (s : State) : Host.Outcome State Fault Refusal :=
  .next (if s.parsing && !knownOp (fld msg 0 1) then s.arrive sid msg else s)

/-- COMMAND_START (R365): a command that may become Waiting does so, with the grants that stand at this moment; a
Waiting command whose waits all hold starts. One with waits starts as soon as they hold. -/
def execCommandStart (cmd : Nat) (s : State) : Host.Outcome State Fault Refusal :=
  match s.cmd? cmd with
  | none => .next s
  | some c =>
    if s.mayWait c then .next ((s.startTurn c).promote c).serveMail
    else if s.canStart c then .next ((s.startTurn c).startCmd c).serveMail
    else .next s

/-! ### Launches (R362, R368, R382) -/

/-- LAUNCH (R362, R368): a LAUNCH that has started waits for its admission. -/
def execLaunch (cmd : Nat) (s : State) : Host.Outcome State Fault Refusal :=
  runCmd cmd 0x01 s fun c => if s.launches.any fun l => l.cmd == c.id then s else s.addLaunch c

/-- The boundaries b0 to bF of a header's widths (R14). -/
def boundaries (f : Nat) (ws : List Nat) : List Nat :=
  (List.range f).map (fun k => (ws.take k).sum) ++ [64]

/-- A launch header as its 32 bytes give it (R381). -/
def headerOfBytes (b : List Byte) : LaunchHeader :=
  { block := fld b 0 1 == 1, sections := fld b 1 1, troupes := fld b 2 1, prio := fld b 3 1, fields := fld b 4 1,
    tlv := fld b 5 1, elv := fld b 6 1, chan := fld b 7 1,
    widths := (List.range (fld b 4 1 - 1)).map fun k => fld b (8 + k) 1, priv := fld b 0x0E 2,
    scratch := fld b 0x10 2, ringBase := fld b 0x12 2, ringCnt := fld b 0x14 2, grpBase := fld b 0x16 1,
    grpCnt := fld b 0x17 1, umMask := BitVec.ofNat 16 (fld b 0x18 2) }

/-- Whether a group number is a submitter's (R382, R389). -/
def State.ownsGroup (s : State) (sid n : Nat) : Bool :=
  s.groups.any fun g => g.num == n && g.sid == sid && g.st != .free

/-- The checks of a launch header (R14, R16, R74, R382). A limit on two fields is broken at the later of them
where both may be at fault; see log 26. -/
def State.headerBad (s : State) (sid : Nat) (b : List Byte) : Option Nat :=
  let h := headerOfBytes b
  let bs := boundaries h.fields h.widths
  let bt := lget 64 bs h.tlv
  let be := lget 64 bs h.elv
  firstBad (within b 0 1 0 1 ++ within b 1 1 1 4 ++ within b 2 1 1 64 ++ within b 3 1 0 7 ++ within b 4 1 1 6 ++
    [(decide (h.tlv ≤ h.fields ∧ bt ≤ 5), 5),
     (decide (h.elv ≤ h.fields ∧ bt ≤ be) &&
       (!h.block || decide (be ≤ 13 ∧ 2 ^ be ≤ 32 * h.troupes * h.sections)), 6)] ++
    within b 7 1 0 8 ++
    ((List.range 5).flatMap fun k =>
      if k < h.fields - 1 then
        [(decide (1 ≤ fld b (8 + k) 1 ∧ fld b (8 + k) 1 ≤ 63 ∧ (h.widths.take (k + 1)).sum ≤ 63), 8 + k)]
      else zeros b (8 + k) 1) ++
    zeros b 0x0D 1 ++ [(decide (h.priv ≤ 512 ∧ h.priv % 16 = 0), 0x0E),
      (decide (h.scratch ≤ 1024 ∧ h.scratch % 4 = 0 ∧ h.padBytes ≤ Config.scratchBytes), 0x10)] ++
    [(decide (h.ringCnt ≤ 4096 ∧ h.ringBase + h.ringCnt ≤ 4096) &&
       (List.range h.ringCnt).all fun k => mfind s.ringOwner (h.ringBase + k) == some sid, 0x14),
     (decide (h.grpBase + h.grpCnt ≤ 256) &&
       (List.range h.grpCnt).all fun k => s.ownsGroup sid (h.grpBase + k), 0x17)] ++
    [((List.range 6).all fun k => fld b (0x1A + k) 1 == 0, 0x1A)])

/-- Chip allotment units of one die: the chip scratchpad less its first 1 MiB (R303). -/
def State.chipCapacity (s : State) : Nat := (Config.stackedMib - s.fw.l2Mib - 1) * 16

/-- Launches that are not Complete and whose headers are known (R387): those admitted, and those that wait for their
reservations. -/
def State.naming (s : State) : List Launch := s.launches.filter fun l => l.checked && !l.complete

/-- Launches that hold reservations. -/
def State.holding (s : State) : List Launch := s.launches.filter fun l => l.admitted && !l.complete

/-- The dies of a permitted set. -/
def dieList (b : BitVec 4) : List Nat := (List.range 4).filter fun d => b.getLsbD d

/-- Whether a range of mailbox words is free on every permitted die (R364). -/
def State.wordsFree (s : State) (dies : BitVec 4) (first n : Nat) : Bool :=
  decide (first + n ≤ Config.mboxWords) && s.holding.all fun l =>
    l.dies &&& dies == 0 || n == 0 || l.mboxCount == 0 ||
      decide (first + n ≤ l.mboxFirst ∨ l.mboxFirst + l.mboxCount ≤ first)

/-- The lowest free range of mailbox words: it begins at 4,096 or where another ends (R364). -/
def State.lowestWords (s : State) (dies : BitVec 4) (n : Nat) : Option Nat :=
  ((Config.mboxFirst :: s.holding.map fun l => l.mboxFirst + l.mboxCount).filter fun a =>
    decide (Config.mboxFirst ≤ a) && s.wordsFree dies a n).foldl (fun b a => match b with
      | some x => some (min x a)
      | none => some a) none

/-- Whether the unmasking slots of a launch are free on every permitted die (R382). -/
def State.slotsFree (s : State) (dies : BitVec 4) (m : BitVec 16) : Bool :=
  (dieList dies).all fun d => (List.range 16).all fun k => !m.getLsbD k || (s.slot d k).owner.isNone

/-- Whether a die works: it has a core in service (R363). -/
def State.dieWorks (s : State) (d : Nat) : Bool :=
  (List.range Config.coresPerDie).any fun c => !(s.die d).off.getLsbD c

/-- Mailbox words emptied and set to 0 (R364). -/
def State.clearWords (s : State) (dies : BitVec 4) (first n : Nat) : State :=
  (dieList dies).foldl (fun s d => s.modDie d fun D =>
    { D with mbox := D.mbox.filter fun e => !decide (first ≤ e.1 ∧ e.1 < first + n) }) s

/-- A launch ends before its admission (R363, R368, R376). -/
def State.failLaunch (s : State) (l : Launch) (status d0 : Nat) : State :=
  (s.modLaunch l.id fun l => { l with complete := true }).effectDone l.cmd status d0 0 []

/-- The ready list loses a node that has been admitted or has ended (R370). -/
def State.unready (s : State) (cmd : Nat) : State :=
  match (s.cmd? cmd).bind Command.node with
  | some (g, k) => s.modGraph g fun r => { r with ready := r.ready.filter fun j => j != k }
  | none => s

/-- The reservations (unmasking slots after the commands of the clock, R393), the item queue, the handler address and the first candidate of a launch (R368, R403). -/
def State.takeIn (s : State) (l : Launch) (h : LaunchHeader) (first : Nat) : State :=
  let s := s.clearWords l.dies first l.mboxCount
  let s := (dieList l.dies).foldl (fun s d => (List.range 16).foldl (fun s k =>
    if h.umMask.getLsbD k then (s.takes (.slot d k) afterWrites).modSlot d k fun u => { u with owner := some l.id }
    else s) s) s
  let hd := match s.sub? l.sid with | some u => u.handler | none => 0
  let s := s.modLaunch l.id fun l =>
    { l with admitted := true, hdr := h, chip := List.replicate 4 [], mboxFirst := first,
             handler := if hd = 0 then Config.standardHandler else hd }
  (s.modCmd l.cmd fun c => { c with st := .placing }).offer
    { swapped := none, launch := l.id, prio := h.prio, since := s.now, firstSince := none, request := none,
      blocking := false }

/-- Whether a launch could ever have its reservations (R363). -/
def State.satisfiable (s : State) (l : Launch) : Bool :=
  decide (l.chipUnits ≤ s.chipCapacity ∧ l.mboxCount ≤ Config.mboxWords - Config.mboxFirst) && (dieList l.dies).any s.dieWorks

/-- A launch with a header takes its reservations, waits for them, or fails where it can never have them (R363,
R368). -/
def State.reserve (s : State) (l : Launch) (h : LaunchHeader) : State :=
  if s.satisfiable l = false then (s.failLaunch l 0x04 0).unready l.cmd
  else match s.lowestWords l.dies l.mboxCount with
    | none => s
    | some first =>
      if (s.holding.map Launch.chipUnits).sum + l.chipUnits ≤ s.chipCapacity ∧
          s.slotsFree l.dies h.umMask = true then (s.takeIn l h first).unready l.cmd
      else s

/-- The admission of a launch: its header read and checked, once, as it starts; then its reservations, in its turn. A LHDR
that is not a multiple of 32 (R381) gives status 0x03 with DETAIL0 0, since the rules give the alignment and no status (DESIGN
CHOICE, log 42). -/
def State.admission (s : State) (l : Launch) (first : Bool) : State :=
  let take := fun (s : State) (h : LaunchHeader) =>
    if first || !s.satisfiable l then s.reserve l h else s
  if l.checked then take s l.hdr
  else if l.lhdr % 32 ≠ 0 then (s.failLaunch l 0x03 0).unready l.cmd
  else match s.svcRead l.sid l.lhdr 0 32 with
    | .bad o => (s.failLaunch l 0x03 o).unready l.cmd
    | .waits s => s
    | .ok s b _ =>
      match s.headerBad l.sid b with
      | some o => (s.failLaunch l 0x03 o).unready l.cmd
      | none => take (s.modLaunch l.id fun l => { l with hdr := headerOfBytes b, checked := true }) (headerOfBytes b)

/-- Whether no launch that started earlier still waits for its admission: a launch does not pass an earlier one that waits for
its reservations, though its own would fit (R368's "in order of start": DEDUCED, log 42). -/
def State.isNextLaunch (s : State) (c : Command) : Bool :=
  s.cmds.all fun d => decide (c.startedAt ≤ d.startedAt) || d.op != 1 || d.st != .started || d.effect ||
    !(match s.launches.find? fun l => l.cmd == d.id with | some l => !l.admitted && !l.complete | none => d.node.isNone)

/-- LAUNCH_ADMISSION (R368): the launch of a command or node; its header is read and checked as it starts, and reservations
are made in order of start. -/
def execLaunchAdmission (cmd : Nat) (s : State) : Host.Outcome State Fault Refusal :=
  match s.launches.find? fun l => l.cmd == cmd && !l.admitted && !l.complete, s.cmd? cmd with
  | some l, some c => .next (s.admission l (s.isNextLaunch c))
  | _, _ => .next s

/-! ### The end of a launch (R369, R375, R376, R450) -/

/-- The troupes of a launch. -/
def State.troupesOf (s : State) (launch : Nat) : List Troupe :=
  s.troupes.filter fun t => match s.ens? t.ens with | some e => e.launch == launch | none => false

/-- Whether a launch's item queue is empty or ended, and every ensemble that it placed has retired. -/
def State.launchOver (s : State) (l : Launch) : Bool :=
  l.admitted && !l.complete && decide (l.stop ≤ l.next) &&
    s.ens.all fun e => e.launch != l.id || e.st == .retired

/-- Whether every access of a launch's troupes and engines is performed at `.pool` (R369). -/
def State.launchQuiet (s : State) (l : Launch) : Bool :=
  (s.troupesOf l.id).all fun t => t.recs == [] && t.ops.all fun o =>
    o.complete s.now && (o.kind.accs.all fun a => s.accOver a) && s.linesOver o.lines

/-- The dirty bytes of a submitter's private and shared-noncoherent lines written back; the copies stay, clean
(R450). -/
def State.flushSub (s : State) (sid : Nat) : State :=
  match s.sub? sid with
  | none => s
  | some u => u.pages.foldl (fun s e => match e.2.home with
    | some h => s.publish ((s.pageLines h e.2).map fun ln => (h, ln))
    | none => s) s

/-- What a launch's record says: the cause that ended it, then a halt, then a deferred fault that nothing took
(R363). -/
def State.launchStatus (s : State) (l : Launch) : Nat × Nat × Nat :=
  match l.endStatus, l.halts with
  | some st, _ => (st, l.handedOut, 0)
  | none, (pc, code) :: _ => (0x07, pc, code)
  | none, [] =>
    match ((s.troupesOf l.id).flatMap fun t => t.ops.filter fun o => o.fault.isSome).head? with
    | some o => (0x08, o.pc, match o.fault with | some f => f.code | none => 0)
    | none => (0, 0, 0)

/-- A slot as the end of a launch leaves it: Free and unallotted where the launch held it (R392). -/
def UmSlot.without (u : UmSlot) (launch : Nat) : UmSlot := if u.owner = some launch then UmSlot.free else u

/-- A launch's allotments and slots freed (R303, R369, R392, R454). -/
def State.freeLaunch (s : State) (l : Launch) : State :=
  let s := (s.troupesOf l.id).foldl (fun s t => s.freeSave t.id) s
  let s := { s with
    queue := s.queue.filter fun c => c.launch != l.id
    errs := s.errs.filter fun e => (match e with | .chip x _ _ => x != l.id | _ => true)
    dies := s.dies.map fun (D : Die) => { D with um := D.um.map fun (u : UmSlot) => u.without l.id } }
  s.modLaunch l.id fun l => { l with complete := true, chip := [] }

/-- LAUNCH_COMPLETE (R369): before a CANCEL or a TLIMIT of the same clock (R379). -/
def execLaunchComplete (launch : Nat) (s : State) : Host.Outcome State Fault Refusal :=
  match s.launch? launch with
  | none => .next s
  | some l =>
    if s.launchOver l && s.launchQuiet l then
      let r := s.launchStatus l
      .next ((((s.takes (.launch l.id) 0).flushSub l.sid).freeLaunch l).effectDone l.cmd r.1 r.2.1 r.2.2 [])
    else .next s

/-- A launch ended by a CANCEL or its time limit: its candidates leave their queues, its item queue is emptied,
and its ensembles on cores are pre-empted and will retire (R375, R376). -/
def State.endLaunch (s : State) (l : Launch) (status : Nat) : State :=
  let s := ({ s.takes (.launch l.id) 1 with queue := s.queue.filter fun c => c.launch != l.id } : State).modLaunch l.id fun l =>
    { l with stop := l.next, endStatus := some (l.endStatus.getD status) }
  (s.ens.filter fun e => e.launch == l.id).foldl (fun s e =>
    match e.st with
    | .running => (s.modEns e.id fun e => { e with endOnSwap := true }).request e.id
    | .preempting => s.modEns e.id fun e => { e with endOnSwap := true }
    | .swapped | .queued => s.retire e.id
    | .retired => s) s

/-- TLIMIT_EXPIRY (R375): the limit counts milliseconds from the first placement. -/
def execTlimitExpiry (launch : Nat) (s : State) : Host.Outcome State Fault Refusal :=
  match s.launch? launch with
  | none => .next s
  | some l =>
    match l.firstPlaced with
    | some n =>
      if l.tlimit ≠ 0 ∧ l.complete = false ∧ l.endStatus = none ∧ n + l.tlimit * Config.clocksPerMs ≤ s.now then
        .next (s.endLaunch l 0x0A)
      else .next s
    | none => .next s

/-! ### GRAPH, SIGNAL, QUERY and CANCEL (R363, R367, R370, R376, R385) -/

/-- GRAPH (R370, R385): it waits while another GRAPH runs its table; otherwise its counters are set and the nodes
without predecessors start. -/
def execGraph (cmd : Nat) (s : State) : Host.Outcome State Fault Refusal :=
  runCmd cmd 0x02 s fun c =>
    let n := fld c.msg 0x80 4
    let es := mget [] s.nodeTables n
    if (s.graph? c.id).isSome then s
    else if es = [] then s.effectDone c.id 0x02 0x80 0 []
    else if (s.graphs.any fun g => g.table == n) = true then s
    else
      ({ s with graphs := s.graphs ++ [{ cmd := c.id, table := n, counters := es.map NodeEntry.pred, started := [],
                                          done := [], ready := [] }] } : State).startReady c

/-- SIGNAL (R367). -/
def execSignal (cmd : Nat) (s : State) : Host.Outcome State Fault Refusal :=
  runCmd cmd 0x03 s fun c => s.effectDone c.id 0 0 0 []

/-- The number of a command's state (R365). -/
def CmdState.number : CmdState → Nat
  | .arrived => 0
  | .waiting => 1
  | .started => 2
  | .placing => 3
  | .running => 4
  | .draining => 5
  | .complete => 6

/-- The latest command of a submitter that holds a TAG, but for one that asks about it. -/
def State.tagged (s : State) (c : Command) (tag : DWord) : Option Command :=
  (s.cmds.filter fun d => d.sid == c.sid && d.tag == tag && d.id != c.id && d.node.isNone).getLast?

/-- QUERY (R363): a KIND 2 record with the target's state. -/
def execQuery (cmd : Nat) (s : State) : Host.Outcome State Fault Refusal :=
  runCmd cmd 0x04 s fun c =>
    let st := match s.tagged c (BitVec.ofNat 64 (fld c.msg 0x80 8)) with
      | some d => d.st.number
      | none => 0xFF
    (s.record c 2 st 0 0).effectDone c.id 0 0 0 []

/-- The launch of a command or node that is not Complete. -/
def State.liveLaunch (s : State) (cmd : Nat) : Option Launch := s.launches.find? fun l => l.cmd == cmd && !l.complete

/-- A launch cancelled: before its admission it completes at once (R376). -/
def State.cancelLaunch (s : State) (l : Launch) : State :=
  if l.admitted then s.endLaunch l 0x06 else (s.failLaunch l 0x06 0).unready l.cmd

/-- The cancel of a GRAPH: its started nodes' launches end, and its other nodes complete with 0x06 without
starting (R385). -/
def State.cancelGraph (s : State) (g : Command) (r : GraphRun) : State :=
  let s := (s.cmds.filter fun c => match c.node with
    | some (x, _) => x == g.id && !c.effect
    | none => false).foldl (fun s c => match s.liveLaunch c.id with
      | some l => s.cancelLaunch l
      | none => s) s
  (List.range r.counters.length).foldl (fun s k =>
    if r.started.contains k then s
    else match s.nodeEntry r.table k with
      | some e => s.startNode g e k 0x06
      | none => s) s

/-- What a CANCEL does to its target: none where it is Complete, or where its effect has been made and only its completion is
due (R379). A launch that is being ended, or Draining, goes on to its end, and so does a Started command of another op (R376;
log 43). -/
def State.cancelCmd (s : State) (d : Command) : Option State :=
  match d.st with
  | .arrived | .waiting =>
    some (((s.leaveQueue d).effectDone d.id 0x06 0 0 []).completeCmd d.id)
  | .complete => none
  | .draining => some s
  | _ =>
    if d.effect then none
    else match s.graph? d.id, s.liveLaunch d.id with
      | some r, _ => some (s.cancelGraph d r)
      | none, some l => some (if l.endStatus.isNone then s.cancelLaunch l else s)
      | none, none =>
        some (if d.op = 0x01 ∨ d.op = 0x02 then (s.effectDone d.id 0x06 0 0 []).completeCmd d.id else s)

/-- CANCEL (R376): without an effect, DETAIL0 is 1. -/
def execCancel (cmd : Nat) (s : State) : Host.Outcome State Fault Refusal :=
  runCmd cmd 0x05 s fun c =>
    match (s.tagged c (BitVec.ofNat 64 (fld c.msg 0x80 8))).bind s.cancelCmd with
    | some s => s.effectDone c.id 0 0 0 []
    | none => s.effectDone c.id 0 1 0 []

end Sys2Proof.Machine
end

