-- ==== Sys2Proof/Machine/Tables.lean ====
section
/-! DEFINITION. The table commands (chapter 14): launch-node tables, page tables, amax rings and membership
tables with the loss of their members. -/

namespace Sys2Proof.Machine

/-! ### Launch-node tables (R383, R384, R387) -/

/-- A node entry as its 256 bytes give it (R383). -/
def nodeOfBytes (e : List Byte) : NodeEntry :=
  { pred := fld e 0 2, succ := (List.range (fld e 2 1)).map fun k => fld e (8 + 2 * k) 2,
    sigs := (List.range (fld e 3 1)).map fun k =>
      { addr := fld e (0x28 + 16 * k) 4, mode := fld e (0x2C + 16 * k) 4, value := BitVec.ofNat 64 (fld e (0x30 + 16 * k) 8) }
    body := e }

/-- The checks of one entry against R383, R362 and the node count (R384). -/
def nodeChecks (e : List Byte) (count : Nat) : Checks :=
  let ns := min 16 (fld e 2 1)
  let ng := min 4 (fld e 3 1)
  let succ := (nodeOfBytes e).succ
  within e 0 2 0 1023 ++ within e 2 1 0 16 ++ within e 3 1 0 4 ++ zeros e 4 4 ++
  ((List.range ns).map fun k =>
    (decide (fld e (8 + 2 * k) 2 < count) && !(succ.take k).contains (fld e (8 + 2 * k) 2), 8 + 2 * k)) ++
  zeros e (8 + 2 * ns) (32 - 2 * ns) ++
  ((List.range ng).flatMap fun k => within e (0x2C + 16 * k) 4 0 2) ++
  zeros e (0x28 + 16 * ng) (64 - 16 * ng) ++ zeros e 0x68 24 ++ launchChecks e ++ zeros e 0xD0 48

/-- The nodes that a GRAPH would reach in some rounds: those whose predecessors are all reached. -/
def reached (es : List NodeEntry) : Nat → List Nat
  | 0 => []
  | n + 1 =>
    let r := reached es n
    (List.range es.length).filter fun k =>
      (lenum es).all fun e => !e.2.succ.contains k || r.contains e.1

/-- The checks of a whole table: each entry's, PRED against the entries that name the node, and no cycle
(R384). Of a graph with a cycle, the rule names no node: DETAIL0 is that of the lowest node that the predecessors' order never
reaches, be it in the cycle or behind it (DESIGN CHOICE, log 42). -/
def tableChecks (bs : List Byte) (count : Nat) : Checks :=
  let entry := fun k => (bs.drop (256 * k)).take 256
  let es := (List.range count).map fun k => nodeOfBytes (entry k)
  let r := reached es count
  (List.range count).flatMap fun k =>
    ((nodeChecks (entry k) count).map fun c => (c.1, 256 * k + c.2)) ++
    [((es.filter fun e => e.succ.contains k).length == fld (entry k) 0 2, 256 * k), (r.contains k, 256 * k)]

/-- Whether a GRAPH runs a table. -/
def State.tableBusy (s : State) (n : Nat) : Bool := s.graphs.any fun g => g.table == n

/-- NODES (R384, R387): it waits while a GRAPH runs the table. An ADDR array that cannot be read gives status 0x02 with
DETAIL0 0x88 (DESIGN CHOICE, log 42). -/
def execNodes (cmd : Nat) (s : State) : Host.Outcome State Fault Refusal :=
  runCmd cmd 0x10 s fun c =>
    let n := fld c.msg 0x80 4
    let count := fld c.msg 0x84 2
    if s.tableBusy n then s
    else match s.svcRead c.sid (fld c.msg 0x88 8) 0 (256 * count) with
      | .bad _ => s.effectDone c.id 0x02 0x88 0 []
      | .waits s => s
      | .ok s bs _ =>
        match firstBad (tableChecks bs count) with
        | some o => s.effectDone c.id 0x02 o 0 []
        | none =>
          let es := (List.range count).map fun k => nodeOfBytes ((bs.drop (256 * k)).take 256)
          ({ s with nodeTables := mput n es s.nodeTables } : State).effectDone c.id 0 0 0 []

/-- NODEFREE (R387). -/
def execNodefree (cmd : Nat) (s : State) : Host.Outcome State Fault Refusal :=
  runCmd cmd 0x11 s fun c =>
    let n := fld c.msg 0x80 4
    if s.tableBusy n then s
    else ({ s with nodeTables := mdel n s.nodeTables } : State).effectDone c.id 0 0 0 []

/-! ### Page tables (R319, R386, R387, R454, R457) -/

/-- A page as a template gives it, at a physical address (R386). -/
def pteOf (t pa : Nat) : Pte :=
  { size := pageBytes t
    kind := match t / 2 ^ 59 % 4 with | 0 => .priv | 1 => .coherent | 2 => .noncoherent | _ => .device
    r := t.testBit 58, w := t.testBit 57, x := t.testBit 56,
    home := if t.testBit 53 then some (t / 2 ^ 54 % 4) else none
    pin := t.testBit 53, res := t.testBit 52, pa := pa, walked := 0 }

/-- Whether a page table maps an address of a range. -/
def mappedIn (ps : List (Nat × Pte)) (va n : Nat) : Bool :=
  ps.any fun e => decide (e.1 < va + n ∧ va < e.1 + e.2.size)

/-- Pages of one size mapped from an address upward (R387). -/
def mapPages (t va pa : Nat) (ps : List (Nat × Pte)) (count : Nat) : List (Nat × Pte) :=
  (List.range count).foldl (fun ps k => mput (va + k * pageBytes t) (pteOf t (pa + k * pageBytes t)) ps) ps

/-- The page table of a submitter. -/
def State.pagesOf (s : State) (sid : Nat) : List (Nat × Pte) :=
  match s.sub? sid with | some u => u.pages | none => []

/-- MAP (R387). -/
def execMap (cmd : Nat) (s : State) : Host.Outcome State Fault Refusal :=
  runCmd cmd 0x12 s fun c =>
    let va := fld c.msg 0x80 8
    let t := fld c.msg 0x88 8
    let n := fld c.msg 0x90 4
    if mappedIn (s.pagesOf c.sid) va (n * pageBytes t) then s.effectDone c.id 0x02 0x80 0 []
    else (s.modSub c.sid fun u => { u with pages := mapPages t va (t % 2 ^ 46 / 65536 * 65536) u.pages n }).effectDone
      c.id 0 0 0 []

/-- The mapped pages of a range that UNMAP and PROTECT act on; none where a page lies partly inside. The
service's own pages stay out (R454, R457). -/
def pagesIn (ps : List (Nat × Pte)) (va n : Nat) : Option (List (Nat × Pte)) :=
  let here := ps.filter fun e => !barredRange e.1 e.2.size && decide (e.1 < va + n ∧ va < e.1 + e.2.size)
  if here.all fun e => decide (va ≤ e.1 ∧ e.1 + e.2.size ≤ va + n) then some here else none

/-- The pages that an UNMAP or PROTECT names. -/
def State.pagesNamed (s : State) (c : Command) : Option (List (Nat × Pte)) :=
  pagesIn (s.pagesOf c.sid) (fld c.msg 0x80 8) (fld c.msg 0x90 4 * pageBytes (fld c.msg 0x88 8))

/-- UNMAP (R319, R457): once the accesses that used the translations are performed, the pages' lines leave and
the pages are unmapped. -/
def execUnmap (cmd : Nat) (s : State) : Host.Outcome State Fault Refusal :=
  runCmd cmd 0x13 s fun c =>
    match s.pagesNamed c with
    | none => s.effectDone c.id 0x02 0x80 0 []
    | some ps =>
      if !(ps.all fun e => s.pageQuiet c.sid e.2) then s
      else
        let s := ps.foldl (fun s e => s.dropPage e.2) s
        (s.modSub c.sid fun u => { u with pages := u.pages.filter fun e => !ps.any fun q => q.1 == e.1 }).effectDone
          c.id 0 0 0 []

/-- A page after PROTECT (R457). -/
def Pte.protect (p : Pte) (t : Nat) : Pte :=
  let q := pteOf t 0
  { p with kind := q.kind, r := q.r, w := q.w, x := q.x, res := q.res, touched := false }

/-- PROTECT (R319, R387, R457): a change of KIND to or from 3 is rejected. A page that changes its kind gives up
its lines (log 22). -/
def execProtect (cmd : Nat) (s : State) : Host.Outcome State Fault Refusal :=
  runCmd cmd 0x14 s fun c =>
    let t := fld c.msg 0x88 8
    match s.pagesNamed c with
    | none => s.effectDone c.id 0x02 0x80 0 []
    | some ps =>
      if (ps.any fun e => (e.2.kind == .device) != ((pteOf t 0).kind == .device)) = true then
        s.effectDone c.id 0x02 0x8F 0 []
      else if !(ps.all fun e => s.pageQuiet c.sid e.2) then s
      else
        let s := ps.foldl (fun s e => if e.2.kind = (pteOf t 0).kind then s else s.dropPage e.2) s
        (s.modSub c.sid fun u => { u with pages := u.pages.map fun e =>
          if (ps.any fun q => q.1 == e.1) = true then (e.1, e.2.protect t) else e }).effectDone c.id 0 0 0 []

/-! ### Amax rings (R387, R388) -/

/-- RINGALLOT (R387): a ring not yet held by the submitter is set to +0 with head 0 on every die. -/
def execRingallot (cmd : Nat) (s : State) : Host.Outcome State Fault Refusal :=
  runCmd cmd 0x15 s fun c =>
    let rs := (List.range (fld c.msg 0x82 2)).map (fld c.msg 0x80 2 + ·)
    let owner := mfind s.ringOwner
    if (rs.any fun r => owner r != none && owner r != some c.sid) = true then s.effectDone c.id 0x04 0 0 []
    else
      let fresh := rs.filter fun r => owner r == none
      ({ s with
          ringOwner := fresh.foldl (fun m r => mput r c.sid m) s.ringOwner
          dies := s.dies.map fun D => { D with rings := D.rings.filter fun e => !fresh.contains e.1 } } :
        State).effectDone c.id 0 0 0 []

/-- Whether a launch of a submitter that is not Complete names a ring of a range. -/
def State.ringsNamed (s : State) (sid b n : Nat) : Bool :=
  s.naming.any fun l => l.sid == sid && decide (l.hdr.ringBase < b + n ∧ b < l.hdr.ringBase + l.hdr.ringCnt)

/-- RINGFREE (R387): it waits while a launch not Complete names a ring of the range. -/
def execRingfree (cmd : Nat) (s : State) : Host.Outcome State Fault Refusal :=
  runCmd cmd 0x16 s fun c =>
    let b := fld c.msg 0x80 2
    let n := fld c.msg 0x82 2
    if s.ringsNamed c.sid b n then s
    else ({ s with ringOwner := s.ringOwner.filter fun e => !(e.2 == c.sid && decide (b ≤ e.1 ∧ e.1 < b + n)) } :
      State).effectDone c.id 0 0 0 []

/-! ### Membership tables (R389–R391) -/

/-- A table changed. -/
def State.modGroup (s : State) (n : Nat) (f : Group → Group) : State :=
  { s with groups := s.groups.map fun g => if g.num = n then f g else g }

/-- Clocks of a table's TMO. -/
def Group.limit (g : Group) : Nat := g.tmo * Config.clocksPerMs

/-- The GROUP commands that end with the forming of a table. -/
def Group.cmds (g : Group) : List Nat := g.also ++ [g.cmd]

/-- The GROUP commands of a table are done. -/
def State.groupDone (s : State) (g : Group) : State := g.cmds.foldl (fun s c => s.effectDone c 0 0 0 []) s

/-- A table that has formed becomes Active with GEN 0, and its GROUP is done (R389). -/
def State.activate (s : State) (g : Group) : State :=
  (s.modGroup g.num fun g => { g with st := .active, gen := 0 }).groupDone g

/-- A Forming table becomes Active early once every member has confirmed it or is Lost (log 27). -/
def State.tryActivate (s : State) (n : Nat) : State :=
  match s.group? n with
  | some g => if g.st = .forming ∧ (g.members.all fun m => m.live || m.lost) = true then s.activate g else s
  | none => s

/-- What keeps a GROUP from forming its table: another submitter's table, or one that is Active (R387). -/
def Group.bars (g : Group) (sid : Nat) : Option (Nat × Nat) :=
  if g.sid ≠ sid then some (0x04, 0) else if g.st = .active then some (0x02, 0x80) else none

/-- A table as GROUP enters it in Forming, with this device's own slot Live (R389). -/
def Group.forms (c : Command) (bs : List Byte) (now : Nat) : Group :=
  let self := fld c.msg 0x84 2
  { num := fld c.msg 0x80 1, sid := c.sid, st := .forming, cmd := c.id, self := self, tmo := fld c.msg 0x86 2, gen := 0,
    formedAt := now, notices := [],
    members := (List.range (fld c.msg 0x82 2)).map fun k =>
      { addr := BitVec.ofNat 64 (fld bs (16 * k) 8), live := k == self, failedAt := none } }

/-- GROUP (R387, R389): the table enters Forming. The submitter's own table that is still Forming gives way to it, and both
commands are done with the new one; an ADDR array that cannot be read gives status 0x02 with DETAIL0 0x88 (DESIGN CHOICES, log
42). -/
def execGroup (cmd : Nat) (s : State) : Host.Outcome State Fault Refusal :=
  runCmd cmd 0x17 s fun c =>
    let n := fld c.msg 0x80 1
    if (s.groups.any fun g => g.cmds.contains c.id) = true then s
    else match (s.group? n).bind fun g => g.bars c.sid with
    | some (st, d) => s.effectDone c.id st d 0 []
    | none =>
      match s.svcRead c.sid (fld c.msg 0x88 8) 0 (16 * fld c.msg 0x82 2) with
      | .bad _ => s.effectDone c.id 0x02 0x88 0 []
      | .waits s => s
      | .ok s bs _ =>
        if ((List.range (fld c.msg 0x82 2)).any fun k => fld bs (16 * k + 8) 8 != 0) = true then
          s.effectDone c.id 0x02 0x88 0 []
        else
          let old := match s.group? n with
            | some g => if g.st = .forming then g.cmds else []
            | none => []
          ({ s with groups := (s.groups.filter fun g => g.num != n) ++ [{ Group.forms c bs s.now with also := old }] } :
            State).tryActivate n

/-- GROUP_FORM_TIMEOUT (R389). -/
def execGroupFormTimeout (grp : Nat) (s : State) : Host.Outcome State Fault Refusal :=
  match s.group? grp with
  | some g => if g.st = .forming ∧ g.formedAt + g.limit ≤ s.now then .next (s.activate g) else .next s
  | none => .next s

/-- A member confirms its table; a Lost slot does not return to Live (R390). -/
def Member.confirm (m : Member) : Member := if m.lost then m else { m with live := true }

/-- MEMBER_CONFIRM (R389): within TMO. -/
def execMemberConfirm (grp slot : Nat) (s : State) : Host.Outcome State Fault Refusal :=
  match s.group? grp with
  | some g =>
    if g.st = .forming ∧ s.now < g.formedAt + g.limit then
      .next ((s.modGroup grp fun g =>
        { g with members := lmod Member.confirm g.members slot }).tryActivate grp)
    else .next s
  | none => .next s

/-- GROUPFREE (R387): it waits while a launch not Complete names the group, or the table forms (log 27). -/
def execGroupfree (cmd : Nat) (s : State) : Host.Outcome State Fault Refusal :=
  runCmd cmd 0x18 s fun c =>
    let n := fld c.msg 0x80 1
    match s.group? n with
    | none => s.effectDone c.id 0 0 0 []
    | some g =>
      if g.sid ≠ c.sid then s.effectDone c.id 0 0 0 []
      else if g.st = .forming ∨ (s.naming.any fun l =>
          l.sid == c.sid && decide (l.hdr.grpBase ≤ n ∧ n < l.hdr.grpBase + l.hdr.grpCnt)) = true then s
      else ({ s with groups := s.groups.filter fun q => q.num != n } : State).effectDone c.id 0 0 0 []

/-- A member is Lost: its slot, GEN, and drop notices to the Live members (R390), before the COLLs of the clock (R393). -/
def State.lose (s : State) (n slot : Nat) : State :=
  (s.takes (.group n) 0).modGroup n fun g =>
    let ms := lmod (fun m => { m with live := false, failedAt := none, lost := true }) g.members slot
    { g with members := ms, gen := g.gen + 1
             notices := g.notices ++ (((lenum ms).filter fun e => e.2.live && e.1 != g.self).map fun e => (e.1, slot)) }

/-- A Live member whose session fails. -/
def Member.fail (m : Member) (now : Nat) : Member :=
  if m.live && m.failedAt.isNone then { m with failedAt := some now } else m

/-- A member whose session is restored, within its limit. -/
def Member.restore (m : Member) (now limit : Nat) : Member :=
  match m.failedAt with
  | some n => if now < n + limit then { m with failedAt := none } else m
  | none => m

/-- MEMBER_SESSION_FAILURE (R390): the TMO of a Live member's session starts, be the table Active or still Forming. -/
def execMemberSessionFailure (grp slot : Nat) (s : State) : Host.Outcome State Fault Refusal :=
  .next (s.modGroup grp fun g =>
    if (g.st = .active ∨ g.st = .forming) ∧ slot ≠ g.self then { g with members := lmod (fun m => m.fail s.now) g.members slot } else g)

/-- MEMBER_SESSION_RESTORED (R390): within TMO the member stays Live. -/
def execMemberSessionRestored (grp slot : Nat) (s : State) : Host.Outcome State Fault Refusal :=
  .next (s.modGroup grp fun g =>
    { g with members := lmod (fun m => m.restore s.now g.limit) g.members slot })

/-- MEMBER_SESSION_TIMEOUT (R390). -/
def execMemberSessionTimeout (grp slot : Nat) (s : State) : Host.Outcome State Fault Refusal :=
  match s.group? grp with
  | none => .next s
  | some g =>
    match g.members[slot]? with
    | some m => match m.failedAt with
      | some n => if g.st = .active ∧ m.live = true ∧ n + g.limit ≤ s.now then .next (s.lose grp slot) else .next s
      | none => .next s
    | none => .next s

/-- Every COLL of a group in flight on this device completes with status 3 and code 0x17, one too whose last accesses are not
yet performed (R391). -/
def State.endColls (s : State) (grp : Nat) : State :=
  s.troupes.foldl (fun s t => (t.ops.filter fun o => !o.done && (match o.kind with
      | .coll _ _ g _ _ _ => g == grp
      | _ => false)).foldl (fun s o =>
    (s.endWork t.id o.id 3 0 (some { code := 0x17, addr := 0 })).tryFinish t.id o.id) s) s

/-- A drop notice takes effect (R390, R391): from a Live member, be the table Active or still Forming; one that names this
device dissolves the table, and ends a GROUP that was forming it (DESIGN CHOICE, log 27). -/
def State.notice (s : State) (grp fromSlot slot : Nat) : State :=
  match s.group? grp with
  | none => s
  | some g =>
    match g.members[fromSlot]?, g.members[slot]? with
    | some f, some m =>
      let forms := g.st == .forming
      if (g.st != .active && !forms) || !f.live then s
      else if slot = g.self then
        let s := (s.modGroup grp fun g => { g with st := .dissolved }).endColls grp
        if forms then s.groupDone g else s
      else if m.live || (forms && !m.lost) then
        let s := s.lose grp slot
        if forms then s.tryActivate grp else s
      else s
    | _, _ => s

/-- DROP_NOTICE (R390, R391): while core 0 does not run, the frame is held as any other; that of an Active group always
matches the wake filter (R377, R444). -/
def execDropNotice (grp fromSlot slot : Nat) (s : State) : Host.Outcome State Fault Refusal :=
  if s.parsing then .next (s.notice grp fromSlot slot)
  else .next (s.frame (.notice grp fromSlot slot) (match s.group? grp with | some g => g.st == .active | none => false))

end Sys2Proof.Machine
end

