-- ==== Sys2Proof/Machine/Coherence.lean ====
section
/-! DEFINITION. The device and the Nerkan switch (R321–R324, R351, R423–R425): horizons, grants, completions,
snoops, and the recovery of a failed switch. -/

namespace Sys2Proof.Machine

/-! ### Requests and their answers -/

/-- A line's state changed. -/
def State.modLine (s : State) (d ln : Nat) (f : L2Line → L2Line) : State :=
  match s.line? d ln with
  | some l => s.putLine d ln (f l)
  | none => s

/-- The outstanding request of a line with a transaction tag, of some kinds (R324). -/
def State.request? (s : State) (d ln tag : Nat) (ks : List CxlReq) : Option CxlWait :=
  (s.die d).reqs.find? fun r => r.line == ln && r.tag == tag && ks.contains r.kind

/-- A request answered. -/
def State.answered (s : State) (d : Nat) (r : CxlWait) : State :=
  s.modDie d fun D => { D with reqs := D.reqs.erase r }

/-- A line with the switch's data under the bytes that it has accepted (R351); its horizon starts no earlier than this
fill (R308). -/
def State.granted_ (s : State) (d ln : Nat) (data : List (Nat × Byte)) (st : Moesi) : L2Line :=
  let base := data.foldl (fun m e => if e.1 < 128 then m.put e.1 e.2 else m) (s.pool.cut (ln * 128) 128)
  match s.line? d ln with
  | some l =>
    { l with data := l.accepted.foldl (fun m k => m.put k (l.data.byte k)) base, st := st, coherent := true, owned := []
             horizon := max l.horizon s.now }
  | none => { s.fresh? ln true st with data := base }

/-- The access of a lane that a request was made for, where it is still to be made. -/
def State.asker (s : State) (w : Asker) : Option (Troupe × Op × Acc) :=
  match w with
  | .lane i k l => match s.troupe? i with
    | none => none
    | some t => match t.op? k with
      | none => none
      | some o => match o.kind.accs.find? fun a => a.lane == l && a.unmade with
        | some a => some (t, o, a)
        | none => none
  | _ => none

/-- That access made with the data that have come. -/
def State.serveAsker (s : State) (w : Asker) : State :=
  match s.asker w with
  | some (t, o, a) => match s.makeWith t o a with
    | (s, some b) => s.setAcc t.id o.id b
    | (s, none) => s
  | none => s

/-- A line that no agent wants to keep (R237) serves those that await it, and leaves its slice unless its horizon lies
ahead (R308). -/
def State.passOn (s : State) (d : Nat) (r : CxlWait) : State :=
  if r.keep then s
  else
    let s := (r.who :: r.also).foldl State.serveAsker s
    match s.line? d r.line with
    | some l => if l.horizon ≤ s.now ∧ s.asking d r.line = false then s.leave d r.line else s
    | none => s

/-- GNTS (R324): data that answers a RdS; the line enters S, and accepted bytes then ask for ownership. -/
def execGntS (die : Nat) (m : Tagged) (data : List (Nat × Byte)) (s : State) : Host.Outcome State Fault Refusal :=
  match s.request? die m.line m.tag [.rdS] with
  | none => .next s
  | some r =>
    let l := s.granted_ die m.line data .s
    let s := ((s.answered die r).putLine die m.line l).countDie die 0x44 128
    .next ((if l.accepted = [] then s else s.askCxl die m.line .upg r.who r.keep).passOn die r)

/-- GNTE (R324): data that answers a RdS or RdX, or an Upg of a line that a snoop has taken; the line enters E, or
M with the bytes that it has accepted. -/
def execGntE (die : Nat) (m : Tagged) (data : List (Nat × Byte)) (s : State) : Host.Outcome State Fault Refusal :=
  match s.request? die m.line m.tag [.rdS, .rdX, .upg] with
  | none => .next s
  | some r =>
    let held := match s.line? die m.line with | some l => l.st != .i | none => false
    if r.kind = .upg ∧ held = true then .next s
    else
      let l := s.granted_ die m.line data .e
      let l := if l.accepted = [] then l else l.owns
      .next ((((s.answered die r).putLine die m.line l).countDie die 0x44 128).passOn die r)

/-- GNTNC (R323, R423): the data serve the one access that asked. A lane's is made with them at once; an engine's, a
path's, a core's fetch or the service's finds the line when it is tried again, alone, and the line is given up after it. Accepted bytes,
and what the access writes, go out by WbI at once, and are at `.pool` once that is answered. The answer comes before a
failure of its switch that is found in this clock (R426). -/
def execGntNC (die : Nat) (m : Tagged) (data : List (Nat × Byte)) (s : State) : Host.Outcome State Fault Refusal :=
  match s.request? die m.line m.tag [.rdS, .rdX, .upg] with
  | none => .next s
  | some r =>
    let l := { s.granted_ die m.line data .m with accepted := [], once := some r.who }
    let s := ((((s.takes (.recovery die) 0).answered die r).putLine die m.line l).countDie die 0x49 1).countDie die 0x44 128
    let s := s.serveAsker r.who
    let wb := r.kind != .rdS
    .next (match r.who with
      | .op _ _ | .path _ | .code _ _ _ | .service => if l.dirty = [] ∧ wb = false then s else s.dropOnce die m.line r.who wb
      | w => s.dropOnce die m.line w wb)

/-- CMP (R324): an Upg completes and the line enters M, or a write-back or an EvC completes. -/
def execCmp (die : Nat) (m : Tagged) (s : State) : Host.Outcome State Fault Refusal :=
  match s.request? die m.line m.tag [.upg, .wb, .evc] with
  | none => .next s
  | some r =>
    match r.kind, s.line? die m.line with
    | .upg, some l =>
      if l.st = .s ∨ l.st = .o then .next (((s.answered die r).putLine die m.line l.owns).passOn die r) else .next s
    | .upg, none => .next s
    | _, _ => .next (s.answered die r)

/-! ### Snoops and horizons (R308, R312, R323, R424) -/

/-- An answer to a snoop, with the snoop's tag. -/
def State.respond (s : State) (d : Nat) (q : Snoop) (m : CxlMsg) : State := s.sendCxl d m q.line q.tag none

/-- The answer to a SnpDat (R323); RspO supplies the line's data (R324), without writes that only await ownership, which
stand later in coherence order (R351; DEDUCED, log 42). -/
def State.answerDat (s : State) (d : Nat) (q : Snoop) : State :=
  match s.line? d q.line with
  | none => s.respond d q .rspI
  | some l => match l.st with
    | .i => s.respond d q .rspI
    | .s => s.respond d q .rspS
    | .e => (s.putLine d q.line { l with st := .s }).respond d q .rspS
    | .o | .m => (s.putLine d q.line { l with st := .o }).sendCxl d .rspO q.line q.tag (some (l.ownData, l.ownDirty))

/-- A line without its data, but for accepted bytes that await ownership. -/
def State.invalidate (s : State) (d ln : Nat) : State :=
  match s.line? d ln with
  | none => s
  | some l => if l.accepted = [] then s.delLine d ln
    else s.putLine d ln { l with st := .i, dirty := l.accepted, owned := [] }

/-- The bytes that a line's owner has made dirty, written out by WbI (R323): of a byte that has accepted a later write,
what it held before (R351; DEDUCED, log 42). -/
def State.writeOwned (s : State) (d ln : Nat) : State :=
  match s.line? d ln with
  | none => s
  | some l =>
    let own := { l with data := l.ownData, dirty := l.ownDirty }
    (({ s with pool := poolWith s.pool ln own } : State).countDie d 0x45 own.dirty.length).sendWb d ln .wbI own

/-- The answer to a SnpInv (R323). -/
def State.answerInv (s : State) (d : Nat) (q : Snoop) : State :=
  match s.line? d q.line with
  | none => s.respond d q .rspI
  | some l => match l.st with
    | .o | .m => ((s.writeOwned d q.line).invalidate d q.line).respond d q .rspI
    | _ => (s.invalidate d q.line).respond d q .rspI

/-- The answer to a snoop. -/
def State.answer_ (s : State) (d : Nat) (q : Snoop) : State := if q.inv then s.answerInv d q else s.answerDat d q

/-- A snoop: answered at once, or once the line's horizon has passed (R323), under the tag that it carries (R324). SNOOP
counts it. -/
def State.snoop (s : State) (d : Nat) (q : Snoop) : State :=
  let s := s.countDie d 0x48 1
  match s.line? d q.line with
  | some l => if l.horizon ≤ s.now then s.answer_ d q else s.modDie d fun D => { D with snoops := D.snoops ++ [q] }
  | none => s.answer_ d q

/-- Snoops whose line has left its slice before its horizon has passed are answered (R323). -/
def State.sweepSnoops (s : State) : State :=
  (List.range 4).foldl (fun s d =>
    let qs := (s.die d).snoops.filter fun q => (s.line? d q.line).isNone
    if qs = [] then s
    else qs.foldl (fun s q => s.answer_ d q) (s.modDie d fun D => { D with snoops := D.snoops.filter fun q => !qs.contains q }))
    s

/-- SNPDAT (R323). -/
def execSnpDat (die : Nat) (m : Tagged) (s : State) : Host.Outcome State Fault Refusal :=
  .next (s.snoop die { line := m.line, inv := false, tag := m.tag })

/-- SNPINV (R323, R424). -/
def execSnpInv (die : Nat) (m : Tagged) (s : State) : Host.Outcome State Fault Refusal :=
  .next (s.snoop die { line := m.line, inv := true, tag := m.tag })

/-- HORIZON_PASS (R308, R312): a line whose horizon has passed answers the snoops that wait for it, in order, or
leaves its slice, unless it awaits an answer of the switch or serves one access only. -/
def execHorizonPass (die line : Nat) (s : State) : Host.Outcome State Fault Refusal :=
  match s.line? die line with
  | none => .next s
  | some l =>
    if s.now < l.horizon then .next s
    else match (s.die die).snoops.filter fun q => q.line == line with
      | [] =>
        if s.asking die line || l.once.isSome || (l.coherent && s.inRecovery die line) then .next s
        else .next (s.leave die line)
      | qs =>
        let s := s.modDie die fun D => { D with snoops := D.snoops.filter fun q => q.line != line }
        .next (qs.foldl (fun s q => s.answer_ die q) s)

/-! ### Recovery (R353, R425) -/

/-- Whether a line is carried by a port of its die. -/
def State.through (s : State) (d port ln : Nat) : Bool := s.port d (ln * 128) == some port

/-- The global address of a line in a submitter's space. -/
def State.vaOf (s : State) (sid home ln : Nat) : Nat :=
  match (s.sub? sid).bind fun u => u.pages.find? fun e =>
    e.2.home == some home && e.2.kind != .device && decide (e.2.pa ≤ ln * 128 ∧ ln * 128 < e.2.pa + e.2.size) with
  | some (va, p) => va + (ln * 128 - p.pa)
  | none => ln * 128

/-- The address of a line, where a fence of a path at `.pool` with the set `pre` waits for a write to it that ends now: an
atomic of its path among the askers `ws`, or, with `stands`, a write of its path, or one that its path has read, that
does not stand at `.pool` (R347, R353). -/
def State.fenceOn (s : State) (t : Troupe) (p : Path) (pre : BitVec 4) (d ln : Nat) (stands : Bool) (ws : List Asker) :
    Option Nat :=
  let ends := fun (o : Op) (a : Acc) => match a.tgt with
    | .pool h pa .coherent =>
      h == d && pa / 128 == ln && (stands && !a.unmade && !s.accPool a || a.unmade && ws.contains (whoOf t o a))
    | _ => false
  let own := (t.ops.filter fun o => o.own.contains p.sel && o.kind.writes).findSome? fun o =>
    o.kind.accs.find? fun a => pre.getLsbD 1 && ends o a
  match own with
  | some a => some (a.va / 128 * 128)
  | none =>
    if stands && pre.getLsbD 0 && p.rdShared.any fun k => k % 4 == d && k / 512 == ln && s.openByte k then
      some (s.vaOf (s.sidOf t) d ln) else none

/-- The recovery ends writes to a line: the fences at `.pool` that wait for one raise 0x19, with %faddr the line's
address (R353, R425). -/
def State.failFences (s : State) (d ln : Nat) (stands : Bool) (ws : List Asker) : State :=
  s.troupes.foldl (fun s t => t.paths.foldl (fun s p => match p.wait with
    | .fence pre _ .pool ls =>
      match s.fenceOn t p pre d ln stands ws with
      | some va =>
        (s.modPath (refOf t p) fun p => { p with wait := .none }).faultWord (refOf t p) (faultAll ls 0x19 va)
      | none => s
    | _ => s) s) s

/-- An access that awaits data ends without them: a load, ATOM or ATOMC lane receives a poisoned 0, and a RED
is not applied; the error is logged (R425 step 3). What an engine, a path or the service awaits is asked for again after the
recovery. -/
def State.failAsk (s : State) (w : Asker) : State :=
  match s.asker w with
  | none => s
  | some (t, o, a) =>
    let b := { a with phase := AccPhase.made, bad := true, badDie := a.tgt.dieOf t.die, data := 0, pass := s.now }
    match o.kind with
    | .load .. => s.setAcc t.id o.id b
    | .atom _ ty _ (some d) _ | .atomc ty _ d _ => (s.deliver t ty d b).setAcc t.id o.id { b with phase := .performed }
    | .atom _ _ _ none _ =>
      (s.logFound b.badDie t.die t.core a.va).setAcc t.id o.id { b with phase := .performed }
    | _ => s

/-- A coherent line of a failed switch, whose horizon has passed: given up without a message, or its dirty and accepted
bytes written by WbI through the next working port (R425 step 2). -/
def State.failLine (s : State) (d ln : Nat) : State :=
  match s.line? d ln with
  | none => s
  | some l =>
    let s := s.failFences d ln true []
    if l.dirty = [] then s.delLine d ln
    else ((s.writeBack d ln).delLine d ln).sendOpen d ln l

/-- Lines of failed switches whose horizons have passed are given up (R308, R425). -/
def State.failDue (s : State) : State :=
  (List.range 4).foldl (fun s d =>
    let due := (s.die d).fails.filter fun ln => match s.line? d ln with
      | some l => decide (l.horizon ≤ s.now)
      | none => true
    if due = [] then s
    else (due.foldl (fun s ln => s.failLine d ln) s).modDie d fun D =>
      { D with fails := D.fails.filter fun ln => !due.contains ln }) s

/-- The switch behind a port of a die has failed: recovery starts for the lines that the port carries, and the requests
that have no answer end (R425), after the answers of this clock (R426). -/
def State.failPort (s : State) (d port : Nat) : State :=
  if (s.die d).portsDown.contains port then s
  else
    let hit := s.through d port
    let mine := (s.die d).reqs.filter fun r => hit r.line
    let s := mine.foldl (fun s r => s.failFences d r.line (r.kind == .wb) (r.who :: r.also)) (s.takes (.recovery d) 1)
    let s := (mine.filter fun r => r.kind.gets).foldl (fun s r => (r.who :: r.also).foldl State.failAsk s) s
    let lines := ((s.die d).l2.filter fun e => e.2.coherent && hit e.1).map (·.1)
    (s.modDie d fun D =>
      { D with portsDown := ninsert port D.portsDown, recovering := ninsert port D.recovering
               fails := D.fails ++ lines
               reqs := D.reqs.filter fun r => !hit r.line }).failDue

/-- SWITCH_LINK_DOWN (R425). -/
def execSwitchLinkDown (die port : Nat) (s : State) : Host.Outcome State Fault Refusal := .next (s.failPort die port)

/-- SWITCH_REQUEST_TIMEOUT (R425): a request of the line has had no answer within 3,600,000 clocks. -/
def execSwitchRequestTimeout (die line : Nat) (s : State) : Host.Outcome State Fault Refusal :=
  if (s.die die).reqs.any fun r => r.line == line && decide (r.since + Config.switchClocks ≤ s.now) then
    match s.port die (line * 128) with
    | some p => .next (s.failPort die p)
    | none => .next s
  else .next s

/-- COHERENCE_RECOVERY_END (R425 step 4): every line has been written or dropped. -/
def execCoherenceRecoveryEnd (die : Nat) (s : State) : Host.Outcome State Fault Refusal :=
  if (s.die die).fails ≠ [] then .next s
  else if (s.die die).reqs.any fun r => r.kind == .wb && s.inRecovery die r.line then .next s
  else .next (s.modDie die fun D => { D with recovering := [] })

end Sys2Proof.Machine
end

