-- ==== Sys2Proof/Machine/System.lean ====
section
/-! DEFINITION. The system commands (chapter 17): identity, attestation, handler and grants, telemetry and
readback, firmware hand-over, settings, and LOAD; sessions and the submitter's own writes to the pool. -/

/-! ### The layouts of what READBACK writes (R440; log 30): the manual names what each class holds and gives no layout -/

namespace Sys2Proof.Config

open Machine

/-- A halt record (class 0), from the troupe as it stood at its halt. -/
opaque haltRecordBytes : Troupe → List Byte
/-- A cellar image (class 1), from a swapped-out ensemble and its troupes. -/
opaque cellarBytes : Ensemble → List Troupe → List Byte
/-- An error log (class 2). -/
opaque errorLogBytes : List ErrorRec → List Byte
/-- The frozen state of a die (class 3): the die, the ensembles and troupes on it, and its chip allotments. -/
opaque frozenBytes : Die → List Ensemble → List Troupe → List Memory → List Byte
/-- The configuration block and the measurement chain (class 4). -/
opaque configBytes : BootConfig → BitVec 256 → List Byte

end Sys2Proof.Config

namespace Sys2Proof.Machine

/-! ### IDENT, ATTEST, HANDLER, DEPGRANT, TELEM, READBACK (R399, R400, R428, R433, R436, R440) -/

/-- Bytes of a value, the most significant first. -/
def beBytes (n v : Nat) : List Byte := (leBytes n v).reverse

/-- The two spare-core words of a die (R400). -/
def Die.spareWords (D : Die) : List Byte :=
  leBytes 8 D.off.toNat ++ leBytes 8 ((if D.replace then 2 ^ 63 else 0) + D.spares * 4096 + D.retired)

/-- IDENT (R428). -/
def execIdent (cmd : Nat) (s : State) : Host.Outcome State Fault Refusal :=
  runCmd cmd 0x20 s fun c =>
    s.answer c (fld c.msg 0x80 8) 0x80
      (leBytes 4 (0x04600100 + Config.stepping.toNat) ++ leBytes 4 s.fw.version.toNat ++ leBytes 2 s.fw.l2Mib ++
        leBytes 1 s.fw.mode ++ leBytes 1 0 ++ ((List.range 4).flatMap fun d => (s.die d).spareWords) ++ leBytes 4 0)

/-- The first 0x78 bytes of an attestation report (R433, R436). -/
def State.reportBody (s : State) (nonce : List Byte) : List Byte :=
  let hop := s.fw.staged
  let flags := (if hop.isSome then 1 else 0) + (if s.fw.mode = 1 ∨ s.fw.recovery = true then 2 else 0) +
    (if s.dies.any Die.replace then 4 else 0)
  leBytes 2 1 ++ leBytes 2 flags ++ leBytes 4 s.fw.version.toNat ++ beBytes 32 s.fw.meas.toNat ++
    beBytes 32 (match hop with | some g => g.next.toNat | none => 0) ++
    leBytes 4 (match hop with | some g => g.image.version.toNat | none => 0) ++ leBytes 4 0 ++ nonce ++
    leBytes 8 (s.clock 0).toNat

/-- The report with its signature (R433). -/
def State.report (s : State) (nonce : List Byte) : List Byte :=
  let b := s.reportBody nonce
  b ++ beBytes 64 (Config.signature (Config.sha256 b)).toNat

/-- ATTEST (R433, R436): it is signed after a commit point of the same clock (R446). -/
def execAttest (cmd : Nat) (s : State) : Host.Outcome State Fault Refusal :=
  runCmd cmd 0x21 s fun c => (s.takes .handover 1).answer c (fld c.msg 0x80 8) 0x80 (s.report ((c.msg.drop 0x88).take 32))

/-- HANDLER (R403, R428). -/
def execHandler (cmd : Nat) (s : State) : Host.Outcome State Fault Refusal :=
  runCmd cmd 0x22 s fun c =>
    (s.modSub c.sid fun u => { u with handler := fld c.msg 0x80 8 }).effectDone c.id 0 0 0 []

/-- DEPGRANT (R364, R428): each word is emptied and set to 0. -/
def execDepgrant (cmd : Nat) (s : State) : Host.Outcome State Fault Refusal :=
  runCmd cmd 0x23 s fun c =>
    let d := fld c.msg 0x80 1
    let ws := (List.range (fld c.msg 0x84 2)).map (fld c.msg 0x82 2 + ·)
    let owner := mfind (s.die d).depOwner
    if (ws.any fun w => owner w != none && owner w != some c.sid) = true then s.effectDone c.id 0x04 0 0 []
    else
      let s := ws.foldl (fun s w => (s.modDie d fun D => { D with depOwner := mput w c.sid D.depOwner }).modWord
        (d * 65536 + w) fun m => { m with full := false, value := 0 }) s
      (s.effectDone c.id 0 0 0 []).serveMail

/-- Counters of a bank in index order. -/
def counterBytes (ev : List (Nat × DWord)) (lo n : Nat) : List Byte :=
  (List.range n).flatMap fun k => leBytes 8 (mget 0 ev (lo + k)).toNat

/-- TELEM (R399, R428). -/
def execTelem (cmd : Nat) (s : State) : Host.Outcome State Fault Refusal :=
  runCmd cmd 0x24 s fun c =>
    let d := fld c.msg 0x88 1
    s.answer c (fld c.msg 0x80 8) 0x80
      (counterBytes (s.core d (fld c.msg 0x89 1)).ev 0 20 ++ counterBytes (s.die d).ev 0x40 16 ++
        counterBytes s.ev 0x80 2 ++ (s.die d).spareWords)

/-- Whether the item that READBACK names stands (R440). -/
def State.hasItem (s : State) (cls idx : Nat) : Bool :=
  match cls with
  | 0 => decide (idx < s.halts.length)
  | 1 => s.ens.any fun e => e.id == idx && e.st == .swapped
  | 3 => s.fw.frozen
  | _ => true

/-- What READBACK writes of an item (R440). -/
def State.itemBytes (s : State) (cls idx : Nat) : List Byte :=
  match cls with
  | 0 => (match s.halts[idx]? with | some t => Config.haltRecordBytes t | none => [])
  | 1 => (match s.ens? idx with
    | some e => Config.cellarBytes e (s.troupes.filter fun t => t.ens == idx)
    | none => [])
  | 2 => Config.errorLogBytes (s.die idx).errlog
  | 3 => Config.frozenBytes (s.die idx) (s.ens.filter fun e => e.resident && e.die == idx)
    (s.troupes.filter fun t => s.onCores t && t.die == idx) (s.launches.map fun l => lget [] l.chip idx)
  | 4 => Config.configBytes s.fw.config s.fw.meas
  | _ => Config.certificate

/-- The release of an item that READBACK has read: the record, the image with its ensemble, which cannot resume without it,
or the log. What R441 holds until RESET, and what boot and manufacture have put in place, stays (R440; log 30). -/
def State.releaseItem (s : State) (cls idx : Nat) : State :=
  match cls with
  | 0 => { s with halts := s.halts.take idx ++ s.halts.drop (idx + 1) }
  | 1 => { s.retire idx with queue := s.queue.filter fun c => c.swapped != some idx }
  | 2 => s.modDie idx fun D => { D with errlog := [] }
  | _ => s

/-- READBACK (R440): the bytes of an item; its layout is not given (log 30). -/
def execReadback (cmd : Nat) (s : State) : Host.Outcome State Fault Refusal :=
  runCmd cmd 0x25 s fun c =>
    let cls := fld c.msg 0x88 1
    let idx := fld c.msg 0x8C 4
    if !s.hasItem cls idx then s.effectDone c.id 0x02 0x8C 0 []
    else
      let t := s.answer c (fld c.msg 0x80 8) 0x80 (s.itemBytes cls idx)
      if fld c.msg 0x89 1 = 1 ∧ ((t.cmd? c.id).any fun d => d.effect && d.status == 0) = true then t.releaseItem cls idx
      else t

/-! ### Firmware (R430, R434–R436) -/

/-- One link of the measurement chain (R430). -/
def chain (m : BitVec 256) (digest : BitVec 256) : BitVec 256 :=
  Config.sha256 (beBytes 32 m.toNat ++ beBytes 32 digest.toNat)

/-- FWSTAGE (R434, R446). -/
def execFwstage (cmd : Nat) (s : State) : Host.Outcome State Fault Refusal :=
  runCmd cmd 0x28 s fun c =>
    if s.fw.committing.isSome then s.effectDone c.id 0x02 0 0 []
    else match s.svcRead c.sid (fld c.msg 0x80 8) 0 (fld c.msg 0x88 4) with
      | .bad _ => s.effectDone c.id 0x02 0x80 0 []
      | .waits s => s
      | .ok s bs _ =>
        let v := Config.imageVersion bs
        if Config.imageSigned bs = false ∨ v < s.fw.antiRollback then s.effectDone c.id 0x0C 0 0 []
        else
          let next := chain (chain s.fw.m1 (Config.sha256 bs)) s.fw.config.digest
          ({ s with fw := { s.fw with staged := some { image := { bytes := bs, version := v, signed := true },
                                                        next := next } } } : State).effectDone c.id 0 0 0 []

/-- FWCOMMIT (R435): the hand-over begins; from now to its commit point no command starts. -/
def execFwcommit (cmd : Nat) (s : State) : Host.Outcome State Fault Refusal :=
  runCmd cmd 0x29 s fun c =>
    if s.fw.staged.isNone then s.effectDone c.id 0x02 0 0 []
    else if s.fw.committing.isSome then s
    else { s with fw := { s.fw with committing := some c.id } }

/-- FWCOMMIT_COMMIT_POINT (R435, R436): NEXT becomes MEAS, the anti-rollback fuse rises, and commands start again; reports of
the same clock come after it (R446). The committed image is the service image of the next boot. -/
def execFwcommitCommitPoint (s : State) : Host.Outcome State Fault Refusal :=
  match s.fw.committing, s.fw.staged with
  | some c, some g =>
    .next (({ s.takes .handover 0 with fw := { s.fw with
        version := g.image.version, meas := g.next, antiRollback := g.image.version, staged := none, committing := none,
        flash := lmod (fun _ => g.image) s.fw.flash 1 } } : State).effectDone c 0 0 0 []).serveMail
  | _, _ => .next s

/-! ### Settings (R428, R437, R442, R444) -/

/-- POWER (R442, R444). -/
def execPower (cmd : Nat) (s : State) : Host.Outcome State Fault Refusal :=
  runCmd cmd 0x2A s fun c =>
    ({ s with pw := { s.pw with cap := fld c.msg 0x80 2, idleMs := fld c.msg 0x82 4, idleSince := s.now } } :
      State).effectDone c.id 0 0 0 []

/-- WAKEFILT (R444). -/
def execWakefilt (cmd : Nat) (s : State) : Host.Outcome State Fault Refusal :=
  runCmd cmd 0x2B s fun c =>
    let e : WakeEntry :=
      { valid := fld c.msg 0x81 1 == 1, src := BitVec.ofNat 64 (fld c.msg 0x84 8),
        srcMask := BitVec.ofNat 64 (fld c.msg 0x8C 8), pat := BitVec.ofNat 128 (fld c.msg 0x94 16),
        patMask := BitVec.ofNat 128 (fld c.msg 0xA4 16) }
    ({ s with pw := { s.pw with filter := lmod (fun _ => e) s.pw.filter (fld c.msg 0x80 1) } } : State).effectDone
      c.id 0 0 0 []

/-- SETPARAM (R106, R308, R428): after the grants of its clock (R325). -/
def execSetparam (cmd : Nat) (s : State) : Host.Outcome State Fault Refusal :=
  runCmd cmd 0x2C s fun c =>
    let n := fld c.msg 0x84 2
    ({ (List.range 4).foldl (fun (s : State) d => s.takes (.lease d) 1) s with pbound := fld c.msg 0x80 4, dies := s.dies.map fun (D : Die) => { D with lambda := n } } :
      State).effectDone c.id 0 0 0 []

/-- MODE (R428, R437). -/
def execMode (cmd : Nat) (s : State) : Host.Outcome State Fault Refusal :=
  runCmd cmd 0x2D s fun c =>
    ({ s with fw := { s.fw with mode := fld c.msg 0x80 1 } } : State).effectDone c.id 0 0 0 []

/-- RESET (R428): the device reset follows its completion record; see `State.endCmd` and DEVICE_RESET. -/
def execReset (cmd : Nat) (s : State) : Host.Outcome State Fault Refusal :=
  runCmd cmd 0x2E s fun c => s.effectDone c.id 0 0 0 []

/-! ### LOAD (R79, R81, R147, R429) -/

/-- The parts of an object: where each of its tables begins and ends (R81). -/
structure ObjectShape where
  nker : Nat
  ndat : Nat
  nrel : Nat
  codeLen : Nat
  deriving DecidableEq, Repr

/-- The shape that an object's header gives. -/
def shapeOf (b : List Byte) : ObjectShape :=
  { nker := fld b 6 2, ndat := fld b 8 2, nrel := fld b 0x0C 4, codeLen := fld b 0x10 4 }

/-- Where the kernel table's entry j begins, and the starts of the later parts. -/
def kerAt (j : Nat) : Nat := 0x20 + 80 * j
def ObjectShape.datAt (o : ObjectShape) (j : Nat) : Nat := kerAt o.nker + 48 * j
def ObjectShape.relAt (o : ObjectShape) (j : Nat) : Nat := o.datAt o.ndat + 16 * j
def ObjectShape.codeAt (o : ObjectShape) : Nat := o.relAt o.nrel

/-- The sizes and alignments of an object's data sections. -/
def ObjectShape.sections (o : ObjectShape) (b : List Byte) : List (Nat × Nat) :=
  (List.range o.ndat).map fun j => (fld b (o.datAt j + 32) 4, fld b (o.datAt j + 36) 4)

/-- A number raised to a multiple of another. -/
def roundUp (a n : Nat) : Nat := (a + n - 1) / n * n

/-- The offsets of the data sections in the object, from the end of the code on, and their end. -/
def sectionFiles (pos : Nat) : List (Nat × Nat) → List Nat × Nat
  | [] => ([], pos)
  | (z, _) :: r =>
    let p := roundUp pos 16
    let q := sectionFiles (p + z) r
    (p :: q.1, q.2)

/-- The offsets of the data sections in their pages, each the first that meets its ALIGN, and their end
(R79, R429). -/
def sectionPlaces (pos : Nat) : List (Nat × Nat) → List Nat × Nat
  | [] => ([], pos)
  | (z, al) :: r =>
    let p := roundUp pos (max 1 al)
    let q := sectionPlaces (p + z) r
    (p :: q.1, q.2)

/-- The first byte that differs from those of a constant field. -/
def exactly (b : List Byte) (o : Nat) (bs : List Nat) : Checks :=
  (lenum bs).map fun e => (fld b (o + e.1) 1 == e.2, o + e.1)

/-- A name field: ASCII, from 1 to 31 characters, padded with zero bytes. -/
def nameChecks (b : List Byte) (o : Nat) : Checks :=
  (fld b o 1 != 0, o) :: (List.range 32).map fun k =>
    (fld b (o + k) 1 == 0 && (List.range k).all (fun i => fld b (o + i) 1 != 0 || fld b (o + k) 1 == 0) ||
      decide (0 < fld b (o + k) 1 ∧ fld b (o + k) 1 < 128 ∧ k < 31) &&
        (List.range k).all (fun i => fld b (o + i) 1 != 0), o + k)

/-- No two entries of a table, `n` of them from `at_` on, carry one name (R81). -/
def distinctNames (b : List Byte) (at_ : Nat → Nat) (n : Nat) : Checks :=
  (List.range n).map fun j =>
    ((List.range j).all fun i => fld b (at_ i) 32 != fld b (at_ j) 32, at_ j)

/-- A slot of an object's code. -/
def ObjectShape.slotAt (o : ObjectShape) (b : List Byte) (p : Nat) : Slot := slotOfBytes ((b.drop (o.codeAt + p)).take 16)

/-- Whether an instruction word with an IMM32 stands in a slot of an object's code: one of format 01 or 10 (R81, R147). -/
def ObjectShape.wordAt (o : ObjectShape) (b : List Byte) (p : Nat) : Bool :=
  let w := o.slotAt b p
  (match decode w with | .ok _ => true | .error _ => false) && w.extractLsb' 26 2 != 0

/-- Whether the IMM32 of a slot is 0, as glas leaves it where a relocation names it (R81). -/
def ObjectShape.bare (o : ObjectShape) (b : List Byte) (p : Nat) : Bool :=
  let w := o.slotAt b p
  w.extractLsb' 46 27 == 0 && w.extractLsb' 107 5 == 0

/-- The checks of an object of LEN bytes against R81. -/
def objectChecks (b : List Byte) : Checks :=
  let o := shapeOf b
  let secs := o.sections b
  let files := sectionFiles (o.codeAt + o.codeLen) secs
  let slots := fun j => fld b (kerAt j + 36) 4
  [(decide (0x20 ≤ b.length ∧ files.2 ≤ b.length), b.length)] ++
  exactly b 0 [0x47, 0x4C, 0x4B, 0x31] ++ within b 4 2 1 1 ++ within b 6 2 1 2048 ++ within b 8 2 0 1024 ++
  zeros b 0x0A 2 ++ [(o.codeLen == 16 * ((List.range o.nker).map slots).sum, 0x10)] ++ zeros b 0x14 12 ++
  ((List.range o.nker).flatMap fun j =>
    nameChecks b (kerAt j) ++
      [(fld b (kerAt j + 32) 4 == 16 * ((List.range j).map slots).sum, kerAt j + 32),
       ((decodeHeader (o.slotAt b (fld b (kerAt j + 32) 4))).isSome, kerAt j + 32),
       (decide (1 ≤ slots j ∧ fld b (kerAt j + 32) 4 + 16 * slots j ≤ o.codeLen), kerAt j + 36)] ++
      zeros b (kerAt j + 40) 8) ++ distinctNames b kerAt o.nker ++
  ((List.range o.ndat).flatMap fun j =>
    nameChecks b (o.datAt j) ++
      [(powerOfTwo (fld b (o.datAt j + 36) 4) && decide (256 ≤ fld b (o.datAt j + 36) 4), o.datAt j + 36)] ++
      zeros b (o.datAt j + 40) 8) ++ distinctNames b o.datAt o.ndat ++
  ((List.range o.nrel).flatMap fun j =>
    let r := o.relAt j
    [(fld b r 4 % 16 == 0 && decide (fld b r 4 + 16 ≤ o.codeLen) && o.wordAt b (fld b r 4) && o.bare b (fld b r 4), r), (decide (fld b (r + 4) 2 < o.ndat), r + 4),
     (decide (fld b (r + 6) 1 ≤ 1), r + 6), (fld b (r + 7) 1 == 0, r + 7),
     (decide (fld b (r + 8) 8 < (lget (0, 0) secs (fld b (r + 4) 2)).1), r + 8)])

/-- The 16 bytes of an instruction word with its IMM32 replaced (R147): bits [26:0] at [72:46], and the upper five
in IMH at [111:107]. -/
def setImm (w : List Byte) (v : Nat) : List Byte :=
  let n := leNat w
  let bare := n % 2 ^ 46 + n / 2 ^ 73 % 2 ^ 34 * 2 ^ 73 + n / 2 ^ 112 * 2 ^ 112
  leBytes 16 (bare + v % 2 ^ 27 * 2 ^ 46 + v / 2 ^ 27 % 32 * 2 ^ 107)

/-- Bytes replaced in a list. -/
def splice (bs : List Byte) (o : Nat) (new : List Byte) : List Byte := bs.take o ++ new ++ bs.drop (o + new.length)

/-- The code of an object with its relocations written, for the addresses of its data sections (R81). -/
def relocate (b : List Byte) (bases : List Nat) : List Byte :=
  let o := shapeOf b
  (List.range o.nrel).foldl (fun code j =>
    let r := o.relAt j
    let a := lget 0 bases (fld b (r + 4) 2) + fld b (r + 8) 8
    let p := fld b r 4
    splice code p (setImm ((code.drop p).take 16) (a / 2 ^ (32 * fld b (r + 6) 1) % 2 ^ 32)))
    ((b.drop o.codeAt).take o.codeLen)

/-- A page that LOAD maps: private, resident and unpinned, with R, and with X or W (R429). -/
def loadPage (pa : Nat) (code : Bool) : Pte :=
  { size := 65536, kind := .priv, r := true, w := !code, x := code, home := none, pin := false, res := true, pa := pa,
    walked := 0 }

/-- What LOAD lays out: the number of code and of data pages, and the addresses of the data sections. -/
structure Layout where
  code : Nat
  data : Nat
  bases : List Nat
  deriving DecidableEq, Repr

/-- The layout of an object at VA (R429). -/
def layoutOf (b : List Byte) (va : Nat) : Layout :=
  let o := shapeOf b
  let n := roundUp o.codeLen 65536 / 65536
  let p := sectionPlaces 0 (o.sections b)
  { code := n, data := roundUp p.2 65536 / 65536, bases := p.1.map (va + 65536 * (n + 1) + ·) }

/-- The result area of LOAD (R429). -/
def loadResult (b : List Byte) (va : Nat) : List Byte :=
  let y := layoutOf b va
  leBytes 8 va ++ ((List.range (shapeOf b).nker).flatMap fun j =>
    leBytes 8 (va + fld b (kerAt j + 32) 4) ++ leBytes 8 (va + 65536 * y.code + 32 * j)) ++ y.bases.flatMap (leBytes 8)

/-- The pages, code, launch headers and data of an object put into place (R79, R429). Nothing of the new pages is cached,
so the bytes are written to the pool. The pages are mapped resident, as MAP would: their other bytes, between and after the
parts, stay as they are in the pool. -/
def State.loadObject (s : State) (sid : Nat) (b : List Byte) (va pa : Nat) : State :=
  let o := shapeOf b
  let y := layoutOf b va
  let n := y.code + 1 + y.data
  let files := sectionFiles (o.codeAt + o.codeLen) (o.sections b)
  let pool := Memory.write s.pool pa (relocate b y.bases)
  let pool := (List.range o.nker).foldl (fun m j =>
    Memory.write m (pa + 65536 * y.code + 32 * j) ((b.drop (kerAt j + 48)).take 32)) pool
  let pool := (lenum (o.sections b)).foldl (fun m e =>
    Memory.write m (pa + (lget 0 y.bases e.1 - va)) ((b.drop (lget 0 files.1 e.1)).take e.2.1)) pool
  ({ s with pool := pool } : State).modSub sid fun u => { u with pages := (List.range n).foldl (fun ps k =>
    mput (va + 65536 * k) (loadPage (pa + 65536 * k) (decide (k < y.code))) ps) u.pages }

/-- LOAD (R429). -/
def execLoad (cmd : Nat) (s : State) : Host.Outcome State Fault Refusal :=
  runCmd cmd 0x2F s fun c =>
    let va := fld c.msg 0x90 8
    let pa := fld c.msg 0x98 8
    match s.svcRead c.sid (fld c.msg 0x80 8) 0 (fld c.msg 0x88 4) with
    | .bad _ => s.effectDone c.id 0x02 0x80 0 []
    | .waits s => s
    | .ok s b _ =>
      match firstBad (objectChecks b) with
      | some o => s.effectDone c.id 0x02 o 0 []
      | none =>
        let y := layoutOf b va
        let n := 65536 * (y.code + 1 + y.data)
        let res := loadResult b va
        if barredRange va n || mappedIn (s.pagesOf c.sid) va n then s.effectDone c.id 0x02 0x90 0 []
        else if Config.poolEnd < pa + n then s.effectDone c.id 0x02 0x98 0 []
        else if !s.svcCan c.sid (fld c.msg 0xA0 8) res.length then s.effectDone c.id 0x02 0xA0 0 []
        else match s.svcWrite c.sid (fld c.msg 0xA0 8) 0 res [] with
          | .ok s _ ls => (s.loadObject c.sid b va pa).effectDone c.id 0 0 0 ls
          | .waits s => s
          | .bad _ => s.effectDone c.id 0x02 0xA0 0 []

/-! ### Sessions and the submitter's own writes (R427, R431, R450) -/

/-- The role with which a fabric address is admitted: the configuration block's, or in recovery mode an operator
of the last good block, or the recovery address (R427, R431). -/
def State.roleOf (s : State) (addr : DWord) : Option Bool :=
  let role := fun (l : List (DWord × Bool)) => (l.find? fun e => e.1 == addr).map (·.2)
  if !s.fw.recovery then role s.fw.config.admission
  else match s.fw.lastGood with
    | some b => if role b.admission = some true then some true else none
    | none => if addr = s.fw.recoveryAddr then some true else none

/-- The page of the standard handler's code, execute-only, in every address space (R403, R454; log 21). -/
def handlerPage : Nat × Pte :=
  (Config.standardHandler,
    { size := 65536, kind := .priv, r := false, w := false, x := true, home := none, pin := false, res := true,
      pa := Config.handlerPa, walked := 0 })

/-- SUBMITTER_ADMISSION (R427): its address space holds the service's page alone, and no queue is open. -/
def execSubmitterAdmission (sid : Nat) (addr : DWord) (s : State) : Host.Outcome State Fault Refusal :=
  match s.sub? sid, s.roleOf addr with
  | none, some op =>
    .next { s with subs := s.subs ++ [{ sid := sid, addr := addr, operator := op, pages := [handlerPage], handler := 0,
                                        queues := [] }] }
  | _, _ => .next s

/-- Whether a pool address lies behind a shared-coherent page of any submitter. -/
def State.sharedPa (s : State) (pa : Nat) : Bool :=
  s.subs.any fun u => u.pages.any fun e => e.2.kind == .coherent && decide (e.2.pa ≤ pa ∧ pa < e.2.pa + e.2.size)

/-- The bytes that the submitter wrote behind a held line are noted with it (R450). -/
def L2Line.race (l : L2Line) (ln pa n : Nat) : L2Line :=
  { l with raced := (List.range 128).foldl (fun r k =>
      if pa ≤ ln * 128 + k ∧ ln * 128 + k < pa + n then ninsert k r else r) l.raced }

/-- SUBMITTER_POOL_WRITE (R427, R450): pool bytes written past the device, which keeps the lines that it holds. -/
def execSubmitterPoolWrite (pa : Nat) (bytes : List Byte) (s : State) : Host.Outcome State Fault Refusal :=
  if s.sharedPa pa || s.sharedPa (pa + bytes.length - 1) || decide (Config.poolEnd < pa + bytes.length) then .next s
  else
    .next { s with
      pool := Memory.write s.pool pa bytes
      dies := s.dies.map fun (D : Die) => { D with l2 := D.l2.map fun e =>
        if e.1 * 128 < pa + bytes.length ∧ pa < e.1 * 128 + 128 then (e.1, e.2.race e.1 pa bytes.length) else e } }

end Sys2Proof.Machine
end

