-- ==== Sys2Proof/Machine/Device.lean ====
section
/-! DEFINITION. Checkpoints (R437–R439), device reset and measured boot (R430, R431), the watchdog, power and
temperature (R441–R443), gating and wake (R377, R378, R444), and the retirement of cores (R400, R445). -/

namespace Sys2Proof.Machine

/-! ### Checkpoint (R437–R439) -/

/-- A range of a checkpoint descriptor. -/
structure CkptRange where
  addr : Nat
  len : Nat
  kind : Nat
  deriving DecidableEq, Repr

/-- The scale of a group of FP32 codes, as a BF16 code; none where a value is a NaN or an infinity (R438). -/
def momentScale (vs : List Num) : Option Nat :=
  if vs.any fun v => v.isNan || v.isInf then none
  else match maxNum (vs.map Num.abs) with
    | .fin _ m e => if m = 0 then some (rne .bf16 (.fin false 1 0))
        else some (roundQ .bf16 .rup false 0 false (frac m e).1 ((frac m e).2 * 448))
    | _ => none

/-- x / s in E4M3, rounded to nearest even with `.sat` (R438). -/
def momentCode (x s : Num) : Nat :=
  match x, s with
  | .fin neg m e, .fin _ n f =>
    if m = 0 then withSign (floatFormat .e4m3) neg 0
    else roundQ .e4m3 .rne true 0 neg (quotFrac m e n f).1 (quotFrac m e n f).2
  | _, _ => 0x7F

/-- One group of 64 FP32 values narrowed to 66 bytes (R438). -/
def narrowGroup (b : List Byte) : List Byte :=
  let vs := (List.range 64).map fun k => value .f32 (fld b (4 * k) 4)
  match momentScale vs with
  | none => leBytes 2 0x7FC0 ++ List.replicate 64 0x7F
  | some s => leBytes 2 s ++ vs.map fun v => BitVec.ofNat 8 (momentCode v (value .bf16 s))

/-- One group restored to 256 bytes (R438). -/
def widenGroup (b : List Byte) : List Byte :=
  let s := value .bf16 (fld b 0 2)
  (List.range 64).flatMap fun k => leBytes 4 (roundTo .f32 .rne false 0 ((value .e4m3 (fld b (2 + k) 1)).mul s))

/-- The ranges of a descriptor, read with its header; none where it breaks R437. -/
def ckptRanges (b : List Byte) (n : Nat) : Option (List CkptRange) :=
  let rs := (List.range n).map fun k =>
    { addr := fld b (16 * k) 8, len := fld b (16 * k + 8) 4, kind := fld b (16 * k + 12) 4 : CkptRange }
  if rs.all fun r => r.len % 256 == 0 && decide (r.kind ≤ 1) then some rs else none

/-- The descriptor at an address: its ranges; none for one that is malformed or not readable. -/
inductive CkptDesc where
  | ok (s : State) (rs : List CkptRange)
  | waits (s : State)
  | bad
  deriving DecidableEq, Repr

/-- A descriptor read (R437). -/
def State.ckptDesc (s : State) (c : Command) : CkptDesc :=
  let a := fld c.msg 0x80 8
  match s.svcRead c.sid a 0 16 with
  | .bad _ => .bad
  | .waits s => .waits s
  | .ok s h _ =>
    if fld h 8 8 ≠ 0 then .bad
    else match s.svcRead c.sid (a + 16) 0 (16 * fld h 0 4) with
      | .bad _ => .bad
      | .waits s => .waits s
      | .ok s b _ => match ckptRanges b (fld h 0 4) with
        | some rs => .ok s rs
        | none => .bad

/-- The stored bytes of a range (R437). -/
def ckptData (maint : Bool) (r : CkptRange) (b : List Byte) : List Byte :=
  if maint then Config.zstdFrame b
  else if r.kind = 0 then b
  else (List.range (r.len / 256)).flatMap fun k => narrowGroup ((b.drop (256 * k)).take 256)

/-- A range's header (R437). -/
def ckptHeader (maint : Bool) (r : CkptRange) (stored : Nat) : List Byte :=
  leBytes 8 r.addr ++ leBytes 4 r.len ++ leBytes 4 (r.kind + if maint then 2 ^ 31 else 0) ++ leBytes 8 stored ++
    leBytes 8 0

/-- The ranges of a checkpoint written from an offset of DEST, in order. -/
def State.ckptOut (s : State) (c : Command) (maint : Bool) (off : Nat) : List CkptRange → List (Nat × Nat) → State
  | [], ls => s.effectDone c.id 0 0 0 ls
  | r :: rs, ls =>
    match s.svcRead c.sid r.addr 0 r.len with
    | .bad _ => s.effectDone c.id 0x02 0x80 0 ls
    | .waits s => s
    | .ok s b _ =>
      let d := ckptData maint r b
      let va := fld c.msg 0x88 8 + off
      if !s.svcCan c.sid va (32 + d.length) then s.effectDone c.id 0x02 0x88 0 ls
      else match s.svcWrite c.sid va 0 (ckptHeader maint r d.length ++ d) ls with
        | .ok s _ ls => State.ckptOut s c maint (roundUp (off + 32 + d.length) 16) rs ls
        | .waits s => s
        | .bad _ => s.effectDone c.id 0x02 0x88 0 ls

/-- CKPT (R437). -/
def execCkpt (cmd : Nat) (s : State) : Host.Outcome State Fault Refusal :=
  runCmd cmd 0x26 s fun c => match s.ckptDesc c with
    | .bad => s.effectDone c.id 0x02 0x80 0 []
    | .waits s => s
    | .ok s rs => s.ckptOut c (s.fw.mode == 1) 0 rs []

/-- The bytes that a stored range gives back, where its header and data match the descriptor (R439). -/
def ckptBack (r : CkptRange) (h : List Byte) (d : List Byte) : Option (List Byte) :=
  let maint := 2 ^ 31 ≤ fld h 12 4
  if fld h 0 8 ≠ r.addr ∨ fld h 8 4 ≠ r.len ∨ fld h 12 4 % 2 ^ 31 ≠ r.kind ∨ fld h 24 8 ≠ 0 then none
  else if maint then
    (Config.zstdBytes d).bind fun b => if b.length = r.len then some b else none
  else if r.kind = 0 then (if d.length = r.len then some d else none)
  else if d.length = r.len * 66 / 256 then
    some ((List.range (r.len / 256)).flatMap fun k => widenGroup ((d.drop (66 * k)).take 66))
  else none

/-- The ranges of a checkpoint restored from an offset of SRC, in order. -/
def State.ckptIn (s : State) (c : Command) (off : Nat) : List CkptRange → List (Nat × Nat) → State
  | [], ls => s.effectDone c.id 0 0 0 ls
  | r :: rs, ls =>
    let src := fld c.msg 0x88 8 + off
    match s.svcRead c.sid src 0 32 with
    | .bad _ => s.effectDone c.id 0x02 0x88 0 ls
    | .waits s => s
    | .ok s h _ =>
      match s.svcRead c.sid (src + 32) 0 (fld h 16 8) with
      | .bad _ => s.effectDone c.id 0x02 off 0 ls
      | .waits s => s
      | .ok s d _ =>
        match ckptBack r h d with
        | none => s.effectDone c.id 0x02 off 0 ls
        | some b =>
          if !s.svcCan c.sid r.addr b.length then s.effectDone c.id 0x02 0x80 0 ls
          else match s.svcWrite c.sid r.addr 0 b ls with
            | .ok s _ ls => State.ckptIn s c (roundUp (off + 32 + d.length) 16) rs ls
            | .waits s => s
            | .bad _ => s.effectDone c.id 0x02 0x80 0 ls

/-- CKPTLOAD (R439). -/
def execCkptload (cmd : Nat) (s : State) : Host.Outcome State Fault Refusal :=
  runCmd cmd 0x27 s fun c => match s.ckptDesc c with
    | .bad => s.effectDone c.id 0x02 0x80 0 []
    | .waits s => s
    | .ok s rs => s.ckptIn c 0 rs []

/-! ### Boot (R430, R431) -/

/-- Whether an image verifies: its signature, and a VERSION not below the anti-rollback value (R430). -/
def imageVerifies (b : BootImage) (floor : Word) : Bool := b.signed && decide (floor ≤ b.version)

/-- The firmware after boot ROM has verified and measured the three stages in order; one that fails leaves the
device in recovery mode (R430, R431); `m1` and the digest of the configuration block in place stand for FWSTAGE there, whose
chain begins with them (R434). What stands in fuses and the non-volatile store stays. -/
def Firmware.boot (f : Firmware) (loader service config : BootImage) : Firmware :=
  let dig := fun (b : BootImage) => Config.sha256 b.bytes
  let m1 := chain 0 (dig loader)
  let keep : Firmware := { Firmware.reset with
    m1 := m1, config := { digest := dig config, admission := [] }, lastGood := f.lastGood, recoveryAddr := f.recoveryAddr, antiRollback := f.antiRollback,
    flash := [loader, service, config] }
  if !imageVerifies loader f.antiRollback then { keep with recovery := true }
  else
    if !imageVerifies service f.antiRollback then { keep with recovery := true, meas := m1 }
    else
      let m2 := chain m1 (dig service)
      if !imageVerifies config f.antiRollback then
        { keep with recovery := true, version := service.version, meas := m2 }
      else
        let block : BootConfig := { digest := dig config, admission := Config.configAdmission config.bytes }
        { keep with
          version := service.version, meas := chain m2 (dig config), config := block, lastGood := some block
          l2Mib := 64 * (1 + Config.configSplit config.bytes % 7) }

/-- DEVICE_RESET (R430): every item returns to its reset value, but for pool memory, which lies outside the
device, and the model's own counters and agenda. -/
def execDeviceReset (loader service config : BootImage) (s : State) : Host.Outcome State Fault Refusal :=
  .next { State.reset with
    fw := s.fw.boot loader service config, pool := s.pool, devWrites := s.devWrites, sent := s.sent,
    free := s.free, fresh := s.fresh, agenda := s.agenda }

/-! ### Watchdog and temperature (R441–R443) -/

/-- A command as a reset of the control cores leaves it: a CKPT that is writing ends without its record (R446), and so does the
FWCOMMIT whose hand-over runs (DESIGN CHOICE, log 30). -/
def Command.atReset (c : Command) (handover : Option Nat) : Command :=
  if (c.op = 0x26 ∧ c.st ∈ [.started, .draining]) ∨ some c.id = handover then { c with st := .complete, effect := true } else c

/-- The control cores are reset: the compute dies stop issuing and stand as they are, and the device enters
recovery mode (R441). -/
def State.freeze (s : State) (thermal : Bool) : State :=
  { s with cmds := s.cmds.map fun c => c.atReset s.fw.committing
           fw := { s.fw with recovery := true, frozen := true, committing := none, thermalCause := s.fw.thermalCause || thermal }
           pw := { s.pw with gated := [], restoring := false } }

/-- WATCHDOG_EXPIRY (R441). -/
def execWatchdogExpiry (ctl : Nat) (s : State) : Host.Outcome State Fault Refusal :=
  .next (if ctl < 8 then s.freeze false else s)

/-- THERMAL_WITHHOLD (R443). -/
def execThermalWithhold (die : Nat) (s : State) : Host.Outcome State Fault Refusal :=
  .next (s.modDie die fun D => { D with hot := true })

/-- THERMAL_RECOVER (R443). -/
def execThermalRecover (die : Nat) (s : State) : Host.Outcome State Fault Refusal :=
  .next (s.modDie die fun D => { D with hot := false })

/-- THERMAL_SHUTDOWN (R443): as R441, with a thermal cause logged. -/
def execThermalShutdown (die : Nat) (s : State) : Host.Outcome State Fault Refusal :=
  .next (if die < 4 then s.freeze true else s)

/-- POWER_WITHHOLD (R442): issue slots of ports C and A are withheld in the current clock, but for one clock in
eight. -/
def execPowerWithhold (s : State) : Host.Outcome State Fault Refusal :=
  .next { s with pw := { s.pw with withhold := true } }

/-! ### Gating and wake (R377, R378, R444) -/

/-- Whether nothing keeps the control cores awake: no command stands, no launch is incomplete, and no group forms
(R444). -/
def State.idle (s : State) : Bool :=
  (s.subs.all fun u => u.queues.all fun q => q.cmds == []) && s.launches.all Launch.complete &&
    s.groups.all fun g => g.st != .forming

/-- IDLE_GATE (R444): where some control core runs, and core 0 is not being restored (log 38). -/
def execIdleGate (s : State) : Host.Outcome State Fault Refusal :=
  if s.pw.idleMs ≠ 0 ∧ s.idle = true ∧ s.pw.gated ≠ List.range 8 ∧ s.pw.restoring = false ∧
      s.pw.idleSince + s.pw.idleMs * Config.clocksPerMs ≤ s.now then
    .next { s with pw := { s.pw with gated := List.range 8, gatedAt := some s.now } }
  else .next s

/-- Whether a frame matches an entry of the wake filter (R444). -/
def WakeEntry.hits (e : WakeEntry) (src : DWord) (msg : List Byte) : Bool :=
  e.valid && (src ^^^ e.src) &&& e.srcMask == 0 &&
    (BitVec.ofNat 128 (fld msg 0 16) ^^^ e.pat) &&& e.patMask == 0

/-- WAKE_FRAME (R377): a frame that arrives while core 0 is gated. -/
def execWakeFrame (src : DWord) (sid : Nat) (msg : List Byte) (s : State) : Host.Outcome State Fault Refusal :=
  if !s.pw.gated.contains 0 then .next s
  else .next (s.frame (.cmd sid msg) (s.pw.filter.any fun e => e.hits src msg))

/-- A frame that control core 0 parses. -/
def State.parse (s : State) (f : Frame) : State :=
  match f with
  | .cmd sid msg => s.arrive sid msg
  | .notice g a b => s.notice g a b

/-- WAKE_REPLAY (R378): core 0 runs and replays the held frames in arrival order. -/
def execWakeReplay (s : State) : Host.Outcome State Fault Refusal :=
  if !s.pw.restoring then .next s
  else
    let fs := s.pw.buffer
    let s := { s with
      pw := { s.pw with gated := s.pw.gated.filter fun k => k != 0, restoring := false, buffer := [], idleSince := s.now }
      ev := bump s.ev 0x81 fs.length }
    .next (fs.foldl State.parse s)

/-- INTERNAL_WAKE (R444): a switch failure or an error restores core 3, and a thermal event core 4. -/
def execInternalWake (ctl : Nat) (s : State) : Host.Outcome State Fault Refusal :=
  .next (if ctl = 3 ∨ ctl = 4 then { s with pw := { s.pw with gated := s.pw.gated.filter fun k => k != ctl } } else s)

/-! ### Retirement of cores (R400, R401, R445) -/

/-- Whether a physical core has had two halts by fault 0x13, or two second mismatches, within 24 hours. -/
def Die.worn (D : Die) (phys now : Nat) : Bool :=
  [false, true].any fun m => decide (2 ≤ (D.strikes.filter fun k =>
    k.phys == phys && k.mismatch == m && decide (now ≤ k.clock + Config.dayClocks)).length)

/-- The logical number of a physical core that is in service. -/
def Die.logical (D : Die) (phys : Nat) : Option Nat :=
  (List.range Config.coresPerDie).find? fun c => D.phys c == phys && !D.off.getLsbD c

/-- Ensembles that hold a core. -/
def State.ensOn (s : State) (d c : Nat) : List Ensemble :=
  s.ens.filter fun e => e.resident && e.die == d && e.sections.any fun k => k.core == c

/-- A die without a core that is empty: a spare takes its number, or its OFF bit and REPLACE are set (R400). -/
def Die.retire (D : Die) (c : Nat) : Die :=
  let D := { D with retired := D.retired + 1, faulty := D.faulty.filter fun e => e.1 != c }
  if 0 < D.spares then
    { D with spares := D.spares - 1, mapped := mput c (Config.coresPerDie + 4 - D.spares) D.mapped
             cores := D.cores.map fun e => if e.1 = c then (e.1, { e.2 with l1 := [], icache := [] }) else e }
  else { D with off := D.off ||| BitVec.ofNat 64 (2 ^ c), replace := true }

/-- The replace request to every operator session, once REPLACE is set (R363, R445). -/
def State.replaceRequest (s : State) (d : Nat) (before : Bool) : State :=
  if before || !(s.die d).replace then s
  else (s.subs.filter Submitter.operator).foldl (fun s u => s.send
    { sid := u.sid, tag := 0, seq := 0, queue := 0, kind := 3, status := 0, detail0 := BitVec.ofNat 64 d,
      detail1 := (s.die d).off }) s

/-- CORE_RETIREMENT (R445): the placer stops using the core and its ensembles are pre-empted; once it is empty,
R400 applies. Of two of one clock the lower physical core comes first (R401), and placements come after it (R446). -/
def execCoreRetirement (die phys : Nat) (s : State) : Host.Outcome State Fault Refusal :=
  let D := s.die die
  match D.logical phys with
  | none => .next s
  | some c =>
    if D.faulty.any fun e => e.1 == c then
      if s.ensOn die c = [] then .next (((s.takes (.retire die) phys).modDie die fun D => D.retire c).replaceRequest die D.replace) else .next s
    else if D.worn phys s.now then
      let s := (s.takes (.retire die) phys).modDie die fun D => { D with faulty := D.faulty ++ [(c, phys)] }
      .next ((s.ensOn die c).foldl (fun s e => s.request e.id) s)
    else .next s

end Sys2Proof.Machine
end

