-- ==== Sys2Proof/Machine/Dispatch.lean ====
section
/-! DEFINITION. The meaning of every instruction and every other indivisible step: one arm per
constructor, each a direct call of its meaning. -/

namespace Sys2Proof.Machine

def exec (i : Instr) (s : State) : Host.Outcome State Fault Refusal :=
  match i with
  | .bra x => Sys2Proof.Machine.execBra x s
  | .brc x first => Sys2Proof.Machine.execBrc x first s
  | .brd x => Sys2Proof.Machine.execBrd x s
  | .jmpi x first => Sys2Proof.Machine.execJmpi x first s
  | .call x => Sys2Proof.Machine.execCall x s
  | .calli x first => Sys2Proof.Machine.execCalli x first s
  | .ret x first => Sys2Proof.Machine.execRet x first s
  | .regang x => Sys2Proof.Machine.execRegang x s
  | .exit x => Sys2Proof.Machine.execExit x s
  | .ipf x => Sys2Proof.Machine.execIpf x s
  | .yield x => Sys2Proof.Machine.execYield x s
  | .nop x => Sys2Proof.Machine.execNop x s
  | .maskset x first => Sys2Proof.Machine.execMaskset x first s
  | .maskget x => Sys2Proof.Machine.execMaskget x s
  | .bar x => Sys2Proof.Machine.execBar x s
  | .bararv x => Sys2Proof.Machine.execBararv x s
  | .barwt x first => Sys2Proof.Machine.execBarwt x first s
  | .xacq x => Sys2Proof.Machine.execXacq x s
  | .extendedSetGrant p => Sys2Proof.Machine.execExtendedSetGrant p s
  | .xrel x => Sys2Proof.Machine.execXrel x s
  | .idf x => Sys2Proof.Machine.execIdf x s
  | .movs x => Sys2Proof.Machine.execMovs x s
  | .movsw x first => Sys2Proof.Machine.execMovsw x first s
  | .trap x => Sys2Proof.Machine.execTrap x s
  | .bkpt x => Sys2Proof.Machine.execBkpt x s
  | .tret x => Sys2Proof.Machine.execTret x s
  | .fwcall x first => Sys2Proof.Machine.execFwcall x first s
  | .fwcallAnswer p => Sys2Proof.Machine.execFwcallAnswer p s
  | .savemark x => Sys2Proof.Machine.execSavemark x s
  | .rxdone x => Sys2Proof.Machine.execRxdone x s
  | .entrydone x => Sys2Proof.Machine.execEntrydone x s
  | .halt x => Sys2Proof.Machine.execHalt x s
  | .sleep x => Sys2Proof.Machine.execSleep x s
  | .sleepExpiry p => Sys2Proof.Machine.execSleepExpiry p s
  | .stallCountExpiry p => Sys2Proof.Machine.execStallCountExpiry p s
  | .pathAged p => Sys2Proof.Machine.execPathAged p s
  | .iadd x ty sat => Sys2Proof.Machine.execIadd x ty sat s
  | .isub x ty sat => Sys2Proof.Machine.execIsub x ty sat s
  | .imul x ty sat => Sys2Proof.Machine.execImul x ty sat s
  | .imulhi x ty => Sys2Proof.Machine.execImulhi x ty s
  | .imad x ty sat => Sys2Proof.Machine.execImad x ty sat s
  | .imin x ty => Sys2Proof.Machine.execImin x ty s
  | .imax x ty => Sys2Proof.Machine.execImax x ty s
  | .iabs x ty sat => Sys2Proof.Machine.execIabs x ty sat s
  | .ineg x ty sat => Sys2Proof.Machine.execIneg x ty sat s
  | .isad x ty sat => Sys2Proof.Machine.execIsad x ty sat s
  | .iaddc x ty => Sys2Proof.Machine.execIaddc x ty s
  | .isubb x ty => Sys2Proof.Machine.execIsubb x ty s
  | .and x ty => Sys2Proof.Machine.execAnd x ty s
  | .or x ty => Sys2Proof.Machine.execOr x ty s
  | .xor x ty => Sys2Proof.Machine.execXor x ty s
  | .andn x ty => Sys2Proof.Machine.execAndn x ty s
  | .not x ty => Sys2Proof.Machine.execNot x ty s
  | .shl x ty => Sys2Proof.Machine.execShl x ty s
  | .shrl x ty => Sys2Proof.Machine.execShrl x ty s
  | .shra x ty => Sys2Proof.Machine.execShra x ty s
  | .rotl x ty => Sys2Proof.Machine.execRotl x ty s
  | .bfx x ty => Sys2Proof.Machine.execBfx x ty s
  | .bfi x ty => Sys2Proof.Machine.execBfi x ty s
  | .popc x ty => Sys2Proof.Machine.execPopc x ty s
  | .clz x ty => Sys2Proof.Machine.execClz x ty s
  | .ctz x ty => Sys2Proof.Machine.execCtz x ty s
  | .brev x ty => Sys2Proof.Machine.execBrev x ty s
  | .prmb x => Sys2Proof.Machine.execPrmb x s
  | .icmp x ty rel => Sys2Proof.Machine.execIcmp x ty rel s
  | .sel x ty => Sys2Proof.Machine.execSel x ty s
  | .lea x => Sys2Proof.Machine.execLea x s
  | .addw x ty => Sys2Proof.Machine.execAddw x ty s
  | .subw x ty => Sys2Proof.Machine.execSubw x ty s
  | .shlw x => Sys2Proof.Machine.execShlw x s
  | .mulw x ty => Sys2Proof.Machine.execMulw x ty s
  | .leaw x ty => Sys2Proof.Machine.execLeaw x ty s
  | .dot4 x ty sat => Sys2Proof.Machine.execDot4 x ty sat s
  | .mov x ty => Sys2Proof.Machine.execMov x ty s
  | .movi x => Sys2Proof.Machine.execMovi x s
  | .moviw x ty => Sys2Proof.Machine.execMoviw x ty s
  | .rhash x => Sys2Proof.Machine.execRhash x s
  | .fadd x ty rnd sat => Sys2Proof.Machine.execFadd x ty rnd sat s
  | .fsub x ty rnd sat => Sys2Proof.Machine.execFsub x ty rnd sat s
  | .fmul x ty rnd sat => Sys2Proof.Machine.execFmul x ty rnd sat s
  | .ffma x ty rnd sat => Sys2Proof.Machine.execFfma x ty rnd sat s
  | .fmin x ty => Sys2Proof.Machine.execFmin x ty s
  | .fmax x ty => Sys2Proof.Machine.execFmax x ty s
  | .fminn x ty => Sys2Proof.Machine.execFminn x ty s
  | .fmaxn x ty => Sys2Proof.Machine.execFmaxn x ty s
  | .fabs x ty => Sys2Proof.Machine.execFabs x ty s
  | .fneg x ty => Sys2Proof.Machine.execFneg x ty s
  | .fcmp x ty rel => Sys2Proof.Machine.execFcmp x ty rel s
  | .fclass x ty => Sys2Proof.Machine.execFclass x ty s
  | .frnd x ty rnd => Sys2Proof.Machine.execFrnd x ty rnd s
  | .fscale x ty rnd sat => Sys2Proof.Machine.execFscale x ty rnd sat s
  | .frcp x => Sys2Proof.Machine.execFrcp x s
  | .frsq x => Sys2Proof.Machine.execFrsq x s
  | .fsqrt x => Sys2Proof.Machine.execFsqrt x s
  | .fdiv x => Sys2Proof.Machine.execFdiv x s
  | .flog2 x => Sys2Proof.Machine.execFlog2 x s
  | .fexp2 x => Sys2Proof.Machine.execFexp2 x s
  | .fsin x => Sys2Proof.Machine.execFsin x s
  | .fcos x => Sys2Proof.Machine.execFcos x s
  | .ftanh x => Sys2Proof.Machine.execFtanh x s
  | .flgst x => Sys2Proof.Machine.execFlgst x s
  | .hadd2 x ty rnd sat => Sys2Proof.Machine.execHadd2 x ty rnd sat s
  | .hmul2 x ty rnd sat => Sys2Proof.Machine.execHmul2 x ty rnd sat s
  | .hfma2 x ty rnd sat => Sys2Proof.Machine.execHfma2 x ty rnd sat s
  | .fdot2 x ty rnd sat => Sys2Proof.Machine.execFdot2 x ty rnd sat s
  | .cvt x dst src rnd sat => Sys2Proof.Machine.execCvt x dst src rnd sat s
  | .cvts x dst src rnd sat => Sys2Proof.Machine.execCvts x dst src rnd sat s
  | .quant x ty rnd => Sys2Proof.Machine.execQuant x ty rnd s
  | .deq x dst src rnd sat => Sys2Proof.Machine.execDeq x dst src rnd sat s
  | .blkscale x ty first => Sys2Proof.Machine.execBlkscale x ty first s
  | .amaxrec x first => Sys2Proof.Machine.execAmaxrec x first s
  | .amaxrecRecord troupe => Sys2Proof.Machine.execAmaxrecRecord troupe s
  | .amaxrd x ty first => Sys2Proof.Machine.execAmaxrd x ty first s
  | .pack6 x => Sys2Proof.Machine.execPack6 x s
  | .unpack6 x => Sys2Proof.Machine.execUnpack6 x s
  | .pack4 x => Sys2Proof.Machine.execPack4 x s
  | .unpack4 x => Sys2Proof.Machine.execUnpack4 x s
  | .ld x ty ord sp => Sys2Proof.Machine.execLd x ty ord sp s
  | .loadReturn troupe op lanes fromL1 => Sys2Proof.Machine.execLoadReturn troupe op lanes fromL1 s
  | .st x ty ord sp => Sys2Proof.Machine.execSt x ty ord sp s
  | .storePerformed troupe op lanes => Sys2Proof.Machine.execStorePerformed troupe op lanes s
  | .ldv x ty sp => Sys2Proof.Machine.execLdv x ty sp s
  | .stv x ty sp => Sys2Proof.Machine.execStv x ty sp s
  | .atom x op ty sc sp => Sys2Proof.Machine.execAtom x op ty sc sp s
  | .atomc x ty sc sp => Sys2Proof.Machine.execAtomc x ty sc sp s
  | .red x op ty sc sp => Sys2Proof.Machine.execRed x op ty sc sp s
  | .fence x pre post sc => Sys2Proof.Machine.execFence x pre post sc s
  | .fenceRelease p => Sys2Proof.Machine.execFenceRelease p s
  | .cline x op => Sys2Proof.Machine.execCline x op s
  | .pfd x => Sys2Proof.Machine.execPfd x s
  | .mbput x first => Sys2Proof.Machine.execMbput x first s
  | .mbget x first => Sys2Proof.Machine.execMbget x first s
  | .mbtryGet x first => Sys2Proof.Machine.execMbtryGet x first s
  | .mbtryPut x first => Sys2Proof.Machine.execMbtryPut x first s
  | .ldwp x first => Sys2Proof.Machine.execLdwp x first s
  | .shfl x k ty => Sys2Proof.Machine.execShfl x k ty s
  | .vote x any => Sys2Proof.Machine.execVote x any s
  | .ballot x => Sys2Proof.Machine.execBallot x s
  | .redux x op ty rnd sat => Sys2Proof.Machine.execRedux x op ty rnd sat s
  | .argmx x ty => Sys2Proof.Machine.execArgmx x ty s
  | .argmn x ty => Sys2Proof.Machine.execArgmn x ty s
  | .scan x excl op ty rnd sat => Sys2Proof.Machine.execScan x excl op ty rnd sat s
  | .bcast x ty first => Sys2Proof.Machine.execBcast x ty first s
  | .matchKey x ty => Sys2Proof.Machine.execMatch x ty s
  | .firstl x => Sys2Proof.Machine.execFirstl x s
  | .mma x sr first => Sys2Proof.Machine.execMma x sr first s
  | .mmaComplete troupe op => Sys2Proof.Machine.execMmaComplete troupe op s
  | .pageWaitResume troupe op => Sys2Proof.Machine.execPageWaitResume troupe op s
  | .mmae x sr first => Sys2Proof.Machine.execMmae x sr first s
  | .tzero x first => Sys2Proof.Machine.execTzero x first s
  | .tld x ty first => Sys2Proof.Machine.execTld x ty first s
  | .tst x ty rnd sat first => Sys2Proof.Machine.execTst x ty rnd sat first s
  | .tileOpComplete troupe op => Sys2Proof.Machine.execTileOpComplete troupe op s
  | .tmovr x ty first => Sys2Proof.Machine.execTmovr x ty first s
  | .tmovt x ty first => Sys2Proof.Machine.execTmovt x ty first s
  | .cpy x first => Sys2Proof.Machine.execCpy x first s
  | .cpyDelivery troupe op units => Sys2Proof.Machine.execCpyDelivery troupe op units s
  | .cpyTransferComplete troupe op => Sys2Proof.Machine.execCpyTransferComplete troupe op s
  | .gather x first => Sys2Proof.Machine.execGather x first s
  | .scatter x first => Sys2Proof.Machine.execScatter x first s
  | .gatherScatterComplete troupe op elements => Sys2Proof.Machine.execGatherScatterComplete troupe op elements s
  | .coll x op ty first => Sys2Proof.Machine.execColl x op ty first s
  | .collComplete troupe op parts changed => Sys2Proof.Machine.execCollComplete troupe op parts changed s
  | .umcfg x first => Sys2Proof.Machine.execUmcfg x first s
  | .umrank x first => Sys2Proof.Machine.execUmrank x first s
  | .umcommit x first => Sys2Proof.Machine.execUmcommit x first s
  | .umdirty x first => Sys2Proof.Machine.execUmdirty x first s
  | .umCommandComplete die slot => Sys2Proof.Machine.execUmCommandComplete die slot s
  | .waitc x => Sys2Proof.Machine.execWaitc x s
  | .fwait x first => Sys2Proof.Machine.execFwait x first s
  | .ftest x first => Sys2Proof.Machine.execFtest x first s
  | .fcancel x first => Sys2Proof.Machine.execFcancel x first s
  | .headerEntry p => Sys2Proof.Machine.execHeaderEntry p s
  | .troupeIdleRefill troupe => Sys2Proof.Machine.execTroupeIdleRefill troupe s
  | .blockRefill ens => Sys2Proof.Machine.execBlockRefill ens s
  | .demandFetch p => Sys2Proof.Machine.execDemandFetch p s
  | .hwPrefetch die core sid va k => Sys2Proof.Machine.execHwPrefetch die core sid va k s
  | .placement => Sys2Proof.Machine.execPlacement s
  | .placerPreemptRequest => Sys2Proof.Machine.execPlacerPreemptRequest s
  | .placerStarvationHold => Sys2Proof.Machine.execPlacerStarvationHold s
  | .preemptRequest ens why => Sys2Proof.Machine.execPreemptRequest ens why s
  | .pboundExpiry ens => Sys2Proof.Machine.execPboundExpiry ens s
  | .pageFirstTouchFill sid va => Sys2Proof.Machine.execPageFirstTouchFill sid va s
  | .leaseExpiry die core line => Sys2Proof.Machine.execLeaseExpiry die core line s
  | .horizonPass die line => Sys2Proof.Machine.execHorizonPass die line s
  | .gntS die m data => Sys2Proof.Machine.execGntS die m data s
  | .gntE die m data => Sys2Proof.Machine.execGntE die m data s
  | .gntNC die m data => Sys2Proof.Machine.execGntNC die m data s
  | .cmp die m => Sys2Proof.Machine.execCmp die m s
  | .snpDat die m => Sys2Proof.Machine.execSnpDat die m s
  | .snpInv die m => Sys2Proof.Machine.execSnpInv die m s
  | .switchLinkDown die port => Sys2Proof.Machine.execSwitchLinkDown die port s
  | .switchRequestTimeout die line => Sys2Proof.Machine.execSwitchRequestTimeout die line s
  | .coherenceRecoveryEnd die => Sys2Proof.Machine.execCoherenceRecoveryEnd die s
  | .dieChannelDelivery src dst => Sys2Proof.Machine.execDieChannelDelivery src dst s
  | .debuggerStop troupe slices => Sys2Proof.Machine.execDebuggerStop troupe slices s
  | .debuggerResume troupe slices => Sys2Proof.Machine.execDebuggerResume troupe slices s
  | .singleStep troupe slice => Sys2Proof.Machine.execSingleStep troupe slice s
  | .debuggerRegisterAccess troupe lane reg acc => Sys2Proof.Machine.execDebuggerRegisterAccess troupe lane reg acc s
  | .commandArrival sid msg => Sys2Proof.Machine.execCommandArrival sid msg s
  | .unknownOp sid msg => Sys2Proof.Machine.execUnknownOp sid msg s
  | .commandStart cmd => Sys2Proof.Machine.execCommandStart cmd s
  | .commandComplete cmd => Sys2Proof.Machine.execCommandComplete cmd s
  | .signalDrain cmd => Sys2Proof.Machine.execSignalDrain cmd s
  | .launch cmd => Sys2Proof.Machine.execLaunch cmd s
  | .launchAdmission cmd => Sys2Proof.Machine.execLaunchAdmission cmd s
  | .launchComplete launch => Sys2Proof.Machine.execLaunchComplete launch s
  | .tlimitExpiry launch => Sys2Proof.Machine.execTlimitExpiry launch s
  | .graph cmd => Sys2Proof.Machine.execGraph cmd s
  | .signal cmd => Sys2Proof.Machine.execSignal cmd s
  | .query cmd => Sys2Proof.Machine.execQuery cmd s
  | .cancel cmd => Sys2Proof.Machine.execCancel cmd s
  | .nodes cmd => Sys2Proof.Machine.execNodes cmd s
  | .nodefree cmd => Sys2Proof.Machine.execNodefree cmd s
  | .map cmd => Sys2Proof.Machine.execMap cmd s
  | .unmap cmd => Sys2Proof.Machine.execUnmap cmd s
  | .protect cmd => Sys2Proof.Machine.execProtect cmd s
  | .ringallot cmd => Sys2Proof.Machine.execRingallot cmd s
  | .ringfree cmd => Sys2Proof.Machine.execRingfree cmd s
  | .group cmd => Sys2Proof.Machine.execGroup cmd s
  | .groupFormTimeout grp => Sys2Proof.Machine.execGroupFormTimeout grp s
  | .memberConfirm grp slot => Sys2Proof.Machine.execMemberConfirm grp slot s
  | .groupfree cmd => Sys2Proof.Machine.execGroupfree cmd s
  | .memberSessionTimeout grp slot => Sys2Proof.Machine.execMemberSessionTimeout grp slot s
  | .dropNotice grp fromSlot slot => Sys2Proof.Machine.execDropNotice grp fromSlot slot s
  | .ident cmd => Sys2Proof.Machine.execIdent cmd s
  | .attest cmd => Sys2Proof.Machine.execAttest cmd s
  | .handler cmd => Sys2Proof.Machine.execHandler cmd s
  | .depgrant cmd => Sys2Proof.Machine.execDepgrant cmd s
  | .telem cmd => Sys2Proof.Machine.execTelem cmd s
  | .readback cmd => Sys2Proof.Machine.execReadback cmd s
  | .ckpt cmd => Sys2Proof.Machine.execCkpt cmd s
  | .ckptload cmd => Sys2Proof.Machine.execCkptload cmd s
  | .fwstage cmd => Sys2Proof.Machine.execFwstage cmd s
  | .fwcommit cmd => Sys2Proof.Machine.execFwcommit cmd s
  | .fwcommitCommitPoint => Sys2Proof.Machine.execFwcommitCommitPoint s
  | .power cmd => Sys2Proof.Machine.execPower cmd s
  | .wakefilt cmd => Sys2Proof.Machine.execWakefilt cmd s
  | .setparam cmd => Sys2Proof.Machine.execSetparam cmd s
  | .mode cmd => Sys2Proof.Machine.execMode cmd s
  | .reset cmd => Sys2Proof.Machine.execReset cmd s
  | .load cmd => Sys2Proof.Machine.execLoad cmd s
  | .deviceReset loader service config => Sys2Proof.Machine.execDeviceReset loader service config s
  | .coreRetirement die phys => Sys2Proof.Machine.execCoreRetirement die phys s
  | .watchdogExpiry ctl => Sys2Proof.Machine.execWatchdogExpiry ctl s
  | .thermalWithhold die => Sys2Proof.Machine.execThermalWithhold die s
  | .thermalRecover die => Sys2Proof.Machine.execThermalRecover die s
  | .thermalShutdown die => Sys2Proof.Machine.execThermalShutdown die s
  | .idleGate => Sys2Proof.Machine.execIdleGate s
  | .wakeFrame src sid msg => Sys2Proof.Machine.execWakeFrame src sid msg s
  | .wakeReplay => Sys2Proof.Machine.execWakeReplay s
  | .internalWake ctl => Sys2Proof.Machine.execInternalWake ctl s
  | .undefinedInstruction w => Sys2Proof.Machine.execUndefinedInstruction w s
  | .submitterAdmission sid addr => Sys2Proof.Machine.execSubmitterAdmission sid addr s
  | .submitterPoolWrite pa bytes => Sys2Proof.Machine.execSubmitterPoolWrite pa bytes s
  | .memberSessionFailure grp slot => Sys2Proof.Machine.execMemberSessionFailure grp slot s
  | .memberSessionRestored grp slot => Sys2Proof.Machine.execMemberSessionRestored grp slot s
  | .powerWithhold => Sys2Proof.Machine.execPowerWithhold s
  | .debuggerAttach launch stopAll => Sys2Proof.Machine.execDebuggerAttach launch stopAll s

end Sys2Proof.Machine
end

