-- ==== Sys2Proof/Machine/Sched.lean ====
section
/-! DEFINITION. The scheduling of a step: the scoreboard (R31, R48, R285), ports and picks (R47–R53), what one
choice of the agenda does, a clock, and the order in which an empty agenda goes on (log 40). `step` only
calls it. -/

namespace Sys2Proof.Machine

/-! ### The registers of a head (R48) -/

/-- The registers that an instruction writes and reads, by field: all that its operand positions name. -/
def useOf : Instr → Use
  | .bra _ | .regang _ | .exit _ | .yield _ | .nop _ | .xacq _ | .xrel _ | .trap _ | .bkpt _ | .tret _ | .savemark _
  | .rxdone _ | .entrydone _ | .halt _ | .sleep _ | .fence _ _ _ _ | .waitc _ => Use.none_
  | .brc x _ | .brd x | .maskset x _ | .movsw x _ | .fcancel x _ => Use.lanes [] [(x.a, 1)]
  | .jmpi x _ | .ret x _ | .cline x _ | .pfd x => Use.lanes [] [(x.a, 2)]
  | .call x | .idf x | .moviw x _ => Use.lanes [(x.d, 2)] []
  | .calli x _ => Use.lanes [(x.d, 2)] [(x.a, 2)]
  | .ipf x => Use.lanes [] (if x.fmt = .f00 then [(x.a, 2)] else [])
  | .maskget x | .bar x | .bararv x | .movi x => Use.lanes [(x.d, 1)] []
  | .barwt x _ | .fabs x _ | .fneg x _ | .fclass x _ | .frnd x _ _ | .frcp x | .frsq x | .fsqrt x | .flog2 x
  | .fexp2 x | .fsin x | .fcos x | .ftanh x | .flgst x | .pack6 x | .unpack6 x | .pack4 x | .unpack4 x | .vote x _
  | .ballot x | .redux x _ _ _ _ | .argmx x _ | .argmn x _ | .scan x _ _ _ _ _ | .umrank x _ | .umcommit x _
  | .umdirty x _ => use1 x 1 1
  | .movs x => Use.lanes [(x.d, if selWide x.imm.toNat then 2 else 1)] []
  | .fwcall x _ => use1 x 1 2
  | .iadd x ty _ | .isub x ty _ | .imul x ty _ | .imulhi x ty | .imin x ty | .imax x ty | .and x ty | .or x ty
  | .xor x ty | .andn x ty => use2 x ty.regs ty.regs ty.regs
  | .imad x ty _ => use3 x ty.regs ty.regs ty.regs ty.regs
  | .iabs x ty _ | .ineg x ty _ | .not x ty | .brev x ty | .mov x ty => use1 x ty.regs ty.regs
  | .isad x _ _ | .bfi x _ | .prmb x | .lea x | .dot4 x _ _ | .ffma x _ _ _ | .hfma2 x _ _ _ | .fdot2 x _ _ _
  | .deq x _ _ _ _ | .blkscale x _ _ => use3 x 1 1 1 1
  | .iaddc x _ | .isubb x _ => use3 x 2 1 1 1
  | .shl x ty | .shrl x ty | .shra x ty | .rotl x ty => use2 x ty.regs ty.regs 1
  | .bfx x _ | .rhash x | .fadd x _ _ _ | .fsub x _ _ _ | .fmul x _ _ _ | .fmin x _ | .fmax x _ | .fminn x _
  | .fmaxn x _ | .fcmp x _ _ | .fscale x _ _ _ | .fdiv x | .hadd2 x _ _ _ | .hmul2 x _ _ _ => use2 x 1 1 1
  | .popc x ty | .clz x ty | .ctz x ty => use1 x 1 ty.regs
  | .icmp x ty _ => use2 x 1 ty.regs ty.regs
  | .sel x ty => use3 x ty.regs ty.regs ty.regs 1
  | .addw x _ | .subw x _ | .shlw x => use2 x 2 2 1
  | .mulw x _ => use2 x 2 1 1
  | .leaw x _ => use3 x 2 2 1 1
  | .cvt x dst src rnd _ => 
    Use.lanes [(x.d, dst.regs)] ([(x.a, src.regs)] ++ (if isX2 dst then [(x.b, 1)] else []) ++
      if rnd = .rs then [(x.e, 1)] else [])
  | .cvts x dst src rnd _ => 
    Use.lanes [(x.d, dst.regs)] ([(x.a, src.regs)] ++ (if x.fmt = .f00 then [(x.b, 1)] else []) ++
      if rnd = .rs then [(x.e, 1)] else [])
  | .quant x _ rnd => 
    Use.lanes [(x.d, 1)] ([(x.a, 1), (x.b, 1), (x.c, 1)] ++ if rnd = .rs then [(x.e, 1)] else [])
  | .amaxrec x _ => 
    Use.lanes [] ((x.a, 1) :: if x.fmt = .f00 then [(x.b, 1)] else [])
  | .amaxrd x _ _ | .firstl x => 
    Use.lanes [(x.d, 1)] (if x.fmt = .f00 then [(x.a, 1)] else [])
  | .ld x ty _ sp | .ldv x ty sp => Use.lanes [(x.d, ty.regs)] [baseUse x sp]
  | .st x ty _ sp | .stv x ty sp | .red x _ ty _ sp => Use.lanes [] [(x.d, ty.regs), baseUse x sp]
  | .atom x _ ty _ sp => Use.lanes [(x.d, ty.regs)] [(x.b, ty.regs), baseUse x sp]
  | .atomc x ty _ sp => 
    Use.lanes [(x.d, ty.regs)] [(x.b, ty.regs), (x.c, ty.regs), baseUse x sp]
  | .mbput x _ => Use.lanes [] [(x.a, 1), (x.b, 2)]
  | .mbget x _ => mailUse x false 2
  | .mbtryGet x _ => mailUse x false 4
  | .mbtryPut x _ | .coll x _ _ _ | .umcfg x _ => Use.lanes [(x.d, 1)] [(x.a, 1), (x.b, 2)]
  | .ldwp x _ => 
    Use.lanes [(x.d, 1)] ((x.a, 1) :: if x.fmt = .f00 then [(x.b, 1)] else [])
  | .shfl x _ ty => 
    Use.lanes [(x.d, ty.regs)] [(x.a, ty.regs), (x.b, 1), (x.c, ty.regs)]
  | .bcast x ty _ => 
    Use.lanes [(x.d, ty.regs)] ((x.a, ty.regs) :: if x.fmt = .f00 then [(x.b, 1), (x.c, ty.regs)] else [])
  | .matchKey x ty => 
    Use.lanes [(x.d, 1)] (match ty with | some ty => [(x.a, ty.regs)] | none => [])
  | .mma x _ _ | .mmae x _ _ => mmaUse x false
  | .tzero x _ | .tmovt x _ _ => Use.lanes [] [(x.d, 1), (x.a, 1), (x.b, 1)]
  | .tld x _ _ | .tst x _ _ _ _ => tileUse x false
  | .tmovr x _ _ => Use.lanes [(x.d, 1)] [(x.a, 1), (x.b, 1)]
  | .cpy x _ => copyUse x false 1
  | .gather x _ | .scatter x _ => copyUse x false 2
  | .fwait x _ | .ftest x _ => futureUse x false
  | .extendedSetGrant _ | .fwcallAnswer _ | .sleepExpiry _ | .stallCountExpiry _ | .pathAged _ | .amaxrecRecord _
  | .loadReturn _ _ _ _ | .storePerformed _ _ _ | .fenceRelease _ | .mmaComplete _ _ | .pageWaitResume _ _
  | .tileOpComplete _ _ | .cpyDelivery _ _ _ | .cpyTransferComplete _ _ | .gatherScatterComplete _ _ _
  | .collComplete _ _ _ _ | .umCommandComplete _ _ | .headerEntry _ | .troupeIdleRefill _ | .blockRefill _
  | .demandFetch _ | .hwPrefetch _ _ _ _ _ | .placement | .placerPreemptRequest | .placerStarvationHold
  | .preemptRequest _ _ | .pboundExpiry _ | .pageFirstTouchFill _ _ | .leaseExpiry _ _ _ | .horizonPass _ _
  | .gntS .. | .gntE .. | .gntNC .. | .cmp .. | .snpDat .. | .snpInv .. | .switchLinkDown _ _
  | .switchRequestTimeout _ _ | .coherenceRecoveryEnd _ | .dieChannelDelivery _ _ | .debuggerStop _ _
  | .debuggerResume _ _ | .singleStep _ _ | .debuggerRegisterAccess _ _ _ _ | .commandArrival _ _ | .unknownOp _ _
  | .commandStart _ | .commandComplete _ | .signalDrain _ | .launch _ | .launchAdmission _ | .launchComplete _
  | .tlimitExpiry _ | .graph _ | .signal _ | .query _ | .cancel _ | .nodes _ | .nodefree _ | .map _ | .unmap _
  | .protect _ | .ringallot _ | .ringfree _ | .group _ | .groupFormTimeout _ | .memberConfirm _ _ | .groupfree _
  | .memberSessionTimeout _ _ | .dropNotice _ _ _ | .ident _ | .attest _ | .handler _ | .depgrant _ | .telem _
  | .readback _ | .ckpt _ | .ckptload _ | .fwstage _ | .fwcommit _ | .fwcommitCommitPoint | .power _ | .wakefilt _
  | .setparam _ | .mode _ | .reset _ | .load _ | .deviceReset _ _ _ | .coreRetirement _ _ | .watchdogExpiry _
  | .thermalWithhold _ | .thermalRecover _ | .thermalShutdown _ | .idleGate | .wakeFrame _ _ _ | .wakeReplay
  | .internalWake _ | .undefinedInstruction _ | .submitterAdmission _ _ | .submitterPoolWrite _ _
  | .memberSessionFailure _ _ | .memberSessionRestored _ _ | .powerWithhold | .debuggerAttach _ _ => Use.none_

/-- The fields of an instruction word; none for a step that no path issues. -/
def insOf : Instr → Option Ins
  | .bra x | .brc x _ | .brd x | .jmpi x _ | .call x | .calli x _ | .ret x _ | .regang x | .exit x | .ipf x
  | .yield x | .nop x | .maskset x _ | .maskget x | .bar x | .bararv x | .barwt x _ | .xacq x | .xrel x | .idf x
  | .movs x | .movsw x _ | .trap x | .bkpt x | .tret x | .fwcall x _ | .savemark x | .rxdone x | .entrydone x
  | .halt x | .sleep x | .iadd x _ _ | .isub x _ _ | .imul x _ _ | .imulhi x _ | .imad x _ _ | .imin x _ | .imax x _
  | .iabs x _ _ | .ineg x _ _ | .isad x _ _ | .iaddc x _ | .isubb x _ | .and x _ | .or x _ | .xor x _ | .andn x _
  | .not x _ | .shl x _ | .shrl x _ | .shra x _ | .rotl x _ | .bfx x _ | .bfi x _ | .popc x _ | .clz x _ | .ctz x _
  | .brev x _ | .prmb x | .icmp x _ _ | .sel x _ | .lea x | .addw x _ | .subw x _ | .shlw x | .mulw x _ | .leaw x _
  | .dot4 x _ _ | .mov x _ | .movi x | .moviw x _ | .rhash x | .fadd x _ _ _ | .fsub x _ _ _ | .fmul x _ _ _
  | .ffma x _ _ _ | .fmin x _ | .fmax x _ | .fminn x _ | .fmaxn x _ | .fabs x _ | .fneg x _ | .fcmp x _ _
  | .fclass x _ | .frnd x _ _ | .fscale x _ _ _ | .frcp x | .frsq x | .fsqrt x | .fdiv x | .flog2 x | .fexp2 x
  | .fsin x | .fcos x | .ftanh x | .flgst x | .hadd2 x _ _ _ | .hmul2 x _ _ _ | .hfma2 x _ _ _ | .fdot2 x _ _ _
  | .cvt x _ _ _ _ | .cvts x _ _ _ _ | .quant x _ _ | .deq x _ _ _ _ | .blkscale x _ _ | .amaxrec x _
  | .amaxrd x _ _ | .pack6 x | .unpack6 x | .pack4 x | .unpack4 x | .ld x _ _ _ | .st x _ _ _ | .ldv x _ _
  | .stv x _ _ | .atom x _ _ _ _ | .atomc x _ _ _ | .red x _ _ _ _ | .fence x _ _ _ | .cline x _ | .pfd x
  | .mbput x _ | .mbget x _ | .mbtryGet x _ | .mbtryPut x _ | .ldwp x _ | .shfl x _ _ | .vote x _ | .ballot x
  | .redux x _ _ _ _ | .argmx x _ | .argmn x _ | .scan x _ _ _ _ _ | .bcast x _ _ | .matchKey x _ | .firstl x
  | .mma x _ _ | .mmae x _ _ | .tzero x _ | .tld x _ _ | .tst x _ _ _ _ | .tmovr x _ _ | .tmovt x _ _ | .cpy x _
  | .gather x _ | .scatter x _ | .coll x _ _ _ | .umcfg x _ | .umrank x _ | .umcommit x _ | .umdirty x _ | .waitc x
  | .fwait x _ | .ftest x _ | .fcancel x _ => some x
  | .extendedSetGrant _ | .fwcallAnswer _ | .sleepExpiry _ | .stallCountExpiry _ | .pathAged _ | .amaxrecRecord _
  | .loadReturn _ _ _ _ | .storePerformed _ _ _ | .fenceRelease _ | .mmaComplete _ _ | .pageWaitResume _ _
  | .tileOpComplete _ _ | .cpyDelivery _ _ _ | .cpyTransferComplete _ _ | .gatherScatterComplete _ _ _
  | .collComplete _ _ _ _ | .umCommandComplete _ _ | .headerEntry _ | .troupeIdleRefill _ | .blockRefill _
  | .demandFetch _ | .hwPrefetch _ _ _ _ _ | .placement | .placerPreemptRequest | .placerStarvationHold
  | .preemptRequest _ _ | .pboundExpiry _ | .pageFirstTouchFill _ _ | .leaseExpiry _ _ _ | .horizonPass _ _
  | .gntS .. | .gntE .. | .gntNC .. | .cmp .. | .snpDat .. | .snpInv .. | .switchLinkDown _ _
  | .switchRequestTimeout _ _ | .coherenceRecoveryEnd _ | .dieChannelDelivery _ _ | .debuggerStop _ _
  | .debuggerResume _ _ | .singleStep _ _ | .debuggerRegisterAccess _ _ _ _ | .commandArrival _ _ | .unknownOp _ _
  | .commandStart _ | .commandComplete _ | .signalDrain _ | .launch _ | .launchAdmission _ | .launchComplete _
  | .tlimitExpiry _ | .graph _ | .signal _ | .query _ | .cancel _ | .nodes _ | .nodefree _ | .map _ | .unmap _
  | .protect _ | .ringallot _ | .ringfree _ | .group _ | .groupFormTimeout _ | .memberConfirm _ _ | .groupfree _
  | .memberSessionTimeout _ _ | .dropNotice _ _ _ | .ident _ | .attest _ | .handler _ | .depgrant _ | .telem _
  | .readback _ | .ckpt _ | .ckptload _ | .fwstage _ | .fwcommit _ | .fwcommitCommitPoint | .power _ | .wakefilt _
  | .setparam _ | .mode _ | .reset _ | .load _ | .deviceReset _ _ _ | .coreRetirement _ _ | .watchdogExpiry _
  | .thermalWithhold _ | .thermalRecover _ | .thermalShutdown _ | .idleGate | .wakeFrame _ _ _ | .wakeReplay
  | .internalWake _ | .undefinedInstruction _ | .submitterAdmission _ _ | .submitterPoolWrite _ _
  | .memberSessionFailure _ _ | .memberSessionRestored _ _ | .powerWithhold | .debuggerAttach _ _ => none

/-- Whether a row of the table is a happening: a step that no path issues as its head. -/
def isHappening (i : Instr) : Bool :=
  match i with
  | .undefinedInstruction _ => false
  | i => (insOf i).isNone

/-- FWAIT, FTEST, FCANCEL, MOV, ST and STV read a handle at once (R285). -/
def readsHandle (i : Instr) : Bool :=
  match i with
  | .fwait .. | .ftest .. | .fcancel .. | .mov .. | .st .. | .stv .. => true
  | _ => false

/-- Registers `n` up from a code, none for vz. -/
def regsFrom (d n : Nat) : List Nat := if d = 511 then [] else (List.range n).map (d + ·)

/-- The registers that an operation still owes a write to: the destination of a load, of an atomic or of a TMOVR. -/
def Op.owes (o : Op) : List Nat :=
  match o.kind with
  | .load ty _ _ _ d as => if as = [] then [] else regsFrom d ty.regs
  | .atom _ ty _ (some d) as => if as.all fun a => a.phase == .performed then [] else regsFrom d ty.regs
  | .atomc ty _ d as => if as.all fun a => a.phase == .performed then [] else regsFrom d ty.regs
  | .tmovr d _ => if o.done then [] else regsFrom d 1
  | _ => []

/-- The registers with a pending write on a path's scoreboard. -/
def Troupe.pendingWrites (t : Troupe) (p : Path) : List Nat :=
  (t.ops.filter fun o => o.own.contains p.sel).flatMap Op.owes

/-- The registers with a pending mark of a future (R285): of an entry whose operation has not completed, or of an
operation whose entry an FCANCEL has freed. -/
def Troupe.pendingMarks (t : Troupe) (p : Path) : List Nat :=
  ((lenum t.futures).filterMap fun e =>
    if e.2.busy && t.ops.any fun o => o.future == some e.1 && !o.done && o.own.contains p.sel then e.2.mark else none) ++
    t.ops.filterMap fun o => if !o.done && o.own.contains p.sel then o.mark else none

/-- Whether no pending write or mark names a register of an instruction (R48, R285). -/
def Troupe.clear (t : Troupe) (p : Path) (i : Instr) : Bool :=
  match insOf i with
  | none => true
  | some x =>
    let u := useOf i
    let wr := u.wr.flatMap fieldRegs
    let guards := (guardsUsed x).map BitVec.toNat
    let rd := (u.rd ++ u.un ++ u.qu).flatMap fieldRegs
    let all := wr ++ guards ++ rd
    (t.pendingWrites p).all (fun r => !all.contains r) &&
      (t.pendingMarks p).all fun r => !(wr ++ guards ++ if readsHandle i then [] else rd).contains r

/-! ### Ports and picks (R47–R52) -/

/-- The word at a path's head, where the core's instruction cache holds it (R48). -/
def State.headWord (s : State) (t : Troupe) (p : Path) : Option Slot :=
  match p.ibuf with
  | some w => some w
  | none =>
    match s.translate (s.sidOf t) t.die p.pc with
    | .ok h pa q =>
      if q.kind = .device ∨ q.x = false ∨ s.codeBad t.die t.core h pa = true ∨ 2 ^ 64 ≤ p.pc then none
      else if ((mfind (s.core t.die t.core).icache (codeKey h pa)).isSome) then some (s.cachedSlot t.die t.core h pa)
      else none
    | _ => none

/-- Whether a path's head may issue but for its port: it is a word of a block, its stall count has run out, and
no pending write names its registers (R48). -/
def State.headFree (s : State) (t : Troupe) (p : Path) (w : Slot) : Bool :=
  !s.fw.frozen && s.canRun t p && p.blk.isSome && decide (p.stall ≤ s.now) &&
    (match decode w with | .ok i => t.clear p i | .error _ => true)

/-- Whether a path has issued in this clock. -/
def State.hasIssued (s : State) (r : PathRef) : Bool := s.issued.any fun e => e.path == r

/-- Whether issue slots of a port are withheld in this clock: on C and on A, for power or for heat, never in
one clock of eight (R442, R443; log 41). -/
def State.withheld (s : State) (d port : Nat) : Bool :=
  s.now % 8 != 0 && (s.pw.withhold || (s.die d).hot) && port != 1

/-- A ready head of a partition. -/
structure Head where
  troupe : Troupe
  path : Path
  word : Slot
  deriving DecidableEq, Repr

/-- The ready heads of a port of a partition, that have not issued in this clock (R50). A head that its own
`wait until` has held in this clock is not ready. -/
def State.heads (s : State) (d c k port : Nat) : List Head :=
  (s.troupes.filter fun t => t.die == d && t.core == c && t.part == k && t.run == .running).flatMap fun t =>
    t.paths.filterMap fun p => match s.headWord t p with
      | some w => if p.wait == .none && portOf w == some port && s.headFree t p w && !s.hasIssued (refOf t p) then
          some { troupe := t, path := p, word := w } else none
      | none => none

/-- Whether a head is aged (R50). -/
def Path.isAged (p : Path) : Bool := p.aged || decide (Config.agedAt ≤ p.waitCnt)

/-- The rank of a path within its troupe: handler paths before ordinary ones, by number (R50). -/
def Path.rank (p : Path) : Nat := match p.sel with | .handler k => k | .ord n => 8 + n

/-- Whether one head comes before another by stamp, then slot, then path (R50). -/
def Head.before (a b : Head) : Bool :=
  decide (a.path.stamp < b.path.stamp) || (a.path.stamp == b.path.stamp &&
    (decide (a.troupe.slot < b.troupe.slot) || (a.troupe.slot == b.troupe.slot && decide (a.path.rank < b.path.rank))))

/-- The priority of a head's launch. -/
def State.prioHead (s : State) (h : Head) : Nat :=
  match s.launchOf h.troupe.ens with | some l => l.hdr.prio | none => 0

/-- Whether a head wins over another (R50): the aged before the others, then priority unless both are aged, then
the order of stamps. -/
def State.wins (s : State) (a b : Head) : Bool :=
  match a.path.isAged, b.path.isAged with
  | true, false => true
  | false, true => false
  | true, true => !b.before a
  | false, false =>
    decide (s.prioHead b < s.prioHead a) || (s.prioHead a == s.prioHead b && !b.before a)

/-- The instruction that has taken a port of a partition in this clock. -/
def State.portTaken (s : State) (d c k port : Nat) : Option Issued :=
  s.issued.find? fun e => e.die == d && e.core == c && e.part == k && e.port == port

/-- Whether a later port of the partition has taken an instruction in this clock: the ports choose in the order
A, B, C (R50). -/
def State.portClosed (s : State) (d c k port : Nat) : Bool :=
  s.issued.any fun e => e.die == d && e.core == c && e.part == k && decide (port < e.port)

/-- Instructions that a partner may join: those of port A, and LD, ST and PFD (R52). -/
def pairs (w : Slot) : Bool :=
  portOf w == some 0 || (match decode w with
    | .ok (.ld ..) | .ok (.st ..) | .ok (.pfd _) => true
    | _ => false)

/-- Whether a ready head may be the partner of an issued one (R52). -/
def State.mayPair (s : State) (e : Issued) (h : Head) : Bool :=
  !e.paired && pairs h.word && h.path.ordinary && h.path.pc == e.pc && h.path.slices &&& e.slices == 0 &&
    h.troupe.id != e.path.troupe && (match e.path.sel with | .ord _ => true | .handler _ => false) &&
    (match s.troupe? e.path.troupe with
      | some u => (s.ens? u.ens).map Ensemble.launch == (s.ens? h.troupe.ens).map Ensemble.launch
      | none => false)

/-- How a head comes to issue: not now, as its port's pick, or as the partner of the pick. -/
inductive Pick where
  | no | pick | partner
  deriving DecidableEq, Repr

/-- Whether a head is its port's pick in this clock (R50), or the partner of the pick (R52). -/
def State.pickOf (s : State) (h : Head) (port : Nat) : Pick :=
  let t := h.troupe
  let others := (s.heads t.die t.core t.part port).filter fun g => refOf g.troupe g.path != refOf t h.path
  if s.withheld t.die port || s.portClosed t.die t.core t.part port || s.hasIssued (refOf t h.path) then .no
  else match s.portTaken t.die t.core t.part port with
    | none => if others.all fun g => s.wins h g then .pick else .no
    | some e =>
      if s.mayPair e h && others.all fun g => !s.mayPair e g || !g.before h then .partner else .no

/-! ### After a step -/

/-- A path that waits after a merge goes on once its earlier accesses are performed, as after a `.tr` fence of every kind
(R333). -/
def State.release (s : State) (t : Troupe) : Troupe :=
  { t with paths := t.paths.map fun p =>
      if p.wait == .regang && s.fenceOk t p 0xF .tr then { p.fenced 0xF 0xF with wait := .none } else p }

/-- Merged paths whose accesses are performed, in every troupe. -/
def State.sweep (s : State) : State :=
  { s with troupes := s.troupes.map fun t =>
      if t.paths.any fun p => p.wait == .regang then s.release t else t }

/-- Whether nobody waits any more for a line that a GntNC has brought for an agent (R323). -/
def State.stale (s : State) (w : Asker) : Bool :=
  match w with
  | .op t o => (match s.opOf t o with | some (_, o) => o.done || o.ends.isSome | none => true)
  | .lane t o l => (match s.opOf t o with
    | some (_, o) => !o.kind.accs.any fun a => a.lane == l && a.unmade
    | none => true)
  | .path r => ((s.troupe? r.troupe).bind fun t => t.path? r.sel).isNone
  | .code d c ln => !s.channels.any fun e => e.1 / 4 == d && e.2.any fun q => match q with
    | .code k n _ => k == c && n == ln
    | _ => false
  | .service | .device => false

/-- Troupes all of whose paths have stopped at headers are discarded, the last path to run having ended too (R412). -/
def State.sweepStops (s : State) : State :=
  s.troupes.foldl (fun s t =>
    if t.run == .running && t.finish == .no && t.paths != [] && t.paths.all fun p => p.ordinary && p.wait == .preempt then
      s.discard t.id else s) s

/-- Requests for pre-emption that wait for entry routines take effect once no troupe is in one, the last having ended or
halted (R416). -/
def State.sweepPending (s : State) : State :=
  s.ens.foldl (fun s e =>
    if e.pending && e.st == .running && !(s.running e.id).any fun t => t.routine == .entry then s.startPreempt e.id else s) s

/-- The state after a step: no path issues, lines that served one agent alone leave with it, snoops whose lines are gone
are answered, stopped troupes are discarded, and merged paths go on. What keeps the control cores awake at this moment starts
their IDLE time anew (R444). -/
def State.calm (s : State) : State :=
  ((((({ s with cur := none, seenPass := 0, seenOpen := []
                pw := if s.idle then s.pw else { s.pw with idleSince := s.now } } : State).dropOnceOf s.stale).sweepSnoops).sweepPending).sweepStops).sweep

/-- What a step ends in, with the state after it. -/
def settled (o : Host.Outcome State Fault Refusal) : Host.Outcome State Fault Refusal :=
  match o with
  | .next s => .next s.calm
  | .fault f => .fault f
  | .refused f => .refused f

/-- What a path has asked for its head is given up once the head has issued: lines that served it alone, and its mailbox
request in a channel. -/
def State.endHead (s : State) (r : PathRef) : State :=
  { s.dropOnceOf fun w => w == .path r with
    channels := s.channels.map fun e => (e.1, e.2.filter fun q => q != .mail r) }

/-! ### The turns of a clock (R115, R198, R299, R396) -/

/-- Whether an instruction commits an idempotent region, once it has issued with active(i) not empty (R414). -/
def commits (i : Instr) : Bool :=
  match i with
  | .fence _ pre _ σ => pre.getLsbD 1 && σ != .tr
  | .st _ _ ord _ => ord != .weak
  | .ldv .. | .stv .. | .atom .. | .atomc .. | .red .. | .mbput .. | .mbget .. | .mbtryGet .. | .mbtryPut .. | .cpy ..
  | .gather .. | .scatter .. | .coll .. | .umcfg .. | .umrank .. | .umcommit .. | .umdirty .. | .amaxrec .. | .bar ..
  | .bararv .. => true
  | _ => false

/-- The turns that a head takes as it issues, or tries to: WAITC tests after the completions of the clock (R396), the lower
slot of a pair takes a set first, and XREL comes after the XACQs of its clock (R115). -/
def State.issueTurn (s : State) (t : Troupe) (i : Instr) : State :=
  match i with
  | .waitc _ => s.takes (.troupe t.id) 1
  | .xacq _ => s.takes (.pair t.die t.core t.part (t.slot / 2)) (t.slot % 2)
  | .xrel _ => s.takes (.pair t.die t.core t.part (t.slot / 2)) 2
  | _ => s

/-- The turns that a happening takes: a waiting XACQ as one that issues (R115), and the answer to a FWCALL before a
request for pre-emption (R198). -/
def State.eventTurn (s : State) (i : Instr) : State :=
  match i with
  | .extendedSetGrant r => (match s.troupe? r.troupe with
    | some t => s.takes (.pair t.die t.core t.part (t.slot / 2)) (t.slot % 2)
    | none => s)
  | .fwcallAnswer r => (match s.troupe? r.troupe with
    | some t => s.takes (.ens t.ens) 0
    | none => s)
  | _ => s

/-- The turns that a step has taken for a troupe that was `t` before it, by what it did: completions lower the counters
first (R396), and before a halt or a request for pre-emption (R299). -/
def State.troupeTurn (s : State) (t : Troupe) : State :=
  match s.troupe? t.id with
  | none => s
  | some u =>
    let fell := fun (c : OpClass) => decide (u.counter s.now c < t.counter s.now c)
    if t.run = .running ∧ u.run = .halted then s.takes (.ens t.ens) 1
    else
      let s := if waitClasses.any fell then s.takes (.troupe t.id) 0 else s
      if [OpClass.cp, .tm, .gt, .cl, .um].any fell then s.takes (.ens t.ens) 0 else s

/-- The turns that a step from `s0` has taken for an ensemble that was `e` before it: the release of a barrier's phase comes
before a halt and before a request for pre-emption (R198); one that a halt brings about has its turn. -/
def State.ensTurn (s0 s : State) (e : Ensemble) : State :=
  match s.ens? e.id with
  | none => s
  | some f =>
    let phases := fun (x : Ensemble) => (x.bars ++ x.sections.flatMap (·.bars)).map (·.phase)
    if e.st = .running ∧ f.st = .preempting then s.takes (.ens e.id) 1
    else if phases e ≠ phases f ∧ (s.troupes.any fun t => t.ens == e.id && t.run == .halted &&
        match s0.troupe? t.id with | some u => u.run == .running | none => false) = false then s.takes (.ens e.id) 0
    else s

/-- The turns that a step from `s` has taken, by what it did. -/
def State.turned (s u : State) : State := s.ens.foldl s.ensTurn (s.troupes.foldl State.troupeTurn u)

/-- What a step from `s` ends in: where something of this clock should have come after it, it does not take place, and
`held` stands. -/
def State.inTurn (s held : State) (o : Host.Outcome State Fault Refusal) : Host.Outcome State Fault Refusal :=
  match o with
  | .next u => if (s.turned u).late then .next held else .next (s.turned u)
  | o => o

/-- The work of the matrix instruction that a path has just issued: its operation, or its wait at a join. -/
def issuedWork (t u : Troupe) (p : PathSel) : Option MmaWork :=
  match u.ops.findSome? fun (o : Op) => match o.kind with
      | .mma w => if t.ops.any fun e => e.id == o.id then none else some w
      | _ => none with
  | some w => some w
  | none => match u.path? p with
    | some q => match q.wait with | .mmae w _ => w | _ => none
    | none => none

/-- The byte ranges of global memory that the operations just issued write by lanes. -/
def issuedWrites (t u : Troupe) : List (Nat × Nat) :=
  (u.ops.filter fun o => o.kind.writes && !t.ops.any fun e => e.id == o.id).flatMap fun o =>
    (o.kind.accs.filter fun a => match a.tgt with | .pool _ _ _ => true | _ => false).map fun a => (a.va, a.size)

/-- The operand collectors of a troupe after an issue (R274): `t` is the troupe before, `u` after. An instruction
with an empty active(i) has no effect on them; those of a path that has ended are gone. -/
def Troupe.collect (t u : Troupe) (p : Path) (i : Instr) : List Latch :=
  let held := u.latches.filter fun l => u.paths.any fun q => q.sel == l.path
  let mine := fun (l : Latch) => l.path == p.sel
  match insOf i with
  | none => held
  | some x =>
    if t.guarded (t.pathLanes p) x = 0 then held
    else match i with
      | .mma .. | .mmae .. =>
        match issuedWork t u p.sel with
        | some w =>
          let kept := (held.filter fun l => !mine l || w.takes l).map fun l => if mine l then l.renew x p.pc else l
          kept ++ w.latches x p.sel p.pc kept
        | none => held.filter fun l => !mine l
      | .tzero .. | .tmovr .. | .tmovt .. => held.filter fun l => !mine l || l.hold
      | .tld .. | .tst .. | .cpy .. | .gather .. | .scatter .. | .coll .. | .umcfg .. | .umrank .. | .umcommit ..
      | .umdirty .. | .waitc .. | .fwait .. | .ftest .. | .fcancel .. => held.filter fun l => !mine l
      | .fence _ _ post _ => held.filter fun l => !mine l || !post.getLsbD 0
      | _ =>
        let ws := issuedWrites t u
        held.filter fun l => !ws.any fun w => l.frag.meets w.1 w.2

/-- The record that the partner of a pair has just made is taken after the issued head's (R228): `t` is its troupe before
the issue, and `head` the slot of that head. -/
def Troupe.partnerRec (u t : Troupe) (head : Option Nat) : Troupe :=
  if u.recs.length = t.recs.length then u
  else { u with recs := (lenum u.recs).map fun e => if e.1 + 1 = u.recs.length then { e.2 with partner := head } else e.2 }

/-- The register reads of an instruction that find one value in every lane of the troupe (R97). -/
def Troupe.uniformReads (t : Troupe) (x : Ins) (i : Instr) : Nat :=
  let u := useOf i
  (((u.rd ++ u.un ++ u.qu).flatMap fieldRegs).filter fun r =>
    r != 511 && (List.range t.lanes.length).all fun l => t.reg l r == t.reg 0 r).length +
  ((guardsUsed x).filter fun g => (List.range t.lanes.length).all fun l => t.reg l g.toNat == t.reg 0 g.toNat).length

/-- An issue recorded and counted (R47, R52, R397). -/
def State.record_ (s : State) (h : Head) (port : Nat) (k : Pick) : State :=
  let t := h.troupe
  let e : Issued := { die := t.die, core := t.core, part := t.part, port := port, path := refOf t h.path,
                      pc := h.path.pc, slices := h.path.slices, paired := k == .partner
                      uni := match decode h.word with
                        | .ok i => (match insOf i with
                          | some x => if t.guarded (t.pathLanes h.path) x = 0 then 0 else t.uniformReads x i
                          | none => 0)
                        | .error _ => 0 }
  let head := ((s.portTaken t.die t.core t.part port).bind fun x => s.troupe? x.path.troupe).map Troupe.slot
  let old := if k = .partner then s.issued.map fun (x : Issued) =>
      if x.die == t.die && x.core == t.core && x.part == t.part && x.port == port then { x with paired := true } else x
    else s.issued
  let s : State := { s with issued := old ++ [e] }
  let s := s.countCore t.die t.core port 1
  let s := if k = .partner then s.countCore t.die t.core 0x03 1 else s
  let s := if k = .pick && h.path.isAged then s.countCore t.die t.core 0x13 1 else s
  ((s.endHead (refOf t h.path)).modPath (refOf t h.path) fun p => { p with waitCnt := 0, aged := false }).modTroupe t.id fun u =>
    let u := if k = .partner then u.partnerRec t head else u
    let u := match decode h.word with
      | .ok i =>
        let run := match insOf i with | some x => t.guarded (t.pathLanes h.path) x != 0 | none => false
        let g := if run && commits i then u.region.map (fun (g : Region) => { g with committed := true }) else u.region
        { u with latches := t.collect u h.path i, region := g }
      | .error _ => u
    u.restop h.path.sel

/-- Whether a path's head is held by its own `wait until`. -/
def State.holds (s : State) (r : PathRef) : Bool :=
  match (s.troupe? r.troupe).bind fun t => t.path? r.sel with
  | some p => p.wait == .retry
  | none => false

/-- What issuing ends in: a head that its own `wait until` holds has not issued (R48). -/
def issueEnd (h : Head) (port : Nat) (k : Pick) (o : Host.Outcome State Fault Refusal) :
    Host.Outcome State Fault Refusal :=
  settled (match o with
    | .next s => .next (if s.holds (refOf h.troupe h.path) then s else s.record_ h port k)
    | o => o)

/-! ### Issue -/

/-- The first word of a block after a spill that cut an exit routine raises 0x15 in its place, as a fault of that word
(R192, R419, R451, R452). -/
def State.overrunWord (s : State) (t : Troupe) (p : Path) (w : Slot) : State :=
  let s := s.modTroupe t.id fun t => { t with overrun := false }
  let fs := faultAll (t.pathLanes p) 0x15 0
  let r := refOf t p
  match decode w with
  | .ok (.brd x) => (s.modPath r Path.next).takeFaults r p.pc fs (p.brdUnsorted x fs)
  | .ok (.bra _) | .ok (.brc _ _) | .ok (.jmpi _ _) | .ok (.call _) | .ok (.calli _ _) | .ok (.ret _ _) => s.faultBranch r fs
  | _ => s.faultWord r fs

/-- A word at a path's head: it raises its fault at no port, or issues where its port picks it (R47–R52, R158). -/
def State.issueWord (s : State) (t : Troupe) (p : Path) (w : Slot) : Host.Outcome State Fault Refusal :=
  let r := refOf t p
  if !s.headFree t p w then .next s
  else if t.overrun && p.ordinary && t.pathLanes p != 0 then settled (.next (s.overrunWord t p w))
  else
    let s1 := { s with cur := some r }
    match portOf w with
    | none => settled (execUndefinedInstruction w s1)
    | some port =>
      let h : Head := { troupe := t, path := p, word := w }
      match s.pickOf h port with
      | .no => .next s
      | k => issueEnd h port k (match decode w with
        | .ok i => exec i (s1.issueTurn t i)
        | .error _ => execUndefinedInstruction w s1)

/-- A path fetches its head and issues it, where it may. -/
def State.issue (s : State) (r : PathRef) : Host.Outcome State Fault Refusal :=
  match s.runner r with
  | none => .next s
  | some (t, p) =>
    if s.fw.frozen || p.blk.isNone || decide (s.now < p.stall) then .next s
    else match s.fetchHead t p with
      | .waits s | .taken s => settled (.next s)
      | .slot s w => s.issueWord t p w

/-! ### Errors and mismatches (R51, R99, R100, R234, R276, R312, R407) -/

/-- An uncorrectable error comes to stand in a place; the registers are v0–v383, and there is none behind vz (R84, R86). -/
def State.upset (s : State) (u : Upset) : State :=
  match u with
  | .reg t l r => if 384 ≤ r then s else s.modTroupe t fun t => t.modLane l fun x => { x with ecc := ninsert r x.ecc }
  | .l1 d c k => s.modCore d c fun C => { C with l1 := C.l1.map fun e => if e.1 = k then (e.1, { e.2 with bad := true }) else e }
  | u => if s.errs.contains u then s else { s with errs := s.errs ++ [u] }

/-- A corrected single-bit error: of a register, or of a die's SRAM. -/
def State.corrected (s : State) (d : Nat) (c : Option Nat) : State :=
  match c with
  | some c => s.countCore d c 0x12 1
  | none => s.countDie d 0x4A 1

/-- A second mismatch: it is counted, attributed to the core, and the troupe halts with 0x13 (R407, R445). -/
def State.mismatch2 (s : State) (t : Troupe) (pc : Nat) : State :=
  ((s.countDie t.die 0x4D 1).strike t.die t.core true).halt t.id pc 0x13

/-- A mismatch of the residue check of a pass of a matrix operation: the first repeats the pass before any request for
pre-emption acts, and the second halts the troupe (R276, R299). -/
def State.residue (s : State) (troupe op : Nat) (second : Bool) : Host.Outcome State Fault Refusal :=
  match s.opOf troupe op with
  | none => .next s
  | some (t, o) =>
    let mma := match o.kind with | .mma _ => true | _ => false
    if !mma || o.working = false then .next s
    else
      let s := s.countDie t.die 0x4C 1
      settled (.next (if second then
          ((s.mismatch2 t o.pc).modOp t.id o.id fun o => { o with done := true }).prune t.id
        else s.takes (.ens t.ens) 0))

/-- The words of port A that a poisoned register stops in every lane (R101, R220, R224, R225). -/
def wholeWord (i : Instr) : Bool :=
  match i with
  | .blkscale .. | .amaxrec .. | .amaxrd .. | .pack6 _ | .unpack6 _ | .pack4 _ | .unpack4 _ => true
  | _ => false

/-- Whether an issued word, whose troupe was `t` and path `p` before, has executed in some lane: no fault of R158 has come
before that in every lane, and no halt or wait (R204). -/
def State.executed (s : State) (t : Troupe) (p : Path) (i : Instr) : Bool :=
  match s.troupe? t.id, insOf i with
  | some u, some x =>
    let hit := (List.range 8).foldl (fun (m : Word) k =>
      if (u.slice k).st = .inHandler ∧ (t.slice k).st ≠ .inHandler then m ||| (u.slice k).fmask else m) 0
    u.run == .running && u.finish == .no && !s.holds (refOf t p) &&
      if wholeWord i then hit == 0 else t.guarded (t.pathLanes p) x &&& ~~~hit != 0
  | _, _ => false

/-- The records that an instruction has just made take effect after the clock of its retry (R228). -/
def Troupe.retryRecs (u t : Troupe) (now : Nat) : Troupe :=
  { u with recs := (lenum u.recs).map fun e => if t.recs.length ≤ e.1 then { e.2 with from_ := now + 2 } else e.2 }

/-- A mismatch of the double issue of a path's head of port A that executes (R204): the first one retries, and delays the
path's next head by the retry; the second halts the troupe, with nothing written. -/
def State.mismatch (s : State) (r : PathRef) (second : Bool) : Host.Outcome State Fault Refusal :=
  match s.runner r with
  | none => .next s
  | some (t, p) =>
    match s.headWord t p with
    | none => .next s
    | some w =>
      let h : Head := { troupe := t, path := p, word := w }
      match decode w, portOf w, s.pickOf h 0, s.issueWord t p w with
      | .ok i, some 0, k, .next u =>
        if k = .no ∨ s.headFree t p w = false ∨ u.executed t p i = false then .next s
        else if second then
          settled (.next (((s.record_ h 0 k).countCore t.die t.core 0x09 1).mismatch2 t p.pc))
        else
          .next (((u.countCore t.die t.core 0x09 1).modPath r fun q => { q with stall := q.stall + 1 }).modTroupe t.id
            fun v => v.retryRecs t s.now)
      | _, _, _, _ => .next s

/-- Whether two operations of a troupe may share a pass: MMAs that one path has issued within 4 clocks, with the same
format block, k0 and n0 of the quarters (R274). -/
def mayFuse (a b : Op) (q r : Nat) : Bool :=
  match a.kind, b.kind with
  | .mma v, .mma w =>
    a.working && b.working && a.by_ == b.by_ && a.own.head?.isSome && a.own.head? == b.own.head? &&
      (match a.at_, b.at_ with | some x, some y => decide (x ≤ y + 4 ∧ y ≤ x + 4) | _, _ => false) && v.fbAddr == w.fbAddr && v.fb == w.fb && v.k0 == w.k0 &&
      (a.id != b.id || q != r) &&
      match v.quarters.find? fun e => e.q == q, w.quarters.find? fun e => e.q == r with
      | some x, some y => x.n0 == y.n0 && !x.fused
      | _, _ => false
  | _, _ => false

/-- A quarter joins the pass of another, which FUSE counts and nothing else shows (R274, R397). -/
def State.fuse (s : State) (troupe op q op2 q2 : Nat) : State :=
  match s.opOf troupe op, s.opOf troupe op2 with
  | some (t, a), some (_, b) =>
    if mayFuse a b q q2 then
      (s.modOp troupe op fun o =>
        { o with kind := o.kind.withQuarters fun v => if v.q = q then { v with fused := true } else v }).countCore
        t.die t.core 0x0A 1
    else s
  | _, _ => s

/-- Register reads of an instruction that the uniform store has served: of registers with one value in every lane (R97,
R397). -/
def State.uniform (s : State) (r : PathRef) (n : Nat) : State :=
  match s.issued.find? fun e => e.path == r with
  | some e => if n = 0 ∨ e.uni < n then s
    else { s.countCore e.die e.core 0x0B n with
      issued := s.issued.map fun x => if x.path = r then { x with uni := 0 } else x }
  | none => s

/-- Bytes at an engine address that an operation reads before their turn (R354): of those that it reads and has not. -/
def State.readAhead (s : State) (t : Troupe) (o : Op) (va n : Nat) : State :=
  if o.working = false ∨ (o.kind.sources.any fun r => decide (r.1 ≤ va ∧ va + n ≤ r.1 + r.2)) = false then s
  else match s.opRead t o va n with
    | .bytes v bs => (v.modOp t.id o.id fun o =>
        { o with pre := (lenum bs).foldl (fun m e => mput (va + e.1) e.2 m) o.pre }).saw t.id o.id
    | .waits v _ => s.opWaits v t.id o.id none
    | .fault _ _ _ => s

/-! ### A clock -/

/-- The wait count of a path after a clock: one more where its head was ready and has not issued (R49). The head of a port
that takes nothing in a clock was not ready: the unit behind the port did not accept it (R48), unless the slot was
withheld (R442). -/
def State.waited (s : State) (t : Troupe) (p : Path) : Path :=
  match (s.headWord t p).bind fun w => (portOf w).map fun port => (w, port) with
  | some (w, port) =>
    if p.wait == .none && s.headFree t p w && !s.hasIssued (refOf t p) &&
        ((s.portTaken t.die t.core t.part port).isSome || s.withheld t.die port) then { p with waitCnt := p.waitCnt + 1 }
    else p
  | none => p

/-- A troupe after a clock: wait counts, heads to be tried again, and the mask that MASKGET reads (R49, R180). -/
def State.troupeTick (s : State) (t : Troupe) : Troupe :=
  if t.run = .running ∧ s.onCores t = true then
    { t with
      prevEnable := t.enable, mrowOld := none, mrowSet := 0
      paths := t.paths.map fun p =>
        let p := s.waited t p
        if p.wait = .retry then { p with wait := .none } else p }
  else { t with mrowOld := none, mrowSet := 0 }

/-- Whether a slice of an ensemble is Stopped, so that its bound does not run (R409). -/
def State.stoppedEns (s : State) (ens : Nat) : Bool :=
  (s.running ens).any fun t => t.slicesIn .stopped != 0

/-- A path's number changed where others name it: at mailbox words, in the channels and in requests for lines. -/
def State.renumberPath (s : State) (id a b : Nat) : State :=
  let old : PathRef := { troupe := id, sel := .ord a }
  let new : PathRef := { troupe := id, sel := .ord b }
  let who := fun (w : Asker) => if w = .path old then Asker.path new else w
  { s with
    channels := s.channels.map fun e => (e.1, e.2.map fun q => if q = .mail old then .mail new else q)
    dies := s.dies.map fun D => { D with
      mbox := D.mbox.map fun e => (e.1, { e.2 with waiters := e.2.waiters.map fun w => if w = .path old then .path new else w })
      reqs := D.reqs.map fun r => { r with who := who r.who }
      l2 := D.l2.map fun e => (e.1, { e.2 with once := e.2.once.map who }) } }

/-- At the end of a clock a troupe with one path and an empty stack is ganged, and the path is path 0 (R31). -/
def State.gangTick (s : State) (t : Troupe) : State :=
  if t.run ≠ .running then s
  else if t.gang then
    let apart := (List.range 16).any fun k => match s.ens? t.ens with
      | some e => (e.bar t.sec k).partial_.any fun x => x.1 == t.id && x.2.1 != 0
      | none => false
    if apart then (s.modEns t.ens fun e => e.gang t.sec t.id none).sweepBars t.ens else s
  else match t.whole, t.ordPaths with
    | true, [p] =>
      ((((s.renumberPath t.id p.number 0).modTroupe t.id fun t => { t.renumber p.number 0 with gang := true })).modEns t.ens
        fun e => e.gang t.sec t.id (some p.number)).sweepBars t.ens
    | _, _ => s

/-- The nodes of running GRAPHs whose counters have reached 0 in the clock start, in increasing order (R370, R393). -/
def State.startNodes (s : State) : State :=
  s.graphs.foldl (fun s g => match s.cmd? g.cmd with | some c => s.startReady c | none => s) s

/-- LEASE_WAIT counts each fill that has waited for a horizon through the clock (R308, R397); one that has come, or that finds
a line to replace, waits no more. -/
def State.countHeld (s : State) : State :=
  (List.range 4).foldl (fun s d =>
    let h := (s.die d).held.filter fun ln =>
      (s.line? d ln).isNone && s.full d && (s.die d).l2.all fun e => decide (s.now ≤ e.2.horizon)
    if (s.die d).held = [] then s
    else (s.modDie d fun D => { D with held := h }).countDie d 0x46 h.length) s

/-- Words at heads that go to no port raise their faults in the first clock that meets their conditions (R47). -/
def State.portless (s : State) : State :=
  s.troupes.foldl (fun s t => t.paths.foldl (fun s p =>
    match (s.troupe? t.id).bind fun u => (u.path? p.sel).bind fun q => (s.headWord u q).map fun w => (u, q, w) with
    | some (u, q, w) => if (portOf w).isNone && q.pc == p.pc then
        match s.issueWord u q w with | .next v => v | _ => s
      else s
    | none => s) s) s

/-- One clock of the 1.8 GHz clock (R3, R31, R49, R180, R371, R372, R411). -/
def State.tick (s : State) : State :=
  if s.fw.frozen || s.fw.resetDue then { s with now := s.now + 1, issued := [], turns := [], late := false }
  else
    let s := s.portless
    let s : State := { s with
      now := s.now + 1, issued := [], turns := [], late := false
      troupes := s.troupes.map s.troupeTick
      ens := s.ens.map fun (e : Ensemble) =>
        if e.st = .preempting ∧ s.stoppedEns e.id = false then { e with bound := e.bound + 1 } else e
      pw := { s.pw with withhold := false, idleSince := if s.idle then s.pw.idleSince else s.now + 1 } }
    let s := ((s.troupes.foldl State.gangTick s).startNodes.placerClock.unmapSaves).failDue.countHeld
    let s := s.troupes.foldl (fun s t => if t.ops = [] then s else s.prune t.id) s
    ((s.ens.filter fun e => e.st == .preempting).foldl (fun s e => s.settleEns e.id) s).sweep

/-! ### One choice of the agenda -/

/-- The steps that remain possible while the control cores are reset: those of recovery mode, of the wires and
of the pool (R431, R441). -/
def aliveFrozen (i : Instr) : Bool :=
  match i with
  | .deviceReset .. | .submitterAdmission .. | .commandArrival .. | .unknownOp .. | .commandStart _
  | .commandComplete _ | .signalDrain _ | .ident _ | .attest _ | .readback _ | .fwstage _ | .fwcommit _
  | .fwcommitCommitPoint | .reset _ | .submitterPoolWrite .. | .watchdogExpiry _ | .thermalShutdown _
  | .thermalRecover _ => true
  | _ => false

/-- Whether a happening may take place now: a RESET that is Complete leaves only the device reset (R428, R430). -/
def State.allows (s : State) (i : Instr) : Bool :=
  isHappening i &&
    (if s.fw.resetDue then (match i with | .deviceReset .. => true | _ => false)
     else !s.fw.frozen || aliveFrozen i)

/-- A path's head is held until the next clock; no unit holds a word that goes to no port (R47, R48). -/
def State.busy (s : State) (r : PathRef) : State :=
  let free := match (s.troupe? r.troupe).bind fun t => (t.path? r.sel).bind fun p => s.headWord t p with
    | some w => (portOf w).isNone
    | none => false
  if free then s else s.modPath r fun q => if q.wait = .none then { q with wait := .retry } else q

/-- A happening takes place, in its turn. One that changes nothing takes no turn. -/
def State.happen (s : State) (i : Instr) : Host.Outcome State Fault Refusal :=
  let s0 := { s with cur := none }
  match exec i s0 with
  | .next u => if u = s0 then .next s else s.inTurn s (settled (.next (u.eventTurn i)))
  | o => o

/-- A clock in which the %clock of a die goes on by none or by two, so that it comes to stand `k` before the others' least
(R107). -/
def State.skewTick (s : State) (d k : Nat) : State :=
  let old := (s.die d).skew
  if k ≤ 2 ∧ k ≤ old + 1 ∧ old ≤ k + 1 then s.tick.modDie d fun D => { D with skew := k } else s

/-- A line leaves a cache of a core, its L1 or its instruction cache (R300, R307). -/
def State.replace (s : State) (d c : Nat) (code : Bool) (key : Nat) : State :=
  s.modCore d c fun C => if code then { C with icache := mdel key C.icache } else { C with l1 := mdel key C.l1 }

/-- What one choice does. A choice that the machine does not allow now changes nothing, and while the device is frozen its
troupes, memories and counters stand (R441). -/
def State.act (s : State) (a : Act) : Host.Outcome State Fault Refusal :=
  let stopped := s.fw.resetDue || s.fw.frozen
  match a with
  | .event i => if s.allows i then s.happen i else .next s
  | .issue p => if s.fw.resetDue then .next s else s.inTurn (s.busy p) (s.issue p)
  | .busy p => .next (if stopped then s else s.busy p)
  | .tick => .next s.tick
  | .skew d k => .next (if stopped then s.tick else s.skewTick d k)
  | .upset u => .next (if stopped then s else s.upset u)
  | .corrected d c => .next (if stopped then s else s.corrected d c)
  | .mismatch p b => if stopped then .next s else s.inTurn s (s.mismatch p b)
  | .residue t o b => if stopped then .next s else s.inTurn s (s.residue t o b)
  | .row t o q b => if stopped then .next s else s.inTurn s (settled (.next (s.rowMma t o q b)))
  | .reuse t o => if stopped then .next s else s.inTurn s (settled (.next (s.endMma t o true)))
  | .part t o k => if stopped then .next s else s.inTurn s (settled (.next (s.partAhead t o k)))
  | .replace d c b k => .next (if stopped then s else s.replace d c b k)
  | .ahead t o a n => if stopped then .next s else s.inTurn s (settled (.next (match s.opOf t o with
    | some (u, o) => s.readAhead u o a n | none => s)))
  | .fuse t o q o2 q2 => .next (if stopped then s else s.fuse t o q o2 q2)
  | .uniform p n => .next (if stopped then s else s.uniform p n)

/-! ### An empty agenda (log 40) -/

/-- The steps that may end an operation of a troupe. -/
def opActs (t : Troupe) (o : Op) : List Act :=
  (if o.waitPage.isSome then [Act.event (.pageWaitResume t.id o.id)] else []) ++
    (match o.kind with
    | .load .. => [.event (.loadReturn t.id o.id 0xFFFFFFFF true), .event (.loadReturn t.id o.id 0xFFFFFFFF false)]
    | .atom _ _ _ (some _) _ | .atomc .. => [.event (.loadReturn t.id o.id 0xFFFFFFFF false)]
    | .atom _ _ _ none _ | .store .. | .cline .. => [.event (.storePerformed t.id o.id 0xFFFFFFFF)]
    | .mma _ => [.event (.mmaComplete t.id o.id)]
    | .tzero .. | .tld .. | .tst .. | .tmovr .. => [.event (.tileOpComplete t.id o.id)]
    | .cpy _ _ _ len _ _ => [.event (.cpyDelivery t.id o.id (len / 16)), .event (.cpyTransferComplete t.id o.id)]
    | .gather _ _ _ n _ _ | .scatter _ _ _ n _ _ => [.event (.gatherScatterComplete t.id o.id n)]
    | .coll .. => [.event (.collComplete t.id o.id [] false), .event (.collComplete t.id o.id [] true)]
    | .um _ k _ w => [.event (.umCommandComplete w.die k)])

/-- The steps that may end a path's wait. -/
def waitActs (t : Troupe) (p : Path) : List Act :=
  match p.wait with
  | .sleep _ => [.event (.sleepExpiry (refOf t p))]
  | .fence .. => [.event (.fenceRelease (refOf t p))]
  | .xacq => [.event (.extendedSetGrant (refOf t p))]
  | .fwcall .. => [.event (.fwcallAnswer (refOf t p))]
  | _ => []

/-- The first touches that something waits for (R318, R386, R408). -/
def State.touchActs (s : State) : List Act :=
  s.troupes.flatMap fun t =>
    let sid := s.sidOf t
    (t.ops.filterMap (·.waitPage) ++ ((s.ens? t.ens).bind (·.waitPage)).toList ++
      (t.paths.filter Path.inHandler).flatMap fun p => match p.sel with
        | .handler k => if (t.slice k).fcode.toNat % 256 = 0x07 then
            (lanesOf (t.slice k).fmask).map fun l => (t.lane l).faddr.toNat else []
        | .ord _ => []).map fun va => .event (.pageFirstTouchFill sid va)

/-- The answers that the pool's switches owe a die (R324), and lines that may answer a snoop or make room in a full
slice. -/
def State.switchActs (s : State) : List Act :=
  (List.range 4).flatMap fun d => ((s.die d).reqs.flatMap fun r => match r.kind with
    | .rdS => [Act.event (.gntS d ⟨r.line, r.tag⟩ [])]
    | .rdX => [.event (.gntE d ⟨r.line, r.tag⟩ [])]
    | .upg => [.event (.cmp d ⟨r.line, r.tag⟩), .event (.gntE d ⟨r.line, r.tag⟩ [])]
    | .wb | .evc => [.event (.cmp d ⟨r.line, r.tag⟩)]) ++
    ((s.die d).snoops.map Snoop.line ++ if s.full d then (s.die d).l2.map (·.1) else []).map fun ln =>
      .event (.horizonPass d ln)

/-- Requests that stand in the channels between dies (R350). -/
def State.channelActs (s : State) : List Act :=
  s.channels.filterMap fun e => if e.2 = [] then none else some (.event (.dieChannelDelivery (e.1 / 4) (e.1 % 4)))

/-- The effect of a command, by its OP (R360). -/
def effectOf (c : Command) : List Instr :=
  match c.op with
  | 0x01 => [.launch c.id, .launchAdmission c.id]
  | 0x02 => [.graph c.id]
  | 0x03 => [.signal c.id]
  | 0x04 => [.query c.id]
  | 0x05 => [.cancel c.id]
  | 0x10 => [.nodes c.id]
  | 0x11 => [.nodefree c.id]
  | 0x12 => [.map c.id]
  | 0x13 => [.unmap c.id]
  | 0x14 => [.protect c.id]
  | 0x15 => [.ringallot c.id]
  | 0x16 => [.ringfree c.id]
  | 0x17 => [.group c.id]
  | 0x18 => [.groupfree c.id]
  | 0x20 => [.ident c.id]
  | 0x21 => [.attest c.id]
  | 0x22 => [.handler c.id]
  | 0x23 => [.depgrant c.id]
  | 0x24 => [.telem c.id]
  | 0x25 => [.readback c.id]
  | 0x26 => [.ckpt c.id]
  | 0x27 => [.ckptload c.id]
  | 0x28 => [.fwstage c.id]
  | 0x29 => [.fwcommit c.id, .fwcommitCommitPoint]
  | 0x2A => [.power c.id]
  | 0x2B => [.wakefilt c.id]
  | 0x2C => [.setparam c.id]
  | 0x2D => [.mode c.id]
  | 0x2E => [.reset c.id]
  | 0x2F => [.load c.id]
  | _ => []

/-- The steps of the commands that stand, of the launches, of membership tables and of the placer. -/
def State.serviceActs (s : State) : List Act :=
  ((s.cmds.filter fun c => c.st != .complete).flatMap fun c =>
      (.commandStart c.id :: effectOf c) ++ [.commandComplete c.id, .signalDrain c.id]).map Act.event ++
    ((s.launches.filter fun l => !l.complete).flatMap fun l =>
      [Instr.tlimitExpiry l.id, .launchComplete l.id]).map Act.event ++
    (s.groups.flatMap fun g => Instr.groupFormTimeout g.num ::
      (List.range g.members.length).map fun k => Instr.memberSessionTimeout g.num k).map Act.event ++
    [.event .placement, .event .placerStarvationHold, .event .placerPreemptRequest, .event .wakeReplay, .event .idleGate] ++
    (List.range 4).flatMap fun d =>
      ((s.die d).strikes.map fun k => Act.event (.coreRetirement d k.phys)) ++
        ((s.die d).faulty.map fun e => .event (.coreRetirement d e.2)) ++
        (if (s.die d).recovering = [] then [] else [.event (.coherenceRecoveryEnd d)])

/-- The steps of troupes and ensembles that no path issues (R23, R25, R411). -/
def State.ensActs (s : State) : List Act :=
  (s.ens.filter Ensemble.resident).flatMap (fun e => [Act.event (.blockRefill e.id), .event (.pboundExpiry e.id)]) ++
    s.troupes.filterMap fun t => if t.run = .running then some (.event (.troupeIdleRefill t.id)) else none

/-- The paths of some troupes that enter a header, or fetch. -/
def State.entryActs (s : State) (ts : List Troupe) : List Act :=
  ts.flatMap fun t => t.paths.flatMap fun p =>
    let r := refOf t p
    if p.blk.isNone then [Act.event (.headerEntry r)]
    else if (s.headWord t p).isNone && decide (p.stall ≤ s.now) then [.event (.demandFetch r), .issue r] else []

/-- The paths of some troupes whose heads may issue, by port: those that take none, then A, B and C (R50). -/
def State.portActs (s : State) (ts : List Troupe) : List Act :=
  let hs := ts.flatMap fun t => t.paths.filterMap fun p =>
    match s.headWord t p with
    | some w => if decide (s.now < p.stall) then none else some (portOf w, refOf t p)
    | none => none
  [none, some 0, some 1, some 2].flatMap fun port => hs.filterMap fun e =>
    if e.1 == port then some (Act.issue e.2) else none

/-- Everything that an empty agenda tries, in order. -/
def State.idleActs (s : State) : List Act :=
  if s.fw.resetDue then
    match s.fw.flash with
    | [a, b, c] => [.event (.deviceReset a b c)]
    | _ => []
  else
    let ts := s.troupes.filter fun t => t.run == .running
    s.troupes.flatMap (fun t => t.ops.flatMap (opActs t)) ++
      (s.troupes.filter fun t => t.recs != []).map (fun t => Act.event (.amaxrecRecord t.id)) ++
      ts.flatMap (fun t => t.paths.flatMap (waitActs t)) ++ s.channelActs ++ s.switchActs ++ s.touchActs ++
      s.serviceActs ++ s.ensActs ++ s.entryActs ts ++ s.portActs ts

/-- The first of some choices that changes the state; a clock where none does. -/
def State.firstAct (s : State) : List Act → Host.Outcome State Fault Refusal
  | [] => .next s.tick
  | a :: as => match s.act a with
    | .next s' => if s' = s then State.firstAct s as else .next s'
    | o => o

/-- One step of the machine: the agenda's next choice, or, where it is empty, the first thing that can happen. -/
def State.stepOnce (s : State) : Host.Outcome State Fault Refusal :=
  match s.agenda with
  | a :: rest => ({ s with agenda := rest } : State).act a
  | [] => s.firstAct s.idleActs

/-! ### A word placed for the next step (log 3) -/

/-- The page in which `placeWord` puts its block, with its pool memory at the same address. -/
def wordPage : Nat := 0x10000

/-- A header with LEN = 1 (R154). -/
def wordHeader : Slot := 0x100

/-- The launch whose kernel is the block of `placeWord`. -/
def wordLaunch (id sid : Nat) : Launch :=
  { id := id, sid := sid, cmd := 0, tag := 0, admitted := true, entry := wordPage, lhdr := 0,
    hdr := { LaunchHeader.empty with chan := 8, fields := 2, widths := [5], tlv := 1 }, base := 0, next := 32, stop := 32,
    handedOut := 32, chipUnits := 0, chip := [], mboxFirst := 0, mboxCount := 0, dies := 0xF, grants := [], maxEns := 0,
    tlimit := 0, firstPlaced := some 0, handler := Config.standardHandler, nextNum := 1, debugger := none, trace := [],
    endStatus := none, halts := [], complete := false }

/-- The ensemble of one troupe in core 0 of die 0. -/
def wordEns (id launch troupe : Nat) : Ensemble :=
  { id := id, launch := launch, num := 0, st := .running, die := 0, cluster := 0, offset := 0,
    sections := [Section.new 0 8], bars := List.replicate 8 Barrier.new, troupes := [troupe], bound := 0, boundMax := 0,
    pending := false, lastRefill := false, spilled := false, fetchSpill := false, waitPage := none, endOnSwap := false,
    placedAt := 0 }

/-- A troupe with 32 Live lanes whose path 0 stands at the word after the header. -/
def wordTroupe (id ens now : Nat) : Troupe :=
  let t := ((Troupe.new id ens 0 { sec := 0, idx := 0, core := 0, part := 0, slot := 0 }).takeFirst 1 0 32).begin
    wordPage now
  t.modPath (.ord 0) fun p =>
    { p with blk := some { hdr := wordPage, len := 1, rcv := 0 }, pc := wordPage + 16, last := wordPage, stall := 0 }

/-- A word stored where the next step fetches: in a block of one word, at which a new troupe of a new launch stands,
alone in its partition, with the agenda's next choice its issue. -/
def State.placeWord (s : State) (w : Slot) : State :=
  let n := s.fresh
  let pte : Pte := { size := 65536, kind := .priv, r := true, w := true, x := true, home := some 0, pin := true,
                     res := true, pa := wordPage, walked := 0 }
  let sub : Submitter := { sid := n, addr := 0, operator := false, pages := [(wordPage, pte)],
                           handler := Config.standardHandler, queues := [] }
  let ln := wordPage / 128
  let s := s.modDie 0 fun D =>
    { D with hot := false, l2 := mdel ln D.l2
             cores := D.cores.map fun e =>
               if e.1 = 0 then (e.1, { e.2 with icache := mdel (codeKey 0 wordPage) e.2.icache }) else e }
  { s with
    agenda := .issue { troupe := n, sel := .ord 0 } :: s.agenda
    cur := none, issued := [], turns := [], late := false, fresh := n + 3
    pool := (s.pool.write wordPage (bytesOfSlot wordHeader)).write (wordPage + 16) (bytesOfSlot w)
    errs := s.errs.filter fun u => match u with
      | .code 0 0 k => k != codeKey 0 wordPage
      | .line 0 k => k != ln
      | _ => true
    subs := sub :: s.subs
    launches := wordLaunch (n + 2) n :: s.launches
    ens := wordEns (n + 1) (n + 2) n :: s.ens
    troupes := wordTroupe n (n + 1) s.now :: s.troupes.filter fun t => !(t.die == 0 && t.core == 0 && t.part == 0)
    fw := { s.fw with frozen := false, resetDue := false }
    pw := { s.pw with withhold := false } }

end Sys2Proof.Machine
end

