-- ==== Sys2Proof/Machine/Step.lean ====
section
/-! DEFINITION. One step of the machine, and a word placed where the next step fetches. -/

namespace Sys2Proof.Machine

/-- One step: the agenda's next choice, or, where the agenda is empty, the first thing that can happen, or a
clock (log 40). -/
def step (s : State) : Host.Outcome State Fault Refusal := s.stepOnce

/-- The state whose very next step runs the instruction with the bits `w`, those above `nbits` being 0. -/
def State.withFetchWord (s : State) (nbits w : Nat) : State := s.placeWord (BitVec.ofNat 128 (w % 2 ^ nbits))

end Sys2Proof.Machine
end

