-- ==== Sys2Proof/Machine/Claims.lean ====
section
/-! DEFINITION. The words that statements about the machine use: when a path issues an instruction, when the
checks before its effect pass, what a register write leaves in a register, and what an instruction leaves as it
was. -/

namespace Sys2Proof.Machine

/-- A path of a running troupe issues the instruction at its head (R47). -/
abbrev State.Issues (s : State) (t : Troupe) (p : Path) : Prop :=
  s.cur = some (refOf t p) ∧ s.troupe? t.id = some t ∧ t.path? p.sel = some p ∧ t.run = .running

/-- Rows 6 to 9 of R158 pass over the lanes `lanes`, and no lane reads a poisoned register: `act` is what the guard
leaves of them, it is not empty, the operand codes are legal, the extended set is held where it is named, no
source carries an uncorrectable error, and the uniform operands are uniform (R33, R85, R91, R100, R101, R159). -/
abbrev PassesOn (t : Troupe) (lanes : Word) (x : Ins) (u : Use) (act : Word) : Prop :=
  (guardsUsed x).any badCode = false ∧ t.guarded lanes x = act ∧ act ≠ 0 ∧
    illegalOperand x u = false ∧ (namesExt x u = true → t.holdsExt = true) ∧ t.consumed x u act = 0 ∧
    t.poisoned x u act = 0 ∧ t.uniform u act = true

/-- The same over A(p): `act` is active(i). -/
abbrev Passes (t : Troupe) (p : Path) (x : Ins) (u : Use) (act : Word) : Prop := PassesOn t (t.pathLanes p) x u act

/-- What a register holds after some writes, in order. -/
def regAfter (ws : List (Nat × Word)) (q : Nat) (v : Word) : Word :=
  ws.foldl (fun v w => if w.1 = q then w.2 else v) v

/-- Nothing outside one troupe has changed, but for the event counters and the error logs of the dies. -/
abbrev State.SameBut (s s' : State) (id : Nat) : Prop :=
  s' = { s with troupes := s'.troupes, dies := s'.dies } ∧
    (∀ j, j ≠ id → s'.troupe? j = s.troupe? j) ∧ ∀ d, s'.die d = { s.die d with ev := (s'.die d).ev, errlog := (s'.die d).errlog }

/-- Of a lane nothing but registers, and their poison and error marks, has changed. -/
abbrev Lane.SameBut (l l' : Lane) : Prop := l' = { l with regs := l'.regs, poison := l'.poison, ecc := l'.ecc }

/-- Of a troupe nothing but its lanes and the path of the instruction has changed; that path stands at the
next word, with its scheduling fields set (R48, R49, R143). -/
abbrev Troupe.WentOn (t t' : Troupe) (p : Path) (now : Nat) (x : Ins) : Prop :=
  t' = { t with lanes := t'.lanes, paths := t'.paths } ∧ t'.path? p.sel = some (p.issued now x).next ∧
    ∀ q, q ≠ p.sel → t'.path? q = t.path? q

/-- An instruction completes as a write of registers: where the checks pass and `pre` holds, it answers a next
state in which each lane of active(i) holds `res` in the registers that it writes, vz reads 0, and every other
register, lane, path, troupe and memory is as before. A path that executes one instruction again for its slice
(R192) ends with it; any other path goes on to the next word. -/
def Results (i : Instr) (x : Ins) (u : Use) (pre : State → Troupe → Path → Word → Prop)
    (res : State → Troupe → Path → Word → Nat → List (Nat × Word)) : Prop :=
  ∀ s t p act, s.Issues t p → Passes t p x u act → pre s t p act →
    ∃ s' t', exec i s = .next s' ∧ s'.troupe? t.id = some t' ∧
      (∀ l q, t'.reg l q = if q = 511 then 0
        else if act.getLsbD l = true then regAfter (res s t p act l) q (t.reg l q) else t.reg l q) ∧
      (∀ l, (t.lane l).SameBut (t'.lane l)) ∧ (p.retry = false → t.WentOn t' p s.now x) ∧ s.SameBut s' t.id

/-- The same for an instruction whose lanes each read their own registers only. -/
def LaneResults (i : Instr) (x : Ins) (u : Use) (res : (Nat → Word) → List (Nat × Word)) : Prop :=
  Results i x u (fun _ _ _ _ => True) fun _ t _ _ l => res (t.reg l)

/-- Every register of every lane reads as before. -/
abbrev Troupe.SameRegs (t t' : Troupe) : Prop := ∀ l q, t'.reg l q = t.reg l q

/-- In the lanes of a mask some registers are written, `f l` giving those of a lane in order; vz reads 0, and every
other register reads as before. -/
def Troupe.Wrote (t t' : Troupe) (m : Word) (f : Nat → List (Nat × Word)) : Prop :=
  ∀ l r, l < t.lanes.length → t'.reg l r =
    if r = 511 then 0 else if m.getLsbD l = true then regAfter (f l) r (t.reg l r) else t.reg l r

/-- Every path of a troupe but one is as before. -/
abbrev Troupe.OtherPaths (t t' : Troupe) (p : PathSel) : Prop := ∀ q, q ≠ p → t'.path? q = t.path? q

/-- An instruction completes: where the checks pass and `pre` holds, it answers a next state of which, and of the
issuing troupe in it, `post` holds. -/
def Completes (i : Instr) (x : Ins) (u : Use) (pre : State → Troupe → Path → Word → Prop)
    (post : State → Troupe → Path → Word → State → Troupe → Prop) : Prop :=
  ∀ s t p act, s.Issues t p → Passes t p x u act → pre s t p act →
    ∃ s' t', exec i s = .next s' ∧ s'.troupe? t.id = some t' ∧ post s t p act s' t'

/-- The path that issued an instruction stands at the next word, and every other path of the troupe is as before. A
path that executes one instruction again for its slice (R192) ends with it instead. -/
abbrev Troupe.Onward (t t' : Troupe) (p : Path) (now : Nat) (x : Ins) : Prop :=
  p.retry = false → t'.path? p.sel = some (p.issued now x).next ∧ t.OtherPaths t' p.sel

/-- The same with every register of every lane as before: what an instruction does that writes none. -/
abbrev Troupe.OnwardOnly (t t' : Troupe) (p : Path) (now : Nat) (x : Ins) : Prop :=
  t.Onward t' p now x ∧ t.SameRegs t'

/-- A path that has issued an instruction waits at it (R48), and every other path of its troupe and every register
is as before. -/
abbrev Troupe.Waits (t t' : Troupe) (p : Path) (now : Nat) (x : Ins) (w : Wait) : Prop :=
  t'.path? p.sel = some { p.issued now x with wait := w } ∧ t.OtherPaths t' p.sel ∧ t.SameRegs t'

/-- The head of a path is not ready, and has no effect: it is tried again (R48). -/
abbrev Troupe.Holds (t t' : Troupe) (p : Path) : Prop :=
  t'.path? p.sel = some { p with wait := .retry } ∧ t.OtherPaths t' p.sel ∧ t.SameRegs t'

/-- A branch that moves its path whole (R169): where it is taken to `a`, the checks of R157 pass and the slot at `a` is
not awaited from a switch or for room in its slice (R157, R311, R323), its path stands before the header at `a`; where it is not taken, at the next word. With `link` each lane of active(i) holds
PC + 16 in the pair D. Every other register and path is as before, and so are the slices and the stack of this
path. `p.retry` is set for a slice that executes one instruction again (R192), which leaves the branch to its path
(R452). -/
def Jumps (i : Instr) (x : Ins) (u : Use) (link : Bool) (target : Troupe → Path → Word → Option Int) : Prop :=
  Completes i x u
    (fun s t p act => p.retry = false ∧ ∀ a, target t p act = some a →
      s.checkTarget t a = .ok ∧ s.targetWaits t (.path (refOf t p)) a = none)
    fun _ t p act _ t' => ∃ q, t'.path? p.sel = some q ∧
      (match target t p act with
        | some a => (q.pc : Int) = a ∧ q.blk = none
        | none => q.pc = p.pc + 16) ∧
      q.slices = p.slices ∧ q.stack = p.stack ∧ t.OtherPaths t' p.sel ∧
      (∀ l r, t'.reg l r = if r = 511 then 0 else if (link && act.getLsbD l) = true then
        regAfter (wr2 x.d (BitVec.ofNat 64 (p.pc + 16))) r (t.reg l r) else t.reg l r) ∧
      ∀ l, (t.lane l).SameBut (t'.lane l)

/-- Whether a slice has a lane in a mask. -/
def slicePresent (act : Word) (k : Nat) : Bool := (List.range 4).any fun j => act.getLsbD (4 * k + j)

/-- Whether every lane of a slice in a mask satisfies `c`. -/
def sliceAll (act : Word) (c : Nat → Bool) (k : Nat) : Bool :=
  (List.range 4).all fun j => !act.getLsbD (4 * k + j) || c (4 * k + j)

/-- A fault that an instruction of a path raises in the lanes `m`, with an address for each, is delivered to handler paths
(R191, R404): each slice with a lane of `m` is In handler, its fault registers are written, and its handler path stands
before the handler's header with an empty stack; every other slice is as before. -/
def InHandlers (s : State) (t : Troupe) (p : Path) (m : Word) (code : Nat) (addr : Nat → Nat) (stamp : Nat)
    (s' : State) (t' : Troupe) : Prop :=
  (∀ k, k < 8 → slicePresent m k = true →
    (t'.slice k).st = .inHandler ∧ (t'.slice k).fcode = BitVec.ofNat 32 code ∧
    (t'.slice k).fpc = BitVec.ofNat 64 p.pc ∧ (t'.slice k).fmask = m &&& sliceLanes (sliceBit k) ∧
    (t'.slice k).forig = 0 ∧
    ∃ h ∈ t'.path? (.handler k), h.pc = s.handlerOf t ∧ h.blk = none ∧ h.stack = [] ∧ h.stamp = stamp ∧
      h.slices = sliceBit k) ∧
  (∀ k, k < 8 → slicePresent m k = false → t'.slice k = t.slice k) ∧
  (∀ l, l < t.lanes.length → (t'.lane l).faddr =
    if m.getLsbD l = true then BitVec.ofNat 64 (addr l) else (t.lane l).faddr) ∧
  s'.pool = s.pool

/-- The same where every register is as before and the other slices of the path hold at `stay`. -/
def DeliveredAt (s : State) (t : Troupe) (p : Path) (m : Word) (code : Nat) (addr : Nat → Nat) (stay stamp : Nat)
    (s' : State) (t' : Troupe) : Prop :=
  t.SameRegs t' ∧ InHandlers s t p m code addr stamp s' t' ∧
    ∃ q ∈ t'.path? p.sel, q.pc = stay ∧ q.slices = p.slices &&& ~~~slicesOf m

/-- The same with one address for all lanes. -/
abbrev Delivered (s : State) (t : Troupe) (p : Path) (m : Word) (code addr stay stamp : Nat) (s' : State)
    (t' : Troupe) : Prop := DeliveredAt s t p m code (fun _ => addr) stay stamp s' t'

/-- The stamp of a path after it has issued an instruction (R49, R177). -/
def stampAfter (s : State) (p : Path) (x : Ins) : Nat := if x.yld = true then s.now else p.stamp

/-- A troupe with the one ordinary path 0, `q`, and the one handler path of slice k, `h`, that left it (R31, R404), with
a Live lane in each of its running slices, and no other path. -/
def Troupe.Trapped (t : Troupe) (k : Nat) (q h : Path) : Prop :=
  k < 8 ∧ t.slices.length = 8 ∧ (t.paths = [q, h] ∨ t.paths = [h, q]) ∧ q.sel = .ord 0 ∧ h.sel = .handler k ∧ h.home = 0 ∧
    h.retry = false ∧ q.stack = [] ∧ q.waiting = [] ∧ q.again = 0 ∧ (t.slice k).st = .inHandler ∧
    t.live &&& sliceLanes (sliceBit k) ≠ 0 ∧ t.stepping.getLsbD k = false ∧
    t.slicesIn .following &&& ~~~slicesOf t.live = 0

/-- No path of a troupe waits at a barrier. -/
def Troupe.NoBarWait (t : Troupe) : Prop :=
  ∀ q ∈ t.paths, (match q.wait with | .bar .. | .barwt .. => false | _ => true) = true

/-- No memory has changed: the pool, the lines of every L2 slice, the allotments and the chip memories of every
launch, and the private memory and tile store of one troupe (R300 to R304, R311). -/
def State.SameMemory (s s' : State) (t t' : Troupe) : Prop :=
  s'.pool = s.pool ∧ (∀ d ln, s'.line? d ln = s.line? d ln) ∧ s'.launches = s.launches ∧ s'.ens = s.ens ∧
    t'.tile = t.tile ∧ ∀ l, (t'.lane l).priv = (t.lane l).priv

/-- The byte at a location, as an access of a lane of a troupe finds it: of a global address, that of the home
slice where it holds the line, and that of the pool otherwise (R311). -/
def State.byteAt (s : State) (t : Troupe) (l : Nat) (g : Target) : Byte :=
  match g with
  | .pool h pa _ => s.peekPool h pa
  | g => leByte (s.readChip t l g 1)
where
  /-- The first byte of a list. -/
  leByte : List Byte → Byte
    | [] => 0
    | b :: _ => b

/-- The location `i` bytes above another. -/
def Target.plus (g : Target) (i : Nat) : Target :=
  match g with
  | .priv o => .priv (o + i)
  | .sect k o => .sect k (o + i)
  | .chip d o => .chip d (o + i)
  | .pool h pa k => .pool h (pa + i) k
  | .device h pa => .device h (pa + i)

/-- Which byte of a lane's access a location is. -/
def Target.within (g : Target) (l : Nat) (a : Acc) : Option Nat :=
  let pos := fun (o p : Nat) => if p ≤ o ∧ o < p + a.size then some (o - p) else none
  match g, a.tgt with
  | .priv o, .priv p => if l = a.lane then pos o p else none
  | .sect k o, .sect j p => if k = j then pos o p else none
  | .chip d o, .chip e p => if d = e then pos o p else none
  | .pool h o _, .pool k p _ => if h = k then pos o p else none
  | _, _ => none

/-- The value that a lane's access finds, lowest address in the lowest bits (chapter 00). -/
def State.valueAt (s : State) (t : Troupe) (a : Acc) : Nat :=
  leNat ((List.range a.size).map fun i => s.byteAt t a.lane (a.tgt.plus i))

/-- Whether two locations name one pool byte from two home dies, which no run brings about: a page has one (R315). -/
def Target.twoHomes (g h : Target) (n : Nat) : Prop :=
  match g, h with
  | .pool d o _, .pool e p _ => d ≠ e ∧ p ≤ o ∧ o < p + n
  | _, _ => False

/-- The memory after a write of a value by a lane's access: the bytes that its mask keeps hold the value's, and
every other byte of every location that the troupe reaches is as before (R233, R309). -/
def State.StoresAt (s s' : State) (t : Troupe) (a : Acc) (v : Nat) : Prop :=
  ∀ l g, ¬ g.twoHomes a.tgt a.size → s'.byteAt t l g = match g.within l a with
    | some i => if a.mask.getLsbD i = true then BitVec.ofNat 8 (v / 256 ^ i) else s.byteAt t l g
    | none => s.byteAt t l g

/-- A request of a die to a memory or a word of die `dst` passes at once: no earlier request stands in the channel (R350). -/
abbrev State.clearWay (s : State) (t : Troupe) (dst : Nat) (r : ChanReq) : Prop :=
  t.die = dst ∨ ∀ x ∈ (mget [] s.channels (t.die * 4 + dst)).head?, x = r

/-- A lane's access of an operation may be made now at a memory of its own die that is there, in a pool line that
the slice holds or can bring in, with no uncorrectable error anywhere, in a running ensemble (R238, R311, R330). -/
def State.CanMake (s : State) (t : Troupe) (o : Op) (a : Acc) : Prop :=
  s.troupe? t.id = some t ∧ t.run = .running ∧ (∀ e, s.ens? t.ens = some e → e.st = .running) ∧
    t.op? o.id = some o ∧ (o.kind.accs.find? fun b => b.lane == a.lane) = some a ∧ a.phase = .issued ∧
    s.mayMake t o a = true ∧ a.lane < 32 ∧ a.lane < t.lanes.length ∧ a.bad = false ∧ s.errs = [] ∧ 0 < a.size ∧
    match a.tgt with
    | .priv _ => True
    | .sect k _ => ∃ e, s.ens? t.ens = some e ∧ k < e.sections.length
    | .chip d _ => d = t.die ∧ ∃ l, s.launchOf t.ens = some l ∧ d < l.chip.length
    | .pool h pa k => h = t.die ∧ h < s.dies.length ∧ k ≠ .coherent ∧ pa % 128 + a.size ≤ 128 ∧
        (s.port h (pa / 128 * 128)).isSome = true ∧ (s.line? h (pa / 128) = none → s.full h = false) ∧
        ∀ l, s.line? h (pa / 128) = some l → l.st ≠ .i ∧ l.once = none
    | .device _ _ => False

/-- Bytes that an engine, or the matrix unit, reads from an address upward: of resident pages that are no device's, each
from a line that its home slice holds, written at `.dev` by now and, where the line is coherent, at `.pool` (R283, R305,
R311, R318, R351). -/
def State.Reads (s : State) (t : Troupe) (va n : Nat) (bs : List Byte) : Prop :=
  bs.length = n ∧ ∀ i, i < n → ∃ h pa k l, s.engineAt t (va + i) false = .inr (.pool h pa k) ∧
    (k = .coherent → s.inRecovery h (pa / 128) = false) ∧ s.line? h (pa / 128) = some l ∧ l.st ≠ .i ∧ l.once = none ∧
    mget 0 l.passes (pa % 128) ≤ s.now ∧ l.accepted.contains (pa % 128) = false ∧ bs[i]? = some (l.data.byte (pa % 128))

/-- A read of the matrix unit at a global address below the windows. -/
def State.MatReads (s : State) (t : Troupe) (va n : Nat) (bs : List Byte) : Prop :=
  va % 2 ^ 64 + n ≤ Config.windowBase ∧ s.Reads t (va % 2 ^ 64) n bs

/-- No line of a slice has been brought by a GntNC answer for an operation (R323). -/
def State.NoOnce (s : State) (t : Troupe) (o : Op) : Prop :=
  ∀ d, ∀ e ∈ (s.die d).l2, e.2.once ≠ some (.op t.id o.id)

/-- A running troupe of a running ensemble with one operation outstanding, which is not complete and has moved nothing
before its turn, with no request in a channel of its die and no uncorrectable error; between two operations no read is
noted down. -/
def State.Sole (s : State) (t : Troupe) (o : Op) : Prop :=
  s.troupe? t.id = some t ∧ t.run = .running ∧ (∀ e, s.ens? t.ens = some e → e.st = .running) ∧ t.ops = [o] ∧
    o.done = false ∧ o.fault = none ∧ o.ahead = [] ∧ o.pre = [] ∧ o.volSeen = [] ∧ s.NoOnce t o ∧
    (∀ d, mget [] s.channels (t.die * 4 + d) = []) ∧ s.errs = [] ∧ s.seenPass ≤ s.now ∧ s.seenOpen = []

/-- The same of an operation that still works: its work is not over, and it waits for no page. -/
def State.AtWork (s : State) (t : Troupe) (o : Op) : Prop := s.Sole t o ∧ o.working = true

/-- The same of an operation whose work is over, with a status and a value, and whose accesses are performed. -/
def State.WorkOver (s : State) (t : Troupe) (o : Op) (status value : Nat) : Prop :=
  s.Sole t o ∧ o.ends = some (status, value, none) ∧ s.opOver o = true

/-- No path waits by FWAIT on an entry of a troupe, which an operation holds. -/
def State.Unawaited (s : State) (t : Troupe) (o : Op) (e : Nat) : Prop :=
  o.future = some e ∧ e < t.futures.length ∧ (lget FutureEntry.new t.futures e).busy = true ∧
    ∀ u ∈ s.troupes, ∀ p ∈ u.paths, ∀ g d ls, p.wait ≠ .fwait t.id e g d ls

/-- An operation has ended, and its future entry holds a final status and a value (R282, R286). -/
def Troupe.Final (t' : Troupe) (o : Op) (e : Nat) (status value : Word) : Prop :=
  (lget FutureEntry.new t'.futures e).status = status ∧ (lget FutureEntry.new t'.futures e).value = value ∧
    (lget FutureEntry.new t'.futures e).busy = true ∧ (lget FutureEntry.new t'.futures e).mark = none ∧
    ∀ o' ∈ t'.ops, o'.id = o.id → o'.done = true

/-- Where a fault of an ordinary path is delivered to its handler (R402, R404): the troupe is in no region routine,
and the handler's address passes the checks of R157; the standard handler is entered without them (log 21). -/
abbrev Delivers (s : State) (t : Troupe) (p : Path) : Prop :=
  p.ordinary = true ∧ t.routine = .none ∧ t.slices.length = 8 ∧
    (s.handlerOf t = Config.standardHandler ∨ s.checkTarget t (s.handlerOf t) = .ok)

/-- The exact value of a finite number; a NaN or an infinity has none, and gives 0 (R117). -/
def Num.toRat : Num → ℚ
  | .fin s m e => (if s then -1 else 1) * m * (2 : ℚ) ^ e
  | _ => 0

/-- A number that is no NaN, in the order of R133 but for the sign of a zero. -/
def Num.ext : Num → WithBot (WithTop ℚ)
  | .inf false => ((⊤ : WithTop ℚ) : WithBot (WithTop ℚ))
  | .inf true => ⊥
  | x => ((x.toRat : WithTop ℚ) : WithBot (WithTop ℚ))

/-- The magnitude code after a finite one, which is the next representable magnitude (R116, R117). -/
def nextUp (ty : Ty) (code : Nat) : Num := magValue (floatFormat ty) false (magBits (floatFormat ty) code + 1)

/-- The float types of R116. -/
def floatTys : List Ty := [.f32, .f16, .bf16, .e4m3, .e5m2, .e3m2, .e2m3, .e2m1, .e3m5]

/-- The integral value that a mode gives for an exact value (R125, R214). -/
def integral (r : Rnd) (x : ℚ) : Int :=
  let f := ⌊x⌋
  match r with
  | .rz => if x < 0 then ⌈x⌉ else f
  | .rup => ⌈x⌉
  | .rdn => f
  | _ => if x - f < 1 / 2 then f else if 1 / 2 < x - f then f + 1 else if f % 2 = 0 then f else f + 1

end Sys2Proof.Machine

namespace Sys2Proof

/-- The common fields of a word with D, A and an immediate, no guard and no scheduling field (R146). -/
def Ins.plain (fmt : Fmt) (d a : BitVec 9) (imm : Word) : Ins :=
  { fmt := fmt, d := d, a := a, b := 0, c := 0, e := 0, imm := imm, gc := .none, g0 := 0, s0 := false, g1 := 0,
    s1 := false, stl := 0, ch := 0, yld := false, ru := 0 }

end Sys2Proof
end

