-- ==== Sys2Proof/Safety.lean ====
section
/-! DEFINITION. What a safe run is: it never ends in a fault or a refusal. And the form that every memory of the
device keeps, whatever runs: addresses strictly rising, and no entry that equals what an unlisted address reads as. -/

namespace Sys2Proof.Machine

/-- A step of the machine answers a next state. -/
def State.goesOn (s : State) : Prop := ∃ s', step s = .next s'

/-- A run of `n` steps from a state ends in no fault and no refusal. -/
def safeRun (n : Nat) (s : State) : Prop := ∃ s', Host.Core.run Sys2Proof.core n s = .next s'

/-- The memories of a troupe keep the canonical form. -/
def Troupe.memWf (t : Troupe) : Bool := t.tile.wf && t.lanes.all fun l => l.priv.wf

/-- The memories of a die keep the canonical form: the lines of its L2 slice, and of its cores' caches. -/
def Die.memWf (D : Die) : Bool :=
  (D.l2.all fun e => e.2.data.wf) &&
    D.cores.all fun c => (c.2.l1.all fun e => e.2.data.wf) && c.2.icache.all fun e => e.2.wf

/-- Every memory of the device keeps the canonical form: the pool, the tile windows and lane-private memories, the
section and chip allotments, and the lines of every cache. -/
def State.memWf (s : State) : Bool :=
  s.pool.wf && s.troupes.all Troupe.memWf && s.dies.all Die.memWf &&
    (s.ens.all fun e => e.sections.all fun c => c.allot.wf) && s.launches.all fun l => l.chip.all fun m => m.wf

end Sys2Proof.Machine
end

