-- ==== Sys2Proof/WellFormed.lean ====
section
/-! DEFINITION. Well-formed instructions: the operand format, type and modifiers are among those that
the form tables take (R147–R151, R164, R205, R210, R217, R219, R229, R253, R262, R263). A step of
the device that has no word is always well formed; an undefined word is one that no row decodes. -/

namespace Sys2Proof

/-- The common fields stand as format `x.fmt` of major `maj` has them: fields that the format gives
to the immediate hold no operand, and format 00 has no immediate (R147). -/
def Ins.wf (x : Ins) (maj : Nat) : Bool :=
  (match formats maj with
    | some fs => decide (x.fmt ∈ fs)
    | none => false) &&
  (if x.fmt = .f00 then x.imm == 0 else x.b == 0 && x.c == 0 && x.e == 0)

/-- The well-formed instructions. -/
def Instr.wf : Instr → Bool
  | .bra x => x.wf 0x01
  | .brc x _ => x.wf 0x02
  | .brd x => x.wf 0x03
  | .jmpi x _ => x.wf 0x04
  | .call x => x.wf 0x05
  | .calli x _ => x.wf 0x06
  | .ret x _ => x.wf 0x07
  | .regang x => x.wf 0x08
  | .exit x => x.wf 0x09
  | .ipf x => x.wf 0x0A
  | .yield x => x.wf 0x0B
  | .nop x => x.wf 0x0C
  | .maskset x _ => x.wf 0x0D
  | .maskget x => x.wf 0x0E
  | .bar x => x.wf 0x0F
  | .bararv x => x.wf 0x10
  | .barwt x _ => x.wf 0x11
  | .xacq x => x.wf 0x12
  | .xrel x => x.wf 0x13
  | .idf x => x.wf 0x14
  | .movs x => x.wf 0x15
  | .movsw x _ => x.wf 0x16
  | .trap x => x.wf 0x17
  | .bkpt x => x.wf 0x18
  | .tret x => x.wf 0x19
  | .fwcall x _ => x.wf 0x1A
  | .savemark x => x.wf 0x1B
  | .rxdone x => x.wf 0x1C
  | .entrydone x => x.wf 0x1D
  | .halt x => x.wf 0x1E
  | .sleep x => x.wf 0x1F
  | .iadd x ty _ => x.wf 0x20 && decide (ty ∈ (intTys6 : List Ty))
  | .isub x ty _ => x.wf 0x21 && decide (ty ∈ (intTys6 : List Ty))
  | .imul x ty _ => x.wf 0x22 && decide (ty ∈ (intTys4 : List Ty))
  | .imulhi x ty => x.wf 0x23 && decide (ty ∈ ([.s32, .n32] : List Ty))
  | .imad x ty _ => x.wf 0x24 && decide (ty ∈ (intTys4 : List Ty))
  | .imin x ty => x.wf 0x25 && decide (ty ∈ (intTys6 : List Ty))
  | .imax x ty => x.wf 0x26 && decide (ty ∈ (intTys6 : List Ty))
  | .iabs x ty _ => x.wf 0x27 && decide (ty ∈ ([.s32, .s64] : List Ty))
  | .ineg x ty _ => x.wf 0x28 && decide (ty ∈ ([.s32, .s64] : List Ty))
  | .isad x ty _ => x.wf 0x29 && decide (ty ∈ ([.s32, .n32] : List Ty))
  | .iaddc x ty => x.wf 0x2A && decide (ty ∈ ([.n32] : List Ty))
  | .isubb x ty => x.wf 0x2B && decide (ty ∈ ([.n32] : List Ty))
  | .and x ty => x.wf 0x2C && decide (ty ∈ (bitTys : List Ty))
  | .or x ty => x.wf 0x2D && decide (ty ∈ (bitTys : List Ty))
  | .xor x ty => x.wf 0x2E && decide (ty ∈ (bitTys : List Ty))
  | .andn x ty => x.wf 0x2F && decide (ty ∈ (bitTys : List Ty))
  | .not x ty => x.wf 0x30 && decide (ty ∈ (bitTys : List Ty))
  | .shl x ty => x.wf 0x31 && decide (ty ∈ (bitTys : List Ty))
  | .shrl x ty => x.wf 0x32 && decide (ty ∈ (bitTys : List Ty))
  | .shra x ty => x.wf 0x33 && decide (ty ∈ ([.s32, .s64] : List Ty))
  | .rotl x ty => x.wf 0x34 && decide (ty ∈ (bitTys : List Ty))
  | .bfx x ty => x.wf 0x35 && decide (ty ∈ ([.n32, .s32] : List Ty))
  | .bfi x ty => x.wf 0x36 && decide (ty ∈ ([.b32] : List Ty))
  | .popc x ty => x.wf 0x37 && decide (ty ∈ (bitTys : List Ty))
  | .clz x ty => x.wf 0x38 && decide (ty ∈ (bitTys : List Ty))
  | .ctz x ty => x.wf 0x39 && decide (ty ∈ (bitTys : List Ty))
  | .brev x ty => x.wf 0x3A && decide (ty ∈ (bitTys : List Ty))
  | .prmb x => x.wf 0x3B
  | .icmp x ty _ => x.wf 0x3C && decide (ty ∈ intTys4)
  | .sel x ty => x.wf 0x3D && decide (ty ∈ (bitTys : List Ty))
  | .lea x => x.wf 0x3E
  | .addw x ty => x.wf 0x3F && decide (ty ∈ ([.n32, .s32] : List Ty))
  | .subw x ty => x.wf 0x40 && decide (ty ∈ ([.n32, .s32] : List Ty))
  | .shlw x => x.wf 0x41
  | .mulw x ty => x.wf 0x42 && decide (ty ∈ ([.n32, .s32] : List Ty))
  | .leaw x ty => x.wf 0x43 && decide (ty ∈ ([.n32, .s32] : List Ty))
  | .dot4 x ty _ => x.wf 0x44 && decide (ty ∈ ([.s8, .n8] : List Ty))
  | .mov x ty => x.wf 0x45 && decide (ty ∈ (bitTys : List Ty))
  | .movi x => x.wf 0x46
  | .moviw x ty => x.wf 0x47 && decide (ty ∈ ([.s64, .n64] : List Ty))
  | .rhash x => x.wf 0x48
  | .fadd x ty r _ => x.wf 0x60 && decide (ty ∈ (fpTys : List Ty)) && r != .rs
  | .fsub x ty r _ => x.wf 0x61 && decide (ty ∈ (fpTys : List Ty)) && r != .rs
  | .fmul x ty r _ => x.wf 0x62 && decide (ty ∈ (fpTys : List Ty)) && r != .rs
  | .ffma x ty r _ => x.wf 0x63 && decide (ty ∈ (fpTys : List Ty)) && r != .rs
  | .fmin x ty => x.wf 0x64 && decide (ty ∈ (fpTys : List Ty))
  | .fmax x ty => x.wf 0x65 && decide (ty ∈ (fpTys : List Ty))
  | .fminn x ty => x.wf 0x66 && decide (ty ∈ (fpTys : List Ty))
  | .fmaxn x ty => x.wf 0x67 && decide (ty ∈ (fpTys : List Ty))
  | .fabs x ty => x.wf 0x68 && decide (ty ∈ (fpTys : List Ty))
  | .fneg x ty => x.wf 0x69 && decide (ty ∈ (fpTys : List Ty))
  | .fcmp x ty _ => x.wf 0x6A && decide (ty ∈ (fpTys : List Ty))
  | .fclass x ty => x.wf 0x6B && decide (ty ∈ (fpCodes : List Ty))
  | .frnd x ty r => x.wf 0x6C && decide (ty ∈ (fpTys : List Ty)) && r != .rs
  | .fscale x ty r _ => x.wf 0x6D && decide (ty ∈ (fpTys : List Ty)) && r != .rs
  | .frcp x => x.wf 0x6E
  | .frsq x => x.wf 0x6F
  | .fsqrt x => x.wf 0x70
  | .fdiv x => x.wf 0x71
  | .flog2 x => x.wf 0x72
  | .fexp2 x => x.wf 0x73
  | .fsin x => x.wf 0x74
  | .fcos x => x.wf 0x75
  | .ftanh x => x.wf 0x76
  | .flgst x => x.wf 0x77
  | .hadd2 x ty r _ => x.wf 0x78 && decide (ty ∈ ([.f16x2, .bf16x2] : List Ty)) && r != .rs
  | .hmul2 x ty r _ => x.wf 0x79 && decide (ty ∈ ([.f16x2, .bf16x2] : List Ty)) && r != .rs
  | .hfma2 x ty r _ => x.wf 0x7A && decide (ty ∈ ([.f16x2, .bf16x2] : List Ty)) && r != .rs
  | .fdot2 x ty r _ => x.wf 0x7B && decide (ty ∈ ([.f16x2, .bf16x2] : List Ty)) && r != .rs
  | .cvt x d s r _ => x.wf 0x7C && cvtTaken d s && (r != .rs || d.cls)
  | .cvts x d s r _ => x.wf 0x7D && decide (d ∈ cvtTys) && decide (s ∈ cvtTys) && (d.cls || s.cls) &&
      (r != .rs || (d.cls && x.fmt == .f00))
  | .quant x ty _ => x.wf 0x7E && decide (ty ∈ quantTys)
  | .deq x d s r _ => x.wf 0x7F && decide (d ∈ fpTys) && decide (s ∈ quantTys) && r != .rs
  | .blkscale x ty _ => x.wf 0x80 && decide (ty ∈ quantTys)
  | .amaxrec x _ => x.wf 0x81
  | .amaxrd x ty _ => x.wf 0x82 && decide (ty ∈ (.f32 :: quantTys))
  | .pack6 x => x.wf 0x83
  | .unpack6 x => x.wf 0x84
  | .pack4 x => x.wf 0x85
  | .unpack4 x => x.wf 0x86
  | .ld x ty _ _ => x.wf 0xA0 && decide (ty ∈ ldTys)
  | .st x ty _ _ => x.wf 0xA1 && decide (ty ∈ ([.b32, .b64, .b128, .b8, .b16] : List Ty))
  | .ldv x ty _ => x.wf 0xA2 && decide (ty ∈ volTys)
  | .stv x ty _ => x.wf 0xA3 && decide (ty ∈ volTys)
  | .atom x op ty _ _ => x.wf 0xA4 && decide (ty ∈ atomTys op)
  | .atomc x ty _ _ => x.wf 0xA5 && decide (ty ∈ bitTys)
  | .red x op ty _ _ => x.wf 0xA6 && op != .exch && decide (ty ∈ atomTys op)
  | .fence x p q _ => x.wf 0xA7 && p != 0 && q != 0
  | .cline x _ => x.wf 0xA8
  | .pfd x => x.wf 0xA9
  | .mbput x _ => x.wf 0xAA
  | .mbget x _ => x.wf 0xAB
  | .mbtryGet x _ => x.wf 0xAC
  | .mbtryPut x _ => x.wf 0xAC && x.fmt == .f00
  | .ldwp x _ => x.wf 0xAD
  | .shfl x _ ty => x.wf 0xC0 && decide (ty ∈ bitTys)
  | .vote x _ => x.wf 0xC1
  | .ballot x => x.wf 0xC2
  | .redux x op ty r s => x.wf 0xC3 && decide (ty ∈ redTys op) && redModOk op ty r s false
  | .argmx x ty => x.wf 0xC4 && decide (ty ∈ ([.s32, .n32, .f32] : List Ty))
  | .argmn x ty => x.wf 0xC5 && decide (ty ∈ ([.s32, .n32, .f32] : List Ty))
  | .scan x _ op ty r s => x.wf 0xC6 && decide (ty ∈ redTys op) && redModOk op ty r s false
  | .bcast x ty _ => x.wf 0xC7 && decide (ty ∈ bitTys)
  | .matchKey x ty => x.wf 0xC8 && (match ty with
      | some t => x.fmt == .f00 && decide (t ∈ bitTys)
      | none => x.fmt == .f01)
  | .firstl x => x.wf 0xC9
  | .mma x _ _ => x.wf 0xD0
  | .mmae x _ _ => x.wf 0xD1
  | .tzero x _ => x.wf 0xD2
  | .tld x ty _ => x.wf 0xD3 && decide (ty ∈ tileTys)
  | .tst x ty r s _ => x.wf 0xD4 && decide (ty ∈ tileTys) && r != .rs && (ty.cls || (r == .rne && !s))
  | .tmovr x ty _ => x.wf 0xD5 && decide (ty ∈ ([.b32, .f32] : List Ty))
  | .tmovt x ty _ => x.wf 0xD6 && decide (ty ∈ ([.b32, .f32] : List Ty))
  | .cpy x _ => x.wf 0xD7
  | .gather x _ => x.wf 0xD8
  | .scatter x _ => x.wf 0xD9
  | .coll x op ty _ => x.wf 0xDA && decide (ty ∈ collTys op)
  | .umcfg x _ => x.wf 0xDB
  | .umrank x _ => x.wf 0xDC
  | .umcommit x _ => x.wf 0xDD
  | .umdirty x _ => x.wf 0xDE
  | .waitc x => x.wf 0xDF
  | .fwait x _ => x.wf 0xE0
  | .ftest x _ => x.wf 0xE1
  | .fcancel x _ => x.wf 0xE2
  | .undefinedInstruction w => match decode w with
    | .error _ => true
    | .ok _ => false
  | _ => true

end Sys2Proof
end

