-- ==== Sys2Proof/Certificates/Slice0/Obligations.lean ====
section
/-! DEFINITION. The statements for the provers. Each cites the rules of spec/ that it formalises; a statement that
rests on a choice of the model says so and names its log entry. `Results`, `Completes`, `Jumps` and `Delivered`
are in Machine/Claims.lean. -/

open Sys2Proof Sys2Proof.Machine

/-- O1. Every bit of an encoding counts: the word of a well-formed instruction decodes to it (R146–R151). -/
def Obligations.DecodeOfEncode : Prop :=
  ∀ i : Instr, i.wf = true → match encode i with
    | some w => decode w = .ok i
    | none => isHappening i = true ∨ ∃ w, i = .undefinedInstruction w

/-- O2. A word that decodes is the word of its instruction, and the instruction is well formed (R146–R151, R158). -/
def Obligations.EncodeOfDecode : Prop :=
  ∀ (w : Slot) (i : Instr), decode w = .ok i → i.wf = true ∧ encode i = some w

/-- O3. Words of chapters 18 and 20 as the spec prints them, high and low half, with what they stand for. -/
def Obligations.SpecWordsDecode : Prop :=
  decode (0x0004004008000016 : Slot) = .ok (.movsw (Ins.plain .f10 0 2 0x10) false) ∧
  decode (0x0001C1C100000048 : Slot) = .ok (.rhash { Ins.plain .f00 16 14 0 with b := 7 }) ∧
  decode (0x0000020100000072 : Slot) = .ok (.flog2 (Ins.plain .f00 16 16 0)) ∧
  decode (0x0C8602E1A00A00C0 : Slot) =
    .ok (.shfl { Ins.plain .f00 26 23 0 with b := 24, c := 25 } .idx .b32) ∧
  decode (0x0000000020040C0000030100D84A00A0 : Slot) =
    .ok (.ld { Ins.plain .f10 13 8 12 with gc := .g0, g0 := 6, s0 := true } .b32 .weak .glob) ∧
  decode (0x002581811802053C : Slot) = .ok (.icmp (Ins.plain .f10 17 12 150) .s32 .ge) ∧
  decode (0x000000002004240000003FE0280A00A1 : Slot) =
    .ok (.st { Ins.plain .f10 2 511 0 with gc := .g0, g0 := 18, s0 := true } .b32 .weak .priv)

/-- O4. What device reset leaves, by the tables of R106, R246, R300, R308, R359, R380, R394, R400, R442 and R444. The form of memories is the model's own (log 1). -/
def Obligations.ResetLeaves : Prop :=
  State.reset.dies.length = 4 ∧
  (∀ d, d < 4 → State.reset.clock d = 0 ∧
    (∀ w, mget { full := false, value := 0, waiters := [] } (State.reset.die d).mbox w =
      { full := false, value := 0, waiters := [] }) ∧
    (∀ ln, State.reset.line? d ln = none) ∧ (∀ c, State.reset.core d c = Core.empty) ∧
    (State.reset.die d).lambda = 1024 ∧ (State.reset.die d).spares = 4 ∧ (State.reset.die d).off = 0 ∧
    (∀ n, State.reset.ring d n = { entries := List.replicate 16 0, head := 0 }) ∧
    ((State.reset.die d).um.all fun u => u.st == .free && u.owner == none) = true ∧
    ∀ k, mget 0 (State.reset.die d).ev k = 0) ∧
  State.reset.pbound = 16384 ∧ State.reset.pw.cap = 2400 ∧ (State.reset.pw.filter.all fun e => !e.valid) = true ∧
  State.reset.cmds = [] ∧ State.reset.launches = [] ∧ State.reset.queue = [] ∧ State.reset.ens = [] ∧
  State.reset.troupes = [] ∧ State.reset.nodeTables = [] ∧ State.reset.groups = [] ∧ State.reset.ringOwner = [] ∧
  State.reset.memWf = true ∧ State.reset.pool.wf = true ∧ ∀ D ∈ State.reset.dies, D.skew ≤ 2

/-- O5. A step that issues executes the decoded word (R47, R48, R50, R143). The agenda is the model's own (log 40). -/
def Obligations.StepRunsTheDecodedInstruction : Prop :=
  ∀ (s s1 : State) (r : PathRef) (rest : List Act) (t : Troupe) (p : Path) (w : Slot) (port : Nat),
    s.agenda = .issue r :: rest → s.fw.resetDue = false → s.fw.frozen = false →
    ({ s with agenda := rest } : State).runner r = some (t, p) → p.blk.isSome = true → p.stall ≤ s.now →
    ({ s with agenda := rest } : State).fetchHead t p = .slot s1 w → s1.headFree t p w = true → t.overrun = false →
    portOf w = some port →
    s1.pickOf { troupe := t, path := p, word := w } port ≠ .no →
    step s = ({ s with agenda := rest } : State).inTurn (({ s with agenda := rest } : State).busy r)
      (issueEnd { troupe := t, path := p, word := w } port
        (s1.pickOf { troupe := t, path := p, word := w } port)
        (match decode w with
          | .ok i => exec i (({ s1 with cur := some (refOf t p) } : State).issueTurn t i)
          | .error _ => exec (.undefinedInstruction w) { s1 with cur := some (refOf t p) }))

/-- O6. A step that is a happening executes it, and nothing but the device reset follows a RESET (R428). The agenda is the model's own (log 40). -/
def Obligations.StepRunsTheHappening : Prop :=
  (∀ (s u : State) (i : Instr) (rest : List Act), s.agenda = .event i :: rest →
    ({ s with agenda := rest } : State).allows i = true → exec i { s with agenda := rest, cur := none } = .next u →
    step s = if u = { s with agenda := rest, cur := none } then .next { s with agenda := rest }
      else ({ s with agenda := rest } : State).inTurn { s with agenda := rest } (settled (.next (u.eventTurn i)))) ∧
  (∀ (s : State) i, s.fw.resetDue = true → (∀ x y z, i ≠ .deviceReset x y z) → s.allows i = false) ∧
  ∀ (s s' : State) (a : Act) (rest : List Act), s.fw.resetDue = true → s.agenda = a :: rest →
    (∀ x y z, a ≠ .event (.deviceReset x y z)) → step s = .next s' →
    s'.fw = s.fw ∧ s'.pool = s.pool ∧ s'.subs = s.subs ∧ s'.cmds = s.cmds ∧ s'.launches = s.launches ∧
      s'.ens = s.ens ∧ s'.sent = s.sent

/-- O7. The faults of the manual are taken as next states (R402), so no step of the machine stops it; %clock rises by 1 each clock (R106). -/
def Obligations.StepsAnswerAndClocksAdvance : Prop :=
  (∀ s : State, ∃ s', step s = .next s') ∧
  (∀ (s : State) (rest : List Act), s.agenda = .tick :: rest →
    ∃ s', step s = .next s' ∧ s'.now = s.now + 1 ∧ ∀ d, s'.clock d = s.clock d + 1) ∧
  ∀ (s : State) (rest : List Act) (d k : Nat), s.agenda = .skew d k :: rest →
    ∃ s', step s = .next s' ∧ ∀ e, s.now + (s.die e).skew ≤ s'.now + (s'.die e).skew

/-- O8. R37 and R167 over every instruction but MASKSET and MMAE. -/
def Obligations.NoEffectWithNoActiveLane : Prop :=
  ∀ (i : Instr) (x : Ins) (s : State) (t : Troupe) (p : Path), insOf i = some x →
    (∀ y f, i ≠ .maskset y f) → (∀ y r f, i ≠ .mmae y r f) → s.Issues t p → p.retry = false → (guardsUsed x).any badCode = false →
    t.guarded (t.pathLanes p) x = 0 →
    ∃ s' t', exec i s = .next s' ∧ s'.troupe? t.id = some t' ∧ t.SameRegs t' ∧
      (∀ l, (t.lane l).SameBut (t'.lane l)) ∧ t.WentOn t' p s.now x ∧ s.SameBut s' t.id

/-- O9. R206: every arithmetic and bitwise instruction. Counts and reversal are stated bit by bit. -/
def Obligations.IntegerArithmetic : Prop :=
  (∀ x ty sat, LaneResults (.iadd x ty sat) x (use2 x ty.regs ty.regs ty.regs) fun rd =>
    wrTy ty x.d (intOp2 ty sat (fun a b => a + b) (rdTy ty rd x.a) (srcTy ty x rd))) ∧
  (∀ x ty sat, LaneResults (.isub x ty sat) x (use2 x ty.regs ty.regs ty.regs) fun rd =>
    wrTy ty x.d (intOp2 ty sat (fun a b => a - b) (rdTy ty rd x.a) (srcTy ty x rd))) ∧
  (∀ x ty sat, LaneResults (.imul x ty sat) x (use2 x ty.regs ty.regs ty.regs) fun rd =>
    wrTy ty x.d (intOp2 ty sat (fun a b => a * b) (rdTy ty rd x.a) (srcTy ty x rd))) ∧
  (∀ x ty, LaneResults (.imin x ty) x (use2 x ty.regs ty.regs ty.regs) fun rd =>
    wrTy ty x.d (intOp2 ty false (fun a b => if a ≤ b then a else b) (rdTy ty rd x.a) (srcTy ty x rd))) ∧
  (∀ x ty, LaneResults (.imax x ty) x (use2 x ty.regs ty.regs ty.regs) fun rd =>
    wrTy ty x.d (intOp2 ty false (fun a b => if a ≤ b then b else a) (rdTy ty rd x.a) (srcTy ty x rd))) ∧
  (∀ x ty sat, LaneResults (.imad x ty sat) x (use3 x ty.regs ty.regs ty.regs ty.regs) fun rd =>
    wrTy ty x.d (ty.deliver sat
      (ty.toInt (rdTy ty rd x.a) * ty.toInt (rdTy ty rd x.b) + ty.toInt (rdTy ty rd x.c)))) ∧
  (∀ x ty sat, LaneResults (.iabs x ty sat) x (use1 x ty.regs ty.regs) fun rd =>
    wrTy ty x.d (ty.deliver sat (if ty.toInt (rdTy ty rd x.a) < 0 then -ty.toInt (rdTy ty rd x.a)
      else ty.toInt (rdTy ty rd x.a)))) ∧
  (∀ x ty sat, LaneResults (.ineg x ty sat) x (use1 x ty.regs ty.regs) fun rd =>
    wrTy ty x.d (ty.deliver sat (0 - ty.toInt (rdTy ty rd x.a)))) ∧
  (∀ x ty sat, LaneResults (.isad x ty sat) x (use3 x 1 1 1 1) fun rd =>
    wrTy ty x.d (ty.deliver sat (|ty.toInt (rdTy ty rd x.a) - ty.toInt (rdTy ty rd x.b)| +
      ty.toInt (rdTy ty rd x.c)))) ∧
  (∀ x ty sat, LaneResults (.dot4 x ty sat) x (use3 x 1 1 1 1) fun rd =>
    let p := fun k => ty.toInt ((rd x.a.toNat).extractLsb' (8 * k) 8).toNat *
      ty.toInt ((rd x.b.toNat).extractLsb' (8 * k) 8).toNat
    let acc : Ty := if ty = .s8 then .s32 else .n32
    wr1 x.d (BitVec.ofNat 32 (acc.deliver sat (acc.toInt (rd x.c.toNat).toNat + (p 0 + p 1 + p 2 + p 3))))) ∧
  (∀ x ty, ty ∈ [Ty.s32, .n32] → LaneResults (.imulhi x ty) x (use2 x ty.regs ty.regs ty.regs) fun rd =>
    wr1 x.d ((BitVec.ofInt 64 (ty.toInt (rd x.a.toNat).toNat * ty.toInt (srcB x rd).toNat)).extractLsb' 32 32)) ∧
  (∀ x ty, LaneResults (.iaddc x ty) x (use3 x 2 1 1 1) fun rd =>
    let s := (rd x.a.toNat).toNat + (rd x.b.toNat).toNat + (rd x.c.toNat &&& 1).toNat
    wr2 x.d (BitVec.ofNat 32 (s / 2 ^ 32) ++ BitVec.ofNat 32 (s % 2 ^ 32))) ∧
  (∀ x ty, LaneResults (.isubb x ty) x (use3 x 2 1 1 1) fun rd =>
    wr2 x.d ((if (rd x.a.toNat).toNat < (rd x.b.toNat).toNat + (rd x.c.toNat &&& 1).toNat then (1 : Word) else 0) ++
      (rd x.a.toNat - rd x.b.toNat - (rd x.c.toNat &&& 1)))) ∧
  (∀ x ty, LaneResults (.and x ty) x (use2 x ty.regs ty.regs ty.regs) fun rd =>
    wrTy ty x.d (rdTy ty rd x.a &&& srcTy ty x rd)) ∧
  (∀ x ty, LaneResults (.or x ty) x (use2 x ty.regs ty.regs ty.regs) fun rd =>
    wrTy ty x.d (rdTy ty rd x.a ||| srcTy ty x rd)) ∧
  (∀ x ty, LaneResults (.xor x ty) x (use2 x ty.regs ty.regs ty.regs) fun rd =>
    wrTy ty x.d (rdTy ty rd x.a ^^^ srcTy ty x rd)) ∧
  (∀ x ty, ty ∈ [Ty.b32, .b64] → LaneResults (.andn x ty) x (use2 x ty.regs ty.regs ty.regs) fun rd =>
    wrTy ty x.d (rdTy ty rd x.a &&& (2 ^ ty.width - 1 - srcTy ty x rd))) ∧
  (∀ x ty, ty ∈ [Ty.b32, .b64] → LaneResults (.not x ty) x (use1 x ty.regs ty.regs) fun rd =>
    wrTy ty x.d (2 ^ ty.width - 1 - rdTy ty rd x.a)) ∧
  (∀ x ty, ty ∈ [Ty.b32, .b64] → LaneResults (.popc x ty) x (use1 x 1 ty.regs) fun rd =>
    wr1 x.d (BitVec.ofNat 32 ((List.range ty.width).countP fun k => (rdTy ty rd x.a).testBit k))) ∧
  (∀ x ty, ty ∈ [Ty.b32, .b64] → LaneResults (.clz x ty) x (use1 x 1 ty.regs) fun rd =>
    wr1 x.d (BitVec.ofNat 32
      ((List.range ty.width).takeWhile fun k => !(rdTy ty rd x.a).testBit (ty.width - 1 - k)).length)) ∧
  (∀ x ty, ty ∈ [Ty.b32, .b64] → LaneResults (.ctz x ty) x (use1 x 1 ty.regs) fun rd =>
    wr1 x.d (BitVec.ofNat 32 ((List.range ty.width).takeWhile fun k => !(rdTy ty rd x.a).testBit k).length)) ∧
  (∀ x, LaneResults (.brev x .b32) x (use1 x 1 1) fun rd => wr1 x.d (rd x.a.toNat).reverse) ∧
  (∀ x, LaneResults (.brev x .b64) x (use1 x 2 2) fun rd => wr2 x.d (rdPair rd x.a).reverse) ∧
  (∀ x ty rel, LaneResults (.icmp x ty rel) x (use2 x 1 ty.regs ty.regs) fun rd =>
    let a := ty.toInt (rdTy ty rd x.a)
    let b := ty.toInt (srcTy ty x rd)
    wr1 x.d (if (match rel with
      | .eq => decide (a = b) | .ne => decide (a ≠ b) | .lt => decide (a < b) | .le => decide (a ≤ b)
      | .gt => decide (a > b) | .ge => decide (a ≥ b)) = true then 1 else 0)) ∧
  (∀ x ty, LaneResults (.sel x ty) x (use3 x ty.regs ty.regs ty.regs 1) fun rd =>
    wrTy ty x.d (if (rd x.c.toNat).getLsbD 0 = true then rdTy ty rd x.a else rdTy ty rd x.b)) ∧
  (∀ x ty, LaneResults (.mov x ty) x (use1 x ty.regs ty.regs) fun rd => wrTy ty x.d (rdTy ty rd x.a)) ∧
  (∀ x, LaneResults (.movi x) x (Use.lanes [(x.d, 1)] []) fun _ => wr1 x.d x.imm) ∧
  (∀ x, LaneResults (.moviw x .s64) x (Use.lanes [(x.d, 2)] []) fun _ => wr2 x.d (x.imm.signExtend 64)) ∧
  (∀ x, LaneResults (.moviw x .n64) x (Use.lanes [(x.d, 2)] []) fun _ => wr2 x.d (x.imm.zeroExtend 64))

/-- O10. R207, as operations on bit vectors. -/
def Obligations.ShiftsAndBitFields : Prop :=
  (∀ x, LaneResults (.shl x .b32) x (use2 x 1 1 1) fun rd =>
    wr1 x.d (rd x.a.toNat <<< ((srcB x rd).toNat % 256))) ∧
  (∀ x, LaneResults (.shl x .b64) x (use2 x 2 2 1) fun rd =>
    wr2 x.d (rdPair rd x.a <<< ((srcB x rd).toNat % 256))) ∧
  (∀ x, LaneResults (.shrl x .b32) x (use2 x 1 1 1) fun rd =>
    wr1 x.d (rd x.a.toNat >>> ((srcB x rd).toNat % 256))) ∧
  (∀ x, LaneResults (.shrl x .b64) x (use2 x 2 2 1) fun rd =>
    wr2 x.d (rdPair rd x.a >>> ((srcB x rd).toNat % 256))) ∧
  (∀ x, LaneResults (.shra x .s32) x (use2 x 1 1 1) fun rd =>
    wr1 x.d ((rd x.a.toNat).sshiftRight ((srcB x rd).toNat % 256))) ∧
  (∀ x, LaneResults (.shra x .s64) x (use2 x 2 2 1) fun rd =>
    wr2 x.d ((rdPair rd x.a).sshiftRight ((srcB x rd).toNat % 256))) ∧
  (∀ x, LaneResults (.rotl x .b32) x (use2 x 1 1 1) fun rd =>
    wr1 x.d ((rd x.a.toNat).rotateLeft ((srcB x rd).toNat % 256))) ∧
  (∀ x, LaneResults (.rotl x .b64) x (use2 x 2 2 1) fun rd =>
    wr2 x.d ((rdPair rd x.a).rotateLeft ((srcB x rd).toNat % 256))) ∧
  (∀ x ty, ty ∈ [Ty.n32, .s32] → LaneResults (.bfx x ty) x (use2 x 1 1 1) fun rd =>
    let p := ((srcB x rd).extractLsb' 0 8).toNat
    let w := ((srcB x rd).extractLsb' 8 8).toNat
    let f := (rd x.a.toNat).extractLsb' p (min w (32 - p))
    wr1 x.d (if 32 ≤ p ∨ w = 0 then 0 else if ty = .s32 then f.signExtend 32 else f.zeroExtend 32)) ∧
  (∀ x ty, LaneResults (.bfi x ty) x (use3 x 1 1 1 1) fun rd =>
    let p := ((rd x.c.toNat).extractLsb' 0 8).toNat
    let w := ((rd x.c.toNat).extractLsb' 8 8).toNat
    let mask : Word := BitVec.ofNat 32 (2 ^ min w (32 - p) - 1) <<< p
    wr1 x.d (if 32 ≤ p ∨ w = 0 then rd x.a.toNat
      else (rd x.a.toNat &&& ~~~mask) ||| ((rd x.b.toNat <<< p) &&& mask))) ∧
  (∀ x, LaneResults (.prmb x) x (use3 x 1 1 1 1) fun rd =>
    let byte := fun (k : Nat) =>
      let f : BitVec 6 := (rd x.c.toNat).extractLsb' (6 * k) 6
      let t : BitVec 8 := (rd x.b.toNat ++ rd x.a.toNat).extractLsb' (8 * (f.extractLsb' 0 3).toNat) 8
      (match (f.extractLsb' 3 3).toNat with
        | 1 => ~~~t | 2 => t.reverse | 3 => t.extractLsb' 0 4 ++ t.extractLsb' 4 4 | 4 => 0 | 5 => 0xFF
        | _ => t : BitVec 8)
    wr1 x.d (byte 3 ++ byte 2 ++ byte 1 ++ byte 0))

/-- O11. R208, as operations on bit vectors. -/
def Obligations.AddressArithmetic : Prop :=
  (∀ x, LaneResults (.lea x) x (use3 x 1 1 1 1) fun rd =>
    wr1 x.d (rd x.a.toNat + rd x.b.toNat <<< ((rd x.c.toNat).extractLsb' 0 3).toNat)) ∧
  (∀ x, LaneResults (.addw x .n32) x (use2 x 2 2 1) fun rd =>
    wr2 x.d (rdPair rd x.a + (srcB x rd).zeroExtend 64)) ∧
  (∀ x, LaneResults (.addw x .s32) x (use2 x 2 2 1) fun rd =>
    wr2 x.d (rdPair rd x.a + (srcB x rd).signExtend 64)) ∧
  (∀ x, LaneResults (.subw x .n32) x (use2 x 2 2 1) fun rd =>
    wr2 x.d (rdPair rd x.a - (srcB x rd).zeroExtend 64)) ∧
  (∀ x, LaneResults (.subw x .s32) x (use2 x 2 2 1) fun rd =>
    wr2 x.d (rdPair rd x.a - (srcB x rd).signExtend 64)) ∧
  (∀ x, LaneResults (.shlw x) x (use2 x 2 2 1) fun rd =>
    wr2 x.d (rdPair rd x.a <<< ((srcB x rd).extractLsb' 0 8).toNat)) ∧
  (∀ x, LaneResults (.mulw x .n32) x (use2 x 2 1 1) fun rd =>
    wr2 x.d (BitVec.ofNat 64 ((rd x.a.toNat).toNat * (srcB x rd).toNat))) ∧
  (∀ x, LaneResults (.mulw x .s32) x (use2 x 2 1 1) fun rd =>
    wr2 x.d (BitVec.ofInt 64 ((rd x.a.toNat).toInt * (srcB x rd).toInt))) ∧
  (∀ x, LaneResults (.leaw x .n32) x (use3 x 2 2 1 1) fun rd =>
    wr2 x.d (rdPair rd x.a + (rd x.b.toNat).zeroExtend 64 <<< ((rd x.c.toNat).extractLsb' 0 3).toNat)) ∧
  (∀ x, LaneResults (.leaw x .s32) x (use3 x 2 2 1 1) fun rd =>
    wr2 x.d (rdPair rd x.a + (rd x.b.toNat).signExtend 64 <<< ((rd x.c.toNat).extractLsb' 0 3).toNat))

/-- O12. R209. -/
def Obligations.RhashIsAPermutation : Prop :=
  (∀ x, LaneResults (.rhash x) x (use2 x 1 1 1) fun rd =>
    let b := srcB x rd
    let x1 : Word := rd x.a.toNat ^^^ (b * 0x6C8E9CF5).rotateLeft 16 ^^^ 0xA5C30E47
    let x2 := x1 ^^^ (x1 >>> 15)
    let x3 := x2 * 0x3B9A73C5
    let x4 := x3 ^^^ (x3 >>> 13)
    let x5 := x4 * 0xD168AAAD
    wr1 x.d (x5 ^^^ (x5 >>> 16))) ∧
  ∀ b : Word, Function.Bijective fun a => rhash a b

/-- O13. R211, R214 (FSCALE) and R216 over the exact operations of the model. -/
def Obligations.FloatArithmetic : Prop :=
  (∀ x ty rnd sat, LaneResults (.fadd x ty rnd sat) x (use2 x 1 1 1) fun rd =>
    wrF x.d (roundTo ty rnd sat 0 (sumNum (rnd == .rdn) [fval ty rd x.a, fsrc ty x rd]))) ∧
  (∀ x ty rnd sat, LaneResults (.fsub x ty rnd sat) x (use2 x 1 1 1) fun rd =>
    wrF x.d (roundTo ty rnd sat 0 (sumNum (rnd == .rdn) [fval ty rd x.a, (fsrc ty x rd).neg]))) ∧
  (∀ x ty rnd sat, LaneResults (.fmul x ty rnd sat) x (use2 x 1 1 1) fun rd =>
    wrF x.d (roundTo ty rnd sat 0 ((fval ty rd x.a).mul (fsrc ty x rd)))) ∧
  (∀ x ty rnd sat, LaneResults (.ffma x ty rnd sat) x (use3 x 1 1 1 1) fun rd =>
    wrF x.d (roundTo ty rnd sat 0
      (sumNum (rnd == .rdn) [(fval ty rd x.a).mul (fval ty rd x.b), fval ty rd x.c]))) ∧
  (∀ x ty rnd sat, LaneResults (.fscale x ty rnd sat) x (use2 x 1 1 1) fun rd =>
    wrF x.d (roundTo ty rnd sat 0 (scaleBy (fval ty rd x.a) (srcB x rd).toInt))) ∧
  (∀ x ty rnd sat, ty ∈ [Ty.f16x2, .bf16x2] → LaneResults (.hadd2 x ty rnd sat) x (use2 x 1 1 1) fun rd =>
    let el := fun (v : Word) (i : Nat) => value ty (v.extractLsb' (16 * i) 16).toNat
    let r := fun i => BitVec.ofNat 16 (roundTo ty rnd sat 0
      (sumNum (rnd == .rdn) [el (rd x.a.toNat) i, el (srcB x rd) i]))
    wr1 x.d (r 1 ++ r 0)) ∧
  (∀ x ty rnd sat, ty ∈ [Ty.f16x2, .bf16x2] → LaneResults (.hmul2 x ty rnd sat) x (use2 x 1 1 1) fun rd =>
    let el := fun (v : Word) (i : Nat) => value ty (v.extractLsb' (16 * i) 16).toNat
    let r := fun i => BitVec.ofNat 16 (roundTo ty rnd sat 0 ((el (rd x.a.toNat) i).mul (el (srcB x rd) i)))
    wr1 x.d (r 1 ++ r 0)) ∧
  (∀ x ty rnd sat, ty ∈ [Ty.f16x2, .bf16x2] → LaneResults (.hfma2 x ty rnd sat) x (use3 x 1 1 1 1) fun rd =>
    let el := fun (r : BitVec 9) (i : Nat) => value ty ((rd r.toNat).extractLsb' (16 * i) 16).toNat
    let r := fun i => BitVec.ofNat 16 (roundTo ty rnd sat 0
      (sumNum (rnd == .rdn) [(el x.a i).mul (el x.b i), el x.c i]))
    wr1 x.d (r 1 ++ r 0)) ∧
  (∀ x ty rnd sat, LaneResults (.fdot2 x ty rnd sat) x (use3 x 1 1 1 1) fun rd =>
    let el := fun (r : BitVec 9) (i : Nat) => value ty ((rd r.toNat).extractLsb' (16 * i) 16).toNat
    wrF x.d (roundTo .f32 rnd sat 0 (sumNum (rnd == .rdn)
      [value .f32 (rd x.c.toNat).toNat, (el x.a 0).mul (el x.b 0), (el x.a 1).mul (el x.b 1)])))

/-- O14. The exact results of R125 and R131. -/
def Obligations.ExactFloatResults : Prop :=
  (∀ (rdn : Bool) (xs : List Machine.Num), (∀ x ∈ xs, x.isNan = false ∧ x.isInf = false) →
    (sumNum rdn xs).toRat = (xs.map Machine.Num.toRat).sum ∧
    ((xs.map Machine.Num.toRat).sum = 0 → xs ≠ [] → (sumNum rdn xs).signNeg =
      if (xs.all fun x => x.isZero && x.signNeg) = true then true
      else if (xs.all fun x => x.isZero && !x.signNeg) = true then false else rdn)) ∧
  (∀ s m e t n f, (Machine.Num.mul (.fin s m e) (.fin t n f)).toRat = (Machine.Num.fin s m e).toRat * (Machine.Num.fin t n f).toRat ∧
    (Machine.Num.mul (.fin s m e) (.fin t n f)).signNeg = (s != t)) ∧
  (∀ s m e (k : Int), -1024 ≤ k → k ≤ 1024 →
    (scaleBy (.fin s m e) k).toRat = (Machine.Num.fin s m e).toRat * (2 : ℚ) ^ k) ∧
  (∀ rdn, sumNum rdn [.inf false, .inf true] = .nan) ∧ ∀ s t e, Machine.Num.mul (.inf s) (.fin t 0 e) = .nan

/-- O15. R125 and R126, over every format of R116. -/
def Obligations.RoundingModes : Prop :=
  ∀ (ty : Ty) (s : Bool) (m : Nat) (e : Int), ty ∈ floatTys → ((floatFormat ty).signed = false → s = false) →
    |(Machine.Num.fin s m e).toRat| ≤ (maxValue ty).toRat →
    let x := (Machine.Num.fin s m e).toRat
    let v := fun (c : Nat) => (value ty c).toRat
    let fin := fun (c : Nat) => (value ty c).isNan = false ∧ (value ty c).isInf = false
    (∀ r, r ≠ .rs → fin (roundTo ty r false 0 (.fin s m e)) ∧
      signBit (floatFormat ty) (roundTo ty r false 0 (.fin s m e)) = s) ∧
    (let c := roundTo ty .rz false 0 (.fin s m e)
     |v c| ≤ |x| ∧ ∀ c', fin c' → |v c'| ≤ |x| → |v c'| ≤ |v c|) ∧
    (let c := roundTo ty .rup false 0 (.fin s m e)
     x ≤ v c ∧ ∀ c', fin c' → x ≤ v c' → v c ≤ v c') ∧
    (let c := roundTo ty .rdn false 0 (.fin s m e)
     v c ≤ x ∧ ∀ c', fin c' → v c' ≤ x → v c' ≤ v c) ∧
    (let c := roundTo ty .rne false 0 (.fin s m e)
     ∀ c', fin c' → |x - v c| ≤ |x - v c'| ∧ (|x - v c| = |x - v c'| → v c' ≠ v c → c % 2 = 0)) ∧
    (∀ rho, rho < 65536 →
      let lo := roundTo ty .rz false 0 (.fin s m e)
      |v lo| ≠ |x| → magBits (floatFormat ty) lo + 1 ≤ (floatFormat ty).maxCode →
      let hi := (nextUp ty lo).toRat
      roundTo ty .rs false rho (.fin s m e) =
        if 65536 ≤ ⌊65536 * (|x| - |v lo|) / (hi - |v lo|)⌋ + rho then lo + 1 else lo)

/-- O16. R128 and R130. The mode and the random input do not matter. -/
def Obligations.SpecialFloatInputs : Prop :=
  ∀ (r : Rnd) (rho : Nat),
    (∀ ty, ty ∈ [Ty.f32, .f16, .bf16, .e5m2] → ∀ neg, value ty (roundTo ty r false rho (.inf neg)) = .inf neg) ∧
    (∀ ty, ty ∈ [Ty.f32, .f16, .bf16, .e5m2, .e4m3] → ∀ neg, roundTo ty r true rho (.inf neg) =
      (if neg = true then 2 ^ ((floatFormat ty).width - 1) else 0) + (floatFormat ty).maxCode) ∧
    (∀ neg, roundTo .e4m3 r false rho (.inf neg) = 0x7F) ∧
    (∀ ty, ty ∈ [Ty.e3m2, .e2m3, .e2m1] → ∀ sat neg, roundTo ty r sat rho (.inf neg) =
      (if neg = true then 2 ^ ((floatFormat ty).width - 1) else 0) + (floatFormat ty).maxCode) ∧
    roundTo .e3m5 r false rho (.inf false) = 0xFF ∧ roundTo .e3m5 r true rho (.inf false) = 0xFE ∧
    roundTo .e3m5 r false rho (.inf true) = 0xFF ∧ roundTo .e3m5 r true rho (.inf true) = 0 ∧
    (∀ m e, m ≠ 0 → roundTo .e3m5 r false rho (.fin true m e) = 0xFF ∧
      roundTo .e3m5 r true rho (.fin true m e) = 0) ∧
    (∀ sat e, roundTo .e3m5 r sat rho (.fin true 0 e) = 0) ∧
    (∀ ty, ty ∈ [Ty.e3m2, .e2m3, .e2m1] → ∀ sat, roundTo ty r sat rho .nan = 0) ∧
    (∀ ty, ty ∈ floatTys → ty ∉ [Ty.e3m2, .e2m3, .e2m1] → ∀ sat x,
      (x = .nan → (value ty (roundTo ty r sat rho x)).isNan = true) ∧
      ((value ty (roundTo ty r sat rho x)).isNan = true → ((ty, roundTo ty r sat rho x) : Ty × Nat) ∈
        [(Ty.f32, 0x7FC00000), (.f16, 0x7E00), (.bf16, 0x7FC0), (.e5m2, 0x7E), (.e4m3, 0x7F), (.e3m5, 0xFF)]))

/-- O17. R133 and R212. -/
def Obligations.FloatSelectionsAndPredicates : Prop :=
  let code := fun (ty : Ty) (c : Word) => c.toNat % 2 ^ (floatFormat ty).width
  let second := fun (ty : Ty) (x : Ins) (rd : Nat → Word) =>
    if x.fmt = .f00 then code ty (rd x.b.toNat) else rne ty (value .f32 x.imm.toNat)
  let less := fun (a b : Machine.Num) => decide (a.ext < b.ext) || (a.isZero && b.isZero && a.signNeg && !b.signNeg)
  let pick := fun (ty : Ty) (isMax number : Bool) (x : Ins) (rd : Nat → Word) =>
    let a := fval ty rd x.a
    let b := fsrc ty x rd
    if a.isNan = true then (if (number && !b.isNan) = true then second ty x rd else (floatFormat ty).nanCode)
    else if b.isNan = true then (if number = true then code ty (rd x.a.toNat) else (floatFormat ty).nanCode)
    else if (if isMax = true then less a b else less b a) = true then second ty x rd else code ty (rd x.a.toNat)
  (∀ x ty, ty ∈ [Ty.f32, .f16, .bf16] →
    LaneResults (.fmin x ty) x (use2 x 1 1 1) (fun rd => wrF x.d (pick ty false false x rd)) ∧
    LaneResults (.fmax x ty) x (use2 x 1 1 1) (fun rd => wrF x.d (pick ty true false x rd)) ∧
    LaneResults (.fminn x ty) x (use2 x 1 1 1) (fun rd => wrF x.d (pick ty false true x rd)) ∧
    LaneResults (.fmaxn x ty) x (use2 x 1 1 1) (fun rd => wrF x.d (pick ty true true x rd))) ∧
  (∀ x ty rel, LaneResults (.fcmp x ty rel) x (use2 x 1 1 1) fun rd =>
    let a := fval ty rd x.a
    let b := fsrc ty x rd
    let rl := fun (q : Rel) => match q with
      | .eq => decide (a.ext = b.ext) | .ne => decide (a.ext ≠ b.ext) | .lt => decide (a.ext < b.ext)
      | .le => decide (a.ext ≤ b.ext) | .gt => decide (b.ext < a.ext) | .ge => decide (b.ext ≤ a.ext)
    wr1 x.d (if (match rel with
      | .num => !a.isNan && !b.isNan
      | .nan => a.isNan || b.isNan
      | .ord q => !a.isNan && !b.isNan && rl q
      | .unord q => a.isNan || b.isNan || rl q) = true then 1 else 0))

/-- O18. R211 (FABS, FNEG), R213 and R214 (FRND). -/
def Obligations.FloatSignsClassesAndIntegrals : Prop :=
  (∀ x ty, ty ∈ [Ty.f32, .f16, .bf16] → LaneResults (.fabs x ty) x (use1 x 1 1) fun rd =>
    let w := (floatFormat ty).width
    wrF x.d (if (fval ty rd x.a).isNan = true then (floatFormat ty).nanCode
      else (rd x.a.toNat).toNat % 2 ^ (w - 1))) ∧
  (∀ x ty, ty ∈ [Ty.f32, .f16, .bf16] → LaneResults (.fneg x ty) x (use1 x 1 1) fun rd =>
    let w := (floatFormat ty).width
    wrF x.d (if (fval ty rd x.a).isNan = true then (floatFormat ty).nanCode
      else ((rd x.a.toNat).toNat + 2 ^ (w - 1)) % 2 ^ w)) ∧
  (∀ x ty, ty ∈ floatTys → LaneResults (.fclass x ty) x (use1 x 1 1) fun rd =>
    let f := floatFormat ty
    let mag := (rd x.a.toNat).toNat % 2 ^ (f.e + f.m)
    let neg := f.signed && (rd x.a.toNat).getLsbD (f.e + f.m)
    let ex := mag / 2 ^ f.m
    let m := mag % 2 ^ f.m
    wr1 x.d (1 <<< (
      if (f.nanKind = 1 ∧ ex = 2 ^ f.e - 1 ∧ m ≠ 0) ∨ (f.nanKind = 2 ∧ mag = 2 ^ (f.e + f.m) - 1) then 8
      else if f.hasInf = true ∧ ex = 2 ^ f.e - 1 then (if neg = true then 0 else 7)
      else if mag = 0 then (if neg = true then 3 else 4)
      else if ex = 0 then (if neg = true then 2 else 5)
      else if neg = true then 1 else 6))) ∧
  (∀ x ty rnd, LaneResults (.frnd x ty rnd) x (use1 x 1 1) fun rd =>
    wrF x.d (roundIntegral ty rnd (rd x.a.toNat).toNat)) ∧
  ∀ ty c, ty ∈ [Ty.f32, .f16, .bf16] → ∀ rnd,
    match value ty c with
    | .nan => roundIntegral ty rnd c = (floatFormat ty).nanCode
    | .inf _ => roundIntegral ty rnd c = c % 2 ^ (floatFormat ty).width
    | .fin s m e =>
      let x := (Machine.Num.fin s m e).toRat
      let y := value ty (roundIntegral ty rnd c)
      y.isNan = false ∧ y.isInf = false ∧ y.signNeg = s ∧
        (rnd ≠ .rs → y.toRat = integral rnd x)

/-- O19. What each special function writes, and the special values (R132, R215). Values computed by series rest on log 8. -/
def Obligations.SpecialFunctions : Prop :=
  (∀ x, LaneResults (.frcp x) x (use1 x 1 1) fun rd => wr1 x.d (BitVec.ofNat 32 (frcp (rd x.a.toNat).toNat))) ∧
  (∀ x, LaneResults (.frsq x) x (use1 x 1 1) fun rd => wr1 x.d (BitVec.ofNat 32 (frsq (rd x.a.toNat).toNat))) ∧
  (∀ x, LaneResults (.fsqrt x) x (use1 x 1 1) fun rd => wr1 x.d (BitVec.ofNat 32 (fsqrt (rd x.a.toNat).toNat))) ∧
  (∀ x, LaneResults (.fdiv x) x (use2 x 1 1 1) fun rd =>
    wr1 x.d (BitVec.ofNat 32 (fdiv (rd x.a.toNat).toNat (srcB x rd).toNat))) ∧
  (∀ x, LaneResults (.flog2 x) x (use1 x 1 1) fun rd => wr1 x.d (BitVec.ofNat 32 (flog2 (rd x.a.toNat).toNat))) ∧
  (∀ x, LaneResults (.fexp2 x) x (use1 x 1 1) fun rd => wr1 x.d (BitVec.ofNat 32 (fexp2 (rd x.a.toNat).toNat))) ∧
  (∀ x, LaneResults (.fsin x) x (use1 x 1 1) fun rd => wr1 x.d (BitVec.ofNat 32 (fsin (rd x.a.toNat).toNat))) ∧
  (∀ x, LaneResults (.fcos x) x (use1 x 1 1) fun rd => wr1 x.d (BitVec.ofNat 32 (fcos (rd x.a.toNat).toNat))) ∧
  (∀ x, LaneResults (.ftanh x) x (use1 x 1 1) fun rd => wr1 x.d (BitVec.ofNat 32 (ftanh (rd x.a.toNat).toNat))) ∧
  (∀ x, LaneResults (.flgst x) x (use1 x 1 1) fun rd => wr1 x.d (BitVec.ofNat 32 (flgst (rd x.a.toNat).toNat))) ∧
  (∀ c, value .f32 c = .nan → ∀ f ∈ [frcp, frsq, fsqrt, flog2, fexp2, fsin, fcos, ftanh, flgst],
    f c = 0x7FC00000) ∧
  (∀ c, (∃ m e, value .f32 c = .fin true m e ∧ m ≠ 0) ∨ value .f32 c = .inf true →
    ∀ f ∈ [frsq, fsqrt, flog2], f c = 0x7FC00000) ∧
  (frcp 0 = 0x7F800000 ∧ frcp 0x80000000 = 0xFF800000 ∧ frcp 0x7F800000 = 0 ∧ frcp 0xFF800000 = 0x80000000) ∧
  (frsq 0 = 0x7F800000 ∧ frsq 0x80000000 = 0xFF800000 ∧ frsq 0x7F800000 = 0) ∧
  (fsqrt 0 = 0 ∧ fsqrt 0x80000000 = 0x80000000 ∧ fsqrt 0x7F800000 = 0x7F800000) ∧
  (flog2 0 = 0xFF800000 ∧ flog2 0x80000000 = 0xFF800000 ∧ flog2 0x3F800000 = 0 ∧ flog2 0x7F800000 = 0x7F800000) ∧
  (fexp2 0xFF800000 = 0 ∧ fexp2 0x7F800000 = 0x7F800000 ∧ fexp2 0xC3160000 = 0) ∧
  (fsin 0x7F800000 = 0x7FC00000 ∧ fsin 0xFF800000 = 0x7FC00000 ∧ fcos 0x7F800000 = 0x7FC00000 ∧
    fcos 0xFF800000 = 0x7FC00000 ∧ fsin 0 = 0 ∧ fsin 0x80000000 = 0x80000000 ∧ fcos 0 = 0x3F800000 ∧
    fcos 0x80000000 = 0x3F800000) ∧
  (ftanh 0x7F800000 = 0x3F800000 ∧ ftanh 0xFF800000 = 0xBF800000 ∧ ftanh 0 = 0 ∧ ftanh 0x80000000 = 0x80000000) ∧
  (flgst 0xFF800000 = 0 ∧ flgst 0x7F800000 = 0x3F800000) ∧
  (∀ a b s m e t n g, value .f32 a = .fin s m e → value .f32 b = .fin t n g → m ≠ 0 → n ≠ 0 →
    ∃ num den, den ≠ 0 ∧ fdiv a b = roundQ .f32 .rne false 0 (s != t) num den ∧
      (num : ℚ) / den = |(Machine.Num.fin s m e).toRat / (Machine.Num.fin t n g).toRat|) ∧
  (∀ a s m e, value .f32 a = .fin s m e → m ≠ 0 →
    ∃ num den, den ≠ 0 ∧ frcp a = roundQ .f32 .rne false 0 s num den ∧
      (num : ℚ) / den = |1 / (Machine.Num.fin s m e).toRat|) ∧
  (∀ a b, match value .f32 a, value .f32 b with
    | .nan, _ => fdiv a b = 0x7FC00000
    | _, .nan => fdiv a b = 0x7FC00000
    | .inf _, .inf _ => fdiv a b = 0x7FC00000
    | .inf s, .fin t _ _ => fdiv a b = if (s != t) = true then 0xFF800000 else 0x7F800000
    | .fin s _ _, .inf t => fdiv a b = if (s != t) = true then 0x80000000 else 0
    | .fin s m _, .fin t n _ => n = 0 ∨ m = 0 → fdiv a b =
        if n = 0 ∧ m = 0 then 0x7FC00000
        else (if (s != t) = true then 0x80000000 else 0) + if n = 0 then 0x7F800000 else 0) ∧
  (∀ (c k : Nat) (e : Int), value .f32 c = .fin false (2 ^ k) e →
    flog2 c = rne .f32 (.fin (decide (e + k < 0)) (e + k).natAbs 0)) ∧
  ∀ c (k : Int), (value .f32 c).isNan = false → (value .f32 c).isInf = false → (value .f32 c).toRat = k →
    fexp2 c = rne .f32 (.fin false 1 k)

/-- O20. R217 and R218. -/
def Obligations.Conversions : Prop :=
  let exact := fun (src : Ty) (x : Ins) (rd : Nat → Word) =>
    if src.cls = true then value src (rdTy src rd x.a)
    else (Machine.Num.fin (decide (src.toInt (rdTy src rd x.a) < 0)) (src.toInt (rdTy src rd x.a)).natAbs 0)
  let put := fun (dst src : Ty) (rnd : Rnd) (sat : Bool) (x : Ins) (rd : Nat → Word) (v : Machine.Num) =>
    if dst.cls = true then
      wr1 x.d (BitVec.ofNat 32 (roundTo dst rnd sat ((rd x.e.toNat).extractLsb' 0 16).toNat v))
    else
      let r : Int := match v with
        | .nan => 0
        | .inf n => if n = true then dst.least else dst.greatest
        | _ => if src.cls = true then min (max (integral rnd v.toRat) dst.least) dst.greatest
          else dst.toInt (dst.deliver sat ⌊v.toRat⌋)
      if dst.width = 64 then wr2 x.d (BitVec.ofInt 64 r) else wr1 x.d (BitVec.ofInt 32 r)
  let rs := fun (x : Ins) (rnd : Rnd) => if rnd = .rs then [(x.e, 1)] else []
  (∀ x dst src rnd sat, dst ≠ .f16x2 → dst ≠ .bf16x2 → (rnd = .rs → dst.cls = true) →
    LaneResults (.cvt x dst src rnd sat) x (Use.lanes [(x.d, dst.regs)] ((x.a, src.regs) :: rs x rnd)) fun rd =>
      put dst src rnd sat x rd (exact src x rd)) ∧
  (∀ x dst src rnd sat, (rnd = .rs → dst.cls = true) → (dst.cls || src.cls) = true →
    LaneResults (.cvts x dst src rnd sat) x (Use.lanes [(x.d, dst.regs)] ((x.a, src.regs) ::
      ((if x.fmt = .f00 then [(x.b, 1)] else []) ++ rs x rnd))) fun rd =>
      put dst src rnd sat x rd (scaleBy (exact src x rd) (srcB x rd).toInt)) ∧
  (∀ x dst rnd sat, dst = .f16x2 ∨ dst = .bf16x2 →
    LaneResults (.cvt x dst .f32 rnd sat) x (Use.lanes [(x.d, 1)] ((x.a, 1) :: (x.b, 1) :: rs x rnd)) fun rd =>
      let e := fun (i : Nat) => ((rd x.e.toNat).extractLsb' (16 * i) 16).toNat
      let c := fun (r : BitVec 9) (i : Nat) =>
        BitVec.ofNat 16 (roundTo dst rnd sat (e i) (value .f32 (rd r.toNat).toNat))
      wr1 x.d (c x.b 1 ++ c x.a 0))

/-- O21. R220, R221 and R222 over the roundings of the model. -/
def Obligations.BlockQuantization : Prop :=
  let band := fun (w : Word) => (w.extractLsb' 0 16).toNat
  let valid := fun (b : Nat) => match value .bf16 b with
    | .fin false m _ => decide (m ≠ 0)
    | _ => false
  let scaled := fun (v : Machine.Num) (b : Nat) => value .f32 (divRound .f32 .rne v (value .bf16 b))
  (∀ x ty first, ty ∈ [Ty.e4m3, .e5m2, .e3m2, .e2m3, .e2m1] →
    Results (.blkscale x ty first) x
      { wr := [(x.d, 1)], rd := [(x.a, 1)], un := [(x.c, 1)], first := first, whole := true, skip := true,
        grp := some (x.b, x.c) }
      (fun _ t _ act => (uni t act x.c).toNat ∈ [8, 16, 32])
      fun _ t _ act l =>
        let L := (uni t act x.c).toNat
        let g := (lanesOf act).filter fun k => k / L == l / L
        let beta := band (t.reg (g.headD 0) x.b.toNat)
        let vs := g.map fun k => value .f32 (t.reg k x.a.toNat).toNat
        let ys := vs.map fun v => (scaled v beta).abs
        wr1 x.d (BitVec.ofNat 32 (
          if (!valid beta || vs.any Num.isNan || (vs.any Num.isInf && ty != .e5m2)) = true then 0xFF
          else if (ys.all Num.isZero) = true then 0
          else if (ys.any Num.isInf) = true then 0xFE
          else blockScale ty (maxNum ys)))) ∧
  (∀ x ty rnd, ty ∈ [Ty.e4m3, .e5m2, .e3m2, .e2m3, .e2m1] →
    LaneResults (.quant x ty rnd) x (Use.lanes [(x.d, 1)]
      ([(x.a, 1), (x.b, 1), (x.c, 1)] ++ if rnd = .rs then [(x.e, 1)] else [])) fun rd =>
      let s := ((rd x.c.toNat).extractLsb' 0 8).toNat
      let v := value .f32 (rd x.a.toNat).toNat
      let beta := band (rd x.b.toNat)
      wr1 x.d (BitVec.ofNat 32 (
        if s = 0xFF ∨ s = 0 ∨ valid beta = false ∨ v.isNan = true then 0
        else quantCode ty rnd (band (rd x.e.toNat)) (scaled v beta) s))) ∧
  (∀ x dst src rnd sat, LaneResults (.deq x dst src rnd sat) x (use3 x 1 1 1 1) fun rd =>
    let q := value src (rd x.a.toNat).toNat
    let s := ((rd x.b.toNat).extractLsb' 0 8).toNat
    let beta := band (rd x.c.toNat)
    wr1 x.d (BitVec.ofNat 32 (
      if s = 0xFF ∨ q.isNan = true ∨ valid beta = false then (floatFormat dst).nanCode
      else roundTo dst rnd sat 0 ((q.mul (value .e3m5 s)).mul (value .bf16 beta)))))

/-- O22. R220 (.rup to E3M5, saturated) and R221 (exact quotient, one rounding). -/
def Obligations.BlockScaleAndElementQuotients : Prop :=
  ∀ ty, ty ∈ [Ty.e4m3, .e5m2, .e3m2, .e2m3, .e2m1] →
    (∀ m e, m ≠ 0 →
      let want := (Machine.Num.fin false m e).toRat / (maxValue ty).toRat
      let c := blockScale ty (.fin false m e)
      (want ≤ (maxValue .e3m5).toRat → c ≤ 0xFE ∧ want ≤ (value .e3m5 c).toRat ∧
        ∀ c', c' ≤ 0xFE → want ≤ (value .e3m5 c').toRat → (value .e3m5 c).toRat ≤ (value .e3m5 c').toRat) ∧
      ((maxValue .e3m5).toRat < want → c = 0xFE)) ∧
    (∀ r rho t m e s n g, value .e3m5 s = .fin false n g → n ≠ 0 → m ≠ 0 →
      ∃ num den, den ≠ 0 ∧ quantCode ty r rho (.fin t m e) s = roundQ ty r true rho t num den ∧
        (num : ℚ) / den = |(Machine.Num.fin t m e).toRat / (value .e3m5 s).toRat|) ∧
    ∀ r rho t s, value .e3m5 s ≠ .nan → (value .e3m5 s).isZero = false →
      quantCode ty r rho (.inf t) s =
        (if t = true then 2 ^ ((floatFormat ty).width - 1) else 0) + (floatFormat ty).maxCode

/-- O23. R223 to R226 and R388. That a record is made at the ring by a step of its own is R226's order. -/
def Obligations.AmaxRings : Prop :=
  let ring := fun (x : Ins) (r : BitVec 9) (t : Troupe) (act : Word) =>
    if x.fmt = .f00 then (uni t act r).toNat else x.imm.toNat
  (∀ x first, Completes (.amaxrec x first) x
      { wr := [], rd := [(x.a, 1)], un := if x.fmt = .f00 then [(x.b, 1)] else [], first := first, whole := true,
        skip := true }
      (fun s t _ act => s.ringOk t (ring x x.b t act) = true)
      fun s t p act s' t' => t.OnwardOnly t' p s.now x ∧ s'.pool = s.pool ∧
        ∃ m : Word, t'.recs = t.recs ++
            [{ ring := ring x x.b t act, value := m, own := [p.sel], partner := none, from_ := s.now }] ∧
          (∀ l, act.getLsbD l = true → (value .f32 (t.reg l x.a.toNat).toNat).isNan = false →
            (value .f32 (t.reg l x.a.toNat).toNat).abs.ext ≤ (value .f32 m.toNat).ext) ∧
          (m = 0 ∨ ∃ l, act.getLsbD l = true ∧ m = t.reg l x.a.toNat &&& 0x7FFFFFFF)) ∧
  (∀ x ty first, Results (.amaxrd x ty first) x
      { wr := [(x.d, 1)], rd := [], un := if x.fmt = .f00 then [(x.a, 1)] else [], first := first, whole := true }
      (fun s t _ act => s.ringOk t (ring x x.a t act) = true ∧ ∀ e ∈ t.recs, e.ring ≠ ring x x.a t act)
      fun s t _ act _ =>
        let mu := maxNum ((s.ring t.die (ring x x.a t act)).entries.map fun e => value .f32 e.toNat)
        wr1 x.d (BitVec.ofNat 32 (if ty = .f32 then roundTo .f32 .rne false 0 mu else bandScale ty mu))) ∧
  (∀ x ty first, Completes (.amaxrd x ty first) x
      { wr := [(x.d, 1)], rd := [], un := if x.fmt = .f00 then [(x.a, 1)] else [], first := first, whole := true }
      (fun s t _ act => s.ringOk t (ring x x.a t act) = true ∧ ∃ e ∈ t.recs, e.ring = ring x x.a t act)
      fun _ t p _ _ t' => t.SameRegs t' ∧ ∃ q, t'.path? p.sel = some q ∧ q.pc = p.pc ∧ q.wait = .retry) ∧
  (∀ (s : State) (t : Troupe) (r : RingRec) (rest : List RingRec),
    s.troupe? t.id = some t → t.run = .running → t.recs = r :: rest → r.from_ ≤ s.now → t.die < s.dies.length →
    (∀ e, s.ens? t.ens = some e → e.st ≠ .preempting) →
    ∃ s', exec (.amaxrecRecord t.id) s = .next s' ∧ s'.troupe? t.id = some { t with recs := rest } ∧
      (s'.ring t.die r.ring).head = ((s.ring t.die r.ring).head + 1) % 16 ∧
      (∀ k, lget 0 (s'.ring t.die r.ring).entries k =
        if k = (s.ring t.die r.ring).head ∧ k < (s.ring t.die r.ring).entries.length then r.value
        else lget 0 (s.ring t.die r.ring).entries k) ∧
      (∀ d k, (d ≠ t.die ∨ k ≠ r.ring) → s'.ring d k = s.ring d k) ∧ s'.pool = s.pool) ∧
  (∀ xs : List Machine.Num, (∀ x ∈ xs, x.isNan = false ∧ x.signNeg = false) →
    (maxNum xs = .fin false 0 0 ∨ maxNum xs ∈ xs) ∧ ∀ x ∈ xs, x.ext ≤ (maxNum xs).ext) ∧
  ∀ ty, ty ∈ [Ty.e4m3, .e5m2, .e3m2, .e2m3, .e2m1] →
    (∀ s e, bandScale ty (.fin s 0 e) = 0x3F80) ∧ bandScale ty (.inf false) = 0x7F00 ∧
    ∀ m e, m ≠ 0 → ∃ k : Int, -133 ≤ k ∧ k ≤ 127 ∧ (value .bf16 (bandScale ty (.fin false m e))).toRat = 2 ^ k ∧
      let room := fun (j : Int) => (2 : ℚ) ^ j * 16 * (maxValue ty).toRat
      ((Machine.Num.fin false m e).toRat ≤ room k ∨ k = 127) ∧
        (k = -133 ∨ room (k - 1) < (Machine.Num.fin false m e).toRat)

/-- O24. R227, with w = 6 and w = 4. -/
def Obligations.Packing : Prop :=
  let bit := fun (t : Troupe) (act : Word) (r : BitVec 9) (l k : Nat) =>
    act.getLsbD l && (t.reg l r.toNat).getLsbD k
  let pack := fun (w : Nat) (x : Ins) (t : Troupe) (act : Word) (j : Nat) =>
    wr1 x.d (if j < w then
      maskOf ((List.range 32).filter fun i => bit t act x.a ((32 * j + i) / w) ((32 * j + i) % w)) else 0)
  let unpack := fun (w : Nat) (x : Ins) (t : Troupe) (act : Word) (e : Nat) =>
    wr1 x.d (maskOf ((List.range w).filter fun i => bit t act x.a ((w * e + i) / 32) ((w * e + i) % 32)))
  (∀ x, Results (.pack6 x) x { use1 x 1 1 with whole := true, skip := true } (fun _ _ _ _ => True) fun _ t _ act l =>
    pack 6 x t act l) ∧
  (∀ x, Results (.unpack6 x) x { use1 x 1 1 with whole := true, skip := true } (fun _ _ _ _ => True) fun _ t _ act l =>
    unpack 6 x t act l) ∧
  (∀ x, Results (.pack4 x) x { use1 x 1 1 with whole := true, skip := true } (fun _ _ _ _ => True) fun _ t _ act l =>
    pack 4 x t act l) ∧
  (∀ x, Results (.unpack4 x) x { use1 x 1 1 with whole := true, skip := true } (fun _ _ _ _ => True) fun _ t _ act l =>
    unpack 4 x t act l)

/-- O25. R251 to R260. Float sums, minima and maxima are those of FloatArithmetic. -/
def Obligations.CrossLane : Prop :=
  let S := fun (t : Troupe) (act : Word) (l : Nat) =>
    (List.range 32).filter fun k => act.getLsbD k && k / t.tilePart.toNat == l / t.tilePart.toNat
  let cross := fun (wr rd : List (BitVec 9 × Nat)) => { Use.lanes wr rd with whole := true, skip := true }
  let one := fun (x : Ins) => cross [(x.d, 1)] [(x.a, 1)]
  (∀ x k ty, Results (.shfl x k ty) x (cross [(x.d, ty.regs)] [(x.a, ty.regs), (x.b, 1), (x.c, ty.regs)])
    (fun _ _ _ _ => True) fun _ t _ act l =>
      let w := t.tilePart.toNat
      let b := (t.reg l x.b.toNat).toNat
      let t0 := l / w * w
      let src := match k with
        | .idx => if b < w then some (t0 + b) else none
        | .up => if b ≤ l - t0 then some (l - b) else none
        | .down => if b < t0 + w - l then some (l + b) else none
        | .xor => if b < 32 ∧ (l ^^^ b) / w = l / w then some (l ^^^ b) else none
      wrTy ty x.d (match src with
        | some q => if act.getLsbD q = true then rdTy ty (t.reg q) x.a else rdTy ty (t.reg l) x.c
        | none => rdTy ty (t.reg l) x.c)) ∧
  (∀ x any, Results (.vote x any) x (one x) (fun _ _ _ _ => True) fun _ t _ act l =>
    wr1 x.d (if (if any = true then (S t act l).any fun k => (t.reg k x.a.toNat).getLsbD 0
      else (S t act l).all fun k => (t.reg k x.a.toNat).getLsbD 0) = true then 1 else 0)) ∧
  (∀ x, Results (.ballot x) x (one x) (fun _ _ _ _ => True) fun _ t _ act l =>
    wr1 x.d (maskOf ((S t act l).filter fun k => (t.reg k x.a.toNat).getLsbD 0))) ∧
  (∀ x op ty rnd sat, Results (.redux x op ty rnd sat) x (one x) (fun _ _ _ _ => True) fun _ t _ act l =>
    wr1 x.d (BitVec.ofNat 32 (combine op ty rnd sat ((S t act l).map fun k => (t.reg k x.a.toNat).toNat)))) ∧
  (∀ x excl op ty rnd sat, Results (.scan x excl op ty rnd sat) x (one x) (fun _ _ _ _ => True) fun _ t _ act l =>
    wr1 x.d (BitVec.ofNat 32 (combine op ty rnd sat
      (((S t act l).filter fun k => if excl = true then decide (k < l) else decide (k ≤ l)).map
        fun k => (t.reg k x.a.toNat).toNat)))) ∧
  (∀ x ty, Results (.argmx x ty) x (one x) (fun _ _ _ _ => True) fun _ t _ act l =>
    wr1 x.d (argLane true ty (fun k => (t.reg k x.a.toNat).toNat) (S t act l))) ∧
  (∀ x ty, Results (.argmn x ty) x (one x) (fun _ _ _ _ => True) fun _ t _ act l =>
    wr1 x.d (argLane false ty (fun k => (t.reg k x.a.toNat).toNat) (S t act l))) ∧
  (∀ x ty first, Results (.bcast x ty first) x
      { wr := [(x.d, ty.regs)], rd := (x.a, ty.regs) :: (if x.fmt = .f00 then [(x.c, ty.regs)] else []),
        un := if x.fmt = .f00 then [(x.b, 1)] else [], first := first, whole := true }
      (fun _ _ _ _ => True) fun _ t _ act l =>
    let w := t.tilePart.toNat
    let n := if x.fmt = .f00 then (uni t act x.b).toNat else x.imm.toNat
    wrTy ty x.d (if n < w ∧ act.getLsbD (l / w * w + n) = true then rdTy ty (t.reg (l / w * w + n)) x.a
      else if x.fmt = .f00 then rdTy ty (t.reg l) x.c else 0)) ∧
  (∀ x ty, Results (.matchKey x (some ty)) x (cross [(x.d, 1)] [(x.a, ty.regs)]) (fun _ _ _ _ => True)
    fun _ t _ act l =>
      wr1 x.d (maskOf ((S t act l).filter fun k => rdTy ty (t.reg k) x.a == rdTy ty (t.reg l) x.a))) ∧
  (∀ x, Results (.matchKey x none) x (cross [(x.d, 1)] [])
    (fun _ _ _ _ => x.imm.toNat ∈ [0, 1, 2, 3, 4, 5, 0x10, 0x11, 0x12, 0x13]) fun s t _ act l =>
      let key := fun k => idfValue (s.headerOf t) (t.lane k).item x.imm.toNat
      wr1 x.d (maskOf ((S t act l).filter fun k => key k == key l))) ∧
  (∀ x, Results (.firstl x) x (cross [(x.d, 1)] (if x.fmt = .f00 then [(x.a, 1)] else [])) (fun _ _ _ _ => True)
    fun _ t _ act l =>
      wr1 x.d (BitVec.ofNat 32 (((S t act l).filter fun k =>
        (if x.fmt = .f00 then t.reg k x.a.toNat else x.imm).getLsbD 0).headD 0xFFFFFFFF)))

/-- O26. R254 and R255. -/
def Obligations.CombinationsAndArgLanes : Prop :=
  (∀ (ty : Ty) rnd sat (vs : List Nat), ty ∈ [Ty.s32, .n32] →
    combine .add ty rnd sat vs = ty.deliver sat (vs.map ty.toInt).sum ∧
    (∀ v ∈ vs, ty.toInt (combine .min ty rnd sat vs) ≤ ty.toInt v ∧ ty.toInt v ≤ ty.toInt (combine .max ty rnd sat vs)) ∧
    (vs ≠ [] → (∀ v ∈ vs, v < 2 ^ 32) → combine .min ty rnd sat vs ∈ vs ∧ combine .max ty rnd sat vs ∈ vs) ∧
    ty.toInt (combine .min ty rnd sat []) = ty.greatest ∧ ty.toInt (combine .max ty rnd sat []) = ty.least) ∧
  (∀ rnd sat (vs : List Nat) k, k < 32 →
    (combine .and .b32 rnd sat vs).testBit k = (vs.all fun v => v.testBit k) ∧
    (combine .or .b32 rnd sat vs).testBit k = (vs.any fun v => v.testBit k) ∧
    (combine .xor .b32 rnd sat vs).testBit k = decide ((vs.countP fun v => v.testBit k) % 2 = 1)) ∧
  (∀ rnd sat, combine .add .f32 rnd sat [] = 0 ∧ combine .min .f32 rnd sat [] = 0x7F800000 ∧
    combine .max .f32 rnd sat [] = 0xFF800000) ∧
  (∀ rnd sat (vs : List Nat), vs ≠ [] → combine .add .f32 rnd sat vs =
    roundTo .f32 rnd false 0 (sumNum (rnd == .rdn) (vs.map (value .f32)))) ∧
  (∀ rnd sat (vs : List Nat), (vs.any fun v => (value .f32 v).isNan) = true →
    combine .min .f32 rnd sat vs = 0x7FC00000 ∧ combine .max .f32 rnd sat vs = 0x7FC00000) ∧
  (∀ rnd sat (vs : List Nat), vs ≠ [] → (vs.all fun v => !(value .f32 v).isNan && decide (v < 2 ^ 32)) = true →
    combine .min .f32 rnd sat vs ∈ vs ∧ combine .max .f32 rnd sat vs ∈ vs ∧
    ∀ v ∈ vs, (value .f32 v).below (value .f32 (combine .min .f32 rnd sat vs)) = false ∧
      (value .f32 (combine .max .f32 rnd sat vs)).below (value .f32 v) = false) ∧
  ∀ (isMax : Bool) (ty : Ty) (v : Nat → Nat) (ls : List Nat), ty ∈ [Ty.s32, .n32, .f32] → ls.Pairwise (· < ·) →
    (∀ l ∈ ls, l < 32) →
    let good := fun l => if ty = .f32 then !(value .f32 (v l)).isNan else true
    let better := fun l k => if ty = .f32 then
        (if isMax = true then (value .f32 (v k)).below (value .f32 (v l)) else (value .f32 (v l)).below (value .f32 (v k)))
      else if isMax = true then decide (ty.toInt (v k) < ty.toInt (v l)) else decide (ty.toInt (v l) < ty.toInt (v k))
    ((ls.any good) = false → argLane isMax ty v ls = 0xFFFFFFFF) ∧
    ((ls.any good) = true → ∃ b ∈ ls, argLane isMax ty v ls = BitVec.ofNat 32 b ∧ good b = true ∧
      ∀ l ∈ ls, good l = true → better l b = false ∧ (l < b → better b l = true))

/-- O27. R187, with the boundaries of R14 and R16. -/
def Obligations.ItemFields : Prop :=
  (∀ x, Results (.idf x) x (Use.lanes [(x.d, 2)] [])
    (fun _ _ _ _ => x.imm.toNat ∈ [0, 1, 2, 3, 4, 5, 0x10, 0x11, 0x12, 0x13]) fun s t _ _ l =>
      let h := s.headerOf t
      let b := fun k => if k < h.fields then (h.widths.take k).sum else 64
      let v := (t.lane l).item
      let k := x.imm.toNat
      wr2 x.d (
        if k ≤ 5 then (if k < h.fields then BitVec.ofNat 64 (v.toNat / 2 ^ b k % 2 ^ (b (k + 1) - b k)) else 0)
        else if k = 0x10 then v >>> b h.tlv
        else if k = 0x11 then v >>> b h.elv
        else if k = 0x12 then BitVec.ofNat 64 (v.toNat % 2 ^ b h.tlv)
        else BitVec.ofNat 64 (v.toNat % 2 ^ b h.elv))) ∧
  ∀ x, Completes (.idf x) x (Use.lanes [(x.d, 2)] [])
    (fun s t p _ => x.imm.toNat ∉ [0, 1, 2, 3, 4, 5, 0x10, 0x11, 0x12, 0x13] ∧ Delivers s t p)
    fun s t p act s' t' => Delivered s t p act 0x0B 0 (p.pc + 16) (stampAfter s p x) s' t'

/-- O28. R104, R105 and R188 (with R109 for %part); the value of each selector is that of R106. -/
def Obligations.SpecialRegisters : Prop :=
  let wide := fun (n : Nat) => decide (n ∈ [0x02, 0x1A, 0x1B, 0x1D, 0x1E, 0x20, 0x21])
  (∀ x, Results (.movs x) x (Use.lanes [(x.d, if wide x.imm.toNat = true then 2 else 1)] [])
    (fun _ _ _ _ => x.imm.toNat ≤ 0x24) fun s t p _ l =>
      let n := x.imm.toNat
      let c := t.lane l
      let f := t.slice (l / 4)
      if wide n = true then
        wr2 x.d (if n = 0x02 then c.item else if n = 0x1A then t.rsm else if n = 0x1B then t.save
          else if n = 0x1D then f.fpc else if n = 0x1E then c.faddr else if n = 0x20 then f.forig else s.clock t.die)
      else
        wr1 x.d (if n = 0x00 then c.item.extractLsb' 0 32 else if n = 0x01 then c.item.extractLsb' 32 32
          else if n = 0x03 then c.refills
          else if n ≤ 0x09 then ((idfValue (s.headerOf t) c.item (n - 4)).getD 0).extractLsb' 0 32
          else if n = 0x0A then BitVec.ofNat 32 l else if n = 0x0B then BitVec.ofNat 32 (l / 4)
          else if n = 0x0C then BitVec.ofNat 32 t.idx else if n = 0x0D then BitVec.ofNat 32 t.sec
          else if n = 0x0E then BitVec.ofNat 32 (((s.ens? t.ens).map (·.num)).getD 0)
          else if n = 0x0F then t.pathLanes p else if n = 0x10 then t.tilePart else if n = 0x11 then t.mrow
          else if n ≤ 0x19 then lget 0 (s.sect t.ens t.sec).wp (n - 0x12)
          else if n = 0x1C then f.fcode else if n = 0x1F then f.fmask else if n = 0x22 then BitVec.ofNat 32 s.pbound
          else if n = 0x23 then BitVec.ofNat 32 t.die else BitVec.ofNat 32 t.core)) ∧
  (∀ x first, Completes (.movsw x first) x (Use.cmd [] [(x.a, 1)] first)
    (fun _ t _ act => (x.imm = 0x10 ∧ (uni t act x.a).toNat ∈ [2, 4, 8, 16, 32]) ∨ x.imm = 0x11)
    fun s t p act s' t' => t.OnwardOnly t' p s.now x ∧ s'.pool = s.pool ∧ t'.enable = t.enable ∧
      t'.tilePart = (if x.imm = 0x10 then uni t act x.a else t.tilePart) ∧
      t'.mrow = if x.imm = 0x11 then (uni t act x.a &&& ~~~t.mrowSet) ||| (t.mrow &&& t.mrowSet) else t.mrow) ∧
  (∀ x, Completes (.movs x) x (Use.lanes [(x.d, 1)] []) (fun s t p _ => 0x24 < x.imm.toNat ∧ Delivers s t p)
    fun s t p act s' t' => Delivered s t p act 0x0B 0 (p.pc + 16) (stampAfter s p x) s' t') ∧
  ∀ x first, Completes (.movsw x first) x (Use.cmd [] [(x.a, 1)] first)
    (fun s t p act => ((x.imm = 0x10 ∧ (uni t act x.a).toNat ∉ [2, 4, 8, 16, 32]) ∨ (x.imm ≠ 0x10 ∧ x.imm ≠ 0x11)) ∧
      Delivers s t p)
    fun s t p act s' t' => Delivered s t p act 0x0B 0 (p.pc + 16) (stampAfter s p x) s' t'

/-- O29. R169 with the offsets of R165. A target that fails R157 is BranchFaults. -/
def Obligations.Branches : Prop :=
  (∀ x, Jumps (.bra x) x Use.none_ false fun _ p _ => some ((p.pc : Int) + 16 * x.imm.toInt)) ∧
  (∀ x first, Jumps (.brc x first) x { Use.cmd [] [(x.a, 1)] first with bits := 1 } false fun t p act =>
    if (uni t act x.a).getLsbD 0 = true then some ((p.pc : Int) + 16 * x.imm.toInt) else none) ∧
  (∀ x first, Jumps (.jmpi x first) x (Use.cmd [] [(x.a, 2)] first) false fun t _ act =>
    some (uniPair t act x.a).toNat) ∧
  (∀ x, Jumps (.call x) x (Use.lanes [(x.d, 2)] []) true fun _ p _ => some ((p.pc : Int) + 16 * x.imm.toInt)) ∧
  (∀ x first, Jumps (.calli x first) x (Use.cmd [(x.d, 2)] [(x.a, 2)] first) true fun t _ act =>
    some (uniPair t act x.a).toNat) ∧
  (∀ x first, Jumps (.ret x first) x (Use.cmd [] [(x.a, 2)] first) false fun t _ act =>
    some (uniPair t act x.a).toNat)

/-- O30. R157, R169, R170 and R452. A page that is mapped and not resident swaps the ensemble out, which is another statement. -/
def Obligations.BranchFaults : Prop :=
  let faults := fun (i : Instr) (x : Ins) (u : Use) (tgt : Troupe → Path → Word → Option Int) =>
    ∀ a c, Completes i x u
      (fun s t p act => p.retry = false ∧ Delivers s t p ∧ tgt t p act = some a ∧ s.checkTarget t a = .fault c ∧
        s.targetWaits t (.path (refOf t p)) a = none)
      fun s t p act s' t' => Delivered s t p act c (a % 2 ^ 64).toNat p.pc (stampAfter s p x) s' t'
  let calls := fun (i : Instr) (x : Ins) (u : Use) (tgt : Troupe → Path → Word → Int) =>
    ∀ c, Completes i x u
      (fun s t p act => p.retry = false ∧ Delivers s t p ∧ s.checkTarget t (tgt t p act) = .fault c ∧
        s.targetWaits t (.path (refOf t p)) (tgt t p act) = none)
      fun s t p act s' t' => (∀ l r, t'.reg l r = if r = 511 then 0 else if act.getLsbD l = true then
          regAfter (wr2 x.d (BitVec.ofNat 64 (p.pc + 16))) r (t.reg l r) else t.reg l r) ∧
        InHandlers s t p act c (fun _ => (tgt t p act % 2 ^ 64).toNat) (stampAfter s p x) s' t' ∧
        ∃ q ∈ t'.path? p.sel, q.pc = p.pc ∧ q.slices = p.slices &&& ~~~slicesOf act
  let into := fun (x : Ins) (t : Troupe) (p : Path) (act : Word) (side : Bool) (k : Nat) => p.slices.getLsbD k &&
    (!side || slicePresent act k) && sliceAll act (fun l => (t.reg l x.a.toNat).getLsbD 0 == side) k
  let target := fun (x : Ins) (p : Path) (side : Bool) => (p.pc : Int) + 16 * (if side = true then x.imm.toInt else 1)
  (∀ (s : State) (t : Troupe) (a : Int),
    (a % 16 ≠ 0 → s.checkTarget t a = .fault 0x04) ∧
    (a % 16 = 0 → (a < 0 ∨ 2 ^ 64 - 15 ≤ a) → s.checkTarget t a = .fault 0x06) ∧
    (a % 16 = 0 → 0 ≤ a → a < 2 ^ 64 - 15 →
      (s.translate (s.sidOf t) t.die a.toNat = .unmapped → s.checkTarget t a = .fault 0x05) ∧
      (s.translate (s.sidOf t) t.die a.toNat = .absent → s.checkTarget t a = .swap) ∧
      ∀ h pa q, s.translate (s.sidOf t) t.die a.toNat = .ok h pa q → q.kind ≠ .device →
        t.die < s.dies.length → mfind (s.core t.die t.core).icache (codeKey h pa) = none → s.line? h (pa / 128) = none →
        pa % 16 = 0 → s.pool.wf = true →
        s.checkTarget t a = if Memory.byte s.pool pa = 0 then .ok else .fault 0x04)) ∧
  (∀ x, faults (.bra x) x Use.none_ fun _ p _ => some ((p.pc : Int) + 16 * x.imm.toInt)) ∧
  (∀ x first, faults (.brc x first) x { Use.cmd [] [(x.a, 1)] first with bits := 1 } fun t p act =>
    if (uni t act x.a).getLsbD 0 = true then some ((p.pc : Int) + 16 * x.imm.toInt) else none) ∧
  (∀ x first, faults (.jmpi x first) x (Use.cmd [] [(x.a, 2)] first) fun t _ act =>
    some (uniPair t act x.a).toNat) ∧
  (∀ x first, faults (.ret x first) x (Use.cmd [] [(x.a, 2)] first) fun t _ act =>
    some (uniPair t act x.a).toNat) ∧
  (∀ x, calls (.call x) x (Use.lanes [(x.d, 2)] []) fun _ p _ => (p.pc : Int) + 16 * x.imm.toInt) ∧
  (∀ x first, calls (.calli x first) x (Use.cmd [(x.d, 2)] [(x.a, 2)] first) fun t _ act => (uniPair t act x.a).toNat) ∧
  ∀ x side c, Completes (.brd x) x (Use.lanes [] [(x.a, 1)])
    (fun s t p act => Delivers s t p ∧ p.ordinary = true ∧ p.again = 0 ∧ target x p true ≠ target x p false ∧
      (∀ j, s.targetWaits t (.path (refOf t p)) (target x p j) = none) ∧
      (∀ k, k < 8 → p.slices.getLsbD k = true → ∃ j, into x t p act j k = true) ∧
      (∃ k, k < 8 ∧ into x t p act side k = true ∧ slicePresent act k = true) ∧
      s.checkTarget t (target x p side) = .fault c ∧
      ((∃ k, k < 8 ∧ into x t p act (!side) k = true) → t.ganged = true ∧ s.checkTarget t (target x p (!side)) = .ok))
    fun s t p act s' t' => t.SameRegs t' ∧
      InHandlers s t p (maskOf ((List.range 32).filter fun l => act.getLsbD l && into x t p act side (l / 4))) c
        (fun _ => (target x p side % 2 ^ 64).toNat) (stampAfter s p x) s' t' ∧
      ∀ k, k < 8 → into x t p act (!side) k = true → ∃ q ∈ t'.ordPaths, q.slices.getLsbD k = true ∧
        (q.pc : Int) = target x p (!side) ∧ q.blk = none

/-- O31. R39, R40, R41 and R170, where no slice traps. -/
def Obligations.BrdMovesAndParts : Prop :=
  let cond := fun (x : Ins) (t : Troupe) (l : Nat) => (t.reg l x.a.toNat).getLsbD 0
  let taken := fun (x : Ins) (t : Troupe) (p : Path) (act : Word) (k : Nat) =>
    p.slices.getLsbD k && slicePresent act k && sliceAll act (cond x t) k
  let fall := fun (x : Ins) (t : Troupe) (p : Path) (act : Word) (k : Nat) =>
    p.slices.getLsbD k && sliceAll act (fun l => !cond x t l) k
  let target := fun (x : Ins) (p : Path) => (p.pc : Int) + 16 * x.imm.toInt
  let pre := fun (x : Ins) (s : State) (t : Troupe) (p : Path) (act : Word) =>
    p.ordinary = true ∧ p.again = 0 ∧ s.targetWaits t (.path (refOf t p)) (target x p) = none ∧
    s.targetWaits t (.path (refOf t p)) (p.pc + 16) = none ∧
    (∀ k, k < 8 → p.slices.getLsbD k = true → taken x t p act k = true ∨ fall x t p act k = true) ∧
    ((∃ k, k < 8 ∧ taken x t p act k = true) → s.checkTarget t (target x p) = .ok) ∧
    ((∃ k, k < 8 ∧ fall x t p act k = true ∧ slicePresent act k = true) → s.checkTarget t (p.pc + 16) = .ok)
  let holds := fun (q : Path) (side : Nat → Bool) => ∀ k, k < 8 → q.slices.getLsbD k = side k
  let whole := fun (x : Ins) (a : Path → Int) (c : Troupe → Path → Word → Prop) =>
    Completes (.brd x) x (Use.lanes [] [(x.a, 1)]) (fun s t p act => pre x s t p act ∧ c t p act)
      fun _ t p _ _ t' => t.SameRegs t' ∧ t.OtherPaths t' p.sel ∧ ∃ q ∈ t'.path? p.sel,
        (q.pc : Int) = a p ∧ q.blk = none ∧ q.slices = p.slices ∧ q.stack = p.stack
  (∀ x, whole x (fun p => p.pc + 16) fun t p act => ∀ k, k < 8 → taken x t p act k = false) ∧
  (∀ x, whole x (target x) fun t p act => ∀ k, k < 8 → fall x t p act k = false) ∧
  (∀ x, Completes (.brd x) x (Use.lanes [] [(x.a, 1)])
    (fun s t p act => pre x s t p act ∧ t.ganged = true ∧ target x p ≠ p.pc + 16 ∧
      (∃ k, k < 8 ∧ taken x t p act k = true) ∧ ∃ k, k < 8 ∧ fall x t p act k = true)
    fun s t p act _ t' => t.SameRegs t' ∧ t'.ordPaths.length = 2 ∧ ∃ q0 ∈ t'.path? (.ord 0), ∃ q1 ∈ t'.path? (.ord 1),
      q0.stack = [] ∧ q1.stack = [] ∧ q0.blk = none ∧ q1.blk = none ∧ q0.stamp = stampAfter s p x ∧
      q1.stamp = stampAfter s p x ∧
      ((holds q0 (taken x t p act) ∧ holds q1 (fall x t p act) ∧ (q0.pc : Int) = target x p ∧ q1.pc = p.pc + 16 ∧
          ∃ k, k < 8 ∧ taken x t p act k = true ∧ ∀ j, j < k → fall x t p act j = false) ∨
        (holds q0 (fall x t p act) ∧ holds q1 (taken x t p act) ∧ q0.pc = p.pc + 16 ∧ (q1.pc : Int) = target x p ∧
          ∃ k, k < 8 ∧ fall x t p act k = true ∧ ∀ j, j < k → taken x t p act j = false))) ∧
  ∀ x, Completes (.brd x) x (Use.lanes [] [(x.a, 1)])
    (fun s t p act => pre x s t p act ∧ t.ganged = false ∧ target x p ≠ p.pc + 16 ∧ p.stack.length ≤ 14 ∧
      (∃ k, k < 8 ∧ taken x t p act k = true) ∧ (∃ k, k < 8 ∧ fall x t p act k = true) ∧
      ∀ b, p.blk = some b → 0 ≤ (b.hdr : Int) + 16 * b.rcv.toInt ∧
        (b.hdr : Int) + 16 * b.rcv.toInt < 2 ^ 64)
    fun _ t p act _ t' => t.SameRegs t' ∧ t.OtherPaths t' p.sel ∧ ∃ q ∈ t'.path? p.sel, (q.pc : Int) = target x p ∧
      q.blk = none ∧ holds q (taken x t p act) ∧ ∃ f es, q.stack = .deferred f (p.pc + 16) :: es ∧
        (∀ k, k < 8 → f.getLsbD k = fall x t p act k) ∧
        match p.blk with
        | some b => if b.rcv = 0 then es = p.stack
          else ∃ pc : Nat, (pc : Int) = b.hdr + 16 * b.rcv.toInt ∧ ∃ former, es = .join former pc :: p.stack ∧
            ∀ k, k < 8 → former.getLsbD k = p.slices.getLsbD k
        | none => es = p.stack

/-- O32. R43 and R171: the control effect of REGANG. -/
def Obligations.RegangMerges : Prop :=
  (∀ x, Completes (.regang x) x Use.none_ (fun _ t p _ => t.ganged = true ∨ p.ordinary = false)
    fun s t p _ s' t' => t.OnwardOnly t' p s.now x ∧ s'.pool = s.pool) ∧
  ∀ x q, Completes (.regang x) x Use.none_
    (fun _ t p _ => t.ganged = false ∧ (t.paths = [p, q] ∨ t.paths = [q, p]) ∧ p.ordinary = true ∧ q.ordinary = true ∧ p.sel ≠ q.sel ∧
      p.stack = [] ∧ p.slices ≠ 0 ∧ q.stack = [] ∧ q.slices = 0 ∧ q.waiting ≠ [] ∧ q.wait = .none ∧
      (∀ w ∈ p.waiting ++ q.waiting, w.slices ≠ 0) ∧ t.slicesIn .following &&& ~~~slicesOf t.live = 0)
    fun s t p _ _ t' => t.SameRegs t' ∧ ∃ m, t'.paths = [m] ∧ m.sel = .ord 0 ∧ m.stack = [] ∧ m.waiting = [] ∧
      m.stamp = min (stampAfter s p x) q.stamp ∧
      (∀ k, m.slices.getLsbD k = (p.slices.getLsbD k || (p.waiting ++ q.waiting).any fun w => w.slices.getLsbD k)) ∧
      (m.pc = p.pc + 16 ∨ ∃ w ∈ p.waiting ++ q.waiting, w.pc = m.pc) ∧ m.pc ≤ p.pc + 16 ∧
      ∀ w ∈ p.waiting ++ q.waiting, m.pc ≤ w.pc

/-- O33. R45 and R172 on an ordinary path. -/
def Obligations.ExitLeavesLanesExited : Prop :=
  ∀ x, Completes (.exit x) x Use.none_
    (fun _ t p _ => t.routine = .none ∧ p.ordinary = true ∧ t.NoBarWait ∧ t.slices.length = 8)
    fun s t _ act s' t' => t.SameRegs t' ∧ t'.enable = t.enable ∧ t'.holdsExt = t.holdsExt ∧ t'.run = .running ∧
      s'.pool = s.pool ∧
      (∀ l, l < t.lanes.length → (t'.lane l).st = (if act.getLsbD l = true then .exited else (t.lane l).st) ∧
        (t'.lane l).item = (t.lane l).item ∧ (t'.lane l).refills = (t.lane l).refills) ∧
      ∀ k, k < 8 → (t'.slice k).st =
        if (t.slice k).st = .following ∧ (List.range 4).all (fun j => decide ((t'.lane (4 * k + j)).st ≠ .live)) = true then .idle
        else (t.slice k).st

/-- O34. R175, R177, R178; R48 and R50 for the two scheduling events. -/
def Obligations.PrefetchYieldNopSleep : Prop :=
  (∀ x, Completes (.nop x) x Use.none_ (fun _ _ _ _ => True) fun s t p _ s' t' =>
    t.OnwardOnly t' p s.now x ∧ s.SameBut s' t.id) ∧
  (∀ x, Completes (.ipf x) x { Use.none_ with un := if x.fmt = .f00 then [(x.a, 2)] else [], first := true }
    (fun _ _ _ _ => True) fun s t p _ s' t' => t.OnwardOnly t' p s.now x ∧ s'.pool = s.pool ∧ s'.ens = s.ens ∧
      s'.launches = s.launches ∧ ∀ j, j ≠ t.id → s'.troupe? j = s.troupe? j) ∧
  (∀ x, Completes (.yield x) x Use.none_ (fun _ _ p _ => p.retry = false) fun s t p _ s' t' =>
    t.SameRegs t' ∧ t.OtherPaths t' p.sel ∧ s.SameBut s' t.id ∧ ∃ q ∈ t'.path? p.sel, q.pc = p.pc + 16 ∧ q.wait = .none ∧
      q.stamp = s.now ∧ s.now + 2 ≤ q.stall ∧ s.now + 1 + x.stl.toNat ≤ q.stall) ∧
  (∀ x, Completes (.sleep x) x Use.none_ (fun _ _ _ _ => x.imm = 0) fun s t p _ s' t' =>
    t.OnwardOnly t' p s.now x ∧ s.SameBut s' t.id) ∧
  (∀ x, Completes (.sleep x) x Use.none_
    (fun s t p _ => x.imm ≠ 0 ∧ x.imm.toNat ≤ 65535 ∧ p.retry = false)
    fun s t p _ s' t' => t.SameRegs t' ∧ t.OtherPaths t' p.sel ∧ s.SameBut s' t.id ∧ ∃ q ∈ t'.path? p.sel,
      q.pc = p.pc + 16 ∧ q.wait = .sleep (s.now + 1 + x.imm.toNat)) ∧
  (∀ (s : State) (r : PathRef) (t : Troupe) (p : Path) n, s.troupe? r.troupe = some t → t.path? r.sel = some p →
    p.wait = .sleep n → ∃ s' t', exec (.sleepExpiry r) s = .next s' ∧ s'.troupe? r.troupe = some t' ∧
      t'.path? r.sel = some (if n ≤ s.now then { p with wait := .none } else p) ∧ t.SameRegs t') ∧
  (∀ (s : State) (r : PathRef) (t : Troupe) (p : Path), s.troupe? r.troupe = some t → t.path? r.sel = some p →
    ∃ s' t', exec (.stallCountExpiry r) s = .next s' ∧ s'.troupe? r.troupe = some t' ∧
      t'.path? r.sel = some (if p.stall ≤ s.now then { p with stall := 0 } else p) ∧ t.SameRegs t') ∧
  ∀ (s : State) (r : PathRef) (t : Troupe) (p : Path), s.troupe? r.troupe = some t → t.path? r.sel = some p →
    ∃ s' t', exec (.pathAged r) s = .next s' ∧ s'.troupe? r.troupe = some t' ∧
      t'.path? r.sel = some (if 1024 ≤ p.waitCnt then { p with aged := true } else p) ∧ t.SameRegs t'

/-- O35. R179 and R180. `p.again` holds the lanes of an instruction that executes once more (R192, R452), `p.retry` marks a slice that does so. -/
def Obligations.EnableMask : Prop :=
  let own := fun (t : Troupe) (p : Path) => match p.sel with
    | .ord _ => sliceLanes p.slices
    | .handler k => if p.retry = true then sliceLanes (sliceBit k) else (t.slice k).fmask &&& sliceLanes (sliceBit k)
  let mine := fun (t : Troupe) (p : Path) => t.live &&& if p.again = 0 then own t p else p.again
  (∀ x first s t p act, s.Issues t p → PassesOn t (mine t p) x (Use.cmd [] [(x.a, 1)] first) act →
    ∃ s' t', exec (.maskset x first) s = .next s' ∧ s'.troupe? t.id = some t' ∧ t.OnwardOnly t' p s.now x ∧
      s.SameBut s' t.id ∧ (∀ l, (t.lane l).SameBut (t'.lane l)) ∧
      ∀ l, l < 32 → t'.enable.getLsbD l =
        if (own t p).getLsbD l = true then (uni t act x.a).getLsbD l else t.enable.getLsbD l) ∧
  (∀ x first s t p, s.Issues t p → (guardsUsed x).any badCode = false → t.guarded (mine t p) x = 0 →
    ∃ s' t', exec (.maskset x first) s = .next s' ∧ s'.troupe? t.id = some t' ∧ t.OnwardOnly t' p s.now x ∧
      t'.enable = t.enable) ∧
  (∀ x, Results (.maskget x) x (Use.lanes [(x.d, 1)] []) (fun _ _ _ _ => True)
    fun _ t _ _ _ => wr1 x.d t.prevEnable) ∧
  ∀ (s : State) (rest : List Act), s.agenda = .tick :: rest → s.fw.frozen = false → s.fw.resetDue = false →
    (∀ e ∈ s.ens, e.st ≠ .preempting) → ∃ s', step s = .next s' ∧ ∀ t, s.troupe? t.id = some t → t.run = .running →
      s.onCores t = true → ∃ t', s'.troupe? t.id = some t' ∧ t'.prevEnable = t.enable ∧ t'.enable = t.enable

/-- O36. R181 to R185. That 0x40 goes before 0x80 where a Pre-empting ensemble's instance is abandoned too is the model's choice (log 42). The participants are the running troupes of the section (n below 8) or of the ensemble; `p.retry` marks the execution of one instruction again (R192). -/
def Obligations.Barriers : Prop :=
  let ready := fun (s : State) (t : Troupe) (p : Path) (e : Ensemble) (n : Nat) =>
    n ≤ 15 ∧ p.retry = false ∧ p.ordinary = true ∧ t.ordPaths = [p] ∧ t.NoBarWait ∧ s.ens? t.ens = some e ∧
      t.sec < e.sections.length ∧ (∀ c ∈ e.sections, c.bars.length = 8) ∧ e.bars.length = 8 ∧
      (e.bar t.sec n).held = [] ∧ (e.bar t.sec n).partial_ = []
  let others := fun (s : State) (t : Troupe) (b : Barrier) (n : Nat) =>
    ∀ u ∈ s.troupes, u.ens = t.ens → u.run = .running → (8 ≤ n ∨ u.sec = t.sec) → u.id = t.id ∨ u.id ∈ b.arrived
  let done := fun (s : State) (t t' : Troupe) (p : Path) (x : Ins) (act v : Word) =>
    t.Wrote t' act (fun _ => wr1 x.d v) ∧ t.Onward t' p s.now x
  let arv := fun (s : State) (t t' : Troupe) (p : Path) (x : Ins) (act : Word) (b b' : Barrier) =>
    done s t t' p x act (b.phase.zeroExtend 32 ||| if b.abandoned = true then 0x80000000 else 0) ∧
      (others s t b x.imm.toNat → b' = { b with phase := b.phase + 1, arrived := [] }) ∧
      (¬ others s t b x.imm.toNat → b'.phase = b.phase ∧ t.id ∈ b'.arrived)
  let bar := fun (x : Ins) (c : State → Troupe → Ensemble → Barrier → Prop)
      (post : State → Troupe → Path → Word → State → Troupe → Barrier → Barrier → Prop) =>
    ∀ e, Completes (.bar x) x (Use.lanes [(x.d, 1)] [])
      (fun s t p _ => ready s t p e x.imm.toNat ∧ c s t e (e.bar t.sec x.imm.toNat))
      fun s t p act s' t' => ∃ e', s'.ens? t.ens = some e' ∧ e'.st = e.st ∧
        post s t p act s' t' (e.bar t.sec x.imm.toNat) (e'.bar t.sec x.imm.toNat)
  let wt := fun (x : Ins) (first : Bool) (c : Ensemble → Barrier → BitVec 16 → Prop)
      (post : State → Troupe → Path → Word → Troupe → Prop) =>
    ∀ e, Completes (.barwt x first) x { Use.cmd [(x.d, 1)] [(x.a, 1)] first with bits := 0xFFFF }
      (fun s t p act => ready s t p e x.imm.toNat ∧
        c e (e.bar t.sec x.imm.toNat) ((uni t act x.a).extractLsb' 0 16))
      fun s t p act _ t' => post s t p act t'
  (∀ x, bar x (fun _ _ e _ => e.st = .preempting)
    fun s t p act _ t' b b' => b' = b ∧ done s t t' p x act 0x40) ∧
  (∀ x, bar x (fun _ _ e b => e.st ≠ .preempting ∧ b.abandoned = true)
    fun s t p act _ t' _ b' => b'.abandoned = true ∧ done s t t' p x act 0x80) ∧
  (∀ x, bar x (fun s t e b => e.st ≠ .preempting ∧ b.abandoned = false ∧ t.id ∉ b.arrived ∧ others s t b x.imm.toNat)
    fun s t p act _ t' b b' => b' = { b with phase := b.phase + 1, arrived := [] } ∧ done s t t' p x act 0) ∧
  (∀ x, bar x (fun s t e b => e.st ≠ .preempting ∧ b.abandoned = false ∧ t.id ∉ b.arrived ∧ ¬ others s t b x.imm.toNat)
    fun s t p act _ t' b b' => b'.phase = b.phase ∧ t.id ∈ b'.arrived ∧
      t.Waits t' p s.now x (.bar x.imm.toNat b.phase x.d.toNat act)) ∧
  (∀ x e, Completes (.bararv x) x (Use.lanes [(x.d, 1)] [])
    (fun s t p _ => ready s t p e x.imm.toNat ∧ t.id ∉ (e.bar t.sec x.imm.toNat).arrived)
    fun s t p act s' t' => ∃ e', s'.ens? t.ens = some e' ∧
      arv s t t' p x act (e.bar t.sec x.imm.toNat) (e'.bar t.sec x.imm.toNat)) ∧
  (∀ x first, wt x first (fun e _ _ => e.st = .preempting) fun s t p act t' => done s t t' p x act 0x40) ∧
  (∀ x first, wt x first (fun e b _ => e.st ≠ .preempting ∧ b.abandoned = true)
    fun s t p act t' => done s t t' p x act 0x80) ∧
  (∀ x first, wt x first (fun e b q => e.st ≠ .preempting ∧ b.abandoned = false ∧
      0 < (b.phase - q).toNat ∧ (b.phase - q).toNat < 32768) fun s t p act t' => done s t t' p x act 0) ∧
  ∀ x first, wt x first (fun e b q => e.st ≠ .preempting ∧ b.abandoned = false ∧
      ((b.phase - q).toNat = 0 ∨ 32768 ≤ (b.phase - q).toNat))
    fun s t p act t' => t.Waits t' p s.now x
      (.barwt x.imm.toNat ((uni t act x.a).extractLsb' 0 16) x.d.toNat act)

/-- O37. R92 to R94, R115 and R186. A pending mark of a future (R285) on an extended register does not hold XREL: the model's choice (log 42, R93 and R285). -/
def Obligations.ExtendedSet : Prop :=
  let rows := fun (e : ExtSet) => ∀ row ∈ e.regs, ∀ q ∈ row, isExt q.1 = true
  let took := fun (s s' : State) (t t' : Troupe) => t'.holdsExt = true ∧ (s'.extOf t').holder = some t.slot ∧
    ∀ l r, l < t.lanes.length → t'.reg l r = if isExt r = true then
        (if (s.extOf t).lastEns = some t.ens then mget 0 (lget [] (s.extOf t).regs l) r else 0)
      else t.reg l r
  (∀ x, Completes (.xacq x) x Use.none_ (fun _ t _ _ => t.holdsExt = true)
    fun s t p _ s' t' => t.OnwardOnly t' p s.now x ∧ s.SameBut s' t.id) ∧
  (∀ x, Completes (.xacq x) x Use.none_
    (fun s t _ _ => t.holdsExt = false ∧ (s.extOf t).holder = none ∧ (s.extOf t).freed ≠ some s.now ∧ rows (s.extOf t))
    fun s t p _ s' t' => t.Onward t' p s.now x ∧ took s s' t t' ∧ s'.pool = s.pool) ∧
  (∀ x, Completes (.xacq x) x Use.none_ (fun s t _ _ => t.holdsExt = false ∧ ((s.extOf t).holder ≠ none ∨ (s.extOf t).freed = some s.now))
    fun s t p _ s' t' => t.Waits t' p s.now x .xacq ∧ s.SameBut s' t.id) ∧
  (∀ s t p, s.troupe? t.id = some t → t.path? p.sel = some p → p.wait = .xacq → p.retry = false → t.holdsExt = false →
    ((s.extOf t).holder = none → (s.extOf t).freed ≠ some s.now → rows (s.extOf t) → ∃ s' t', exec (.extendedSetGrant (refOf t p)) s = .next s' ∧
      s'.troupe? t.id = some t' ∧ took s s' t t' ∧ t'.path? p.sel = some p.next ∧ t.OtherPaths t' p.sel) ∧
    ((s.extOf t).holder ≠ none ∨ (s.extOf t).freed = some s.now → exec (.extendedSetGrant (refOf t p)) s = .next s)) ∧
  (∀ x, Completes (.xrel x) x Use.none_ (fun _ t _ _ => t.holdsExt = false)
    fun s t p _ s' t' => t.OnwardOnly t' p s.now x ∧ s.SameBut s' t.id) ∧
  (∀ x, Completes (.xrel x) x Use.none_ (fun _ t _ _ => t.holdsExt = true ∧ t.owesExt = false)
    fun s t p _ s' t' => t.Onward t' p s.now x ∧ t'.holdsExt = false ∧ (s'.extOf t').holder = none ∧
      (s'.extOf t').lastEns = some t.ens ∧ s'.pool = s.pool ∧ ∀ l r, l < t.lanes.length →
        if isExt r = true then mget 0 (lget [] (s'.extOf t').regs l) r = t.reg l r else t'.reg l r = t.reg l r) ∧
  ∀ x, Completes (.xrel x) x Use.none_ (fun _ t _ _ => t.holdsExt = true ∧ t.owesExt = true)
    fun s t p _ _ t' => t.Holds t' p ∧ t'.holdsExt = true

/-- O38. R189, R190, R158 and the delivery of R191 and R404. -/
def Obligations.TrapsAndUndefinedWords : Prop :=
  (∀ x, Completes (.trap x) x Use.none_ (fun s t p _ => p.retry = false ∧ Delivers s t p)
    fun s t p act s' t' => Delivered s t p act 0x10 x.imm.toNat (p.pc + 16) (stampAfter s p x) s' t') ∧
  (∀ x, Completes (.bkpt x) x Use.none_
    (fun s t p _ => p.retry = false ∧ Delivers s t p ∧ (s.launchOf t.ens).bind (·.debugger) = none)
    fun s t p act s' t' => Delivered s t p act 0x11 0 (p.pc + 16) (stampAfter s p x) s' t') ∧
  (∀ x all, Completes (.bkpt x) x Use.none_
    (fun s t _ _ => (s.launchOf t.ens).bind (·.debugger) = some all)
    fun s t p act s' t' => t.SameRegs t' ∧ (p.retry = false → ∃ q ∈ t'.path? p.sel, q = (p.issued s.now x).next) ∧
      s'.pool = s.pool ∧ (∀ k, k < t.slices.length → k < 8 → all = true ∨ slicePresent act k = true →
        (t'.slice k).st = .stopped) ∧
      (p.retry = false → all = false → ∀ k, slicePresent act k = false → (t'.slice k).st = (t.slice k).st) ∧
      (all = true → ∀ u, s.troupe? u.id = some u → u.ens = t.ens → u.id ≠ t.id → ∃ u' ∈ s'.troupe? u.id,
        ∀ k, k < u.slices.length → k < 8 → (u'.slice k).st = .stopped)) ∧
  ∀ (w : Slot) s t p, s.Issues t p → p.retry = false → Delivers s t p → t.pathLanes p ≠ 0 →
    ∃ s' t', exec (.undefinedInstruction w) s = .next s' ∧ s'.troupe? t.id = some t' ∧
      Delivered s t p (t.pathLanes p) (if decode w = .error .majorReserved then 0x02 else 0x01) 0 (p.pc + 16)
        (if (portOf w).isSome = true ∧ w.getLsbD 95 = true then s.now else p.stamp) s' t'

/-- O39. Rows 6 to 9 of R158 on the instructions named. -/
def Obligations.OperandFaults : Prop :=
  let u := fun (x : Ins) => Use.lanes [(x.d, 1)] ((x.a, 1) :: if x.fmt = .f00 then [(x.b, 1)] else [])
  let faults := fun (x : Ins) (c : State → Troupe → Path → Word → Prop) (code : Nat) =>
    ∀ s t p, s.Issues t p → p.retry = false → Delivers s t p →
      c s t p (t.guarded (t.pathLanes p) x) → t.guarded (t.pathLanes p) x ≠ 0 → (guardsUsed x).any badCode = false →
      ∃ s' t', exec (.iadd x .s32 false) s = .next s' ∧ s'.troupe? t.id = some t' ∧
        Delivered s t p (t.guarded (t.pathLanes p) x) code 0 (p.pc + 16) (stampAfter s p x) s' t'
  (∀ x, faults x (fun _ _ _ _ => illegalOperand x (u x) = true) 0x0B) ∧
  (∀ x, faults x (fun _ t _ _ => illegalOperand x (u x) = false ∧ namesExt x (u x) = true ∧ t.holdsExt = false) 0x0D) ∧
  (∀ x s t p, s.Issues t p → p.retry = false → Delivers s t p → (guardsUsed x).any badCode = true → t.pathLanes p ≠ 0 →
    ∃ s' t', exec (.iadd x .s32 false) s = .next s' ∧ s'.troupe? t.id = some t' ∧
      Delivered s t p (t.pathLanes p) 0x0B 0 (p.pc + 16) (stampAfter s p x) s' t') ∧
  (∀ x s t p act, s.Issues t p → p.retry = false → Delivers s t p → t.guarded (t.pathLanes p) x = act →
    (guardsUsed x).any badCode = false → illegalOperand x (u x) = false → (namesExt x (u x) = true → t.holdsExt = true) →
    t.consumed x (u x) act = 0 → t.poisoned x (u x) act ≠ 0 →
    ∃ s' t', exec (.iadd x .s32 false) s = .next s' ∧ s'.troupe? t.id = some t' ∧
      (∀ k, k < 8 → slicePresent (t.poisoned x (u x) act) k = true → (t'.slice k).st = .inHandler ∧
        (t'.slice k).fcode = 0x12 ∧ (t'.slice k).fmask = t.poisoned x (u x) act &&& sliceLanes (sliceBit k)) ∧
      t.Wrote t' (act &&& ~~~t.poisoned x (u x) act) fun l =>
        wr1 x.d (t.reg l x.a.toNat + if x.fmt = .f00 then t.reg l x.b.toNat else x.imm)) ∧
  ∀ x s t p act, s.Issues t p → p.retry = false → Delivers s t p → t.guarded (t.pathLanes p) x = act → act ≠ 0 →
    (guardsUsed x).any badCode = false → illegalOperand x (Use.cmd [] [(x.a, 1)] false) = false →
    (namesExt x (Use.cmd [] [(x.a, 1)] false) = true → t.holdsExt = true) →
    t.consumed x (Use.cmd [] [(x.a, 1)] false) act = 0 → t.poisoned x (Use.cmd [] [(x.a, 1)] false) act = 0 →
    (∃ l m, act.getLsbD l = true ∧ act.getLsbD m = true ∧ (t.reg l x.a.toNat).getLsbD 0 ≠ (t.reg m x.a.toNat).getLsbD 0) →
    ∃ s' t', exec (.brc x false) s = .next s' ∧ s'.troupe? t.id = some t' ∧
      Delivered s t p act 0x0A 0 p.pc (stampAfter s p x) s' t'

/-- O40. R192, R406, R407 and R197. In which slice HALT reads CODE where several are active is the model's choice (log 20). -/
def Obligations.HandlersReturnAndHalt : Prop :=
  let notice := fun (s s' : State) (t : Troupe) (pc code : Nat) => ∀ l, s.launchOf t.ens = some l →
    ∃ r ∈ s'.sent, r.sid = l.sid ∧ r.tag = l.tag ∧ r.kind = 1 ∧ r.status = 0x07 ∧ r.detail0 = BitVec.ofNat 64 pc ∧
      r.detail1 = BitVec.ofNat 64 code
  let halted := fun (s s' : State) (t t' : Troupe) (pc code : Nat) =>
    t'.run = .halted ∧ t'.paths = [] ∧ t'.holdsExt = false ∧ t.SameRegs t' ∧ notice s s' t pc code
  (∀ x k q b, Completes (.tret x) x Use.none_
    (fun _ t p _ => x.imm = 1 ∧ t.Trapped k q p ∧ p.origin = .word b ∧ t.NoBarWait)
    fun _ t _ _ _ t' => t.SameRegs t' ∧ (t'.slice k).st = .following ∧ ∃ m, t'.paths = [m] ∧ m.sel = .ord 0 ∧
      m.pc = q.pc ∧ m.blk = q.blk ∧ m.slices = q.slices ||| sliceBit k) ∧
  (∀ x k q b, Completes (.tret x) x Use.none_
    (fun _ t p _ => x.imm = 0 ∧ t.Trapped k q p ∧ p.origin = .word b ∧ t.NoBarWait)
    fun _ t _ _ _ t' => t.SameRegs t' ∧ (t'.slice k).st = .following ∧ t'.path? (.ord 0) = some q ∧
      ∃ m, t'.path? (.handler k) = some m ∧ m.retry = true ∧ m.pc = (t.slice k).fpc.toNat ∧ m.blk = b ∧
        m.again = (t.slice k).fmask) ∧
  (∀ x, Completes (.tret x) x Use.none_ (fun s t p _ => p.retry = false ∧ Delivers s t p)
    fun s t p act s' t' => Delivered s t p act 0x0B 0 (p.pc + 16) (stampAfter s p x) s' t') ∧
  (∀ x, Completes (.trap x) x Use.none_ (fun _ _ p _ => p.inHandler = true)
    fun s t p _ s' t' => halted s s' t t' p.pc 0x14) ∧
  ∀ x, Completes (.halt x) x Use.none_ (fun _ _ _ _ => True)
    fun s t p act s' t' => halted s s' t t' (if p.inHandler = true then (t.slice (lowest act / 4)).fpc.toNat else p.pc)
      ((t.slice (lowest act / 4)).fcode.toNat % 256)

/-- O41. R193 to R196. No request waits for the end of the entry routine. -/
def Obligations.ServiceCallsAndRoutineEnds : Prop :=
  (∀ x first, Completes (.fwcall x first) x (Use.cmd [(x.d, 1)] [(x.a, 2)] first) (fun _ _ _ _ => True)
    fun s t p act s' t' => s.SameBut s' t.id ∧
      t.Waits t' p s.now x (.fwcall x.imm (uniPair t act x.a) (s.clock t.die) x.d.toNat act)) ∧
  (∀ s t p fn arg clk d ls l, s.troupe? t.id = some t → t.path? p.sel = some p → p.wait = .fwcall fn arg clk d ls →
    p.retry = false → s.launchOf t.ens = some l → ∃ s' t', exec (.fwcallAnswer (refOf t p)) s = .next s' ∧
      s'.troupe? t.id = some t' ∧ t'.path? p.sel = some p.next ∧ t.OtherPaths t' p.sel ∧ s'.pool = s.pool ∧
      t.Wrote t' ls (fun _ => [(d,
        if fn = 0 then 0x04600100 ||| Config.stepping.zeroExtend 32
        else if fn = 1 then 0
        else if fn = 2 ∧ l.mboxCount ≠ 0 then BitVec.ofNat 32 l.mboxFirst
        else 0xFFFFFFFF)]) ∧
      (fn = 1 → ∃ l', s'.launchOf t.ens = some l' ∧
        l'.trace = l.trace ++ [{ arg := arg, troupe := t.id, clock := clk }]) ∧
      (fn ≠ 1 → s'.launches = s.launches)) ∧
  (∀ x, Completes (.savemark x) x Use.none_
    (fun _ t _ _ => t.routine = .exit ∧ x.a ≠ 511 ∧ x.b ≠ 511 ∧ x.a.toNat ≤ x.b.toNat)
    fun s t p _ s' t' => t.OnwardOnly t' p s.now x ∧ s.SameBut s' t.id ∧
      ∀ r, r ∈ t'.manifest ↔ r ∈ t.manifest ∨ (x.a.toNat ≤ r ∧ r ≤ x.b.toNat)) ∧
  (∀ x, Completes (.rxdone x) x Use.none_
    (fun s t p _ => t.routine = .exit ∧ t.ordPaths = [p] ∧ ∀ o ∈ t.ops, o.complete s.now = true)
    fun _ t _ _ _ t' => t'.finish = .ended ∧ t'.paths = [] ∧ t'.manifest = t.manifest ∧
      ∀ l r, isExt r = false → t'.reg l r = t.reg l r) ∧
  (∀ x o, Completes (.rxdone x) x Use.none_
    (fun s t p _ => t.routine = .exit ∧ p.ordinary = true ∧ t.run = .running ∧ o ∈ t.ops ∧ o.cls ≠ .tr ∧ o.complete s.now = false)
    fun s t p _ s' t' => t'.path? p.sel = some { p with wait := .retry } ∧ t.OtherPaths t' p.sel ∧ t.SameRegs t' ∧
      s.SameBut s' t.id) ∧
  ∀ x, Completes (.entrydone x) x Use.none_
    (fun s t p _ => t.routine = .entry ∧ p.ordinary = true ∧ t.ganged = true ∧ t.ordPaths = [p] ∧
      ∀ e, s.ens? t.ens = some e → e.pending = false)
    fun _ t p _ _ t' => t'.routine = .none ∧ t'.saveHeld = false ∧ t.SameRegs t' ∧ ∃ q ∈ t'.path? p.sel,
      q.pc = t.rsm.toNat ∧ q.blk = none ∧ q.slices = p.slices

/-- O42. R231 to R241: what the issue does. What the operation does at the memories is MemoryAccessesPerform. -/
def Obligations.MemoryAccessesIssue : Prop :=
  let acc := fun (x : Ins) (ty : Ty) (sp : Space) (t : Troupe) (g : Nat → Target) (data cmp : Nat → Nat) (l : Nat) =>
    ({ lane := l
       va := if sp = .glob then (rdPair (t.reg l) x.a + x.imm.signExtend 64).toNat else (t.reg l x.a.toNat + x.imm).toNat
       tgt := g l, size := accBytes ty, mask := BitVec.ofNat 16 (2 ^ accBytes ty - 1),
       data := BitVec.ofNat 128 (data l), cmpv := BitVec.ofNat 64 (cmp l), phase := .issued, pass := 0, bad := false } : Acc)
  let issues := fun (i : Instr) (x : Ins) (u : Use) (ty : Ty) (sp : Space) (c : OpClass) (w : Need)
      (data cmp : Troupe → Nat → Nat) (kind : List Acc → OpKind) => ∀ g,
    Completes i x u
      (fun s t _ act => t.counter s.now c < 63 ∧ ∀ l, act.getLsbD l = true →
        s.checkAccess t sp (acc x ty sp t g (data t) (cmp t) l).va (accBytes ty) w = .inr (g l))
      fun s t p act s' t' => t.Onward t' p s.now x ∧ t.SameRegs t' ∧ s.SameMemory s' t t' ∧
        ∃ o, t'.ops = t.ops ++ [o] ∧ o.cls = c ∧ o.pc = p.pc ∧ o.lanes = act ∧ o.own = [p.sel] ∧ o.done = false ∧
          o.kind = kind ((lanesOf act).map (acc x ty sp t g (data t) (cmp t)))
  let fails := fun (i : Instr) (x : Ins) (u : Use) (ty : Ty) (sp : Space) (c : OpClass) (w : Need) => ∀ code,
    let va := fun (t : Troupe) (l : Nat) =>
      if sp = .glob then (rdPair (t.reg l) x.a + x.imm.signExtend 64).toNat else (t.reg l x.a.toNat + x.imm).toNat
    Completes i x u
      (fun s t p act => Delivers s t p ∧ p.retry = false ∧ t.counter s.now c < 63 ∧
        ∀ l, act.getLsbD l = true → s.checkAccess t sp (va t l) (accBytes ty) w = .inl code)
      fun s t p act s' t' => DeliveredAt s t p act code (va t) (p.pc + 16) (stampAfter s p x) s' t'
  let none_ := fun (_ : Troupe) (_ : Nat) => 0
  let val := fun (ty : Ty) (r : BitVec 9) (t : Troupe) (l : Nat) => groupVal ty.regs (t.reg l) r
  (∀ x ty ord sp, issues (.ld x ty ord sp) x (Use.lanes [(x.d, ty.regs)] [baseUse x sp]) ty sp .ld ⟨true, false, false⟩
    none_ none_ fun as => .load ty ord false x.ch.toNat x.d.toNat as) ∧
  (∀ x ty sp, issues (.ldv x ty sp) x (Use.lanes [(x.d, ty.regs)] [baseUse x sp]) ty sp .ld ⟨true, false, true⟩
    none_ none_ fun as => .load ty .weak true 0 x.d.toNat as) ∧
  (∀ x ty ord sp, issues (.st x ty ord sp) x (Use.lanes [] [(x.d, ty.regs), baseUse x sp]) ty sp .st ⟨false, true, false⟩
    (val ty x.d) none_ fun as => .store ord false x.ch.toNat (dropLower as)) ∧
  (∀ x ty sp, issues (.stv x ty sp) x (Use.lanes [] [(x.d, ty.regs), baseUse x sp]) ty sp .st ⟨false, true, true⟩
    (val ty x.d) none_ fun as => .store .weak true 0 (dropLower as)) ∧
  (∀ x op ty σ sp, issues (.atom x op ty σ sp) x (Use.lanes [(x.d, ty.regs)] [(x.b, ty.regs), baseUse x sp]) ty sp .ld
    ⟨false, true, false⟩ (val ty x.b) none_ fun as => .atom op ty σ (some x.d.toNat) as) ∧
  (∀ x ty σ sp, issues (.atomc x ty σ sp) x (Use.lanes [(x.d, ty.regs)] [(x.b, ty.regs), (x.c, ty.regs), baseUse x sp])
    ty sp .ld ⟨false, true, false⟩ (val ty x.c) (val ty x.b) fun as => .atomc ty σ x.d.toNat as) ∧
  (∀ x op ty σ sp, issues (.red x op ty σ sp) x (Use.lanes [] [(x.d, ty.regs), baseUse x sp]) ty sp .st
    ⟨false, true, false⟩ (val ty x.d) none_ fun as => .atom op ty σ none as) ∧
  (∀ x ty ord sp,
    fails (.ld x ty ord sp) x (Use.lanes [(x.d, ty.regs)] [baseUse x sp]) ty sp .ld ⟨true, false, false⟩ ∧
    fails (.ldv x ty sp) x (Use.lanes [(x.d, ty.regs)] [baseUse x sp]) ty sp .ld ⟨true, false, true⟩ ∧
    fails (.st x ty ord sp) x (Use.lanes [] [(x.d, ty.regs), baseUse x sp]) ty sp .st ⟨false, true, false⟩ ∧
    fails (.stv x ty sp) x (Use.lanes [] [(x.d, ty.regs), baseUse x sp]) ty sp .st ⟨false, true, true⟩) ∧
  (∀ x op ty σ sp,
    fails (.atom x op ty σ sp) x (Use.lanes [(x.d, ty.regs)] [(x.b, ty.regs), baseUse x sp]) ty sp .ld ⟨false, true, false⟩ ∧
    fails (.atomc x ty σ sp) x (Use.lanes [(x.d, ty.regs)] [(x.b, ty.regs), (x.c, ty.regs), baseUse x sp]) ty sp .ld
      ⟨false, true, false⟩ ∧
    fails (.red x op ty σ sp) x (Use.lanes [] [(x.d, ty.regs), baseUse x sp]) ty sp .st ⟨false, true, false⟩) ∧
  (∀ x ty ord sp, Completes (.ld x ty ord sp) x (Use.lanes [(x.d, ty.regs)] [baseUse x sp])
    (fun s t _ _ => 63 ≤ t.counter s.now .ld)
    fun s t p _ s' t' => t.Holds t' p ∧ t'.ops = t.ops ∧ s.SameMemory s' t t') ∧
  ∀ (s : State) t sp va n w,
    (n ≠ 0 → va % n ≠ 0 → s.checkAccess t sp va n w = .inl 0x09) ∧
    (n = 0 ∨ va % n = 0 → sp = .glob → (∀ h pa p, s.translate (s.sidOf t) t.die va ≠ .ok h pa p) →
      s.checkAccess t sp va n w = .inl 0x07) ∧
    (∀ h pa p, n = 0 ∨ va % n = 0 → sp = .glob → s.translate (s.sidOf t) t.die va = .ok h pa p →
      (w.rd = true ∧ p.r = false) ∨ (w.wr = true ∧ p.w = false) → s.checkAccess t sp va n w = .inl 0x08) ∧
    ∀ l, n = 0 ∨ va % n = 0 → sp ≠ .glob → s.launchOf t.ens = some l → explicitTarget t l sp va = none →
      s.checkAccess t sp va n w = .inl 0x08

/-- O43. R235, R238, R240, R241 and R309, at memories that the access reaches without the switch or a channel. `State.CanMake` says when. -/
def Obligations.MemoryAccessesPerform : Prop :=
  let lane := fun (a : Acc) => BitVec.ofNat 32 (2 ^ a.lane)
  let ext := fun (t : Troupe) (ty : Ty) (d : Nat) => ∀ w ∈ loadWrites ty d 0, isExt w.1 = true → t.holdsExt = true
  let same := fun (s s' : State) (t : Troupe) => ∀ l g, s'.byteAt t l g = s.byteAt t l g
  let next := fun (i : Instr) (s : State) (t : Troupe) (post : State → Troupe → Prop) =>
    ∃ s' t', exec i s = .next s' ∧ s'.troupe? t.id = some t' ∧ post s' t'
  (∀ s t o a ty ord v h d as, s.CanMake t o a → (∀ b ∈ as, b.meets a = true → s.mayMake t o b = true) → o.cls = .ld →
    o.kind = .load ty ord v h d as → ext t ty d →
    next (.loadReturn t.id o.id (lane a) false) s t fun s' t' => same s s' t ∧
      (t.Wrote t' (lane a) fun _ => loadWrites ty d (s.valueAt t a)) ∧
      ∀ o' ∈ t'.ops, o'.id = o.id → ∀ b ∈ o'.kind.accs, b.lane ≠ a.lane) ∧
  (∀ s t o a b ty ord v h d as, s.CanMake t o a → (∀ c ∈ as, c.meets a = true → s.mayMake t o c = true) → o.cls = .ld →
    o.kind = .load ty ord v h d as → ext t ty d → a.size ≤ 16 → (as.map Acc.lane).Nodup → b ∈ as → b.lane ≠ a.lane →
    b.phase = .issued → b.tgt = a.tgt → b.size = a.size →
    next (.loadReturn t.id o.id (lane a) false) s t fun _ t' => ∃ o' ∈ t'.op? o.id, ∃ c ∈ o'.kind.accs, c.lane = b.lane ∧
      c.phase = .made ∧ c.data.toNat = s.valueAt t a) ∧
  (∀ s t o a ord v h as, s.CanMake t o a → o.cls = .st → o.kind = .store ord v h as → a.size ≤ 16 →
    next (.storePerformed t.id o.id (lane a)) s t fun s' t' => s.StoresAt s' t a a.data.toNat ∧ t.SameRegs t') ∧
  (∀ s t o a op ty σ d as, s.CanMake t o a → o.cls = .ld → o.kind = .atom op ty σ (some d) as → ext t ty d → a.size ≤ 8 →
    next (.loadReturn t.id o.id (lane a) false) s t fun s' t' =>
      s.StoresAt s' t a (atomNew op ty (s.valueAt t a) a.data.toNat) ∧
      t.Wrote t' (lane a) fun _ => loadWrites ty d (s.valueAt t a)) ∧
  (∀ s t o a ty σ d as, s.CanMake t o a → o.cls = .ld → o.kind = .atomc ty σ d as → ext t ty d → a.size ≤ 8 →
    next (.loadReturn t.id o.id (lane a) false) s t fun s' t' =>
      (if s.valueAt t a = a.cmpv.toNat then s.StoresAt s' t a a.data.toNat else same s s' t) ∧
      t.Wrote t' (lane a) fun _ => loadWrites ty d (s.valueAt t a)) ∧
  (∀ s t o a op ty σ as, s.CanMake t o a → o.cls = .st → o.kind = .atom op ty σ none as → a.size ≤ 8 →
    next (.storePerformed t.id o.id (lane a)) s t fun s' t' =>
      s.StoresAt s' t a (atomNew op ty (s.valueAt t a) a.data.toNat) ∧ t.SameRegs t') ∧
  (∀ d (v : BitVec 8), loadWrites .s8 d v.toNat = [(d, v.signExtend 32)] ∧ loadWrites .n8 d v.toNat = [(d, v.zeroExtend 32)]) ∧
  (∀ d (v : BitVec 16), loadWrites .s16 d v.toNat = [(d, v.signExtend 32)] ∧
    loadWrites .b16 d v.toNat = [(d, v.zeroExtend 32)]) ∧
  (∀ d (v : BitVec 64), loadWrites .n64 d v.toNat = [(d, v.extractLsb' 0 32), (d + 1, v.extractLsb' 32 32)]) ∧
  ∀ a b : Word, atomNew .add .n32 a.toNat b.toNat = (a + b).toNat ∧ atomNew .min .s32 a.toNat b.toNat =
      (if b.slt a = true then b else a).toNat ∧ atomNew .max .n32 a.toNat b.toNat = max a.toNat b.toNat ∧
    atomNew .and .b32 a.toNat b.toNat = (a &&& b).toNat ∧ atomNew .or .b32 a.toNat b.toNat = (a ||| b).toNat ∧
    atomNew .xor .b32 a.toNat b.toNat = (a ^^^ b).toNat ∧ atomNew .exch .b32 a.toNat b.toNat = b.toNat

/-- O44. R242, R244, R245 and R307. -/
def Obligations.FencesAndLineMaintenance : Prop :=
  let same := fun (s s' : State) => ∀ h pa, s'.peekPool h pa = s.peekPool h pa
  let quiet := fun (s : State) (t : Troupe) (p : Path) =>
    t.recs = [] ∧ t.ops = [] ∧ p.rdPass ≤ s.now ∧ p.rdShared = []
  let line := fun (i : State → Troupe → Op → Instr) (op : LineOp) (c : State → Nat → Nat → Prop)
      (post : State → Troupe → Nat → Nat → State → Prop) => ∀ (s : State) t o h ln, s.troupe? t.id = some t →
    t.run = .running → (∀ e, s.ens? t.ens = some e → e.st = .running) → t.op? o.id = some o → o.cls = .st →
    o.kind = .cline op [(h, ln)] → s.inRecovery h ln = false → s.asking h ln = false → t.die < s.dies.length →
    h < s.dies.length → c s h ln →
    ∃ s' t', exec (i s t o) s = .next s' ∧ s'.troupe? t.id = some t' ∧ t.SameRegs t' ∧
      (∀ pa, s'.peekPool h pa = s.peekPool h pa) ∧ post s t h ln s'
  (∀ x pre post σ, Completes (.fence x pre post σ) x Use.none_ (fun s t p _ => quiet s t p)
    fun s t p _ s' t' => t.SameRegs t' ∧ s'.pool = s.pool ∧ (p.retry = false → t.OtherPaths t' p.sel ∧
      ∃ q ∈ t'.path? p.sel, q.pc = p.pc + 16 ∧ q.wait = .none ∧ q.slices = p.slices)) ∧
  (∀ x pre post σ o ord v h as a, Completes (.fence x pre post σ) x Use.none_
    (fun _ t p _ => pre.getLsbD 1 = true ∧ o ∈ t.ops ∧ p.sel ∈ o.own ∧ o.kind = .store ord v h as ∧ a ∈ as ∧
      a.phase = .issued ∧ ∀ h pa, a.tgt ≠ .device h pa)
    fun s t p act s' t' => t.Waits t' p s.now x (.fence pre post σ act) ∧ s'.pool = s.pool) ∧
  (∀ (s : State) t p pre post σ ls, s.troupe? t.id = some t → t.path? p.sel = some p → p.wait = .fence pre post σ ls →
    p.retry = false → quiet s t p → t.run = .running → (∀ e, s.ens? t.ens = some e → e.st = .running) →
    ∃ s' t', exec (.fenceRelease (refOf t p)) s = .next s' ∧ s'.troupe? t.id = some t' ∧ t.SameRegs t' ∧
      t.OtherPaths t' p.sel ∧ ∃ q ∈ t'.path? p.sel, q.pc = p.pc + 16 ∧ q.wait = .none) ∧
  (∀ x op (g : Nat → Nat × Nat), Completes (.cline x op) x (Use.lanes [] [(x.a, 2)])
    (fun s t _ act => t.counter s.now .st < 63 ∧ ∀ l, act.getLsbD l = true → ∃ k, s.checkAccess t .glob
      (rdPair (t.reg l) x.a + x.imm.signExtend 64).toNat 0 ⟨false, op == .wb || op == .wbinv, false⟩ =
        .inr (.pool (g l).1 (g l).2 k))
    fun s t p act s' t' => t.OnwardOnly t' p s.now x ∧ s.SameMemory s' t t' ∧ ∃ o ls, t'.ops = t.ops ++ [o] ∧
      o.cls = .st ∧ o.kind = .cline op ls ∧ ls.Nodup ∧
      ∀ h ln, (h, ln) ∈ ls ↔ ∃ l, act.getLsbD l = true ∧ (g l).1 = h ∧ (g l).2 / 128 = ln) ∧
  line (fun _ t o => .storePerformed t.id o.id 0) .inv (fun _ _ _ => True)
    (fun s t h ln s' => s'.l1? t.die t.core h ln = none ∧ s'.pool = s.pool ∧
      ∀ d, (s'.die d).l2 = (s.die d).l2) ∧
  line (fun _ t o => .storePerformed t.id o.id 0) .iinv (fun _ _ _ => True)
    (fun s t h ln s' => mfind (s'.core t.die t.core).icache (l1Key h ln) = none ∧ s'.pool = s.pool ∧
      ∀ d, (s'.die d).l2 = (s.die d).l2) ∧
  line (fun _ t o => .storePerformed t.id o.id 0) .wb
    (fun s h ln => ∃ l, s.line? h ln = some l ∧ l.coherent = false ∧ l.raced = [] ∧ l.st ≠ .i ∧ ∀ k ∈ l.dirty, k < 128)
    (fun s _ h ln s' => ∃ l l', s.line? h ln = some l ∧ s'.line? h ln = some l' ∧ l'.dirty = [] ∧ l'.data = l.data ∧
      (∀ k ∈ l.dirty, s'.pool.byte (ln * 128 + k) = l.data.byte k) ∧
      ∀ pa, (∀ k ∈ l.dirty, pa ≠ ln * 128 + k) → s'.pool.byte pa = s.pool.byte pa) ∧
  (∀ x, Completes (.pfd x) x (Use.lanes [] [(x.a, 2)]) (fun _ _ _ _ => True)
    fun s t p _ s' t' => t.OnwardOnly t' p s.now x ∧ s'.pool = s.pool ∧ same s s') ∧
  ∀ (s : State) d c k q, mfind (s.core d c).l1 k = some q → d < s.dies.length →
    ∃ s', exec (.leaseExpiry d c k) s = .next s' ∧ s'.pool = s.pool ∧ s'.troupes = s.troupes ∧
      (∀ e, (s'.die e).l2 = (s.die e).l2) ∧
      mfind (s'.core d c).l1 k = if q.lease ≤ s.now then none else some q

/-- O45. R246 to R250. -/
def Obligations.Mailboxes : Prop :=
  let addr := fun (x : Ins) (t : Troupe) (act : Word) =>
    if x.fmt = .f00 then (uni t act x.a).toNat else x.imm.toNat
  let putAddr := fun (x : Ins) (t : Troupe) (act : Word) => (uni t act x.a).toNat
  let free := fun (s : State) (t : Troupe) (p : Path) (a : Nat) => s.dies.length = 4 ∧
    (∃ l, s.launchOf t.ens = some l ∧ l.mayReach a = true) ∧ s.clearWay t (a / 65536) (.mail (refOf t p))
  let away := fun (i : Instr) (x : Ins) (u : Use) (at_ : Troupe → Word → Nat) => Completes i x u
    (fun s t p act => p.retry = false ∧ Delivers s t p ∧
      ∀ l, s.launchOf t.ens = some l → l.mayReach (at_ t act) = false)
    fun s t p act s' t' => Delivered s t p act 0x18 0 (p.pc + 16) (stampAfter s p x) s' t'
  let others := fun (s s' : State) (a : Nat) => ∀ b, b < 2 ^ 18 → b ≠ a → s'.word b = s.word b
  let putUse := fun (x : Ins) (first : Bool) => Use.cmd [] [(x.a, 1), (x.b, 2)] first
  let getUse := fun (x : Ins) (first : Bool) (n : Nat) =>
    Use.cmd [(x.d, n)] (if x.fmt = .f00 then [(x.a, 1)] else []) first
  let ldwpUse := fun (x : Ins) (first : Bool) =>
    Use.cmd [(x.d, 1)] ((x.a, 1) :: if x.fmt = .f00 then [(x.b, 1)] else []) first
  let wp := fun (s : State) (t : Troupe) (x : Ins) (act : Word) => lget 0 (s.sect t.ens t.sec).wp (uni t act x.a).toNat
  let limit := fun (x : Ins) (t : Troupe) (act : Word) => if x.fmt = .f00 then uni t act x.b else x.imm
  (∀ x first, Completes (.mbput x first) x (putUse x first)
    (fun s t p act => free s t p (putAddr x t act) ∧ s.waitedWords = [] ∧ (s.word (putAddr x t act)).full = false)
    fun s t p act s' t' => t.OnwardOnly t' p s.now x ∧ others s s' (putAddr x t act) ∧
      s'.word (putAddr x t act) = { full := true, value := uniPair t act x.b, waiters := [] }) ∧
  (∀ x first, Completes (.mbput x first) x (putUse x first)
    (fun s t p act => free s t p (putAddr x t act) ∧ s.waitedWords = [] ∧ (s.word (putAddr x t act)).full = true)
    fun s t p act s' t' => t.Waits t' p s.now x (.mbput (putAddr x t act) (uniPair t act x.b)) ∧
      others s s' (putAddr x t act) ∧
      s'.word (putAddr x t act) = { s.word (putAddr x t act) with waiters := [.path (refOf t p)] }) ∧
  (∀ x first t2 p2 d ls, Completes (.mbput x first) x (putUse x first)
    (fun s t p act => free s t p (putAddr x t act) ∧ s.waitedWords = [putAddr x t act] ∧
      (s.word (putAddr x t act)).full = false ∧ (s.word (putAddr x t act)).waiters = [.path (refOf t2 p2)] ∧
      s.troupe? t2.id = some t2 ∧ t2.id ≠ t.id ∧ t2.path? p2.sel = some p2 ∧ p2.retry = false ∧ d < 512 ∧
      p2.wait = .mbget (putAddr x t act) d ls)
    fun s t p act s' t' => t.OnwardOnly t' p s.now x ∧ others s s' (putAddr x t act) ∧
      s'.word (putAddr x t act) = { full := false, value := uniPair t act x.b, waiters := [] } ∧
      ∃ t3 ∈ s'.troupe? t2.id, t3.path? p2.sel = some p2.next ∧
        t2.Wrote t3 ls fun _ => wr2 (BitVec.ofNat 9 d) (uniPair t act x.b)) ∧
  (∀ x first, Completes (.mbget x first) x (getUse x first 2)
    (fun s t p act => free s t p (addr x t act) ∧ s.waitedWords = [] ∧ (s.word (addr x t act)).full = true)
    fun s t p act s' t' => t.Onward t' p s.now x ∧ others s s' (addr x t act) ∧
      s'.word (addr x t act) = { s.word (addr x t act) with full := false } ∧
      t.Wrote t' act fun _ => wr2 x.d (s.word (addr x t act)).value) ∧
  (∀ x first, Completes (.mbget x first) x (getUse x first 2)
    (fun s t p act => free s t p (addr x t act) ∧ s.waitedWords = [] ∧ (s.word (addr x t act)).full = false)
    fun s t p act s' t' => t.Waits t' p s.now x (.mbget (addr x t act) x.d.toNat act) ∧ others s s' (addr x t act) ∧
      s'.word (addr x t act) = { s.word (addr x t act) with waiters := [.path (refOf t p)] }) ∧
  (∀ x first, Completes (.mbtryGet x first) x (getUse x first 4)
    (fun s t p act => free s t p (addr x t act) ∧ s.waitedWords = [])
    fun s t p act s' t' => t.Onward t' p s.now x ∧ others s s' (addr x t act) ∧
      s'.word (addr x t act) = { s.word (addr x t act) with full := false } ∧
      t.Wrote t' act fun _ => wr2 x.d (if (s.word (addr x t act)).full = true then (s.word (addr x t act)).value else 0) ++
        [(x.d.toNat + 2, if (s.word (addr x t act)).full = true then 1 else 0), (x.d.toNat + 3, 0)]) ∧
  (∀ x first, Completes (.mbtryPut x first) x (Use.cmd [(x.d, 1)] [(x.a, 1), (x.b, 2)] first)
    (fun s t p act => free s t p (putAddr x t act) ∧ s.waitedWords = [])
    fun s t p act s' t' => t.Onward t' p s.now x ∧ others s s' (putAddr x t act) ∧
      s'.word (putAddr x t act) = (if (s.word (putAddr x t act)).full = true then s.word (putAddr x t act)
        else { full := true, value := uniPair t act x.b, waiters := [] }) ∧
      t.Wrote t' act fun _ => wr1 x.d (if (s.word (putAddr x t act)).full = true then 0 else 1)) ∧
  (∀ x first, away (.mbput x first) x (putUse x first) (putAddr x) ∧
    away (.mbget x first) x (getUse x first 2) (addr x) ∧ away (.mbtryGet x first) x (getUse x first 4) (addr x) ∧
    away (.mbtryPut x first) x (Use.cmd [(x.d, 1)] [(x.a, 1), (x.b, 2)] first) (putAddr x)) ∧
  (∀ x first, Completes (.ldwp x first) x (ldwpUse x first)
    (fun s t _ act => (uni t act x.a).toNat < (s.headerOf t).chan ∧ (wp s t x act).toNat < (limit x t act).toNat)
    fun _ t p _ _ t' => t.Holds t' p) ∧
  ∀ x first, Completes (.ldwp x first) x (ldwpUse x first)
    (fun s t _ act => (uni t act x.a).toNat < (s.headerOf t).chan ∧ (limit x t act).toNat ≤ (wp s t x act).toNat)
    fun s t p act s' t' => s'.pool = s.pool ∧ (t.Wrote t' act fun _ => wr1 x.d (wp s t x act)) ∧ (p.retry = false →
      ∃ q ∈ t'.path? p.sel, q.pc = p.pc + 16 ∧ q.wait = .none ∧ q.slices = p.slices)

/-- O46. R262 to R281, of what issues. The operations take effect at their own events. -/
def Obligations.TileInstructions : Prop :=
  let block := fun (s : State) (t : Troupe) (p : Path) (addr : Nat) (fb : FormatBlock) =>
    addr % 128 = 0 ∧ t.ops = [] ∧ s.errs = [] ∧ ∃ h pa q, s.translate (s.sidOf t) t.die addr = .ok h pa q ∧
      q.kind ≠ .device ∧ q.kind ≠ .coherent ∧ q.r = true ∧ pa % 128 = 0 ∧ h < s.dies.length ∧ s.clearWay t h (.mail (refOf t p)) ∧
      (s.port h (pa / 128 * 128)).isSome = true ∧ (s.line? h (pa / 128) = none → s.full h = false) ∧
      (∀ l, s.line? h (pa / 128) = some l → l.st ≠ .i ∧ l.once = none) ∧
      formatBlock ((List.range 128).map fun i => s.peekPool h (pa + i)) = some fb
  let moved := fun (s : State) (t t' : Troupe) (p : Path) => t.SameRegs t' ∧ t'.tile = t.tile ∧ t'.mrow = t.mrow ∧
    (p.retry = false → t.OtherPaths t' p.sel ∧ ∃ q ∈ t'.path? p.sel, q.pc = p.pc + 16 ∧ q.wait = .none ∧ q.slices = p.slices)
  let issued := fun (s s' : State) (t t' : Troupe) (p : Path) (act : Word) (k : OpKind) => moved s t t' p ∧
    s'.pool = s.pool ∧ ∃ o, t'.ops = t.ops ++ [o] ∧ o.cls = .tm ∧ o.pc = p.pc ∧ o.lanes = act ∧ o.done = false ∧ o.kind = k
  let work := fun (x : Ins) (sr : Semiring) (t : Troupe) (act : Word) (fb : FormatBlock) =>
    ({ sr := sr, fbAddr := (uniPair t act x.c).toNat, fb := fb, t := (uni t act x.d).toNat,
       k0 := (uni t act x.b).toNat, quarters := quartersOf t act x.a } : MmaWork)
  let fits := fun (s : State) (t : Troupe) (fb : FormatBlock) (base : Nat) (qs : List Quarter) =>
    (∀ q ∈ qs, q.start ≤ fb.m) ∧ windowFits (s.windowOf t) base fb qs = true
  let mmaOk := fun (x : Ins) (sr : Semiring) (fb : FormatBlock) (s : State) (t : Troupe) (p : Path) (act : Word) =>
    t.tileFault = none ∧ block s t p (uniPair t act x.c).toNat fb ∧ semiringTakes sr fb = true ∧
      kOk fb (uni t act x.b).toNat = true ∧ fits s t fb (uni t act x.d).toNat (quartersOf t act x.a)
  let moveOk := fun (x : Ins) (ty : Ty) (fb : FormatBlock) (s : State) (t : Troupe) (p : Path) (act : Word) =>
    t.tileFault = none ∧ block s t p (uniPair t act x.b).toNat fb ∧
      (uniPair t act x.c).toNat % (if ty.cls = true then elemBits ty / 8 else 4) = 0 ∧
      (uni t act x.e).toNat % (if ty.cls = true then elemBits ty / 8 else 4) = 0 ∧
      fits s t fb (uni t act x.d).toNat (quartersOf t act x.a)
  let rest := fun (t : Troupe) => ∀ o ∈ t.ops, o.done = true
  (∀ x first, Completes (.tzero x first) x (Use.cmd [] [(x.d, 1), (x.a, 1), (x.b, 1)] first)
    (fun s t _ act => t.tileFault = none ∧ t.counter s.now .tm < 63 ∧ (uni t act x.d).toNat % 16 = 0 ∧
      (uni t act x.a).toNat % 16 = 0 ∧ uni t act x.a ≠ 0 ∧
      (uni t act x.d).toNat + (uni t act x.a).toNat ≤ s.windowOf t)
    fun s t p act s' t' => issued s s' t t' p act
      (.tzero (uni t act x.d).toNat (uni t act x.a).toNat (uni t act x.b))) ∧
  (∀ x sr first fb, Completes (.mma x sr first) x (mmaUse x first) (mmaOk x sr fb)
    fun s t p act s' t' => issued s s' t t' p act (.mma (work x sr t act fb))) ∧
  (∀ x sr first fb, Completes (.mmae x sr first) x (mmaUse x first)
    (fun s t p act => mmaOk x sr fb s t p act ∧ t.ganged = true ∧ p.retry = false ∧ t.paths = [p] ∧
      s.joiners t.ens t.idx = [t])
    fun s t p act s' t' => ∃ j, issued s s' t t' p act (.mma { work x sr t act fb with join := some j })) ∧
  (∀ x sr first fb u, Completes (.mmae x sr first) x (mmaUse x first)
    (fun s t p act => mmaOk x sr fb s t p act ∧ t.ganged = true ∧ p.retry = false ∧ u ∈ s.joiners t.ens t.idx ∧
      u.id ≠ t.id ∧ (∀ q ∈ u.paths, q.wait = .none) ∧ ∀ v ∈ s.joiners t.ens t.idx, v.run = .running)
    fun s t p act s' t' => s'.pool = s.pool ∧ t.SameRegs t' ∧ t'.ops = t.ops ∧ ∃ q ∈ t'.path? p.sel, q.pc = p.pc ∧
      q.wait = .mmae (some (work x sr t act fb)) act) ∧
  (∀ x ty first fb, Completes (.tld x ty first) x (tileUse x first) (moveOk x ty fb)
    fun s t p act s' t' => issued s s' t t' p act (.tld ty fb (uni t act x.d).toNat (uniPair t act x.c)
      (uni t act x.e).toNat (quartersOf t act x.a) 0)) ∧
  (∀ x ty rnd sat first fb, Completes (.tst x ty rnd sat first) x (tileUse x first) (moveOk x ty fb)
    fun s t p act s' t' => issued s s' t t' p act (.tst ty rnd sat fb (uni t act x.d).toNat (uniPair t act x.c)
      (uni t act x.e).toNat (quartersOf t act x.a) 0)) ∧
  (∀ x ty first, Completes (.tmovr x ty first) x
    { wr := [(x.d, 1)], rd := [(x.b, 1)], un := [(x.a, 1)], first := first, whole := true }
    (fun s t _ act => rest t ∧ s.errs = [] ∧ (uni t act x.a).toNat % 16 = 0 ∧ ∀ l, act.getLsbD l = true →
      (uni t act x.a).toNat + 4 * (t.reg l x.b.toNat).toNat + 4 ≤ s.windowOf t)
    fun s t p act s' t' => t.Onward t' p s.now x ∧ t'.tile = t.tile ∧ s.SameBut s' t.id ∧ t.Wrote t' act fun l =>
      wr1 x.d (BitVec.ofNat 32 (t.tile.nat ((uni t act x.a).toNat + 4 * (t.reg l x.b.toNat).toNat) 4))) ∧
  ∀ x ty first, Completes (.tmovt x ty first) x
    { wr := [], rd := [(x.a, 1), (x.b, 1)], un := [(x.d, 1)], first := first, whole := true }
    (fun s t _ act => rest t ∧ (uni t act x.d).toNat % 16 = 0 ∧ ∀ l, act.getLsbD l = true →
      (uni t act x.d).toNat + 4 * (t.reg l x.a.toNat).toNat + 4 ≤ s.windowOf t)
    fun s t p act s' t' => t.OnwardOnly t' p s.now x ∧ s'.pool = s.pool ∧
      (∀ l, act.getLsbD l = true → (∀ m, act.getLsbD m = true → l < m → t.reg m x.a.toNat ≠ t.reg l x.a.toNat) →
        t'.tile.nat ((uni t act x.d).toNat + 4 * (t.reg l x.a.toNat).toNat) 4 = (t.reg l x.b.toNat).toNat) ∧
      ∀ o, (∀ l, act.getLsbD l = true → o < (uni t act x.d).toNat + 4 * (t.reg l x.a.toNat).toNat ∨
          (uni t act x.d).toNat + 4 * (t.reg l x.a.toNat).toNat + 4 ≤ o) → t'.tile.byte o = t.tile.byte o

/-- O47. Chapter 09 on tiles and the matrix unit, without an operand fault or a wait. The number arithmetic is `cell` and `roundTo`, of chapter 04. -/
def Obligations.TileOperationsComplete : Prop :=
  let same := fun (s s' : State) => ∀ h pa, s'.peekPool h pa = s.peekPool h pa
  let at_ := fun (fb : FormatBlock) (base : Nat) (q : Quarter) (i j : Nat) =>
    base + 4 * (q.q * fb.m * fb.n + i * fb.n + j)
  let outside := fun (t t' : Troupe) (lo hi : Nat) => ∀ o, o < lo ∨ hi ≤ o → t'.tile.byte o = t.tile.byte o
  let row := fun (s : State) (t : Troupe) (f : Fragment) (r : Nat) (d : RowData) => ∃ bs,
    s.MatReads t (f.base + r * f.ld + elemBits f.ty * f.k0 / 8) (elemBits f.ty * f.k / 8) bs ∧ d.bits = leNat bs ∧
    (if f.scl = 0 then d.scales = [] else s.MatReads t (f.scl + r * f.lds + f.k0 / f.blk) (f.k / f.blk) d.scales) ∧
    (f.band = 0 ∨ ∃ x, s.MatReads t (f.band + 2 * (r / 64)) 2 x)
  let ended := fun (s' : State) (t t' : Troupe) => s'.troupe? t.id = some t' ∧ t.SameRegs t' ∧ t'.ops = []
  (∀ s t o w q (A B : Nat → RowData), s.AtWork t o → o.kind = .mma w → w.quarters = [q] → w.common = [] → q.q < 4 →
    q.start ≤ w.fb.m → q.stop = none → s.opOver o = true →
    (∀ i, q.start ≤ i → i < w.fb.m → row s t (w.fragment q false) (q.m0 + i) (A i)) →
    (∀ j, j < w.fb.n → row s t (w.fragment q true) (q.n0 + j) (B j)) →
    ∃ s' t', exec (.mmaComplete t.id o.id) s = .next s' ∧ ended s' t t' ∧ same s s' ∧
      outside t t' (at_ w.fb w.t q q.start 0) (at_ w.fb w.t q w.fb.m 0) ∧
      (∀ i j, q.start ≤ i → i < w.fb.m → j < w.fb.n → t'.tile.nat (at_ w.fb w.t q i j) 4 =
        cell w.sr w.fb (t.tile.nat (at_ w.fb w.t q i j) 4) (A i) (B j) % 2 ^ 32) ∧
      ∀ k, k < 4 → rowsOf t'.mrow k = if k = q.q then 0 else rowsOf t.mrow k) ∧
  (∀ s t o off n w, s.AtWork t o → o.kind = .tzero off n w → n % 4 = 0 →
    ∃ s' t', exec (.tileOpComplete t.id o.id) s = .next s' ∧ ended s' t t' ∧ same s s' ∧
      t'.mrow = t.mrow ∧ outside t t' off (off + n) ∧
      ∀ i, i < n → t'.tile.byte (off + i) = BitVec.ofNat 8 (w.toNat / 256 ^ (i % 4))) ∧
  (∀ s t o ty fb base a pitch q (E : Nat → Nat → List Byte), s.AtWork t o → o.kind = .tld ty fb base a pitch [q] 0 →
    s.opOver o = true →
    (∀ i j, i < fb.m → j < fb.n → s.MatReads t (a.toNat + (q.m0 + i) * pitch + (q.n0 + j) * moveSize ty) (moveSize ty)
      (E i j)) →
    ∃ s' t', exec (.tileOpComplete t.id o.id) s = .next s' ∧ ended s' t t' ∧ same s s' ∧
      t'.mrow = t.mrow ∧ outside t t' (at_ fb base q 0 0) (at_ fb base q fb.m 0) ∧
      ∀ i j, i < fb.m → j < fb.n → t'.tile.nat (at_ fb base q i j) 4 =
        (if ty.cls = true then rne .f32 (value ty (leNat (E i j))) else leNat (E i j)) % 2 ^ 32) ∧
  (∀ s t o ty rnd sat fb base a pitch q s1 b1 p1 s2 b2 p2 s3, s.AtWork t o →
    o.kind = .tst ty rnd sat fb base a pitch [q] (fb.m * fb.n - 1) → 0 < fb.m → 0 < fb.n →
    s.bandOf t o (if ty.cls = true then fb.aband else 0) (q.m0 + (fb.m - 1)) = (.bytes s1 b1, p1) →
    s1.bandOf t o (if ty.cls = true then fb.bband else 0) (q.n0 + (fb.n - 1)) = (.bytes s2 b2, p2) →
    s2.matWrite t o (a.toNat + (q.m0 + (fb.m - 1)) * pitch + (q.n0 + (fb.n - 1)) * moveSize ty)
      (leBytes (moveSize ty) (if ty.cls = true then
          roundTo ty rnd sat 0 ((value .f32 (t.tileWord (at_ fb base q (fb.m - 1) (fb.n - 1)))).mul (p1.mul p2))
        else t.tileWord (at_ fb base q (fb.m - 1) (fb.n - 1)))) = .bytes s3 [] → s3.NoOnce t o →
    ∃ s' t', exec (.tileOpComplete t.id o.id) s = .next s' ∧ s'.troupe? t.id = some t' ∧ t.SameRegs t' ∧
      t'.tile = t.tile ∧ ∀ h pa, s'.peekPool h pa = s3.peekPool h pa) ∧
  (∀ s t o ty rnd sat fb base a pitch qs m, s.WorkOver t o 1 0 → o.kind = .tst ty rnd sat fb base a pitch qs m →
    ∃ s' t', exec (.tileOpComplete t.id o.id) s = .next s' ∧ ended s' t t' ∧ same s s' ∧ t'.tile = t.tile) ∧
  ∀ (s : State) t o va, s.troupe? t.id = some t → t.op? o.id = some o → o.waitPage = some va →
    s.translate (s.sidOf t) t.die va ≠ .absent →
    ∃ s' t', exec (.pageWaitResume t.id o.id) s = .next s' ∧ s'.troupe? t.id = some t' ∧ t.SameRegs t' ∧
      s'.pool = s.pool ∧ t'.op? o.id = some { o with waitPage := none }

/-- O48. Chapter 09 on engine commands, of what issues. `handleOf` is the layout of a handle. Which free entry is taken is the model's choice (log 42). -/
def Obligations.EngineCommandsIssue : Prop :=
  let room := fun (x : Ins) (s : State) (t : Troupe) (c : OpClass) =>
    t.counter s.now c < 63 ∧ (x.d ≠ 511 → t.freeEntry ≠ none) ∧ ∀ o ∈ t.ops, o.id < s.fresh
  let issued := fun (s s' : State) (t t' : Troupe) (p : Path) (act : Word) (x : Ins) (c : OpClass) (k : OpKind) =>
    t.Onward t' p s.now x ∧ s'.pool = s.pool ∧ s'.launches = s.launches ∧
      (∀ j, (s'.sect t.ens j).allot = (s.sect t.ens j).allot) ∧
      (∃ o, t'.ops = t.ops ++ [o] ∧ o.id = s.fresh ∧ o.cls = c ∧ o.kind = k ∧ o.pc = p.pc ∧ o.lanes = act ∧ o.done = false ∧
        o.future = if x.d = 511 then none else t.freeEntry) ∧
      (x.d = 511 → t.SameRegs t' ∧ t'.futures = t.futures) ∧
      ∀ e, x.d ≠ 511 → t.freeEntry = some e → lget FutureEntry.new t'.futures e =
          { lget FutureEntry.new t.futures e with
            busy := true, status := 0, value := 0, mark := some x.d.toNat, place := t.place } ∧
        t.Wrote t' act fun _ => wr1 x.d (handleOf t.place e (lget FutureEntry.new t.futures e).gen)
  let count := fun (e : Word) => (e.extractLsb' 0 24).toNat
  let size := fun (e : Word) => 2 ^ (e.extractLsb' 24 3).toNat
  let indexed := fun (s : State) (t : Troupe) (idx base dense : Nat) (e : Word) =>
    (e.extractLsb' 27 5).toNat = 0 ∧ 1 ≤ count e ∧ size e ≤ 16 ∧ idx % 4 = 0 ∧ base % size e = 0 ∧
      dense % size e = 0 ∧ s.windowOk t idx (4 * count e) = true ∧ s.windowOk t dense (count e * size e) = true
  let um := fun (i : Instr) (x : Ins) (first blk : Bool) (k : UmKind) =>
    Completes i x (Use.cmd [(x.d, 1)] ((x.a, 1) :: if blk = true then [(x.b, 2)] else []) first)
      (fun s t _ act => room x s t .um ∧ (uni t act x.a).toNat < 16 ∧ t.die < s.dies.length ∧
        (s.die t.die).um.length = 16 ∧
        (∃ l, s.launchOf t.ens = some l ∧ (s.slot t.die (uni t act x.a).toNat).owner = some l.id) ∧
        (blk = true → (uniPair t act x.b).toNat % 64 = 0 ∧ s.windowOk t (uniPair t act x.b).toNat 64 = true))
      fun s t p act s' t' => issued s s' t t' p act x .um
          (.um k (uni t act x.a).toNat (if blk = true then (uniPair t act x.b).toNat else 0) { die := t.die }) ∧
        s'.slot t.die (uni t act x.a).toNat = { s.slot t.die (uni t act x.a).toNat with
          queue := (s.slot t.die (uni t act x.a).toNat).queue ++ [(t.id, s.fresh)] }
  let met := fun (x : Ins) (s : State) (t : Troupe) => ∀ e ∈ lenum [OpClass.ld, .st, .cp, .tm, .gt, .cl, .um],
    (x.imm.extractLsb' (4 * e.1) 4).toNat = 15 ∨ t.counter s.now e.2 ≤ (x.imm.extractLsb' (4 * e.1) 4).toNat
  (∀ x first, Completes (.cpy x first) x (copyUse x first 1)
    (fun s t _ act => room x s t .cp ∧ (uni t act x.a).toNat < (s.headerOf t).chan ∧
      (uniPair t act x.b).toNat % 16 = 0 ∧ (uniPair t act x.c).toNat % 16 = 0 ∧ (uni t act x.e).toNat % 16 = 0 ∧
      16 ≤ (uni t act x.e).toNat ∧ s.windowOk t (uniPair t act x.b).toNat (uni t act x.e).toNat = true ∧
      s.windowOk t (uniPair t act x.c).toNat (uni t act x.e).toNat = true ∧
      (s.chan t (uni t act x.a).toNat).length < Config.chanDepth ∧
      (∃ e, s.ens? t.ens = some e ∧ t.sec < e.sections.length) ∧
      (uni t act x.a).toNat < (s.sect t.ens t.sec).chans.length ∧ (uni t act x.a).toNat < (s.sect t.ens t.sec).wp.length)
    fun s t p act s' t' => issued s s' t t' p act x .cp
        (.cpy (uni t act x.a).toNat (uniPair t act x.b).toNat (uniPair t act x.c).toNat (uni t act x.e).toNat 0 none) ∧
      s'.chan t' (uni t act x.a).toNat = s.chan t (uni t act x.a).toNat ++ [(t.id, s.fresh)] ∧
      lget 0 (s'.sect t.ens t.sec).wp (uni t act x.a).toNat = if s.chan t (uni t act x.a).toNat = [] then 0
        else lget 0 (s.sect t.ens t.sec).wp (uni t act x.a).toNat) ∧
  (∀ x first, Completes (.gather x first) x (copyUse x first 2)
    (fun s t _ act => room x s t .gt ∧ indexed s t (uniPair t act x.a).toNat (uniPair t act x.b).toNat
      (uniPair t act x.c).toNat (uni t act x.e))
    fun s t p act s' t' => issued s s' t t' p act x .gt (.gather (uniPair t act x.a).toNat (uniPair t act x.b).toNat
      (uniPair t act x.c).toNat (count (uni t act x.e)) (size (uni t act x.e)) 0)) ∧
  (∀ x first, Completes (.scatter x first) x (copyUse x first 2)
    (fun s t _ act => room x s t .gt ∧ indexed s t (uniPair t act x.a).toNat (uniPair t act x.c).toNat
      (uniPair t act x.b).toNat (uni t act x.e))
    fun s t p act s' t' => issued s s' t t' p act x .gt (.scatter (uniPair t act x.a).toNat (uniPair t act x.b).toNat
      (uniPair t act x.c).toNat (count (uni t act x.e)) (size (uni t act x.e)) 0)) ∧
  (∀ x op ty first g, Completes (.coll x op ty first) x (Use.cmd [(x.d, 1)] [(x.a, 1), (x.b, 2)] first)
    (fun s t _ act => room x s t .cl ∧ s.group? (uni t act x.a).toNat = some g ∧ g.st = .active ∧
      (s.headerOf t).grpBase ≤ (uni t act x.a).toNat ∧
      (uni t act x.a).toNat < (s.headerOf t).grpBase + (s.headerOf t).grpCnt ∧ (uniPair t act x.b).toNat % 64 = 0 ∧
      s.windowOk t (uniPair t act x.b).toNat 64 = true)
    fun s t p act s' t' => issued s s' t t' p act x .cl
      (.coll op ty (uni t act x.a).toNat g.gen.toNat (uniPair t act x.b).toNat
        { slots := s.liveOf (uni t act x.a).toNat })) ∧
  (∀ x first, um (.umcfg x first) x first true .cfg) ∧ (∀ x first, um (.umrank x first) x first false .rank) ∧
  (∀ x first, um (.umcommit x first) x first false .commit) ∧ (∀ x first, um (.umdirty x first) x first false .dirty) ∧
  (∀ x, Completes (.waitc x) x Use.none_
    (fun s t _ _ => (x.imm.extractLsb' 28 4).toNat = 0 ∧ (∀ o ∈ t.ops, o.fault = none) ∧ met x s t)
    fun s t p _ s' t' => t.OnwardOnly t' p s.now x ∧ s.SameBut s' t.id) ∧
  ∀ x, Completes (.waitc x) x Use.none_ (fun s t _ _ => (x.imm.extractLsb' 28 4).toNat = 0 ∧ ¬ met x s t)
    fun s t p _ s' t' => t.Holds t' p ∧ s.SameBut s' t.id

/-- O49. Chapter 09 on futures and on what the engines do. Which entry a handle names is `State.lookup`. -/
def Obligations.EngineOperationsAndFutures : Prop :=
  let ends := fun (i : Instr) (s : State) (t : Troupe) (o : Op) (status value : Nat) (post : State → Troupe → Prop) =>
    ∀ e, s.Unawaited t o e → ∃ s' t', exec i s = .next s' ∧ s'.troupe? t.id = some t' ∧ t.SameRegs t' ∧
      s'.pool = s.pool ∧ t'.Final o e (BitVec.ofNat 32 status) (BitVec.ofNat 32 value) ∧ post s' t'
  let got := fun (s : State) (t u : Troupe) (act : Word) (r : BitVec 9) (o e : Nat) (f : FutureEntry) =>
    s.lookup t (uni t act r) = .entry o e f ∧ s.troupe? o = some u ∧ lget FutureEntry.new u.futures e = f ∧
      u.run = .running ∧ (∀ n, s.ens? u.ens = some n → n.st = .running) ∧ e < u.futures.length
  let freed := fun (s' : State) (o e : Nat) (f : FutureEntry) => ∃ u' ∈ s'.troupe? o,
    (lget FutureEntry.new u'.futures e).busy = false ∧ (lget FutureEntry.new u'.futures e).gen = f.gen + 1
  (∀ s t o c src dst len n s1 bs s2, s.AtWork t o → o.kind = .cpy c src dst len n none → n < len →
    (s.chan t c).head? = some (t.id, o.id) → s.rangesAlias t src dst len = false → c < (s.sect t.ens t.sec).wp.length →
    s.engineRead t (.op t.id o.id) (src + n) 16 = .bytes s1 bs → s1.opWrite t o (dst + n) bs = .bytes s2 [] →
    ∃ s' t' ls r sh, exec (.cpyDelivery t.id o.id 1) s = .next s' ∧ s'.troupe? t.id = some t' ∧ t.SameRegs t' ∧
      s'.pool = s2.pool ∧ lget 0 (s'.sect t.ens t.sec).wp c = BitVec.ofNat 32 (n + 16) ∧
      t'.ops = [{ o with kind := .cpy c src dst len (n + 16) none, lines := ls, rdPass := r, rdShared := sh }]) ∧
  (∀ s t o c src dst len im, s.AtWork t o → o.kind = .cpy c src dst len len im → s.opOver o = true → o.cancelled = false →
    (s.chan t c).head? = some (t.id, o.id) → ends (.cpyTransferComplete t.id o.id) s t o 1 len
      fun s' t' => (t.id, o.id) ∉ s'.chan t' c) ∧
  (∀ s t o i a b n z m s1 w s2 v s3, s.AtWork t o → o.kind = .gather i a b n z m → m < n →
    s.engineRead t (.op t.id o.id) (i + 4 * m) 4 = .bytes s1 w → a + leNat w * z < 2 ^ 64 → b + m * z < 2 ^ 64 →
    s1.engineRead t (.op t.id o.id) (a + leNat w * z) z = .bytes s2 v → s2.opWrite t o (b + m * z) v = .bytes s3 [] →
    s3.NoOnce t o →
    ∃ s' t' ls r sh, exec (.gatherScatterComplete t.id o.id 1) s = .next s' ∧ s'.troupe? t.id = some t' ∧
      t.SameRegs t' ∧ (∀ h pa, s'.peekPool h pa = s3.peekPool h pa) ∧
      t'.ops = [{ o with kind := .gather i a b n z (m + 1), lines := ls, rdPass := r, rdShared := sh }]) ∧
  (∀ s t o i a b n z m s1 w s2 v s3, s.AtWork t o → o.kind = .scatter i a b n z m → m < n →
    s.engineRead t (.op t.id o.id) (i + 4 * m) 4 = .bytes s1 w → a + m * z < 2 ^ 64 → b + leNat w * z < 2 ^ 64 →
    s1.engineRead t (.op t.id o.id) (a + m * z) z = .bytes s2 v → s2.opWrite t o (b + leNat w * z) v = .bytes s3 [] →
    s3.NoOnce t o →
    ∃ s' t' ls r sh, exec (.gatherScatterComplete t.id o.id 1) s = .next s' ∧ s'.troupe? t.id = some t' ∧
      t.SameRegs t' ∧ (∀ h pa, s'.peekPool h pa = s3.peekPool h pa) ∧
      t'.ops = [{ o with kind := .scatter i a b n z (m + 1), lines := ls, rdPass := r, rdShared := sh }]) ∧
  (∀ s t o i a b n z k, s.AtWork t o → o.kind = .gather i a b n z n ∨ o.kind = .scatter i a b n z n → 0 < n →
    s.opOver o = true → o.cancelled = false → ends (.gatherScatterComplete t.id o.id k) s t o 1 n fun _ _ => True) ∧
  (∀ s t o c ty n gen desc w parts ch, s.AtWork t o → o.kind = .coll c ty n gen desc w → w.got ≠ [] →
    w.parts.isSome = true → w.moved = s.collTotal o.kind → s.opOver o = true → o.cancelled = false →
    ends (.collComplete t.id o.id parts ch) s t o (1 + if w.changed = true then 256 else 0) (s.liveOf n).length
      fun _ _ => True) ∧
  (∀ s t o k slot blk w d j v, s.WorkOver t o 1 v → o.kind = .um k slot blk w → o.cancelled = false →
    (s.slot d j).queue.head? = some (t.id, o.id) → ends (.umCommandComplete d j) s t o 1 v
      fun s' _ => s'.slot d j = { s.slot d j with queue := (s.slot d j).queue.tail }) ∧
  (∀ x first o e f u, Completes (.fwait x first) x (futureUse x first)
    (fun s t _ act => got s t u act x.a o e f ∧ (f.status.extractLsb' 0 8).toNat ≠ 0)
    fun s t p act s' t' => t.Onward t' p s.now x ∧ freed s' o e f ∧
      t.Wrote t' act fun _ => wr2 x.d (f.value ++ f.status)) ∧
  (∀ x first o e f u, Completes (.fwait x first) x (futureUse x first)
    (fun s t _ act => got s t u act x.a o e f ∧ (f.status.extractLsb' 0 8).toNat = 0)
    fun s t p act _ t' => t.Waits t' p s.now x (.fwait o e f.gen x.d.toNat act)) ∧
  (∀ x first, Completes (.fwait x first) x (futureUse x first) (fun s t _ act => s.lookup t (uni t act x.a) = .stale ∧ s.justDone t (uni t act x.a) = none)
    fun s t p act _ t' => t.Onward t' p s.now x ∧ t.Wrote t' act fun _ => wr2 x.d 4) ∧
  (∀ x first o e f u, Completes (.ftest x first) x (futureUse x first)
    (fun s t _ act => got s t u act x.a o e f)
    fun s t p act s' t' => t.Onward t' p s.now x ∧ (∃ u' ∈ s'.troupe? o, lget FutureEntry.new u'.futures e = f) ∧
      t.Wrote t' act fun _ => wr2 x.d (f.value ++ f.status)) ∧
  (∀ x first o e f u v i a b n z m, Completes (.fcancel x first) x (Use.cmd [] [(x.a, 1)] first)
    (fun s t _ act => got s t u act x.a o e f ∧ f.busy = true ∧ (f.status.extractLsb' 0 8).toNat = 0 ∧ s.Unawaited u v e ∧
      u.ops = [v] ∧ v.done = false ∧ v.fault = none ∧ v.ends = none ∧ v.kind = .gather i a b n z m ∧
      s.opOver v = true)
    fun s t p _ s' t' => t.OnwardOnly t' p s.now x ∧ freed s' o e f ∧
      ∀ u' ∈ s'.troupe? o, ∀ v' ∈ u'.ops, v'.done = true ∧ v'.cancelled = true) ∧
  ∀ s t h, (h.extractLsb' 30 2).toNat ≠ 2 → State.lookup s t h = .invalid

/-- O50. Chapters 01, 05, 06 and 14 on headers, fetches, refills and first touches. A troupe that a refill gangs takes the current clock as its stamp (log 42); that a filled page shows 0 through the slice as well, its cached lines dropped, is log 22. -/
def Obligations.PathsEnterHeadersAndRefill : Prop :=
  let at_ := fun (s : State) (t : Troupe) (p : Path) (w : Slot) => s.runner (refOf t p) = some (t, p) ∧ p.blk = none ∧
    p.ibuf = some w ∧ p.ordinary = true ∧ p.atJoin = false ∧ s.preempting t = false
  let block := fun (s : State) (t : Troupe) => ∃ l, s.launchOf t.ens = some l ∧ l.hdr.block = true
  let inBlock := fun (t' : Troupe) (p : Path) (hd : Header) => ∃ q ∈ t'.path? p.sel,
    q.blk = some { hdr := p.pc, len := hd.len, rcv := hd.rcv } ∧ q.pc = p.pc + 16 ∧ q.wait = .none ∧ q.stack = p.stack ∧
      q.stamp = p.stamp
  let faulted := fun (i : Instr) (s : State) (t : Troupe) (p : Path) (code addr : Nat) => Delivers s t p →
    ∃ s' t', exec i s = .next s' ∧ s'.troupe? t.id = some t' ∧
      Delivered s t p (t.faultLanes p) code addr p.pc p.stamp s' t'
  let fetching := fun (s : State) (t : Troupe) (p : Path) => s.runner (refOf t p) = some (t, p) ∧ p.ibuf = none ∧
    p.pc < 2 ^ 64
  let cold := fun (s : State) (t : Troupe) (h pa : Nat) (q : Pte) => q.kind ≠ .coherent ∧ t.die < s.dies.length ∧
    mfind (s.core t.die t.core).icache (codeKey h pa) = none ∧
    s.line? h (pa / 128) = none ∧ (s.port h (pa / 128 * 128)).isSome = true ∧ (s.port h pa).isSome = true ∧
    s.full h = false ∧ pa % 16 = 0 ∧ s.pool.wf = true
  let rank := fun (t : Troupe) (l : Nat) => ((List.range l).filter fun j => (t.lane j).st == .exited).length
  let unique := fun (s : State) => ∀ t ∈ s.troupes, ∀ u ∈ s.troupes, t.id = u.id → t = u
  let spent := fun (s : State) (e : Ensemble) (l : Launch) => s.ens? e.id = some e ∧ s.launch? e.launch = some l ∧
    e.st = .running ∧ l.hdr.block = true ∧ e.lastRefill = false ∧
    ∀ t ∈ s.running e.id, t.live = 0 ∧ t.paths = [] ∧ t.finish = .no
  (∀ s t p w hd, at_ s t p w → decodeHeader w = some hd → hd.rgn = false →
    (hd.rfp = false ∨ (t.ganged = true ∧ block s t)) →
    ∃ s' t', exec (.headerEntry (refOf t p)) s = .next s' ∧ s'.troupe? t.id = some t' ∧ t.SameRegs t' ∧ inBlock t' p hd ∧
      t.OtherPaths t' p.sel ∧ t'.region = t.region ∧ s'.pool = s.pool) ∧
  (∀ s t p w hd, at_ s t p w → decodeHeader w = some hd → hd.rgn = true → hd.rfp = false → t.routine = .none →
    t.ganged = true →
    ∃ s' t', exec (.headerEntry (refOf t p)) s = .next s' ∧ s'.troupe? t.id = some t' ∧ t.SameRegs t' ∧ inBlock t' p hd ∧
      t'.region = some { hdr := p.pc, idem := hd.idem, exito := hd.exito, entry := hd.entry, save := hd.save,
                         mask := t.enable, committed := false }) ∧
  (∀ s t p w hd l, at_ s t p w → decodeHeader w = some hd → hd.rgn = false → hd.rfp = true → t.routine = .none →
    t.ganged = true → t.paths = [p] → p.sel = .ord 0 → s.launchOf t.ens = some l → l.hdr.block = false → t.live ≠ 0 →
    t.lanes.length = 32 → t.NoBarWait →
    ∃ s' t', exec (.headerEntry (refOf t p)) s = .next s' ∧ s'.troupe? t.id = some t' ∧ t.SameRegs t' ∧
      t'.refillPc = some p.pc ∧ t'.run = .running ∧
      (∃ l' ∈ s'.launch? l.id, l'.next = l.next + min (rank t 32) (l.stop - l.next)) ∧
      ∀ k, k < 32 → if (t.lane k).st = .exited then
          if l.next + rank t k < l.stop then (t'.lane k).st = .live ∧
            (t'.lane k).item = BitVec.ofNat 64 (l.next + rank t k) ∧ t'.enable.getLsbD k = true
          else (t'.lane k).st = .drained ∧ t'.enable.getLsbD k = t.enable.getLsbD k
        else t'.lane k = t.lane k ∧ t'.enable.getLsbD k = t.enable.getLsbD k) ∧
  (∀ s t p w, at_ s t p w → decodeHeader w = none → faulted (.headerEntry (refOf t p)) s t p 0x03 0) ∧
  (∀ s t p w hd, at_ s t p w → decodeHeader w = some hd → t.ganged = false →
    hd.rgn = true ∨ (hd.rfp = true ∧ ¬ block s t) → faulted (.headerEntry (refOf t p)) s t p 0x0C 0) ∧
  (∀ s t p h pa q, fetching s t p → s.translate (s.sidOf t) t.die p.pc = .ok h pa q → q.kind ≠ .device → q.x = true →
    cold s t h pa q →
    ∃ s' t', exec (.demandFetch (refOf t p)) s = .next s' ∧ s'.troupe? t.id = some t' ∧ t.SameRegs t' ∧
      t'.path? p.sel = some { p with ibuf := some (slotOfBytes (Memory.bytes s.pool pa 16)) } ∧ s'.pool = s.pool) ∧
  (∀ (s : State) t p h pa q, p.ibuf = none → p.pc < 2 ^ 64 → s.translate (s.sidOf t) t.die p.pc = .ok h pa q →
    q.kind ≠ .device → q.x = true → cold s t h pa q →
    ∃ s1, s.fetchHead t p = .slot s1 (slotOfBytes (Memory.bytes s.pool pa 16)) ∧ s1.pool = s.pool ∧
      (mfind (s1.core t.die t.core).icache (codeKey h pa)).isSome = true ∧ s1.troupes = s.troupes) ∧
  (∀ s t p, fetching s t p → s.translate (s.sidOf t) t.die p.pc = .unmapped →
    faulted (.demandFetch (refOf t p)) s t p 0x05 p.pc) ∧
  (∀ s t p h pa q, fetching s t p → s.translate (s.sidOf t) t.die p.pc = .ok h pa q → q.kind = .device ∨ q.x = false →
    faulted (.demandFetch (refOf t p)) s t p 0x08 p.pc) ∧
  (∀ s t p, fetching s t p → s.translate (s.sidOf t) t.die p.pc = .absent → t.routine = .none →
    ∃ s', exec (.demandFetch (refOf t p)) s = .next s' ∧ ∃ e' ∈ s'.ens? t.ens, e'.st ≠ .running ∧ e'.waitPage = some p.pc) ∧
  (∀ (s : State) t l, s.troupe? t.id = some t → s.launchOf t.ens = some l → t.run = .running → t.finish = .no →
    s.onCores t = true → l.hdr.block = false → t.live = 0 → t.inState .exited ≠ 0 →
    (∀ p ∈ t.paths, p.ordinary = true ∧ p.slices = 0) →
    ∃ s' t', exec (.troupeIdleRefill t.id) s = .next s' ∧ s'.troupe? t.id = some t' ∧
      (∀ h, l.next < l.stop → t.refillPc = some h → t.SameRegs t' ∧ t'.lanes = t.lanes ∧ ∃ q, t'.paths = [q] ∧
        q.sel = .ord 0 ∧ q.pc = h ∧ q.blk = none ∧ q.slices = slicesOf (t.inState .exited)) ∧
      (l.stop ≤ l.next ∨ t.refillPc = none → t'.run = .done ∧ t'.holdsExt = false ∧ ∀ k, k < t.lanes.length →
        (t'.lane k).st = if (t.lane k).st = .exited then .drained else (t.lane k).st)) ∧
  (∀ s e l, spent s e l → unique s → l.next < l.stop →
    ∃ s', exec (.blockRefill e.id) s = .next s' ∧
      (∃ l' ∈ s'.launch? l.id, l'.next = min ((l.next / l.hdr.groupSize + 1) * l.hdr.groupSize) l.stop) ∧
      ∀ t ∈ s.running e.id, ∃ t' ∈ s'.troupe? t.id,
        (∀ k, k < t.lanes.length → (t'.lane k).regs = (t.lane k).regs ∧
          let n := t.sec * 32 * l.hdr.troupes + t.idx * 32 + k
          let i := l.next / l.hdr.groupSize * l.hdr.groupSize + n
          if n < l.hdr.groupSize ∧ l.next ≤ i ∧ i < l.stop then
            (t'.lane k).st = .live ∧ (t'.lane k).item = BitVec.ofNat 64 i else (t'.lane k).st = .absent) ∧
        if t'.live = 0 then t'.paths = [] else ∃ q, t'.paths = [q] ∧ q.pc = l.entry ∧ q.blk = none ∧
          q.slices = slicesOf t'.live) ∧
  (∀ s e l, spent s e l → unique s → l.stop ≤ l.next →
    ∃ s', exec (.blockRefill e.id) s = .next s' ∧ ∀ t ∈ s.running e.id, ∃ t' ∈ s'.troupe? t.id, t'.run = .done) ∧
  (∀ s d c sid va k, (∀ h ln l, s.line? h ln = some l → l.once = none) → ∃ s', exec (.hwPrefetch d c sid va k) s = .next s' ∧ s'.pool = s.pool ∧ s'.troupes = s.troupes ∧
    s'.subs = s.subs ∧ ∀ h pa, s'.peekPool h pa = s.peekPool h pa) ∧
  ∀ (s : State) sid va b p, s.page? sid va = some (b, p) → p.res = false → p.touched = true →
    p.kind ≠ .device → p.pa % 128 = 0 → p.size % 128 = 0 →
    (∀ h ln l, s.line? h ln = some l → ∀ k ∈ l.dirty, k < 128) →
    ∃ s', exec (.pageFirstTouchFill sid va) s = .next s' ∧ s'.page? sid va = some (b, { p with res := true, touched := false }) ∧
      s'.troupes = s.troupes ∧ ∀ a, if p.pa ≤ a ∧ a < p.pa + p.size then
          Memory.byte s'.pool a = 0 ∧ ∀ h, p.home = some h → s'.peekPool h a = 0
        else Memory.byte s'.pool a = Memory.byte s.pool a

/-- O51. Chapters 01, 13 and 16 on placement and resume. Which slot is taken is the model's choice (log 15). -/
def Obligations.PlacementPutsEnsemblesOnCores : Prop :=
  let first := fun (s : State) => firstSome (fun c => (s.fits c).map fun x => (c, x)) (placeable s.now s.candidates)
  let again := fun (s : State) (e : Nat) (x : Site) (t : Troupe) (post : State → Troupe → Prop) =>
    s.troupe? t.id = some t → t.ens = e → t.run = .running → t.lanes.length = 32 → t.slices.length = 8 →
    ∃ s' t', exec .placement s = .next s' ∧ s'.troupe? t.id = some t' ∧ t'.finish = .no ∧
      (∀ q, (x.seats.find? fun q => q.sec == t.sec && q.idx == t.idx) = some q →
        t'.die = x.die ∧ t'.core = q.core ∧ t'.part = q.part ∧ t'.slot = q.slot) ∧ post s' t'
  let poisoned := fun (t' : Troupe) => ∀ l, l < 32 → ∀ r, r < 192 → (t'.lane l).bad r = true
  (∀ s c x l, first s = some (c, x) → c.swapped = none → s.launch? c.launch = some l → (∀ e ∈ s.ens, e.id < s.fresh) →
    ∃ s', exec .placement s = .next s' ∧
      (∃ e ∈ s'.ens? s.fresh, e.launch = l.id ∧ e.num = l.nextNum ∧ e.die = x.die ∧ e.cluster = x.cluster ∧
        e.offset = x.offset) ∧
      (∃ l' ∈ s'.launch? l.id, l'.nextNum = l.nextNum + 1 ∧ l'.next = if l.hdr.block = true
        then min ((l.next / l.hdr.groupSize + 1) * l.hdr.groupSize) l.stop
        else min l.stop (l.next + 32 * (l.hdr.sections * l.hdr.troupes))) ∧
      ∀ q ∈ x.seats, q.part = (q.idx + x.offset) % 4 ∧ q.slot < 16 ∧ q.slot ∉ s.slotsTaken x.die q.core q.part ∧
        ∃ t ∈ s'.troupes, t.ens = s.fresh ∧ t.sec = q.sec ∧ t.idx = q.idx ∧ t.die = x.die ∧ t.core = q.core ∧
          t.part = q.part ∧ t.slot = q.slot ∧ t.enable = 0xFFFFFFFF ∧ (∀ l r, t.reg l r = 0) ∧
          (l.hdr.block = false → ∀ k, k < 32 →
            let i := l.next + (q.sec * 32 * l.hdr.troupes + q.idx * 32 + k)
            if i < min l.stop (l.next + 32 * (l.hdr.sections * l.hdr.troupes)) then
              (t.lane k).st = .live ∧ (t.lane k).item = BitVec.ofNat 64 i else (t.lane k).st = .absent)) ∧
  (∀ s c x n e, first s = some (c, x) → c.swapped = some n → s.ens? n = some e →
    ∃ s', exec .placement s = .next s' ∧ (∀ d ∈ s'.queue, d.same c = false) ∧
      ((∀ t ∈ s.running n, t.finish ≠ .ended) → ∃ e' ∈ s'.ens? n, e'.st = .running ∧ e'.die = x.die ∧
        e'.cluster = x.cluster ∧ e'.offset = x.offset)) ∧
  (∀ s c x n t g, first s = some (c, x) → c.swapped = some n → (∃ e, s.ens? n = some e) → t.finish = .discarded →
    t.region = some g → t.live ≠ 0 → again s n x t fun _ t' => t'.enable = g.mask ∧ t'.routine = .none ∧ poisoned t' ∧
      ∃ q, t'.paths = [q] ∧ q.sel = .ord 0 ∧ q.pc = t.rsm.toNat ∧ q.blk = none ∧ q.slices = slicesOf t.live) ∧
  (∀ s c x n t g, first s = some (c, x) → c.swapped = some n → (∃ e, s.ens? n = some e) → t.finish = .ended →
    t.region = some g → t.live ≠ 0 →
    again s n x t fun _ t' => t'.routine = .entry ∧ poisoned t' ∧ ∃ q, t'.paths = [q] ∧ q.sel = .ord 0 ∧
      q.pc = addrOf ((g.hdr : Int) + 16 * g.entry.toInt) ∧ q.blk = none ∧ q.slices = slicesOf t.live) ∧
  (∀ s c x n t, first s = some (c, x) → c.swapped = some n → (∃ e, s.ens? n = some e) → t.finish = .spilled false → t.NoBarWait →
    again s n x t fun _ t' => t.SameRegs t' ∧ t'.routine = t.routine ∧ t'.enable = t.enable ∧
      ∀ r q, t.path? r = some q → ∃ q' ∈ t'.path? r, q'.pc = q.pc ∧ q'.blk = q.blk ∧ q'.slices = q.slices ∧
        q'.stack = q.stack) ∧
  (∀ s, first s = none → exec .placement s = .next s) ∧
  ∀ (s : State), ∃ s', exec .placerStarvationHold s = .next s' ∧ s' = { s with queue := s'.queue } ∧
    ∀ c ∈ s.queue, (if ∃ n, c.firstSince = some n ∧ 1048576 ≤ s.now - n then { c with blocking := true } else c) ∈ s'.queue

/-- O52. Chapters 06, 15, 16 and 17 on pre-emption and on the retirement of cores. The clock counts the bound. -/
def Obligations.PreemptionStopsAndSpills : Prop :=
  let due := fun (s : State) => firstSome (fun c => (s.target c).map fun e => (c, e)) (s.candidates.filter fun c =>
    c.request.isNone && decide (65536 ≤ s.now - c.since) && (s.fits c).isNone)
  let running := fun (s : State) (e : Ensemble) (t : Troupe) => s.ens? e.id = some e ∧ s.troupe? t.id = some t ∧
    t.ens = e.id ∧ t.run = .running ∧ t.finish = .no
  let worn := fun (s : State) (d phys c : Nat) => d < s.dies.length ∧ (s.die d).logical phys = some c
  (∀ s e t why, why ≠ .placer → running s e t → e.st = .running → (∀ u ∈ s.running e.id, u.routine ≠ .entry) →
    ∃ s' t', exec (.preemptRequest e.id why) s = .next s' ∧ s'.troupe? t.id = some t' ∧ t'.run = .running ∧
      (∃ e' ∈ s'.ens? e.id, e'.st = .preempting ∧ e'.bound = 0 ∧ e'.boundMax = s.pbound) ∧
      (∀ p n, t.paths = [p] → p.wait = .sleep n → t.SameRegs t' ∧ t'.path? p.sel = some { p with wait := .none }) ∧
      ∀ p n ph d ls, t.paths = [p] → p.ordinary = true → p.wait = .bar n ph d ls →
        t.Wrote t' ls (fun _ => [(d, 0x40)]) ∧ t'.path? p.sel = some p.next) ∧
  (∀ s e t why, why ≠ .placer → running s e t → e.st = .running → e.pending = false → t.routine = .entry →
    ∃ s', exec (.preemptRequest e.id why) s = .next s' ∧ s'.troupes = s.troupes ∧
      ∃ e' ∈ s'.ens? e.id, e'.st = .running ∧ e'.pending = true ∧ e'.boundMax = s.pbound) ∧
  (∀ (s : State) (e : Ensemble) why, s.ens? e.id = some e → e.st ≠ .running → exec (.preemptRequest e.id why) s = .next s) ∧
  (∀ s c e, due s = some (c, e) → s.ens? e.id = some e → e.st = .running ∧ s.prioOf e < c.prio ∧ s.wouldFit c e.id = true ∧
    exec (.preemptRequest e.id .placer) s = exec .placerPreemptRequest s ∧
    ∃ s', exec .placerPreemptRequest s = .next s' ∧ (∃ d ∈ s'.queue, d.same c = true ∧ d.request = some e.id) ∧
      ∃ e' ∈ s'.ens? e.id, (e.pending = false → e'.boundMax = s.pbound) ∧ if (∃ u ∈ s.running e.id, u.routine = .entry) then
        e'.st = .running ∧ e'.pending = true else e'.st ≠ .running ∧ e'.bound = 0) ∧
  (∀ s, due s = none → exec .placerPreemptRequest s = .next s) ∧
  (∀ (s : State) n, (∀ c e, due s = some (c, e) → e.id ≠ n) → exec (.preemptRequest n .placer) s = .next s) ∧
  (∀ s e t, running s e t → e.st = .preempting → e.boundMax ≤ e.bound → t.routine ≠ .exit → t.NoBarWait →
    ∃ s' t', exec (.pboundExpiry e.id) s = .next s' ∧ s'.troupe? t.id = some t' ∧ t.SameRegs t' ∧
      t'.finish = .spilled false ∧ t'.rsm = t.spillRsm ∧ (∃ e' ∈ s'.ens? e.id, e'.spilled = true ∧ e'.st ≠ .running) ∧
      ∀ r q, t.path? r = some q → ∃ q' ∈ t'.path? r, q'.pc = q.pc ∧ q'.blk = q.blk ∧ q'.slices = q.slices ∧
        q'.stack = q.stack) ∧
  (∀ s e, s.ens? e.id = some e → e.st ≠ .preempting ∨ e.bound < e.boundMax → exec (.pboundExpiry e.id) s = .next s) ∧
  (∀ (s : State) (rest : List Act) e, s.agenda = .tick :: rest → s.fw.frozen = false → s.fw.resetDue = false →
    s.ens? e.id = some e → e.st = .preempting → s.stoppedEns e.id = false →
    ∃ s', step s = .next s' ∧ ∃ e' ∈ s'.ens? e.id, e'.bound = e.bound + 1 ∧ e'.st ≠ .running) ∧
  (∀ s d phys c, worn s d phys c → (s.die d).worn phys s.now = true → (∀ e ∈ (s.die d).faulty, e.1 ≠ c) →
    s.ensOn d c = [] → ∃ s', exec (.coreRetirement d phys) s = .next s' ∧ s'.usable d c = false) ∧
  ∀ s d phys c, worn s d phys c → (c, phys) ∈ (s.die d).faulty → s.ensOn d c = [] → c < 64 →
    ∃ s', exec (.coreRetirement d phys) s = .next s' ∧ (s'.die d).retired = (s.die d).retired + 1 ∧
      if 0 < (s.die d).spares then (s'.die d).spares = (s.die d).spares - 1 ∧ (s'.die d).off = (s.die d).off ∧
          (s'.die d).phys c = 68 - (s.die d).spares ∧ s'.usable d c = true
        else (s'.die d).off.getLsbD c = true ∧ (s'.die d).replace = true

/-- O53. Chapters 01, 06 and 16 on the debugger. The slice that steps runs as one that executes one instruction again does: the model's way (log 14). -/
def Obligations.DebuggerStopsStepsAndReads : Prop :=
  let one := fun (s : State) (t : Troupe) => s.troupe? t.id = some t ∧ s.debugged t = true ∧ t.slices.length = 8
  (∀ (s : State) l all, s.launch? l.id = some l → ∃ s', exec (.debuggerAttach l.id all) s = .next s' ∧
    s'.launch? l.id = some { l with debugger := some all } ∧ s'.troupes = s.troupes) ∧
  (∀ s t m, one s t → ∃ s' t', exec (.debuggerStop t.id m) s = .next s' ∧ s'.troupe? t.id = some t' ∧ t.SameRegs t' ∧
    (∀ k, k < 8 → (t'.slice k).st = if (s.launchOf t.ens).bind (·.debugger) = some true ∨
      m.getLsbD k = true then .stopped else (t.slice k).st) ∧
    ∀ r q, t.path? r = some q → ∃ q' ∈ t'.path? r, q'.pc = q.pc ∧ (q'.wait = q.wait ∨ q'.wait = .none)) ∧
  (∀ s t m, one s t → ∃ s' t', exec (.debuggerResume t.id m) s = .next s' ∧ s'.troupe? t.id = some t' ∧ t.SameRegs t' ∧
    t'.paths = t.paths ∧ ∀ k, k < 8 → if m.getLsbD k = true ∧ (t.slice k).st = .stopped then
      (t'.slice k).st = (match t.path? (.handler k) with
        | some h => if h.retry = true then .following else .inHandler
        | none => if t.live &&& sliceLanes (sliceBit k) = 0 then .idle else .following) else (t'.slice k).st = (t.slice k).st) ∧
  (∀ s t k p n, one s t → k < 8 → (t.slice k).st = .stopped → t.run = .running → t.finish = .no → s.onCores t = true →
    t.paths = [p] → p.sel = .ord n → p.slices.getLsbD k = true → p.wait = .none → p.blk.isSome = true → p.again = 0 →
    ∃ s' t', exec (.singleStep t.id k) s = .next s' ∧ s'.troupe? t.id = some t' ∧ t.SameRegs t' ∧
      t'.stepping.getLsbD k = true ∧ (t'.slice k).st = .following ∧ (∀ j, j < 8 → j ≠ k → t'.slice j = t.slice j) ∧
      ∃ h ∈ t'.path? (.handler k), h.pc = p.pc ∧ h.blk = p.blk ∧ h.retry = true ∧ h.home = n ∧
        h.again = sliceLanes p.slices &&& sliceLanes (sliceBit k) ∧ ∃ q ∈ t'.path? p.sel, q.slices = p.slices &&& ~~~sliceBit k) ∧
  (∀ s t l r v, one s t → l < t.lanes.length → (t.slice (l / 4)).st = .stopped → r < 384 → (r < 192 ∨ t.holdsExt = true) →
    ∃ s' t', exec (.debuggerRegisterAccess t.id l r (.write v)) s = .next s' ∧ s'.troupe? t.id = some t' ∧
      (t'.lane l).bad r = false ∧ t'.paths = t.paths ∧ t'.slices = t.slices ∧
      ∀ k q, t'.reg k q = if k = l ∧ q = r then v else t.reg k q) ∧
  (∀ (s : State) t l r, exec (.debuggerRegisterAccess t l r .read) s = .next s) ∧
  ∀ (s : State) t m k l r v, s.troupe? t.id = some t → s.debugged t = false →
    exec (.debuggerStop t.id m) s = .next s ∧ exec (.debuggerResume t.id m) s = .next s ∧
      exec (.singleStep t.id k) s = .next s ∧ exec (.debuggerRegisterAccess t.id l r (.write v)) s = .next s

/-- O54. Chapters 10, 12 and 16 on the switch, the device and the channels, of the line that each names. A byte that the submitter wrote meanwhile (`raced`, log 29) is left out. The line that stays for one access after GntNC, until it is tried again, is the model's (logs 35 and 42). -/
def Obligations.SwitchAndDeviceKeepLines : Prop :=
  let old := fun (s : State) (d ln k : Nat) => match s.line? d ln with | some l => l.data.byte k | none => 0
  let acc := fun (s : State) (d ln : Nat) => match s.line? d ln with | some l => l.accepted | none => []
  let given := fun (data : List (Nat × Byte)) (k : Nat) (z : Byte) => data.foldl (fun v e => if e.1 = k then e.2 else v) z
  let lone : Asker → Bool := fun w => match w with | .lane .. | .device => false | _ => true
  let filled := fun (s s' : State) (d ln : Nat) (data : List (Nat × Byte)) (st : Moesi) => ∃ l' ∈ s'.line? d ln,
    l'.st = st ∧ l'.coherent = true ∧ s'.pool = s.pool ∧ ∀ k, k < 128 → l'.data.byte k =
      if k ∈ acc s d ln then old s d ln k else given data k (Memory.byte s.pool (ln * 128 + k))
  let clean := fun (s : State) (d : Nat) => mrising (s.die d).l2 = true ∧ ∀ ln l, s.line? d ln = some l → ∀ k ∈ l.dirty, k < 128
  let still := fun (s : State) (d ln : Nat) (l : L2Line) => d < s.dies.length ∧ s.line? d ln = some l ∧ l.horizon ≤ s.now
  let published := fun (s' : State) (ln : Nat) (l : L2Line) (ks : List Nat) => ∀ k ∈ ks, k ∉ l.raced →
    Memory.byte s'.pool (ln * 128 + k) = l.data.byte k
  let sent := fun (s s' : State) (d : Nat) (ms : List (CxlMsg × Nat)) => ∃ new, (s'.die d).msgs = (s.die d).msgs ++ new ∧
    new.map (fun m => (m.msg, m.line)) = ms
  let told := fun (s s' : State) (d : Nat) (ms : List (CxlMsg × Nat × Nat)) => ∃ new, (s'.die d).msgs = (s.die d).msgs ++ new ∧
    (new.filter fun m => m.msg ∈ [CxlMsg.rspS, .rspI, .rspO, .wbI]).map (fun m => (m.msg, m.line, if m.msg = .wbI then 0 else m.tag)) = ms
  let inChan := fun (s : State) (k : Nat) (rest : List ChanReq) (t : Troupe) (o : Op) (a : Acc) (d off : Nat) =>
    mget [] s.channels k = .lane t.id o.id a.lane :: rest ∧ s.troupe? t.id = some t ∧
      t.op? o.id = some o ∧ (o.kind.accs.find? fun b => b.lane == a.lane) = some a ∧ a.phase = .entered ∧
      a.tgt = .chip d off ∧ s.errs = [] ∧ 0 < a.size ∧ a.size ≤ 16 ∧ ∃ l, s.launchOf t.ens = some l ∧ d < l.chip.length
  (∀ s d ln tag data r, d < s.dies.length → s.request? d ln tag [.rdS] = some r → r.keep = true →
    ∃ s', exec (.gntS d ⟨ln, tag⟩ data) s = .next s' ∧ filled s s' d ln data .s ∧
      (acc s d ln = [] → (s'.die d).reqs = (s.die d).reqs.erase r ∧ sent s s' d []) ∧
      (acc s d ln ≠ [] → sent s s' d [(.upg, ln)])) ∧
  (∀ s d ln tag data r, d < s.dies.length → s.request? d ln tag [.rdS, .rdX, .upg] = some r → r.keep = true →
    (r.kind = .upg → ∀ l, s.line? d ln = some l → l.st = .i) →
    ∃ s', exec (.gntE d ⟨ln, tag⟩ data) s = .next s' ∧ filled s s' d ln data (if acc s d ln = [] then .e else .m) ∧
      (s'.die d).reqs = (s.die d).reqs.erase r ∧ sent s s' d []) ∧
  (∀ s d ln tag data r, d < s.dies.length → s.request? d ln tag [.rdS] = some r → r.keep = false → r.also = [] →
    s.asker r.who = none → s.line? d ln = none → (∀ q ∈ (s.die d).reqs, q.line = ln → q = r) → (s.die d).reqs.count r = 1 →
    ∃ s', exec (.gntE d ⟨ln, tag⟩ data) s = .next s' ∧ s'.line? d ln = none ∧ sent s s' d [(.evC, ln)] ∧ s'.pool = s.pool) ∧
  (∀ s d ln tag data r, d < s.dies.length → s.request? d ln tag [.rdS, .rdX, .upg] = some r → s.line? d ln = none →
    s.asker r.who = none →
    ∃ s', exec (.gntNC d ⟨ln, tag⟩ data) s = .next s' ∧ s'.pool = s.pool ∧
      sent s s' d (if r.kind = .rdS then [] else [(.wbI, ln)]) ∧
      (r.kind = .rdS → (s'.die d).reqs = (s.die d).reqs.erase r) ∧
      if r.kind = .rdS ∧ lone r.who = true then ∃ l' ∈ s'.line? d ln, l'.once = some r.who ∧ l'.accepted = [] ∧
          l'.dirty = [] ∧ ∀ k, k < 128 → l'.data.byte k = given data k (Memory.byte s.pool (ln * 128 + k))
        else s'.line? d ln = none) ∧
  (∀ s d ln tag data r t o a pa k ty ord v h x as, d < s.dies.length → s.request? d ln tag [.rdS, .rdX, .upg] = some r →
    s.line? d ln = none → r.who = .lane t.id o.id a.lane → s.asker r.who = some (t, o, a) → s.inRecovery d ln = false →
    o.kind = .load ty ord v h x as → a.tgt = .pool d pa k → pa / 128 = ln → pa % 128 + a.size ≤ 128 → a.size ≤ 16 →
    s.troupe? t.id = some t → t.op? o.id = some o → s.errs = [] →
    ∃ s' t', exec (.gntNC d ⟨ln, tag⟩ data) s = .next s' ∧ s'.line? d ln = none ∧ s'.pool = s.pool ∧
      s'.troupe? t.id = some t' ∧ t.SameRegs t' ∧ ∃ o' ∈ t'.op? o.id, ∃ c' ∈ o'.kind.accs, c'.lane = a.lane ∧
        c'.phase = .made ∧ c'.data.toNat = leNat ((List.range a.size).map fun i =>
          given data (pa % 128 + i) (Memory.byte s.pool (pa + i)))) ∧
  (∀ s d ln tag r l, d < s.dies.length → s.request? d ln tag [.upg, .wb, .evc] = some r → r.kind = .upg → r.keep = true →
    s.line? d ln = some l → l.st = .s ∨ l.st = .o →
    ∃ s', exec (.cmp d ⟨ln, tag⟩) s = .next s' ∧ s'.line? d ln = some { l with st := .m, accepted := [], owned := [] } ∧
      (s'.die d).reqs = (s.die d).reqs.erase r ∧ s'.pool = s.pool) ∧
  (∀ s d ln tag r, d < s.dies.length → s.request? d ln tag [.upg, .wb, .evc] = some r → r.kind ≠ .upg →
    ∃ s', exec (.cmp d ⟨ln, tag⟩) s = .next s' ∧ (∀ e n, s'.line? e n = s.line? e n) ∧
      (s'.die d).reqs = (s.die d).reqs.erase r ∧ s'.pool = s.pool) ∧
  (∀ s d ln tag l, still s d ln l → ∃ s', exec (.snpDat d ⟨ln, tag⟩) s = .next s' ∧ s'.pool = s.pool ∧
    s'.line? d ln = some { l with st := match l.st with | .e => .s | .m => .o | x => x } ∧
    told s s' d [(match l.st with | .m | .o => .rspO | .i => .rspI | _ => .rspS, ln, tag)]) ∧
  (∀ s d ln tag l, still s d ln l → ∃ s', exec (.snpInv d ⟨ln, tag⟩) s = .next s' ∧
    (l.accepted = [] → s'.line? d ln = none) ∧
    (l.accepted ≠ [] → s'.line? d ln = some { l with st := .i, dirty := l.accepted, owned := [] }) ∧
    told s s' d ((if l.st = .m ∨ l.st = .o then [(.wbI, ln, 0)] else []) ++ [(.rspI, ln, tag)]) ∧
    if l.st = .m ∨ l.st = .o then (∀ k ∈ l.ownDirty, Memory.byte s'.pool (ln * 128 + k) = l.ownData.byte k) ∧
        ∀ k, k < 128 → k ∉ l.ownDirty → Memory.byte s'.pool (ln * 128 + k) = Memory.byte s.pool (ln * 128 + k)
      else s'.pool = s.pool) ∧
  (∀ s d ln tag, d < s.dies.length → s.line? d ln = none →
    (∃ s', exec (.snpDat d ⟨ln, tag⟩) s = .next s' ∧ told s s' d [(.rspI, ln, tag)] ∧ s'.pool = s.pool) ∧
    ∃ s', exec (.snpInv d ⟨ln, tag⟩) s = .next s' ∧ told s s' d [(.rspI, ln, tag)] ∧ s'.pool = s.pool) ∧
  (∀ s d ln tag l i, d < s.dies.length → s.line? d ln = some l → s.now < l.horizon →
    ∃ s', exec (if i = true then .snpInv d ⟨ln, tag⟩ else .snpDat d ⟨ln, tag⟩) s = .next s' ∧ s'.line? d ln = some l ∧ sent s s' d [] ∧
      (s'.die d).snoops = (s.die d).snoops ++ [{ line := ln, inv := i, tag := tag }] ∧ exec (.horizonPass d ln) s = .next s) ∧
  (∀ s d ln l, still s d ln l → (∀ e ∈ (s.die d).snoops, e.line ≠ ln) → s.asking d ln = false → l.once = none → s.inRecovery d ln = false →
    l.coherent = false ∨ l.st ≠ .i →
    ∃ s', exec (.horizonPass d ln) s = .next s' ∧ s'.line? d ln = none ∧
      (l.coherent = false ∨ l.st = .m ∨ l.st = .o → published s' ln l l.dirty) ∧
      sent s s' d (if l.coherent = false then [] else if l.st = .m ∨ l.st = .o then [(.wbI, ln)] else [(.evC, ln)])) ∧
  (∀ s d ln l q, still s d ln l → (s.die d).snoops.filter (fun e => e.line == ln) = [q] →
    ∃ s', exec (.horizonPass d ln) s = .next s' ∧ (∀ e ∈ (s'.die d).snoops, e.line ≠ ln) ∧
      (q.inv = true → l.accepted = [] → s'.line? d ln = none) ∧
      (q.inv = false → s'.line? d ln = some { l with st := match l.st with | .e => .s | .m => .o | x => x })) ∧
  (∀ s d q, d < s.dies.length → d < 4 → q ∉ (s.die d).portsDown → clean s d → (∀ e, (s.die e).fails = []) →
    (∀ r ∈ (s.die d).reqs, ∀ w ∈ r.who :: r.also, s.asker w = none) →
    (∀ t ∈ s.troupes, ∀ p ∈ t.paths, ∀ a b ls, p.wait ≠ .fence a b .pool ls) →
    ∃ s', exec (.switchLinkDown d q) s = .next s' ∧ q ∈ (s'.die d).portsDown ∧ q ∈ (s'.die d).recovering ∧
      (∀ ln l, s.line? d ln = some l → s.port d (ln * 128) = some q → l.coherent = true →
        l.horizon ≤ s.now → s'.line? d ln = none ∧ published s' ln l l.dirty) ∧
      (∀ ln l, s.line? d ln = some l → l.coherent = false → s'.line? d ln = some l) ∧
      ∀ r ∈ (s'.die d).reqs, s.port d (r.line * 128) = some q → r.kind = .wb) ∧
  (∀ s d ln q, s.port d (ln * 128) = some q → exec (.switchRequestTimeout d ln) s =
    if ((s.die d).reqs.any fun r => r.line == ln && decide (r.since + 3600000 ≤ s.now)) = true
      then exec (.switchLinkDown d q) s else .next s) ∧
  (∀ s d, d < s.dies.length → (s.die d).fails = [] → (∀ r ∈ (s.die d).reqs, r.kind = .wb → s.inRecovery d r.line = false) →
    ∃ s', exec (.coherenceRecoveryEnd d) s = .next s' ∧ (s'.die d).recovering = [] ∧ s'.pool = s.pool) ∧
  (∀ s a b rest t o c d off ty ord v h r as, inChan s (a * 4 + b) rest t o c d off → o.kind = .load ty ord v h r as →
    ∃ s' t', exec (.dieChannelDelivery a b) s = .next s' ∧ s'.troupe? t.id = some t' ∧ t.SameRegs t' ∧
      mget [] s'.channels (a * 4 + b) = rest ∧ s'.pool = s.pool ∧ ∃ o' ∈ t'.op? o.id, ∃ c' ∈ o'.kind.accs, c'.lane = c.lane ∧
        c'.phase = .made ∧ c'.data.toNat = s.valueAt t c) ∧
  ∀ s a b rest t o c d off ord v h as, inChan s (a * 4 + b) rest t o c d off → o.kind = .store ord v h as →
    ∃ s' t', exec (.dieChannelDelivery a b) s = .next s' ∧ s'.troupe? t.id = some t' ∧ t.SameRegs t' ∧
      mget [] s'.channels (a * 4 + b) = rest ∧ s.StoresAt s' t c c.data.toNat ∧
      ∃ o' ∈ t'.op? o.id, ∃ c' ∈ o'.kind.accs, c'.lane = c.lane ∧ c'.phase = .performed

/-- O55. Chapters 13 and 17 on messages and commands, where nobody else waits at a mailbox word. The model's choices: the order of the causes of rejection (log 25), CANCEL of a Draining command (log 43), and the page of the standard handler at admission (log 21). -/
def Obligations.CommandsArriveStartAndComplete : Prop :=
  let quiet := fun (s : State) => s.waitedWords = [] ∧ s.dies.length = 4
  let alone := fun (s : State) (a : Nat) (w : Waiter) => s.dies.length = 4 ∧
    (s.waitedWords = [] ∨ (s.waitedWords = [a] ∧ (s.word a).waiters = [w]))
  let next := fun (s : State) (sid : Nat) (m : List Byte) (u : Submitter) (q : CmdQueue) => s.parsing = true ∧
    s.sub? sid = some u ∧ u.queue? (fld m 1 1 % 16) = some q
  let said := fun (s s' : State) (c : Command) (kind status : Nat) (d0 d1 : DWord) => s'.sent = s.sent ++
    [{ sid := c.sid, tag := c.tag, seq := c.seq, queue := c.queue, kind := kind, status := status, detail0 := d0,
       detail1 := d1 }]
  let ended := fun (s' : State) (c : Command) (st d0 d1 : Nat) => ∃ c' ∈ s'.cmd? c.id, c'.effect = true ∧
    c'.status = st ∧ c'.detail0 = BitVec.ofNat 64 d0 ∧ c'.detail1 = BitVec.ofNat 64 d1 ∧ c'.st = c.st
  let ready := fun (s : State) (c : Command) => quiet s ∧ s.cmd? c.id = some c ∧ c.effect = true ∧ c.st = .started ∧
    c.lines = [] ∧ c.node = none ∧ c.op ≠ 0x2E
  let target := fun (s : State) (c : Command) => s.tagged c (BitVec.ofNat 64 (fld c.msg 0x80 8))
  (∀ s sid m u q, next s sid m u q → fld m 4 4 = q.next → q.held = [] → s.rejection u q m = none →
    s.fw.committing = none → s.waitedWords = [] → (∀ d ∈ s.cmds, d.id < s.fresh) →
    ∃ s', exec (.commandArrival sid m) s = .next s' ∧ s'.cmd? s.fresh = some (cmdOf s.fresh sid m q.lastCmd) ∧
      s'.sent = s.sent ∧ ∃ u' ∈ s'.sub? sid, u'.queue? q.num =
        some { q with next := q.next + 1, lastCmd := some s.fresh, cmds := q.cmds ++ [s.fresh] }) ∧
  (∀ s sid m u q st o, next s sid m u q → fld m 4 4 = q.next → q.held = [] → s.rejection u q m = some (st, o) →
    ∃ s', exec (.commandArrival sid m) s = .next s' ∧ said s s' (cmdOf s.fresh sid m q.lastCmd) 0 st (BitVec.ofNat 64 o) 0 ∧
      s'.cmds = s.cmds ∧ s'.subs = s.subs) ∧
  (∀ s sid m u q, next s sid m u q → fld m 4 4 < q.next → exec (.commandArrival sid m) s = .next s) ∧
  (∀ s sid m u q, next s sid m u q → q.next < fld m 4 4 → (∀ h ∈ q.held, h.1 ≠ fld m 4 4) →
    ∃ s', exec (.commandArrival sid m) s = .next s' ∧ s'.cmds = s.cmds ∧ s'.sent = s.sent ∧ ∃ u' ∈ s'.sub? sid,
      u'.queue? q.num = some { q with held := q.held ++ [(fld m 4 4, m)] }) ∧
  (∀ (s : State) u q m, (knownOp (fld m 0 1) = false → s.rejection u q m = some (0x01, 0)) ∧
    (∀ o, knownOp (fld m 0 1) = true → malformed m = some o → s.rejection u q m = some (0x02, o)) ∧
    (knownOp (fld m 0 1) = true → malformed m = none → operatorOp (fld m 0 1) = true → u.operator = false →
      s.rejection u q m = some (0x0B, 0)) ∧
    (knownOp (fld m 0 1) = true → malformed m = none → u.operator = true → s.fw.recovery = false →
      s.fw.committing = none → 64 ≤ q.cmds.length → s.rejection u q m = some (0x05, 0))) ∧
  (∀ s sid m u q, next s sid m u q → fld m 4 4 = q.next → q.held = [] → knownOp (fld m 0 1) = false →
    ∃ s', exec (.unknownOp sid m) s = .next s' ∧ said s s' (cmdOf s.fresh sid m q.lastCmd) 0 0x01 0 0) ∧
  (∀ (s : State) c, quiet s → s.cmd? c.id = some c → s.mayWait c = true → c.waits = [] → s.badAddr c = none →
    ∃ s', exec (.commandStart c.id) s = .next s' ∧ s'.cmd? c.id = some { c with st := .waiting } ∧ s'.sent = s.sent) ∧
  (∀ (s : State) c a, quiet s → s.cmd? c.id = some c → s.mayWait c = true → s.badAddr c = some a →
    ∃ s', exec (.commandStart c.id) s = .next s' ∧ said s s' c 0 0x09 (BitVec.ofNat 64 a) 0 ∧
      ∃ c' ∈ s'.cmd? c.id, c'.st = .complete ∧ c'.status = 0x09) ∧
  (∀ (s : State) c w, alone s w.addr (.start c.id) → s.cmd? c.id = some c → s.mayWait c = false → s.canStart c = true →
    c.waits = [w] → w.addr < 2 ^ 18 →
    ∃ s', exec (.commandStart c.id) s = .next s' ∧ s'.cmd? c.id = some { c with st := .started, startedAt := s.fresh } ∧
      (s.word w.addr).full = w.want ∧ (s'.word w.addr).full = (if w.consume = true then !w.want else w.want) ∧
      ∀ a, a < 2 ^ 18 → a ≠ w.addr → s'.word a = s.word a) ∧
  (∀ s c, ready s c → c.sigs = [] ∨ c.status ∈ [0x01, 0x02, 0x05, 0x09] →
    ∃ s', exec (.commandComplete c.id) s = .next s' ∧ (∃ c' ∈ s'.cmd? c.id, c'.st = .complete ∧ c'.status = c.status) ∧
      (∀ a, a < 2 ^ 18 → s'.word a = s.word a) ∧
      if c.notify = true ∨ c.status ≠ 0 then said s s' c 0 c.status c.detail0 c.detail1 else s'.sent = s.sent) ∧
  (∀ s c g, ready s c → c.sigs = [g] → c.status = 0 → g.addr < 2 ^ 18 → g.mode ≠ 0 ∨ (s.word g.addr).full = false →
    ∃ s', exec (.commandComplete c.id) s = .next s' ∧ (∃ c' ∈ s'.cmd? c.id, c'.st = .complete) ∧
      (s'.word g.addr).full = (g.mode != 2) ∧ (g.mode ≠ 2 → (s'.word g.addr).value = g.value) ∧
      ∀ a, a < 2 ^ 18 → a ≠ g.addr → s'.word a = s.word a) ∧
  (∀ s c g, ready s c → c.sigs = [g] → c.status = 0 → g.addr < 2 ^ 18 → g.mode = 0 → (s.word g.addr).full = true →
    ∃ s', exec (.commandComplete c.id) s = .next s' ∧ (∃ c' ∈ s'.cmd? c.id, c'.st = .draining ∧ c'.sigsLeft = 1) ∧
      s'.word g.addr = { s.word g.addr with waiters := [.signal c.id] } ∧ s'.sent = s.sent) ∧
  (∀ (s : State) c g, alone s g.addr (.signal c.id) → s.cmd? c.id = some c → c.st = .draining → c.sigs = [g] → c.sigsLeft = 1 → c.node = none →
    c.op ≠ 0x2E → g.addr < 2 ^ 18 → (s.word g.addr).full = false → g.mode = 0 →
    ∃ s', exec (.signalDrain c.id) s = .next s' ∧ (∃ c' ∈ s'.cmd? c.id, c'.st = .complete) ∧
      (s'.word g.addr).full = true ∧ (s'.word g.addr).value = g.value) ∧
  (∀ s c, s.started c.id 0x03 = some c → ∃ s', exec (.signal c.id) s = .next s' ∧ ended s' c 0 0 0 ∧ s'.sent = s.sent) ∧
  (∀ s c, s.started c.id 0x04 = some c → ∃ s', exec (.query c.id) s = .next s' ∧ ended s' c 0 0 0 ∧
    said s s' c 2 (match target s c with | some d => d.st.number | none => 0xFF) 0 0) ∧
  (∀ s c d, s.started c.id 0x05 = some c → quiet s → target s c = some d → s.cmd? d.id = some d →
    d.st = .arrived ∨ d.st = .waiting → d.sigs = [] → d.lines = [] →
    ∃ s', exec (.cancel c.id) s = .next s' ∧ ended s' c 0 0 0 ∧ said s s' d 0 0x06 0 0 ∧
      ∃ d' ∈ s'.cmd? d.id, d'.st = .complete ∧ d'.status = 0x06) ∧
  (∀ s c, s.started c.id 0x05 = some c → (∀ d, target s c = some d → d.st = .complete ∨
      (d.effect = true ∧ d.st ≠ .arrived ∧ d.st ≠ .waiting ∧ d.st ≠ .draining)) →
    ∃ s', exec (.cancel c.id) s = .next s' ∧ ended s' c 0 1 0 ∧ s'.sent = s.sent) ∧
  (∀ s c d, s.started c.id 0x05 = some c → target s c = some d → d.st = .draining →
    ∃ s', exec (.cancel c.id) s = .next s' ∧ ended s' c 0 0 0 ∧ s'.sent = s.sent ∧ s'.cmd? d.id = s.cmd? d.id) ∧
  (∀ r : Record, r.bytes.length = 32 ∧ fld r.bytes 0 8 = r.tag.toNat ∧ (r.seq < 2 ^ 32 → fld r.bytes 8 4 = r.seq) ∧
    (r.queue < 256 → fld r.bytes 12 1 = r.queue) ∧ (r.kind < 256 → fld r.bytes 13 1 = r.kind) ∧
    (r.status < 256 → fld r.bytes 14 1 = r.status) ∧ fld r.bytes 15 1 = 0 ∧ fld r.bytes 16 8 = r.detail0.toNat ∧
    fld r.bytes 24 8 = r.detail1.toNat) ∧
  (∀ (s : State) sid addr op, s.sub? sid = none → s.roleOf addr = some op →
    ∃ s', exec (.submitterAdmission sid addr) s = .next s' ∧ s'.sub? sid = some
      { sid := sid, addr := addr, operator := op, pages := [handlerPage], handler := 0, queues := [] }) ∧
  (∀ (s : State) sid addr, s.roleOf addr = none → exec (.submitterAdmission sid addr) s = .next s) ∧
  ∀ (s : State) pa bs, s.sharedPa pa = false → s.sharedPa (pa + bs.length - 1) = false → pa + bs.length ≤ 2 ^ 46 →
    ∃ s', exec (.submitterPoolWrite pa bs) s = .next s' ∧ s'.troupes = s.troupes ∧
      (∀ a, Memory.byte s'.pool a = if pa ≤ a then (bs[a - pa]?).getD (Memory.byte s.pool a) else Memory.byte s.pool a) ∧
      ∀ d ln l, s.line? d ln = some l → ∃ l' ∈ s'.line? d ln, l'.data = l.data ∧ l'.dirty = l.dirty ∧ l'.st = l.st

/-- O56. Chapters 13 and 14 on launches and graphs. The checks of a header are `State.headerBad` (log 26 for checks of two fields). -/
def Obligations.LaunchesAndGraphs : Prop :=
  let one := fun (s : State) (l : Launch) (c : Command) => s.launch? l.id = some l ∧ s.cmd? l.cmd = some c ∧ c.node = none
  let waits := fun (s : State) (l : Launch) (c : Command) => one s l c ∧
    (s.launches.find? fun k => k.cmd == l.cmd && !k.admitted && !k.complete) = some l ∧ s.isNextLaunch c = true ∧
    l.checked = false
  let failed := fun (s : State) (l : Launch) (c : Command) (st d0 : Nat) =>
    ∃ s', exec (.launchAdmission l.cmd) s = .next s' ∧ (∃ l' ∈ s'.launch? l.id, l'.complete = true ∧ l'.admitted = l.admitted) ∧
      ∃ c' ∈ s'.cmd? c.id, c'.effect = true ∧ c'.status = st ∧ c'.detail0 = BitVec.ofNat 64 d0
  let fits := fun (s : State) (l : Launch) => l.chipUnits ≤ s.chipCapacity ∧ l.mboxCount ≤ 61440 ∧
    (dieList l.dies).any s.dieWorks = true
  (∀ s c, s.started c.id 0x01 = some c → (∀ l ∈ s.launches, l.cmd ≠ c.id) →
    ∃ s' l, exec (.launch c.id) s = .next s' ∧ s'.launches = s.launches ++ [l] ∧ l.cmd = c.id ∧ l.sid = c.sid ∧
      l.admitted = false ∧ l.complete = false ∧ l.checked = false ∧ l.entry = fld c.msg 0x80 8 ∧ l.lhdr = fld c.msg 0x88 8 ∧
      l.next = fld c.msg 0x90 8 ∧ l.stop = fld c.msg 0x90 8 + fld c.msg 0x98 8 ∧ l.chipUnits = fld c.msg 0xA0 2 ∧
      l.mboxCount = fld c.msg 0xA2 2 ∧ l.maxEns = fld c.msg 0xA6 2 ∧ l.tlimit = fld c.msg 0xA8 4) ∧
  (∀ s l c, waits s l c → l.lhdr % 32 ≠ 0 → failed s l c 0x03 0) ∧
  (∀ s l c o, waits s l c → l.lhdr % 32 = 0 → s.svcRead l.sid l.lhdr 0 32 = .bad o → failed s l c 0x03 o) ∧
  (∀ s l c s1 b ls o, waits s l c → l.lhdr % 32 = 0 → s.svcRead l.sid l.lhdr 0 32 = .ok s1 b ls →
    s1.headerBad l.sid b = some o → failed s l c 0x03 o) ∧
  (∀ s l c s1 b ls, waits s l c → l.lhdr % 32 = 0 → s.svcRead l.sid l.lhdr 0 32 = .ok s1 b ls →
    s1.headerBad l.sid b = none → ¬ fits s1 l → failed s l c 0x04 0) ∧
  (∀ s l c s1 b ls w, waits s l c → l.lhdr % 32 = 0 → s.svcRead l.sid l.lhdr 0 32 = .ok s1 b ls →
    s1.headerBad l.sid b = none → fits s1 l → s1.lowestWords l.dies l.mboxCount = some w →
    (s1.holding.map Launch.chipUnits).sum + l.chipUnits ≤ s1.chipCapacity →
    s1.slotsFree l.dies (headerOfBytes b).umMask = true → s.dies.length = 4 →
    ∃ s', exec (.launchAdmission l.cmd) s = .next s' ∧
      (∃ l' ∈ s'.launch? l.id, l'.admitted = true ∧ l'.hdr = headerOfBytes b ∧ l'.mboxFirst = w ∧ l'.next = l.next ∧
        l'.stop = l.stop ∧ l'.handler = (match s1.sub? l.sid with
          | some u => if u.handler = 0 then Config.standardHandler else u.handler
          | none => Config.standardHandler)) ∧
      (∃ c' ∈ s'.cmd? c.id, c'.st = .placing) ∧
      (∃ q, s'.queue = s1.queue ++ [q] ∧ q.launch = l.id ∧ q.swapped = none ∧ q.prio = (headerOfBytes b).prio ∧ q.since = s.now) ∧
      (∀ d k, d < 4 → l.dies.getLsbD d = true → w ≤ k → k < w + l.mboxCount → k < 65536 →
        s'.word (d * 65536 + k) = MailboxWord.empty) ∧
      ∀ d k, d < 4 → k < 16 → l.dies.getLsbD d = true → (headerOfBytes b).umMask.getLsbD k = true →
        (s1.die d).um.length = 16 → (s'.slot d k).owner = some l.id) ∧
  (∀ s l c, one s l c → s.launchOver l = true → s.launchQuiet l = true →
    ∃ s', exec (.launchComplete l.id) s = .next s' ∧ (∃ l' ∈ s'.launch? l.id, l'.complete = true) ∧
      (∀ q ∈ s'.queue, q.launch ≠ l.id) ∧ ∃ c' ∈ s'.cmd? c.id, c'.effect = true ∧
        (∀ st, l.endStatus = some st → c'.status = st ∧ c'.detail0 = BitVec.ofNat 64 l.handedOut) ∧
        (∀ pc code r, l.endStatus = none → l.halts = (pc, code) :: r → c'.status = 0x07 ∧
          c'.detail0 = BitVec.ofNat 64 pc ∧ c'.detail1 = BitVec.ofNat 64 code) ∧
        (l.endStatus = none → l.halts = [] → (∀ t ∈ s.troupesOf l.id, ∀ o ∈ t.ops, o.fault = none) → c'.status = 0)) ∧
  (∀ s l n, s.launch? l.id = some l → l.firstPlaced = some n → l.tlimit ≠ 0 → l.complete = false → l.endStatus = none →
    n + l.tlimit * 1800000 ≤ s.now →
    ∃ s', exec (.tlimitExpiry l.id) s = .next s' ∧ (∀ q ∈ s'.queue, q.launch ≠ l.id) ∧ ∃ l' ∈ s'.launch? l.id,
      l'.stop = l.next ∧ l'.next = l.next ∧ l'.endStatus = some 0x0A) ∧
  (∀ s l n, s.launch? l.id = some l → l.firstPlaced = some n → s.now < n + l.tlimit * 1800000 →
    exec (.tlimitExpiry l.id) s = .next s) ∧
  (∀ s c, s.started c.id 0x02 = some c → s.graph? c.id = none → mget [] s.nodeTables (fld c.msg 0x80 4) = [] →
    ∃ s', exec (.graph c.id) s = .next s' ∧ ∃ c' ∈ s'.cmd? c.id, c'.effect = true ∧ c'.status = 0x02 ∧ c'.detail0 = 0x80) ∧
  ∀ s c es, s.started c.id 0x02 = some c → s.graph? c.id = none → mget [] s.nodeTables (fld c.msg 0x80 4) = es → es ≠ [] →
    (∀ g ∈ s.graphs, g.table ≠ fld c.msg 0x80 4) →
    ∃ s', exec (.graph c.id) s = .next s' ∧ ∃ g ∈ s'.graph? c.id, g.table = fld c.msg 0x80 4 ∧
      g.counters = es.map NodeEntry.pred ∧ ∀ k n, es[k]? = some n → (k ∈ g.started ↔ n.pred = 0)

/-- O57. Chapters 10 and 14 on the table commands and on groups. The model's choices: GROUPFREE waits while its table forms, a table becomes Active once all have confirmed or are Lost, and notices count while it forms (log 27); UNMAP and PROTECT change nothing until the accesses are over (log 22); DETAIL0 0x8F of PROTECT (log 12); an own Forming table gives way to a new GROUP, and both commands end with it (log 42). -/
def Obligations.TableCommands : Prop :=
  let ended := fun (s' : State) (c : Command) (st d0 : Nat) => ∃ c' ∈ s'.cmd? c.id, c'.effect = true ∧ c'.status = st ∧
    c'.detail0 = BitVec.ofNat 64 d0 ∧ c'.detail1 = 0 ∧ c'.st = c.st
  let tbl := fun (c : Command) => fld c.msg 0x80 4
  let pte := fun (c : Command) => fld c.msg 0x88 8
  let rings := fun (c : Command) (r : Nat) => fld c.msg 0x80 2 ≤ r ∧ r < fld c.msg 0x80 2 + fld c.msg 0x82 2
  let as := fun (p q : Pte) => ({ p with kind := q.kind, r := q.r, w := q.w, x := q.x, res := q.res, touched := false } : Pte)
  let own := fun (p : Group) (k : Nat) => lget ({ addr := 0, live := false, failedAt := none } : Member) p.members k
  let lost := fun (g g' : Group) (k : Nat) => (own g' k).live = false ∧ (own g' k).lost = true ∧ g'.gen = g.gen + 1 ∧ g'.st = g.st ∧
    (∀ j, j ≠ k → own g' j = own g j) ∧ ∃ ns, g'.notices = g.notices ++ ns ∧ ∀ j k', (j, k') ∈ ns ↔
      k' = k ∧ j ≠ k ∧ j ≠ g.self ∧ j < g.members.length ∧ (own g j).live = true
  (∀ s c s1 bs ls, s.started c.id 0x10 = some c → s.tableBusy (tbl c) = false →
    s.svcRead c.sid (fld c.msg 0x88 8) 0 (256 * fld c.msg 0x84 2) = .ok s1 bs ls →
    ∃ s', exec (.nodes c.id) s = .next s' ∧ match firstBad (tableChecks bs (fld c.msg 0x84 2)) with
      | some o => ended s' c 0x02 o ∧ s'.nodeTables = s.nodeTables
      | none => ended s' c 0 0 ∧ ∀ n, mget [] s'.nodeTables n = if n = tbl c then
          (List.range (fld c.msg 0x84 2)).map fun k => nodeOfBytes ((bs.drop (256 * k)).take 256)
        else mget [] s.nodeTables n) ∧
  (∀ s c, s.started c.id 0x11 = some c → s.tableBusy (tbl c) = false →
    ∃ s', exec (.nodefree c.id) s = .next s' ∧ ended s' c 0 0 ∧ ∀ n, mget [] s'.nodeTables n =
      if n = tbl c then [] else mget [] s.nodeTables n) ∧
  (∀ s c, s.started c.id 0x10 = some c ∨ s.started c.id 0x11 = some c → s.tableBusy (tbl c) = true →
    exec (if c.op = 0x10 then .nodes c.id else .nodefree c.id) s = .next s) ∧
  (∀ s c u, s.started c.id 0x12 = some c → s.sub? c.sid = some u →
    let va := fld c.msg 0x80 8
    let z := pageBytes (pte c)
    ∃ s', exec (.map c.id) s = .next s' ∧ s'.pool = s.pool ∧ s'.dies = s.dies ∧
      if mappedIn u.pages va (fld c.msg 0x90 4 * z) = true then ended s' c 0x02 0x80 ∧ s'.subs = s.subs
      else ended s' c 0 0 ∧ ∀ k a, k < fld c.msg 0x90 4 → va + k * z ≤ a → a < va + k * z + z →
        s'.page? c.sid a = some (va + k * z, pteOf (pte c) (pte c % 2 ^ 46 / 65536 * 65536 + k * z))) ∧
  (∀ s c u ps, s.started c.id 0x13 = some c → s.sub? c.sid = some u → s.pagesNamed c = some ps →
    (ps.all fun e => s.pageQuiet c.sid e.2) = true →
    ∃ s', exec (.unmap c.id) s = .next s' ∧ ended s' c 0 0 ∧ (∀ e ∈ s'.pagesOf c.sid, e ∈ u.pages ∧ ∀ q ∈ ps, q.1 ≠ e.1) ∧
      (∀ e ∈ u.pages, (∀ q ∈ ps, q.1 ≠ e.1) → e ∈ s'.pagesOf c.sid) ∧
      ∀ e ∈ ps, ∀ h ln, e.2.home = some h → e.2.holds ln = true → s'.line? h ln = none) ∧
  (∀ s c ps, s.started c.id 0x13 = some c → s.pagesNamed c = some ps → (ps.all fun e => s.pageQuiet c.sid e.2) = false →
    exec (.unmap c.id) s = .next s) ∧
  (∀ s c, s.started c.id 0x13 = some c → s.pagesNamed c = none →
    ∃ s', exec (.unmap c.id) s = .next s' ∧ ended s' c 0x02 0x80 ∧ s'.subs = s.subs) ∧
  (∀ s c u ps, s.started c.id 0x14 = some c → s.sub? c.sid = some u → s.pagesNamed c = some ps →
    (ps.all fun e => s.pageQuiet c.sid e.2) = true →
    (∀ e ∈ ps, (e.2.kind = .device ↔ (pteOf (pte c) 0).kind = .device)) →
    ∃ s', exec (.protect c.id) s = .next s' ∧ ended s' c 0 0 ∧ ∀ e ∈ u.pages,
      (if ∃ q ∈ ps, q.1 = e.1 then (e.1, as e.2 (pteOf (pte c) 0)) else e) ∈ s'.pagesOf c.sid) ∧
  (∀ s c ps, s.started c.id 0x14 = some c → s.pagesNamed c = some ps →
    (∃ e ∈ ps, ¬ (e.2.kind = .device ↔ (pteOf (pte c) 0).kind = .device)) →
    ∃ s', exec (.protect c.id) s = .next s' ∧ ended s' c 0x02 0x8F ∧ s'.subs = s.subs) ∧
  (∀ s c, s.started c.id 0x15 = some c → ∃ s', exec (.ringallot c.id) s = .next s' ∧
    ((∃ r v, rings c r ∧ mfind s.ringOwner r = some v ∧ v ≠ c.sid) → ended s' c 0x04 0 ∧ s'.ringOwner = s.ringOwner) ∧
    ((∀ r v, rings c r → mfind s.ringOwner r = some v → v = c.sid) → ended s' c 0 0 ∧
      (∀ r, mfind s'.ringOwner r = if rings c r then some c.sid else mfind s.ringOwner r) ∧
      ∀ d r, s'.ring d r = if rings c r ∧ mfind s.ringOwner r = none then { entries := List.replicate 16 0, head := 0 }
        else s.ring d r)) ∧
  (∀ s c, s.started c.id 0x16 = some c → ∃ s', exec (.ringfree c.id) s = .next s' ∧
    (s.ringsNamed c.sid (fld c.msg 0x80 2) (fld c.msg 0x82 2) = true → s' = s) ∧
    (s.ringsNamed c.sid (fld c.msg 0x80 2) (fld c.msg 0x82 2) = false → ended s' c 0 0 ∧
      ∀ r, rings c r → mfind s'.ringOwner r ≠ some c.sid)) ∧
  (∀ s c s1 bs ls, s.started c.id 0x17 = some c → (∀ g ∈ s.groups, c.id ∉ g.cmds) →
    (∀ g, s.group? (fld c.msg 0x80 1) = some g → g.sid = c.sid ∧ g.st ≠ .active) →
    s.svcRead c.sid (fld c.msg 0x88 8) 0 (16 * fld c.msg 0x82 2) = .ok s1 bs ls → 2 ≤ fld c.msg 0x82 2 →
    (∀ k, k < fld c.msg 0x82 2 → fld bs (16 * k + 8) 8 = 0) →
    ∃ s', exec (.group c.id) s = .next s' ∧ ∃ g ∈ s'.group? (fld c.msg 0x80 1), g.st = .forming ∧ g.sid = c.sid ∧
      g.cmd = c.id ∧ g.self = fld c.msg 0x84 2 ∧ g.tmo = fld c.msg 0x86 2 ∧ g.members.length = fld c.msg 0x82 2 ∧
      (∀ d, d ∈ g.also ↔ ∃ o, s.group? g.num = some o ∧ o.st = .forming ∧ d ∈ o.cmds) ∧ ∀ k, k < g.members.length → own g k =
        { addr := BitVec.ofNat 64 (fld bs (16 * k) 8), live := k == g.self, failedAt := none }) ∧
  (∀ s c g, s.started c.id 0x17 = some c → (∀ g ∈ s.groups, c.id ∉ g.cmds) → s.group? (fld c.msg 0x80 1) = some g →
    g.sid ≠ c.sid ∨ g.st = .active → ∃ s', exec (.group c.id) s = .next s' ∧ s'.groups = s.groups ∧
      ended s' c (if g.sid ≠ c.sid then 0x04 else 0x02) (if g.sid ≠ c.sid then 0 else 0x80)) ∧
  (∀ (s : State) g c, s.group? g.num = some g → s.cmd? g.cmd = some c → g.st = .forming →
    if g.formedAt + g.tmo * 1800000 ≤ s.now then ∃ s', exec (.groupFormTimeout g.num) s = .next s' ∧ ended s' c 0 0 ∧
      s'.group? g.num = some { g with st := .active, gen := 0 }
    else exec (.groupFormTimeout g.num) s = .next s) ∧
  (∀ (s : State) g k, s.group? g.num = some g → g.st = .forming → g.formedAt + g.tmo * 1800000 ≤ s.now →
    exec (.memberConfirm g.num k) s = .next s) ∧
  (∀ (s : State) g k, s.group? g.num = some g → g.st = .forming → s.now < g.formedAt + g.tmo * 1800000 →
    ∃ s' g', exec (.memberConfirm g.num k) s = .next s' ∧ s'.group? g.num = some g' ∧
      (k < g.members.length → (own g k).lost = false → (own g' k).live = true) ∧
      ((own g k).lost = true → own g' k = own g k) ∧ (∀ j, j ≠ k → own g' j = own g j) ∧
      g'.st = if (∀ j, j < g.members.length → j ≠ k → (own g j).live = true ∨ (own g j).lost = true) then .active
        else .forming) ∧
  (∀ (s : State) g k, s.group? g.num = some g → g.st = .active ∨ g.st = .forming → k ≠ g.self → (own g k).live = true →
    (own g k).failedAt = none →
    ∃ s' g', exec (.memberSessionFailure g.num k) s = .next s' ∧ s'.group? g.num = some g' ∧
      own g' k = { own g k with failedAt := some s.now } ∧ g'.gen = g.gen ∧ ∀ j, j ≠ k → own g' j = own g j) ∧
  (∀ (s : State) g k n, s.group? g.num = some g → (own g k).failedAt = some n → s.now < n + g.tmo * 1800000 →
    ∃ s' g', exec (.memberSessionRestored g.num k) s = .next s' ∧ s'.group? g.num = some g' ∧
      own g' k = { own g k with failedAt := none } ∧ g'.gen = g.gen) ∧
  (∀ (s : State) g k n, s.group? g.num = some g → g.st = .active → (own g k).live = true → (own g k).failedAt = some n →
    if n + g.tmo * 1800000 ≤ s.now then ∃ s' g', exec (.memberSessionTimeout g.num k) s = .next s' ∧
      s'.group? g.num = some g' ∧ lost g g' k else exec (.memberSessionTimeout g.num k) s = .next s) ∧
  (∀ (s : State) g f k, s.parsing = true → s.group? g.num = some g → (own g f).live = true → (own g k).live = true → k ≠ g.self →
    g.st = .active ∨ (g.st = .forming ∧ ∃ j, j < g.members.length ∧ j ≠ k ∧ (own g j).live = false ∧ (own g j).lost = false) →
    ∃ s' g', exec (.dropNotice g.num f k) s = .next s' ∧ s'.group? g.num = some g' ∧ lost g g' k) ∧
  (∀ (s : State) g f, s.parsing = true → s.group? g.num = some g → g.st = .active ∨ g.st = .forming → (own g f).live = true → g.self < g.members.length →
    (∀ t ∈ s.troupes, ∀ u ∈ s.troupes, t.id = u.id → t = u) → (∀ t ∈ s.troupes, ∀ o ∈ t.ops, o.future = none) →
    ∃ s' g', exec (.dropNotice g.num f g.self) s = .next s' ∧ s'.group? g.num = some g' ∧ g'.st = .dissolved ∧
      ∀ t' ∈ s'.troupes, ∀ o ∈ t'.ops, ∀ op ty gen d w, o.kind = .coll op ty g.num gen d w →
        o.done = true ∨ o.ends.isSome = true) ∧
  ∀ s c g, s.started c.id 0x18 = some c → s.group? (fld c.msg 0x80 1) = some g → g.sid = c.sid → g.st ≠ .forming →
    (∀ l ∈ s.naming, l.sid = c.sid → ¬ (l.hdr.grpBase ≤ g.num ∧ g.num < l.hdr.grpBase + l.hdr.grpCnt)) →
    ∃ s', exec (.groupfree c.id) s = .next s' ∧ ended s' c 0 0 ∧ s'.group? g.num = none

/-- O58. Chapters 15 and 17 on the system commands. Status 0x02 at 0x8C for an item that the device does not hold is the model's (log 30). The bytes of the identity certificate, of digests and of images are open values of Config. -/
def Obligations.SystemCommands : Prop :=
  let ended := fun (s' : State) (c : Command) (st d0 : Nat) => ∃ c' ∈ s'.cmd? c.id, c'.effect = true ∧ c'.status = st ∧
    c'.detail0 = BitVec.ofNat 64 d0 ∧ c'.detail1 = 0 ∧ c'.st = c.st
  let area := fun (s : State) (c : Command) (va n h pa : Nat) => va + n ≤ Config.windowBase ∧ h < s.dies.length ∧
    (s.die h).portsDown = [] ∧ (∀ d, ∀ e ∈ (s.die d).l2, e.2.once = none) ∧ s.used h + n ≤ s.fw.l2Mib * 8192 ∧ ∀ i, i < n → ∃ b p, s.page? c.sid (va + i) = some (b, p) ∧ p.res = true ∧ p.w = true ∧
      p.kind ≠ .device ∧ p.kind ≠ .coherent ∧ p.home = some h ∧ p.pa + (va + i - b) = pa + i
  let wrote := fun (i : Instr) (s : State) (c : Command) (va : Nat) (bs : List Byte) => ∀ h pa, area s c va bs.length h pa →
    ∃ s', exec i s = .next s' ∧ ended s' c 0 0 ∧ s'.troupes = s.troupes ∧
      ∀ k b, bs[k]? = some b → s'.peekPool h (pa + k) = b
  let entry := fun (c : Command) => (
    { valid := fld c.msg 0x81 1 == 1, src := BitVec.ofNat 64 (fld c.msg 0x84 8),
      srcMask := BitVec.ofNat 64 (fld c.msg 0x8C 8), pat := BitVec.ofNat 128 (fld c.msg 0x94 16),
      patMask := BitVec.ofNat 128 (fld c.msg 0xA4 16) } : WakeEntry)
  let res := fun (c : Command) => fld c.msg 0x80 8
  (∀ s c, s.started c.id 0x20 = some c → wrote (.ident c.id) s c (res c)
    (leBytes 4 (0x04600100 + Config.stepping.toNat) ++ leBytes 4 s.fw.version.toNat ++ leBytes 2 s.fw.l2Mib ++
      [BitVec.ofNat 8 s.fw.mode, 0] ++ ((List.range 4).flatMap fun d => leBytes 8 (s.die d).off.toNat ++
        leBytes 8 ((if (s.die d).replace = true then 2 ^ 63 else 0) + (s.die d).spares * 4096 + (s.die d).retired)) ++
      [0, 0, 0, 0])) ∧
  (∀ s c, s.started c.id 0x21 = some c → wrote (.attest c.id) s c (res c) (s.report ((c.msg.drop 0x88).take 32))) ∧
  (∀ (s : State) n, n.length = 32 → (s.report n).length = 184 ∧ (s.report n).take 2 = [1, 0] ∧
    leNat (((s.report n).drop 4).take 4) = s.fw.version.toNat ∧ ((s.report n).drop 8).take 32 = beBytes 32 s.fw.meas.toNat ∧
    ((s.report n).drop 80).take 32 = n ∧ leNat (((s.report n).drop 112).take 8) = (s.clock 0).toNat) ∧
  (∀ s c, s.started c.id 0x24 = some c → wrote (.telem c.id) s c (res c)
    (((List.range 20).flatMap fun k => leBytes 8 (mget 0 (s.core (fld c.msg 0x88 1) (fld c.msg 0x89 1)).ev k).toNat) ++
      ((List.range 16).flatMap fun k => leBytes 8 (mget 0 (s.die (fld c.msg 0x88 1)).ev (0x40 + k)).toNat) ++
      ((List.range 2).flatMap fun k => leBytes 8 (mget 0 s.ev (0x80 + k)).toNat) ++ (s.die (fld c.msg 0x88 1)).spareWords)) ∧
  (∀ s c, s.started c.id 0x25 = some c → fld c.msg 0x88 1 = 5 → fld c.msg 0x89 1 = 0 →
    wrote (.readback c.id) s c (res c) Config.certificate) ∧
  (∀ s c, s.started c.id 0x25 = some c → s.hasItem (fld c.msg 0x88 1) (fld c.msg 0x8C 4) = false →
    ∃ s', exec (.readback c.id) s = .next s' ∧ ended s' c 0x02 0x8C) ∧
  (∀ s c u, s.started c.id 0x22 = some c → s.sub? c.sid = some u → ∃ s', exec (.handler c.id) s = .next s' ∧
    ended s' c 0 0 ∧ s'.sub? c.sid = some { u with handler := fld c.msg 0x80 8 }) ∧
  (∀ s c, s.started c.id 0x23 = some c → s.waitedWords = [] → s.dies.length = 4 → fld c.msg 0x80 1 < 4 →
    fld c.msg 0x82 2 + fld c.msg 0x84 2 ≤ 4096 →
    let held := fun (w : Nat) => fld c.msg 0x82 2 ≤ w ∧ w < fld c.msg 0x82 2 + fld c.msg 0x84 2
    ∃ s', exec (.depgrant c.id) s = .next s' ∧
      ((∃ w v, held w ∧ mfind (s.die (fld c.msg 0x80 1)).depOwner w = some v ∧ v ≠ c.sid) → ended s' c 0x04 0) ∧
      ((∀ w v, held w → mfind (s.die (fld c.msg 0x80 1)).depOwner w = some v → v = c.sid) → ended s' c 0 0 ∧
        ∀ w, held w → s'.granted c.sid (fld c.msg 0x80 1 * 65536 + w) = true ∧
          s'.word (fld c.msg 0x80 1 * 65536 + w) = MailboxWord.empty)) ∧
  (∀ s c, s.started c.id 0x2A = some c → ∃ s', exec (.power c.id) s = .next s' ∧ ended s' c 0 0 ∧
    s'.pw.cap = fld c.msg 0x80 2 ∧ s'.pw.idleMs = fld c.msg 0x82 4 ∧ s'.pw.filter = s.pw.filter) ∧
  (∀ s c, s.started c.id 0x2B = some c → ∃ s', exec (.wakefilt c.id) s = .next s' ∧ ended s' c 0 0 ∧
    s'.pw.cap = s.pw.cap ∧ s'.pw.filter = lmod (fun _ => entry c)
      s.pw.filter (fld c.msg 0x80 1)) ∧
  (∀ s c, s.started c.id 0x2C = some c → ∃ s', exec (.setparam c.id) s = .next s' ∧ ended s' c 0 0 ∧
    s'.pbound = fld c.msg 0x80 4 ∧ ∀ D ∈ s'.dies, D.lambda = fld c.msg 0x84 2) ∧
  (∀ s c, s.started c.id 0x2D = some c → ∃ s', exec (.mode c.id) s = .next s' ∧ ended s' c 0 0 ∧
    s'.fw = { s.fw with mode := fld c.msg 0x80 1 }) ∧
  (∀ s c, s.started c.id 0x2E = some c → ∃ s', exec (.reset c.id) s = .next s' ∧ ended s' c 0 0 ∧ s'.fw = s.fw) ∧
  (∀ (s : State) c, s.cmd? c.id = some c → c.op = 0x2E → c.st = .started → c.effect = true → c.status = 0 → c.lines = [] →
    c.sigs = [] → c.node = none → s.waitedWords = [] →
    ∃ s', exec (.commandComplete c.id) s = .next s' ∧ s'.fw = { s.fw with resetDue := true } ∧
      ∃ c' ∈ s'.cmd? c.id, c'.st = .complete) ∧
  (∀ s c s1 bs ls, s.started c.id 0x28 = some c → s.fw.committing = none →
    s.svcRead c.sid (fld c.msg 0x80 8) 0 (fld c.msg 0x88 4) = .ok s1 bs ls →
    ∃ s', exec (.fwstage c.id) s = .next s' ∧
      if Config.imageSigned bs = true ∧ s.fw.antiRollback ≤ Config.imageVersion bs then ended s' c 0 0 ∧
        s'.fw = { s.fw with staged := some ⟨⟨bs, Config.imageVersion bs, true⟩,
          chain (chain s.fw.m1 (Config.sha256 bs)) s.fw.config.digest⟩ }
      else ended s' c 0x0C 0 ∧ s'.fw = s.fw) ∧
  (∀ s c, s.started c.id 0x29 = some c → s.fw.staged = none →
    ∃ s', exec (.fwcommit c.id) s = .next s' ∧ ended s' c 0x02 0 ∧ s'.fw = s.fw) ∧
  (∀ s c, s.started c.id 0x29 = some c → s.fw.staged.isSome = true → s.fw.committing = none →
    exec (.fwcommit c.id) s = .next { s with fw := { s.fw with committing := some c.id } }) ∧
  (∀ (s : State) c g, s.fw.committing = some c.id → s.cmd? c.id = some c → s.fw.staged = some g → s.waitedWords = [] →
    ∃ s', exec .fwcommitCommitPoint s = .next s' ∧ ended s' c 0 0 ∧ s'.fw.meas = g.next ∧ s'.fw.version = g.image.version ∧
      s'.fw.antiRollback = g.image.version ∧ s'.fw.staged = none ∧ s'.fw.committing = none) ∧
  (∀ s c s1 r s2 b ls h pa, s.started c.id 0x26 = some c → s.ckptDesc c = .ok s1 [r] → r.kind = 0 → s1.fw.mode = 0 →
    s1.svcRead c.sid r.addr 0 r.len = .ok s2 b ls → area s2 c (fld c.msg 0x88 8) (32 + b.length) h pa →
    ∃ s', exec (.ckpt c.id) s = .next s' ∧ ended s' c 0 0 ∧
      (∀ k, k < 32 → s'.peekPool h (pa + k) = lget 0 (leBytes 8 r.addr ++ leBytes 4 r.len ++ leBytes 4 r.kind ++
        leBytes 8 b.length ++ leBytes 8 0) k) ∧
      ∀ k x, b[k]? = some x → s'.peekPool h (pa + 32 + k) = x) ∧
  (∀ s c s1 r s2 hd ls s3 d ls3 b h pa, s.started c.id 0x27 = some c → s.ckptDesc c = .ok s1 [r] →
    s1.svcRead c.sid (fld c.msg 0x88 8) 0 32 = .ok s2 hd ls →
    s2.svcRead c.sid (fld c.msg 0x88 8 + 32) 0 (fld hd 16 8) = .ok s3 d ls3 → ckptBack r hd d = some b →
    area s3 c r.addr b.length h pa →
    ∃ s', exec (.ckptload c.id) s = .next s' ∧ ended s' c 0 0 ∧ ∀ k x, b[k]? = some x → s'.peekPool h (pa + k) = x) ∧
  (∀ (r : CkptRange) b, r.kind = 0 → r.addr < 2 ^ 64 → r.len < 2 ^ 32 → b.length = r.len →
    ckptBack r (ckptHeader false r (ckptData false r b).length) (ckptData false r b) = some b) ∧
  (∀ s c s1 b ls s2 ls2, s.started c.id 0x2F = some c →
    s.svcRead c.sid (fld c.msg 0x80 8) 0 (fld c.msg 0x88 4) = .ok s1 b ls → firstBad (objectChecks b) = none →
    let va := fld c.msg 0x90 8
    let pa := fld c.msg 0x98 8
    let y := layoutOf b va
    let n := y.code + 1 + y.data
    barredRange va (65536 * n) = false → mappedIn (s1.pagesOf c.sid) va (65536 * n) = false → pa + 65536 * n ≤ 2 ^ 46 →
    s1.svcCan c.sid (fld c.msg 0xA0 8) (loadResult b va).length = true →
    s1.svcWrite c.sid (fld c.msg 0xA0 8) 0 (loadResult b va) [] = .ok s2 [] ls2 → (∃ u, s.sub? c.sid = some u) →
    ∃ s', exec (.load c.id) s = .next s' ∧ ended s' c 0 0 ∧ ∀ k a, k < n → va + 65536 * k ≤ a →
      a < va + 65536 * (k + 1) → ∃ p, s'.page? c.sid a = some (va + 65536 * k, p) ∧ p.pa = pa + 65536 * k ∧
        p.kind = .priv ∧ p.res = true ∧ p.pin = false ∧ p.r = true ∧ p.x = decide (k < y.code) ∧
        p.w = decide (y.code ≤ k)) ∧
  ∀ s c s1 b ls o, s.started c.id 0x2F = some c →
    s.svcRead c.sid (fld c.msg 0x80 8) 0 (fld c.msg 0x88 4) = .ok s1 b ls → firstBad (objectChecks b) = some o →
    ∃ s', exec (.load c.id) s = .next s' ∧ ended s' c 0x02 o ∧ s'.pool = s1.pool

/-- O59. Chapters 13 and 17 on frames, boot, the watchdog, heat and gating. What a device reset keeps beyond the spec's items (the pool, what has been sent, open values and the agenda) is the model's (logs 1, 40); so are gating again the cores that a wake has restored, and testing frames against the filter when core 0 alone is gated (log 38). -/
def Obligations.DeviceEvents : Prop :=
  let digest := fun (b : BootImage) => Config.sha256 b.bytes
  let good := fun (s : State) (b : BootImage) => b.signed = true ∧ s.fw.antiRollback ≤ b.version
  let standing := fun (s s' : State) => s'.dies = s.dies ∧ s'.troupes = s.troupes ∧ s'.pool = s.pool ∧ s'.subs = s.subs ∧
    s'.fw.recovery = true ∧ s'.fw.frozen = true ∧ s'.fw.committing = none ∧ s'.fw.meas = s.fw.meas
  let due := fun (s : State) => s.pw.idleMs ≠ 0 ∧ s.idle = true ∧ s.pw.gated ≠ [0, 1, 2, 3, 4, 5, 6, 7] ∧ s.pw.restoring = false ∧
    s.pw.idleSince + s.pw.idleMs * 1800000 ≤ s.now
  let takes := fun (s : State) (src : DWord) (m : List Byte) => s.pw.restoring = true ∨ ∃ e ∈ s.pw.filter, e.hits src m = true
  (∀ s a b c, ∃ s', exec (.deviceReset a b c) s = .next s' ∧ s'.dies = State.reset.dies ∧ s'.now = 0 ∧ s'.pbound = 16384 ∧
    s'.pw = State.reset.pw ∧ s'.cmds = [] ∧ s'.subs = [] ∧ s'.launches = [] ∧ s'.queue = [] ∧ s'.ens = [] ∧ s'.troupes = [] ∧
    s'.nodeTables = [] ∧ s'.groups = [] ∧ s'.halts = [] ∧ s'.pool = s.pool ∧ s'.sent = s.sent ∧ s'.fw.frozen = false ∧
    s'.fw.resetDue = false ∧ s'.fw.staged = none ∧ s'.fw.antiRollback = s.fw.antiRollback ∧
    (good s a → good s b → good s c → s'.fw.recovery = false ∧ s'.fw.mode = 1 ∧ s'.fw.version = b.version ∧
      s'.fw.m1 = chain 0 (digest a) ∧ s'.fw.meas = chain (chain (chain 0 (digest a)) (digest b)) (digest c) ∧
      s'.fw.config.admission = Config.configAdmission c.bytes ∧ s'.fw.lastGood = some s'.fw.config) ∧
    (¬ (good s a ∧ good s b ∧ good s c) → s'.fw.recovery = true ∧ s'.fw.lastGood = s.fw.lastGood)) ∧
  (∀ s k, k < 8 → ∃ s', exec (.watchdogExpiry k) s = .next s' ∧ standing s s' ∧ s'.fw.thermalCause = s.fw.thermalCause) ∧
  (∀ s d, d < 4 → ∃ s', exec (.thermalShutdown d) s = .next s' ∧ standing s s' ∧ s'.fw.thermalCause = true) ∧
  (∀ s d, d < s.dies.length → ∃ s', exec (.thermalWithhold d) s = .next s' ∧ s'.die d = { s.die d with hot := true } ∧
    s'.troupes = s.troupes ∧ ∀ k, k ≠ d → s'.die k = s.die k) ∧
  (∀ s d, d < s.dies.length → ∃ s', exec (.thermalRecover d) s = .next s' ∧ s'.die d = { s.die d with hot := false } ∧
    s'.troupes = s.troupes ∧ ∀ k, k ≠ d → s'.die k = s.die k) ∧
  (∀ (s : State), ∃ s', exec .powerWithhold s = .next s' ∧ s' = { s with pw := s'.pw } ∧
    s'.pw = { s.pw with withhold := true } ∧ ∀ d, s'.withheld d 1 = s.withheld d 1) ∧
  (∀ s, due s → ∃ s', exec .idleGate s = .next s' ∧ s' = { s with pw := s'.pw } ∧
    s'.pw = { s.pw with gated := [0, 1, 2, 3, 4, 5, 6, 7], gatedAt := some s.now }) ∧
  (∀ s, ¬ due s → exec .idleGate s = .next s) ∧
  (∀ s src sid m, 0 ∈ s.pw.gated → takes s src m → s.pw.buffer.length < 64 →
    ∃ s', exec (.wakeFrame src sid m) s = .next s' ∧
      s'.pw = { s.pw with restoring := true, buffer := s.pw.buffer ++ [.cmd sid m] } ∧ s'.cmds = s.cmds ∧ s'.ev = s.ev) ∧
  (∀ s src sid m, 0 ∈ s.pw.gated → takes s src m → 64 ≤ s.pw.buffer.length →
    ∃ s', exec (.wakeFrame src sid m) s = .next s' ∧ s'.pw = { s.pw with restoring := true } ∧ s'.cmds = s.cmds ∧
      mget 0 s'.ev 0x80 = mget 0 s.ev 0x80 + 1) ∧
  (∀ s src sid m, 0 ∈ s.pw.gated → ¬ takes s src m → s.pw.gatedAt = some s.now → s.pw.buffer.length < 64 →
    ∃ s', exec (.wakeFrame src sid m) s = .next s' ∧ s'.pw = { s.pw with buffer := s.pw.buffer ++ [.cmd sid m] } ∧
      s'.cmds = s.cmds ∧ s'.ev = s.ev) ∧
  (∀ s src sid m, 0 ∈ s.pw.gated → ¬ takes s src m → s.pw.gatedAt ≠ some s.now →
    ∃ s', exec (.wakeFrame src sid m) s = .next s' ∧ s'.pw = s.pw ∧ s'.cmds = s.cmds ∧
      mget 0 s'.ev 0x80 = mget 0 s.ev 0x80 + 1) ∧
  (∀ s src sid m, 0 ∉ s.pw.gated → exec (.wakeFrame src sid m) s = .next s) ∧
  (∀ s, s.pw.restoring = true → s.pw.buffer = [] → ∃ s', exec .wakeReplay s = .next s' ∧ s'.pw.restoring = false ∧
    s'.pw.gated = s.pw.gated.filter (fun k => k != 0) ∧ s'.cmds = s.cmds) ∧
  (∀ s sid m, s.pw.restoring = true → s.pw.buffer = [.cmd sid m] → ∃ s', exec .wakeReplay s = .next s' ∧
    s' = ({ s with pw := { s.pw with gated := s.pw.gated.filter fun k => k != 0, restoring := false, buffer := [],
                                      idleSince := s.now }
                   ev := bump s.ev 0x81 1 } : State).arrive sid m) ∧
  (∀ s, s.pw.restoring = false → exec .wakeReplay s = .next s) ∧
  ∀ s k, ∃ s', exec (.internalWake k) s = .next s' ∧ s'.pw.gated = (if k = 3 ∨ k = 4 then s.pw.gated.filter (fun j => j != k)
    else s.pw.gated) ∧ s'.cmds = s.cmds

/-- O60. Four compute dies, the bound on the clocks of dies, and the canonical form of the pool (log 1), kept by every step. -/
def Obligations.StepsKeepTheDevice : Prop :=
  let Inv := fun (s : State) => s.dies.length = 4 ∧ (∀ D ∈ s.dies, D.skew ≤ 2) ∧ s.pool.wf = true
  ∀ s s' : State, Inv s → step s = .next s' → Inv s' ∧
    ∀ d e, d < 4 → e < 4 → s'.now + (s'.die d).skew ≤ s'.now + (s'.die e).skew + 2
end

