-- ==== Sys2Proof/Laws/Maps.lean ====
section
/-! SUPPORT. The laws of sparse maps and of memories over them: reads after writes, and the canonical form, which
every operation keeps. -/

namespace Sys2Proof.Machine

variable {α : Type}

/-! ### Reads after writes -/

@[simp] theorem mget_nil (z : α) (k : Nat) : mget z [] k = z := rfl

theorem mget_mput_same (z v : α) (k : Nat) (m : List (Nat × α)) : mget z (mput k v m) k = v := by
  induction m with
  | nil => simp [mput, mget]
  | cons e r ih =>
    obtain ⟨j, w⟩ := e
    simp only [mput]
    split
    · simp [mget]
    · split
      · simp [mget]
      · simp [mget, *]

theorem mget_mput_other (z v : α) {k j : Nat} (h : j ≠ k) (m : List (Nat × α)) :
    mget z (mput k v m) j = mget z m j := by
  induction m with
  | nil => simp [mput, mget, Ne.symm h]
  | cons e r ih =>
    obtain ⟨i, w⟩ := e
    simp only [mput]
    split
    · simp [mget, Ne.symm h]
    · split
      · simp_all [mget, Ne.symm h]
      · simp [mget, ih]

theorem mget_mdel_other (z : α) {k j : Nat} (h : j ≠ k) (m : List (Nat × α)) :
    mget z (mdel k m) j = mget z m j := by
  induction m with
  | nil => rfl
  | cons e r ih =>
    obtain ⟨i, w⟩ := e
    simp only [mdel]
    split
    · subst_vars; simp [mget, ih, Ne.symm h]
    · simp [mget, ih]

theorem mget_mdel_same (z : α) (k : Nat) (m : List (Nat × α)) : mget z (mdel k m) k = z := by
  induction m with
  | nil => rfl
  | cons e r ih =>
    obtain ⟨i, w⟩ := e
    simp only [mdel]
    split
    · exact ih
    · simp [mget, *]

@[simp] theorem mget_mset_same [DecidableEq α] (z v : α) (k : Nat) (m : List (Nat × α)) :
    mget z (mset z m k v) k = v := by
  unfold mset
  split
  · rw [mget_mdel_same]; exact Eq.symm ‹v = z›
  · exact mget_mput_same z v k m

theorem mget_mset_other [DecidableEq α] (z v : α) {k j : Nat} (h : j ≠ k) (m : List (Nat × α)) :
    mget z (mset z m k v) j = mget z m j := by
  unfold mset
  split
  · exact mget_mdel_other z h m
  · exact mget_mput_other z v h m

/-- A map read after a write, at any key. -/
theorem mget_mset [DecidableEq α] (z v : α) (k j : Nat) (m : List (Nat × α)) :
    mget z (mset z m k v) j = if j = k then v else mget z m j := by
  split
  · subst_vars; simp
  · exact mget_mset_other z v ‹_› m

/-! ### The canonical form -/

/-- Every key of a map is above a bound. -/
def mabove (b : Nat) (m : List (Nat × α)) : Prop := ∀ e ∈ m, b < e.1

theorem mrising_cons {j : Nat} {v : α} {m : List (Nat × α)} :
    mrising ((j, v) :: m) = true ↔ mabove j m ∧ mrising m = true := by
  induction m generalizing j v with
  | nil => simp [mrising, mabove]
  | cons e r ih =>
    obtain ⟨k, w⟩ := e
    rw [show mrising ((j, v) :: (k, w) :: r) = (decide (j < k) && mrising ((k, w) :: r)) from rfl]
    constructor
    · intro h
      simp only [Bool.and_eq_true, decide_eq_true_eq] at h
      have hk := (ih (j := k) (v := w)).1 h.2
      refine ⟨fun e he => ?_, h.2⟩
      rcases List.mem_cons.1 he with rfl | he
      · exact h.1
      · exact h.1.trans (hk.1 e he)
    · rintro ⟨ha, hr⟩
      simp only [Bool.and_eq_true, decide_eq_true_eq]
      exact ⟨ha (k, w) (by simp), hr⟩

theorem mem_mput {k : Nat} {v : α} {m : List (Nat × α)} {e : Nat × α} (h : e ∈ mput k v m) :
    e = (k, v) ∨ e ∈ m := by
  induction m with
  | nil => simpa [mput] using h
  | cons f r ih =>
    obtain ⟨j, w⟩ := f
    simp only [mput] at h
    split at h
    · simpa using h
    · split at h
      · rcases List.mem_cons.1 h with h | h
        · exact .inl h
        · exact .inr (List.mem_cons_of_mem _ h)
      · rcases List.mem_cons.1 h with h | h
        · exact .inr (h ▸ List.mem_cons_self)
        · rcases ih h with h | h
          · exact .inl h
          · exact .inr (List.mem_cons_of_mem _ h)

theorem mem_mdel {k : Nat} {m : List (Nat × α)} {e : Nat × α} (h : e ∈ mdel k m) : e ∈ m := by
  induction m with
  | nil => exact h
  | cons f r ih =>
    obtain ⟨j, w⟩ := f
    simp only [mdel] at h
    split at h
    · exact List.mem_cons_of_mem _ (ih h)
    · rcases List.mem_cons.1 h with h | h
      · exact h ▸ List.mem_cons_self
      · exact List.mem_cons_of_mem _ (ih h)

theorem mrising_mput (k : Nat) (v : α) {m : List (Nat × α)} (h : mrising m = true) :
    mrising (mput k v m) = true := by
  induction m with
  | nil => rfl
  | cons e r ih =>
    obtain ⟨j, w⟩ := e
    obtain ⟨ha, hr⟩ := mrising_cons.1 h
    simp only [mput]
    split
    · rename_i hk
      refine mrising_cons.2 ⟨fun e he => ?_, h⟩
      rcases List.mem_cons.1 he with rfl | he
      · exact hk
      · exact hk.trans (ha e he)
    · split
      · subst_vars; exact mrising_cons.2 ⟨ha, hr⟩
      · refine mrising_cons.2 ⟨fun e he => ?_, ih hr⟩
        rcases mem_mput he with rfl | he
        · simp only; omega
        · exact ha e he

theorem mrising_mdel (k : Nat) {m : List (Nat × α)} (h : mrising m = true) : mrising (mdel k m) = true := by
  induction m with
  | nil => rfl
  | cons e r ih =>
    obtain ⟨j, w⟩ := e
    obtain ⟨ha, hr⟩ := mrising_cons.1 h
    simp only [mdel]
    split
    · exact ih hr
    · exact mrising_cons.2 ⟨fun e he => ha e (mem_mdel he), ih hr⟩

theorem mwf_iff [DecidableEq α] {z : α} {m : List (Nat × α)} :
    mwf z m = true ↔ mrising m = true ∧ ∀ e ∈ m, e.2 ≠ z := by
  simp [mwf]

/-- A write keeps the canonical form. -/
theorem mwf_mset [DecidableEq α] {z : α} {m : List (Nat × α)} (k : Nat) (v : α) (h : mwf z m = true) :
    mwf z (mset z m k v) = true := by
  obtain ⟨hr, hz⟩ := mwf_iff.1 h
  unfold mset
  split
  · exact mwf_iff.2 ⟨mrising_mdel k hr, fun e he => hz e (mem_mdel he)⟩
  · rename_i hv
    refine mwf_iff.2 ⟨mrising_mput k v hr, fun e he => ?_⟩
    rcases mem_mput he with rfl | he
    · exact hv
    · exact hz e he

/-! ### Memories -/

@[simp] theorem Memory.byte_put_same (m : Memory) (a : Nat) (b : Byte) : (m.put a b).byte a = b :=
  mget_mset_same _ _ _ _

theorem Memory.byte_put (m : Memory) (a x : Nat) (b : Byte) :
    (m.put a b).byte x = if x = a then b else m.byte x := mget_mset _ _ _ _ _

/-- Bytes outside a write read as before. -/
theorem Memory.byte_write_outside (bs : List Byte) : ∀ (m : Memory) (a x : Nat), x < a ∨ a + bs.length ≤ x →
    (m.write a bs).byte x = m.byte x := by
  induction bs with
  | nil => intro m a x _; rfl
  | cons b bs ih =>
    intro m a x h
    simp only [List.length_cons] at h
    rw [Memory.write, ih _ _ _ (by omega), Memory.byte_put, if_neg (by omega)]

/-- The bytes of a write read as written. -/
theorem Memory.byte_write_inside (bs : List Byte) : ∀ (m : Memory) (a k : Nat) (h : k < bs.length),
    (m.write a bs).byte (a + k) = bs[k] := by
  induction bs with
  | nil => intro m a k h; simp at h
  | cons b bs ih =>
    intro m a k h
    cases k with
    | zero => rw [Memory.write, Memory.byte_write_outside _ _ _ _ (by omega)]; simp
    | succ k =>
      have := ih (m.put a b) (a + 1) k (by simpa using h)
      rw [Memory.write, show a + (k + 1) = a + 1 + k by omega, this]; rfl

theorem Memory.wf_put {m : Memory} (a : Nat) (b : Byte) (h : m.wf = true) : (m.put a b).wf = true :=
  mwf_mset a b h

/-- Every write of bytes keeps the canonical form. -/
theorem Memory.wf_write (bs : List Byte) : ∀ (m : Memory) (a : Nat), m.wf = true → (m.write a bs).wf = true := by
  induction bs with
  | nil => intro m a h; exact h
  | cons b bs ih => intro m a h; exact ih _ _ (Memory.wf_put a b h)

/-- A rising map shifted down stays rising. -/
theorem mrising_shift (a : Nat) {m : List (Nat × α)} (h : mrising m = true) (hb : ∀ e ∈ m, a ≤ e.1) :
    mrising (m.map fun e => (e.1 - a, e.2)) = true := by
  induction m with
  | nil => rfl
  | cons e r ih =>
    obtain ⟨j, w⟩ := e
    obtain ⟨ha, hr⟩ := mrising_cons.1 h
    refine mrising_cons.2 ⟨fun e he => ?_, ih hr fun e he => hb e (List.mem_cons_of_mem _ he)⟩
    obtain ⟨f, hf, rfl⟩ := List.mem_map.1 he
    have h1 := ha f hf
    have h2 := hb (j, w) (by simp)
    simp only at h1 h2 ⊢
    omega

theorem mrising_filter (p : Nat × α → Bool) {m : List (Nat × α)} (h : mrising m = true) :
    mrising (m.filter p) = true := by
  induction m with
  | nil => rfl
  | cons e r ih =>
    obtain ⟨j, w⟩ := e
    obtain ⟨ha, hr⟩ := mrising_cons.1 h
    simp only [List.filter]
    split
    · exact mrising_cons.2 ⟨fun e he => ha e (List.mem_of_mem_filter he), ih hr⟩
    · exact ih hr

/-- A line's copy of a memory keeps the canonical form. -/
theorem Memory.wf_cut {m : Memory} (a n : Nat) (h : m.wf = true) : (m.cut a n).wf = true := by
  obtain ⟨hr, hz⟩ := mwf_iff.1 h
  refine mwf_iff.2 ⟨mrising_shift a (mrising_filter _ hr) fun e he => ?_, fun e he => ?_⟩
  · have := (List.mem_filter.1 he).2
    simp only [decide_eq_true_eq] at this
    exact this.1
  · obtain ⟨f, hf, rfl⟩ := List.mem_map.1 he
    exact hz f (List.mem_of_mem_filter hf)

/-- Equal bytes are written and read back: little-endian order (chapter 00). -/
theorem leNat_leBytes (n v : Nat) : leNat (leBytes n v) = v % 256 ^ n := by
  induction n generalizing v with
  | zero => simp [leBytes, leNat, Nat.mod_one]
  | succ n ih =>
    simp only [leBytes, leNat, ih, BitVec.toNat_ofNat]
    rw [show (2 : Nat) ^ 8 = 256 from rfl, Nat.pow_succ, Nat.mul_comm (256 ^ n) 256, Nat.mod_mul]

theorem leBytes_length (n v : Nat) : (leBytes n v).length = n := by
  induction n generalizing v with
  | zero => rfl
  | succ n ih => simp [leBytes, ih]

end Sys2Proof.Machine
end

