-- ==== Sys2Proof/Laws/State.lean ====
section
/-! SUPPORT. What each update of the state leaves as it was: one lemma per field and update. -/

namespace Sys2Proof.Machine

variable (s : State)

/-! ### modDie -/

@[simp] theorem State.modDie_now (d : Nat) (f : Die → Die) : (s.modDie d f).now = s.now := rfl
@[simp] theorem State.modDie_agenda (d : Nat) (f : Die → Die) : (s.modDie d f).agenda = s.agenda := rfl
@[simp] theorem State.modDie_cur (d : Nat) (f : Die → Die) : (s.modDie d f).cur = s.cur := rfl
@[simp] theorem State.modDie_issued (d : Nat) (f : Die → Die) : (s.modDie d f).issued = s.issued := rfl
@[simp] theorem State.modDie_turns (d : Nat) (f : Die → Die) : (s.modDie d f).turns = s.turns := rfl
@[simp] theorem State.modDie_late (d : Nat) (f : Die → Die) : (s.modDie d f).late = s.late := rfl
@[simp] theorem State.modDie_seenPass (d : Nat) (f : Die → Die) : (s.modDie d f).seenPass = s.seenPass := rfl
@[simp] theorem State.modDie_seenOpen (d : Nat) (f : Die → Die) : (s.modDie d f).seenOpen = s.seenOpen := rfl
@[simp] theorem State.modDie_free (d : Nat) (f : Die → Die) : (s.modDie d f).free = s.free := rfl
@[simp] theorem State.modDie_fresh (d : Nat) (f : Die → Die) : (s.modDie d f).fresh = s.fresh := rfl
@[simp] theorem State.modDie_pbound (d : Nat) (f : Die → Die) : (s.modDie d f).pbound = s.pbound := rfl
@[simp] theorem State.modDie_ext (d : Nat) (f : Die → Die) : (s.modDie d f).ext = s.ext := rfl
@[simp] theorem State.modDie_pool (d : Nat) (f : Die → Die) : (s.modDie d f).pool = s.pool := rfl
@[simp] theorem State.modDie_devWrites (d : Nat) (f : Die → Die) : (s.modDie d f).devWrites = s.devWrites := rfl
@[simp] theorem State.modDie_errs (d : Nat) (f : Die → Die) : (s.modDie d f).errs = s.errs := rfl
@[simp] theorem State.modDie_channels (d : Nat) (f : Die → Die) : (s.modDie d f).channels = s.channels := rfl
@[simp] theorem State.modDie_unmaps (d : Nat) (f : Die → Die) : (s.modDie d f).unmaps = s.unmaps := rfl
@[simp] theorem State.modDie_subs (d : Nat) (f : Die → Die) : (s.modDie d f).subs = s.subs := rfl
@[simp] theorem State.modDie_cmds (d : Nat) (f : Die → Die) : (s.modDie d f).cmds = s.cmds := rfl
@[simp] theorem State.modDie_sent (d : Nat) (f : Die → Die) : (s.modDie d f).sent = s.sent := rfl
@[simp] theorem State.modDie_launches (d : Nat) (f : Die → Die) : (s.modDie d f).launches = s.launches := rfl
@[simp] theorem State.modDie_queue (d : Nat) (f : Die → Die) : (s.modDie d f).queue = s.queue := rfl
@[simp] theorem State.modDie_ens (d : Nat) (f : Die → Die) : (s.modDie d f).ens = s.ens := rfl
@[simp] theorem State.modDie_troupes (d : Nat) (f : Die → Die) : (s.modDie d f).troupes = s.troupes := rfl
@[simp] theorem State.modDie_nodeTables (d : Nat) (f : Die → Die) : (s.modDie d f).nodeTables = s.nodeTables := rfl
@[simp] theorem State.modDie_graphs (d : Nat) (f : Die → Die) : (s.modDie d f).graphs = s.graphs := rfl
@[simp] theorem State.modDie_ringOwner (d : Nat) (f : Die → Die) : (s.modDie d f).ringOwner = s.ringOwner := rfl
@[simp] theorem State.modDie_groups (d : Nat) (f : Die → Die) : (s.modDie d f).groups = s.groups := rfl
@[simp] theorem State.modDie_halts (d : Nat) (f : Die → Die) : (s.modDie d f).halts = s.halts := rfl
@[simp] theorem State.modDie_fw (d : Nat) (f : Die → Die) : (s.modDie d f).fw = s.fw := rfl
@[simp] theorem State.modDie_pw (d : Nat) (f : Die → Die) : (s.modDie d f).pw = s.pw := rfl
@[simp] theorem State.modDie_ev (d : Nat) (f : Die → Die) : (s.modDie d f).ev = s.ev := rfl

/-! ### modSub -/

@[simp] theorem State.modSub_now (n : Nat) (f : Submitter → Submitter) : (s.modSub n f).now = s.now := rfl
@[simp] theorem State.modSub_agenda (n : Nat) (f : Submitter → Submitter) : (s.modSub n f).agenda = s.agenda := rfl
@[simp] theorem State.modSub_cur (n : Nat) (f : Submitter → Submitter) : (s.modSub n f).cur = s.cur := rfl
@[simp] theorem State.modSub_issued (n : Nat) (f : Submitter → Submitter) : (s.modSub n f).issued = s.issued := rfl
@[simp] theorem State.modSub_turns (n : Nat) (f : Submitter → Submitter) : (s.modSub n f).turns = s.turns := rfl
@[simp] theorem State.modSub_late (n : Nat) (f : Submitter → Submitter) : (s.modSub n f).late = s.late := rfl
@[simp] theorem State.modSub_seenPass (n : Nat) (f : Submitter → Submitter) : (s.modSub n f).seenPass = s.seenPass := rfl
@[simp] theorem State.modSub_seenOpen (n : Nat) (f : Submitter → Submitter) : (s.modSub n f).seenOpen = s.seenOpen := rfl
@[simp] theorem State.modSub_free (n : Nat) (f : Submitter → Submitter) : (s.modSub n f).free = s.free := rfl
@[simp] theorem State.modSub_fresh (n : Nat) (f : Submitter → Submitter) : (s.modSub n f).fresh = s.fresh := rfl
@[simp] theorem State.modSub_pbound (n : Nat) (f : Submitter → Submitter) : (s.modSub n f).pbound = s.pbound := rfl
@[simp] theorem State.modSub_dies (n : Nat) (f : Submitter → Submitter) : (s.modSub n f).dies = s.dies := rfl
@[simp] theorem State.modSub_ext (n : Nat) (f : Submitter → Submitter) : (s.modSub n f).ext = s.ext := rfl
@[simp] theorem State.modSub_pool (n : Nat) (f : Submitter → Submitter) : (s.modSub n f).pool = s.pool := rfl
@[simp] theorem State.modSub_devWrites (n : Nat) (f : Submitter → Submitter) : (s.modSub n f).devWrites = s.devWrites := rfl
@[simp] theorem State.modSub_errs (n : Nat) (f : Submitter → Submitter) : (s.modSub n f).errs = s.errs := rfl
@[simp] theorem State.modSub_channels (n : Nat) (f : Submitter → Submitter) : (s.modSub n f).channels = s.channels := rfl
@[simp] theorem State.modSub_unmaps (n : Nat) (f : Submitter → Submitter) : (s.modSub n f).unmaps = s.unmaps := rfl
@[simp] theorem State.modSub_cmds (n : Nat) (f : Submitter → Submitter) : (s.modSub n f).cmds = s.cmds := rfl
@[simp] theorem State.modSub_sent (n : Nat) (f : Submitter → Submitter) : (s.modSub n f).sent = s.sent := rfl
@[simp] theorem State.modSub_launches (n : Nat) (f : Submitter → Submitter) : (s.modSub n f).launches = s.launches := rfl
@[simp] theorem State.modSub_queue (n : Nat) (f : Submitter → Submitter) : (s.modSub n f).queue = s.queue := rfl
@[simp] theorem State.modSub_ens (n : Nat) (f : Submitter → Submitter) : (s.modSub n f).ens = s.ens := rfl
@[simp] theorem State.modSub_troupes (n : Nat) (f : Submitter → Submitter) : (s.modSub n f).troupes = s.troupes := rfl
@[simp] theorem State.modSub_nodeTables (n : Nat) (f : Submitter → Submitter) : (s.modSub n f).nodeTables = s.nodeTables := rfl
@[simp] theorem State.modSub_graphs (n : Nat) (f : Submitter → Submitter) : (s.modSub n f).graphs = s.graphs := rfl
@[simp] theorem State.modSub_ringOwner (n : Nat) (f : Submitter → Submitter) : (s.modSub n f).ringOwner = s.ringOwner := rfl
@[simp] theorem State.modSub_groups (n : Nat) (f : Submitter → Submitter) : (s.modSub n f).groups = s.groups := rfl
@[simp] theorem State.modSub_halts (n : Nat) (f : Submitter → Submitter) : (s.modSub n f).halts = s.halts := rfl
@[simp] theorem State.modSub_fw (n : Nat) (f : Submitter → Submitter) : (s.modSub n f).fw = s.fw := rfl
@[simp] theorem State.modSub_pw (n : Nat) (f : Submitter → Submitter) : (s.modSub n f).pw = s.pw := rfl
@[simp] theorem State.modSub_ev (n : Nat) (f : Submitter → Submitter) : (s.modSub n f).ev = s.ev := rfl

/-! ### modTroupe -/

@[simp] theorem State.modTroupe_now (n : Nat) (f : Troupe → Troupe) : (s.modTroupe n f).now = s.now := rfl
@[simp] theorem State.modTroupe_agenda (n : Nat) (f : Troupe → Troupe) : (s.modTroupe n f).agenda = s.agenda := rfl
@[simp] theorem State.modTroupe_cur (n : Nat) (f : Troupe → Troupe) : (s.modTroupe n f).cur = s.cur := rfl
@[simp] theorem State.modTroupe_issued (n : Nat) (f : Troupe → Troupe) : (s.modTroupe n f).issued = s.issued := rfl
@[simp] theorem State.modTroupe_turns (n : Nat) (f : Troupe → Troupe) : (s.modTroupe n f).turns = s.turns := rfl
@[simp] theorem State.modTroupe_late (n : Nat) (f : Troupe → Troupe) : (s.modTroupe n f).late = s.late := rfl
@[simp] theorem State.modTroupe_seenPass (n : Nat) (f : Troupe → Troupe) : (s.modTroupe n f).seenPass = s.seenPass := rfl
@[simp] theorem State.modTroupe_seenOpen (n : Nat) (f : Troupe → Troupe) : (s.modTroupe n f).seenOpen = s.seenOpen := rfl
@[simp] theorem State.modTroupe_free (n : Nat) (f : Troupe → Troupe) : (s.modTroupe n f).free = s.free := rfl
@[simp] theorem State.modTroupe_fresh (n : Nat) (f : Troupe → Troupe) : (s.modTroupe n f).fresh = s.fresh := rfl
@[simp] theorem State.modTroupe_pbound (n : Nat) (f : Troupe → Troupe) : (s.modTroupe n f).pbound = s.pbound := rfl
@[simp] theorem State.modTroupe_dies (n : Nat) (f : Troupe → Troupe) : (s.modTroupe n f).dies = s.dies := rfl
@[simp] theorem State.modTroupe_ext (n : Nat) (f : Troupe → Troupe) : (s.modTroupe n f).ext = s.ext := rfl
@[simp] theorem State.modTroupe_pool (n : Nat) (f : Troupe → Troupe) : (s.modTroupe n f).pool = s.pool := rfl
@[simp] theorem State.modTroupe_devWrites (n : Nat) (f : Troupe → Troupe) : (s.modTroupe n f).devWrites = s.devWrites := rfl
@[simp] theorem State.modTroupe_errs (n : Nat) (f : Troupe → Troupe) : (s.modTroupe n f).errs = s.errs := rfl
@[simp] theorem State.modTroupe_channels (n : Nat) (f : Troupe → Troupe) : (s.modTroupe n f).channels = s.channels := rfl
@[simp] theorem State.modTroupe_unmaps (n : Nat) (f : Troupe → Troupe) : (s.modTroupe n f).unmaps = s.unmaps := rfl
@[simp] theorem State.modTroupe_subs (n : Nat) (f : Troupe → Troupe) : (s.modTroupe n f).subs = s.subs := rfl
@[simp] theorem State.modTroupe_cmds (n : Nat) (f : Troupe → Troupe) : (s.modTroupe n f).cmds = s.cmds := rfl
@[simp] theorem State.modTroupe_sent (n : Nat) (f : Troupe → Troupe) : (s.modTroupe n f).sent = s.sent := rfl
@[simp] theorem State.modTroupe_launches (n : Nat) (f : Troupe → Troupe) : (s.modTroupe n f).launches = s.launches := rfl
@[simp] theorem State.modTroupe_queue (n : Nat) (f : Troupe → Troupe) : (s.modTroupe n f).queue = s.queue := rfl
@[simp] theorem State.modTroupe_ens (n : Nat) (f : Troupe → Troupe) : (s.modTroupe n f).ens = s.ens := rfl
@[simp] theorem State.modTroupe_nodeTables (n : Nat) (f : Troupe → Troupe) : (s.modTroupe n f).nodeTables = s.nodeTables := rfl
@[simp] theorem State.modTroupe_graphs (n : Nat) (f : Troupe → Troupe) : (s.modTroupe n f).graphs = s.graphs := rfl
@[simp] theorem State.modTroupe_ringOwner (n : Nat) (f : Troupe → Troupe) : (s.modTroupe n f).ringOwner = s.ringOwner := rfl
@[simp] theorem State.modTroupe_groups (n : Nat) (f : Troupe → Troupe) : (s.modTroupe n f).groups = s.groups := rfl
@[simp] theorem State.modTroupe_halts (n : Nat) (f : Troupe → Troupe) : (s.modTroupe n f).halts = s.halts := rfl
@[simp] theorem State.modTroupe_fw (n : Nat) (f : Troupe → Troupe) : (s.modTroupe n f).fw = s.fw := rfl
@[simp] theorem State.modTroupe_pw (n : Nat) (f : Troupe → Troupe) : (s.modTroupe n f).pw = s.pw := rfl
@[simp] theorem State.modTroupe_ev (n : Nat) (f : Troupe → Troupe) : (s.modTroupe n f).ev = s.ev := rfl

/-! ### modPath -/

@[simp] theorem State.modPath_now (r : PathRef) (f : Path → Path) : (s.modPath r f).now = s.now := rfl
@[simp] theorem State.modPath_agenda (r : PathRef) (f : Path → Path) : (s.modPath r f).agenda = s.agenda := rfl
@[simp] theorem State.modPath_cur (r : PathRef) (f : Path → Path) : (s.modPath r f).cur = s.cur := rfl
@[simp] theorem State.modPath_issued (r : PathRef) (f : Path → Path) : (s.modPath r f).issued = s.issued := rfl
@[simp] theorem State.modPath_turns (r : PathRef) (f : Path → Path) : (s.modPath r f).turns = s.turns := rfl
@[simp] theorem State.modPath_late (r : PathRef) (f : Path → Path) : (s.modPath r f).late = s.late := rfl
@[simp] theorem State.modPath_seenPass (r : PathRef) (f : Path → Path) : (s.modPath r f).seenPass = s.seenPass := rfl
@[simp] theorem State.modPath_seenOpen (r : PathRef) (f : Path → Path) : (s.modPath r f).seenOpen = s.seenOpen := rfl
@[simp] theorem State.modPath_free (r : PathRef) (f : Path → Path) : (s.modPath r f).free = s.free := rfl
@[simp] theorem State.modPath_fresh (r : PathRef) (f : Path → Path) : (s.modPath r f).fresh = s.fresh := rfl
@[simp] theorem State.modPath_pbound (r : PathRef) (f : Path → Path) : (s.modPath r f).pbound = s.pbound := rfl
@[simp] theorem State.modPath_dies (r : PathRef) (f : Path → Path) : (s.modPath r f).dies = s.dies := rfl
@[simp] theorem State.modPath_ext (r : PathRef) (f : Path → Path) : (s.modPath r f).ext = s.ext := rfl
@[simp] theorem State.modPath_pool (r : PathRef) (f : Path → Path) : (s.modPath r f).pool = s.pool := rfl
@[simp] theorem State.modPath_devWrites (r : PathRef) (f : Path → Path) : (s.modPath r f).devWrites = s.devWrites := rfl
@[simp] theorem State.modPath_errs (r : PathRef) (f : Path → Path) : (s.modPath r f).errs = s.errs := rfl
@[simp] theorem State.modPath_channels (r : PathRef) (f : Path → Path) : (s.modPath r f).channels = s.channels := rfl
@[simp] theorem State.modPath_unmaps (r : PathRef) (f : Path → Path) : (s.modPath r f).unmaps = s.unmaps := rfl
@[simp] theorem State.modPath_subs (r : PathRef) (f : Path → Path) : (s.modPath r f).subs = s.subs := rfl
@[simp] theorem State.modPath_cmds (r : PathRef) (f : Path → Path) : (s.modPath r f).cmds = s.cmds := rfl
@[simp] theorem State.modPath_sent (r : PathRef) (f : Path → Path) : (s.modPath r f).sent = s.sent := rfl
@[simp] theorem State.modPath_launches (r : PathRef) (f : Path → Path) : (s.modPath r f).launches = s.launches := rfl
@[simp] theorem State.modPath_queue (r : PathRef) (f : Path → Path) : (s.modPath r f).queue = s.queue := rfl
@[simp] theorem State.modPath_ens (r : PathRef) (f : Path → Path) : (s.modPath r f).ens = s.ens := rfl
@[simp] theorem State.modPath_nodeTables (r : PathRef) (f : Path → Path) : (s.modPath r f).nodeTables = s.nodeTables := rfl
@[simp] theorem State.modPath_graphs (r : PathRef) (f : Path → Path) : (s.modPath r f).graphs = s.graphs := rfl
@[simp] theorem State.modPath_ringOwner (r : PathRef) (f : Path → Path) : (s.modPath r f).ringOwner = s.ringOwner := rfl
@[simp] theorem State.modPath_groups (r : PathRef) (f : Path → Path) : (s.modPath r f).groups = s.groups := rfl
@[simp] theorem State.modPath_halts (r : PathRef) (f : Path → Path) : (s.modPath r f).halts = s.halts := rfl
@[simp] theorem State.modPath_fw (r : PathRef) (f : Path → Path) : (s.modPath r f).fw = s.fw := rfl
@[simp] theorem State.modPath_pw (r : PathRef) (f : Path → Path) : (s.modPath r f).pw = s.pw := rfl
@[simp] theorem State.modPath_ev (r : PathRef) (f : Path → Path) : (s.modPath r f).ev = s.ev := rfl

/-! ### modEns -/

@[simp] theorem State.modEns_now (n : Nat) (f : Ensemble → Ensemble) : (s.modEns n f).now = s.now := rfl
@[simp] theorem State.modEns_agenda (n : Nat) (f : Ensemble → Ensemble) : (s.modEns n f).agenda = s.agenda := rfl
@[simp] theorem State.modEns_cur (n : Nat) (f : Ensemble → Ensemble) : (s.modEns n f).cur = s.cur := rfl
@[simp] theorem State.modEns_issued (n : Nat) (f : Ensemble → Ensemble) : (s.modEns n f).issued = s.issued := rfl
@[simp] theorem State.modEns_turns (n : Nat) (f : Ensemble → Ensemble) : (s.modEns n f).turns = s.turns := rfl
@[simp] theorem State.modEns_late (n : Nat) (f : Ensemble → Ensemble) : (s.modEns n f).late = s.late := rfl
@[simp] theorem State.modEns_seenPass (n : Nat) (f : Ensemble → Ensemble) : (s.modEns n f).seenPass = s.seenPass := rfl
@[simp] theorem State.modEns_seenOpen (n : Nat) (f : Ensemble → Ensemble) : (s.modEns n f).seenOpen = s.seenOpen := rfl
@[simp] theorem State.modEns_free (n : Nat) (f : Ensemble → Ensemble) : (s.modEns n f).free = s.free := rfl
@[simp] theorem State.modEns_fresh (n : Nat) (f : Ensemble → Ensemble) : (s.modEns n f).fresh = s.fresh := rfl
@[simp] theorem State.modEns_pbound (n : Nat) (f : Ensemble → Ensemble) : (s.modEns n f).pbound = s.pbound := rfl
@[simp] theorem State.modEns_dies (n : Nat) (f : Ensemble → Ensemble) : (s.modEns n f).dies = s.dies := rfl
@[simp] theorem State.modEns_ext (n : Nat) (f : Ensemble → Ensemble) : (s.modEns n f).ext = s.ext := rfl
@[simp] theorem State.modEns_pool (n : Nat) (f : Ensemble → Ensemble) : (s.modEns n f).pool = s.pool := rfl
@[simp] theorem State.modEns_devWrites (n : Nat) (f : Ensemble → Ensemble) : (s.modEns n f).devWrites = s.devWrites := rfl
@[simp] theorem State.modEns_errs (n : Nat) (f : Ensemble → Ensemble) : (s.modEns n f).errs = s.errs := rfl
@[simp] theorem State.modEns_channels (n : Nat) (f : Ensemble → Ensemble) : (s.modEns n f).channels = s.channels := rfl
@[simp] theorem State.modEns_unmaps (n : Nat) (f : Ensemble → Ensemble) : (s.modEns n f).unmaps = s.unmaps := rfl
@[simp] theorem State.modEns_subs (n : Nat) (f : Ensemble → Ensemble) : (s.modEns n f).subs = s.subs := rfl
@[simp] theorem State.modEns_cmds (n : Nat) (f : Ensemble → Ensemble) : (s.modEns n f).cmds = s.cmds := rfl
@[simp] theorem State.modEns_sent (n : Nat) (f : Ensemble → Ensemble) : (s.modEns n f).sent = s.sent := rfl
@[simp] theorem State.modEns_launches (n : Nat) (f : Ensemble → Ensemble) : (s.modEns n f).launches = s.launches := rfl
@[simp] theorem State.modEns_queue (n : Nat) (f : Ensemble → Ensemble) : (s.modEns n f).queue = s.queue := rfl
@[simp] theorem State.modEns_troupes (n : Nat) (f : Ensemble → Ensemble) : (s.modEns n f).troupes = s.troupes := rfl
@[simp] theorem State.modEns_nodeTables (n : Nat) (f : Ensemble → Ensemble) : (s.modEns n f).nodeTables = s.nodeTables := rfl
@[simp] theorem State.modEns_graphs (n : Nat) (f : Ensemble → Ensemble) : (s.modEns n f).graphs = s.graphs := rfl
@[simp] theorem State.modEns_ringOwner (n : Nat) (f : Ensemble → Ensemble) : (s.modEns n f).ringOwner = s.ringOwner := rfl
@[simp] theorem State.modEns_groups (n : Nat) (f : Ensemble → Ensemble) : (s.modEns n f).groups = s.groups := rfl
@[simp] theorem State.modEns_halts (n : Nat) (f : Ensemble → Ensemble) : (s.modEns n f).halts = s.halts := rfl
@[simp] theorem State.modEns_fw (n : Nat) (f : Ensemble → Ensemble) : (s.modEns n f).fw = s.fw := rfl
@[simp] theorem State.modEns_pw (n : Nat) (f : Ensemble → Ensemble) : (s.modEns n f).pw = s.pw := rfl
@[simp] theorem State.modEns_ev (n : Nat) (f : Ensemble → Ensemble) : (s.modEns n f).ev = s.ev := rfl

/-! ### modLaunch -/

@[simp] theorem State.modLaunch_now (n : Nat) (f : Launch → Launch) : (s.modLaunch n f).now = s.now := rfl
@[simp] theorem State.modLaunch_agenda (n : Nat) (f : Launch → Launch) : (s.modLaunch n f).agenda = s.agenda := rfl
@[simp] theorem State.modLaunch_cur (n : Nat) (f : Launch → Launch) : (s.modLaunch n f).cur = s.cur := rfl
@[simp] theorem State.modLaunch_issued (n : Nat) (f : Launch → Launch) : (s.modLaunch n f).issued = s.issued := rfl
@[simp] theorem State.modLaunch_turns (n : Nat) (f : Launch → Launch) : (s.modLaunch n f).turns = s.turns := rfl
@[simp] theorem State.modLaunch_late (n : Nat) (f : Launch → Launch) : (s.modLaunch n f).late = s.late := rfl
@[simp] theorem State.modLaunch_seenPass (n : Nat) (f : Launch → Launch) : (s.modLaunch n f).seenPass = s.seenPass := rfl
@[simp] theorem State.modLaunch_seenOpen (n : Nat) (f : Launch → Launch) : (s.modLaunch n f).seenOpen = s.seenOpen := rfl
@[simp] theorem State.modLaunch_free (n : Nat) (f : Launch → Launch) : (s.modLaunch n f).free = s.free := rfl
@[simp] theorem State.modLaunch_fresh (n : Nat) (f : Launch → Launch) : (s.modLaunch n f).fresh = s.fresh := rfl
@[simp] theorem State.modLaunch_pbound (n : Nat) (f : Launch → Launch) : (s.modLaunch n f).pbound = s.pbound := rfl
@[simp] theorem State.modLaunch_dies (n : Nat) (f : Launch → Launch) : (s.modLaunch n f).dies = s.dies := rfl
@[simp] theorem State.modLaunch_ext (n : Nat) (f : Launch → Launch) : (s.modLaunch n f).ext = s.ext := rfl
@[simp] theorem State.modLaunch_pool (n : Nat) (f : Launch → Launch) : (s.modLaunch n f).pool = s.pool := rfl
@[simp] theorem State.modLaunch_devWrites (n : Nat) (f : Launch → Launch) : (s.modLaunch n f).devWrites = s.devWrites := rfl
@[simp] theorem State.modLaunch_errs (n : Nat) (f : Launch → Launch) : (s.modLaunch n f).errs = s.errs := rfl
@[simp] theorem State.modLaunch_channels (n : Nat) (f : Launch → Launch) : (s.modLaunch n f).channels = s.channels := rfl
@[simp] theorem State.modLaunch_unmaps (n : Nat) (f : Launch → Launch) : (s.modLaunch n f).unmaps = s.unmaps := rfl
@[simp] theorem State.modLaunch_subs (n : Nat) (f : Launch → Launch) : (s.modLaunch n f).subs = s.subs := rfl
@[simp] theorem State.modLaunch_cmds (n : Nat) (f : Launch → Launch) : (s.modLaunch n f).cmds = s.cmds := rfl
@[simp] theorem State.modLaunch_sent (n : Nat) (f : Launch → Launch) : (s.modLaunch n f).sent = s.sent := rfl
@[simp] theorem State.modLaunch_queue (n : Nat) (f : Launch → Launch) : (s.modLaunch n f).queue = s.queue := rfl
@[simp] theorem State.modLaunch_ens (n : Nat) (f : Launch → Launch) : (s.modLaunch n f).ens = s.ens := rfl
@[simp] theorem State.modLaunch_troupes (n : Nat) (f : Launch → Launch) : (s.modLaunch n f).troupes = s.troupes := rfl
@[simp] theorem State.modLaunch_nodeTables (n : Nat) (f : Launch → Launch) : (s.modLaunch n f).nodeTables = s.nodeTables := rfl
@[simp] theorem State.modLaunch_graphs (n : Nat) (f : Launch → Launch) : (s.modLaunch n f).graphs = s.graphs := rfl
@[simp] theorem State.modLaunch_ringOwner (n : Nat) (f : Launch → Launch) : (s.modLaunch n f).ringOwner = s.ringOwner := rfl
@[simp] theorem State.modLaunch_groups (n : Nat) (f : Launch → Launch) : (s.modLaunch n f).groups = s.groups := rfl
@[simp] theorem State.modLaunch_halts (n : Nat) (f : Launch → Launch) : (s.modLaunch n f).halts = s.halts := rfl
@[simp] theorem State.modLaunch_fw (n : Nat) (f : Launch → Launch) : (s.modLaunch n f).fw = s.fw := rfl
@[simp] theorem State.modLaunch_pw (n : Nat) (f : Launch → Launch) : (s.modLaunch n f).pw = s.pw := rfl
@[simp] theorem State.modLaunch_ev (n : Nat) (f : Launch → Launch) : (s.modLaunch n f).ev = s.ev := rfl

/-! ### modCmd -/

@[simp] theorem State.modCmd_now (n : Nat) (f : Command → Command) : (s.modCmd n f).now = s.now := rfl
@[simp] theorem State.modCmd_agenda (n : Nat) (f : Command → Command) : (s.modCmd n f).agenda = s.agenda := rfl
@[simp] theorem State.modCmd_cur (n : Nat) (f : Command → Command) : (s.modCmd n f).cur = s.cur := rfl
@[simp] theorem State.modCmd_issued (n : Nat) (f : Command → Command) : (s.modCmd n f).issued = s.issued := rfl
@[simp] theorem State.modCmd_turns (n : Nat) (f : Command → Command) : (s.modCmd n f).turns = s.turns := rfl
@[simp] theorem State.modCmd_late (n : Nat) (f : Command → Command) : (s.modCmd n f).late = s.late := rfl
@[simp] theorem State.modCmd_seenPass (n : Nat) (f : Command → Command) : (s.modCmd n f).seenPass = s.seenPass := rfl
@[simp] theorem State.modCmd_seenOpen (n : Nat) (f : Command → Command) : (s.modCmd n f).seenOpen = s.seenOpen := rfl
@[simp] theorem State.modCmd_free (n : Nat) (f : Command → Command) : (s.modCmd n f).free = s.free := rfl
@[simp] theorem State.modCmd_fresh (n : Nat) (f : Command → Command) : (s.modCmd n f).fresh = s.fresh := rfl
@[simp] theorem State.modCmd_pbound (n : Nat) (f : Command → Command) : (s.modCmd n f).pbound = s.pbound := rfl
@[simp] theorem State.modCmd_dies (n : Nat) (f : Command → Command) : (s.modCmd n f).dies = s.dies := rfl
@[simp] theorem State.modCmd_ext (n : Nat) (f : Command → Command) : (s.modCmd n f).ext = s.ext := rfl
@[simp] theorem State.modCmd_pool (n : Nat) (f : Command → Command) : (s.modCmd n f).pool = s.pool := rfl
@[simp] theorem State.modCmd_devWrites (n : Nat) (f : Command → Command) : (s.modCmd n f).devWrites = s.devWrites := rfl
@[simp] theorem State.modCmd_errs (n : Nat) (f : Command → Command) : (s.modCmd n f).errs = s.errs := rfl
@[simp] theorem State.modCmd_channels (n : Nat) (f : Command → Command) : (s.modCmd n f).channels = s.channels := rfl
@[simp] theorem State.modCmd_unmaps (n : Nat) (f : Command → Command) : (s.modCmd n f).unmaps = s.unmaps := rfl
@[simp] theorem State.modCmd_subs (n : Nat) (f : Command → Command) : (s.modCmd n f).subs = s.subs := rfl
@[simp] theorem State.modCmd_sent (n : Nat) (f : Command → Command) : (s.modCmd n f).sent = s.sent := rfl
@[simp] theorem State.modCmd_launches (n : Nat) (f : Command → Command) : (s.modCmd n f).launches = s.launches := rfl
@[simp] theorem State.modCmd_queue (n : Nat) (f : Command → Command) : (s.modCmd n f).queue = s.queue := rfl
@[simp] theorem State.modCmd_ens (n : Nat) (f : Command → Command) : (s.modCmd n f).ens = s.ens := rfl
@[simp] theorem State.modCmd_troupes (n : Nat) (f : Command → Command) : (s.modCmd n f).troupes = s.troupes := rfl
@[simp] theorem State.modCmd_nodeTables (n : Nat) (f : Command → Command) : (s.modCmd n f).nodeTables = s.nodeTables := rfl
@[simp] theorem State.modCmd_graphs (n : Nat) (f : Command → Command) : (s.modCmd n f).graphs = s.graphs := rfl
@[simp] theorem State.modCmd_ringOwner (n : Nat) (f : Command → Command) : (s.modCmd n f).ringOwner = s.ringOwner := rfl
@[simp] theorem State.modCmd_groups (n : Nat) (f : Command → Command) : (s.modCmd n f).groups = s.groups := rfl
@[simp] theorem State.modCmd_halts (n : Nat) (f : Command → Command) : (s.modCmd n f).halts = s.halts := rfl
@[simp] theorem State.modCmd_fw (n : Nat) (f : Command → Command) : (s.modCmd n f).fw = s.fw := rfl
@[simp] theorem State.modCmd_pw (n : Nat) (f : Command → Command) : (s.modCmd n f).pw = s.pw := rfl
@[simp] theorem State.modCmd_ev (n : Nat) (f : Command → Command) : (s.modCmd n f).ev = s.ev := rfl

/-! ### send -/

@[simp] theorem State.send_now (r : Record) : (s.send r).now = s.now := rfl
@[simp] theorem State.send_agenda (r : Record) : (s.send r).agenda = s.agenda := rfl
@[simp] theorem State.send_cur (r : Record) : (s.send r).cur = s.cur := rfl
@[simp] theorem State.send_issued (r : Record) : (s.send r).issued = s.issued := rfl
@[simp] theorem State.send_turns (r : Record) : (s.send r).turns = s.turns := rfl
@[simp] theorem State.send_late (r : Record) : (s.send r).late = s.late := rfl
@[simp] theorem State.send_seenPass (r : Record) : (s.send r).seenPass = s.seenPass := rfl
@[simp] theorem State.send_seenOpen (r : Record) : (s.send r).seenOpen = s.seenOpen := rfl
@[simp] theorem State.send_free (r : Record) : (s.send r).free = s.free := rfl
@[simp] theorem State.send_fresh (r : Record) : (s.send r).fresh = s.fresh := rfl
@[simp] theorem State.send_pbound (r : Record) : (s.send r).pbound = s.pbound := rfl
@[simp] theorem State.send_dies (r : Record) : (s.send r).dies = s.dies := rfl
@[simp] theorem State.send_ext (r : Record) : (s.send r).ext = s.ext := rfl
@[simp] theorem State.send_pool (r : Record) : (s.send r).pool = s.pool := rfl
@[simp] theorem State.send_devWrites (r : Record) : (s.send r).devWrites = s.devWrites := rfl
@[simp] theorem State.send_errs (r : Record) : (s.send r).errs = s.errs := rfl
@[simp] theorem State.send_channels (r : Record) : (s.send r).channels = s.channels := rfl
@[simp] theorem State.send_unmaps (r : Record) : (s.send r).unmaps = s.unmaps := rfl
@[simp] theorem State.send_subs (r : Record) : (s.send r).subs = s.subs := rfl
@[simp] theorem State.send_cmds (r : Record) : (s.send r).cmds = s.cmds := rfl
@[simp] theorem State.send_launches (r : Record) : (s.send r).launches = s.launches := rfl
@[simp] theorem State.send_queue (r : Record) : (s.send r).queue = s.queue := rfl
@[simp] theorem State.send_ens (r : Record) : (s.send r).ens = s.ens := rfl
@[simp] theorem State.send_troupes (r : Record) : (s.send r).troupes = s.troupes := rfl
@[simp] theorem State.send_nodeTables (r : Record) : (s.send r).nodeTables = s.nodeTables := rfl
@[simp] theorem State.send_graphs (r : Record) : (s.send r).graphs = s.graphs := rfl
@[simp] theorem State.send_ringOwner (r : Record) : (s.send r).ringOwner = s.ringOwner := rfl
@[simp] theorem State.send_groups (r : Record) : (s.send r).groups = s.groups := rfl
@[simp] theorem State.send_halts (r : Record) : (s.send r).halts = s.halts := rfl
@[simp] theorem State.send_fw (r : Record) : (s.send r).fw = s.fw := rfl
@[simp] theorem State.send_pw (r : Record) : (s.send r).pw = s.pw := rfl
@[simp] theorem State.send_ev (r : Record) : (s.send r).ev = s.ev := rfl

variable (t : Troupe)

/-! ### modPath of a troupe -/

@[simp] theorem Troupe.modPath_id (r : PathSel) (f : Path → Path) : (t.modPath r f).id = t.id := rfl
@[simp] theorem Troupe.modPath_ens (r : PathSel) (f : Path → Path) : (t.modPath r f).ens = t.ens := rfl
@[simp] theorem Troupe.modPath_sec (r : PathSel) (f : Path → Path) : (t.modPath r f).sec = t.sec := rfl
@[simp] theorem Troupe.modPath_idx (r : PathSel) (f : Path → Path) : (t.modPath r f).idx = t.idx := rfl
@[simp] theorem Troupe.modPath_die (r : PathSel) (f : Path → Path) : (t.modPath r f).die = t.die := rfl
@[simp] theorem Troupe.modPath_core (r : PathSel) (f : Path → Path) : (t.modPath r f).core = t.core := rfl
@[simp] theorem Troupe.modPath_part (r : PathSel) (f : Path → Path) : (t.modPath r f).part = t.part := rfl
@[simp] theorem Troupe.modPath_slot (r : PathSel) (f : Path → Path) : (t.modPath r f).slot = t.slot := rfl
@[simp] theorem Troupe.modPath_run (r : PathSel) (f : Path → Path) : (t.modPath r f).run = t.run := rfl
@[simp] theorem Troupe.modPath_lanes (r : PathSel) (f : Path → Path) : (t.modPath r f).lanes = t.lanes := rfl
@[simp] theorem Troupe.modPath_slices (r : PathSel) (f : Path → Path) : (t.modPath r f).slices = t.slices := rfl
@[simp] theorem Troupe.modPath_enable (r : PathSel) (f : Path → Path) : (t.modPath r f).enable = t.enable := rfl
@[simp] theorem Troupe.modPath_prevEnable (r : PathSel) (f : Path → Path) : (t.modPath r f).prevEnable = t.prevEnable := rfl
@[simp] theorem Troupe.modPath_tilePart (r : PathSel) (f : Path → Path) : (t.modPath r f).tilePart = t.tilePart := rfl
@[simp] theorem Troupe.modPath_mrow (r : PathSel) (f : Path → Path) : (t.modPath r f).mrow = t.mrow := rfl
@[simp] theorem Troupe.modPath_mrowOld (r : PathSel) (f : Path → Path) : (t.modPath r f).mrowOld = t.mrowOld := rfl
@[simp] theorem Troupe.modPath_mrowSet (r : PathSel) (f : Path → Path) : (t.modPath r f).mrowSet = t.mrowSet := rfl
@[simp] theorem Troupe.modPath_rsm (r : PathSel) (f : Path → Path) : (t.modPath r f).rsm = t.rsm := rfl
@[simp] theorem Troupe.modPath_save (r : PathSel) (f : Path → Path) : (t.modPath r f).save = t.save := rfl
@[simp] theorem Troupe.modPath_saveHeld (r : PathSel) (f : Path → Path) : (t.modPath r f).saveHeld = t.saveHeld := rfl
@[simp] theorem Troupe.modPath_refillPc (r : PathSel) (f : Path → Path) : (t.modPath r f).refillPc = t.refillPc := rfl
@[simp] theorem Troupe.modPath_region (r : PathSel) (f : Path → Path) : (t.modPath r f).region = t.region := rfl
@[simp] theorem Troupe.modPath_routine (r : PathSel) (f : Path → Path) : (t.modPath r f).routine = t.routine := rfl
@[simp] theorem Troupe.modPath_manifest (r : PathSel) (f : Path → Path) : (t.modPath r f).manifest = t.manifest := rfl
@[simp] theorem Troupe.modPath_finish (r : PathSel) (f : Path → Path) : (t.modPath r f).finish = t.finish := rfl
@[simp] theorem Troupe.modPath_overrun (r : PathSel) (f : Path → Path) : (t.modPath r f).overrun = t.overrun := rfl
@[simp] theorem Troupe.modPath_holdsExt (r : PathSel) (f : Path → Path) : (t.modPath r f).holdsExt = t.holdsExt := rfl
@[simp] theorem Troupe.modPath_hadExt (r : PathSel) (f : Path → Path) : (t.modPath r f).hadExt = t.hadExt := rfl
@[simp] theorem Troupe.modPath_stepping (r : PathSel) (f : Path → Path) : (t.modPath r f).stepping = t.stepping := rfl
@[simp] theorem Troupe.modPath_gone (r : PathSel) (f : Path → Path) : (t.modPath r f).gone = t.gone := rfl
@[simp] theorem Troupe.modPath_latches (r : PathSel) (f : Path → Path) : (t.modPath r f).latches = t.latches := rfl
@[simp] theorem Troupe.modPath_tile (r : PathSel) (f : Path → Path) : (t.modPath r f).tile = t.tile := rfl
@[simp] theorem Troupe.modPath_ops (r : PathSel) (f : Path → Path) : (t.modPath r f).ops = t.ops := rfl
@[simp] theorem Troupe.modPath_futures (r : PathSel) (f : Path → Path) : (t.modPath r f).futures = t.futures := rfl
@[simp] theorem Troupe.modPath_recs (r : PathSel) (f : Path → Path) : (t.modPath r f).recs = t.recs := rfl
@[simp] theorem Troupe.modPath_lastFault (r : PathSel) (f : Path → Path) : (t.modPath r f).lastFault = t.lastFault := rfl
@[simp] theorem Troupe.modPath_gang (r : PathSel) (f : Path → Path) : (t.modPath r f).gang = t.gang := rfl

/-! ### modSlice of a troupe -/

@[simp] theorem Troupe.modSlice_id (k : Nat) (f : SliceSt → SliceSt) : (t.modSlice k f).id = t.id := rfl
@[simp] theorem Troupe.modSlice_ens (k : Nat) (f : SliceSt → SliceSt) : (t.modSlice k f).ens = t.ens := rfl
@[simp] theorem Troupe.modSlice_sec (k : Nat) (f : SliceSt → SliceSt) : (t.modSlice k f).sec = t.sec := rfl
@[simp] theorem Troupe.modSlice_idx (k : Nat) (f : SliceSt → SliceSt) : (t.modSlice k f).idx = t.idx := rfl
@[simp] theorem Troupe.modSlice_die (k : Nat) (f : SliceSt → SliceSt) : (t.modSlice k f).die = t.die := rfl
@[simp] theorem Troupe.modSlice_core (k : Nat) (f : SliceSt → SliceSt) : (t.modSlice k f).core = t.core := rfl
@[simp] theorem Troupe.modSlice_part (k : Nat) (f : SliceSt → SliceSt) : (t.modSlice k f).part = t.part := rfl
@[simp] theorem Troupe.modSlice_slot (k : Nat) (f : SliceSt → SliceSt) : (t.modSlice k f).slot = t.slot := rfl
@[simp] theorem Troupe.modSlice_run (k : Nat) (f : SliceSt → SliceSt) : (t.modSlice k f).run = t.run := rfl
@[simp] theorem Troupe.modSlice_lanes (k : Nat) (f : SliceSt → SliceSt) : (t.modSlice k f).lanes = t.lanes := rfl
@[simp] theorem Troupe.modSlice_paths (k : Nat) (f : SliceSt → SliceSt) : (t.modSlice k f).paths = t.paths := rfl
@[simp] theorem Troupe.modSlice_enable (k : Nat) (f : SliceSt → SliceSt) : (t.modSlice k f).enable = t.enable := rfl
@[simp] theorem Troupe.modSlice_prevEnable (k : Nat) (f : SliceSt → SliceSt) : (t.modSlice k f).prevEnable = t.prevEnable := rfl
@[simp] theorem Troupe.modSlice_tilePart (k : Nat) (f : SliceSt → SliceSt) : (t.modSlice k f).tilePart = t.tilePart := rfl
@[simp] theorem Troupe.modSlice_mrow (k : Nat) (f : SliceSt → SliceSt) : (t.modSlice k f).mrow = t.mrow := rfl
@[simp] theorem Troupe.modSlice_mrowOld (k : Nat) (f : SliceSt → SliceSt) : (t.modSlice k f).mrowOld = t.mrowOld := rfl
@[simp] theorem Troupe.modSlice_mrowSet (k : Nat) (f : SliceSt → SliceSt) : (t.modSlice k f).mrowSet = t.mrowSet := rfl
@[simp] theorem Troupe.modSlice_rsm (k : Nat) (f : SliceSt → SliceSt) : (t.modSlice k f).rsm = t.rsm := rfl
@[simp] theorem Troupe.modSlice_save (k : Nat) (f : SliceSt → SliceSt) : (t.modSlice k f).save = t.save := rfl
@[simp] theorem Troupe.modSlice_saveHeld (k : Nat) (f : SliceSt → SliceSt) : (t.modSlice k f).saveHeld = t.saveHeld := rfl
@[simp] theorem Troupe.modSlice_refillPc (k : Nat) (f : SliceSt → SliceSt) : (t.modSlice k f).refillPc = t.refillPc := rfl
@[simp] theorem Troupe.modSlice_region (k : Nat) (f : SliceSt → SliceSt) : (t.modSlice k f).region = t.region := rfl
@[simp] theorem Troupe.modSlice_routine (k : Nat) (f : SliceSt → SliceSt) : (t.modSlice k f).routine = t.routine := rfl
@[simp] theorem Troupe.modSlice_manifest (k : Nat) (f : SliceSt → SliceSt) : (t.modSlice k f).manifest = t.manifest := rfl
@[simp] theorem Troupe.modSlice_finish (k : Nat) (f : SliceSt → SliceSt) : (t.modSlice k f).finish = t.finish := rfl
@[simp] theorem Troupe.modSlice_overrun (k : Nat) (f : SliceSt → SliceSt) : (t.modSlice k f).overrun = t.overrun := rfl
@[simp] theorem Troupe.modSlice_holdsExt (k : Nat) (f : SliceSt → SliceSt) : (t.modSlice k f).holdsExt = t.holdsExt := rfl
@[simp] theorem Troupe.modSlice_hadExt (k : Nat) (f : SliceSt → SliceSt) : (t.modSlice k f).hadExt = t.hadExt := rfl
@[simp] theorem Troupe.modSlice_stepping (k : Nat) (f : SliceSt → SliceSt) : (t.modSlice k f).stepping = t.stepping := rfl
@[simp] theorem Troupe.modSlice_gone (k : Nat) (f : SliceSt → SliceSt) : (t.modSlice k f).gone = t.gone := rfl
@[simp] theorem Troupe.modSlice_latches (k : Nat) (f : SliceSt → SliceSt) : (t.modSlice k f).latches = t.latches := rfl
@[simp] theorem Troupe.modSlice_tile (k : Nat) (f : SliceSt → SliceSt) : (t.modSlice k f).tile = t.tile := rfl
@[simp] theorem Troupe.modSlice_ops (k : Nat) (f : SliceSt → SliceSt) : (t.modSlice k f).ops = t.ops := rfl
@[simp] theorem Troupe.modSlice_futures (k : Nat) (f : SliceSt → SliceSt) : (t.modSlice k f).futures = t.futures := rfl
@[simp] theorem Troupe.modSlice_recs (k : Nat) (f : SliceSt → SliceSt) : (t.modSlice k f).recs = t.recs := rfl
@[simp] theorem Troupe.modSlice_lastFault (k : Nat) (f : SliceSt → SliceSt) : (t.modSlice k f).lastFault = t.lastFault := rfl
@[simp] theorem Troupe.modSlice_gang (k : Nat) (f : SliceSt → SliceSt) : (t.modSlice k f).gang = t.gang := rfl

/-! ### writeLanes of a troupe -/

@[simp] theorem Troupe.writeLanes_id (m : Word) (f : Nat → List (Nat × Word)) : (t.writeLanes m f).id = t.id := rfl
@[simp] theorem Troupe.writeLanes_ens (m : Word) (f : Nat → List (Nat × Word)) : (t.writeLanes m f).ens = t.ens := rfl
@[simp] theorem Troupe.writeLanes_sec (m : Word) (f : Nat → List (Nat × Word)) : (t.writeLanes m f).sec = t.sec := rfl
@[simp] theorem Troupe.writeLanes_idx (m : Word) (f : Nat → List (Nat × Word)) : (t.writeLanes m f).idx = t.idx := rfl
@[simp] theorem Troupe.writeLanes_die (m : Word) (f : Nat → List (Nat × Word)) : (t.writeLanes m f).die = t.die := rfl
@[simp] theorem Troupe.writeLanes_core (m : Word) (f : Nat → List (Nat × Word)) : (t.writeLanes m f).core = t.core := rfl
@[simp] theorem Troupe.writeLanes_part (m : Word) (f : Nat → List (Nat × Word)) : (t.writeLanes m f).part = t.part := rfl
@[simp] theorem Troupe.writeLanes_slot (m : Word) (f : Nat → List (Nat × Word)) : (t.writeLanes m f).slot = t.slot := rfl
@[simp] theorem Troupe.writeLanes_run (m : Word) (f : Nat → List (Nat × Word)) : (t.writeLanes m f).run = t.run := rfl
@[simp] theorem Troupe.writeLanes_slices (m : Word) (f : Nat → List (Nat × Word)) : (t.writeLanes m f).slices = t.slices := rfl
@[simp] theorem Troupe.writeLanes_paths (m : Word) (f : Nat → List (Nat × Word)) : (t.writeLanes m f).paths = t.paths := rfl
@[simp] theorem Troupe.writeLanes_enable (m : Word) (f : Nat → List (Nat × Word)) : (t.writeLanes m f).enable = t.enable := rfl
@[simp] theorem Troupe.writeLanes_prevEnable (m : Word) (f : Nat → List (Nat × Word)) : (t.writeLanes m f).prevEnable = t.prevEnable := rfl
@[simp] theorem Troupe.writeLanes_tilePart (m : Word) (f : Nat → List (Nat × Word)) : (t.writeLanes m f).tilePart = t.tilePart := rfl
@[simp] theorem Troupe.writeLanes_mrow (m : Word) (f : Nat → List (Nat × Word)) : (t.writeLanes m f).mrow = t.mrow := rfl
@[simp] theorem Troupe.writeLanes_mrowOld (m : Word) (f : Nat → List (Nat × Word)) : (t.writeLanes m f).mrowOld = t.mrowOld := rfl
@[simp] theorem Troupe.writeLanes_mrowSet (m : Word) (f : Nat → List (Nat × Word)) : (t.writeLanes m f).mrowSet = t.mrowSet := rfl
@[simp] theorem Troupe.writeLanes_rsm (m : Word) (f : Nat → List (Nat × Word)) : (t.writeLanes m f).rsm = t.rsm := rfl
@[simp] theorem Troupe.writeLanes_save (m : Word) (f : Nat → List (Nat × Word)) : (t.writeLanes m f).save = t.save := rfl
@[simp] theorem Troupe.writeLanes_saveHeld (m : Word) (f : Nat → List (Nat × Word)) : (t.writeLanes m f).saveHeld = t.saveHeld := rfl
@[simp] theorem Troupe.writeLanes_refillPc (m : Word) (f : Nat → List (Nat × Word)) : (t.writeLanes m f).refillPc = t.refillPc := rfl
@[simp] theorem Troupe.writeLanes_region (m : Word) (f : Nat → List (Nat × Word)) : (t.writeLanes m f).region = t.region := rfl
@[simp] theorem Troupe.writeLanes_routine (m : Word) (f : Nat → List (Nat × Word)) : (t.writeLanes m f).routine = t.routine := rfl
@[simp] theorem Troupe.writeLanes_manifest (m : Word) (f : Nat → List (Nat × Word)) : (t.writeLanes m f).manifest = t.manifest := rfl
@[simp] theorem Troupe.writeLanes_finish (m : Word) (f : Nat → List (Nat × Word)) : (t.writeLanes m f).finish = t.finish := rfl
@[simp] theorem Troupe.writeLanes_overrun (m : Word) (f : Nat → List (Nat × Word)) : (t.writeLanes m f).overrun = t.overrun := rfl
@[simp] theorem Troupe.writeLanes_holdsExt (m : Word) (f : Nat → List (Nat × Word)) : (t.writeLanes m f).holdsExt = t.holdsExt := rfl
@[simp] theorem Troupe.writeLanes_hadExt (m : Word) (f : Nat → List (Nat × Word)) : (t.writeLanes m f).hadExt = t.hadExt := rfl
@[simp] theorem Troupe.writeLanes_stepping (m : Word) (f : Nat → List (Nat × Word)) : (t.writeLanes m f).stepping = t.stepping := rfl
@[simp] theorem Troupe.writeLanes_gone (m : Word) (f : Nat → List (Nat × Word)) : (t.writeLanes m f).gone = t.gone := rfl
@[simp] theorem Troupe.writeLanes_latches (m : Word) (f : Nat → List (Nat × Word)) : (t.writeLanes m f).latches = t.latches := rfl
@[simp] theorem Troupe.writeLanes_tile (m : Word) (f : Nat → List (Nat × Word)) : (t.writeLanes m f).tile = t.tile := rfl
@[simp] theorem Troupe.writeLanes_ops (m : Word) (f : Nat → List (Nat × Word)) : (t.writeLanes m f).ops = t.ops := rfl
@[simp] theorem Troupe.writeLanes_futures (m : Word) (f : Nat → List (Nat × Word)) : (t.writeLanes m f).futures = t.futures := rfl
@[simp] theorem Troupe.writeLanes_recs (m : Word) (f : Nat → List (Nat × Word)) : (t.writeLanes m f).recs = t.recs := rfl
@[simp] theorem Troupe.writeLanes_lastFault (m : Word) (f : Nat → List (Nat × Word)) : (t.writeLanes m f).lastFault = t.lastFault := rfl
@[simp] theorem Troupe.writeLanes_gang (m : Word) (f : Nat → List (Nat × Word)) : (t.writeLanes m f).gang = t.gang := rfl

variable (p : Path)

/-! ### Paths that go on -/

@[simp] theorem Path.next_sel : p.next.sel = p.sel := rfl
@[simp] theorem Path.next_home : p.next.home = p.home := rfl
@[simp] theorem Path.next_origin : p.next.origin = p.origin := rfl
@[simp] theorem Path.next_slices : p.next.slices = p.slices := rfl
@[simp] theorem Path.next_waiting : p.next.waiting = p.waiting := rfl
@[simp] theorem Path.next_stack : p.next.stack = p.stack := rfl
@[simp] theorem Path.next_stamp : p.next.stamp = p.stamp := rfl
@[simp] theorem Path.next_waitCnt : p.next.waitCnt = p.waitCnt := rfl
@[simp] theorem Path.next_aged : p.next.aged = p.aged := rfl
@[simp] theorem Path.next_stall : p.next.stall = p.stall := rfl
@[simp] theorem Path.next_retry : p.next.retry = p.retry := rfl
@[simp] theorem Path.next_rdPass : p.next.rdPass = p.rdPass := rfl
@[simp] theorem Path.next_rdShared : p.next.rdShared = p.rdShared := rfl
@[simp] theorem Path.next_marks : p.next.marks = p.marks := rfl
@[simp] theorem Path.next_strongReads : p.next.strongReads = p.strongReads := rfl
@[simp] theorem Path.next_reads : p.next.reads = p.reads := rfl
@[simp] theorem Path.next_wrote : p.next.wrote = p.wrote := rfl
@[simp] theorem Path.next_pc : p.next.pc = p.pc + 16 := rfl
@[simp] theorem Path.goto_sel (a : Nat) : (p.goto a).sel = p.sel := rfl
@[simp] theorem Path.goto_home (a : Nat) : (p.goto a).home = p.home := rfl
@[simp] theorem Path.goto_origin (a : Nat) : (p.goto a).origin = p.origin := rfl
@[simp] theorem Path.goto_slices (a : Nat) : (p.goto a).slices = p.slices := rfl
@[simp] theorem Path.goto_waiting (a : Nat) : (p.goto a).waiting = p.waiting := rfl
@[simp] theorem Path.goto_stack (a : Nat) : (p.goto a).stack = p.stack := rfl
@[simp] theorem Path.goto_stamp (a : Nat) : (p.goto a).stamp = p.stamp := rfl
@[simp] theorem Path.goto_waitCnt (a : Nat) : (p.goto a).waitCnt = p.waitCnt := rfl
@[simp] theorem Path.goto_aged (a : Nat) : (p.goto a).aged = p.aged := rfl
@[simp] theorem Path.goto_stall (a : Nat) : (p.goto a).stall = p.stall := rfl
@[simp] theorem Path.goto_retry (a : Nat) : (p.goto a).retry = p.retry := rfl
@[simp] theorem Path.goto_rdPass (a : Nat) : (p.goto a).rdPass = p.rdPass := rfl
@[simp] theorem Path.goto_rdShared (a : Nat) : (p.goto a).rdShared = p.rdShared := rfl
@[simp] theorem Path.goto_marks (a : Nat) : (p.goto a).marks = p.marks := rfl
@[simp] theorem Path.goto_strongReads (a : Nat) : (p.goto a).strongReads = p.strongReads := rfl
@[simp] theorem Path.goto_reads (a : Nat) : (p.goto a).reads = p.reads := rfl
@[simp] theorem Path.goto_wrote (a : Nat) : (p.goto a).wrote = p.wrote := rfl
@[simp] theorem Path.goto_pc (a : Nat) : (p.goto a).pc = a := rfl
@[simp] theorem Path.goto_blk (a : Nat) : (p.goto a).blk = none := rfl

end Sys2Proof.Machine
end

