-- ==== Sys2Proof/Laws/Ops.lean ====
section
/-! SUPPORT. What the shared operations do: registers read after writes, lanes of a mask, paths and troupes found
after a change, and how an instruction ends where the checks before its effect pass. -/

namespace Sys2Proof.Machine

/-! ### Lists with positions -/

theorem lget_lenumFrom {α β : Type} (z : β) (f : Nat × α → β) (zs : α) (xs : List α) (k l : Nat)
    (h : l < xs.length) : lget z ((lenumFrom k xs).map f) l = f (k + l, lget zs xs l) := by
  induction xs generalizing k l with
  | nil => simp at h
  | cons x xs ih =>
    cases l with
    | zero => rfl
    | succ l =>
      have := ih (k + 1) l (by simpa using h)
      simpa [lenumFrom, lget, Nat.add_assoc, Nat.add_comm 1 l] using this

theorem lenumFrom_length {α : Type} (xs : List α) (k : Nat) : (lenumFrom k xs).length = xs.length := by
  induction xs generalizing k with
  | nil => rfl
  | cons x xs ih => simp [lenumFrom, ih]

theorem lget_beyond {α : Type} (z : α) (xs : List α) (l : Nat) (h : xs.length ≤ l) : lget z xs l = z := by
  induction xs generalizing l with
  | nil => rfl
  | cons x xs ih =>
    cases l with
    | zero => simp at h
    | succ l => exact ih l (by simpa using h)

/-- A lane of a list changed position by position. -/
theorem lget_map_lenum {α : Type} (z : α) (f : Nat × α → α) (xs : List α) (l : Nat) :
    lget z ((lenum xs).map f) l = if l < xs.length then f (l, lget z xs l) else z := by
  split
  · have := lget_lenumFrom z f z xs 0 l ‹_›
    simpa [lenum] using this
  · exact lget_beyond _ _ _ (by simpa [lenum, lenumFrom_length] using (by omega : xs.length ≤ l))

theorem mem_lenumFrom {α : Type} (xs : List α) (k : Nat) (e : Nat × α) (h : e ∈ lenumFrom k xs) :
    e.1 < k + xs.length := by
  induction xs generalizing k with
  | nil => simp [lenumFrom] at h
  | cons x xs ih =>
    simp only [lenumFrom, List.mem_cons] at h
    rcases h with rfl | h
    · simp
    · have := ih (k + 1) h
      simp only [List.length_cons]; omega

/-! ### Masks -/

theorem mem_lanesOf {m : Word} {l : Nat} : l ∈ lanesOf m ↔ l < 32 ∧ m.getLsbD l = true := by
  simp [lanesOf]

@[simp] theorem lanesOf_zero : lanesOf 0#32 = [] := by decide

@[simp] theorem faultAll_zero (c a : Nat) : faultAll 0#32 c a = [] := by simp [faultAll]

theorem getLsbD_pow (l k : Nat) : (BitVec.ofNat 32 (2 ^ l)).getLsbD k = (decide (k < 32) && decide (k = l)) := by
  simp only [BitVec.getLsbD_ofNat, Nat.testBit_two_pow]
  by_cases h : l = k <;> simp [h, eq_comm]

theorem getLsbD_foldl_mask (ls : List Nat) (m : Word) (k : Nat) :
    (ls.foldl (fun m l => m ||| BitVec.ofNat 32 (2 ^ l)) m).getLsbD k =
      (m.getLsbD k || (decide (k < 32) && decide (k ∈ ls))) := by
  induction ls generalizing m with
  | nil => simp
  | cons l ls ih =>
    rw [List.foldl_cons, ih, BitVec.getLsbD_or, getLsbD_pow]
    by_cases h : k = l <;> simp [h, Bool.or_assoc, Bool.and_comm]
    by_cases h' : l < 32 <;> simp [h']

theorem getLsbD_maskOf (ls : List Nat) (k : Nat) :
    (maskOf ls).getLsbD k = (decide (k < 32) && decide (k ∈ ls)) := by
  rw [maskOf, getLsbD_foldl_mask, show (0 : Word) = 0#32 from rfl, BitVec.getLsbD_zero, Bool.false_or]

/-! ### Registers -/

/-- vz reads 0, whatever stands in it (R86). -/
@[simp] theorem Lane.reg_vz (l : Lane) : l.reg 511 = 0 := rfl

@[simp] theorem Troupe.reg_vz (t : Troupe) (l : Nat) : t.reg l 511 = 0 := rfl

theorem Lane.reg_setReg (l : Lane) (r q : Nat) (v : Word) :
    (l.setReg r v).reg q = if q = 511 then 0 else if r = q then v else l.reg q := by
  unfold Lane.setReg Lane.reg
  by_cases hq : q = 511
  · simp [hq]
  · by_cases hr : r = 511
    · rw [if_pos hr]; simp [hq]; intro h; omega
    · simp only [hr, hq, if_false, mget_mset]
      by_cases h : q = r
      · simp [h]
      · rw [if_neg h, if_neg (Ne.symm h)]

theorem Lane.reg_setRegs (ws : List (Nat × Word)) (l : Lane) (q : Nat) :
    (l.setRegs ws).reg q = if q = 511 then 0 else regAfter ws q (l.reg q) := by
  induction ws generalizing l with
  | nil => by_cases hq : q = 511 <;> simp [Lane.setRegs, regAfter, hq]
  | cons w ws ih =>
    have := ih (l.setReg w.1 w.2)
    simp only [Lane.setRegs, List.foldl_cons, regAfter] at this ⊢
    rw [this, Lane.reg_setReg]
    by_cases hq : q = 511 <;> simp [hq]

theorem Lane.setReg_sameBut (l : Lane) (r : Nat) (v : Word) : l.SameBut (l.setReg r v) := by
  unfold Lane.setReg
  split <;> rfl

theorem Lane.sameBut_trans {a b c : Lane} (h : a.SameBut b) (k : b.SameBut c) : a.SameBut c := by
  unfold Lane.SameBut at *
  rw [k, h]

theorem Lane.setRegs_sameBut (ws : List (Nat × Word)) (l : Lane) : l.SameBut (l.setRegs ws) := by
  induction ws generalizing l with
  | nil => rfl
  | cons w ws ih => exact Lane.sameBut_trans (l.setReg_sameBut w.1 w.2) (ih _)

theorem Troupe.lane_writeLanes (t : Troupe) (m : Word) (f : Nat → List (Nat × Word)) (l : Nat) :
    (t.writeLanes m f).lane l =
      if l < t.lanes.length then (if m.getLsbD l = true then (t.lane l).setRegs (f l) else t.lane l)
      else Lane.none_ := by
  simp only [Troupe.lane, Troupe.writeLanes, lget_map_lenum]

/-- A write in lanes that the troupe has. -/
theorem Troupe.reg_writeLanes (t : Troupe) (m : Word) (f : Nat → List (Nat × Word)) (l q : Nat)
    (h : m.getLsbD l = true → l < t.lanes.length) :
    (t.writeLanes m f).reg l q = if q = 511 then 0
      else if m.getLsbD l = true then regAfter (f l) q (t.reg l q) else t.reg l q := by
  by_cases hq : q = 511
  · simp [hq]
  · simp only [Troupe.reg, Troupe.lane_writeLanes, hq, if_false]
    by_cases hm : m.getLsbD l = true
    · simp [hm, h hm, Lane.reg_setRegs, hq]
    · by_cases hl : l < t.lanes.length
      · simp [hm, hl]
      · simp [hm, hl, Troupe.lane, lget_beyond _ _ _ (Nat.le_of_not_lt hl)]

theorem Troupe.writeLanes_sameBut (t : Troupe) (m : Word) (f : Nat → List (Nat × Word)) (l : Nat) :
    (t.lane l).SameBut ((t.writeLanes m f).lane l) := by
  rw [Troupe.lane_writeLanes]
  split
  · split
    · exact Lane.setRegs_sameBut _ _
    · rfl
  · rw [Troupe.lane, lget_beyond _ _ _ (by omega)]

/-! ### Errors found by an issue -/

theorem Troupe.lane_markErrors (t : Troupe) (m : Word) (x : Ins) (u : Use) (act : Word) (l : Nat) :
    (t.lane l).SameBut ((t.markErrors m x u act).lane l) ∧ ((t.markErrors m x u act).lane l).regs = (t.lane l).regs := by
  simp only [Troupe.lane, Troupe.markErrors, lget_map_lenum]
  split
  · split <;> exact ⟨rfl, rfl⟩
  · rw [lget_beyond _ _ _ (by omega)]; exact ⟨rfl, rfl⟩

@[simp] theorem Troupe.reg_markErrors (t : Troupe) (m : Word) (x : Ins) (u : Use) (act : Word) (l q : Nat) :
    (t.markErrors m x u act).reg l q = t.reg l q := by
  simp only [Troupe.reg, Lane.reg, (t.lane_markErrors m x u act l).2]

@[simp] theorem Troupe.length_markErrors (t : Troupe) (m : Word) (x : Ins) (u : Use) (act : Word) :
    (t.markErrors m x u act).lanes.length = t.lanes.length := by
  simp [Troupe.markErrors, lenum, lenumFrom_length]

/-- The lanes of active(i) are lanes that the troupe has. -/
theorem Troupe.live_lt (t : Troupe) (l : Nat) (h : t.live.getLsbD l = true) : l < t.lanes.length := by
  simp only [Troupe.live, Troupe.inState, getLsbD_maskOf, Bool.and_eq_true, decide_eq_true_eq, List.mem_map,
    List.mem_filter] at h
  obtain ⟨_, e, ⟨he, _⟩, rfl⟩ := h
  have := mem_lenumFrom t.lanes 0 e he
  omega

theorem Troupe.guarded_subset (t : Troupe) (m : Word) (x : Ins) (l : Nat)
    (h : (t.guarded m x).getLsbD l = true) : m.getLsbD l = true := by
  simp only [Troupe.guarded, getLsbD_maskOf, Bool.and_eq_true, decide_eq_true_eq, List.mem_filter,
    mem_lanesOf] at h
  exact h.2.1.2

theorem Troupe.pathLanes_live (t : Troupe) (p : Path) (l : Nat) (h : (t.pathLanes p).getLsbD l = true) :
    t.live.getLsbD l = true := by
  simp only [Troupe.pathLanes, BitVec.getLsbD_and, Bool.and_eq_true] at h
  exact h.1.1

/-! ### Troupes and paths found after a change -/

theorem State.troupe?_id {s : State} {id : Nat} {t : Troupe} (h : s.troupe? id = some t) : t.id = id := by
  simpa using List.find?_some h

theorem State.troupe?_modTroupe_same {s : State} {id : Nat} {t : Troupe} (f : Troupe → Troupe)
    (h : s.troupe? id = some t) (hf : (f t).id = t.id) : (s.modTroupe id f).troupe? id = some (f t) := by
  simp only [State.troupe?, State.modTroupe] at h ⊢
  generalize s.troupes = ts at h
  induction ts with
  | nil => simp at h
  | cons u us ih =>
    simp only [List.find?_cons] at h
    simp only [List.map_cons, List.find?_cons]
    by_cases hu : u.id = id
    · have : u = t := by simpa [hu] using h
      subst this
      simp [hu, hf]
    · simp only [hu, if_false]
      have : (u.id == id) = false := by simpa using hu
      rw [this] at h ⊢
      exact ih h

theorem State.troupe?_modTroupe_other {s : State} {id j : Nat} (f : Troupe → Troupe) (hj : j ≠ id)
    (hf : ∀ t, t.id = id → (f t).id = t.id) : (s.modTroupe id f).troupe? j = s.troupe? j := by
  simp only [State.troupe?, State.modTroupe]
  generalize s.troupes = ts
  induction ts with
  | nil => rfl
  | cons u us ih =>
    simp only [List.map_cons, List.find?_cons]
    by_cases hu : u.id = id
    · have h1 : ((f u).id == j) = false := by rw [hf u hu, hu]; simpa using Ne.symm hj
      have h2 : (u.id == j) = false := by rw [hu]; simpa using Ne.symm hj
      rw [if_pos hu, h1, h2]; exact ih
    · simp [hu, ih]

theorem Troupe.path?_sel {t : Troupe} {r : PathSel} {p : Path} (h : t.path? r = some p) : p.sel = r := by
  simpa using List.find?_some h

theorem Troupe.path?_modPath_same {t : Troupe} {r : PathSel} {p : Path} (f : Path → Path)
    (h : t.path? r = some p) (hf : (f p).sel = p.sel) : (t.modPath r f).path? r = some (f p) := by
  simp only [Troupe.path?, Troupe.modPath] at h ⊢
  generalize t.paths = ps at h
  induction ps with
  | nil => simp at h
  | cons u us ih =>
    simp only [List.find?_cons] at h
    simp only [List.map_cons, List.find?_cons]
    by_cases hu : u.sel = r
    · have : u = p := by simpa [hu] using h
      subst this
      simp [hu, hf]
    · simp only [hu, if_false]
      have : (u.sel == r) = false := by simpa using hu
      rw [this] at h ⊢
      exact ih h

theorem Troupe.path?_modPath_other {t : Troupe} {r q : PathSel} (f : Path → Path) (hq : q ≠ r)
    (hf : ∀ p, p.sel = r → (f p).sel = p.sel) : (t.modPath r f).path? q = t.path? q := by
  simp only [Troupe.path?, Troupe.modPath]
  generalize t.paths = ps
  induction ps with
  | nil => rfl
  | cons u us ih =>
    simp only [List.map_cons, List.find?_cons]
    by_cases hu : u.sel = r
    · have h1 : ((f u).sel == q) = false := by rw [hf u hu, hu]; simpa using Ne.symm hq
      have h2 : (u.sel == q) = false := by rw [hu]; simpa using Ne.symm hq
      rw [if_pos hu, h1, h2]; exact ih
    · simp [hu, ih]

theorem Troupe.path?_of_paths_eq {t u : Troupe} (h : t.paths = u.paths) (r : PathSel) : t.path? r = u.path? r := by
  simp [Troupe.path?, h]

/-! ### The checks before an effect -/

theorem State.issuer_of_issues {s : State} {t : Troupe} {p : Path} (h : s.Issues t p) :
    s.issuer = some (refOf t p, t, p) := by
  obtain ⟨hc, ht, hp, hr⟩ := h
  simp [State.issuer, hc, refOf, ht, hp, hr]

theorem gateOn_of_passes {t : Troupe} {p : Path} {x : Ins} {u : Use} {act : Word} (h : Passes t p x u act) :
    gateOn t p (t.pathLanes p) x u = .go t p act 0 := by
  obtain ⟨hb, ha, h0, hi, he, hc, hp, hu⟩ := h
  have hx : (namesExt x u && !t.holdsExt) = false := by
    cases hn : namesExt x u
    · rfl
    · simp [he hn]
  have hm : act &&& ~~~(0 : Word) = act := by
    rw [show ~~~(0 : Word) = BitVec.allOnes 32 by decide, BitVec.and_allOnes]
  simp only [gateOn, hb, ha, h0, hi, hx, hc, hp, hu]
  simpa using hm

theorem State.gate_of_passes {s : State} {t : Troupe} {p : Path} {x : Ins} {u : Use} {act : Word}
    (hs : s.Issues t p) (h : Passes t p x u act) : s.gate x u = .go t p act 0 := by
  simp only [State.gate, State.issuer_of_issues hs]
  exact gateOn_of_passes h

/-- An instruction with its own effect `f`, where the checks pass. -/
theorem runWord_of_passes {s : State} {t : Troupe} {p : Path} {x : Ins} {u : Use} {act : Word}
    (f : State → Troupe → Path → Word → State) (hs : s.Issues t p) (h : Passes t p x u act) :
    runWord x u s f = .next ((f (s.start t p x u) t p act).finish (refOf t p) 0) := by
  simp [runWord, State.gate_of_passes hs h]

theorem runEff_of_passes {s : State} {t : Troupe} {p : Path} {x : Ins} {u : Use} {act : Word}
    (f : State → Troupe → Path → Word → Eff) {s' : State} (hs : s.Issues t p) (h : Passes t p x u act)
    (hf : f (s.start t p x u) t p act = .done s' []) :
    runEff x u s f = .next (s'.finish (refOf t p) 0) := by
  simp [runEff, State.gate_of_passes hs h, hf, State.finish]

/-- With no poisoned lane an instruction ends by going on. -/
theorem State.finish_zero {s : State} {r : PathRef} {t : Troupe} {p : Path} (ht : s.troupe? r.troupe = some t)
    (hp : t.path? r.sel = some p) : s.finish r 0 = s.advance r := by
  simp [State.finish, State.faultWord, ht, hp, show faultAll (0#32) 0x12 0 = [] from faultAll_zero _ _]

/-! ### The start of an issue -/

/-- The troupe after the start of an issue. -/
def Troupe.started (t : Troupe) (p : Path) (x : Ins) (u : Use) (now : Nat) : Troupe :=
  (t.markErrors (t.pathLanes p) x u (t.guarded (t.pathLanes p) x)).modPath p.sel fun q => q.issued now x

/-- Nothing has changed but the event counters and the error logs of the dies. -/
abbrev State.Logged (s s' : State) : Prop :=
  s' = { s with dies := s'.dies } ∧ s'.dies.length = s.dies.length ∧
    ∀ d, s'.die d = { s.die d with ev := (s'.die d).ev, errlog := (s'.die d).errlog }

theorem State.Logged.refl (s : State) : s.Logged s := ⟨rfl, rfl, fun _ => rfl⟩

theorem State.Logged.trans {a b c : State} (h : a.Logged b) (k : b.Logged c) : a.Logged c :=
  ⟨by rw [k.1, h.1], k.2.1.trans h.2.1, fun d => by rw [k.2.2 d, h.2.2 d]⟩

theorem State.Logged.troupe? {s s' : State} (h : s.Logged s') (id : Nat) : s'.troupe? id = s.troupe? id := by
  rw [State.troupe?, h.1, State.troupe?]

theorem lget_lmod {α : Type} (z : α) (f : α → α) (xs : List α) (k l : Nat) :
    lget z (lmod f xs k) l = if l = k ∧ k < xs.length then f (lget z xs l) else lget z xs l := by
  induction xs generalizing k l with
  | nil => simp [lmod, lget]
  | cons x xs ih => cases k <;> cases l <;> simp [lmod, lget, ih]

theorem lmod_length {α : Type} (f : α → α) (xs : List α) (k : Nat) : (lmod f xs k).length = xs.length := by
  induction xs generalizing k with
  | nil => rfl
  | cons x xs ih => cases k <;> simp [lmod, ih]

theorem State.die_modDie (s : State) (a d : Nat) (f : Die → Die) :
    (s.modDie a f).die d = if d = a ∧ a < s.dies.length then f (s.die d) else s.die d := by
  simp only [State.die, State.modDie, lget_lmod]

/-- A change of a die's counters and log alone. -/
theorem State.modDie_logged (s : State) (a : Nat) (f : Die → Die)
    (hf : ∀ D, f D = { D with ev := (f D).ev, errlog := (f D).errlog }) : s.Logged (s.modDie a f) := by
  refine ⟨rfl, lmod_length _ _ _, fun d => ?_⟩
  rw [State.die_modDie]
  split
  · exact hf _
  · rfl

theorem State.countDie_logged (s : State) (a k n : Nat) : s.Logged (s.countDie a k n) :=
  s.modDie_logged a _ fun _ => rfl

theorem State.logError_logged (s : State) (d c a : Nat) : s.Logged (s.logError d c a) :=
  (s.countDie_logged d 0x4B 1).trans (State.modDie_logged _ d _ fun _ => rfl)

theorem State.logOutside_logged (s : State) (t : Troupe) (p : Path) (n : Nat) : s.Logged (s.logOutside t p n) := by
  induction n generalizing s with
  | zero => exact .refl s
  | succ n ih => exact ((s.logError_logged _ _ _).trans (State.countDie_logged _ _ _ _)).trans (ih _)

theorem State.logInside_logged (s : State) (t : Troupe) (p : Path) (n : Nat) : s.Logged (s.logInside t p n) := by
  induction n generalizing s with
  | zero => exact .refl s
  | succ n ih => exact (s.logError_logged _ _ _).trans (ih _)

/-- The start of an issue: the issuing troupe, and counters and logs. -/
theorem State.start_logged (s : State) (t : Troupe) (p : Path) (x : Ins) (u : Use) :
    (s.modTroupe t.id fun t' => (t'.markErrors (t.pathLanes p) x u (t.guarded (t.pathLanes p) x)).modPath p.sel fun q =>
      q.issued s.now x).Logged (s.start t p x u) :=
  (State.logOutside_logged _ t p _).trans (State.logInside_logged _ t p _)

theorem State.start_troupe? {s : State} {t : Troupe} (p : Path) (x : Ins) (u : Use)
    (ht : s.troupe? t.id = some t) : (s.start t p x u).troupe? t.id = some (t.started p x u s.now) := by
  rw [(s.start_logged t p x u).troupe?]
  exact State.troupe?_modTroupe_same _ ht rfl

theorem State.start_other {s : State} (t : Troupe) (p : Path) (x : Ins) (u : Use) {j : Nat} (hj : j ≠ t.id) :
    (s.start t p x u).troupe? j = s.troupe? j := by
  rw [(s.start_logged t p x u).troupe?]
  exact State.troupe?_modTroupe_other _ hj fun _ _ => rfl

/-- The start of an issue changes the issuing troupe, and event counters and error logs. -/
theorem State.start_same (s : State) (t : Troupe) (p : Path) (x : Ins) (u : Use) :
    s.start t p x u = { s with troupes := (s.start t p x u).troupes, dies := (s.start t p x u).dies } ∧
      ∀ d, (s.start t p x u).die d =
        { s.die d with ev := ((s.start t p x u).die d).ev, errlog := ((s.start t p x u).die d).errlog } := by
  have h := s.start_logged t p x u
  refine ⟨?_, fun d => h.2.2 d⟩
  rw [h.1]
  rfl

/-! ### Instructions whose effect is a write of registers -/

theorem Troupe.started_lanes (t : Troupe) (p : Path) (x : Ins) (u : Use) (now : Nat) :
    (t.started p x u now).lanes = (t.markErrors (t.pathLanes p) x u (t.guarded (t.pathLanes p) x)).lanes := rfl

@[simp] theorem Troupe.reg_started (t : Troupe) (p : Path) (x : Ins) (u : Use) (now l q : Nat) :
    (t.started p x u now).reg l q = t.reg l q :=
  t.reg_markErrors _ x u _ l q

/-- The end of a handler path keeps the lanes. -/
theorem Troupe.rejoin_lanes (t : Troupe) (k : Nat) : (t.rejoin k).lanes = t.lanes := by
  unfold Troupe.rejoin
  split <;> rfl

theorem Troupe.rejoin_id (t : Troupe) (k : Nat) : (t.rejoin k).id = t.id := by
  unfold Troupe.rejoin
  split <;> rfl

theorem Troupe.settleBranch_lanes (t : Troupe) (n : Nat) (o : Origin) : (t.settleBranch n o).lanes = t.lanes := by
  unfold Troupe.settleBranch
  split
  · rfl
  · split <;> rfl

theorem Troupe.settleBranch_id (t : Troupe) (n : Nat) (o : Origin) : (t.settleBranch n o).id = t.id := by
  unfold Troupe.settleBranch
  split
  · rfl
  · split <;> rfl

theorem Troupe.endHandler_lanes (t : Troupe) (k : Nat) : (t.endHandler k).lanes = t.lanes := by
  unfold Troupe.endHandler
  split
  · rfl
  · rw [Troupe.settleBranch_lanes, Troupe.rejoin_lanes]

theorem Troupe.endHandler_id (t : Troupe) (k : Nat) : (t.endHandler k).id = t.id := by
  unfold Troupe.endHandler
  split
  · rfl
  · rw [Troupe.settleBranch_id, Troupe.rejoin_id]

theorem Troupe.advance_lanes (t : Troupe) (r : PathSel) : (t.advance r).lanes = t.lanes := by
  unfold Troupe.advance
  split
  · rfl
  · split
    · split
      · exact t.endHandler_lanes _
      · rfl
    · rfl

theorem Troupe.advance_id (t : Troupe) (r : PathSel) : (t.advance r).id = t.id := by
  unfold Troupe.advance
  split
  · rfl
  · split
    · split
      · exact t.endHandler_id _
      · rfl
    · rfl

/-- A path that executes no instruction again goes to the next word. -/
theorem Troupe.advance_next {t : Troupe} {r : PathSel} {p : Path} (h : t.path? r = some p) (hr : p.retry = false) :
    t.advance r = t.modPath r Path.next := by
  unfold Troupe.advance
  rw [h]
  simp only
  split
  · rw [hr]; rfl
  · rfl

/-- An instruction whose effect is a write of registers in active(i) completes so. -/
theorem results_of_writes {i : Instr} {x : Ins} {u : Use} {pre : State → Troupe → Path → Word → Prop}
    {res : State → Troupe → Path → Word → Nat → List (Nat × Word)}
    (hi : ∀ s t p act, s.Issues t p → Passes t p x u act → pre s t p act →
      exec i s = .next (((s.start t p x u).writeLanes t.id act (res s t p act)).finish (refOf t p) 0)) :
    Results i x u pre res := by
  intro s t p act hs hp hpre
  obtain ⟨hc, ht, hpp, hrun⟩ := id hs
  have hlt : ∀ l, act.getLsbD l = true → l < t.lanes.length := by
    intro l hl
    rw [← hp.2.1] at hl
    exact t.live_lt l (t.pathLanes_live p l (t.guarded_subset _ x l hl))
  -- the troupe after the start, after the write, and at the end
  have h1 := State.start_troupe? p x u ht
  have h2 : ((s.start t p x u).writeLanes t.id act (res s t p act)).troupe? t.id =
      some ((t.started p x u s.now).writeLanes act (res s t p act)) :=
    State.troupe?_modTroupe_same _ h1 rfl
  have hpath : ((t.started p x u s.now).writeLanes act (res s t p act)).path? p.sel = some (p.issued s.now x) :=
    Troupe.path?_modPath_same (t := t.markErrors (t.pathLanes p) x u (t.guarded (t.pathLanes p) x)) (fun q => q.issued s.now x) hpp rfl
  have h3 := State.finish_zero (s := (s.start t p x u).writeLanes t.id act (res s t p act)) (r := refOf t p) h2 hpath
  have h4 : (((s.start t p x u).writeLanes t.id act (res s t p act)).advance (refOf t p)).troupe? t.id =
      some (((t.started p x u s.now).writeLanes act (res s t p act)).advance p.sel) :=
    State.troupe?_modTroupe_same (fun t => t.advance p.sel) h2 (Troupe.advance_id _ _)
  refine ⟨_, _, by rw [hi s t p act hs hp hpre, h3], h4, ?_, ?_, ?_, ?_⟩
  · intro l q
    rw [Troupe.reg, Troupe.lane, Troupe.advance_lanes]
    have := Troupe.reg_writeLanes (t.started p x u s.now) act (res s t p act) l q
      (fun h => by rw [Troupe.started_lanes, Troupe.length_markErrors]; exact hlt l h)
    rw [Troupe.reg_started] at this
    exact this
  · intro l
    simp only [Troupe.lane, Troupe.advance_lanes]
    exact Lane.sameBut_trans (t.lane_markErrors _ x u _ l).1
      (Troupe.writeLanes_sameBut (t.started p x u s.now) act (res s t p act) l)
  · intro hr
    rw [Troupe.advance_next hpath hr]
    refine ⟨rfl, Troupe.path?_modPath_same _ hpath rfl, fun q hq => ?_⟩
    rw [Troupe.path?_modPath_other Path.next hq fun _ _ => rfl]
    exact Troupe.path?_modPath_other (t := t.markErrors (t.pathLanes p) x u (t.guarded (t.pathLanes p) x))
      (fun v => v.issued s.now x) hq fun _ _ => rfl
  · refine ⟨?_, fun j hj => ?_, fun d => ?_⟩
    · have := (s.start_same t p x u).1
      simp only [State.advance, State.writeLanes, State.modTroupe] at this ⊢
      rw [this]
    · have h5 : (((s.start t p x u).writeLanes t.id act (res s t p act)).advance (refOf t p)).troupe? j =
          ((s.start t p x u).writeLanes t.id act (res s t p act)).troupe? j :=
        State.troupe?_modTroupe_other (id := t.id) (fun t => t.advance p.sel) hj fun u _ => Troupe.advance_id _ _
      have h6 : ((s.start t p x u).writeLanes t.id act (res s t p act)).troupe? j = (s.start t p x u).troupe? j :=
        State.troupe?_modTroupe_other (s := s.start t p x u) (id := t.id)
          (fun t' => t'.writeLanes act (res s t p act)) hj fun _ _ => rfl
      rw [h5, h6, State.start_other t p x u hj]
    · exact (s.start_same t p x u).2 d

/-- The same for an instruction whose lanes each read their own registers only. -/
theorem laneResults_of_runLanes {i : Instr} {x : Ins} {u : Use} {res : (Nat → Word) → List (Nat × Word)}
    (hi : ∀ s, exec i s = runLanes x u s res) : LaneResults i x u res :=
  results_of_writes fun s t p act hs hp _ => by
    rw [hi, runLanes, runWord_of_passes _ hs hp]

/-! ### What the checks of a target read -/

/-- Two states agree on all that the checks of a branch target read. -/
abbrev State.FetchesAs (s s' : State) : Prop :=
  s'.subs = s.subs ∧ s'.ens = s.ens ∧ s'.launches = s.launches ∧ s'.pool = s.pool ∧ s'.now = s.now ∧ (∀ d, (s'.die d).l2 = (s.die d).l2) ∧
    ∀ d c, (s'.core d c).icache = (s.core d c).icache

theorem State.core_modCore (s : State) (d c : Nat) (f : Core → Core) (a k : Nat) :
    (s.modCore d c f).core a k = if a = d ∧ d < s.dies.length ∧ k = c then f (s.core a k) else s.core a k := by
  simp only [State.core, State.modCore, State.die_modDie]
  by_cases h : a = d ∧ d < s.dies.length
  · rw [if_pos h, mget_mset]
    by_cases hk : k = c
    · simp [h, hk]
    · simp [hk]
  · rw [if_neg h, if_neg fun h' => h ⟨h'.1, h'.2.1⟩]

theorem State.checkTarget_congr {s s' : State} (h : s.FetchesAs s') (t : Troupe) (a : Int) :
    s'.checkTarget t a = s.checkTarget t a := by
  obtain ⟨h1, h2, h3, h4, h5, h6, h7⟩ := h
  have hl : ∀ d ln, s'.line? d ln = s.line? d ln := fun d c => by simp only [State.line?, h6 d]
  have hs : s'.sidOf t = s.sidOf t := by
    simp only [State.sidOf, State.launchOf, State.ens?, State.launch?, h2, h3]
  have htr : ∀ x y z, s'.translate x y z = s.translate x y z := fun x y z => by
    simp only [State.translate, State.page?, State.sub?, h1]
  have hcl : ∀ x y, s'.codeLine x y = s.codeLine x y := fun x y => by simp only [State.codeLine, hl, h4]
  have hsn : ∀ d c x y, s'.slotNow d c x y = s.slotNow d c x y := fun d c x y => by
    simp only [State.slotNow, h7, hcl]
  have htb : ∀ x y p, s'.targetByte t x y p = s.targetByte t x y p := fun x y p => by
    simp only [State.targetByte, h5, hsn]
  simp only [State.checkTarget, hs, htr, htb]

/-- A change of troupes alone leaves what the checks of a target read. -/
theorem State.modTroupe_fetchesAs (s : State) (id : Nat) (f : Troupe → Troupe) : s.FetchesAs (s.modTroupe id f) :=
  ⟨rfl, rfl, rfl, rfl, rfl, fun _ => rfl, fun _ _ => rfl⟩

theorem State.FetchesAs.trans {a b c : State} (h : a.FetchesAs b) (k : b.FetchesAs c) : a.FetchesAs c :=
  ⟨k.1.trans h.1, k.2.1.trans h.2.1, k.2.2.1.trans h.2.2.1, k.2.2.2.1.trans h.2.2.2.1,
    k.2.2.2.2.1.trans h.2.2.2.2.1, fun d => (k.2.2.2.2.2.1 d).trans (h.2.2.2.2.2.1 d),
    fun d c => (k.2.2.2.2.2.2 d c).trans (h.2.2.2.2.2.2 d c)⟩

theorem State.Logged.fetchesAs {s s' : State} (h : s.Logged s') : s.FetchesAs s' := by
  refine ⟨by rw [h.1], by rw [h.1], by rw [h.1], by rw [h.1], by rw [h.1], fun d => by rw [h.2.2 d], fun d c => ?_⟩
  rw [State.core, h.2.2 d]
  rfl

theorem State.countCore_fetchesAs (s : State) (a b k n : Nat) : s.FetchesAs (s.countCore a b k n) := by
  refine ⟨rfl, rfl, rfl, rfl, rfl, fun d => ?_, fun d c => ?_⟩
  · rw [State.countCore, State.modCore, State.die_modDie]
    split <;> rfl
  · rw [State.countCore, State.core_modCore]
    split <;> rfl

theorem State.start_fetchesAs (s : State) (t : Troupe) (p : Path) (x : Ins) (u : Use) :
    s.FetchesAs (s.start t p x u) :=
  (s.modTroupe_fetchesAs _ _).trans (s.start_logged t p x u).fetchesAs

end Sys2Proof.Machine
end

