-- ==== Sys2Proof/Laws/Control.lean ====
section
/-! SUPPORT. What the control instructions do: branches that move a path whole. -/

namespace Sys2Proof.Machine

/-! ### What changes no troupe -/

@[simp] theorem State.countDie_troupes (s : State) (d k n : Nat) : (s.countDie d k n).troupes = s.troupes := rfl
@[simp] theorem State.modCore_troupes (s : State) (d c : Nat) (f : Core → Core) :
    (s.modCore d c f).troupes = s.troupes := rfl
@[simp] theorem State.putLine_troupes (s : State) (d ln : Nat) (l : L2Line) : (s.putLine d ln l).troupes = s.troupes := rfl
@[simp] theorem State.delLine_troupes (s : State) (d ln : Nat) : (s.delLine d ln).troupes = s.troupes := rfl
@[simp] theorem State.sendOpen_troupes (s : State) (d ln : Nat) (l : L2Line) :
    (s.sendOpen d ln l).troupes = s.troupes := rfl
@[simp] theorem State.askCxl_troupes (s : State) (d ln : Nat) (k : CxlReq) (w : Asker) (keep : Bool) :
    (s.askCxl d ln k w keep).troupes = s.troupes := rfl
@[simp] theorem State.ask_troupes (s : State) (d ln : Nat) (k : CxlReq) (w : Asker) (keep : Bool) :
    (s.ask d ln k w keep).troupes = s.troupes := by
  unfold State.ask
  split <;> rfl
@[simp] theorem State.holdFill_troupes (s : State) (d ln : Nat) (w : Asker) : (s.holdFill d ln w).troupes = s.troupes := by
  unfold State.holdFill
  split <;> rfl
@[simp] theorem State.writeBack_troupes (s : State) (d ln : Nat) : (s.writeBack d ln).troupes = s.troupes := by
  unfold State.writeBack
  split
  · rfl
  · split <;> rfl
@[simp] theorem State.takes_troupes (s : State) (p : Spot) (k : Nat) : (s.takes p k).troupes = s.troupes := by
  unfold State.takes
  split
  · rfl
  · split <;> rfl

@[simp] theorem State.sendChan_troupes (s : State) (a b : Nat) (r : ChanReq) (k : Nat) :
    (s.sendChan a b r k).troupes = s.troupes := by
  unfold State.sendChan
  simp only
  split
  · rfl
  · exact s.takes_troupes _ _
@[simp] theorem State.leaveNC_troupes (s : State) (h ln : Nat) (l : L2Line) : (s.leaveNC h ln l).troupes = s.troupes := by
  unfold State.leaveNC
  split <;> rfl

/-- A line that leaves with its asker changes no troupe. -/
@[simp] theorem State.dropOnce_troupes (s : State) (h ln : Nat) (w : Asker) (wb : Bool) :
    (s.dropOnce h ln w wb).troupes = s.troupes := by
  unfold State.dropOnce
  cases s.line? h ln with
  | none => rfl
  | some l =>
    simp only
    split
    · split <;> simp
    · rfl

/-- A read of a line that finds it changes no troupe. -/
theorem State.lineRead_ready {s s' : State} {d ln : Nat} {coh keep : Bool} {os : List Nat} {w : Asker} {l : L2Line}
    (h : s.lineRead d ln coh os w keep = .ready s' l) : s'.troupes = s.troupes := by
  unfold State.lineRead at h
  cases hl : s.line? d ln with
  | some l =>
    simp only [hl] at h
    split at h
    · cases h
    · split at h
      · cases h
      · cases h; rfl
  | none =>
    simp only [hl] at h
    split at h
    · cases h
    · split at h
      · cases h
      · split at h
        · cases h
        · split at h
          · cases h
          · cases h
            cases keep <;> rfl

/-- A read of a line that waits for it changes no troupe. -/
theorem State.lineRead_waits {s s' : State} {d ln : Nat} {coh keep : Bool} {os : List Nat} {w : Asker}
    (h : s.lineRead d ln coh os w keep = .waits s') : s'.troupes = s.troupes := by
  unfold State.lineRead at h
  cases hl : s.line? d ln with
  | some l =>
    simp only [hl] at h
    split at h
    · cases h; rfl
    · split at h
      · cases h; exact s.ask_troupes ..
      · cases h
  | none =>
    simp only [hl] at h
    split at h
    · cases h; rfl
    · split at h
      · cases h
      · split at h
        · cases h; exact s.holdFill_troupes ..
        · split at h
          · cases h; exact s.ask_troupes ..
          · cases h

/-- A code line read at its slice changes no troupe. -/
@[simp] theorem State.readCode_troupes (s : State) (who : Asker) (d c h ln : Nat) (coh : Bool) :
    (s.readCode who d c h ln coh).1.troupes = s.troupes := by
  unfold State.readCode
  cases hr : s.lineRead h ln coh (lineOffs 0 128) who true with
  | ready s' l => simpa [State.putCode] using State.lineRead_ready hr
  | waits s' => exact State.lineRead_waits hr
  | dead => rfl

/-- A fill of an instruction cache changes no troupe. -/
@[simp] theorem State.fillCode_troupes (s : State) (who : Asker) (d c h pa : Nat) (coh : Bool) :
    (s.fillCode who d c h pa coh).1.troupes = s.troupes := by
  unfold State.fillCode
  split
  · rfl
  · split <;> simp

@[simp] theorem State.touchFetch_troupes (s : State) (t : Troupe) (a : Nat) : (s.touchFetch t a).troupes = s.troupes := by
  unfold State.touchFetch State.touchPage
  cases s.page? (s.sidOf t) a with
  | none => rfl
  | some e =>
    simp only
    split <;> split <;> simp [State.modPage]

/-- A fetch changes caches and the homes of pages alone. -/
theorem State.fetchSlot_troupes (s : State) (t : Troupe) (who : Asker) (a : Nat) :
    (s.fetchSlot t who a).troupes = s.troupes := by
  unfold State.fetchSlot
  cases s.translate (s.sidOf t) t.die a <;> simp

/-- An instruction that runs as a branch is one. -/
theorem jumps_of_runBranch {i : Instr} {x : Ins} {u : Use} {link : Bool} {tgt : Troupe → Path → Word → Option Int}
    (ret : Bool) (hi : ∀ s, exec i s = runBranch x u s link ret tgt) : Jumps i x u link tgt := by
  intro s t p act hs hp hpre
  rw [hi]
  obtain ⟨hr, hck⟩ := hpre
  obtain ⟨hc, ht, hpp, hrun⟩ := id hs
  have hlt : ∀ l, act.getLsbD l = true → l < t.lanes.length := by
    intro l hl
    rw [← hp.2.1] at hl
    exact t.live_lt l (t.pathLanes_live p l (t.guarded_subset _ x l hl))
  have hw : ((tgt t p act).bind fun a => s.targetWaits t (.path (refOf t p)) a) = none := by
    cases hg : tgt t p act with
    | none => rfl
    | some a => exact (hck a hg).2
  let s0 := if ret then (s.start t p x u).countCore t.die t.core 0x0E 1 else s.start t p x u
  have hx : runBranch x u s link ret tgt = (
      let s := if link then s0.writeLanes t.id act fun _ => wr2 x.d (BitVec.ofNat 64 (p.pc + 16)) else s0
      match tgt t p act with
        | none => .next (s.advance (refOf t p))
        | some a => .next (s.branchTo t p a act)) := by
    rw [runBranch, State.gate_of_passes hs hp]
    simp only [hr]
    rw [branchOn, State.gate_of_passes hs hp]
    simp only
    rw [if_neg (by simp), hw]
    rfl
  -- the troupe after the link is written
  have h1 : s0.troupe? t.id = some (t.started p x u s.now) := by
    have := State.start_troupe? p x u ht
    simp only [s0]; split <;> exact this
  have hf0 : s.FetchesAs s0 := by
    simp only [s0]
    split
    · exact (s.start_fetchesAs t p x u).trans (State.countCore_fetchesAs _ _ _ _ _)
    · exact s.start_fetchesAs t p x u
  let t2 : Troupe := if link then (t.started p x u s.now).writeLanes act fun _ => wr2 x.d (BitVec.ofNat 64 (p.pc + 16)) else t.started p x u s.now
  have h2 : (if link then s0.writeLanes t.id act fun _ => wr2 x.d (BitVec.ofNat 64 (p.pc + 16)) else s0).troupe? t.id = some t2 := by
    by_cases hl : link
    · simp only [hl, if_true, t2]; exact State.troupe?_modTroupe_same _ h1 rfl
    · simp only [hl, if_false, t2]; exact h1
  have hid : t2.id = t.id := by simp only [t2]; split <;> rfl
  have hf : s.FetchesAs (if link then s0.writeLanes t.id act fun _ => wr2 x.d (BitVec.ofNat 64 (p.pc + 16)) else s0) := by
    split
    · exact hf0.trans (State.modTroupe_fetchesAs _ _ _)
    · exact hf0
  have hpath : t2.path? p.sel = some (p.issued s.now x) := by
    have : (t.started p x u s.now).path? p.sel = some (p.issued s.now x) :=
      Troupe.path?_modPath_same (t := t.markErrors (t.pathLanes p) x u (t.guarded (t.pathLanes p) x)) (fun q => q.issued s.now x) hpp rfl
    simp only [t2]; split <;> exact this
  have hother : t.OtherPaths t2 p.sel := by
    intro q hq
    have : (t.started p x u s.now).path? q = t.path? q := Troupe.path?_modPath_other (t := t.markErrors (t.pathLanes p) x u (t.guarded (t.pathLanes p) x))
      (fun v => v.issued s.now x) hq fun _ _ => rfl
    simp only [t2]; split <;> exact this
  have hregs : ∀ l r, t2.reg l r = if r = 511 then 0 else if (link && act.getLsbD l) = true then
        regAfter (wr2 x.d (BitVec.ofNat 64 (p.pc + 16))) r (t.reg l r) else t.reg l r := by
    intro l r
    by_cases hl : link
    · simp only [t2, hl, if_true, Bool.true_and]
      have := Troupe.reg_writeLanes (t.started p x u s.now) act (fun _ => wr2 x.d (BitVec.ofNat 64 (p.pc + 16))) l r
        (fun h => by rw [Troupe.started_lanes, Troupe.length_markErrors]; exact hlt l h)
      rw [Troupe.reg_started] at this
      exact this
    · simp only [t2, hl, Bool.false_and]
      by_cases h : r = 511 <;> simp [h]
  have hsame : ∀ l, (t.lane l).SameBut (t2.lane l) := by
    intro l
    by_cases hl : link
    · simp only [t2, hl, if_true]
      exact Lane.sameBut_trans (t.lane_markErrors _ x u _ l).1 (Troupe.writeLanes_sameBut (t.started p x u s.now) act _ l)
    · simp only [t2, hl]
      exact (t.lane_markErrors _ x u _ l).1
  rw [hx]
  simp only
  generalize (if link then s0.writeLanes t.id act fun _ => wr2 x.d (BitVec.ofNat 64 (p.pc + 16)) else s0) = s2 at *
  clear_value t2
  cases hg : tgt t p act with
  | none =>
    have h4 : (s2.advance (refOf t p)).troupe? t.id = some (t2.advance p.sel) :=
      State.troupe?_modTroupe_same (fun t => t.advance p.sel) h2 (Troupe.advance_id _ _)
    have hadv : t2.advance p.sel = t2.modPath p.sel Path.next := Troupe.advance_next hpath hr
    refine ⟨_, _, rfl, h4, (p.issued s.now x).next, ?_, rfl, rfl, rfl, ?_, ?_, ?_⟩
    · rw [hadv]; exact Troupe.path?_modPath_same _ hpath rfl
    · intro q hq; rw [hadv, Troupe.path?_modPath_other Path.next hq fun _ _ => rfl]; exact hother q hq
    · rw [hadv]; exact hregs
    · rw [hadv]; exact hsame
  | some a =>
    have hok := (hck a hg).1
    have hok2 : s2.checkTarget t a = .ok := by rw [State.checkTarget_congr hf]; exact hok
    have ha : 0 ≤ a := by
      simp only [State.checkTarget] at hok
      split at hok
      · cases hok
      · split at hok
        · cases hok
        · omega
    have hb : s2.branchTo t p a act = (s2.fetchSlot t (.path (refOf t p)) a.toNat).modPath (refOf t p) fun p => p.goto a.toNat := by
      simp only [State.branchTo, hok2]
    have h3 : (s2.fetchSlot t (.path (refOf t p)) a.toNat).troupe? t.id = some t2 := by
      simp only [State.troupe?, State.fetchSlot_troupes] at h2 ⊢; exact h2
    refine ⟨_, _, congrArg _ hb, State.troupe?_modTroupe_same (fun t => t.modPath p.sel fun p => p.goto a.toNat) h3 rfl, (p.issued s.now x).goto a.toNat, ?_, ⟨?_, rfl⟩, rfl, rfl, ?_, hregs, hsame⟩
    · exact Troupe.path?_modPath_same _ hpath rfl
    · simp [Path.goto]; omega
    · intro q hq; rw [Troupe.path?_modPath_other (fun p => p.goto a.toNat) hq fun _ _ => rfl]; exact hother q hq
end Sys2Proof.Machine
end

