-- ==== Sys2Proof/Tests/Slice0.lean ====
section
/-! SUPPORT. Tests of one step each, on states built by the helpers below, with the expected values of the spec's
own examples and tables; and, for every statement of Certificates/Slice0/Obligations.lean that has hypotheses, a
state and operands that meet them (`test_meets_…`), clause by clause where a statement has several. -/

open Sys2Proof Sys2Proof.Machine

namespace Test

set_option maxRecDepth 100000
set_option synthInstance.maxSize 2000
set_option synthInstance.maxHeartbeats 200000
set_option Elab.async false

/-! ### States -/

/-- The device after reset with one troupe of 32 Live lanes that issues from a block (log 3). -/
def s0 : State := { State.reset.placeWord 0 with agenda := [], cur := some { troupe := 1, sel := .ord 0 } }

/-- Its troupe. -/
def t0 : Troupe := wordTroupe 1 2 0

/-- Its path. -/
def p0 : Machine.Path :=
  { sel := .ord 0, home := 0, origin := .slot, slices := 0xFF, pc := wordPage + 16, last := wordPage,
    blk := some { hdr := wordPage, len := 1, rcv := 0 }, waiting := [], stack := [], stamp := 0, waitCnt := 0,
    aged := false, stall := 0, wait := .none, ibuf := none, again := 0, retry := false, rdPass := 0, rdShared := [],
    marks := [], strongReads := [], reads := [], wrote := [] }

/-- A troupe in the place of t0. -/
def sT (t : Troupe) : State := s0.modTroupe 1 fun _ => t

/-- t0 with registers: `f l` are those of lane l. -/
def tR (f : Nat → List (Nat × Word)) : Troupe :=
  { t0 with lanes := (lenum t0.lanes).map fun (e : Nat × Lane) => { e.2 with regs := f e.1 } }

/-- The register r of lane l after an instruction. -/
def after (s : State) (i : Instr) (l r : Nat) : Option Word :=
  match exec i s with
  | .next s' => (s'.troupe? 1).map fun t => t.reg l r
  | _ => none

/-- The state after an instruction. -/
def next (i : Instr) (s : State) : State :=
  match exec i s with
  | .next s' => s'
  | _ => State.reset

/-- The troupe after an instruction. -/
def nextT (i : Instr) (s : State) : Troupe := ((next i s).troupe? 1).getD t0

/-- An instruction with D = 2, A = 4, B = 6, C = 8, E = 10. -/
def x0 : Ins := { Ins.plain .f00 2 4 0 with b := 6, c := 8, e := 10 }

/-! ### Decoding -/

/-- One word of every row of the control majors, laid out by R146–R151. -/
theorem test_decode_control : ∀ e ∈ ([
    (0x0000F800000001FFFFFF800004000001, .bra (Ins.plain .f01 0 0 0xfffffffe)),
    (0x00000000000000000001C0A00A000002, .brc (Ins.plain .f10 0 5 0x7) true),
    (0x000080000000000000002FE008000003, .brd (Ins.plain .f10 0 383 0x80000000)),
    (0x00000000000000000000004000000004, .jmpi (Ins.plain .f00 0 2 0) false),
    (0x00000000000000000000C00BE4000005, .call (Ins.plain .f01 190 0 0x3)),
    (0x0000000000000000000000C042000006, .calli (Ins.plain .f00 4 6 0) true),
    (0x0000000000000000000017C000000007, .ret (Ins.plain .f00 0 190 0) false),
    (0x00000000000000000000000000000008, .regang (Ins.plain .f00 0 0 0)),
    (0x00000000200406000000000000000009, .exit { Ins.plain .f00 0 0 0 with gc := .g0, g0 := 3, s0 := true }),
    (0x0000000000000000000300000400000A, .ipf (Ins.plain .f01 0 0 0xc)),
    (0x000000F000000000000000000000000B, .yield { Ins.plain .f00 0 0 0 with stl := 15 }),
    (0x0000070F80000000000000000000000C, .nop { Ins.plain .f00 0 0 0 with ch := 15, ru := 7, yld := true }),
    (0x0000000000000000000001200000000D, .maskset (Ins.plain .f00 0 9 0) false),
    (0x0000000000000000000000009000000E, .maskget (Ins.plain .f00 9 0 0)),
    (0x00000000000000000003C0001400000F, .bar (Ins.plain .f01 1 0 0xf)),
    (0x00000000000000000002000024000010, .bararv (Ins.plain .f01 2 0 0x8)),
    (0x00000000000000000001C0803A000011, .barwt (Ins.plain .f10 3 4 0x7) true),
    (0x00000000000000000000000000000012, .xacq (Ins.plain .f00 0 0 0)),
    (0x00000000000000000000000000000013, .xrel (Ins.plain .f00 0 0 0)),
    (0x00000000000000000004C00084000014, .idf (Ins.plain .f01 8 0 0x13)),
    (0x00000000000000000009000034000015, .movs (Ins.plain .f01 3 0 0x24)),
    (0x0000000000000000000440600A000016, .movsw (Ins.plain .f10 0 3 0x11) true),
    (0x0000D800000001AB6FBBC00004000017, .trap (Ins.plain .f01 0 0 0xdeadbeef)),
    (0x00000000000000000000000000000018, .bkpt (Ins.plain .f00 0 0 0)),
    (0x00000000000000000000400004000019, .tret (Ins.plain .f01 0 0 0x1)),
    (0x0000000000000000000080C05A00001A, .fwcall (Ins.plain .f10 5 6 0x2) true),
    (0x0000000000000000000280C00000001B, .savemark { Ins.plain .f00 0 6 0 with b := 10 }),
    (0x0000000000000000000000000000001C, .rxdone (Ins.plain .f00 0 0 0)),
    (0x0000000000000000000000000000001D, .entrydone (Ins.plain .f00 0 0 0)),
    (0x0000000000000000000000000000001E, .halt (Ins.plain .f00 0 0 0)),
    (0x00000000000000003FFFC0000400001F, .sleep (Ins.plain .f01 0 0 0xffff))
    ] : List (Nat × Instr)), decodeTableWord 128 e.1 = some e.2 := by decide

/-- One word of every row of the integer majors, laid out by R146–R151. -/
theorem test_decode_integer : ∀ e ∈ ([
    (0x0000F800000001FFFFFFC03FF8820020, .iadd (Ins.plain .f10 511 1 0xffffffff) .s32 true),
    (0x00000000000000000000C040100E0021, .isub { Ins.plain .f00 1 2 0 with b := 3 } .n16x2 false),
    (0x00000000000000000001808020070022, .imul { Ins.plain .f00 2 4 0 with b := 6 } .n64 false),
    (0x00000000000000000000C04010060023, .imulhi { Ins.plain .f00 1 2 0 with b := 3 } .n32),
    (0x00000000000000000401808020830024, .imad { Ins.plain .f00 2 4 0 with b := 6, c := 8 } .s64 true),
    (0x00000000000000000000C040100D0025, .imin { Ins.plain .f00 1 2 0 with b := 3 } .s16x2),
    (0x00000000000000000002404018060026, .imax (Ins.plain .f10 1 2 0x9) .n32),
    (0x00000000000000000000004010820027, .iabs (Ins.plain .f00 1 2 0) .s32 true),
    (0x00000000000000000000008020030028, .ineg (Ins.plain .f00 2 4 0) .s64 false),
    (0x00000000000000000200C04010060029, .isad { Ins.plain .f00 1 2 0 with b := 3, c := 4 } .n32 false),
    (0x00000000000000000280C0408006002A, .iaddc { Ins.plain .f00 8 2 0 with b := 3, c := 5 } .n32),
    (0x00000000000000000280C0408006002B, .isubb { Ins.plain .f00 8 2 0 with b := 3, c := 5 } .n32),
    (0x000000000000000000004040380A002C, .and (Ins.plain .f10 3 2 0x1) .b32),
    (0x000000000000000000018080200B002D, .or { Ins.plain .f00 2 4 0 with b := 6 } .b64),
    (0x00000000000000000000C040100A002E, .xor { Ins.plain .f00 1 2 0 with b := 3 } .b32),
    (0x000000000000000000018080200B002F, .andn { Ins.plain .f00 2 4 0 with b := 6 } .b64),
    (0x000000000000000000000040100A0030, .not (Ins.plain .f00 1 2 0) .b32),
    (0x00000000000000000007C040180A0031, .shl (Ins.plain .f10 1 2 0x1f) .b32),
    (0x000000000000000000018080200B0032, .shrl { Ins.plain .f00 2 4 0 with b := 6 } .b64),
    (0x0000000000000000000FC08028030033, .shra (Ins.plain .f10 2 4 0x3f) .s64),
    (0x00000000000000000000C040100A0034, .rotl { Ins.plain .f00 1 2 0 with b := 3 } .b32),
    (0x00000000000000000201004018020035, .bfx (Ins.plain .f10 1 2 0x804) .s32),
    (0x00000000000000000200C040100A0036, .bfi { Ins.plain .f00 1 2 0 with b := 3, c := 4 } .b32),
    (0x000000000000000000000040100B0037, .popc (Ins.plain .f00 1 2 0) .b64),
    (0x000000000000000000000040100A0038, .clz (Ins.plain .f00 1 2 0) .b32),
    (0x000000000000000000000040100B0039, .ctz (Ins.plain .f00 1 2 0) .b64),
    (0x000000000000000000000080200B003A, .brev (Ins.plain .f00 2 4 0) .b64),
    (0x00000000000000000200C0401000003B, .prmb { Ins.plain .f00 1 2 0 with b := 3, c := 4 }),
    (0x0000000000000000000100401007053C, .icmp { Ins.plain .f00 1 2 0 with b := 4 } .n64 .ge),
    (0x00000000000000000200C040100A003D, .sel { Ins.plain .f00 1 2 0 with b := 3, c := 4 } .b32)
    ] : List (Nat × Instr)), decodeTableWord 128 e.1 = some e.2 := by decide

/-- One word of every row of the address majors, laid out by R146–R151. -/
theorem test_decode_address : ∀ e ∈ ([
    (0x00000000000000000200C0401000003E, .lea { Ins.plain .f00 1 2 0 with b := 3, c := 4 }),
    (0x00000000000000000001C1C08006003F, .addw { Ins.plain .f00 8 14 0 with b := 7 } .n32),
    (0x0000800000000000000001C088020040, .subw (Ins.plain .f10 8 14 0x80000000) .s32),
    (0x00000000000000000000C08028000041, .shlw (Ins.plain .f10 2 4 0x3)),
    (0x00000000000000000001408020020042, .mulw { Ins.plain .f00 2 4 0 with b := 5 } .s32),
    (0x00000000000000000381808020060043, .leaw { Ins.plain .f00 2 4 0 with b := 6, c := 7 } .n32),
    (0x00000000000000000200C04010840044, .dot4 { Ins.plain .f00 1 2 0 with b := 3, c := 4 } .n8 true),
    (0x000000000000000000000057E00B0045, .mov (Ins.plain .f00 382 2 0) .b64),
    (0x0000F800000001FFFFFFC000C4000046, .movi (Ins.plain .f01 12 0 0xffffffff)),
    (0x000080000000000000000000C4030047, .moviw (Ins.plain .f01 12 0 0x80000000) .s64),
    (0x00000000000000000001C1C100000048, .rhash { Ins.plain .f00 16 14 0 with b := 7 })
    ] : List (Nat × Instr)), decodeTableWord 128 e.1 = some e.2 := by decide

/-- One word of every row of the float majors, laid out by R146–R151. -/
theorem test_decode_float : ∀ e ∈ ([
    (0x00000000000000000000C04010B00060, .fadd { Ins.plain .f00 1 2 0 with b := 3 } .f32 .rdn true),
    (0x00003800000001E00000004018020061, .fsub (Ins.plain .f10 1 2 0x3f800000) .bf16 .rne false),
    (0x00000000000000000000C04010110062, .fmul { Ins.plain .f00 1 2 0 with b := 3 } .f16 .rz false),
    (0x0000000000000000058280A060A00063, .ffma { Ins.plain .f00 6 5 0 with b := 10, c := 11 } .f32 .rup true),
    (0x00000000000000000000C04010010064, .fmin { Ins.plain .f00 1 2 0 with b := 3 } .f16),
    (0x00000000000000000000C04010020065, .fmax { Ins.plain .f00 1 2 0 with b := 3 } .bf16),
    (0x000040000000001243F6C04018000066, .fminn (Ins.plain .f10 1 2 0x40490fdb) .f32),
    (0x00000000000000000000C04010010067, .fmaxn { Ins.plain .f00 1 2 0 with b := 3 } .f16),
    (0x00000000000000000000004010020068, .fabs (Ins.plain .f00 1 2 0) .bf16),
    (0x00000000000000000000004010000069, .fneg (Ins.plain .f00 1 2 0) .f32),
    (0x00000000000000000000C04010000D6A, .fcmp { Ins.plain .f00 1 2 0 with b := 3 } .f32 (.unord .ge)),
    (0x0000000000000000000000401008006B, .fclass (Ins.plain .f00 1 2 0) .e3m5),
    (0x0000000000000000000000401021006C, .frnd (Ins.plain .f00 1 2 0) .f16 .rup),
    (0x0000F800000001FFFFFFC0401892006D, .fscale (Ins.plain .f10 1 2 0xffffffff) .bf16 .rz true),
    (0x0000000000000000000000E04000006E, .frcp (Ins.plain .f00 4 7 0)),
    (0x0000000000000000000000E04000006F, .frsq (Ins.plain .f00 4 7 0)),
    (0x0000000000000000000000E040000070, .fsqrt (Ins.plain .f00 4 7 0)),
    (0x00000000000000000000C04010000071, .fdiv { Ins.plain .f00 1 2 0 with b := 3 }),
    (0x00000000000000000000010050000072, .flog2 (Ins.plain .f00 5 8 0)),
    (0x00000000000000000000010050000073, .fexp2 (Ins.plain .f00 5 8 0)),
    (0x00000000000000000000010050000074, .fsin (Ins.plain .f00 5 8 0)),
    (0x00000000000000000000010050000075, .fcos (Ins.plain .f00 5 8 0)),
    (0x00000000000000000000010050000076, .ftanh (Ins.plain .f00 5 8 0)),
    (0x00000000000000000000010050000077, .flgst (Ins.plain .f00 5 8 0)),
    (0x00000000000000000000C04010890078, .hadd2 { Ins.plain .f00 1 2 0 with b := 3 } .f16x2 .rne true),
    (0x00003800000001000F000040181A0079, .hmul2 (Ins.plain .f10 1 2 0x3c003c00) .bf16x2 .rz false),
    (0x00000000000000000200C0401039007A, .hfma2 { Ins.plain .f00 1 2 0 with b := 3, c := 4 } .f16x2 .rdn false),
    (0x00000000000000000200C04010AA007B, .fdot2 { Ins.plain .f00 1 2 0 with b := 3, c := 4 } .bf16x2 .rup true)
    ] : List (Nat × Instr)), decodeTableWord 128 e.1 = some e.2 := by decide

/-- One word of every row of the conversion majors, laid out by R146–R151. -/
theorem test_decode_conversion : ∀ e ∈ ([
    (0x00000000000000030000004010C3307C, .cvt { Ins.plain .f00 1 2 0 with e := 3 } .e4m3 .f32 .rs true),
    (0x0000000000000000000000802013127C, .cvt (Ins.plain .f00 2 4 0) .s64 .bf16 .rz false),
    (0x0000F800000001FFFFFF00401821267D, .cvts (Ins.plain .f10 1 2 0xfffffffc) .f16 .n32 .rup false),
    (0x00000000000000050200C0401047307E, .quant { Ins.plain .f00 1 2 0 with b := 3, c := 4, e := 5 } .e2m1 .rs),
    (0x00000000000000000200C04010B2357F, .deq { Ins.plain .f00 1 2 0 with b := 3, c := 4 } .bf16 .e3m2 .rdn true),
    (0x00000000000000000200C04012040080, .blkscale { Ins.plain .f00 1 2 0 with b := 3, c := 4 } .e5m2 true),
    (0x0000000000000000003FC0400A000081, .amaxrec (Ins.plain .f10 0 2 0xff) true),
    (0x00000000000000000000004010060082, .amaxrd (Ins.plain .f00 1 2 0) .e2m3 false),
    (0x0000000000000000000000E040000083, .pack6 (Ins.plain .f00 4 7 0)),
    (0x0000000000000000000000E040000084, .unpack6 (Ins.plain .f00 4 7 0)),
    (0x0000000000000000000000E040000085, .pack4 (Ins.plain .f00 4 7 0)),
    (0x0000000000000000000000E040000086, .unpack4 (Ins.plain .f00 4 7 0))
    ] : List (Nat × Instr)), decodeTableWord 128 e.1 = some e.2 := by decide

/-- One word of every row of the memory majors, laid out by R146–R151. -/
theorem test_decode_memory : ∀ e ∈ ([
    (0x0000F800000001FFFFFC01004B2C00A0, .ld (Ins.plain .f10 4 8 0xfffffff0) .b128 (.strong .pool) .clu),
    (0x000000000000000000008100480900A1, .st (Ins.plain .f10 4 8 0x2) .b16 .weak .priv),
    (0x000000000000000000020100484B00A2, .ldv (Ins.plain .f10 4 8 0x8) .b64 .glob),
    (0x000000000000000000000100483800A3, .stv (Ins.plain .f10 4 8 0) .b8 .chip),
    (0x000000000000000000014100409080A4, .atom { Ins.plain .f00 4 8 0 with b := 5 } .add .f32 .tr .core),
    (0x000000000000000005018100424B00A5, .atomc { Ins.plain .f00 4 8 0 with b := 6, c := 10 } .b64 .die .glob),
    (0x00000000000000000001010049A602A6, .red (Ins.plain .f10 4 8 0x4) .max .n32 .ens .clu),
    (0x000000000000000000000000005021A7, .fence (Ins.plain .f00 0 0 0) 1 2 .pool),
    (0x000000000000000000200100084002A8, .cline (Ins.plain .f10 0 8 128) .wbinv),
    (0x000000000000000000100100084000A9, .pfd (Ins.plain .f10 0 8 64)),
    (0x000000000000000000010060020000AA, .mbput { Ins.plain .f00 0 3 0 with b := 4 } true),
    (0x0000000000000000FFFFC000440000AB, .mbget (Ins.plain .f01 4 0 0x3ffff) false),
    (0x000000000000000000000060400000AC, .mbtryGet (Ins.plain .f00 4 3 0) false),
    (0x000000000000000000018060420001AC, .mbtryPut { Ins.plain .f00 4 3 0 with b := 6 } true),
    (0x000000000000000000100060480000AD, .ldwp (Ins.plain .f10 4 3 0x40) false)
    ] : List (Nat × Instr)), decodeTableWord 128 e.1 = some e.2 := by decide

/-- One word of every row of the cross lane majors, laid out by R146–R151. -/
theorem test_decode_cross_lane : ∀ e ∈ ([
    (0x000000000000000004018080200B03C0, .shfl { Ins.plain .f00 2 4 0 with b := 6, c := 8 } .xor .b64),
    (0x000000000000000000000080200001C1, .vote (Ins.plain .f00 2 4 0) true),
    (0x000000000000000000000080200000C2, .ballot (Ins.plain .f00 2 4 0)),
    (0x000000000000000000000080202080C3, .redux (Ins.plain .f00 2 4 0) .add .f32 .rup false),
    (0x000000000000000000000080200A05C3, .redux (Ins.plain .f00 2 4 0) .xor .b32 .rne false),
    (0x000000000000000000000080200080C4, .argmx (Ins.plain .f00 2 4 0) .f32),
    (0x000000000000000000000080200600C5, .argmn (Ins.plain .f00 2 4 0) .n32),
    (0x000000000000000000000080200209C6, .scan (Ins.plain .f00 2 4 0) true .min .s32 .rne false),
    (0x00000000000000000007C0802A0A00C7, .bcast (Ins.plain .f10 2 4 0x1f) .b32 true),
    (0x000000000000000000000080200B00C8, .matchKey (Ins.plain .f00 2 4 0) (some .b64)),
    (0x000000000000000000040000240000C8, .matchKey (Ins.plain .f01 2 0 0x10) none),
    (0x000000000000000000004000240000C9, .firstl (Ins.plain .f01 2 0 0x1))
    ] : List (Nat × Instr)), decodeTableWord 128 e.1 = some e.2 := by decide

/-- One word of every row of the matrix and engine majors, laid out by R146–R151. -/
theorem test_decode_matrix_and_engine : ∀ e ∈ ([
    (0x00000700000000000200C040125000D0, .mma { Ins.plain .f00 1 2 0 with b := 3, c := 4, ru := 7 } .minmax true),
    (0x00000000000000000200C040101000D1, .mmae { Ins.plain .f00 1 2 0 with b := 3, c := 4 } .minplus false),
    (0x00000000000000000000C040100000D2, .tzero { Ins.plain .f00 1 2 0 with b := 3 } false),
    (0x000000000000000803010040120280D3, .tld { Ins.plain .f00 1 2 0 with b := 4, c := 6, e := 8 } .bf16 true),
    (0x00000000000000080301004010A480D4, .tst { Ins.plain .f00 1 2 0 with b := 4, c := 6, e := 8 } .e5m2 .rup true false),
    (0x00000000000000000000C040100080D5, .tmovr { Ins.plain .f00 1 2 0 with b := 3 } .f32 false),
    (0x00000000000000000000C040120A00D6, .tmovt { Ins.plain .f00 1 2 0 with b := 3 } .b32 true),
    (0x000000000000000803010040100000D7, .cpy { Ins.plain .f00 1 2 0 with b := 4, c := 6, e := 8 } false),
    (0x00000000000000080301005FF20000D8, .gather { Ins.plain .f00 511 2 0 with b := 4, c := 6, e := 8 } true),
    (0x000000000000000803010040100000D9, .scatter { Ins.plain .f00 1 2 0 with b := 4, c := 6, e := 8 } false),
    (0x000000000000000000010040100082DA, .coll { Ins.plain .f00 1 2 0 with b := 4 } .redsc .f32 false),
    (0x000000000000000000010040100000DB, .umcfg { Ins.plain .f00 1 2 0 with b := 4 } false),
    (0x000000000000000000000040120000DC, .umrank (Ins.plain .f00 1 2 0) true),
    (0x000000000000000000000040100000DD, .umcommit (Ins.plain .f00 1 2 0) false),
    (0x000000000000000000000040100000DE, .umdirty (Ins.plain .f00 1 2 0) false),
    (0x00000800000001FFFFFC0000040000DF, .waitc (Ins.plain .f01 0 0 0xffffff0)),
    (0x000000000000000000000080200000E0, .fwait (Ins.plain .f00 2 4 0) false),
    (0x000000000000000000000080220000E1, .ftest (Ins.plain .f00 2 4 0) true),
    (0x000000000000000000000080000000E2, .fcancel (Ins.plain .f00 0 4 0) false)
    ] : List (Nat × Instr)), decodeTableWord 128 e.1 = some e.2 := by decide

/-- The words that chapters 05 to 09, 19 and 21 print, each with the instruction that it stands for. -/
theorem test_decode_printed_words : ∀ e ∈ ([
    (0x0000022000000000058280A060000063,
      .ffma { Ins.plain .f00 6 5 0 with b := 10, c := 11, stl := 2, ru := 2 } .f32 .rne false),
    (0x000000405000267C, .cvt (Ins.plain .f00 5 2 0) .f32 .n32 .rne false),
    (0x0000000020000600000000C060000069, .fneg { Ins.plain .f00 6 6 0 with gc := .g0, g0 := 3 } .f32),
    (0x0001008008000003, .brd (Ins.plain .f10 0 4 4)),
    (0x00000000800000000000C00004000001, .bra { Ins.plain .f01 0 0 3 with yld := true }),
    (0x0006C00144000015, .movs (Ins.plain .f01 20 0 0x1B)),
    (0x0000400000000020000000C068000062, .fmul (Ins.plain .f10 6 6 0x40800000) .f32 .rne false),
    (0x000000000000000D0602C1414047307E, .quant { Ins.plain .f00 20 10 0 with b := 11, c := 12, e := 13 } .e2m1 .rs),
    (0x00000180A84B00A0, .ld (Ins.plain .f10 10 12 0) .b64 .weak .glob),
    (0x000000010000000000000100684A00A1, .st { Ins.plain .f10 6 8 0 with ch := 1 } .b32 .weak .glob),
    (0x00000000003032A7, .fence (Ins.plain .f00 0 0 0) 2 3 .die),
    (0x00000800000001FFFFFC0000040000DF, .waitc (Ins.plain .f01 0 0 0x0FFFFFF0)),
    (0x160A8522800000D0, .mma { Ins.plain .f00 40 41 0 with b := 42, c := 44 } .ptimes false),
    (0x0000000000000024110803E1E00000D7, .cpy { Ins.plain .f00 30 31 0 with b := 32, c := 34, e := 36 } false),
    (0x000000000000003017010522800080D4,
      .tst { Ins.plain .f00 40 41 0 with b := 4, c := 46, e := 48 } .f32 .rne false false),
    (0x00803FE1E80000AD, .ldwp (Ins.plain .f10 30 511 0x200) false),
    (0x00000080900080C4, .argmx (Ins.plain .f00 9 4 0) .f32),
    (0x000180C00000001B, .savemark { Ins.plain .f00 0 6 0 with b := 6 }),
    (0x0000F800000001FFFFFF43400A000002, .brc (Ins.plain .f10 0 26 0xFFFFFFFD) true),
    (0x0000000020003A0000400141C84A00A2,
      .ldv { Ins.plain .f10 28 10 0x100 with gc := .g0, g0 := 29 } .b32 .glob)
    ] : List (Nat × Instr)), decodeTableWord 128 e.1 = some e.2 := by decide

/-- Headers of chapters 02, 20 and 21, with the fields that the spec states of them. -/
theorem test_decode_headers :
    decodeHeader 0x0000000000000001001A000020170A00 = some
      { len := 10, live := 23, rcv := 16, pfd := 0, pfk := 1, rfp := true, rgn := true, idem := true, exito := 0,
        entry := 0, save := 0 } ∧
    decodeHeader 0x02000010000007020010000000170600 = some
      { len := 6, live := 23, rcv := 0, pfd := 0, pfk := 0, rfp := false, rgn := true, idem := false, exito := 7,
        entry := 16, save := 2 } ∧
    decodeHeader 0x040000460000250200180000001A1000 = some
      { len := 16, live := 26, rcv := 0, pfd := 0, pfk := 0, rfp := true, rgn := true, idem := false, exito := 37,
        entry := 70, save := 4 } ∧
    decodeHeader 0x003D0100 = some
      { len := 1, live := 61, rcv := 0, pfd := 0, pfk := 0, rfp := false, rgn := false, idem := false, exito := 0,
        entry := 0, save := 0 } ∧
    decodeHeader 0 = none ∧ decodeHeader 0x01810100 = none ∧ decodeHeader 0x00100000003D0100 = none := by decide

/-! ### Ill-formed instructions and undefined words -/

/-- Each check of `Instr.wf` refuses an instruction that fails it alone. -/
theorem test_ill_formed : ∀ i ∈ ([
    .bra (Ins.plain .f00 0 0 0), .iadd (Ins.plain .f00 1 2 7) .s32 false,
    .iadd { Ins.plain .f10 1 2 7 with b := 3 } .s32 false, .iadd (Ins.plain .f10 1 2 7) .b32 false,
    .iabs (Ins.plain .f00 1 2 0) .n32 false, .shra (Ins.plain .f00 1 2 0) .b32, .bfi (Ins.plain .f00 1 2 0) .b64,
    .moviw (Ins.plain .f01 2 0 1) .b64, .dot4 (Ins.plain .f00 1 2 0) .s32 false,
    .fadd (Ins.plain .f00 1 2 0) .f32 .rs false, .fadd (Ins.plain .f00 1 2 0) .e4m3 .rne false,
    .hadd2 (Ins.plain .f00 1 2 0) .f16 .rne false, .cvt (Ins.plain .f00 1 2 0) .b32 .s32 .rne false,
    .cvt (Ins.plain .f00 1 2 0) .s32 .f32 .rs false, .cvts (Ins.plain .f00 1 2 0) .s32 .n32 .rne false,
    .quant (Ins.plain .f00 1 2 0) .f16 .rne, .deq (Ins.plain .f00 1 2 0) .e4m3 .e4m3 .rne false,
    .amaxrd (Ins.plain .f00 1 2 0) .bf16 false, .ld (Ins.plain .f10 1 2 0) .f32 .weak .glob,
    .st (Ins.plain .f10 1 2 0) .n8 .weak .glob, .ldv (Ins.plain .f10 4 2 0) .b128 .glob,
    .atom (Ins.plain .f00 1 2 0) .min .f32 .tr .core, .red (Ins.plain .f10 1 2 0) .exch .b32 .tr .core,
    .fence (Ins.plain .f00 0 0 0) 0 1 .tr, .fence (Ins.plain .f00 0 0 0) 1 0 .tr,
    .mbtryPut (Ins.plain .f01 1 0 5) false, .shfl (Ins.plain .f00 1 2 0) .idx .s32,
    .redux (Ins.plain .f00 1 2 0) .and .f32 .rne false, .redux (Ins.plain .f00 1 2 0) .min .f32 .rup false,
    .argmx (Ins.plain .f00 1 2 0) .b32, .matchKey (Ins.plain .f01 1 0 0) (some .b32),
    .matchKey (Ins.plain .f00 1 2 0) none, .tld (Ins.plain .f00 1 2 0) .e2m1 false,
    .tst (Ins.plain .f00 1 2 0) .b32 .rup false false, .tst (Ins.plain .f00 1 2 0) .f32 .rs false false,
    .coll (Ins.plain .f00 1 2 0) .allred .b8 false, .undefinedInstruction 0x0C
    ] : List Instr), i.wf = false := by decide

/-- Rows 1 to 5 of R158: words that are no instruction. -/
theorem test_undefined_words : ∀ w ∈ ([
    0, 0xE3, 0x49, 0x87, 0xAE, 0xCA, 0x0001000000000000000000000000000C, 0x0C00000C, 0x10C, 0x1000C, 0x10000C,
    0x0400000C, 0x00000800000000000000000000000020, 0xF0020, 0xA0020, 0x400020, 0x5000A0, 0x3800A0, 0x63C, 0x60A6
    ] : List Nat), decodeTableWord 128 w = none := by decide

/-! ### One step from a placed word -/

/-- A placed word is the machine's next step: MOVI v12, #7 (R206) issues, and its path stands at the next word. -/
theorem test_step_runs_the_placed_word :
    (match step (State.reset.withFetchWord 128 0x0001C000C4000046) with
      | .next s => (s.troupe? 1).map fun t => (t.reg 0 12, t.reg 31 12, (t.path? (.ord 0)).map (·.pc))
      | _ => none) = some (7, 7, some (wordPage + 32)) := by decide

/-- What an instruction leaves in register r of lane 0, where every lane holds the registers `rs`. -/
def lane0 (i : Instr) (rs : List (Nat × Word)) (r : Nat) : Option Word := after (sT (tR fun _ => rs)) i 0 r

/-- R206 to R209: the examples of the rules, and corners of their tables. -/
theorem test_integer : ∀ e ∈ ([
    (.iaddc { Ins.plain .f00 10 2 0 with b := 4, c := 6 } .n32, [(2, 0xFFFFFFFF), (3, 7), (4, 1)], 11, 1),
    (.iaddc { Ins.plain .f00 12 3 0 with b := 5, c := 11 } .n32, [(3, 7), (11, 1)], 12, 8),
    (.isubb { Ins.plain .f00 12 3 0 with b := 5, c := 11 } .n32, [(5, 1)], 13, 1),
    (.iadd (Ins.plain .f10 2 4 1) .s32 true, [(4, 0x7FFFFFFF)], 2, 0x7FFFFFFF),
    (.isub { Ins.plain .f00 2 4 0 with b := 6 } .n16x2 false, [(4, 0x00010000), (6, 0x00020001)], 2, 0xFFFFFFFF),
    (.imul (Ins.plain .f10 2 4 0xFFFFFFFF) .s64 false, [(4, 3)], 3, 0xFFFFFFFF),
    (.imulhi { Ins.plain .f00 2 4 0 with b := 6 } .s32, [(4, 0x80000000), (6, 2)], 2, 0xFFFFFFFF),
    (.iabs (Ins.plain .f00 2 4 0) .s32 false, [(4, 0x80000000)], 2, 0x80000000),
    (.iabs (Ins.plain .f00 2 4 0) .s32 true, [(4, 0x80000000)], 2, 0x7FFFFFFF),
    (.dot4 { Ins.plain .f00 2 4 0 with b := 6, c := 8 } .s8 false, [(4, 0x80FF0001), (6, 0x02020305), (8, 10)], 2,
      0xFFFFFF0D),
    (.clz (Ins.plain .f00 2 4 0) .b64, [], 2, 64),
    (.bfx (Ins.plain .f10 9 8 0x408) .s32, [(8, 0xF00)], 9, 0xFFFFFFFF),
    (.bfi { Ins.plain .f00 2 4 0 with b := 6, c := 8 } .b32, [(4, 0xFFFFFFFF), (8, 0xFF1C)], 2, 0x0FFFFFFF),
    (.shl (Ins.plain .f10 2 4 32) .b32, [(4, 1)], 2, 0),
    (.shra (Ins.plain .f10 2 4 255) .s64, [(4, 5), (5, 0x80000000)], 2, 0xFFFFFFFF),
    (.rotl (Ins.plain .f10 2 4 33) .b32, [(4, 0x80000000)], 2, 1),
    (.prmb { Ins.plain .f00 2 4 0 with b := 6, c := 8 }, [(4, 0x44332F11), (6, 0x88776655), (8, 0xA1950B)], 2, 0xFFF2AABB),
    (.lea { Ins.plain .f00 2 4 0 with b := 6, c := 8 }, [(4, 16), (6, 3), (8, 0x1A)], 2, 28),
    (.addw { Ins.plain .f00 8 14 0 with b := 7 } .s32, [(14, 1), (7, 0xFFFFFFFE)], 9, 0xFFFFFFFF),
    (.rhash (Ins.plain .f10 2 4 2), [(4, 1)], 2, 0x739A13A6)
    ] : List (Instr × List (Nat × Word) × Nat × Word)), lane0 e.1 e.2.1 e.2.2.1 = some e.2.2.2 := by decide

/-- R211 to R218 and R227's FP32 values: the examples of the rules, and corners of their tables. -/
theorem test_float : ∀ e ∈ ([
    (.fadd { Ins.plain .f00 2 4 0 with b := 6 } .f32 .rne false, [(4, 0x3DCCCCCD), (6, 0x3E4CCCCD)], 2, 0x3E99999A),
    (.fsub { Ins.plain .f00 2 4 0 with b := 6 } .f32 .rdn false, [(4, 0x3F800000), (6, 0x3F800000)], 2, 0x80000000),
    (.ffma { Ins.plain .f00 2 4 0 with b := 6, c := 8 } .f32 .rne false,
      [(4, 0x3F800001), (6, 0x3F800001), (8, 0xBF800002)], 2, 0x28800000),
    (.fscale (Ins.plain .f10 4 4 0xFFFFFFE8) .f16 .rne false, [(4, 0x3C00)], 4, 1),
    (.fscale (Ins.plain .f10 4 4 0xFFFFFFE2) .f16 .rne false, [(4, 0x3C00)], 4, 0),
    (.frnd (Ins.plain .f00 2 4 0) .f32 .rz, [(4, 0xBECCCCCD)], 2, 0x80000000),
    (.fminn { Ins.plain .f00 2 4 0 with b := 6 } .f32, [(4, 0x7F800001), (6, 0x40400000)], 2, 0x40400000),
    (.fmin { Ins.plain .f00 2 4 0 with b := 6 } .f32, [(4, 0), (6, 0x80000000)], 2, 0x80000000),
    (.fcmp { Ins.plain .f00 2 4 0 with b := 6 } .f32 (.unord .lt), [(4, 0x7FC00000)], 2, 1),
    (.fclass (Ins.plain .f00 2 4 0) .e4m3, [(4, 0x7E)], 2, 0x40),
    (.fdiv { Ins.plain .f00 2 4 0 with b := 6 }, [(4, 0x3F800000), (6, 0x40400000)], 2, 0x3EAAAAAB),
    (.frcp (Ins.plain .f00 2 4 0), [(4, 0x80000000)], 2, 0xFF800000),
    (.fneg (Ins.plain .f00 2 4 0) .bf16, [(4, 0xFFFF)], 2, 0x7FC0),
    (.hmul2 { Ins.plain .f00 2 4 0 with b := 6 } .f16x2 .rne false, [(4, 0x40003C00), (6, 0x42004400)], 2, 0x46004400),
    (.cvt (Ins.plain .f00 2 4 0) .n8 .f32 .rne false, [(4, 0x43960000)], 2, 255),
    (.cvts (Ins.plain .f10 3 2 8) .s16 .f32 .rne false, [(2, 0x3FAF8000)], 3, 351),
    (.cvts (Ins.plain .f10 3 2 8) .s16 .f32 .rne false, [(2, 0x43960000)], 3, 32767)
    ] : List (Instr × List (Nat × Word) × Nat × Word)), lane0 e.1 e.2.1 e.2.2.1 = some e.2.2.2 := by decide

/-- The FP32 values of the block of R140. -/
def block8 : List Word :=
  [0x41200000, 0xC0400000, 0x3F333333, 0x41C00000, 0, 0x40B00000, 0xC1400000, 0x3F800000]

/-- A troupe whose lanes 0 to 7 are Live and hold in register r the words of a list, and other registers alike. -/
def t8 (r : Nat) (ws : List Word) (rest : List (Nat × Word)) : Troupe :=
  { t0 with enable := 0xFF, lanes := (lenum t0.lanes).map fun (e : Nat × Lane) =>
      { e.2 with regs := (r, lget 0 ws e.1) :: rest, st := if e.1 < 8 then .live else .absent } }

/-- The words of register r in lanes 0 to 7 after an instruction. -/
def lanes8 (i : Instr) (t : Troupe) (r : Nat) : List Word := (List.range 8).map fun l => (nextT i (sT t)).reg l r

/-- The example under R140 and R227. -/
theorem test_block_quantized :
    lanes8 (.blkscale { Ins.plain .f00 21 10 0 with b := 20, c := 22 } .e2m1 false) (t8 10 block8 [(20, 0x4080), (22, 8)]) 21 =
      List.replicate 8 0x60 ∧
    lanes8 (.quant { Ins.plain .f00 23 10 0 with b := 20, c := 21 } .e2m1 .rne) (t8 10 block8 [(20, 0x4080), (21, 0x60)]) 23 =
      [4, 0xA, 0, 7, 0, 3, 0xD, 0] ∧
    lanes8 (.pack4 (Ins.plain .f00 24 23 0)) (t8 23 [4, 0xA, 0, 7, 0, 3, 0xD, 0] []) 24 =
      [0x0D3070A4, 0, 0, 0, 0, 0, 0, 0] ∧
    lanes8 (.deq { Ins.plain .f00 25 23 0 with b := 21, c := 20 } .f32 .e2m1 .rne false)
      (t8 20 (List.replicate 8 0x4080) [(21, 0x60), (23, 3)]) 25 = List.replicate 8 0x40C00000 := by decide

/-- The troupe of the example under R260, with its guard's lanes enabled. -/
def t260 : Troupe :=
  { t8 4 [0x40800000, 0x41100000, 0x7FC00000, 0x42480000, 0x41100000, 0x42A00000, 0x80000000, 0x3F800000]
      [(7, 0xBF800000), (8, 1)] with enable := 0xD7, tilePart := 8 }

/-- The example under R260: ARGMX, REDUX.max, SHFL.down and SCAN.add. -/
theorem test_lanes_of_several_kinds :
    (lanes8 (.argmx (Ins.plain .f00 9 4 0) .f32) t260 9 = [1, 1, 1, 0, 1, 0, 1, 1]) ∧
    (lanes8 (.redux (Ins.plain .f00 10 4 0) .max .f32 .rne false) t260 10 =
      [0x7FC00000, 0x7FC00000, 0x7FC00000, 0, 0x7FC00000, 0, 0x7FC00000, 0x7FC00000]) ∧
    (lanes8 (.shfl { Ins.plain .f00 14 4 0 with b := 8, c := 7 } .down .b32) t260 14 =
      [0x41100000, 0x7FC00000, 0xBF800000, 0, 0xBF800000, 0, 0x3F800000, 0xBF800000]) ∧
    (lanes8 (.scan (Ins.plain .f00 15 8 0) false .add .s32 .rne false) t260 15 = [1, 2, 3, 0, 4, 0, 5, 6]) := by decide

/-- R187's example, item 0x1A5 under the boundaries of R16's. -/
theorem test_item_fields :
    (let s : State := { s0 with launches := s0.launches.map fun l =>
        { l with hdr := { l.hdr with fields := 3, widths := [3, 5], tlv := 1, elv := 2 } } }
     (idfValue (s.headerOf t0) 0x1A5 0x10, idfValue (s.headerOf t0) 0x1A5 0x11, idfValue (s.headerOf t0) 0x1A5 0x12,
      idfValue (s.headerOf t0) 0x1A5 0x13)) = (some 52, some 1, some 5, some 0xA5) := by decide

/-! ### States and operands that meet the hypotheses of the statements -/

/-- A path of a troupe issues, and the checks of an instruction pass in the lanes `act`. -/
abbrev Goes (s : State) (t : Troupe) (p : Machine.Path) (x : Ins) (u : Use) (act : Word) : Prop :=
  s.Issues t p ∧ Passes t p x u act

/-- x0 with an immediate in place of its last sources. -/
def xi (imm : Word) : Ins := Ins.plain .f10 2 4 imm

theorem test_meets_DecodeOfEncode :
    (Instr.bra (Ins.plain .f01 0 0 0)).wf = true ∧ (encode (Instr.bra (Ins.plain .f01 0 0 0))).isSome = true ∧
    Instr.idleGate.wf = true ∧ encode .idleGate = none ∧ isHappening .idleGate = true ∧
    (Instr.undefinedInstruction 0).wf = true := by decide +kernel

theorem test_meets_EncodeOfDecode : (decode 0xC).toOption = some (.nop (Ins.plain .f00 0 0 0)) := by decide +kernel

/-- The state of a placed NOP. -/
def sN : State := State.reset.withFetchWord 128 0xC

theorem test_meets_StepRunsTheDecodedInstruction :
    sN.agenda = [.issue ⟨1, .ord 0⟩] ∧ sN.fw.resetDue = false ∧ sN.fw.frozen = false ∧
    ({ sN with agenda := [] } : State).runner ⟨1, .ord 0⟩ = some (t0, p0) ∧ p0.blk.isSome = true ∧ p0.stall ≤ sN.now ∧
    (match ({ sN with agenda := [] } : State).fetchHead t0 p0 with
      | .slot s1 w => decide (w = 0xC ∧ s1.headFree t0 p0 w = true ∧ t0.overrun = false ∧ portOf w = some 1 ∧
          s1.pickOf { troupe := t0, path := p0, word := w } 1 ≠ .no)
      | _ => false) = true := by decide +kernel

/-- The next state of a step. -/
def stepped (s : State) : Option State := match step s with | .next s' => some s' | _ => none

theorem test_meets_StepRunsTheHappening :
    ({ s0 with agenda := [] } : State).allows .placement = true ∧
    (let s : State := { s0 with fw := { s0.fw with resetDue := true }, agenda := [.event .placement] }
     s.fw.resetDue = true ∧ s.allows .placement = false ∧
       (stepped s).map (·.fw) = some s.fw) ∧
    (match exec .powerWithhold { s0 with cur := none } with | .next u => u != { s0 with cur := none } | _ => false) = true ∧
    ({ s0 with agenda := [] } : State).allows .powerWithhold = true := by decide +kernel

theorem test_meets_StepsAnswerAndClocksAdvance :
    (stepped { s0 with agenda := [.tick] }).map (fun s => (s.now, s.clock 3)) = some (1, 1) ∧
    (stepped { s0 with agenda := [.skew 3 1] }).map (fun s => (s.clock 2, s.clock 3)) = some (1, 2) := by decide +kernel

theorem test_meets_NoEffectWithNoActiveLane :
    let x : Ins := { Ins.plain .f00 2 4 0 with gc := .g0, g0 := 191 }
    insOf (.nop x) = some x ∧ s0.Issues t0 p0 ∧ p0.retry = false ∧ (guardsUsed x).any badCode = false ∧
      t0.guarded (t0.pathLanes p0) x = 0 := by decide +kernel

/-- The checks pass for every operand shape of the statements made by `LaneResults`, and of those made by `Results`
or `Completes` whose `pre` holds always, in both formats: IntegerArithmetic, ShiftsAndBitFields, AddressArithmetic,
RhashIsAPermutation, FloatArithmetic, FloatSelectionsAndPredicates, FloatSignsClassesAndIntegrals, SpecialFunctions,
Conversions, BlockQuantization, Packing, CrossLane, EnableMask. -/
theorem test_meets_lane_results :
    (∀ u ∈ [use1 x0 1 1, use1 x0 2 2, use1 x0 1 2, use2 x0 1 1 1, use2 x0 2 2 2, use2 x0 1 2 2, use2 x0 2 2 1,
        use2 x0 2 1 1, use3 x0 1 1 1 1, use3 x0 2 2 2 2, use3 x0 2 1 1 1, use3 x0 2 2 2 1, use3 x0 2 2 1 1,
        Use.lanes [(2, 1)] [], Use.lanes [(2, 2)] [], Use.lanes [(2, 1)] [(4, 1), (10, 1)],
        Use.lanes [(2, 1)] [(4, 1), (6, 1), (10, 1)], Use.lanes [(2, 1)] [(4, 1), (6, 1), (8, 1), (10, 1)],
        { use1 x0 1 1 with whole := true, skip := true }, { Use.lanes [(2, 2)] [(4, 2), (6, 1), (8, 2)] with whole := true, skip := true },
        { Use.lanes [(2, 1)] [] with whole := true, skip := true },
        Use.cmd [] [(4, 1)] true], Goes s0 t0 p0 x0 u 0xFFFFFFFF) ∧
    (∀ u ∈ [use2 (xi 1) 1 1 1, use2 (xi 1) 2 2 2, use2 (xi 1) 1 2 2, use2 (xi 1) 2 2 1, use2 (xi 1) 2 1 1,
        { wr := [(2, 2)], rd := [(4, 2)], un := [], first := true, whole := true }],
      Goes s0 t0 p0 (xi 1) u 0xFFFFFFFF) := by decide +kernel

theorem test_meets_ExactFloatResults :
    (∀ x ∈ [Machine.Num.fin false 1 0, .fin true 1 0], x.isNan = false ∧ x.isInf = false) ∧
    ([Machine.Num.fin false 1 0, .fin true 1 0].map Machine.Num.toRat).sum = 0 ∧
    (-1024 : Int) ≤ -1024 ∧ (1024 : Int) ≤ 1024 := by
  refine ⟨by decide +kernel, by norm_num [Machine.Num.toRat], by decide +kernel, by decide +kernel⟩

theorem test_meets_RoundingModes :
    Ty.e2m1 ∈ floatTys ∧ (floatFormat .e2m1).signed = true ∧ (floatFormat .e3m5).signed = false ∧
    |(Machine.Num.fin true 5 (-2)).toRat| ≤ (maxValue .e2m1).toRat ∧
    (let lo := roundTo .e2m1 .rz false 0 (.fin true 5 (-2))
     |(value .e2m1 lo).toRat| ≠ |(Machine.Num.fin true 5 (-2)).toRat| ∧
       magBits (floatFormat .e2m1) lo + 1 ≤ (floatFormat .e2m1).maxCode) := by
  refine ⟨by decide +kernel, by decide +kernel, by decide +kernel, ?_, ?_, by decide +kernel⟩
  · rw [show maxValue .e2m1 = .fin false 3 1 by decide +kernel]; norm_num [Machine.Num.toRat, abs_of_neg]
  · rw [show value .e2m1 (roundTo .e2m1 .rz false 0 (.fin true 5 (-2))) = .fin true 2 (-1) by decide +kernel]
    norm_num [Machine.Num.toRat, abs_of_neg]

theorem test_meets_SpecialFloatInputs : Ty.e5m2 ∈ floatTys ∧ (1 : Nat) ≠ 0 ∧ Ty.e3m5 ∉ [Ty.e3m2, .e2m3, .e2m1] := by decide +kernel

theorem test_meets_FloatSignsClassesAndIntegrals :
    value .f16 0x7E00 = .nan ∧ value .f16 0xFC00 = .inf true ∧ (value .f16 0xBC00).isNan = false := by decide +kernel

theorem test_meets_SpecialFunctions :
    value .f32 0x7FC00000 = .nan ∧ value .f32 0xFF800000 = .inf true ∧ value .f32 0xBF800000 = .fin true 0x800000 (-23) ∧
    value .f32 0x3F800000 = .fin false (2 ^ 23) (-23) ∧ (value .f32 0x40400000).isInf = false ∧
    (value .f32 0x40400000).toRat = ((3 : Int) : ℚ) := by
  refine ⟨by decide +kernel, by decide +kernel, by decide +kernel, by decide +kernel, by decide +kernel, ?_⟩
  rw [show value .f32 0x40400000 = .fin false 0xC00000 (-22) by decide +kernel]
  norm_num [Machine.Num.toRat]

/-- Every lane's C names the two ends of the group sizes of BLKSCALE. -/
theorem test_meets_BlockQuantization :
    ∀ n ∈ ([8, 32] : List Nat), Goes (sT (tR fun _ => [(8, .ofNat 32 n)])) (tR fun _ => [(8, .ofNat 32 n)]) p0 x0
        { wr := [(2, 1)], rd := [(4, 1)], un := [(8, 1)], first := true, whole := true, skip := true, grp := some (6, 8) } 0xFFFFFFFF ∧
      (uni (tR fun _ => [(8, .ofNat 32 n)]) 0xFFFFFFFF 8).toNat ∈ [8, 16, 32] := by
  decide +kernel

theorem test_meets_BlockScaleAndElementQuotients :
    (Machine.Num.fin false 1 0).toRat / (maxValue .e2m1).toRat ≤ (maxValue .e3m5).toRat ∧
    (maxValue .e3m5).toRat < (Machine.Num.fin false 1 10).toRat / (maxValue .e2m1).toRat ∧
    value .e3m5 0x60 = .fin false 32 (-5) ∧ value .e3m5 0x60 ≠ .nan ∧ (value .e3m5 0x60).isZero = false := by
  rw [show maxValue .e2m1 = .fin false 3 1 by decide +kernel, show maxValue .e3m5 = .fin false 62 (-1) by decide +kernel]
  refine ⟨by norm_num [Machine.Num.toRat], by norm_num [Machine.Num.toRat], by decide +kernel, by decide +kernel, by decide +kernel⟩

/-- s0 with ring 4095 allotted to the launch, and a troupe. -/
def sRing (t : Troupe) : State :=
  { sT t with launches := s0.launches.map fun l => { l with hdr := { l.hdr with ringBase := 4095, ringCnt := 1 } } }

/-- A record of ring 4095 that may be made. -/
def rec0 : RingRec := { ring := 4095, value := 1, own := [.ord 0], partner := none, from_ := 0 }

theorem test_meets_AmaxRings :
    (let t := tR fun _ => [(6, 4095)]
     Goes (sRing t) t p0 x0 { wr := [], rd := [(4, 1)], un := [(6, 1)], first := false, whole := true, skip := true } 0xFFFFFFFF ∧
       (sRing t).ringOk t 4095 = true) ∧
    (∀ t ∈ [t0, { t0 with recs := [rec0] }],
     Goes (sRing t) t p0 (Ins.plain .f01 2 0 4095) { wr := [(2, 1)], rd := [], un := [], first := false, whole := true } 0xFFFFFFFF ∧
       (sRing t).ringOk t 4095 = true) ∧
    (let t := { t0 with recs := [rec0] }
     rec0.from_ ≤ (sRing t).now ∧ (sRing t).troupe? t.id = some t ∧ t.run = .running ∧
       t.die < (sRing t).dies.length ∧ ∀ e, (sRing t).ens? t.ens = some e → e.st ≠ .preempting) ∧
    (∀ x ∈ [Machine.Num.fin false 1 0, .inf false], x.isNan = false ∧ x.signNeg = false) := by
  refine ⟨by decide +kernel, by decide +kernel, ⟨by decide +kernel, by decide +kernel, by decide +kernel, by decide +kernel, ?_⟩, by decide +kernel⟩
  intro e h; cases h; decide

theorem test_meets_CombinationsAndArgLanes :
    (∀ v ∈ [0, 2 ^ 32 - 1], v < 2 ^ 32) ∧ ([0x7FC00000].any fun v => (value .f32 v).isNan) = true ∧
    ([0x3F800000].all fun v => !(value .f32 v).isNan && decide (v < 2 ^ 32)) = true ∧ [0, 31].Pairwise (· < ·) ∧
    ([0, 31].any fun l => !(value .f32 l).isNan) = true := by decide +kernel

theorem test_meets_ItemFields :
    Goes s0 t0 p0 (Ins.plain .f01 2 0 0x13) (Use.lanes [(2, 2)] []) 0xFFFFFFFF ∧
    (Ins.plain .f01 2 0 0x13).imm.toNat ∈ [0, 1, 2, 3, 4, 5, 0x10, 0x11, 0x12, 0x13] ∧
    (∀ n ∈ ([6, 0xF, 0x14] : List Nat), Goes s0 t0 p0 (Ins.plain .f01 2 0 (.ofNat 32 n)) (Use.lanes [(2, 2)] []) 0xFFFFFFFF ∧
      n ∉ [0, 1, 2, 3, 4, 5, 0x10, 0x11, 0x12, 0x13]) ∧ Delivers s0 t0 p0 := by decide +kernel

theorem test_meets_SpecialRegisters :
    (∀ n ∈ ([0, 0x24, 0x25] : List Nat), Goes s0 t0 p0 (Ins.plain .f01 2 0 (.ofNat 32 n)) (Use.lanes [(2, 1)] []) 0xFFFFFFFF) ∧
    Goes s0 t0 p0 (Ins.plain .f01 2 0 0x21) (Use.lanes [(2, 2)] []) 0xFFFFFFFF ∧ Delivers s0 t0 p0 ∧
    (∀ n ∈ ([0x11, 0x12] : List Nat), Goes s0 t0 p0 (Ins.plain .f10 0 4 (.ofNat 32 n)) (Use.cmd [] [(4, 1)] false) 0xFFFFFFFF) := by
  decide +kernel

theorem test_meets_SpecialRegisters_part :
    ∀ v ∈ ([2, 32, 33] : List Nat), Goes (sT (tR fun _ => [(4, .ofNat 32 v)])) (tR fun _ => [(4, .ofNat 32 v)]) p0 (Ins.plain .f10 0 4 0x10)
      (Use.cmd [] [(4, 1)] true) 0xFFFFFFFF ∧ uni (tR fun _ => [(4, .ofNat 32 v)]) 0xFFFFFFFF 4 = .ofNat 32 v := by decide +kernel

/-- What is the value of an option has a property, where its value does. -/
theorem of_some {α : Type} {o : Option α} {a : α} {P : α → Prop} (h : o = some a) (hp : P a) : ∀ e, o = some e → P e := by
  intro e he
  cases h.symm.trans he
  exact hp

/-- A full mask, and what each lane of t0 finds for an instruction with no register operand. -/
abbrev all : Word := 0xFFFFFFFF

/-- An instruction with an immediate alone. -/
def xm (imm : Word) : Ins := Ins.plain .f01 0 0 imm

/-- t0 with one value in v4, and 0 in v5, in every lane. -/
def tv (v : Word) : Troupe := tR fun _ => [(4, v)]

/-- A branch target that stands in its line: nothing is awaited for it. -/
abbrev Here (s : State) (t : Troupe) (a : Int) : Prop := s.targetWaits t (.path (refOf t p0)) a = none

/-- Branches, taken to the header before the word and not taken. -/
theorem test_meets_Branches :
    Goes s0 t0 p0 (xm 0xFFFFFFFF) Use.none_ all ∧ p0.retry = false ∧
      s0.checkTarget t0 ((p0.pc : Int) + 16 * (xm 0xFFFFFFFF).imm.toInt) = .ok ∧
      Here s0 t0 ((p0.pc : Int) + 16 * (xm 0xFFFFFFFF).imm.toInt) ∧
    Goes s0 t0 p0 (xi 0xFFFFFFFF) { Use.cmd [] [(4, 1)] true with bits := 1 } all ∧ (uni t0 all 4).getLsbD 0 = false ∧
    Goes (sT (tv 1)) (tv 1) p0 (xi 0xFFFFFFFF) { Use.cmd [] [(4, 1)] false with bits := 1 } all ∧ (uni (tv 1) all 4).getLsbD 0 = true ∧
    Goes (sT (tv 0x10000)) (tv 0x10000) p0 x0 (Use.cmd [] [(4, 2)] true) all ∧
      (sT (tv 0x10000)).checkTarget (tv 0x10000) (uniPair (tv 0x10000) all 4).toNat = .ok ∧
      Here (sT (tv 0x10000)) (tv 0x10000) (uniPair (tv 0x10000) all 4).toNat ∧
    Goes s0 t0 p0 (Ins.plain .f01 2 0 0xFFFFFFFF) (Use.lanes [(2, 2)] []) all ∧
    Goes (sT (tv 0x10000)) (tv 0x10000) p0 x0 (Use.cmd [(2, 2)] [(4, 2)] false) all := by decide +kernel

/-- A target that is misaligned, unmapped, beyond either end of the address space, or no header. -/
theorem test_meets_BranchFaults :
    (∀ e ∈ ([(0x10008, 4), (0, 5), (0x10000000000000000, 6)] : List (Nat × Nat)),
      s0.checkTarget t0 e.1 = .fault e.2 ∧ Here s0 t0 e.1) ∧ s0.checkTarget t0 (-16) = .fault 6 ∧ Delivers s0 t0 p0 ∧
    p0.retry = false ∧ Here s0 t0 ((p0.pc : Int) + 16 * (xm 0xFFFFEFFE).imm.toInt) ∧
    s0.checkTarget t0 ((p0.pc : Int) + 16 * (xm 0xFFFFEFFE).imm.toInt) = .fault 6 ∧
    Goes s0 t0 p0 (xm 0xFFFFEFFE) Use.none_ all ∧
    (let t := tR fun _ => [(4, 1)]
     Goes (sT t) t p0 (xi 0xFFFFEFFE) { Use.cmd [] [(4, 1)] false with bits := 1 } all ∧ (uni t all 4).getLsbD 0 = true) ∧
    Goes s0 t0 p0 x0 (Use.cmd [] [(4, 2)] false) all ∧ s0.checkTarget t0 (uniPair t0 all 4).toNat = .fault 5 ∧
    Here s0 t0 (uniPair t0 all 4).toNat ∧
    Goes s0 t0 p0 (Ins.plain .f01 2 0 0xFFFFEFFE) (Use.lanes [(2, 2)] []) all ∧
    Goes s0 t0 p0 x0 (Use.cmd [(2, 2)] [(4, 2)] false) all := by
  decide +kernel

/-- The three answers of a translation that BranchFaults names, and a page whose line and instruction cache line no
die holds. -/
theorem test_meets_BranchFaults_translations :
    s0.translate (s0.sidOf t0) t0.die 0 = .unmapped ∧
    (match s0.translate (s0.sidOf t0) t0.die wordPage with
      | .ok h pa q => decide (q.kind ≠ .device ∧ q.x = true ∧ t0.die < s0.dies.length ∧
          mfind (s0.core t0.die t0.core).icache (codeKey h pa) = none ∧ s0.line? h (pa / 128) = none ∧ pa % 16 = 0 ∧
          s0.pool.wf = true ∧ Memory.byte s0.pool pa = 0)
      | _ => false) = true ∧
    (let s : State := { s0 with subs := s0.subs.map fun u => { u with pages := u.pages.map fun e => (e.1, { e.2 with res := false }) } }
     s.translate (s.sidOf t0) t0.die wordPage = .absent ∧ s.checkTarget t0 wordPage = .swap) := by decide +kernel

/-- A troupe whose slices 0 to 3 take a branch on bit 0 of v4. -/
def tHalf : Troupe := tR fun l => if l < 16 then [(4, 1)] else []

/-- tHalf, parted: slices 6 and 7 follow another path, and the stack holds as many entries as R41's limit leaves. -/
def tParted (b : Option Block) : Troupe :=
  { tHalf with gang := false, paths := [{ p0 with slices := 0x3F, blk := b, stack := List.replicate 14 (.deferred 0 (wordPage + 16)) },
                         { p0 with sel := .ord 1, slices := 0xC0 }] }

/-- Its path 0. -/
def pParted (b : Option Block) : Machine.Path :=
  { p0 with slices := 0x3F, blk := b, stack := List.replicate 14 (.deferred 0 (wordPage + 16)) }

theorem test_meets_BrdMovesAndParts_whole :
    (Goes s0 t0 p0 (xi 0xFFFFFFFF) (Use.lanes [] [(4, 1)]) all ∧ s0.checkTarget t0 (p0.pc + 16) = .ok ∧ p0.again = 0 ∧
      Here s0 t0 (p0.pc + 16) ∧ Here s0 t0 ((p0.pc : Int) + 16 * (xi 0xFFFFFFFF).imm.toInt) ∧
      ∀ k, k < 8 → p0.slices.getLsbD k = true ∧ sliceAll all (fun l => !(t0.reg l 4).getLsbD 0) k = true ∧
        (sliceAll all (fun l => (t0.reg l 4).getLsbD 0) k = false)) ∧
    (Goes (sT (tv 1)) (tv 1) p0 (xi 0xFFFFFFFF) (Use.lanes [] [(4, 1)]) all ∧
      (sT (tv 1)).checkTarget (tv 1) ((p0.pc : Int) + 16 * (xi 0xFFFFFFFF).imm.toInt) = .ok ∧
      Here (sT (tv 1)) (tv 1) (p0.pc + 16) ∧ Here (sT (tv 1)) (tv 1) ((p0.pc : Int) + 16 * (xi 0xFFFFFFFF).imm.toInt) ∧
      ∀ k, k < 8 → p0.slices.getLsbD k = true ∧ slicePresent all k = true ∧
        sliceAll all (fun l => ((tv 1).reg l 4).getLsbD 0) k = true) := by decide +kernel

theorem test_meets_BrdMovesAndParts_ganged :
    Goes (sT tHalf) tHalf p0 (xi 0xFFFFFFFF) (Use.lanes [] [(4, 1)]) all ∧ p0.ordinary = true ∧ tHalf.ganged = true ∧
    (p0.pc : Int) + 16 * (xi 0xFFFFFFFF).imm.toInt ≠ p0.pc + 16 ∧
    (sT tHalf).checkTarget tHalf ((p0.pc : Int) + 16 * (xi 0xFFFFFFFF).imm.toInt) = .ok ∧
    (sT tHalf).checkTarget tHalf (p0.pc + 16) = .ok ∧ p0.again = 0 ∧ Here (sT tHalf) tHalf (p0.pc + 16) ∧
    Here (sT tHalf) tHalf ((p0.pc : Int) + 16 * (xi 0xFFFFFFFF).imm.toInt) ∧
    ∀ k, k < 8 → slicePresent all k = true ∧ (if k < 4 then sliceAll all (fun l => (tHalf.reg l 4).getLsbD 0) k
      else sliceAll all (fun l => !(tHalf.reg l 4).getLsbD 0) k) = true := by decide +kernel

/-- A BRD of tHalf whose taken target lies below the address space, and one whose PC + 16 is the word itself. -/
theorem test_meets_BranchFaults_sets :
    Goes (sT tHalf) tHalf p0 (xi 0xFFFFEFFE) (Use.lanes [] [(4, 1)]) all ∧ Delivers (sT tHalf) tHalf p0 ∧ tHalf.ganged = true ∧
    (sT tHalf).checkTarget tHalf ((p0.pc : Int) + 16 * (xi 0xFFFFEFFE).imm.toInt) = .fault 6 ∧
    (sT tHalf).checkTarget tHalf (p0.pc + 16 * 1) = .ok ∧
    Here (sT tHalf) tHalf ((p0.pc : Int) + 16 * (xi 0xFFFFEFFE).imm.toInt) ∧ Here (sT tHalf) tHalf (p0.pc + 16 * 1) ∧
    (let s : State := { s0 with pool := s0.pool.write wordPage [1, 0, 0, 0, 0, 0, 0, 0, 0, 0, 0, 0, 0, 0, 0, 0, 0, 0, 0, 0, 0, 0, 0, 0, 0, 0, 0, 0, 0, 0, 0, 0, 5] }
     Goes s t0 p0 (xi 0xFFFFEFFE) (Use.lanes [] [(4, 1)]) all ∧ s.checkTarget t0 (p0.pc + 16 * 1) = .fault 4) := by
  decide +kernel

theorem test_meets_BrdMovesAndParts_parted :
    ∀ b ∈ [none, some { hdr := wordPage, len := 1, rcv := 0 }, some { hdr := wordPage, len := 1, rcv := 0x7FFF }],
      (let t := tParted b
       let p := pParted b
       let act : Word := 0x00FFFFFF
       Goes (sT t) t p (xi 0xFFFFFFFF) (Use.lanes [] [(4, 1)]) act ∧ p.ordinary = true ∧ t.ganged = false ∧
         p.stack.length ≤ 14 ∧ (sT t).checkTarget t ((p.pc : Int) + 16 * (xi 0xFFFFFFFF).imm.toInt) = .ok ∧
         (sT t).checkTarget t (p.pc + 16) = .ok ∧
         (∀ c ∈ b, 0 ≤ (c.hdr : Int) + 16 * c.rcv.toInt ∧ (c.hdr : Int) + 16 * c.rcv.toInt < 2 ^ 64) ∧ p.again = 0 ∧
         (sT t).targetWaits t (.path (refOf t p)) ((p.pc : Int) + 16 * (xi 0xFFFFFFFF).imm.toInt) = none ∧
         (sT t).targetWaits t (.path (refOf t p)) (p.pc + 16) = none ∧
         ∀ k, k < 6 → (if k < 4 then sliceAll act (fun l => (t.reg l 4).getLsbD 0) k
           else sliceAll act (fun l => !(t.reg l 4).getLsbD 0) k) = true) := by decide +kernel

/-- Two paths that gang at a REGANG: path 1's slices wait at one. -/
def tWaits : Troupe :=
  { t0 with gang := false, paths := [{ p0 with slices := 0x0F },
      { p0 with sel := .ord 1, slices := 0, waiting := [{ slices := 0xF0, pc := wordPage + 32, blk := none }] }] }

theorem test_meets_RegangMerges :
    Goes s0 t0 p0 (xm 0) Use.none_ all ∧ t0.ganged = true ∧
    (let p := { p0 with slices := 0x0F }
     let q := { p0 with sel := .ord 1, slices := 0, waiting := [{ slices := 0xF0, pc := wordPage + 32, blk := none }] }
     Goes (sT tWaits) tWaits p (xm 0) Use.none_ 0xFFFF ∧ tWaits.ganged = false ∧ tWaits.paths = [p, q] ∧ p.ordinary = true ∧ q.ordinary = true ∧
       p.sel ≠ q.sel ∧ p.stack = [] ∧ p.slices ≠ 0 ∧ q.stack = [] ∧ q.slices = 0 ∧ q.waiting ≠ [] ∧ q.wait = .none ∧
       (∀ w ∈ p.waiting ++ q.waiting, w.slices ≠ 0) ∧
       tWaits.slicesIn .following &&& ~~~slicesOf tWaits.live = 0) := by decide +kernel

theorem test_meets_ExitLeavesLanesExited :
    Goes s0 t0 p0 (xm 0) Use.none_ all ∧ t0.routine = .none ∧ p0.ordinary = true ∧ t0.slices.length = 8 ∧
    t0.NoBarWait := ⟨by decide +kernel, by decide, by decide, by decide, by unfold Troupe.NoBarWait; decide⟩

/-- t0 with its path changed. -/
def tP (f : Machine.Path → Machine.Path) : Troupe := { t0 with paths := [f p0] }

theorem test_meets_PrefetchYieldNopSleep :
    Goes s0 t0 p0 (xm 0) Use.none_ all ∧ Goes s0 t0 p0 (xm 1) Use.none_ all ∧ Goes s0 t0 p0 (xm 65535) Use.none_ all ∧
    p0.retry = false ∧ (∀ e ∈ s0.ens? t0.ens, e.st ≠ .preempting) ∧
    Goes s0 t0 p0 x0 { Use.none_ with un := [(4, 2)], first := true } all ∧
    (∀ n ∈ [0, 1], (sT (tP fun p => { p with wait := .sleep n })).troupe? 1 = some (tP fun p => { p with wait := .sleep n }) ∧
      (tP fun p => { p with wait := .sleep n }).path? (.ord 0) = some { p0 with wait := .sleep n }) ∧
    s0.troupe? 1 = some t0 ∧ t0.path? (.ord 0) = some p0 := by decide +kernel

/-- The lanes of slice 0 in a trap handler, with the other slices on the ordinary path. -/
def tTrapped : Troupe :=
  let t := { t0 with paths := [{ p0 with slices := 0xFE },
      { p0 with sel := .handler 0, origin := .word p0.blk, slices := 1, pc := wordPage + 48 }] }
  t.modSlice 0 fun x => { x with st := .inHandler, fmask := 0xF, fpc := 0x10010 }

/-- The handler path. -/
def pTrapped : Machine.Path := { p0 with sel := .handler 0, origin := .word p0.blk, slices := 1, pc := wordPage + 48 }

/-- s0 with a troupe whose handler path of slice 0 issues. -/
def sH (t : Troupe) : State := { sT t with cur := some { troupe := 1, sel := .handler 0 } }

theorem test_meets_EnableMask :
    Goes s0 t0 p0 x0 (Use.cmd [] [(4, 1)] true) all ∧ p0.again = 0 ∧
    ((sH tTrapped).Issues tTrapped pTrapped ∧
      PassesOn tTrapped (tTrapped.live &&& ((tTrapped.slice 0).fmask &&& sliceLanes (sliceBit 0))) x0
        (Use.cmd [] [(4, 1)] false) 0xF) ∧
    (let x : Ins := { x0 with gc := .g0, g0 := 191 }
     (guardsUsed x).any badCode = false ∧ t0.guarded (t0.live &&& sliceLanes p0.slices) x = 0) ∧
    Goes s0 t0 p0 (Ins.plain .f00 2 0 0) (Use.lanes [(2, 1)] []) all ∧
    (let s : State := { s0 with agenda := [.tick] }
     s.fw.frozen = false ∧ s.fw.resetDue = false ∧ (∀ e ∈ s.ens, e.st ≠ .preempting) ∧ s.onCores t0 = true) := by decide +kernel

/-- The ensemble of s0 with all its barriers as `b`, in the state `st`. -/
def eBar (st : EnsState) (b : Barrier) : Ensemble :=
  { wordEns 2 3 1 with st := st, bars := List.replicate 8 b,
                       sections := (wordEns 2 3 1).sections.map fun c => { c with bars := List.replicate 8 b } }

/-- s0 with that ensemble, and a second troupe beside t0 where `two`. -/
def sBar (st : EnsState) (b : Barrier) (two : Bool) : State :=
  { s0 with ens := [eBar st b], troupes := if two = true then [t0, { t0 with id := 9, idx := 1, slot := 1 }] else [t0] }

/-- A barrier in a phase, with an arrival of troupe 9. -/
def bar (ph : BitVec 16) (gone : Bool) (arrived : List Nat) : Barrier :=
  { phase := ph, arrived := arrived, held := [], partial_ := [], abandoned := gone }

/-- The states of the nine clauses of Barriers, for the two ends of the barrier numbers. -/
theorem test_meets_Barriers_ready :
    ∀ c ∈ [(EnsState.preempting, bar 0 false [], false), (.running, bar 3 true [], false), (.running, bar 0xFFFF false [], false),
        (.running, bar 7 false [9], true), (.running, bar 7 false [], true)], ∀ n ∈ [0, 7, 8, 15],
      (let s := sBar c.1 c.2.1 c.2.2
       let e := eBar c.1 c.2.1
       Goes s t0 p0 (Ins.plain .f01 2 0 (.ofNat 32 n)) (Use.lanes [(2, 1)] []) all ∧
         Goes s t0 p0 (Ins.plain .f10 2 4 (.ofNat 32 n)) { Use.cmd [(2, 1)] [(4, 1)] false with bits := 0xFFFF } all ∧
         n ≤ 15 ∧ p0.retry = false ∧ p0.ordinary = true ∧ t0.ganged = true ∧ s.ens? t0.ens = some e ∧
         t0.sec < e.sections.length ∧ (∀ c ∈ e.sections, c.bars.length = 8) ∧ e.bars.length = 8 ∧
         (e.bar t0.sec n).held = [] ∧ (e.bar t0.sec n).partial_ = [] ∧ e.bar t0.sec n = c.2.1 ∧
         t0.id ∉ (e.bar t0.sec n).arrived) := by decide +kernel

/-- Who else takes part, and the four differences of a token from the phase at which BARWT's clauses meet. -/
theorem test_meets_Barriers :
    t0.NoBarWait ∧
    (∀ u ∈ (sBar .running (bar 7 false [9]) true).troupes, u.id = t0.id ∨ u.id ∈ (bar 7 false [9]).arrived) ∧
    (∃ u ∈ (sBar .running (bar 7 false []) true).troupes, u.ens = t0.ens ∧ u.run = .running ∧ u.sec = t0.sec ∧
      ¬ (u.id = t0.id ∨ u.id ∈ (bar 7 false []).arrived)) ∧
    (∀ e ∈ ([(0, false), (1, true), (32767, true), (32768, false)] : List (Nat × Bool)),
      decide (0 < ((BitVec.ofNat 16 e.1 : BitVec 16) - (uni t0 all 4).extractLsb' 0 16).toNat ∧
        ((BitVec.ofNat 16 e.1 : BitVec 16) - (uni t0 all 4).extractLsb' 0 16).toNat < 32768) = e.2) :=
  ⟨by unfold Troupe.NoBarWait; decide, by decide, by decide, by decide⟩

/-- s0 with a troupe, and the extended set of its pair in a state. -/
def sExt (t : Troupe) (h : Option Nat) : State :=
  (sT t).setExt { ExtSet.new 0 0 0 0 with holder := h, lastEns := some 2, regs := [[(192, 5), (383, 6)]] }

theorem test_meets_ExtendedSet :
    (let t := { t0 with holdsExt := true }
     Goes (sExt t (some 0)) t p0 (xm 0) Use.none_ all ∧ t.owesExt = false) ∧
    Goes (sExt t0 none) t0 p0 (xm 0) Use.none_ all ∧ t0.holdsExt = false ∧ ((sExt t0 none).extOf t0).holder = none ∧
    ((sExt t0 none).extOf t0).freed ≠ some (sExt t0 none).now ∧
    (∀ row ∈ ((sExt t0 none).extOf t0).regs, ∀ q ∈ row, isExt q.1 = true) ∧
    (let s := (sT t0).setExt { (sExt t0 none).extOf t0 with freed := some 0 }
     Goes s t0 p0 (xm 0) Use.none_ all ∧ (s.extOf t0).holder = none ∧ (s.extOf t0).freed = some s.now) ∧
    Goes (sExt t0 (some 1)) t0 p0 (xm 0) Use.none_ all ∧ ((sExt t0 (some 1)).extOf t0).holder ≠ none ∧
    (let t := tP fun p => { p with wait := .xacq }
     ∀ h ∈ [none, some 1], (sExt t h).troupe? 1 = some t ∧ t.path? (.ord 0) = some { p0 with wait := .xacq } ∧
       p0.retry = false ∧ t.holdsExt = false ∧ ((sExt t h).extOf t).holder = h ∧ ((sExt t h).extOf t).freed = none) := by decide +kernel

/-- An operation of a troupe. -/
def op (c : OpClass) (k : OpKind) : Op :=
  { id := 4, cls := c, kind := k, pc := wordPage + 16, own := [.ord 0], lanes := 1, future := none, done := false,
    cancelled := false, fault := none, value := 0, lines := [], waitPage := none }

/-- An access of lane 0. -/
def acc (g : Target) (n : Nat) : Acc :=
  { lane := 0, va := 0, tgt := g, size := n, mask := .ofNat 16 (2 ^ n - 1), data := 0, cmpv := 0, phase := .issued, pass := 0,
    bad := false }

theorem test_meets_ExtendedSet_owed :
    let t := { t0 with holdsExt := true, ops := [op .ld (.load .b32 .weak false 0 192 [acc (.priv 0) 4])] }
    Goes (sExt t (some 0)) t p0 (xm 0) Use.none_ all ∧ t.owesExt = true := by decide +kernel

theorem test_meets_TrapsAndUndefinedWords :
    Goes s0 t0 p0 (xm 0) Use.none_ all ∧ p0.retry = false ∧ Delivers s0 t0 p0 ∧ t0.pathLanes p0 ≠ 0 ∧
    (s0.launchOf t0.ens).bind (·.debugger) = none ∧
    (∀ a ∈ [true, false],
      let s : State := { s0 with launches := s0.launches.map fun l => { l with debugger := some a } }
      Goes s t0 p0 (xm 0) Use.none_ all ∧ (s.launchOf t0.ens).bind (·.debugger) = some a) := by decide +kernel

/-- Row 6 with a pair at an odd code, row 8 with v192, a guard with code 384, v4 poisoned in lane 0, and a value of v4
that differs between lanes. -/
theorem test_meets_OperandFaults :
    (let u := fun (x : Ins) => Use.lanes [(x.d, 1)] [(x.a, 1), (x.b, 1)]
     s0.Issues t0 p0 ∧ Delivers s0 t0 p0 ∧ p0.retry = false ∧
     (∀ e ∈ ([(384, true, false), (510, true, false), (383, false, true), (192, false, true), (191, false, false)] :
         List (Nat × Bool × Bool)),
       let x : Ins := { x0 with a := .ofNat 9 e.1 }
       illegalOperand x (u x) = e.2.1 ∧ (e.2.1 = false → namesExt x (u x) = e.2.2) ∧ t0.holdsExt = false ∧
         t0.guarded (t0.pathLanes p0) x ≠ 0 ∧ (guardsUsed x).any badCode = false) ∧
     (guardsUsed { x0 with gc := .g0, g0 := 384 }).any badCode = true ∧
     (let t := { t0 with lanes := lmod (fun c => { c with poison := [4] }) t0.lanes 0 }
      (sT t).Issues t p0 ∧ Delivers (sT t) t p0 ∧ illegalOperand x0 (u x0) = false ∧ namesExt x0 (u x0) = false ∧
        t.consumed x0 (u x0) all = 0 ∧ t.poisoned x0 (u x0) all ≠ 0)) ∧
    (let x := xi 0
     (sT tHalf).Issues tHalf p0 ∧ Delivers (sT tHalf) tHalf p0 ∧ tHalf.guarded (tHalf.pathLanes p0) x = all ∧
       (guardsUsed x).any badCode = false ∧ illegalOperand x (Use.cmd [] [(4, 1)] false) = false ∧
       namesExt x (Use.cmd [] [(4, 1)] false) = false ∧ tHalf.consumed x (Use.cmd [] [(4, 1)] false) all = 0 ∧
       tHalf.poisoned x (Use.cmd [] [(4, 1)] false) all = 0 ∧ all.getLsbD 0 = true ∧ all.getLsbD 31 = true ∧
       (tHalf.reg 0 4).getLsbD 0 ≠ (tHalf.reg 31 4).getLsbD 0) := by decide +kernel

theorem test_meets_HandlersReturnAndHalt :
    (∀ n ∈ [0, 1], Goes (sH tTrapped) tTrapped pTrapped (xm (.ofNat 32 n)) Use.none_ 0xF) ∧
    tTrapped.Trapped 0 { p0 with slices := 0xFE } pTrapped ∧ pTrapped.origin = .word p0.blk ∧ tTrapped.NoBarWait ∧
    pTrapped.inHandler = true ∧ Goes s0 t0 p0 (xm 0) Use.none_ all ∧ Delivers s0 t0 p0 :=
  ⟨by decide +kernel, by unfold Troupe.Trapped; decide, by decide, by unfold Troupe.NoBarWait; decide, by decide,
   by decide +kernel, by decide +kernel⟩

theorem test_meets_ServiceCallsAndRoutineEnds :
    Goes s0 t0 p0 (xi 1) (Use.cmd [(2, 1)] [(4, 2)] true) all ∧
    (∀ n ∈ [0, 1, 2, 3],
      let p := { p0 with wait := .fwcall (.ofNat 32 n) 5 0 2 all }
      let t := { t0 with paths := [p] }
      (sT t).troupe? 1 = some t ∧ t.path? (.ord 0) = some p ∧ p.retry = false ∧ ((sT t).launchOf t.ens).isSome = true) ∧
    (let t := { t0 with routine := .exit }
     Goes (sT t) t p0 { Ins.plain .f00 0 6 0 with b := 6 } Use.none_ all ∧
       Goes (sT t) t p0 { Ins.plain .f00 0 6 0 with b := 191 } Use.none_ all ∧ (6 : BitVec 9) ≠ 511 ∧ (6 : BitVec 9).toNat ≤ (191 : BitVec 9).toNat ∧
       t.ordPaths = [p0] ∧ ∀ o ∈ t.ops, o.complete 0 = true) ∧
    (let o := op .ld (.load .b32 .weak false 0 4 [acc (.priv 0) 4])
     let t := { t0 with routine := .exit, ops := [o] }
     Goes (sT t) t p0 (xm 0) Use.none_ all ∧ p0.ordinary = true ∧ t.run = .running ∧ o ∈ t.ops ∧ o.cls ≠ .tr ∧
       o.complete (sT t).now = false) ∧
    (let t := { t0 with routine := .entry }
     Goes (sT t) t p0 (xm 0) Use.none_ all ∧ p0.ordinary = true ∧ t.ganged = true ∧ t.ordPaths = [p0] ∧
       ∀ e ∈ (sT t).ens? t.ens, e.pending = false) := by decide +kernel

/-- The byte address in v4:v5 of every lane: the page of the block. -/
def tA : Troupe := tv 0x10000

/-- tA with n operations of a class outstanding. -/
def tBusy (c : OpClass) (n : Nat) : Troupe :=
  { tA with ops := List.replicate n (op c (match c with
      | .ld => .load .b32 .weak false 0 12 [acc (.priv 0) 4]
      | _ => .store .weak false 0 [acc (.priv 0) 4])) }

/-- Every access shape of MemoryAccessesIssue, at a page that may be read and written, with 62 operations of its class
outstanding; and with 63. -/
theorem test_meets_MemoryAccessesIssue :
    (∀ u ∈ [Use.lanes [(2, 1)] [(4, 2)], Use.lanes [(2, 2)] [(4, 2)], Use.lanes [(2, 1)] [(6, 1), (4, 2)],
        Use.lanes [(2, 1)] [(6, 1), (8, 1), (4, 2)]],
      Goes (sT (tBusy .ld 62)) (tBusy .ld 62) p0 x0 u all ∧ (tBusy .ld 62).counter 0 .ld < 63) ∧
    (∀ u ∈ [Use.lanes [] [(2, 1), (4, 2)], Use.lanes [] [(2, 2), (4, 2)]],
      Goes (sT (tBusy .st 62)) (tBusy .st 62) p0 x0 u all ∧ (tBusy .st 62).counter 0 .st < 63) ∧
    (∀ w ∈ [Need.mk true false false, ⟨true, false, true⟩, ⟨false, true, false⟩, ⟨false, true, true⟩], ∀ n ∈ [1, 2, 4, 8, 16],
      (sT tA).checkAccess tA .glob (rdPair (tA.reg 31) 4 + (xi 0).imm.signExtend 64).toNat n w = .inr (.pool 0 0x10000 .priv)) ∧
    Goes (sT (tBusy .ld 63)) (tBusy .ld 63) p0 (xi 0) (Use.lanes [(2, 1)] [(4, 2)]) all ∧ 63 ≤ (tBusy .ld 63).counter 0 .ld ∧
    (∀ w ∈ [Need.mk true false false, ⟨true, false, true⟩, ⟨false, true, false⟩, ⟨false, true, true⟩],
      s0.checkAccess t0 .glob (rdPair (t0.reg 31) 4 + (xi 0).imm.signExtend 64).toNat 4 w = .inl 0x07) ∧
    (∀ u ∈ [Use.lanes [(2, 1)] [(4, 2)], Use.lanes [] [(2, 1), (4, 2)], Use.lanes [(2, 1)] [(6, 1), (4, 2)],
        Use.lanes [(2, 1)] [(6, 1), (8, 1), (4, 2)]], Goes s0 t0 p0 x0 u all) ∧ Delivers s0 t0 p0 ∧ p0.retry = false ∧
    t0.counter 0 .ld < 63 ∧ t0.counter 0 .st < 63 := by
  decide +kernel

/-- The three refusals of an access: misaligned by one, unmapped, and not permitted. -/
theorem test_meets_MemoryAccessesIssue_faults :
    (4 : Nat) ≠ 0 ∧ 0x10001 % 4 ≠ 0 ∧ 0x20000 % 4 = 0 ∧ s0.translate (s0.sidOf t0) t0.die 0x20000 = .unmapped ∧
    (let s : State := { s0 with subs := s0.subs.map fun u => { u with pages := u.pages.map fun e => (e.1, { e.2 with w := false }) } }
     (match s.translate (s.sidOf t0) t0.die 0x10000 with | .ok _ _ p => p.w == false | _ => false) = true) := by decide +kernel

/-- s0 with a private memory, a scratchpad and chip allotments, and a troupe. -/
def sMem (t : Troupe) : State :=
  { sT t with launches := s0.launches.map fun l =>
      { l with hdr := { l.hdr with priv := 1024, scratch := 1 }, chipUnits := 1, chip := [[], [], [], []] } }

/-- A troupe with one operation outstanding. -/
def tOp (o : Op) : Troupe := { t0 with ops := [o] }

/-- The operations of MemoryAccessesPerform, with one access of lane 0. -/
def kindsOf (a : Acc) : List Op :=
  [op .ld (.load .b32 .weak false 0 4 [a]), op .st (.store .weak false 0 [a]),
   op .ld (.atom .add .n32 .tr (some 4) [a]), op .ld (.atomc .b32 .tr 4 [a]), op .st (.atom .add .n32 .tr none [a])]

theorem test_meets_MemoryAccessesPerform :
    ∀ g ∈ [Target.priv 0, .sect 0 0, .chip 0 0, .pool 0 0x10000 .priv], ∀ o ∈ kindsOf (acc g 4),
      (sMem (tOp o)).CanMake (tOp o) o (acc g 4) := by
  intro g hg o ho
  simp only [List.mem_cons, List.not_mem_nil, or_false] at hg
  rcases hg with rfl | rfl | rfl | rfl <;> simp only [kindsOf, List.mem_cons, List.not_mem_nil, or_false] at ho <;>
    rcases ho with rfl | rfl | rfl | rfl | rfl <;>
    refine ⟨by decide +kernel, rfl, of_some rfl (by decide), by decide +kernel, by decide +kernel, rfl, by decide +kernel,
      by decide, by decide, rfl, rfl, by decide, ?_⟩ <;>
    first
      | trivial
      | exact ⟨_, rfl, by decide⟩

/-- A load of one word by two lanes. -/
def twoLoads (g : Target) : Op := op .ld (.load .b32 .weak false 0 4 [acc g 4, { acc g 4 with lane := 1 }])

theorem test_meets_MemoryAccessesPerform_twins :
    (∀ o ∈ kindsOf (acc (.sect 0 0) 4), ∀ b ∈ o.kind.accs, b.meets (acc (.sect 0 0) 4) = true → (sMem (tOp o)).mayMake (tOp o) o b = true) ∧
    ∀ g ∈ [Target.sect 0 0, .chip 0 0, .pool 0 0x10000 .priv],
      (∀ b ∈ (twoLoads g).kind.accs, b.meets (acc g 4) = true → (sMem (tOp (twoLoads g))).mayMake (tOp (twoLoads g)) (twoLoads g) b = true) ∧
      ((twoLoads g).kind.accs.map Acc.lane).Nodup ∧ (acc g 4).size ≤ 16 ∧
      (sMem (tOp (twoLoads g))).CanMake (tOp (twoLoads g)) (twoLoads g) (acc g 4) := by
  refine ⟨by decide +kernel, fun g hg => ?_⟩
  simp only [List.mem_cons, List.not_mem_nil, or_false] at hg
  rcases hg with rfl | rfl | rfl <;>
    refine ⟨by decide +kernel, by decide, by decide, by decide +kernel, rfl, of_some rfl (by decide), by decide +kernel,
      by decide +kernel, rfl, by decide +kernel, by decide, by decide, rfl, rfl, by decide, ?_⟩ <;>
    first
      | trivial
      | exact ⟨_, rfl, by decide⟩

/-- R233: two lanes that load one word get one value, though a store comes between their returns. -/
theorem test_loads_of_one_word_agree :
    (let s := sMem (tOp (twoLoads (.sect 0 0)))
     let s1 := match execLoadReturn 1 (twoLoads (.sect 0 0)).id 1 false s with | .next s => s | _ => s
     let s2 := match s1.troupe? 1 with | some t => s1.writeChip t 0 (.sect 0 0) [5, 5, 5, 5] 15 | none => s1
     let s3 := match execLoadReturn 1 (twoLoads (.sect 0 0)).id 2 false s2 with | .next s => s | _ => s2
     (s3.troupe? 1).map fun t => (t.reg 1 4, t.ops.length)) = some (0, 0) := by decide +kernel

/-- What no register of the extended set takes needs none. -/
theorem test_meets_MemoryAccessesPerform_destinations :
    (∀ w ∈ loadWrites .b128 188 0, isExt w.1 = false) ∧ (acc (.priv 0) 16).size ≤ 16 ∧ (acc (.priv 0) 8).size ≤ 8 := by
  decide +kernel

/-- A held line with one dirty byte, and one that an L1 holds. -/
def lineD : L2Line :=
  { data := [(5, 7)], dirty := [5], accepted := [], raced := [], horizon := 0, pass := 0, passes := [], st := .m,
    coherent := false, leaving := false, once := none }

theorem test_meets_FencesAndLineMaintenance :
    (Goes s0 t0 p0 (xm 0) Use.none_ all ∧ t0.recs = [] ∧ t0.ops = [] ∧ p0.rdPass ≤ s0.now ∧ p0.rdShared = []) ∧
    (let o := op .st (.store .weak false 0 [acc (.priv 0) 4])
     Goes (sT (tOp o)) (tOp o) p0 (xm 0) Use.none_ all ∧ (2 : BitVec 4).getLsbD 1 = true ∧ p0.sel ∈ o.own ∧
       (acc (.priv 0) 4).phase = .issued) ∧
    (let p := { p0 with wait := .fence 2 1 .dev all }
     let t := { t0 with paths := [p] }
     (sT t).troupe? 1 = some t ∧ t.path? p.sel = some p ∧ p.retry = false ∧ t.recs = [] ∧ t.ops = [] ∧ t.run = .running ∧
       p.rdPass ≤ (sT t).now ∧ p.rdShared = [] ∧ ∀ e ∈ (sT t).ens? t.ens, e.st = .running) ∧
    (Goes (sT (tBusy .st 62)) (tBusy .st 62) p0 (xi 64) (Use.lanes [] [(4, 2)]) all ∧ (tBusy .st 62).counter 0 .st < 63 ∧
      ∀ l, l < 32 → (sT tA).checkAccess tA .glob (rdPair (tA.reg l) 4 + (xi 64).imm.signExtend 64).toNat 0 ⟨false, true, false⟩ =
        .inr (.pool 0 0x10040 .priv)) := by decide +kernel

theorem test_meets_FencesAndLineMaintenance_lines :
    (∀ k ∈ [LineOp.inv, .iinv, .wb],
      let o := op .st (.cline k [(0, 512)])
      let s := (sT (tOp o)).putLine 0 512 lineD
      s.troupe? 1 = some (tOp o) ∧ (tOp o).op? 4 = some o ∧ s.inRecovery 0 512 = false ∧ s.asking 0 512 = false ∧
        s.line? 0 512 = some lineD ∧ (tOp o).run = .running ∧ (∀ e ∈ s.ens? t0.ens, e.st = .running) ∧ o.cls = .st ∧
        t0.die < s.dies.length) ∧
    lineD.coherent = false ∧ lineD.raced = [] ∧
    (∀ k ∈ lineD.dirty, k < 128) ∧ lineD.st ≠ .i ∧
    (∀ n ∈ [0, 1], let s := s0.modDie 0 fun D => { D with cores := [(0, { Core.empty with l1 := [(7, { data := [], lease := n, filled := 0, passes := [], bad := false })] })] }
      mfind (s.core 0 0).l1 7 = some { data := [], lease := n, filled := 0, passes := [], bad := false } ∧ 0 < s.dies.length) := by decide +kernel

/-- s0 with mailbox words of every die allotted to the launch, word a of die 0 in a state, and a troupe. -/
def sBox (t : Troupe) (a : Nat) (w : MailboxWord) : State :=
  ({ sT t with launches := s0.launches.map fun l => { l with mboxFirst := 16, mboxCount := 8 } } : State).modDie 0 fun D =>
    { D with mbox := [(a, w)] }

/-- A troupe that names word 16 of die 0, or word 23 of die 3, in v4. -/
def tBox (a : Word) : Troupe := tv a

theorem test_meets_Mailboxes :
    ∀ a ∈ [16, 3 * 65536 + 23], ∀ f ∈ [true, false],
      (let t := tBox (.ofNat 32 a)
       let s := sBox t 16 { full := f, value := 5, waiters := [] }
       Goes s t p0 x0 (Use.cmd [] [(4, 1), (6, 2)] true) all ∧ Goes s t p0 x0 (Use.cmd [(2, 2)] [(4, 1)] false) all ∧
         Goes s t p0 { x0 with d := 12 } (Use.cmd [(12, 4)] [(4, 1)] false) all ∧ Goes s t p0 x0 (Use.cmd [(2, 1)] [(4, 1), (6, 2)] true) all ∧
         Goes s t p0 (Ins.plain .f01 2 0 (.ofNat 32 a)) (Use.cmd [(2, 2)] [] false) all ∧ (uni t all 4).toNat = a ∧
         s.dies.length = 4 ∧ (∃ l ∈ s.launchOf t.ens, l.mayReach a = true) ∧ s.clearWay t (a / 65536) (.mail (refOf t p0)) ∧
         s.waitedWords = [] ∧ (a = 16 → (s.word a).full = f)) := by decide +kernel

/-- Words just beyond the allotment, which no launch of sBox reaches. -/
theorem test_meets_Mailboxes_refused :
    (∀ a ∈ [15, 24, 2 ^ 18 + 16], let t := tBox (.ofNat 32 a)
      let s := sBox t 16 { full := false, value := 0, waiters := [] }
      Goes s t p0 x0 (Use.cmd [] [(4, 1), (6, 2)] true) all ∧ Delivers s t p0 ∧ p0.retry = false ∧
        ∀ l ∈ s.launchOf t.ens, l.mayReach (uni t all 4).toNat = false) := by decide +kernel

/-- A second troupe that waits at word 16 by MBGET. -/
def tGetter : Troupe := { t0 with id := 9, idx := 1, slot := 1, paths := [{ p0 with wait := .mbget 16 510 all }] }

theorem test_meets_Mailboxes_waiter :
    let t := tBox 16
    let p2 := { p0 with wait := .mbget 16 510 all }
    let s1 := sBox t 16 { full := false, value := 0, waiters := [.path (refOf tGetter p2)] }
    let s : State := { s1 with troupes := s1.troupes ++ [tGetter] }
    Goes s t p0 x0 (Use.cmd [] [(4, 1), (6, 2)] true) all ∧ s.waitedWords = [16] ∧ (s.word 16).full = false ∧ s.dies.length = 4 ∧
      (∃ l ∈ s.launchOf t.ens, l.mayReach 16 = true) ∧ s.clearWay t 0 (.mail (refOf t p0)) ∧ (s.word 16).waiters = [.path (refOf tGetter p2)] ∧ s.troupe? 9 = some tGetter ∧ (9 : Nat) ≠ t.id ∧
      tGetter.path? p2.sel = some p2 ∧ p2.retry = false ∧ (510 : Nat) < 512 := by decide +kernel

/-- LDWP at the last channel, whose pointer stands below its limit, and at it. -/
theorem test_meets_Mailboxes_pointers :
    let t := tR fun _ => [(4, 7), (6, 1)]
    Goes (sT t) t p0 x0 (Use.cmd [(2, 1)] [(4, 1), (6, 1)] false) all ∧ (uni t all 4).toNat < ((sT t).headerOf t).chan ∧
      (lget 0 ((sT t).sect t.ens t.sec).wp (uni t all 4).toNat).toNat < (uni t all 6).toNat ∧
      Goes (sT t) t p0 (xi 0) (Use.cmd [(2, 1)] [(4, 1)] true) all ∧ (xi 0).imm.toNat ≤
        (lget 0 ((sT t).sect t.ens t.sec).wp (uni t all 4).toNat).toNat := by decide +kernel

/-- A troupe whose path is about to enter a header that it has fetched. -/
def tHead (w : Slot) : Troupe := tP fun p => { p with blk := none, pc := wordPage, ibuf := some w }

/-- That path. -/
def pHead (w : Slot) : Machine.Path := { p0 with blk := none, pc := wordPage, ibuf := some w }

/-- s0 with its launch changed, and a troupe. -/
def sL (f : Launch → Launch) (t : Troupe) : State := { sT t with launches := s0.launches.map f }

/-- The launch of s0. -/
def l0 : Launch := wordLaunch 3 1

/-- A header of one word that is a refill point, one that enters a region, and the routine-backed one of chapter 02. -/
def hdRfp : Slot := 0x0008000000000100
def hdRgn : Slot := 0x02000010000007020010000000170600

/-- A launch in block mode with its one ensemble's items. -/
def lBlock (next : Nat) (l : Launch) : Launch :=
  { l with hdr := { l.hdr with block := true, elv := 1, tlv := 0 }, next := next, stop := 32 }

/-- tHead with the lanes 0 to 3 Exited. -/
def tSpent (t : Troupe) : Troupe :=
  { t with lanes := (lenum t.lanes).map fun (e : Nat × Lane) => { e.2 with st := if e.1 < 4 then .exited else .live } }

/-- tHead, parted. -/
def tHead2 (w : Slot) : Troupe :=
  { t0 with gang := false, paths := [{ pHead w with slices := 0x0F }, { p0 with sel := .ord 1, slices := 0xF0 }] }

theorem test_meets_PathsEnterHeadersAndRefill_headers :
    (∀ e ∈ [((0x003D0100 : Slot), sT (tHead 0x003D0100)), (hdRfp, sL (lBlock 0) (tHead hdRfp)), (hdRgn, sT (tHead hdRgn)),
        (0, sT (tHead 0))],
      e.2.runner ⟨1, .ord 0⟩ = some (tHead e.1, pHead e.1) ∧ (pHead e.1).blk = none ∧ (pHead e.1).ibuf = some e.1 ∧
        (pHead e.1).ordinary = true ∧ (pHead e.1).atJoin = false ∧ e.2.preempting (tHead e.1) = false ∧
        Delivers e.2 (tHead e.1) (pHead e.1)) ∧
    ((decodeHeader 0x003D0100).map fun h => (h.rgn, h.rfp)) = some (false, false) ∧
    ((decodeHeader hdRfp).map fun h => (h.rgn, h.rfp)) = some (false, true) ∧
    ((decodeHeader hdRgn).map fun h => (h.rgn, h.rfp)) = some (true, false) ∧ decodeHeader 0 = none := by decide +kernel

/-- The hypotheses of the refill point in stream mode, of parted paths, and of the two refill events. -/
theorem test_meets_PathsEnterHeadersAndRefill_refills :
    (∀ n ∈ [30, 31, 32],
      let t := tSpent (tHead hdRfp)
      let l : Launch := { l0 with next := n, stop := 32 }
      (sL (fun l => { l with next := n }) t).runner ⟨1, .ord 0⟩ = some (t, pHead hdRfp) ∧ t.routine = .none ∧ t.ganged = true ∧
        t.paths = [pHead hdRfp] ∧ (sL (fun l => { l with next := n }) t).launchOf t.ens = some l ∧ l.hdr.block = false ∧
        t.live ≠ 0 ∧ t.lanes.length = 32 ∧ (∀ q ∈ t.paths, q.wait = .none)) ∧
    (∀ e ∈ [(tHead2 hdRfp, pHead hdRfp), (tHead2 hdRgn, pHead hdRgn)],
      (sT e.1).runner ⟨1, .ord 0⟩ = some (e.1, { e.2 with slices := 0x0F }) ∧
      e.1.ganged = false ∧ Delivers (sT e.1) e.1 { e.2 with slices := 0x0F }) ∧
    (∀ n ∈ [31, 32], ∀ r ∈ [none, some wordPage],
      let t : Troupe := { t0 with lanes := t0.lanes.map fun c => { c with st := .exited }, paths := [], refillPc := r }
      let s := sL (fun l => { l with next := n }) t
      s.troupe? 1 = some t ∧ (s.launchOf t.ens).map (·.next) = some n ∧ t.run = .running ∧ t.finish = .no ∧
        s.onCores t = true ∧ t.live = 0 ∧ t.inState .exited ≠ 0 ∧ (∀ p ∈ t.paths, p.ordinary = true ∧ p.slices = 0)) ∧
    (∀ n ∈ [0, 31, 32],
      let t : Troupe := { t0 with lanes := t0.lanes.map fun c => { c with st := .exited }, paths := [] }
      let s := sL (lBlock n) t
      s.ens? 2 = some (wordEns 2 3 1) ∧ s.launch? 3 = some (lBlock n l0) ∧ (wordEns 2 3 1).st = .running ∧
        (wordEns 2 3 1).lastRefill = false ∧ (∀ t ∈ s.running 2, t.live = 0 ∧ t.paths = [] ∧ t.finish = .no) ∧
        ∀ t ∈ s.troupes, ∀ u ∈ s.troupes, t.id = u.id → t = u) := by decide +kernel

/-- A path with nothing fetched, and the page of its PC as given. -/
def tFetch (pc : Nat) : Troupe := tP fun p => { p with pc := pc }

def sPage (f : Pte → Pte) (t : Troupe) : State :=
  { sT t with subs := s0.subs.map fun u => { u with pages := u.pages.map fun e => (e.1, f e.2) } }

theorem test_meets_PathsEnterHeadersAndRefill_fetches :
    (∀ e ∈ [(sT (tFetch 0x10010), 0x10010), (sT (tFetch 0), 0), (sPage (fun p => { p with x := false }) (tFetch 0x10010), 0x10010),
        (sPage (fun p => { p with kind := .device }) (tFetch 0x10010), 0x10010),
        (sPage (fun p => { p with res := false }) (tFetch 0x10010), 0x10010)],
      e.1.runner ⟨1, .ord 0⟩ = some (tFetch e.2, { p0 with pc := e.2 }) ∧ e.2 < 2 ^ 64 ∧ (tFetch e.2).routine = .none ∧
        Delivers e.1 (tFetch e.2) { p0 with pc := e.2 }) ∧
    (let s := sT (tFetch 0x10010)
     (match s.translate (s.sidOf t0) 0 0x10010 with
       | .ok h pa q => decide (q.kind ≠ .device ∧ q.x = true ∧ mfind (s.core 0 0).icache (codeKey h pa) = none ∧
           s.line? h (pa / 128) = none ∧ (s.port h pa).isSome = true ∧ q.kind ≠ .coherent ∧ t0.die < s.dies.length ∧
           (s.port h (pa / 128 * 128)).isSome = true ∧ s.full h = false ∧ pa % 16 = 0 ∧ s.pool.wf = true)
       | _ => false) = true) ∧
    s0.translate (s0.sidOf t0) 0 0 = .unmapped ∧
    (sPage (fun p => { p with res := false }) t0).translate 1 0 0x10010 = .absent ∧
    (let s := sPage (fun p => { p with res := false, touched := true }) t0
     (s.page? 1 0x10010).map (fun e => (e.2.res, e.2.touched, e.2.kind == .device, e.2.pa % 128, e.2.size % 128, e.2.home)) =
         some (false, true, false, 0, 0, some 0) ∧ ∀ D ∈ s.dies, D.l2 = []) := by
  decide +kernel

/-- The next ensemble of launch 3, or ensemble `n` swapped out. -/
def cand (n : Option Nat) : Candidate :=
  { swapped := n, launch := 3, prio := 0, since := 0, firstSince := none, request := none, blocking := false }

/-- s0 whose launch has items left, in stream or block mode. -/
def sNew (block : Bool) : State :=
  { s0 with queue := [cand none]
            launches := [if block = true then { lBlock 0 l0 with stop := 50 } else { l0 with stop := 50 }] }

/-- s0 with its ensemble swapped out. -/
def sSwapped (t : Troupe) : State :=
  { sT t with queue := [cand (some 2)], ens := [{ wordEns 2 3 1 with st := .swapped }] }

/-- What the placer takes next. -/
def takes (s : State) : Option (Candidate × Site) :=
  firstSome (fun c => (s.fits c).map fun x => (c, x)) (placeable s.now s.candidates)

/-- The region that hdRgn enters, with the offset of its entry routine. -/
def region (entry : BitVec 24) : Region :=
  { hdr := wordPage, idem := false, exito := 0, entry := entry, save := 0, mask := 0xFF, committed := false }

/-- s0 at clock 65,536 with one core left and its scratchpad given: a launch of a higher priority waits. -/
def sDue : State :=
  let l : Launch := { l0 with dies := 1, hdr := { l0.hdr with scratch := 600 } }
  { s0 with now := 65536, queue := [{ cand none with launch := 5, prio := 7 }]
            dies := s0.dies.map fun D => { D with off := ~~~(1 : DWord) }
            launches := [l, { l with id := 5, stop := 33, hdr := { l.hdr with prio := 7 } }] }

theorem test_meets_PlacementPutsEnsemblesOnCores_new :
    ∀ b ∈ [false, true], (takes (sNew b)).map (·.1) = some (cand none) ∧ (cand none).swapped = none ∧
      ((sNew b).launch? 3).isSome = true ∧ ∀ e ∈ (sNew b).ens, e.id < (sNew b).fresh := by decide +kernel

theorem test_meets_PlacementPutsEnsemblesOnCores_again :
    ∀ t ∈ [{ t0 with finish := .discarded, region := some (region 0) }, { t0 with finish := .ended, region := some (region 0xFFF000) },
        { t0 with finish := .ended, region := some (region 5) }, { t0 with finish := .spilled false }],
      (takes (sSwapped t)).map (·.1) = some (cand (some 2)) ∧ ((sSwapped t).ens? 2).isSome = true ∧ t.live ≠ 0 ∧
        (∀ g, t.region = some g → 0 ≤ (g.hdr : Int) + 16 * g.entry.toInt) ∧ (sSwapped t).troupe? t.id = some t ∧ t.ens = 2 ∧
        t.run = .running ∧ t.lanes.length = 32 ∧ t.slices.length = 8 ∧ t.NoBarWait := by
  unfold Troupe.NoBarWait
  intro t h
  fin_cases h <;> refine ⟨by decide +kernel, by decide +kernel, by decide +kernel, ?_, by decide +kernel, by decide +kernel,
    by decide +kernel, by decide +kernel, by decide +kernel, by decide +kernel⟩ <;> intro g hg <;> cases hg <;> decide +kernel

theorem test_meets_PlacementPutsEnsemblesOnCores_requests :
    takes s0 = none ∧ takes sDue = none := by decide +kernel

theorem test_meets_PreemptionStopsAndSpills_placer :
    (firstSome (fun c => (sDue.target c).map fun e => (c, e)) (sDue.candidates.filter fun c =>
      c.request.isNone && decide (65536 ≤ sDue.now - c.since) && (sDue.fits c).isNone)).map (fun e => (e.1.launch, e.2.id)) =
      some (5, 2) ∧ (sDue.ens? 2).isSome = true ∧ s0.candidates = [] := by decide +kernel

/-- s0 with its ensemble changed. -/
def sE (f : Ensemble → Ensemble) (t : Troupe) : State := { sT t with ens := [f (wordEns 2 3 1)] }

/-- A troupe at a SLEEP, at a BAR, and in its entry routine. -/
def tSleep : Troupe := tP fun p => { p with wait := .sleep 9 }
def tBarW : Troupe := tP fun p => { p with wait := .bar 8 3 510 all }
def tEntry : Troupe := { t0 with routine := .entry }

/-- A Pre-empting ensemble with `n` clocks of its bound. -/
def ePre (n : Nat) (e : Ensemble) : Ensemble := { e with st := .preempting, bound := n, boundMax := 50 }

theorem test_meets_PreemptionStopsAndSpills_ensembles :
    (∀ c ∈ [(sE id t0, wordEns 2 3 1, t0), (sE id tSleep, wordEns 2 3 1, tSleep), (sE id tBarW, wordEns 2 3 1, tBarW),
        (sE id tEntry, wordEns 2 3 1, tEntry), (sE (ePre 50) t0, ePre 50 (wordEns 2 3 1), t0),
        (sE (ePre 49) t0, ePre 49 (wordEns 2 3 1), t0)],
      c.1.ens? c.2.1.id = some c.2.1 ∧ c.1.troupe? c.2.2.id = some c.2.2 ∧ c.2.2.ens = c.2.1.id ∧
        c.2.2.run = .running ∧ c.2.2.finish = .no ∧ c.2.1.pending = false ∧ c.2.2.routine ≠ .exit ∧
        c.1.fw.frozen = false ∧ c.1.fw.resetDue = false) ∧
    (∀ u ∈ (sE id t0).running 2, u.routine ≠ .entry) ∧ (ePre 50 (wordEns 2 3 1)).boundMax ≤ 50 ∧ t0.NoBarWait ∧
    (sE (ePre 49) t0).stoppedEns 2 = false := by unfold Troupe.NoBarWait; decide +kernel

/-- The device after reset with logical core `c` of die 0 worn, or found empty after that, with or without spares. -/
def sWorn (c spares : Nat) : State :=
  State.reset.modDie 0 fun D =>
    { D with spares := spares, strikes := List.replicate 2 { phys := c, mismatch := true, clock := 0 } }
def sFaulty (c spares : Nat) : State := State.reset.modDie 0 fun D => { D with spares := spares, faulty := [(c, c)] }

theorem test_meets_PreemptionStopsAndSpills_cores :
    ∀ c ∈ [0, 63],
      (0 < (sWorn c 4).dies.length ∧ ((sWorn c 4).die 0).logical c = some c ∧ ((sWorn c 4).die 0).worn c 0 = true ∧
        (∀ e ∈ ((sWorn c 4).die 0).faulty, e.1 ≠ c) ∧ (sWorn c 4).ensOn 0 c = []) ∧
      ∀ n ∈ [0, 1, 4], ((sFaulty c n).die 0).logical c = some c ∧ (c, c) ∈ ((sFaulty c n).die 0).faulty ∧
        (sFaulty c n).ensOn 0 c = [] := by decide +kernel

/-- s0 with a debugger on its launch, and t0 with every slice Stopped. -/
def sDbg (t : Troupe) : State := sL (fun l => { l with debugger := some false }) t
def tStopped : Troupe := { t0 with slices := t0.slices.map fun x => { x with st := .stopped } }

theorem test_meets_DebuggerStopsStepsAndReads :
    s0.launch? 3 = some l0 ∧
    (∀ t ∈ [t0, tStopped, { tStopped with holdsExt := true }, tSleep], (sDbg t).troupe? t.id = some t ∧
      (sDbg t).debugged t = true ∧ t.slices.length = 8 ∧ t.run = .running ∧ t.finish = .no ∧ (sDbg t).onCores t = true ∧
      s0.debugged t = false) ∧
    s0.troupe? t0.id = some t0 ∧ tStopped.paths = [p0] ∧ p0.sel = .ord 0 ∧ p0.wait = .none ∧ p0.blk.isSome = true ∧ p0.again = 0 ∧
    (∀ k ∈ [0, 7], (tStopped.slice k).st = .stopped ∧ p0.slices.getLsbD k = true) ∧
    (∀ l ∈ [0, 31], l < tStopped.lanes.length ∧ (tStopped.slice (l / 4)).st = .stopped) := by decide +kernel

/-- A shared-coherent line in a state, with the bytes 5 to 6 accepted where `a`. -/
def lineC (st : Moesi) (a : Bool) : L2Line :=
  { lineD with st := st, coherent := true, accepted := if a = true then [5, 6] else []
               dirty := if st == .m || st == .o || a then [5, 6] else [] }

/-- s0 at clock 9 with line 512 held or not, and a request of it to the switch. -/
def sCxl (l : Option L2Line) (k : Option CxlReq) : State :=
  ({ s0 with now := 9 } : State).modDie 0 fun D =>
    { D with l2 := match l with | some l => [(512, l)] | none => []
             reqs := match k with | some k => [{ line := 512, tag := 0, kind := k, since := 3, who := .service }] | none => [] }

/-- That request. -/
def ask (k : CxlReq) : CxlWait := { line := 512, tag := 0, kind := k, since := 3, who := .service }

theorem test_meets_SwitchAndDeviceKeepLines_answers :
    (∀ k ∈ [CxlReq.rdS, .rdX, .upg], ∀ l ∈ [none, some (lineC .i true)],
      (sCxl l (some k)).request? 0 512 0 [.rdS, .rdX, .upg] = some (ask k) ∧ (ask k).keep = true ∧ 0 < (sCxl l (some k)).dies.length ∧
        (k = .rdS → (sCxl l (some k)).request? 0 512 0 [.rdS] = some (ask k)) ∧
        (((sCxl l (some k)).line? 0 512).all fun x => x.st == .i) = true ∧ (sCxl l (some k)).asker (ask k).who = none) ∧
    (∀ st ∈ [Moesi.s, .o], (sCxl (some (lineC st true)) (some .upg)).request? 0 512 0 [.upg, .wb, .evc] = some (ask .upg) ∧
      (sCxl (some (lineC st true)) (some .upg)).line? 0 512 = some (lineC st true)) ∧
    (∀ k ∈ [CxlReq.wb, .evc], (sCxl none (some k)).request? 0 512 0 [.upg, .wb, .evc] = some (ask k) ∧ k ≠ .upg) ∧
    (sCxl none none).line? 0 512 = none ∧
    (let r := { ask .rdS with keep := false }
     let s := (sCxl none none).modDie 0 fun D => { D with reqs := [r] }
     s.request? 0 512 0 [.rdS] = some r ∧ r.keep = false ∧ r.also = [] ∧ s.asker r.who = none ∧ s.line? 0 512 = none ∧
       (s.die 0).reqs = [r]) := by decide +kernel

/-- A load of a coherent line, whose request the switch answers for it alone. -/
theorem test_meets_SwitchAndDeviceKeepLines_access :
    let a := acc (.pool 0 0x10000 .coherent) 4
    let o := op .ld (.load .b32 .weak false 0 4 [a])
    let r := { ask .rdS with who := .lane 1 4 0 }
    let s := (sT (tOp o)).modDie 0 fun D => { D with reqs := [r] }
    0 < s.dies.length ∧ s.request? 0 512 0 [.rdS, .rdX, .upg] = some r ∧ s.line? 0 512 = none ∧
      r.who = .lane (tOp o).id o.id a.lane ∧ s.asker r.who = some (tOp o, o, a) ∧ s.inRecovery 0 512 = false ∧
      0x10000 / 128 = 512 ∧ 0x10000 % 128 + a.size ≤ 128 ∧ a.size ≤ 16 ∧ s.troupe? 1 = some (tOp o) ∧
      (tOp o).op? 4 = some o ∧ s.errs = [] := by decide +kernel

/-- The line with its horizon at a clock. -/
def lineH (l : L2Line) (n : Nat) : L2Line := { l with horizon := n }

/-- sCxl with snoops waiting at the line. -/
def sSnoop (l : L2Line) (q : List Snoop) : State := (sCxl (some l) none).modDie 0 fun D => { D with snoops := q }

theorem test_meets_SwitchAndDeviceKeepLines_snoops :
    (∀ st ∈ [Moesi.m, .o, .e, .s, .i], (sCxl (some (lineH (lineC st false) 9)) none).line? 0 512 = some (lineH (lineC st false) 9)) ∧
    (sCxl (some (lineH (lineC .m false) 10)) none).line? 0 512 = some (lineH (lineC .m false) 10) ∧
    (sCxl none none).now = 9 ∧
    (∀ st ∈ [Moesi.m, .o], ∀ a ∈ [true, false], let l := lineH (lineC st a) 9
      (sCxl (some l) none).line? 0 512 = some l ∧ (l.accepted = [] ↔ a = false)) ∧
    (∀ l ∈ [lineD, lineC .m false, lineC .e false],
      let s := sCxl (some l) none
      s.line? 0 512 = some l ∧ (s.die 0).snoops = [] ∧ s.asking 0 512 = false ∧ s.inRecovery 0 512 = false ∧
        l.once = none ∧ (l.coherent = false ∨ l.st ≠ .i)) ∧
    (∀ i ∈ [true, false], let s := sSnoop (lineC .m false) [⟨3, true, 0⟩, ⟨512, i, 1⟩]
      ((s.die 0).snoops.filter fun e => e.line == 512) = [⟨512, i, 1⟩] ∧ (lineC .m false).accepted = [] ∧
        s.line? 0 512 = some (lineC .m false)) := by decide +kernel

/-- The port that carries line 512 of die 0. -/
def port512 : Nat := (s0.port 0 0x10000).getD 0

theorem test_meets_SwitchAndDeviceKeepLines_recovery :
    (∀ s ∈ [sCxl (some (lineC .m false)) (some .rdS), sCxl (some lineD) (some .wb)],
      port512 ∉ (s.die 0).portsDown ∧ mrising (s.die 0).l2 = true ∧ s.port 0 (512 * 128) = some port512 ∧
        (∀ D ∈ Die.reset :: s.dies, D.fails = []) ∧ (∀ r ∈ (s.die 0).reqs, ∀ w ∈ r.who :: r.also, s.asker w = none) ∧ ∀ t ∈ s.troupes, ∀ p ∈ t.paths, p.wait = .none) ∧
    (∀ l ∈ [lineC .m false, lineD], ∀ k ∈ l.dirty, k < 128) ∧
    (∀ r ∈ ((sCxl none none).die 0).reqs, r.kind = .wb → (sCxl none none).inRecovery 0 r.line = false) ∧
    ((sCxl none none).die 0).fails = [] := by decide +kernel

/-- An access that has entered a die-to-die channel to die 1. -/
def accX : Acc := { acc (.chip 1 0x100) 4 with phase := .entered, data := 0x01020304 }

/-- sMem with its request at the head of the channel from die 0 to die 1. -/
def sCh (o : Op) : State := { sMem (tOp o) with channels := [(1, [.lane 1 4 0])] }

theorem test_meets_SwitchAndDeviceKeepLines_channels :
    ∀ o ∈ [op .ld (.load .b32 .weak false 0 4 [accX]), op .st (.store .weak false 0 [accX])],
      mget [] (sCh o).channels (0 * 4 + 1) = [.lane (tOp o).id o.id accX.lane] ∧
        (sCh o).troupe? (tOp o).id = some (tOp o) ∧ (tOp o).op? o.id = some o ∧
        (o.kind.accs.find? fun b => b.lane == accX.lane) = some accX ∧ accX.phase = .entered ∧ accX.tgt = .chip 1 0x100 ∧
        (sCh o).errs = [] ∧ 0 < accX.size ∧ accX.size ≤ 16 ∧
        ((sCh o).launchOf (tOp o).ens).map (fun l => decide (1 < l.chip.length)) = some true := by decide +kernel

/-- A message of an op with some bytes given, and the rest 0. -/
def msg (op : Nat) (bs : List (Nat × Nat)) : List Byte :=
  (List.range (0x80 + bodyBytes op)).map fun k =>
    BitVec.ofNat 8 (if k = 0 then op else match bs.find? fun e => e.1 == k with | some e => e.2 | none => 0)

/-- A submitter with one queue at sequence number 5. -/
def queue0 : CmdQueue := { num := 0, next := 5, cmds := [50], lastCmd := none, held := [] }
def sub0 (operator : Bool) (q : CmdQueue) : Submitter :=
  { sid := 1, addr := 7, operator := operator, pages := [], handler := 0, queues := [q] }

/-- The device after reset with that submitter, dependency words 16 and 510 of die 0 granted to it, and some
commands. -/
def sCmds (u : Submitter) (cs : List Command) : State :=
  ({ State.reset with fresh := 60, subs := [u], cmds := cs } : State).modDie 0 fun D =>
    { D with depOwner := [(16, 1), (510, 1)] }

/-- Command 50, of an op and a state. -/
def cmd (op : Nat) (bs : List (Nat × Nat)) (st : CmdState) : Command := { cmdOf 50 1 (msg op bs) none with st := st }

/-- The state with that command alone. -/
def sOne (c : Command) : State := sCmds (sub0 true queue0) [c]

/-- A wait entry at word 16 with its flags, and a signal entry at word 16 with a mode. -/
def waitAt (f : Nat) : List (Nat × Nat) := [(3, 1), (0x10, 16), (0x14, f)]
def sigAt (m : Nat) : List (Nat × Nat) := [(3, 0x10), (0x30, 16), (0x34, m), (0x38, 9)]

/-- A state with word 16 of die 0 as given. -/
def withWord (s : State) (w : MailboxWord) : State := s.modDie 0 fun D => { D with mbox := [(16, w)] }
def full (ws : List Waiter) : MailboxWord := { full := true, value := 3, waiters := ws }

theorem test_meets_CommandsArriveStartAndComplete_arrivals :
    (sCmds (sub0 false queue0) []).parsing = true ∧ (sCmds (sub0 false queue0) []).sub? 1 = some (sub0 false queue0) ∧
    (sCmds (sub0 false queue0) []).waitedWords = [] ∧ (sCmds (sub0 false queue0) []).fw.committing = none ∧
    (sCmds (sub0 false queue0) []).fw.recovery = false ∧
    (∀ n ∈ [0, 4, 5, 6], fld (msg 3 [(4, n)]) 4 4 = n ∧ (sub0 false queue0).queue? (fld (msg 3 [(4, n)]) 1 1 % 16) = some queue0) ∧
    (sCmds (sub0 false queue0) []).rejection (sub0 false queue0) queue0 (msg 3 [(4, 5)]) = none ∧
    (∀ e ∈ [(0, (0x01, 0)), (6, (0x01, 0)), (0x0F, (0x01, 0)), (0x19, (0x01, 0)), (0x1F, (0x01, 0)), (0x30, (0x01, 0)),
        (0xFF, (0x01, 0)), (0x22, (0x0B, 0)), (0x2E, (0x0B, 0))],
      (knownOp (fld (msg e.1 [(4, 5)]) 0 1) = false ↔ e.2.1 = 1) ∧
        (e.1 ∈ [0x22, 0x2E] → malformed (msg e.1 []) = none ∧ operatorOp e.1 = true)) ∧
    malformed (msg 3 [(2, 4)]) = some 2 ∧ malformed (msg 0x20 [(0x8F, 1)]) = some 0x8F ∧ (sub0 true queue0).operator = true := by
  decide +kernel

theorem test_meets_CommandsArriveStartAndComplete_starts :
    (∀ c ∈ [cmd 3 [] .arrived, cmd 3 (waitAt 0) .arrived, cmd 3 ([(0x10, 17)] ++ waitAt 0) .arrived, cmd 3 (sigAt 0) .draining,
        cmd 3 (waitAt 0) .waiting],
      (sOne c).cmd? c.id = some c ∧ (sOne c).waitedWords = [] ∧ (sOne c).dies.length = 4) ∧
    ((sOne (cmd 3 [] .arrived)).mayWait (cmd 3 [] .arrived) = true ∧ (cmd 3 [] .arrived).waits = [] ∧
      (sOne (cmd 3 [] .arrived)).badAddr (cmd 3 [] .arrived) = none) ∧
    (let c := cmd 3 ([(0x10, 17)] ++ waitAt 0) .arrived
     (sOne c).mayWait c = true ∧ (sOne c).badAddr c = some 17) ∧
    (∀ f ∈ [0, 1, 2, 3],
      let c := cmd 3 (waitAt f) .waiting
      let s := if f % 2 = 1 then withWord (sOne c) (full []) else sOne c
      s.mayWait c = false ∧ s.canStart c = true ∧ s.waitedWords = [] ∧ c.waits.map (·.addr) = [16] ∧
        (let s := withWord (sOne c) { full := f % 2 = 1, value := 3, waiters := [.start 50] }
         s.waitedWords = [16] ∧ (s.word 16).waiters = [.start c.id] ∧ s.canStart c = true)) := by decide +kernel

/-- A started command whose effect is made. -/
def made (bs : List (Nat × Nat)) (status : Nat) : Command := { cmd 3 bs .started with effect := true, status := status }

theorem test_meets_CommandsArriveStartAndComplete_ends :
    (∀ c ∈ [made [] 0, made (sigAt 0) 5, made (sigAt 0) 0, made (sigAt 1) 0, made (sigAt 2) 0],
      (sOne c).cmd? c.id = some c ∧ c.effect = true ∧ c.st = .started ∧ c.lines = [] ∧ c.node = none ∧ c.op ≠ 0x2E) ∧
    (made [] 0).sigs = [] ∧ (made (sigAt 0) 5).status ∈ [0x01, 0x02, 0x05, 0x09] ∧
    (∀ m ∈ [0, 1, 2], (made (sigAt m) 0).sigs = [{ addr := 16, mode := m, value := 9 }] ∧
      ((sOne (made (sigAt m) 0)).word 16).full = false ∧
      ((withWord (sOne (made (sigAt m) 0)) (full [])).word 16).full = true ∧
      (withWord (sOne (made (sigAt m) 0)) (full [])).waitedWords = []) ∧
    (let c := { cmd 3 (sigAt 0) .draining with effect := true, sigsLeft := 1 }
     (sOne c).cmd? c.id = some c ∧ c.st = .draining ∧ ((sOne c).word 16).full = false) := by decide +kernel

/-- R366: of two commands that consume one full word, that of the lower queue number starts, though the other began to
wait first. -/
theorem test_consumers_start_by_queue :
    (let c := cmd 3 (waitAt 3) .waiting
     let s := withWord (sCmds (sub0 true queue0) [{ c with queue := 3 }, { c with id := 51, queue := 1 }])
       (full [.start 50, .start 51])
     (s.serveMail.cmds.map fun c => (c.id, c.st)) = [(50, .waiting), (51, .started)] ∧
       s.serveMail.word 16 = { full := false, value := 3, waiters := [.start 50] }) := by decide +kernel

/-- A command with TAG 5, and a command 51 that names it. -/
def named (st : CmdState) : Command := { cmd 3 [(8, 5)] st with queue := 1 }
def asks (op : Nat) : Command := { cmdOf 51 1 (msg op [(0x80, 5)]) none with st := .started }

theorem test_meets_CommandsArriveStartAndComplete_queries :
    (∀ op ∈ [3, 4, 5], ∀ st ∈ [CmdState.arrived, .waiting, .started, .draining, .complete],
      let s := sCmds (sub0 true queue0) [named st, asks op]
      s.started 51 op = some (asks op) ∧ s.cmd? 50 = some (named st) ∧
        (op ≠ 3 → s.tagged (asks op) (BitVec.ofNat 64 (fld (asks op).msg 0x80 8)) = some (named st))) ∧
    (let d := { named .started with effect := true }
     let s := sCmds (sub0 true queue0) [d, asks 5]
     s.started 51 5 = some (asks 5) ∧ s.tagged (asks 5) (BitVec.ofNat 64 (fld (asks 5).msg 0x80 8)) = some d ∧ d.effect = true) ∧
    (named .arrived).sigs = [] ∧ (named .arrived).lines = [] ∧ State.reset.sub? 1 = none ∧
    ({ State.reset with fw := { Firmware.reset with config := { digest := 0, admission := [(7, true)] } } } : State).roleOf 7 =
      some true ∧ State.reset.roleOf 7 = none ∧
    (∀ pa ∈ [0, 2 ^ 46 - 3], State.reset.sharedPa pa = false ∧ State.reset.sharedPa (pa + 2) = false ∧ pa + 3 ≤ 2 ^ 46) := by
  decide +kernel

/-- A launch header of one section of one troupe, with the byte at an offset changed. -/
def lhdr (o v : Nat) : List Byte :=
  (List.range 32).map fun k => BitVec.ofNat 8 (if k = o then v else if k = 1 ∨ k = 2 ∨ k = 4 then 1 else 0)

/-- A launch of command 50 before its admission, its header at an address. -/
def newLaunch (a : Nat) : Launch :=
  { l0 with id := 8, cmd := 50, admitted := false, lhdr := a, next := 5, stop := 37, chipUnits := 2, mboxCount := 3,
            dies := 3, handedOut := 0, firstPlaced := none, nextNum := 0 }

/-- s0 with that launch, and a header at 0x10080. -/
def sLaunch (l : Launch) (h : List Byte) : State :=
  { s0 with launches := [l], fresh := 60, cmds := [cmd 1 [] .started], pool := s0.pool.write 0x10080 h, ens := [], troupes := [] }

/-- What the service reads as the header. -/
def headRead (l : Launch) (h : List Byte) : Option (State × List Byte) :=
  match (sLaunch l h).svcRead 1 l.lhdr 0 32 with
  | .ok s b _ => some (s, b)
  | _ => none

theorem test_meets_LaunchesAndGraphs_admissions :
    (∀ e ∈ [(0x10081, 33, 0), (0, 33, 0), (0x10080, 1, 0), (0x10080, 33, 0)],
      let l := newLaunch e.1
      let s := sLaunch l (lhdr e.2.1 e.2.2)
      s.launch? l.id = some l ∧ s.cmd? l.cmd = some (cmd 1 [] .started) ∧ (cmd 1 [] .started).node = none ∧
        (s.launches.find? fun k => k.cmd == l.cmd && !k.admitted && !k.complete) = some l ∧
        s.isNextLaunch (cmd 1 [] .started) = true ∧ l.checked = false ∧ s.dies.length = 4) ∧
    (0x10081 % 32 ≠ 0 ∧ 0x10080 % 32 = 0 ∧ 0 % 32 = 0) ∧
    (sLaunch (newLaunch 0) (lhdr 33 0)).svcRead 1 0 0 32 = .bad 0 ∧
    (headRead (newLaunch 0x10080) (lhdr 1 0)).bind (fun e => e.1.headerBad 1 e.2) = some 1 ∧
    (headRead (newLaunch 0x10080) (lhdr 0x1F 1)).bind (fun e => e.1.headerBad 1 e.2) = some 0x1A ∧
    (∀ l ∈ [newLaunch 0x10080, { newLaunch 0x10080 with chipUnits := 65535 }],
      (headRead l (lhdr 0x18 1)).map (fun e => (e.1.headerBad 1 e.2, decide (l.chipUnits ≤ e.1.chipCapacity ∧ l.mboxCount ≤ 61440 ∧
        (dieList l.dies).any e.1.dieWorks = true), e.1.lowestWords l.dies l.mboxCount,
        decide ((e.1.holding.map Launch.chipUnits).sum + l.chipUnits ≤ e.1.chipCapacity),
        e.1.slotsFree l.dies (headerOfBytes e.2).umMask)) =
          some (none, decide (l.chipUnits = 2), some 4096, decide (l.chipUnits = 2), true)) := by decide +kernel

/-- A launch whose ensembles have retired, by the way it ends. -/
def ends (st : Option Nat) (hs : List (Nat × Nat)) : Launch := { l0 with cmd := 50, endStatus := st, halts := hs }
def sEnds (l : Launch) : State :=
  { s0 with launches := [l], cmds := [cmd 1 [] .running], ens := [{ wordEns 2 3 1 with st := .retired }] }

/-- A node table of two nodes, the second after the first. -/
def nodes2 : List NodeEntry := [{ pred := 0, succ := [1], sigs := [], body := [] }, { pred := 1, succ := [], sigs := [], body := [] }]

/-- A started command of an op, without or with node table 0. -/
def sGraph (es : List NodeEntry) : State :=
  { sOne (cmd 2 [] .started) with nodeTables := if es = [] then [] else [(0, es)] }

theorem test_meets_LaunchesAndGraphs_ends :
    (sOne (cmd 1 [(0x98, 1)] .started)).started 50 1 = some (cmd 1 [(0x98, 1)] .started) ∧
    (sOne (cmd 1 [(0x98, 1)] .started)).launches = [] ∧
    (∀ l ∈ [ends none [], ends (some 6) [], ends none [(0x10010, 0x0C)]],
      (sEnds l).launch? l.id = some l ∧ (sEnds l).cmd? l.cmd = some (cmd 1 [] .running) ∧ (cmd 1 [] .running).node = none ∧
        (sEnds l).launchOver l = true ∧ (sEnds l).launchQuiet l = true ∧ ∀ t ∈ (sEnds l).troupesOf l.id, ∀ o ∈ t.ops, o.fault = none) ∧
    (let l := { l0 with tlimit := 1, cmd := 50 }
     (sL (fun _ => l) t0).launch? l.id = some l ∧ l.firstPlaced = some 0 ∧ l.tlimit ≠ 0 ∧ l.complete = false ∧
       l.endStatus = none ∧ (0 : Nat) + l.tlimit * 1800000 ≤ 1800000 ∧ 1799999 < 0 + l.tlimit * 1800000) ∧
    (∀ es ∈ [[], nodes2], (sGraph es).started 50 2 = some (cmd 2 [] .started) ∧ (sGraph es).graph? 50 = none ∧
      mget [] (sGraph es).nodeTables (fld (cmd 2 [] .started).msg 0x80 4) = es ∧ (sGraph es).graphs = []) := by decide +kernel

/-- A message with the eight bytes of a value from an offset. -/
def at8 (o v : Nat) : List (Nat × Nat) := (List.range 8).map fun k => (o + k, v / 256 ^ k % 256)

/-- The pages and memory of s0 with no launch, and a started command 50 of its submitter. -/
def sC (op : Nat) (bs : List (Nat × Nat)) : State :=
  { s0 with fresh := 60, cmds := [cmd op bs .started], troupes := [], ens := [], launches := [] }

/-- A node entry of one item, its PRED given. -/
def node1 (pred : Nat) : List Byte :=
  (List.range 256).map fun k => BitVec.ofNat 8 (if k = 0 then pred else if k = 0x98 then 1 else 0)

/-- NODES of one node at 0x10100. -/
def cNodes : List (Nat × Nat) := (0x84, 1) :: at8 0x88 0x10100
def sNodes (pred : Nat) : State := { sC 0x10 cNodes with pool := s0.pool.write 0x10100 (node1 pred) }

/-- What the service reads. -/
def svcBytes (s : State) (va n : Nat) : Option (State × List Byte) :=
  match s.svcRead 1 va 0 n with
  | .ok s b _ => some (s, b)
  | _ => none

theorem test_meets_TableCommands_nodes :
    (∀ e ∈ [(0, none), (1, some 0)], (sNodes e.1).started 50 0x10 = some (cmd 0x10 cNodes .started) ∧
      (sNodes e.1).tableBusy (fld (cmd 0x10 cNodes .started).msg 0x80 4) = false ∧
      (svcBytes (sNodes e.1) 0x10100 256).map (fun x => firstBad (tableChecks x.2 1)) = some e.2) ∧
    (sC 0x11 []).started 50 0x11 = some (cmd 0x11 [] .started) ∧ (sC 0x11 []).tableBusy 0 = false ∧
    ({ sC 0x11 [] with graphs := [{ cmd := 9, table := 0, counters := [], started := [], done := [], ready := [] }] } : State).tableBusy
      0 = true := by decide +kernel

/-- MAP, UNMAP and PROTECT of one page of 64 KiB at an address; a template of KIND `k`. -/
def cPage (va k : Nat) : List (Nat × Nat) := at8 0x80 va ++ [(0x8F, k * 8), (0x90, 1)]

theorem test_meets_TableCommands_pages :
    (∀ va ∈ [0x10000, 0x20000], (sC 0x12 (cPage va 0)).started 50 0x12 = some (cmd 0x12 (cPage va 0) .started) ∧
      ((sC 0x12 (cPage va 0)).sub? 1).map (fun u => mappedIn u.pages va 65536) = some (decide (va = 0x10000))) ∧
    (∀ op ∈ [0x13, 0x14],
      let s := sC op (cPage 0x10000 0)
      let c := cmd op (cPage 0x10000 0) .started
      s.started 50 op = some c ∧ ((s.pagesNamed c).map fun ps => ps.map (·.1)) = some [0x10000] ∧
        ((s.pagesNamed c).map fun ps => ps.all fun e => s.pageQuiet 1 e.2) = some true ∧
        ((s.pagesNamed c).map fun ps => ps.all fun e => e.2.kind != .device) = some true) ∧
    (pteOf (fld (cmd 0x14 (cPage 0x10000 2) .started).msg 0x88 8) 0).kind = .noncoherent ∧
    (pteOf (fld (cmd 0x14 (cPage 0x10000 3) .started).msg 0x88 8) 0).kind = .device ∧
    (let o := op .ld (.load .b32 .weak false 0 4 [acc (.pool 0 0x10000 .priv) 4])
     let s : State := { sT (tOp o) with cmds := [cmd 0x13 (cPage 0x10000 0) .started] }
     s.started 50 0x13 = some (cmd 0x13 (cPage 0x10000 0) .started) ∧
       ((s.pagesNamed (cmd 0x13 (cPage 0x10000 0) .started)).map fun ps => ps.all fun e => s.pageQuiet 1 e.2) = some false) ∧
    (let c := cmd 0x13 (at8 0x80 0x10000 ++ [(0x8F, 0), (0x90, 1)]) .started
     let s : State := { sC 0x13 [] with cmds := [c], subs := s0.subs.map fun (u : Submitter) => { u with pages := u.pages.map fun (e : Nat × Pte) => (0, { e.2 with size := 2097152 }) } }
     s.started 50 0x13 = some c ∧ s.pagesNamed c = none) := by decide +kernel

/-- A group of three members, the second this device. -/
def grp (st : GroupState) (live : Bool) (at_ : Option Nat) : Group :=
  { num := 4, sid := 1, st := st, cmd := 50, self := 1, tmo := 2, gen := 7, formedAt := 0, notices := [],
    members := [{ addr := 1, live := live, failedAt := at_ }, { addr := 2, live := true, failedAt := none },
      { addr := 3, live := true, failedAt := none }] }
def sGrp (op : Nat) (bs : List (Nat × Nat)) (g : Group) : State := { sC op bs with groups := [g] }

/-- One whose first member has not confirmed and whose third is Lost, and a Forming one whose fourth has not confirmed. -/
def gLost (st : GroupState) : Group :=
  let g := grp st false none
  { g with members := lmod (fun m => { m with live := false, lost := true }) g.members 2 }
def gForm : Group :=
  let g := grp .forming true none
  { g with members := g.members ++ [{ addr := 4, live := false, failedAt := none }] }

/-- GROUP 4 of two members listed at 0x10200. -/
def cGroup : List (Nat × Nat) := [(0x80, 4), (0x82, 2), (0x84, 1), (0x86, 2)] ++ at8 0x88 0x10200

theorem test_meets_TableCommands_rings_and_groups :
    (∀ op ∈ [0x15, 0x16], (sC op [(0x80, 255), (0x81, 15), (0x82, 1)]).started 50 op =
      some (cmd op [(0x80, 255), (0x81, 15), (0x82, 1)] .started)) ∧ (sC 0x16 []).ringsNamed 1 4095 1 = false ∧
    ((sC 0x17 cGroup).started 50 0x17 = some (cmd 0x17 cGroup .started) ∧ (sC 0x17 cGroup).groups = [] ∧
      (svcBytes (sC 0x17 cGroup) 0x10200 32).map (fun e => ((List.range 2).all fun k => fld e.2 (16 * k + 8) 8 == 0)) = some true) ∧
    (∀ g ∈ [{ grp .active true none with sid := 2, cmd := 9 }, { grp .active true none with cmd := 9 }],
      (sGrp 0x17 cGroup g).started 50 0x17 = some (cmd 0x17 cGroup .started) ∧ (sGrp 0x17 cGroup g).group? 4 = some g ∧
        50 ∉ g.cmds ∧ (g.sid ≠ 1 ∨ g.st = .active)) ∧
    (∀ g ∈ [grp .forming true none, grp .forming false none, grp .active true none, grp .active true (some 0)],
      (sGrp 0x17 cGroup g).group? g.num = some g ∧ (sGrp 0x17 cGroup g).cmd? g.cmd = some (cmd 0x17 cGroup .started)) ∧
    (let g := { grp .forming true none with cmd := 9, also := [8] }
     (sGrp 0x17 cGroup g).started 50 0x17 = some (cmd 0x17 cGroup .started) ∧ (sGrp 0x17 cGroup g).group? 4 = some g ∧
       50 ∉ g.cmds ∧ g.sid = 1 ∧ g.st ≠ .active ∧
       (svcBytes (sGrp 0x17 cGroup g) 0x10200 32).map (fun e => ((List.range 2).all fun k => fld e.2 (16 * k + 8) 8 == 0)) = some true) ∧
    (∀ g ∈ [gLost .forming, gForm], (sGrp 0x17 cGroup g).group? g.num = some g ∧ (sGrp 0x17 cGroup g).parsing = true ∧
      g.st = .forming ∧ (g.members.any fun m => m.lost) = (g == gLost .forming)) ∧
    (grp .active true (some 0)).tmo * 1800000 = 3600000 ∧ (sGrp 0x17 cGroup (grp .active true none)).parsing = true ∧
    (∀ n ∈ [3599999, 3600000], ((grp .forming true none).formedAt + (grp .forming true none).tmo * 1800000 ≤ n ↔ n = 3600000)) ∧
    ((sGrp 0x18 [(0x80, 4)] (grp .dissolved true none)).started 50 0x18 = some (cmd 0x18 [(0x80, 4)] .started) ∧
      (sGrp 0x18 [(0x80, 4)] (grp .dissolved true none)).group? 4 = some (grp .dissolved true none) ∧
      (sGrp 0x18 [] (grp .dissolved true none)).naming = []) := by decide +kernel

/-- A troupe with a COLL of group 4 outstanding. -/
def tColl : Troupe := tOp (op .cl (.coll .allred .f32 4 7 0x10300 { slots := [0, 1, 2] }))

theorem test_meets_TableCommands_dissolved :
    let s : State := { sGrp 0x17 [] (grp .active true none) with troupes := [tColl], ens := s0.ens, launches := s0.launches }
    s.parsing = true ∧ s.group? 4 = some (grp .active true none) ∧ (grp .active true none).self < 3 ∧
      (∀ t ∈ s.troupes, ∀ u ∈ s.troupes, t.id = u.id → t = u) ∧ ∀ t ∈ s.troupes, ∀ o ∈ t.ops, o.future = none := by decide +kernel

/-- Whether the result area of `n` bytes at va lies in writable, resident pages of home 0 from pa on. -/
def areaOk (s : State) (va n pa : Nat) : Bool :=
  decide (va + n ≤ Config.windowBase ∧ 0 < s.dies.length) && (s.die 0).portsDown == [] &&
    decide ((∀ D ∈ Die.reset :: s.dies, ∀ e ∈ D.l2, e.2.once = none) ∧ (s.die 0).l2.length + n ≤ s.fw.l2Mib * 8192) &&
    (List.range n).all fun i =>
    (s.page? 1 (va + i)).any fun e => e.2.res && e.2.w && e.2.kind == .priv && e.2.home == some 0 &&
      decide (e.2.pa + (va + i - e.1) = pa + i)

/-- No line of any die has been brought for one access, where none of those that stand has. -/
theorem no_once {l : List Die} (h : ∀ D ∈ Die.reset :: l, ∀ e ∈ D.l2, e.2.once = none) (d : Nat) :
    ∀ e ∈ (lget Die.reset l d).l2, e.2.once = none := by
  induction l generalizing d with
  | nil => exact h _ (by simp [lget])
  | cons D r ih =>
    cases d with
    | zero => exact h D (by simp)
    | succ n => exact ih (fun E hE => h E (by rcases List.mem_cons.mp hE with rfl | hE <;> simp [*])) n

/-- A page of s0 that takes 256 bytes: whatever lies below is an area too. -/
theorem area_of_ok {s : State} {va n pa : Nat} (h : areaOk s va n pa = true) :
    va + n ≤ Config.windowBase ∧ 0 < s.dies.length ∧ (s.die 0).portsDown = [] ∧
      (∀ d, ∀ e ∈ (s.die d).l2, e.2.once = none) ∧ (s.die 0).l2.length + n ≤ s.fw.l2Mib * 8192 ∧ ∀ i, i < n → ∃ b p,
      s.page? 1 (va + i) = some (b, p) ∧ p.res = true ∧ p.w = true ∧ p.kind ≠ .device ∧ p.kind ≠ .coherent ∧
        p.home = some 0 ∧ p.pa + (va + i - b) = pa + i := by
  simp only [areaOk, Bool.and_eq_true, decide_eq_true_eq, beq_iff_eq, List.all_eq_true, List.mem_range] at h
  refine ⟨h.1.1.1.1, h.1.1.1.2, h.1.1.2, fun d => no_once h.1.2.1 d, h.1.2.2, fun i hi => ?_⟩
  have := h.2 i hi
  revert this
  cases s.page? 1 (va + i) with
  | none => simp
  | some e =>
    simp only [Option.any_some, Bool.and_eq_true, beq_iff_eq, decide_eq_true_eq]
    rintro ⟨⟨⟨⟨a, b⟩, c⟩, d⟩, f⟩
    exact ⟨e.1, e.2, rfl, a, b, by rw [c]; decide, by rw [c]; decide, d, f⟩

/-- READBACK, with class and index. -/
def cRead (k i : Nat) : List (Nat × Nat) := at8 0x80 0x10400 ++ [(0x88, k), (0x8C, i)]

theorem test_meets_SystemCommands_answers :
    (∀ op ∈ [0x20, 0x21, 0x22, 0x23, 0x24, 0x2A, 0x2B, 0x2C, 0x2D, 0x2E, 0x29],
      (sC op (at8 0x80 0x10400)).started 50 op = some (cmd op (at8 0x80 0x10400) .started) ∧
        areaOk (sC op (at8 0x80 0x10400)) 0x10400 512 0x10400 = true) ∧
    (∀ e ∈ [(5, 0), (0, 0), (1, 2), (3, 0)], (sC 0x25 (cRead e.1 e.2)).started 50 0x25 = some (cmd 0x25 (cRead e.1 e.2) .started) ∧
      (sC 0x25 (cRead e.1 e.2)).hasItem e.1 e.2 = decide (e.1 = 5)) ∧
    (sC 0x22 []).sub? 1 = s0.sub? 1 ∧ (s0.sub? 1).isSome = true ∧ (sC 0x23 []).waitedWords = [] ∧ (sC 0x23 []).dies.length = 4 ∧
    (sC 0x29 []).fw.staged = none ∧ (List.replicate 32 (0 : Byte)).length = 32 := by decide +kernel

/-- The certificate's length is open: it fits the result area of s0 where it takes at most 512 bytes. -/
theorem test_meets_SystemCommands_certificate (h : Config.certificate.length ≤ 512) :
    areaOk (sC 0x25 (cRead 5 0)) 0x10400 Config.certificate.length 0x10400 = true := by
  have h5 : areaOk (sC 0x25 (cRead 5 0)) 0x10400 512 0x10400 = true := by decide +kernel
  simp only [areaOk, Bool.and_eq_true, decide_eq_true_eq, beq_iff_eq, List.all_eq_true, List.mem_range] at h5 ⊢
  exact ⟨⟨⟨⟨by omega, h5.1.1.1.2⟩, h5.1.1.2⟩, h5.1.2.1, by omega⟩, fun i hi => h5.2 i (by omega)⟩

/-- FWSTAGE of 16 bytes, and a hand-over of command 50. -/
def cStage : List (Nat × Nat) := at8 0x80 0x10400 ++ [(0x88, 16)]
def staged : Staged := { image := { bytes := [], version := 3, signed := true }, next := 7 }
def sHand (by_ : Option Nat) : State := { sC 0x29 [] with fw := { Firmware.reset with staged := some staged, committing := by_ } }

theorem test_meets_SystemCommands_firmware :
    (sC 0x28 cStage).started 50 0x28 = some (cmd 0x28 cStage .started) ∧ (sC 0x28 cStage).fw.committing = none ∧
    (svcBytes (sC 0x28 cStage) 0x10400 16).isSome = true ∧
    (sHand none).started 50 0x29 = some (cmd 0x29 [] .started) ∧ (sHand none).fw.staged.isSome = true ∧
    (sHand (some 50)).fw.committing = some 50 ∧ (sHand (some 50)).cmd? 50 = some (cmd 0x29 [] .started) ∧
    (sHand (some 50)).fw.staged = some staged ∧ (sHand (some 50)).waitedWords = [] ∧
    (let c := { cmd 0x2E [] .started with effect := true }
     (sOne c).cmd? c.id = some c ∧ c.op = 0x2E ∧ c.lines = [] ∧ c.sigs = [] ∧ c.node = none ∧ (sOne c).waitedWords = []) := by
  decide +kernel

/-- A checkpoint descriptor at 0x10100 of 256 bytes at 0x10200, the checkpoint at 0x10800, in service mode. -/
def cCkpt : List (Nat × Nat) := at8 0x80 0x10100 ++ at8 0x88 0x10800
def range0 : CkptRange := { addr := 0x10200, len := 256, kind := 0 }
def sCkpt (op : Nat) : State :=
  { sC op cCkpt with
    fw := { Firmware.reset with mode := 0 }
    pool := (s0.pool.write 0x10100 (leBytes 8 1 ++ leBytes 8 0 ++ leBytes 8 0x10200 ++ leBytes 4 256 ++ leBytes 4 0)).write 0x10800
      (ckptHeader false range0 256) }

/-- What the descriptor gives, and what is then read at an address. -/
def descRead (op va n : Nat) : Option (State × List CkptRange × State × List Byte) :=
  match (sCkpt op).ckptDesc (cmd op cCkpt .started) with
  | .ok s rs => (svcBytes s va n).map fun e => (s, rs, e.1, e.2)
  | _ => none

theorem test_meets_SystemCommands_checkpoints :
    ((sCkpt 0x26).started 50 0x26 = some (cmd 0x26 cCkpt .started) ∧
      (descRead 0x26 0x10200 256).map (fun e => (e.2.1, e.1.fw.mode, areaOk e.2.2.1 0x10800 (32 + e.2.2.2.length) 0x10800)) =
        some ([range0], 0, true)) ∧
    ((sCkpt 0x27).started 50 0x27 = some (cmd 0x27 cCkpt .started) ∧
      ((descRead 0x27 0x10800 32).bind fun e => (svcBytes e.2.2.1 0x10820 (fld e.2.2.2 16 8)).map fun f =>
        (e.2.1, (ckptBack range0 e.2.2.2 f.2).isSome, areaOk f.1 0x10200 256 0x10200)) = some ([range0], true, true)) ∧
    range0.addr < 2 ^ 64 ∧ range0.len < 2 ^ 32 ∧ (List.replicate 256 (0 : Byte)).length = range0.len := by decide +kernel

/-- An object of one kernel of one word, with a byte of its header changed. -/
def object (o v : Nat) : List Byte :=
  (List.range 128).map fun k => BitVec.ofNat 8 (if k = o then v else match k with
    | 0 => 0x47 | 1 => 0x4C | 2 => 0x4B | 3 => 0x31 | 4 => 1 | 6 => 1 | 0x10 => 16 | 0x20 => 0x61 | 0x44 => 1 | 0x71 => 1 | _ => 0)

/-- LOAD of it from 0x10400, to 0x30000 in pages at 0x30000, with its result at 0x10600. -/
def cLoad : List (Nat × Nat) := at8 0x80 0x10400 ++ [(0x88, 128)] ++ at8 0x90 0x30000 ++ at8 0x98 0x30000 ++ at8 0xA0 0x10600
def sLoad (o v : Nat) : State := { sC 0x2F cLoad with pool := s0.pool.write 0x10400 (object o v) }

theorem test_meets_SystemCommands_load :
    (∀ e ∈ [(999, 0, none), (0x0A, 1, some 0x0A)], (sLoad e.1 e.2.1).started 50 0x2F = some (cmd 0x2F cLoad .started) ∧
      (svcBytes (sLoad e.1 e.2.1) 0x10400 128).map (fun x => firstBad (objectChecks x.2)) = some e.2.2) ∧
    (svcBytes (sLoad 999 0) 0x10400 128).map (fun x =>
      let y := layoutOf x.2 0x30000
      let n := y.code + 1 + y.data
      (n, barredRange 0x30000 (65536 * n), mappedIn (x.1.pagesOf 1) 0x30000 (65536 * n), decide (0x30000 + 65536 * n ≤ 2 ^ 46),
        x.1.svcCan 1 0x10600 (loadResult x.2 0x30000).length,
        (match x.1.svcWrite 1 0x10600 0 (loadResult x.2 0x30000) [] with | .ok _ bs _ => bs == [] | _ => false))) =
      some (2, false, false, true, true, true) ∧ ((sLoad 999 0).sub? 1).isSome = true := by decide +kernel

/-- A boot image: signed or not, with a version. -/
def image (signed : Bool) (v : Word) : BootImage := { bytes := [1], version := v, signed := signed }

/-- The device after reset with a power state. -/
def sPw (f : Power → Power) : State := { State.reset with pw := f Power.reset }

/-- Idle for 2 ms, at a clock. -/
def sIdle (now : Nat) : State := { sPw (fun p => { p with idleMs := 2 }) with now := now }

/-- Core 0 gated, with an entry of the wake filter that takes every frame where `e`, and a restore under way. -/
def sGated (e r : Bool) (buf : List Frame) : State :=
  sPw fun p => { p with gated := [0, 1], restoring := r, buffer := buf, filter := p.filter.map fun x => { x with valid := e } }

theorem test_meets_DeviceEvents :
    (∀ v ∈ [(3 : Nat), 4], (image true (.ofNat 32 v)).signed = true ∧
      ({ State.reset with fw := { Firmware.reset with antiRollback := 3 } } : State).fw.antiRollback ≤ (image true (.ofNat 32 v)).version) ∧
    ¬ ((image false 3).signed = true) ∧ 3 < State.reset.dies.length ∧
    (∀ n ∈ [3599999, 3600000], (sIdle n).pw.idleMs ≠ 0 ∧ (sIdle n).idle = true ∧ (sIdle n).pw.gated ≠ [0, 1, 2, 3, 4, 5, 6, 7] ∧
      (sIdle n).pw.restoring = false ∧
      ((sIdle n).pw.idleSince + (sIdle n).pw.idleMs * 1800000 ≤ n ↔ n = 3600000)) ∧
    (∀ e ∈ [(true, false), (false, true)], let s := sGated e.1 e.2 []
      0 ∈ s.pw.gated ∧ (s.pw.restoring = true ∨ ∃ e ∈ s.pw.filter, e.hits 0 [] = true) ∧ s.pw.buffer.length < 64) ∧
    (let s := sGated true true (List.replicate 64 (.cmd 0 []))
     0 ∈ s.pw.gated ∧ s.pw.restoring = true ∧ 64 ≤ s.pw.buffer.length) ∧
    (∀ g ∈ [some 0, none], let s := { sGated false false [] with pw := { (sGated false false []).pw with gatedAt := g } }
     0 ∈ s.pw.gated ∧ ¬ (s.pw.restoring = true ∨ ∃ e ∈ s.pw.filter, e.hits 0 [] = true) ∧ s.pw.buffer.length < 64 ∧
       (s.pw.gatedAt = some s.now ↔ g = some 0)) ∧
    (sGated false true [.cmd 1 []]).pw.buffer = [.cmd 1 []] ∧
    (0 ∉ (sPw id).pw.gated ∧ (sPw id).pw.restoring = false ∧ (sGated false true []).pw.restoring = true) := by decide +kernel

/-- Every step of s0 with a tick, a skew of a die to the limit of R107, and an issue. -/
theorem test_meets_StepsKeepTheDevice :
    (s0.dies.length = 4 ∧ (∀ D ∈ s0.dies, D.skew ≤ 2) ∧ s0.pool.wf = true) ∧
    ∀ a ∈ [Act.tick, .skew 3 2, .skew 3 3, .issue ⟨1, .ord 0⟩], (stepped { s0 with agenda := [a] }).isSome = true := by decide +kernel

end Test
end

/-! ### One step by its agenda, and the device between a RESET and the device reset -/

namespace Sys2Proof.Machine

/-- With a choice on the agenda, a step takes that choice (log 40). -/
theorem step_of_agenda {s : State} {a : Act} {rest : List Act} (h : s.agenda = a :: rest) :
    step s = ({ s with agenda := rest } : State).act a := by
  rw [step, State.stepOnce, h]

theorem State.act_event_of_allows {s : State} {i : Instr} (h : s.allows i = true) :
    s.act (.event i) = s.happen i :=
  if_pos h

theorem State.act_event_of_not_allows {s : State} {i : Instr} (h : s.allows i = false) :
    s.act (.event i) = .next s := by
  simp [State.act, h]

/-- A happening whose execution answers a next state. -/
theorem State.happen_of_exec {s u : State} {i : Instr} (h : exec i { s with cur := none } = .next u) :
    s.happen i = if u = { s with cur := none } then .next s
      else s.inTurn s (settled (.next (u.eventTurn i))) := by
  rw [State.happen, h]

/-- Between a RESET that is Complete and the device reset, no other happening may take place (R428). -/
theorem State.allows_of_resetDue {s : State} {i : Instr} (h : s.fw.resetDue = true)
    (hi : ∀ x y z, i ≠ .deviceReset x y z) : s.allows i = false := by
  unfold State.allows
  rw [if_pos h]
  split
  · exact absurd rfl (hi _ _ _)
  · exact Bool.and_false _

/-- Where a RESET is Complete, a clock moves the time alone. -/
theorem State.tick_of_resetDue {s : State} (h : s.fw.resetDue = true) :
    s.tick = { s with now := s.now + 1, issued := [], turns := [], late := false } := by
  simp [State.tick, h]

/-- Where a RESET is Complete, every choice but the device reset changes nothing, or is a clock (R428). -/
theorem State.act_of_resetDue {s : State} {a : Act} (h : s.fw.resetDue = true)
    (ha : ∀ x y z, a ≠ .event (.deviceReset x y z)) :
    s.act a = .next s ∨ s.act a = .next s.tick := by
  cases a with
  | event i =>
    have hi : ∀ x y z, i ≠ .deviceReset x y z := fun x y z e => ha x y z (congrArg Act.event e)
    exact .inl (State.act_event_of_not_allows (State.allows_of_resetDue h hi))
  | tick => exact .inr rfl
  | skew => right; simp [State.act, h]
  | _ => left; simp [State.act, h]

/-- Settles O6. The step is the choice's own act; where a RESET is Complete that act answers the state itself or the
state a clock later, and neither touches what the statement names. -/
theorem stepRunsTheHappening : Obligations.StepRunsTheHappening := by
  refine ⟨fun s u i rest hag hal hex => ?_, fun s i => State.allows_of_resetDue,
    fun s s' a rest hdue hag ha hstep => ?_⟩
  · rw [step_of_agenda hag, State.act_event_of_allows hal, State.happen_of_exec hex]
  · rw [step_of_agenda hag] at hstep
    have hdue' : ({ s with agenda := rest } : State).fw.resetDue = true := hdue
    rcases State.act_of_resetDue hdue' ha with hact | hact
    · rw [hact] at hstep
      cases hstep
      exact ⟨rfl, rfl, rfl, rfl, rfl, rfl, rfl⟩
    · rw [hact, State.tick_of_resetDue hdue'] at hstep
      cases hstep
      exact ⟨rfl, rfl, rfl, rfl, rfl, rfl, rfl⟩

end Sys2Proof.Machine

namespace Sys2Proof.Machine

/-! ### One step that issues a path's head -/

theorem State.act_issue {s : State} {r : PathRef} (h : s.fw.resetDue = false) :
    s.act (.issue r) = s.inTurn (s.busy r) (s.issue r) := by
  simp [State.act, h]

/-- A path that may run, stands in a block and is not stalled issues the word that its fetch gives. -/
theorem State.issue_of_slot {s s1 : State} {r : PathRef} {t : Troupe} {p : Path} {w : Slot}
    (hr : s.runner r = some (t, p)) (hf : s.fw.frozen = false) (hb : p.blk.isSome = true) (hst : p.stall ≤ s.now)
    (hs : s.fetchHead t p = .slot s1 w) : s.issue r = s1.issueWord t p w := by
  have hb' : p.blk.isNone = false := by simpa using hb
  simp [State.issue, hr, hf, hb', Nat.not_lt.mpr hst, hs]

/-- A word that its port picks is executed, or raises the fault of an undefined word (R47–R52, R158). -/
theorem State.issueWord_of_picked {s : State} {t : Troupe} {p : Path} {w : Slot} {port : Nat}
    (hh : s.headFree t p w = true) (ho : t.overrun = false) (hp : portOf w = some port)
    (hk : s.pickOf { troupe := t, path := p, word := w } port ≠ .no) :
    s.issueWord t p w = issueEnd { troupe := t, path := p, word := w } port
      (s.pickOf { troupe := t, path := p, word := w } port)
      (match decode w with
        | .ok i => exec i (({ s with cur := some (refOf t p) } : State).issueTurn t i)
        | .error _ => exec (.undefinedInstruction w) { s with cur := some (refOf t p) }) := by
  simp only [State.issueWord, hh, ho, hp, Bool.not_true, Bool.false_and, Bool.false_eq_true, if_false]
  cases hpick : s.pickOf { troupe := t, path := p, word := w } port with
  | no => exact absurd hpick hk
  | pick => cases decode w <;> rfl
  | partner => cases decode w <;> rfl

/-- Settles O5. The step is the issue of the path, the issue fetches the word, and the word is picked by its port. -/
theorem stepRunsTheDecodedInstruction : Obligations.StepRunsTheDecodedInstruction := by
  intro s s1 r rest t p w port hag hdue hfr hrun hb hst hs hh ho hp hk
  have hact := State.act_issue (s := { s with agenda := rest }) (r := r) hdue
  have hissue := (State.issue_of_slot hrun hfr hb hst hs).trans (State.issueWord_of_picked hh ho hp hk)
  refine (step_of_agenda hag).trans (hact.trans (congrArg _ (hissue.trans ?_)))
  cases decode w <;> rfl

end Sys2Proof.Machine

/-! ### Masks of lanes and of slices, bit by bit -/

namespace Sys2Proof.Machine

theorem mem_lenumFrom_iff {α : Type} (z : α) (xs : List α) (k : Nat) (e : Nat × α) :
    e ∈ lenumFrom k xs ↔ k ≤ e.1 ∧ e.1 < k + xs.length ∧ e.2 = lget z xs (e.1 - k) := by
  induction xs generalizing k with
  | nil => simp [lenumFrom]; omega
  | cons x xs ih =>
    obtain ⟨n, v⟩ := e
    rw [lenumFrom, List.mem_cons, ih]
    rcases Nat.lt_trichotomy n k with h | rfl | h
    · simp; omega
    · simp [lget]
    · have hn : n - k = (n - (k + 1)) + 1 := by omega
      simp only [Prod.mk.injEq, hn, lget, List.length_cons, Nat.ne_of_gt h, false_and, false_or]
      exact and_congr (by omega) (and_congr (by omega) Iff.rfl)

/-- The elements of a list with their positions. -/
theorem mem_lenum_iff {α : Type} (z : α) (xs : List α) (e : Nat × α) :
    e ∈ lenum xs ↔ e.1 < xs.length ∧ e.2 = lget z xs e.1 := by
  simp [lenum, mem_lenumFrom_iff z]

/-- The lanes in a state, bit by bit. -/
theorem Troupe.getLsbD_inState (t : Troupe) (x : LaneState) (l : Nat) :
    (t.inState x).getLsbD l = true ↔ l < 32 ∧ l < t.lanes.length ∧ (t.lane l).st = x := by
  simp only [Troupe.inState, getLsbD_maskOf, Bool.and_eq_true, decide_eq_true_eq, List.mem_map, List.mem_filter,
    mem_lenum_iff Lane.none_, beq_iff_eq]
  refine and_congr_right fun _ => ⟨?_, fun h => ⟨(l, t.lane l), ⟨⟨h.1, rfl⟩, h.2⟩, rfl⟩⟩
  rintro ⟨e, ⟨⟨hl, he⟩, hst⟩, rfl⟩
  exact ⟨hl, by rw [← hst, he]; rfl⟩

/-- A lane that the troupe does not have is not Live. -/
theorem Troupe.getLsbD_live (t : Troupe) (l : Nat) : t.live.getLsbD l = true ↔ l < 32 ∧ (t.lane l).st = .live := by
  rw [Troupe.live, Troupe.getLsbD_inState]
  refine and_congr_right fun _ => and_iff_right_of_imp fun h => Nat.lt_of_not_le fun hl => ?_
  rw [Troupe.lane, lget_beyond _ _ _ hl] at h
  exact LaneState.noConfusion h

theorem getLsbD_sliceBit (s k : Nat) : (sliceBit s).getLsbD k = (decide (k < 8) && decide (k = s)) := by
  simp only [sliceBit, BitVec.getLsbD_ofNat, Nat.testBit_two_pow]
  by_cases h : s = k <;> simp [h, eq_comm]

theorem getLsbD_foldl_sliceBit (ks : List Nat) (b : BitVec 8) (k : Nat) :
    (ks.foldl (fun b s => b ||| sliceBit s) b).getLsbD k = (b.getLsbD k || (decide (k < 8) && decide (k ∈ ks))) := by
  induction ks generalizing b with
  | nil => simp
  | cons s ks ih =>
    rw [List.foldl_cons, ih, BitVec.getLsbD_or, getLsbD_sliceBit]
    rcases eq_or_ne k s with rfl | h
    · by_cases h8 : k < 8 <;> simp [h8]
    · simp [h]

/-- The slices with a lane of a mask, bit by bit. -/
theorem getLsbD_slicesOf (m : Word) (k : Nat) :
    (slicesOf m).getLsbD k = true ↔ k < 8 ∧ ∃ j, j < 4 ∧ m.getLsbD (4 * k + j) = true := by
  have hsteps : slicesOf m = ((List.range 8).filter fun s =>
      m.getLsbD (4 * s) || m.getLsbD (4 * s + 1) || m.getLsbD (4 * s + 2) || m.getLsbD (4 * s + 3)).foldl
        (fun b s => b ||| sliceBit s) 0 := by
    rw [List.foldl_filter]; rfl
  rw [hsteps, getLsbD_foldl_sliceBit, show (0 : BitVec 8) = 0#8 from rfl, BitVec.getLsbD_zero]
  simp only [Bool.false_or, Bool.and_eq_true, decide_eq_true_eq, List.mem_filter, List.mem_range, Bool.or_eq_true]
  refine and_congr_right fun hk => ⟨fun h => ?_, fun ⟨j, hj, h⟩ => ⟨hk, ?_⟩⟩
  · obtain ((h | h) | h) | h := h.2
    exacts [⟨0, by decide, h⟩, ⟨1, by decide, h⟩, ⟨2, by decide, h⟩, ⟨3, by decide, h⟩]
  · match j, hj, h with
    | 0, _, h => exact .inl (.inl (.inl h))
    | 1, _, h => exact .inl (.inl (.inr h))
    | 2, _, h => exact .inl (.inr h)
    | 3, _, h => exact .inr h

/-- The slices in a state, bit by bit. -/
theorem Troupe.getLsbD_slicesIn (t : Troupe) (x : SliceState) (k : Nat) :
    (t.slicesIn x).getLsbD k = true ↔ k < 8 ∧ k < t.slices.length ∧ (t.slice k).st = x := by
  rw [Troupe.slicesIn, ← List.foldl_map (f := Prod.fst) (g := fun (b : BitVec 8) s => b ||| sliceBit s),
    getLsbD_foldl_sliceBit, show (0 : BitVec 8) = 0#8 from rfl, BitVec.getLsbD_zero]
  simp only [Bool.false_or, Bool.and_eq_true, decide_eq_true_eq, List.mem_map, List.mem_filter, beq_iff_eq,
    mem_lenum_iff { st := .idle, fcode := 0, fpc := 0, fmask := 0, forig := 0 : SliceSt }]
  refine and_congr_right fun _ => ⟨?_, fun h => ⟨(k, t.slice k), ⟨⟨h.1, rfl⟩, h.2⟩, rfl⟩⟩
  rintro ⟨e, ⟨⟨hk, he⟩, hst⟩, rfl⟩
  exact ⟨hk, by rw [← hst, he]; rfl⟩

/-! ### Paths that settle (R30, R42, R43, R45) -/

/-- Of a troupe the paths have changed, with what names them; and none of them has come to wait, but for a merge. -/
def Troupe.Settles (t t' : Troupe) : Prop :=
  t' = { t with paths := t'.paths, ops := t'.ops, recs := t'.recs, gone := t'.gone } ∧
    ∀ q' ∈ t'.paths, q'.wait = .none ∨ q'.wait = .regang ∨ ∃ q ∈ t.paths, q.wait = q'.wait

theorem Troupe.Settles.refl (t : Troupe) : t.Settles t := ⟨rfl, fun q hq => .inr (.inr ⟨q, hq, rfl⟩)⟩

theorem Troupe.Settles.trans {a b c : Troupe} (h : a.Settles b) (k : b.Settles c) : a.Settles c := by
  refine ⟨by rw [k.1, h.1], fun q'' hq'' => ?_⟩
  obtain hw | hw | ⟨q', hq', hw⟩ := k.2 q'' hq''
  · exact .inl hw
  · exact .inr (.inl hw)
  · rw [← hw]; exact h.2 q' hq'

theorem Troupe.pop_settles (t : Troupe) (n : Nat) : t.Settles (t.pop n) := by
  refine ⟨rfl, fun q' hq' => ?_⟩
  simp only [Troupe.pop, Troupe.modPath, List.mem_map] at hq'
  obtain ⟨q, hq, rfl⟩ := hq'
  split
  · split
    · exact .inr (.inr ⟨q, hq, rfl⟩)
    · exact .inl rfl
    · exact .inl rfl
  · exact .inr (.inr ⟨q, hq, rfl⟩)

theorem Troupe.popAll_settles (t : Troupe) (n : Nat) : t.Settles (t.popAll n) := by
  induction n generalizing t with
  | zero => exact .refl t
  | succ n ih =>
    rw [Troupe.popAll]
    split
    · split
      · exact (t.pop_settles _).trans (ih _)
      · exact .refl t
    · exact .refl t

theorem Troupe.endPath_settles (t : Troupe) (p : Path) : t.Settles (t.endPath p) :=
  ⟨rfl, fun q hq => .inr (.inr ⟨q, List.mem_of_mem_filter hq, rfl⟩)⟩

theorem Troupe.foldl_endPath_settles (ps : List Path) (t : Troupe) : t.Settles (ps.foldl Troupe.endPath t) := by
  induction ps generalizing t with
  | nil => exact .refl t
  | cons p ps ih => exact (t.endPath_settles p).trans (ih _)

theorem Path.foldl_learn_wait (qs : List Path) (p : Path) : (qs.foldl Path.learn p).wait = p.wait := by
  induction qs generalizing p with
  | nil => rfl
  | cons q qs ih => exact ih _

/-- The path of a merge waits as after a fence (R333). -/
theorem Troupe.merge_settles (t : Troupe) (now : Nat) : t.Settles (t.merge now) := by
  unfold Troupe.merge
  split
  · exact .refl t
  · split
    · exact .refl t
    · refine ⟨rfl, fun q hq => ?_⟩
      obtain rfl | hq := List.mem_cons.1 hq
      · exact .inr (.inl (Path.foldl_learn_wait _ _))
      · exact .inr (.inr ⟨q, List.mem_of_mem_filter hq, rfl⟩)

/-- After its slices have become Idle, a troupe settles by its paths alone. -/
theorem Troupe.settle_settles (t : Troupe) (now : Nat) : t.idleSlices.Settles (t.settle now) := by
  have hpaths := (t.idleSlices.popAll_settles 17).trans
    (Troupe.foldl_endPath_settles ((t.idleSlices.popAll 17).paths.filter (t.idleSlices.popAll 17).pathGone) _)
  unfold Troupe.settle
  simp only
  split
  · exact hpaths.trans (Troupe.merge_settles _ now)
  · exact hpaths

/-- Of a troupe that settles, the lanes and all but slices, paths and what names paths stay. -/
theorem Troupe.settle_eq (t : Troupe) (now : Nat) :
    t.settle now = { t with
      slices := t.idleSlices.slices, paths := (t.settle now).paths, ops := (t.settle now).ops,
      recs := (t.settle now).recs, gone := (t.settle now).gone } :=
  (t.settle_settles now).1

theorem Troupe.settle_lane (t : Troupe) (now l : Nat) : (t.settle now).lane l = t.lane l := by
  rw [Troupe.settle_eq]; rfl

/-- A slice that follows its path becomes Idle where none of its lanes is Live (R30). -/
theorem Troupe.slice_idleSlices (t : Troupe) (k : Nat) (hk : k < 8) (hlen : t.slices.length = 8) :
    (t.idleSlices.slice k).st =
      if (t.slice k).st = .following ∧ (List.range 4).all (fun j => decide ((t.lane (4 * k + j)).st ≠ .live)) = true
      then .idle else (t.slice k).st := by
  have hgone : (t.slicesIn .following &&& ~~~slicesOf t.live).getLsbD k = true ↔
      (t.slice k).st = .following ∧ (List.range 4).all (fun j => decide ((t.lane (4 * k + j)).st ≠ .live)) = true := by
    rw [BitVec.getLsbD_and, Bool.and_eq_true, Troupe.getLsbD_slicesIn, BitVec.getLsbD_not, Bool.and_eq_true,
      Bool.not_eq_true', ← Bool.not_eq_true, getLsbD_slicesOf, decide_eq_true_eq, List.all_eq_true]
    simp only [hk, hlen, true_and, List.mem_range, decide_eq_true_eq, not_exists, not_and, Troupe.getLsbD_live]
    exact and_congr_right fun _ => forall_congr' fun j => forall_congr' fun hj =>
      ⟨fun h => h (by omega), fun h _ => h⟩
  have hslice : t.idleSlices.slice k = if (t.slicesIn .following &&& ~~~slicesOf t.live).getLsbD k = true
      then { t.slice k with st := .idle } else t.slice k := by
    simp only [Troupe.slice, Troupe.idleSlices, lget_map_lenum, hlen, hk, if_true]
  rw [hslice]
  by_cases h : (t.slicesIn .following &&& ~~~slicesOf t.live).getLsbD k = true
  · rw [if_pos h, if_pos (hgone.1 h)]
  · rw [if_neg h, if_neg fun h' => h (hgone.2 h')]

/-- Paths that wait for nothing, for a merge or as others do wait at no barrier where the others do not. -/
theorem Troupe.noBarWait_of_waits {t t' : Troupe} (h : t.NoBarWait)
    (hw : ∀ q' ∈ t'.paths, q'.wait = .none ∨ q'.wait = .regang ∨ ∃ q ∈ t.paths, q.wait = q'.wait) :
    t'.NoBarWait := by
  intro q' hq'
  obtain hn | hr | ⟨q, hq, he⟩ := hw q' hq'
  · rw [hn]
  · rw [hr]
  · rw [← he]
    exact h q hq

theorem Troupe.idleSlices_noBarWait {t : Troupe} (h : t.NoBarWait) : t.idleSlices.NoBarWait := by
  refine Troupe.noBarWait_of_waits h fun q' hq' => .inr (.inr ?_)
  obtain ⟨q, hq, rfl⟩ := List.mem_map.1 hq'
  exact ⟨q, hq, by split <;> rfl⟩

/-- No path of a troupe that settles comes to wait at a barrier. -/
theorem Troupe.settle_noBarWait {t : Troupe} (h : t.NoBarWait) (now : Nat) : (t.settle now).NoBarWait :=
  Troupe.noBarWait_of_waits (Troupe.idleSlices_noBarWait h) (t.settle_settles now).2

/-- A path changed so that it waits for nothing. -/
theorem Troupe.modPath_noBarWait {t : Troupe} (h : t.NoBarWait) (r : PathSel) {f : Path → Path}
    (hf : ∀ p, (f p).wait = .none) : (t.modPath r f).NoBarWait := by
  refine Troupe.noBarWait_of_waits h fun q' hq' => ?_
  obtain ⟨q, hq, rfl⟩ := List.mem_map.1 hq'
  by_cases hr : q.sel = r
  · exact .inl (by rw [if_pos hr, hf])
  · exact .inr (.inr ⟨q, hq, by rw [if_neg hr]⟩)

/-! ### Barriers swept -/

theorem Troupe.endBarWait_id (t : Troupe) (e : Ensemble) (p : Path) : (t.endBarWait e p).id = t.id := by
  unfold Troupe.endBarWait
  split
  · split
    · exact Troupe.advance_id _ _
    · rfl
  · split
    · exact Troupe.advance_id _ _
    · rfl
  · rfl

theorem Troupe.endBarWaits_id (t : Troupe) (e : Ensemble) : (t.endBarWaits e).id = t.id := by
  unfold Troupe.endBarWaits
  generalize t.paths = ps
  induction ps generalizing t with
  | nil => rfl
  | cons p ps ih => rw [List.foldl_cons, ih, Troupe.endBarWait_id]

/-- A troupe none of whose paths waits at a barrier has no wait to end. -/
theorem Troupe.endBarWaits_of_noBarWait {t : Troupe} (h : t.NoBarWait) (e : Ensemble) : t.endBarWaits e = t := by
  unfold Troupe.endBarWaits
  unfold Troupe.NoBarWait at h
  generalize t.paths = ps at h
  induction ps with
  | nil => rfl
  | cons p ps ih =>
    have hp : t.endBarWait e p = t := by
      have hw := h p List.mem_cons_self
      unfold Troupe.endBarWait
      split
      · simp [*] at hw
      · simp [*] at hw
      · rfl
    rw [List.foldl_cons, hp]
    exact ih fun q hq => h q (List.mem_cons_of_mem _ hq)

/-- A change of troupes that keeps their numbers keeps where each is found. -/
theorem find?_id_map {ts : List Troupe} {f : Troupe → Troupe} (hf : ∀ u, (f u).id = u.id) (id : Nat) :
    (ts.map f).find? (fun t => t.id == id) = (ts.find? fun t => t.id == id).map f := by
  rw [List.find?_map]
  congr 2
  exact funext fun u => by simp [hf]

theorem State.sweepBars_pool (s : State) (ens : Nat) : (s.sweepBars ens).pool = s.pool := by
  unfold State.sweepBars
  split <;> rfl

/-- A sweep of the barriers leaves a troupe none of whose paths waits at one. -/
theorem State.troupe?_sweepBars {s : State} {id ens : Nat} {t : Troupe} (ht : s.troupe? id = some t) (hb : t.NoBarWait) :
    (s.sweepBars ens).troupe? id = some t := by
  unfold State.sweepBars
  split
  · exact ht
  · refine (find?_id_map (fun u => ?_) id).trans ?_
    · split
      · exact u.endBarWaits_id _
      · rfl
    · rw [show (State.modEns s ens _).troupes.find? _ = some t from ht, Option.map_some]
      split
      · rw [Troupe.endBarWaits_of_noBarWait hb]
      · rfl

/-- A troupe with an Exited lane is not done (R26). -/
theorem State.isDone_of_exited (s : State) {t : Troupe} (h : t.inState .exited ≠ 0) : s.isDone t = false := by
  rw [State.isDone, beq_eq_false_iff_ne.2 h, Bool.and_false, Bool.false_and]

/-- A troupe with an Exited lane, none of whose paths waits at a barrier, settles by itself. -/
theorem State.settle_of_exited {s : State} {id : Nat} {t : Troupe} (ht : s.troupe? id = some t) (hb : t.NoBarWait)
    (hx : t.inState .exited ≠ 0) :
    (s.settle id).troupe? id = some (t.settle s.now) ∧ (s.settle id).pool = s.pool := by
  have hid : (t.settle s.now).id = t.id := by rw [Troupe.settle_eq]
  have hx' : (t.settle s.now).inState .exited ≠ 0 := by rw [Troupe.settle_eq]; exact hx
  have hmod : (s.modTroupe id fun _ => t.settle s.now).troupe? id = some (t.settle s.now) :=
    State.troupe?_modTroupe_same _ ht hid
  unfold State.settle
  rw [ht]
  simp only [State.isDone_of_exited _ hx', Bool.false_eq_true, if_false]
  split
  · exact ⟨State.troupe?_sweepBars hmod (Troupe.settle_noBarWait hb s.now), State.sweepBars_pool _ _⟩
  · exact ⟨State.troupe?_sweepBars hmod (Troupe.settle_noBarWait hb s.now), State.sweepBars_pool _ _⟩

/-! ### EXIT (R45, R172) -/

theorem Troupe.lane_exitLanes (t : Troupe) (m : Word) (l : Nat) (hl : l < t.lanes.length) :
    (t.exitLanes m).lane l = if m.getLsbD l = true then { t.lane l with st := .exited } else t.lane l := by
  simp only [Troupe.lane, Troupe.exitLanes, lget_map_lenum, hl, if_true]

@[simp] theorem Troupe.reg_exitLanes (t : Troupe) (m : Word) (l r : Nat) : (t.exitLanes m).reg l r = t.reg l r := by
  by_cases hl : l < t.lanes.length
  · rw [Troupe.reg, Troupe.lane_exitLanes t m l hl]
    split <;> rfl
  · simp only [Troupe.reg, Troupe.lane, Troupe.exitLanes, lget_map_lenum, hl, if_false]
    rw [lget_beyond _ _ _ (Nat.le_of_not_lt hl)]

/-- An ordinary path that completes its head goes to the next word. -/
theorem Troupe.advance_ordinary {t : Troupe} {r : PathSel} {p : Path} (h : t.path? r = some p)
    (ho : p.ordinary = true) : t.advance r = t.modPath r Path.next := by
  unfold Troupe.advance
  rw [h]
  simp only
  split
  · rename_i hsel
    simp [Path.ordinary, hsel] at ho
  · rfl

theorem exists_lane_of_ne_zero {m : Word} (h : m ≠ 0) : ∃ l, m.getLsbD l = true := by
  by_contra hn
  exact h (BitVec.eq_of_getLsbD_eq fun l _ => by
    rw [show (0 : Word) = 0#32 from rfl, BitVec.getLsbD_zero]
    exact Bool.eq_false_iff.2 fun hl => hn ⟨l, hl⟩)

/-- The lanes that execute are lanes of the troupe. -/
theorem Passes.lane_lt {t : Troupe} {p : Path} {x : Ins} {u : Use} {act : Word} (h : Passes t p x u act) {l : Nat}
    (hl : act.getLsbD l = true) : l < t.lanes.length := by
  obtain ⟨-, rfl, -⟩ := h
  exact t.live_lt l (t.pathLanes_live p l (t.guarded_subset _ x l hl))

theorem State.start_now (s : State) (t : Troupe) (p : Path) (x : Ins) (u : Use) : (s.start t p x u).now = s.now := by
  rw [(s.start_same t p x u).1]

theorem State.start_pool (s : State) (t : Troupe) (p : Path) (x : Ins) (u : Use) : (s.start t p x u).pool = s.pool := by
  rw [(s.start_same t p x u).1]

/-- The troupe once the lanes `act` of an ordinary path have left by EXIT and the path stands at the next word. -/
def Troupe.left (t : Troupe) (p : Path) (x : Ins) (act : Word) (now : Nat) : Troupe :=
  ((t.started p x Use.none_ now).exitLanes act).modPath p.sel Path.next

theorem Troupe.left_noBarWait {t : Troupe} (h : t.NoBarWait) (p : Path) (x : Ins) (act : Word) (now : Nat) :
    (t.left p x act now).NoBarWait := by
  have hstarted : (t.started p x Use.none_ now).NoBarWait :=
    Troupe.modPath_noBarWait (t := t.markErrors _ x Use.none_ _) h p.sel fun _ => rfl
  exact Troupe.modPath_noBarWait (t := (t.started p x Use.none_ now).exitLanes act) hstarted p.sel fun _ => rfl

@[simp] theorem Troupe.reg_left (t : Troupe) (p : Path) (x : Ins) (act : Word) (now l r : Nat) :
    (t.left p x act now).reg l r = t.reg l r :=
  (Troupe.reg_exitLanes (t.started p x Use.none_ now) act l r).trans (t.reg_started p x Use.none_ now l r)

theorem Troupe.left_lanes_length (t : Troupe) (p : Path) (x : Ins) (act : Word) (now : Nat) :
    (t.left p x act now).lanes.length = t.lanes.length := by
  simp [Troupe.left, Troupe.modPath, Troupe.exitLanes, Troupe.started, lenum, lenumFrom_length]

/-- Where registers alone have changed, a lane's state, item and count of refills have not. -/
theorem Lane.SameBut.state {l l' : Lane} (h : l.SameBut l') :
    l'.st = l.st ∧ l'.item = l.item ∧ l'.refills = l.refills := by
  rw [h]
  exact ⟨rfl, rfl, rfl⟩

/-- The lanes that leave are Exited, and of the others no state, item or count of refills has changed. -/
theorem Troupe.lane_left (t : Troupe) (p : Path) (x : Ins) (act : Word) (now l : Nat) (hl : l < t.lanes.length) :
    ((t.left p x act now).lane l).st = (if act.getLsbD l = true then .exited else (t.lane l).st) ∧
      ((t.left p x act now).lane l).item = (t.lane l).item ∧
      ((t.left p x act now).lane l).refills = (t.lane l).refills := by
  obtain ⟨hsame, -⟩ := t.lane_markErrors (t.pathLanes p) x Use.none_ (t.guarded (t.pathLanes p) x) l
  have hkept : ((t.started p x Use.none_ now).lane l).st = (t.lane l).st ∧
      ((t.started p x Use.none_ now).lane l).item = (t.lane l).item ∧
      ((t.started p x Use.none_ now).lane l).refills = (t.lane l).refills := hsame.state
  have hlane := (t.started p x Use.none_ now).lane_exitLanes act l
    (by rw [Troupe.started_lanes, Troupe.length_markErrors]; exact hl)
  rw [show (t.left p x act now).lane l = _ from hlane]
  split
  · exact ⟨rfl, hkept.2⟩
  · exact hkept

theorem Troupe.left_exited (t : Troupe) (p : Path) (x : Ins) {act : Word} (now : Nat) (h0 : act ≠ 0)
    (hlt : ∀ l, act.getLsbD l = true → l < t.lanes.length) : (t.left p x act now).inState .exited ≠ 0 := by
  obtain ⟨l, hl⟩ := exists_lane_of_ne_zero h0
  intro hnone
  have hbit : ((t.left p x act now).inState .exited).getLsbD l = true :=
    (Troupe.getLsbD_inState _ _ _).2 ⟨BitVec.lt_of_getLsbD hl, by rw [Troupe.left_lanes_length]; exact hlt l hl,
      by rw [(t.lane_left p x act now l (hlt l hl)).1, if_pos hl]⟩
  rw [hnone, show (0 : Word) = 0#32 from rfl, BitVec.getLsbD_zero] at hbit
  exact Bool.noConfusion hbit

/-- EXIT on an ordinary path outside region routines: its lanes leave, the path goes on, and the troupe settles. -/
theorem exec_exit {s : State} {t : Troupe} {p : Path} {x : Ins} {act : Word} (hs : s.Issues t p)
    (hp : Passes t p x Use.none_ act) (hr : t.routine = .none) (ho : p.ordinary = true) :
    exec (.exit x) s = .next ((((s.start t p x Use.none_).modTroupe t.id fun t => t.exitLanes act).finish (refOf t p)
      0).settle t.id) := by
  have hnot : p.inHandler = false := by simp [Path.inHandler, ho]
  show execExit x s = _
  simp only [execExit, State.gate_of_passes hs hp, hr, ne_eq, not_true_eq_false, if_false, hnot]
  cases p.sel <;> rfl

/-- The troupe that such an EXIT leaves. -/
theorem exit_settles {s : State} {t : Troupe} {p : Path} {x : Ins} {act : Word} (hs : s.Issues t p)
    (hp : Passes t p x Use.none_ act) (hr : t.routine = .none) (ho : p.ordinary = true) (hb : t.NoBarWait) :
    ∃ s', exec (.exit x) s = .next s' ∧ s'.troupe? t.id = some ((t.left p x act s.now).settle s.now) ∧
      s'.pool = s.pool := by
  obtain ⟨-, ht, hpath, -⟩ := id hs
  have hexit : ((s.start t p x Use.none_).modTroupe t.id fun t => t.exitLanes act).troupe? t.id =
      some ((t.started p x Use.none_ s.now).exitLanes act) :=
    State.troupe?_modTroupe_same _ (State.start_troupe? p x Use.none_ ht) rfl
  have hissued : ((t.started p x Use.none_ s.now).exitLanes act).path? p.sel = some (p.issued s.now x) :=
    Troupe.path?_modPath_same (t := t.markErrors _ x Use.none_ _) (fun q => q.issued s.now x) hpath rfl
  have hnext : (((s.start t p x Use.none_).modTroupe t.id fun t => t.exitLanes act).advance (refOf t p)).troupe? t.id =
      some (t.left p x act s.now) := by
    rw [Troupe.left, ← Troupe.advance_ordinary hissued ho]
    exact State.troupe?_modTroupe_same (fun t => t.advance p.sel) hexit (Troupe.advance_id _ _)
  obtain ⟨hset, hpool⟩ := State.settle_of_exited hnext (Troupe.left_noBarWait hb p x act s.now)
    (t.left_exited p x s.now hp.2.2.1 fun _ => hp.lane_lt)
  refine ⟨_, (exec_exit hs hp hr ho).trans ?_, hset.trans ?_, hpool.trans (s.start_pool t p x Use.none_)⟩
  · rw [State.finish_zero hexit hissued]
  · exact congrArg (fun n => some ((t.left p x act s.now).settle n)) (s.start_now t p x Use.none_)

/-- Settles O33: what the troupe that EXIT leaves reads, lane by lane and slice by slice. -/
theorem exitLeavesLanesExited : Obligations.ExitLeavesLanesExited := by
  rintro x s t p act hs hp ⟨hr, ho, hb, hlen⟩
  obtain ⟨s', hexec, htroupe, hpool⟩ := exit_settles hs hp hr ho hb
  have hsame := (t.left p x act s.now).settle_eq s.now
  have hlane := (t.left p x act s.now).settle_lane s.now
  refine ⟨s', _, hexec, htroupe, fun l r => ?_, by rw [hsame]; rfl, by rw [hsame]; rfl, by rw [hsame]; exact hs.2.2.2,
    hpool, fun l hl => ?_, fun k hk => ?_⟩
  · rw [Troupe.reg, hlane]
    exact t.reg_left p x act s.now l r
  · rw [hlane]
    exact t.lane_left p x act s.now l hl
  · have hslice := (t.left p x act s.now).slice_idleSlices k hk hlen
    have hsettled : ((t.left p x act s.now).settle s.now).slice k = (t.left p x act s.now).idleSlices.slice k := by
      rw [hsame]; rfl
    simp only [hsettled, hlane]
    exact hslice

end Sys2Proof.Machine

/-! ### Counterexamples on a placed word

Each of the statements below ranges over every state, and a state outside the machine's own runs refutes it. The
states are that of a word placed after a device reset (log 3) with other paths in its troupe. -/

namespace Sys2Proof.Machine.Placed

/-- The path of a placed word: at the one word of its block. -/
def placedPath : Path :=
  { sel := .ord 0, home := 0, origin := .slot, slices := 0xFF, pc := wordPage + 16, last := wordPage,
    blk := some { hdr := wordPage, len := 1, rcv := 0 }, waiting := [], stack := [], stamp := 0, waitCnt := 0,
    aged := false, stall := 0, wait := .none, ibuf := none, again := 0, retry := false, rdPass := 0, rdShared := [],
    marks := [], strongReads := [], reads := [], wrote := [] }

/-- The troupe of a placed word with the paths `ps` and the register `r` of lane `l` holding 1. -/
def placedTroupe (ps : List Path) (l r : Nat) : Troupe :=
  { (wordTroupe 1 2 0).writeLanes (maskOf [l]) fun _ => [(r, 1)] with paths := ps }

/-- The state of a placed word, with `t` as the troupe and its path `r` issuing. -/
def placedState (r : PathSel) (t : Troupe) : State :=
  { State.reset.placeWord 0 with agenda := [], cur := some { troupe := 1, sel := r }, troupes := [t] }

/-- What an outcome shows of the troupe of the placed word. -/
def shown {α : Type} (o : Host.Outcome State Fault Refusal) (f : Troupe → α) : Option α :=
  match o with
  | .next s => (s.troupe? 1).map f
  | _ => none

theorem shown_next {α : Type} {o : Host.Outcome State Fault Refusal} {f : Troupe → α} {s : State} {t : Troupe} {a : α}
    (h : shown o f = some a) (ho : o = .next s) (ht : s.troupe? 1 = some t) : f t = a := by
  subst ho
  simpa [shown, ht] using h

/-! ### A slice that is stepped and has no path to go back to -/

/-- A slice that executes a BRA again on its own, in a troupe without the path that it left (R190, R192). -/
def strayPath : Path :=
  { placedPath with sel := .handler 0, slices := 1, retry := true, again := 1, ibuf := some 0x4000001 }

/-- The debugger steps that slice, and it is to issue next. -/
def strayState : State :=
  { placedState (.handler 0) { placedTroupe [strayPath] 0 4 with stepping := 1 } with
    agenda := [.issue { troupe := 1, sel := .handler 0 }] }

/-- The slice leaves its branch to a path that is not there, so no path issues it (log 34). -/
theorem step_strayState : (match step strayState with | .fault .noIssuer => true | _ => false) = true := by
  decide +kernel

/-- Refutes O7: a step from `strayState` answers the fault `noIssuer`. The first clause would need that the path which a
slice has left is there as long as the slice runs on its own. -/
theorem not_stepsAnswerAndClocksAdvance : ¬ Obligations.StepsAnswerAndClocksAdvance := by
  rintro ⟨hnext, -, -⟩
  obtain ⟨s', hs⟩ := hnext strayState
  have hfault := step_strayState
  rw [hs] at hfault
  exact Bool.noConfusion hfault

/-! ### BRD on a path that executes an instruction once more -/

/-- A path that is to execute its head once more, in lane 0 alone (R452). -/
def onceMorePath : Path := { placedPath with again := 1 }

/-- Lane 0 is not enabled, so that no lane of A(p) is active; lane 1 is, and its condition holds. -/
def onceMoreTroupe : Troupe := { placedTroupe [onceMorePath] 1 4 with enable := 2 }

/-- BRD on v4 to the header of its own block. -/
def brdBack : Ins := Ins.plain .f10 0 4 0xFFFFFFFF

theorem onceMore_idle : (placedState (.ord 0) onceMoreTroupe).Issues onceMoreTroupe onceMorePath ∧
    onceMoreTroupe.guarded (onceMoreTroupe.pathLanes onceMorePath) brdBack = 0 := by decide +kernel

/-- BRD takes up every slice of the path, and lane 1 takes the branch. -/
theorem brd_onceMore : shown (exec (.brd brdBack) (placedState (.ord 0) onceMoreTroupe))
    (fun t => (t.path? (.ord 0)).map (·.pc)) = some (some wordPage) := by decide +kernel

/-- Refutes O8: BRD on an ordinary path sets `again` aside, so that lanes outside A(p) execute it; the path goes to the
target of its branch, where the statement has it at the next word. It would need `p.again = 0` for BRD. -/
theorem not_noEffectWithNoActiveLane : ¬ Obligations.NoEffectWithNoActiveLane := by
  intro h
  obtain ⟨hiss, hidle⟩ := onceMore_idle
  obtain ⟨s', t', hex, ht', -, -, ⟨-, hpath, -⟩, -⟩ := h (.brd brdBack) brdBack (placedState (.ord 0) onceMoreTroupe)
    onceMoreTroupe onceMorePath rfl nofun nofun hiss rfl rfl hidle
  have hpc := shown_next brd_onceMore hex ht'
  rw [show t'.path? (.ord 0) = _ from hpath] at hpc
  exact absurd hpc (by decide)

/-! ### BRD on a ganged troupe whose path stack holds an entry -/

/-- A path with an entry on its stack. -/
def stackedPath : Path := { placedPath with stack := [.deferred 0 0] }

/-- Lanes 0 and 4 are enabled, and lane 0's condition holds: slice 0 takes a BRD on v4, and no other slice does. -/
def stackedTroupe : Troupe := { placedTroupe [stackedPath] 0 4 with enable := 0x11 }

/-- The placed state in which it issues. -/
def stackedState : State := placedState (.ord 0) stackedTroupe

theorem stacked_issues : stackedState.Issues stackedTroupe stackedPath ∧
    Passes stackedTroupe stackedPath brdBack (Use.lanes [] [(4, 1)]) 0x11 := by decide +kernel

/-- Both targets pass the checks of R157, and no slot at one is awaited. -/
theorem stacked_targets : ∀ a ∈ [(stackedPath.pc : Int) + 16 * brdBack.imm.toInt, stackedPath.pc + 16],
    stackedState.checkTarget stackedTroupe a = .ok ∧
      stackedState.targetWaits stackedTroupe (.path (refOf stackedTroupe stackedPath)) a = none := by decide +kernel

/-- Slice 0 is taken, and every other slice falls through. -/
theorem stacked_sorted : ∀ k, k < 8 →
    (stackedPath.slices.getLsbD k && slicePresent 0x11 k &&
      sliceAll 0x11 (fun l => (stackedTroupe.reg l 4).getLsbD 0) k) = decide (k = 0) ∧
    (stackedPath.slices.getLsbD k && sliceAll 0x11 (fun l => !(stackedTroupe.reg l 4).getLsbD 0) k) = decide (k ≠ 0) := by
  decide +kernel

/-- Path 0 keeps the entry. -/
theorem brd_stacked : shown (exec (.brd brdBack) stackedState)
    (fun t => (t.path? (.ord 0)).map (·.stack)) = some (some [.deferred 0 0]) := by decide +kernel

/-- Refutes O31: a BRD that parts a ganged troupe empties the stack of path 1 alone, and `ganged` is a mark that the end of
the last clock left, so that the path may hold an entry; path 0 keeps it, where the statement has it gone. The third clause
would need `p.stack = []`. -/
theorem not_brdMovesAndParts : ¬ Obligations.BrdMovesAndParts := by
  rintro ⟨-, -, hparts, -⟩
  obtain ⟨hiss, hpass⟩ := stacked_issues
  obtain ⟨htarget, hfall⟩ := List.forall_mem_cons.1 stacked_targets
  obtain ⟨hnext, -⟩ := List.forall_mem_cons.1 hfall
  have hside : ∀ k, k < 8 → stackedPath.slices.getLsbD k = true → _ := fun k hk _ =>
    (em (k = 0)).imp (fun h0 => (stacked_sorted k hk).1.trans (decide_eq_true h0))
      fun h0 => (stacked_sorted k hk).2.trans (decide_eq_true h0)
  obtain ⟨s', t', hex, ht', -, -, q0, hq0, q1, -, hstack, -⟩ := hparts brdBack stackedState stackedTroupe stackedPath 0x11
    hiss hpass ⟨⟨rfl, rfl, htarget.2, hnext.2, hside, fun _ => htarget.1, fun _ => hnext.1⟩, rfl, by decide,
      ⟨0, by decide, (stacked_sorted 0 (by decide)).1⟩, ⟨1, by decide, (stacked_sorted 1 (by decide)).2⟩⟩
  have hkept := shown_next brd_stacked hex ht'
  rw [Option.mem_def.1 hq0, Option.map_some, hstack] at hkept
  exact absurd hkept (by decide)

/-! ### REGANG of a slice beside a path whose barrier has been released -/

/-- A path that waits in BAR 8, for lane 4, at a phase that has passed (R184). -/
def releasedPath : Path := { placedPath with slices := 0xFE, wait := .bar 8 0xFFFF 0 0x10 }

/-- Slice 0 of that path executes a REGANG again on its own (R192). -/
def againPath : Path := { placedPath with sel := .handler 0, slices := 1, retry := true, again := 1 }

/-- Their troupe, in which v0 of lane 4 holds 1. -/
def releasedTroupe : Troupe := { placedTroupe [releasedPath, againPath] 4 0 with gang := false }

/-- The placed state in which the slice issues. -/
def releasedState : State := placedState (.handler 0) releasedTroupe

/-- REGANG without operands or guard. -/
def regangWord : Ins := Ins.plain .f01 0 0 0

theorem released_issues : releasedState.Issues releasedTroupe againPath ∧
    Passes releasedTroupe againPath regangWord Use.none_ 1 ∧ releasedTroupe.reg 4 0 = 1 := by decide +kernel

/-- The slice comes to wait with its path, and that ends the other path's wait, whose status is 0. -/
theorem regang_released : shown (exec (.regang regangWord) releasedState) (fun t => t.reg 4 0) = some 0 := by
  decide +kernel

/-- Refutes O32: the REGANG of a slice that executes it again on its own ends every barrier wait whose phase has passed, so
a register of another path's lane is written, where the statement has every register unchanged. The first clause would
need `p.retry = false`, or no path of the troupe at a barrier. -/
theorem not_regangMerges : ¬ Obligations.RegangMerges := by
  rintro ⟨hstays, -⟩
  obtain ⟨hiss, hpass, hone⟩ := released_issues
  obtain ⟨s', t', hex, ht', ⟨-, hregs⟩, -⟩ := hstays regangWord releasedState releasedTroupe againPath 1 hiss hpass
    (.inr rfl)
  have hzero := shown_next regang_released hex ht'
  rw [hregs 4 0, hone] at hzero
  exact absurd hzero (by decide)

end Sys2Proof.Machine.Placed

/-! ### What device reset leaves (R106, R246, R300, R394, R400) -/

namespace Sys2Proof.Machine

/-- Every die of the reset device is as its own reset leaves it. -/
theorem State.die_reset (d : Nat) : State.reset.die d = Die.reset := by
  match d with
  | 0 | 1 | 2 | 3 => rfl
  | n + 4 => exact lget_beyond _ _ _ (Nat.le_add_left 4 n)

theorem State.clock_reset (d : Nat) : State.reset.clock d = 0 := by
  rw [State.clock, State.die_reset]
  rfl

/-- Settles O4. Each die is `Die.reset`, whose maps list nothing, so that every word, line, core, ring and counter reads as
an unlisted one; the rest stands in `State.reset` as it is written. -/
theorem resetLeaves : Obligations.ResetLeaves := by
  refine ⟨rfl, fun d _ => ?_, rfl, rfl, by decide, rfl, rfl, rfl, rfl, rfl, rfl, rfl, rfl, by decide, rfl, fun D hD => ?_⟩
  · refine ⟨State.clock_reset d, ?_⟩
    simp only [State.line?, State.core, State.ring, State.die_reset]
    exact ⟨fun _ => rfl, fun _ => rfl, fun _ => rfl, rfl, rfl, rfl, fun _ => rfl, by decide, fun _ => rfl⟩
  · rw [List.eq_of_mem_replicate hD]
    exact Nat.zero_le 2

end Sys2Proof.Machine

/-! ### The extended set of a pair (R89–R94) -/

namespace Sys2Proof.Machine

theorem State.extOf_at (s : State) (t : Troupe) : (s.extOf t).at_ t.die t.core t.part (t.slot / 2) = true := by
  unfold State.extOf
  cases h : s.ext.find? fun x => x.at_ t.die t.core t.part (t.slot / 2) with
  | none => simp [ExtSet.at_, ExtSet.new]
  | some x => simpa using List.find?_some h

/-- The set of a pair once it has been put in its place. -/
theorem State.extOf_setExt (s : State) {t : Troupe} {x : ExtSet} (hx : x.at_ t.die t.core t.part (t.slot / 2) = true) :
    (s.setExt x).extOf t = x := by
  have hplace : ∀ y : ExtSet, y.at_ x.die x.core x.part x.pair = y.at_ t.die t.core t.part (t.slot / 2) := by
    simp only [ExtSet.at_, Bool.and_eq_true, beq_iff_eq] at hx
    obtain ⟨⟨⟨hd, hc⟩, hp⟩, hk⟩ := hx
    intro y
    rw [ExtSet.at_, ExtSet.at_, hd, hc, hp, hk]
  have hnone : (s.ext.filter fun y => !y.at_ x.die x.core x.part x.pair).find?
      (fun y => y.at_ t.die t.core t.part (t.slot / 2)) = none :=
    List.find?_eq_none.2 fun y hy => by simpa [hplace] using (List.mem_filter.1 hy).2
  simp [State.extOf, State.setExt, List.find?_append, hnone, hx]

/-- Where the pairs of two troupes are one, so is their set. -/
theorem State.extOf_congr {s s' : State} {t u : Troupe} (hs : s'.ext = s.ext) (hd : u.die = t.die) (hc : u.core = t.core)
    (hp : u.part = t.part) (hk : u.slot = t.slot) : s'.extOf u = s.extOf t := by
  rw [State.extOf, State.extOf, hs, hd, hc, hp, hk]

/-! ### Maps filtered by key and put together -/

theorem mget_filter {α : Type} (z : α) (g : Nat → Bool) (m : List (Nat × α)) (k : Nat) :
    mget z (m.filter fun e => g e.1) k = if g k = true then mget z m k else z := by
  induction m with
  | nil => simp
  | cons e r ih =>
    obtain ⟨j, v⟩ := e
    rcases eq_or_ne j k with rfl | hj
    · by_cases hg : g j = true
      · simp [hg, mget]
      · rw [List.filter_cons_of_neg (by simpa using hg), ih, if_neg hg, if_neg hg]
    · by_cases hg : g j = true
      · simp [hg, mget, hj, ih]
      · rw [List.filter_cons_of_neg (by simpa using hg), ih]
        simp [mget, hj]

theorem mget_append_of_not_right {α : Type} (z : α) (m : List (Nat × α)) {n : List (Nat × α)} {k : Nat}
    (h : ∀ e ∈ n, e.1 ≠ k) : mget z (m ++ n) k = mget z m k := by
  induction m with
  | nil =>
    induction n with
    | nil => rfl
    | cons e r ih =>
      obtain ⟨he, hr⟩ := List.forall_mem_cons.1 h
      simpa [mget, he] using ih hr
  | cons e r ih => simp [mget, ih]

theorem mget_append_of_not_left {α : Type} (z : α) {m : List (Nat × α)} (n : List (Nat × α)) {k : Nat}
    (h : ∀ e ∈ m, e.1 ≠ k) : mget z (m ++ n) k = mget z n k := by
  induction m with
  | nil => rfl
  | cons e r ih =>
    obtain ⟨he, hr⟩ := List.forall_mem_cons.1 h
    simpa [mget, he] using ih hr

theorem forall_mem_lget {α : Type} {P : α → Prop} {z : α} {xs : List α} (hz : P z) (h : ∀ a ∈ xs, P a) (l : Nat) :
    P (lget z xs l) := by
  induction xs generalizing l with
  | nil => exact hz
  | cons x xs ih =>
    obtain ⟨hx, hxs⟩ := List.forall_mem_cons.1 h
    cases l with
    | zero => exact hx
    | succ l => exact ih hxs l

theorem lget_map {α β : Type} (z : α) (w : β) (f : α → β) (xs : List α) {l : Nat} (h : l < xs.length) :
    lget w (xs.map f) l = f (lget z xs l) := by
  induction xs generalizing l with
  | nil => simp at h
  | cons x xs ih =>
    cases l with
    | zero => rfl
    | succ l => exact ih (by simpa using h)

/-! ### Taking and releasing the set (R92–R95) -/

theorem isExt_ne_vz {r : Nat} (h : isExt r = true) : r ≠ 511 := by
  rintro rfl
  exact absurd h (by decide)

theorem Lane.reg_of_isExt (c : Lane) {r : Nat} (h : isExt r = true) : c.reg r = mget 0 c.regs r :=
  if_neg (isExt_ne_vz h)

/-- A register outside the set, read where those of the set are taken out. -/
theorem mget_filter_not_isExt (m : List (Nat × Word)) {r : Nat} (hr : isExt r = false) :
    mget 0 (m.filter fun e => !isExt e.1) r = mget 0 m r :=
  (mget_filter 0 (fun k => !isExt k) m r).trans (if_pos (by rw [hr]; rfl))

/-- The troupe that has taken a set, whose values stand for it where `same` (R92, R94). -/
def Troupe.withExt (t : Troupe) (x : ExtSet) (same : Bool) : Troupe :=
  { t with
    holdsExt := true
    lanes := (lenum t.lanes).map fun e =>
      { e.2 with
        regs := (e.2.regs.filter fun r => !isExt r.1) ++ (if same then lget [] x.regs e.1 else [])
        poison := (e.2.poison.filter fun r => !isExt r) ++ (if same then lget [] x.poison e.1 else [])
        ecc := (e.2.ecc.filter fun r => !isExt r) ++ (if same then lget [] x.ecc e.1 else []) } }

/-- The set that a troupe has taken. -/
def ExtSet.takenBy (x : ExtSet) (t : Troupe) : ExtSet :=
  { x with holder := some t.slot, lastEns := some t.ens, regs := [], poison := [], ecc := [], freed := none }

theorem State.takeExt_eq {s : State} {id : Nat} {t : Troupe} (ht : s.troupe? id = some t) :
    s.takeExt id = (s.setExt ((s.extOf t).takenBy t)).modTroupe id fun u =>
      u.withExt (s.extOf t) ((s.extOf t).lastEns == some t.ens) := by
  rw [State.takeExt, ht]
  rfl

/-- What a register reads once the set is taken, where the set holds registers of its own alone. -/
theorem Troupe.reg_withExt (t : Troupe) {x : ExtSet} (same : Bool)
    (hx : ∀ row ∈ x.regs, ∀ q ∈ row, isExt q.1 = true) {l : Nat} (hl : l < t.lanes.length) (r : Nat) :
    (t.withExt x same).reg l r =
      if isExt r = true then (if same = true then mget 0 (lget [] x.regs l) r else 0) else t.reg l r := by
  have hregs : ((t.withExt x same).lane l).regs =
      ((t.lane l).regs.filter fun e => !isExt e.1) ++ if same then lget [] x.regs l else [] := by
    simp only [Troupe.lane, Troupe.withExt, lget_map_lenum, hl, if_true]
  have hrow : ∀ e ∈ lget [] x.regs l, isExt e.1 = true := forall_mem_lget (by simp) hx l
  have hset : ∀ e ∈ (if same then lget [] x.regs l else []), isExt e.1 = true := by
    cases same
    · simp
    · exact hrow
  by_cases hr : isExt r = true
  · rw [if_pos hr, Troupe.reg, Lane.reg_of_isExt _ hr, hregs, mget_append_of_not_left]
    · cases same <;> rfl
    · intro e he hek
      have hnot := (List.mem_filter.1 he).2
      rw [hek, hr] at hnot
      exact Bool.noConfusion hnot
  · have hmap : mget 0 ((t.withExt x same).lane l).regs r = mget 0 (t.lane l).regs r := by
      rw [hregs, mget_append_of_not_right, mget_filter_not_isExt _ (by simpa using hr)]
      exact fun e he hek => hr (hek ▸ hset e he)
    rw [if_neg hr, Troupe.reg, Troupe.reg, Lane.reg, Lane.reg, hmap]

/-- The set as its holder's release leaves it at a clock (R93, R94). -/
def ExtSet.leftBy (x : ExtSet) (t : Troupe) (now : Nat) : ExtSet :=
  { x with
    holder := none, lastEns := some t.ens, freed := some now
    regs := t.lanes.map fun l => l.regs.filter fun e => isExt e.1
    poison := t.lanes.map fun l => l.poison.filter isExt
    ecc := t.lanes.map fun l => l.ecc.filter isExt }

/-- The troupe that has released its set and kept no value of it. -/
def Troupe.withoutExt (t : Troupe) : Troupe :=
  { t with
    holdsExt := false
    lanes := t.lanes.map fun l =>
      { l with
        regs := l.regs.filter fun e => !isExt e.1
        poison := l.poison.filter fun r => !isExt r
        ecc := l.ecc.filter fun r => !isExt r } }

theorem State.releaseExt_eq {s : State} {id : Nat} {t : Troupe} (ht : s.troupe? id = some t) (hh : t.holdsExt = true) :
    s.releaseExt id false = (s.setExt ((s.extOf t).leftBy t s.now)).modTroupe id Troupe.withoutExt := by
  rw [State.releaseExt, ht]
  simp only [hh, if_true]
  rfl

theorem Troupe.reg_withoutExt (t : Troupe) {l r : Nat} (hr : isExt r = false) : t.withoutExt.reg l r = t.reg l r := by
  by_cases hl : l < t.lanes.length
  · have hregs : (t.withoutExt.lane l).regs = (t.lane l).regs.filter fun e => !isExt e.1 :=
      congrArg Lane.regs (lget_map Lane.none_ Lane.none_ _ t.lanes hl)
    have hmap : mget 0 (t.withoutExt.lane l).regs r = mget 0 (t.lane l).regs r := by
      rw [hregs, mget_filter_not_isExt _ hr]
    rw [Troupe.reg, Troupe.reg, Lane.reg, Lane.reg, hmap]
  · simp only [Troupe.reg, Troupe.lane, Troupe.withoutExt]
    rw [lget_beyond _ _ _ (by simpa using hl), lget_beyond _ _ _ (Nat.le_of_not_lt hl)]

/-- The set keeps what each lane of its holder held in it. -/
theorem ExtSet.mget_leftBy (x : ExtSet) (t : Troupe) (now : Nat) {l r : Nat} (hl : l < t.lanes.length)
    (hr : isExt r = true) : mget 0 (lget [] (x.leftBy t now).regs l) r = t.reg l r := by
  have hrow : lget [] (x.leftBy t now).regs l = (t.lane l).regs.filter fun e => isExt e.1 :=
    lget_map Lane.none_ [] _ t.lanes hl
  rw [hrow, mget_filter, if_pos hr, Troupe.reg, Lane.reg_of_isExt _ hr]

/-! ### An instruction that issues, and goes on, waits or holds -/

/-- Of a troupe that goes on, nothing has changed but its slices, its paths and what names the paths. -/
theorem Troupe.advance_frame (t : Troupe) (r : PathSel) :
    t.advance r = { t with
      slices := (t.advance r).slices, paths := (t.advance r).paths, stepping := (t.advance r).stepping,
      ops := (t.advance r).ops, recs := (t.advance r).recs } := by
  have hbranch : ∀ (u : Troupe) n o, u.settleBranch n o = { u with paths := (u.settleBranch n o).paths } := by
    intro u n o
    unfold Troupe.settleBranch
    split
    · rfl
    · split <;> rfl
  have hback : ∀ k, t.rejoin k = { t with
      slices := (t.rejoin k).slices, paths := (t.rejoin k).paths, stepping := (t.rejoin k).stepping,
      ops := (t.rejoin k).ops, recs := (t.rejoin k).recs } := by
    intro k
    unfold Troupe.rejoin
    split <;> rfl
  unfold Troupe.advance
  split
  · rfl
  · split
    · split
      · unfold Troupe.endHandler
        split
        · rfl
        · rw [hbranch, hback]
      · rfl
    · rfl

@[simp] theorem Troupe.advance_holdsExt (t : Troupe) (r : PathSel) : (t.advance r).holdsExt = t.holdsExt := by
  rw [Troupe.advance_frame]

/-- Where a path goes on, the troupe's pair of slots and its set stay. -/
theorem State.extOf_advance (s : State) (r : PathRef) (t : Troupe) (q : PathSel) :
    (s.advance r).extOf (t.advance q) = s.extOf t := by
  rw [Troupe.advance_frame]
  rfl

theorem Troupe.reg_advance (t : Troupe) (r : PathSel) (l q : Nat) : (t.advance r).reg l q = t.reg l q := by
  rw [Troupe.advance_frame]
  rfl

theorem State.advance_troupe? {s : State} {r : PathRef} {t : Troupe} (h : s.troupe? r.troupe = some t) :
    (s.advance r).troupe? r.troupe = some (t.advance r.sel) :=
  State.troupe?_modTroupe_same (fun t => t.advance r.sel) h (t.advance_id r.sel)

theorem Troupe.started_path? {t : Troupe} {p : Path} (h : t.path? p.sel = some p) (x : Ins) (u : Use) (now : Nat) :
    (t.started p x u now).path? p.sel = some (p.issued now x) :=
  Troupe.path?_modPath_same (t := t.markErrors _ x u _) (fun q => q.issued now x) h rfl

theorem Troupe.started_otherPaths (t : Troupe) (p : Path) (x : Ins) (u : Use) (now : Nat) :
    t.OtherPaths (t.started p x u now) p.sel := fun _ hq =>
  Troupe.path?_modPath_other (t := t.markErrors _ x u _) (fun v => v.issued now x) hq fun _ _ => rfl

theorem Troupe.otherPaths_modPath {t u : Troupe} {r : PathSel} {f : Path → Path} (h : t.OtherPaths u r)
    (hf : ∀ p, (f p).sel = p.sel) : t.OtherPaths (u.modPath r f) r := fun q hq =>
  (Troupe.path?_modPath_other f hq fun p _ => hf p).trans (h q hq)

/-- A troupe whose paths are those after the issue goes on. -/
theorem Troupe.onward_advance {t u : Troupe} {p : Path} {now : Nat} {x : Ins} (hu : u.path? p.sel = some (p.issued now x))
    (ho : t.OtherPaths u p.sel) : t.Onward (u.advance p.sel) p now x := by
  intro hr
  rw [Troupe.advance_next hu hr]
  exact ⟨Troupe.path?_modPath_same _ hu rfl, Troupe.otherPaths_modPath ho fun _ => rfl⟩

theorem State.SameBut.modTroupe {s s' : State} {id : Nat} (h : s.SameBut s' id) {f : Troupe → Troupe}
    (hf : ∀ u, (f u).id = u.id) : s.SameBut (s'.modTroupe id f) id := by
  obtain ⟨hs, hj, hd⟩ := h
  refine ⟨?_, fun j hji => (State.troupe?_modTroupe_other f hji fun u _ => hf u).trans (hj j hji), hd⟩
  rw [State.modTroupe, hs]

theorem State.start_sameBut (s : State) (t : Troupe) (p : Path) (x : Ins) (u : Use) : s.SameBut (s.start t p x u) t.id :=
  ⟨(s.start_same t p x u).1, fun _ hj => s.start_other t p x u hj, (s.start_same t p x u).2⟩

@[simp] theorem State.start_ext (s : State) (t : Troupe) (p : Path) (x : Ins) (u : Use) : (s.start t p x u).ext = s.ext := by
  rw [(s.start_same t p x u).1]

/-- An instruction that ends without a poisoned lane, whatever it has done to the troupe but for its paths. -/
theorem State.finish_onward {s : State} {t u : Troupe} {p : Path} {now : Nat} {x : Ins} (hu : s.troupe? t.id = some u)
    (hp : u.path? p.sel = some (p.issued now x)) (ho : t.OtherPaths u p.sel) :
    s.finish (refOf t p) 0 = s.advance (refOf t p) ∧ (s.advance (refOf t p)).troupe? t.id = some (u.advance p.sel) ∧
      t.Onward (u.advance p.sel) p now x :=
  ⟨State.finish_zero hu hp, State.advance_troupe? (r := refOf t p) hu, Troupe.onward_advance hp ho⟩

/-- An instruction that has no effect but its issue. -/
theorem completes_of_no_effect {i : Instr} {x : Ins} {u : Use} {pre : State → Troupe → Path → Word → Prop}
    (hi : ∀ s t p act, s.Issues t p → Passes t p x u act → pre s t p act →
      exec i s = .next ((s.start t p x u).finish (refOf t p) 0)) :
    Completes i x u pre fun s t p _ s' t' => t.OnwardOnly t' p s.now x ∧ s.SameBut s' t.id := by
  intro s t p act hs hp hpre
  obtain ⟨-, ht, hpath, -⟩ := id hs
  obtain ⟨hfin, htroupe, hon⟩ := State.finish_onward (State.start_troupe? p x u ht) (Troupe.started_path? hpath x u s.now)
    (t.started_otherPaths p x u s.now)
  refine ⟨_, _, (hi s t p act hs hp hpre).trans (congrArg _ hfin), htroupe, ⟨hon, fun l r => ?_⟩,
    (s.start_sameBut t p x u).modTroupe fun v => v.advance_id p.sel⟩
  rw [Troupe.reg_advance, Troupe.reg_started]

/-- With no poisoned lane an instruction that waits takes no fault. -/
theorem State.waitAt_zero {s : State} {r : PathRef} {t : Troupe} {p : Path} (ht : s.troupe? r.troupe = some t)
    (hp : t.path? r.sel = some p) (w : Wait) : s.waitAt r w 0 = s.modPath r fun p => { p with wait := w } := by
  have hno : sortFaults (faultAll (0 : Word) 0x12 0) = [] := by decide
  rw [State.waitAt, ht, Option.bind_some, hp]
  simp only [State.takeFaults, hno, if_true]
  split
  · rfl
  · split <;> rfl

/-! ### XACQ, its grant, and XREL -/

theorem ExtSet.isFree_iff (x : ExtSet) (now : Nat) : x.isFree now = true ↔ x.holder = none ∧ x.freed ≠ some now := by
  simp [ExtSet.isFree]

theorem ExtSet.isFree_eq_false {x : ExtSet} {now : Nat} (h : x.holder ≠ none ∨ x.freed = some now) :
    x.isFree now = false := by
  rw [← Bool.not_eq_true, ExtSet.isFree_iff, not_and_or, not_not]
  exact h

theorem execXacq_of_passes {s : State} {t : Troupe} {p : Path} {x : Ins} {act : Word} (hs : s.Issues t p)
    (hp : Passes t p x Use.none_ act) : exec (.xacq x) s = .next (
      if t.holdsExt = true then (s.start t p x Use.none_).finish (refOf t p) 0
      else if (s.extOf t).isFree s.now = true then ((s.start t p x Use.none_).takeExt t.id).finish (refOf t p) 0
      else (s.start t p x Use.none_).waitAt (refOf t p) .xacq 0) := by
  have hext : (s.start t p x Use.none_).extOf t = s.extOf t := State.extOf_congr (s.start_ext t p x _) rfl rfl rfl rfl
  show execXacq x s = _
  simp only [execXacq, State.gate_of_passes hs hp, hext, s.start_now t p x]
  split
  · rfl
  · split <;> rfl

/-- A troupe has taken the set of its pair of slots: what it reads afterwards (R92, R94). -/
def State.TookExt (s s' : State) (t t' : Troupe) : Prop :=
  t'.holdsExt = true ∧ (s'.extOf t').holder = some t.slot ∧ ∀ l r, l < t.lanes.length → t'.reg l r =
    if isExt r = true then (if (s.extOf t).lastEns = some t.ens then mget 0 (lget [] (s.extOf t).regs l) r else 0)
    else t.reg l r

/-- Where a troupe takes its set and a path of it goes on, the troupe holds the set, and its paths are those of before. -/
theorem State.takeExt_advance {s : State} {r : PathRef} {t : Troupe} (ht : s.troupe? r.troupe = some t)
    (hrows : ∀ row ∈ (s.extOf t).regs, ∀ q ∈ row, isExt q.1 = true) :
    ∃ u, (s.takeExt r.troupe).troupe? r.troupe = some u ∧ u.paths = t.paths ∧ (s.takeExt r.troupe).pool = s.pool ∧
      s.TookExt ((s.takeExt r.troupe).advance r) t (u.advance r.sel) := by
  rw [State.takeExt_eq ht]
  have hset : (s.setExt ((s.extOf t).takenBy t)).extOf t = (s.extOf t).takenBy t := State.extOf_setExt s (s.extOf_at t)
  refine ⟨t.withExt (s.extOf t) ((s.extOf t).lastEns == some t.ens),
    State.troupe?_modTroupe_same (s := s.setExt _) _ ht rfl, rfl, rfl, Troupe.advance_holdsExt _ _, ?_, fun l q hl => ?_⟩
  · rw [State.extOf_advance]
    exact congrArg ExtSet.holder hset
  · rw [Troupe.reg_advance, t.reg_withExt _ hrows hl]
    simp only [beq_iff_eq]

/-- Where a troupe holds no set and its pair's is Free, XACQ takes it. -/
theorem xacq_takes {s : State} {t : Troupe} {p : Path} {x : Ins} {act : Word} (hs : s.Issues t p)
    (hp : Passes t p x Use.none_ act) (hh : t.holdsExt = false) (hfree : (s.extOf t).isFree s.now = true)
    (hrows : ∀ row ∈ (s.extOf t).regs, ∀ q ∈ row, isExt q.1 = true) :
    ∃ s' t', exec (.xacq x) s = .next s' ∧ s'.troupe? t.id = some t' ∧ t.Onward t' p s.now x ∧ s.TookExt s' t t' ∧
      s'.pool = s.pool := by
  obtain ⟨-, ht, hpath, -⟩ := id hs
  have hext : (s.start t p x Use.none_).extOf (t.started p x Use.none_ s.now) = s.extOf t :=
    State.extOf_congr (s.start_ext t p x _) rfl rfl rfl rfl
  obtain ⟨u, hu, hpaths, hpool, hholds, hset, hregs⟩ := State.takeExt_advance (r := refOf t p)
    (State.start_troupe? p x Use.none_ ht) (by rwa [hext])
  obtain ⟨hfin, htroupe, hon⟩ := State.finish_onward (t := t) (p := p) (now := s.now) (x := x) hu
    ((Troupe.path?_of_paths_eq hpaths _).trans (Troupe.started_path? hpath x _ s.now))
    fun q hq => (Troupe.path?_of_paths_eq hpaths _).trans (t.started_otherPaths p x _ s.now q hq)
  refine ⟨_, _, ?_, htroupe, hon, ⟨hholds, hset, fun l r hl => ?_⟩, hpool.trans (s.start_pool t p x _)⟩
  · rw [execXacq_of_passes hs hp, hh, hfree]
    exact congrArg _ hfin
  · have hreg := hregs l r (by rwa [Troupe.started_lanes, Troupe.length_markErrors])
    rwa [hext, Troupe.reg_started] at hreg

/-- Where a troupe holds no set and its pair's is not Free, the path of XACQ waits. -/
theorem xacq_waits {s : State} {t : Troupe} {p : Path} {x : Ins} {act : Word} (hs : s.Issues t p)
    (hp : Passes t p x Use.none_ act) (hh : t.holdsExt = false) (hfree : (s.extOf t).isFree s.now = false) :
    ∃ s' t', exec (.xacq x) s = .next s' ∧ s'.troupe? t.id = some t' ∧ t.Waits t' p s.now x .xacq ∧
      s.SameBut s' t.id := by
  obtain ⟨-, ht, hpath, -⟩ := id hs
  have hstart := State.start_troupe? p x Use.none_ ht
  have hissued := Troupe.started_path? hpath x Use.none_ s.now
  refine ⟨_, (t.started p x Use.none_ s.now).modPath p.sel fun q => { q with wait := .xacq }, ?_,
    State.troupe?_modTroupe_same (fun u => u.modPath p.sel fun q => { q with wait := .xacq }) hstart rfl,
    ⟨Troupe.path?_modPath_same _ hissued rfl,
      Troupe.otherPaths_modPath (t.started_otherPaths p x _ s.now) fun _ => rfl, fun l q => t.reg_started p x _ s.now l q⟩,
    (s.start_sameBut t p x _).modTroupe fun _ => rfl⟩
  rw [execXacq_of_passes hs hp, hh, hfree]
  exact congrArg _ (State.waitAt_zero (r := refOf t p) hstart hissued .xacq)

theorem execExtendedSetGrant_of_waits {s : State} {t : Troupe} {p : Path} (ht : s.troupe? t.id = some t)
    (hp : t.path? p.sel = some p) (hw : p.wait = .xacq) (hh : t.holdsExt = false) :
    exec (.extendedSetGrant (refOf t p)) s = .next (
      if (s.extOf t).isFree s.now = true then (s.takeExt t.id).advance (refOf t p) else s) := by
  show execExtendedSetGrant (refOf t p) s = _
  simp only [execExtendedSetGrant, refOf, ht, hp, hw, hh, ne_eq, not_true_eq_false, Bool.false_eq_true, if_false]
  split <;> rfl

/-- The grant to a path that waits for the set, once it is Free. -/
theorem extendedSetGrant_takes {s : State} {t : Troupe} {p : Path} (ht : s.troupe? t.id = some t)
    (hp : t.path? p.sel = some p) (hw : p.wait = .xacq) (hr : p.retry = false) (hh : t.holdsExt = false)
    (hfree : (s.extOf t).isFree s.now = true) (hrows : ∀ row ∈ (s.extOf t).regs, ∀ q ∈ row, isExt q.1 = true) :
    ∃ s' t', exec (.extendedSetGrant (refOf t p)) s = .next s' ∧ s'.troupe? t.id = some t' ∧ s.TookExt s' t t' ∧
      t'.path? p.sel = some p.next ∧ t.OtherPaths t' p.sel := by
  obtain ⟨u, hu, hpaths, -, htook⟩ := State.takeExt_advance (r := refOf t p) ht hrows
  have hup : u.path? p.sel = some p := (Troupe.path?_of_paths_eq hpaths _).trans hp
  have hnext : u.advance p.sel = u.modPath p.sel Path.next := Troupe.advance_next hup hr
  refine ⟨_, _, ?_, State.advance_troupe? (r := refOf t p) hu, htook, ?_, ?_⟩
  · rw [execExtendedSetGrant_of_waits ht hp hw hh, if_pos hfree]
    rfl
  · exact (congrArg (Troupe.path? · p.sel) hnext).trans (Troupe.path?_modPath_same _ hup rfl)
  · intro q hq
    exact (congrArg (Troupe.path? · q) hnext).trans
      (Troupe.otherPaths_modPath (t := t) (f := Path.next) (fun v _ => Troupe.path?_of_paths_eq hpaths v) (fun _ => rfl) q
        hq)

theorem execXrel_of_passes {s : State} {t : Troupe} {p : Path} {x : Ins} {act : Word} (hs : s.Issues t p)
    (hp : Passes t p x Use.none_ act) : exec (.xrel x) s = .next (
      if t.holdsExt = false then (s.start t p x Use.none_).finish (refOf t p) 0
      else if t.owesExt = true then s.modPath (refOf t p) fun p => { p with wait := .retry }
      else ((s.start t p x Use.none_).releaseExt t.id false).finish (refOf t p) 0) := by
  show execXrel x s = _
  simp only [execXrel, runEff, State.gate_of_passes hs hp]
  cases t.holdsExt
  · rfl
  · cases t.owesExt <;> rfl

/-- Where the holder releases its set and a path of it goes on: its paths are those of before, and the set keeps its values. -/
theorem State.releaseExt_advance {s : State} {r : PathRef} {t : Troupe} (ht : s.troupe? r.troupe = some t)
    (hh : t.holdsExt = true) : ∃ u, (s.releaseExt r.troupe false).troupe? r.troupe = some u ∧ u.paths = t.paths ∧
      (s.releaseExt r.troupe false).pool = s.pool ∧ u.holdsExt = false ∧
      ((s.releaseExt r.troupe false).advance r).extOf (u.advance r.sel) = (s.extOf t).leftBy t s.now ∧
      ∀ l q, isExt q = false → (u.advance r.sel).reg l q = t.reg l q := by
  rw [State.releaseExt_eq ht hh]
  refine ⟨t.withoutExt, State.troupe?_modTroupe_same (s := s.setExt _) _ ht rfl, rfl, rfl, rfl, ?_, fun l q hq => ?_⟩
  · rw [State.extOf_advance]
    exact State.extOf_setExt s (s.extOf_at t)
  · rw [Troupe.reg_advance, t.reg_withoutExt hq]

/-- XREL of the holder, where no write into the set is pending. -/
theorem xrel_releases {s : State} {t : Troupe} {p : Path} {x : Ins} {act : Word} (hs : s.Issues t p)
    (hp : Passes t p x Use.none_ act) (hh : t.holdsExt = true) (ho : t.owesExt = false) :
    ∃ s' t', exec (.xrel x) s = .next s' ∧ s'.troupe? t.id = some t' ∧ t.Onward t' p s.now x ∧ t'.holdsExt = false ∧
      (s'.extOf t').holder = none ∧ (s'.extOf t').lastEns = some t.ens ∧ s'.pool = s.pool ∧
      ∀ l r, l < t.lanes.length →
        if isExt r = true then mget 0 (lget [] (s'.extOf t').regs l) r = t.reg l r else t'.reg l r = t.reg l r := by
  obtain ⟨-, ht, hpath, -⟩ := id hs
  obtain ⟨u, hu, hpaths, hpool, hholds, hset, hregs⟩ := State.releaseExt_advance (r := refOf t p)
    (State.start_troupe? p x Use.none_ ht) hh
  obtain ⟨hfin, htroupe, hon⟩ := State.finish_onward (t := t) (p := p) (now := s.now) (x := x) hu
    ((Troupe.path?_of_paths_eq hpaths _).trans (Troupe.started_path? hpath x _ s.now))
    fun q hq => (Troupe.path?_of_paths_eq hpaths _).trans (t.started_otherPaths p x _ s.now q hq)
  refine ⟨_, _, ?_, htroupe, hon, (Troupe.advance_holdsExt _ _).trans hholds, congrArg ExtSet.holder hset,
    congrArg ExtSet.lastEns hset, hpool.trans (s.start_pool t p x _), fun l r hl => ?_⟩
  · rw [execXrel_of_passes hs hp, hh, ho]
    exact congrArg _ hfin
  · split
    · rename_i hr
      exact (congrArg (fun e : ExtSet => mget 0 (lget [] e.regs l) r) hset).trans ((ExtSet.mget_leftBy _ _ _
        (by rwa [Troupe.started_lanes, Troupe.length_markErrors]) hr).trans (t.reg_started p x _ s.now l r))
    · rename_i hr
      exact (hregs l r (by simpa using hr)).trans (t.reg_started p x _ s.now l r)

/-- XREL of the holder, while a write into the set is pending. -/
theorem xrel_holds {s : State} {t : Troupe} {p : Path} {x : Ins} {act : Word} (hs : s.Issues t p)
    (hp : Passes t p x Use.none_ act) (hh : t.holdsExt = true) (ho : t.owesExt = true) :
    ∃ s' t', exec (.xrel x) s = .next s' ∧ s'.troupe? t.id = some t' ∧ t.Holds t' p ∧ t'.holdsExt = true := by
  obtain ⟨-, ht, hpath, -⟩ := id hs
  refine ⟨s.modPath (refOf t p) fun q => { q with wait := .retry },
    t.modPath p.sel fun q => { q with wait := .retry }, ?_,
    State.troupe?_modTroupe_same (fun u => u.modPath p.sel fun q => { q with wait := .retry }) ht rfl,
    ⟨Troupe.path?_modPath_same _ hpath rfl, Troupe.otherPaths_modPath (fun _ _ => rfl) fun _ => rfl, fun _ _ => rfl⟩, hh⟩
  rw [execXrel_of_passes hs hp, hh, ho]
  rfl

/-- Settles O37, each clause by the branch of XACQ, of its grant or of XREL that it names. -/
theorem extendedSet : Obligations.ExtendedSet := by
  refine ⟨fun x => completes_of_no_effect fun s t p act hs hp hh => ?_, fun x s t p act hs hp hpre => ?_,
    fun x s t p act hs hp hpre => ?_, fun s t p ht hp hw hr hh => ⟨fun hholder hfreed hrows => ?_, fun hbusy => ?_⟩,
    fun x => completes_of_no_effect fun s t p act hs hp hh => ?_, fun x s t p act hs hp hpre => ?_,
    fun x s t p act hs hp hpre => ?_⟩
  · rw [execXacq_of_passes hs hp, if_pos hh]
  · obtain ⟨hh, hholder, hfreed, hrows⟩ := hpre
    exact xacq_takes hs hp hh ((ExtSet.isFree_iff _ _).2 ⟨hholder, hfreed⟩) hrows
  · obtain ⟨hh, hbusy⟩ := hpre
    exact xacq_waits hs hp hh (ExtSet.isFree_eq_false hbusy)
  · exact extendedSetGrant_takes ht hp hw hr hh ((ExtSet.isFree_iff _ _).2 ⟨hholder, hfreed⟩) hrows
  · rw [execExtendedSetGrant_of_waits ht hp hw hh, ExtSet.isFree_eq_false hbusy]
    rfl
  · rw [execXrel_of_passes hs hp, if_pos hh]
  · obtain ⟨hh, howes⟩ := hpre
    exact xrel_releases hs hp hh howes
  · obtain ⟨hh, howes⟩ := hpre
    exact xrel_holds hs hp hh howes

end Sys2Proof.Machine

/-! ### Faults of some lanes at one word (R191, R402, R404) -/

namespace Sys2Proof.Machine

theorem find?_eq_some_of_unique {α : Type} {q : α → Bool} {x : α} {xs : List α} (hx : x ∈ xs) (hq : q x = true)
    (hu : ∀ y ∈ xs, q y = true → y = x) : xs.find? q = some x := by
  obtain ⟨y, hy⟩ := Option.isSome_iff_exists.1 (List.find?_isSome.2 ⟨x, hx, hq⟩)
  rw [hy, hu y (List.mem_of_find?_eq_some hy) (List.find?_some hy)]

theorem mem_faultAll {m : Word} {c a : Nat} {f : LaneFault} :
    f ∈ faultAll m c a ↔ m.getLsbD f.lane = true ∧ f = { lane := f.lane, code := c, addr := a } := by
  simp only [faultAll, List.mem_map, mem_lanesOf]
  constructor
  · rintro ⟨l, ⟨-, hl⟩, rfl⟩
    exact ⟨hl, rfl⟩
  · rintro ⟨hl, hf⟩
    exact ⟨f.lane, ⟨BitVec.lt_of_getLsbD hl, hl⟩, hf.symm⟩

theorem faultAll_ne_nil {m : Word} (hm : m ≠ 0) (c a : Nat) : faultAll m c a ≠ [] := by
  obtain ⟨l, hl⟩ := exists_lane_of_ne_zero hm
  exact List.ne_nil_of_mem (mem_faultAll (f := { lane := l, code := c, addr := a }).2 ⟨hl, rfl⟩)

/-- The fault of a lane is among those of a mask where the mask has the lane. -/
theorem find?_faultAll (m : Word) (c a l : Nat) : (faultAll m c a).find? (fun f => f.lane == l) =
    if m.getLsbD l = true then some { lane := l, code := c, addr := a } else none := by
  split
  · rename_i hl
    refine find?_eq_some_of_unique (mem_faultAll.2 ⟨hl, rfl⟩) (by simp) fun f hf hfl => ?_
    rw [(mem_faultAll.1 hf).2, beq_iff_eq.1 hfl]
  · rename_i hl
    exact List.find?_eq_none.2 fun f hf hfl => hl (beq_iff_eq.1 hfl ▸ (mem_faultAll.1 hf).1)

theorem flatMap_ite_toList {α β : Type} (q : α → Bool) (g : α → β) (xs : List α) :
    xs.flatMap (fun x => (if q x = true then some (g x) else none).toList) = (xs.filter q).map g := by
  induction xs with
  | nil => rfl
  | cons x xs ih => by_cases h : q x = true <;> simp [h, ih]

/-- The faults of a mask stand by rising lane. -/
theorem sortFaults_faultAll (m : Word) (c a : Nat) : sortFaults (faultAll m c a) = faultAll m c a := by
  simp only [sortFaults, find?_faultAll]
  exact flatMap_ite_toList (fun l => m.getLsbD l) _ _

theorem map_lane_faultAll (m : Word) (c a : Nat) : (faultAll m c a).map LaneFault.lane = lanesOf m := by
  rw [faultAll, List.map_map]
  exact List.map_id _

theorem maskOf_lanesOf (m : Word) : maskOf (lanesOf m) = m := by
  refine BitVec.eq_of_getLsbD_eq fun l hl => ?_
  rw [getLsbD_maskOf]
  simp [mem_lanesOf, hl]

/-! ### The slices of a mask -/

theorem slicePresent_iff {m : Word} {k : Nat} : slicePresent m k = true ↔ ∃ l, m.getLsbD l = true ∧ l / 4 = k := by
  simp only [slicePresent, List.any_eq_true, List.mem_range]
  constructor
  · rintro ⟨j, hj, h⟩
    exact ⟨4 * k + j, h, by omega⟩
  · rintro ⟨l, h, rfl⟩
    exact ⟨l % 4, Nat.mod_lt _ (by decide), by rwa [Nat.div_add_mod]⟩

theorem getLsbD_slicesOf_eq (m : Word) {k : Nat} (hk : k < 8) : (slicesOf m).getLsbD k = slicePresent m k := by
  rw [Bool.eq_iff_iff, getLsbD_slicesOf]
  simp [slicePresent, hk]

theorem mem_sliceList_slicesOf {m : Word} {k : Nat} : k ∈ sliceList (slicesOf m) ↔ k < 8 ∧ slicePresent m k = true := by
  simp only [sliceList, List.mem_filter, List.mem_range]
  exact and_congr_right fun hk => by rw [getLsbD_slicesOf_eq m hk]

theorem getLsbD_sliceLanes_sliceBit {k l : Nat} (hk : k < 8) (hl : l < 32) :
    (sliceLanes (sliceBit k)).getLsbD l = decide (l / 4 = k) := by
  rw [sliceLanes, getLsbD_maskOf]
  simp only [List.mem_filter, List.mem_range, getLsbD_sliceBit, hl, decide_true, Bool.true_and, true_and]
  by_cases h : l / 4 = k
  · simp [h, hk]
  · simp [h]

/-- The faulting lanes of one slice are those of the mask in it (R111). -/
theorem maskOf_faultAll_slice (m : Word) (c a : Nat) {k : Nat} (hk : k < 8) :
    maskOf (((faultAll m c a).filter fun f => f.lane / 4 == k).map LaneFault.lane) = m &&& sliceLanes (sliceBit k) := by
  refine BitVec.eq_of_getLsbD_eq fun l hl => ?_
  rw [getLsbD_maskOf, BitVec.getLsbD_and, getLsbD_sliceLanes_sliceBit hk hl, Bool.eq_iff_iff]
  simp only [hl, decide_true, Bool.true_and, decide_eq_true_eq, Bool.and_eq_true, List.mem_map, List.mem_filter,
    beq_iff_eq]
  constructor
  · rintro ⟨f, ⟨hf, hfk⟩, rfl⟩
    exact ⟨(mem_faultAll.1 hf).1, hfk⟩
  · rintro ⟨hm, hlk⟩
    exact ⟨{ lane := l, code := c, addr := a }, ⟨mem_faultAll.2 ⟨hm, rfl⟩, hlk⟩, rfl⟩

/-! ### The troupe that has taken the faults -/

/-- The fault registers of a slice after a fault in the lanes of a mask (R111, R404 step 2). -/
theorem Troupe.slice_setFaultRegs (t : Troupe) (m : Word) (c a pc : Nat) {k : Nat} (hk : k < 8)
    (hlen : k < t.slices.length) : (t.setFaultRegs (faultAll m c a) pc).slice k = if slicePresent m k = true then
        { t.slice k with
          fcode := BitVec.ofNat 32 c, fpc := BitVec.ofNat 64 pc, fmask := m &&& sliceLanes (sliceBit k), forig := 0 }
      else t.slice k := by
  simp only [Troupe.slice, Troupe.setFaultRegs, lget_map_lenum, hlen, if_true]
  split
  · rename_i hnone
    rw [if_neg fun hpres => ?_]
    obtain ⟨l, hl, hlk⟩ := slicePresent_iff.1 hpres
    have hmem := (mem_faultAll (f := { lane := l, code := c, addr := a })).2 ⟨hl, rfl⟩
    exact List.find?_eq_none.1 hnone _ hmem (by simpa using hlk)
  · rename_i f hsome
    obtain ⟨hlane, hf⟩ := mem_faultAll.1 (List.mem_of_find?_eq_some hsome)
    have hfk : f.lane / 4 = k := by simpa using List.find?_some hsome
    rw [if_pos (slicePresent_iff.2 ⟨f.lane, hlane, hfk⟩), hf, maskOf_faultAll_slice m c a hk]
    rfl

theorem Troupe.lane_setFaultRegs (t : Troupe) (m : Word) (c a pc l : Nat) :
    (t.setFaultRegs (faultAll m c a) pc).lane l = if l < t.lanes.length ∧ m.getLsbD l = true then
      { t.lane l with faddr := BitVec.ofNat 64 a } else t.lane l := by
  simp only [Troupe.lane, Troupe.setFaultRegs, lget_map_lenum, find?_faultAll]
  by_cases hl : l < t.lanes.length
  · by_cases hm : m.getLsbD l = true <;> simp [hl, hm]
  · simp [hl, lget_beyond _ _ _ (Nat.le_of_not_lt hl)]

/-- One slice leaves its path (R404 step 3): its state, and the accesses that come before its own. -/
def Troupe.leave (p : Path) (t : Troupe) (k : Nat) : Troupe :=
  (if p.sel = .handler k then t else t.lend p.sel (.handler k)).modSlice k fun x => { x with st := .inHandler }

theorem Troupe.leave_frame (p : Path) (t : Troupe) (k : Nat) : t.leave p k = { t with
    slices := lmod (fun x => { x with st := .inHandler }) t.slices k
    ops := (t.leave p k).ops
    recs := (t.leave p k).recs } := by
  unfold Troupe.leave
  split <;> rfl

theorem Troupe.foldl_leave_frame (p : Path) (ks : List Nat) (t : Troupe) : ks.foldl (Troupe.leave p) t = { t with
    slices := (ks.foldl (Troupe.leave p) t).slices, ops := (ks.foldl (Troupe.leave p) t).ops,
    recs := (ks.foldl (Troupe.leave p) t).recs } := by
  induction ks generalizing t with
  | nil => rfl
  | cons k ks ih =>
    rw [List.foldl_cons, ih, Troupe.leave_frame]

theorem Troupe.slice_foldl_leave (p : Path) (ks : List Nat) (t : Troupe) {k : Nat} (hk : k < t.slices.length) :
    (ks.foldl (Troupe.leave p) t).slice k = if k ∈ ks then { t.slice k with st := .inHandler } else t.slice k := by
  induction ks generalizing t with
  | nil => rfl
  | cons j ks ih =>
    have hone : (t.leave p j).slice k = if k = j then { t.slice k with st := .inHandler } else t.slice k := by
      rw [Troupe.leave_frame]
      simp only [Troupe.slice, lget_lmod]
      by_cases h : k = j
      · subst h; simp [hk]
      · simp [h]
    rw [List.foldl_cons, ih _ (by rw [Troupe.leave_frame, lmod_length]; exact hk), hone]
    by_cases h : k = j <;> by_cases h' : k ∈ ks <;> simp [h, h']

/-- A path that the slices `ks` have left. -/
def Path.without (ks : BitVec 8) (q : Path) : Path := { q with slices := q.slices &&& ~~~ks }

/-- An ordinary path whose slices `ks` become handler paths (R404 step 3). -/
theorem Troupe.enterHandlers_eq (t : Troupe) {p : Path} {n : Nat} (hp : p.sel = .ord n) (ks : BitVec 8) (o : Origin)
    (h now : Nat) : t.enterHandlers p ks o h now = ({ (sliceList ks).foldl (Troupe.leave p) t with
      paths := (t.paths.filter fun q => !(sliceList ks).any fun k => q.sel == PathSel.handler k) ++
        (sliceList ks).map fun k => handlerPath p k n h o now } : Troupe).modPath
      (.ord n) (Path.without ks) := by
  have hleave : Troupe.leave p = fun t k =>
      (if PathSel.ord n = .handler k then t else t.lend (.ord n) (.handler k)).modSlice k fun x =>
        { x with st := .inHandler } := by
    funext t k
    rw [Troupe.leave, hp]
  have hpaths : ((sliceList ks).foldl (Troupe.leave p) t).paths = t.paths := by rw [Troupe.foldl_leave_frame]
  rw [← hpaths, hleave]
  unfold Troupe.enterHandlers
  rw [hp]
  rfl

section Entering
variable (t : Troupe) {p : Path} {n : Nat} (hp : p.sel = .ord n) (ks : BitVec 8) (o : Origin) (h now : Nat)
include hp

theorem Troupe.slice_enterHandlers {k : Nat} (hk : k < t.slices.length) : (t.enterHandlers p ks o h now).slice k =
    if k ∈ sliceList ks then { t.slice k with st := .inHandler } else t.slice k := by
  rw [Troupe.enterHandlers_eq t hp]
  exact Troupe.slice_foldl_leave p _ t hk

theorem Troupe.enterHandlers_id : (t.enterHandlers p ks o h now).id = t.id := by
  rw [Troupe.enterHandlers_eq t hp, Troupe.foldl_leave_frame]
  rfl

theorem Troupe.lane_enterHandlers (l : Nat) : (t.enterHandlers p ks o h now).lane l = t.lane l := by
  rw [Troupe.enterHandlers_eq t hp, Troupe.foldl_leave_frame]
  rfl

/-- The handler path of a slice that has left its path. -/
theorem Troupe.path?_enterHandlers_handler {k : Nat} (hk : k ∈ sliceList ks) :
    (t.enterHandlers p ks o h now).path? (.handler k) = some (handlerPath p k n h o now) := by
  rw [Troupe.enterHandlers_eq t hp, Troupe.path?_modPath_other (Path.without ks) (by simp) fun _ _ => rfl,
    Troupe.path?, List.find?_append, List.find?_eq_none.2, Option.none_or]
  · refine find?_eq_some_of_unique (List.mem_map.2 ⟨k, hk, rfl⟩) (by simp [handlerPath]) fun q hq hqk => ?_
    obtain ⟨j, -, rfl⟩ := List.mem_map.1 hq
    rw [PathSel.handler.inj (beq_iff_eq.1 hqk : PathSel.handler j = .handler k)]
  · intro q hq hqk
    have hnot := (List.mem_filter.1 hq).2
    rw [beq_iff_eq.1 hqk] at hnot
    exact absurd hnot (by simpa using hk)

/-- The path that slices have left keeps the others. -/
theorem Troupe.path?_enterHandlers_own {q : Path} (hq : t.path? p.sel = some q) :
    (t.enterHandlers p ks o h now).path? p.sel = some (q.without ks) := by
  rw [hp] at hq ⊢
  have hstays : (t.paths.filter fun v => !(sliceList ks).any fun k => v.sel == PathSel.handler k).find?
      (fun v => v.sel == .ord n) = some q := by
    rw [List.find?_filter]
    refine Eq.trans (congrArg (fun f => t.paths.find? f) (funext fun v => ?_)) hq
    by_cases hv : v.sel = .ord n
    · simp [hv]
    · simp [hv]
  rw [Troupe.enterHandlers_eq t hp]
  refine Troupe.path?_modPath_same (Path.without ks) ?_ rfl
  rw [Troupe.path?, List.find?_append, hstays, Option.some_or]

end Entering

theorem Path.exists_number {p : Path} (h : p.ordinary = true) : ∃ n, p.sel = .ord n := by
  rw [Path.ordinary] at h
  cases hp : p.sel with
  | ord n => exact ⟨n, rfl⟩
  | handler k => rw [hp] at h; exact Bool.noConfusion h

/-- The troupe that has taken a fault `c` of its path `q` in the lanes of a mask (R404 steps 2 and 3). -/
def Troupe.faulted (t : Troupe) (q : Path) (m : Word) (c a pc : Nat) (o : Origin) (h now : Nat) : Troupe :=
  (t.setFaultRegs (faultAll m c a) pc).enterHandlers q (slicesOf m) o h now

section Faulted
variable (t : Troupe) {q : Path} {n : Nat} (hq : q.sel = .ord n) (m : Word) (c a pc : Nat) (o : Origin) (h now : Nat)
include hq

theorem Troupe.lane_faulted (l : Nat) : (t.faulted q m c a pc o h now).lane l =
    if l < t.lanes.length ∧ m.getLsbD l = true then { t.lane l with faddr := BitVec.ofNat 64 a } else t.lane l :=
  (Troupe.lane_enterHandlers _ hq _ o h now l).trans (t.lane_setFaultRegs m c a pc l)

theorem Troupe.reg_faulted (l r : Nat) : (t.faulted q m c a pc o h now).reg l r = t.reg l r := by
  rw [Troupe.reg, t.lane_faulted hq]
  split <;> rfl

theorem Troupe.slice_faulted {k : Nat} (hk : k < 8) (hlen : k < t.slices.length) :
    (t.faulted q m c a pc o h now).slice k = if slicePresent m k = true then
        { st := .inHandler, fcode := BitVec.ofNat 32 c, fpc := BitVec.ofNat 64 pc, fmask := m &&& sliceLanes (sliceBit k),
          forig := 0 }
      else t.slice k := by
  have hlen' : k < (t.setFaultRegs (faultAll m c a) pc).slices.length := by
    simpa [Troupe.setFaultRegs, lenum, lenumFrom_length] using hlen
  rw [Troupe.faulted, Troupe.slice_enterHandlers _ hq _ o h now hlen', t.slice_setFaultRegs m c a pc hk hlen]
  simp only [mem_sliceList_slicesOf, hk, true_and]
  split <;> rfl

end Faulted

/-! ### The state in which a path takes faults -/

/-- From `s`, in which path `p` of `t` issues, the machine has come to `s1`, in which that path of the troupe `u` is `q`:
registers and paths have changed, and nothing that the delivery of a fault rests on. -/
structure State.AtFault (s : State) (t : Troupe) (p : Path) (s1 : State) (u : Troupe) (q : Path) : Prop where
  troupe : s1.troupe? t.id = some u
  path : u.path? p.sel = some q
  fetches : s.FetchesAs s1
  same : u = { t with lanes := u.lanes, paths := u.paths }
  length : u.lanes.length = t.lanes.length
  lane : ∀ l, (t.lane l).SameBut (u.lane l)

theorem State.AtFault.start {s : State} {t : Troupe} {p : Path} (hs : s.Issues t p) (x : Ins) (u : Use) :
    s.AtFault t p (s.start t p x u) (t.started p x u s.now) (p.issued s.now x) := by
  obtain ⟨-, ht, hp, -⟩ := hs
  exact ⟨State.start_troupe? p x u ht, Troupe.started_path? hp x u s.now, s.start_fetchesAs t p x u, rfl,
    t.length_markErrors _ x u _, fun l => (t.lane_markErrors _ x u _ l).1⟩

section AtFault
variable {s s1 : State} {t u : Troupe} {p q : Path} (h : s.AtFault t p s1 u q)
include h

theorem State.AtFault.modPath {f : Path → Path} (hf : ∀ v, (f v).sel = v.sel) :
    s.AtFault t p (s1.modTroupe t.id fun v => v.modPath p.sel f) (u.modPath p.sel f) (f q) where
  troupe := State.troupe?_modTroupe_same _ h.troupe rfl
  path := Troupe.path?_modPath_same f h.path (hf q)
  fetches := h.fetches.trans (State.modTroupe_fetchesAs _ _ _)
  same := congrArg (Troupe.modPath · p.sel f) h.same
  length := h.length
  lane := h.lane

theorem State.AtFault.writeLanes (m : Word) (f : Nat → List (Nat × Word)) :
    s.AtFault t p (s1.writeLanes t.id m f) (u.writeLanes m f) q where
  troupe := State.troupe?_modTroupe_same _ h.troupe rfl
  path := h.path
  fetches := h.fetches.trans (State.modTroupe_fetchesAs _ _ _)
  same := congrArg (Troupe.writeLanes · m f) h.same
  length := by simp [Troupe.writeLanes, lenum, lenumFrom_length, h.length]
  lane := fun l => Lane.sameBut_trans (h.lane l) (u.writeLanes_sameBut m f l)

theorem State.AtFault.handlerOf : s1.handlerOf u = s.handlerOf t := by
  obtain ⟨-, hens, hlaunches, -⟩ := h.fetches
  rw [h.same]
  simp only [State.handlerOf, State.launchOf, State.ens?, State.launch?, hens, hlaunches]

/-- The checks of a target come out as before the issue. -/
theorem State.AtFault.checkTarget (a : Int) : s1.checkTarget u a = s.checkTarget t a := by
  rw [← State.checkTarget_congr h.fetches, h.same]
  rfl

/-- Faults of the lanes of a mask are delivered to handler paths (R404), where the handler's address passes its checks. -/
theorem State.AtFault.takeFaults_eq (hd : Delivers s t p) {m : Word} (hm : m ≠ 0) {c : Nat} (hc : c ≠ 0x13) (a pc : Nat)
    (o : Origin) : s1.takeFaults (refOf t p) pc (faultAll m c a) o =
      (s1.modTroupe t.id fun v => (v.setFaultRegs (faultAll m c a) pc).enterHandlers q (slicesOf m) o (s.handlerOf t)
        s1.now).countDie u.die 0x4F (sliceList (slicesOf m)).length := by
  obtain ⟨hord, hroutine, -, hhandler⟩ := hd
  have hsel : q.sel = p.sel := Troupe.path?_sel h.path
  have hin : q.inHandler = false := by
    rw [Path.ordinary, ← hsel] at hord
    simp [Path.inHandler, Path.ordinary, hord]
  have hid : u.id = t.id := State.troupe?_id h.troupe
  have hrout : u.routine = .none := by rw [h.same]; exact hroutine
  have hcode : (faultAll m c a).any (fun f => f.code == 0x13) = false := by
    rw [List.any_eq_false]
    intro f hf
    rw [(mem_faultAll.1 hf).2]
    simpa using hc
  have hck : ∀ n, ((s1.modTroupe t.id fun v => (v.setFaultRegs (faultAll m c a) pc).enterHandlers q (slicesOf m) o
      (s.handlerOf t) s1.now).countDie u.die 0x4F n).checkTarget u (s.handlerOf t) = s.checkTarget t (s.handlerOf t) :=
    fun n => (State.checkTarget_congr
      ((s1.modTroupe_fetchesAs _ _).trans (State.countDie_logged _ _ _ _).fetchesAs) u _).trans (h.checkTarget _)
  unfold State.takeFaults
  rw [show s1.troupe? (refOf t p).troupe = some u from h.troupe]
  simp only [show u.path? (refOf t p).sel = some q from h.path, sortFaults_faultAll, faultAll_ne_nil hm, hcode, hin, hrout,
    map_lane_faultAll, maskOf_lanesOf, h.handlerOf, hid, if_false, Bool.false_eq_true, Bool.false_or]
  show (if s.handlerOf t = Config.standardHandler then _ else _) = _
  split
  · rfl
  · rename_i hother
    rw [hck, hhandler.resolve_left hother]

/-- What such a fault leaves: the slices with faulting lanes run the handler, and every register is as before. -/
theorem State.AtFault.delivers (hd : Delivers s t p) {m : Word} (hm : m ≠ 0) {c : Nat} (hc : c ≠ 0x13) (a : Nat)
    (o : Origin) : ∃ s' t', s1.takeFaults (refOf t p) p.pc (faultAll m c a) o = s' ∧ s'.troupe? t.id = some t' ∧
      (∀ l r, t'.reg l r = u.reg l r) ∧ InHandlers s t p m c (fun _ => a) q.stamp s' t' ∧
      t'.path? p.sel = some (q.without (slicesOf m)) := by
  obtain ⟨hord, -, hlen, -⟩ := id hd
  obtain ⟨-, -, -, hpool, -⟩ := h.fetches
  have hsel : q.sel = p.sel := Troupe.path?_sel h.path
  obtain ⟨n, hn⟩ := Path.exists_number hord
  have hqn : q.sel = .ord n := hsel.trans hn
  have hslices : u.slices = t.slices := by rw [h.same]
  have hslice := fun k (hk : k < 8) => u.slice_faulted hqn m c a p.pc o (s.handlerOf t) s1.now hk
    (by rw [hslices, hlen]; exact hk)
  refine ⟨_, u.faulted q m c a p.pc o (s.handlerOf t) s1.now, h.takeFaults_eq hd hm hc a p.pc o, ?_,
    u.reg_faulted hqn m c a p.pc o _ _, ⟨fun k hk hpres => ?_, fun k hk hpres => ?_, fun l hl => ?_, hpool⟩, ?_⟩
  · exact State.troupe?_modTroupe_same (fun v => v.faulted q m c a p.pc o (s.handlerOf t) s1.now) h.troupe
      (Troupe.enterHandlers_id _ hqn _ o _ _)
  · rw [hslice k hk, if_pos hpres]
    exact ⟨rfl, rfl, rfl, rfl, rfl, _,
      Troupe.path?_enterHandlers_handler _ hqn _ o _ _ (mem_sliceList_slicesOf.2 ⟨hk, hpres⟩), rfl, rfl, rfl, rfl, rfl⟩
  · rw [hslice k hk, hpres, Troupe.slice, hslices]
    rfl
  · have haddr : (u.lane l).faddr = (t.lane l).faddr := by rw [h.lane l]
    rw [u.lane_faulted hqn, h.length, ← haddr]
    simp only [hl, true_and]
    split <;> rfl
  · rw [← hsel]
    exact Troupe.path?_enterHandlers_own _ hqn _ o _ _ (by rw [hsel]; exact h.path)

/-- Where every register is as before the issue, that is the fault delivered. -/
theorem State.AtFault.delivered (hd : Delivers s t p) (hregs : t.SameRegs u) {m : Word} (hm : m ≠ 0) {c : Nat}
    (hc : c ≠ 0x13) (a : Nat) (o : Origin) (hslices : q.slices = p.slices) :
    ∃ t', (s1.takeFaults (refOf t p) p.pc (faultAll m c a) o).troupe? t.id = some t' ∧
      Delivered s t p m c a q.pc q.stamp (s1.takeFaults (refOf t p) p.pc (faultAll m c a) o) t' := by
  obtain ⟨s', t', rfl, ht', hreg, hin, hown⟩ := h.delivers hd hm hc a o
  exact ⟨t', ht', fun l r => (hreg l r).trans (hregs l r), hin, _, hown, rfl, congrArg (· &&& ~~~slicesOf m) hslices⟩

/-- Faults of a word: the other slices of its path go on to the next word (R191). -/
theorem State.AtFault.faultWord_eq (hr : q.retry = false) {fs : List LaneFault} (hfs : fs ≠ []) :
    s1.faultWord (refOf t p) fs =
      (s1.modTroupe t.id fun v => v.modPath p.sel Path.next).takeFaults (refOf t p) q.pc fs (.word q.blk) := by
  rw [State.faultWord, show s1.troupe? (refOf t p).troupe = some u from h.troupe]
  simp only [show u.path? (refOf t p).sel = some q from h.path, hfs, hr, if_false, Bool.false_eq_true,
    State.troupe?_id h.troupe]
  rfl

/-- Faults of a branch: its path holds at it (R452). -/
theorem State.AtFault.faultBranch_eq (fs : List LaneFault) : s1.faultBranch (refOf t p) fs =
    (s1.modTroupe t.id fun v => v.modPath p.sel fun p => { p with again := 0 }).takeFaults (refOf t p) q.pc fs
      (.branch q.blk) := by
  rw [State.faultBranch, show s1.troupe? (refOf t p).troupe = some u from h.troupe]
  simp only [show u.path? (refOf t p).sel = some q from h.path, State.troupe?_id h.troupe]
  rfl

end AtFault

/-! ### The checks before an effect, in the order of R158 -/

theorem State.gate_of_issues {s : State} {t : Troupe} {p : Path} (hs : s.Issues t p) (x : Ins) (u : Use) :
    s.gate x u = gateOn t p (t.pathLanes p) x u := by
  simp only [State.gate, State.issuer_of_issues hs]

section Gates
variable {t : Troupe} {p : Path} {m : Word} {x : Ins} {u : Use}

theorem gateOn_of_badCode (hg : (guardsUsed x).any badCode = true) (hm : m ≠ 0) : gateOn t p m x u = .fault t p m 0x0B := by
  rw [gateOn, if_pos hg, if_neg hm]

variable (hg : (guardsUsed x).any badCode = false) (h0 : t.guarded m x ≠ 0)
include hg h0

theorem gateOn_of_illegal (hi : illegalOperand x u = true) : gateOn t p m x u = .fault t p (t.guarded m x) 0x0B := by
  simp only [gateOn, hg, if_neg h0, hi, if_true, Bool.false_eq_true, if_false]

theorem gateOn_of_namesExt (hi : illegalOperand x u = false) (hn : namesExt x u = true) (hh : t.holdsExt = false) :
    gateOn t p m x u = .fault t p (t.guarded m x) 0x0D := by
  simp only [gateOn, hg, if_neg h0, hi, hn, hh, Bool.not_false, Bool.and_self, if_true, Bool.false_eq_true, if_false]

variable (hi : illegalOperand x u = false) (he : namesExt x u = true → t.holdsExt = true)
  (hc : t.consumed x u (t.guarded m x) = 0)
include hi he hc

/-- Where rows 6 and 7 pass: what a poisoned source and an operand that is not uniform give. -/
theorem gateOn_of_checked : gateOn t p m x u =
    if (u.whole && t.poisoned x u (t.guarded m x) != 0) = true then .fault t p (t.poisoned x u (t.guarded m x)) 0x12
    else if (!t.uniform u (t.guarded m x)) = true then .fault t p (t.guarded m x) 0x0A
    else .go t p (t.guarded m x &&& ~~~t.poisoned x u (t.guarded m x)) (t.poisoned x u (t.guarded m x)) := by
  have hx : (namesExt x u && !t.holdsExt) = false := by
    cases hn : namesExt x u
    · rfl
    · rw [he hn]; rfl
  simp only [gateOn, hg, if_neg h0, hi, hx, hc, ne_eq, not_true_eq_false, Bool.false_eq_true, if_false]

/-- A source that reads lane by lane faults in the lanes that find it poisoned, and the others go on. -/
theorem gateOn_of_uniform (hw : u.whole = false) (hu : t.uniform u (t.guarded m x) = true) : gateOn t p m x u =
    .go t p (t.guarded m x &&& ~~~t.poisoned x u (t.guarded m x)) (t.poisoned x u (t.guarded m x)) := by
  rw [gateOn_of_checked hg h0 hi he hc, hw, hu]
  rfl

theorem gateOn_of_not_uniform (hp : t.poisoned x u (t.guarded m x) = 0) (hu : t.uniform u (t.guarded m x) = false) :
    gateOn t p m x u = .fault t p (t.guarded m x) 0x0A := by
  rw [gateOn_of_checked hg h0 hi he hc, hp, hu, bne_self_eq_false, Bool.and_false]
  rfl

end Gates

end Sys2Proof.Machine

/-! ### Operand faults of IADD and BRC (R85, R91, R101, R158, R159) -/

namespace Sys2Proof.Machine

/-- A word that faults in the lanes of a mask before its effect: the fault is delivered, and the rest of its path goes on. -/
theorem runWord_faults {s : State} {t : Troupe} {p : Path} {x : Ins} {u : Use} (f : State → Troupe → Path → Word → State)
    (hs : s.Issues t p) (hr : p.retry = false) (hd : Delivers s t p) {m : Word} {c : Nat}
    (hg : gateOn t p (t.pathLanes p) x u = .fault t p m c) (hm : m ≠ 0) (hc : c ≠ 0x13) :
    ∃ s' t', runWord x u s f = .next s' ∧ s'.troupe? t.id = some t' ∧
      Delivered s t p m c 0 (p.pc + 16) (stampAfter s p x) s' t' := by
  have hstart := State.AtFault.start hs x u
  obtain ⟨t', ht', hdel⟩ := (hstart.modPath (f := Path.next) fun _ => rfl).delivered hd (t.reg_started p x u s.now) hm hc 0
    (.word p.blk) rfl
  refine ⟨_, t', ?_, ht', hdel⟩
  rw [runWord, State.gate_of_issues hs, hg]
  exact congrArg _ (hstart.faultWord_eq hr (faultAll_ne_nil hm c 0))

/-- A branch of an ordinary path that faults before its effect: the fault is delivered, and its path holds at it. -/
theorem runBranch_faults {s : State} {t : Troupe} {p : Path} {x : Ins} {u : Use} {link ret : Bool}
    (tgt : Troupe → Path → Word → Option Int) (hs : s.Issues t p) (hr : p.retry = false) (hd : Delivers s t p) {m : Word}
    {c : Nat} (hg : gateOn t p (t.pathLanes p) x u = .fault t p m c) (hm : m ≠ 0) (hc : c ≠ 0x13) :
    ∃ s' t', runBranch x u s link ret tgt = .next s' ∧ s'.troupe? t.id = some t' ∧
      Delivered s t p m c 0 p.pc (stampAfter s p x) s' t' := by
  have hstart := State.AtFault.start hs x u
  obtain ⟨t', ht', hdel⟩ := (hstart.modPath (f := fun q => { q with again := 0 }) fun _ => rfl).delivered hd
    (t.reg_started p x u s.now) hm hc 0 (.branch p.blk) rfl
  refine ⟨_, t', ?_, ht', hdel⟩
  rw [runBranch, State.gate_of_issues hs, hg]
  simp only [hr, branchOn, State.gate_of_issues hs, hg]
  exact congrArg _ (hstart.faultBranch_eq (faultAll m c 0))

/-- A value read at an integer type is itself modulo the type's range. -/
theorem Ty.toInt_emod (ty : Ty) (v : Nat) : ty.toInt v % ((2 ^ ty.width : Nat) : Int) = ((v % 2 ^ ty.width : Nat) : Int) := by
  have hmod : ((v % 2 ^ ty.width : Nat) : Int) % ((2 ^ ty.width : Nat) : Int) = ((v % 2 ^ ty.width : Nat) : Int) := by
    rw [← Int.natCast_mod, Nat.mod_mod]
  simp only [Ty.toInt]
  split
  · refine Eq.trans ?_ hmod
    push_cast
    exact Int.sub_emod_right ..
  · exact hmod

/-- The sum of two 32-bit integers wraps, whatever their sign (R206). -/
theorem wrTy_add_s32 (d : BitVec 9) (a b : Word) :
    wrTy .s32 d (intOp2 .s32 false (fun x y => x + y) a.toNat b.toNat) = wr1 d (a + b) := by
  have hsum : Ty.deliver .s32 false (Ty.toInt .s32 a.toNat + Ty.toInt .s32 b.toNat) = (a.toNat + b.toNat) % 2 ^ 32 := by
    have hmod := Int.add_emod (Ty.toInt .s32 a.toNat) (Ty.toInt .s32 b.toNat) ((2 ^ Ty.width .s32 : Nat) : Int)
    rw [Ty.toInt_emod, Ty.toInt_emod] at hmod
    show ((Ty.toInt .s32 a.toNat + Ty.toInt .s32 b.toNat) % ((2 ^ Ty.width .s32 : Nat) : Int)).toNat = _
    rw [hmod, ← Nat.cast_add, ← Int.natCast_mod, Int.toNat_natCast]
    exact (Nat.add_mod _ _ _).symm
  show wr1 d (BitVec.ofNat 32 (Ty.deliver .s32 false (Ty.toInt .s32 a.toNat + Ty.toInt .s32 b.toNat))) = _
  rw [hsum]
  congr 1
  exact BitVec.eq_of_toNat_eq (by simp)

/-- The use that IADD has of its registers at 32 bits. -/
def iaddUse (x : Ins) : Use := Use.lanes [(x.d, 1)] ((x.a, 1) :: if x.fmt = .f00 then [(x.b, 1)] else [])

theorem execIadd_s32 (x : Ins) (s : State) : exec (.iadd x .s32 false) s =
    runWord x (iaddUse x) s fun s t _ act => s.writeLanes t.id act fun l =>
      wr1 x.d (t.reg l x.a.toNat + if x.fmt = .f00 then t.reg l x.b.toNat else x.imm) := by
  have hsrc : ∀ rd : Nat → Word, srcTy .s32 x rd = (if x.fmt = .f00 then rd x.b.toNat else x.imm).toNat := fun rd => by
    unfold srcTy
    split <;> rfl
  show runLanes x (iaddUse x) s (fun rd => wrTy .s32 x.d (intOp2 .s32 false (fun a b => a + b) (rd x.a.toNat).toNat
    (srcTy .s32 x rd))) = _
  simp only [hsrc, wrTy_add_s32]
  rfl

theorem Troupe.uniform_lanes (t : Troupe) (wr rd : List (BitVec 9 × Nat)) (act : Word) :
    t.uniform (Use.lanes wr rd) act = true := by
  simp [Troupe.uniform, Use.lanes]

/-- Only active lanes read poisoned registers. -/
theorem Troupe.ne_zero_of_poisoned {t : Troupe} {x : Ins} {u : Use} {act : Word} (h : t.poisoned x u act ≠ 0) :
    act ≠ 0 := by
  rintro rfl
  exact h (by rw [Troupe.poisoned, show lanesOf (0 : Word) = [] from lanesOf_zero]; rfl)

/-- Lanes of IADD with a poisoned source fault, and in the others it has its effect (R101). -/
theorem iadd_poisoned {s : State} {t : Troupe} {p : Path} {x : Ins} {act bad : Word} (hs : s.Issues t p)
    (hr : p.retry = false) (hd : Delivers s t p) (hbad : bad ≠ 0)
    (hg : gateOn t p (t.pathLanes p) x (iaddUse x) = .go t p act bad) :
    ∃ s' t', exec (.iadd x .s32 false) s = .next s' ∧ s'.troupe? t.id = some t' ∧
      InHandlers s t p bad 0x12 (fun _ => 0) (stampAfter s p x) s' t' ∧
      t.Wrote t' act fun l => wr1 x.d (t.reg l x.a.toNat + if x.fmt = .f00 then t.reg l x.b.toNat else x.imm) := by
  let f := fun l => wr1 x.d (t.reg l x.a.toNat + if x.fmt = .f00 then t.reg l x.b.toNat else x.imm)
  have hwrite := (State.AtFault.start hs x (iaddUse x)).writeLanes act f
  obtain ⟨s', t', hs', ht', hregs, hin, -⟩ := (hwrite.modPath (f := Path.next) fun _ => rfl).delivers hd hbad
    (by decide : (0x12 : Nat) ≠ 0x13) 0 (.word p.blk)
  refine ⟨s', t', ?_, ht', hin, fun l r hl => (hregs l r).trans ?_⟩
  · rw [execIadd_s32, runWord, State.gate_of_issues hs, hg, ← hs']
    exact congrArg _ (hwrite.faultWord_eq hr (faultAll_ne_nil hbad 0x12 0))
  · have hreg := Troupe.reg_writeLanes (t.started p x (iaddUse x) s.now) act f l r fun _ => by
      rwa [Troupe.started_lanes, Troupe.length_markErrors]
    rwa [Troupe.reg_started] at hreg

/-- The use that BRC has of its condition: bit 0 alone, of one uniform register (R159). -/
def brcUse (x : Ins) : Use := { Use.cmd [] [(x.a, 1)] false with bits := 1 }

theorem execBrc_uniform (x : Ins) (s : State) : exec (.brc x false) s =
    runBranch x (brcUse x) s false false fun t p act =>
      if (uni t act x.a).getLsbD 0 = true then some (branchTarget p.pc x.imm) else none := rfl

/-- A condition whose bit 0 differs between two lanes is not uniform. -/
theorem Troupe.uniform_brcUse {t : Troupe} {x : Ins} {act : Word} {l m : Nat} (hl : act.getLsbD l = true)
    (hm : act.getLsbD m = true) (hne : (t.reg l x.a.toNat).getLsbD 0 ≠ (t.reg m x.a.toNat).getLsbD 0) :
    t.uniform (brcUse x) act = false := by
  have hvz : x.a ≠ 511 := by
    intro ha
    rw [ha] at hne
    exact hne rfl
  have hregs : (brcUse x).un.flatMap fieldRegs = [x.a.toNat] := by
    show (if x.a = 511 then [] else [x.a.toNat]) ++ [] = _
    rw [if_neg hvz, List.append_nil]
  rw [← Bool.not_eq_true]
  intro huni
  have hlow : ∀ k, act.getLsbD k = true → (t.reg k x.a.toNat).getLsbD 0 = (t.reg (lowest act) x.a.toNat).getLsbD 0 := by
    intro k hk
    have hall := List.all_eq_true.1 ((Bool.false_or _).symm.trans huni) k (mem_lanesOf.2 ⟨BitVec.lt_of_getLsbD hk, hk⟩)
    rw [hregs, Bool.and_eq_true, List.all_cons, Bool.and_eq_true, beq_iff_eq] at hall
    simpa [brcUse] using congrArg (BitVec.getLsbD · 0) hall.1.1
  exact hne ((hlow l hl).trans (hlow m hm).symm)

/-- Settles O39: each clause by the first row of R158 that stops the instruction. -/
theorem operandFaults : Obligations.OperandFaults := by
  refine ⟨fun x s t p hs hr hd hi h0 hg => ?_, fun x s t p hs hr hd hpre h0 hg => ?_, fun x s t p hs hr hd hg h0 => ?_,
    fun x s t p act hs hr hd hact hg hi he hc hbad => ?_, fun x s t p act hs hr hd hact h0 hg hi he hc hp hne => ?_⟩
  · rw [execIadd_s32]
    exact runWord_faults _ hs hr hd (gateOn_of_illegal hg h0 hi) h0 (by decide)
  · obtain ⟨hi, hn, hh⟩ := hpre
    rw [execIadd_s32]
    exact runWord_faults _ hs hr hd (gateOn_of_namesExt hg h0 hi hn hh) h0 (by decide)
  · rw [execIadd_s32]
    exact runWord_faults _ hs hr hd (gateOn_of_badCode hg h0) h0 (by decide)
  · subst hact
    have hgate := gateOn_of_uniform (p := p) (u := iaddUse x) hg (Troupe.ne_zero_of_poisoned hbad) hi he hc rfl
      (t.uniform_lanes _ _ _)
    obtain ⟨s', t', hex, ht', ⟨hslices, -⟩, hwrote⟩ := iadd_poisoned hs hr hd hbad hgate
    refine ⟨s', t', hex, ht', fun k hk hpres => ?_, hwrote⟩
    obtain ⟨hst, hcode, -, hmask, -⟩ := hslices k hk hpres
    exact ⟨hst, hcode, hmask⟩
  · subst hact
    obtain ⟨l, m, hl, hm, hne⟩ := hne
    rw [execBrc_uniform]
    exact runBranch_faults _ hs hr hd (gateOn_of_not_uniform (u := brcUse x) hg h0 hi he hc hp
      (Troupe.uniform_brcUse hl hm hne)) h0 (by decide)

end Sys2Proof.Machine

/-! ### Exact sums, products and scalings (R125, R131) -/

namespace Sys2Proof.Machine

/-- A finite value: neither a NaN nor an infinity (R117). -/
abbrev Num.Finite (x : Num) : Prop := x.isNan = false ∧ x.isInf = false

theorem Num.Finite.exists_fin {x : Num} (h : x.Finite) : ∃ s m e, x = .fin s m e := by
  cases x with
  | nan => exact absurd h.1 (by decide)
  | inf s => exact absurd h.2 (by cases s <;> decide)
  | fin s m e => exact ⟨s, m, e, rfl⟩

theorem Num.finite_fin (s : Bool) (m : Nat) (e : Int) : (Num.fin s m e).Finite := ⟨rfl, rfl⟩

theorem Num.toRat_neg (x : Num) : x.neg.toRat = -x.toRat := by
  cases x with
  | nan => exact neg_zero.symm
  | inf s => exact neg_zero.symm
  | fin s m e => cases s <;> simp [Num.neg, Num.toRat]

theorem Num.abs_toRat_fin (s : Bool) (m : Nat) (e : Int) : |(Num.fin s m e).toRat| = m * (2 : ℚ) ^ e := by
  have hpos : (0 : ℚ) ≤ m * (2 : ℚ) ^ e := by positivity
  cases s
  · simp [Num.toRat, abs_of_nonneg hpos]
  · simp [Num.toRat, abs_of_nonneg hpos]

theorem Num.isZero_iff {x : Num} (h : x.Finite) : x.isZero = true ↔ x.toRat = 0 := by
  obtain ⟨s, m, e, rfl⟩ := h.exists_fin
  rw [← abs_eq_zero, Num.abs_toRat_fin]
  simp [Num.isZero, zpow_ne_zero]

theorem Num.toRat_mul (s t : Bool) (m n : Nat) (e f : Int) :
    (Num.mul (.fin s m e) (.fin t n f)).toRat = (Num.fin s m e).toRat * (Num.fin t n f).toRat := by
  have hexp : (2 : ℚ) ^ (e + f) = 2 ^ e * 2 ^ f := zpow_add₀ two_ne_zero e f
  cases s <;> cases t <;> simp [Num.mul, Num.toRat, hexp] <;> ring

theorem toRat_scaleBy (s : Bool) (m : Nat) (e : Int) {k : Int} (hl : -1024 ≤ k) (hu : k ≤ 1024) :
    (scaleBy (.fin s m e) k).toRat = (Num.fin s m e).toRat * (2 : ℚ) ^ k := by
  have hclamp : max (-1024) (min 1024 k) = k := by omega
  simp only [scaleBy, Num.toRat, hclamp, zpow_add₀ (two_ne_zero' ℚ)]
  ring

/-- A finite value is its multiple of a power of two that is at most its own. -/
theorem Num.atExp_mul (s : Bool) (m : Nat) {e q : Int} (h : q ≤ e) :
    (((Num.fin s m e).atExp q : Int) : ℚ) * 2 ^ q = (Num.fin s m e).toRat := by
  have hpow : ((2 : ℚ) ^ (e - q).toNat) * 2 ^ q = 2 ^ e := by
    rw [← zpow_natCast, Int.toNat_of_nonneg (by omega), ← zpow_add₀ two_ne_zero, sub_add_cancel]
  rw [Num.toRat, ← hpow]
  cases s <;> simp [Num.atExp] <;> ring

/-- A fold that never rises is at most what it starts from. -/
theorem foldl_le_start {α : Type} {g : Int → α → Int} (hg : ∀ q x, g q x ≤ q) (l : List α) (q : Int) :
    l.foldl g q ≤ q := by
  induction l generalizing q with
  | nil => exact le_rfl
  | cons x l ih => exact (ih _).trans (hg q x)

/-- A fold that never rises stays below the bound of each element that it has met. -/
theorem foldl_le_of_mem {α : Type} {g : Int → α → Int} (hg : ∀ q x, g q x ≤ q) {l : List α} {x : α} (hx : x ∈ l)
    {b : Int} (hb : ∀ q, g q x ≤ b) (q : Int) : l.foldl g q ≤ b := by
  induction l generalizing q with
  | nil => simp at hx
  | cons y l ih =>
    rcases List.mem_cons.1 hx with rfl | hx
    · exact (foldl_le_start hg l _).trans (hb q)
    · exact ih hx _

/-- What a sum of finite values is: the integer sum `n` of the terms at one exponent, or a zero with its sign (R131). -/
theorem sumNum_of_finite (rdn : Bool) {l : List Num} (h : ∀ x ∈ l, x.Finite) : ∃ q : Int,
    (∀ s m e, Num.fin s m e ∈ l → q ≤ e) ∧
    sumNum rdn l = if (l.map (Num.atExp q)).sum = 0 then
        .fin (if l = [] then false else if (l.all fun x => x.isZero && x.signNeg) = true then true
          else if (l.all fun x => x.isZero && !x.signNeg) = true then false else rdn) 0 0
      else .fin (decide ((l.map (Num.atExp q)).sum < 0)) (l.map (Num.atExp q)).sum.natAbs q := by
  have hnan : l.any Num.isNan = false := by
    simp only [List.any_eq_false, Bool.not_eq_true]
    exact fun x hx => (h x hx).1
  have hinf : ∀ s, (l.any fun x => x == .inf s) = false := by
    intro s
    simp only [List.any_eq_false, beq_iff_eq]
    rintro x hx rfl
    exact absurd (h _ hx).2 (by simp [Num.isInf])
  have hsum : ∀ q, l.foldl (fun a x => a + x.atExp q) 0 = (l.map (Num.atExp q)).sum := fun q => by
    rw [List.sum_eq_foldl, List.foldl_map]
  simp only [sumNum, hnan, hinf, hsum, Bool.and_self, Bool.false_eq_true, if_false]
  generalize hq : List.foldl _ (0 : Int) l = q
  refine ⟨q, fun s m e hx => hq ▸ foldl_le_of_mem (fun q x => ?_) hx (fun q => min_le_right q e) 0, ?_⟩
  · cases x <;> simp
  · split
    · cases l with
      | nil => simp
      | cons x l => simp only [List.isEmpty_cons, Bool.false_eq_true, if_false, reduceCtorEq]; split_ifs <;> rfl
    · rfl

/-- The integer sum of finite values at a common exponent is their exact sum. -/
theorem sum_atExp_mul {l : List Num} (h : ∀ x ∈ l, x.Finite) {q : Int} (hq : ∀ s m e, Num.fin s m e ∈ l → q ≤ e) :
    (((l.map (Num.atExp q)).sum : Int) : ℚ) * 2 ^ q = (l.map Num.toRat).sum := by
  induction l with
  | nil => simp
  | cons x l ih =>
    obtain ⟨hx, hl⟩ := List.forall_mem_cons.1 h
    obtain ⟨s, m, e, rfl⟩ := hx.exists_fin
    have hterm := Num.atExp_mul s m (hq s m e List.mem_cons_self)
    have hrest := ih hl fun s m e he => hq s m e (List.mem_cons_of_mem _ he)
    simp only [List.map_cons, List.sum_cons, Int.cast_add, add_mul, hterm, hrest]

theorem toRat_sign_natAbs (n q : Int) : (Num.fin (decide (n < 0)) n.natAbs q).toRat = n * 2 ^ q := by
  have habs : (n.natAbs : ℚ) = |(n : ℚ)| := by rw [Nat.cast_natAbs, Int.cast_abs]
  rcases lt_or_ge n 0 with hn | hn
  · simp [Num.toRat, hn, habs, abs_of_neg (Int.cast_lt_zero.2 hn : (n : ℚ) < 0)]
  · simp [Num.toRat, not_lt.2 hn, habs, abs_of_nonneg (Int.cast_nonneg hn : (0 : ℚ) ≤ n)]

theorem sumNum_finite (rdn : Bool) {l : List Num} (h : ∀ x ∈ l, x.Finite) : (sumNum rdn l).Finite := by
  obtain ⟨q, -, hsum⟩ := sumNum_of_finite rdn h
  rw [hsum]
  split <;> exact Num.finite_fin ..

/-- The sum of finite values is their exact sum (R125). -/
theorem toRat_sumNum (rdn : Bool) {l : List Num} (h : ∀ x ∈ l, x.Finite) :
    (sumNum rdn l).toRat = (l.map Num.toRat).sum := by
  obtain ⟨q, hq, hsum⟩ := sumNum_of_finite rdn h
  rw [hsum, ← sum_atExp_mul h hq]
  split
  · next hzero => simp [hzero, Num.toRat]
  · exact toRat_sign_natAbs _ q

/-- The sign of a sum that is exactly zero (R131). -/
theorem signNeg_sumNum_of_zero (rdn : Bool) {l : List Num} (h : ∀ x ∈ l, x.Finite) (hzero : (l.map Num.toRat).sum = 0)
    (hne : l ≠ []) : (sumNum rdn l).signNeg =
      if (l.all fun x => x.isZero && x.signNeg) = true then true
      else if (l.all fun x => x.isZero && !x.signNeg) = true then false else rdn := by
  obtain ⟨q, hq, hsum⟩ := sumNum_of_finite rdn h
  have hint : (l.map (Num.atExp q)).sum = 0 := by
    rw [← sum_atExp_mul h hq] at hzero
    exact_mod_cast (mul_eq_zero.1 hzero).resolve_right (zpow_ne_zero q two_ne_zero)
  rw [hsum, if_pos hint, if_neg hne]
  rfl

/-- Settles O14: sums at a common exponent, products and scalings factor by factor. -/
theorem exactFloatResults : Obligations.ExactFloatResults :=
  ⟨fun rdn _ h => ⟨toRat_sumNum rdn h, signNeg_sumNum_of_zero rdn h⟩,
    fun s m e t n f => ⟨Num.toRat_mul s t m n e f, rfl⟩,
    fun s m e _ hl hu => toRat_scaleBy s m e hl hu,
    fun _ => rfl, fun _ _ _ => rfl⟩

end Sys2Proof.Machine

/-! ### Magnitude codes and their values (R116, R117) -/

namespace Sys2Proof.Machine

/-- What the rows of R116 have in common: a mantissa bit, a sign bit beside exponent and mantissa where the format is
signed, and finite magnitudes up to `maxCode` and no further. -/
structure FloatFormat.Regular (f : FloatFormat) : Prop where
  mantissa : 1 ≤ f.m
  exponent : 1 ≤ f.e
  width : f.width = f.e + f.m + if f.signed = true then 1 else 0
  top : f.maxCode + 1 = if f.nanKind = 1 then (2 ^ f.e - 1) * 2 ^ f.m else
    if f.nanKind = 2 then 2 ^ (f.e + f.m) - 1 else 2 ^ (f.e + f.m)

theorem regular_of_mem {ty : Ty} (h : ty ∈ floatTys) : (floatFormat ty).Regular := by
  simp only [floatTys, List.mem_cons, List.not_mem_nil, or_false] at h
  rcases h with rfl | rfl | rfl | rfl | rfl | rfl | rfl | rfl | rfl <;> constructor <;> decide

/-- The factor of a sign. -/
def signRat (s : Bool) : ℚ := if s then -1 else 1

theorem signRat_not (s : Bool) : signRat (!s) = -signRat s := by cases s <;> simp [signRat]

theorem abs_signRat_mul (s : Bool) (y : ℚ) : |signRat s * y| = |y| := by cases s <;> simp [signRat]

theorem Num.toRat_fin_eq_sign_mul (s : Bool) (m : Nat) (e : Int) :
    (Num.fin s m e).toRat = signRat s * |(Num.fin s m e).toRat| := by
  rw [Num.abs_toRat_fin, Num.toRat, signRat, mul_assoc]

/-- The exact value of a magnitude code. -/
def magRat (f : FloatFormat) (k : Nat) : ℚ := (magValue f false k).toRat

theorem magValue_finite (f : FloatFormat) (s : Bool) (k : Nat) : (magValue f s k).Finite := by
  unfold magValue
  simp only
  split <;> exact Num.finite_fin ..

theorem toRat_magValue (f : FloatFormat) (s : Bool) (k : Nat) : (magValue f s k).toRat = signRat s * magRat f k := by
  unfold magRat magValue signRat
  simp only
  split <;> simp only [Num.toRat, Bool.false_eq_true, if_false, one_mul, mul_assoc]

theorem signNeg_magValue (f : FloatFormat) (s : Bool) (k : Nat) : (magValue f s k).signNeg = s := by
  unfold magValue
  simp only
  split <;> rfl

theorem magRat_zero (f : FloatFormat) : magRat f 0 = 0 := by simp [magRat, magValue, Num.toRat]

/-! A format's magnitudes are the multiples `n * 2 ^ q` of its grid. -/

/-- The pairs of mantissa and exponent that magnitude codes stand for: `n` has no more bits than a mantissa with its
leading one, and fewer only at the least exponent (R117). -/
structure FloatFormat.OnGrid (f : FloatFormat) (n : Nat) (q : Int) : Prop where
  lt : n < 2 ^ (f.m + 1)
  least : 1 - (f.bias : Int) - f.m ≤ q
  normal : n < 2 ^ f.m → q = 1 - (f.bias : Int) - f.m

section
variable {f : FloatFormat} {n : Nat} {q : Int}

/-- The code of a pair on the grid: how far its exponent stands above the least one, times the codes of a binade. -/
theorem FloatFormat.OnGrid.magCode_eq (h : f.OnGrid n q) :
    magCode f n q = (q - (1 - (f.bias : Int) - f.m)).toNat * 2 ^ f.m + n := by
  obtain ⟨hlt, hleast, hnormal⟩ := h
  unfold magCode
  by_cases hn : n < 2 ^ f.m
  · simp [hn, hnormal hn]
  · have hexp : (q + f.m + f.bias).toNat = (q - (1 - (f.bias : Int) - f.m)).toNat + 1 := by omega
    rw [if_neg hn, if_pos hlt, hexp, Nat.add_mul]
    omega

theorem FloatFormat.OnGrid.magCode_succ (h : f.OnGrid n q) : magCode f (n + 1) q = magCode f n q + 1 := by
  have hpow : 2 ^ (f.m + 1) = 2 * 2 ^ f.m := by ring
  by_cases hn : n + 1 < 2 ^ (f.m + 1)
  · have hnext : f.OnGrid (n + 1) q := ⟨hn, h.least, fun hlt => h.normal (by omega)⟩
    rw [h.magCode_eq, hnext.magCode_eq, Nat.add_assoc]
  · have hlast : n + 1 = 2 ^ (f.m + 1) := by have := h.lt; omega
    have hleast := h.least
    have hexp : (q + 1 + f.m + f.bias).toNat = (q - (1 - (f.bias : Int) - f.m)).toNat + 2 := by omega
    rw [h.magCode_eq, magCode, hlast, if_neg (by omega), if_neg (by omega), hexp, Nat.add_mul]
    omega

/-- Next codes alternate as their mantissas do. -/
theorem FloatFormat.OnGrid.magCode_mod_two (h : f.OnGrid n q) (hm : 1 ≤ f.m) : magCode f n q % 2 = n % 2 := by
  obtain ⟨k, hk⟩ : ∃ k, f.m = k + 1 := ⟨f.m - 1, by omega⟩
  rw [h.magCode_eq, hk, pow_succ, ← mul_assoc]
  omega

/-- The code of a pair on the grid has its value. -/
theorem FloatFormat.OnGrid.magRat_magCode (h : f.OnGrid n q) : magRat f (magCode f n q) = n * 2 ^ q := by
  obtain ⟨hlt, hleast, hnormal⟩ := id h
  have hpos : 0 < 2 ^ f.m := Nat.two_pow_pos f.m
  rw [magRat, magValue, h.magCode_eq]
  generalize hx : (q - (1 - (f.bias : Int) - f.m)).toNat = x
  by_cases hn : n < 2 ^ f.m
  · have hx0 : x = 0 := by have := hnormal hn; omega
    simp [hx0, Nat.div_eq_of_lt hn, Nat.mod_eq_of_lt hn, Num.toRat, hnormal hn]
  · obtain ⟨r, rfl⟩ := Nat.exists_eq_add_of_le (Nat.le_of_not_lt hn)
    have hr : r < 2 ^ f.m := by rw [pow_succ] at hlt; omega
    have hcode : x * 2 ^ f.m + (2 ^ f.m + r) = r + (x + 1) * 2 ^ f.m := by ring
    have hq : ((x + 1 : Nat) : Int) - f.bias - f.m = q := by omega
    simp only [hcode, Nat.add_mul_div_right _ _ hpos, Nat.div_eq_of_lt hr, Nat.add_mul_mod_self_right, Nat.mod_eq_of_lt hr,
      Nat.zero_add, Nat.succ_ne_zero, if_false, hq]
    simp [Num.toRat]

end

/-- Every code is that of a pair on the grid. -/
theorem exists_onGrid (f : FloatFormat) (k : Nat) : ∃ n q, f.OnGrid n q ∧ magCode f n q = k := by
  have hpos : 0 < 2 ^ f.m := Nat.two_pow_pos f.m
  have hmod := Nat.mod_lt k hpos
  have hdiv := Nat.div_add_mod' k (2 ^ f.m)
  have hpow : 2 ^ (f.m + 1) = 2 * 2 ^ f.m := by ring
  generalize k / 2 ^ f.m = x at hdiv
  by_cases hx : x = 0
  · have hgrid : f.OnGrid (k % 2 ^ f.m) (1 - (f.bias : Int) - f.m) := ⟨by omega, le_rfl, fun _ => rfl⟩
    refine ⟨_, _, hgrid, ?_⟩
    rw [hx] at hdiv
    simpa [hgrid.magCode_eq] using hdiv
  · have hgrid : f.OnGrid (2 ^ f.m + k % 2 ^ f.m) (x - f.bias - f.m) := ⟨by omega, by omega, fun h => by omega⟩
    have hexp : (x - f.bias - f.m - (1 - (f.bias : Int) - f.m)).toNat = x - 1 := by omega
    refine ⟨_, _, hgrid, ?_⟩
    have hle : 2 ^ f.m ≤ x * 2 ^ f.m := Nat.le_mul_of_pos_left _ (Nat.pos_of_ne_zero hx)
    rw [hgrid.magCode_eq, hexp, Nat.sub_mul]
    omega

/-- The magnitude after that of a pair on the grid. -/
theorem FloatFormat.OnGrid.magRat_succ {f : FloatFormat} {n : Nat} {q : Int} (h : f.OnGrid n q) :
    magRat f (magCode f n q + 1) = (n + 1 : Nat) * 2 ^ q := by
  have hpow : 2 ^ (f.m + 1) = 2 * 2 ^ f.m := by ring
  by_cases hn : n + 1 < 2 ^ (f.m + 1)
  · have hnext : f.OnGrid (n + 1) q := ⟨hn, h.least, fun hlt => h.normal (by omega)⟩
    rw [← h.magCode_succ, hnext.magRat_magCode]
  · have hlast : n + 1 = 2 * 2 ^ f.m := by have := h.lt; omega
    have hleast := h.least
    have hnext : f.OnGrid (2 ^ f.m) (q + 1) := ⟨by have := Nat.two_pow_pos f.m; omega, by omega, fun hlt => by omega⟩
    have hexp : (q + 1 - (1 - (f.bias : Int) - f.m)).toNat = (q - (1 - (f.bias : Int) - f.m)).toNat + 1 := by omega
    have hcode : magCode f n q + 1 = magCode f (2 ^ f.m) (q + 1) := by
      rw [h.magCode_eq, hnext.magCode_eq, hexp, Nat.add_mul]
      omega
    rw [hcode, hnext.magRat_magCode, hlast, zpow_add₀ two_ne_zero]
    push_cast
    ring

/-- Greater codes have greater values. -/
theorem magRat_strictMono (f : FloatFormat) : StrictMono (magRat f) := by
  refine strictMono_nat_of_lt_succ fun k => ?_
  obtain ⟨n, q, h, rfl⟩ := exists_onGrid f k
  rw [h.magRat_magCode, h.magRat_succ]
  have hpos : (0 : ℚ) < 2 ^ q := by positivity
  gcongr
  exact Nat.lt_succ_self n

theorem magRat_nonneg (f : FloatFormat) (k : Nat) : 0 ≤ magRat f k :=
  (magRat_zero f).symm.le.trans ((magRat_strictMono f).monotone (Nat.zero_le k))

/-! ### Codes by their sign and magnitude (R116, R117) -/

section
variable {f : FloatFormat} (h : f.Regular)
include h

theorem FloatFormat.Regular.magBits_eq (c : Nat) : magBits f c = c % 2 ^ (f.e + f.m) := by
  rw [magBits, h.width]
  split <;> rfl

theorem FloatFormat.Regular.magBits_lt (c : Nat) : magBits f c < 2 ^ (f.e + f.m) := by
  rw [h.magBits_eq]
  exact Nat.mod_lt _ (Nat.two_pow_pos _)

theorem FloatFormat.Regular.maxCode_lt : f.maxCode < 2 ^ (f.e + f.m) := by
  have htop := h.top
  have hle : (2 ^ f.e - 1) * 2 ^ f.m ≤ 2 ^ (f.e + f.m) := by
    rw [pow_add]
    exact Nat.mul_le_mul_right _ (Nat.sub_le _ _)
  split_ifs at htop <;> omega

/-- The magnitudes above the largest finite one are the codes of R116's infinities and NaNs. -/
theorem FloatFormat.Regular.maxCode_lt_iff {k : Nat} (hk : k < 2 ^ (f.e + f.m)) : f.maxCode < k ↔
    (f.nanKind = 1 ∧ k / 2 ^ f.m = 2 ^ f.e - 1) ∨ (f.nanKind = 2 ∧ k = 2 ^ (f.e + f.m) - 1) := by
  have htop := h.top
  by_cases h1 : f.nanKind = 1
  · rw [if_pos h1] at htop
    have hex : k / 2 ^ f.m < 2 ^ f.e := Nat.div_lt_of_lt_mul (by rwa [← pow_add, Nat.add_comm])
    have hle : 2 ^ f.e - 1 ≤ k / 2 ^ f.m ↔ (2 ^ f.e - 1) * 2 ^ f.m ≤ k := Nat.le_div_iff_mul_le (Nat.two_pow_pos _)
    omega
  · rw [if_neg h1] at htop
    split at htop <;> omega

theorem FloatFormat.Regular.magBits_withSign (s : Bool) {k : Nat} (hk : k < 2 ^ (f.e + f.m)) :
    magBits f (withSign f s k) = k := by
  rw [h.magBits_eq, withSign, h.width]
  cases f.signed <;> cases s <;> simp [Nat.mod_eq_of_lt hk]

theorem FloatFormat.Regular.signBit_withSign {s : Bool} (hs : s = true → f.signed = true) {k : Nat}
    (hk : k < 2 ^ (f.e + f.m)) : signBit f (withSign f s k) = s := by
  rw [signBit, withSign, h.width]
  cases s
  · cases f.signed <;> simp [Nat.div_eq_of_lt hk]
  · simp [hs rfl, Nat.add_div_left _ (Nat.two_pow_pos _), Nat.div_eq_of_lt hk]

/-- A code is its magnitude with its sign, and what stands above the format's width (R200). -/
theorem FloatFormat.Regular.withSign_magBits (c : Nat) : withSign f (signBit f c) (magBits f c) = c % 2 ^ f.width := by
  rw [h.magBits_eq, withSign, signBit, h.width]
  cases f.signed
  · rfl
  · have hsplit : c % (2 ^ (f.e + f.m) * 2) = _ := Nat.mod_mul
    rcases Nat.mod_two_eq_zero_or_one (c / 2 ^ (f.e + f.m)) with hbit | hbit
    · simp [pow_succ, hsplit, hbit]
    · simp [pow_succ, hsplit, hbit, Nat.add_comm]

theorem FloatFormat.Regular.withSign_mod_two (s : Bool) (k : Nat) : withSign f s k % 2 = k % 2 := by
  have hwidth := h.width
  have hm := h.mantissa
  have he := h.exponent
  unfold withSign
  split
  · next hsign =>
    obtain ⟨j, hj⟩ : ∃ j, f.width - 1 = j + 1 := ⟨f.width - 2, by omega⟩
    rw [hj, pow_succ]
    omega
  · rfl

end

theorem withSign_false (f : FloatFormat) (k : Nat) : withSign f false k = k := by simp [withSign]

theorem withSign_succ (f : FloatFormat) (s : Bool) (k : Nat) : withSign f s (k + 1) = withSign f s k + 1 := by
  unfold withSign
  split <;> omega

section
variable {ty : Ty} (h : ty ∈ floatTys)
include h

/-- Up to the largest finite code, a code's value is that of its magnitude, with its sign. -/
theorem value_of_le {c : Nat} (hc : magBits (floatFormat ty) c ≤ (floatFormat ty).maxCode) :
    value ty c = magValue (floatFormat ty) (signBit (floatFormat ty) c) (magBits (floatFormat ty) c) := by
  have hreg := regular_of_mem h
  obtain ⟨h1, h2⟩ := not_or.1 (mt (hreg.maxCode_lt_iff (hreg.magBits_lt c)).2 (Nat.not_lt.2 hc))
  exact (if_neg h1).trans (if_neg h2)

/-- The finite codes are those up to the largest finite one (R116). -/
theorem value_finite_iff (c : Nat) : (value ty c).Finite ↔ magBits (floatFormat ty) c ≤ (floatFormat ty).maxCode := by
  have hreg := regular_of_mem h
  refine ⟨fun hfin => Nat.le_of_not_lt fun hlt => ?_, fun hc => ?_⟩
  · rcases (hreg.maxCode_lt_iff (hreg.magBits_lt c)).1 hlt with h1 | h2
    · rw [value, if_pos h1] at hfin
      split at hfin
      · exact absurd hfin.2 (by simp [Num.isInf])
      · exact absurd hfin.1 (by simp [Num.isNan])
    · rw [value, if_neg (by omega), if_pos h2] at hfin
      exact absurd hfin.1 (by simp [Num.isNan])
  · rw [value_of_le h hc]
    exact magValue_finite ..

theorem toRat_value {c : Nat} (hc : (value ty c).Finite) :
    (value ty c).toRat = signRat (signBit (floatFormat ty) c) * magRat (floatFormat ty) (magBits (floatFormat ty) c) := by
  rw [value_of_le h ((value_finite_iff h c).1 hc), toRat_magValue]

/-- A magnitude with its sign reads as what it was put together from. -/
theorem value_withSign {s : Bool} (hs : s = true → (floatFormat ty).signed = true) {k : Nat}
    (hk : k ≤ (floatFormat ty).maxCode) : value ty (withSign (floatFormat ty) s k) = magValue (floatFormat ty) s k := by
  have hreg := regular_of_mem h
  have hlt := hk.trans_lt hreg.maxCode_lt
  rw [value_of_le h (by rwa [hreg.magBits_withSign s hlt]), hreg.magBits_withSign s hlt, hreg.signBit_withSign hs hlt]

/-- The parts of a finite magnitude with its sign. -/
theorem withSign_reads {s : Bool} (hs : s = true → (floatFormat ty).signed = true) {k : Nat}
    (hk : k ≤ (floatFormat ty).maxCode) : (value ty (withSign (floatFormat ty) s k)).Finite ∧
      signBit (floatFormat ty) (withSign (floatFormat ty) s k) = s ∧
      magBits (floatFormat ty) (withSign (floatFormat ty) s k) = k ∧
      (value ty (withSign (floatFormat ty) s k)).toRat = signRat s * magRat (floatFormat ty) k := by
  have hreg := regular_of_mem h
  have hlt := hk.trans_lt hreg.maxCode_lt
  rw [value_withSign h hs hk, toRat_magValue]
  exact ⟨magValue_finite .., hreg.signBit_withSign hs hlt, hreg.magBits_withSign s hlt, rfl⟩

theorem toRat_maxValue : (maxValue ty).toRat = magRat (floatFormat ty) (floatFormat ty).maxCode := by
  have hpos := value_withSign h (s := false) nofun le_rfl
  rw [withSign_false] at hpos
  rw [maxValue, hpos, magRat]

end

end Sys2Proof.Machine

/-! ### Fractions and the exponent of the kept bits -/

namespace Sys2Proof.Machine

theorem pow2_pos (k : Int) : 0 < (pow2 k).1 ∧ 0 < (pow2 k).2 := by
  unfold pow2
  split <;> simp

theorem pow2_ratio (k : Int) : ((pow2 k).1 : ℚ) / (pow2 k).2 = 2 ^ k := by
  unfold pow2
  split
  · next h =>
    rw [Nat.cast_one, div_one, Nat.cast_pow, Nat.cast_ofNat, ← zpow_natCast, Int.toNat_of_nonneg h]
  · next h =>
    rw [Nat.cast_one, one_div, Nat.cast_pow, Nat.cast_ofNat, ← zpow_natCast, Int.toNat_of_nonneg (by omega), ← zpow_neg,
      neg_neg]

theorem frac_den_pos (m : Nat) (e : Int) : 0 < (frac m e).2 := (pow2_pos e).2

theorem frac_ratio (m : Nat) (e : Int) : ((frac m e).1 : ℚ) / (frac m e).2 = m * 2 ^ e := by
  rw [frac, ← pow2_ratio e]
  push_cast
  ring

/-- A comparison of fractions by their cross products. -/
theorem mul_lt_mul_iff_ratio {a b c d : Nat} (hb : 0 < b) (hd : 0 < d) : a * d < c * b ↔ (a : ℚ) / b < c / d := by
  rw [div_lt_div_iff₀ (by exact_mod_cast hb) (by exact_mod_cast hd)]
  exact_mod_cast Iff.rfl

theorem floorLog2_spec {num den : Nat} (hn : num ≠ 0) (hd : den ≠ 0) :
    (2 : ℚ) ^ floorLog2 num den ≤ num / den ∧ (num : ℚ) / den < 2 ^ (floorLog2 num den + 1) := by
  have hdpos : (0 : ℚ) < den := by exact_mod_cast Nat.pos_of_ne_zero hd
  have hnl : (2 : ℚ) ^ (Nat.log2 num : Int) ≤ num := by exact_mod_cast Nat.log2_self_le hn
  have hnu : (num : ℚ) < 2 ^ ((Nat.log2 num : Int) + 1) := by exact_mod_cast Nat.lt_log2_self (n := num)
  have hdl : (2 : ℚ) ^ (Nat.log2 den : Int) ≤ den := by exact_mod_cast Nat.log2_self_le hd
  have hdu : (den : ℚ) < 2 ^ ((Nat.log2 den : Int) + 1) := by exact_mod_cast Nat.lt_log2_self (n := den)
  unfold floorLog2
  simp only
  generalize (Nat.log2 num : Int) = a at hnl hnu
  generalize (Nat.log2 den : Int) = b at hdl hdu
  have hcond : den * (pow2 (a - b)).1 ≤ num * (pow2 (a - b)).2 ↔ (2 : ℚ) ^ (a - b) ≤ num / den := by
    rw [← pow2_ratio, ← not_lt, ← not_lt, ← mul_lt_mul_iff_ratio (Nat.pos_of_ne_zero hd) (pow2_pos _).2,
      Nat.mul_comm den]
  split
  · next h =>
    refine ⟨hcond.1 h, (div_lt_iff₀ hdpos).2 (hnu.trans_le ?_)⟩
    calc (2 : ℚ) ^ (a + 1) = 2 ^ (a - b + 1) * 2 ^ b := by rw [← zpow_add₀ two_ne_zero]; congr 1; ring
      _ ≤ 2 ^ (a - b + 1) * den := by gcongr
  · next h =>
    refine ⟨(le_div_iff₀ hdpos).2 (le_trans ?_ hnl), by rw [sub_add_cancel]; exact not_le.1 (mt hcond.2 h)⟩
    calc (2 : ℚ) ^ (a - b - 1) * den ≤ 2 ^ (a - b - 1) * 2 ^ (b + 1) := by gcongr
      _ = 2 ^ a := by rw [← zpow_add₀ two_ne_zero]; congr 1; ring

/-- The exponent of the last bit that a format keeps of a fraction (R125). -/
def FloatFormat.lastExp (f : FloatFormat) (num den : Nat) : Int :=
  max (floorLog2 num den) (1 - (f.bias : Int)) - f.m

/-- A fraction in units of the last bit that the format keeps. -/
def FloatFormat.scaledNum (f : FloatFormat) (num den : Nat) : Nat := num * (pow2 (-f.lastExp num den)).1

def FloatFormat.scaledDen (f : FloatFormat) (num den : Nat) : Nat := den * (pow2 (-f.lastExp num den)).2

section
variable (f : FloatFormat) {num den : Nat}

theorem FloatFormat.scaled_ratio :
    (f.scaledNum num den : ℚ) / f.scaledDen num den * 2 ^ f.lastExp num den = num / den := by
  rw [scaledNum, scaledDen, Nat.cast_mul, Nat.cast_mul, mul_div_mul_comm, pow2_ratio, mul_assoc,
    ← zpow_add₀ two_ne_zero, neg_add_cancel, zpow_zero, mul_one]

variable (hd : den ≠ 0)
include hd

theorem FloatFormat.scaledDen_pos : 0 < f.scaledDen num den := Nat.mul_pos (Nat.pos_of_ne_zero hd) (pow2_pos _).2

/-- A fraction lies at the kept quotient, and the discarded part of a unit above it. -/
theorem FloatFormat.ratio_eq_quotient : (num : ℚ) / den =
    ((f.scaledNum num den / f.scaledDen num den : Nat) +
      (f.scaledNum num den % f.scaledDen num den : Nat) / (f.scaledDen num den : ℚ)) * 2 ^ f.lastExp num den := by
  have hpos : (f.scaledDen num den : ℚ) ≠ 0 := by exact_mod_cast (f.scaledDen_pos (num := num) hd).ne'
  have hdiv : (f.scaledNum num den : ℚ) = f.scaledDen num den * (f.scaledNum num den / f.scaledDen num den : Nat) +
      (f.scaledNum num den % f.scaledDen num den : Nat) := by exact_mod_cast (Nat.div_add_mod _ _).symm
  rw [← f.scaled_ratio (num := num) (den := den), hdiv, add_div, mul_div_cancel_left₀ _ hpos]

variable (hn : num ≠ 0)
include hn

/-- The kept quotient and its exponent stand on the format's grid. -/
theorem FloatFormat.onGrid_quotient :
    f.OnGrid (f.scaledNum num den / f.scaledDen num den) (f.lastExp num den) := by
  obtain ⟨hlow, hhigh⟩ := floorLog2_spec hn hd
  have hratio := f.scaled_ratio (num := num) (den := den)
  have hpos := f.scaledDen_pos (num := num) hd
  have hposQ : (0 : ℚ) < f.scaledDen num den := by exact_mod_cast hpos
  have hexp : f.lastExp num den = max (floorLog2 num den) (1 - (f.bias : Int)) - f.m := rfl
  generalize f.lastExp num den = q at hratio hexp
  generalize floorLog2 num den = k at hlow hhigh hexp
  have hunit : (0 : ℚ) < 2 ^ q := by positivity
  have hone : (1 : ℚ) ≤ 2 := one_le_two
  refine ⟨Nat.div_lt_of_lt_mul ?_, by omega, fun hlt => ?_⟩
  · have hbound : (f.scaledNum num den : ℚ) / f.scaledDen num den < 2 ^ (f.m + 1) := by
      refine lt_of_mul_lt_mul_right (hratio.trans_lt (hhigh.trans_le ?_)) hunit.le
      rw [← zpow_natCast, ← zpow_add₀ two_ne_zero]
      exact zpow_le_zpow_right₀ hone (by push_cast; omega)
    rw [div_lt_iff₀ hposQ] at hbound
    rw [Nat.mul_comm]
    exact_mod_cast hbound
  · by_contra hne
    refine absurd ((Nat.le_div_iff_mul_le hpos).2 ?_) (Nat.not_le.2 hlt)
    have hbound : (2 : ℚ) ^ f.m ≤ f.scaledNum num den / f.scaledDen num den := by
      refine le_of_mul_le_mul_right (le_trans ?_ (hlow.trans hratio.ge)) hunit
      rw [← zpow_natCast, ← zpow_add₀ two_ne_zero]
      exact zpow_le_zpow_right₀ hone (by omega)
    rw [le_div_iff₀ hposQ] at hbound
    exact_mod_cast hbound

end

/-! ### One rounding between two magnitudes (R125–R127) -/

/-- A value lies at a magnitude of a format, and a part `rem / d` of the way to the next one. -/
structure FloatFormat.Brackets (f : FloatFormat) (y : ℚ) (k rem d : Nat) : Prop where
  rem_lt : rem < d
  exact : y = magRat f k + rem / d * (magRat f (k + 1) - magRat f k)

/-- The magnitude that a mode chooses of two. -/
def roundedMag (r : Rnd) (neg : Bool) (rho k rem d : Nat) : Nat := if roundsUp r neg rho k rem d then k + 1 else k

/-- Of the kept quotient, a mode asks only whether it is odd. -/
theorem roundsUp_congr (r : Rnd) (neg : Bool) (rho rem d : Nat) {n k : Nat} (h : n % 2 = k % 2) :
    roundsUp r neg rho n rem d = roundsUp r neg rho k rem d := by
  cases r with
  | rne => simp only [roundsUp, h]
  | _ => rfl

/-- No mode leaves a magnitude that is exact. -/
theorem rem_ne_zero_of_roundsUp {r : Rnd} {neg : Bool} {rho k rem d : Nat} (hd : 0 < d)
    (h : roundsUp r neg rho k rem d = true) : rem ≠ 0 := by
  cases r with
  | rne =>
    simp only [roundsUp, Bool.or_eq_true, Bool.and_eq_true, decide_eq_true_eq] at h
    omega
  | rz => exact absurd h (by simp [roundsUp])
  | _ =>
    simp only [roundsUp, Bool.and_eq_true, decide_eq_true_eq] at h
    exact h.1

section
variable {f : FloatFormat} {y : ℚ} {k rem d : Nat} (h : f.Brackets y k rem d)
include h

theorem FloatFormat.Brackets.part_mem : 0 ≤ (rem : ℚ) / d ∧ (rem : ℚ) / d < 1 := by
  have hd : (0 : ℚ) < d := by exact_mod_cast Nat.zero_lt_of_lt h.rem_lt
  exact ⟨by positivity, (div_lt_one hd).2 (by exact_mod_cast h.rem_lt)⟩

theorem FloatFormat.Brackets.le : magRat f k ≤ y := by
  have hgap := sub_pos.2 (magRat_strictMono f k.lt_succ_self)
  rw [h.exact]
  exact le_add_of_nonneg_right (mul_nonneg h.part_mem.1 hgap.le)

theorem FloatFormat.Brackets.lt : y < magRat f (k + 1) := by
  have hgap := sub_pos.2 (magRat_strictMono f k.lt_succ_self)
  have hpart := mul_lt_mul_of_pos_right h.part_mem.2 hgap
  rw [h.exact]
  linarith

theorem FloatFormat.Brackets.eq_iff : y = magRat f k ↔ rem = 0 := by
  have hgap := sub_pos.2 (magRat_strictMono f k.lt_succ_self)
  have hd : (d : ℚ) ≠ 0 := by exact_mod_cast (Nat.zero_lt_of_lt h.rem_lt).ne'
  rw [h.exact, add_eq_left, mul_eq_zero, or_iff_left hgap.ne', div_eq_zero_iff, or_iff_left hd, Nat.cast_eq_zero]

/-- Up to a magnitude, no mode goes above it. -/
theorem FloatFormat.Brackets.roundedMag_le {j : Nat} (hj : y ≤ magRat f j) (r : Rnd) (neg : Bool) (rho : Nat) :
    roundedMag r neg rho k rem d ≤ j := by
  unfold roundedMag
  split
  · next hup =>
    have hne := mt h.eq_iff.1 (rem_ne_zero_of_roundsUp (Nat.zero_lt_of_lt h.rem_lt) hup)
    exact (magRat_strictMono f).lt_iff_lt.1 ((lt_of_le_of_ne h.le (Ne.symm hne)).trans_le hj)
  · exact (magRat_strictMono f).le_iff_le.1 (h.le.trans hj)

end

theorem maxFinite_value (f : FloatFormat) : ((maxFinite f).1 : ℚ) * 2 ^ (maxFinite f).2 = magRat f f.maxCode := by
  have hpos := toRat_magValue f false f.maxCode
  rw [signRat, if_neg (by decide), one_mul] at hpos
  obtain ⟨s, m, e, hval⟩ := (magValue_finite f false f.maxCode).exists_fin
  have hs : s = false := by
    have hsign := signNeg_magValue f false f.maxCode
    rwa [hval] at hsign
  rw [← hpos, maxFinite, hval, hs]
  simp [Num.toRat]

/-- A fraction against the largest finite value. -/
theorem top_lt_iff (f : FloatFormat) {num den : Nat} (hd : 0 < den) :
    (frac (maxFinite f).1 (maxFinite f).2).1 * den < num * (frac (maxFinite f).1 (maxFinite f).2).2 ↔
      magRat f f.maxCode < num / den := by
  rw [mul_lt_mul_iff_ratio (frac_den_pos ..) hd, frac_ratio, maxFinite_value]

theorem overflows_rs_iff (f : FloatFormat) (neg : Bool) (num den n : Nat) (q : Int) :
    overflows f .rs neg num den n q = true ↔ magRat f f.maxCode < n * 2 ^ q := by
  rw [← frac_ratio, ← top_lt_iff f (frac_den_pos n q)]
  exact decide_eq_true_iff

/-- What overflows lies above the largest finite value, or is rounded above it by a random input (R127). -/
theorem lt_of_overflows {f : FloatFormat} {r : Rnd} {neg : Bool} {num den n : Nat} {q : Int} (hd : 0 < den)
    (h : overflows f r neg num den n q = true) :
    magRat f f.maxCode < num / den ∨ (r = .rs ∧ magRat f f.maxCode < n * 2 ^ q) := by
  cases r with
  | rne =>
    left
    simp only [overflows, decide_eq_true_eq] at h
    rw [← not_lt, mul_lt_mul_iff_ratio hd (frac_den_pos ..), frac_ratio, not_lt] at h
    refine lt_of_lt_of_le ?_ h
    have hhalf : (2 : ℚ) ^ (maxFinite f).2 = 2 * 2 ^ ((maxFinite f).2 - 1) := by
      rw [← zpow_one_add₀ two_ne_zero, add_sub_cancel]
    have hpos : (0 : ℚ) < 2 ^ ((maxFinite f).2 - 1) := by positivity
    rw [← maxFinite_value, hhalf]
    push_cast
    linarith
  | rz => simp [overflows] at h
  | rup =>
    simp only [overflows, Bool.and_eq_true, decide_eq_true_eq] at h
    exact .inl ((top_lt_iff f hd).1 h.2)
  | rdn =>
    simp only [overflows, Bool.and_eq_true, decide_eq_true_eq] at h
    exact .inl ((top_lt_iff f hd).1 h.2)
  | rs => exact .inr ⟨rfl, (overflows_rs_iff f neg num den n q).1 h⟩

end Sys2Proof.Machine

/-! ### What a rounding delivers (R125–R130) -/

namespace Sys2Proof.Machine

/-- What a rounding of a magnitude `y` delivers, where its mode chooses the magnitude `k`: that one with the sign, as far
as it is finite; and beyond, what R127 gives. -/
def FloatFormat.Yields (f : FloatFormat) (r : Rnd) (sat neg : Bool) (y : ℚ) (k c : Nat) : Prop :=
  (k ≤ f.maxCode ∧ c = withSign f neg k) ∨
    ((magRat f f.maxCode < y ∨ (r = .rs ∧ f.maxCode < k)) ∧
      (c = overflowCode f sat neg ∨ c = withSign f neg f.maxCode))

theorem roundQ_of_ne_zero {ty : Ty} {f : FloatFormat} (hf : floatFormat ty = f) (r : Rnd) (sat : Bool) (rho : Nat)
    (neg : Bool) {num den : Nat} (hn : num ≠ 0) (hs : neg = true → f.signed = true) : roundQ ty r sat rho neg num den =
      let n := f.scaledNum num den / f.scaledDen num den
      let n' := roundedMag r neg rho n (f.scaledNum num den % f.scaledDen num den) (f.scaledDen num den)
      let top := frac (maxFinite f).1 (maxFinite f).2
      if overflows f r neg num den n' (f.lastExp num den) = true then overflowCode f sat neg
      else if (decide (top.1 * den < num * top.2) && r != .rs) = true then withSign f neg f.maxCode
      else withSign f neg (magCode f n' (f.lastExp num den)) := by
  have hsign : (neg && !f.signed) = false := by
    cases neg with
    | false => rfl
    | true => simp [hs rfl]
  subst hf
  rw [roundQ]
  simp only [hn, hsign, if_false, Bool.false_eq_true]
  rfl

theorem roundedMag_rz (neg : Bool) (rho k rem d : Nat) : roundedMag .rz neg rho k rem d = k := rfl

/-- A mode chooses between the two codes as it does between the two quotients. -/
theorem FloatFormat.OnGrid.magCode_roundedMag {f : FloatFormat} {n : Nat} {q : Int} (h : f.OnGrid n q) (hm : 1 ≤ f.m)
    (r : Rnd) (neg : Bool) (rho rem d : Nat) :
    magCode f (roundedMag r neg rho n rem d) q = roundedMag r neg rho (magCode f n q) rem d ∧
      magRat f (roundedMag r neg rho (magCode f n q) rem d) = roundedMag r neg rho n rem d * 2 ^ q := by
  rw [roundedMag, roundedMag, ← roundsUp_congr r neg rho rem d (h.magCode_mod_two hm)]
  split
  · exact ⟨h.magCode_succ, h.magRat_succ⟩
  · exact ⟨rfl, h.magRat_magCode⟩

/-- A fraction lies between the magnitude of its kept quotient and the next one. -/
theorem FloatFormat.brackets_quotient (f : FloatFormat) {num den : Nat} (hn : num ≠ 0) (hd : den ≠ 0) :
    f.Brackets (num / den) (magCode f (f.scaledNum num den / f.scaledDen num den) (f.lastExp num den))
      (f.scaledNum num den % f.scaledDen num den) (f.scaledDen num den) := by
  have hgrid := f.onGrid_quotient hd hn
  refine ⟨Nat.mod_lt _ (f.scaledDen_pos hd), (f.ratio_eq_quotient hd).trans ?_⟩
  rw [hgrid.magRat_succ, hgrid.magRat_magCode]
  push_cast
  ring

/-- A rounding goes to one of the two magnitudes between which the value lies, in every mode alike. -/
theorem roundQ_yields {ty : Ty} (h : ty ∈ floatTys) {num den : Nat} (hn : num ≠ 0) (hd : den ≠ 0) : ∃ k rem d,
    (floatFormat ty).Brackets (num / den) k rem d ∧ ∀ r sat rho neg, (neg = true → (floatFormat ty).signed = true) →
      (floatFormat ty).Yields r sat neg (num / den) (roundedMag r neg rho k rem d) (roundQ ty r sat rho neg num den) := by
  have hreg := regular_of_mem h
  generalize hf : floatFormat ty = f at hreg
  have hbr := f.brackets_quotient hn hd
  refine ⟨_, _, _, hbr, fun r sat rho neg hs => ?_⟩
  obtain ⟨hcode, hmag⟩ := (f.onGrid_quotient hd hn).magCode_roundedMag hreg.mantissa r neg rho
    (f.scaledNum num den % f.scaledDen num den) (f.scaledDen num den)
  rw [roundQ_of_ne_zero hf r sat rho neg hn hs]
  simp only [hcode]
  split_ifs with hover htop
  · refine .inr ⟨(lt_of_overflows (Nat.pos_of_ne_zero hd) hover).imp_right fun hrs => ⟨hrs.1, ?_⟩, .inl rfl⟩
    rw [← hmag] at hrs
    exact (magRat_strictMono f).lt_iff_lt.1 hrs.2
  · simp only [Bool.and_eq_true, decide_eq_true_eq] at htop
    exact .inr ⟨.inl ((top_lt_iff f (Nat.pos_of_ne_zero hd)).1 htop.1), .inr rfl⟩
  · refine .inl ⟨?_, rfl⟩
    by_cases hr : r = .rs
    · subst hr
      refine (magRat_strictMono f).le_iff_le.1 (le_of_not_gt fun hlt => hover ?_)
      rw [hmag] at hlt
      exact (overflows_rs_iff ..).2 hlt
    · refine hbr.roundedMag_le (le_of_not_gt fun hlt => htop ?_) r neg rho
      simpa [hr] using (top_lt_iff f (Nat.pos_of_ne_zero hd)).2 hlt

theorem roundTo_zero (ty : Ty) (r : Rnd) (sat : Bool) (rho : Nat) (s : Bool) (e : Int) :
    roundTo ty r sat rho (.fin s 0 e) = withSign (floatFormat ty) s 0 := by
  simp [roundTo, roundQ, frac]

theorem frac_num_ne_zero {m : Nat} (hm : m ≠ 0) (e : Int) : (frac m e).1 ≠ 0 :=
  (Nat.mul_pos (Nat.pos_of_ne_zero hm) (pow2_pos e).1).ne'

/-- A finite value is rounded to one of the two magnitudes between which it lies, a zero to zero. -/
theorem roundTo_yields {ty : Ty} (h : ty ∈ floatTys) {s : Bool} (hs : s = true → (floatFormat ty).signed = true) (m : Nat)
    (e : Int) : ∃ k rem d, (floatFormat ty).Brackets |(Num.fin s m e).toRat| k rem d ∧
      ∀ r sat rho, (floatFormat ty).Yields r sat s |(Num.fin s m e).toRat| (roundedMag r s rho k rem d)
        (roundTo ty r sat rho (.fin s m e)) := by
  rw [Num.abs_toRat_fin]
  by_cases hm : m = 0
  · subst hm
    refine ⟨0, 0, 1, ⟨Nat.one_pos, by simp [magRat_zero]⟩, fun r sat rho => .inl ?_⟩
    have hzero : roundedMag r s rho 0 0 1 = 0 :=
      if_neg fun hup => rem_ne_zero_of_roundsUp Nat.one_pos hup rfl
    rw [hzero, roundTo_zero]
    exact ⟨Nat.zero_le _, rfl⟩
  · rw [← frac_ratio]
    obtain ⟨k, rem, d, hbr, hround⟩ := roundQ_yields h (frac_num_ne_zero hm e) (frac_den_pos m e).ne'
    exact ⟨k, rem, d, hbr, fun r sat rho => hround r sat rho s hs⟩

/-- Up to the largest finite value, a rounding delivers the magnitude that the mode chooses, with the sign. -/
theorem roundTo_of_le {ty : Ty} (h : ty ∈ floatTys) {s : Bool} (hs : s = true → (floatFormat ty).signed = true)
    {m : Nat} {e : Int} (hx : |(Num.fin s m e).toRat| ≤ (maxValue ty).toRat) : ∃ k rem d,
      (floatFormat ty).Brackets |(Num.fin s m e).toRat| k rem d ∧
      ∀ r rho, (r = .rs → k + 1 ≤ (floatFormat ty).maxCode) → roundedMag r s rho k rem d ≤ (floatFormat ty).maxCode ∧
        ∀ sat, roundTo ty r sat rho (.fin s m e) = withSign (floatFormat ty) s (roundedMag r s rho k rem d) := by
  rw [toRat_maxValue h] at hx
  obtain ⟨k, rem, d, hbr, hround⟩ := roundTo_yields h hs m e
  refine ⟨k, rem, d, hbr, fun r rho hr => ⟨hbr.roundedMag_le hx r s rho, fun sat => ?_⟩⟩
  have hle := hbr.roundedMag_le hx r s rho
  rcases hround r sat rho with ⟨-, hfits⟩ | ⟨hbeyond | ⟨-, hbeyond⟩, -⟩
  · exact hfits
  · exact absurd hx (not_le.2 hbeyond)
  · exact absurd hle (not_le.2 hbeyond)

/-! ### What each mode chooses (R125, R126) -/

section
variable {f : FloatFormat} {y : ℚ} {k rem d : Nat} (h : f.Brackets y k rem d)
include h

theorem FloatFormat.Brackets.magRat_le_of_le {j : Nat} (hj : magRat f j ≤ y) : magRat f j ≤ magRat f k :=
  (magRat_strictMono f).monotone (Nat.lt_succ_iff.1 ((magRat_strictMono f).lt_iff_lt.1 (hj.trans_lt h.lt)))

/-- The magnitude that a rounding away from zero chooses is not below the value. -/
theorem FloatFormat.Brackets.le_rup (rho : Nat) : y ≤ magRat f (roundedMag .rup false rho k rem d) := by
  by_cases hrem : rem = 0
  · simp [roundedMag, roundsUp, hrem, (h.eq_iff.2 hrem).le]
  · simpa [roundedMag, roundsUp, hrem] using h.lt.le

/-- `.rup` gives the least value that is not below the exact one. -/
theorem FloatFormat.Brackets.rup_least (s : Bool) (rho : Nat) :
    signRat s * y ≤ signRat s * magRat f (roundedMag .rup s rho k rem d) ∧
      ∀ t j, signRat s * y ≤ signRat t * magRat f j →
        signRat s * magRat f (roundedMag .rup s rho k rem d) ≤ signRat t * magRat f j := by
  have hy : 0 ≤ y := (magRat_nonneg f k).trans h.le
  cases s with
  | false =>
    simp only [signRat, Bool.false_eq_true, if_false, one_mul]
    refine ⟨h.le_rup rho, fun t j hj => ?_⟩
    have hle : y ≤ magRat f j → magRat f (roundedMag .rup false rho k rem d) ≤ magRat f j := fun hj =>
      (magRat_strictMono f).monotone (h.roundedMag_le hj .rup false rho)
    cases t with
    | false => simpa using hle (by simpa using hj)
    | true =>
      have hj0 := magRat_nonneg f j
      simp only [if_true, neg_mul, one_mul] at hj ⊢
      linarith [hle (by linarith)]
  | true =>
    have hk : roundedMag .rup true rho k rem d = k := by simp [roundedMag, roundsUp]
    simp only [hk, signRat, if_true, neg_mul, one_mul, neg_le_neg_iff]
    refine ⟨h.le, fun t j hj => ?_⟩
    cases t with
    | false =>
      have hk0 := magRat_nonneg f k
      have hj0 := magRat_nonneg f j
      simp only [Bool.false_eq_true, if_false, one_mul]
      linarith
    | true =>
      simp only [if_true, neg_mul, one_mul, neg_le_neg_iff] at hj ⊢
      exact h.magRat_le_of_le hj

/-- `.rdn` gives the greatest value that is not above the exact one: it is `.rup` of the other sign. -/
theorem FloatFormat.Brackets.rdn_greatest (s : Bool) (rho : Nat) :
    signRat s * magRat f (roundedMag .rdn s rho k rem d) ≤ signRat s * y ∧
      ∀ t j, signRat t * magRat f j ≤ signRat s * y →
        signRat t * magRat f j ≤ signRat s * magRat f (roundedMag .rdn s rho k rem d) := by
  have hflip : roundedMag .rdn s rho k rem d = roundedMag .rup (!s) rho k rem d := by cases s <;> rfl
  obtain ⟨hle, hleast⟩ := h.rup_least (!s) rho
  rw [hflip]
  simp only [signRat_not, neg_mul, neg_le_neg_iff] at hle hleast
  refine ⟨hle, fun t j hj => ?_⟩
  have hneg := hleast (!t) j
  simp only [signRat_not, neg_mul, neg_le_neg_iff] at hneg
  exact hneg hj

/-- The discarded part against half a unit is the value against the middle of its two magnitudes. -/
theorem FloatFormat.Brackets.half_iff : (2 * rem < d ↔ y - magRat f k < magRat f (k + 1) - y) ∧
    (2 * rem = d ↔ y - magRat f k = magRat f (k + 1) - y) := by
  have hd : (0 : ℚ) < d := by exact_mod_cast Nat.zero_lt_of_lt h.rem_lt
  have hgap := sub_pos.2 (magRat_strictMono f k.lt_succ_self)
  have hlow : y - magRat f k = rem / d * (magRat f (k + 1) - magRat f k) := sub_eq_of_eq_add' h.exact
  have hhigh : magRat f (k + 1) - y = (d - rem) / d * (magRat f (k + 1) - magRat f k) := by
    rw [sub_div, div_self hd.ne', sub_mul, one_mul, ← hlow]
    ring
  rw [hlow, hhigh, mul_lt_mul_iff_left₀ hgap, div_lt_div_iff_of_pos_right hd, mul_left_inj' hgap.ne', div_left_inj' hd.ne',
    lt_sub_iff_add_lt, eq_sub_iff_add_eq, ← two_mul]
  exact ⟨by exact_mod_cast Iff.rfl, by exact_mod_cast Iff.rfl⟩

/-- `.rne` goes to the nearest magnitude, and to the even one of two (R125). -/
theorem FloatFormat.Brackets.rne_nearest (s : Bool) (rho j : Nat) :
    |y - magRat f (roundedMag .rne s rho k rem d)| ≤ |y - magRat f j| ∧
      (|y - magRat f (roundedMag .rne s rho k rem d)| = |y - magRat f j| →
        magRat f j ≠ magRat f (roundedMag .rne s rho k rem d) → roundedMag .rne s rho k rem d % 2 = 0) := by
  obtain ⟨hlt, heq⟩ := h.half_iff
  have hlow : |y - magRat f k| = y - magRat f k := abs_of_nonneg (sub_nonneg.2 h.le)
  have hhigh : |y - magRat f (k + 1)| = magRat f (k + 1) - y := by rw [abs_sub_comm, abs_of_pos (sub_pos.2 h.lt)]
  have hj : (magRat f j ≤ magRat f k ∧ |y - magRat f j| = y - magRat f j) ∨
      (magRat f (k + 1) ≤ magRat f j ∧ |y - magRat f j| = magRat f j - y) := by
    rcases le_or_gt j k with hjk | hjk
    · have hle := (magRat_strictMono f).monotone hjk
      exact .inl ⟨hle, abs_of_nonneg (sub_nonneg.2 (hle.trans h.le))⟩
    · have hle := (magRat_strictMono f).monotone (Nat.succ_le_of_lt hjk)
      exact .inr ⟨hle, by rw [abs_sub_comm, abs_of_nonneg (sub_nonneg.2 (h.lt.le.trans hle))]⟩
  by_cases hup : roundsUp .rne s rho k rem d = true
  · have hnear : magRat f (k + 1) - y ≤ y - magRat f k ∧
        (y - magRat f k = magRat f (k + 1) - y → (k + 1) % 2 = 0) := by
      rw [← not_lt, ← hlt, ← heq]
      simp only [roundsUp, Bool.or_eq_true, Bool.and_eq_true, decide_eq_true_eq, beq_iff_eq] at hup
      omega
    rw [roundedMag, if_pos hup, hhigh]
    rcases hj with ⟨hle, hdist⟩ | ⟨hle, hdist⟩
    · exact ⟨by linarith [hnear.1], fun htie _ => hnear.2 (by linarith [hnear.1])⟩
    · exact ⟨by linarith, fun htie hne => absurd (by linarith) hne⟩
  · have hnear : y - magRat f k ≤ magRat f (k + 1) - y ∧
        (y - magRat f k = magRat f (k + 1) - y → k % 2 = 0) := by
      rw [le_iff_lt_or_eq, ← hlt, ← heq]
      simp only [roundsUp, Bool.or_eq_true, Bool.and_eq_true, decide_eq_true_eq, beq_iff_eq] at hup
      omega
    rw [roundedMag, if_neg hup, hlow]
    rcases hj with ⟨hle, hdist⟩ | ⟨hle, hdist⟩
    · exact ⟨by linarith, fun htie hne => absurd (by linarith) hne⟩
    · exact ⟨by linarith [hnear.1], fun htie _ => hnear.2 (by linarith [hnear.1])⟩

/-- With signs, a code of the other sign is no nearer than zero. -/
theorem FloatFormat.Brackets.rne_nearest_signed (s : Bool) (rho : Nat) (t : Bool) (j : Nat) :
    |signRat s * y - signRat s * magRat f (roundedMag .rne s rho k rem d)| ≤ |signRat s * y - signRat t * magRat f j| ∧
      (|signRat s * y - signRat s * magRat f (roundedMag .rne s rho k rem d)| = |signRat s * y - signRat t * magRat f j| →
        signRat t * magRat f j ≠ signRat s * magRat f (roundedMag .rne s rho k rem d) →
        roundedMag .rne s rho k rem d % 2 = 0) := by
  rw [← mul_sub, abs_signRat_mul]
  by_cases hst : t = s
  · rw [hst, ← mul_sub, abs_signRat_mul]
    obtain ⟨hle, heven⟩ := h.rne_nearest s rho j
    exact ⟨hle, fun htie hne => heven htie fun hmag => hne (by rw [hmag])⟩
  · have hflip : signRat t = -signRat s := by rw [← signRat_not, Bool.eq_not.2 hst]
    have hy : 0 ≤ y := (magRat_nonneg f k).trans h.le
    have hj := magRat_nonneg f j
    have hfar : |signRat s * y - signRat t * magRat f j| = y + magRat f j := by
      rw [hflip, neg_mul, sub_neg_eq_add, ← mul_add, abs_signRat_mul, abs_of_nonneg (add_nonneg hy hj)]
    obtain ⟨hle, heven⟩ := h.rne_nearest s rho 0
    rw [magRat_zero, sub_zero, abs_of_nonneg hy] at hle heven
    rw [hfar]
    refine ⟨by linarith, fun htie hne => heven (by linarith) fun hzero => hne ?_⟩
    have hj0 : magRat f j = 0 := by linarith
    rw [hj0, ← hzero, mul_zero, mul_zero]

/-- `.rs` goes up where the discarded part, in units of 2^-16, and the random input reach a whole (R126). -/
theorem FloatFormat.Brackets.roundedMag_rs (hne : y ≠ magRat f k) (s : Bool) (rho : Nat) : roundedMag .rs s rho k rem d =
    if 65536 ≤ ⌊65536 * (y - magRat f k) / (magRat f (k + 1) - magRat f k)⌋ + (rho : Int) then k + 1 else k := by
  have hrem : rem ≠ 0 := mt h.eq_iff.2 hne
  have hgap := sub_pos.2 (magRat_strictMono f k.lt_succ_self)
  have hpart : 65536 * (y - magRat f k) / (magRat f (k + 1) - magRat f k) = ((65536 * rem : Nat) : ℚ) / (d : Nat) := by
    rw [sub_eq_of_eq_add' h.exact, ← mul_assoc, mul_div_cancel_right₀ _ hgap.ne']
    push_cast
    ring
  have hfloor : ⌊65536 * (y - magRat f k) / (magRat f (k + 1) - magRat f k)⌋ = ((65536 * rem / d : Nat) : Int) := by
    rw [hpart, Rat.floor_natCast_div_natCast, Int.natCast_div]
  rw [hfloor]
  simp only [roundedMag, roundsUp, hrem, ne_eq, not_false_eq_true, decide_true, Bool.true_and, decide_eq_true_eq, ge_iff_le]
  exact if_congr (by omega) rfl rfl

end

/-- Settles O15. The value lies between two magnitudes, and each mode chooses one of them. -/
theorem roundingModes : Obligations.RoundingModes := by
  intro ty s m e hty hsigned hx x v fin
  have hs : s = true → (floatFormat ty).signed = true := fun hs => by
    by_contra hno
    exact absurd (hsigned (Bool.eq_false_of_not_eq_true hno)) (by simp [hs])
  obtain ⟨k, rem, d, hbr, hround⟩ := roundTo_of_le hty hs hx
  have hx' : x = signRat s * |x| := Num.toRat_fin_eq_sign_mul s m e
  have hcode : ∀ r, r ≠ .rs → ∀ c, c = roundTo ty r false 0 (.fin s m e) → fin c ∧ signBit (floatFormat ty) c = s ∧
      v c = signRat s * magRat (floatFormat ty) (roundedMag r s 0 k rem d) ∧ c % 2 = roundedMag r s 0 k rem d % 2 := by
    rintro r hr c rfl
    obtain ⟨hle, heq⟩ := hround r 0 fun h => absurd h hr
    obtain ⟨hfin, hsign, -, hval⟩ := withSign_reads hty hs hle
    rw [heq false]
    exact ⟨hfin, hsign, hval, (regular_of_mem hty).withSign_mod_two s _⟩
  have hval : ∀ c, fin c →
      v c = signRat (signBit (floatFormat ty) c) * magRat (floatFormat ty) (magBits (floatFormat ty) c) := fun c hc =>
    toRat_value hty hc
  have habs : ∀ c, fin c → |v c| = magRat (floatFormat ty) (magBits (floatFormat ty) c) := fun c hc => by
    rw [hval c hc, abs_signRat_mul, abs_of_nonneg (magRat_nonneg _ _)]
  refine ⟨fun r hr => ?_, ?_, ?_, ?_, ?_, ?_⟩
  · obtain ⟨hfin, hsign, -⟩ := hcode r hr _ rfl
    exact ⟨hfin, hsign⟩
  · intro c
    obtain ⟨-, -, hc, -⟩ := hcode .rz (by decide) c rfl
    rw [hc, abs_signRat_mul, abs_of_nonneg (magRat_nonneg _ _)]
    refine ⟨hbr.le, fun c' hfin hle => ?_⟩
    rw [habs c' hfin] at hle ⊢
    exact hbr.magRat_le_of_le hle
  · intro c
    obtain ⟨-, -, hc, -⟩ := hcode .rup (by decide) c rfl
    obtain ⟨hle, hleast⟩ := hbr.rup_least s 0
    rw [hc, hx']
    refine ⟨hle, fun c' hfin hc' => ?_⟩
    rw [hval c' hfin] at hc' ⊢
    exact hleast _ _ hc'
  · intro c
    obtain ⟨-, -, hc, -⟩ := hcode .rdn (by decide) c rfl
    obtain ⟨hle, hgreatest⟩ := hbr.rdn_greatest s 0
    rw [hc, hx']
    refine ⟨hle, fun c' hfin hc' => ?_⟩
    rw [hval c' hfin] at hc' ⊢
    exact hgreatest _ _ hc'
  · intro c c' hfin
    obtain ⟨-, -, hc, heven⟩ := hcode .rne (by decide) c rfl
    rw [hc, hval c' hfin, hx', heven]
    exact hbr.rne_nearest_signed s 0 _ _
  · intro rho _ lo hne hnext hi
    obtain ⟨hlow, heq⟩ := hround .rz 0 nofun
    rw [roundedMag_rz] at hlow heq
    obtain ⟨hfin, -, hmag, -⟩ := withSign_reads hty hs hlow
    have hlo : lo = withSign (floatFormat ty) s k := heq false
    rw [← hlo] at hfin hmag
    have hmagk : magBits (floatFormat ty) lo = k := hmag
    have hhi : hi = magRat (floatFormat ty) (k + 1) := congrArg (fun j => magRat (floatFormat ty) (j + 1)) hmagk
    rw [habs lo hfin, hmagk] at hne ⊢
    rw [hmagk] at hnext
    rw [(hround .rs rho fun _ => hnext).2 false, hbr.roundedMag_rs hne.symm s rho, hhi, hlo, ← withSign_succ]
    exact apply_ite _ _ _ _

end Sys2Proof.Machine

/-! ### Inputs that a format cannot hold (R128, R130) -/

namespace Sys2Proof.Machine

/-- The mode and the random input do not matter to an infinity. -/
theorem roundTo_inf (ty : Ty) (r : Rnd) (sat : Bool) (rho : Nat) (neg : Bool) :
    roundTo ty r sat rho (.inf neg) = roundTo ty .rne sat 0 (.inf neg) := rfl

/-- A negative value in a format without a sign. -/
theorem roundTo_of_unsigned {ty : Ty} (h : (floatFormat ty).signed = false) (r : Rnd) (sat : Bool) (rho : Nat) {m : Nat}
    (hm : m ≠ 0) (e : Int) :
    roundTo ty r sat rho (.fin true m e) = if sat = true then 0 else (floatFormat ty).nanCode := by
  simp [roundTo, roundQ, frac_num_ne_zero hm e, h]

/-- No overflow gives another NaN than the canonical one. -/
theorem overflowCode_canonical : ∀ ty ∈ floatTys, ∀ sat neg,
    (value ty (overflowCode (floatFormat ty) sat neg)).isNan = true →
      overflowCode (floatFormat ty) sat neg = (floatFormat ty).nanCode := by
  decide

section
variable {ty : Ty} (h : ty ∈ floatTys)
include h

theorem isNan_withSign {s : Bool} (hs : s = true → (floatFormat ty).signed = true) {k : Nat}
    (hk : k ≤ (floatFormat ty).maxCode) : (value ty (withSign (floatFormat ty) s k)).isNan = false := by
  obtain ⟨hfin, -⟩ := withSign_reads h hs hk
  exact hfin.1

theorem isNan_zero : (value ty 0).isNan = false := by
  have hzero := isNan_withSign h (s := false) nofun (Nat.zero_le _)
  rwa [withSign_false] at hzero

/-- Whatever is rounded, a result that is a NaN is the canonical one of its format (R130). -/
theorem roundTo_canonical (r : Rnd) (sat : Bool) (rho : Nat) (x : Num)
    (hnan : (value ty (roundTo ty r sat rho x)).isNan = true) :
    roundTo ty r sat rho x = (floatFormat ty).nanCode := by
  have hzero := isNan_zero h
  cases x with
  | nan => rfl
  | inf neg =>
    simp only [roundTo] at hnan ⊢
    split_ifs at hnan ⊢
    · simp [hzero] at hnan
    · rfl
    · exact overflowCode_canonical ty h sat neg hnan
  | fin s m e =>
    by_cases hs : s = true → (floatFormat ty).signed = true
    · obtain ⟨k, rem, d, -, hround⟩ := roundTo_yields h hs m e
      rcases hround r sat rho with ⟨hle, hfits⟩ | ⟨-, hover | htop⟩
      · rw [hfits, isNan_withSign h hs hle] at hnan
        exact absurd hnan (by decide)
      · rw [hover] at hnan ⊢
        exact overflowCode_canonical ty h sat s hnan
      · rw [htop, isNan_withSign h hs le_rfl] at hnan
        exact absurd hnan (by decide)
    · obtain ⟨rfl, hsigned⟩ := Classical.not_imp.1 hs
      have hunsigned := Bool.eq_false_of_not_eq_true hsigned
      by_cases hm : m = 0
      · rw [hm, roundTo_zero, withSign, hunsigned] at hnan
        simp [hzero] at hnan
      · rw [roundTo_of_unsigned hunsigned r sat rho hm] at hnan ⊢
        cases sat with
        | true => simp [hzero] at hnan
        | false => rfl

end

/-- The canonical NaNs of R130, as codes that read as NaNs. -/
theorem nanCode_canonical : ∀ ty ∈ floatTys, ty ∉ [Ty.e3m2, .e2m3, .e2m1] →
    (value ty (floatFormat ty).nanCode).isNan = true ∧ ((ty, (floatFormat ty).nanCode) : Ty × Nat) ∈
      [(Ty.f32, 0x7FC00000), (.f16, 0x7E00), (.bf16, 0x7FC0), (.e5m2, 0x7E), (.e4m3, 0x7F), (.e3m5, 0xFF)] := by
  decide

/-- Settles O16: infinities format by format, negative values by the sign that E3M5 lacks, NaNs by what a rounding
delivers. -/
theorem specialFloatInputs : Obligations.SpecialFloatInputs := by
  intro r rho
  refine ⟨fun ty hty neg => ?_, fun ty hty neg => ?_, fun neg => ?_, fun ty hty sat neg => ?_, rfl, rfl, rfl, rfl,
    fun m e hm => ⟨roundTo_of_unsigned rfl r false rho hm e, roundTo_of_unsigned rfl r true rho hm e⟩,
    fun sat e => roundTo_zero .e3m5 r sat rho true e, fun ty hty sat => ?_, fun ty hty hsmall sat x => ⟨?_, fun hnan => ?_⟩⟩
  · rw [roundTo_inf]
    revert ty neg
    decide
  · rw [roundTo_inf]
    revert ty neg
    decide
  · rw [roundTo_inf]
    revert neg
    decide
  · rw [roundTo_inf]
    revert ty sat neg
    decide
  · show (floatFormat ty).nanCode = 0
    revert ty
    decide
  · rintro rfl
    exact (nanCode_canonical ty hty hsmall).1
  · rw [roundTo_canonical hty r sat rho x hnan]
    exact (nanCode_canonical ty hty hsmall).2

end Sys2Proof.Machine

/-! ### The order of numbers (R133, R212) -/

namespace Sys2Proof.Machine

/-- A comparison gives the sign of the exact difference. -/
theorem Num.cmp_fin (s t : Bool) (m n : Nat) (e f : Int) :
    (Num.fin s m e).cmp (.fin t n f) = SignType.sign ((Num.fin s m e).toRat - (Num.fin t n f).toRat) := by
  have hfin : ∀ x ∈ [Num.fin s m e, (Num.fin t n f).neg], x.Finite :=
    List.forall_mem_cons.2 ⟨Num.finite_fin .., List.forall_mem_singleton.2 (Num.finite_fin ..)⟩
  have hdiff := toRat_sumNum false hfin
  obtain ⟨u, k, g, hsum⟩ := (sumNum_finite false hfin).exists_fin
  have hcmp : (Num.fin s m e).cmp (.fin t n f) = if k = 0 then 0 else if u = true then -1 else 1 := by
    simp only [Num.cmp, hsum]
  have htotal : (Num.fin s m e).toRat - (Num.fin t n f).toRat = (Num.fin u k g).toRat := by
    rw [← hsum, hdiff]
    simp [Num.toRat_neg, sub_eq_add_neg]
  rw [hcmp, htotal]
  by_cases hk : k = 0
  · simp [hk, Num.toRat]
  · have hpos : (0 : ℚ) < k * 2 ^ g := mul_pos (by exact_mod_cast Nat.pos_of_ne_zero hk) (by positivity)
    rw [Num.toRat, mul_assoc]
    cases u
    · simp [hk, sign_pos hpos]
    · simp [hk, sign_pos hpos, Left.sign_neg]

theorem Num.ext_fin (s : Bool) (m : Nat) (e : Int) :
    (Num.fin s m e).ext = (((Num.fin s m e).toRat : WithTop ℚ) : WithBot (WithTop ℚ)) := rfl

/-- A comparison of two numbers agrees with their order as extended rationals. -/
theorem Num.cmp_cases {x y : Num} (hx : x.isNan = false) (hy : y.isNan = false) :
    (x.cmp y < 0 ∧ x.ext < y.ext) ∨ (x.cmp y = 0 ∧ x.ext = y.ext) ∨ (0 < x.cmp y ∧ y.ext < x.ext) := by
  cases x with
  | nan => exact absurd hx (by decide)
  | inf s =>
    cases y with
    | nan => exact absurd hy (by decide)
    | inf t => cases s <;> cases t <;> simp [Num.cmp, Num.ext]
    | fin t n f =>
      cases s with
      | false => exact .inr (.inr ⟨by simp [Num.cmp], WithBot.coe_lt_coe.2 (WithTop.coe_lt_top _)⟩)
      | true => exact .inl ⟨by simp [Num.cmp], WithBot.bot_lt_coe _⟩
  | fin s m e =>
    cases y with
    | nan => exact absurd hy (by decide)
    | inf t =>
      cases t with
      | false => exact .inl ⟨by simp [Num.cmp], WithBot.coe_lt_coe.2 (WithTop.coe_lt_top _)⟩
      | true => exact .inr (.inr ⟨by simp [Num.cmp], WithBot.bot_lt_coe _⟩)
    | fin t n f =>
      rw [Num.cmp_fin]
      simp only [Num.ext_fin, WithBot.coe_lt_coe, WithTop.coe_lt_coe, WithBot.coe_inj, WithTop.coe_inj]
      rcases lt_trichotomy (Num.fin s m e).toRat (Num.fin t n f).toRat with h | h | h
      · exact .inl ⟨by simp [sign_neg (sub_neg.2 h)], h⟩
      · exact .inr (.inl ⟨by simp [h], h⟩)
      · exact .inr (.inr ⟨by simp [sign_pos (sub_pos.2 h)], h⟩)

/-- The order of R133: that of the values, with −0 below +0. -/
def Num.before (x y : Num) : Bool :=
  decide (x.ext < y.ext) || (x.isZero && y.isZero && x.signNeg && !y.signNeg)

theorem Num.ext_of_isZero {x : Num} (h : x.isZero = true) : x.ext = ((0 : ℚ) : WithTop ℚ) := by
  cases x with
  | nan => rfl
  | inf s => exact absurd h (by simp [Num.isZero])
  | fin s m e =>
    have hzero := (Num.isZero_iff (Num.finite_fin s m e)).1 h
    rw [Num.ext_fin, hzero]

theorem Num.below_eq_before {x y : Num} (hx : x.isNan = false) (hy : y.isNan = false) : x.below y = x.before y := by
  have hzeros : x.isZero = true → y.isZero = true → x.ext = y.ext := fun h1 h2 => by
    rw [Num.ext_of_isZero h1, Num.ext_of_isZero h2]
  unfold Num.below Num.before
  rcases Num.cmp_cases hx hy with ⟨hc, hlt⟩ | ⟨hc, heq⟩ | ⟨hc, hgt⟩
  · simp [hc, hlt]
  · simp [hc, heq]
  · have hno : (x.isZero && y.isZero) = false := by
      by_contra h
      obtain ⟨h1, h2⟩ := Bool.and_eq_true_iff.1 (Bool.eq_true_of_not_eq_false h)
      exact absurd hgt (hzeros h1 h2 ▸ lt_irrefl _)
    simp [hc.not_gt, hc.ne', hgt.not_gt, hno]

/-- A relation of R206 on the values of two numbers. -/
def Num.related (q : Rel) (x y : Num) : Bool :=
  match q with
  | .eq => decide (x.ext = y.ext) | .ne => decide (x.ext ≠ y.ext) | .lt => decide (x.ext < y.ext)
  | .le => decide (x.ext ≤ y.ext) | .gt => decide (y.ext < x.ext) | .ge => decide (y.ext ≤ x.ext)

theorem Rel.holds_cmp (q : Rel) {x y : Num} (hx : x.isNan = false) (hy : y.isNan = false) :
    Rel.holds q (x.cmp y) 0 = Num.related q x y := by
  rcases Num.cmp_cases hx hy with ⟨hc, hlt⟩ | ⟨hc, heq⟩ | ⟨hc, hgt⟩
  · cases q <;> simp [Rel.holds, Num.related, hlt, hlt.le, hlt.ne, hlt.not_gt, hlt.not_ge, hc, hc.le, hc.ne, hc.not_gt,
      hc.not_ge]
  · cases q <;> simp [Rel.holds, Num.related, hc, heq]
  · cases q <;> simp [Rel.holds, Num.related, hgt, hgt.le, hgt.ne', hgt.not_gt, hgt.not_ge, hc, hc.le, hc.ne', hc.not_gt,
      hc.not_ge]

/-- A float predicate by its kind and relation (R212). -/
def FRel.holdsFor (rel : FRel) (x y : Num) : Bool :=
  match rel with
  | .num => !x.isNan && !y.isNan
  | .nan => x.isNan || y.isNan
  | .ord q => !x.isNan && !y.isNan && Num.related q x y
  | .unord q => x.isNan || y.isNan || Num.related q x y

theorem FRel.holds_eq (rel : FRel) (x y : Num) : FRel.holds rel x y = FRel.holdsFor rel x y := by
  cases hx : x.isNan with
  | true => cases rel <;> simp [FRel.holds, FRel.holdsFor, hx]
  | false =>
    cases hy : y.isNan with
    | true => cases rel <;> simp [FRel.holds, FRel.holdsFor, hx, hy]
    | false => cases rel <;> simp [FRel.holds, FRel.holdsFor, hx, hy, Rel.holds_cmp _ hx hy]

theorem exec_fcmp (x : Ins) (ty : Ty) (rel : FRel) (s : State) : exec (.fcmp x ty rel) s =
    runLanes x (use2 x 1 1 1) s fun rd => wr1 x.d (flag (FRel.holdsFor rel (fval ty rd x.a) (fsrc ty x rd))) := by
  show execFcmp x ty rel s = _
  simp only [execFcmp, FRel.holds_eq]

/-! ### Codes that are selected (R133) -/

theorem signed_of_signBit {f : FloatFormat} {c : Nat} (h : signBit f c = true) : f.signed = true :=
  (Bool.and_eq_true_iff.1 h).1

/-- A value that a magnitude has is rounded to that magnitude. -/
theorem FloatFormat.Brackets.eq_of_magRat {f : FloatFormat} {j k rem d : Nat} (h : f.Brackets (magRat f j) k rem d) :
    k = j ∧ rem = 0 := by
  have hmono := magRat_strictMono f
  have hle := hmono.le_iff_le.1 h.le
  have hlt := hmono.lt_iff_lt.1 h.lt
  have hkj : k = j := by omega
  exact ⟨hkj, h.eq_iff.1 (by rw [hkj])⟩

section
variable {ty : Ty} (h : ty ∈ floatTys)
include h

/-- A finite code is its own rounding. -/
theorem rne_value_of_finite {c : Nat} (hc : (value ty c).Finite) : rne ty (value ty c) = c % 2 ^ (floatFormat ty).width := by
  have hreg := regular_of_mem h
  have hle := (value_finite_iff h c).1 hc
  have hval := value_of_le h hle
  rw [← hreg.withSign_magBits c, hval]
  obtain ⟨s, m, e, hfin⟩ :=
    (magValue_finite (floatFormat ty) (signBit (floatFormat ty) c) (magBits (floatFormat ty) c)).exists_fin
  have hsign := signNeg_magValue (floatFormat ty) (signBit (floatFormat ty) c) (magBits (floatFormat ty) c)
  rw [hfin] at hsign
  have hs : s = signBit (floatFormat ty) c := hsign
  have habs : |(Num.fin s m e).toRat| = magRat (floatFormat ty) (magBits (floatFormat ty) c) := by
    rw [← hfin, toRat_magValue, abs_signRat_mul, abs_of_nonneg (magRat_nonneg _ _)]
  have hmax : |(Num.fin s m e).toRat| ≤ (maxValue ty).toRat := by
    rw [habs, toRat_maxValue h]
    exact (magRat_strictMono _).monotone hle
  obtain ⟨k, rem, d, hbr, hround⟩ := roundTo_of_le h (fun hneg => signed_of_signBit (hs.symm.trans hneg)) hmax
  rw [habs] at hbr
  obtain ⟨hk, hrem⟩ := hbr.eq_of_magRat
  have hkept : roundedMag .rne s 0 k rem d = magBits (floatFormat ty) c := by
    rw [roundedMag, if_neg fun hup => rem_ne_zero_of_roundsUp (Nat.zero_lt_of_lt hbr.rem_lt) hup hrem, hk]
  rw [hfin, rne, (hround .rne 0 nofun).2 false, hkept, hs]

/-- An infinity has one code of each sign (R116). -/
theorem rne_value_of_inf {c : Nat} {s : Bool} (hc : value ty c = .inf s) :
    rne ty (value ty c) = c % 2 ^ (floatFormat ty).width := by
  have hinf : ∀ ty ∈ floatTys, (floatFormat ty).nanKind = 1 → (floatFormat ty).hasInf = true := by decide
  have hreg := regular_of_mem h
  rw [hc, ← hreg.withSign_magBits c]
  simp only [value] at hc
  split_ifs at hc with hspecial hmant
  · obtain ⟨hkind, hex⟩ := hspecial
    have hs : signBit (floatFormat ty) c = s := Num.inf.inj hc
    have hmag : magBits (floatFormat ty) c = (2 ^ (floatFormat ty).e - 1) * 2 ^ (floatFormat ty).m := by
      rw [← Nat.div_add_mod' (magBits (floatFormat ty) c) (2 ^ (floatFormat ty).m), hex, hmant, Nat.add_zero]
    have hsign : (s && !(floatFormat ty).signed) = false := by
      cases s with
      | false => rfl
      | true => simp [signed_of_signBit hs]
    simp [rne, roundTo, overflowCode, hsign, hkind, hinf ty h hkind, hs, hmag]
  · have hfin := (magValue_finite (floatFormat ty) (signBit (floatFormat ty) c) (magBits (floatFormat ty) c)).2
    rw [hc] at hfin
    exact absurd hfin (by simp [Num.isInf])

/-- A code that is no NaN is its own rounding: a selection returns its operand unchanged (R133). -/
theorem rne_value {c : Nat} (hc : (value ty c).isNan = false) : rne ty (value ty c) = c % 2 ^ (floatFormat ty).width := by
  by_cases hinf : (value ty c).isInf = false
  · exact rne_value_of_finite h ⟨hc, hinf⟩
  · cases hval : value ty c with
    | nan => rw [hval] at hc; exact absurd hc (by decide)
    | inf s => rw [← hval]; exact rne_value_of_inf h hval
    | fin s m e => rw [hval] at hinf; exact absurd rfl hinf

end

/-- The code that a selection gives, from the codes `A` and `B` that its operands have where they are numbers. -/
theorem rne_pickMinMax {ty : Ty} {a b : Num} {A B : Nat} (ha : a.isNan = false → rne ty a = A)
    (hb : b.isNan = false → rne ty b = B) (isMax prefer : Bool) : rne ty (pickMinMax isMax prefer a b) =
      if a.isNan = true then (if (prefer && !b.isNan) = true then B else (floatFormat ty).nanCode)
      else if b.isNan = true then (if prefer = true then A else (floatFormat ty).nanCode)
      else if (if isMax = true then a.before b else b.before a) = true then B else A := by
  have hnan : rne ty .nan = (floatFormat ty).nanCode := rfl
  unfold pickMinMax
  cases hxa : a.isNan with
  | true => cases hxb : b.isNan <;> cases prefer <;> simp [hnan, hb, hxb]
  | false =>
    cases hxb : b.isNan with
    | true => cases prefer <;> simp [hnan, ha hxa]
    | false =>
      rw [Num.below_eq_before hxa hxb, Num.below_eq_before hxb hxa]
      cases isMax <;> simp only [Bool.and_self, Bool.false_eq_true, if_false, if_true, apply_ite (rne ty), ha hxa, hb hxb]

/-- The source after A, where it is a number: the register's code, or the immediate rounded (R201). -/
theorem rne_fsrc {ty : Ty} (h : ty ∈ floatTys) (x : Ins) (rd : Nat → Word) (hb : (fsrc ty x rd).isNan = false) :
    rne ty (fsrc ty x rd) = if x.fmt = .f00 then (rd x.b.toNat).toNat % 2 ^ (floatFormat ty).width
      else rne ty (value .f32 x.imm.toNat) := by
  unfold fsrc at hb ⊢
  split at hb
  · next hreg => rw [if_pos hreg, if_pos hreg]; exact rne_value h hb
  · next himm => rw [if_neg himm, if_neg himm]

/-- Settles O17: what each lane writes is what the statement names. -/
theorem floatSelectionsAndPredicates : Obligations.FloatSelectionsAndPredicates := by
  unfold Obligations.FloatSelectionsAndPredicates
  intro code second less pick
  have hpick : ∀ (x : Ins) (ty : Ty), ty ∈ [Ty.f32, .f16, .bf16] → ∀ isMax number rd,
      rne ty (pickMinMax isMax number (fval ty rd x.a) (fsrc ty x rd)) = pick ty isMax number x rd := by
    intro x ty hty isMax number rd
    have hfloat : ty ∈ floatTys := by revert ty; decide
    exact rne_pickMinMax (fun ha => rne_value hfloat ha) (rne_fsrc hfloat x rd) isMax number
  refine ⟨fun x ty hty => ?_, fun x ty rel => ?_⟩
  · have hexec : ∀ isMax number s, floatPick x ty isMax number s =
        runLanes x (use2 x 1 1 1) s fun rd => wrF x.d (pick ty isMax number x rd) := fun isMax number s => by
      simp only [floatPick, hpick x ty hty]
    exact ⟨laneResults_of_runLanes (hexec false false), laneResults_of_runLanes (hexec true false),
      laneResults_of_runLanes (hexec false true), laneResults_of_runLanes (hexec true true)⟩
  · refine laneResults_of_runLanes fun s => (exec_fcmp x ty rel s).trans ?_
    cases rel with
    | num => rfl
    | nan => rfl
    | ord q => cases q <;> rfl
    | unord q => cases q <;> rfl

end Sys2Proof.Machine

/-! ### The word of some parts, and the parts of a word (R146, R147) -/

namespace Sys2Proof

/-- The parts that a word holds, its format given (R146). -/
def Parts.ofSlot (w : Slot) (fmt : Fmt) : Parts :=
  { x := Ins.ofSlot w fmt, maj := w.extractLsb' 0 8, fn := w.extractLsb' 8 8, ty := w.extractLsb' 16 4,
    mod := w.extractLsb' 20 6 }

/-- The fields that the immediate takes hold no operand, and format 00 has no immediate (R147). -/
def Ins.Stands (x : Ins) : Prop := if x.fmt = .f00 then x.imm = 0 else x.b = 0 ∧ x.c = 0 ∧ x.e = 0

theorem Fmt.ofCode_eq_some_iff (c : BitVec 2) (f : Fmt) : Fmt.ofCode c = some f ↔ c = f.code := by
  cases f <;> revert c <;> decide

@[simp] theorem GuardCombine.ofCode_code (g : GuardCombine) : GuardCombine.ofCode g.code = g := by cases g <;> rfl

@[simp] theorem GuardCombine.code_ofCode (c : BitVec 2) : (GuardCombine.ofCode c).code = c := by revert c; decide

theorem ofBool_getLsbD {n : Nat} (w : BitVec n) (i : Nat) : BitVec.ofBool (w.getLsbD i) = w.extractLsb' i 1 := by
  ext j hj
  obtain rfl : j = 0 := by omega
  simp

theorem getLsbD_of_extractLsb' {n : Nat} {w : BitVec n} {i : Nat} {b : Bool} (h : w.extractLsb' i 1 = BitVec.ofBool b) :
    w.getLsbD i = b := BitVec.ofBool_eq_iff_eq.1 ((ofBool_getLsbD w i).trans h)

/-- The fields of the word of some parts (R146): the operation, and the common fields. -/
theorem Parts.slot_operation (p : Parts) : p.slot.extractLsb' 0 8 = p.maj ∧ p.slot.extractLsb' 8 8 = p.fn ∧
    p.slot.extractLsb' 16 4 = p.ty ∧ p.slot.extractLsb' 20 6 = p.mod ∧ p.slot.extractLsb' 26 2 = p.x.fmt.code ∧
    p.slot.extractLsb' 112 16 = 0 := by
  simp (disch := decide) only [Parts.slot, BitVec.extractLsb'_append_eq_of_add_le, BitVec.extractLsb'_append_eq_of_le]
  simp only [Nat.reduceSub, BitVec.extractLsb'_eq_self, and_self]

theorem Parts.slot_common (p : Parts) : p.slot.extractLsb' 28 9 = p.x.d ∧ p.slot.extractLsb' 37 9 = p.x.a ∧
    p.slot.extractLsb' 73 9 = p.x.g0 ∧ p.slot.getLsbD 82 = p.x.s0 ∧ p.slot.extractLsb' 83 9 = p.x.g1 ∧
    p.slot.getLsbD 92 = p.x.s1 ∧ p.slot.extractLsb' 93 2 = p.x.gc.code ∧ p.slot.getLsbD 95 = p.x.yld ∧
    p.slot.extractLsb' 96 4 = p.x.ch ∧ p.slot.extractLsb' 100 4 = p.x.stl ∧ p.slot.extractLsb' 104 3 = p.x.ru := by
  simp (disch := decide) only [← BitVec.ofBool_eq_iff_eq, ofBool_getLsbD, Parts.slot,
    BitVec.extractLsb'_append_eq_of_add_le, BitVec.extractLsb'_append_eq_of_le]
  simp only [Nat.reduceSub, BitVec.extractLsb'_eq_self, and_self]

theorem Parts.slot_operands (p : Parts) (h : p.x.fmt = .f00) : p.slot.extractLsb' 46 9 = p.x.b ∧
    p.slot.extractLsb' 55 9 = p.x.c ∧ p.slot.extractLsb' 64 9 = p.x.e ∧ p.slot.extractLsb' 107 5 = 0 := by
  simp (disch := decide) only [Parts.slot, h, beq_self_eq_true, if_true, BitVec.extractLsb'_append_eq_of_add_le,
    BitVec.extractLsb'_append_eq_of_le]
  simp only [Nat.reduceSub, BitVec.extractLsb'_eq_self, and_self]

theorem Parts.slot_immediate (p : Parts) (h : p.x.fmt ≠ .f00) : p.slot.extractLsb' 46 9 = p.x.imm.extractLsb' 0 9 ∧
    p.slot.extractLsb' 55 9 = p.x.imm.extractLsb' 9 9 ∧ p.slot.extractLsb' 64 9 = p.x.imm.extractLsb' 18 9 ∧
    p.slot.extractLsb' 107 5 = p.x.imm.extractLsb' 27 5 := by
  simp (disch := decide) only [Parts.slot, beq_eq_false_iff_ne.2 h, Bool.false_eq_true, if_false,
    BitVec.extractLsb'_append_eq_of_add_le, BitVec.extractLsb'_append_eq_of_le]
  simp only [Nat.reduceSub, BitVec.extractLsb'_eq_self, and_self]

/-- The low part of an immediate stands in the fields B, C and E (R147). -/
theorem extractLsb'_operands (w : Slot) : w.extractLsb' 46 27 =
    w.extractLsb' 64 9 ++ w.extractLsb' 55 9 ++ w.extractLsb' 46 9 := by
  simp (disch := decide) only [BitVec.extractLsb'_append_extractLsb'_eq_extractLsb']

theorem append_extractLsb'_imm (v : Word) :
    v.extractLsb' 27 5 ++ (v.extractLsb' 18 9 ++ v.extractLsb' 9 9 ++ v.extractLsb' 0 9) = v := by
  simp (disch := decide) only [BitVec.extractLsb'_append_extractLsb'_eq_extractLsb']
  exact BitVec.extractLsb'_eq_self

/-- The word of some parts holds them. -/
theorem Parts.ofSlot_slot {p : Parts} (hx : p.x.Stands) : Parts.ofSlot p.slot p.x.fmt = p := by
  obtain ⟨hmaj, hfn, hty, hmod, -, -⟩ := p.slot_operation
  obtain ⟨hd, ha, hg0, hs0, hg1, hs1, hgc, hyld, hch, hstl, hru⟩ := p.slot_common
  simp only [Parts.ofSlot, Ins.ofSlot, hmaj, hfn, hty, hmod, hd, ha, hg0, hs0, hg1, hs1, hgc, hyld, hch, hstl, hru,
    GuardCombine.ofCode_code]
  by_cases hf : p.x.fmt = .f00
  · obtain ⟨hb, hc, he, -⟩ := p.slot_operands hf
    rw [Ins.Stands, if_pos hf] at hx
    rw [beq_iff_eq.2 hf, if_pos rfl, if_pos rfl, if_pos rfl, if_pos rfl, hb, hc, he, ← hx]
  · obtain ⟨h46, h55, h64, h107⟩ := p.slot_immediate hf
    rw [Ins.Stands, if_neg hf] at hx
    obtain ⟨hb, hc, he⟩ := hx
    have hnot : ¬ (p.x.fmt == Fmt.f00) = true := by simpa using hf
    rw [if_neg hnot, if_neg hnot, if_neg hnot, if_neg hnot, extractLsb'_operands, h46, h55, h64, h107,
      append_extractLsb'_imm]
    obtain ⟨⟨⟩⟩ := p
    cases hb; cases hc; cases he
    rfl

/-- A word is that of the parts that it holds. -/
theorem Parts.slot_ofSlot {w : Slot} {fmt : Fmt} (hres : w.extractLsb' 112 16 = 0)
    (hfmt : w.extractLsb' 26 2 = fmt.code) (himh : fmt = .f00 → w.extractLsb' 107 5 = 0) :
    (Parts.ofSlot w fmt).slot = w := by
  have hfull : (Parts.ofSlot w fmt).slot = w.extractLsb' 112 16 ++ w.extractLsb' 107 5 ++ w.extractLsb' 104 3 ++
      w.extractLsb' 100 4 ++ w.extractLsb' 96 4 ++ w.extractLsb' 95 1 ++ w.extractLsb' 93 2 ++ w.extractLsb' 92 1 ++
      w.extractLsb' 83 9 ++ w.extractLsb' 82 1 ++ w.extractLsb' 73 9 ++ w.extractLsb' 64 9 ++ w.extractLsb' 55 9 ++
      w.extractLsb' 46 9 ++ w.extractLsb' 37 9 ++ w.extractLsb' 28 9 ++ w.extractLsb' 26 2 ++ w.extractLsb' 20 6 ++
      w.extractLsb' 16 4 ++ w.extractLsb' 8 8 ++ w.extractLsb' 0 8 := by
    have himm : ∀ (a : BitVec 5) (v : BitVec 27), (a ++ v).extractLsb' 27 5 = a :=
      fun _ _ => BitVec.extractLsb'_append_eq_left
    by_cases hf : fmt = .f00
    · simp only [Parts.slot, Parts.ofSlot, Ins.ofSlot, ofBool_getLsbD, GuardCombine.code_ofCode, ← hfmt, hres, himh hf,
        beq_iff_eq.2 hf, if_true]
    · simp (disch := decide) only [Parts.slot, Parts.ofSlot, Ins.ofSlot, ofBool_getLsbD, GuardCombine.code_ofCode,
        ← hfmt, hres, beq_eq_false_iff_ne.2 hf, Bool.false_eq_true, if_false, extractLsb'_operands, himm,
        BitVec.extractLsb'_append_eq_of_add_le, BitVec.extractLsb'_append_eq_of_le]
      simp only [Nat.reduceSub, BitVec.extractLsb'_eq_self]
  rw [hfull]
  simp (disch := decide) only [BitVec.extractLsb'_append_extractLsb'_eq_extractLsb']
  exact BitVec.extractLsb'_eq_self

/-! ### A word that decodes (R146, R147, R158) -/

theorem Ins.wf_iff (x : Ins) (maj : Nat) : x.wf maj = true ↔ (∃ fs, formats maj = some fs ∧ x.fmt ∈ fs) ∧ x.Stands := by
  rw [Ins.wf, Bool.and_eq_true]
  refine and_congr ?_ ?_
  · cases formats maj <;> simp
  · rw [Ins.Stands]
    split <;> simp [and_assoc]

theorem Ins.stands_ofSlot (w : Slot) (fmt : Fmt) : (Ins.ofSlot w fmt).Stands := by
  cases fmt <;> simp [Ins.Stands, Ins.ofSlot]

/-- An assigned major is neither 0 nor reserved (R151). -/
theorem formats_eq_none {n : Nat} (h : n = 0 ∨ 0xE8 ≤ n ∧ n ≤ 0xFE) : formats n = none := by
  obtain rfl | ⟨hl, hu⟩ := h
  · rfl
  · interval_cases n <;> rfl

/-- A word decodes where it is the word of parts whose format their major takes, by what that major gives. -/
theorem decode_eq_ok_iff (w : Slot) (i : Instr) : decode w = .ok i ↔ ∃ p : Parts, w = p.slot ∧
    p.x.wf p.maj.toNat = true ∧ decodeMajor p.maj.toNat p.x p.fn p.ty p.mod = .ok i := by
  constructor
  · intro h
    simp only [decode] at h
    split at h
    · cases h
    split at h
    · cases h
    split at h
    · cases h
    rename_i fs hfs
    split at h
    · cases h
    rename_i hres
    split at h
    · cases h
    rename_i fmt hfmt
    split at h
    · cases h
    rename_i hmem
    split at h
    · cases h
    rename_i himh
    have himh' : fmt = .f00 → w.extractLsb' 107 5 = 0 := by
      intro hf
      by_contra h0
      exact himh ⟨hf, h0⟩
    exact ⟨Parts.ofSlot w fmt, (Parts.slot_ofSlot (not_not.1 hres) ((Fmt.ofCode_eq_some_iff _ _).1 hfmt) himh').symm,
      (Ins.wf_iff _ _).2 ⟨⟨fs, hfs, not_not.1 hmem⟩, Ins.stands_ofSlot w fmt⟩, h⟩
  · rintro ⟨p, rfl, hwf, hmaj⟩
    obtain ⟨⟨fs, hfs, hmem⟩, hstands⟩ := (Ins.wf_iff _ _).1 hwf
    obtain ⟨hp, hfn, hty, hmod, hfmt, hres⟩ := p.slot_operation
    have hnot : ¬ (p.maj.toNat = 0 ∨ 0xE8 ≤ p.maj.toNat ∧ p.maj.toNat ≤ 0xFE) := fun h => by
      rw [formats_eq_none h] at hfs
      cases hfs
    have himh : ¬ (p.x.fmt = .f00 ∧ p.slot.extractLsb' 107 5 ≠ 0) := fun h => h.2 (p.slot_operands h.1).2.2.2
    have hx : Ins.ofSlot p.slot p.x.fmt = p.x := congrArg Parts.x (Parts.ofSlot_slot hstands)
    simp only [decode, hp, hfn, hty, hmod, hfmt, hres, (Fmt.ofCode_eq_some_iff _ _).2 rfl, hfs, hx, if_neg himh,
      if_neg (fun h => hnot (.inl h)), if_neg (fun h => hnot (.inr h)), if_neg (not_not.2 hmem),
      ne_eq, not_true_eq_false, if_false]
    exact hmaj

/-! ### One check of a decoder -/

theorem bind_eq_ok_iff {α β : Type} {a : Except Reject α} {g : α → Except Reject β} {b : β} :
    (a >>= g) = .ok b ↔ ∃ v, a = .ok v ∧ g v = .ok b := by
  cases a <;> simp [bind, Except.bind]

theorem pure_eq_ok_iff {α : Type} {a b : α} : (pure a : Except Reject α) = .ok b ↔ a = b := by
  simp [pure, Except.pure]

theorem need_eq_ok_iff {c : Bool} {r : Reject} {u : Unit} : need c r = .ok u ↔ c = true := by
  cases c <;> simp [need]

theorem Ty.ofCode_eq_some_iff {cls : Bool} {c : BitVec 4} {ty : Ty} :
    Ty.ofCode cls c = some ty ↔ cls = ty.cls ∧ c = ty.code := by
  cases ty <;> revert cls c <;> decide

theorem tyIn_eq_ok_iff {cls : Bool} {t : BitVec 4} {tys : List Ty} {ty : Ty} :
    tyIn cls t tys = .ok ty ↔ cls = ty.cls ∧ t = ty.code ∧ ty ∈ tys := by
  rw [← and_assoc, ← Ty.ofCode_eq_some_iff, tyIn]
  cases Ty.ofCode cls t with
  | none => simp
  | some v => by_cases hv : v ∈ tys <;> grind

theorem modArith_eq_ok_iff {m : BitVec 6} {r : Rnd} {s fi : Bool} : modArith m = .ok (r, s, fi) ↔ m = modOf r s fi := by
  cases r <;> cases s <;> cases fi <;> revert m <;> decide

theorem eq_modOf_first_iff (m : BitVec 6) (fi : Bool) : m = modOf .rne false fi ↔
    m.extractLsb' 0 5 = 0 ∧ m.getLsbD 5 = fi := by
  cases fi <;> revert m <;> decide

/-- A field that names an operation and a class of types (R151). -/
theorem eq_opFn_iff (f : BitVec 8) (op : BitVec 3) (ty : Ty) : f = opFn op ty ↔
    f.extractLsb' 0 3 = op ∧ f.extractLsb' 3 4 = 0 ∧ f.getLsbD 7 = ty.cls := by
  constructor
  · rintro rfl
    rw [opFn]
    cases ty.cls <;> revert op <;> decide
  · rintro ⟨rfl, hz, hc⟩
    rw [opFn, ← hc, ← hz, ofBool_getLsbD]
    simp (disch := decide) only [BitVec.extractLsb'_append_extractLsb'_eq_extractLsb']
    exact BitVec.extractLsb'_eq_self.symm

theorem eq_opFn_zero_iff (f : BitVec 8) (ty : Ty) : f = opFn 0 ty ↔ (f = 0 ∨ f = 0x80) ∧ (f == 0x80) = ty.cls := by
  rw [opFn]
  cases ty.cls <;> simp +contextual [iff_def, or_imp]

/-- The same where bit 3 says whether a SCAN is exclusive (R151). -/
theorem eq_scanFn_iff (f : BitVec 8) (op : BitVec 3) (ty : Ty) (ex : Bool) :
    f = (opFn op ty ||| if ex = true then 8 else 0) ↔ f.extractLsb' 0 3 = op ∧
      f.extractLsb' 4 3 = 0 ∧ f.getLsbD 3 = ex ∧ f.getLsbD 7 = ty.cls := by
  have hform : (opFn op ty ||| if ex = true then 8 else 0) =
      BitVec.ofBool ty.cls ++ (0 : BitVec 3) ++ BitVec.ofBool ex ++ op := by
    rw [opFn]
    cases ty.cls <;> cases ex <;> revert op <;> decide
  rw [hform]
  clear hform
  constructor
  · rintro rfl
    cases ty.cls <;> cases ex <;> revert op <;> decide
  · rintro ⟨rfl, hz, rfl, hc⟩
    rw [← hc, ← hz, ofBool_getLsbD, ofBool_getLsbD]
    simp (disch := decide) only [BitVec.extractLsb'_append_extractLsb'_eq_extractLsb']
    exact BitVec.extractLsb'_eq_self.symm

/-- A field that names a conversion's source and the class of its destination (R151). -/
theorem eq_cvtFn_iff (f : BitVec 8) (d s : Ty) : f = cvtFn d s ↔
    f.extractLsb' 6 2 = 0 ∧ f.getLsbD 5 = d.cls ∧ f.getLsbD 4 = s.cls ∧ f.extractLsb' 0 4 = s.code := by
  rw [cvtFn]
  constructor
  · rintro rfl
    generalize s.code = c
    cases d.cls <;> cases s.cls <;> revert c <;> decide
  · rintro ⟨hz, hd, hs, hc⟩
    rw [← hz, ← hd, ← hs, ← hc, ofBool_getLsbD, ofBool_getLsbD]
    simp (disch := decide) only [BitVec.extractLsb'_append_extractLsb'_eq_extractLsb']
    exact BitVec.extractLsb'_eq_self.symm

theorem eq_deqFn_iff (f : BitVec 8) (s : Ty) : f = 0x30 ||| s.code.setWidth 8 ↔
    f.extractLsb' 4 4 = 3 ∧ f.extractLsb' 0 4 = s.code := by
  have hform : 0x30 ||| s.code.setWidth 8 = (3 : BitVec 4) ++ s.code := by
    generalize s.code = c
    revert c; decide
  rw [hform]
  constructor
  · rintro rfl
    generalize s.code = c
    revert c; decide
  · rintro ⟨hz, hs⟩
    rw [← hz, ← hs]
    exact (BitVec.extractLsb'_append_extractLsb' (w := 4) (len := 4) (x := f)).symm

theorem eq_fenceFn_iff (f : BitVec 8) (p q : BitVec 4) : f = q ++ p ↔
    f.extractLsb' 0 4 = p ∧ f.extractLsb' 4 4 = q := by
  constructor
  · rintro rfl
    exact ⟨BitVec.extractLsb'_append_eq_right, BitVec.extractLsb'_append_eq_left⟩
  · rintro ⟨rfl, rfl⟩
    exact (BitVec.extractLsb'_append_extractLsb' (w := 4) (len := 4) (x := f)).symm

theorem eq_semiMod_iff (m : BitVec 6) (sr : Semiring) (fi : Bool) : m = semiMod sr fi ↔
    m.extractLsb' 0 3 = semiCode sr ∧ m.extractLsb' 3 2 = 0 ∧ m.getLsbD 5 = fi := by
  cases sr <;> cases fi <;> revert m <;> decide

theorem relOf_eq_some_iff (f : BitVec 8) (r : Rel) : relOf f.toNat = some r ↔ f = relCode r := by
  cases r <;> revert f <;> decide +kernel

theorem frelOf_eq_some_iff (f : BitVec 8) (r : FRel) : frelOf f.toNat = some r ↔ f = frelCode r := by
  rcases r with r | _ | _ | r
  case num => revert f; decide +kernel
  case nan => revert f; decide +kernel
  all_goals cases r <;> revert f <;> decide +kernel

theorem atomOf_eq_some_iff (c : BitVec 3) (op : AtomOp) : atomOf c.toNat = some op ↔ c = atomCode op := by
  cases op <;> revert c <;> decide

theorem redOf_eq_some_iff (c : BitVec 3) (op : RedOp) : redOf c.toNat = some op ↔ c = redCode op := by
  cases op <;> revert c <;> decide

theorem collOf_eq_some_iff (c : BitVec 3) (op : CollOp) : collOf c.toNat = some op ↔ c = collCode op := by
  cases op <;> revert c <;> decide

theorem semiOf_eq_some_iff (c : BitVec 3) (sr : Semiring) : semiOf c.toNat = some sr ↔ c = semiCode sr := by
  cases sr <;> revert c <;> decide

theorem lineOf_eq_some_iff (f : BitVec 8) (op : LineOp) : lineOf f.toNat = some op ↔ f = lineCode op := by
  cases op <;> revert f <;> decide +kernel

theorem shflOf_eq_some_iff (f : BitVec 8) (k : ShflKind) : shflOf f.toNat = some k ↔ f = shflCode k := by
  cases k <;> revert f <;> decide +kernel

theorem scopeOf_eq_some_iff (m : BitVec 6) (σ : Scope) : scopeOf m.toNat = some σ ↔
    m = (0 : BitVec 3) ++ scopeCode σ := by
  cases σ <;> revert m <;> decide

theorem memModOf_eq_ok_iff (m : BitVec 6) (o : Order) (sp : Space) : memModOf m = .ok (o, sp) ↔ m = memMod o sp := by
  cases sp <;> rcases o with _ | (_ | _ | _ | _ | _ | _) <;> revert m <;> decide

theorem cvtPair_eq_ok_iff (f : BitVec 8) (t : BitVec 4) (d s : Ty) : cvtPair f t = .ok (d, s) ↔
    f = cvtFn d s ∧ t = d.code := by
  simp only [cvtPair, bind_eq_ok_iff, need_eq_ok_iff, exists_const, eq_cvtFn_iff, beq_iff_eq]
  have hd := Ty.ofCode_eq_some_iff (cls := f.getLsbD 5) (c := t) (ty := d)
  have hs := Ty.ofCode_eq_some_iff (cls := f.getLsbD 4) (c := f.extractLsb' 0 4) (ty := s)
  cases h1 : Ty.ofCode (f.getLsbD 4) (f.extractLsb' 0 4) <;> cases h2 : Ty.ofCode (f.getLsbD 5) t <;> grind

/-! ### The shapes of decoders

One decoder serves the instructions of one shape. For each: which fields it takes, and the instruction it answers. The
variables of an instruction come in the order of its fields, with the conditions that its well-formedness states. -/

section Shapes
variable (x : Ins) (f : BitVec 8) (t : BitVec 4) (m : BitVec 6) (i : Instr)

theorem ctlPlain_eq_ok_iff (k : Ins → Instr) : ctlPlain x f t m k = .ok i ↔ f = 0 ∧ t = 0 ∧ m = 0 ∧ k x = i := by
  simp only [ctlPlain, bind_eq_ok_iff, need_eq_ok_iff, pure_eq_ok_iff, exists_const, beq_iff_eq]

theorem ctlFirst_eq_ok_iff (k : Ins → Bool → Instr) : ctlFirst x f t m k = .ok i ↔
    ∃ fi, f = 0 ∧ t = 0 ∧ m = modOf .rne false fi ∧ k x fi = i := by
  simp only [ctlFirst, bind_eq_ok_iff, need_eq_ok_iff, pure_eq_ok_iff, exists_const, beq_iff_eq, eq_modOf_first_iff]
  grind

theorem arithTy_eq_ok_iff (cls : Bool) (tys : List Ty) (k : Ins → Ty → Instr) : arithTy x f t m cls tys k = .ok i ↔
    ∃ ty, (ty ∈ tys ∧ ty.cls = cls) ∧ f = 0 ∧ t = ty.code ∧ m = 0 ∧ k x ty = i := by
  simp only [arithTy, bind_eq_ok_iff, need_eq_ok_iff, pure_eq_ok_iff, exists_const, beq_iff_eq, tyIn_eq_ok_iff]
  grind

theorem arithSat_eq_ok_iff (cls : Bool) (tys : List Ty) (k : Ins → Ty → Bool → Instr) :
    arithSat x f t m cls tys k = .ok i ↔ ∃ ty sa, (ty ∈ tys ∧ ty.cls = cls) ∧ f = 0 ∧ t = ty.code ∧
      m = modOf .rne sa false ∧ k x ty sa = i := by
  simp only [arithSat, bind_eq_ok_iff, need_eq_ok_iff, pure_eq_ok_iff, exists_const, beq_iff_eq, tyIn_eq_ok_iff,
    modArith_eq_ok_iff, Prod.exists, Bool.and_eq_true, Bool.not_eq_true']
  grind

theorem arithFirst_eq_ok_iff (tys : List Ty) (k : Ins → Ty → Bool → Instr) : arithFirst x f t m tys k = .ok i ↔
    ∃ ty fi, (ty ∈ tys ∧ ty.cls = true) ∧ f = 0 ∧ t = ty.code ∧ m = modOf .rne false fi ∧ k x ty fi = i := by
  simp only [arithFirst, bind_eq_ok_iff, need_eq_ok_iff, pure_eq_ok_iff, exists_const, beq_iff_eq, tyIn_eq_ok_iff,
    modArith_eq_ok_iff, Prod.exists, Bool.and_eq_true, Bool.not_eq_true']
  grind

theorem arithRndSat_eq_ok_iff (tys : List Ty) (k : Ins → Ty → Rnd → Bool → Instr) : arithRndSat x f t m tys k = .ok i ↔
    ∃ ty r sa, (ty ∈ tys ∧ ty.cls = true ∧ r ≠ .rs) ∧ f = 0 ∧ t = ty.code ∧ m = modOf r sa false ∧ k x ty r sa = i := by
  simp only [arithRndSat, bind_eq_ok_iff, need_eq_ok_iff, pure_eq_ok_iff, exists_const, beq_iff_eq, tyIn_eq_ok_iff,
    modArith_eq_ok_iff, Prod.exists, Bool.and_eq_true, Bool.not_eq_true', bne_iff_ne]
  grind

theorem arithRnd_eq_ok_iff (tys : List Ty) (k : Ins → Ty → Rnd → Instr) : arithRnd x f t m tys k = .ok i ↔
    ∃ ty r, (ty ∈ tys ∧ ty.cls = true ∧ r ≠ .rs) ∧ f = 0 ∧ t = ty.code ∧ m = modOf r false false ∧ k x ty r = i := by
  simp only [arithRnd, bind_eq_ok_iff, need_eq_ok_iff, pure_eq_ok_iff, exists_const, beq_iff_eq, tyIn_eq_ok_iff,
    modArith_eq_ok_iff, Prod.exists, Bool.and_eq_true, Bool.not_eq_true', bne_iff_ne]
  grind

theorem arithF32_eq_ok_iff (k : Ins → Instr) : arithF32 x f t m k = .ok i ↔ f = 0 ∧ t = 0 ∧ m = 0 ∧ k x = i := by
  simp only [arithF32, bind_eq_ok_iff, need_eq_ok_iff, pure_eq_ok_iff, exists_const, beq_iff_eq, tyIn_eq_ok_iff,
    List.mem_singleton]
  grind [Ty.cls, Ty.code]

theorem relOp_eq_ok_iff (tys : List Ty) (k : Ins → Ty → Rel → Instr) : relOp x f t m tys k = .ok i ↔
    ∃ ty r, (ty ∈ tys ∧ ty.cls = false) ∧ f = relCode r ∧ t = ty.code ∧ m = 0 ∧ k x ty r = i := by
  simp only [relOp, ← relOf_eq_some_iff]
  cases relOf f.toNat with
  | none => simp
  | some r =>
    simp only [bind_eq_ok_iff, need_eq_ok_iff, pure_eq_ok_iff, exists_const, beq_iff_eq, tyIn_eq_ok_iff]
    grind

theorem frelOp_eq_ok_iff (k : Ins → Ty → FRel → Instr) : frelOp x f t m k = .ok i ↔
    ∃ ty r, (ty ∈ fpTys ∧ ty.cls = true) ∧ f = frelCode r ∧ t = ty.code ∧ m = 0 ∧ k x ty r = i := by
  simp only [frelOp, ← frelOf_eq_some_iff]
  cases frelOf f.toNat with
  | none => simp
  | some r =>
    simp only [bind_eq_ok_iff, need_eq_ok_iff, pure_eq_ok_iff, exists_const, beq_iff_eq, tyIn_eq_ok_iff]
    grind

theorem cvtOp_eq_ok_iff : cvtOp x f t m = .ok i ↔
    ∃ d s r sa, cvtTaken d s = true ∧ (r ≠ .rs ∨ d.cls = true) ∧ f = cvtFn d s ∧ t = d.code ∧
      m = modOf r sa false ∧ Instr.cvt x d s r sa = i := by
  simp only [cvtOp, bind_eq_ok_iff, need_eq_ok_iff, pure_eq_ok_iff, exists_const, modArith_eq_ok_iff, Prod.exists,
    Bool.and_eq_true, Bool.not_eq_true', bne_iff_ne, cvtPair_eq_ok_iff, Bool.or_eq_true]
  grind

theorem cvtsOp_eq_ok_iff : cvtsOp x f t m = .ok i ↔
    ∃ d s r sa, (d ∈ cvtTys ∧ s ∈ cvtTys ∧ (d.cls = true ∨ s.cls = true)) ∧
      (r ≠ .rs ∨ d.cls = true ∧ x.fmt = .f00) ∧ f = cvtFn d s ∧ t = d.code ∧
      m = modOf r sa false ∧ Instr.cvts x d s r sa = i := by
  simp only [cvtsOp, bind_eq_ok_iff, need_eq_ok_iff, pure_eq_ok_iff, exists_const, beq_iff_eq,
    modArith_eq_ok_iff, Prod.exists, Bool.and_eq_true, Bool.not_eq_true', bne_iff_ne, cvtPair_eq_ok_iff,
    Bool.or_eq_true, decide_eq_true_eq]
  grind

theorem quantOp_eq_ok_iff : quantOp x f t m = .ok i ↔ ∃ ty r, (ty ∈ quantTys ∧ ty.cls = true) ∧ f = 0x30 ∧ t = ty.code ∧
    m = modOf r false false ∧ Instr.quant x ty r = i := by
  simp only [quantOp, bind_eq_ok_iff, need_eq_ok_iff, pure_eq_ok_iff, exists_const, beq_iff_eq, tyIn_eq_ok_iff,
    modArith_eq_ok_iff, Prod.exists, Bool.and_eq_true, Bool.not_eq_true']
  grind

theorem deqOp_eq_ok_iff : deqOp x f t m = .ok i ↔
    ∃ d s r sa, (d ∈ fpTys ∧ d.cls = true) ∧ (s ∈ quantTys ∧ s.cls = true) ∧ r ≠ .rs ∧ f = 0x30 ||| s.code.setWidth 8 ∧
      t = d.code ∧ m = modOf r sa false ∧ Instr.deq x d s r sa = i := by
  have hs := fun s => Ty.ofCode_eq_some_iff (cls := true) (c := f.extractLsb' 0 4) (ty := s)
  simp only [deqOp, eq_deqFn_iff]
  cases h : Ty.ofCode true (f.extractLsb' 0 4) with
  | none => grind
  | some v =>
    simp only [bind_eq_ok_iff, need_eq_ok_iff, pure_eq_ok_iff, exists_const, beq_iff_eq, tyIn_eq_ok_iff,
      modArith_eq_ok_iff, Prod.exists, Bool.and_eq_true, Bool.not_eq_true', bne_iff_ne, decide_eq_true_eq]
    grind

theorem eq_false_of_redModOk {op : RedOp} {ty : Ty} {r : Rnd} {sa fi : Bool} (h : redModOk op ty r sa fi = true) :
    fi = false := by
  cases fi
  · rfl
  · simp [redModOk] at h

/-- The instructions of the mem layout that take no order but weak (R150). -/
def Instr.isVolatile : Instr → Bool
  | .ldv .. | .stv .. => true
  | _ => false

theorem Order.exists {P : Order → Prop} : (∃ o, P o) ↔ P .weak ∨ ∃ σ, P (.strong σ) :=
  ⟨fun ⟨o, h⟩ => match o, h with | .weak, h => .inl h | .strong σ, h => .inr ⟨σ, h⟩,
    fun h => h.elim (fun h => ⟨_, h⟩) fun ⟨_, h⟩ => ⟨_, h⟩⟩

theorem memOp_eq_ok_iff (tys : List Ty) (k : Ins → Ty → Order → Space → Instr) : memOp x f t m tys k = .ok i ↔
    ∃ ty o sp, (ty ∈ tys ∧ ty.cls = false) ∧ ((k x ty o sp).isVolatile = true → o = .weak) ∧ f = 0 ∧ t = ty.code ∧
      m = memMod o sp ∧ k x ty o sp = i := by
  simp only [memOp, bind_eq_ok_iff, need_eq_ok_iff, exists_const, beq_iff_eq, tyIn_eq_ok_iff, memModOf_eq_ok_iff,
    Prod.exists]
  constructor
  · rintro ⟨hf, ty, ⟨hc, ht, hty⟩, o, sp, hm, h⟩
    refine ⟨ty, o, sp, ⟨hty, hc.symm⟩, ?_⟩
    split at h <;> simp only [bind_eq_ok_iff, need_eq_ok_iff, pure_eq_ok_iff, exists_const, beq_iff_eq] at h <;>
      grind [Instr.isVolatile]
  · rintro ⟨ty, o, sp, ⟨hty, hc⟩, hvol, hf, ht, hm, hk⟩
    refine ⟨hf, ty, ⟨hc.symm, ht, hty⟩, o, sp, hm, ?_⟩
    split <;> simp only [bind_eq_ok_iff, need_eq_ok_iff, pure_eq_ok_iff, exists_const, beq_iff_eq] <;>
      grind [Instr.isVolatile]

theorem atomOpD_eq_ok_iff (exch : Bool) (k : Ins → AtomOp → Ty → Scope → Space → Instr) :
    atomOpD x f t m exch k = .ok i ↔ ∃ op ty σ sp, (exch = true ∨ op ≠ .exch) ∧ ty ∈ atomTys op ∧
      f = opFn (atomCode op) ty ∧ t = ty.code ∧ m = memMod (.strong σ) sp ∧ k x op ty σ sp = i := by
  simp only [atomOpD, eq_opFn_iff, ← atomOf_eq_some_iff]
  cases atomOf (f.extractLsb' 0 3).toNat with
  | none => simp
  | some r =>
    simp only [bind_eq_ok_iff, need_eq_ok_iff, pure_eq_ok_iff, exists_const, beq_iff_eq, tyIn_eq_ok_iff,
      memModOf_eq_ok_iff, Prod.exists, Order.exists, reduceCtorEq, Bool.and_eq_true, Bool.or_eq_true, bne_iff_ne]
    grind

theorem atomcOp_eq_ok_iff : atomcOp x f t m = .ok i ↔ ∃ ty σ sp, (ty ∈ bitTys ∧ ty.cls = false) ∧ f = 0 ∧ t = ty.code ∧
    m = memMod (.strong σ) sp ∧ Instr.atomc x ty σ sp = i := by
  simp only [atomcOp, bind_eq_ok_iff, need_eq_ok_iff, pure_eq_ok_iff, exists_const, beq_iff_eq, tyIn_eq_ok_iff,
    memModOf_eq_ok_iff, Prod.exists, Order.exists, reduceCtorEq]
  grind

theorem fenceOp_eq_ok_iff : fenceOp x f t m = .ok i ↔
    ∃ p q σ, (p ≠ 0 ∧ q ≠ 0) ∧ f = q ++ p ∧ t = 0 ∧ m = (0 : BitVec 3) ++ scopeCode σ ∧ Instr.fence x p q σ = i := by
  simp only [fenceOp, eq_fenceFn_iff, ← scopeOf_eq_some_iff]
  cases scopeOf m.toNat with
  | none => simp [bind_eq_ok_iff]
  | some r =>
    simp only [bind_eq_ok_iff, need_eq_ok_iff, pure_eq_ok_iff, exists_const, beq_iff_eq, bne_iff_ne, Bool.and_eq_true]
    grind

theorem clineOp_eq_ok_iff : clineOp x f t m = .ok i ↔
    ∃ op, f = lineCode op ∧ t = 0 ∧ m = memMod .weak .glob ∧ Instr.cline x op = i := by
  simp only [clineOp, ← lineOf_eq_some_iff]
  cases lineOf f.toNat with
  | none => simp
  | some r =>
    simp only [bind_eq_ok_iff, need_eq_ok_iff, pure_eq_ok_iff, exists_const, beq_iff_eq]
    grind

theorem pfdOp_eq_ok_iff : pfdOp x f t m = .ok i ↔ f = 0 ∧ t = 0 ∧ m = memMod .weak .glob ∧ Instr.pfd x = i := by
  simp only [pfdOp, bind_eq_ok_iff, need_eq_ok_iff, pure_eq_ok_iff, exists_const, beq_iff_eq]

theorem mbtryOp_eq_ok_iff : mbtryOp x f t m = .ok i ↔ ∃ fi, t = 0 ∧ m = modOf .rne false fi ∧
    (f = 0 ∧ Instr.mbtryGet x fi = i ∨ f = 1 ∧ x.fmt = .f00 ∧ Instr.mbtryPut x fi = i) := by
  rw [mbtryOp]
  split
  · simp only [bind_eq_ok_iff, need_eq_ok_iff, exists_const, beq_iff_eq, ctlFirst_eq_ok_iff]
    grind
  · rw [ctlFirst_eq_ok_iff]
    grind

theorem shflOp_eq_ok_iff : shflOp x f t m = .ok i ↔
    ∃ k ty, (ty ∈ bitTys ∧ ty.cls = false) ∧ f = shflCode k ∧ t = ty.code ∧ m = 0 ∧ Instr.shfl x k ty = i := by
  simp only [shflOp, ← shflOf_eq_some_iff]
  cases shflOf f.toNat with
  | none => simp
  | some r =>
    simp only [bind_eq_ok_iff, need_eq_ok_iff, pure_eq_ok_iff, exists_const, beq_iff_eq, tyIn_eq_ok_iff]
    grind

theorem voteOp_eq_ok_iff : voteOp x f t m = .ok i ↔
    ∃ any, (f = if any = true then 1 else 0) ∧ t = 0 ∧ m = 0 ∧ Instr.vote x any = i := by
  simp only [voteOp, bind_eq_ok_iff, need_eq_ok_iff, pure_eq_ok_iff, exists_const, beq_iff_eq, Bool.or_eq_true]
  constructor
  · rintro ⟨rfl | rfl, rfl, rfl, rfl⟩
    · exact ⟨false, rfl, rfl, rfl, rfl⟩
    · exact ⟨true, rfl, rfl, rfl, rfl⟩
  · rintro ⟨_ | _, rfl, rfl, rfl, rfl⟩
    · exact ⟨.inl rfl, rfl, rfl, rfl⟩
    · exact ⟨.inr rfl, rfl, rfl, rfl⟩

theorem reduxOp_eq_ok_iff : reduxOp x f t m = .ok i ↔ ∃ op ty r sa, ty ∈ redTys op ∧
    redModOk op ty r sa false = true ∧ f = opFn (redCode op) ty ∧ t = ty.code ∧
    m = modOf r sa false ∧ Instr.redux x op ty r sa = i := by
  simp only [reduxOp, eq_opFn_iff, ← redOf_eq_some_iff]
  cases redOf (f.extractLsb' 0 3).toNat with
  | none => simp
  | some r =>
    simp only [bind_eq_ok_iff, need_eq_ok_iff, pure_eq_ok_iff, exists_const, beq_iff_eq, tyIn_eq_ok_iff,
      modArith_eq_ok_iff, Prod.exists]
    grind [eq_false_of_redModOk]

theorem argOp_eq_ok_iff (k : Ins → Ty → Instr) : argOp x f t m k = .ok i ↔
    ∃ ty, ty ∈ ([.s32, .n32, .f32] : List Ty) ∧ f = opFn 0 ty ∧ t = ty.code ∧ m = 0 ∧ k x ty = i := by
  simp only [argOp, bind_eq_ok_iff, need_eq_ok_iff, pure_eq_ok_iff, exists_const, beq_iff_eq, tyIn_eq_ok_iff,
    eq_opFn_zero_iff, Bool.or_eq_true]
  grind

theorem scanOp_eq_ok_iff : scanOp x f t m = .ok i ↔ ∃ ex op ty r sa, ty ∈ redTys op ∧ redModOk op ty r sa false = true ∧
    (f = opFn (redCode op) ty ||| if ex = true then 8 else 0) ∧ t = ty.code ∧ m = modOf r sa false ∧
    Instr.scan x ex op ty r sa = i := by
  simp only [scanOp, eq_scanFn_iff, ← redOf_eq_some_iff]
  cases redOf (f.extractLsb' 0 3).toNat with
  | none => simp
  | some r =>
    simp only [bind_eq_ok_iff, need_eq_ok_iff, pure_eq_ok_iff, exists_const, beq_iff_eq, tyIn_eq_ok_iff,
      modArith_eq_ok_iff, Prod.exists]
    grind [eq_false_of_redModOk]

theorem bcastOp_eq_ok_iff : bcastOp x f t m = .ok i ↔
    ∃ ty fi, (ty ∈ bitTys ∧ ty.cls = false) ∧ f = 0 ∧ t = ty.code ∧
      m = modOf .rne false fi ∧ Instr.bcast x ty fi = i := by
  simp only [bcastOp, bind_eq_ok_iff, need_eq_ok_iff, pure_eq_ok_iff, exists_const, beq_iff_eq, tyIn_eq_ok_iff,
    modArith_eq_ok_iff, Prod.exists, Bool.and_eq_true, Bool.not_eq_true']
  grind

theorem matchOp_eq_ok_iff : matchOp x f t m = .ok i ↔ ∃ ty : Option Ty,
    (if x.fmt = .f00 then ∃ u ∈ bitTys, u.cls = false ∧ ty = some u else ty = none) ∧
    f = 0 ∧ t = (ty.map Ty.code).getD 0 ∧ m = 0 ∧ Instr.matchKey x ty = i := by
  rw [matchOp]
  split
  · simp only [bind_eq_ok_iff, need_eq_ok_iff, pure_eq_ok_iff, exists_const, beq_iff_eq, tyIn_eq_ok_iff]
    grind
  · simp only [bind_eq_ok_iff, need_eq_ok_iff, pure_eq_ok_iff, exists_const, beq_iff_eq]
    grind

theorem semiOp_eq_ok_iff (k : Ins → Semiring → Bool → Instr) : semiOp x f t m k = .ok i ↔
    ∃ sr fi, f = 0 ∧ t = 0 ∧ m = semiMod sr fi ∧ k x sr fi = i := by
  simp only [semiOp, eq_semiMod_iff, ← semiOf_eq_some_iff]
  cases semiOf (m.extractLsb' 0 3).toNat with
  | none => simp [bind_eq_ok_iff]
  | some r =>
    simp only [bind_eq_ok_iff, need_eq_ok_iff, pure_eq_ok_iff, exists_const, beq_iff_eq]
    grind

theorem tldOp_eq_ok_iff : tldOp x f t m = .ok i ↔
    ∃ ty fi, ty ∈ tileTys ∧ f = opFn 0 ty ∧ t = ty.code ∧ m = modOf .rne false fi ∧ Instr.tld x ty fi = i := by
  simp only [tldOp, bind_eq_ok_iff, need_eq_ok_iff, pure_eq_ok_iff, exists_const, beq_iff_eq, tyIn_eq_ok_iff,
    modArith_eq_ok_iff, Prod.exists, Bool.and_eq_true, Bool.not_eq_true', eq_opFn_zero_iff, Bool.or_eq_true]
  grind

theorem tstOp_eq_ok_iff : tstOp x f t m = .ok i ↔
    ∃ ty r sa fi, ty ∈ tileTys ∧ r ≠ .rs ∧ (ty.cls = true ∨ r = .rne ∧ sa = false) ∧ f = opFn 0 ty ∧
      t = ty.code ∧ m = modOf r sa fi ∧ Instr.tst x ty r sa fi = i := by
  simp only [tstOp, bind_eq_ok_iff, need_eq_ok_iff, pure_eq_ok_iff, exists_const, beq_iff_eq, tyIn_eq_ok_iff,
    modArith_eq_ok_iff, Prod.exists, Bool.and_eq_true, Bool.not_eq_true', eq_opFn_zero_iff, Bool.or_eq_true,
    bne_iff_ne]
  grind

theorem tmovOp_eq_ok_iff (k : Ins → Ty → Bool → Instr) : tmovOp x f t m k = .ok i ↔
    ∃ ty fi, ty ∈ ([.b32, .f32] : List Ty) ∧ f = opFn 0 ty ∧ t = ty.code ∧ m = modOf .rne false fi ∧ k x ty fi = i := by
  simp only [tmovOp, bind_eq_ok_iff, need_eq_ok_iff, pure_eq_ok_iff, exists_const, beq_iff_eq, tyIn_eq_ok_iff,
    modArith_eq_ok_iff, Prod.exists, Bool.and_eq_true, Bool.not_eq_true', eq_opFn_zero_iff, Bool.or_eq_true]
  grind

theorem collOpD_eq_ok_iff : collOpD x f t m = .ok i ↔
    ∃ op ty fi, ty ∈ collTys op ∧ f = opFn (collCode op) ty ∧ t = ty.code ∧
      m = modOf .rne false fi ∧ Instr.coll x op ty fi = i := by
  simp only [collOpD, eq_opFn_iff, eq_modOf_first_iff, ← collOf_eq_some_iff]
  cases collOf (f.extractLsb' 0 3).toNat with
  | none => simp
  | some r =>
    simp only [bind_eq_ok_iff, need_eq_ok_iff, pure_eq_ok_iff, exists_const, beq_iff_eq, tyIn_eq_ok_iff]
    grind

end Shapes

/-! ### What a major decodes to (R151) -/

/-- The types of an instruction are of one class (R151): its table of types shows which. -/
theorem cls_of_mem {tys : List Ty} {cls : Bool} {ty : Ty} (hty : ty ∈ tys)
    (h : ∀ ty ∈ tys, ty.cls = cls := by decide) : ty.cls = cls := h ty hty

theorem quantTys_eq : [Ty.e4m3, .e5m2, .e3m2, .e2m3, .e2m1] = quantTys := rfl

theorem mem_amaxTys_iff {ty : Ty} : ty ∈ [Ty.f32, .e2m1, .e2m3, .e3m2, .e4m3, .e5m2] ↔ ty ∈ Ty.f32 :: quantTys := by
  cases ty <;> decide

/-- The types of MATCH by its format (R253). -/
theorem wf_matchKey_iff {x : Ins} (hx : x.wf 0xC8 = true) {ty : Option Ty} : (Instr.matchKey x ty).wf = true ↔
    if x.fmt = .f00 then ∃ u ∈ bitTys, u.cls = false ∧ ty = some u else ty = none := by
  obtain ⟨⟨fs, hfs, hmem⟩, -⟩ := (Ins.wf_iff x _).1 hx
  cases hfs
  have hcls : ∀ u ∈ bitTys, u.cls = false := by decide
  show (x.wf 0xC8 && _) = true ↔ _
  rw [hx, Bool.true_and]
  cases ty <;> grind

/-- What a major gives is well formed, and its parts are the fields it was given: the shape of the major's decoder says
which fields it takes, and these are the parts of the instruction. -/
theorem wf_and_parts_of_decodeMajor {maj : Nat} {x : Ins} {f : BitVec 8} {t : BitVec 4} {m : BitVec 6} {i : Instr}
    (hx : x.wf maj = true) (h : decodeMajor maj x f t m = .ok i) :
    i.wf = true ∧ i.parts = some ⟨x, BitVec.ofNat 8 maj, f, t, m⟩ := by
  unfold decodeMajor at h
  split at h
  all_goals simp only [arithPlain, plainFirst, ctlPlain_eq_ok_iff, ctlFirst_eq_ok_iff, arithTy_eq_ok_iff,
    arithSat_eq_ok_iff, arithFirst_eq_ok_iff, arithRndSat_eq_ok_iff, arithRnd_eq_ok_iff, arithF32_eq_ok_iff,
    relOp_eq_ok_iff, frelOp_eq_ok_iff, cvtOp_eq_ok_iff, cvtsOp_eq_ok_iff, quantOp_eq_ok_iff, deqOp_eq_ok_iff,
    memOp_eq_ok_iff, atomOpD_eq_ok_iff, atomcOp_eq_ok_iff, fenceOp_eq_ok_iff, clineOp_eq_ok_iff, pfdOp_eq_ok_iff,
    mbtryOp_eq_ok_iff, shflOp_eq_ok_iff, voteOp_eq_ok_iff, reduxOp_eq_ok_iff, argOp_eq_ok_iff, scanOp_eq_ok_iff,
    bcastOp_eq_ok_iff, matchOp_eq_ok_iff, semiOp_eq_ok_iff, tldOp_eq_ok_iff, tstOp_eq_ok_iff, tmovOp_eq_ok_iff,
    collOpD_eq_ok_iff, Instr.isVolatile, quantTys_eq, mem_amaxTys_iff,
    List.mem_singleton, forall_const, reduceCtorEq, Bool.false_eq_true, false_or] at h
  case h_124 => -- MBTRY, whose FN says whether it gets or puts
    obtain ⟨fi, rfl, rfl, ⟨rfl, rfl⟩ | ⟨rfl, hfmt, rfl⟩⟩ := h
    · exact ⟨hx, rfl⟩
    · exact ⟨Bool.and_eq_true_iff.2 ⟨hx, beq_iff_eq.2 hfmt⟩, rfl⟩
  case h_134 => -- MATCH, which has a type in format 00 alone
    obtain ⟨ty, hty, rfl, rfl, rfl, rfl⟩ := h
    exact ⟨(wf_matchKey_iff hx).2 hty, rfl⟩
  all_goals
    revert h
    simp only [forall_exists_index, and_imp]
    intros
    subst_vars
    refine ⟨?_, rfl⟩
    unfold Instr.wf
    simp only [*, decide_true, Bool.and_true, bne_iff_ne, beq_iff_eq, Bool.not_eq_true', ne_eq,
      Bool.and_eq_true, Bool.or_eq_true, not_false_eq_true, and_self, List.mem_singleton]

/-- The parts of a well-formed instruction give it back, by the shape of its major's decoder. -/
theorem decodeMajor_of_parts {i : Instr} {p : Parts} (hwf : i.wf = true) (hp : i.parts = some p) :
    decodeMajor p.maj.toNat p.x p.fn p.ty p.mod = .ok i := by
  cases i
  all_goals obtain ⟨⟩ := hp
  case matchKey =>
    have hx := (Bool.and_eq_true_iff.1 hwf).1
    exact (matchOp_eq_ok_iff ..).2 ⟨_, (wf_matchKey_iff hx).1 hwf, rfl, rfl, rfl, rfl⟩
  all_goals unfold Instr.wf at hwf
  all_goals simp only [Bool.and_eq_true, Bool.or_eq_true, decide_eq_true_eq, bne_iff_ne, beq_iff_eq,
    Bool.not_eq_true', ne_eq] at hwf
  case bra | brd | call | regang | exit | ipf | yield | nop | maskget | bar | bararv | xacq | xrel | idf | movs |
      trap | bkpt | tret | savemark | rxdone | entrydone | halt | sleep | waitc | prmb | lea | shlw | movi |
      rhash | pack6 | unpack6 | pack4 | unpack4 | ballot | firstl =>
    exact (ctlPlain_eq_ok_iff ..).2 ⟨rfl, rfl, rfl, rfl⟩
  case brc | jmpi | calli | ret | maskset | barwt | movsw | fwcall | mbput | mbget | ldwp | tzero | cpy | gather |
      scatter | umcfg | umrank | umcommit | umdirty | fwait | ftest | fcancel =>
    exact (ctlFirst_eq_ok_iff ..).2 ⟨_, rfl, rfl, rfl, rfl⟩
  case imulhi | imin | imax | iaddc | isubb | and | or | xor | andn | not | shl | shrl | shra | rotl | bfx | bfi |
      popc | clz | ctz | brev | sel | addw | subw | mulw | leaw | mov | moviw | fmin | fmax | fminn | fmaxn |
      fabs | fneg | fclass =>
    obtain ⟨-, hty⟩ := hwf
    exact (arithTy_eq_ok_iff ..).2 ⟨_, ⟨hty, cls_of_mem hty⟩, rfl, rfl, rfl, rfl⟩
  case iadd | isub | imul | imad | iabs | ineg | isad | dot4 =>
    obtain ⟨-, hty⟩ := hwf
    exact (arithSat_eq_ok_iff ..).2 ⟨_, _, ⟨hty, cls_of_mem hty⟩, rfl, rfl, rfl, rfl⟩
  case fadd | fsub | fmul | ffma | fscale | hadd2 | hmul2 | hfma2 | fdot2 =>
    obtain ⟨⟨-, hty⟩, hr⟩ := hwf
    exact (arithRndSat_eq_ok_iff ..).2 ⟨_, _, _, ⟨hty, cls_of_mem hty, hr⟩, rfl, rfl, rfl, rfl⟩
  case frnd =>
    obtain ⟨⟨-, hty⟩, hr⟩ := hwf
    exact (arithRnd_eq_ok_iff ..).2 ⟨_, _, ⟨hty, cls_of_mem hty, hr⟩, rfl, rfl, rfl, rfl⟩
  case frcp | frsq | fsqrt | fdiv | flog2 | fexp2 | fsin | fcos | ftanh | flgst =>
    exact (arithF32_eq_ok_iff ..).2 ⟨rfl, rfl, rfl, rfl⟩
  case blkscale =>
    obtain ⟨-, hty⟩ := hwf
    exact (arithFirst_eq_ok_iff ..).2 ⟨_, _, ⟨hty, cls_of_mem hty⟩, rfl, rfl, rfl, rfl⟩
  case amaxrd =>
    obtain ⟨-, hty⟩ := hwf
    exact (arithFirst_eq_ok_iff ..).2 ⟨_, _, ⟨mem_amaxTys_iff.2 hty, cls_of_mem hty⟩, rfl, rfl, rfl, rfl⟩
  case amaxrec =>
    exact (arithFirst_eq_ok_iff (k := fun x _ fi => .amaxrec x fi) ..).2
      ⟨.f32, _, ⟨List.mem_singleton_self _, rfl⟩, rfl, rfl, rfl, rfl⟩
  case icmp =>
    obtain ⟨-, hty⟩ := hwf
    exact (relOp_eq_ok_iff ..).2 ⟨_, _, ⟨hty, cls_of_mem hty⟩, rfl, rfl, rfl, rfl⟩
  case fcmp =>
    obtain ⟨-, hty⟩ := hwf
    exact (frelOp_eq_ok_iff ..).2 ⟨_, _, ⟨hty, cls_of_mem hty⟩, rfl, rfl, rfl, rfl⟩
  case cvt =>
    obtain ⟨⟨-, htaken⟩, hr⟩ := hwf
    exact (cvtOp_eq_ok_iff ..).2 ⟨_, _, _, _, htaken, hr, rfl, rfl, rfl, rfl⟩
  case cvts =>
    obtain ⟨⟨⟨⟨-, hd⟩, hs⟩, hcls⟩, hr⟩ := hwf
    exact (cvtsOp_eq_ok_iff ..).2 ⟨_, _, _, _, ⟨hd, hs, hcls⟩, hr, rfl, rfl, rfl, rfl⟩
  case quant =>
    obtain ⟨-, hty⟩ := hwf
    exact (quantOp_eq_ok_iff ..).2 ⟨_, _, ⟨hty, cls_of_mem hty⟩, rfl, rfl, rfl, rfl⟩
  case deq =>
    obtain ⟨⟨⟨-, hd⟩, hs⟩, hr⟩ := hwf
    exact (deqOp_eq_ok_iff ..).2 ⟨_, _, _, _, ⟨hd, cls_of_mem hd⟩, ⟨hs, cls_of_mem hs⟩, hr, rfl, rfl, rfl, rfl⟩
  case ld =>
    obtain ⟨-, hty⟩ := hwf
    exact (memOp_eq_ok_iff (k := .ld) ..).2
      ⟨_, _, _, ⟨hty, cls_of_mem hty⟩, fun h => Bool.noConfusion h, rfl, rfl, rfl, rfl⟩
  case st =>
    obtain ⟨-, hty⟩ := hwf
    exact (memOp_eq_ok_iff (k := .st) ..).2
      ⟨_, _, _, ⟨hty, cls_of_mem hty⟩, fun h => Bool.noConfusion h, rfl, rfl, rfl, rfl⟩
  case ldv =>
    obtain ⟨-, hty⟩ := hwf
    exact (memOp_eq_ok_iff (k := fun x ty _ sp => .ldv x ty sp) ..).2
      ⟨_, .weak, _, ⟨hty, cls_of_mem hty⟩, fun _ => rfl, rfl, rfl, rfl, rfl⟩
  case stv =>
    obtain ⟨-, hty⟩ := hwf
    exact (memOp_eq_ok_iff (k := fun x ty _ sp => .stv x ty sp) ..).2
      ⟨_, .weak, _, ⟨hty, cls_of_mem hty⟩, fun _ => rfl, rfl, rfl, rfl, rfl⟩
  case atom =>
    obtain ⟨-, hty⟩ := hwf
    exact (atomOpD_eq_ok_iff ..).2 ⟨_, _, _, _, .inl rfl, hty, rfl, rfl, rfl, rfl⟩
  case red =>
    obtain ⟨⟨-, hop⟩, hty⟩ := hwf
    exact (atomOpD_eq_ok_iff ..).2 ⟨_, _, _, _, .inr hop, hty, rfl, rfl, rfl, rfl⟩
  case atomc =>
    obtain ⟨-, hty⟩ := hwf
    exact (atomcOp_eq_ok_iff ..).2 ⟨_, _, _, ⟨hty, cls_of_mem hty⟩, rfl, rfl, rfl, rfl⟩
  case fence =>
    obtain ⟨⟨-, hp⟩, hq⟩ := hwf
    exact (fenceOp_eq_ok_iff ..).2 ⟨_, _, _, ⟨hp, hq⟩, rfl, rfl, rfl, rfl⟩
  case cline =>
    exact (clineOp_eq_ok_iff ..).2 ⟨_, rfl, rfl, rfl, rfl⟩
  case pfd =>
    exact (pfdOp_eq_ok_iff ..).2 ⟨rfl, rfl, rfl, rfl⟩
  case mbtryGet =>
    exact (mbtryOp_eq_ok_iff ..).2 ⟨_, rfl, rfl, .inl ⟨rfl, rfl⟩⟩
  case mbtryPut =>
    obtain ⟨-, hfmt⟩ := hwf
    exact (mbtryOp_eq_ok_iff ..).2 ⟨_, rfl, rfl, .inr ⟨rfl, hfmt, rfl⟩⟩
  case shfl =>
    obtain ⟨-, hty⟩ := hwf
    exact (shflOp_eq_ok_iff ..).2 ⟨_, _, ⟨hty, cls_of_mem hty⟩, rfl, rfl, rfl, rfl⟩
  case vote =>
    exact (voteOp_eq_ok_iff ..).2 ⟨_, rfl, rfl, rfl, rfl⟩
  case redux =>
    obtain ⟨⟨-, hty⟩, hmod⟩ := hwf
    exact (reduxOp_eq_ok_iff ..).2 ⟨_, _, _, _, hty, hmod, rfl, rfl, rfl, rfl⟩
  case argmx | argmn =>
    obtain ⟨-, hty⟩ := hwf
    exact (argOp_eq_ok_iff ..).2 ⟨_, hty, rfl, rfl, rfl, rfl⟩
  case scan =>
    obtain ⟨⟨-, hty⟩, hmod⟩ := hwf
    exact (scanOp_eq_ok_iff ..).2 ⟨_, _, _, _, _, hty, hmod, rfl, rfl, rfl, rfl⟩
  case bcast =>
    obtain ⟨-, hty⟩ := hwf
    exact (bcastOp_eq_ok_iff ..).2 ⟨_, _, ⟨hty, cls_of_mem hty⟩, rfl, rfl, rfl, rfl⟩
  case mma | mmae =>
    exact (semiOp_eq_ok_iff ..).2 ⟨_, _, rfl, rfl, rfl, rfl⟩
  case tld =>
    obtain ⟨-, hty⟩ := hwf
    exact (tldOp_eq_ok_iff ..).2 ⟨_, _, hty, rfl, rfl, rfl, rfl⟩
  case tst =>
    obtain ⟨⟨⟨-, hty⟩, hr⟩, hint⟩ := hwf
    exact (tstOp_eq_ok_iff ..).2 ⟨_, _, _, _, hty, hr, hint, rfl, rfl, rfl, rfl⟩
  case tmovr | tmovt =>
    obtain ⟨-, hty⟩ := hwf
    exact (tmovOp_eq_ok_iff ..).2 ⟨_, _, hty, rfl, rfl, rfl, rfl⟩
  case coll =>
    obtain ⟨-, hty⟩ := hwf
    exact (collOpD_eq_ok_iff ..).2 ⟨_, _, _, hty, rfl, rfl, rfl, rfl⟩

/-! ### Words and instructions correspond (R146, R151, R158) -/

/-- The common fields of a well-formed instruction stand as its major has them. -/
theorem wf_of_parts {i : Instr} {p : Parts} (hwf : i.wf = true) (hp : i.parts = some p) :
    p.x.wf p.maj.toNat = true := by
  cases i
  all_goals obtain ⟨⟩ := hp
  all_goals unfold Instr.wf at hwf
  all_goals simp only [Bool.and_eq_true] at hwf
  all_goals simp only [BitVec.reduceToNat, hwf]

/-- Only happenings and undefined words have no word. -/
theorem isHappening_eq_isNone_parts {i : Instr} (h : ∀ w, i ≠ .undefinedInstruction w) :
    Machine.isHappening i = i.parts.isNone := by
  cases i
  case undefinedInstruction w => exact absurd rfl (h w)
  all_goals rfl

/-- A word decodes to the well-formed instruction whose word it is, and to no other. -/
theorem decode_eq_ok_iff_encode (w : Slot) (i : Instr) : decode w = .ok i ↔ i.wf = true ∧ encode i = some w := by
  rw [decode_eq_ok_iff, encode, Option.map_eq_some_iff]
  constructor
  · rintro ⟨p, rfl, hx, h⟩
    obtain ⟨hwf, hp⟩ := wf_and_parts_of_decodeMajor hx h
    rw [BitVec.ofNat_toNat, BitVec.setWidth_eq] at hp
    exact ⟨hwf, p, hp, rfl⟩
  · rintro ⟨hwf, p, hp, rfl⟩
    exact ⟨p, rfl, wf_of_parts hwf hp, decodeMajor_of_parts hwf hp⟩

/-- Settles O1: an instruction without a word is a happening or an undefined word, and the word of any other decodes
to it. -/
theorem decodeOfEncode : Obligations.DecodeOfEncode := by
  intro i hwf
  cases h : encode i with
  | some w => exact (decode_eq_ok_iff_encode w i).2 ⟨hwf, h⟩
  | none =>
    by_cases hw : ∃ w, i = .undefinedInstruction w
    · exact .inr hw
    · rw [encode, Option.map_eq_none_iff] at h
      exact .inl ((isHappening_eq_isNone_parts fun w hi => hw ⟨w, hi⟩).trans (Option.isNone_iff_eq_none.2 h))

/-- Settles O2, by the parts that the word holds. -/
theorem encodeOfDecode : Obligations.EncodeOfDecode := fun w i =>
  (decode_eq_ok_iff_encode w i).1

/-- Settles O3: the decoder gives each word the instruction that the spec prints it for. -/
theorem specWordsDecode : Obligations.SpecWordsDecode := by
  unfold Obligations.SpecWordsDecode
  decide +kernel

end Sys2Proof

/-! ### BRD to an address of no page, with the handler's line out of date in the cache -/

namespace Sys2Proof.Machine.Placed

/-- A path at the last word of a code line, which is the last of its block: the next header stands in the next line. -/
def leavingPath : Path := { placedPath with pc := wordPage + 112, blk := some { hdr := wordPage, len := 7, rcv := 0 } }

/-- Lanes 0 and 4 are enabled, and lane 0's condition holds: slice 0 takes a BRD on v4, and no other slice does. -/
def leavingTroupe : Troupe := { placedTroupe [leavingPath] 0 4 with enable := 0x11 }

/-- A full instruction cache (R3): the line of a header as it stood in the pool, and lines behind it. -/
def fullCache (header : Memory) : List (Nat × Memory) :=
  (codeKey 0 wordPage, header) :: (List.range 1023).map fun k => (codeKey 0 (2 * wordPage + 128 * k), [])

/-- The placed state in which it issues, with the header of its block as the launch's handler. The core's cache holds
the line of that header, which has been overwritten in the pool since. -/
def staleState : State :=
  let s := placedState (.ord 0) leavingTroupe
  { s.modCore 0 0 fun C => { C with icache := fullCache (s.codeLine 0 (wordPage / 128)) } with
    launches := s.launches.map fun l => { l with handler := wordPage }
    pool := s.pool.put wordPage 1 }

/-- BRD on v4 to an address of no page. -/
def brdAway : Ins := Ins.plain .f10 0 4 0x10000

/-- It issues, and its handler's address can be entered as long as the cache keeps the line. -/
theorem stale_issues : staleState.Issues leavingTroupe leavingPath ∧
    Passes leavingTroupe leavingPath brdAway (Use.lanes [] [(4, 1)]) 0x11 ∧
      Delivers staleState leavingTroupe leavingPath := by
  decide +kernel

/-- The target that is taken is on no page; the next header passes the checks of R157, and neither is awaited. -/
theorem stale_targets :
    staleState.checkTarget leavingTroupe ((leavingPath.pc : Int) + 16 * brdAway.imm.toInt) = .fault 0x05 ∧
      staleState.checkTarget leavingTroupe ((leavingPath.pc : Int) + 16 * 1) = .ok ∧
      ∀ j : Bool, staleState.targetWaits leavingTroupe (.path (refOf leavingTroupe leavingPath))
        ((leavingPath.pc : Int) + 16 * if j = true then brdAway.imm.toInt else 1) = none := by decide +kernel

/-- The other slices' target is fetched first, into the full cache: the handler's line leaves it, the header in the pool
no longer passes the check of a handler's address, and the delivery halts the troupe (R404). -/
theorem brd_stale : shown (exec (.brd brdAway) staleState) (fun t => (t.run, t.path? (.handler 0))) =
    some (.halted, none) := by
  decide +kernel

/-- Refutes O30: a BRD of a ganged troupe enters the target that passes before it delivers the fault of the one that
does not, and that fetch can put the handler's line out of the cache. Where the pool holds another word there, the
handler's address can no longer be entered and the troupe halts, where the statement has the slices before their
handler. The last clause would need that the handler's address still passes R157 after the fetch. -/
theorem not_branchFaults : ¬ Obligations.BranchFaults := by
  rintro ⟨-, -, -, -, -, -, -, hbrd⟩
  obtain ⟨hiss, hpass, hdel⟩ := stale_issues
  obtain ⟨hfault, hok, hhere⟩ := stale_targets
  obtain ⟨s', t', hex, ht', -, ⟨hin, -⟩, -⟩ := hbrd brdAway true 0x05 staleState leavingTroupe leavingPath 0x11
    hiss hpass ⟨hdel, rfl, rfl, by decide, hhere, by decide +kernel, ⟨0, by decide +kernel⟩, hfault,
      fun _ => ⟨rfl, hok⟩⟩
  obtain ⟨-, -, -, -, -, h, hh, -⟩ := hin 0 (by decide) (by decide +kernel)
  have hnone := shown_next brd_stale hex ht'
  rw [(Prod.mk.inj hnone).2] at hh
  cases hh

end Sys2Proof.Machine.Placed

/-! ## Control instructions, barriers and the ends of routines -/

namespace Sys2Proof.Machine

/-- Settles O29: the six instructions are one branch (R169), and its law gives what each of them does. -/
theorem branches : Obligations.Branches :=
  ⟨fun _ => jumps_of_runBranch false fun _ => rfl, fun _ _ => jumps_of_runBranch false fun _ => rfl,
    fun _ _ => jumps_of_runBranch false fun _ => rfl, fun _ => jumps_of_runBranch false fun _ => rfl,
    fun _ _ => jumps_of_runBranch false fun _ => rfl, fun _ _ => jumps_of_runBranch true fun _ => rfl⟩

/-! ### Faults that an instruction raises as its effect (R189, R190, R158) -/

/-- Before an issue. -/
theorem State.AtFault.refl {s : State} {t : Troupe} {p : Path} (ht : s.troupe? t.id = some t) (hp : t.path? p.sel = some p) :
    s.AtFault t p s t p :=
  ⟨ht, hp, (State.Logged.refl s).fetchesAs, rfl, rfl, fun _ => rfl⟩

/-- A fault of a word is delivered, and the rest of its path goes on (R191). -/
theorem State.AtFault.faultWord_delivered {s s1 : State} {t u : Troupe} {p q : Path} (h : s.AtFault t p s1 u q)
    (hd : Delivers s t p) (hregs : t.SameRegs u) (hpc : q.pc = p.pc) (hslices : q.slices = p.slices) (hr : q.retry = false)
    {m : Word} (hm : m ≠ 0) {c : Nat} (hc : c ≠ 0x13) (a : Nat) :
    ∃ t', (s1.faultWord (refOf t p) (faultAll m c a)).troupe? t.id = some t' ∧
      Delivered s t p m c a (p.pc + 16) q.stamp (s1.faultWord (refOf t p) (faultAll m c a)) t' := by
  rw [h.faultWord_eq hr (faultAll_ne_nil hm c a), hpc, ← show q.next.pc = p.pc + 16 from congrArg (· + 16) hpc]
  exact (h.modPath (f := Path.next) fun _ => rfl).delivered hd hregs hm hc a (.word q.blk) hslices

/-- An instruction that does nothing but raise a fault in the lanes of active(i). -/
theorem completes_of_fault {i : Instr} {x : Ins} {u : Use} {c a : Nat} {pre : State → Troupe → Path → Word → Prop}
    (hc : c ≠ 0x13) (hpre : ∀ s t p act, pre s t p act → p.retry = false ∧ Delivers s t p)
    (hi : ∀ s t p act, s.Issues t p → Passes t p x u act → pre s t p act →
      exec i s = .next ((s.start t p x u).faultWord (refOf t p) (faultAll act c a))) :
    Completes i x u pre fun s t p act s' t' => Delivered s t p act c a (p.pc + 16) (stampAfter s p x) s' t' := by
  intro s t p act hs hp h
  obtain ⟨hr, hd⟩ := hpre s t p act h
  obtain ⟨-, -, h0, -⟩ := id hp
  obtain ⟨t', ht', hdel⟩ := (State.AtFault.start hs x u).faultWord_delivered hd (t.reg_started p x u s.now) rfl rfl hr h0 hc a
  exact ⟨_, t', hi s t p act hs hp h, ht', hdel⟩

theorem trap_delivers (x : Ins) : Completes (.trap x) x Use.none_ (fun s t p _ => p.retry = false ∧ Delivers s t p)
    fun s t p act s' t' => Delivered s t p act 0x10 x.imm.toNat (p.pc + 16) (stampAfter s p x) s' t' := by
  refine completes_of_fault (by decide) (fun _ _ _ _ h => h) fun s t p act hs hp _ => ?_
  show execTrap x s = _
  simp [execTrap, runEff, State.gate_of_passes hs hp, show faultAll (0#32) 0x12 0 = [] from faultAll_zero _ _]

/-- The launch of an ensemble is the one before the issue. -/
theorem State.launchOf_start (s : State) (t : Troupe) (p : Path) (x : Ins) (u : Use) (e : Nat) :
    (s.start t p x u).launchOf e = s.launchOf e := by
  rw [(s.start_same t p x u).1]
  rfl

theorem bkpt_delivers (x : Ins) : Completes (.bkpt x) x Use.none_
    (fun s t p _ => p.retry = false ∧ Delivers s t p ∧ (s.launchOf t.ens).bind (·.debugger) = none)
    fun s t p act s' t' => Delivered s t p act 0x11 0 (p.pc + 16) (stampAfter s p x) s' t' := by
  refine completes_of_fault (by decide) (fun _ _ _ _ h => ⟨h.1, h.2.1⟩) fun s t p act hs hp ⟨_, _, hno⟩ => ?_
  show execBkpt x s = _
  simp [execBkpt, State.gate_of_passes hs hp, State.launchOf_start, hno,
    show faultAll (0#32) 0x12 0 = [] from faultAll_zero _ _]

/-- Of the path at a word that is no instruction, nothing has changed but what its issue sets (R48, R49). -/
theorem Path.undefined_eq (p : Path) (now : Nat) (w : Slot) :
    p.undefined now w = { p with
      waitCnt := (p.undefined now w).waitCnt, aged := (p.undefined now w).aged, stall := (p.undefined now w).stall,
      ibuf := (p.undefined now w).ibuf, wait := (p.undefined now w).wait,
      stamp := if (portOf w).isSome = true ∧ w.getLsbD 95 = true then now else p.stamp } := by
  unfold Path.undefined
  cases (portOf w).isSome <;> simp

/-- A word that is no instruction delivers its fault in every lane of A(p), whatever its guard (R158). -/
theorem undefinedInstruction_delivers {w : Slot} {s : State} {t : Troupe} {p : Path} (hs : s.Issues t p)
    (hr : p.retry = false) (hd : Delivers s t p) (hm : t.pathLanes p ≠ 0) :
    ∃ s' t', exec (.undefinedInstruction w) s = .next s' ∧ s'.troupe? t.id = some t' ∧
      Delivered s t p (t.pathLanes p) (if decode w = .error .majorReserved then 0x02 else 0x01) 0 (p.pc + 16)
        (if (portOf w).isSome = true ∧ w.getLsbD 95 = true then s.now else p.stamp) s' t' := by
  obtain ⟨-, ht, hp, -⟩ := id hs
  have hcode : (if decode w = .error .majorReserved then 0x02 else 0x01) ≠ 0x13 := by split <;> decide
  obtain ⟨t', ht', hdel⟩ := ((State.AtFault.refl ht hp).modPath (f := fun v => v.undefined s.now w)
    fun v => by rw [v.undefined_eq]).faultWord_delivered hd (fun _ _ => rfl) (by rw [p.undefined_eq]) (by rw [p.undefined_eq])
      (by rw [p.undefined_eq]; exact hr) hm hcode 0
  rw [show (p.undefined s.now w).stamp = _ by rw [p.undefined_eq]] at hdel
  refine ⟨_, t', ?_, ht', hdel⟩
  show execUndefinedInstruction w s = _
  rw [execUndefinedInstruction, State.issuer_of_issues hs]
  by_cases hmajor : decode w = .error .majorReserved
  · simp only [hmajor]
    rfl
  · rw [if_neg hmajor]
    dsimp only
    split
    · exact absurd ‹_› hmajor
    · rfl

/-! ### BKPT with a debugger attached (R60, R190) -/

theorem Troupe.debugStop_id (t : Troupe) (m : BitVec 8) : (t.debugStop m).id = t.id := rfl

theorem Troupe.reg_debugStop (t : Troupe) (m : BitVec 8) (l r : Nat) : (t.debugStop m).reg l r = t.reg l r := rfl

theorem Troupe.slice_debugStop (t : Troupe) (m : BitVec 8) (k : Nat) : ((t.debugStop m).slice k).st =
    if k < t.slices.length ∧ m.getLsbD k = true then .stopped else (t.slice k).st := by
  simp only [Troupe.slice, Troupe.debugStop, Troupe.stopSlices, lget_map_lenum]
  by_cases hk : k < t.slices.length
  · simp only [hk, if_true, true_and]
    split <;> rfl
  · rw [if_neg hk, if_neg fun h => hk h.1, lget_beyond _ _ _ (Nat.le_of_not_lt hk)]

/-- The first path with a name, where each path is changed and keeps its name. -/
theorem find?_sel_map {ps : List Path} {f : Path → Path} (hf : ∀ v, (f v).sel = v.sel) (r : PathSel) :
    (ps.map f).find? (fun v => v.sel == r) = (ps.find? fun v => v.sel == r).map f := by
  rw [List.find?_map]
  congr 2
  exact funext fun v => by simp [hf]

/-- A path that does not wait stays as it is. -/
theorem Troupe.path?_debugStop {t : Troupe} (m : BitVec 8) {r : PathSel} {q : Path} (h : t.path? r = some q)
    (hq : q.wait = .none) : (t.debugStop m).path? r = some q := by
  refine (find?_sel_map (ps := t.paths) (fun v => ?_) r).trans ?_
  · split
    · split <;> rfl
    · rfl
  · rw [show t.paths.find? _ = _ from h, Option.map_some, hq]

theorem State.debugStop_pool (s : State) (t : Troupe) (m : BitVec 8) (all : Bool) : (s.debugStop t m all).pool = s.pool := rfl

/-- What the troupe of BKPT becomes, and under stop-all every troupe of its ensemble. -/
theorem State.troupe?_debugStop {s : State} {t u : Troupe} {j : Nat} (m : BitVec 8) (all : Bool) (h : s.troupe? j = some u) :
    (s.debugStop t m all).troupe? j = some (if u.id = t.id then u.debugStop (if all then 0xFF else m)
      else if all && u.ens == t.ens then u.debugStop 0xFF else u) := by
  rw [State.troupe?, State.debugStop, find?_id_map fun v => by split <;> [rfl; split <;> rfl],
    show s.troupes.find? _ = _ from h, Option.map_some]

/-- A troupe that goes on keeps its number of slices. -/
theorem Troupe.length_slices_advance (t : Troupe) (r : PathSel) : (t.advance r).slices.length = t.slices.length := by
  have hbranch : ∀ (u : Troupe) n o, (u.settleBranch n o).slices = u.slices := by
    intro u n o
    unfold Troupe.settleBranch
    split
    · rfl
    · split <;> rfl
  unfold Troupe.advance
  split
  · rfl
  · split
    · split
      · unfold Troupe.endHandler
        split
        · rfl
        · rw [hbranch]
          unfold Troupe.rejoin
          split
          · rfl
          · exact lmod_length ..
      · rfl
    · rfl

theorem bkpt_stops (x : Ins) (all : Bool) : Completes (.bkpt x) x Use.none_
    (fun s t _ _ => (s.launchOf t.ens).bind (·.debugger) = some all)
    fun s t p act s' t' => t.SameRegs t' ∧ (p.retry = false → ∃ q ∈ t'.path? p.sel, q = (p.issued s.now x).next) ∧
      s'.pool = s.pool ∧ (∀ k, k < t.slices.length → k < 8 → all = true ∨ slicePresent act k = true →
        (t'.slice k).st = .stopped) ∧
      (p.retry = false → all = false → ∀ k, slicePresent act k = false → (t'.slice k).st = (t.slice k).st) ∧
      (all = true → ∀ u, s.troupe? u.id = some u → u.ens = t.ens → u.id ≠ t.id → ∃ u' ∈ s'.troupe? u.id,
        ∀ k, k < u.slices.length → k < 8 → (u'.slice k).st = .stopped) := by
  intro s t p act hs hp hdbg
  obtain ⟨-, ht, hpath, -⟩ := id hs
  have hstarted := Troupe.started_path? hpath x Use.none_ s.now
  obtain ⟨hfin, htroupe, hon⟩ := State.finish_onward (State.start_troupe? p x Use.none_ ht) hstarted
    (t.started_otherPaths p x Use.none_ s.now)
  have hex : exec (.bkpt x) s = .next (((s.start t p x Use.none_).advance (refOf t p)).debugStop t (slicesOf act) all) := by
    rw [← hfin]
    show execBkpt x s = _
    simp only [execBkpt, State.gate_of_passes hs hp, State.launchOf_start, hdbg]
  have hid : ((t.started p x Use.none_ s.now).advance p.sel).id = t.id := Troupe.advance_id ..
  have hlen : ((t.started p x Use.none_ s.now).advance p.sel).slices.length = t.slices.length :=
    Troupe.length_slices_advance ..
  have hall : ∀ k, k < 8 → (0xFF : BitVec 8).getLsbD k = true := by decide
  refine ⟨_, _, hex, State.troupe?_debugStop _ all htroupe, ?_⟩
  rw [if_pos hid]
  refine ⟨fun l r => ?_, fun hr => ?_, ?_, fun k hk h8 hstop => ?_, fun hr hone k hout => ?_, fun hstop u hu hens hother => ?_⟩
  · rw [Troupe.reg_debugStop, Troupe.reg_advance, Troupe.reg_started]
  · exact ⟨_, Troupe.path?_debugStop _ (hon hr).1 rfl, rfl⟩
  · rw [State.debugStop_pool]
    exact State.start_pool ..
  · have hbit : (if all then 0xFF else slicesOf act).getLsbD k = true := by
      cases all
      · exact (getLsbD_slicesOf_eq act h8).trans (hstop.resolve_left (by decide))
      · exact hall k h8
    rw [Troupe.slice_debugStop, if_pos ⟨hlen.symm ▸ hk, hbit⟩]
  · have hbit : (if all then 0xFF else slicesOf act).getLsbD k ≠ true := by
      subst hone
      intro h
      exact absurd ((getLsbD_slicesOf_eq act (BitVec.lt_of_getLsbD h)).symm.trans h) (by simp [hout])
    rw [Troupe.slice_debugStop, if_neg fun h => hbit h.2, Troupe.advance_next hstarted hr]
    rfl
  · have hu' := (State.troupe?_modTroupe_other (s := s.start t p x Use.none_) (fun v => v.advance p.sel) hother
      fun v _ => v.advance_id p.sel).trans ((s.start_other t p x Use.none_ hother).trans hu)
    refine ⟨_, State.troupe?_debugStop _ all hu', fun k hk h8 => ?_⟩
    rw [if_neg hother, hstop, hens, beq_self_eq_true, Bool.and_self, if_pos rfl, Troupe.slice_debugStop, if_pos ⟨hk, hall k h8⟩]

/-- Settles O38: TRAP, BKPT without a debugger and a word that is no instruction raise one fault of a word, which the law of
its delivery settles (R404); with a debugger BKPT goes on and the slices stop. -/
theorem trapsAndUndefinedWords : Obligations.TrapsAndUndefinedWords :=
  ⟨trap_delivers, bkpt_delivers, bkpt_stops, fun _ _ _ _ => undefinedInstruction_delivers⟩

/-! ### FWCALL and its answer (R193) -/

/-- An instruction that waits once it has issued. -/
theorem completes_of_wait {i : Instr} {x : Ins} {u : Use} (w : State → Troupe → Word → Wait)
    (hi : ∀ s t p act, s.Issues t p → Passes t p x u act →
      exec i s = .next ((s.start t p x u).modPath (refOf t p) fun q => { q with wait := w s t act })) :
    Completes i x u (fun _ _ _ _ => True) fun s t p act s' t' => s.SameBut s' t.id ∧ t.Waits t' p s.now x (w s t act) := by
  intro s t p act hs hp _
  obtain ⟨-, ht, hpath, -⟩ := id hs
  refine ⟨_, (t.started p x u s.now).modPath p.sel fun q => { q with wait := w s t act }, hi s t p act hs hp,
    State.troupe?_modTroupe_same (fun v => v.modPath p.sel fun q => { q with wait := w s t act })
      (State.start_troupe? p x u ht) rfl,
    (s.start_sameBut t p x u).modTroupe fun _ => rfl,
    Troupe.path?_modPath_same _ (Troupe.started_path? hpath x u s.now) rfl,
    Troupe.otherPaths_modPath (t.started_otherPaths p x u s.now) fun _ => rfl, fun l r => t.reg_started p x u s.now l r⟩

theorem fwcall_waits (x : Ins) (first : Bool) :
    Completes (.fwcall x first) x (Use.cmd [(x.d, 1)] [(x.a, 2)] first) (fun _ _ _ _ => True)
      fun s t p act s' t' => s.SameBut s' t.id ∧
        t.Waits t' p s.now x (.fwcall x.imm (uniPair t act x.a) (s.clock t.die) x.d.toNat act) := by
  refine completes_of_wait (fun s t act => .fwcall x.imm (uniPair t act x.a) (s.clock t.die) x.d.toNat act)
    fun s t p act hs hp => ?_
  show execFwcall x first s = _
  simp only [execFwcall, State.gate_of_passes hs hp]

/-- The answer of the service by function (R193). -/
def fwValue (l : Launch) (fn : Word) : Word :=
  if fn = 0 then 0x04600100 ||| Config.stepping.zeroExtend 32
  else if fn = 1 then 0
  else if fn = 2 ∧ l.mboxCount ≠ 0 then BitVec.ofNat 32 l.mboxFirst
  else 0xFFFFFFFF

/-- A launch with an entry of function 1 in its trace. -/
def Launch.traced (l : Launch) (e : TraceEntry) : Launch := { l with trace := l.trace ++ [e] }

/-- What the service records of a call: function 1 its entry, any other function nothing. -/
def State.fwTraced (s : State) (l : Launch) (fn : Word) (e : TraceEntry) : State :=
  if fn = 1 then s.modLaunch l.id fun l => l.traced e else s

@[simp] theorem State.fwTraced_troupes (s : State) (l : Launch) (fn : Word) (e : TraceEntry) :
    (s.fwTraced l fn e).troupes = s.troupes := by
  unfold State.fwTraced
  split <;> rfl

@[simp] theorem State.fwTraced_pool (s : State) (l : Launch) (fn : Word) (e : TraceEntry) :
    (s.fwTraced l fn e).pool = s.pool := by
  unfold State.fwTraced
  split <;> rfl

/-- The service's answer, and its effect on the launch. -/
theorem State.fwAnswer_eq {s : State} {t : Troupe} {l : Launch} (hl : s.launchOf t.ens = some l) (fn : Word)
    (arg clk : DWord) : s.fwAnswer t fn arg clk =
      (s.fwTraced l fn { arg := arg, troupe := t.id, clock := clk }, fwValue l fn) := by
  simp only [State.fwAnswer, hl, fwValue, State.fwTraced, Launch.traced]
  by_cases h0 : fn = 0
  · subst h0; rfl
  by_cases h1 : fn = 1
  · subst h1; rfl
  by_cases h2 : fn = 2
  · subst h2
    by_cases hm : l.mboxCount = 0 <;> simp [hm]
  · simp only [if_neg h0, if_neg h1, if_neg h2, if_neg fun h : fn = 2 ∧ l.mboxCount ≠ 0 => h2 h.1]

theorem State.launch?_modLaunch {s : State} {id : Nat} {l : Launch} {f : Launch → Launch} (h : s.launch? id = some l)
    (hf : ∀ v, (f v).id = v.id) : (s.modLaunch id f).launch? id = some (f l) := by
  have hid : l.id = id := by simpa using List.find?_some h
  have hname : ∀ v : Launch, (if v.id = id then f v else v).id = v.id := fun v => by split <;> simp [hf]
  rw [State.launch?, State.modLaunch, List.find?_map]
  simp only [Function.comp_def, hname]
  rw [show s.launches.find? _ = _ from h, Option.map_some, if_pos hid]

/-- A launch that an ensemble belongs to, changed. -/
theorem State.launchOf_modLaunch {s : State} {e : Nat} {l : Launch} {f : Launch → Launch} (h : s.launchOf e = some l)
    (hf : ∀ v, (f v).id = v.id) : (s.modLaunch l.id f).launchOf e = some (f l) := by
  unfold State.launchOf at h ⊢
  rw [show (s.modLaunch l.id f).ens? e = s.ens? e from rfl]
  cases hens : s.ens? e with
  | none => simp [hens] at h
  | some e =>
    rw [hens] at h
    have hid : l.id = e.launch := by simpa using List.find?_some h
    rw [hid]
    exact State.launch?_modLaunch h hf

/-- The answer writes its value in the waiting lanes, and the path goes on. -/
theorem fwcallAnswer_answers {s : State} {t : Troupe} {p : Path} {fn : Word} {arg clk : DWord} {d : Nat} {ls : Word}
    {l : Launch} (ht : s.troupe? t.id = some t) (hp : t.path? p.sel = some p) (hw : p.wait = .fwcall fn arg clk d ls)
    (hr : p.retry = false) (hl : s.launchOf t.ens = some l) :
    ∃ s' t', exec (.fwcallAnswer (refOf t p)) s = .next s' ∧
      s'.troupe? t.id = some t' ∧ t'.path? p.sel = some p.next ∧ t.OtherPaths t' p.sel ∧ s'.pool = s.pool ∧
      t.Wrote t' ls (fun _ => [(d, fwValue l fn)]) ∧
      (fn = 1 → ∃ l', s'.launchOf t.ens = some l' ∧
        l'.trace = l.trace ++ [{ arg := arg, troupe := t.id, clock := clk }]) ∧
      (fn ≠ 1 → s'.launches = s.launches) := by
  have ht1 : (s.fwTraced l fn { arg := arg, troupe := t.id, clock := clk }).troupe? t.id = some t := by
    rw [State.troupe?, State.fwTraced_troupes]
    exact ht
  have hp1 : (t.writeLanes ls fun _ => [(d, fwValue l fn)]).path? p.sel = some p := hp
  refine ⟨((s.fwTraced l fn { arg := arg, troupe := t.id, clock := clk }).writeLanes t.id ls fun _ =>
      [(d, fwValue l fn)]).advance (refOf t p), _, ?_,
    State.advance_troupe? (r := refOf t p) (State.troupe?_modTroupe_same _ ht1 rfl), ?_, ?_, s.fwTraced_pool .., ?_, ?_, ?_⟩
  · show execFwcallAnswer (refOf t p) s = _
    simp only [execFwcallAnswer, refOf, ht, hp, hw, State.fwAnswer_eq hl]
  · rw [Troupe.advance_next (r := (refOf t p).sel) hp1 hr]
    exact Troupe.path?_modPath_same _ hp1 rfl
  · rw [Troupe.advance_next (r := (refOf t p).sel) hp1 hr]
    exact Troupe.otherPaths_modPath (fun _ _ => rfl) fun _ => rfl
  · intro l' r hlt
    rw [Troupe.reg_advance, Troupe.reg_writeLanes _ _ _ _ _ fun _ => hlt]
  · intro h1
    rw [State.fwTraced, if_pos h1]
    exact ⟨_, State.launchOf_modLaunch (f := fun l => l.traced _) hl fun _ => rfl, rfl⟩
  · intro h1
    rw [State.fwTraced, if_neg h1]
    rfl

/-! ### SAVEMARK (R194) -/

theorem mem_ninsert {k r : Nat} {l : List Nat} : r ∈ ninsert k l ↔ r = k ∨ r ∈ l := by
  induction l with
  | nil => simp [ninsert]
  | cons j l ih =>
    rw [ninsert]
    split
    · simp
    · split
      · rename_i hj
        simp [hj]
      · simp [ih, or_left_comm]

theorem mem_nunion {a b : List Nat} {r : Nat} : r ∈ nunion a b ↔ r ∈ a ∨ r ∈ b := by
  induction b generalizing a with
  | nil => simp [nunion]
  | cons k b ih =>
    rw [nunion, List.foldl_cons, ← nunion, ih, mem_ninsert, List.mem_cons, or_assoc, or_left_comm]

theorem mem_nspan {a b r : Nat} : r ∈ nspan a b ↔ a ≤ r ∧ r ≤ b := by
  simp only [nspan, List.mem_map, List.mem_range]
  constructor
  · rintro ⟨k, hk, rfl⟩
    omega
  · rintro ⟨ha, hb⟩
    exact ⟨r - a, by omega, by omega⟩

/-- The manifest of a troupe with the registers `a` to `b` added. -/
def Troupe.marked (t : Troupe) (a b : Nat) : Troupe := { t with manifest := nunion t.manifest (nspan a b) }

theorem savemark_adds (x : Ins) : Completes (.savemark x) x Use.none_
    (fun _ t _ _ => t.routine = .exit ∧ x.a ≠ 511 ∧ x.b ≠ 511 ∧ x.a.toNat ≤ x.b.toNat)
    fun s t p _ s' t' => t.OnwardOnly t' p s.now x ∧ s.SameBut s' t.id ∧
      ∀ r, r ∈ t'.manifest ↔ r ∈ t.manifest ∨ (x.a.toNat ≤ r ∧ r ≤ x.b.toNat) := by
  rintro s t p act hs hp ⟨hrout, ha, hb, hab⟩
  obtain ⟨-, ht, hpath, -⟩ := id hs
  have hmod := State.troupe?_modTroupe_same (fun v => v.marked x.a.toNat x.b.toNat)
    (State.start_troupe? p x Use.none_ ht) rfl
  obtain ⟨hfin, htroupe, hon⟩ := State.finish_onward hmod
    (show ((t.started p x Use.none_ s.now).marked x.a.toNat x.b.toNat).path? p.sel = _ from
      Troupe.started_path? hpath x Use.none_ s.now) (t.started_otherPaths p x Use.none_ s.now)
  refine ⟨_, _, ?_, htroupe, ⟨hon, fun l r => ?_⟩,
    (State.SameBut.modTroupe (f := fun v => v.marked x.a.toNat x.b.toNat) (s.start_sameBut t p x Use.none_)
      fun _ => rfl).modTroupe fun v => v.advance_id p.sel, fun r => ?_⟩
  · show execSavemark x s = _
    rw [← hfin]
    refine runEff_of_passes _ hs hp (if_neg ?_)
    rintro (h | h | h | h)
    exacts [h hrout, ha h, hb h, Nat.not_le.2 h hab]
  · exact (Troupe.reg_advance ..).trans (t.reg_started p x Use.none_ s.now l r)
  · rw [Troupe.advance_frame, ← mem_nspan, ← mem_nunion]
    rfl

/-! ### What the swap-out of an ensemble keeps of a troupe (R95, R411) -/

/-- Of a troupe its name, its paths, how its exit routine has ended, its manifest and the registers outside the extended
set are as before. -/
structure Troupe.KeptBy (t u : Troupe) : Prop where
  id : u.id = t.id
  finish : u.finish = t.finish
  paths : u.paths = t.paths
  manifest : u.manifest = t.manifest
  reg : ∀ l r, isExt r = false → u.reg l r = t.reg l r

theorem Troupe.KeptBy.refl (t : Troupe) : t.KeptBy t := ⟨rfl, rfl, rfl, rfl, fun _ _ _ => rfl⟩

theorem Troupe.KeptBy.trans {t u v : Troupe} (h : t.KeptBy u) (k : u.KeptBy v) : t.KeptBy v :=
  ⟨k.id.trans h.id, k.finish.trans h.finish, k.paths.trans h.paths, k.manifest.trans h.manifest,
    fun l r hr => (k.reg l r hr).trans (h.reg l r hr)⟩

/-- Every troupe of a state is there in the next, and kept so. -/
def State.KeepsTroupes (s s' : State) : Prop :=
  ∀ j t, s.troupe? j = some t → ∃ u, s'.troupe? j = some u ∧ t.KeptBy u

theorem State.KeepsTroupes.refl (s : State) : s.KeepsTroupes s := fun _ t h => ⟨t, h, .refl t⟩

theorem State.KeepsTroupes.trans {a b c : State} (h : a.KeepsTroupes b) (k : b.KeepsTroupes c) : a.KeepsTroupes c := by
  intro j t ht
  obtain ⟨u, hu, htu⟩ := h j t ht
  obtain ⟨v, hv, huv⟩ := k j u hu
  exact ⟨v, hv, htu.trans huv⟩

/-- Each troupe changed into one that is kept so. -/
theorem State.KeepsTroupes.of_map {s s' : State} {f : Troupe → Troupe} (hf : ∀ t : Troupe, t.KeptBy (f t))
    (h : s'.troupes = s.troupes.map f) : s.KeepsTroupes s' := by
  intro j t ht
  refine ⟨f t, ?_, hf t⟩
  rw [State.troupe?, h, find?_id_map fun v => (hf v).id]
  exact congrArg (Option.map f) ht

theorem State.KeepsTroupes.modTroupe (s : State) (id : Nat) {f : Troupe → Troupe} (hf : ∀ t : Troupe, t.KeptBy (f t)) :
    s.KeepsTroupes (s.modTroupe id f) :=
  .of_map (f := fun t => if t.id = id then f t else t)
    (fun t => by split <;> [exact hf t; exact .refl t]) rfl

theorem State.KeepsTroupes.foldl {α : Type} {f : State → α → State} (hf : ∀ (s : State) a, s.KeepsTroupes (f s a))
    (xs : List α) (s : State) : s.KeepsTroupes (xs.foldl f s) := by
  induction xs generalizing s with
  | nil => exact .refl s
  | cons a xs ih => exact (hf s a).trans (ih _)

/-- A troupe that has dropped its extended registers. -/
theorem Troupe.keptBy_withoutExt (t : Troupe) : t.KeptBy t.withoutExt :=
  ⟨rfl, rfl, rfl, rfl, fun _ _ hr => t.reg_withoutExt hr⟩

theorem State.keepsTroupes_releaseExt (s : State) (id : Nat) (keep : Bool) : s.KeepsTroupes (s.releaseExt id keep) := by
  unfold State.releaseExt
  split
  · exact .refl s
  · split
    · cases keep
      · exact .modTroupe (s.setExt _) id Troupe.keptBy_withoutExt
      · exact .modTroupe (s.setExt _) id fun t => ⟨rfl, rfl, rfl, rfl, fun _ _ _ => rfl⟩
    · exact .refl s

theorem State.keepsTroupes_freeSave (s : State) (id : Nat) : s.KeepsTroupes (s.freeSave id) := by
  have hmod : s.KeepsTroupes (s.modTroupe id fun t => { t with saveHeld := false }) :=
    .modTroupe s id fun t => ⟨rfl, rfl, rfl, rfl, fun _ _ _ => rfl⟩
  unfold State.freeSave
  split
  · exact .refl s
  · split
    · exact .refl s
    · dsimp only
      split
      · exact hmod
      · exact hmod

theorem State.keepsTroupes_retire (s : State) (ens : Nat) : s.KeepsTroupes (s.retire ens) :=
  .foldl (f := fun s id => ((s.releaseExt id false).freeSave id).modTroupe id fun t =>
      { t with futures := freeFutures t.futures })
    (fun s id => ((s.keepsTroupes_releaseExt id false).trans (State.keepsTroupes_freeSave _ id)).trans
      (.modTroupe _ id fun _ => ⟨rfl, rfl, rfl, rfl, fun _ _ _ => rfl⟩)) _ s

/-- A troupe that is swapped out: its extended registers go, unless its lanes have been kept by a forced spill. -/
def Troupe.swapped (t : Troupe) (ens : Nat) : Troupe :=
  if t.ens = ens then
    { t with lanes := if t.spilled then t.lanes else t.withoutExt.lanes }
  else t

theorem Troupe.keptBy_swapped (t : Troupe) (ens : Nat) : t.KeptBy (t.swapped ens) := by
  unfold Troupe.swapped
  split
  · split
    · exact .refl t
    · exact ⟨rfl, rfl, rfl, rfl, fun _ _ hr => t.reg_withoutExt hr⟩
  · exact .refl t

theorem State.keepsTroupes_swapOut (s : State) (ens : Nat) : s.KeepsTroupes (s.swapOut ens) := by
  unfold State.swapOut
  split
  · exact .refl s
  · dsimp only
    have hreleased := State.KeepsTroupes.foldl (f := fun s id =>
      (s.modTroupe id fun t => { t with hadExt := t.holdsExt }).releaseExt id true)
      (fun s id => (State.KeepsTroupes.modTroupe s id (f := fun t => { t with hadExt := t.holdsExt }) fun _ =>
        ⟨rfl, rfl, rfl, rfl, fun _ _ _ => rfl⟩).trans (State.keepsTroupes_releaseExt _ id true))
      ((s.troupes.filter fun t => t.ens == ens).map (·.id)) s
    generalize List.foldl _ s _ = s1 at hreleased ⊢
    have hdropped : s.KeepsTroupes { s1 with troupes := s1.troupes.map fun t => t.swapped ens } :=
      hreleased.trans (.of_map (fun t => t.keptBy_swapped ens) rfl)
    split
    · exact hdropped.trans (State.keepsTroupes_retire _ ens)
    · exact hdropped

theorem State.keepsTroupes_settleEns (s : State) (ens : Nat) : s.KeepsTroupes (s.settleEns ens) := by
  unfold State.settleEns
  split
  · exact .refl s
  · dsimp only
    split
    · split <;> [exact s.keepsTroupes_retire ens; exact .refl s]
    · split
      · exact s.keepsTroupes_retire ens
      · split <;> [exact s.keepsTroupes_swapOut ens; exact .refl s]
    · exact .refl s

/-! ### RXDONE and ENTRYDONE (R195, R196) -/

/-- A path that is the only ordinary one waits for no other. -/
theorem Troupe.othersWait_of_ordPaths {t : Troupe} {p : Path} (h : t.ordPaths = [p]) (w : Wait) :
    t.othersWait p w = true := by
  simp [Troupe.othersWait, h]

theorem Path.ordinary_of_ordPaths {t : Troupe} {p : Path} (h : t.ordPaths = [p]) : p.ordinary = true :=
  (List.mem_filter.1 (show p ∈ t.ordPaths from h.symm ▸ List.mem_singleton_self p)).2

/-- With every operation complete every counter reads 0 (R238). -/
theorem Troupe.countersZero_of_complete {t : Troupe} {now : Nat} (h : ∀ o ∈ t.ops, o.complete now = true) :
    t.countersZero now = true := by
  have hzero : ∀ c, t.counter now c = 0 := fun c => by
    have hnone : pendingOf now c t.ops = [] :=
      List.dropWhile_eq_nil_iff.2 fun o ho => h o (List.mem_filter.1 ho).1
    rw [Troupe.counter, hnone]
    exact ite_self _
  simp [Troupe.countersZero, hzero]

/-- An operation that is not complete counts. -/
theorem Troupe.countersZero_of_pending {t : Troupe} {now : Nat} {o : Op} (hrun : t.run = .running) (ho : o ∈ t.ops)
    (hc : o.cls ≠ .tr) (h : o.complete now = false) : t.countersZero now = false := by
  have hpend : pendingOf now o.cls t.ops ≠ [] := fun hnil => by
    have hall := List.dropWhile_eq_nil_iff.1 hnil o (List.mem_filter.2 ⟨ho, beq_self_eq_true o.cls⟩)
    rw [h] at hall
    cases hall
  have hpos : t.counter now o.cls ≠ 0 := by
    rw [Troupe.counter, hrun]
    exact fun hlen => hpend (List.length_eq_zero_iff.1 hlen)
  have hcls : o.cls ∈ [OpClass.ld, .st, .cp, .tm, .gt, .cl, .um] := by
    generalize o.cls = c at hc
    cases c <;> simp at hc ⊢
  exact List.all_eq_false.2 ⟨o.cls, hcls, by simpa using hpos⟩

/-- A troupe whose exit routine has ended. -/
def Troupe.exited (t : Troupe) : Troupe := { t with finish := .ended, gone := t.gone ++ t.paths, paths := [] }

theorem rxdone_ends (x : Ins) : Completes (.rxdone x) x Use.none_
    (fun s t p _ => t.routine = .exit ∧ t.ordPaths = [p] ∧ ∀ o ∈ t.ops, o.complete s.now = true)
    fun _ t _ _ _ t' => t'.finish = .ended ∧ t'.paths = [] ∧ t'.manifest = t.manifest ∧
      ∀ l r, isExt r = false → t'.reg l r = t.reg l r := by
  rintro s t p act hs hp ⟨hrout, hone, hdone⟩
  obtain ⟨-, ht, -, -⟩ := id hs
  have hended := State.troupe?_modTroupe_same Troupe.exited (State.start_troupe? p x Use.none_ ht) rfl
  obtain ⟨t', ht', hkept⟩ := State.keepsTroupes_settleEns _ t.ens _ _ hended
  refine ⟨_, t', ?_, ht', hkept.finish, hkept.paths, hkept.manifest, fun l r hr => ?_⟩
  · show execRxdone x s = _
    simp only [execRxdone, State.gate_of_passes hs hp, hrout, Path.ordinary_of_ordPaths hone,
      Troupe.countersZero_of_complete hdone, Troupe.othersWait_of_ordPaths hone]
    rfl
  · exact (hkept.reg l r hr).trans (t.reg_started p x Use.none_ s.now l r)

theorem rxdone_holds (x : Ins) (o : Op) : Completes (.rxdone x) x Use.none_
    (fun s t p _ => t.routine = .exit ∧ p.ordinary = true ∧ t.run = .running ∧ o ∈ t.ops ∧ o.cls ≠ .tr ∧
      o.complete s.now = false)
    fun s t p _ s' t' => t'.path? p.sel = some { p with wait := .retry } ∧ t.OtherPaths t' p.sel ∧ t.SameRegs t' ∧
      s.SameBut s' t.id := by
  rintro s t p act hs hp ⟨hrout, hord, hrun, ho, hcls, hpend⟩
  obtain ⟨-, ht, hpath, -⟩ := id hs
  refine ⟨_, _, ?_, State.troupe?_modTroupe_same (fun v => v.modPath p.sel fun q => { q with wait := .retry }) ht rfl,
    Troupe.path?_modPath_same _ hpath rfl, Troupe.otherPaths_modPath (fun _ _ => rfl) fun _ => rfl, fun _ _ => rfl,
    State.SameBut.modTroupe ⟨rfl, fun _ _ => rfl, fun _ => rfl⟩ fun _ => rfl⟩
  show execRxdone x s = _
  simp only [execRxdone, State.gate_of_passes hs hp, hrout, hord, Troupe.countersZero_of_pending hrun ho hcls hpend]
  rfl

/-- A troupe that has released its area. -/
def Troupe.unsaved (t : Troupe) : Troupe := { t with saveHeld := false }

theorem State.troupe?_freeSave {s : State} {id : Nat} {t : Troupe} (h : s.troupe? id = some t) :
    (s.freeSave id).troupe? id = some t.unsaved := by
  have hmod : (s.modTroupe id Troupe.unsaved).troupe? id = some t.unsaved := State.troupe?_modTroupe_same _ h rfl
  rw [State.freeSave, h]
  dsimp only
  split
  · have hfree : t.saveHeld = false := by simpa using ‹(!t.saveHeld) = true›
    rw [h, Troupe.unsaved, ← hfree]
  · split <;> exact hmod

theorem State.freeSave_ens (s : State) (id : Nat) : (s.freeSave id).ens = s.ens := by
  unfold State.freeSave
  split
  · rfl
  · split
    · rfl
    · dsimp only
      split <;> rfl

/-- A troupe whose entry routine has ended, at a clock: its ordinary path is before the header at %rsm, and one that is
parted becomes ganged there. -/
def Troupe.entered (now : Nat) (t : Troupe) : Troupe :=
  let t := { t with routine := .none }
  if t.ganged then { t with paths := t.paths.map fun p => if p.ordinary then p.goto t.rsm.toNat else p }
  else t.gangAt (slicesOf t.live) t.rsm.toNat now

theorem Troupe.entered_of_ganged {t : Troupe} (hg : t.ganged = true) (now : Nat) :
    t.entered now = { t with
      routine := .none, paths := t.paths.map fun p => if p.ordinary then p.goto t.rsm.toNat else p } :=
  if_pos hg

/-- The end of the entry routine, where no request waits for it. -/
theorem State.troupe?_endEntry {s : State} {t u : Troupe} (hu : s.troupe? t.id = some u) (hg : u.ganged = true)
    (hpend : ∀ e, s.ens? t.ens = some e → e.pending = false) :
    ∃ now, (s.endEntry t).troupe? t.id = some (u.unsaved.entered now) := by
  have hfree := State.troupe?_freeSave (s := s.countCore t.die t.core 0x11 t.shortRestore) (id := t.id) hu
  generalize hs1 : (s.countCore t.die t.core 0x11 t.shortRestore).freeSave t.id = s1 at hfree
  have hens : (s1.modTroupe t.id (Troupe.entered s1.now)).ens? t.ens = s.ens? t.ens := by
    rw [State.ens?, State.ens?, ← show s1.ens = s.ens from hs1 ▸ State.freeSave_ens ..]
    rfl
  have hend : s.endEntry t = s1.modTroupe t.id (Troupe.entered s1.now) := by
    subst hs1
    unfold State.endEntry
    dsimp only
    split
    · rw [hpend _ (hens.symm.trans ‹_›)]
      rfl
    · rfl
  rw [hend]
  exact ⟨s1.now, State.troupe?_modTroupe_same _ hfree (by rw [Troupe.entered_of_ganged (t := u.unsaved) hg])⟩

theorem entrydone_ends (x : Ins) : Completes (.entrydone x) x Use.none_
    (fun s t p _ => t.routine = .entry ∧ p.ordinary = true ∧ t.ganged = true ∧ t.ordPaths = [p] ∧
      ∀ e, s.ens? t.ens = some e → e.pending = false)
    fun _ t p _ _ t' => t'.routine = .none ∧ t'.saveHeld = false ∧ t.SameRegs t' ∧ ∃ q ∈ t'.path? p.sel,
      q.pc = t.rsm.toNat ∧ q.blk = none ∧ q.slices = p.slices := by
  rintro s t p act hs hp ⟨hrout, hord, hg, hone, hpend⟩
  obtain ⟨-, ht, hpath, -⟩ := id hs
  obtain ⟨now, ht'⟩ := State.troupe?_endEntry (State.start_troupe? p x Use.none_ ht)
    (show (t.started p x Use.none_ s.now).ganged = true from hg) (by
      rw [(s.start_same t p x Use.none_).1]
      exact hpend)
  rw [Troupe.entered_of_ganged (t := (t.started p x Use.none_ s.now).unsaved) hg] at ht'
  refine ⟨_, _, ?_, ht', rfl, rfl, fun l r => t.reg_started p x Use.none_ s.now l r,
    (p.issued s.now x).goto t.rsm.toNat, ?_, rfl, rfl, rfl⟩
  · show execEntrydone x s = _
    simp only [execEntrydone, State.gate_of_passes hs hp, hrout, hord, Troupe.othersWait_of_ordPaths hone]
    rfl
  · refine (find?_sel_map (fun v => by split <;> rfl) p.sel).trans ?_
    rw [show (t.started p x Use.none_ s.now).unsaved.paths.find? _ = _ from Troupe.started_path? hpath x Use.none_ s.now,
      Option.map_some, if_pos (show (p.issued s.now x).ordinary = true from hord)]
    rfl

/-- Settles O41, clause by clause: a call waits and its answer goes on, the manifest grows by a span, the end of the exit
routine rests on what a swap-out keeps of a troupe, and that of the entry routine moves its one path. -/
theorem serviceCallsAndRoutineEnds : Obligations.ServiceCallsAndRoutineEnds :=
  ⟨fwcall_waits, fun _ _ _ _ _ _ _ _ _ ht hp hw hr hl => fwcallAnswer_answers ht hp hw hr hl, savemark_adds,
    rxdone_ends, rxdone_holds, entrydone_ends⟩

end Sys2Proof.Machine

namespace Sys2Proof.Machine.Placed

/-! ### A clock in which a troupe halts -/

/-- A handler path of slice 0 at a word that goes to no port. -/
def trapPath : Path := { placedPath with sel := .handler 0, slices := 1, ibuf := some 0 }

/-- Its troupe, whose lanes are enabled and were not at the end of the last clock. -/
def trapTroupe : Troupe :=
  let t := placedTroupe [trapPath] 0 4
  { t with slices := lmod (fun x => { x with st := .inHandler, fmask := 0xF }) t.slices 0, prevEnable := 0 }

/-- The placed state at the start of a clock. -/
def tickState : State := { placedState (.handler 0) trapTroupe with agenda := [.tick] }

theorem tick_ready : tickState.fw.frozen = false ∧ tickState.fw.resetDue = false ∧
    (∀ e ∈ tickState.ens, e.st ≠ .preempting) ∧ tickState.troupe? trapTroupe.id = some trapTroupe ∧
    trapTroupe.run = .running ∧ tickState.onCores trapTroupe = true ∧ trapTroupe.enable = 0xFFFFFFFF := by decide +kernel

/-- The word's fault in a handler path halts the troupe, and its mask of the previous clock stands. -/
theorem tick_halts : shown (step tickState) (·.prevEnable) = some 0 := by decide +kernel

/-- Refutes O35: in a clock a handler path that stands at a word of no port takes the word's fault, and the troupe halts
before the mask is kept. The last clause would need that the troupe is still running after the clock. -/
theorem not_enableMask : ¬ Obligations.EnableMask := by
  rintro ⟨-, -, -, htick⟩
  obtain ⟨hfrozen, hreset, hens, ht, hrun, hcores, hfull⟩ := tick_ready
  obtain ⟨s', hstep, hkeeps⟩ := htick tickState [] rfl hfrozen hreset hens
  obtain ⟨t', ht', hprev, -⟩ := hkeeps trapTroupe ht hrun hcores
  have hzero := shown_next tick_halts hstep ht'
  rw [hprev, hfull] at hzero
  exact absurd hzero (by decide)

/-! ### IPF of a line of code that is to leave its slice -/

/-- The line of the placed word in its home slice, with a byte written and to be written back once the device has been
answered for it (R370). -/
def onceLine : L2Line :=
  let s := placedState (.ord 0) (placedTroupe [placedPath] 0 4)
  { s.fresh? (wordPage / 128) false .e with
    data := (s.pool.cut wordPage 128).put 0 1, dirty := [0], once := some .device }

/-- The placed state with that line, where every page has been walked. -/
def onceState : State :=
  { (placedState (.ord 0) (placedTroupe [placedPath] 0 4)).putLine 0 (wordPage / 128) onceLine with
    subs := (placedState (.ord 0) (placedTroupe [placedPath] 0 4)).subs.map fun u =>
      { u with pages := u.pages.map fun e => (e.1, { e.2 with walked := 1 }) } }

/-- IPF of its own block. -/
def ipfWord : Ins := Ins.plain .f10 0 0 0

theorem ipf_issues : onceState.Issues (placedTroupe [placedPath] 0 4) placedPath ∧
    Passes (placedTroupe [placedPath] 0 4) placedPath ipfWord { Use.none_ with un := [], first := true } 0xFFFFFFFF ∧
    onceState.pool.byte wordPage = 0 := by decide +kernel

/-- The prefetch asks for the line as the device, and the line leaves the slice into the pool. -/
theorem ipf_writesBack : (match exec (.ipf ipfWord) onceState with
    | .next s => some (s.pool.byte wordPage)
    | _ => none) = some 1 := by decide +kernel

/-- Refutes O34: the prefetch is answered as an access of the device, and a line that its slice keeps for one answer to
the device alone is written back then. The second clause would need that no line is kept so. -/
theorem not_prefetchYieldNopSleep : ¬ Obligations.PrefetchYieldNopSleep := by
  rintro ⟨-, hipf, -⟩
  obtain ⟨hiss, hpass, hzero⟩ := ipf_issues
  obtain ⟨s', t', hex, -, -, hpool, -⟩ := hipf ipfWord onceState _ placedPath 0xFFFFFFFF hiss hpass trivial
  have hone := ipf_writesBack
  rw [hex] at hone
  have hone : s'.pool.byte wordPage = 1 := Option.some.inj hone
  rw [show s'.pool = onceState.pool from hpool, hzero] at hone
  exact absurd hone (by decide)

/-! ### HALT in an ensemble that stops with it -/

/-- A troupe that holds the extended set: v192 of lane 0 holds 1. -/
def lateTroupe : Troupe := { placedTroupe [placedPath] 0 192 with holdsExt := true }

/-- A troupe of the same ensemble that has ended its exit routine. -/
def doneTroupe : Troupe := { placedTroupe [] 0 192 with id := 9, finish := .ended }

/-- The placed state in which the late troupe issues. Its ensemble is Pre-empting and waits for it alone. -/
def haltState : State :=
  { placedState (.ord 0) lateTroupe with
    troupes := [lateTroupe, doneTroupe]
    ens := (placedState (.ord 0) lateTroupe).ens.map fun e => { e with st := .preempting } }

/-- HALT without guard. -/
def haltWord : Ins := Ins.plain .f01 0 0 0

theorem halt_issues : haltState.Issues lateTroupe placedPath ∧
    Passes lateTroupe placedPath haltWord Use.none_ 0xFFFFFFFF ∧ lateTroupe.reg 0 192 = 1 := by decide +kernel

/-- The ensemble is swapped out, and the extended registers of its troupes go with it. -/
theorem halt_swapsOut : shown (exec (.halt haltWord) haltState) (fun t => t.reg 0 192) = some 0 := by decide +kernel

/-- Refutes O40: where every other troupe of a Pre-empting ensemble has ended, the HALT of the last one completes the
pre-emption, and the extended registers of the halted troupe are dropped with the set, where the statement has every
register unchanged. The last clause would need that the ensemble is not Pre-empting, or to speak of the registers
outside the extended set. -/
theorem not_handlersReturnAndHalt : ¬ Obligations.HandlersReturnAndHalt := by
  rintro ⟨-, -, -, -, hhalt⟩
  obtain ⟨hiss, hpass, hone⟩ := halt_issues
  obtain ⟨s', t', hex, ht', -, -, -, hregs, -⟩ := hhalt haltWord haltState lateTroupe placedPath 0xFFFFFFFF hiss hpass
    trivial
  have hzero := shown_next halt_swapsOut hex ht'
  rw [hregs 0 192, hone] at hzero
  exact absurd hzero (by decide)

/-! ### BAR with a second arrival on record -/

/-- The troupe that is to arrive. -/
def barTroupe : Troupe := placedTroupe [placedPath] 0 4

/-- Another participant. It has arrived at each barrier of the ensemble for phase 1, which has not passed yet, for the phase
after, and once more. -/
def earlyTroupe : Troupe := { placedTroupe [] 0 4 with id := 9 }

/-- A barrier as it stands then: phase 0 has passed since, and the last arrival is kept as a second one for phase 1. -/
def doubled (b : Barrier) : Barrier := { b with phase := 1, arrived := [9], twice := [(9, 1)] }

/-- The placed state with both participants. -/
def barState : State :=
  let s := placedState (.ord 0) barTroupe
  { s with troupes := [barTroupe, earlyTroupe]
           ens := s.ens.map fun e => { e with bars := e.bars.map doubled } }

/-- BAR at barrier 8, the first of the ensemble, with its status in v4. -/
def barWord : Ins := Ins.plain .f10 4 0 8

theorem bar_issues : barState.Issues barTroupe placedPath ∧
    Passes barTroupe placedPath barWord (Use.lanes [(4, 1)] []) 0xFFFFFFFF := by decide +kernel

/-- What an outcome shows of the first barrier of the placed word's ensemble. -/
def shownBar {α : Type} (o : Host.Outcome State Fault Refusal) (f : Barrier → α) : Option α :=
  match o with
  | .next s => (s.ens? barTroupe.ens).map fun e => f (e.bar 0 8)
  | _ => none

/-- The release drops the second arrival with the others. -/
theorem bar_releases : shownBar (exec (.bar barWord) barState) (·.twice) = some [] := by decide +kernel

/-- Their ensemble. -/
def barEns : Ensemble := (barState.ens? barTroupe.ens).get (by decide +kernel)

theorem ens?_barState : barState.ens? barTroupe.ens = some barEns := (Option.some_get _).symm

/-- It takes an arrival at barrier 8, where the other participant has arrived. -/
theorem bar_ready : (0 < barEns.sections.length ∧ (∀ c ∈ barEns.sections, c.bars.length = 8) ∧ barEns.bars.length = 8 ∧
    (barEns.bar 0 8).held = [] ∧ (barEns.bar 0 8).partial_ = []) ∧
    barEns.st ≠ .preempting ∧ (barEns.bar 0 8).abandoned = false ∧ 1 ∉ (barEns.bar 0 8).arrived ∧
    (∀ u ∈ barState.troupes, u.id = 1 ∨ u.id ∈ (barEns.bar 0 8).arrived) ∧ (barEns.bar 0 8).twice = [(9, 1)] := by
  decide +kernel

/-- Refutes O36: a release takes the arrivals that are kept for the phase that passes out of `twice` too, where the
statement has the barrier changed in its phase and its arrivals alone. The third clause would need to leave `twice`
free. -/
theorem not_barriers : ¬ Obligations.Barriers := by
  rintro ⟨-, -, hbar, -⟩
  obtain ⟨hiss, hpass⟩ := bar_issues
  obtain ⟨hready, hst, hab, hout, hothers, htwice⟩ := bar_ready
  obtain ⟨s', t', hex, -, e', he', -, hb, -⟩ := hbar barWord barEns barState barTroupe placedPath 0xFFFFFFFF hiss hpass
    ⟨⟨by decide, rfl, rfl, rfl, by unfold Troupe.NoBarWait; decide, ens?_barState, hready⟩, hst, hab, hout,
      fun u hu _ _ _ => hothers u hu⟩
  have hkept : shownBar (exec (.bar barWord) barState) (·.twice) = some [(9, 1)] := by
    rw [hex, shownBar, he', Option.map_some, show e'.bar 0 8 = _ from hb]
    exact congrArg some htwice
  exact absurd (bar_releases.symm.trans hkept) (by decide)

end Sys2Proof.Machine.Placed

namespace Sys2Proof.Machine

/-! ### Instructions whose lanes each write a value of their own registers -/

/-- An instruction whose lanes each write `f` of their registers, where that is what the statement names. -/
theorem laneResults_of_eq {i : Instr} {x : Ins} {u : Use} {f res : (Nat → Word) → List (Nat × Word)}
    (h : ∀ rd, f rd = res rd) (hi : ∀ s, exec i s = runLanes x u s f) : LaneResults i x u res :=
  laneResults_of_runLanes fun s => (hi s).trans (congrArg (runLanes x u s) (funext h))

/-! ### Words by their values -/

/-- A field of a word, as a number. -/
theorem toNat_field {w : Nat} (v : BitVec w) (k n : Nat) : (v.extractLsb' k n).toNat = v.toNat / 2 ^ k % 2 ^ n := by
  rw [BitVec.extractLsb'_toNat, Nat.shiftRight_eq_div_pow]

/-- Byte `k` of a word, as a number. -/
theorem toNat_byte (v : Word) (k : Nat) : (v.extractLsb' (8 * k) 8).toNat = v.toNat / 256 ^ k % 256 := by
  rw [toNat_field, pow_mul]
  rfl

/-- A product with a power of two is a shift, whatever leaves the word at its top. -/
theorem ofNat_mul_two_pow (w a n : Nat) : BitVec.ofNat w (a * 2 ^ n) = BitVec.ofNat w a <<< n :=
  BitVec.eq_of_toNat_eq (by simp [Nat.shiftLeft_eq])

theorem ofNat_toNat_mul_two_pow {w : Nat} (v : BitVec w) (n : Nat) : BitVec.ofNat w (v.toNat * 2 ^ n) = v <<< n := by
  rw [ofNat_mul_two_pow, BitVec.ofNat_toNat, BitVec.setWidth_eq]

/-- Bit 0 of a word, as a number. -/
theorem toNat_and_one (v : Word) : (v &&& 1).toNat = v.toNat % 2 := by
  rw [BitVec.toNat_and]
  exact Nat.and_one_is_mod _

theorem sum_map_range_four {α : Type} [AddMonoid α] (f : Nat → α) :
    ((List.range 4).map f).sum = f 0 + f 1 + f 2 + f 3 := by
  show f 0 + (f 1 + (f 2 + (f 3 + 0))) = _
  simp only [add_zero, add_assoc]

/-- What a type delivers unsaturated is the exact result in as many bits (R206). -/
theorem ofNat_deliver (ty : Ty) (y : Int) : BitVec.ofNat ty.width (ty.deliver false y) = BitVec.ofInt ty.width y := by
  have hlt : ty.deliver false y < 2 ^ ty.width := by
    have hpos : (0 : Int) < ((2 ^ ty.width : Nat) : Int) := by positivity
    have hmod := Int.emod_lt_of_pos y hpos
    have hnonneg := Int.emod_nonneg y hpos.ne'
    show (y % ((2 ^ ty.width : Nat) : Int)).toNat < _
    omega
  refine BitVec.eq_of_toNat_eq ?_
  rw [BitVec.toNat_ofNat, BitVec.toNat_ofInt, Nat.mod_eq_of_lt hlt]
  rfl


/-! ### Integer arithmetic and bitwise results (R206) -/

/-- A source at 32 or 64 bits has no more bits than its type. -/
theorem rdTy_lt {ty : Ty} (h : ty ∈ [Ty.b32, .b64]) (rd : Nat → Word) (r : BitVec 9) : rdTy ty rd r < 2 ^ ty.width := by
  simp only [List.mem_cons, List.not_mem_nil, or_false] at h
  rcases h with rfl | rfl
  · exact (rd r.toNat).isLt
  · exact (rdPair rd r).isLt

theorem srcTy_lt {ty : Ty} (h : ty ∈ [Ty.b32, .b64]) (x : Ins) (rd : Nat → Word) : srcTy ty x rd < 2 ^ ty.width := by
  unfold srcTy
  split
  · exact rdTy_lt h rd x.b
  · simp only [List.mem_cons, List.not_mem_nil, or_false] at h
    rcases h with rfl | rfl
    · exact x.imm.isLt
    · exact (imm64s x).isLt

/-- Every bit of a value inverted. -/
theorem xor_ones (ty : Ty) {v : Nat} (hv : v < 2 ^ ty.width) : v ^^^ ty.ones = 2 ^ ty.width - 1 - v := by
  have hnot := congrArg BitVec.toNat (BitVec.xor_allOnes (x := BitVec.ofNat ty.width v))
  rwa [BitVec.toNat_xor, BitVec.toNat_not, BitVec.toNat_ofNat, Nat.mod_eq_of_lt hv, BitVec.toNat_allOnes] at hnot

/-- The upper half of a product of 32-bit integers. -/
theorem ofNat_deliver_mul_div {ty : Ty} (h : ty.width = 32) (y : Int) :
    BitVec.ofNat 32 (ty.deliver false (y / 2 ^ 32)) = (BitVec.ofInt 64 y).extractLsb' 32 32 := by
  rw [← h, ofNat_deliver, h]
  refine BitVec.eq_of_toNat_eq ?_
  rw [toNat_field, BitVec.toNat_ofInt, BitVec.toNat_ofInt]
  omega

/-- What IMULHI writes. -/
theorem wrTy_imulhi {ty : Ty} (h : ty ∈ [Ty.s32, .n32]) (x : Ins) (rd : Nat → Word) :
    wrTy ty x.d (intOp2 ty false (fun a b => a * b / 2 ^ 32) (rdTy ty rd x.a) (srcTy ty x rd)) =
      wr1 x.d ((BitVec.ofInt 64 (ty.toInt (rd x.a.toNat).toNat * ty.toInt (srcB x rd).toNat)).extractLsb' 32 32) := by
  obtain ⟨hwidth, hpacked⟩ : ty.width = 32 ∧ ty.packed = false := by revert ty; decide
  have hsrc : srcTy ty x rd = (srcB x rd).toNat := by
    simp only [srcTy, rdTy, srcB, hwidth]
    split <;> rfl
  rw [← ofNat_deliver_mul_div hwidth]
  simp only [wrTy, rdTy, intOp2, hsrc, hwidth, hpacked, Bool.false_eq_true, if_false, Nat.reduceEqDiff]

theorem natAbs_eq_ite (a : Int) : (a.natAbs : Int) = if a < 0 then -a else a := by
  split <;> omega

/-- Sum and carry of IADDC. -/
theorem addCarry_eq (a b c : Word) : addCarry a b c =
    (BitVec.ofNat 32 ((a.toNat + b.toNat + (c &&& 1).toNat) % 2 ^ 32),
      BitVec.ofNat 32 ((a.toNat + b.toNat + (c &&& 1).toNat) / 2 ^ 32)) := by
  rw [toNat_and_one]
  exact Prod.ext (BitVec.eq_of_toNat_eq (by simp [addCarry])) rfl

/-- Difference and borrow of ISUBB. -/
theorem subBorrow_eq (a b c : Word) : subBorrow a b c =
    (a - b - (c &&& 1), if a.toNat < b.toNat + (c &&& 1).toNat then 1 else 0) := by
  have hbit := toNat_and_one c
  refine Prod.ext (BitVec.eq_of_toNat_eq ?_) ?_
  · simp only [subBorrow, BitVec.toNat_ofInt, BitVec.toNat_sub, hbit]
    omega
  · simp only [subBorrow, flag, hbit, decide_eq_true_eq]
    exact if_congr (by omega) rfl rfl

/-- The sum of products of DOT4, byte by byte. -/
theorem dot4Sum_eq (ty : Ty) (a b c : Word) : dot4Sum ty a b c =
    (if ty = .s8 then Ty.s32 else .n32).toInt c.toNat +
      (ty.toInt (a.extractLsb' (8 * 0) 8).toNat * ty.toInt (b.extractLsb' (8 * 0) 8).toNat +
        ty.toInt (a.extractLsb' (8 * 1) 8).toNat * ty.toInt (b.extractLsb' (8 * 1) 8).toNat +
        ty.toInt (a.extractLsb' (8 * 2) 8).toNat * ty.toInt (b.extractLsb' (8 * 2) 8).toNat +
        ty.toInt (a.extractLsb' (8 * 3) 8).toNat * ty.toInt (b.extractLsb' (8 * 3) 8).toNat) := by
  rw [dot4Sum, sum_map_range_four]
  simp only [toNat_byte]

/-! ### Bits counted and reversed (R206) -/

theorem popcount_eq (v n : Nat) : popcount v n = (List.range n).countP fun k => v.testBit k := by
  induction n generalizing v with
  | zero => rfl
  | succ n ih =>
    rw [List.range_succ_eq_map, List.countP_cons, List.countP_map, popcount, ih]
    have hbit : v % 2 = if v.testBit 0 = true then 1 else 0 := by
      rw [Nat.testBit_zero]
      by_cases h : v % 2 = 1 <;> simp [h]; omega
    rw [hbit, Nat.add_comm]
    congr 1
    refine List.countP_congr fun k _ => ?_
    rw [Function.comp_apply, Nat.succ_eq_add_one, Nat.testBit_succ]

theorem trailing_eq (v n : Nat) : trailing v n = ((List.range n).takeWhile fun k => !v.testBit k).length := by
  induction n generalizing v with
  | zero => rfl
  | succ n ih =>
    have hrest : (fun k => !v.testBit k) ∘ Nat.succ = fun k => !(v / 2).testBit k :=
      funext fun k => by rw [Function.comp_apply, Nat.succ_eq_add_one, Nat.testBit_succ]
    rw [List.range_succ_eq_map, List.takeWhile_cons, List.takeWhile_map, trailing, hrest, ih]
    by_cases h : v % 2 = 1 <;> simp [h, Nat.testBit_zero]

/-- The numbers from 0 that come before the first one at which `p` fails. -/
theorem length_takeWhile_range {p : Nat → Bool} {n m : Nat} (hm : m ≤ n) (hp : ∀ k < m, p k = true)
    (hstop : m < n → p m = false) : ((List.range n).takeWhile p).length = m := by
  obtain ⟨d, rfl⟩ := Nat.exists_eq_add_of_le hm
  rw [List.range_add, List.takeWhile_append_of_pos fun k hk => hp k (List.mem_range.1 hk), List.length_append,
    List.length_range]
  cases d with
  | zero => rfl
  | succ d => simp [List.range_succ_eq_map, hstop]

theorem leading_eq {v n : Nat} (hv : v < 2 ^ n) : (if v = 0 then n else n - 1 - Nat.log2 v) =
    ((List.range n).takeWhile fun k => !v.testBit (n - 1 - k)).length := by
  by_cases h : v = 0
  · rw [if_pos h, length_takeWhile_range le_rfl] <;> simp [h]
  · have hlog : Nat.log2 v < n := (Nat.log2_lt h).2 hv
    rw [if_neg h, length_takeWhile_range (m := n - 1 - Nat.log2 v) (by omega)]
    · intro k hk
      rw [Nat.testBit_lt_two_pow ((Nat.log2_lt h).1 (by omega)), Bool.not_false]
    · intro _
      rw [show n - 1 - (n - 1 - Nat.log2 v) = Nat.log2 v by omega, Nat.testBit_log2 h, Bool.not_true]

theorem reverseBits_lt (v n : Nat) : reverseBits v n < 2 ^ n := by
  induction n generalizing v with
  | zero => exact Nat.one_pos
  | succ n ih =>
    have hrest := ih (v / 2)
    rcases Nat.mod_two_eq_zero_or_one v with h | h <;> rw [reverseBits, h, pow_succ] <;> omega

theorem testBit_reverseBits (v n k : Nat) : (reverseBits v n).testBit k = (decide (k < n) && v.testBit (n - 1 - k)) := by
  induction n generalizing v with
  | zero => simp [reverseBits]
  | succ n ih =>
    rw [reverseBits, Nat.mul_comm, Nat.testBit_two_pow_mul_add _ (reverseBits_lt _ n)]
    split
    · next h =>
      rw [ih, show n + 1 - 1 - k = n - 1 - k + 1 by omega, Nat.testBit_succ]
      simp [h, Nat.lt_succ_of_lt h]
    · next h =>
      rcases Nat.eq_or_lt_of_le (Nat.le_of_not_lt h) with rfl | hlt
      · simp [Nat.testBit_zero]
      · have hsmall : v % 2 < 2 ^ (k - n) := (Nat.mod_lt v two_pos).trans_le (Nat.le_self_pow (by omega) 2)
        rw [Nat.testBit_lt_two_pow hsmall, decide_eq_false (by omega), Bool.false_and]

/-- The bits of a word in reverse order. -/
theorem ofNat_reverseBits {w : Nat} (v : BitVec w) : BitVec.ofNat w (reverseBits v.toNat w) = v.reverse := by
  refine BitVec.eq_of_getLsbD_eq fun k hk => ?_
  rw [BitVec.getLsbD_ofNat, testBit_reverseBits, BitVec.getLsbD_reverse, BitVec.getMsbD]
  simp [hk, BitVec.getLsbD]

theorem wrTy_of_width {ty : Ty} (h : ty.width = 64) (d : BitVec 9) (v : Nat) :
    wrTy ty d v = wr2 d (BitVec.ofNat 64 v) :=
  if_pos h

theorem rdTy_of_width {ty : Ty} (h : ty.width = 64) (rd : Nat → Word) (r : BitVec 9) :
    rdTy ty rd r = (rdPair rd r).toNat :=
  if_pos h

theorem wrTy_reverseBits_pair {ty : Ty} (h : ty.width = 64) (d : BitVec 9) (rd : Nat → Word) (r : BitVec 9) :
    wrTy ty d (reverseBits (rdTy ty rd r) ty.width) = wr2 d (rdPair rd r).reverse := by
  rw [wrTy_of_width h, rdTy_of_width h, h, ofNat_reverseBits]

end Sys2Proof.Machine

namespace Sys2Proof.Machine

/-- What a comparison writes (R206). -/
theorem flag_holds (rel : Rel) (a b : Int) : flag (Rel.holds rel a b) = if (match rel with
    | .eq => decide (a = b) | .ne => decide (a ≠ b) | .lt => decide (a < b) | .le => decide (a ≤ b)
    | .gt => decide (a > b) | .ge => decide (a ≥ b)) = true then 1 else 0 := by
  cases rel <;> simp [Rel.holds, flag]

/-- Settles O9. Each instruction writes in its lanes what the model computes from their registers; where the statement
says that in other words, the lemma named in the clause equates the two. -/
theorem integerArithmetic : Obligations.IntegerArithmetic := by
  -- IADD, ISUB, IMUL, IMIN, IMAX and IMAD
  refine ⟨fun _ _ _ => laneResults_of_runLanes fun _ => rfl, fun _ _ _ => laneResults_of_runLanes fun _ => rfl,
    fun _ _ _ => laneResults_of_runLanes fun _ => rfl, fun _ _ => laneResults_of_runLanes fun _ => rfl,
    fun _ _ => laneResults_of_runLanes fun _ => rfl, fun _ _ _ => laneResults_of_runLanes fun _ => rfl,
    -- IABS, INEG, ISAD, DOT4 and IMULHI
    fun x ty sat => laneResults_of_eq
      (fun _ => congrArg (fun y => wrTy ty x.d (ty.deliver sat y)) (natAbs_eq_ite _)) fun _ => rfl,
    fun x ty sat => laneResults_of_eq
      (fun _ => congrArg (fun y => wrTy ty x.d (ty.deliver sat y)) (Int.zero_sub _).symm) fun _ => rfl,
    fun x ty sat => laneResults_of_eq
      (fun rd => congrArg (fun y => wrTy ty x.d (ty.deliver sat (y + ty.toInt (rdTy ty rd x.c))))
        (Int.abs_eq_natAbs _).symm) fun _ => rfl,
    fun x ty sat => laneResults_of_eq
      (fun rd => congrArg (fun y => wr1 x.d (BitVec.ofNat 32 ((if ty = .s8 then Ty.s32 else .n32).deliver sat y)))
        (dot4Sum_eq ty (rd x.a.toNat) (rd x.b.toNat) (rd x.c.toNat))) fun _ => rfl,
    fun x ty hty => laneResults_of_eq (fun rd => wrTy_imulhi hty x rd) fun _ => rfl,
    -- IADDC and ISUBB
    fun x _ => laneResults_of_eq (fun rd => congrArg (fun r => wr2 x.d (r.2 ++ r.1))
      (addCarry_eq (rd x.a.toNat) (rd x.b.toNat) (rd x.c.toNat))) fun _ => rfl,
    fun x _ => laneResults_of_eq (fun rd => congrArg (fun r => wr2 x.d (r.2 ++ r.1))
      (subBorrow_eq (rd x.a.toNat) (rd x.b.toNat) (rd x.c.toNat))) fun _ => rfl,
    -- AND, OR, XOR, ANDN and NOT
    fun _ _ => laneResults_of_runLanes fun _ => rfl, fun _ _ => laneResults_of_runLanes fun _ => rfl,
    fun _ _ => laneResults_of_runLanes fun _ => rfl,
    fun x ty hty => laneResults_of_eq (fun rd => congrArg (fun v => wrTy ty x.d (rdTy ty rd x.a &&& v))
      (xor_ones ty (srcTy_lt hty x rd))) fun _ => rfl,
    fun x ty hty => laneResults_of_eq (fun rd => congrArg (wrTy ty x.d) (xor_ones ty (rdTy_lt hty rd x.a))) fun _ => rfl,
    -- POPC, CLZ, CTZ and BREV
    fun x _ _ => laneResults_of_eq (fun _ => congrArg (fun n => wr1 x.d (BitVec.ofNat 32 n)) (popcount_eq _ _))
      fun _ => rfl,
    fun x _ hty => laneResults_of_eq
      (fun rd => congrArg (fun n => wr1 x.d (BitVec.ofNat 32 n)) (leading_eq (rdTy_lt hty rd x.a))) fun _ => rfl,
    fun x _ _ => laneResults_of_eq (fun _ => congrArg (fun n => wr1 x.d (BitVec.ofNat 32 n)) (trailing_eq _ _))
      fun _ => rfl,
    fun x => laneResults_of_eq (fun _ => congrArg (wr1 x.d) (ofNat_reverseBits _)) fun _ => rfl,
    fun x => laneResults_of_eq (fun rd => wrTy_reverseBits_pair (ty := .b64) rfl x.d rd x.a) fun _ => rfl,
    -- ICMP, SEL, MOV, MOVI and MOVIW
    fun x _ rel => laneResults_of_eq (fun _ => congrArg (wr1 x.d) (flag_holds rel _ _)) fun _ => rfl,
    fun _ _ => laneResults_of_runLanes fun _ => rfl, fun _ _ => laneResults_of_runLanes fun _ => rfl,
    fun _ => laneResults_of_runLanes fun _ => rfl, fun _ => laneResults_of_runLanes fun _ => rfl,
    fun _ => laneResults_of_runLanes fun _ => rfl⟩

end Sys2Proof.Machine

namespace Sys2Proof.Machine

/-! ### Shifts, rotations and bit fields (R207) -/

theorem ofNat_shl {w : Nat} (v : BitVec w) (n : Nat) :
    BitVec.ofNat w (if w ≤ n then 0 else v.toNat * 2 ^ n % 2 ^ w) = v <<< n := by
  split
  · next h => exact (BitVec.shiftLeft_eq_zero h).symm
  · exact BitVec.eq_of_toNat_eq (by simp [Nat.shiftLeft_eq])

theorem ofNat_shrl {w : Nat} (v : BitVec w) (n : Nat) :
    BitVec.ofNat w (if w ≤ n then 0 else v.toNat / 2 ^ n) = v >>> n := by
  split
  · next h => exact (BitVec.ushiftRight_eq_zero h).symm
  · refine BitVec.eq_of_toNat_eq ?_
    rw [BitVec.toNat_ofNat, BitVec.toNat_ushiftRight, Nat.shiftRight_eq_div_pow,
      Nat.mod_eq_of_lt ((Nat.div_le_self _ _).trans_lt v.isLt)]

/-- Two's complement by the top bit. -/
theorem toInt_eq_ite {n : Nat} (hn : 0 < n) (v : BitVec n) :
    v.toInt = if 2 ^ (n - 1) ≤ v.toNat then (v.toNat : Int) - 2 ^ n else v.toNat := by
  have hpow : 2 ^ n = 2 * 2 ^ (n - 1) := by rw [← pow_succ', Nat.sub_add_cancel hn]
  rw [BitVec.toInt_eq_toNat_cond]
  by_cases hneg : 2 ^ (n - 1) ≤ v.toNat
  · rw [if_pos hneg, if_neg (by omega), Nat.cast_pow, Nat.cast_ofNat]
  · rw [if_neg hneg, if_pos (by omega)]

/-- A signed type reads a word as its two's complement. -/
theorem toInt_toNat {ty : Ty} (h : ty.signed = true) (v : BitVec ty.width) : ty.toInt v.toNat = v.toInt := by
  have hpos : 0 < ty.width := by cases ty <;> decide
  rw [toInt_eq_ite hpos]
  simp only [Ty.toInt, h, Bool.true_and, decide_eq_true_eq, Nat.mod_eq_of_lt v.isLt]

/-- A value within a divisor of 0, divided by it. -/
theorem ediv_of_small {a d : Int} (hl : -d ≤ a) (hu : a < d) : a / d = if a < 0 then -1 else 0 := by
  split
  · have hd : d ≠ 0 := by omega
    have hup : (a + 1 * d) / d = 0 := Int.ediv_eq_zero_of_lt (by omega) (by omega)
    rw [Int.add_mul_ediv_right _ _ hd] at hup
    omega
  · exact Int.ediv_eq_zero_of_lt (by omega) hu

/-- A shift by more than the width fills the word with its sign as a shift by the width does. -/
theorem shiftRight_toInt {w : Nat} (v : BitVec w) (n : Nat) : v.toInt / 2 ^ min n w = v.toInt >>> n := by
  rw [Int.shiftRight_eq_div_pow, Nat.cast_pow, Nat.cast_ofNat]
  rcases le_total n w with h | h
  · rw [min_eq_left h]
  · have hlow := v.le_two_mul_toInt
    have hhigh := v.two_mul_toInt_lt
    have hpow : (2 : Int) ^ w ≤ 2 ^ n := pow_le_pow_right₀ one_le_two h
    have hpos : (0 : Int) < 2 ^ w := by positivity
    rw [min_eq_right h, ediv_of_small (by omega) (by omega), ediv_of_small (by omega) (by omega)]

theorem ofNat_shra {ty : Ty} (h : ty.signed = true) (v : BitVec ty.width) (n : Nat) :
    BitVec.ofNat ty.width (ty.deliver false (ty.toInt v.toNat / 2 ^ min n ty.width)) = v.sshiftRight n := by
  rw [ofNat_deliver, toInt_toNat h, shiftRight_toInt]
  rfl

theorem ofNat_rotl {w : Nat} (hw : 0 < w) (v : BitVec w) (n : Nat) :
    BitVec.ofNat w (v.toNat * 2 ^ (n % w) % 2 ^ w + v.toNat / 2 ^ (w - n % w)) = v.rotateLeft n := by
  have hk := Nat.mod_lt n hw
  generalize hkn : n % w = k at hk
  have hsplit : 2 ^ w = 2 ^ (w - k) * 2 ^ k := by rw [← pow_add, Nat.sub_add_cancel hk.le]
  have hlow : v.toNat / 2 ^ (w - k) < 2 ^ k := Nat.div_lt_of_lt_mul (hsplit ▸ v.isLt)
  have hhigh : v.toNat * 2 ^ k % 2 ^ w = (v.toNat % 2 ^ (w - k)) <<< k := by
    rw [hsplit, Nat.mul_mod_mul_right, Nat.shiftLeft_eq]
  refine BitVec.eq_of_toNat_eq ?_
  rw [BitVec.toNat_rotateLeft, hkn, Nat.shiftLeft_eq, hhigh, Nat.shiftRight_eq_div_pow,
    Nat.shiftLeft_add_eq_or_of_lt hlow, BitVec.toNat_ofNat, Nat.mod_eq_of_lt]
  refine Nat.or_lt_two_pow ?_ (hlow.trans_le (Nat.pow_le_pow_right two_pos hk.le))
  rw [← hhigh]
  exact Nat.mod_lt _ (Nat.two_pow_pos w)

/-- The field of BFX: extracted, and extended by its own top bit or by 0. -/
theorem bfxField_eq (signed : Bool) (a c : Word) : bfxField signed a c =
    (let p := (c.extractLsb' 0 8).toNat
     let w := (c.extractLsb' 8 8).toNat
     let f := a.extractLsb' p (min w (32 - p))
     if 32 ≤ p ∨ w = 0 then 0 else if signed = true then f.signExtend 32 else f.zeroExtend 32) := by
  have hp : (c.extractLsb' 0 8).toNat = c.toNat % 256 := by simp
  have hw : (c.extractLsb' 8 8).toNat = c.toNat / 256 % 256 := toNat_field c 8 8
  simp only [bfxField, ← hp, ← hw, ← toNat_field]
  split
  · rfl
  · next h =>
    obtain ⟨hp32, hw0⟩ := not_or.1 h
    cases signed
    · exact BitVec.ofNat_toNat 32 _
    · rw [if_pos rfl, BitVec.signExtend, toInt_eq_ite (by omega)]
      simp only [Bool.true_and, decide_eq_true_eq]
      split
      · rfl
      · exact (BitVec.ofInt_natCast 32 _).symm

/-- The insertion of BFI. -/
theorem bfiWord_eq (a b c : Word) : bfiWord a b c =
    (let p := (c.extractLsb' 0 8).toNat
     let w := (c.extractLsb' 8 8).toNat
     let mask : Word := BitVec.ofNat 32 (2 ^ min w (32 - p) - 1) <<< p
     if 32 ≤ p ∨ w = 0 then a else (a &&& ~~~mask) ||| ((b <<< p) &&& mask)) := by
  have hp : (c.extractLsb' 0 8).toNat = c.toNat % 256 := by simp
  have hw : (c.extractLsb' 8 8).toNat = c.toNat / 256 % 256 := toNat_field c 8 8
  simp only [bfiWord, hp, hw, ofNat_toNat_mul_two_pow b, ofNat_mul_two_pow 32 (_ - 1)]

end Sys2Proof.Machine

namespace Sys2Proof.Machine

/-! ### Byte permutes (R207) -/

/-- Two words put together, as a number. -/
theorem toNat_append {m n : Nat} (u : BitVec m) (v : BitVec n) : (u ++ v).toNat = u.toNat * 2 ^ n + v.toNat := by
  rw [BitVec.toNat_append, ← Nat.shiftLeft_add_eq_or_of_lt v.isLt, Nat.shiftLeft_eq]

/-- The byte that a control field of PRMB picks and transforms. -/
def permutedByte (v : DWord) (f : BitVec 6) : Byte :=
  let t : Byte := v.extractLsb' (8 * (f.extractLsb' 0 3).toNat) 8
  match (f.extractLsb' 3 3).toNat with
  | 1 => ~~~t | 2 => t.reverse | 3 => t.extractLsb' 0 4 ++ t.extractLsb' 4 4 | 4 => 0 | 5 => 0xFF
  | _ => t

theorem prmbByte_eq (v : DWord) (f : BitVec 6) : prmbByte v.toNat f.toNat = (permutedByte v f).toNat := by
  have hlow : (f.extractLsb' 0 3).toNat = f.toNat % 8 := by simp
  have hhigh : (f.extractLsb' 3 3).toNat = f.toNat / 8 := by
    have hlt := f.isLt
    rw [toNat_field]
    omega
  have hbyte : v.toNat / 256 ^ (f.toNat % 8) % 256 = (v.extractLsb' (8 * (f.toNat % 8)) 8).toNat := by
    rw [toNat_field, pow_mul]
    rfl
  simp only [prmbByte, permutedByte, hlow, hhigh, hbyte]
  have hselect : f.toNat / 8 < 8 := Nat.div_lt_of_lt_mul f.isLt
  generalize v.extractLsb' (8 * (f.toNat % 8)) 8 = t
  generalize f.toNat / 8 = k at hselect
  interval_cases k
  · rfl
  · show 255 - t.toNat = (~~~t).toNat
    rw [BitVec.toNat_not]
  · show reverseBits t.toNat 8 = t.reverse.toNat
    rw [← ofNat_reverseBits, BitVec.toNat_ofNat, Nat.mod_eq_of_lt (reverseBits_lt _ _)]
  · have hlt := t.isLt
    show t.toNat % 16 * 16 + t.toNat / 16 = (t.extractLsb' 0 4 ++ t.extractLsb' 4 4).toNat
    rw [toNat_append, toNat_field, toNat_field]
    omega
  all_goals rfl

/-- A word put together from four bytes. -/
theorem ofNat_sum_bytes (f : Nat → Byte) :
    BitVec.ofNat 32 ((List.range 4).map fun k => (f k).toNat * 256 ^ k).sum = f 3 ++ f 2 ++ f 1 ++ f 0 := by
  refine BitVec.eq_of_toNat_eq ?_
  rw [toNat_append, toNat_append, toNat_append, BitVec.toNat_ofNat, sum_map_range_four]
  omega

/-- The permuted word, byte by byte. -/
theorem prmbWord_eq (a b c : Word) : prmbWord a b c =
    permutedByte (b ++ a) (c.extractLsb' (6 * 3) 6) ++ permutedByte (b ++ a) (c.extractLsb' (6 * 2) 6) ++
      permutedByte (b ++ a) (c.extractLsb' (6 * 1) 6) ++ permutedByte (b ++ a) (c.extractLsb' (6 * 0) 6) := by
  have hsource : a.toNat + 2 ^ 32 * b.toNat = (b ++ a).toNat := by
    rw [toNat_append, Nat.add_comm, Nat.mul_comm]
  have hfield : ∀ k, c.toNat / 64 ^ k % 64 = (c.extractLsb' (6 * k) 6).toNat := fun k => by
    rw [toNat_field, pow_mul]
    rfl
  rw [← ofNat_sum_bytes fun k => permutedByte (b ++ a) (c.extractLsb' (6 * k) 6)]
  simp only [prmbWord, hsource, hfield, prmbByte_eq (b ++ a)]

/-- Settles O10: each control operand and result as an operation on words. -/
theorem shiftsAndBitFields : Obligations.ShiftsAndBitFields := by
  have hbfx : ∀ ty ∈ [Ty.n32, .s32], ty.signed = decide (ty = .s32) := by decide
  refine ⟨fun x => laneResults_of_eq (fun rd => congrArg (wr1 x.d) (ofNat_shl (rd x.a.toNat) _)) fun _ => rfl,
    fun x => laneResults_of_eq (fun rd => congrArg (wr2 x.d) (ofNat_shl (rdPair rd x.a) _)) fun _ => rfl,
    fun x => laneResults_of_eq (fun rd => congrArg (wr1 x.d) (ofNat_shrl (rd x.a.toNat) _)) fun _ => rfl,
    fun x => laneResults_of_eq (fun rd => congrArg (wr2 x.d) (ofNat_shrl (rdPair rd x.a) _)) fun _ => rfl,
    fun x => laneResults_of_eq (fun rd => congrArg (wr1 x.d) (ofNat_shra (ty := .s32) rfl (rd x.a.toNat) _))
      fun _ => rfl,
    fun x => laneResults_of_eq (fun rd => congrArg (wr2 x.d) (ofNat_shra (ty := .s64) rfl (rdPair rd x.a) _))
      fun _ => rfl,
    fun x => laneResults_of_eq (fun rd => congrArg (wr1 x.d) (ofNat_rotl (by decide) (rd x.a.toNat) _)) fun _ => rfl,
    fun x => laneResults_of_eq (fun rd => congrArg (wr2 x.d) (ofNat_rotl (by decide) (rdPair rd x.a) _)) fun _ => rfl,
    fun x ty hty => laneResults_of_eq
      (fun rd => congrArg (wr1 x.d) ((bfxField_eq ty.signed (rd x.a.toNat) (srcB x rd)).trans ?_)) fun _ => rfl,
    fun x ty => laneResults_of_eq
      (fun rd => congrArg (wr1 x.d) (bfiWord_eq (rd x.a.toNat) (rd x.b.toNat) (rd x.c.toNat))) fun _ => rfl,
    fun x => laneResults_of_eq (fun rd => congrArg (wr1 x.d) (prmbWord_eq (rd x.a.toNat) (rd x.b.toNat) (rd x.c.toNat)))
      fun _ => rfl⟩
  simp only [hbfx ty hty, decide_eq_true_eq]

/-! ### Address arithmetic (R208) -/

/-- An address and a scaled index. -/
theorem lea_eq {w : Nat} (a b : BitVec w) (c : Word) :
    a + BitVec.ofNat w (b.toNat * 2 ^ (c.toNat % 8)) = a + b <<< (c.extractLsb' 0 3).toNat := by
  rw [ofNat_toNat_mul_two_pow, show (c.extractLsb' 0 3).toNat = c.toNat % 8 by simp]

theorem shlw_eq (a : DWord) (c : Word) :
    (if 64 ≤ c.toNat % 256 then 0 else BitVec.ofNat 64 (a.toNat * 2 ^ (c.toNat % 256))) =
      a <<< (c.extractLsb' 0 8).toNat := by
  rw [ofNat_toNat_mul_two_pow, show (c.extractLsb' 0 8).toNat = c.toNat % 256 by simp]
  split
  · next h => exact (BitVec.shiftLeft_eq_zero h).symm
  · rfl

theorem zeroExtend_mul (a b : Word) : a.zeroExtend 64 * b.zeroExtend 64 = BitVec.ofNat 64 (a.toNat * b.toNat) := by
  rw [BitVec.ofNat_mul, BitVec.ofNat_toNat, BitVec.ofNat_toNat]

theorem signExtend_mul (a b : Word) : a.signExtend 64 * b.signExtend 64 = BitVec.ofInt 64 (a.toInt * b.toInt) :=
  (BitVec.ofInt_mul ..).symm

/-- Settles O11: the same for addresses. -/
theorem addressArithmetic : Obligations.AddressArithmetic := by
  refine ⟨fun x => laneResults_of_eq (fun rd => congrArg (wr1 x.d) (lea_eq (rd x.a.toNat) (rd x.b.toNat) (rd x.c.toNat)))
    fun _ => rfl, fun x => laneResults_of_runLanes fun _ => rfl, fun x => laneResults_of_runLanes fun _ => rfl,
    fun x => laneResults_of_runLanes fun _ => rfl, fun x => laneResults_of_runLanes fun _ => rfl,
    fun x => laneResults_of_eq (fun rd => congrArg (wr2 x.d) (shlw_eq (rdPair rd x.a) (srcB x rd))) fun _ => rfl,
    fun x => laneResults_of_eq (fun rd => congrArg (wr2 x.d) (zeroExtend_mul (rd x.a.toNat) (srcB x rd))) fun _ => rfl,
    fun x => laneResults_of_eq (fun rd => congrArg (wr2 x.d) (signExtend_mul (rd x.a.toNat) (srcB x rd))) fun _ => rfl,
    fun x => laneResults_of_eq (fun rd => congrArg (wr2 x.d)
      (lea_eq (rdPair rd x.a) ((rd x.b.toNat).zeroExtend 64) (rd x.c.toNat))) fun _ => rfl,
    fun x => laneResults_of_eq (fun rd => congrArg (wr2 x.d)
      (lea_eq (rdPair rd x.a) ((rd x.b.toNat).signExtend 64) (rd x.c.toNat))) fun _ => rfl⟩

/-! ### The hash of RHASH (R209) -/

/-- A word mixed with its own upper bits tells what it was. -/
theorem xor_shiftRight_injective {w k : Nat} (hk : 0 < k) : Function.Injective fun x : BitVec w => x ^^^ (x >>> k) := by
  intro x y hxy
  have hdiff : (x ^^^ y) = (x ^^^ y) >>> k := by
    have hzero : (x ^^^ (x >>> k)) ^^^ (y ^^^ (y >>> k)) = 0#w := BitVec.xor_eq_zero_iff.2 hxy
    rw [BitVec.ushiftRight_xor_distrib, ← BitVec.xor_eq_zero_iff]
    refine Eq.trans ?_ hzero
    ac_rfl
  have hnat := congrArg BitVec.toNat hdiff
  rw [BitVec.toNat_ushiftRight, Nat.shiftRight_eq_div_pow] at hnat
  have hsmall : (x ^^^ y).toNat = 0 := by
    by_contra hne
    have hpow : 1 < 2 ^ k := Nat.one_lt_two_pow hk.ne'
    exact absurd hnat (Nat.div_lt_self (Nat.pos_of_ne_zero hne) hpow).ne'
  exact BitVec.xor_eq_zero_iff.1 (BitVec.eq_of_toNat_eq hsmall)

/-- A factor with an inverse can be taken out. -/
theorem mul_injective_of_inverse {w : Nat} {c d : BitVec w} (h : c * d = 1) :
    Function.Injective fun x : BitVec w => x * c :=
  Function.LeftInverse.injective (g := fun x => x * d) fun x => by
    show x * c * d = x
    rw [mul_assoc, h, mul_one]

theorem rhash_injective (b : Word) : Function.Injective fun a => rhash a b := by
  have hkey : Function.Injective fun a : Word => a ^^^ (b * 0x6C8E9CF5).rotateLeft 16 ^^^ 0xA5C30E47 :=
    fun x y hxy => (BitVec.xor_left_inj _).1 ((BitVec.xor_left_inj _).1 hxy)
  have hodd : ∀ c d : Word, c * d = 1 → Function.Injective fun x : Word => x * c := fun c d => mul_injective_of_inverse
  have hmix : ∀ k, 0 < k → Function.Injective fun x : Word => x ^^^ (x >>> k) := fun k => xor_shiftRight_injective
  exact (hmix 16 (by decide)).comp ((hodd 0xD168AAAD 0xAA844925 (by decide)).comp ((hmix 13 (by decide)).comp
    ((hodd 0x3B9A73C5 0x9AD6930D (by decide)).comp ((hmix 15 (by decide)).comp hkey))))

/-- Settles O12: h is an exclusive or with a key, mixes and products with odd factors, each of which tells its input. -/
theorem rhashIsAPermutation : Obligations.RhashIsAPermutation :=
  ⟨fun _ => laneResults_of_runLanes fun _ => rfl, fun b => Finite.injective_iff_bijective.1 (rhash_injective b)⟩

end Sys2Proof.Machine

namespace Sys2Proof.Machine

/-! ### Strings of elements and of words (R227) -/

/-- The bits of a string of `n` digits of `w` bits each. -/
theorem testBit_sum_digits {w : Nat} {f : Nat → Nat} (hf : ∀ e, f e < 2 ^ w) (n k : Nat) :
    ((List.range n).map fun e => f e * 2 ^ (w * e)).sum < 2 ^ (w * n) ∧
      ((List.range n).map fun e => f e * 2 ^ (w * e)).sum.testBit k =
        (decide (k < w * n) && (f (k / w)).testBit (k % w)) := by
  induction n with
  | zero => simp
  | succ n ih =>
    obtain ⟨hlt, hbits⟩ := ih
    have hsum : ((List.range (n + 1)).map fun e => f e * 2 ^ (w * e)).sum =
        2 ^ (w * n) * f n + ((List.range n).map fun e => f e * 2 ^ (w * e)).sum := by
      rw [List.range_succ, List.map_append, List.sum_append, List.map_singleton, List.sum_singleton, Nat.add_comm,
        Nat.mul_comm]
    rw [hsum]
    constructor
    · rw [Nat.mul_succ, pow_add]
      exact (Nat.add_lt_add_left hlt _).trans_le
        (by rw [← Nat.mul_succ]; exact Nat.mul_le_mul_left _ (hf n))
    · rw [Nat.testBit_two_pow_mul_add _ hlt, hbits, Nat.mul_succ]
      split
      · next h => simp [h, Nat.lt_add_right w h]
      · next h =>
        obtain ⟨j, rfl⟩ := Nat.exists_eq_add_of_le (Nat.le_of_not_lt h)
        rw [Nat.add_sub_cancel_left]
        by_cases hj : j < w
        · rw [Nat.mul_add_div (Nat.zero_lt_of_lt hj), Nat.div_eq_of_lt hj, Nat.mul_add_mod, Nat.mod_eq_of_lt hj]
          simp [hj]
        · rw [Nat.testBit_lt_two_pow ((hf n).trans_le (Nat.pow_le_pow_right two_pos (Nat.le_of_not_lt hj)))]
          simp [hj]

theorem getLsbD_maskOf_filter (q : Nat → Bool) (n i : Nat) :
    (maskOf ((List.range n).filter q)).getLsbD i = (decide (i < 32) && decide (i < n) && q i) := by
  rw [getLsbD_maskOf, Bool.eq_iff_iff]
  simp [List.mem_filter, and_assoc]

/-- What a lane gives to a string: its word, or 0 where it is not active. -/
theorem testBit_activeWord (act v : Word) (l k : Nat) :
    (if act.getLsbD l = true then v.toNat else 0).testBit k = (act.getLsbD l && v.getLsbD k) := by
  cases act.getLsbD l <;> simp [BitVec.getLsbD]

/-- A word of the string that PACK makes of the active lanes' elements. -/
theorem wordOf_packString {w : Nat} (hw : 0 < w) (act : Word) (a : Nat → Word) {j : Nat} (hj : j < w) :
    wordOf (packString w fun e => if act.getLsbD e = true then (a e).toNat else 0) j =
      maskOf ((List.range 32).filter fun i =>
        act.getLsbD ((32 * j + i) / w) && (a ((32 * j + i) / w)).getLsbD ((32 * j + i) % w)) := by
  refine BitVec.eq_of_getLsbD_eq fun i hi => ?_
  have hin : 32 * j + i < w * 32 := by omega
  have hmod : (32 * j + i) % w < w := Nat.mod_lt _ hw
  rw [getLsbD_maskOf_filter, wordOf, BitVec.getLsbD_ofNat, ← Nat.shiftRight_eq_div_pow, Nat.testBit_shiftRight,
    packString, (testBit_sum_digits (fun _ => Nat.mod_lt _ (Nat.two_pow_pos w)) 32 _).2, Nat.testBit_mod_two_pow, testBit_activeWord]
  simp [hi, hin, hmod]

/-- An element of the string that the active lanes' words make up for UNPACK. -/
theorem element_unpackString {w : Nat} (act : Word) (a : Nat → Word) {e : Nat} (he : e < 32) :
    BitVec.ofNat 32 (((List.range w).map fun j =>
        (if act.getLsbD j = true then (a j).toNat else 0) * 2 ^ (32 * j)).sum / 2 ^ (w * e) % 2 ^ w) =
      maskOf ((List.range w).filter fun i =>
        act.getLsbD ((w * e + i) / 32) && (a ((w * e + i) / 32)).getLsbD ((w * e + i) % 32)) := by
  refine BitVec.eq_of_getLsbD_eq fun i hi => ?_
  have hword : ∀ j, (if act.getLsbD j = true then (a j).toNat else 0) < 2 ^ 32 := fun j => by
    split
    · exact (a j).isLt
    · exact Nat.two_pow_pos 32
  rw [getLsbD_maskOf_filter, BitVec.getLsbD_ofNat, Nat.testBit_mod_two_pow, ← Nat.shiftRight_eq_div_pow,
    Nat.testBit_shiftRight, (testBit_sum_digits hword w _).2, testBit_activeWord]
  by_cases hiw : i < w
  · have hin : w * e + i < 32 * w := by
      have := Nat.mul_le_mul_left w he
      rw [Nat.mul_succ, Nat.mul_comm w 32] at this
      omega
    simp [hi, hiw, hin]
  · simp [hiw]

/-! ### PACK and UNPACK -/

/-- A write depends on what it writes in the lanes of its mask alone. -/
theorem State.writeLanes_congr (s : State) (id : Nat) {m : Word} {f g : Nat → List (Nat × Word)}
    (h : ∀ l, m.getLsbD l = true → f l = g l) : s.writeLanes id m f = s.writeLanes id m g := by
  have htroupe : ∀ t : Troupe, t.writeLanes m f = t.writeLanes m g := fun t => by
    simp only [Troupe.writeLanes]
    congr 2
    funext e
    split
    · next he => rw [h e.1 he]
    · rfl
  simp only [State.writeLanes, htroupe]

/-- An instruction that writes in each lane that executes what the lanes hold together. -/
theorem results_of_runWord {i : Instr} {x : Ins} {u : Use} {f res : Troupe → Word → Nat → List (Nat × Word)}
    (h : ∀ t act l, act.getLsbD l = true → f t act l = res t act l)
    (hi : ∀ s, exec i s = runWord x u s fun s t _ act => s.writeLanes t.id act (f t act)) :
    Results i x u (fun _ _ _ _ => True) fun _ t _ act l => res t act l :=
  results_of_writes fun s t p act hs hp _ => by
    rw [hi, runWord_of_passes _ hs hp, State.writeLanes_congr _ _ (h t act)]

theorem packOp_results {i : Instr} {w : Nat} (hw : 0 < w) {x : Ins} (hi : ∀ s, exec i s = packOp x w s) :
    Results i x { use1 x 1 1 with whole := true, skip := true } (fun _ _ _ _ => True) fun _ t _ act j =>
      wr1 x.d (if j < w then maskOf ((List.range 32).filter fun i =>
        act.getLsbD ((32 * j + i) / w) && (t.reg ((32 * j + i) / w) x.a.toNat).getLsbD ((32 * j + i) % w)) else 0) := by
  refine results_of_runWord (fun t act j _ => ?_) hi
  split
  · next hj => rw [wordOf_packString hw act (fun e => t.reg e x.a.toNat) hj]
  · rfl

theorem unpackOp_results {i : Instr} {w : Nat} {x : Ins} (hi : ∀ s, exec i s = unpackOp x w s) :
    Results i x { use1 x 1 1 with whole := true, skip := true } (fun _ _ _ _ => True) fun _ t _ act e =>
      wr1 x.d (maskOf ((List.range w).filter fun i =>
        act.getLsbD ((w * e + i) / 32) && (t.reg ((w * e + i) / 32) x.a.toNat).getLsbD ((w * e + i) % 32))) :=
  results_of_runWord (fun t act _ he => congrArg (wr1 x.d)
    (element_unpackString act (fun j => t.reg j x.a.toNat) (BitVec.lt_of_getLsbD he))) hi

/-- Settles O24: both directions bit by bit, for elements of 6 and of 4 bits. -/
theorem packing : Obligations.Packing :=
  ⟨fun _ => packOp_results (by decide) fun _ => rfl, fun _ => unpackOp_results fun _ => rfl,
    fun _ => packOp_results (by decide) fun _ => rfl, fun _ => unpackOp_results fun _ => rfl⟩

end Sys2Proof.Machine

namespace Sys2Proof.Machine

/-! ### Packed float results (R122, R216) -/

theorem FloatFormat.Regular.withSign_lt {f : FloatFormat} (h : f.Regular) (s : Bool) {k : Nat}
    (hk : k < 2 ^ (f.e + f.m)) : withSign f s k < 2 ^ f.width := by
  rw [withSign, h.width]
  cases f.signed <;> cases s <;> simp [pow_succ] <;> omega

/-- The codes of infinities, overflows and NaNs have no more bits than their format. -/
theorem specialCodes_lt : ∀ ty ∈ floatTys, (floatFormat ty).nanCode < 2 ^ (floatFormat ty).width ∧
    ∀ sat neg, overflowCode (floatFormat ty) sat neg < 2 ^ (floatFormat ty).width := by
  decide

/-- A rounded code has no more bits than its format. -/
theorem roundTo_lt {ty : Ty} (h : ty ∈ floatTys) (hsigned : (floatFormat ty).signed = true) (r : Rnd) (sat : Bool)
    (rho : Nat) (x : Num) : roundTo ty r sat rho x < 2 ^ (floatFormat ty).width := by
  obtain ⟨hnan, hover⟩ := specialCodes_lt ty h
  have hreg := regular_of_mem h
  cases x with
  | nan => exact hnan
  | inf neg =>
    simp only [roundTo, hsigned, Bool.not_true, Bool.and_false, Bool.false_eq_true, if_false]
    exact hover sat neg
  | fin s m e =>
    obtain ⟨k, rem, d, -, hround⟩ := roundTo_yields h (fun _ => hsigned) m e
    rcases hround r sat rho with ⟨hle, hfits⟩ | ⟨-, hcode | hcode⟩
    · rw [hfits]
      exact hreg.withSign_lt s (hle.trans_lt hreg.maxCode_lt)
    · rw [hcode]
      exact hover sat s
    · rw [hcode]
      exact hreg.withSign_lt s hreg.maxCode_lt

/-- Rounding asks a type for its format alone. -/
theorem roundTo_congr {ty ty' : Ty} (h : floatFormat ty = floatFormat ty') (r : Rnd) (sat : Bool) (rho : Nat) (x : Num) :
    roundTo ty r sat rho x = roundTo ty' r sat rho x := by
  cases x <;> simp only [roundTo, roundQ, h]

theorem roundTo_packed_lt {ty : Ty} (h : ty ∈ [Ty.f16x2, .bf16x2]) (r : Rnd) (sat : Bool) (x : Num) :
    roundTo ty r sat 0 x < 2 ^ 16 := by
  simp only [List.mem_cons, List.not_mem_nil, or_false] at h
  rcases h with rfl | rfl
  · rw [roundTo_congr (ty := .f16x2) (ty' := .f16) rfl]
    exact roundTo_lt (by decide) rfl ..
  · rw [roundTo_congr (ty := .bf16x2) (ty' := .bf16) rfl]
    exact roundTo_lt (by decide) rfl ..

/-- A packed result is its two elements, side by side. -/
theorem packed2_eq {ty : Ty} (h : ty ∈ [Ty.f16x2, .bf16x2]) (r : Rnd) (sat : Bool) (f : Nat → Num) :
    packed2 ty r sat f = BitVec.ofNat 16 (roundTo ty r sat 0 (f 1)) ++ BitVec.ofNat 16 (roundTo ty r sat 0 (f 0)) := by
  have hlow := roundTo_packed_lt h r sat (f 0)
  have hhigh := roundTo_packed_lt h r sat (f 1)
  refine BitVec.eq_of_toNat_eq ?_
  rw [packed2, toNat_append, BitVec.toNat_ofNat, BitVec.toNat_ofNat, BitVec.toNat_ofNat]
  omega

/-- Element `i` of a packed word. -/
theorem half_eq (v : Word) (i : Nat) : half v i = (v.extractLsb' (16 * i) 16).toNat := by
  rw [half, toNat_field, pow_mul]
  rfl

/-- Settles O13. A scalar instruction rounds the exact result of its operands as the statement names it; a packed one
puts two such codes, which have 16 bits each, side by side. -/
theorem floatArithmetic : Obligations.FloatArithmetic := by
  refine ⟨fun _ _ _ _ => laneResults_of_runLanes fun _ => rfl, fun _ _ _ _ => laneResults_of_runLanes fun _ => rfl,
    fun _ _ _ _ => laneResults_of_runLanes fun _ => rfl, fun _ _ _ _ => laneResults_of_runLanes fun _ => rfl,
    fun _ _ _ _ => laneResults_of_runLanes fun _ => rfl,
    fun x ty rnd sat hty => laneResults_of_runLanes fun s => ?_,
    fun x ty rnd sat hty => laneResults_of_runLanes fun s => ?_,
    fun x ty rnd sat hty => laneResults_of_runLanes fun s => ?_,
    fun x ty rnd sat => laneResults_of_runLanes fun s => ?_⟩
  · show execHadd2 x ty rnd sat s = _
    simp only [execHadd2, packed2_eq hty, half_eq]
  · show execHmul2 x ty rnd sat s = _
    simp only [execHmul2, packed2_eq hty, half_eq]
  · show execHfma2 x ty rnd sat s = _
    simp only [execHfma2, packed2_eq hty, half_eq]
  · show execFdot2 x ty rnd sat s = _
    simp only [execFdot2, half_eq]

end Sys2Proof.Machine

namespace Sys2Proof.Machine

/-! ### The sign of a float (R211) -/

/-- A value with another sign. -/
def Num.setSign (s : Bool) : Num → Num
  | .nan => .nan
  | .inf _ => .inf s
  | .fin _ m e => .fin s m e

theorem Num.abs_eq_setSign (x : Num) : x.abs = x.setSign false := by cases x <;> rfl

theorem Num.neg_eq_setSign (x : Num) : x.neg = x.setSign (!x.signNeg) := by cases x <;> rfl

theorem Num.isNan_setSign (s : Bool) (x : Num) : (x.setSign s).isNan = x.isNan := by cases x <;> rfl

theorem magValue_setSign (f : FloatFormat) (s t : Bool) (k : Nat) : (magValue f s k).setSign t = magValue f t k := by
  unfold magValue
  simp only
  split <;> rfl

/-- Codes of one magnitude have one value but for their signs. -/
theorem value_of_magBits {ty : Ty} {c c' : Nat} (h : magBits (floatFormat ty) c' = magBits (floatFormat ty) c) :
    value ty c' = (value ty c).setSign (signBit (floatFormat ty) c') := by
  simp only [value, h]
  split
  · split <;> rfl
  · split
    · rfl
    · rw [magValue_setSign]

/-- The sign of a value is its code's sign bit. -/
theorem signNeg_value {ty : Ty} {c : Nat} (h : (value ty c).isNan = false) :
    (value ty c).signNeg = signBit (floatFormat ty) c := by
  cases hval : value ty c with
  | nan => rw [hval] at h; exact absurd h (by decide)
  | inf s =>
    have hown := value_of_magBits (ty := ty) (c := c) rfl
    rw [hval] at hown
    exact Num.inf.inj hown
  | fin s m e =>
    have hown := value_of_magBits (ty := ty) (c := c) rfl
    rw [hval] at hown
    exact (Num.fin.inj hown).1

/-- What FABS and FNEG write: the canonical NaN, or the code of the same magnitude with another sign. -/
theorem rne_setSign {ty : Ty} (h : ty ∈ floatTys) {c c' : Nat} {s : Bool}
    (hmag : magBits (floatFormat ty) c' = magBits (floatFormat ty) c)
    (hsign : (value ty c).isNan = false → signBit (floatFormat ty) c' = s)
    (hlt : c' < 2 ^ (floatFormat ty).width) :
    rne ty ((value ty c).setSign s) = if (value ty c).isNan = true then (floatFormat ty).nanCode else c' := by
  by_cases hnan : (value ty c).isNan = true
  · rw [if_pos hnan]
    cases hval : value ty c with
    | nan => rfl
    | inf s => rw [hval] at hnan; exact Bool.noConfusion hnan
    | fin s m e => rw [hval] at hnan; exact Bool.noConfusion hnan
  · have hnum := Bool.eq_false_of_not_eq_true hnan
    have hval := value_of_magBits hmag
    rw [hsign hnum] at hval
    rw [if_neg hnan, ← hval, rne_value h (by rw [hval, Num.isNan_setSign, hnum]), Nat.mod_eq_of_lt hlt]

/-- The formats of R211 have a sign bit. -/
theorem arithmetic_format {ty : Ty} (h : ty ∈ [Ty.f32, .f16, .bf16]) : ty ∈ floatTys ∧
    (floatFormat ty).signed = true ∧ (floatFormat ty).width = (floatFormat ty).width - 1 + 1 := by
  revert ty
  decide

section
variable {ty : Ty} (h : ty ∈ [Ty.f32, .f16, .bf16])
include h

theorem magBits_signed (c : Nat) : magBits (floatFormat ty) c = c % 2 ^ ((floatFormat ty).width - 1) := by
  obtain ⟨-, hsigned, -⟩ := arithmetic_format h
  rw [magBits, if_pos hsigned]

theorem signBit_signed (c : Nat) :
    signBit (floatFormat ty) c = (c / 2 ^ ((floatFormat ty).width - 1) % 2 == 1) := by
  obtain ⟨-, hsigned, -⟩ := arithmetic_format h
  rw [signBit, hsigned, Bool.true_and]

theorem rne_abs (c : Nat) : rne ty (value ty c).abs = if (value ty c).isNan = true then (floatFormat ty).nanCode
    else c % 2 ^ ((floatFormat ty).width - 1) := by
  obtain ⟨hfloat, -, hwidth⟩ := arithmetic_format h
  have hlt : c % 2 ^ ((floatFormat ty).width - 1) < 2 ^ ((floatFormat ty).width - 1) := Nat.mod_lt _ (Nat.two_pow_pos _)
  rw [Num.abs_eq_setSign]
  refine rne_setSign hfloat ?_ (fun _ => ?_) (hlt.trans_le (Nat.pow_le_pow_right two_pos (Nat.sub_le _ 1)))
  · rw [magBits_signed h, magBits_signed h, Nat.mod_mod]
  · rw [signBit_signed h, Nat.div_eq_of_lt hlt]
    rfl

theorem rne_neg (c : Nat) : rne ty (value ty c).neg = if (value ty c).isNan = true then (floatFormat ty).nanCode
    else (c + 2 ^ ((floatFormat ty).width - 1)) % 2 ^ (floatFormat ty).width := by
  obtain ⟨hfloat, -, hwidth⟩ := arithmetic_format h
  rw [Num.neg_eq_setSign]
  refine rne_setSign hfloat ?_ (fun hnum => ?_) (Nat.mod_lt _ (Nat.two_pow_pos _))
  · rw [magBits_signed h, magBits_signed h, Nat.mod_mod_of_dvd _ (pow_dvd_pow 2 (Nat.sub_le _ 1)), Nat.add_mod_right]
  · rw [signNeg_value hnum, signBit_signed h, signBit_signed h]
    generalize (floatFormat ty).width - 1 = k at hwidth
    rw [hwidth, pow_succ, Nat.mod_mul_right_div_self, Nat.add_div_right _ (Nat.two_pow_pos k), Nat.mod_mod]
    rcases Nat.mod_two_eq_zero_or_one (c / 2 ^ k) with hq | hq <;> simp [Nat.add_mod, hq]

end

/-! ### Classes (R213) -/

/-- The format's row says that it has infinities where the all-ones exponent is special (R116). -/
theorem hasInf_iff : ∀ ty ∈ floatTys, ((floatFormat ty).hasInf = true ↔ (floatFormat ty).nanKind = 1) := by
  decide

/-- The class of a code by the fields of its magnitude. -/
theorem classBit_eq {ty : Ty} (h : ty ∈ floatTys) (c : Nat) : classBit ty c =
    (let f := floatFormat ty
     let mag := magBits f c
     let ex := mag / 2 ^ f.m
     let m := mag % 2 ^ f.m
     if (f.nanKind = 1 ∧ ex = 2 ^ f.e - 1 ∧ m ≠ 0) ∨ (f.nanKind = 2 ∧ mag = 2 ^ (f.e + f.m) - 1) then 8
     else if f.hasInf = true ∧ ex = 2 ^ f.e - 1 then (if signBit f c = true then 0 else 7)
     else if mag = 0 then (if signBit f c = true then 3 else 4)
     else if ex = 0 then (if signBit f c = true then 2 else 5)
     else if signBit f c = true then 1 else 6) := by
  have hinf := hasInf_iff ty h
  simp only [classBit, value]
  generalize floatFormat ty = f at hinf
  generalize magBits f c = mag
  generalize signBit f c = neg
  have hpos : 0 < 2 ^ f.m := Nat.two_pow_pos _
  by_cases h1 : f.nanKind = 1 ∧ mag / 2 ^ f.m = 2 ^ f.e - 1
  · obtain ⟨hkind, hex⟩ := h1
    by_cases hm : mag % 2 ^ f.m = 0
    · simp [hkind, hex, hm, hinf]
    · simp [hkind, hex, hm]
  · by_cases h2 : f.nanKind = 2 ∧ mag = 2 ^ (f.e + f.m) - 1
    · rw [if_neg h1, if_pos h2, if_pos (Or.inr h2)]
    · have hnan : ¬((f.nanKind = 1 ∧ mag / 2 ^ f.m = 2 ^ f.e - 1 ∧ mag % 2 ^ f.m ≠ 0) ∨
          (f.nanKind = 2 ∧ mag = 2 ^ (f.e + f.m) - 1)) := by tauto
      rw [if_neg hnan, if_neg (mt (And.imp_left hinf.1) h1), if_neg h1, if_neg h2, magValue]
      by_cases hex : mag / 2 ^ f.m = 0
      · have hlt : mag < 2 ^ f.m := (Nat.div_eq_zero_iff_lt hpos).1 hex
        simp [hex, hlt, Nat.mod_eq_of_lt hlt]
      · have hge : ¬ mag < 2 ^ f.m := mt (Nat.div_eq_zero_iff_lt hpos).2 hex
        have hne : mag ≠ 0 := by rintro rfl; exact hge hpos
        simp [hex, hge, hne]

/-- A sign bit read as a bit of a register. -/
theorem signBit_toNat {f : FloatFormat} (h : f.Regular) (v : Word) :
    signBit f v.toNat = (f.signed && v.getLsbD (f.e + f.m)) := by
  rw [signBit, h.width, BitVec.getLsbD, Nat.testBit_eq_decide_div_mod_eq]
  cases f.signed <;> simp [Bool.beq_eq_decide_eq]

/-- One bit, as a word. -/
theorem cast_one_shiftLeft (n : Nat) : ((1 <<< n : Nat) : Word) = BitVec.ofNat 32 (2 ^ n) := by
  rw [Nat.one_shiftLeft]
  rfl

end Sys2Proof.Machine

namespace Sys2Proof.Machine

/-! ### Integral values of fractions (R125, R214) -/

/-- A part of a unit, against nothing and against a half. -/
theorem part_of_unit {rem den : Nat} (h : rem < den) : 0 ≤ (rem : ℚ) / den ∧ (rem : ℚ) / den < 1 ∧
    ((rem : ℚ) / den = 0 ↔ rem = 0) ∧ ((rem : ℚ) / den < 1 / 2 ↔ 2 * rem < den) ∧
    (1 / 2 < (rem : ℚ) / den ↔ den < 2 * rem) := by
  have hd : (0 : ℚ) < den := Nat.cast_pos.2 (Nat.zero_lt_of_lt h)
  refine ⟨by positivity, (div_lt_one hd).2 (Nat.cast_lt.2 h), ?_, ?_, ?_⟩
  · simp [hd.ne']
  · rw [div_lt_div_iff₀ hd two_pos, mul_comm, one_mul]
    exact_mod_cast Iff.rfl
  · rw [div_lt_div_iff₀ two_pos hd, mul_comm (rem : ℚ), one_mul]
    exact_mod_cast Iff.rfl

theorem floor_add_part (n : Nat) {p : ℚ} (h0 : 0 ≤ p) (h1 : p < 1) : ⌊(n : ℚ) + p⌋ = n := by
  rw [Int.floor_natCast_add, Int.floor_eq_zero_iff.2 ⟨h0, h1⟩, add_zero]

theorem ceil_add_part (n : Nat) {p : ℚ} (h0 : 0 ≤ p) (h1 : p < 1) :
    ⌈(n : ℚ) + p⌉ = if p = 0 then (n : Int) else n + 1 := by
  rw [Int.ceil_natCast_add]
  split
  · next h => rw [h, Int.ceil_zero, add_zero]
  · next h =>
    have hpos : 0 < p := lt_of_le_of_ne h0 (Ne.symm h)
    have hone : ⌈p⌉ = 1 := Int.ceil_eq_iff.2 ⟨by simpa using hpos, by simpa using h1.le⟩
    rw [hone]

/-- The integral value of a mode, of a value between two integers: the kept quotient or the next one, as the mode
rounds. -/
theorem integral_split {r : Rnd} (hr : r ≠ .rs) (n : Nat) {rem den : Nat} (h : rem < den) :
    integral r (n + rem / den) = roundedMag r false 0 n rem den := by
  obtain ⟨h0, h1, hzero, hlow, hhigh⟩ := part_of_unit h
  generalize (rem : ℚ) / den = p at h0 h1 hzero hlow hhigh
  have hfloor := floor_add_part n h0 h1
  have hceil := ceil_add_part n h0 h1
  have hy : ¬ (n : ℚ) + p < 0 := not_lt.2 (by positivity)
  cases r with
  | rs => exact absurd rfl hr
  | rz => simp only [integral, hy, if_false, hfloor, roundedMag_rz]
  | rup => by_cases hrem : rem = 0 <;> simp [integral, hceil, hzero, roundedMag, roundsUp, hrem]
  | rdn => simp [integral, hfloor, roundedMag, roundsUp]
  | rne =>
    simp only [integral, hfloor, Int.cast_natCast, add_sub_cancel_left, hlow, hhigh, roundedMag, roundsUp]
    rcases lt_trichotomy (2 * rem) den with hlt | heq | hgt
    · simp [hlt, hlt.not_gt, hlt.ne]
    · have hint : (n : Int) % 2 = (n % 2 : Nat) := rfl
      rcases Nat.mod_two_eq_zero_or_one n with hn | hn <;> simp [heq, hint, hn]
    · simp [hgt, hgt.not_gt]

/-- The same below zero. -/
theorem integral_neg_split {r : Rnd} (hr : r ≠ .rs) (n : Nat) {rem den : Nat} (h : rem < den) :
    integral r (-(n + rem / den)) = -(roundedMag r true 0 n rem den : Int) := by
  obtain ⟨h0, h1, hzero, hlow, hhigh⟩ := part_of_unit h
  generalize (rem : ℚ) / den = p at h0 h1 hzero hlow hhigh
  have hfloor := floor_add_part n h0 h1
  have hceil := ceil_add_part n h0 h1
  have hy : 0 ≤ (n : ℚ) + p := by positivity
  cases r with
  | rs => exact absurd rfl hr
  | rz =>
    rcases hy.eq_or_lt with hyz | hpos
    · have hn : n = 0 := by simpa [← hyz] using hfloor.symm
      rw [← hyz, hn]
      simp [integral, roundedMag_rz]
    · simp only [integral, neg_lt_zero, hpos, if_true, Int.ceil_neg, hfloor, roundedMag_rz]
  | rup => simp only [integral, Int.ceil_neg, hfloor]; simp [roundedMag, roundsUp]
  | rdn =>
    simp only [integral, Int.floor_neg, hceil, hzero]
    by_cases hrem : rem = 0 <;> simp [roundedMag, roundsUp, hrem]
  | rne =>
    simp only [integral, Int.floor_neg, hceil, roundedMag, roundsUp]
    by_cases hrem : rem = 0
    · have hp := hzero.2 hrem
      have hd : 0 ≠ den := by omega
      simp [hp, hrem, hd]
    · have hp := mt hzero.1 hrem
      have hpart : -((n : ℚ) + p) - ((-(n + 1 : Int) : Int) : ℚ) = 1 - p := by
        push_cast
        ring
      have hbelow : 1 - p < 1 / 2 ↔ den < 2 * rem := by rw [← hhigh]; constructor <;> intro <;> linarith
      have habove : 1 / 2 < 1 - p ↔ 2 * rem < den := by rw [← hlow]; constructor <;> intro <;> linarith
      simp only [hp, if_false, hpart, hbelow, habove]
      rcases lt_trichotomy (2 * rem) den with hlt | heq | hgt
      · simp [hlt, hlt.not_gt, hlt.ne]
      · rcases Nat.mod_two_eq_zero_or_one n with hn | hn
        · have hodd : (-1 + -(n : Int)) % 2 = 1 := by omega
          simp [heq, hn, hodd]
        · have heven : (2 : Int) ∣ -1 + -n := by omega
          simp [heq, hn, heven]
      · simp [hgt]

/-- The integral value of a fraction with a sign (R125). -/
theorem integral_eq_roundInt {r : Rnd} (hr : r ≠ .rs) (s : Bool) (num : Nat) {den : Nat} (hd : 0 < den) :
    integral r (signRat s * (num / den)) = roundInt r s num den := by
  have hrem := Nat.mod_lt num hd
  have hsplit : (num : ℚ) / den = (num / den : Nat) + (num % den : Nat) / (den : ℚ) := by
    have hq : (den : ℚ) ≠ 0 := by positivity
    rw [div_eq_iff hq, add_mul, div_mul_cancel₀ _ hq]
    exact_mod_cast (Nat.div_add_mod' num den).symm
  rw [hsplit]
  cases s with
  | false =>
    rw [signRat, if_neg (by decide), one_mul]
    exact integral_split hr (num / den) hrem
  | true =>
    rw [signRat, if_pos rfl, neg_one_mul]
    exact integral_neg_split hr (num / den) hrem

/-! ### Integers that a format holds (R116, R117) -/

/-- The formats of R211 reach the power of two up to which they hold every integer. -/
theorem arithmetic_integers : ∀ ty ∈ [Ty.f32, .f16, .bf16], 1 ≤ (floatFormat ty).bias ∧
    magCode (floatFormat ty) (2 ^ (floatFormat ty).m) 0 ≤ (floatFormat ty).maxCode := by
  decide

/-- An integer of no more bits than a mantissa with its leading one is a magnitude. -/
theorem exists_magRat_eq {ty : Ty} (h : ty ∈ [Ty.f32, .f16, .bf16]) {n : Nat} (hn : n ≤ 2 ^ (floatFormat ty).m) :
    ∃ k, k ≤ (floatFormat ty).maxCode ∧ magRat (floatFormat ty) k = n := by
  obtain ⟨hbias, htop⟩ := arithmetic_integers ty h
  generalize floatFormat ty = f at *
  have hgrid : f.OnGrid (2 ^ f.m) 0 := ⟨Nat.pow_lt_pow_right one_lt_two (Nat.lt_succ_self _), by omega,
    fun hlt => absurd hlt (lt_irrefl _)⟩
  rcases Nat.eq_zero_or_pos n with rfl | hpos
  · exact ⟨0, Nat.zero_le _, by rw [magRat_zero, Nat.cast_zero]⟩
  · have hlog : Nat.log2 n ≤ f.m := Nat.le_of_lt_succ ((Nat.log2_lt hpos.ne').2
      (hn.trans_lt (Nat.pow_lt_pow_right one_lt_two (Nat.lt_succ_self _))))
    have hlow : 2 ^ Nat.log2 n ≤ n := Nat.log2_self_le hpos.ne'
    have hhigh : n < 2 ^ (Nat.log2 n + 1) := Nat.lt_log2_self
    obtain ⟨d, hd⟩ := Nat.exists_eq_add_of_le hlog
    have hn' : f.OnGrid (n * 2 ^ d) (-d) := by
      refine ⟨?_, by omega, fun hlt => absurd hlt (not_lt.2 ?_)⟩
      · rw [hd, Nat.add_right_comm, pow_add]
        exact Nat.mul_lt_mul_of_pos_right hhigh (Nat.two_pow_pos d)
      · rw [hd, pow_add]
        exact Nat.mul_le_mul_right _ hlow
    have hval : magRat f (magCode f (n * 2 ^ d) (-d)) = n := by
      rw [hn'.magRat_magCode, Nat.cast_mul, Nat.cast_pow, Nat.cast_ofNat, mul_assoc, ← zpow_natCast,
        ← zpow_add₀ two_ne_zero, add_neg_cancel, zpow_zero, mul_one]
    refine ⟨_, le_trans ?_ htop, hval⟩
    rw [← (magRat_strictMono f).le_iff_le, hval, hgrid.magRat_magCode, zpow_zero, mul_one]
    exact_mod_cast hn

/-- The mantissa of a finite value has no more bits than its format's, with the leading one (R117). -/
theorem mantissa_lt (f : FloatFormat) {t s : Bool} {k m : Nat} {e : Int} (h : magValue f t k = .fin s m e) :
    m < 2 ^ (f.m + 1) := by
  have hmod := Nat.mod_lt k (Nat.two_pow_pos f.m)
  have hpow : 2 ^ (f.m + 1) = 2 * 2 ^ f.m := pow_succ' 2 f.m
  simp only [magValue] at h
  split at h
  · obtain ⟨-, hm, -⟩ := Num.fin.inj h
    omega
  · obtain ⟨-, hm, -⟩ := Num.fin.inj h
    omega

/-- The magnitude of the integral value that a mode gives for ±m × 2^e. -/
def integralMag (r : Rnd) (s : Bool) (m : Nat) (e : Int) : Nat :=
  roundedMag r s 0 ((frac m e).1 / (frac m e).2) ((frac m e).1 % (frac m e).2) (frac m e).2

theorem roundInt_frac (r : Rnd) (s : Bool) (m : Nat) (e : Int) : roundInt r s (frac m e).1 (frac m e).2 =
    if s = true then -(integralMag r s m e : Int) else integralMag r s m e := rfl

/-- What rounds to an integral value is a magnitude of the format: a finite code's own, where it is an integer, and an
integer of few bits otherwise. -/
theorem exists_magRat_integralMag {ty : Ty} (h : ty ∈ [Ty.f32, .f16, .bf16]) {c : Nat} {s : Bool} {m : Nat} {e : Int}
    (hc : value ty c = .fin s m e) (r : Rnd) : ∃ k, k ≤ (floatFormat ty).maxCode ∧
      magRat (floatFormat ty) k = integralMag r s m e := by
  obtain ⟨hfloat, -, -⟩ := arithmetic_format h
  have hle : magBits (floatFormat ty) c ≤ (floatFormat ty).maxCode :=
    (value_finite_iff hfloat c).1 (hc ▸ Num.finite_fin s m e)
  have hval : magValue (floatFormat ty) (signBit (floatFormat ty) c) (magBits (floatFormat ty) c) = .fin s m e :=
    (value_of_le hfloat hle).symm.trans hc
  rcases le_or_gt 0 e with he | he
  · have hfrac : frac m e = (m * 2 ^ e.toNat, 1) := by simp [frac, pow2, he]
    have hint : roundedMag r s 0 (m * 2 ^ e.toNat / 1) (m * 2 ^ e.toNat % 1) 1 = m * 2 ^ e.toNat := by
      rw [Nat.div_one, Nat.mod_one]
      exact if_neg fun hup => rem_ne_zero_of_roundsUp Nat.one_pos hup rfl
    refine ⟨_, hle, ?_⟩
    rw [integralMag, hfrac, hint, ← abs_of_nonneg (magRat_nonneg (floatFormat ty) _),
      ← abs_signRat_mul (signBit (floatFormat ty) c), ← toRat_magValue, hval, Num.abs_toRat_fin, Nat.cast_mul, Nat.cast_pow, Nat.cast_ofNat, ← zpow_natCast,
      Int.toNat_of_nonneg he]
  · have hfrac : frac m e = (m, 2 ^ (-e).toNat) := by simp [frac, pow2, not_le.2 he]
    have hhalf : m / 2 ^ (-e).toNat < 2 ^ (floatFormat ty).m := by
      refine Nat.div_lt_of_lt_mul ((mantissa_lt _ hval).trans_le ?_)
      rw [pow_succ']
      exact Nat.mul_le_mul_right _ (Nat.le_self_pow (by omega) 2)
    rw [integralMag, hfrac]
    refine exists_magRat_eq h (le_trans ?_ hhalf)
    unfold roundedMag
    split
    · exact le_rfl
    · exact Nat.le_succ _

/-- A value that a magnitude has is rounded to that magnitude. -/
theorem rne_of_magRat {ty : Ty} (h : ty ∈ floatTys) {s : Bool} (hs : s = true → (floatFormat ty).signed = true) {m : Nat}
    {e : Int} {k : Nat} (hk : k ≤ (floatFormat ty).maxCode)
    (hval : |(Num.fin s m e).toRat| = magRat (floatFormat ty) k) : rne ty (.fin s m e) = withSign (floatFormat ty) s k := by
  have hmax : |(Num.fin s m e).toRat| ≤ (maxValue ty).toRat := by
    rw [hval, toRat_maxValue h]
    exact (magRat_strictMono _).monotone hk
  obtain ⟨j, rem, d, hbr, hround⟩ := roundTo_of_le h hs hmax
  rw [hval] at hbr
  obtain ⟨hj, hrem⟩ := hbr.eq_of_magRat
  have hkept : roundedMag .rne s 0 j rem d = k := by
    rw [roundedMag, if_neg fun hup => rem_ne_zero_of_roundsUp (Nat.zero_lt_of_lt hbr.rem_lt) hup hrem, hj]
  rw [rne, (hround .rne 0 nofun).2 false, hkept]

/-! ### FRND (R214) -/

/-- FRND of a finite value: a finite code of the value's sign, that is exactly the integral value of the mode. -/
theorem roundIntegral_finite {ty : Ty} (h : ty ∈ [Ty.f32, .f16, .bf16]) (r : Rnd) {c : Nat} {s : Bool} {m : Nat}
    {e : Int} (hc : value ty c = .fin s m e) : (value ty (roundIntegral ty r c)).Finite ∧
      (value ty (roundIntegral ty r c)).signNeg = s ∧
      (r ≠ .rs → (value ty (roundIntegral ty r c)).toRat = integral r (Num.fin s m e).toRat) := by
  obtain ⟨hfloat, hsigned, -⟩ := arithmetic_format h
  obtain ⟨k, hk, hmag⟩ := exists_magRat_integralMag h hc r
  have habs : (roundInt r s (frac m e).1 (frac m e).2).natAbs = integralMag r s m e := by
    rw [roundInt_frac]
    split <;> omega
  have hcode : roundIntegral ty r c = withSign (floatFormat ty) s k := by
    rw [roundIntegral, hc]
    show rne ty (.fin s (roundInt r s (frac m e).1 (frac m e).2).natAbs 0) = _
    rw [habs]
    exact rne_of_magRat hfloat (fun _ => hsigned) hk (by rw [Num.abs_toRat_fin, hmag, zpow_zero, mul_one])
  obtain ⟨hfin, hsign, -, hval⟩ := withSign_reads hfloat (fun _ => hsigned) hk (s := s)
  rw [hcode]
  refine ⟨hfin, (signNeg_value hfin.1).trans hsign, fun hr => ?_⟩
  rw [hval, hmag, Num.toRat_fin_eq_sign_mul, Num.abs_toRat_fin, ← frac_ratio,
    integral_eq_roundInt hr s _ (frac_den_pos m e), roundInt_frac, signRat]
  cases s <;> simp

/-- Settles O18. FABS, FNEG and FCLASS write what the fields of the code give; FRND of a finite value gives the integral
value of its mode, which the format holds. -/
theorem floatSignsClassesAndIntegrals : Obligations.FloatSignsClassesAndIntegrals := by
  refine ⟨
    fun x ty hty => laneResults_of_eq (fun rd => congrArg (wrF x.d) (rne_abs hty (rd x.a.toNat).toNat)) fun _ => rfl,
    fun x ty hty => laneResults_of_eq (fun rd => congrArg (wrF x.d) (rne_neg hty (rd x.a.toNat).toNat)) fun _ => rfl,
    fun x ty hty => laneResults_of_runLanes fun s => ?_, fun _ _ _ => laneResults_of_runLanes fun _ => rfl,
    fun ty c hty rnd => ?_⟩
  · have hreg := regular_of_mem hty
    show execFclass x ty s = _
    simp only [execFclass, wrF, cast_one_shiftLeft, classBit_eq hty, hreg.magBits_eq, signBit_toNat hreg]
  · cases hval : value ty c with
    | nan => exact (by rw [roundIntegral, hval] : roundIntegral ty rnd c = (floatFormat ty).nanCode)
    | inf s => exact (by rw [roundIntegral, hval] : roundIntegral ty rnd c = c % 2 ^ (floatFormat ty).width)
    | fin s m e =>
      obtain ⟨⟨hnan, hinf⟩, hsign, hint⟩ := roundIntegral_finite hty rnd hval
      exact ⟨hnan, hinf, hsign, hint⟩

end Sys2Proof.Machine

/-! ### IDF, MOVS and MOVSW on a path that executes its head on its own -/

namespace Sys2Proof.Machine.Placed

set_option Elab.async false

/-- An ordinary path marked as executing one instruction again on its own, as a slice after a TRET with k = 0 does
(R192): it stays at its word when that faults. -/
def ownPath : Path := { placedPath with retry := true }

/-- The troupe of a placed word whose path it is. -/
def ownTroupe : Troupe := placedTroupe [ownPath] 0 4

/-- The placed state in which it issues. -/
def ownState : State := placedState (.ord 0) ownTroupe

/-- IDF or MOVS with a selector that neither names (R106, R187). -/
def selectorWord : Ins := Ins.plain .f10 4 0 0x40

theorem own_issues : ownState.Issues ownTroupe ownPath ∧
    Passes ownTroupe ownPath selectorWord (Use.lanes [(4, 2)] []) 0xFFFFFFFF ∧
    Passes ownTroupe ownPath selectorWord (Use.lanes [(4, 1)] []) 0xFFFFFFFF ∧ Delivers ownState ownTroupe ownPath := by
  decide +kernel

theorem idf_own : shown (exec (.idf selectorWord) ownState) (fun t => (t.path? (.ord 0)).map (·.pc)) =
    some (some ownPath.pc) := by decide +kernel

theorem movs_own : shown (exec (.movs selectorWord) ownState) (fun t => (t.path? (.ord 0)).map (·.pc)) =
    some (some ownPath.pc) := by decide +kernel

/-- The path of `ownState` stays at its word, so no fault of the word is delivered as the statements have it. -/
theorem not_delivered_own {i : Instr} {s' : State} {t' : Troupe} (hi : shown (exec i ownState)
      (fun t => (t.path? (.ord 0)).map (·.pc)) = some (some ownPath.pc)) (hex : exec i ownState = .next s')
    (ht' : s'.troupe? ownTroupe.id = some t') (act : Word) (code addr stamp : Nat) :
    ¬ Delivered ownState ownTroupe ownPath act code addr (ownPath.pc + 16) stamp s' t' := by
  rintro ⟨-, -, q, hq, hpc, -⟩
  have hstay := shown_next hi hex ht'
  rw [show t'.path? (.ord 0) = some q from hq, Option.map_some, hpc] at hstay
  exact absurd hstay (by decide)

/-- Refutes O27: on a path with `retry` set a fault leaves the path at its word, where the statement has it at the next
one. The second clause would need `p.retry = false`. -/
theorem not_itemFields : ¬ Obligations.ItemFields := by
  rintro ⟨-, hfault⟩
  obtain ⟨hiss, hpass, -, hdel⟩ := own_issues
  obtain ⟨s', t', hex, ht', hd⟩ := hfault selectorWord ownState ownTroupe ownPath 0xFFFFFFFF hiss hpass
    ⟨by decide, hdel⟩
  exact not_delivered_own idf_own hex ht' _ _ _ _ hd

/-- Refutes O28, as O27: the third clause would need `p.retry = false`, and so would the fourth. -/
theorem not_specialRegisters : ¬ Obligations.SpecialRegisters := by
  rintro ⟨-, -, hfault, -⟩
  obtain ⟨hiss, -, hpass, hdel⟩ := own_issues
  obtain ⟨s', t', hex, ht', hd⟩ := hfault selectorWord ownState ownTroupe ownPath 0xFFFFFFFF hiss hpass
    ⟨by decide, hdel⟩
  exact not_delivered_own movs_own hex ht' _ _ _ _ hd

end Sys2Proof.Machine.Placed

namespace Sys2Proof.Machine

/-! ### Conversions (R217, R218) -/

/-- A finite value delivered to an integer type: its integral value, clamped (R218). -/
theorem toIntClamped_fin (dst : Ty) {rnd : Rnd} (h : rnd ≠ .rs) (s : Bool) (m : Nat) (e : Int) :
    toIntClamped dst rnd (.fin s m e) = min (max (integral rnd (Num.fin s m e).toRat) dst.least) dst.greatest := by
  rw [Num.toRat_fin_eq_sign_mul, Num.abs_toRat_fin, ← frac_ratio, integral_eq_roundInt h s _ (frac_den_pos m e)]
  rfl

/-- The integer that an exact integer is. -/
theorem floor_toRat_fin (s : Bool) (m : Nat) : ⌊(Num.fin s m 0).toRat⌋ = if s = true then -(m : Int) else m := by
  cases s
  · simp [Num.toRat]
  · rw [show (Num.fin true m 0).toRat = ((-(m : Int) : Int) : ℚ) by simp [Num.toRat], Int.floor_intCast]
    rfl

/-- What a conversion of the exact value `v` writes, `rho` being the random input of `.rs` (R218). -/
def converted (dst src : Ty) (rnd : Rnd) (sat : Bool) (rho : Nat) (d : BitVec 9) (v : Num) : List (Nat × Word) :=
  if dst.cls = true then wr1 d (BitVec.ofNat 32 (roundTo dst rnd sat rho v))
  else
    let r : Int := match v with
      | .nan => 0
      | .inf n => if n = true then dst.least else dst.greatest
      | _ => if src.cls = true then min (max (integral rnd v.toRat) dst.least) dst.greatest
        else dst.toInt (dst.deliver sat ⌊v.toRat⌋)
    if dst.width = 64 then wr2 d (BitVec.ofInt 64 r) else wr1 d (BitVec.ofInt 32 r)

/-- A conversion writes so, where `.rs` is asked of float types alone and an integer source is an exact integer. -/
theorem cvtWrite_eq_converted {dst src : Ty} {rnd : Rnd} (hrs : rnd = .rs → dst.cls = true) (sat : Bool) (rho : Nat)
    (d : BitVec 9) {v : Num} (hv : dst.cls = false → src.cls = false → ∃ s m, v = .fin s m 0) :
    cvtWrite dst src rnd sat rho d v = converted dst src rnd sat rho d v := by
  unfold cvtWrite converted isFloat
  cases hd : dst.cls with
  | true => rfl
  | false =>
    have hr : rnd ≠ .rs := fun h => absurd (hrs h) (by simp [hd])
    cases hs : src.cls with
    | true =>
      cases v with
      | nan => rfl
      | inf n => rfl
      | fin s m e => simp only [Bool.false_eq_true, if_false, if_true, toIntClamped_fin dst hr, wrInt]
    | false =>
      obtain ⟨s, m, rfl⟩ := hv hd hs
      simp only [Bool.false_eq_true, if_false, floor_toRat_fin, wrInt]

/-- A code of a packed type has 16 bits, whatever the random input. -/
theorem roundTo_half_lt {ty : Ty} (h : ty ∈ [Ty.f16x2, .bf16x2]) (r : Rnd) (sat : Bool) (rho : Nat) (x : Num) :
    roundTo ty r sat rho x < 2 ^ 16 := by
  simp only [List.mem_cons, List.not_mem_nil, or_false] at h
  rcases h with rfl | rfl
  · rw [roundTo_congr (ty := .f16x2) (ty' := .f16) rfl]
    exact roundTo_lt (by decide) rfl ..
  · rw [roundTo_congr (ty := .bf16x2) (ty' := .bf16) rfl]
    exact roundTo_lt (by decide) rfl ..

/-- Two codes of 16 bits side by side. -/
theorem ofNat_halves (hi : Nat) {lo : Nat} (h : lo < 2 ^ 16) :
    BitVec.ofNat 32 (lo + 65536 * hi) = BitVec.ofNat 16 hi ++ BitVec.ofNat 16 lo := by
  refine BitVec.eq_of_toNat_eq ?_
  rw [toNat_append, BitVec.toNat_ofNat, BitVec.toNat_ofNat, BitVec.toNat_ofNat]
  omega

/-- Settles O20. A scalar conversion writes what `converted` says of the exact value; a packed one puts two rounded codes
side by side. -/
theorem conversions : Obligations.Conversions := by
  refine ⟨fun x dst src rnd sat hf hb hrs => laneResults_of_runLanes fun s => ?_,
    fun x dst src rnd sat hrs hcls => laneResults_of_runLanes fun s => ?_,
    fun x dst rnd sat hdst => laneResults_of_runLanes fun s => ?_⟩
  · have hx2 : isX2 dst = false := by simp [isX2, hf, hb]
    have hv : ∀ rd, dst.cls = false → src.cls = false → ∃ s m, cvtSource x src rd = .fin s m 0 := fun rd _ hs =>
      ⟨_, _, by rw [cvtSource, cvtValue, isFloat, hs]; rfl⟩
    show execCvt x dst src rnd sat s = _
    simp only [execCvt, hx2, Bool.false_eq_true, if_false, cvtWrite_eq_converted hrs _ _ _ (hv _), half_eq]
    rfl
  · have hv : ∀ v : Num, dst.cls = false → src.cls = false → ∃ s m, v = .fin s m 0 := fun v hd hs => by
      simp [hd, hs] at hcls
    show execCvts x dst src rnd sat s = _
    simp only [execCvts, cvtWrite_eq_converted hrs _ _ _ (hv _), half_eq]
    rw [List.append_assoc]
    rfl
  · have hmem : dst ∈ [Ty.f16x2, .bf16x2] := by rcases hdst with rfl | rfl <;> decide
    have hx2 : isX2 dst = true := by rcases hdst with rfl | rfl <;> rfl
    show execCvt x dst .f32 rnd sat s = _
    simp only [execCvt, hx2, if_true, wrF, ofNat_halves _ (roundTo_half_lt hmem _ _ _ _), half_eq]
    rfl

end Sys2Proof.Machine

namespace Sys2Proof.Machine

/-! ### Lanes of one tile (R251–R260) -/

/-- The lanes of active(i) in the tile of a lane, by one test (R251). -/
theorem tileSet_eq (w : Nat) (act : Word) (l : Nat) :
    tileSet w act l = (List.range 32).filter fun k => act.getLsbD k && k / w == l / w := by
  rw [tileSet, lanesOf, List.filter_filter]
  exact List.filter_congr fun k _ => Bool.and_comm ..

/-- A cross-lane instruction writes what its lanes hold together. -/
theorem results_of_crossLane {i : Instr} {x : Ins} {u : Use} {res : Troupe → Word → Nat → List (Nat × Word)}
    (hi : ∀ s, exec i s = runWord x u s fun s t _ act => s.writeLanes t.id act (res t act)) :
    Results i x u (fun _ _ _ _ => True) fun _ t _ act l => res t act l :=
  results_of_runWord (fun _ _ _ _ => rfl) hi

/-- The checks before an effect do not ask whether an instruction reads lanes outside active(i) (R100). -/
theorem Results.of_skip {i : Instr} {x : Ins} {u : Use} {pre : State → Troupe → Path → Word → Prop}
    {res : State → Troupe → Path → Word → Nat → List (Nat × Word)} (h : Results i x { u with skip := true } pre res) :
    Results i x u pre res := fun s t p act hs hp => h s t p act hs hp

/-- IDF names a value for a selector, whatever the item. -/
theorem idfValue_isNone (h : LaunchHeader) (item item' : DWord) (sel : Nat) :
    (idfValue h item sel).isNone = (idfValue h item' sel).isNone := by
  unfold idfValue
  split_ifs <;> rfl

/-- The selectors that R187 names. -/
theorem idfValue_isNone_of_mem (h : LaunchHeader) (item : DWord) {sel : Nat}
    (hs : sel ∈ [0, 1, 2, 3, 4, 5, 0x10, 0x11, 0x12, 0x13]) : (idfValue h item sel).isNone = false := by
  simp only [List.mem_cons, List.not_mem_nil, or_false] at hs
  rcases hs with rfl | rfl | rfl | rfl | rfl | rfl | rfl | rfl | rfl | rfl <;> rfl

/-- Keys that are there are equal where their numbers are. -/
theorem beq_getD_toNat {a b : Option DWord} (ha : a.isNone = false) (hb : b.isNone = false) :
    ((a.getD 0).toNat == (b.getD 0).toNat) = (a == b) := by
  cases a with
  | none => exact absurd ha (by decide)
  | some v =>
    cases b with
    | none => exact absurd hb (by decide)
    | some w => exact Bool.eq_iff_iff.2 (by simp [BitVec.toNat_inj])

/-- MATCH by the field that a selector names (R259). -/
theorem matchKey_field_results (x : Ins) : Results (.matchKey x none) x
    { Use.lanes [(x.d, 1)] [] with whole := true, skip := true }
    (fun _ _ _ _ => x.imm.toNat ∈ [0, 1, 2, 3, 4, 5, 0x10, 0x11, 0x12, 0x13]) fun s t _ act l =>
      let key := fun k => idfValue (s.headerOf t) (t.lane k).item x.imm.toNat
      wr1 x.d (maskOf (((List.range 32).filter fun k => act.getLsbD k && k / t.tilePart.toNat == l / t.tilePart.toNat).filter
        fun k => key k == key l)) := by
  refine results_of_writes fun s t p act hs hp hsel => ?_
  have hheader : (s.start t p x { Use.lanes [(x.d, 1)] [] with whole := true, skip := true }).headerOf t = s.headerOf t := by
    rw [State.headerOf, State.launchOf_start]
    rfl
  have hthere := fun item => idfValue_isNone_of_mem (s.headerOf t) item hsel
  show execMatch x none s = _
  refine runEff_of_passes (fun s t _ act =>
    let h := s.headerOf t
    if (idfValue h 0 x.imm.toNat).isNone then .done s (faultAll act 0x0B 0)
    else .done (s.writeLanes t.id act fun l => wr1 x.d (matchMask t.tilePart.toNat act
      (fun k => ((idfValue h (t.lane k).item x.imm.toNat).getD 0).toNat) l)) []) hs hp ?_
  simp only [hheader, hthere 0, Bool.false_eq_true, if_false, matchMask, tileSet_eq, beq_getD_toNat (hthere _) (hthere _)]

/-- The first lane of a list that satisfies a test, or no lane. -/
theorem find?_toWord (q : Nat → Bool) (ls : List Nat) : (match ls.find? q with
    | some k => BitVec.ofNat 32 k
    | none => 0xFFFFFFFF) = BitVec.ofNat 32 ((ls.filter q).headD 0xFFFFFFFF) := by
  rw [← List.head?_filter]
  cases ls.filter q with
  | nil =>
    simp only [List.head?_nil, List.headD_nil]
    decide
  | cons k ks => simp only [List.head?_cons, List.headD_cons]

end Sys2Proof.Machine

namespace Sys2Proof
section
open Machine

/-- Settles O25: each form over the lanes of its tile; a broadcast names its lane by a uniform operand. -/
theorem crossLane : Obligations.CrossLane := by
  refine ⟨fun x k ty => results_of_crossLane fun s => ?_, fun x any => results_of_crossLane fun s => ?_,
    fun x => results_of_crossLane fun s => ?_, fun x op ty rnd sat => results_of_crossLane fun s => ?_,
    fun x excl op ty rnd sat => results_of_crossLane fun s => ?_, fun x ty => results_of_crossLane fun s => ?_,
    fun x ty => results_of_crossLane fun s => ?_, fun x ty first => Results.of_skip (results_of_crossLane fun s => ?_),
    fun x ty => results_of_crossLane fun s => ?_, matchKey_field_results, fun x => results_of_crossLane fun s => ?_⟩
  · show execShfl x k ty s = _
    simp only [execShfl, Machine.crossLane, laneTy, shflSource, tileBase]
    rfl
  · show execVote x any s = _
    simp only [execVote, Machine.crossLane, tileSet_eq, List.any_map, List.all_map, flag]
    rfl
  · show execBallot x s = _
    simp only [execBallot, Machine.crossLane, tileSet_eq]
  · show execRedux x op ty rnd sat s = _
    simp only [execRedux, Machine.crossLane, tileSet_eq]
  · show execScan x excl op ty rnd sat s = _
    simp only [execScan, Machine.crossLane, tileSet_eq]
  · show execArgmx x ty s = _
    simp only [execArgmx, Machine.crossLane, tileSet_eq]
  · show execArgmn x ty s = _
    simp only [execArgmn, Machine.crossLane, tileSet_eq]
  · show execBcast x ty first s = _
    simp only [execBcast, laneTy, tileBase, beq_iff_eq]
    rfl
  · show execMatch x (some ty) s = _
    simp only [execMatch, Machine.crossLane, matchMask, tileSet_eq, laneTy]
  · show execFirstl x s = _
    simp only [execFirstl, Machine.crossLane, tileSet_eq, beq_iff_eq]
    exact congrArg (runWord x _ s) (funext fun s => funext fun t => funext fun _ => funext fun act =>
      congrArg (s.writeLanes t.id act) (funext fun l => congrArg (wr1 x.d) (find?_toWord _ _)))

end
end Sys2Proof

namespace Sys2Proof.Machine

/-! ### Block quantization (R219–R222) -/

/-- The greatest of some numbers that are all zero. -/
theorem maxNum_of_zeros {l : List Num} (h : l.all Num.isZero = true) : maxNum l = .fin false 0 0 := by
  unfold maxNum
  induction l with
  | nil => rfl
  | cons x xs ih =>
    rw [List.all_cons, Bool.and_eq_true] at h
    have hx : x.isNan = false := by
      cases x with
      | nan => exact absurd h.1 (by decide)
      | inf s => rfl
      | fin s m e => rfl
    have hext : x.ext = (Num.fin false 0 0).ext := by rw [Num.ext_of_isZero h.1, Num.ext_of_isZero rfl]
    have hcmp : ¬ (Num.fin false 0 0).cmp x < 0 := by
      rcases Num.cmp_cases (x := .fin false 0 0) rfl hx with ⟨-, hlt⟩ | ⟨hc, -⟩ | ⟨-, hgt⟩
      · exact absurd hlt (hext ▸ lt_irrefl _)
      · exact hc.not_lt
      · exact absurd hgt (hext ▸ lt_irrefl _)
    rw [List.foldl_cons, if_neg (by simpa using hcmp)]
    exact ih h.2

/-- No number is greater than +infinity. -/
theorem not_inf_cmp_neg {x : Num} (h : x.isNan = false) : ¬ (Num.inf false).cmp x < 0 := by
  cases x with
  | nan => exact absurd h (by decide)
  | inf s => cases s <;> decide
  | fin s m e => exact Int.not_lt.2 (by decide : (0 : Int) ≤ 1)

/-- What is not +infinity lies below it. -/
theorem cmp_inf_neg {m : Num} (h : m.isNan = false) (hm : m ≠ .inf false) : m.cmp (.inf false) < 0 := by
  cases m with
  | nan => exact absurd h (by decide)
  | inf s =>
    cases s with
    | false => exact absurd rfl hm
    | true => decide
  | fin s k e => exact (by decide : (-1 : Int) < 0)

/-- The greatest of some numbers with +infinity among them. -/
theorem maxNum_of_inf {l : List Num} (hnan : ∀ x ∈ l, x.isNan = false) (hinf : Num.inf false ∈ l) :
    maxNum l = .inf false := by
  have hfold : ∀ (l : List Num) (m : Num), m.isNan = false → (∀ x ∈ l, x.isNan = false) →
      m = .inf false ∨ Num.inf false ∈ l →
      l.foldl (fun m x => if decide (m.cmp x < 0) = true then x else m) m = .inf false := by
    intro l
    induction l with
    | nil => exact fun m _ _ h => h.resolve_right (List.not_mem_nil)
    | cons x xs ih =>
      intro m hm hall hor
      obtain ⟨hx, hxs⟩ := List.forall_mem_cons.1 hall
      rw [List.foldl_cons]
      by_cases hlt : m.cmp x < 0
      · rw [if_pos (by simpa using hlt)]
        refine ih x hx hxs ?_
        rcases hor with rfl | hmem
        · exact absurd hlt (not_inf_cmp_neg hx)
        · exact (List.mem_cons.1 hmem).imp_left Eq.symm
      · rw [if_neg (by simpa using hlt)]
        refine ih m hm hxs ?_
        rcases hor with h | hmem
        · exact .inl h
        · rcases List.mem_cons.1 hmem with rfl | hmem
          · exact .inl (by_contra fun hne => hlt (cmp_inf_neg hm hne))
          · exact .inr hmem
  exact hfold l _ rfl hnan (.inr hinf)

/-- An FP32 quotient of a number by a valid band scale is a number (R139, R219). -/
theorem isNan_overBand {x : Num} (hx : x.isNan = false) {beta : Nat} (hb : bandValid beta = true) :
    (value .f32 (overBand x beta)).isNan = false := by
  have hover : ∀ s, (value .f32 (overflowCode (floatFormat .f32) false s)).isNan = false := by decide
  have hzero : ∀ s, (value .f32 (withSign (floatFormat .f32) s 0)).isNan = false := by decide
  unfold bandValid at hb
  unfold overBand
  split at hb
  · next m e hval =>
    rw [hval]
    have hm : m ≠ 0 := by simpa using hb
    cases x with
    | nan => exact absurd hx (by decide)
    | inf s =>
      simp only [divRound, roundTo, Num.signNeg, floatFormat, Bool.not_true, Bool.and_false, Bool.false_eq_true, if_false]
      exact hover _
    | fin s k g =>
      simp only [divRound, hm, if_false]
      split
      · rw [roundTo_zero]
        exact hzero _
      · next hk =>
        obtain ⟨j, rem, d, -, hround⟩ := roundQ_yields (ty := .f32) (by decide)
          (num := (quotFrac k g m e).1) (den := (quotFrac k g m e).2)
          (Nat.mul_pos (Nat.pos_of_ne_zero hk) (pow2_pos _).1).ne' (Nat.mul_pos (Nat.pos_of_ne_zero hm) (pow2_pos _).2).ne'
        rcases hround .rne false 0 (s != false) fun _ => rfl with ⟨hle, hfits⟩ | ⟨-, hcode | hcode⟩
        · rw [hfits]
          exact isNan_withSign (by decide) (fun _ => rfl) hle
        · rw [hcode]
          exact hover _
        · rw [hcode]
          exact isNan_withSign (by decide) (fun _ => rfl) le_rfl
  · exact absurd hb (by decide)

theorem Num.isNan_abs (x : Num) : x.abs.isNan = x.isNan := by cases x <;> rfl

theorem Num.abs_of_isInf {x : Num} (h : x.isInf = true) : x.abs = .inf false := by
  cases x with
  | inf s => rfl
  | nan => exact absurd h (by decide)
  | fin s m e => exact absurd h Bool.false_ne_true

theorem Num.isInf_abs (x : Num) : x.abs.isInf = x.isInf := by cases x <;> rfl

/-- The scale of a group, with its zeros and its infinities taken out (R140, R220). -/
theorem groupScale_eq (ty : Ty) (vs : List Num) (beta : Nat) : groupScale ty vs beta =
    if (!bandValid beta || vs.any Num.isNan || (vs.any Num.isInf && ty != .e5m2)) = true then 0xFF
    else if ((vs.map fun v => (value .f32 (overBand v beta)).abs).all Num.isZero) = true then 0
    else if ((vs.map fun v => (value .f32 (overBand v beta)).abs).any Num.isInf) = true then 0xFE
    else blockScale ty (maxNum (vs.map fun v => (value .f32 (overBand v beta)).abs)) := by
  unfold groupScale
  split_ifs with hbad hzero hinf
  · rfl
  · rw [maxNum_of_zeros hzero]
    rfl
  · simp only [Bool.or_eq_true, Bool.not_eq_true', not_or, Bool.not_eq_false, Bool.not_eq_true] at hbad
    obtain ⟨⟨hb, hnan⟩, -⟩ := hbad
    have hnans : ∀ y ∈ vs.map fun v => (value .f32 (overBand v beta)).abs, y.isNan = false := by
      intro y hy
      obtain ⟨v, hv, rfl⟩ := List.mem_map.1 hy
      rw [Num.isNan_abs]
      exact isNan_overBand (Bool.eq_false_of_not_eq_true (List.any_eq_false.1 hnan v hv)) hb
    obtain ⟨y, hy, hyinf⟩ := List.any_eq_true.1 hinf
    have hy' : y = .inf false := by
      obtain ⟨v, -, rfl⟩ := List.mem_map.1 hy
      exact Num.abs_of_isInf (by rwa [Num.isInf_abs] at hyinf)
    rw [maxNum_of_inf hnans (hy' ▸ hy)]
    simp only [blockScale]
  · rfl

/-- The first lane of a group that has one, whatever is named for an empty group. -/
theorem headD_of_mem {l : Nat} {ls : List Nat} (h : l ∈ ls) (a b : Nat) : ls.headD a = ls.headD b := by
  cases ls with
  | nil => exact absurd h List.not_mem_nil
  | cons => rfl

/-- Settles O21. Each instruction writes what its definition gives; the scale of a group of zeros is 0, and of one with an
infinity the largest. -/
theorem blockQuantization : Obligations.BlockQuantization := by
  have hbyte : ∀ v : Word, v.toNat % 256 = (v.extractLsb' 0 8).toNat := fun v => by rw [toNat_field]; simp
  unfold Obligations.BlockQuantization
  intro band valid scaled
  have hvalid : ∀ b, valid b = bandValid b := fun b => by
    show (match value .bf16 b with | .fin false m _ => decide (m ≠ 0) | _ => false) = _
    unfold bandValid
    rcases value .bf16 b with _ | _ | ⟨_ | _, m, e⟩
    case fin.false => exact (by cases m <;> rfl)
    all_goals rfl
  refine ⟨fun x ty first _ => results_of_writes fun s t p act hs hp hL => ?_,
    fun x ty rnd _ => laneResults_of_runLanes fun s => ?_, fun x dst src rnd sat => laneResults_of_runLanes fun s => ?_⟩
  · have hsize : ¬ ((uni t act x.c).toNat ≠ 8 ∧ (uni t act x.c).toNat ≠ 16 ∧ (uni t act x.c).toNat ≠ 32) := by
      simp only [List.mem_cons, List.not_mem_nil, or_false] at hL
      omega
    show execBlkscale x ty first s = _
    refine runEff_of_passes _ hs hp ?_
    simp only [if_neg hsize]
    refine congrArg (Eff.done · []) (State.writeLanes_congr _ _ fun l hl => congrArg (wrF x.d) ?_)
    have hmem : l ∈ (lanesOf act).filter fun k => k / (uni t act x.c).toNat == l / (uni t act x.c).toNat :=
      List.mem_filter.2 ⟨(mem_lanesOf ..).2 ⟨BitVec.lt_of_getLsbD hl, hl⟩, beq_self_eq_true _⟩
    rw [groupScale_eq, groupHead, headD_of_mem hmem l 0, half_eq]
    simp only [hvalid]
    rfl
  · show execQuant x ty rnd s = _
    simp only [execQuant, quantize, half_eq, hbyte, hvalid]
    rfl
  · show execDeq x dst src rnd sat s = _
    simp only [execDeq, dequantize, half_eq, hbyte, hvalid]
    rfl

end Sys2Proof.Machine

namespace Sys2Proof.Machine

/-! ### Scales and element codes of a block (R140, R220, R221) -/

/-- The exact quotient of two magnitudes, as a fraction. -/
theorem quotFrac_ratio (m : Nat) (e : Int) (n : Nat) (g : Int) :
    ((quotFrac m e n g).1 : ℚ) / (quotFrac m e n g).2 = (m * 2 ^ e) / (n * 2 ^ g) := by
  have hpow := pow2_ratio (e - g)
  rw [zpow_sub₀ two_ne_zero] at hpow
  simp only [quotFrac, Nat.cast_mul]
  rw [mul_div_mul_comm, hpow, ← mul_div_mul_comm]

theorem quotFrac_ne_zero {m n : Nat} (hm : m ≠ 0) (hn : n ≠ 0) (e g : Int) :
    (quotFrac m e n g).1 ≠ 0 ∧ (quotFrac m e n g).2 ≠ 0 :=
  ⟨(Nat.mul_pos (Nat.pos_of_ne_zero hm) (pow2_pos _).1).ne', (Nat.mul_pos (Nat.pos_of_ne_zero hn) (pow2_pos _).2).ne'⟩

/-- The largest finite value of an element format is positive. -/
theorem exists_maxValue : ∀ ty ∈ [Ty.e4m3, .e5m2, .e3m2, .e2m3, .e2m1], ∃ n g, maxValue ty = .fin false n g ∧ n ≠ 0 := by
  intro ty h
  simp only [List.mem_cons, List.not_mem_nil, or_false] at h
  rcases h with rfl | rfl | rfl | rfl | rfl <;> exact ⟨_, _, rfl, by decide⟩

/-- The value of an E3M5 code that is finite. -/
theorem toRat_e3m5 {c : Nat} (hc : c ≤ 0xFE) : (value .e3m5 c).toRat = magRat (floatFormat .e3m5) c := by
  obtain ⟨-, -, -, hval⟩ := withSign_reads (ty := .e3m5) (by decide) (s := false) nofun hc
  rwa [withSign_false, signRat, if_neg (by decide), one_mul] at hval

theorem toRat_maxValue_e3m5 : (maxValue .e3m5).toRat = magRat (floatFormat .e3m5) 0xFE := toRat_maxValue (by decide)

/-- A positive fraction rounded up to E3M5 and saturated: the least code that is not below it, or the largest (R140). -/
theorem roundQ_e3m5_rup {num den : Nat} (hn : num ≠ 0) (hd : den ≠ 0) :
    ((num : ℚ) / den ≤ (maxValue .e3m5).toRat → roundQ .e3m5 .rup true 0 false num den ≤ 0xFE ∧
      (num : ℚ) / den ≤ (value .e3m5 (roundQ .e3m5 .rup true 0 false num den)).toRat ∧
      ∀ c, c ≤ 0xFE → (num : ℚ) / den ≤ (value .e3m5 c).toRat →
        (value .e3m5 (roundQ .e3m5 .rup true 0 false num den)).toRat ≤ (value .e3m5 c).toRat) ∧
    ((maxValue .e3m5).toRat < (num : ℚ) / den → roundQ .e3m5 .rup true 0 false num den = 0xFE) := by
  obtain ⟨k, rem, d, hbr, hround⟩ := roundQ_yields (ty := .e3m5) (by decide) hn hd
  have hyields := hround .rup true 0 false nofun
  have hmono := magRat_strictMono (floatFormat .e3m5)
  rw [toRat_maxValue_e3m5]
  refine ⟨fun hle => ?_, fun hgt => ?_⟩
  · have hkept : roundedMag .rup false 0 k rem d ≤ 0xFE := hbr.roundedMag_le hle .rup false 0
    have hcode : roundQ .e3m5 .rup true 0 false num den = roundedMag .rup false 0 k rem d := by
      rcases hyields with ⟨-, hc⟩ | ⟨hover | ⟨hrs, -⟩, -⟩
      · rw [hc, withSign_false]
      · exact absurd hle (not_le.2 hover)
      · exact absurd hrs (by decide)
    rw [hcode, toRat_e3m5 hkept]
    refine ⟨hkept, hbr.le_rup 0, fun c hc hwant => ?_⟩
    rw [toRat_e3m5 hc] at hwant ⊢
    exact hmono.monotone (hbr.roundedMag_le hwant .rup false 0)
  · rcases hyields with ⟨hk, -⟩ | ⟨-, hc | hc⟩
    · exact absurd ((hbr.le_rup 0).trans (hmono.monotone hk)) (not_le.2 hgt)
    · exact hc
    · exact hc

/-- The formats that block scales serve have a sign. -/
theorem signed_of_blockType : ∀ ty ∈ [Ty.e4m3, .e5m2, .e3m2, .e2m3, .e2m1],
    (floatFormat ty).signed = true := by
  decide

/-- Settles O22. A block scale is the upward rounding of the exact quotient, and an element code one rounding of it. -/
theorem blockScaleAndElementQuotients : Obligations.BlockScaleAndElementQuotients := by
  intro ty hty
  obtain ⟨n, g, hmax, hn⟩ := exists_maxValue ty hty
  refine ⟨fun m e hm => ?_, fun r rho t m e s n g hs hn hm => ?_, fun r rho t s _ _ => ?_⟩
  · obtain ⟨hnum, hden⟩ := quotFrac_ne_zero hm hn e g
    have hwant : (Num.fin false m e).toRat / (maxValue ty).toRat = ((quotFrac m e n g).1 : ℚ) / (quotFrac m e n g).2 := by
      rw [quotFrac_ratio, hmax]
      simp [Num.toRat]
    have hscale : blockScale ty (.fin false m e) =
        roundQ .e3m5 .rup true 0 false (quotFrac m e n g).1 (quotFrac m e n g).2 := by
      cases m with
      | zero => exact absurd rfl hm
      | succ m => simp only [blockScale, hmax]
    rw [hwant, hscale]
    exact roundQ_e3m5_rup hnum hden
  · obtain ⟨hnum, hden⟩ := quotFrac_ne_zero hm hn e g
    refine ⟨(quotFrac m e n g).1, (quotFrac m e n g).2, hden,
      by simp only [quantCode, hs, hn, hm, if_false], ?_⟩
    rw [quotFrac_ratio, hs, abs_div, Num.abs_toRat_fin, Num.abs_toRat_fin]
  · have hsigned := signed_of_blockType ty hty
    simp only [quantCode, withSign, hsigned, Bool.true_and]
    split
    · rfl
    · exact (Nat.zero_add _).symm

end Sys2Proof.Machine

namespace Sys2Proof.Machine

/-! ### The best of a list -/

/-- A strict weak order, given as a test. -/
structure StrictWeak {α : Type} (lt : α → α → Bool) : Prop where
  asymm : ∀ {a b}, lt a b = true → lt b a = false
  negTrans : ∀ {a b c}, lt a b = false → lt b c = false → lt a c = false

/-- The better of the best so far and the next candidate; the first stands among equals. -/
def keepBest {α : Type} (lt : α → α → Bool) (b l : α) : α := if lt l b = true then l else b

section
variable {α : Type} {lt : α → α → Bool} (h : StrictWeak lt)

/-- The order that a key into a linear order gives. -/
theorem StrictWeak.of_key {κ : Type} [LinearOrder κ] (key : α → κ) : StrictWeak fun a b => decide (key a < key b) where
  asymm hab := decide_eq_false (not_lt.2 (of_decide_eq_true hab).le)
  negTrans hab hbc := decide_eq_false
    (not_lt.2 ((not_lt.1 (of_decide_eq_false hbc)).trans (not_lt.1 (of_decide_eq_false hab))))

include h

theorem StrictWeak.flip : StrictWeak fun a b => lt b a where
  asymm hab := h.asymm hab
  negTrans hab hbc := h.negTrans hbc hab

theorem StrictWeak.comap {β : Type} (f : β → α) : StrictWeak fun a b => lt (f a) (f b) where
  asymm hab := h.asymm hab
  negTrans hab hbc := h.negTrans hab hbc

theorem StrictWeak.irrefl (a : α) : lt a a = false := by
  cases hself : lt a a with
  | false => rfl
  | true => exact absurd (h.asymm hself) (by simp [hself])

/-- What beats the best so far beats every candidate that the best so far has outlasted. -/
theorem StrictWeak.beats {r m l : α} (hl : lt l r = true) (hm : lt m r = false) : lt l m = true := by
  cases hlm : lt l m with
  | true => rfl
  | false => exact absurd (h.negTrans hlm hm) (by simp [hl])

/-- The fold that keeps the better one ends at a member that no other beats. -/
theorem StrictWeak.foldl_best (k : α) (ks : List α) :
    ks.foldl (keepBest lt) k ∈ k :: ks ∧ ∀ m ∈ k :: ks, lt m (ks.foldl (keepBest lt) k) = false := by
  induction ks using List.reverseRecOn with
  | nil => exact ⟨List.mem_cons_self, List.forall_mem_singleton.2 (h.irrefl k)⟩
  | append_singleton ks l ih =>
    obtain ⟨hmem, hbest⟩ := ih
    rw [List.foldl_append, List.foldl_cons, List.foldl_nil, ← List.cons_append]
    simp only [List.forall_mem_append, List.forall_mem_singleton]
    unfold keepBest
    split
    · next hl => exact ⟨by simp, fun m hm => h.asymm (h.beats hl (hbest m hm)), h.irrefl l⟩
    · next hl => exact ⟨List.mem_append_left _ hmem, hbest, Bool.eq_false_iff.2 hl⟩

end

/-- Among candidates in rising order it beats those before it. -/
theorem StrictWeak.foldl_first {lt : Nat → Nat → Bool} (h : StrictWeak lt) (k : Nat) (ks : List Nat)
    (hrise : (k :: ks).Pairwise (· < ·)) :
    ∀ m ∈ k :: ks, m < ks.foldl (keepBest lt) k → lt (ks.foldl (keepBest lt) k) m = true := by
  induction ks using List.reverseRecOn with
  | nil => exact List.forall_mem_singleton.2 fun hlt => absurd hlt (Nat.lt_irrefl k)
  | append_singleton ks l ih =>
    rw [← List.cons_append, List.pairwise_append] at hrise
    obtain ⟨hrise, -, hlast⟩ := hrise
    obtain ⟨hmem, hbest⟩ := h.foldl_best k ks
    rw [List.foldl_append, List.foldl_cons, List.foldl_nil, ← List.cons_append]
    simp only [List.forall_mem_append, List.forall_mem_singleton]
    replace ih := ih hrise
    generalize ks.foldl (keepBest lt) k = r at *
    unfold keepBest
    split
    · next hl => exact ⟨fun m hm _ => h.beats hl (hbest m hm), fun hlt => absurd hlt (Nat.lt_irrefl l)⟩
    · exact ⟨ih, fun hlt => absurd (hlast r hmem l (List.mem_singleton_self l)) (by omega)⟩

/-! ### The order of numbers as a key -/

/-- The value of a number, and whether it is a +0 (R133). -/
def Num.key (x : Num) : WithBot (WithTop ℚ) ×ₗ Bool := toLex (x.ext, x.isZero && !x.signNeg)

theorem Num.key_lt_of_ext {x y : Num} (h : x.ext < y.ext) : x.key < y.key := Prod.Lex.toLex_lt_toLex.2 (.inl h)

theorem Num.isZero_of_ext {x : Num} (hx : x.isNan = false) (h : x.ext = ((0 : ℚ) : WithTop ℚ)) : x.isZero = true := by
  cases x with
  | nan => exact absurd hx (by decide)
  | inf s =>
    cases s with
    | false => exact absurd (WithBot.coe_inj.1 h) (WithTop.top_ne_coe)
    | true => exact absurd h (WithBot.bot_ne_coe)
  | fin s m e =>
    rw [Num.ext_fin, WithBot.coe_inj, WithTop.coe_inj] at h
    exact (Num.isZero_iff (Num.finite_fin s m e)).2 h

theorem Num.before_iff_key {x y : Num} (hx : x.isNan = false) :
    x.before y = decide (x.key < y.key) := by
  have hzero : x.ext = y.ext → y.isZero = true → x.isZero = true := fun heq h =>
    Num.isZero_of_ext hx (heq.trans (Num.ext_of_isZero h))
  have hext : x.isZero = true → y.isZero = true → x.ext = y.ext := fun h1 h2 => by
    rw [Num.ext_of_isZero h1, Num.ext_of_isZero h2]
  unfold Num.before Num.key
  rw [← Bool.decide_coe (decide _ || _)]
  refine decide_eq_decide.2 ?_
  rw [Prod.Lex.toLex_lt_toLex]
  cases hxz : x.isZero <;> cases hyz : y.isZero <;> cases hxs : x.signNeg <;> cases hys : y.signNeg <;> simp_all

/-! ### Combinations of integers (R254) -/

/-- The types that combine as integers with an order. -/
def orderedInts : List Ty := [.s32, .n32]

section
variable {ty : Ty} (h : ty ∈ orderedInts)
include h

theorem toInt_mem_range (v : Nat) : ty.least ≤ ty.toInt v ∧ ty.toInt v ≤ ty.greatest := by
  simp only [orderedInts, List.mem_cons, List.not_mem_nil, or_false] at h
  rcases h with rfl | rfl
  · by_cases hv : 2147483648 ≤ v % 4294967296 <;>
      simp [Ty.least, Ty.greatest, Ty.toInt, Ty.width, Ty.signed, hv] <;> omega
  · simp [Ty.least, Ty.greatest, Ty.toInt, Ty.width, Ty.signed]
    omega

theorem toInt_deliver {y : Int} (hy : ty.least ≤ y ∧ y ≤ ty.greatest) : ty.toInt (ty.deliver false y) = y := by
  simp only [orderedInts, List.mem_cons, List.not_mem_nil, or_false] at h
  rcases h with rfl | rfl
  · simp [Ty.least, Ty.greatest, Ty.toInt, Ty.width, Ty.signed, Ty.deliver] at hy ⊢
    split <;> omega
  · simp [Ty.least, Ty.greatest, Ty.toInt, Ty.width, Ty.signed, Ty.deliver] at hy ⊢
    omega

theorem deliver_toInt {v : Nat} (hv : v < 2 ^ 32) : ty.deliver false (ty.toInt v) = v := by
  have hw : ty.width = 32 := by revert ty; decide
  have hmod := Ty.toInt_emod ty v
  rw [hw, Nat.mod_eq_of_lt hv] at hmod
  simp only [Ty.deliver, Bool.false_eq_true, if_false, hw, hmod, Int.toNat_natCast]

end

/-- The least of a list of integers of the type is below each and one of them. -/
theorem foldl_min (k : Int) (ks : List Int) :
    ks.foldl min k ∈ k :: ks ∧ ∀ m ∈ k :: ks, ks.foldl min k ≤ m := by
  have hstep : (min : Int → Int → Int) = keepBest fun a b => decide (a < b) := by
    funext b l
    simp only [keepBest, decide_eq_true_eq]
    exact (min_comm b l).trans (min_def_lt l b)
  obtain ⟨hmem, hbest⟩ := (StrictWeak.of_key (fun a : Int => a)).foldl_best k ks
  exact hstep ▸ ⟨hmem, fun m hm => not_lt.1 (of_decide_eq_false (hbest m hm))⟩

theorem foldl_max (k : Int) (ks : List Int) :
    ks.foldl max k ∈ k :: ks ∧ ∀ m ∈ k :: ks, m ≤ ks.foldl max k := by
  have hstep : (max : Int → Int → Int) = keepBest fun a b => decide (b < a) := by
    funext b l
    simp only [keepBest, decide_eq_true_eq]
    exact (max_def_lt b l)
  obtain ⟨hmem, hbest⟩ := (StrictWeak.of_key (fun a : Int => a)).flip.foldl_best k ks
  exact hstep ▸ ⟨hmem, fun m hm => not_lt.1 (of_decide_eq_false (hbest m hm))⟩


theorem combine_int {ty : Ty} (h : ty ∈ orderedInts) (rnd : Rnd) (sat : Bool) (vs : List Nat) :
    combine .add ty rnd sat vs = ty.deliver sat (vs.map ty.toInt).sum ∧
    ty.toInt (combine .min ty rnd sat vs) = (vs.map ty.toInt).foldl min ty.greatest ∧
    ty.toInt (combine .max ty rnd sat vs) = (vs.map ty.toInt).foldl max ty.least := by
  have hne : ty ≠ .f32 := by revert ty; decide
  have hrange : ∀ k, ty.least ≤ k ∧ k ≤ ty.greatest → ∀ m ∈ k :: vs.map ty.toInt, ty.least ≤ m ∧ m ≤ ty.greatest :=
    fun k hk => List.forall_mem_cons.2 ⟨hk, List.forall_mem_map.2 fun v _ => toInt_mem_range h v⟩
  have hle : ty.least ≤ ty.greatest := (toInt_mem_range h 0).1.trans (toInt_mem_range h 0).2
  simp only [combine, if_neg hne]
  exact ⟨trivial, toInt_deliver h (hrange _ ⟨hle, le_rfl⟩ _ (foldl_min ..).1),
    toInt_deliver h (hrange _ ⟨le_rfl, hle⟩ _ (foldl_max ..).1)⟩

theorem combine_int_mem {ty : Ty} (h : ty ∈ orderedInts) (rnd : Rnd) (sat : Bool) {vs : List Nat} (hvs : vs ≠ [])
    (hlt : ∀ v ∈ vs, v < 2 ^ 32) :
    combine .min ty rnd sat vs ∈ vs ∧ combine .max ty rnd sat vs ∈ vs := by
  have hne : ty ≠ .f32 := by revert ty; decide
  obtain ⟨v, hv⟩ := List.exists_mem_of_ne_nil vs hvs
  have hmem : ∀ y, (∃ u ∈ vs, ty.toInt u = y) → ty.deliver false y ∈ vs := by
    rintro _ ⟨u, hu, rfl⟩
    rwa [deliver_toInt h (hlt u hu)]
  simp only [combine, if_neg hne]
  obtain ⟨hmin, hbelow⟩ := foldl_min ty.greatest (vs.map ty.toInt)
  obtain ⟨hmax, habove⟩ := foldl_max ty.least (vs.map ty.toInt)
  refine ⟨hmem _ ?_, hmem _ ?_⟩
  · rcases List.mem_cons.1 hmin with heq | hin
    · exact ⟨v, hv, le_antisymm ((toInt_mem_range h v).2.trans_eq heq.symm) (hbelow _ (List.mem_cons_of_mem _ (List.mem_map_of_mem hv)))⟩
    · exact List.mem_map.1 hin
  · rcases List.mem_cons.1 hmax with heq | hin
    · exact ⟨v, hv, le_antisymm (habove _ (List.mem_cons_of_mem _ (List.mem_map_of_mem hv))) (heq.trans_le (toInt_mem_range h v).1)⟩
    · exact List.mem_map.1 hin

/-! ### Combinations of bits -/

theorem testBit_foldl_and (k : Nat) (vs : List Nat) (a : Nat) :
    (vs.foldl (· &&& ·) a).testBit k = (a.testBit k && vs.all fun v => v.testBit k) := by
  induction vs generalizing a with
  | nil => simp
  | cons v vs ih => simp [ih, Bool.and_assoc]

theorem testBit_foldl_or (k : Nat) (vs : List Nat) (a : Nat) :
    (vs.foldl (· ||| ·) a).testBit k = (a.testBit k || vs.any fun v => v.testBit k) := by
  induction vs generalizing a with
  | nil => simp
  | cons v vs ih => simp [ih, Bool.or_assoc]

theorem testBit_foldl_xor (k : Nat) (vs : List Nat) (a : Nat) :
    (vs.foldl (· ^^^ ·) a).testBit k = (a.testBit k ^^ decide ((vs.countP fun v => v.testBit k) % 2 = 1)) := by
  induction vs generalizing a with
  | nil => simp
  | cons v vs ih =>
    have hflip : ∀ n : Nat, decide ((n + 1) % 2 = 1) = !decide (n % 2 = 1) := fun n => by
      rcases Nat.mod_two_eq_zero_or_one n with hn | hn <;> simp [Nat.add_mod, hn]
    rw [List.foldl_cons, ih, Nat.testBit_xor, List.countP_cons]
    cases v.testBit k <;> simp [hflip]

/-! ### Combinations of floats -/

theorem isNan_pickMinMax (isMax : Bool) (a b : Num) : (pickMinMax isMax false a b).isNan = (a.isNan || b.isNan) := by
  unfold pickMinMax
  cases ha : a.isNan <;> cases hb : b.isNan <;> cases isMax <;> simp [apply_ite Num.isNan, ha, hb] <;> rfl

theorem isNan_foldl_pickMinMax (isMax : Bool) (ns : List Num) (a : Num) :
    (ns.foldl (pickMinMax isMax false) a).isNan = (a.isNan || ns.any Num.isNan) := by
  induction ns generalizing a with
  | nil => simp
  | cons n ns ih => simp [ih, isNan_pickMinMax, Bool.or_assoc]

theorem rne_nan {n : Num} (h : n.isNan = true) : rne .f32 n = 0x7FC00000 := by
  cases n with
  | nan => rfl
  | inf s => exact absurd h nofun
  | fin s m e => exact absurd h nofun

/-- The order by which a minimum or a maximum keeps its operand. -/
def Num.beats (isMax : Bool) (a b : Num) : Bool := if isMax = true then decide (b.key < a.key) else decide (a.key < b.key)

theorem strictWeak_beats (isMax : Bool) : StrictWeak (Num.beats isMax) := by
  cases isMax with
  | false => exact StrictWeak.of_key Num.key
  | true => exact (StrictWeak.of_key Num.key).flip

theorem below_eq_key {a b : Num} (ha : a.isNan = false) (hb : b.isNan = false) : a.below b = decide (a.key < b.key) :=
  (Num.below_eq_before ha hb).trans (Num.before_iff_key ha)

theorem pickMinMax_eq_keepBest {isMax : Bool} {a b : Num} (ha : a.isNan = false) (hb : b.isNan = false) :
    pickMinMax isMax false a b = keepBest (Num.beats isMax) a b := by
  cases isMax <;> simp [pickMinMax, keepBest, Num.beats, ha, hb, below_eq_key]

theorem foldl_pickMinMax {isMax : Bool} {ns : List Num} {a : Num} (ha : a.isNan = false) (h : ∀ n ∈ ns, n.isNan = false) :
    ns.foldl (pickMinMax isMax false) a = ns.foldl (keepBest (Num.beats isMax)) a := by
  induction ns generalizing a with
  | nil => rfl
  | cons n ns ih =>
    obtain ⟨hn, hns⟩ := List.forall_mem_cons.1 h
    have hpick : (pickMinMax isMax false a n).isNan = false := by simp [isNan_pickMinMax, ha, hn]
    rw [List.foldl_cons, List.foldl_cons, ih hpick hns, pickMinMax_eq_keepBest ha hn]


theorem value_rne_value {v : Nat} (hv : (value .f32 v).isNan = false) (hlt : v < 2 ^ 32) : rne .f32 (value .f32 v) = v := by
  rw [rne_value (by decide) hv]
  exact Nat.mod_eq_of_lt hlt

/-- An infinity that no other number is beyond leaves only itself (R254). -/
theorem eq_inf_of_beats {isMax : Bool} {n : Num} (hn : n.isNan = false) (h : Num.beats isMax n (.inf isMax) = false) :
    n = .inf isMax := by
  cases n with
  | nan => exact absurd hn (by decide)
  | inf s => cases s <;> cases isMax <;> simp [Num.beats, Num.key, Prod.Lex.toLex_lt_toLex, Num.ext] at h ⊢
  | fin s m e =>
    cases isMax with
    | false =>
      have hext : (Num.fin s m e).ext < (Num.inf false).ext := WithBot.coe_lt_coe.2 (WithTop.coe_lt_top _)
      exact absurd (Num.key_lt_of_ext hext) (of_decide_eq_false (p := Num.key _ < Num.key _) h)
    | true =>
      have hext : (Num.inf true).ext < (Num.fin s m e).ext := WithBot.bot_lt_coe _
      exact absurd (Num.key_lt_of_ext hext) (of_decide_eq_false (p := Num.key _ < Num.key _) h)

theorem combine_float (isMax : Bool) (rnd : Rnd) (sat : Bool) (vs : List Nat) :
    combine (if isMax = true then .max else .min) .f32 rnd sat vs =
      rne .f32 ((vs.map (value .f32)).foldl (pickMinMax isMax false) (.inf isMax)) := by
  cases isMax <;> rfl

/-- A minimum or a maximum of numbers is one of them that none beats. -/
theorem combine_float_best (isMax : Bool) (rnd : Rnd) (sat : Bool) {vs : List Nat} (hvs : vs ≠ [])
    (hnum : ∀ v ∈ vs, (value .f32 v).isNan = false ∧ v < 2 ^ 32) :
    ∃ r ∈ vs, combine (if isMax = true then .max else .min) .f32 rnd sat vs = r ∧
      ∀ v ∈ vs, Num.beats isMax (value .f32 v) (value .f32 r) = false := by
  rw [combine_float, foldl_pickMinMax rfl (List.forall_mem_map.2 fun v hv => (hnum v hv).1)]
  obtain ⟨hmem, hbest⟩ := (strictWeak_beats isMax).foldl_best (.inf isMax) (vs.map (value .f32))
  generalize (vs.map (value .f32)).foldl (keepBest (Num.beats isMax)) (.inf isMax) = n at *
  obtain ⟨-, hbest⟩ := List.forall_mem_cons.1 hbest
  have hin : ∃ r ∈ vs, value .f32 r = n := by
    rcases List.mem_cons.1 hmem with rfl | hin
    · obtain ⟨v, hv⟩ := List.exists_mem_of_ne_nil vs hvs
      exact ⟨v, hv, eq_inf_of_beats (hnum v hv).1 (hbest _ (List.mem_map_of_mem hv))⟩
    · exact List.mem_map.1 hin
  obtain ⟨r, hr, rfl⟩ := hin
  exact ⟨r, hr, value_rne_value (hnum r hr).1 (hnum r hr).2, fun v hv => hbest _ (List.mem_map_of_mem hv)⟩

/-! ### The lane of ARGMX and ARGMN (R255) -/

theorem strictWeak_argBetter (isMax : Bool) (ty : Ty) : StrictWeak fun a b => argBetter isMax ty b a := by
  have hints : StrictWeak fun a b => if isMax = true then decide (ty.toInt b < ty.toInt a) else decide (ty.toInt a < ty.toInt b) := by
    cases isMax with
    | false => exact StrictWeak.of_key ty.toInt
    | true => exact (StrictWeak.of_key ty.toInt).flip
  by_cases hty : ty = .f32
  · subst hty
    have hbetter : ∀ a b, argBetter isMax .f32 b a = if (value .f32 b).isNan = true then !(value .f32 a).isNan
        else !(value .f32 a).isNan && Num.beats isMax (value .f32 a) (value .f32 b) := by
      intro a b
      cases ha : (value .f32 a).isNan <;> cases hb : (value .f32 b).isNan <;>
        cases isMax <;> simp [argBetter, ha, hb, Num.beats, below_eq_key]
    have hbeats := strictWeak_beats isMax
    constructor
    · intro a b
      simp only [hbetter]
      cases ha : (value .f32 a).isNan <;> cases hb : (value .f32 b).isNan <;> simp
      exact hbeats.asymm
    · intro a b c
      simp only [hbetter]
      cases ha : (value .f32 a).isNan <;> cases hb : (value .f32 b).isNan <;> cases hc : (value .f32 c).isNan <;> simp
      exact hbeats.negTrans
  · simpa only [argBetter, if_neg hty] using hints

theorem argLane_cons (isMax : Bool) (ty : Ty) (v : Nat → Nat) (k : Nat) (ks : List Nat) :
    let best := ks.foldl (keepBest fun l b => argBetter isMax ty (v b) (v l)) k
    argLane isMax ty v (k :: ks) = if ty = .f32 ∧ (value .f32 (v best)).isNan = true then 0xFFFFFFFF
      else BitVec.ofNat 32 best := rfl

/-- Whether a value may be named by ARGMX and ARGMN. -/
def argGood (ty : Ty) (c : Nat) : Bool := if ty = .f32 then !(value .f32 c).isNan else true

theorem argBetter_of_good {isMax : Bool} {ty : Ty} {a b : Nat} (ha : argGood ty a = true) (hb : argGood ty b = true) :
    argBetter isMax ty a b = if ty = .f32 then
        (if isMax = true then (value .f32 a).below (value .f32 b) else (value .f32 b).below (value .f32 a))
      else if isMax = true then decide (ty.toInt a < ty.toInt b) else decide (ty.toInt b < ty.toInt a) := by
  unfold argGood at ha hb
  unfold argBetter
  split
  · next hty =>
    rw [if_pos hty, Bool.not_eq_true'] at ha hb
    simp [ha, hb]
  · rfl

/-- Where the best is a NaN, every lane is one. -/
theorem argGood_of_best {isMax : Bool} {ty : Ty} {a b : Nat} (ha : argGood ty a = false) (h : argBetter isMax ty a b = false) :
    argGood ty b = false := by
  unfold argGood at ha ⊢
  unfold argBetter at h
  split at ha
  · next hty =>
    rw [Bool.not_eq_false'] at ha
    simpa [hty, ha] using h
  · exact absurd ha nofun

theorem argLane_best (isMax : Bool) (ty : Ty) (v : Nat → Nat) {ls : List Nat} (hrise : ls.Pairwise (· < ·)) :
    ((ls.any fun l => argGood ty (v l)) = false → argLane isMax ty v ls = 0xFFFFFFFF) ∧
    ((ls.any fun l => argGood ty (v l)) = true → ∃ b ∈ ls, argLane isMax ty v ls = BitVec.ofNat 32 b ∧
      argGood ty (v b) = true ∧ ∀ l ∈ ls, argGood ty (v l) = true →
        argBetter isMax ty (v b) (v l) = false ∧ (l < b → argBetter isMax ty (v l) (v b) = true)) := by
  cases ls with
  | nil => exact ⟨fun _ => rfl, fun h => absurd h nofun⟩
  | cons k ks =>
    have horder := (strictWeak_argBetter isMax ty).comap v
    obtain ⟨hmem, hbest⟩ := horder.foldl_best k ks
    have hfirst := horder.foldl_first k ks hrise
    have hlane : argLane isMax ty v (k :: ks) = _ := argLane_cons isMax ty v k ks
    generalize ks.foldl (keepBest _) k = b at *
    have hgood : argLane isMax ty v (k :: ks) = if argGood ty (v b) = true then BitVec.ofNat 32 b else 0xFFFFFFFF := by
      rw [hlane, argGood]
      by_cases hty : ty = .f32 <;> cases hnan : (value .f32 (v b)).isNan <;> simp [hty]
    cases hb : argGood ty (v b) with
    | false =>
      have hnone : ((k :: ks).any fun l => argGood ty (v l)) = false :=
        List.any_eq_false.2 fun l hl => by simp [argGood_of_best hb (hbest l hl)]
      exact ⟨fun _ => by rw [hgood, hb]; rfl, fun hany => absurd hany (by simp [hnone])⟩
    | true =>
      refine ⟨fun hnone => absurd (List.any_eq_false.1 hnone b hmem) (by simp [hb]), fun _ => ⟨b, hmem, ?_, hb, ?_⟩⟩
      · rw [hgood, hb]; rfl
      · exact fun l hl _ => ⟨hbest l hl, hfirst l hl⟩

/-- Settles O26: each combination is a fold that keeps the exact value, or the better of two values. -/
theorem combinationsAndArgLanes : Obligations.CombinationsAndArgLanes := by
  refine ⟨fun ty rnd sat vs hty => ?_, fun rnd sat vs k hk => ?_, fun rnd sat => ?_, fun rnd sat vs hvs => ?_,
    fun rnd sat vs hnan => ?_, fun rnd sat vs hvs hall => ?_, fun isMax ty v ls _ hrise _ => ?_⟩
  · obtain ⟨hadd, hmin, hmax⟩ := combine_int hty rnd sat vs
    rw [hmin, hmax]
    refine ⟨hadd, fun u hu => ⟨?_, ?_⟩, combine_int_mem hty rnd sat, (combine_int hty rnd sat []).2⟩
    · exact (foldl_min ..).2 _ (List.mem_cons_of_mem _ (List.mem_map_of_mem hu))
    · exact (foldl_max ..).2 _ (List.mem_cons_of_mem _ (List.mem_map_of_mem hu))
  · have hones : (2 ^ 32 - 1).testBit k = true := by
      rw [Nat.testBit_two_pow_sub_one]; exact decide_eq_true hk
    refine ⟨?_, ?_, ?_⟩
    · exact (testBit_foldl_and k vs _).trans (by rw [hones, Bool.true_and])
    · exact (testBit_foldl_or k vs 0).trans (by simp)
    · exact (testBit_foldl_xor k vs 0).trans (by simp)
  · exact ⟨rfl, rfl, rfl⟩
  · simp [combine, hvs]
  · have hfold : ∀ isMax, combine (if isMax = true then .max else .min) .f32 rnd sat vs = 0x7FC00000 := fun isMax => by
      rw [combine_float]
      refine rne_nan ?_
      rw [isNan_foldl_pickMinMax, List.any_map]
      exact hnan
    exact ⟨hfold false, hfold true⟩
  · have hnum : ∀ v ∈ vs, (value .f32 v).isNan = false ∧ v < 2 ^ 32 := fun v hv => by
      simpa using List.all_eq_true.1 hall v hv
    obtain ⟨r, hr, hmin, hleast⟩ := combine_float_best false rnd sat hvs hnum
    obtain ⟨q, hq, hmax, hgreatest⟩ := combine_float_best true rnd sat hvs hnum
    refine ⟨hmin.symm ▸ hr, hmax.symm ▸ hq, fun v hv => ⟨?_, ?_⟩⟩
    · exact hmin.symm ▸ (below_eq_key (hnum v hv).1 (hnum r hr).1).trans (hleast v hv)
    · exact hmax.symm ▸ (below_eq_key (hnum q hq).1 (hnum v hv).1).trans (hgreatest v hv)
  · intro good better
    obtain ⟨hnone, hsome⟩ := argLane_best isMax ty v hrise
    refine ⟨hnone, fun hany => ?_⟩
    obtain ⟨b, hb, hlane, hgood, hbest⟩ := hsome hany
    refine ⟨b, hb, hlane, hgood, fun l hl hl' => ?_⟩
    have hbetter := hbest l hl hl'
    rwa [argBetter_of_good hgood hl', argBetter_of_good hl' hgood] at hbetter
end Sys2Proof.Machine

namespace Sys2Proof.Machine

/-! ### The special functions (R132, R215) -/

/-- A NaN operand gives the canonical NaN. -/
theorem special_of_nan {c : Nat} (h : value .f32 c = .nan) :
    ∀ f ∈ [frcp, frsq, fsqrt, flog2, fexp2, fsin, fcos, ftanh, flgst], f c = 0x7FC00000 := by
  have hcanon : ∀ b, fsincos b c = 0x7FC00000 := fun b => by simp [fsincos, h]
  have hrcp : frcp c = 0x7FC00000 := by
    rw [frcp, h]
    rfl
  simp [frsq, fsqrt, flog2, fexp2, fsin, fcos, ftanh, flgst, hcanon, hrcp, h]

/-- A negative operand has no root and no logarithm. -/
theorem special_of_negative {c : Nat}
    (h : (∃ m e, value .f32 c = .fin true m e ∧ m ≠ 0) ∨ value .f32 c = .inf true) :
    ∀ f ∈ [frsq, fsqrt, flog2], f c = 0x7FC00000 := by
  rcases h with ⟨m, e, h, hm⟩ | h
  · simp [frsq, fsqrt, flog2, h, hm]
  · simp [frsq, fsqrt, flog2, h]

/-- A division of finite numbers other than zeros is one rounding of the exact quotient. -/
theorem divRound_exact (s t : Bool) {m n : Nat} (hm : m ≠ 0) (hn : n ≠ 0) (e g : Int) : ∃ num den, den ≠ 0 ∧
    divRound .f32 .rne (.fin s m e) (.fin t n g) = roundQ .f32 .rne false 0 (s != t) num den ∧
      (num : ℚ) / den = |(Num.fin s m e).toRat / (Num.fin t n g).toRat| := by
  refine ⟨(quotFrac m e n g).1, (quotFrac m e n g).2, (quotFrac_ne_zero hm hn e g).2, ?_, ?_⟩
  · simp only [divRound, hm, hn, if_false]
  · rw [quotFrac_ratio, abs_div, Num.abs_toRat_fin, Num.abs_toRat_fin]

/-- The table of a division where an operand is a NaN, an infinity or a zero (R131). -/
theorem divRound_special (x y : Num) : match x, y with
    | .nan, _ => divRound .f32 .rne x y = 0x7FC00000
    | _, .nan => divRound .f32 .rne x y = 0x7FC00000
    | .inf _, .inf _ => divRound .f32 .rne x y = 0x7FC00000
    | .inf s, .fin t _ _ => divRound .f32 .rne x y = if (s != t) = true then 0xFF800000 else 0x7F800000
    | .fin s _ _, .inf t => divRound .f32 .rne x y = if (s != t) = true then 0x80000000 else 0
    | .fin s m _, .fin t n _ => n = 0 ∨ m = 0 → divRound .f32 .rne x y =
        if n = 0 ∧ m = 0 then 0x7FC00000
        else (if (s != t) = true then 0x80000000 else 0) + if n = 0 then 0x7F800000 else 0 := by
  cases x with
  | nan => rfl
  | inf s =>
    cases y with
    | nan => rfl
    | inf t => rfl
    | fin t n g => cases s <;> cases t <;> rfl
  | fin s m e =>
    cases y with
    | nan => rfl
    | inf t => cases s <;> cases t <;> rfl
    | fin t n g =>
      intro hzero
      cases n with
      | zero => cases m <;> cases s <;> cases t <;> rfl
      | succ n =>
        obtain rfl : m = 0 := hzero.resolve_left n.succ_ne_zero
        cases s <;> cases t <;> rfl

theorem flog2_pow2 {c k : Nat} {e : Int} (h : value .f32 c = .fin false (2 ^ k) e) :
    flog2 c = rne .f32 (.fin (decide (e + k < 0)) (e + k).natAbs 0) := by
  simp [flog2, h, log2Round, Nat.log2_two_pow]

/-- A power of two above every finite value rounds to infinity. -/
theorem rne_pow2_high {k : Int} (h : 200 ≤ k) : rne .f32 (.fin false 1 k) = 0x7F800000 := by
  have hfrac : frac 1 k = (2 ^ k.toNat, 1) := by rw [frac, pow2, if_pos (by omega), Nat.one_mul]
  have hnext : frac (2 * (maxFinite (floatFormat .f32)).1 + 1) ((maxFinite (floatFormat .f32)).2 - 1) =
      ((2 ^ 25 - 1) * 2 ^ 103, 1) := by decide +kernel
  have hlarge : (2 ^ 25 - 1) * 2 ^ 103 ≤ 2 ^ k.toNat :=
    le_trans (by decide) (Nat.pow_le_pow_right two_pos (show 200 ≤ k.toNat by omega))
  have hcode : overflowCode (floatFormat .f32) false false = 0x7F800000 := by decide
  have hover : ∀ n q, overflows (floatFormat .f32) .rne false (2 ^ k.toNat) 1 n q = true := fun n q => by
    simp only [overflows, hnext, Nat.mul_one, decide_eq_true hlarge]
  show roundQ .f32 .rne false 0 false (frac 1 k).1 (frac 1 k).2 = _
  rw [hfrac, roundQ_of_ne_zero rfl _ _ _ false (Nat.two_pow_pos _).ne' (fun hneg => absurd hneg Bool.false_ne_true)]
  simp only [hover, if_true, hcode]

/-- A power of two below half the least value above zero rounds to zero. -/
theorem rne_pow2_low {k : Int} (h : k ≤ -200) : rne .f32 (.fin false 1 k) = 0 := by
  have hvalue : |(Num.fin false 1 k).toRat| = 2 ^ k := by rw [Num.abs_toRat_fin, Nat.cast_one, one_mul]
  have hsmall : (2 : ℚ) ^ k ≤ 2 ^ (-200 : Int) := zpow_le_zpow_right₀ one_le_two h
  have hpos : (0 : ℚ) < 2 ^ k := by positivity
  have hleast : magRat (floatFormat .f32) 1 = 2 ^ (-149 : Int) := by
    have hone : magValue (floatFormat .f32) false 1 = .fin false 1 (-149) := by decide
    simp [magRat, hone, Num.toRat]
  have hmax : |(Num.fin false 1 k).toRat| ≤ (maxValue .f32).toRat := by
    have hlargest : maxValue .f32 = .fin false (2 ^ 24 - 1) 104 := by decide
    rw [hvalue, hlargest]
    refine hsmall.trans ?_
    norm_num [Num.toRat]
  obtain ⟨j, rem, d, hbr, hround⟩ := roundTo_of_le (ty := .f32) (by decide) (s := false) nofun hmax
  rw [rne, (hround .rne 0 nofun).2, withSign_false]
  rw [hvalue] at hbr
  have hnear := (hbr.rne_nearest false 0 0).1
  rw [magRat_zero, sub_zero, abs_of_pos hpos] at hnear
  refine Nat.lt_one_iff.1 ((magRat_strictMono (floatFormat .f32)).lt_iff_lt.1 ?_)
  rw [hleast]
  calc _ ≤ (2 : ℚ) * 2 ^ k := by linarith [(abs_le.1 hnear).1]
    _ ≤ (2 : ℚ) * 2 ^ (-200 : Int) := by linarith
    _ < (2 : ℚ) ^ (-149 : Int) := by norm_num

/-- The exact power of two of an integer argument; from 200 on the format decides (R132). -/
theorem fexp2_int {c : Nat} {k : Int} (hnan : (value .f32 c).isNan = false) (hinf : (value .f32 c).isInf = false)
    (h : (value .f32 c).toRat = k) : fexp2 c = rne .f32 (.fin false 1 k) := by
  obtain ⟨s, m, e, hc⟩ := Num.Finite.exists_fin ⟨hnan, hinf⟩
  rw [hc] at h
  have hden : 0 < (frac m e).2 := frac_den_pos m e
  have hratio : signRat s * ((frac m e).1 / (frac m e).2) = (k : ℚ) := by
    rw [frac_ratio, ← h, Num.toRat, mul_assoc]; rfl
  have hint : roundInt .rdn s (frac m e).1 (frac m e).2 = k := by
    rw [← integral_eq_roundInt (by decide) s _ hden, hratio]
    exact Int.floor_intCast k
  have hquot : (0 : ℚ) ≤ (frac m e).1 / (frac m e).2 := by positivity
  have hnum : (frac m e).1 = k.natAbs * (frac m e).2 := by
    have habs := abs_signRat_mul s ((frac m e).1 / (frac m e).2)
    rw [hratio, abs_of_nonneg hquot, eq_div_iff (by positivity), ← Int.cast_abs, ← Nat.cast_natAbs] at habs
    exact_mod_cast habs.symm
  have hrange : 200 * (frac m e).2 ≤ (frac m e).1 ↔ 200 ≤ k.natAbs := by
    rw [hnum]; exact Nat.mul_le_mul_right_iff hden
  have hmod : (frac m e).1 % (frac m e).2 = 0 := by rw [hnum]; exact Nat.mul_mod_left ..
  have hexp : fexp2 c = if (s && decide (200 ≤ k.natAbs)) = true then 0 else if decide (200 ≤ k.natAbs) = true then 0x7F800000
      else rne .f32 (.fin false 1 k) := by
    simp only [fexp2, hc, hrange, hmod, hint, if_true]
  rw [hexp]
  by_cases hlarge : 200 ≤ k.natAbs
  · cases s with
    | true =>
      have hneg : k ≤ 0 := by
        rw [signRat, if_pos rfl] at hratio
        exact_mod_cast (by linarith : (k : ℚ) ≤ 0)
      rw [rne_pow2_low (by omega)]
      simp [hlarge]
    | false =>
      have hnonneg : 0 ≤ k := by
        rw [signRat, if_neg Bool.false_ne_true] at hratio
        exact_mod_cast (by linarith : (0 : ℚ) ≤ k)
      rw [rne_pow2_high (by omega)]
      simp [hlarge]
  · simp [hlarge]

/-- Settles O19. Each function is a lane function of its operand, with the values of its table and of exact arguments. -/
theorem specialFunctions : Obligations.SpecialFunctions := by
  refine ⟨fun x => laneResults_of_runLanes fun _ => rfl, fun x => laneResults_of_runLanes fun _ => rfl,
    fun x => laneResults_of_runLanes fun _ => rfl, fun x => laneResults_of_runLanes fun _ => rfl,
    fun x => laneResults_of_runLanes fun _ => rfl, fun x => laneResults_of_runLanes fun _ => rfl,
    fun x => laneResults_of_runLanes fun _ => rfl, fun x => laneResults_of_runLanes fun _ => rfl,
    fun x => laneResults_of_runLanes fun _ => rfl, fun x => laneResults_of_runLanes fun _ => rfl,
    fun c => special_of_nan, fun c => special_of_negative, by decide +kernel, by decide +kernel, by decide +kernel,
    by decide +kernel, by decide +kernel, by decide +kernel, by decide +kernel, by decide +kernel, ?_, ?_,
    fun a b => divRound_special _ _, fun c k e => flog2_pow2, fun c k => fexp2_int⟩
  · intro a b s m e t n g ha hb hm hn
    rw [fdiv, ha, hb]
    exact divRound_exact s t hm hn e g
  · intro a s m e ha hm
    obtain ⟨num, den, hden, hcode, hval⟩ := divRound_exact false s one_ne_zero hm 0 e
    refine ⟨num, den, hden, ?_, ?_⟩
    · rw [frcp, ha, hcode, Bool.false_bne]
    · rw [hval]
      simp [Num.toRat]
end Sys2Proof.Machine

/-! ### A line of another die behind an earlier request -/

namespace Sys2Proof.Machine.Placed

set_option Elab.async false

/-- A CLINE.wb that has begun with line 5 of die 1. -/
def remoteOp : Op :=
  { id := 7, cls := .st, kind := .cline .wb [(1, 5)], pc := wordPage, own := [.ord 0], lanes := 1, future := none,
    done := false, cancelled := false, fault := none, value := 0, lines := [], waitPage := none }

/-- Line 5, of which byte 0 is not in the pool yet. -/
def dirtyLine : L2Line :=
  { data := [(0, 1)], dirty := [0], accepted := [], raced := [], horizon := 0, pass := 0, passes := [], st := .m,
    coherent := false, leaving := false, once := none }

/-- Its troupe, on die 0. -/
def remoteTroupe : Troupe := { placedTroupe [placedPath] 0 4 with ops := [remoteOp] }

/-- The slice of die 1 holds the line, and a prefetch stands in the channel from die 0 to die 1. -/
def remoteState : State :=
  { placedState (.ord 0) remoteTroupe with
    dies := [Die.reset, { Die.reset with l2 := [(5, dirtyLine)] }, Die.reset, Die.reset],
    channels := [(1, [.fill 0 9 false false])] }

theorem remote_holds : remoteState.troupe? remoteTroupe.id = some remoteTroupe ∧ remoteTroupe.run = .running ∧
    (remoteState.ens.all fun e => e.st == .running) = true ∧ remoteTroupe.op? remoteOp.id = some remoteOp ∧
    remoteState.inRecovery 1 5 = false ∧ remoteState.asking 1 5 = false ∧ remoteState.line? 1 5 = some dirtyLine := by
  decide +kernel

/-- What an outcome leaves dirty of line 5. -/
def shownDirty (o : Host.Outcome State Fault Refusal) : Option (List Nat) :=
  match o with
  | .next s => (s.line? 1 5).map (·.dirty)
  | _ => none

theorem remote_waits : shownDirty (exec (.storePerformed 1 7 0) remoteState) = some [0] := by decide +kernel

/-- Refutes O44: the maintenance of a line of another die waits behind an earlier request of the channel, so the line of
`remoteState` stays dirty. The clause of CLINE.wb would need that the channel to the home die holds no earlier request. -/
theorem not_fencesAndLineMaintenance : ¬ Obligations.FencesAndLineMaintenance := by
  rintro ⟨-, -, -, -, -, -, hwb, -⟩
  obtain ⟨htr, hrun, hens, hop, hrec, hask, hline⟩ := remote_holds
  have hrunning : ∀ e, remoteState.ens? remoteTroupe.ens = some e → e.st = .running := fun e he => by
    simpa using List.all_eq_true.1 hens e (List.mem_of_find?_eq_some he)
  obtain ⟨s', t', hex, -, -, -, l, l', -, hl', hclean, -⟩ := hwb remoteState remoteTroupe remoteOp 1 5 htr hrun hrunning
    hop rfl rfl hrec hask (by decide) (by decide) ⟨dirtyLine, hline, rfl, rfl, by decide, by decide⟩
  have hshown := remote_waits
  rw [show exec (.storePerformed 1 7 0) remoteState = .next s' from hex] at hshown
  simp [shownDirty, hl', hclean] at hshown

end Sys2Proof.Machine.Placed

/-! ### Two lanes of a load of private memory -/

namespace Sys2Proof.Machine.Placed

set_option Elab.async false

/-- The access of a lane to the first word of its private memory. -/
def privAcc (l : Nat) : Acc :=
  { lane := l, va := 0, tgt := .priv 0, size := 4, mask := 15, data := 0, cmpv := 0, phase := .issued, pass := 0,
    bad := false }

/-- A load of it by lanes 0 and 1. -/
def privOp : Op :=
  { id := 7, cls := .ld, kind := .load .b32 .weak false 0 4 [privAcc 0, privAcc 1], pc := wordPage, own := [.ord 0],
    lanes := 3, future := none, done := false, cancelled := false, fault := none, value := 0, lines := [],
    waitPage := none }

def privTroupe : Troupe := { placedTroupe [placedPath] 0 4 with ops := [privOp] }

def privState : State := placedState (.ord 0) privTroupe

theorem priv_holds : privState.troupe? privTroupe.id = some privTroupe ∧ privTroupe.run = .running ∧
    (privState.ens.all fun e => e.st == .running) = true ∧ privTroupe.op? privOp.id = some privOp ∧
    (∀ b ∈ [privAcc 0, privAcc 1], privState.mayMake privTroupe privOp b = true) ∧
    (privOp.kind.accs.find? fun b => b.lane == (privAcc 0).lane) = some (privAcc 0) ∧ 0 < privTroupe.lanes.length := by
  decide +kernel

/-- The phases of the accesses of lane 1 that the operation has left. -/
theorem priv_stays : shown (exec (.loadReturn 1 7 (BitVec.ofNat 32 (2 ^ 0)) false) privState)
    (fun t => (t.op? 7).map fun o => (o.kind.accs.filter fun c => c.lane == 1).map (·.phase)) = some (some [.issued]) := by
  decide +kernel

/-- Refutes O43: each lane has a private memory of its own, so the load of `privState` that returns to lane 0 fixes
nothing for lane 1, which reads at the same offset. The second clause would need a target that is not private. -/
theorem not_memoryAccessesPerform : ¬ Obligations.MemoryAccessesPerform := by
  rintro ⟨-, htwin, -⟩
  obtain ⟨htr, hrun, hens, hop, hmay, hacc, hlanes⟩ := priv_holds
  have hrunning : ∀ e, privState.ens? privTroupe.ens = some e → e.st = .running := fun e he => by
    simpa using List.all_eq_true.1 hens e (List.mem_of_find?_eq_some he)
  have hmake : privState.CanMake privTroupe privOp (privAcc 0) :=
    ⟨htr, hrun, hrunning, hop, hacc, rfl, hmay _ (by decide), by decide, hlanes, rfl, rfl, by decide, trivial⟩
  obtain ⟨s', t', hex, ht', o', ho', c, hc, hlane, hphase, -⟩ := htwin privState privTroupe privOp (privAcc 0) (privAcc 1)
    .b32 .weak false 0 4 [privAcc 0, privAcc 1] hmake (fun c hc _ => hmay c hc) rfl rfl (by decide) (by decide)
    (by decide) (by decide) (by decide) rfl rfl rfl
  have hstay := shown_next priv_stays hex ht'
  rw [show t'.op? 7 = some o' from ho', Option.map_some, Option.some_inj] at hstay
  have hmem : c.phase ∈ (o'.kind.accs.filter fun c => c.lane == 1).map (·.phase) :=
    List.mem_map_of_mem (List.mem_filter.2 ⟨hc, by simp [hlane, privAcc]⟩)
  rw [hstay, hphase] at hmem
  exact absurd hmem (by decide)

end Sys2Proof.Machine.Placed

/-! ### A load that a slice executes again -/

namespace Sys2Proof.Machine.Placed

set_option Elab.async false

/-- A slice that executes one word again on its own, with the path that it has left. -/
def rerunTroupe : Troupe := placedTroupe [{ placedPath with slices := 0xFE, pc := wordPage + 32 }, againPath] 0 4

def rerunState : State := placedState (.handler 0) rerunTroupe

/-- LD of a word of the page of the placed word. -/
def loadWord : Ins := Ins.plain .f10 12 8 (BitVec.ofNat 32 wordPage)

theorem rerun_issues : rerunState.Issues rerunTroupe againPath ∧
    Passes rerunTroupe againPath loadWord (Use.lanes [(12, 1)] [(8, 2)]) 1 ∧
    rerunTroupe.counter rerunState.now .ld < 63 := by
  decide +kernel

/-- The address that it reads in lane `l`, as the statement has it. -/
def loadAddr (l : Nat) : Nat :=
  if Space.glob = .glob then (rdPair (rerunTroupe.reg l) loadWord.a + loadWord.imm.signExtend 64).toNat
  else (rerunTroupe.reg l loadWord.a.toNat + loadWord.imm).toNat

theorem rerun_checked : rerunState.checkAccess rerunTroupe .glob (loadAddr 0) (accBytes .b32) ⟨true, false, false⟩ =
    .inr (.pool 0 wordPage .priv) := by
  decide +kernel

theorem rerun_own : shown (exec (.ld loadWord .b32 .weak .glob) rerunState) (fun t => t.ops.map (·.own)) =
    some [[.ord 0]] := by decide +kernel

/-- Refutes O42: a slice that executes a load again ends with it, and its path takes over the operation that the load
has issued. The clauses that name the paths of the operation would need `p.retry = false`. -/
theorem not_memoryAccessesIssue : ¬ Obligations.MemoryAccessesIssue := by
  rintro ⟨hload, -⟩
  obtain ⟨hiss, hpass, hcount⟩ := rerun_issues
  have hlane : ∀ l, (1 : Word).getLsbD l = true → l = 0 := fun l hl => by
    simpa using hl
  have hchecked : ∀ l, (1 : Word).getLsbD l = true → rerunState.checkAccess rerunTroupe .glob (loadAddr l)
      (accBytes .b32) ⟨true, false, false⟩ = .inr (.pool 0 wordPage .priv) := fun l hl => by
    rw [hlane l hl]
    exact rerun_checked
  have hdone := hload loadWord .b32 .weak .glob (fun _ => .pool 0 wordPage .priv) rerunState rerunTroupe againPath 1 hiss
    hpass ⟨hcount, hchecked⟩
  obtain ⟨s', t', hex, ht', -, -, -, o, hops, -, -, -, hown, -⟩ := hdone
  have hshown := shown_next rerun_own hex ht'
  rw [hops, List.map_append, List.map_singleton, hown] at hshown
  exact absurd hshown (by decide)

end Sys2Proof.Machine.Placed

/-! ### A mailbox of a frozen device -/

namespace Sys2Proof.Machine.Placed

set_option Elab.async false

/-- A path that waits by MBGET at word 0. -/
def gettingPath : Path := { placedPath with wait := .mbget 0 4 1 }

/-- The troupe that waits, and the one that fills the word. -/
def gettingTroupe : Troupe := { placedTroupe [gettingPath] 0 4 with id := 9 }
def puttingTroupe : Troupe := placedTroupe [placedPath] 0 4

/-- Word 0 of die 0 is empty, granted to the launch, and waited at; the device is frozen. -/
def frozenState : State :=
  let s := placedState (.ord 0) puttingTroupe
  { s with
    troupes := [puttingTroupe, gettingTroupe]
    launches := s.launches.map fun l => { l with grants := [0] }
    dies := [{ Die.reset with mbox := [(0, { full := false, value := 0, waiters := [.path (refOf gettingTroupe gettingPath)] })] },
      Die.reset, Die.reset, Die.reset]
    fw := { s.fw with frozen := true } }

/-- MBPUT at word 0. -/
def putWord : Ins := Ins.plain .f00 0 8 0

theorem frozen_issues : frozenState.Issues puttingTroupe placedPath ∧
    Passes puttingTroupe placedPath putWord (Use.cmd [] [(8, 1), (0, 2)] false) 0xFFFFFFFF ∧
    (uni puttingTroupe 0xFFFFFFFF putWord.a).toNat = 0 ∧
    ((frozenState.launchOf puttingTroupe.ens).any fun l => l.mayReach 0) = true ∧ frozenState.waitedWords = [0] ∧
    (frozenState.word 0).full = false ∧ (frozenState.word 0).waiters = [.path (refOf gettingTroupe gettingPath)] ∧
    frozenState.troupe? gettingTroupe.id = some gettingTroupe ∧ gettingTroupe.path? gettingPath.sel = some gettingPath := by
  decide +kernel

/-- Whether an outcome leaves word 0 full. -/
def shownFull (o : Host.Outcome State Fault Refusal) : Option Bool :=
  match o with
  | .next s => some (s.word 0).full
  | _ => none

theorem frozen_full : shownFull (exec (.mbput putWord false) frozenState) = some true := by decide +kernel

/-- Refutes O45: nobody is served at a word while the device is frozen (R441), so the MBPUT of `frozenState` leaves it
full. The clause of a MBPUT where a MBGET waits would need that the device is not frozen. -/
theorem not_mailboxes : ¬ Obligations.Mailboxes := by
  rintro ⟨-, -, hserves, -⟩
  obtain ⟨hiss, hpass, haddr, hreach, hwords, hempty, hwaiters, htr, hpath⟩ := frozen_issues
  obtain ⟨l, hl, hmay⟩ := (Option.any_eq_true _ _).1 hreach
  obtain ⟨s', t', hex, -, -, -, hword, -⟩ := hserves putWord false gettingTroupe gettingPath 4 1 frozenState puttingTroupe
    placedPath 0xFFFFFFFF hiss hpass (by
      simp only [haddr]
      exact ⟨⟨rfl, ⟨l, hl, hmay⟩, .inl rfl⟩, hwords, hempty, hwaiters, htr, by decide, hpath, rfl, by decide, rfl⟩)
  simp only [haddr] at hword
  have hfull := frozen_full
  rw [hex] at hfull
  simp [shownFull, hword] at hfull

end Sys2Proof.Machine.Placed

/-! ### A tile command that a slice executes again -/

namespace Sys2Proof.Machine.Placed

set_option Elab.async false

/-- A load that the slice of `againPath` has issued before. -/
def sliceOp : Op :=
  { id := 7, cls := .ld, kind := .load .b32 .weak false 0 4 [], pc := wordPage, own := [.handler 0], lanes := 1,
    future := none, done := false, cancelled := false, fault := none, value := 0, lines := [], waitPage := none }

/-- A slice that executes one word again on its own, with the path that it has left; r8 of lane 0 holds 16. -/
def zeroTroupe : Troupe :=
  { (wordTroupe 1 2 0).writeLanes (maskOf [0]) fun _ => [(8, 16)] with
    paths := [{ placedPath with slices := 0xFE, pc := wordPage + 32 }, againPath], ops := [sliceOp] }

def zeroState : State := placedState (.handler 0) zeroTroupe

/-- TZERO of 16 bytes at 0. -/
def zeroWord : Ins := Ins.plain .f00 4 8 0

theorem zero_issues : zeroState.Issues zeroTroupe againPath ∧
    Passes zeroTroupe againPath zeroWord (Use.cmd [] [(4, 1), (8, 1), (0, 1)] false) 1 ∧
    zeroTroupe.tileFault = none ∧ zeroTroupe.counter zeroState.now .tm < 63 ∧ (uni zeroTroupe 1 zeroWord.d).toNat % 16 = 0 ∧
    (uni zeroTroupe 1 zeroWord.a).toNat % 16 = 0 ∧ uni zeroTroupe 1 zeroWord.a ≠ 0 ∧
    (uni zeroTroupe 1 zeroWord.d).toNat + (uni zeroTroupe 1 zeroWord.a).toNat ≤ zeroState.windowOf zeroTroupe := by
  decide +kernel

/-- The paths of the first operation that an outcome leaves. -/
theorem zero_own : shown (exec (.tzero zeroWord false) zeroState) (fun t => t.ops.head?.map (·.own)) =
    some (some [.ord 0]) := by decide +kernel

/-- Refutes O46: a slice that executes a word again ends with it, and its path takes over the operations that the slice
has issued, those before the TZERO of `zeroState` too. The clauses would need `p.retry = false`. -/
theorem not_tileInstructions : ¬ Obligations.TileInstructions := by
  rintro ⟨hzero, -⟩
  obtain ⟨hiss, hpass, hpre⟩ := zero_issues
  obtain ⟨s', t', hex, ht', -, -, o, hops, -⟩ := hzero zeroWord false zeroState zeroTroupe againPath 1 hiss hpass hpre
  have hshown := shown_next zero_own hex ht'
  rw [hops] at hshown
  exact absurd hshown (by simp [zeroTroupe, sliceOp])

end Sys2Proof.Machine.Placed

/-! ### An engine command that a slice executes again -/

namespace Sys2Proof.Machine.Placed

set_option Elab.async false

/-- The slice of `againPath` with an operation that it has issued before; r12 of lane 0 holds 1. -/
def gatherTroupe : Troupe :=
  { (wordTroupe 1 2 0).writeLanes (maskOf [0]) fun _ => [(12, 1)] with
    paths := [{ placedPath with slices := 0xFE, pc := wordPage + 32 }, againPath], ops := [{ sliceOp with id := 0 }] }

def gatherState : State := placedState (.handler 0) gatherTroupe

/-- GATHER of one element of one byte, with no future entry. -/
def gatherWord : Ins := { Ins.plain .f00 511 4 0 with b := 4, c := 4, e := 12 }

theorem gather_issues : gatherState.Issues gatherTroupe againPath ∧
    Passes gatherTroupe againPath gatherWord (copyUse gatherWord false 2) 1 ∧
    gatherTroupe.counter gatherState.now .gt < 63 ∧ (gatherWord.d ≠ 511 → gatherTroupe.freeEntry ≠ none) ∧
    (∀ o ∈ gatherTroupe.ops, o.id < gatherState.fresh) := by
  decide +kernel

theorem gather_indexed : uni gatherTroupe 1 12 = 1 ∧ uniPair gatherTroupe 1 4 = 0 ∧
    gatherState.windowOk gatherTroupe 0 (4 * 1) = true ∧ gatherState.windowOk gatherTroupe 0 (1 * 2 ^ 0) = true := by
  decide +kernel

/-- The paths of the first operation that an outcome leaves. -/
theorem gather_own : shown (exec (.gather gatherWord false) gatherState) (fun t => t.ops.head?.map (·.own)) =
    some (some [.ord 0]) := by decide +kernel

/-- Refutes O48, as O46: the path takes over the operations that the slice has issued before the GATHER of `gatherState`
too. The clauses that name the operations of the troupe would need `p.retry = false`. -/
theorem not_engineCommandsIssue : ¬ Obligations.EngineCommandsIssue := by
  rintro ⟨-, hgather, -⟩
  obtain ⟨hiss, hpass, hroom⟩ := gather_issues
  obtain ⟨hcount, hpair, hidx, hdense⟩ := gather_indexed
  obtain ⟨s', t', hex, ht', -, -, -, -, ⟨o, hops, -⟩, -⟩ := hgather gatherWord false gatherState gatherTroupe againPath 1
    hiss hpass (by
      simp only [gatherWord, Ins.plain, hcount, hpair]
      exact ⟨hroom, by decide, by decide, by decide, rfl, rfl, rfl, hidx, hdense⟩)
  have hshown := shown_next gather_own hex ht'
  rw [hops] at hshown
  exact absurd hshown (by simp [gatherTroupe, sliceOp])

end Sys2Proof.Machine.Placed

/-! ### A path that a merge has formed in this clock -/

namespace Sys2Proof.Machine.Placed

set_option Elab.async false

/-- A path before the header of the placed word, which it has fetched; it may go on from clock 5. -/
def mergedPath : Path :=
  { placedPath with pc := wordPage, blk := none, ibuf := some wordHeader, stall := 5 }

/-- Its troupe, which is whole and not ganged yet. -/
def mergedTroupe : Troupe := { placedTroupe [mergedPath] 0 4 with gang := false }

def mergedState : State := placedState (.ord 0) mergedTroupe

theorem merged_at : mergedState.runner (refOf mergedTroupe mergedPath) = some (mergedTroupe, mergedPath) ∧
    mergedPath.blk = none ∧ mergedPath.ibuf = some wordHeader ∧ mergedPath.ordinary = true ∧ mergedPath.atJoin = false ∧
    mergedState.preempting mergedTroupe = false := by decide +kernel

theorem wordHeader_plain : ((decodeHeader wordHeader).any fun hd => !hd.rgn && !hd.rfp) = true := by decide +kernel

theorem merged_waits : shown (exec (.headerEntry (refOf mergedTroupe mergedPath)) mergedState)
    (fun t => (t.path? (.ord 0)).map (·.blk)) = some (some none) := by decide +kernel

/-- Refutes O50: a path that a merge or a refill has formed in this clock waits until its troupe is ganged, so the one of
`mergedState` does not enter its header. The first clause would need `t.ganged = true` or a stall that is over. -/
theorem not_pathsEnterHeadersAndRefill : ¬ Obligations.PathsEnterHeadersAndRefill := by
  rintro ⟨henter, -⟩
  obtain ⟨hd, hdecode, hplain⟩ := (Option.any_eq_true _ _).1 wordHeader_plain
  simp only [Bool.and_eq_true, Bool.not_eq_true'] at hplain
  obtain ⟨s', t', hex, ht', -, ⟨q, hq, hblk, -⟩, -⟩ := henter mergedState mergedTroupe mergedPath wordHeader hd merged_at
    hdecode hplain.1 (.inl hplain.2)
  have hstay := shown_next merged_waits hex ht'
  rw [show t'.path? (.ord 0) = some q from hq, Option.map_some, hblk] at hstay
  exact absurd hstay (by simp)

end Sys2Proof.Machine.Placed

/-! ### A request that finds a refill due -/

namespace Sys2Proof.Machine.Placed

set_option Elab.async false

/-- A troupe whose lanes have all exited, with a refill PC and no path. -/
def idleTroupe : Troupe :=
  let t := placedTroupe [] 0 4
  { t with lanes := t.lanes.map fun l => { l with st := .exited }, refillPc := some wordPage }

/-- Its ensemble, the only one, with items left. -/
def idleState : State :=
  let s := placedState (.ord 0) idleTroupe
  { s with launches := s.launches.map fun l => { l with next := 0, stop := 64, hdr := { l.hdr with block := false } } }

/-- The ensemble of a placed word. -/
def placedEns : Ensemble := wordEns 2 3 1

theorem idle_running : idleState.ens? placedEns.id = some placedEns ∧ idleState.troupe? idleTroupe.id = some idleTroupe ∧
    idleTroupe.ens = placedEns.id ∧ idleTroupe.run = .running ∧ idleTroupe.finish = .no ∧ placedEns.st = .running ∧
    (∀ u ∈ idleState.running placedEns.id, u.routine ≠ .entry) := by decide +kernel

/-- The state of that ensemble after an instruction. -/
def shownEns (o : Host.Outcome State Fault Refusal) : Option EnsState :=
  match o with
  | .next s => (s.ens? 2).map (·.st)
  | _ => none

theorem idle_swapped : shownEns (exec (.preemptRequest 2 .cancel) idleState) = some .swapped := by decide +kernel

/-- Refutes O52: a request that finds a refill due finishes the troupe at its refill PC (R59, R455), so the ensemble of
`idleState`, whose troupes are all finished then, is swapped out in the same step. The first clause would need a troupe
with a Live lane. -/
theorem not_preemptionStopsAndSpills : ¬ Obligations.PreemptionStopsAndSpills := by
  rintro ⟨hrequest, -⟩
  obtain ⟨hens, htr, heq, hrun, hfinish, hst, hroutine⟩ := idle_running
  obtain ⟨s', t', hex, -, -, ⟨e, he, hpre, -⟩, -⟩ := hrequest idleState placedEns idleTroupe .cancel nofun
    ⟨hens, htr, heq, hrun, hfinish⟩ hst hroutine
  have hshown := idle_swapped
  rw [show exec (.preemptRequest 2 .cancel) idleState = .next s' from hex] at hshown
  simp [shownEns, show s'.ens? 2 = some e from he, hpre] at hshown

end Sys2Proof.Machine.Placed


/-! ## O53: the debugger -/

section
namespace Sys2Proof.Machine

/-! ### Stopping (R60) -/

/-- A path of a troupe that the debugger stops keeps its place; at most a SLEEP ends (R178). -/
theorem Troupe.exists_path?_debugStop {t : Troupe} (m : BitVec 8) {r : PathSel} {q : Path} (h : t.path? r = some q) :
    ∃ q' ∈ (t.debugStop m).path? r, q'.pc = q.pc ∧ (q'.wait = q.wait ∨ q'.wait = .none) := by
  refine ⟨_, (find?_sel_map (ps := t.paths) (fun v => ?_) r).trans (congrArg (Option.map _) h), ?_⟩
  · split
    · split <;> rfl
    · rfl
  · dsimp only
    split
    · split
      · exact ⟨rfl, .inr rfl⟩
      · exact ⟨rfl, .inl rfl⟩
    · exact ⟨rfl, .inl rfl⟩

theorem execDebuggerStop_stops {s : State} {t : Troupe} (m : BitVec 8) (ht : s.troupe? t.id = some t)
    (hd : s.debugged t = true) (hlen : t.slices.length = 8) :
    ∃ s' t', execDebuggerStop t.id m s = .next s' ∧ s'.troupe? t.id = some t' ∧ t.SameRegs t' ∧
      (∀ k, k < 8 → (t'.slice k).st = if (s.launchOf t.ens).bind (·.debugger) = some true ∨
        m.getLsbD k = true then .stopped else (t.slice k).st) ∧
      ∀ r q, t.path? r = some q → ∃ q' ∈ t'.path? r, q'.pc = q.pc ∧ (q'.wait = q.wait ∨ q'.wait = .none) := by
  obtain ⟨all, hall⟩ := Option.isSome_iff_exists.1 hd
  refine ⟨s.debugStop t m all, t.debugStop (if all then 0xFF else m), ?_, ?_, fun _ _ => rfl, fun k hk => ?_,
    fun r q => Troupe.exists_path?_debugStop _⟩
  · simp only [execDebuggerStop, ht, hall]
  · rw [State.troupe?_debugStop m all ht, if_pos rfl]
  · have hones : (0xFF : BitVec 8).getLsbD k = true := (by decide : ∀ k < 8, (0xFF : BitVec 8).getLsbD k = true) k hk
    rw [Troupe.slice_debugStop, hall, hlen]
    cases all
    · simp [hk]
    · simp only [hones, hk, if_true, and_self, true_or]

/-! ### Resuming (R60) -/

theorem execDebuggerResume_resumes {s : State} {t : Troupe} (m : BitVec 8) (ht : s.troupe? t.id = some t)
    (hd : s.debugged t = true) (hlen : t.slices.length = 8) :
    ∃ s' t', execDebuggerResume t.id m s = .next s' ∧ s'.troupe? t.id = some t' ∧ t.SameRegs t' ∧
      t'.paths = t.paths ∧ ∀ k, k < 8 → if m.getLsbD k = true ∧ (t.slice k).st = .stopped then
        (t'.slice k).st = t.runState k else (t'.slice k).st = (t.slice k).st := by
  have hnext : execDebuggerResume t.id m s = .next (s.modTroupe t.id fun t => { t with
      stepping := t.stepping &&& ~~~m
      slices := (lenum t.slices).map fun (e : Nat × SliceSt) =>
        if m.getLsbD e.1 && e.2.st == .stopped then { e.2 with st := t.runState e.1 } else e.2 }) := by
    simp only [execDebuggerResume, ht, hd, if_true]
  refine ⟨_, _, hnext, State.troupe?_modTroupe_same _ ht rfl, fun _ _ => rfl, rfl, fun k hk => ?_⟩
  simp only [Troupe.slice, lget_map_lenum, hlen, hk, if_true, Bool.and_eq_true, beq_iff_eq]
  split <;> rfl

/-! ### Single step (R190, R409) -/

/-- A slice of a path that executes no instruction again has lanes to step with. -/
theorem sliceLanes_and_sliceBit_ne_zero {ss : BitVec 8} {k : Nat} (hk : k < 8) (h : ss.getLsbD k = true) :
    sliceLanes ss &&& sliceLanes (sliceBit k) ≠ 0 := by
  intro hzero
  have hbit : (sliceLanes ss &&& sliceLanes (sliceBit k)).getLsbD (4 * k) = true := by
    rw [BitVec.getLsbD_and, getLsbD_sliceLanes_sliceBit hk (by omega), sliceLanes, getLsbD_maskOf]
    simp [h]
    omega
  rw [hzero] at hbit
  simp at hbit

/-- The path of a slice that executes one instruction of path `p` alone. -/
def Path.steppingAlone (p : Path) (k n now : Nat) : Path :=
  { handlerPath p k n p.pc (.word p.blk) now with
    blk := p.blk, again := sliceLanes p.slices &&& sliceLanes (sliceBit k), retry := true }

/-- The path that such a slice leaves: it executes the instruction in the lanes that are left, or goes on. -/
def Path.leftBy (p : Path) (k : Nat) (live : Word) : Path :=
  let rest := sliceLanes p.slices &&& ~~~sliceLanes (sliceBit k) &&& live
  let q := { p with slices := p.slices &&& ~~~sliceBit k, again := rest }
  if rest = 0 then q.next else q

theorem Path.leftBy_slices (p : Path) (k : Nat) (live : Word) : (p.leftBy k live).slices = p.slices &&& ~~~sliceBit k := by
  dsimp only [Path.leftBy]
  split <;> rfl

theorem Path.leftBy_sel (p : Path) (k : Nat) (live : Word) : (p.leftBy k live).sel = p.sel := by
  dsimp only [Path.leftBy]
  split <;> rfl

/-- A troupe that slice `k` of path `p` has left to follow a path of its own. -/
def Troupe.leftAlone (t : Troupe) (p : Path) (k : Nat) : Troupe :=
  let rest := sliceLanes p.slices &&& ~~~sliceLanes (sliceBit k) &&& t.live
  ((t.lend p.sel (.handler k)).modPath p.sel fun q =>
      let q := { q with slices := q.slices &&& ~~~sliceBit k, again := rest }
      if rest = 0 then q.next else q).modSlice k fun x => { x with st := .following }

section
variable {t : Troupe} {p : Path} {k n : Nat} (now : Nat) (hk : k < 8) (hbit : p.slices.getLsbD k = true)
  (hagain : p.again = 0)
include hk hbit hagain

theorem Troupe.stepAlone_eq : t.stepAlone p k n now =
    { t.leftAlone p k with
      paths := (t.leftAlone p k).paths ++ [p.steppingAlone k n now]
      stepping := t.stepping ||| sliceBit k } := by
  simp only [Troupe.stepAlone, hagain, if_true, if_neg (sliceLanes_and_sliceBit_ne_zero hk hbit)]
  rfl

theorem Troupe.stepAlone_paths (hpaths : t.paths = [p]) :
    (t.stepAlone p k n now).paths = [p.leftBy k t.live, p.steppingAlone k n now] := by
  rw [Troupe.stepAlone_eq now hk hbit hagain]
  simp only [Troupe.leftAlone, Troupe.modSlice, Troupe.modPath, Troupe.lend, Troupe.mapOwn, hpaths, List.map_cons,
    List.map_nil, if_true]
  rfl

/-- A slice that steps alone follows, and no other slice has changed. -/
theorem Troupe.slice_stepAlone (hlen : k < t.slices.length) (j : Nat) : (t.stepAlone p k n now).slice j =
    if j = k then { t.slice k with st := .following } else t.slice j := by
  rw [Troupe.stepAlone_eq now hk hbit hagain]
  show lget _ (lmod _ t.slices k) j = _
  rw [lget_lmod]
  by_cases hj : j = k
  · subst hj
    rw [if_pos ⟨rfl, hlen⟩, if_pos rfl]
    rfl
  · rw [if_neg fun h => hj h.1, if_neg hj]
    rfl

end

theorem execSingleStep_steps {s : State} {t : Troupe} {p : Path} {k n : Nat} (ht : s.troupe? t.id = some t)
    (hd : s.debugged t = true) (hlen : t.slices.length = 8) (hk : k < 8) (hstop : (t.slice k).st = .stopped)
    (hrun : t.run = .running) (hfin : t.finish = .no) (hcores : s.onCores t = true) (hpaths : t.paths = [p])
    (hsel : p.sel = .ord n) (hbit : p.slices.getLsbD k = true) (hwait : p.wait = .none) (hblk : p.blk.isSome = true)
    (hagain : p.again = 0) : ∃ s' t', execSingleStep t.id k s = .next s' ∧ s'.troupe? t.id = some t' ∧ t.SameRegs t' ∧
      t'.stepping.getLsbD k = true ∧ (t'.slice k).st = .following ∧ (∀ j, j < 8 → j ≠ k → t'.slice j = t.slice j) ∧
      ∃ h ∈ t'.path? (.handler k), h.pc = p.pc ∧ h.blk = p.blk ∧ h.retry = true ∧ h.home = n ∧
        h.again = sliceLanes p.slices &&& sliceLanes (sliceBit k) ∧
        ∃ q ∈ t'.path? p.sel, q.slices = p.slices &&& ~~~sliceBit k := by
  obtain ⟨b, hb⟩ := Option.isSome_iff_exists.1 hblk
  have hord : p.ordinary = true := by rw [Path.ordinary, hsel]
  have heq := Troupe.stepAlone_eq (t := t) (n := n) s.now hk hbit hagain
  have hnewPaths := Troupe.stepAlone_paths (t := t) (n := n) s.now hk hbit hagain hpaths
  have hslice := Troupe.slice_stepAlone (t := t) (n := n) s.now hk hbit hagain (hlen ▸ hk)
  have hnext : execSingleStep t.id k s = .next (s.modTroupe t.id fun t => t.stepAlone p k n s.now) := by
    have hnoHandler : t.path? (.handler k) = none := by simp [Troupe.path?, hpaths, hsel]
    have hfind : (t.ordPaths.find? fun p => p.slices.getLsbD k) = some p := by
      simp [Troupe.ordPaths, hpaths, hord, hbit]
    have hfree : t.held p = false := by simp [Troupe.held, hpaths, hord]
    simp [execSingleStep, ht, hd, hstop, hrun, hfin, hcores, hnoHandler, hfind, hfree, hwait, hb, hsel]
  refine ⟨_, _, hnext, State.troupe?_modTroupe_same _ ht (by rw [heq]; rfl), fun l r => by rw [heq]; rfl, ?_, ?_,
    fun j _ hj => by rw [hslice, if_neg hj], p.steppingAlone k n s.now, ?_, rfl, rfl, rfl, rfl, rfl,
    p.leftBy k t.live, ?_, p.leftBy_slices k t.live⟩
  · rw [heq]
    simp [getLsbD_sliceBit, hk]
  · rw [hslice, if_pos rfl]
  · simp [Troupe.path?, hnewPaths, Path.leftBy_sel, hsel, Path.steppingAlone, handlerPath]
  · simp [Troupe.path?, hnewPaths, Path.leftBy_sel]

/-! ### Registers (R409) -/

theorem Lane.bad_setReg (l : Lane) {r : Nat} (v : Word) (hr : r ≠ 511) : (l.setReg r v).bad r = false := by
  simp [Lane.setReg, Lane.bad, hr]

theorem execDebuggerRegisterAccess_writes {s : State} {t : Troupe} {l r : Nat} (v : Word) (ht : s.troupe? t.id = some t)
    (hd : s.debugged t = true) (hl : l < t.lanes.length) (hstop : (t.slice (l / 4)).st = .stopped) (hr : r < 384)
    (hext : r < 192 ∨ t.holdsExt = true) :
    ∃ s' t', execDebuggerRegisterAccess t.id l r (.write v) s = .next s' ∧ s'.troupe? t.id = some t' ∧
      (t'.lane l).bad r = false ∧ t'.paths = t.paths ∧ t'.slices = t.slices ∧
      ∀ k q, t'.reg k q = if k = l ∧ q = r then v else t.reg k q := by
  have hset : (!isExt r || t.holdsExt) = true := by
    obtain h | h := hext
    · rw [isExt, decide_eq_false (by omega), Bool.not_false, Bool.true_or]
    · rw [h, Bool.or_true]
  have hlane : ∀ k, (t.modLane l fun x => x.setReg r v).lane k = if k = l then (t.lane k).setReg r v else t.lane k := by
    intro k
    simp only [Troupe.lane, Troupe.modLane, lget_lmod, hl, and_true]
  have hnext : execDebuggerRegisterAccess t.id l r (.write v) s =
      .next (s.modTroupe t.id fun t => t.modLane l fun x => x.setReg r v) := by
    simp only [execDebuggerRegisterAccess, ht, hd, hstop, hr, hset, BEq.rfl, decide_true, Bool.and_self, if_true]
  refine ⟨_, _, hnext, State.troupe?_modTroupe_same _ ht rfl, ?_, rfl, rfl, fun k q => ?_⟩
  · rw [hlane, if_pos rfl, Lane.bad_setReg _ v (by omega)]
  · rw [Troupe.reg, hlane]
    by_cases hk : k = l
    · rw [if_pos hk, Lane.reg_setReg]
      by_cases hq : q = r
      · rw [if_pos (show k = l ∧ q = r from ⟨hk, hq⟩), if_neg (by omega), if_pos hq.symm]
      · rw [if_neg (show ¬ (k = l ∧ q = r) from fun h => hq h.2), if_neg (Ne.symm hq), Troupe.reg, Lane.reg]
        split <;> rfl
    · rw [if_neg hk, if_neg (show ¬ (k = l ∧ q = r) from fun h => hk h.1)]
      rfl

/-! ### No debugger -/

theorem debugger_absent {s : State} {t : Troupe} (m : BitVec 8) (k l r : Nat) (v : Word) (ht : s.troupe? t.id = some t)
    (hd : s.debugged t = false) : execDebuggerStop t.id m s = .next s ∧ execDebuggerResume t.id m s = .next s ∧
      execSingleStep t.id k s = .next s ∧ execDebuggerRegisterAccess t.id l r (.write v) s = .next s := by
  have hnone : (s.launchOf t.ens).bind (·.debugger) = none := by
    rw [State.debugged] at hd
    exact Option.isSome_eq_false_iff.1 hd |> Option.isNone_iff_eq_none.1
  refine ⟨?_, ?_, ?_, ?_⟩
  · simp only [execDebuggerStop, ht, hnone]
  · simp [execDebuggerResume, ht, hd]
  · simp [execSingleStep, ht, hd]
  · simp [execDebuggerRegisterAccess, ht, hd]

end Sys2Proof.Machine

open Sys2Proof.Machine

/-- Settles O53: one law for each of the debugger's commands. -/
theorem debuggerStopsStepsAndReads : Obligations.DebuggerStopsStepsAndReads := by
  refine ⟨fun s l all hl => ⟨_, rfl, State.launch?_modLaunch hl fun _ => rfl, rfl⟩,
    fun s t m ⟨ht, hd, hlen⟩ => execDebuggerStop_stops m ht hd hlen,
    fun s t m ⟨ht, hd, hlen⟩ => execDebuggerResume_resumes m ht hd hlen,
    fun s t k p n ⟨ht, hd, hlen⟩ => execSingleStep_steps ht hd hlen,
    fun s t l r v ⟨ht, hd, _⟩ => execDebuggerRegisterAccess_writes v ht hd, fun s t l r => ?_,
    fun s t m k l r v => debugger_absent m k l r v⟩
  show execDebuggerRegisterAccess t l r .read s = .next s
  unfold execDebuggerRegisterAccess
  split <;> rfl
end


/-! ## O54: a lane's load served by a GntNC -/

section
namespace Sys2Proof.Machine.Placed

set_option Elab.async false

/-- The access of lane 0 to a coherent word of line 5 of die 0. -/
def awaitedAcc : Acc :=
  { lane := 0, va := 0, tgt := .pool 0 640 .coherent, size := 4, mask := 15, data := 0, cmpv := 0, phase := .issued,
    pass := 0, bad := false }

/-- A weak load of it, which fills the L1. -/
def awaitingOp : Op :=
  { id := 7, cls := .ld, kind := .load .b32 .weak false 0 4 [awaitedAcc], pc := wordPage, own := [.ord 0], lanes := 1,
    future := none, done := false, cancelled := false, fault := none, value := 0, lines := [], waitPage := none }

def awaitingTroupe : Troupe := { placedTroupe [placedPath] 0 4 with ops := [awaitingOp] }

/-- The request that the load has sent. -/
def awaitedReq : CxlWait := { line := 5, tag := 0, kind := .rdS, since := 0, who := .lane 1 7 0 }

/-- The load waits for the switch's answer. -/
def awaitingState : State :=
  { placedState (.ord 0) awaitingTroupe with
    dies := [{ Die.reset with reqs := [awaitedReq] }, Die.reset, Die.reset, Die.reset] }

theorem awaiting_holds : awaitingState.request? 0 5 0 [.rdS, .rdX, .upg] = some awaitedReq ∧
    awaitingState.line? 0 5 = none ∧ awaitingState.asker awaitedReq.who = some (awaitingTroupe, awaitingOp, awaitedAcc) ∧
    awaitingState.inRecovery 0 5 = false ∧ awaitingState.troupe? awaitingTroupe.id = some awaitingTroupe ∧
    awaitingTroupe.op? awaitingOp.id = some awaitingOp ∧ awaitingState.errs = [] := by
  decide +kernel

/-- The state in which line 5 is left, if the slice holds it. -/
def shownMoesi (o : Host.Outcome State Fault Refusal) : Option Moesi :=
  match o with
  | .next s => (s.line? 0 5).map (·.st)
  | _ => none

theorem awaiting_leaves : shownMoesi (exec (.gntNC 0 ⟨5, 0⟩ []) awaitingState) = some .i := by decide +kernel

/-- Refutes O54: the load of `awaitingState` fills the L1, and the lease puts the line's horizon ahead, so that the line stays
in its slice, in I, after the access (R308, R423). The clause of a GntNC for a lane's load would need a load that takes no
lease. -/
theorem not_switchAndDeviceKeepLines : ¬ Obligations.SwitchAndDeviceKeepLines := by
  rintro ⟨-, -, -, -, hload, -⟩
  obtain ⟨hreq, hline, hasker, hrec, htr, hop, herrs⟩ := awaiting_holds
  obtain ⟨s', t', hex, hgone, -⟩ := hload awaitingState 0 5 0 [] awaitedReq awaitingTroupe awaitingOp awaitedAcc 640 .coherent
    .b32 .weak false 0 4 [awaitedAcc] (by decide) hreq hline rfl hasker hrec rfl rfl (by decide) (by decide) (by decide) htr
    hop herrs
  have hleft := awaiting_leaves
  rw [show exec (.gntNC 0 ⟨5, 0⟩ []) awaitingState = .next s' from hex, shownMoesi, hgone] at hleft
  exact absurd hleft (by decide)

end Sys2Proof.Machine.Placed
end


/-! ## O59: the events of the device -/

section
namespace Sys2Proof.Machine

/-! ### Reset and boot (R430, R431) -/

/-- Boot of three stages that verify: maintenance mode, and the chain over all three. -/
theorem Firmware.boot_verified {f : Firmware} {a b c : BootImage} (ha : imageVerifies a f.antiRollback = true)
    (hb : imageVerifies b f.antiRollback = true) (hc : imageVerifies c f.antiRollback = true) :
    (f.boot a b c).recovery = false ∧ (f.boot a b c).mode = 1 ∧ (f.boot a b c).version = b.version ∧
      (f.boot a b c).m1 = chain 0 (Config.sha256 a.bytes) ∧
      (f.boot a b c).meas =
        chain (chain (chain 0 (Config.sha256 a.bytes)) (Config.sha256 b.bytes)) (Config.sha256 c.bytes) ∧
      (f.boot a b c).config.admission = Config.configAdmission c.bytes ∧
      (f.boot a b c).lastGood = some (f.boot a b c).config := by
  simp [Firmware.boot, ha, hb, hc, Firmware.reset]

/-- Boot with a stage that fails leaves the device in recovery mode, with the last good block as it was. -/
theorem Firmware.boot_failed {f : Firmware} {a b c : BootImage} (h : ¬ (imageVerifies a f.antiRollback = true ∧
    imageVerifies b f.antiRollback = true ∧ imageVerifies c f.antiRollback = true)) :
    (f.boot a b c).recovery = true ∧ (f.boot a b c).lastGood = f.lastGood := by
  unfold Firmware.boot
  dsimp only
  split
  · exact ⟨rfl, rfl⟩
  · split
    · exact ⟨rfl, rfl⟩
    · split
      · exact ⟨rfl, rfl⟩
      · simp_all

/-- What every boot leaves of the firmware. -/
theorem Firmware.boot_keeps (f : Firmware) (a b c : BootImage) : (f.boot a b c).frozen = false ∧
    (f.boot a b c).resetDue = false ∧ (f.boot a b c).staged = none ∧ (f.boot a b c).antiRollback = f.antiRollback := by
  unfold Firmware.boot
  dsimp only
  split
  · exact ⟨rfl, rfl, rfl, rfl⟩
  · split
    · exact ⟨rfl, rfl, rfl, rfl⟩
    · split <;> exact ⟨rfl, rfl, rfl, rfl⟩

theorem imageVerifies_iff {b : BootImage} {floor : Word} :
    imageVerifies b floor = true ↔ b.signed = true ∧ floor ≤ b.version := by
  rw [imageVerifies, Bool.and_eq_true, decide_eq_true_iff]

/-! ### A die that runs hot (R443) -/

theorem State.modDie_only {s : State} {d : Nat} (f : Die → Die) (hd : d < s.dies.length) :
    (s.modDie d f).die d = f (s.die d) ∧ (s.modDie d f).troupes = s.troupes ∧
      ∀ k, k ≠ d → (s.modDie d f).die k = s.die k := by
  refine ⟨?_, rfl, fun k hk => ?_⟩
  · rw [State.die_modDie, if_pos ⟨rfl, hd⟩]
  · rw [State.die_modDie, if_neg fun h => hk h.1]

/-! ### Frames for a gated core 0 (R377) -/

theorem State.hold_room {s : State} (f : Frame) (h : s.pw.buffer.length < 64) :
    s.hold f = { s with pw := { s.pw with buffer := s.pw.buffer ++ [f] } } := if_pos h

theorem State.hold_full {s : State} (f : Frame) (h : 64 ≤ s.pw.buffer.length) :
    s.hold f = { s with ev := bump s.ev 0x80 1 } := if_neg (Nat.not_lt.2 h)

theorem mget_bump (ev : List (Nat × DWord)) (k : Nat) : mget 0 (bump ev k 1) k = mget 0 ev k + 1 := mget_mset_same ..

/-- The state in which the restore of core 0 runs. -/
def State.restores (s : State) : State := { s with pw := { s.pw with restoring := true } }

/-- A frame that matches the filter, or that comes while a restore runs, begins or joins the restore. -/
theorem State.frame_takes {s : State} (f : Frame) {hit : Bool} (h : s.pw.restoring = true ∨ hit = true) :
    s.frame f hit = s.restores.hold f := by
  rw [State.frame, if_pos (by rwa [Bool.or_eq_true]), State.restores]

theorem State.frame_drops {s : State} (f : Frame) {hit : Bool} (h : ¬ (s.pw.restoring = true ∨ hit = true)) :
    s.frame f hit = if s.pw.gatedAt = some s.now then s.hold f else { s with ev := bump s.ev 0x80 1 } := by
  rw [State.frame, if_neg (by rwa [Bool.or_eq_true])]

theorem execWakeFrame_gated {s : State} (src : DWord) (sid : Nat) (m : List Byte) (h : 0 ∈ s.pw.gated) :
    execWakeFrame src sid m s = .next (s.frame (.cmd sid m) (s.pw.filter.any fun e => e.hits src m)) := by
  rw [execWakeFrame, if_neg (by simp [h])]

/-- The frame is taken: by the restore that runs, or by an entry of the filter. -/
theorem filter_takes_iff {s : State} {src : DWord} {m : List Byte} :
    (s.pw.restoring = true ∨ (s.pw.filter.any fun e => e.hits src m) = true) ↔
      (s.pw.restoring = true ∨ ∃ e ∈ s.pw.filter, e.hits src m = true) := by
  rw [List.any_eq_true]

end Sys2Proof.Machine

open Sys2Proof.Machine

/-- Settles O59: boot by the stage that fails first, and a frame by what takes it and by the room of the wake buffer. -/
theorem deviceEvents : Obligations.DeviceEvents := by
  refine ⟨fun s a b c => ?_, fun s k hk => ?_, fun s d hd => ?_, fun s d hd => ⟨_, rfl, State.modDie_only _ hd⟩,
    fun s d hd => ⟨_, rfl, State.modDie_only _ hd⟩, fun s => ⟨_, rfl, rfl, rfl, fun d => ?_⟩, fun s h => ?_, fun s h => ?_,
    fun s src sid m hg ht hb => ?_, fun s src sid m hg ht hb => ?_, fun s src sid m hg ht ha hb => ?_,
    fun s src sid m hg ht ha => ?_, fun s src sid m hg => ?_, fun s hr hb => ?_, fun s sid m hr hb => ?_, fun s hr => ?_,
    fun s k => ⟨_, rfl, ?_⟩⟩
  · obtain ⟨hfrozen, hdue, hstaged, hanti⟩ := s.fw.boot_keeps a b c
    refine ⟨_, rfl, rfl, rfl, rfl, rfl, rfl, rfl, rfl, rfl, rfl, rfl, rfl, rfl, rfl, rfl, rfl, hfrozen, hdue, hstaged, hanti,
      fun ha hb hc => Firmware.boot_verified (imageVerifies_iff.2 ha) (imageVerifies_iff.2 hb) (imageVerifies_iff.2 hc),
      fun h => Firmware.boot_failed ?_⟩
    simpa only [imageVerifies_iff] using h
  · exact ⟨_, congrArg Host.Outcome.next (if_pos hk), ⟨rfl, rfl, rfl, rfl, rfl, rfl, rfl, rfl⟩, Bool.or_false _⟩
  · exact ⟨_, congrArg Host.Outcome.next (if_pos hd), ⟨rfl, rfl, rfl, rfl, rfl, rfl, rfl, rfl⟩, Bool.or_true _⟩
  · simp [State.withheld]
  · exact ⟨_, if_pos h, rfl, rfl⟩
  · exact if_neg h
  · refine ⟨_, execWakeFrame_gated src sid m hg, ?_⟩
    rw [State.frame_takes _ (filter_takes_iff.2 ht), State.hold_room (s := s.restores) _ hb]
    exact ⟨rfl, rfl, rfl⟩
  · refine ⟨_, execWakeFrame_gated src sid m hg, ?_⟩
    rw [State.frame_takes _ (filter_takes_iff.2 ht), State.hold_full (s := s.restores) _ hb]
    exact ⟨rfl, rfl, mget_bump _ _⟩
  · refine ⟨_, execWakeFrame_gated src sid m hg, ?_⟩
    rw [State.frame_drops _ (mt filter_takes_iff.1 ht), if_pos ha, State.hold_room _ hb]
    exact ⟨rfl, rfl, rfl⟩
  · refine ⟨_, execWakeFrame_gated src sid m hg, ?_⟩
    rw [State.frame_drops _ (mt filter_takes_iff.1 ht), if_neg ha]
    exact ⟨rfl, rfl, mget_bump _ _⟩
  · exact if_pos (by simp [hg])
  · refine ⟨_, if_neg (by simp [hr]), ?_⟩
    simp [hb]
  · refine ⟨_, if_neg (by simp [hr]), ?_⟩
    simp [hb, State.parse]
  · exact if_pos (by simp [hr])
  · split <;> exact ⟨rfl, rfl⟩
end


/-! ## O60: what every step keeps of the device -/

section
namespace Sys2Proof.Machine

/-! ### The predicate -/

/-- Four compute dies, %clock offsets of at most 2, and a pool in canonical form (log 1). -/
def State.Canon (s : State) : Prop := s.dies.length = 4 ∧ (∀ D ∈ s.dies, D.skew ≤ 2) ∧ s.pool.wf = true

/-- A state, if there is one, has the property. -/
def OptionCanon : Option State → Prop
  | some s => s.Canon
  | none => True

/-- The next state of an outcome has the property. -/
def OutcomeCanon : Host.Outcome State Fault Refusal → Prop
  | .next s => s.Canon
  | _ => True

def Avail.Canon : Avail → Prop
  | .ready s _ | .waits s => s.Canon
  | .dead => True

def Got.Canon : Got → Prop
  | .bytes s _ | .waits s | .bad s => s.Canon

def EGot.Canon : EGot → Prop
  | .bytes s _ | .waits s _ | .fault s _ _ => s.Canon

/-- What an engine access that did not reach a location carries. -/
def SumCanon : EGot ⊕ Target → Prop
  | .inl g => g.Canon
  | .inr _ => True

def ElemGot.Canon : ElemGot → Prop
  | .moved s _ _ | .waits s _ | .fault s _ _ => s.Canon

def RowGot.Canon : RowGot → Prop
  | .row s _ | .waits s _ | .fault s _ _ => s.Canon

def UmEnd.Canon : UmEnd → Prop
  | .waits s _ | .fault s _ _ | .done s _ _ _ => s.Canon

def BlockGot.Canon : BlockGot → Prop
  | .fault s _ | .waits s | .bytes s _ => s.Canon
  | .hold => True

def Svc.Canon : Svc → Prop
  | .ok s _ _ | .waits s => s.Canon
  | .bad _ => True

def Fetched.Canon : Fetched → Prop
  | .slot s _ | .waits s | .taken s => s.Canon

def CkptDesc.Canon : CkptDesc → Prop
  | .ok s _ | .waits s => s.Canon
  | .bad => True

def Eff.Canon : Eff → Prop
  | .done s _ | .wait s => s.Canon
  | .hold => True

/-! ### The state that a result carries -/

section
variable {α β γ : Type} {s : State}

theorem canon_fst {r : State × α} {x : α} (e : r = (s, x)) (h : r.1.Canon) : s.Canon := by subst e; exact h
theorem canon_some {o : Option State} (e : o = some s) (h : OptionCanon o) : s.Canon := by subst e; exact h
theorem canon_some_fst {o : Option (State × α)} {x : α} (e : o = some (s, x)) (h : ∀ r ∈ o, r.1.Canon) : s.Canon :=
  h (s, x) e
theorem OutcomeCanon.of_next {o : Host.Outcome State Fault Refusal} (e : o = .next s) (h : OutcomeCanon o) : s.Canon := by
  subst e; exact h
theorem Avail.Canon.of_ready {a : Avail} {l : L2Line} (e : a = .ready s l) (h : a.Canon) : s.Canon := by subst e; exact h
theorem Avail.Canon.of_waits {a : Avail} (e : a = .waits s) (h : a.Canon) : s.Canon := by subst e; exact h
theorem Got.Canon.of_bytes {a : Got} {bs : List Byte} (e : a = .bytes s bs) (h : a.Canon) : s.Canon := by subst e; exact h
theorem Got.Canon.of_waits {a : Got} (e : a = .waits s) (h : a.Canon) : s.Canon := by subst e; exact h
theorem Got.Canon.of_bad {a : Got} (e : a = .bad s) (h : a.Canon) : s.Canon := by subst e; exact h
theorem canon_inl {r : EGot ⊕ Target} {g : EGot} (e : r = .inl g) (h : SumCanon r) : g.Canon := by subst e; exact h
theorem EGot.Canon.of_bytes {a : EGot} {bs : List Byte} (e : a = .bytes s bs) (h : a.Canon) : s.Canon := by subst e; exact h
theorem EGot.Canon.of_waits {a : EGot} {p : Option Nat} (e : a = .waits s p) (h : a.Canon) : s.Canon := by subst e; exact h
theorem EGot.Canon.of_fault {a : EGot} {c n : Nat} (e : a = .fault s c n) (h : a.Canon) : s.Canon := by subst e; exact h
theorem ElemGot.Canon.of_moved {a : ElemGot} {d : Nat} {ls : List (Nat × Nat)} (e : a = .moved s d ls) (h : a.Canon) :
    s.Canon := by subst e; exact h
theorem ElemGot.Canon.of_waits {a : ElemGot} {p : Option Nat} (e : a = .waits s p) (h : a.Canon) : s.Canon := by
  subst e; exact h
theorem ElemGot.Canon.of_fault {a : ElemGot} {c n : Nat} (e : a = .fault s c n) (h : a.Canon) : s.Canon := by
  subst e; exact h
theorem RowGot.Canon.of_row {a : RowGot} {r : RowData} (e : a = .row s r) (h : a.Canon) : s.Canon := by subst e; exact h
theorem RowGot.Canon.of_waits {a : RowGot} {p : Option Nat} (e : a = .waits s p) (h : a.Canon) : s.Canon := by
  subst e; exact h
theorem RowGot.Canon.of_fault {a : RowGot} {c n : Nat} (e : a = .fault s c n) (h : a.Canon) : s.Canon := by
  subst e; exact h
theorem UmEnd.Canon.of_waits {a : UmEnd} {p : Option Nat} (e : a = .waits s p) (h : a.Canon) : s.Canon := by
  subst e; exact h
theorem UmEnd.Canon.of_fault {a : UmEnd} {c n : Nat} (e : a = .fault s c n) (h : a.Canon) : s.Canon := by subst e; exact h
theorem UmEnd.Canon.of_done {a : UmEnd} {u : UmSlot} {v : Nat} {out : List (Nat × List Byte)} (e : a = .done s u v out) (h : a.Canon) : s.Canon := by subst e; exact h
theorem BlockGot.Canon.of_fault {a : BlockGot} {c : Nat} (e : a = .fault s c) (h : a.Canon) : s.Canon := by
  subst e; exact h
theorem BlockGot.Canon.of_waits {a : BlockGot} (e : a = .waits s) (h : a.Canon) : s.Canon := by subst e; exact h
theorem BlockGot.Canon.of_bytes {a : BlockGot} {bs : List Byte} (e : a = .bytes s bs) (h : a.Canon) : s.Canon := by
  subst e; exact h
theorem Svc.Canon.of_ok {a : Svc} {bs : List Byte} {ls : List (Nat × Nat)} (e : a = .ok s bs ls) (h : a.Canon) :
    s.Canon := by subst e; exact h
theorem Svc.Canon.of_waits {a : Svc} (e : a = .waits s) (h : a.Canon) : s.Canon := by subst e; exact h
theorem Fetched.Canon.of_slot {a : Fetched} {w : Slot} (e : a = .slot s w) (h : a.Canon) : s.Canon := by subst e; exact h
theorem Fetched.Canon.of_waits {a : Fetched} (e : a = .waits s) (h : a.Canon) : s.Canon := by subst e; exact h
theorem Fetched.Canon.of_taken {a : Fetched} (e : a = .taken s) (h : a.Canon) : s.Canon := by subst e; exact h
theorem CkptDesc.Canon.of_ok {a : CkptDesc} {rs : List CkptRange} (e : a = .ok s rs) (h : a.Canon) : s.Canon := by
  subst e; exact h
theorem CkptDesc.Canon.of_waits {a : CkptDesc} (e : a = .waits s) (h : a.Canon) : s.Canon := by subst e; exact h
theorem Eff.Canon.of_done {a : Eff} {fs : List LaneFault} (e : a = .done s fs) (h : a.Canon) : s.Canon := by
  subst e; exact h
theorem Eff.Canon.of_wait {a : Eff} (e : a = .wait s) (h : a.Canon) : s.Canon := by subst e; exact h

/-! ### Branches, folds and updates -/

theorem canon_none : OptionCanon none := trivial

theorem canon_ite {p : Prop} [Decidable p] {motive : α → Prop} {a b : α} (ha : motive a) (hb : motive b) :
    motive (if p then a else b) := by
  split
  · exact ha
  · exact hb

theorem canon_ite_fst {p : Prop} [Decidable p] {a b : State × α} (ha : a.1.Canon) (hb : b.1.Canon) :
    (if p then a else b).1.Canon := by
  split
  · exact ha
  · exact hb

theorem canon_foldl {f : State → α → State} {l : List α} (h : s.Canon) (hf : ∀ s a, s.Canon → (f s a).Canon) :
    (l.foldl f s).Canon :=
  List.foldlRecOn l f h fun s hs a _ => hf s a hs

theorem canon_foldl_fst {f : State × β → α → State × β} {l : List α} {r : State × β} (h : r.1.Canon)
    (hf : ∀ r a, r.1.Canon → (f r a).1.Canon) : (l.foldl f r).1.Canon :=
  List.foldlRecOn l f (motive := fun r => r.1.Canon) h fun r hr a _ => hf r a hr

theorem canon_map {o : Option α} {f : α → State} (hf : ∀ a, (f a).Canon) : OptionCanon (o.map f) := by
  cases o
  · trivial
  · exact hf _

theorem canon_map_state {o : Option State} {f : State → State} (ho : OptionCanon o) (hf : ∀ s, s.Canon → (f s).Canon) :
    OptionCanon (o.map f) := by
  cases o
  · trivial
  · exact hf _ ho

theorem canon_bind {o : Option α} {f : α → Option State} (hf : ∀ a, OptionCanon (f a)) : OptionCanon (o.bind f) := by
  cases o
  · trivial
  · exact hf _

theorem canon_findSome {l : List α} {f : α → Option State} (hf : ∀ a, OptionCanon (f a)) : OptionCanon (l.findSome? f) := by
  induction l with
  | nil => trivial
  | cons a l ih =>
    rw [List.findSome?_cons]
    have ha := hf a
    split
    · exact canon_some ‹_› ha
    · exact ih

theorem canon_of_eq {t : State} (h : s.Canon) (hd : t.dies = s.dies) (hp : t.pool = s.pool) : t.Canon := by
  rw [State.Canon, hd, hp]
  exact h

/-- A change of the dies one by one that keeps their offsets. -/
theorem canon_mapDies {t : State} {g : Die → Die} (h : s.Canon) (hd : t.dies = s.dies.map g)
    (hg : ∀ D : Die, (g D).skew = D.skew) (hp : t.pool = s.pool) : t.Canon := by
  obtain ⟨hlen, hskew, hwf⟩ := h
  refine ⟨by rw [hd, List.length_map, hlen], fun D hD => ?_, by rw [hp, hwf]⟩
  obtain ⟨E, hE, rfl⟩ := List.mem_map.1 (hd ▸ hD)
  rw [hg]
  exact hskew E hE

/-- A change of the pool that keeps its form. -/
theorem canon_pool {t : State} (h : s.Canon) (hd : t.dies = s.dies) (hp : s.pool.wf = true → t.pool.wf = true) :
    t.Canon := by
  obtain ⟨hlen, hskew, hwf⟩ := h
  exact ⟨by rw [hd, hlen], by rwa [hd], hp hwf⟩

end

theorem lget_mem_or {α : Type} (z : α) (xs : List α) (k : Nat) : lget z xs k ∈ xs ∨ lget z xs k = z := by
  induction xs generalizing k with
  | nil => exact .inr rfl
  | cons x xs ih =>
    cases k with
    | zero => exact .inl List.mem_cons_self
    | succ k => exact (ih k).imp (List.mem_cons_of_mem _) id

theorem snd_mem_of_mem_lenumFrom {α : Type} {xs : List α} {k : Nat} {e : Nat × α} (h : e ∈ lenumFrom k xs) : e.2 ∈ xs := by
  induction xs generalizing k with
  | nil => exact absurd h (List.not_mem_nil)
  | cons x xs ih =>
    obtain rfl | h := List.mem_cons.1 h
    · exact List.mem_cons_self
    · exact List.mem_cons_of_mem _ (ih h)

theorem mem_lmod {α : Type} {f : α → α} {l : List α} {k : Nat} {x : α} (h : x ∈ lmod f l k) : x ∈ l ∨ ∃ y ∈ l, x = f y := by
  induction l generalizing k with
  | nil => exact .inl h
  | cons y l ih =>
    cases k with
    | zero =>
      obtain rfl | h := List.mem_cons.1 h
      · exact .inr ⟨y, List.mem_cons_self, rfl⟩
      · exact .inl (List.mem_cons_of_mem _ h)
    | succ k =>
      obtain rfl | h := List.mem_cons.1 h
      · exact .inl List.mem_cons_self
      · obtain h | ⟨z, hz, rfl⟩ := ih h
        · exact .inl (List.mem_cons_of_mem _ h)
        · exact .inr ⟨z, List.mem_cons_of_mem _ hz, rfl⟩

theorem canon_modDie {s : State} {d : Nat} {f : Die → Die} (h : s.Canon) (hf : ∀ D, (f D).skew = D.skew) :
    (s.modDie d f).Canon := by
  obtain ⟨hlen, hskew, hwf⟩ := h
  refine ⟨(lmod_length ..).trans hlen, fun D hD => ?_, hwf⟩
  obtain hD | ⟨E, hE, rfl⟩ := mem_lmod hD
  · exact hskew D hD
  · rw [hf]
    exact hskew E hE

theorem poolWith_wf {pool : Memory} {ln : Nat} {l : L2Line} (h : pool.wf = true) : (poolWith pool ln l).wf = true :=
  List.foldlRecOn l.dirty _ (motive := fun p : Memory => p.wf = true) h fun _ hp _ _ => Memory.wf_put _ _ hp

theorem writeMask_wf {m : Memory} {a : Nat} {bs : List Byte} {mask : BitVec 16} (h : m.wf = true) :
    (m.writeMask a bs mask).wf = true :=
  List.foldlRecOn (lenum bs) _ (motive := fun p : Memory => p.wf = true) h fun _ hp _ _ => by
    split
    · exact Memory.wf_put _ _ hp
    · exact hp

theorem filter_wf {m : Memory} {f : Nat × Byte → Bool} (h : m.wf = true) : Memory.wf (m.filter f) = true := by
  obtain ⟨hr, hz⟩ := mwf_iff.1 h
  exact mwf_iff.2 ⟨mrising_filter f hr, fun e he => hz e (List.mem_of_mem_filter he)⟩

/-- Writes one after another. -/
theorem foldl_write_wf {α : Type} {l : List α} {m : Memory} {a : α → Nat} {b : α → List Byte} (h : m.wf = true) :
    (l.foldl (fun m e => Memory.write m (a e) (b e)) m).wf = true :=
  List.foldlRecOn l _ (motive := fun p : Memory => p.wf = true) h fun p hp e _ => Memory.wf_write (b e) p (a e) hp

theorem canon_reset : State.reset.Canon :=
  ⟨rfl, fun D hD => by rw [List.eq_of_mem_replicate hD]; exact Nat.zero_le 2, rfl⟩

/-! ### Every function of the model

`canon_f` says that `f` keeps the predicate, in the order of the model's files. -/

/-! ### The memory system -/

theorem canon_modCore {s : State} {d c : Nat} {f : Core → Core} (hs : s.Canon) : (s.modCore d c f).Canon := by
  unfold State.modCore
  exact canon_modDie hs (fun _ => rfl)

theorem canon_countCore {s : State} {d c k n : Nat} (hs : s.Canon) : (s.countCore d c k n).Canon := by
  unfold State.countCore
  exact canon_modCore hs

theorem canon_countDie {s : State} {d k n : Nat} (hs : s.Canon) : (s.countDie d k n).Canon := by
  unfold State.countDie
  exact canon_modDie hs (fun _ => rfl)

theorem canon_takes {s : State} {sp : Spot} {k : Nat} (hs : s.Canon) : (s.takes sp k).Canon := by
  unfold State.takes
  split
  · exact canon_of_eq hs rfl rfl
  · exact canon_ite (canon_of_eq hs rfl rfl) (canon_of_eq hs rfl rfl)

theorem canon_notes {s : State} {sp : Spot} {k : Nat} (hs : s.Canon) : (s.notes sp k).Canon := by
  unfold State.notes
  split
  · exact canon_of_eq hs rfl rfl
  · exact canon_ite hs (canon_of_eq hs rfl rfl)

theorem canon_modSub {s : State} {sid : Nat} {f : Submitter → Submitter} (hs : s.Canon) : (s.modSub sid f).Canon := by
  unfold State.modSub
  exact canon_of_eq hs rfl rfl

theorem canon_modPage {s : State} {sid base : Nat} {f : Pte → Pte} (hs : s.Canon) : (s.modPage sid base f).Canon := by
  unfold State.modPage
  exact canon_modSub hs

theorem canon_touchPage {s : State} {sid va d : Nat} (hs : s.Canon) : (s.touchPage sid va d).Canon := by
  unfold State.touchPage
  split
  · exact hs
  · extract_lets s1
    have h1 : s1.Canon := canon_ite hs (canon_modPage hs)
    exact canon_ite (canon_takes h1) h1

theorem canon_touchAbsent {s : State} {sid va : Nat} (hs : s.Canon) : (s.touchAbsent sid va).Canon := by
  unfold State.touchAbsent
  split
  · exact canon_ite hs (canon_modPage hs)
  · exact hs

theorem canon_putLine {s : State} {d ln : Nat} {l : L2Line} (hs : s.Canon) : (s.putLine d ln l).Canon := by
  unfold State.putLine
  exact canon_modDie hs (fun _ => rfl)

theorem canon_delLine {s : State} {d ln : Nat} (hs : s.Canon) : (s.delLine d ln).Canon := by
  unfold State.delLine
  extract_lets s1
  have h1 : s1.Canon := canon_modDie hs (fun _ => rfl)
  exact canon_of_eq h1 rfl rfl

theorem canon_writeBack {s : State} {d ln : Nat} (hs : s.Canon) : (s.writeBack d ln).Canon := by
  unfold State.writeBack
  split
  · exact hs
  · exact canon_ite hs (canon_countDie (canon_putLine (canon_pool hs rfl fun h => poolWith_wf h)))

theorem canon_sendCxl {s : State} {d : Nat} {m : CxlMsg} {ln tag : Nat} {data : Option (Memory × List Nat)}
    (hs : s.Canon) :
    (s.sendCxl d m ln tag data).Canon := by
  unfold State.sendCxl
  exact canon_modDie hs (fun _ => rfl)

theorem canon_askAs {s : State} {d ln : Nat} {m : CxlMsg} {data : Option (Memory × List Nat)} {r : CxlWait}
    (hs : s.Canon) :
    (s.askAs d ln m data r).Canon := by
  unfold State.askAs
  extract_lets
  exact canon_modDie (canon_sendCxl hs) (fun _ => rfl)

theorem canon_askCxl {s : State} {d ln : Nat} {k : CxlReq} {who : Asker} {keep : Bool} (hs : s.Canon) :
    (s.askCxl d ln k who keep).Canon := by
  unfold State.askCxl
  exact canon_askAs hs

theorem canon_sendWb {s : State} {d ln : Nat} {m : CxlMsg} {l : L2Line} (hs : s.Canon) :
    (s.sendWb d ln m l).Canon := by
  unfold State.sendWb
  exact canon_askAs hs

theorem canon_sendOpen {s : State} {d ln : Nat} {l : L2Line} (hs : s.Canon) : (s.sendOpen d ln l).Canon := by
  unfold State.sendOpen
  exact canon_askAs hs

theorem canon_joinAsk {s : State} {d ln : Nat} {who : Asker} {keep : Bool} (hs : s.Canon) :
    (s.joinAsk d ln who keep).Canon := by
  unfold State.joinAsk
  exact canon_modDie hs (fun _ => rfl)

theorem canon_ask {s : State} {d ln : Nat} {k : CxlReq} {who : Asker} {keep : Bool} (hs : s.Canon) :
    (s.ask d ln k who keep).Canon := by
  unfold State.ask
  exact canon_ite (canon_joinAsk hs) (canon_askCxl hs)

theorem canon_leave {s : State} {d ln : Nat} (hs : s.Canon) : (s.leave d ln).Canon := by
  unfold State.leave
  split
  · exact hs
  · refine canon_ite ?_ (canon_delLine (canon_writeBack hs))
    split
    · exact canon_sendWb (canon_delLine (canon_writeBack hs))
    · exact canon_sendWb (canon_delLine (canon_writeBack hs))
    · exact canon_askCxl (canon_delLine hs)
    · exact canon_askCxl (canon_delLine hs)
    · exact canon_ite (canon_delLine hs) hs

theorem canon_holdFill {s : State} {d ln : Nat} {who : Asker} (hs : s.Canon) : (s.holdFill d ln who).Canon := by
  unfold State.holdFill
  exact canon_ite (canon_modDie hs (fun _ => rfl)) hs

theorem canon_lineRead {s : State} {d ln : Nat} {coh : Bool} {offs : List Nat} {who : Asker} {keep : Bool}
    (hs : s.Canon) :
    (s.lineRead d ln coh offs who keep).Canon := by
  unfold State.lineRead
  split
  · exact canon_ite (motive := Avail.Canon) hs (canon_ite (motive := Avail.Canon) (canon_ask hs) hs)
  · refine canon_ite (motive := Avail.Canon) hs ?_
    split
    · exact trivial
    · exact canon_ite (motive := Avail.Canon) (canon_holdFill hs) (canon_ite (motive := Avail.Canon) (canon_ask hs)
          (canon_countDie (canon_ite (canon_putLine hs) hs)))

theorem canon_lineWrite {s : State} {d ln : Nat} {coh : Bool} {who : Asker} {keep : Bool} (hs : s.Canon) :
    (s.lineWrite d ln coh who keep).Canon := by
  unfold State.lineWrite
  split
  · refine canon_ite (motive := Avail.Canon) hs (canon_ite (motive := Avail.Canon) ?_ hs)
    split
    · exact hs
    · exact hs
    · exact canon_ask hs
    · exact canon_ask hs
    · exact canon_ask hs
  · refine canon_ite (motive := Avail.Canon) hs ?_
    split
    · exact trivial
    · exact canon_ite (motive := Avail.Canon) (canon_holdFill hs) (canon_ite (motive := Avail.Canon) (canon_ask hs)
          (canon_countDie hs))

theorem canon_lineAtomic {s : State} {d ln : Nat} {coh pool : Bool} {offs : List Nat} {who : Asker} (hs : s.Canon) :
    (s.lineAtomic d ln coh pool offs who).Canon := by
  unfold State.lineAtomic
  refine canon_ite (motive := Avail.Canon) ?_ ?_
  · split
    · refine canon_ite (motive := Avail.Canon) hs ?_
      split
      · exact hs
      · exact hs
      · exact canon_ask hs
      · exact canon_ask hs
      · exact canon_ask hs
    · refine canon_ite (motive := Avail.Canon) hs ?_
      split
      · exact trivial
      · exact canon_ite (motive := Avail.Canon) (canon_holdFill hs) (canon_ask hs)
  · split
    · exact canon_lineWrite (Avail.Canon.of_ready ‹_› (canon_lineRead hs))
    · exact canon_lineRead hs

theorem canon_dropL1 {s : State} {d c home ln : Nat} (hs : s.Canon) : (s.dropL1 d c home ln).Canon := by
  unfold State.dropL1
  exact canon_modCore hs

theorem canon_traffic {s : State} {d h n : Nat} {write : Bool} (hs : s.Canon) : (s.traffic d h n write).Canon := by
  unfold State.traffic
  exact canon_countDie hs

theorem canon_commitWrite {s : State} {d c home ln : Nat} {l : L2Line} {off : Nat} {bs : List Byte}
    {mask : BitVec 16} (hs : s.Canon) :
    (s.commitWrite d c home ln l off bs mask).1.Canon := by
  unfold State.commitWrite
  extract_lets _ _ _ s1
  have h1 : s1.Canon := canon_putLine (canon_of_eq hs rfl rfl)
  exact canon_modCore h1

theorem canon_modTroupe {s : State} {id : Nat} {f : Troupe → Troupe} (hs : s.Canon) : (s.modTroupe id f).Canon := by
  unfold State.modTroupe
  exact canon_of_eq hs rfl rfl

theorem canon_modEns {s : State} {id : Nat} {f : Ensemble → Ensemble} (hs : s.Canon) : (s.modEns id f).Canon := by
  unfold State.modEns
  exact canon_of_eq hs rfl rfl

theorem canon_modLaunch {s : State} {id : Nat} {f : Launch → Launch} (hs : s.Canon) : (s.modLaunch id f).Canon := by
  unfold State.modLaunch
  exact canon_of_eq hs rfl rfl

theorem canon_modSect {s : State} {ens k : Nat} {f : Section → Section} (hs : s.Canon) :
    (s.modSect ens k f).Canon := by
  unfold State.modSect
  exact canon_modEns hs

theorem canon_writeChip {s : State} {t : Troupe} {lane : Nat} {g : Target} {bs : List Byte} {mask : BitVec 16}
    (hs : s.Canon) :
    (s.writeChip t lane g bs mask).Canon := by
  unfold State.writeChip
  split
  · exact canon_modTroupe hs
  · exact canon_modSect hs
  · split
    · exact canon_modLaunch hs
    · exact hs
  · exact hs

theorem canon_logFound {s : State} {at_ d c addr : Nat} (hs : s.Canon) : (s.logFound at_ d c addr).Canon := by
  unfold State.logFound
  exact canon_modDie (canon_countDie hs) (fun _ => rfl)

theorem canon_logError {s : State} {d c addr : Nat} (hs : s.Canon) : (s.logError d c addr).Canon := by
  unfold State.logError
  exact canon_logFound hs

theorem canon_writeTurn {s : State} {t : Troupe} {eng : Bool} {g : Target} (hs : s.Canon) :
    (s.writeTurn t eng g).Canon := by
  unfold State.writeTurn
  extract_lets
  split
  · exact canon_takes (canon_takes hs)
  · exact canon_takes hs
  · exact canon_takes hs
  · exact hs

theorem canon_readTurn {s : State} {t : Troupe} {g : Target} (hs : s.Canon) : (s.readTurn t g).Canon := by
  unfold State.readTurn
  split
  · exact canon_takes (canon_takes hs)
  · exact canon_takes hs
  · exact canon_takes hs
  · exact hs

theorem canon_passChan {s : State} {src dst : Nat} {r : ChanReq} {k : Nat} (hs : s.Canon) :
    (s.passChan src dst r k).1.Canon := by
  have h1 : (s.takes (.chan src dst) k).Canon := canon_takes hs
  unfold State.passChan
  dsimp only
  split
  · exact hs
  · split
    · exact h1
    · split
      · exact canon_of_eq hs rfl rfl
      · exact canon_ite_fst hs (canon_of_eq h1 rfl rfl)

theorem canon_sendChan {s : State} {src dst : Nat} {r : ChanReq} {k : Nat} (hs : s.Canon) :
    (s.sendChan src dst r k).Canon := by
  unfold State.sendChan
  extract_lets _ s1
  have h1 : s1.Canon := canon_takes hs
  exact canon_ite hs (canon_of_eq h1 rfl rfl)

theorem canon_poolByte {s : State} {d home pa : Nat} {coh : Bool} {who : Asker} (hs : s.Canon) :
    (s.poolByte d home pa coh who).Canon := by
  unfold State.poolByte
  extract_lets
  split
  · rename_i e1
    exact canon_ite (motive := Got.Canon) (Avail.Canon.of_ready e1 (canon_lineRead hs)) (canon_traffic (canon_of_eq
        (Avail.Canon.of_ready e1 (canon_lineRead hs)) rfl rfl))
  · exact Avail.Canon.of_waits ‹_› (canon_lineRead hs)
  · exact hs

theorem canon_readByte {s : State} {t : Troupe} {who : Asker} {g : Target} (hs : s.Canon) :
    (s.readByte t who g).Canon := by
  unfold State.readByte
  split
  · exact canon_poolByte hs
  · split
    · exact hs
    · simp only [Got.Canon]
      split
      · exact canon_traffic hs
      · exact hs

theorem canon_writeByte {s : State} {t : Troupe} {who : Asker} {g : Target} {b : Byte} (hs : s.Canon) :
    (s.writeByte t who g b).Canon := by
  unfold State.writeByte
  extract_lets s1
  have h1 : s1.Canon := canon_writeTurn hs
  split
  · split
    · exact canon_traffic (canon_commitWrite (Avail.Canon.of_ready ‹_› (canon_lineWrite h1)))
    · exact Avail.Canon.of_waits ‹_› (canon_lineWrite h1)
    · exact h1
  · exact canon_traffic (canon_writeChip h1)
  · exact canon_writeChip h1

theorem canon_engineAt {s : State} {t : Troupe} {va : Nat} {write : Bool} (hs : s.Canon) :
    SumCanon (s.engineAt t va write) := by
  unfold State.engineAt
  split
  · exact hs
  · exact hs
  · extract_lets
    exact canon_ite (motive := SumCanon) (canon_touchPage hs) (canon_ite (motive := SumCanon) trivial
        (canon_touchPage hs))
  · exact trivial
  · exact hs

theorem canon_enginePass {s : State} {t : Troupe} {who : Asker} {last : Nat} {g : Target} (hs : s.Canon) :
    (s.enginePass t who last g).1.Canon := by
  unfold State.enginePass
  exact canon_ite_fst hs (canon_passChan hs)

theorem canon_engineReadFrom {s : State} {t : Troupe} {who : Asker} {pre : List (Nat × Byte)} {last va n : Nat}
    (hs : s.Canon) : (s.engineReadFrom t who pre last va n).Canon := by
  induction n generalizing s last va with
  | zero => exact hs
  | succ n ih =>
    unfold State.engineReadFrom
    extract_lets f1
    split
    · unfold f1
      split
      · exact EGot.Canon.of_bytes ‹_› (ih hs)
      · exact ih hs
    · split
      · exact canon_inl ‹_› (canon_engineAt hs)
      · split
        · exact canon_fst ‹_› (canon_enginePass (canon_touchPage hs))
        · split
          · exact Got.Canon.of_waits ‹_› (canon_readByte (canon_fst ‹_› (canon_enginePass (canon_touchPage hs))))
          · exact canon_logFound (Got.Canon.of_bad ‹_› (canon_readByte (canon_fst ‹_› (canon_enginePass
                (canon_touchPage hs)))))
          · unfold f1
            split
            · exact EGot.Canon.of_bytes ‹_› (ih (Got.Canon.of_bytes ‹_› (canon_readByte (canon_fst ‹_›
                  (canon_enginePass (canon_touchPage hs))))))
            · exact ih (Got.Canon.of_bytes ‹_› (canon_readByte (canon_fst ‹_› (canon_enginePass (canon_touchPage
                  hs)))))

theorem canon_engineRead {s : State} {t : Troupe} {who : Asker} {va n : Nat} (hs : s.Canon) :
    (s.engineRead t who va n).Canon := by
  unfold State.engineRead
  exact canon_engineReadFrom hs

theorem canon_opRead {s : State} {t : Troupe} {o : Op} {va n : Nat} (hs : s.Canon) : (s.opRead t o va n).Canon := by
  unfold State.opRead
  exact canon_engineReadFrom hs

theorem canon_engineWriteFrom {s : State} {t : Troupe} {who : Asker} {last va : Nat} {bs : List Byte}
    (hs : s.Canon) : (s.engineWriteFrom t who last va bs).Canon := by
  induction bs generalizing s last va with
  | nil => exact hs
  | cons b bs ih =>
    unfold State.engineWriteFrom
    split
    · exact canon_inl ‹_› (canon_engineAt hs)
    · split
      · exact canon_fst ‹_› (canon_enginePass (canon_touchPage hs))
      · split
        · exact Got.Canon.of_waits ‹_› (canon_writeByte (canon_fst ‹_› (canon_enginePass (canon_touchPage hs))))
        · exact canon_logFound (Got.Canon.of_bad ‹_› (canon_writeByte (canon_fst ‹_› (canon_enginePass
              (canon_touchPage hs)))))
        · exact ih (Got.Canon.of_bytes ‹_› (canon_writeByte (canon_fst ‹_› (canon_enginePass (canon_touchPage hs)))))

theorem canon_engineWrite {s : State} {t : Troupe} {who : Asker} {va : Nat} {bs : List Byte} (hs : s.Canon) :
    (s.engineWrite t who va bs).Canon := by
  unfold State.engineWrite
  exact canon_engineWriteFrom hs

theorem canon_keepAsks {s u : State} (hs : s.Canon) : (s.keepAsks u).Canon := by
  obtain ⟨hlen, hskew, hwf⟩ := hs
  refine ⟨?_, fun D hD => ?_, hwf⟩
  · exact (List.length_map ..).trans ((lenumFrom_length ..).trans hlen)
  · obtain ⟨e, he, rfl⟩ := List.mem_map.1 hD
    exact hskew e.2 (snd_mem_of_mem_lenumFrom he)

theorem canon_leaveNC {s : State} {home ln : Nat} {l : L2Line} (hs : s.Canon) : (s.leaveNC home ln l).Canon := by
  unfold State.leaveNC
  exact canon_ite (canon_putLine hs) (canon_delLine hs)

theorem canon_dropOnce {s : State} {home ln : Nat} {who : Asker} {wb : Bool} (hs : s.Canon) :
    (s.dropOnce home ln who wb).Canon := by
  unfold State.dropOnce
  split
  · exact canon_ite (canon_ite (canon_leaveNC (canon_writeBack hs)) (canon_sendOpen (canon_leaveNC (canon_writeBack
        hs)))) hs
  · exact hs

theorem canon_dropOnceOf {s : State} {p : Asker → Bool} (hs : s.Canon) : (s.dropOnceOf p).Canon := by
  unfold State.dropOnceOf
  refine canon_foldl hs fun _ _ h1 => canon_foldl h1 fun _ _ h2 => ?_
  split
  · exact canon_ite (canon_dropOnce h2) h2
  · exact h2

theorem canon_putCode {s : State} {d c home ln : Nat} (hs : s.Canon) : (s.putCode d c home ln).Canon := by
  unfold State.putCode
  exact canon_modCore hs

theorem canon_readCode {s : State} {who : Asker} {d c home ln : Nat} {coh : Bool} (hs : s.Canon) :
    (s.readCode who d c home ln coh).1.Canon := by
  unfold State.readCode
  split
  · exact canon_dropOnce (canon_putCode (Avail.Canon.of_ready ‹_› (canon_lineRead hs)))
  · exact Avail.Canon.of_waits ‹_› (canon_lineRead hs)
  · exact hs

theorem canon_fillCode {s : State} {who : Asker} {d c home pa : Nat} {coh : Bool} (hs : s.Canon) :
    (s.fillCode who d c home pa coh).1.Canon := by
  unfold State.fillCode
  exact canon_ite_fst hs (canon_ite_fst (canon_readCode hs) (canon_sendChan hs))

/-! ### Troupes, ensembles and operations -/

theorem canon_modPath {s : State} {r : PathRef} {f : Path → Path} (hs : s.Canon) : (s.modPath r f).Canon := by
  unfold State.modPath
  exact canon_modTroupe hs

theorem canon_advance {s : State} {r : PathRef} (hs : s.Canon) : (s.advance r).Canon := by
  unfold State.advance
  exact canon_modTroupe hs

theorem canon_writeLanes {s : State} {id : Nat} {m : Word} {f : Nat → List (Nat × Word)} (hs : s.Canon) :
    (s.writeLanes id m f).Canon := by
  unfold State.writeLanes
  exact canon_modTroupe hs

theorem canon_sweepBars {s : State} {ens : Nat} (hs : s.Canon) : (s.sweepBars ens).Canon := by
  unfold State.sweepBars
  split
  · exact hs
  · extract_lets _ _ s1
    have h1 : s1.Canon := canon_modEns hs
    exact canon_of_eq hs rfl rfl

theorem canon_setExt {s : State} {x : ExtSet} (hs : s.Canon) : (s.setExt x).Canon := by
  unfold State.setExt
  exact canon_of_eq hs rfl rfl

theorem canon_releaseExt {s : State} {id : Nat} {keep : Bool} (hs : s.Canon) : (s.releaseExt id keep).Canon := by
  unfold State.releaseExt
  split
  · exact hs
  · exact canon_ite (canon_modTroupe (canon_setExt hs)) hs

theorem canon_takeExt {s : State} {id : Nat} (hs : s.Canon) : (s.takeExt id).Canon := by
  unfold State.takeExt
  split
  · exact hs
  · extract_lets _ _ s1
    have h1 : s1.Canon := canon_setExt hs
    exact canon_modTroupe h1

theorem canon_send {s : State} {r : Record} (hs : s.Canon) : (s.send r).Canon := by
  unfold State.send
  exact canon_of_eq hs rfl rfl

theorem canon_modCmd {s : State} {id : Nat} {f : Command → Command} (hs : s.Canon) : (s.modCmd id f).Canon := by
  unfold State.modCmd
  exact canon_of_eq hs rfl rfl

theorem canon_offer {s : State} {c : Candidate} (hs : s.Canon) : (s.offer c).Canon := by
  unfold State.offer
  exact canon_of_eq hs rfl rfl

theorem canon_freeSave {s : State} {id : Nat} (hs : s.Canon) : (s.freeSave id).Canon := by
  unfold State.freeSave
  split
  · exact hs
  · exact canon_ite hs (canon_ite (canon_modTroupe hs) (canon_of_eq hs rfl rfl))

theorem canon_retire {s : State} {ens : Nat} (hs : s.Canon) : (s.retire ens).Canon := by
  unfold State.retire
  extract_lets _ s1
  have h1 : s1.Canon := canon_foldl hs fun _ _ h2 => canon_modTroupe (canon_freeSave (canon_releaseExt h2))
  exact canon_modEns h1

theorem canon_swapOut {s : State} {ens : Nat} (hs : s.Canon) : (s.swapOut ens).Canon := by
  unfold State.swapOut
  split
  · exact hs
  · extract_lets _ s1 s2
    have h1 : s1.Canon := canon_foldl hs fun _ _ h2 => canon_releaseExt (canon_modTroupe h2)
    have h2 : s2.Canon := canon_of_eq h1 rfl rfl
    exact canon_ite (canon_retire h2) (canon_offer (canon_modEns h2))

theorem canon_settleEns {s : State} {ens : Nat} (hs : s.Canon) : (s.settleEns ens).Canon := by
  unfold State.settleEns
  split
  · exact hs
  · extract_lets
    split
    · exact canon_ite (canon_retire hs) hs
    · exact canon_ite (canon_retire hs) (canon_ite (canon_swapOut hs) hs)
    · exact hs

theorem canon_wake {s : State} {t : Troupe} (hs : s.Canon) : (s.wake t).Canon := by
  unfold State.wake
  exact canon_of_eq hs rfl rfl

theorem canon_makeDone {s : State} {id : Nat} (hs : s.Canon) : (s.makeDone id).Canon := by
  unfold State.makeDone
  split
  · exact hs
  · extract_lets s1 s2
    have h1 : s1.Canon := canon_releaseExt hs
    have h2 : s2.Canon := canon_modTroupe h1
    exact canon_settleEns (canon_sweepBars (canon_wake h2))

theorem canon_settle {s : State} {id : Nat} (hs : s.Canon) : (s.settle id).Canon := by
  unfold State.settle
  split
  · exact hs
  · extract_lets _ _ s1 s2
    have h1 : s1.Canon := canon_modTroupe hs
    have h2 : s2.Canon := canon_ite (canon_modEns (canon_countCore h1)) h1
    exact canon_ite (canon_makeDone h2) (canon_sweepBars h2)

theorem canon_strike {s : State} {d c : Nat} {mismatch : Bool} (hs : s.Canon) : (s.strike d c mismatch).Canon := by
  unfold State.strike
  exact canon_modDie hs (fun _ => rfl)

theorem canon_halt {s : State} {id pc code : Nat} (hs : s.Canon) : (s.halt id pc code).Canon := by
  unfold State.halt
  split
  · exact hs
  next t _ =>
    have h : ((if code = 0x13 then s.strike t.die t.core false else s).releaseExt id true).Canon :=
      canon_releaseExt (canon_ite (canon_strike hs) hs)
    refine canon_ite hs (canon_settleEns (canon_sweepBars (canon_wake ?_)))
    split
    · exact canon_send (canon_modLaunch (canon_modEns (canon_modTroupe (canon_of_eq h rfl rfl))))
    · exact canon_modEns (canon_modTroupe (canon_of_eq h rfl rfl))

theorem canon_endBarrierWaits {s : State} {id : Nat} (hs : s.Canon) : (s.endBarrierWaits id).Canon := by
  unfold State.endBarrierWaits
  split
  · exact hs
  · refine canon_foldl hs fun _ _ h1 => ?_
    split
    · exact canon_advance (canon_modEns (canon_writeLanes h1))
    · exact canon_advance (canon_writeLanes h1)
    · exact h1

theorem canon_dropWaiters {s : State} {id : Nat} (hs : s.Canon) : (s.dropWaiters id).Canon := by
  unfold State.dropWaiters
  exact canon_mapDies hs rfl (fun _ => rfl) rfl

theorem canon_spillTroupe {s : State} {id : Nat} {rsm : Option Nat} (hs : s.Canon) :
    (s.spillTroupe id rsm).Canon := by
  unfold State.spillTroupe
  split
  · exact hs
  · exact canon_ite hs (canon_modEns (canon_modTroupe (canon_dropWaiters (canon_endBarrierWaits hs))))

theorem canon_spill {s : State} {id : Nat} (hs : s.Canon) : (s.spill id).Canon := by
  unfold State.spill
  split
  · exact hs
  · exact canon_settleEns (canon_sweepBars (canon_spillTroupe hs))

theorem canon_fetchSwap {s : State} {ens va who rsm : Nat} (hs : s.Canon) : (s.fetchSwap ens va who rsm).Canon := by
  unfold State.fetchSwap
  split
  · exact hs
  · extract_lets _ _ s1 s2
    have h1 : s1.Canon := canon_modEns (canon_touchAbsent hs)
    have h2 : s2.Canon := canon_foldl h1 fun _ _ h3 => canon_spillTroupe h3
    exact canon_settleEns (canon_sweepBars h2)

theorem canon_fetchMiss {s : State} {id va rsm pc : Nat} (hs : s.Canon) : (s.fetchMiss id va rsm pc).Canon := by
  unfold State.fetchMiss
  split
  · exact hs
  · exact canon_ite (canon_halt (canon_touchAbsent hs)) (canon_ite (canon_spill (canon_touchAbsent hs))
        (canon_fetchSwap hs))

theorem canon_takeFaults {s : State} {r : PathRef} {pc : Nat} {fs : List LaneFault} {o : Machine.Origin}
    (hs : s.Canon) :
    (s.takeFaults r pc fs o).Canon := by
  unfold State.takeFaults
  split
  · exact hs
  · split
    · exact hs
    · extract_lets _ _ _ s1 s2
      have h1 : s1.Canon := canon_modTroupe hs
      have h2 : s2.Canon := canon_countDie h1
      refine canon_ite hs (canon_ite (canon_halt hs) (canon_ite (canon_halt hs) (canon_ite (canon_spill
          (canon_modTroupe hs)) (canon_ite h2 ?_))))
      split
      · exact h2
      · exact canon_fetchSwap h2
      · exact canon_halt h2

theorem canon_faultWord {s : State} {r : PathRef} {fs : List LaneFault} (hs : s.Canon) :
    (s.faultWord r fs).Canon := by
  unfold State.faultWord
  split
  · exact hs
  · split
    · exact hs
    · exact canon_ite (canon_advance hs) (canon_ite (canon_takeFaults hs) (canon_takeFaults (canon_modTroupe hs)))

theorem canon_faultBranch {s : State} {r : PathRef} {fs : List LaneFault} (hs : s.Canon) :
    (s.faultBranch r fs).Canon := by
  unfold State.faultBranch
  split
  · exact hs
  · split
    · exact hs
    · exact canon_takeFaults (canon_modTroupe hs)

theorem canon_faultSlot {s : State} {r : PathRef} {pc code addr : Nat} (hs : s.Canon) :
    (s.faultSlot r pc code addr).Canon := by
  unfold State.faultSlot
  split
  · exact hs
  · split
    · exact hs
    · exact canon_takeFaults hs

/-! ### Operands and the checks -/

theorem canon_logOutside {s : State} {t : Troupe} {p : Path} {n : Nat} (hs : s.Canon) :
    (s.logOutside t p n).Canon := by
  induction n generalizing s with
  | zero => exact hs
  | succ n ih =>
    unfold State.logOutside
    exact ih (canon_countDie (canon_logError hs))

theorem canon_logInside {s : State} {t : Troupe} {p : Path} {n : Nat} (hs : s.Canon) :
    (s.logInside t p n).Canon := by
  induction n generalizing s with
  | zero => exact hs
  | succ n ih =>
    unfold State.logInside
    exact ih (canon_logError hs)

theorem canon_startOn {s : State} {t : Troupe} {p : Path} {m : Word} {x : Ins} {u : Use} (hs : s.Canon) :
    (s.startOn t p m x u).Canon := by
  unfold State.startOn
  extract_lets
  exact canon_logInside (canon_logOutside (canon_modTroupe hs))

theorem canon_start {s : State} {t : Troupe} {p : Path} {x : Ins} {u : Use} (hs : s.Canon) :
    (s.start t p x u).Canon := by
  unfold State.start
  exact canon_startOn hs

theorem canon_finish {s : State} {r : PathRef} {bad : Word} (hs : s.Canon) : (s.finish r bad).Canon := by
  unfold State.finish
  exact canon_faultWord hs

theorem canon_waitAt {s : State} {r : PathRef} {w : Wait} {bad : Word} (hs : s.Canon) : (s.waitAt r w bad).Canon := by
  unfold State.waitAt
  split
  · exact hs
  · exact canon_takeFaults (canon_modPath hs)

theorem canon_runWord {x : Ins} {u : Use} {s : State} {f : State → Troupe → Path → Word → State} (hs : s.Canon)
    (hf : ∀ s t p act, s.Canon → (f s t p act).Canon) : OutcomeCanon (runWord x u s f) := by
  unfold runWord
  split
  · exact trivial
  · exact canon_advance (canon_start hs)
  · exact canon_faultWord (canon_start hs)
  · exact canon_finish (hf _ _ _ _ (canon_start hs))

theorem canon_runEff {x : Ins} {u : Use} {s : State} {f : State → Troupe → Path → Word → Eff} (hs : s.Canon)
    (hf : ∀ s t p act, s.Canon → (f s t p act).Canon) : OutcomeCanon (runEff x u s f) := by
  unfold runEff
  split
  · exact trivial
  · exact canon_advance (canon_start hs)
  · exact canon_faultWord (canon_start hs)
  · split
    · exact canon_faultWord (Eff.Canon.of_done ‹_› (hf _ _ _ _ (canon_start hs)))
    · exact canon_modPath hs
    · exact canon_modPath (Eff.Canon.of_wait ‹_› (hf _ _ _ _ (canon_start hs)))

theorem canon_faultDeferred {s : State} {r : PathRef} {act : Word} {code addr orig : Nat} {own : List LaneFault}
    (hs : s.Canon) :
    (s.faultDeferred r act code addr orig own).Canon := by
  unfold State.faultDeferred
  exact canon_faultWord hs

theorem canon_runLanes {x : Ins} {u : Use} {s : State} {f : (Nat → Word) → List (Nat × Word)} (hs : s.Canon) :
    OutcomeCanon (runLanes x u s f) := by
  unfold runLanes
  exact canon_runWord hs (fun _ _ _ _ h1 => canon_writeLanes h1)

/-! ### Integer instructions -/

theorem canon_int2 {x : Ins} {ty : Ty} {sat : Bool} {s : State} {f : Int → Int → Int} (hs : s.Canon) :
    OutcomeCanon (int2 x ty sat s f) := by
  unfold int2
  exact canon_runLanes hs

theorem canon_int1 {x : Ins} {ty : Ty} {sat : Bool} {s : State} {f : Int → Int} (hs : s.Canon) :
    OutcomeCanon (int1 x ty sat s f) := by
  unfold int1
  exact canon_runLanes hs

theorem canon_bits2 {x : Ins} {ty : Ty} {s : State} {f : Nat → Nat → Nat} (hs : s.Canon) :
    OutcomeCanon (bits2 x ty s f) := by
  unfold bits2
  exact canon_runLanes hs

theorem canon_execIadd {x : Ins} {ty : Ty} {sat : Bool} {s : State} (hs : s.Canon) :
    OutcomeCanon (execIadd x ty sat s) := by
  unfold execIadd
  exact canon_int2 hs

theorem canon_execIsub {x : Ins} {ty : Ty} {sat : Bool} {s : State} (hs : s.Canon) :
    OutcomeCanon (execIsub x ty sat s) := by
  unfold execIsub
  exact canon_int2 hs

theorem canon_execImul {x : Ins} {ty : Ty} {sat : Bool} {s : State} (hs : s.Canon) :
    OutcomeCanon (execImul x ty sat s) := by
  unfold execImul
  exact canon_int2 hs

theorem canon_execImulhi {x : Ins} {ty : Ty} {s : State} (hs : s.Canon) : OutcomeCanon (execImulhi x ty s) := by
  unfold execImulhi
  exact canon_int2 hs

theorem canon_execImad {x : Ins} {ty : Ty} {sat : Bool} {s : State} (hs : s.Canon) :
    OutcomeCanon (execImad x ty sat s) := by
  unfold execImad
  exact canon_runLanes hs

theorem canon_execImin {x : Ins} {ty : Ty} {s : State} (hs : s.Canon) : OutcomeCanon (execImin x ty s) := by
  unfold execImin
  exact canon_int2 hs

theorem canon_execImax {x : Ins} {ty : Ty} {s : State} (hs : s.Canon) : OutcomeCanon (execImax x ty s) := by
  unfold execImax
  exact canon_int2 hs

theorem canon_execIabs {x : Ins} {ty : Ty} {sat : Bool} {s : State} (hs : s.Canon) :
    OutcomeCanon (execIabs x ty sat s) := by
  unfold execIabs
  exact canon_int1 hs

theorem canon_execIneg {x : Ins} {ty : Ty} {sat : Bool} {s : State} (hs : s.Canon) :
    OutcomeCanon (execIneg x ty sat s) := by
  unfold execIneg
  exact canon_int1 hs

theorem canon_execIsad {x : Ins} {ty : Ty} {sat : Bool} {s : State} (hs : s.Canon) :
    OutcomeCanon (execIsad x ty sat s) := by
  unfold execIsad
  exact canon_runLanes hs

theorem canon_execIaddc {x : Ins} {_ty : Ty} {s : State} (hs : s.Canon) : OutcomeCanon (execIaddc x _ty s) := by
  unfold execIaddc
  exact canon_runLanes hs

theorem canon_execIsubb {x : Ins} {_ty : Ty} {s : State} (hs : s.Canon) : OutcomeCanon (execIsubb x _ty s) := by
  unfold execIsubb
  exact canon_runLanes hs

theorem canon_execAnd {x : Ins} {ty : Ty} {s : State} (hs : s.Canon) : OutcomeCanon (execAnd x ty s) := by
  unfold execAnd
  exact canon_bits2 hs

theorem canon_execOr {x : Ins} {ty : Ty} {s : State} (hs : s.Canon) : OutcomeCanon (execOr x ty s) := by
  unfold execOr
  exact canon_bits2 hs

theorem canon_execXor {x : Ins} {ty : Ty} {s : State} (hs : s.Canon) : OutcomeCanon (execXor x ty s) := by
  unfold execXor
  exact canon_bits2 hs

theorem canon_execAndn {x : Ins} {ty : Ty} {s : State} (hs : s.Canon) : OutcomeCanon (execAndn x ty s) := by
  unfold execAndn
  exact canon_bits2 hs

theorem canon_execNot {x : Ins} {ty : Ty} {s : State} (hs : s.Canon) : OutcomeCanon (execNot x ty s) := by
  unfold execNot
  exact canon_runLanes hs

theorem canon_shiftOp {x : Ins} {ty : Ty} {s : State} {f : Nat → Nat → Nat} (hs : s.Canon) :
    OutcomeCanon (shiftOp x ty s f) := by
  unfold shiftOp
  exact canon_runLanes hs

theorem canon_execShl {x : Ins} {ty : Ty} {s : State} (hs : s.Canon) : OutcomeCanon (execShl x ty s) := by
  unfold execShl
  exact canon_shiftOp hs

theorem canon_execShrl {x : Ins} {ty : Ty} {s : State} (hs : s.Canon) : OutcomeCanon (execShrl x ty s) := by
  unfold execShrl
  exact canon_shiftOp hs

theorem canon_execShra {x : Ins} {ty : Ty} {s : State} (hs : s.Canon) : OutcomeCanon (execShra x ty s) := by
  unfold execShra
  exact canon_shiftOp hs

theorem canon_execRotl {x : Ins} {ty : Ty} {s : State} (hs : s.Canon) : OutcomeCanon (execRotl x ty s) := by
  unfold execRotl
  exact canon_shiftOp hs

theorem canon_execBfx {x : Ins} {ty : Ty} {s : State} (hs : s.Canon) : OutcomeCanon (execBfx x ty s) := by
  unfold execBfx
  exact canon_runLanes hs

theorem canon_execBfi {x : Ins} {_ty : Ty} {s : State} (hs : s.Canon) : OutcomeCanon (execBfi x _ty s) := by
  unfold execBfi
  exact canon_runLanes hs

theorem canon_execPopc {x : Ins} {ty : Ty} {s : State} (hs : s.Canon) : OutcomeCanon (execPopc x ty s) := by
  unfold execPopc
  exact canon_runLanes hs

theorem canon_execClz {x : Ins} {ty : Ty} {s : State} (hs : s.Canon) : OutcomeCanon (execClz x ty s) := by
  unfold execClz
  exact canon_runLanes hs

theorem canon_execCtz {x : Ins} {ty : Ty} {s : State} (hs : s.Canon) : OutcomeCanon (execCtz x ty s) := by
  unfold execCtz
  exact canon_runLanes hs

theorem canon_execBrev {x : Ins} {ty : Ty} {s : State} (hs : s.Canon) : OutcomeCanon (execBrev x ty s) := by
  unfold execBrev
  exact canon_runLanes hs

theorem canon_execPrmb {x : Ins} {s : State} (hs : s.Canon) : OutcomeCanon (execPrmb x s) := by
  unfold execPrmb
  exact canon_runLanes hs

theorem canon_execIcmp {x : Ins} {ty : Ty} {rel : Rel} {s : State} (hs : s.Canon) :
    OutcomeCanon (execIcmp x ty rel s) := by
  unfold execIcmp
  exact canon_runLanes hs

theorem canon_execSel {x : Ins} {ty : Ty} {s : State} (hs : s.Canon) : OutcomeCanon (execSel x ty s) := by
  unfold execSel
  exact canon_runLanes hs

theorem canon_execLea {x : Ins} {s : State} (hs : s.Canon) : OutcomeCanon (execLea x s) := by
  unfold execLea
  exact canon_runLanes hs

theorem canon_execAddw {x : Ins} {ty : Ty} {s : State} (hs : s.Canon) : OutcomeCanon (execAddw x ty s) := by
  unfold execAddw
  exact canon_runLanes hs

theorem canon_execSubw {x : Ins} {ty : Ty} {s : State} (hs : s.Canon) : OutcomeCanon (execSubw x ty s) := by
  unfold execSubw
  exact canon_runLanes hs

theorem canon_execShlw {x : Ins} {s : State} (hs : s.Canon) : OutcomeCanon (execShlw x s) := by
  unfold execShlw
  exact canon_runLanes hs

theorem canon_execMulw {x : Ins} {ty : Ty} {s : State} (hs : s.Canon) : OutcomeCanon (execMulw x ty s) := by
  unfold execMulw
  exact canon_runLanes hs

theorem canon_execLeaw {x : Ins} {ty : Ty} {s : State} (hs : s.Canon) : OutcomeCanon (execLeaw x ty s) := by
  unfold execLeaw
  exact canon_runLanes hs

theorem canon_execDot4 {x : Ins} {ty : Ty} {sat : Bool} {s : State} (hs : s.Canon) :
    OutcomeCanon (execDot4 x ty sat s) := by
  unfold execDot4
  exact canon_runLanes hs

theorem canon_execMov {x : Ins} {ty : Ty} {s : State} (hs : s.Canon) : OutcomeCanon (execMov x ty s) := by
  unfold execMov
  exact canon_runLanes hs

theorem canon_execMovi {x : Ins} {s : State} (hs : s.Canon) : OutcomeCanon (execMovi x s) := by
  unfold execMovi
  exact canon_runLanes hs

theorem canon_execMoviw {x : Ins} {ty : Ty} {s : State} (hs : s.Canon) : OutcomeCanon (execMoviw x ty s) := by
  unfold execMoviw
  exact canon_runLanes hs

theorem canon_execRhash {x : Ins} {s : State} (hs : s.Canon) : OutcomeCanon (execRhash x s) := by
  unfold execRhash
  exact canon_runLanes hs

/-! ### Float instructions -/

theorem canon_float2 {x : Ins} {ty : Ty} {rnd : Rnd} {sat : Bool} {s : State}
    {f : Machine.Num → Machine.Num → Machine.Num} (hs : s.Canon) :
    OutcomeCanon (float2 x ty rnd sat s f) := by
  unfold float2
  exact canon_runLanes hs

theorem canon_execFadd {x : Ins} {ty : Ty} {rnd : Rnd} {sat : Bool} {s : State} (hs : s.Canon) :
    OutcomeCanon (execFadd x ty rnd sat s) := by
  unfold execFadd
  exact canon_float2 hs

theorem canon_execFsub {x : Ins} {ty : Ty} {rnd : Rnd} {sat : Bool} {s : State} (hs : s.Canon) :
    OutcomeCanon (execFsub x ty rnd sat s) := by
  unfold execFsub
  exact canon_float2 hs

theorem canon_execFmul {x : Ins} {ty : Ty} {rnd : Rnd} {sat : Bool} {s : State} (hs : s.Canon) :
    OutcomeCanon (execFmul x ty rnd sat s) := by
  unfold execFmul
  exact canon_float2 hs

theorem canon_execFfma {x : Ins} {ty : Ty} {rnd : Rnd} {sat : Bool} {s : State} (hs : s.Canon) :
    OutcomeCanon (execFfma x ty rnd sat s) := by
  unfold execFfma
  exact canon_runLanes hs

theorem canon_floatPick {x : Ins} {ty : Ty} {isMax prefer : Bool} {s : State} (hs : s.Canon) :
    OutcomeCanon (floatPick x ty isMax prefer s) := by
  unfold floatPick
  exact canon_runLanes hs

theorem canon_execFmin {x : Ins} {ty : Ty} {s : State} (hs : s.Canon) : OutcomeCanon (execFmin x ty s) := by
  unfold execFmin
  exact canon_floatPick hs

theorem canon_execFmax {x : Ins} {ty : Ty} {s : State} (hs : s.Canon) : OutcomeCanon (execFmax x ty s) := by
  unfold execFmax
  exact canon_floatPick hs

theorem canon_execFminn {x : Ins} {ty : Ty} {s : State} (hs : s.Canon) : OutcomeCanon (execFminn x ty s) := by
  unfold execFminn
  exact canon_floatPick hs

theorem canon_execFmaxn {x : Ins} {ty : Ty} {s : State} (hs : s.Canon) : OutcomeCanon (execFmaxn x ty s) := by
  unfold execFmaxn
  exact canon_floatPick hs

theorem canon_execFabs {x : Ins} {ty : Ty} {s : State} (hs : s.Canon) : OutcomeCanon (execFabs x ty s) := by
  unfold execFabs
  exact canon_runLanes hs

theorem canon_execFneg {x : Ins} {ty : Ty} {s : State} (hs : s.Canon) : OutcomeCanon (execFneg x ty s) := by
  unfold execFneg
  exact canon_runLanes hs

theorem canon_execFcmp {x : Ins} {ty : Ty} {rel : FRel} {s : State} (hs : s.Canon) :
    OutcomeCanon (execFcmp x ty rel s) := by
  unfold execFcmp
  exact canon_runLanes hs

theorem canon_execFclass {x : Ins} {ty : Ty} {s : State} (hs : s.Canon) : OutcomeCanon (execFclass x ty s) := by
  unfold execFclass
  exact canon_runLanes hs

theorem canon_execFrnd {x : Ins} {ty : Ty} {rnd : Rnd} {s : State} (hs : s.Canon) :
    OutcomeCanon (execFrnd x ty rnd s) := by
  unfold execFrnd
  exact canon_runLanes hs

theorem canon_execFscale {x : Ins} {ty : Ty} {rnd : Rnd} {sat : Bool} {s : State} (hs : s.Canon) :
    OutcomeCanon (execFscale x ty rnd sat s) := by
  unfold execFscale
  exact canon_runLanes hs

theorem canon_special {x : Ins} {s : State} {f : Nat → Nat} (hs : s.Canon) : OutcomeCanon (special x s f) := by
  unfold special
  exact canon_runLanes hs

theorem canon_execFrcp {x : Ins} {s : State} (hs : s.Canon) : OutcomeCanon (execFrcp x s) := by
  unfold execFrcp
  exact canon_special hs

theorem canon_execFrsq {x : Ins} {s : State} (hs : s.Canon) : OutcomeCanon (execFrsq x s) := by
  unfold execFrsq
  exact canon_special hs

theorem canon_execFsqrt {x : Ins} {s : State} (hs : s.Canon) : OutcomeCanon (execFsqrt x s) := by
  unfold execFsqrt
  exact canon_special hs

theorem canon_execFdiv {x : Ins} {s : State} (hs : s.Canon) : OutcomeCanon (execFdiv x s) := by
  unfold execFdiv
  exact canon_runLanes hs

theorem canon_execFlog2 {x : Ins} {s : State} (hs : s.Canon) : OutcomeCanon (execFlog2 x s) := by
  unfold execFlog2
  exact canon_special hs

theorem canon_execFexp2 {x : Ins} {s : State} (hs : s.Canon) : OutcomeCanon (execFexp2 x s) := by
  unfold execFexp2
  exact canon_special hs

theorem canon_execFsin {x : Ins} {s : State} (hs : s.Canon) : OutcomeCanon (execFsin x s) := by
  unfold execFsin
  exact canon_special hs

theorem canon_execFcos {x : Ins} {s : State} (hs : s.Canon) : OutcomeCanon (execFcos x s) := by
  unfold execFcos
  exact canon_special hs

theorem canon_execFtanh {x : Ins} {s : State} (hs : s.Canon) : OutcomeCanon (execFtanh x s) := by
  unfold execFtanh
  exact canon_special hs

theorem canon_execFlgst {x : Ins} {s : State} (hs : s.Canon) : OutcomeCanon (execFlgst x s) := by
  unfold execFlgst
  exact canon_special hs

theorem canon_execHadd2 {x : Ins} {ty : Ty} {rnd : Rnd} {sat : Bool} {s : State} (hs : s.Canon) :
    OutcomeCanon (execHadd2 x ty rnd sat s) := by
  unfold execHadd2
  exact canon_runLanes hs

theorem canon_execHmul2 {x : Ins} {ty : Ty} {rnd : Rnd} {sat : Bool} {s : State} (hs : s.Canon) :
    OutcomeCanon (execHmul2 x ty rnd sat s) := by
  unfold execHmul2
  exact canon_runLanes hs

theorem canon_execHfma2 {x : Ins} {ty : Ty} {rnd : Rnd} {sat : Bool} {s : State} (hs : s.Canon) :
    OutcomeCanon (execHfma2 x ty rnd sat s) := by
  unfold execHfma2
  exact canon_runLanes hs

theorem canon_execFdot2 {x : Ins} {ty : Ty} {rnd : Rnd} {sat : Bool} {s : State} (hs : s.Canon) :
    OutcomeCanon (execFdot2 x ty rnd sat s) := by
  unfold execFdot2
  exact canon_runLanes hs

/-! ### Conversions -/

theorem canon_execCvt {x : Ins} {dst src : Ty} {rnd : Rnd} {sat : Bool} {s : State} (hs : s.Canon) :
    OutcomeCanon (execCvt x dst src rnd sat s) := by
  unfold execCvt
  extract_lets
  exact canon_ite (motive := OutcomeCanon) (canon_runLanes hs) (canon_runLanes hs)

theorem canon_execCvts {x : Ins} {dst src : Ty} {rnd : Rnd} {sat : Bool} {s : State} (hs : s.Canon) :
    OutcomeCanon (execCvts x dst src rnd sat s) := by
  unfold execCvts
  extract_lets
  exact canon_runLanes hs

theorem canon_execBlkscale {x : Ins} {ty : Ty} {first : Bool} {s : State} (hs : s.Canon) :
    OutcomeCanon (execBlkscale x ty first s) := by
  unfold execBlkscale
  exact canon_runEff hs (fun _ _ _ _ h1 => canon_ite (motive := Eff.Canon) h1 (canon_writeLanes h1))

theorem canon_execQuant {x : Ins} {ty : Ty} {rnd : Rnd} {s : State} (hs : s.Canon) :
    OutcomeCanon (execQuant x ty rnd s) := by
  unfold execQuant
  extract_lets
  exact canon_runLanes hs

theorem canon_execDeq {x : Ins} {dst src : Ty} {rnd : Rnd} {sat : Bool} {s : State} (hs : s.Canon) :
    OutcomeCanon (execDeq x dst src rnd sat s) := by
  unfold execDeq
  exact canon_runLanes hs

theorem canon_execAmaxrec {x : Ins} {first : Bool} {s : State} (hs : s.Canon) :
    OutcomeCanon (execAmaxrec x first s) := by
  unfold execAmaxrec
  extract_lets
  exact canon_runEff hs (fun _ _ _ _ h1 => canon_ite (motive := Eff.Canon) (canon_modTroupe h1) h1)

theorem canon_execAmaxrecRecord {troupe : Nat} {s : State} (hs : s.Canon) :
    OutcomeCanon (execAmaxrecRecord troupe s) := by
  unfold execAmaxrecRecord
  split
  · exact hs
  · split
    · exact hs
    · exact canon_ite (motive := OutcomeCanon) hs (canon_settleEns (canon_modDie (canon_modTroupe (canon_takes hs))
          (fun _ => rfl)))

theorem canon_execAmaxrd {x : Ins} {ty : Ty} {first : Bool} {s : State} (hs : s.Canon) :
    OutcomeCanon (execAmaxrd x ty first s) := by
  unfold execAmaxrd
  extract_lets
  exact canon_runEff hs (fun _ _ _ _ h1 => canon_ite (motive := Eff.Canon) (canon_ite (motive := Eff.Canon) trivial
      (canon_writeLanes h1)) h1)

theorem canon_packOp {x : Ins} {w : Nat} {s : State} (hs : s.Canon) : OutcomeCanon (packOp x w s) := by
  unfold packOp
  exact canon_runWord hs (fun _ _ _ _ h1 => canon_writeLanes h1)

theorem canon_unpackOp {x : Ins} {w : Nat} {s : State} (hs : s.Canon) : OutcomeCanon (unpackOp x w s) := by
  unfold unpackOp
  exact canon_runWord hs (fun _ _ _ _ h1 => canon_writeLanes h1)

theorem canon_execPack6 {x : Ins} {s : State} (hs : s.Canon) : OutcomeCanon (execPack6 x s) := by
  unfold execPack6
  exact canon_packOp hs

theorem canon_execUnpack6 {x : Ins} {s : State} (hs : s.Canon) : OutcomeCanon (execUnpack6 x s) := by
  unfold execUnpack6
  exact canon_unpackOp hs

theorem canon_execPack4 {x : Ins} {s : State} (hs : s.Canon) : OutcomeCanon (execPack4 x s) := by
  unfold execPack4
  exact canon_packOp hs

theorem canon_execUnpack4 {x : Ins} {s : State} (hs : s.Canon) : OutcomeCanon (execUnpack4 x s) := by
  unfold execUnpack4
  exact canon_unpackOp hs

/-! ### Cross-lane instructions -/

theorem canon_crossLane {x : Ins} {wr rd : List (BitVec 9 × Nat)} {s : State} {f : Troupe → Nat → Word → Nat → List
    (Nat × Word)} (hs : s.Canon) :
    OutcomeCanon (crossLane x wr rd s f) := by
  unfold crossLane
  exact canon_runWord hs (fun _ _ _ _ h1 => canon_writeLanes h1)

theorem canon_execShfl {x : Ins} {k : ShflKind} {ty : Ty} {s : State} (hs : s.Canon) :
    OutcomeCanon (execShfl x k ty s) := by
  unfold execShfl
  exact canon_crossLane hs

theorem canon_execVote {x : Ins} {any : Bool} {s : State} (hs : s.Canon) : OutcomeCanon (execVote x any s) := by
  unfold execVote
  exact canon_crossLane hs

theorem canon_execBallot {x : Ins} {s : State} (hs : s.Canon) : OutcomeCanon (execBallot x s) := by
  unfold execBallot
  exact canon_crossLane hs

theorem canon_execRedux {x : Ins} {op : RedOp} {ty : Ty} {rnd : Rnd} {sat : Bool} {s : State} (hs : s.Canon) :
    OutcomeCanon (execRedux x op ty rnd sat s) := by
  unfold execRedux
  exact canon_crossLane hs

theorem canon_execArgmx {x : Ins} {ty : Ty} {s : State} (hs : s.Canon) : OutcomeCanon (execArgmx x ty s) := by
  unfold execArgmx
  exact canon_crossLane hs

theorem canon_execArgmn {x : Ins} {ty : Ty} {s : State} (hs : s.Canon) : OutcomeCanon (execArgmn x ty s) := by
  unfold execArgmn
  exact canon_crossLane hs

theorem canon_execScan {x : Ins} {excl : Bool} {op : RedOp} {ty : Ty} {rnd : Rnd} {sat : Bool} {s : State}
    (hs : s.Canon) :
    OutcomeCanon (execScan x excl op ty rnd sat s) := by
  unfold execScan
  exact canon_crossLane hs

theorem canon_execBcast {x : Ins} {ty : Ty} {first : Bool} {s : State} (hs : s.Canon) :
    OutcomeCanon (execBcast x ty first s) := by
  unfold execBcast
  extract_lets
  exact canon_runWord hs (fun _ _ _ _ h1 => canon_writeLanes h1)

theorem canon_execMatch {x : Ins} {ty : Option Ty} {s : State} (hs : s.Canon) : OutcomeCanon (execMatch x ty s) := by
  unfold execMatch
  split
  · exact canon_crossLane hs
  · exact canon_runEff hs (fun _ _ _ _ h1 => canon_ite (motive := Eff.Canon) h1 (canon_writeLanes h1))

theorem canon_execFirstl {x : Ins} {s : State} (hs : s.Canon) : OutcomeCanon (execFirstl x s) := by
  unfold execFirstl
  extract_lets
  exact canon_crossLane hs

/-! ### Control -/

theorem canon_touchFetch {s : State} {t : Troupe} {a : Nat} (hs : s.Canon) : (s.touchFetch t a).Canon := by
  unfold State.touchFetch
  exact canon_touchPage hs

theorem canon_fetchSlot {s : State} {t : Troupe} {who : Asker} {a : Nat} (hs : s.Canon) :
    (s.fetchSlot t who a).Canon := by
  unfold State.fetchSlot
  split
  · exact canon_touchFetch (canon_fillCode hs)
  · exact hs

theorem canon_targetWaits {s : State} {t : Troupe} {who : Asker} {a : Int} (hs : s.Canon) :
    OptionCanon (s.targetWaits t who a) := by
  unfold State.targetWaits
  refine canon_ite (motive := OptionCanon) canon_none ?_
  split
  · refine canon_ite (motive := OptionCanon) canon_none ?_
    split
    · exact canon_fst ‹_› (canon_fillCode hs)
    · exact canon_none
  · exact canon_none

theorem canon_holdHead {s : State} {r : PathRef} (hs : s.Canon) : (s.holdHead r).Canon := by
  unfold State.holdHead
  exact canon_modPath hs

theorem canon_branchTo {s : State} {t : Troupe} {p : Path} {a : Int} {lanes : Word} (hs : s.Canon) :
    (s.branchTo t p a lanes).Canon := by
  unfold State.branchTo
  extract_lets
  split
  · exact canon_modPath (canon_fetchSlot hs)
  · exact canon_faultBranch hs
  · exact canon_fetchMiss (canon_modPath hs)

theorem canon_branchOn {x : Ins} {u : Use} {s : State} {link ret : Bool}
    {tgt : Troupe → Path → Word → Option Int} (hs : s.Canon) : OutcomeCanon (branchOn x u s link ret tgt) := by
  unfold branchOn
  split
  · exact trivial
  · exact canon_advance (canon_start hs)
  · exact canon_faultBranch (canon_start hs)
  · split
    next h =>
      exact canon_holdHead (canon_some h
        (canon_ite (motive := OptionCanon) canon_none (canon_bind fun _ => canon_targetWaits hs)))
    next =>
      extract_lets s1 s2 s3
      have h1 : s1.Canon := canon_start hs
      have h2 : s2.Canon := canon_ite (canon_countCore h1) h1
      have h3 : s3.Canon := canon_ite (canon_writeLanes h2) h2
      refine canon_ite (motive := OutcomeCanon) (canon_faultBranch h3) ?_
      split
      · exact canon_advance h3
      · exact canon_branchTo h3

theorem canon_stepWhole {s : State} {t : Troupe} {p : Path} {k : Nat} (hs : s.Canon) : (s.stepWhole t p k).Canon := by
  unfold State.stepWhole
  extract_lets s1
  have h1 : s1.Canon := canon_modTroupe hs
  exact canon_of_eq hs rfl rfl

theorem canon_runBranch {x : Ins} {u : Use} {s : State} {link ret : Bool} {tgt : Troupe → Path → Word → Option Int}
    (hs : s.Canon) :
    OutcomeCanon (runBranch x u s link ret tgt) := by
  unfold runBranch
  split
  · split
    · exact canon_ite (motive := OutcomeCanon) (canon_takeFaults (canon_start hs)) (canon_modTroupe hs)
    · exact canon_branchOn hs
  · split
    · exact canon_ite (motive := OutcomeCanon) (canon_modTroupe hs) (canon_ite (motive := OutcomeCanon)
          (canon_takeFaults (canon_start hs)) (canon_ite (motive := OutcomeCanon) (canon_modTroupe (canon_ite
          (canon_writeLanes (canon_start hs)) (canon_start hs))) (canon_branchOn (canon_stepWhole hs))))
    · exact canon_branchOn hs
  · exact canon_branchOn hs

theorem canon_execBra {x : Ins} {s : State} (hs : s.Canon) : OutcomeCanon (execBra x s) := by
  unfold execBra
  exact canon_runBranch hs

theorem canon_execBrc {x : Ins} {first : Bool} {s : State} (hs : s.Canon) : OutcomeCanon (execBrc x first s) := by
  unfold execBrc
  exact canon_runBranch hs

theorem canon_execJmpi {x : Ins} {first : Bool} {s : State} (hs : s.Canon) : OutcomeCanon (execJmpi x first s) := by
  unfold execJmpi
  exact canon_runBranch hs

theorem canon_execCall {x : Ins} {s : State} (hs : s.Canon) : OutcomeCanon (execCall x s) := by
  unfold execCall
  exact canon_runBranch hs

theorem canon_execCalli {x : Ins} {first : Bool} {s : State} (hs : s.Canon) : OutcomeCanon (execCalli x first s) := by
  unfold execCalli
  exact canon_runBranch hs

theorem canon_execRet {x : Ins} {first : Bool} {s : State} (hs : s.Canon) : OutcomeCanon (execRet x first s) := by
  unfold execRet
  exact canon_runBranch hs

theorem canon_brdJoin {s : State} {id k : Nat} {toT : Bool} (hs : s.Canon) : (s.brdJoin id k toT).Canon := by
  unfold State.brdJoin
  split
  · exact hs
  · split
    · exact hs
    · split
      · extract_lets _ _ _ _ _ _ _ _ _ _ _ f12 f13
        refine canon_ite (canon_modTroupe hs) ?_
        split
        · unfold f13
          exact canon_takeFaults (canon_modPath hs)
        · exact canon_fetchMiss hs
        · unfold f12
          exact canon_modTroupe hs
        · unfold f12
          exact canon_modTroupe hs
        · split
          · unfold f13
            exact canon_takeFaults (canon_modPath hs)
          · exact canon_fetchMiss hs
          · split
            · unfold f12
              exact canon_modTroupe hs
            · exact canon_ite (canon_countCore (canon_modTroupe hs)) (canon_ite (canon_takeFaults (canon_modPath hs))
                  (canon_countCore (canon_modTroupe hs)))
      · exact hs

theorem canon_joinWaits {s : State} {t : Troupe} {p : Path} {toT : Bool} (hs : s.Canon) :
    OptionCanon (s.joinWaits t p toT) := by
  unfold State.joinWaits
  split
  · exact canon_map_state (canon_targetWaits hs) fun _ h1 => canon_holdHead h1
  · exact canon_none

theorem canon_brdMove {s : State} {t : Troupe} {p : Path} {act bad : Word} {x : Ins} (hs : s.Canon) :
    (s.brdMove t p act bad x).Canon := by
  unfold State.brdMove
  extract_lets _ _ _ _ _ _ _ _ _ _ _ _ _ _ _ _ s1 s2 s3 _ _ _ _ s4 s5 s6 s7 _
  have h1 : s1.Canon := canon_ite (canon_ite (canon_countCore (canon_modTroupe hs)) (canon_countCore (canon_modPath
      hs))) (canon_modPath hs)
  have h2 : s2.Canon := canon_ite h1 (canon_fetchSlot h1)
  have h3 : s3.Canon := canon_ite h2 (canon_fetchSlot h2)
  have h4 : s4.Canon := canon_takeFaults h3
  have h5 : s5.Canon := canon_takeFaults h4
  have h6 : s6.Canon := canon_modTroupe h5
  have h7 : s7.Canon := canon_takeFaults h6
  exact canon_ite (canon_takeFaults (canon_modPath hs)) (canon_ite (canon_fetchMiss h7) h7)

theorem canon_brdPath {s : State} {x : Ins} (hs : s.Canon) : OutcomeCanon (s.brdPath x) := by
  unfold State.brdPath
  extract_lets
  split
  · exact trivial
  · exact canon_advance (canon_start hs)
  · extract_lets
    exact canon_takeFaults (canon_modPath (canon_start hs))
  · split
    · exact canon_holdHead (canon_some ‹_› (canon_findSome fun _ => canon_targetWaits hs))
    · exact canon_brdMove (canon_start hs)

theorem canon_brdAlone {s : State} {t : Troupe} {p : Path} {k : Nat} {x : Ins} (hs : s.Canon) :
    OutcomeCanon (s.brdAlone t p k x) := by
  unfold State.brdAlone
  exact canon_ite (motive := OutcomeCanon) (canon_modTroupe hs) (canon_brdPath (canon_stepWhole hs))

theorem canon_execBrd {x : Ins} {s : State} (hs : s.Canon) : OutcomeCanon (execBrd x s) := by
  unfold execBrd
  extract_lets
  split
  · exact trivial
  · split
    · exact canon_brdPath (canon_ite hs (canon_modPath hs))
    · split
      · exact trivial
      · split
        · split
          · exact canon_some ‹_› (canon_joinWaits hs)
          · exact canon_settle (canon_brdJoin (canon_start hs))
        · exact canon_brdAlone hs
        · exact canon_advance (canon_start hs)
      · extract_lets _ s1
        have h1 : s1.Canon := canon_start hs
        exact canon_ite (motive := OutcomeCanon) (canon_takeFaults h1) (canon_faultWord h1)
      · extract_lets
        refine canon_ite (motive := OutcomeCanon) (canon_takeFaults (canon_start hs)) ?_
        split
        · split
          · exact canon_some ‹_› (canon_joinWaits hs)
          · exact canon_settle (canon_brdJoin (canon_start hs))
        · exact canon_brdAlone hs
        · split
          · exact canon_holdHead (canon_some ‹_› (canon_targetWaits hs))
          · exact canon_branchTo (canon_start hs)

theorem canon_regang {s : State} {t : Troupe} {p : Path} (hs : s.Canon) : (s.regang t p).Canon := by
  unfold State.regang
  extract_lets s1 s2
  have h1 : s1.Canon := canon_modPath hs
  have h2 : s2.Canon := by
    unfold s2
    split
    · exact canon_modTroupe h1
    · exact h1
  exact canon_settle h2

theorem canon_execRegang {x : Ins} {s : State} (hs : s.Canon) : OutcomeCanon (execRegang x s) := by
  unfold execRegang
  extract_lets
  split
  · exact trivial
  · exact canon_advance (canon_start hs)
  · exact canon_faultWord (canon_start hs)
  · extract_lets s1 _
    have h1 : s1.Canon := canon_start hs
    refine canon_ite (motive := OutcomeCanon) (canon_finish h1) ?_
    split
    · exact canon_ite (canon_finish h1) (canon_settle (canon_modTroupe h1))
    · exact canon_ite (canon_regang h1) (canon_settle (canon_takeFaults (canon_modPath h1)))

theorem canon_endTrap {s : State} {id k : Nat} {again : Bool} (hs : s.Canon) : (s.endTrap id k again).Canon := by
  unfold State.endTrap
  split
  · exact hs
  · split
    · exact hs
    · split
      · exact canon_settle (canon_brdJoin hs)
      · exact canon_settle (canon_modTroupe hs)

theorem canon_execExit {x : Ins} {s : State} (hs : s.Canon) : OutcomeCanon (execExit x s) := by
  unfold execExit
  extract_lets
  split
  · exact trivial
  · exact canon_advance (canon_start hs)
  · exact canon_faultWord (canon_start hs)
  · extract_lets s1 s2
    have h1 : s1.Canon := canon_start hs
    have h2 : s2.Canon := canon_modTroupe h1
    refine canon_ite (motive := OutcomeCanon) (canon_faultWord h1) ?_
    split
    · extract_lets
      exact canon_ite (motive := OutcomeCanon) (canon_faultWord h2) (canon_ite (motive := OutcomeCanon)
          (canon_endTrap h2) (canon_settle (canon_advance h2)))
    · exact canon_settle (canon_finish h2)

theorem canon_prefetchSlot {s : State} {t : Troupe} {a : Nat} (hs : s.Canon) : (s.prefetchSlot t a).Canon := by
  unfold State.prefetchSlot
  extract_lets s1
  have h1 : s1.Canon := canon_countCore hs
  refine canon_ite h1 ?_
  split
  · exact canon_ite h1 (canon_fillCode hs)
  · exact h1

theorem canon_prefetchBlock {s : State} {t : Troupe} {a : Nat} (hs : s.Canon) : (s.prefetchBlock t a).Canon := by
  unfold State.prefetchBlock
  extract_lets s1
  have h1 : s1.Canon := canon_prefetchSlot hs
  split
  · split
    · exact canon_ite (canon_foldl h1 fun _ _ h2 => canon_prefetchSlot h2) h1
    · exact h1
  · exact h1

theorem canon_execIpf {x : Ins} {s : State} (hs : s.Canon) : OutcomeCanon (execIpf x s) := by
  unfold execIpf
  exact canon_runWord hs (fun _ _ _ _ h1 => canon_ite h1 (canon_ite (canon_countCore h1) (canon_prefetchBlock h1)))

theorem canon_execYield {x : Ins} {s : State} (hs : s.Canon) : OutcomeCanon (execYield x s) := by
  unfold execYield
  exact canon_runWord hs (fun _ _ _ _ h1 => canon_modPath h1)

theorem canon_execNop {x : Ins} {s : State} (hs : s.Canon) : OutcomeCanon (execNop x s) := by
  unfold execNop
  exact canon_runWord hs (fun _ _ _ _ h1 => h1)

theorem canon_execSleep {x : Ins} {s : State} (hs : s.Canon) : OutcomeCanon (execSleep x s) := by
  unfold execSleep
  extract_lets
  split
  · exact trivial
  · exact canon_advance (canon_start hs)
  · exact canon_faultWord (canon_start hs)
  · extract_lets s1 s2 _
    have h1 : s1.Canon := canon_start hs
    have h2 : s2.Canon := canon_finish h1
    exact canon_ite (motive := OutcomeCanon) (canon_faultWord h1) (canon_ite h2 (canon_modPath h2))

theorem canon_execSleepExpiry {r : PathRef} {s : State} (hs : s.Canon) : OutcomeCanon (execSleepExpiry r s) := by
  unfold execSleepExpiry
  exact canon_modPath hs

theorem canon_execStallCountExpiry {r : PathRef} {s : State} (hs : s.Canon) :
    OutcomeCanon (execStallCountExpiry r s) := by
  unfold execStallCountExpiry
  exact canon_modPath hs

theorem canon_execPathAged {r : PathRef} {s : State} (hs : s.Canon) : OutcomeCanon (execPathAged r s) := by
  unfold execPathAged
  exact canon_modPath hs

theorem canon_execMaskset {x : Ins} {first : Bool} {s : State} (hs : s.Canon) :
    OutcomeCanon (execMaskset x first s) := by
  unfold execMaskset
  extract_lets
  split
  · exact trivial
  · extract_lets
    split
    · exact trivial
    · exact canon_advance (canon_startOn hs)
    · exact canon_faultWord (canon_startOn hs)
    · extract_lets
      exact canon_finish (canon_modTroupe (canon_startOn hs))

theorem canon_execMaskget {x : Ins} {s : State} (hs : s.Canon) : OutcomeCanon (execMaskget x s) := by
  unfold execMaskget
  exact canon_runWord hs (fun _ _ _ _ h1 => canon_writeLanes h1)

theorem canon_execBar {x : Ins} {s : State} (hs : s.Canon) : OutcomeCanon (execBar x s) := by
  unfold execBar
  extract_lets
  split
  · exact trivial
  · exact canon_advance (canon_start hs)
  · exact canon_faultWord (canon_start hs)
  · extract_lets s1 _ s2
    have h1 : s1.Canon := canon_start hs
    have h2 : s2.Canon := canon_modTroupe h1
    split
    · exact canon_finish h1
    · exact canon_ite (motive := OutcomeCanon) (canon_faultWord h1) (canon_ite (motive := OutcomeCanon) (canon_finish
          (canon_writeLanes h2)) (canon_ite (motive := OutcomeCanon) (canon_sweepBars (canon_finish (canon_writeLanes
          (canon_modEns h2)))) (canon_sweepBars (canon_waitAt (canon_modEns h2)))))

theorem canon_execBararv {x : Ins} {s : State} (hs : s.Canon) : OutcomeCanon (execBararv x s) := by
  unfold execBararv
  extract_lets
  split
  · exact trivial
  · exact canon_advance (canon_start hs)
  · exact canon_faultWord (canon_start hs)
  · extract_lets s1 _ s2
    have h1 : s1.Canon := canon_start hs
    have h2 : s2.Canon := canon_modTroupe h1
    split
    · exact canon_finish h1
    · exact canon_ite (motive := OutcomeCanon) (canon_faultWord h1) (canon_sweepBars (canon_finish (canon_writeLanes
          (canon_modEns h2))))

theorem canon_execBarwt {x : Ins} {first : Bool} {s : State} (hs : s.Canon) : OutcomeCanon (execBarwt x first s) := by
  unfold execBarwt
  extract_lets
  split
  · exact trivial
  · exact canon_advance (canon_start hs)
  · exact canon_faultWord (canon_start hs)
  · extract_lets s1 _ _
    have h1 : s1.Canon := canon_start hs
    split
    · exact canon_finish h1
    · exact canon_ite (motive := OutcomeCanon) (canon_faultWord h1) (canon_ite (motive := OutcomeCanon) (canon_finish
          (canon_writeLanes h1)) (canon_ite (motive := OutcomeCanon) (canon_finish (canon_writeLanes h1)) (canon_ite
          (motive := OutcomeCanon) (canon_finish (canon_writeLanes h1)) (canon_waitAt h1))))

theorem canon_execXacq {x : Ins} {s : State} (hs : s.Canon) : OutcomeCanon (execXacq x s) := by
  unfold execXacq
  extract_lets
  split
  · exact trivial
  · exact canon_advance (canon_start hs)
  · exact canon_faultWord (canon_start hs)
  · extract_lets s1
    have h1 : s1.Canon := canon_start hs
    exact canon_ite (motive := OutcomeCanon) (canon_finish h1) (canon_ite (motive := OutcomeCanon) (canon_finish
        (canon_takeExt h1)) (canon_waitAt h1))

theorem canon_execExtendedSetGrant {r : PathRef} {s : State} (hs : s.Canon) :
    OutcomeCanon (execExtendedSetGrant r s) := by
  unfold execExtendedSetGrant
  split
  · exact hs
  · split
    · exact hs
    · exact canon_ite (motive := OutcomeCanon) hs (canon_ite (motive := OutcomeCanon) (canon_advance hs) (canon_ite
          (motive := OutcomeCanon) (canon_advance (canon_takeExt hs)) hs))

theorem canon_execXrel {x : Ins} {s : State} (hs : s.Canon) : OutcomeCanon (execXrel x s) := by
  unfold execXrel
  exact canon_runEff hs (fun _ _ _ _ h1 => canon_ite (motive := Eff.Canon) h1 (canon_ite
      (motive := Eff.Canon) trivial (canon_releaseExt h1)))

theorem canon_execIdf {x : Ins} {s : State} (hs : s.Canon) : OutcomeCanon (execIdf x s) := by
  unfold execIdf
  exact canon_runEff hs (fun _ _ _ _ h1 => canon_ite (motive := Eff.Canon) h1 (canon_writeLanes h1))

theorem canon_execMovs {x : Ins} {s : State} (hs : s.Canon) : OutcomeCanon (execMovs x s) := by
  unfold execMovs
  extract_lets
  exact canon_runEff hs (fun _ _ _ _ h1 => canon_ite (motive := Eff.Canon) h1 (canon_writeLanes h1))

theorem canon_execMovsw {x : Ins} {first : Bool} {s : State} (hs : s.Canon) : OutcomeCanon (execMovsw x first s) := by
  unfold execMovsw
  exact canon_runEff hs (fun _ _ _ _ h1 => canon_ite (motive := Eff.Canon) (canon_modTroupe h1) (canon_ite
      (motive := Eff.Canon) (canon_modTroupe h1) h1))

theorem canon_execTrap {x : Ins} {s : State} (hs : s.Canon) : OutcomeCanon (execTrap x s) := by
  unfold execTrap
  exact canon_runEff hs (fun _ _ _ _ h1 => h1)

theorem canon_debugStop {s : State} {t : Troupe} {m : BitVec 8} {all : Bool} (hs : s.Canon) :
    (s.debugStop t m all).Canon := by
  unfold State.debugStop
  exact canon_of_eq hs rfl rfl

theorem canon_execBkpt {x : Ins} {s : State} (hs : s.Canon) : OutcomeCanon (execBkpt x s) := by
  unfold execBkpt
  extract_lets
  split
  · exact trivial
  · exact canon_advance (canon_start hs)
  · exact canon_faultWord (canon_start hs)
  · extract_lets s1
    have h1 : s1.Canon := canon_start hs
    split
    · exact canon_faultWord h1
    · exact canon_debugStop (canon_finish h1)

theorem canon_execTret {x : Ins} {s : State} (hs : s.Canon) : OutcomeCanon (execTret x s) := by
  unfold execTret
  extract_lets
  split
  · exact trivial
  · exact canon_advance (canon_start hs)
  · exact canon_faultWord (canon_start hs)
  · refine canon_ite (motive := OutcomeCanon) (canon_faultWord (canon_start hs)) ?_
    split
    next h => exact canon_some h (canon_ite (motive := OptionCanon) canon_none (canon_joinWaits hs))
    next => exact canon_endTrap (canon_start hs)
    next => exact canon_start hs

theorem canon_execFwcall {x : Ins} {first : Bool} {s : State} (hs : s.Canon) :
    OutcomeCanon (execFwcall x first s) := by
  unfold execFwcall
  extract_lets
  split
  · exact trivial
  · exact canon_advance (canon_start hs)
  · exact canon_faultWord (canon_start hs)
  · exact canon_modPath (canon_start hs)

theorem canon_fwAnswer {s : State} {t : Troupe} {fn : Word} {arg clk : DWord} (hs : s.Canon) :
    (s.fwAnswer t fn arg clk).1.Canon := by
  unfold State.fwAnswer
  refine canon_ite_fst hs ?_
  split
  · exact hs
  · exact canon_ite_fst (canon_modLaunch hs) (canon_ite_fst hs hs)

theorem canon_execFwcallAnswer {r : PathRef} {s : State} (hs : s.Canon) : OutcomeCanon (execFwcallAnswer r s) := by
  unfold execFwcallAnswer
  split
  · exact hs
  · split
    · exact hs
    · split
      · extract_lets s1
        have h1 : s1.1.Canon := canon_fwAnswer hs
        exact canon_advance (canon_writeLanes h1)
      · exact hs

theorem canon_execHalt {x : Ins} {s : State} (hs : s.Canon) : OutcomeCanon (execHalt x s) := by
  unfold execHalt
  extract_lets
  split
  · exact trivial
  · exact canon_advance (canon_start hs)
  · exact canon_faultWord (canon_start hs)
  · extract_lets s1 _ _
    have h1 : s1.Canon := canon_start hs
    exact canon_ite (motive := OutcomeCanon) (canon_faultWord h1) (canon_halt h1)

theorem canon_execSavemark {x : Ins} {s : State} (hs : s.Canon) : OutcomeCanon (execSavemark x s) := by
  unfold execSavemark
  exact canon_runEff hs (fun _ _ _ _ h1 => canon_ite (motive := Eff.Canon) h1 (canon_modTroupe h1))

/-! ### Memory instructions -/

theorem canon_touchAll {s : State} {t : Troupe} {sp : Space} {a : Access} (hs : s.Canon) :
    (s.touchAll t sp a).Canon := by
  unfold State.touchAll
  exact canon_ite (canon_foldl hs fun _ _ h1 => canon_touchPage h1) hs

theorem canon_touchMissing {s : State} {t : Troupe} {fs : List LaneFault} (hs : s.Canon) :
    (s.touchMissing t fs).Canon := by
  unfold State.touchMissing
  exact canon_foldl hs fun _ _ h1 => canon_ite (canon_touchAbsent h1) h1

theorem canon_modOp {s : State} {troupe id : Nat} {f : Op → Op} (hs : s.Canon) : (s.modOp troupe id f).Canon := by
  unfold State.modOp
  exact canon_modTroupe hs

theorem canon_addOp {s : State} {t : Troupe} {p : Path} {c : OpClass} {k : OpKind} {act : Word} (hs : s.Canon) :
    (s.addOp t p c k act).Canon := by
  unfold State.addOp
  extract_lets
  exact canon_modTroupe (canon_of_eq hs rfl rfl)

theorem canon_setAcc {s : State} {troupe id : Nat} {a : Acc} (hs : s.Canon) : (s.setAcc troupe id a).Canon := by
  unfold State.setAcc
  exact canon_modOp hs

theorem canon_commitRegion {s : State} {id : Nat} (hs : s.Canon) : (s.commitRegion id).Canon := by
  unfold State.commitRegion
  exact canon_modTroupe hs

theorem canon_prune {s : State} {id : Nat} (hs : s.Canon) : (s.prune id).Canon := by
  unfold State.prune
  extract_lets s1
  have h1 : s1.Canon := canon_modTroupe hs
  split
  · exact canon_settleEns h1
  · exact h1

theorem canon_enter {s : State} {t : Troupe} {o : Op} {a : Acc} (hs : s.Canon) : (s.enter t o a).Canon := by
  unfold State.enter
  extract_lets _ s1
  have h1 : s1.Canon := canon_takes (canon_setAcc hs)
  exact canon_of_eq h1 rfl rfl

theorem canon_learnRead {s : State} {t : Troupe} {o : Op} {lane home ln pass seq : Nat} {opens : List Nat}
    (hs : s.Canon) :
    (s.learnRead t o lane home ln pass seq opens).Canon := by
  unfold State.learnRead
  extract_lets s1 _
  have h1 : s1.Canon := canon_ite (canon_modOp hs) hs
  exact canon_modTroupe h1

theorem canon_markWrote {s : State} {t : Troupe} {o : Op} {home ln : Nat} (hs : s.Canon) :
    (s.markWrote t o home ln).Canon := by
  unfold State.markWrote
  extract_lets
  exact canon_modTroupe (canon_of_eq hs rfl rfl)

theorem canon_grant {s : State} {d c home ln seq : Nat} {l : L2Line} (hs : s.Canon) :
    (s.grant d c home ln seq l).Canon := by
  unfold State.grant
  extract_lets
  exact canon_ite hs (canon_modCore (canon_countDie (canon_putLine (canon_takes (canon_takes hs)))))

theorem canon_makeRead {s : State} {t : Troupe} {o : Op} {a : Acc} (hs : s.Canon) :
    (s.makeRead t o a).1.Canon := by
  unfold State.makeRead
  split
  · dsimp only
    split
    next h => exact Avail.Canon.of_waits h (canon_lineRead hs)
    next => exact hs
    next s' _ h =>
      have h1 : ({ s' with fresh := s'.fresh + 1 } : State).Canon :=
        canon_of_eq (Avail.Canon.of_ready h (canon_lineRead hs)) rfl rfl
      exact canon_learnRead (canon_ite (canon_grant (canon_readTurn (canon_traffic h1)))
        (canon_readTurn (canon_traffic h1)))
  · exact canon_of_eq (canon_traffic hs) rfl rfl
  · refine canon_readTurn ?_
    split
    · exact canon_traffic hs
    · exact hs

theorem canon_makeL1 {s : State} {t : Troupe} {o : Op} {a : Acc} (hs : s.Canon) : (s.makeL1 t o a).1.Canon := by
  unfold State.makeL1
  split
  · extract_lets _ _ s1
    have h1 : s1.Canon := canon_takes (canon_traffic (canon_countCore hs))
    split
    · extract_lets
      exact canon_ite_fst (canon_learnRead h1) hs
    · exact hs
  · exact hs

theorem canon_writePast {s : State} {h pa : Nat} {bs : List Byte} {mask : BitVec 16} (hs : s.Canon) :
    (s.writePast h pa bs mask).Canon := by
  unfold State.writePast
  exact canon_countDie (canon_pool hs rfl fun h => writeMask_wf h)

theorem canon_makeWrite {s : State} {t : Troupe} {o : Op} {a : Acc} (hs : s.Canon) : (s.makeWrite t o a).1.Canon := by
  unfold State.makeWrite
  extract_lets _ s1 _
  have h1 : s1.Canon := canon_writeTurn hs
  split
  · extract_lets
    refine canon_ite_fst (canon_markWrote (canon_traffic (canon_writePast h1))) ?_
    split
    · exact Avail.Canon.of_waits ‹_› (canon_lineWrite h1)
    · exact h1
    · split
      · extract_lets s2
        have h2 : s2.Canon := canon_markWrote (canon_traffic (canon_fst ‹_› (canon_commitWrite
            (Avail.Canon.of_ready ‹_› (canon_lineWrite h1)))))
        exact h2
  · exact canon_of_eq (canon_traffic h1) rfl rfl
  · extract_lets s2
    have h2 : s2.Canon := by
      unfold s2
      split
      · exact canon_traffic h1
      · exact h1
    exact canon_writeChip h2

theorem canon_atomBad {s : State} {t : Troupe} {o : Op} {a : Acc} (hs : s.Canon) : (s.atomBad t o a).Canon := by
  unfold State.atomBad
  exact canon_halt (canon_logFound hs)

theorem canon_makeAtom {s : State} {t : Troupe} {o : Op} {a : Acc} (hs : s.Canon) : (s.makeAtom t o a).1.Canon := by
  unfold State.makeAtom
  split
  · extract_lets
    split
    · exact Avail.Canon.of_waits ‹_› (canon_lineAtomic hs)
    · exact canon_atomBad hs
    · refine canon_ite_fst (canon_atomBad (Avail.Canon.of_ready ‹_› (canon_lineAtomic hs))) ?_
      extract_lets _ s1 _ s2
      have h1 : s1.Canon := canon_traffic (canon_traffic (Avail.Canon.of_ready ‹_› (canon_lineAtomic hs)))
      have h2 : s2.Canon := canon_learnRead (canon_writeTurn (canon_of_eq h1 rfl rfl))
      split
      · split
        exact canon_markWrote (canon_fst ‹_› (canon_commitWrite h2))
      · exact canon_putLine h2
  · exact hs
  · refine canon_ite_fst (canon_atomBad hs) ?_
    extract_lets _ s1 s2
    have h1 : s1.Canon := by
      unfold s1
      refine canon_writeTurn ?_
      split
      · exact canon_traffic (canon_traffic hs)
      · exact hs
    have h2 : s2.Canon := by
      unfold s2
      split
      · exact canon_writeChip h1
      · exact h1
    exact h2

theorem canon_make {s : State} {t : Troupe} {o : Op} {a : Acc} (hs : s.Canon) : (s.make t o a).1.Canon := by
  unfold State.make
  split
  · exact canon_makeRead hs
  · exact canon_makeWrite hs
  · split
    · exact canon_fst ‹_› (canon_makeAtom hs)
    · exact canon_makeAtom hs
  · exact canon_makeAtom hs

theorem canon_makeTwins {s : State} {t : Troupe} {o : Op} {a b : Acc} {f : State → Acc → State × Option Acc}
    (hs : s.Canon) (hf : ∀ s c, s.Canon → (f s c).1.Canon) : (s.makeTwins t o a b f).Canon := by
  unfold State.makeTwins
  refine canon_foldl hs fun _ _ h1 => ?_
  split
  · exact canon_setAcc (canon_fst ‹_› (hf _ _ h1))
  · exact canon_fst ‹_› (hf _ _ h1)

theorem canon_makeWith {s : State} {t : Troupe} {o : Op} {a : Acc} (hs : s.Canon) : (s.makeWith t o a).1.Canon := by
  unfold State.makeWith
  split
  · exact canon_makeTwins (canon_fst ‹_› (canon_make hs)) (fun _ _ h1 => canon_make h1)
  · exact canon_make hs

theorem canon_deliver {s : State} {t : Troupe} {ty : Ty} {d : Nat} {a : Acc} (hs : s.Canon) :
    (s.deliver t ty d a).Canon := by
  unfold State.deliver
  extract_lets _ s1
  have h1 : s1.Canon := canon_writeLanes hs
  exact canon_ite (canon_countDie (canon_logFound (canon_modTroupe h1))) h1

theorem canon_return_ {s : State} {troupe id : Nat} {a : Acc} (hs : s.Canon) : (s.return_ troupe id a).Canon := by
  unfold State.return_
  split
  · exact hs
  · split
    · exact hs
    · split
      · exact canon_modOp (canon_deliver hs)
      · exact canon_setAcc (canon_ite hs (canon_deliver hs))
      · exact canon_setAcc (canon_ite hs (canon_deliver hs))
      · exact canon_setAcc hs

theorem canon_returnLane {s0 : State} {troupe id : Nat} {fromL1 : Bool} {s : State} {l : Nat} (hs : s.Canon) :
    (s0.returnLane troupe id fromL1 s l).Canon := by
  unfold State.returnLane
  split
  · exact hs
  · split
    · exact hs
    · split
      · exact hs
      · split
        · exact canon_return_ hs
        · exact hs
        · exact hs
        · extract_lets
          refine canon_ite hs (canon_ite ?_ (canon_ite (canon_countCore (canon_foldl hs
              fun _ _ h1 => canon_enter h1)) ?_))
          · split
            · exact canon_return_ (canon_makeTwins (canon_fst ‹_› (canon_makeL1 hs)) (fun _ _ h2 => canon_makeL1 h2))
            · exact canon_fst ‹_› (canon_makeL1 hs)
          · split
            · exact canon_countCore (canon_ite (canon_return_ (canon_fst ‹_› (canon_makeWith hs))) (canon_setAcc
                  (canon_fst ‹_› (canon_makeWith hs))))
            · exact canon_fst ‹_› (canon_makeWith hs)

theorem canon_execLoadReturn {troupe op : Nat} {lanes : Word} {fromL1 : Bool} {s : State} (hs : s.Canon) :
    OutcomeCanon (execLoadReturn troupe op lanes fromL1 s) := by
  unfold execLoadReturn
  extract_lets
  exact canon_ite (canon_prune (canon_foldl hs fun _ _ h1 => canon_returnLane h1)) hs

theorem canon_setSt {s : State} {home ln : Nat} {st : Moesi} (hs : s.Canon) : (s.setSt home ln st).Canon := by
  unfold State.setSt
  split
  · exact canon_putLine hs
  · exact hs

theorem canon_writeOut {s : State} {home ln : Nat} (hs : s.Canon) : (s.writeOut home ln).Canon := by
  unfold State.writeOut
  split
  · exact hs
  · refine canon_ite ?_ (canon_setSt (canon_writeBack hs))
    split
    · exact canon_sendWb (canon_setSt (canon_writeBack hs))
    · exact canon_sendWb (canon_setSt (canon_writeBack hs))
    · exact hs

theorem canon_maintain {s : State} {t : Troupe} {id : Nat} {op : LineOp} {home ln : Nat} {begun : Bool}
    (hs : s.Canon) :
    (s.maintain t id op home ln begun).1.Canon := by
  unfold State.maintain
  extract_lets f1 s1
  have h1 : s1.Canon := canon_dropL1 (canon_takes hs)
  split
  · exact canon_dropL1 (canon_takes hs)
  · exact canon_modCore hs
  · refine canon_ite_fst hs ?_
    split
    · exact canon_writeOut (canon_fst ‹_› (canon_passChan hs))
    · unfold f1
      exact canon_passChan hs
  · split
    · exact h1
    · refine canon_ite_fst h1 ?_
      split
      · exact canon_fst ‹_› (canon_ite_fst h1 (canon_passChan h1))
      · exact canon_ite_fst (canon_leave (canon_fst ‹_› (canon_ite_fst h1 (canon_passChan h1)))) (canon_putLine
            (canon_fst ‹_› (canon_ite_fst h1 (canon_passChan h1))))

theorem canon_maintainAll {s : State} {troupe id : Nat} (hs : s.Canon) : (s.maintainAll troupe id).Canon := by
  unfold State.maintainAll
  split
  · exact hs
  · split
    · exact hs
    · split
      · extract_lets s1
        have h1 : s1.1.Canon := canon_foldl_fst hs fun _ _ h2 => canon_maintain h2
        exact canon_modOp h1
      · exact hs

theorem canon_performLane {s : State} {troupe id l : Nat} (hs : s.Canon) : (s.performLane troupe id l).Canon := by
  unfold State.performLane
  split
  · exact hs
  · split
    · exact hs
    · split
      · exact hs
      · split
        · exact hs
        · exact hs
        · exact canon_ite (canon_setAcc hs) hs
        · refine canon_ite hs (canon_ite (canon_enter hs) ?_)
          split
          · exact canon_setAcc (canon_fst ‹_› (canon_make hs))
          · exact canon_fst ‹_› (canon_make hs)

theorem canon_execStorePerformed {troupe op : Nat} {lanes : Word} {s : State} (hs : s.Canon) :
    OutcomeCanon (execStorePerformed troupe op lanes s) := by
  unfold execStorePerformed
  extract_lets
  exact canon_ite (canon_prune (canon_maintainAll (canon_foldl hs fun _ _ h1 => canon_performLane h1))) hs

theorem canon_fetchLine {s : State} {d c home ln : Nat} {coh l1 : Bool} (hs : s.Canon) :
    (s.fetchLine d c home ln coh l1).Canon := by
  unfold State.fetchLine
  split
  · rename_i e1
    exact canon_ite (canon_grant (canon_of_eq (Avail.Canon.of_ready e1 (canon_lineRead hs)) rfl rfl))
        (Avail.Canon.of_ready e1 (canon_lineRead hs))
  · exact Avail.Canon.of_waits ‹_› (canon_lineRead hs)
  · exact hs

theorem canon_execDieChannelDelivery {src dst : Nat} {s : State} (hs : s.Canon) :
    OutcomeCanon (execDieChannelDelivery src dst s) := by
  unfold execDieChannelDelivery
  extract_lets
  split
  · exact hs
  · extract_lets f1
    split
    · split
      · unfold f1
        exact canon_of_eq hs rfl rfl
      · split
        · unfold f1
          rename_i e1 _ _ _ _ e2 _ _ _ e3
          exact canon_of_eq (canon_fst e3 (canon_makeWith hs)) rfl rfl
        · exact canon_fst ‹_› (canon_makeWith hs)
    · exact canon_ite hs (canon_of_eq hs rfl rfl)
    · exact canon_ite hs (canon_of_eq hs rfl rfl)
    · exact canon_ite hs (canon_of_eq hs rfl rfl)
    · split
      · unfold f1
        rename_i e1 _ _ e2
        exact canon_of_eq (canon_fst e2 (canon_readCode hs)) rfl rfl
      · exact canon_fst ‹_› (canon_readCode hs)
    · unfold f1
      exact canon_of_eq (canon_fetchLine hs) rfl rfl

theorem canon_runMem {x : Ins} {u : Use} {c : OpClass} {sp : Space} {commit : Bool} {s : State}
    {acc : State → Troupe → Word → Access} {kind : List Acc → OpKind} (hs : s.Canon) :
    OutcomeCanon (runMem x u c sp commit s acc kind) := by
  unfold runMem
  exact canon_runEff hs (fun _ _ _ _ h1 => canon_ite (motive := Eff.Canon) trivial (canon_addOp (canon_touchMissing
      (canon_touchAll (canon_ite (canon_commitRegion h1) h1)))))

theorem canon_execLd {x : Ins} {ty : Ty} {ord : Order} {sp : Space} {s : State} (hs : s.Canon) :
    OutcomeCanon (execLd x ty ord sp s) := by
  unfold execLd
  exact canon_runMem hs

theorem canon_execSt {x : Ins} {ty : Ty} {ord : Order} {sp : Space} {s : State} (hs : s.Canon) :
    OutcomeCanon (execSt x ty ord sp s) := by
  unfold execSt
  exact canon_runMem hs

theorem canon_execLdv {x : Ins} {ty : Ty} {sp : Space} {s : State} (hs : s.Canon) :
    OutcomeCanon (execLdv x ty sp s) := by
  unfold execLdv
  exact canon_runMem hs

theorem canon_execStv {x : Ins} {ty : Ty} {sp : Space} {s : State} (hs : s.Canon) :
    OutcomeCanon (execStv x ty sp s) := by
  unfold execStv
  exact canon_runMem hs

theorem canon_execAtom {x : Ins} {op : AtomOp} {ty : Ty} {σ : Scope} {sp : Space} {s : State} (hs : s.Canon) :
    OutcomeCanon (execAtom x op ty σ sp s) := by
  unfold execAtom
  exact canon_runMem hs

theorem canon_execAtomc {x : Ins} {ty : Ty} {σ : Scope} {sp : Space} {s : State} (hs : s.Canon) :
    OutcomeCanon (execAtomc x ty σ sp s) := by
  unfold execAtomc
  exact canon_runMem hs

theorem canon_execRed {x : Ins} {op : AtomOp} {ty : Ty} {σ : Scope} {sp : Space} {s : State} (hs : s.Canon) :
    OutcomeCanon (execRed x op ty σ sp s) := by
  unfold execRed
  exact canon_runMem hs

theorem canon_execFence {x : Ins} {pre post : BitVec 4} {σ : Scope} {s : State} (hs : s.Canon) :
    OutcomeCanon (execFence x pre post σ s) := by
  unfold execFence
  extract_lets
  split
  · exact trivial
  · exact canon_advance (canon_start hs)
  · exact canon_faultWord (canon_start hs)
  · extract_lets s1 _ s2
    have h1 : s1.Canon := canon_start hs
    have h2 : s2.Canon := canon_ite (canon_commitRegion h1) h1
    exact canon_ite (motive := OutcomeCanon) (canon_finish h1) (canon_ite (motive := OutcomeCanon) (canon_finish
        (canon_modPath h2)) (canon_waitAt h2))

theorem canon_execFenceRelease {r : PathRef} {s : State} (hs : s.Canon) : OutcomeCanon (execFenceRelease r s) := by
  unfold execFenceRelease
  split
  · exact hs
  · split
    · exact hs
    · split
      · exact canon_ite (motive := OutcomeCanon) (canon_prune (canon_advance (canon_modPath hs))) hs
      · exact hs

theorem canon_execCline {x : Ins} {op : LineOp} {s : State} (hs : s.Canon) : OutcomeCanon (execCline x op s) := by
  unfold execCline
  exact canon_runEff hs (fun _ _ _ _ h1 => canon_ite (motive := Eff.Canon) trivial (canon_addOp (canon_touchMissing
      (canon_touchAll h1))))

theorem canon_prefetchLine {s : State} {t : Troupe} {home ln : Nat} {k : PageKind} {l1 keep : Bool} (hs : s.Canon) :
    (s.prefetchLine t home ln k l1 keep).Canon := by
  unfold State.prefetchLine
  exact canon_ite hs (canon_ite (canon_fetchLine hs) (canon_sendChan hs))

theorem canon_execPfd {x : Ins} {s : State} (hs : s.Canon) : OutcomeCanon (execPfd x s) := by
  unfold execPfd
  refine canon_runWord hs (fun _ _ _ _ h1 => canon_foldl h1 fun _ _ h2 => ?_)
  extract_lets _ s3
  have h3 : s3.Canon := canon_countCore h2
  split
  · exact canon_ite h3 (canon_prefetchLine h2)
  · exact h3

theorem canon_execLeaseExpiry {die core line : Nat} {s : State} (hs : s.Canon) :
    OutcomeCanon (execLeaseExpiry die core line s) := by
  unfold execLeaseExpiry
  split
  · exact canon_ite (canon_modCore hs) hs
  · exact hs

/-! ### Mailboxes -/

theorem canon_modWord {s : State} {a : Nat} {f : MailboxWord → MailboxWord} (hs : s.Canon) :
    (s.modWord a f).Canon := by
  unfold State.modWord
  exact canon_modDie hs (fun _ => rfl)

theorem canon_record {s : State} {c : Command} {kind status : Nat} {d0 d1 : DWord} (hs : s.Canon) :
    (s.record c kind status d0 d1).Canon := by
  unfold State.record
  exact canon_send hs

theorem canon_modQueue {s : State} {sid q : Nat} {f : CmdQueue → CmdQueue} (hs : s.Canon) :
    (s.modQueue sid q f).Canon := by
  unfold State.modQueue
  exact canon_modSub hs

theorem canon_leaveQueue {s : State} {c : Command} (hs : s.Canon) : (s.leaveQueue c).Canon := by
  unfold State.leaveQueue
  exact canon_foldl (canon_modQueue hs) fun _ _ h1 => canon_modWord h1

theorem canon_promote {s : State} {c : Command} (hs : s.Canon) : (s.promote c).Canon := by
  unfold State.promote
  split
  · exact canon_foldl (canon_modCmd hs) fun _ _ h1 => canon_modWord h1
  · extract_lets
    exact canon_record (canon_modCmd (canon_leaveQueue hs))

theorem canon_startCmd {s : State} {c : Command} (hs : s.Canon) : (s.startCmd c).Canon := by
  unfold State.startCmd
  extract_lets _ s1
  have h1 : s1.Canon := canon_foldl (canon_of_eq hs rfl rfl) fun _ _ h2 => canon_modWord h2
  exact canon_modCmd (canon_leaveQueue h1)

theorem canon_startTurn {s : State} {c : Command} (hs : s.Canon) : (s.startTurn c).Canon := by
  unfold State.startTurn
  exact canon_foldl (canon_takes hs) fun _ _ h1 => canon_takes h1

theorem canon_mailTraffic {s : State} {d a : Nat} {write : Bool} (hs : s.Canon) :
    (s.mailTraffic d a write).Canon := by
  unfold State.mailTraffic
  exact canon_traffic hs

theorem canon_serveWaiter {s : State} {a : Nat} {w : Waiter} (hs : s.Canon) : (s.serveWaiter a w).Canon := by
  unfold State.serveWaiter
  extract_lets s1 _
  have h1 : s1.Canon := canon_modWord hs
  split
  · split
    · exact h1
    · split
      · exact h1
      · split
        · exact canon_advance (canon_mailTraffic (canon_modWord h1))
        · exact canon_advance (canon_writeLanes (canon_mailTraffic (canon_modWord h1)))
        · exact h1
  · split
    · exact h1
    · split
      · exact canon_modCmd (canon_modWord h1)
      · exact h1
  · split
    · exact canon_startCmd h1
    · exact h1

theorem canon_serveOne {s : State} (hs : s.Canon) : OptionCanon (s.serveOne) := by
  unfold State.serveOne
  split
  · exact canon_map fun _ => canon_serveWaiter hs
  · exact canon_map fun _ => canon_startCmd (canon_foldl (canon_notes hs) fun _ _ h1 => canon_modWord h1)

theorem canon_serveLoop {s : State} {n : Nat} (hs : s.Canon) : (s.serveLoop n).Canon := by
  induction n generalizing s with
  | zero => exact hs
  | succ n ih =>
    unfold State.serveLoop
    split
    · exact ih (canon_some ‹_› (canon_serveOne hs))
    · exact hs

theorem canon_serveMail {s : State} (hs : s.Canon) : (s.serveMail).Canon := by
  unfold State.serveMail
  exact canon_serveLoop hs

theorem canon_passMail {s : State} {t : Troupe} {p : Path} {a : Nat} (hs : s.Canon) : (s.passMail t p a).1.Canon := by
  unfold State.passMail
  exact canon_passChan hs

theorem canon_runMail {x : Ins} {u : Use} {s : State} {addr : Troupe → Word → Nat}
    {f : State → Troupe → Path → Word → Nat → State} (hs : s.Canon)
    (hf : ∀ s t p act a, s.Canon → (f s t p act a).Canon) : OutcomeCanon (runMail x u s addr f) := by
  unfold runMail
  split
  · exact trivial
  · exact canon_advance (canon_start hs)
  · exact canon_faultWord (canon_start hs)
  · extract_lets
    refine canon_ite (motive := OutcomeCanon) (canon_faultWord (canon_start hs)) ?_
    split
    · exact canon_holdHead (canon_fst ‹_› (canon_passMail hs))
    · exact canon_serveMail (hf _ _ _ _ _ (canon_commitRegion (canon_start (canon_takes (canon_fst ‹_›
          (canon_passMail hs))))))

theorem canon_execMbput {x : Ins} {first : Bool} {s : State} (hs : s.Canon) : OutcomeCanon (execMbput x first s) := by
  unfold execMbput
  exact canon_runMail hs (fun _ _ _ _ _ h1 => canon_ite (canon_modWord (canon_modPath h1)) (canon_advance
      (canon_mailTraffic (canon_modWord h1))))

theorem canon_execMbget {x : Ins} {first : Bool} {s : State} (hs : s.Canon) : OutcomeCanon (execMbget x first s) := by
  unfold execMbget
  exact canon_runMail hs (fun _ _ _ _ _ h1 => canon_ite (canon_advance (canon_writeLanes (canon_mailTraffic
      (canon_modWord h1)))) (canon_modWord (canon_modPath h1)))

theorem canon_execMbtryGet {x : Ins} {first : Bool} {s : State} (hs : s.Canon) :
    OutcomeCanon (execMbtryGet x first s) := by
  unfold execMbtryGet
  exact canon_runMail hs (fun _ _ _ _ _ h1 => canon_advance (canon_writeLanes (canon_ite (canon_mailTraffic
      (canon_mailTraffic (canon_modWord h1))) h1)))

theorem canon_execMbtryPut {x : Ins} {first : Bool} {s : State} (hs : s.Canon) :
    OutcomeCanon (execMbtryPut x first s) := by
  unfold execMbtryPut
  exact canon_runMail hs (fun _ _ _ _ _ h1 => canon_advance (canon_writeLanes (canon_ite h1 (canon_mailTraffic
      (canon_mailTraffic (canon_modWord h1))))))

theorem canon_execLdwp {x : Ins} {first : Bool} {s : State} (hs : s.Canon) : OutcomeCanon (execLdwp x first s) := by
  unfold execLdwp
  extract_lets
  exact canon_runEff hs (fun _ _ _ _ h1 => canon_ite (motive := Eff.Canon) h1 (canon_ite
      (motive := Eff.Canon) trivial (canon_writeLanes (canon_modPath h1))))

/-! ### The matrix unit -/

theorem canon_tileWrite {s : State} {id off : Nat} {bs : List Byte} (hs : s.Canon) :
    (s.tileWrite id off bs).Canon := by
  unfold State.tileWrite
  extract_lets s1
  have h1 : s1.Canon := canon_modTroupe hs
  exact canon_of_eq hs rfl rfl

theorem canon_readBlock {s : State} {t : Troupe} {p : Path} {va : Nat} (hs : s.Canon) :
    (s.readBlock t p va).Canon := by
  unfold State.readBlock
  split
  · refine canon_ite (motive := BlockGot.Canon) (canon_touchPage hs) (canon_ite (motive := BlockGot.Canon) trivial ?_)
    split
    · exact canon_fst ‹_› (canon_passChan (canon_touchPage hs))
    · split
      · exact Avail.Canon.of_waits ‹_› (canon_lineRead (canon_fst ‹_› (canon_passChan (canon_touchPage hs))))
      · exact canon_logFound (canon_fst ‹_› (canon_passChan (canon_touchPage hs)))
      · rename_i e1 _ _ e2 _ _ _ e3
        exact canon_ite (motive := BlockGot.Canon) (canon_logFound (Avail.Canon.of_ready e3 (canon_lineRead
            (canon_fst e2 (canon_passChan (canon_touchPage hs)))))) (canon_dropOnce (canon_modPath (canon_traffic
            (canon_of_eq (Avail.Canon.of_ready e3 (canon_lineRead (canon_fst e2 (canon_passChan (canon_touchPage
            hs))))) rfl rfl))))
  · exact canon_touchAbsent hs

theorem canon_clearFault {s : State} {id op : Nat} (hs : s.Canon) : (s.clearFault id op).Canon := by
  unfold State.clearFault
  exact canon_modOp hs

theorem canon_runTile {x : Ins} {u : Use} {s : State} {f : State → Troupe → Path → Word → Eff} (hs : s.Canon)
    (hf : ∀ s t p act, s.Canon → (f s t p act).Canon) : OutcomeCanon (runTile x u s f) := by
  unfold runTile
  split
  · exact canon_faultDeferred (canon_clearFault (canon_start hs))
  · exact canon_runEff hs (fun _ _ _ _ h1 => canon_ite (motive := Eff.Canon) trivial (hf _ _ _ _ h1))

theorem canon_withBlock {s : State} {t : Troupe} {p : Path} {act : Word} {addr : Nat}
    {f : State → FormatBlock → Eff} (hs : s.Canon) (hf : ∀ s fb, s.Canon → (f s fb).Canon) :
    (withBlock s t p act addr f).Canon := by
  unfold withBlock
  refine canon_ite (motive := Eff.Canon) hs ?_
  split
  · exact BlockGot.Canon.of_fault ‹_› (canon_readBlock hs)
  · exact trivial
  · exact BlockGot.Canon.of_waits ‹_› (canon_readBlock hs)
  · split
    · exact BlockGot.Canon.of_bytes ‹_› (canon_readBlock hs)
    · exact hf _ _ (BlockGot.Canon.of_bytes ‹_› (canon_readBlock hs))

theorem canon_mmaChecked {x : Ins} {sr : Semiring} {s : State} {t : Troupe} {p : Path} {act : Word}
    {f : State → MmaWork → Eff} (hs : s.Canon) (hf : ∀ s w, s.Canon → (f s w).Canon) :
    (mmaChecked x sr s t p act f).Canon := by
  unfold mmaChecked
  extract_lets
  exact canon_withBlock hs (fun _ _ h1 => canon_ite (motive := Eff.Canon) (hf _ _ h1) h1)

theorem canon_execMma {x : Ins} {sr : Semiring} {first : Bool} {s : State} (hs : s.Canon) :
    OutcomeCanon (execMma x sr first s) := by
  unfold execMma
  exact canon_runTile hs (fun _ _ _ _ h1 => canon_mmaChecked h1 (fun _ _ h2 => canon_addOp h2))

theorem canon_joinMmae {s : State} {ens idx : Nat} (hs : s.Canon) : (s.joinMmae ens idx).Canon := by
  unfold State.joinMmae
  extract_lets
  refine canon_ite (canon_foldl (canon_takes hs) fun _ _ h1 => ?_) hs
  split
  · exact canon_ite (canon_advance (canon_addOp h1)) (canon_faultWord h1)
  · exact canon_advance (canon_addOp h1)
  · exact h1

theorem canon_execMmae {x : Ins} {sr : Semiring} {first : Bool} {s : State} (hs : s.Canon) :
    OutcomeCanon (execMmae x sr first s) := by
  unfold execMmae
  extract_lets
  split
  · extract_lets s1
    have h1 : s1.Canon := canon_start hs
    exact canon_ite (motive := OutcomeCanon) (canon_advance h1) (canon_ite (motive := OutcomeCanon) (canon_modPath
        hs) (canon_joinMmae (canon_waitAt h1)))
  · exact trivial
  · exact canon_faultWord (canon_start hs)
  · split
    · exact canon_faultDeferred (canon_clearFault (canon_start hs))
    · refine canon_ite (motive := OutcomeCanon) (canon_modPath hs) (canon_ite (motive := OutcomeCanon)
          (canon_faultWord (canon_start hs)) ?_)
      split
      · rename_i e1 _ e2 _ _ e3
        exact canon_joinMmae (Eff.Canon.of_done e3 (canon_mmaChecked (canon_start hs)
            (fun _ _ h1 => canon_waitAt h1)))
      · rename_i e1 _ e2 _ _ _ _ e3
        exact canon_faultWord (Eff.Canon.of_done e3 (canon_mmaChecked (canon_start hs)
            (fun _ _ h1 => canon_waitAt h1)))
      · exact canon_modPath hs
      · rename_i e1 _ e2 _ _ e3
        exact canon_modPath (Eff.Canon.of_wait e3 (canon_mmaChecked (canon_start hs) (fun _ _ h1 => canon_waitAt h1)))

theorem canon_opWrite {s : State} {t : Troupe} {o : Op} {va : Nat} {bs : List Byte} (hs : s.Canon) :
    (s.opWrite t o va bs).Canon := by
  unfold State.opWrite
  exact canon_engineWrite (canon_modTroupe hs)

theorem canon_saw {s : State} {id op : Nat} (hs : s.Canon) : (s.saw id op).Canon := by
  unfold State.saw
  exact canon_dropOnceOf (canon_of_eq hs rfl rfl)

theorem canon_endWork {s : State} {id op status value : Nat} {f : Option DeferredFault} (hs : s.Canon) :
    (s.endWork id op status value f).Canon := by
  unfold State.endWork
  exact canon_modOp hs

theorem canon_waitsFor {s : State} {id op : Nat} {page : Option Nat} (hs : s.Canon) :
    (s.waitsFor id op page).Canon := by
  unfold State.waitsFor
  refine canon_modOp ?_
  split
  · exact canon_touchAbsent hs
  · exact hs

theorem canon_opWaits {s u : State} {id op : Nat} {page : Option Nat} (hs : s.Canon) :
    (s.opWaits u id op page).Canon := by
  unfold State.opWaits
  exact canon_waitsFor (canon_keepAsks hs)

theorem canon_moveNext {one : State → Troupe → Op → Nat → ElemGot} {code : Nat → Nat} {s : State} {id op n : Nat}
    (hs : s.Canon) (hf : ∀ s t o k, s.Canon → (one s t o k).Canon) : (State.moveNext one code s id op n).Canon := by
  induction n generalizing s with
  | zero => exact hs
  | succ n ih =>
    unfold State.moveNext
    split
    · exact hs
    · refine canon_ite hs (canon_ite (ih (canon_modOp hs)) ?_)
      split
      · exact ih (canon_saw (canon_modOp (ElemGot.Canon.of_moved ‹_› (hf _ _ _ _ hs))))
      · exact canon_opWaits hs
      · exact canon_endWork (canon_saw (ElemGot.Canon.of_fault ‹_› (hf _ _ _ _ hs)))

theorem canon_moveAhead {one : State → Troupe → Op → Nat → ElemGot} {code : Nat → Nat} {s : State} {t : Troupe}
    {o : Op} {k n : Nat} (hs : s.Canon) (hf : ∀ s t o k, s.Canon → (one s t o k).Canon) :
    (State.moveAhead one code s t o k n).Canon := by
  unfold State.moveAhead
  refine canon_ite hs ?_
  split
  · exact canon_saw (canon_modOp (ElemGot.Canon.of_moved ‹_› (hf _ _ _ _ hs)))
  · exact canon_opWaits hs
  · exact canon_endWork (canon_saw (ElemGot.Canon.of_fault ‹_› (hf _ _ _ _ hs)))

theorem canon_matRead {s : State} {t : Troupe} {o : Op} {va n : Nat} (hs : s.Canon) : (s.matRead t o va n).Canon := by
  unfold State.matRead
  extract_lets
  exact canon_ite (motive := EGot.Canon) hs (canon_ite (motive := EGot.Canon) hs (canon_opRead hs))

theorem canon_matWrite {s : State} {t : Troupe} {o : Op} {va : Nat} {bs : List Byte} (hs : s.Canon) :
    (s.matWrite t o va bs).Canon := by
  unfold State.matWrite
  extract_lets
  exact canon_ite (motive := EGot.Canon) hs (canon_opWrite hs)

theorem canon_operandRow {s : State} {t : Troupe} {o : Op} {f : Fragment} {r : Nat} (hs : s.Canon) :
    (s.operandRow t o f r).Canon := by
  unfold State.operandRow
  split
  · exact EGot.Canon.of_waits ‹_› (canon_matRead hs)
  · exact EGot.Canon.of_fault ‹_› (canon_matRead hs)
  · split
    · exact EGot.Canon.of_waits ‹_› (canon_matRead (EGot.Canon.of_bytes ‹_› (canon_matRead hs)))
    · exact EGot.Canon.of_fault ‹_› (canon_matRead (EGot.Canon.of_bytes ‹_› (canon_matRead hs)))
    · split
      · exact EGot.Canon.of_waits ‹_› (canon_matRead (EGot.Canon.of_bytes ‹_› (canon_matRead (EGot.Canon.of_bytes ‹_›
            (canon_matRead hs)))))
      · exact EGot.Canon.of_fault ‹_› (canon_matRead (EGot.Canon.of_bytes ‹_› (canon_matRead (EGot.Canon.of_bytes ‹_›
            (canon_matRead hs)))))
      · exact EGot.Canon.of_bytes ‹_› (canon_matRead (EGot.Canon.of_bytes ‹_› (canon_matRead (EGot.Canon.of_bytes ‹_›
            (canon_matRead hs)))))

theorem canon_fragmentRow {s : State} {t : Troupe} {o : Op} {ls : List Latch} {f : Fragment} {opB : Bool} {r : Nat}
    (hs : s.Canon) :
    (s.fragmentRow t o ls f opB r).Canon := by
  unfold State.fragmentRow
  split
  · exact hs
  · exact canon_operandRow hs

theorem canon_shareRow {s : State} {w : MmaWork} {r : Nat} {d : RowData} (hs : s.Canon) :
    (s.shareRow w r d).Canon := by
  unfold State.shareRow
  exact canon_ite hs (canon_of_eq hs rfl rfl)

theorem canon_rowOfA {s : State} {t : Troupe} {o : Op} {ls : List Latch} {w : MmaWork} {q : Quarter} {i : Nat}
    (hs : s.Canon) :
    (s.rowOfA t o ls w q i).Canon := by
  unfold State.rowOfA
  split
  · exact hs
  · split
    · exact canon_shareRow (RowGot.Canon.of_row ‹_› (canon_fragmentRow hs))
    · exact canon_fragmentRow hs

theorem canon_rowCells {s : State} {t : Troupe} {o : Op} {ls : List Latch} {w : MmaWork} {q : Quarter} {i : Nat}
    {a : RowData} {j n : Nat} (hs : s.Canon) : (s.rowCells t o ls w q i a j n).1.Canon := by
  induction n generalizing s j with
  | zero => exact hs
  | succ n ih =>
    unfold State.rowCells
    split
    · exact RowGot.Canon.of_waits ‹_› (canon_fragmentRow hs)
    · exact RowGot.Canon.of_fault ‹_› (canon_fragmentRow hs)
    · extract_lets
      split
      exact canon_fst ‹_› (ih (RowGot.Canon.of_row ‹_› (canon_fragmentRow hs)))

theorem canon_quarterRows {s : State} {id : Nat} {o : Op} {ls : List Latch} {w : MmaWork} {q : Quarter} {i n : Nat}
    (hs : s.Canon) : (s.quarterRows id o ls w q i n).1.Canon := by
  induction n generalizing s i with
  | zero => exact hs
  | succ n ih =>
    unfold State.quarterRows
    split
    · exact hs
    · extract_lets
      refine canon_ite_fst (canon_halt (canon_logError hs)) ?_
      split
      · exact canon_keepAsks hs
      · exact RowGot.Canon.of_fault ‹_› (canon_rowOfA hs)
      · split
        · exact ih (canon_tileWrite (canon_fst ‹_› (canon_rowCells (RowGot.Canon.of_row ‹_› (canon_rowOfA hs)))))
        · exact canon_keepAsks hs
        · exact canon_fst ‹_› (canon_rowCells (RowGot.Canon.of_row ‹_› (canon_rowOfA hs)))

theorem canon_workQuarter {s : State} {id op : Nat} {ls : List Latch} {w : MmaWork} {q : Quarter} {n : Nat}
    (hs : s.Canon) : (s.workQuarter id op ls w q n).1.Canon := by
  unfold State.workQuarter
  split
  · exact hs
  · exact canon_ite_fst hs (canon_saw (canon_modOp (canon_quarterRows hs)))

theorem canon_finishMma {s : State} {id op : Nat} (hs : s.Canon) : (s.finishMma id op).Canon := by
  unfold State.finishMma
  split
  · exact hs
  · split
    · exact canon_ite hs (canon_prune (canon_modOp (canon_modTroupe hs)))
    · exact hs

theorem canon_endMma {s : State} {troupe op : Nat} {reuse : Bool} (hs : s.Canon) :
    (s.endMma troupe op reuse).Canon := by
  unfold State.endMma
  split
  · exact hs
  · split
    · refine canon_ite (canon_finishMma hs) (canon_ite (canon_prune (canon_modOp (canon_foldl_fst hs
          fun _ _ h1 => canon_ite_fst h1 (canon_workQuarter h1)))) ?_)
      split
      · exact canon_waitsFor (canon_foldl_fst hs fun _ _ h2 => canon_ite_fst h2 (canon_workQuarter h2))
      · extract_lets
        exact canon_finishMma (canon_modOp (canon_modTroupe (canon_foldl_fst hs fun _ _ h2 => canon_ite_fst h2
            (canon_workQuarter h2))))
    · exact hs

theorem canon_rowMma {s : State} {troupe op k : Nat} {reuse : Bool} (hs : s.Canon) :
    (s.rowMma troupe op k reuse).Canon := by
  unfold State.rowMma
  split
  · exact hs
  · split
    · refine canon_ite hs ?_
      split
      · exact hs
      · extract_lets
        split
        · exact canon_waitsFor (canon_fst ‹_› (canon_workQuarter hs))
        · exact canon_prune (canon_modOp (canon_fst ‹_› (canon_workQuarter hs)))
        · exact canon_fst ‹_› (canon_workQuarter hs)
    · exact hs

theorem canon_execMmaComplete {troupe op : Nat} {s : State} (hs : s.Canon) :
    OutcomeCanon (execMmaComplete troupe op s) := by
  unfold execMmaComplete
  exact canon_endMma hs

theorem canon_execPageWaitResume {troupe op : Nat} {s : State} (hs : s.Canon) :
    OutcomeCanon (execPageWaitResume troupe op s) := by
  unfold execPageWaitResume
  split
  · exact hs
  · split
    · exact hs
    · split
      · exact hs
      · exact canon_modOp hs

theorem canon_execTzero {x : Ins} {first : Bool} {s : State} (hs : s.Canon) : OutcomeCanon (execTzero x first s) := by
  unfold execTzero
  exact canon_runTile hs (fun _ _ _ _ h1 => canon_ite (motive := Eff.Canon) h1 (canon_addOp h1))

theorem canon_tileMove {x : Ins} {ty : Ty} {first : Bool} {s : State}
    {kind : FormatBlock → Nat → DWord → Nat → List Quarter → OpKind} (hs : s.Canon) :
    OutcomeCanon (tileMove x ty first s kind) := by
  unfold tileMove
  exact canon_runTile hs (fun _ _ _ _ h1 => canon_withBlock h1 (fun _ _ h2 => canon_ite (motive := Eff.Canon)
      (canon_addOp h2) h2))

theorem canon_execTld {x : Ins} {ty : Ty} {first : Bool} {s : State} (hs : s.Canon) :
    OutcomeCanon (execTld x ty first s) := by
  unfold execTld
  exact canon_tileMove hs

theorem canon_execTst {x : Ins} {ty : Ty} {rnd : Rnd} {sat first : Bool} {s : State} (hs : s.Canon) :
    OutcomeCanon (execTst x ty rnd sat first s) := by
  unfold execTst
  exact canon_tileMove hs

theorem canon_tldElem {s : State} {t : Troupe} {op : Op} {ty : Ty} {fb : FormatBlock} {base : Nat} {o : DWord}
    {pitch : Nat} {e : Quarter × Nat × Nat} (hs : s.Canon) :
    (s.tldElem t op ty fb base o pitch e).Canon := by
  unfold State.tldElem
  split
  · exact EGot.Canon.of_waits ‹_› (canon_matRead hs)
  · exact EGot.Canon.of_fault ‹_› (canon_matRead hs)
  · extract_lets
    exact canon_tileWrite (EGot.Canon.of_bytes ‹_› (canon_matRead hs))

theorem canon_bandOf {s : State} {t : Troupe} {op : Op} {band r : Nat} (hs : s.Canon) :
    (s.bandOf t op band r).1.Canon := by
  unfold State.bandOf
  split
  · exact hs
  · split
    next h => exact EGot.Canon.of_bytes h (canon_matRead hs)
    next =>
      dsimp only
      exact canon_matRead hs

theorem canon_tstElem {s : State} {t : Troupe} {op : Op} {ty : Ty} {rnd : Rnd} {sat : Bool} {fb : FormatBlock}
    {base : Nat} {o : DWord} {pitch : Nat} {e : Quarter × Nat × Nat} (hs : s.Canon) :
    (s.tstElem t op ty rnd sat fb base o pitch e).Canon := by
  unfold State.tstElem
  extract_lets
  split
  · exact EGot.Canon.of_waits (congrArg Prod.fst ‹_›) (canon_bandOf hs)
  · exact EGot.Canon.of_fault (congrArg Prod.fst ‹_›) (canon_bandOf hs)
  · split
    · rename_i e1 _ _ _ _ e2
      exact EGot.Canon.of_waits (congrArg Prod.fst e2) (canon_bandOf (EGot.Canon.of_bytes (congrArg Prod.fst e1)
          (canon_bandOf hs)))
    · rename_i e1 _ _ _ _ _ e2
      exact EGot.Canon.of_fault (congrArg Prod.fst e2) (canon_bandOf (EGot.Canon.of_bytes (congrArg Prod.fst e1)
          (canon_bandOf hs)))
    · extract_lets
      split
      · rename_i e1 _ _ _ _ e2 _ _ _ _ e3
        exact EGot.Canon.of_waits e3 (canon_matWrite (EGot.Canon.of_bytes (congrArg Prod.fst e2) (canon_bandOf
            (EGot.Canon.of_bytes (congrArg Prod.fst e1) (canon_bandOf hs)))))
      · rename_i e1 _ _ _ _ e2 _ _ _ _ _ e3
        exact EGot.Canon.of_fault e3 (canon_matWrite (EGot.Canon.of_bytes (congrArg Prod.fst e2) (canon_bandOf
            (EGot.Canon.of_bytes (congrArg Prod.fst e1) (canon_bandOf hs)))))
      · rename_i e1 _ _ _ _ e2 _ _ _ _ e3
        exact EGot.Canon.of_bytes e3 (canon_matWrite (EGot.Canon.of_bytes (congrArg Prod.fst e2) (canon_bandOf
            (EGot.Canon.of_bytes (congrArg Prod.fst e1) (canon_bandOf hs)))))

theorem canon_tileElem {s : State} {t : Troupe} {op : Op} {k : Nat} (hs : s.Canon) : (s.tileElem t op k).Canon := by
  unfold State.tileElem
  split
  · split
    · exact canon_tldElem hs
    · exact hs
  · split
    · exact canon_tstElem hs
    · exact hs
  · exact hs

theorem canon_finishTile {s : State} {id op : Nat} (hs : s.Canon) : (s.finishTile id op).Canon := by
  unfold State.finishTile
  split
  · exact hs
  · extract_lets s1
    have h1 : s1.Canon := canon_ite (canon_endWork hs) hs
    split
    · exact h1
    · split
      · exact canon_ite h1 (canon_prune (canon_modOp h1))
      · exact h1

theorem canon_endTmovr {s : State} {t : Troupe} {o : Op} {d : Nat} {cells : List (Nat × Nat)} (hs : s.Canon) :
    (s.endTmovr t o d cells).Canon := by
  unfold State.endTmovr
  exact canon_ite (canon_prune (canon_modOp (canon_halt (canon_logError hs)))) (canon_prune (canon_modOp
      (canon_writeLanes hs)))

theorem canon_execTileOpComplete {troupe op : Nat} {s : State} (hs : s.Canon) :
    OutcomeCanon (execTileOpComplete troupe op s) := by
  unfold execTileOpComplete
  split
  · exact hs
  · refine canon_ite (motive := OutcomeCanon) (canon_finishTile hs) (canon_ite (motive := OutcomeCanon) hs ?_)
    split
    · extract_lets s1
      have h1 : s1.Canon := canon_tileWrite hs
      exact canon_prune (canon_modOp h1)
    · exact canon_endTmovr hs
    · exact canon_finishTile (canon_moveNext hs (fun _ _ _ _ h1 => canon_tileElem h1))
    · exact canon_ite (motive := OutcomeCanon) (canon_prune (canon_modOp (canon_halt (canon_logError hs))))
          (canon_finishTile (canon_moveNext hs (fun _ _ _ _ h1 => canon_tileElem h1)))
    · exact hs

theorem canon_execTmovr {x : Ins} {_ty : Ty} {first : Bool} {s : State} (hs : s.Canon) :
    OutcomeCanon (execTmovr x _ty first s) := by
  unfold execTmovr
  exact canon_runEff hs (fun _ _ _ _ h1 => canon_ite (motive := Eff.Canon) h1 (canon_ite (motive := Eff.Canon)
      (canon_addOp h1) (canon_ite (motive := Eff.Canon) (canon_logError h1) (canon_writeLanes h1))))

theorem canon_execTmovt {x : Ins} {_ty : Ty} {first : Bool} {s : State} (hs : s.Canon) :
    OutcomeCanon (execTmovt x _ty first s) := by
  unfold execTmovt
  exact canon_runEff hs (fun _ _ _ _ h1 => canon_ite (motive := Eff.Canon) h1 (canon_ite
      (motive := Eff.Canon) trivial (canon_foldl h1 fun _ _ h2 => canon_tileWrite h2)))

/-! ### The engines -/

theorem canon_takeEntry {s : State} {t : Troupe} {act : Word} {d : BitVec 9} {op : Nat} (hs : s.Canon) :
    (s.takeEntry t act d op).Canon := by
  unfold State.takeEntry
  refine canon_ite hs ?_
  split
  · exact hs
  · extract_lets _ s1
    have h1 : s1.Canon := canon_modTroupe hs
    exact canon_writeLanes (canon_modOp h1)

theorem canon_freeEntryOf {s : State} {id e : Nat} (hs : s.Canon) : (s.freeEntryOf id e).Canon := by
  unfold State.freeEntryOf
  exact canon_modTroupe hs

theorem canon_serveFwait {s : State} {id e : Nat} {status value : Word} (hs : s.Canon) :
    (s.serveFwait id e status value).1.Canon := by
  unfold State.serveFwait
  extract_lets
  exact canon_foldl hs fun _ _ h1 => canon_advance (canon_writeLanes h1)

theorem canon_takeOpFault {s : State} {id e : Nat} (hs : s.Canon) : (s.takeOpFault id e).Canon := by
  unfold State.takeOpFault
  exact canon_modTroupe hs

theorem canon_finishOp {s : State} {id op status value : Nat} {changed : Bool} (hs : s.Canon) :
    (s.finishOp id op status value changed).Canon := by
  unfold State.finishOp
  split
  · exact hs
  · extract_lets _ _ _ s1
    have h1 : s1.Canon := canon_modOp hs
    split
    · exact canon_prune h1
    · extract_lets s2
      have h2 : s2.Canon := canon_modTroupe h1
      split
      · exact canon_prune (canon_freeEntryOf (canon_ite (canon_takeOpFault (canon_fst ‹_› (canon_serveFwait h2)))
            (canon_fst ‹_› (canon_serveFwait h2))))
      · exact canon_prune (canon_fst ‹_› (canon_serveFwait h2))

theorem canon_execFwait {x : Ins} {first : Bool} {s : State} (hs : s.Canon) : OutcomeCanon (execFwait x first s) := by
  unfold execFwait
  split
  · exact trivial
  · exact canon_advance (canon_start hs)
  · exact canon_faultWord (canon_start hs)
  · extract_lets s1 _ _
    have h1 : s1.Canon := canon_start hs
    split
    · exact canon_faultWord h1
    · exact canon_advance (canon_writeLanes h1)
    · exact canon_ite (motive := OutcomeCanon) (canon_waitAt h1) (canon_prune (canon_freeEntryOf (canon_ite
          (canon_takeOpFault (canon_advance (canon_writeLanes h1))) (canon_advance (canon_writeLanes h1)))))

theorem canon_execFtest {x : Ins} {first : Bool} {s : State} (hs : s.Canon) : OutcomeCanon (execFtest x first s) := by
  unfold execFtest
  refine canon_runEff hs (fun _ _ _ _ h1 => ?_)
  split
  · exact h1
  · exact canon_writeLanes h1
  · extract_lets s2
    have h2 : s2.Canon := canon_ite (canon_takeOpFault h1) h1
    exact canon_writeLanes h2

theorem canon_runEngine {x : Ins} {u : Use} {c : OpClass} {code : Nat} {s : State}
    {ok room : State → Troupe → Word → Bool} {kind : State → Troupe → Word → OpKind}
    {after : State → Troupe → Word → Nat → State} (hs : s.Canon)
    (hf : ∀ s t act id, s.Canon → (after s t act id).Canon) :
    OutcomeCanon (runEngine x u c code s ok room kind after) := by
  unfold runEngine
  exact canon_runEff hs (fun _ _ _ _ h1 => canon_ite (motive := Eff.Canon) h1 (canon_ite
      (motive := Eff.Canon) trivial (hf _ _ _ _ (canon_takeEntry (canon_addOp (canon_commitRegion h1))))))

theorem canon_openChan {s : State} {t : Troupe} {k dst : Nat} (hs : s.Canon) : (s.openChan t k dst).Canon := by
  unfold State.openChan
  exact canon_modSect hs

theorem canon_setWp {s : State} {t : Troupe} {k v : Nat} (hs : s.Canon) : (s.setWp t k v).Canon := by
  unfold State.setWp
  exact canon_modSect hs

theorem canon_execCpy {x : Ins} {first : Bool} {s : State} (hs : s.Canon) : OutcomeCanon (execCpy x first s) := by
  unfold execCpy
  exact canon_runEngine hs (fun _ _ _ _ h1 => canon_modSect (canon_ite (canon_openChan (canon_takes h1))
      (canon_takes h1)))

theorem canon_leaveChan {s : State} {t : Troupe} {k op : Nat} (hs : s.Canon) : (s.leaveChan t k op).Canon := by
  unfold State.leaveChan
  extract_lets _ _ s1
  have h1 : s1.Canon := canon_modSect hs
  refine canon_ite ?_ h1
  split
  · split
    · exact canon_openChan h1
    · exact h1
  · exact h1

theorem canon_deliverUnits {s : State} {id op n : Nat} (hs : s.Canon) : (s.deliverUnits id op n).Canon := by
  induction n generalizing s with
  | zero => exact hs
  | succ n ih =>
    unfold State.deliverUnits
    split
    · exact hs
    · split
      · refine canon_ite hs ?_
        split
        · exact canon_opWaits hs
        · refine canon_endWork (canon_saw (EGot.Canon.of_fault ‹_› ?_))
          split
          · exact hs
          · exact canon_opRead hs
        · split
          · exact canon_opWaits hs
          · refine canon_endWork (canon_saw (EGot.Canon.of_fault ‹_› (canon_opWrite (EGot.Canon.of_bytes ‹_› ?_))))
            split
            · exact hs
            · exact canon_opRead hs
          · refine ih (canon_saw (canon_setWp (canon_modOp (EGot.Canon.of_bytes ‹_› (canon_opWrite
                (EGot.Canon.of_bytes ‹_› ?_))))))
            split
            · exact hs
            · exact canon_opRead hs
      · exact hs

theorem canon_execCpyDelivery {troupe op units : Nat} {s : State} (hs : s.Canon) :
    OutcomeCanon (execCpyDelivery troupe op units s) := by
  unfold execCpyDelivery
  split
  · exact hs
  · split
    · refine canon_ite (motive := OutcomeCanon) hs (canon_ite (motive := OutcomeCanon) ?_ (canon_deliverUnits hs))
      split
      · exact canon_opWaits hs
      · exact canon_endWork (canon_saw (EGot.Canon.of_fault ‹_› (canon_opRead hs)))
      · exact canon_deliverUnits (canon_modOp (canon_saw (EGot.Canon.of_bytes ‹_› (canon_opRead hs))))
    · exact hs

theorem canon_tryFinish {s : State} {id op : Nat} (hs : s.Canon) : (s.tryFinish id op).Canon := by
  unfold State.tryFinish
  split
  · exact hs
  · split
    · exact hs
    · refine canon_ite hs ?_
      extract_lets s1 s2 s3
      have h1 : s1.Canon := by
        unfold s1
        split
        · exact canon_leaveChan hs
        · exact hs
      have h2 : s2.Canon := canon_modOp h1
      have h3 : s3.Canon := by
        unfold s3
        split <;> exact canon_finishOp h2
      split
      · extract_lets
        exact canon_ite (canon_prune (canon_freeEntryOf h3)) h3
      · exact h3

theorem canon_execCpyTransferComplete {troupe op : Nat} {s : State} (hs : s.Canon) :
    OutcomeCanon (execCpyTransferComplete troupe op s) := by
  unfold execCpyTransferComplete
  split
  · exact hs
  · split
    · exact canon_tryFinish (canon_ite (canon_endWork hs) hs)
    · exact hs

theorem canon_execGather {x : Ins} {first : Bool} {s : State} (hs : s.Canon) :
    OutcomeCanon (execGather x first s) := by
  unfold execGather
  exact canon_runEngine hs (fun _ _ _ _ h1 => h1)

theorem canon_execScatter {x : Ins} {first : Bool} {s : State} (hs : s.Canon) :
    OutcomeCanon (execScatter x first s) := by
  unfold execScatter
  exact canon_runEngine hs (fun _ _ _ _ h1 => h1)

theorem canon_indexElem {s : State} {t : Troupe} {o : Op} {idx src dst z k : Nat} {gather : Bool} (hs : s.Canon) :
    (s.indexElem t o idx src dst z k gather).Canon := by
  unfold State.indexElem
  split
  · exact EGot.Canon.of_waits ‹_› (canon_opRead hs)
  · exact EGot.Canon.of_fault ‹_› (canon_opRead hs)
  · extract_lets
    refine canon_ite (motive := ElemGot.Canon) (EGot.Canon.of_bytes ‹_› (canon_opRead hs)) (canon_ite
        (motive := ElemGot.Canon) (EGot.Canon.of_bytes ‹_› (canon_opRead hs)) ?_)
    split
    · exact EGot.Canon.of_waits ‹_› (canon_opRead (EGot.Canon.of_bytes ‹_› (canon_opRead hs)))
    · exact EGot.Canon.of_fault ‹_› (canon_opRead (EGot.Canon.of_bytes ‹_› (canon_opRead hs)))
    · refine canon_ite (motive := ElemGot.Canon) (EGot.Canon.of_bytes ‹_› (canon_opRead (EGot.Canon.of_bytes ‹_›
          (canon_opRead hs)))) ?_
      split
      · exact EGot.Canon.of_waits ‹_› (canon_opWrite (EGot.Canon.of_bytes ‹_› (canon_opRead (EGot.Canon.of_bytes ‹_›
            (canon_opRead hs)))))
      · exact EGot.Canon.of_fault ‹_› (canon_opWrite (EGot.Canon.of_bytes ‹_› (canon_opRead (EGot.Canon.of_bytes ‹_›
            (canon_opRead hs)))))
      · exact EGot.Canon.of_bytes ‹_› (canon_opWrite (EGot.Canon.of_bytes ‹_› (canon_opRead (EGot.Canon.of_bytes ‹_›
            (canon_opRead hs)))))

theorem canon_copyElem {s : State} {t : Troupe} {o : Op} {k : Nat} (hs : s.Canon) : (s.copyElem t o k).Canon := by
  unfold State.copyElem
  split
  · exact canon_indexElem hs
  · exact canon_indexElem hs
  · exact hs

theorem canon_execGatherScatterComplete {troupe op elements : Nat} {s : State} (hs : s.Canon) :
    OutcomeCanon (execGatherScatterComplete troupe op elements s) := by
  unfold execGatherScatterComplete
  split
  · exact hs
  · extract_lets
    exact canon_ite (motive := OutcomeCanon) hs (canon_ite (motive := OutcomeCanon) (canon_moveNext hs
        (fun _ _ _ _ h1 => canon_copyElem h1)) (canon_tryFinish (canon_ite (canon_endWork hs) hs)))

theorem canon_execFcancel {x : Ins} {first : Bool} {s : State} (hs : s.Canon) :
    OutcomeCanon (execFcancel x first s) := by
  unfold execFcancel
  refine canon_runEff hs (fun _ _ _ _ h1 => ?_)
  split
  · exact h1
  · exact h1
  · extract_lets f1 f2
    split
    · refine canon_ite (motive := Eff.Canon) (canon_prune (canon_freeEntryOf h1)) ?_
      split
      · exact canon_ite (canon_tryFinish (canon_modOp h1)) (canon_tryFinish (canon_endWork (canon_modOp h1)))
      · exact canon_ite (canon_tryFinish (canon_modOp h1)) (canon_tryFinish (canon_endWork (canon_modOp h1)))
      · exact canon_ite (canon_tryFinish (canon_modOp h1)) (canon_tryFinish (canon_endWork (canon_modOp h1)))
      · exact canon_tryFinish (canon_endWork (canon_modOp h1))
      · exact canon_tryFinish (canon_endWork (canon_modOp h1))
      · exact canon_tryFinish (canon_endWork (canon_modOp h1))
      · exact canon_prune (canon_freeEntryOf (canon_serveFwait h1))
    · exact canon_prune (canon_freeEntryOf h1)

theorem canon_execWaitc {x : Ins} {s : State} (hs : s.Canon) : OutcomeCanon (execWaitc x s) := by
  unfold execWaitc
  extract_lets
  split
  · exact trivial
  · exact canon_advance (canon_start hs)
  · exact canon_faultWord (canon_start hs)
  · extract_lets
    refine canon_ite (motive := OutcomeCanon) (canon_faultWord (canon_start hs)) (canon_ite (motive := OutcomeCanon)
        (canon_modPath hs) ?_)
    split
    · exact canon_finish (canon_start hs)
    · exact canon_faultDeferred (canon_clearFault (canon_start hs))

theorem canon_execColl {x : Ins} {op : CollOp} {ty : Ty} {first : Bool} {s : State} (hs : s.Canon) :
    OutcomeCanon (execColl x op ty first s) := by
  unfold execColl
  exact canon_runEngine hs (fun _ _ _ _ h1 => canon_takes h1)

theorem canon_sendElem {s : State} {t : Troupe} {o : Op} {w : CollWork} {d : CollDesc} {z m : Nat} (hs : s.Canon) :
    (s.sendElem t o w d z m).Canon := by
  unfold State.sendElem
  split
  · exact hs
  · split
    · exact canon_modOp (EGot.Canon.of_bytes ‹_› (canon_opRead hs))
    · exact canon_opRead hs

theorem canon_collMove {s : State} {t : Troupe} {o : Op} {k : Nat} (hs : s.Canon) : (s.collMove t o k).Canon := by
  unfold State.collMove
  split
  · split
    · split
      · exact hs
      · extract_lets
        refine canon_ite (motive := ElemGot.Canon) ?_ ?_
        · split
          · exact EGot.Canon.of_waits ‹_› (canon_sendElem hs)
          · exact EGot.Canon.of_fault ‹_› (canon_sendElem hs)
          · exact EGot.Canon.of_bytes ‹_› (canon_sendElem hs)
        · split
          · exact hs
          · split
            · refine EGot.Canon.of_waits (congrArg Prod.fst ‹_›) ?_
              split
              · split
                · exact EGot.Canon.of_bytes ‹_› (canon_sendElem hs)
                · exact canon_sendElem hs
              · exact hs
            · refine EGot.Canon.of_fault (congrArg Prod.fst ‹_›) ?_
              split
              · split
                · exact EGot.Canon.of_bytes ‹_› (canon_sendElem hs)
                · exact canon_sendElem hs
              · exact hs
            · split
              · refine EGot.Canon.of_bytes (congrArg Prod.fst ‹_›) ?_
                split
                · split
                  · exact EGot.Canon.of_bytes ‹_› (canon_sendElem hs)
                  · exact canon_sendElem hs
                · exact hs
              · split
                · refine EGot.Canon.of_waits ‹_› (canon_opWrite (EGot.Canon.of_bytes (congrArg Prod.fst ‹_›) ?_))
                  split
                  · split
                    · exact EGot.Canon.of_bytes ‹_› (canon_sendElem hs)
                    · exact canon_sendElem hs
                  · exact hs
                · refine EGot.Canon.of_fault ‹_› (canon_opWrite (EGot.Canon.of_bytes (congrArg Prod.fst ‹_›) ?_))
                  split
                  · split
                    · exact EGot.Canon.of_bytes ‹_› (canon_sendElem hs)
                    · exact canon_sendElem hs
                  · exact hs
                · refine EGot.Canon.of_bytes ‹_› (canon_opWrite (EGot.Canon.of_bytes (congrArg Prod.fst ‹_›) ?_))
                  split
                  · split
                    · exact EGot.Canon.of_bytes ‹_› (canon_sendElem hs)
                    · exact canon_sendElem hs
                  · exact hs
  · exact hs

theorem canon_collBegin {s : State} {t : Troupe} {o : Op} {c : CollOp} {ty : Ty} {n desc : Nat} (hs : s.Canon) :
    (s.collBegin t o c ty n desc).Canon := by
  unfold State.collBegin
  split
  · split
    · exact canon_opWaits hs
    · exact canon_endWork (canon_saw (EGot.Canon.of_fault ‹_› (canon_opRead hs)))
    · extract_lets s1 s2 _
      have h1 : s1.Canon := canon_saw (EGot.Canon.of_bytes ‹_› (canon_opRead hs))
      have h2 : s2.Canon := canon_endWork h1
      split
      · exact h2
      · exact canon_ite (canon_modOp h1) h2

theorem canon_collArrive {s : State} {t : Troupe} {o : Op} {c : CollOp} {ty : Ty} {n : Nat} {w : CollWork}
    {parts : List (Nat × List Byte)} {changed : Bool} (hs : s.Canon) :
    (s.collArrive t o c ty n w parts changed).Canon := by
  unfold State.collArrive
  split
  · split
    · exact hs
    · extract_lets
      exact canon_ite (canon_modOp (canon_takes (canon_of_eq hs rfl rfl))) hs

theorem canon_execCollComplete {troupe op : Nat} {parts : List (Nat × List Byte)} {changed : Bool} {s : State}
    (hs : s.Canon) :
    OutcomeCanon (execCollComplete troupe op parts changed s) := by
  unfold execCollComplete
  split
  · exact hs
  · split
    · exact canon_ite (motive := OutcomeCanon) (canon_tryFinish hs) (canon_ite (motive := OutcomeCanon)
          (canon_tryFinish (canon_collBegin hs)) (canon_ite (motive := OutcomeCanon) (canon_collArrive hs) (canon_ite
          (motive := OutcomeCanon) (canon_tryFinish (canon_endWork hs)) (canon_moveNext hs
          (fun _ _ _ _ h1 => canon_collMove h1)))))
    · exact hs

/-! ### The unmasking engine -/

theorem canon_modSlot {s : State} {d k : Nat} {f : UmSlot → UmSlot} (hs : s.Canon) : (s.modSlot d k f).Canon := by
  unfold State.modSlot
  exact canon_modDie hs (fun _ => rfl)

theorem canon_runUm {x : Ins} {k : UmKind} {first blk : Bool} {s : State} (hs : s.Canon) :
    OutcomeCanon (runUm x k first blk s) := by
  unfold runUm
  exact canon_runEngine hs (fun _ _ _ _ h1 => canon_modSlot (canon_takes h1))

theorem canon_execUmcfg {x : Ins} {first : Bool} {s : State} (hs : s.Canon) : OutcomeCanon (execUmcfg x first s) := by
  unfold execUmcfg
  exact canon_runUm hs

theorem canon_execUmrank {x : Ins} {first : Bool} {s : State} (hs : s.Canon) :
    OutcomeCanon (execUmrank x first s) := by
  unfold execUmrank
  exact canon_runUm hs

theorem canon_execUmcommit {x : Ins} {first : Bool} {s : State} (hs : s.Canon) :
    OutcomeCanon (execUmcommit x first s) := by
  unfold execUmcommit
  exact canon_runUm hs

theorem canon_execUmdirty {x : Ins} {first : Bool} {s : State} (hs : s.Canon) :
    OutcomeCanon (execUmdirty x first s) := by
  unfold execUmdirty
  exact canon_runUm hs

theorem canon_umGot {g : EGot} {k : State → List Byte → UmEnd} (hg : g.Canon)
    (hk : ∀ s bs, s.Canon → (k s bs).Canon) : (umGot g k).Canon := by
  unfold umGot
  split
  · exact hg
  · exact hg
  · exact hk _ _ hg

theorem canon_umRead {s : State} {t : Troupe} {o : Op} {w : UmWork} {z va n : Nat} (hs : s.Canon) :
    (s.umRead t o w z va n).Canon := by
  induction n generalizing s va with
  | zero => exact hs
  | succ n ih =>
    have h1 : (match mfind w.cache va with
        | some b => EGot.bytes s b
        | none => s.engineRead t (engineOf t o) va z).Canon := by
      split
      · exact hs
      · exact canon_engineRead hs
    unfold State.umRead
    split
    · split
      · refine EGot.Canon.of_bytes ‹_› (ih (EGot.Canon.of_bytes ‹_› ?_))
        split
        · exact hs
        · exact canon_engineRead hs
      · refine ih (EGot.Canon.of_bytes ‹_› ?_)
        split
        · exact hs
        · exact canon_engineRead hs
    · split
      · exact hs
      · exact canon_engineRead hs

theorem canon_umCfg {s : State} {t : Troupe} {o : Op} {w : UmWork} {u : UmSlot} {blk : Nat} (hs : s.Canon) :
    (s.umCfg t o w u blk).Canon := by
  unfold State.umCfg
  refine canon_umGot (canon_umRead hs) (fun _ _ h1 => ?_)
  split
  · exact h1
  · extract_lets
    exact canon_ite (motive := UmEnd.Canon) h1 (canon_ite (motive := UmEnd.Canon) (canon_umGot (canon_umRead h1)
        (fun _ _ h2 => h2)) h1)

theorem canon_readConf {s : State} {t : Troupe} {o : Op} {w : UmWork} {base : Nat} {ps : List Nat}
    {acc : List (Nat × Nat)} {k : State → List (Nat × Nat) → UmEnd} (hs : s.Canon)
    (hk : ∀ s cs, s.Canon → (k s cs).Canon) : (s.readConf t o w base ps acc k).Canon := by
  induction ps generalizing s acc with
  | nil => exact hk _ _ hs
  | cons p ps ih =>
    unfold State.readConf
    split
    · exact EGot.Canon.of_waits ‹_› (canon_umRead hs)
    · exact EGot.Canon.of_fault ‹_› (canon_umRead hs)
    · exact ih (EGot.Canon.of_bytes ‹_› (canon_umRead hs))

theorem canon_umRank {s : State} {t : Troupe} {o : Op} {w : UmWork} {u : UmSlot} {c : UmConfig} (hs : s.Canon) :
    (s.umRank t o w u c).Canon := by
  unfold State.umRank
  exact canon_ite (motive := UmEnd.Canon) hs (canon_readConf hs (fun _ _ h1 => canon_ite
      (motive := UmEnd.Canon) h1 h1))

theorem canon_umCommit {s : State} {t : Troupe} {o : Op} {w : UmWork} {u : UmSlot} {c : UmConfig} (hs : s.Canon) :
    (s.umCommit t o w u c).Canon := by
  unfold State.umCommit
  extract_lets
  exact canon_ite (motive := UmEnd.Canon) hs (canon_umGot (canon_umRead hs) (fun _ _ h1 => canon_ite
      (motive := UmEnd.Canon) h1 h1))

theorem canon_umDirty {s : State} {t : Troupe} {u : UmSlot} {c : UmConfig} (hs : s.Canon) :
    (s.umDirty t u c).Canon := by
  unfold State.umDirty
  exact canon_ite (motive := UmEnd.Canon) hs hs

theorem canon_umRun {s : State} {t : Troupe} {o : Op} {w : UmWork} {u : UmSlot} {k : UmKind} {blk : Nat}
    (hs : s.Canon) :
    (s.umRun t o w u k blk).Canon := by
  unfold State.umRun
  split
  · exact canon_umCfg hs
  · exact canon_umRank hs
  · exact canon_umRank hs
  · exact canon_umCommit hs
  · exact canon_umDirty hs
  · exact canon_umDirty hs
  · exact hs

theorem canon_umElem {s : State} {t : Troupe} {o : Op} {k : Nat} (hs : s.Canon) : (s.umElem t o k).Canon := by
  unfold State.umElem
  split
  · split
    · split
      · exact EGot.Canon.of_waits ‹_› (canon_opWrite hs)
      · exact EGot.Canon.of_fault ‹_› (canon_opWrite hs)
      · exact EGot.Canon.of_bytes ‹_› (canon_opWrite hs)
    · exact hs
  · exact hs

theorem canon_popSlot {s : State} {d k : Nat} (hs : s.Canon) : (s.popSlot d k).Canon := by
  unfold State.popSlot
  exact canon_modSlot hs

theorem canon_umWrite {s : State} {d k id op : Nat} (hs : s.Canon) : (s.umWrite d k id op).Canon := by
  unfold State.umWrite
  split
  · exact hs
  · split
    · extract_lets s1
      have h1 : s1.Canon := canon_moveNext hs (fun _ _ _ _ h2 => canon_umElem h2)
      split
      · exact h1
      · split
        · split
          · exact canon_ite (canon_endWork (canon_modSlot h1)) h1
          · exact h1
        · exact h1
    · exact hs

theorem canon_finishUm {s : State} {d k id op : Nat} (hs : s.Canon) : (s.finishUm d k id op).Canon := by
  unfold State.finishUm
  extract_lets s1
  have h1 : s1.Canon := canon_tryFinish hs
  split
  · exact canon_ite (canon_popSlot h1) h1
  · exact canon_popSlot h1

theorem canon_execUmCommandComplete {die slot : Nat} {s : State} (hs : s.Canon) :
    OutcomeCanon (execUmCommandComplete die slot s) := by
  unfold execUmCommandComplete
  split
  · exact hs
  · split
    · exact canon_popSlot hs
    · split
      · refine canon_ite (motive := OutcomeCanon) (canon_popSlot hs) (canon_ite (motive := OutcomeCanon)
            (canon_finishUm hs) (canon_ite (motive := OutcomeCanon) (canon_umWrite hs) ?_))
        split
        · exact canon_opWaits hs
        · extract_lets s1
          have h1 : s1.Canon := canon_endWork (canon_saw (UmEnd.Canon.of_fault ‹_› (canon_umRun hs)))
          exact canon_ite (canon_modSlot h1) h1
        · exact canon_umWrite (canon_modOp (canon_saw (UmEnd.Canon.of_done ‹_› (canon_umRun hs))))
      · exact canon_popSlot hs

theorem canon_umAhead {s : State} {t : Troupe} {o : Op} {k : UmKind} {n blk va : Nat} {w : UmWork} (hs : s.Canon) :
    (s.umAhead t o k n blk va w).Canon := by
  unfold State.umAhead
  split
  · exact hs
  · refine canon_ite hs ?_
    split
    · exact canon_saw (canon_modOp (EGot.Canon.of_bytes ‹_› (canon_engineRead hs)))
    · exact canon_opWaits hs
    · exact hs

theorem canon_partAhead {s : State} {troupe op k : Nat} (hs : s.Canon) : (s.partAhead troupe op k).Canon := by
  unfold State.partAhead
  split
  · exact hs
  · split
    · exact canon_ite hs (canon_moveAhead hs (fun _ _ _ _ h1 => canon_tileElem h1))
    · exact canon_ite hs (canon_moveAhead hs (fun _ _ _ _ h1 => canon_tileElem h1))
    · exact canon_moveAhead hs (fun _ _ _ _ h1 => canon_copyElem h1)
    · exact canon_moveAhead hs (fun _ _ _ _ h1 => canon_copyElem h1)
    · exact canon_moveAhead hs (fun _ _ _ _ h1 => canon_collMove h1)
    · exact canon_ite (canon_moveAhead hs (fun _ _ _ _ h1 => canon_umElem h1)) (canon_umAhead hs)
    · exact hs

/-! ### Header entry -/

theorem canon_fetchHead {s : State} {t : Troupe} {p : Path} (hs : s.Canon) : (s.fetchHead t p).Canon := by
  unfold State.fetchHead
  extract_lets
  split
  · exact hs
  · refine canon_ite (motive := Fetched.Canon) (canon_faultSlot hs) ?_
    split
    · exact canon_faultSlot hs
    · exact canon_fetchMiss hs
    · refine canon_ite (motive := Fetched.Canon) (canon_faultSlot (canon_touchFetch hs)) (canon_ite
          (motive := Fetched.Canon) (canon_halt (canon_logError hs)) ?_)
      split
      · exact canon_fst ‹_› (canon_fillCode (canon_touchFetch hs))
      · exact canon_holdHead (canon_fst ‹_› (canon_fillCode (canon_touchFetch hs)))

theorem canon_execDemandFetch {r : PathRef} {s : State} (hs : s.Canon) : OutcomeCanon (execDemandFetch r s) := by
  unfold execDemandFetch
  split
  · exact hs
  · split
    · exact canon_modPath (Fetched.Canon.of_slot ‹_› (canon_fetchHead hs))
    · exact Fetched.Canon.of_waits ‹_› (canon_fetchHead hs)
    · exact Fetched.Canon.of_taken ‹_› (canon_fetchHead hs)

theorem canon_execUndefinedInstruction {w : Slot} {s : State} (hs : s.Canon) :
    OutcomeCanon (execUndefinedInstruction w s) := by
  unfold execUndefinedInstruction
  split
  · exact trivial
  · extract_lets
    exact canon_faultWord (canon_modPath hs)

theorem canon_execHwPrefetch {die core sid va : Nat} {k : PrefetchKind} {s : State} (hs : s.Canon) :
    OutcomeCanon (execHwPrefetch die core sid va k s) := by
  unfold execHwPrefetch
  extract_lets s1
  have h1 : s1.Canon := canon_ite (canon_countCore hs) hs
  split
  · extract_lets
    refine canon_ite (motive := OutcomeCanon) h1 ?_
    split
    · exact canon_fillCode hs
    · exact canon_ite (motive := OutcomeCanon) (canon_fetchLine hs) (canon_sendChan hs)
  · exact h1

theorem canon_refillAt {s : State} {t : Troupe} {p : Path} {h : Nat} (hs : s.Canon) : (s.refillAt t p h).Canon := by
  unfold State.refillAt
  split
  · exact hs
  · extract_lets _ _ _ _ s1 s2
    have h1 : s1.Canon := canon_modLaunch (canon_takes hs)
    have h2 : s2.Canon := canon_modTroupe h1
    exact canon_countCore (canon_countCore h2)

theorem canon_drainTroupe {s : State} {t : Troupe} (hs : s.Canon) : (s.drainTroupe t).Canon := by
  unfold State.drainTroupe
  exact canon_settle (canon_countCore (canon_modTroupe hs))

theorem canon_execTroupeIdleRefill {troupe : Nat} {s : State} (hs : s.Canon) :
    OutcomeCanon (execTroupeIdleRefill troupe s) := by
  unfold execTroupeIdleRefill
  split
  · exact hs
  · split
    · exact hs
    · refine canon_ite (motive := OutcomeCanon) hs ?_
      extract_lets s1
      have h1 : s1.Canon := canon_takes hs
      split
      · exact canon_modTroupe h1
      · exact canon_drainTroupe h1

theorem canon_takeBlock {s : State} {e : Ensemble} {l : Launch} (hs : s.Canon) : (s.takeBlock e l).Canon := by
  unfold State.takeBlock
  extract_lets _ _ s1
  have h1 : s1.Canon := canon_modLaunch hs
  exact canon_foldl h1 fun _ _ h2 => canon_countCore (canon_modTroupe h2)

theorem canon_lastBlock {s : State} {e : Ensemble} (hs : s.Canon) : (s.lastBlock e).Canon := by
  unfold State.lastBlock
  extract_lets s1
  have h1 : s1.Canon := canon_modEns hs
  exact canon_foldl h1 fun _ _ h2 => canon_drainTroupe h2

theorem canon_lifeless {s : State} {id h : Nat} (hs : s.Canon) : (s.lifeless id h).Canon := by
  unfold State.lifeless
  split
  · exact hs
  · exact canon_settleEns (canon_modTroupe hs)

theorem canon_discard {s : State} {id : Nat} (hs : s.Canon) : (s.discard id).Canon := by
  unfold State.discard
  split
  · exact hs
  · split
    · exact hs
    · exact canon_settleEns (canon_modTroupe (canon_dropWaiters hs))

theorem canon_blockFinish {s : State} {t : Troupe} {entry : Nat} {adopt : Option Region} (hs : s.Canon) :
    (s.blockFinish t entry adopt).Canon := by
  unfold State.blockFinish
  extract_lets g
  clear_value g
  split
  · exact canon_ite (canon_discard (canon_modTroupe hs)) (canon_lifeless (canon_modTroupe hs))
  · exact hs

theorem canon_execBlockRefill {ens : Nat} {s : State} (hs : s.Canon) : OutcomeCanon (execBlockRefill ens s) := by
  unfold execBlockRefill
  split
  · exact hs
  · split
    · exact hs
    · extract_lets _ s1
      have h1 : s1.Canon := canon_foldl hs fun _ _ h2 => canon_blockFinish h2
      exact canon_ite (motive := OutcomeCanon) hs (canon_ite (motive := OutcomeCanon) (canon_ite
          (motive := OutcomeCanon) (canon_takeBlock hs) h1) (canon_ite (motive := OutcomeCanon) (canon_takeBlock hs)
          (canon_lastBlock hs)))

theorem canon_mapSave {s : State} {t : Troupe} (hs : s.Canon) : (s.mapSave t).Canon := by
  unfold State.mapSave
  extract_lets s1 _ _ _
  have h1 : s1.Canon := canon_freeSave hs
  exact canon_modTroupe (canon_modSub h1)

theorem canon_vector {s : State} {t : Troupe} {p : Path} {g : Region} {h : Nat} (hs : s.Canon) :
    (s.vector t p g h).Canon := by
  unfold State.vector
  exact canon_ite (canon_lifeless hs) (canon_modTroupe (canon_mapSave hs))

theorem canon_stopPath {s : State} {t : Troupe} {p : Path} (hs : s.Canon) : (s.stopPath t p).Canon := by
  unfold State.stopPath
  extract_lets s1
  have h1 : s1.Canon := canon_modPath hs
  split
  · exact canon_ite (canon_discard h1) h1
  · exact h1

theorem canon_preemptEntry {s : State} {t : Troupe} {p : Path} {hd : Option Header} (hs : s.Canon) :
    OptionCanon (s.preemptEntry t p hd) := by
  unfold State.preemptEntry
  refine canon_ite (motive := OptionCanon) canon_none ?_
  extract_lets f1 f2
  split
  · refine canon_ite (motive := OptionCanon) ?_ (canon_ite (motive := OptionCanon) (canon_ite (canon_lifeless hs)
        (canon_stopPath hs)) (canon_ite (motive := OptionCanon) (canon_vector hs) canon_none))
    unfold f2
    split
    · exact canon_ite (motive := OptionCanon) (canon_ite (motive := OptionCanon) (canon_ite (canon_lifeless
          (canon_modTroupe hs)) (canon_stopPath (canon_modTroupe hs))) (canon_ite (motive := OptionCanon)
          (canon_vector (canon_modTroupe hs)) canon_none)) canon_none
    · exact canon_none
  · unfold f2
    split
    · exact canon_ite (motive := OptionCanon) (canon_ite (motive := OptionCanon) (canon_ite (canon_lifeless
          (canon_modTroupe hs)) (canon_stopPath (canon_modTroupe hs))) (canon_ite (motive := OptionCanon)
          (canon_vector (canon_modTroupe hs)) canon_none)) canon_none
    · exact canon_none

theorem canon_headerPrefetch {s : State} {t : Troupe} {h : Nat} {hd : Header} (hs : s.Canon) :
    (s.headerPrefetch t h hd).Canon := by
  unfold State.headerPrefetch
  extract_lets s1
  have h1 : s1.Canon := canon_ite (canon_prefetchSlot hs) hs
  exact canon_ite (canon_prefetchSlot h1) h1

theorem canon_takeHeader {s : State} {t : Troupe} {p : Path} {hd : Header} (hs : s.Canon) :
    (s.takeHeader t p hd).Canon := by
  unfold State.takeHeader
  extract_lets _ _ _ _ _ _ s1 s2 s3 s4
  have h1 : s1.Canon := canon_ite (canon_refillAt hs) hs
  have h2 : s2.Canon := canon_ite (canon_modTroupe h1) h1
  have h3 : s3.Canon := canon_headerPrefetch h2
  have h4 : s4.Canon := canon_modPath h3
  exact canon_ite (canon_faultSlot hs) (canon_ite (canon_faultSlot hs) (canon_ite (canon_regang (canon_modPath h4))
      (canon_ite (canon_settle h4) h4)))

theorem canon_standard {s : State} {t : Troupe} {k : Nat} (hs : s.Canon) : (s.standard t k).Canon := by
  unfold State.standard
  extract_lets _ _ _ _ s1
  have h1 : s1.Canon := canon_fwAnswer (canon_fwAnswer hs)
  exact canon_ite (canon_ite (canon_endTrap hs) hs) (canon_ite (canon_endTrap hs) (canon_ite (canon_endTrap hs)
      (canon_halt h1)))

theorem canon_headerStep {s : State} {t : Troupe} {p : Path} (hs : s.Canon) : (s.headerStep t p).Canon := by
  unfold State.headerStep
  extract_lets _ f2 f3
  split
  · refine canon_ite (canon_standard hs) ?_
    unfold f2
    split
    · exact Fetched.Canon.of_taken ‹_› (canon_fetchHead hs)
    · exact Fetched.Canon.of_waits ‹_› (canon_fetchHead hs)
    · split
      · exact canon_faultSlot (Fetched.Canon.of_slot ‹_› (canon_fetchHead hs))
      · split
        · exact canon_some ‹_› canon_none
        · exact canon_takeHeader (Fetched.Canon.of_slot ‹_› (canon_fetchHead hs))
  · refine canon_ite hs ?_
    split
    · exact canon_some ‹_› (canon_ite (motive := OptionCanon) canon_none (canon_map_state (canon_preemptEntry hs)
          fun _ h1 => canon_ite hs h1))
    · unfold f2
      split
      · exact Fetched.Canon.of_taken ‹_› (canon_fetchHead hs)
      · exact Fetched.Canon.of_waits ‹_› (canon_fetchHead hs)
      · split
        · exact canon_faultSlot (Fetched.Canon.of_slot ‹_› (canon_fetchHead hs))
        · split
          · rename_i e1 _ e2 _ _ _ e3 _ _ e4 _ _ e5
            exact canon_some e5 (canon_ite (motive := OptionCanon) (canon_settle (canon_modTroupe
                (Fetched.Canon.of_slot e3 (canon_fetchHead hs)))) (canon_map_state (canon_preemptEntry
                (Fetched.Canon.of_slot e3 (canon_fetchHead hs))) fun _ h1 => canon_ite (Fetched.Canon.of_slot e3
                (canon_fetchHead hs)) h1))
          · exact canon_takeHeader (Fetched.Canon.of_slot ‹_› (canon_fetchHead hs))

theorem canon_execHeaderEntry {r : PathRef} {s : State} (hs : s.Canon) : OutcomeCanon (execHeaderEntry r s) := by
  unfold execHeaderEntry
  split
  · exact hs
  · exact canon_ite (motive := OutcomeCanon) hs (canon_headerStep hs)

/-! ### Pre-emption and the debugger -/

theorem canon_startPreempt {s : State} {ens : Nat} (hs : s.Canon) : (s.startPreempt ens).Canon := by
  unfold State.startPreempt
  extract_lets s1 s2
  have h1 : s1.Canon := canon_modEns hs
  have h2 : s2.Canon := by
    unfold s2
    refine canon_foldl h1 fun _ _ h3 => ?_
    extract_lets s4
    have h4 : s4.Canon := canon_modTroupe (canon_endBarrierWaits h3)
    split
    · exact canon_lifeless h4
    · exact h4
  exact canon_settleEns (canon_sweepBars h2)

theorem canon_request {s : State} {ens : Nat} (hs : s.Canon) : (s.request ens).Canon := by
  unfold State.request
  split
  · exact hs
  · exact canon_ite hs (canon_ite (canon_ite hs (canon_modEns hs)) (canon_startPreempt (canon_modEns hs)))

theorem canon_execPboundExpiry {ens : Nat} {s : State} (hs : s.Canon) : OutcomeCanon (execPboundExpiry ens s) := by
  unfold execPboundExpiry
  split
  · exact hs
  · exact canon_ite (motive := OutcomeCanon) (canon_settleEns (canon_sweepBars (canon_foldl (canon_takes hs)
        fun _ _ h1 => canon_spillTroupe h1))) hs

theorem canon_execRxdone {x : Ins} {s : State} (hs : s.Canon) : OutcomeCanon (execRxdone x s) := by
  unfold execRxdone
  extract_lets
  split
  · exact trivial
  · exact canon_advance (canon_start hs)
  · exact canon_faultWord (canon_start hs)
  · extract_lets _ _ s1
    have h1 : s1.Canon := canon_start hs
    exact canon_ite (motive := OutcomeCanon) (canon_faultWord (canon_start hs)) (canon_ite (motive := OutcomeCanon)
        (canon_modPath hs) (canon_ite (motive := OutcomeCanon) (canon_settleEns (canon_modTroupe h1))
        (canon_modPath h1)))

theorem canon_endEntry {s : State} {t : Troupe} (hs : s.Canon) : (s.endEntry t).Canon := by
  unfold State.endEntry
  extract_lets s1 s2
  have h1 : s1.Canon := canon_freeSave (canon_countCore hs)
  have h2 : s2.Canon := canon_modTroupe h1
  split
  · exact canon_ite (canon_startPreempt h2) h2
  · exact h2

theorem canon_execEntrydone {x : Ins} {s : State} (hs : s.Canon) : OutcomeCanon (execEntrydone x s) := by
  unfold execEntrydone
  extract_lets
  split
  · exact trivial
  · exact canon_advance (canon_start hs)
  · exact canon_faultWord (canon_start hs)
  · extract_lets _ s1 _
    have h1 : s1.Canon := canon_start hs
    exact canon_ite (motive := OutcomeCanon) (canon_faultWord h1) (canon_ite (motive := OutcomeCanon)
        (canon_endEntry h1) (canon_modPath h1))

theorem canon_retakeExt {s : State} {id : Nat} (hs : s.Canon) : (s.retakeExt id).Canon := by
  unfold State.retakeExt
  split
  · exact hs
  · exact canon_ite (canon_modTroupe (canon_setExt hs)) (canon_modTroupe hs)

theorem canon_resumeTroupe {s : State} {id : Nat} (hs : s.Canon) : (s.resumeTroupe id).Canon := by
  unfold State.resumeTroupe
  split
  · exact hs
  · extract_lets s1 _ _ _
    have h1 : s1.Canon := canon_retakeExt hs
    exact canon_modTroupe h1

theorem canon_clearChip {s : State} {ens : Nat} (hs : s.Canon) : (s.clearChip ens).Canon := by
  unfold State.clearChip
  extract_lets _ s1 _
  have h1 : s1.Canon := canon_modEns hs
  exact canon_of_eq hs rfl rfl

theorem canon_resume {s : State} {ens : Nat} (hs : s.Canon) : (s.resume ens).Canon := by
  unfold State.resume
  split
  · exact hs
  · extract_lets s1 s2
    have h1 : s1.Canon := canon_ite hs (canon_clearChip hs)
    have h2 : s2.Canon := canon_modEns h1
    exact canon_foldl h2 fun _ _ h3 => canon_resumeTroupe h3

theorem canon_execDebuggerStop {troupe : Nat} {slices : BitVec 8} {s : State} (hs : s.Canon) :
    OutcomeCanon (execDebuggerStop troupe slices s) := by
  unfold execDebuggerStop
  split
  · exact hs
  · split
    · exact hs
    · exact canon_debugStop hs

theorem canon_execDebuggerResume {troupe : Nat} {slices : BitVec 8} {s : State} (hs : s.Canon) :
    OutcomeCanon (execDebuggerResume troupe slices s) := by
  unfold execDebuggerResume
  split
  · exact hs
  · exact canon_ite (motive := OutcomeCanon) (canon_modTroupe hs) hs

theorem canon_execSingleStep {troupe slice : Nat} {s : State} (hs : s.Canon) :
    OutcomeCanon (execSingleStep troupe slice s) := by
  unfold execSingleStep
  split
  · exact hs
  · refine canon_ite (motive := OutcomeCanon) hs ?_
    split
    · exact canon_ite (motive := OutcomeCanon) (canon_headerStep hs) (canon_modTroupe hs)
    · split
      · exact hs
      · refine canon_ite (motive := OutcomeCanon) hs ?_
        split
        · exact canon_headerStep hs
        · exact canon_modTroupe hs
        · exact hs

theorem canon_execDebuggerRegisterAccess {troupe lane reg : Nat} {acc : DebugAccess} {s : State} (hs : s.Canon) :
    OutcomeCanon (execDebuggerRegisterAccess troupe lane reg acc s) := by
  unfold execDebuggerRegisterAccess
  split
  · exact hs
  · split
    · exact hs
    · exact canon_ite (motive := OutcomeCanon) (canon_modTroupe hs) hs

theorem canon_execDebuggerAttach {launch : Nat} {stopAll : Bool} {s : State} (hs : s.Canon) :
    OutcomeCanon (execDebuggerAttach launch stopAll s) := by
  unfold execDebuggerAttach
  exact canon_modLaunch hs

/-! ### Placement -/

theorem canon_placeNew {s : State} {l : Launch} {x : Site} (hs : s.Canon) : (s.placeNew l x).Canon := by
  unfold State.placeNew
  extract_lets _ _ _ _ _ _ _ s1 s2 s3
  have h1 : s1.Canon := canon_of_eq hs rfl rfl
  have h2 : s2.Canon := canon_modLaunch h1
  have h3 : s3.Canon := canon_modCmd h2
  exact canon_foldl h3 fun _ _ h4 => canon_ite (canon_makeDone h4) h4

theorem canon_placeAgain {s : State} {ens : Nat} {x : Site} (hs : s.Canon) : (s.placeAgain ens x).Canon := by
  unfold State.placeAgain
  extract_lets s1 s2
  have h1 : s1.Canon := canon_modEns hs
  have h2 : s2.Canon := canon_of_eq hs rfl rfl
  exact canon_resume h2

theorem canon_place {s : State} {c : Candidate} {x : Site} (hs : s.Canon) : (s.place c x).Canon := by
  unfold State.place
  extract_lets s1
  have h1 : s1.Canon := canon_takes hs
  split
  · exact canon_placeAgain (canon_of_eq h1 rfl rfl)
  · split
    · exact canon_placeNew (canon_of_eq h1 rfl rfl)
    · exact h1

theorem canon_execPlacement {s : State} (hs : s.Canon) : OutcomeCanon (execPlacement s) := by
  unfold execPlacement
  split
  · exact canon_place hs
  · exact hs

theorem canon_askFor {s : State} {c : Candidate} {ens : Nat} (hs : s.Canon) : (s.askFor c ens).Canon := by
  unfold State.askFor
  exact canon_request (canon_of_eq hs rfl rfl)

theorem canon_execPlacerPreemptRequest {s : State} (hs : s.Canon) : OutcomeCanon (execPlacerPreemptRequest s) := by
  unfold execPlacerPreemptRequest
  split
  · exact canon_askFor hs
  · exact hs

theorem canon_execPreemptRequest {ens : Nat} {why : PreemptCause} {s : State} (hs : s.Canon) :
    OutcomeCanon (execPreemptRequest ens why s) := by
  unfold execPreemptRequest
  split
  · split
    · exact canon_ite (motive := OutcomeCanon) (canon_askFor hs) hs
    · exact hs
  · exact canon_request hs
  · exact canon_request hs
  · exact canon_request hs
  · exact canon_request hs

theorem canon_execPlacerStarvationHold {s : State} (hs : s.Canon) : OutcomeCanon (execPlacerStarvationHold s) := by
  unfold execPlacerStarvationHold
  exact canon_of_eq hs rfl rfl

theorem canon_placerClock {s : State} (hs : s.Canon) : (s.placerClock).Canon := by
  unfold State.placerClock
  extract_lets
  exact canon_of_eq hs rfl rfl

/-! ### The service -/

theorem canon_dropPageL1 {s : State} {h : Nat} {p : Pte} (hs : s.Canon) : (s.dropPageL1 h p).Canon := by
  unfold State.dropPageL1
  exact canon_mapDies hs rfl (fun _ => rfl) rfl

theorem canon_dropPage {s : State} {p : Pte} (hs : s.Canon) : (s.dropPage p).Canon := by
  unfold State.dropPage
  split
  · exact hs
  · extract_lets s1
    have h1 : s1.Canon := by
      unfold s1
      refine canon_foldl hs fun _ _ h2 => ?_
      split
      · exact canon_ite (canon_delLine (canon_writeBack h2)) (canon_leave h2)
      · exact h2
    exact canon_dropPageL1 h1

theorem canon_firstTouch {s : State} {sid va : Nat} (hs : s.Canon) : (s.firstTouch sid va).Canon := by
  unfold State.firstTouch
  split
  · exact hs
  · exact canon_ite hs (canon_modPage (canon_ite hs
      (canon_pool (canon_dropPage hs) rfl fun _ => filter_wf hs.2.2)))

theorem canon_execPageFirstTouchFill {sid va : Nat} {s : State} (hs : s.Canon) :
    OutcomeCanon (execPageFirstTouchFill sid va s) := by
  unfold execPageFirstTouchFill
  split
  · exact canon_ite (canon_firstTouch hs) hs
  · exact hs

theorem canon_unmapSaves {s : State} (hs : s.Canon) : (s.unmapSaves).Canon := by
  unfold State.unmapSaves
  refine canon_foldl hs fun _ _ h1 => ?_
  split
  · exact canon_of_eq h1 rfl rfl
  · exact canon_ite (canon_modSub (canon_of_eq (canon_dropPage h1) rfl rfl)) h1

theorem canon_svcAt {s : State} {sid va : Nat} {w : Bool} (hs : s.Canon) :
    ∀ r ∈ s.svcAt sid va w, r.1.Canon := by
  intro r hr
  rw [Option.mem_def, State.svcAt] at hr
  split at hr
  · cases hr
  next p _ =>
    by_cases hc : p.kind = .device ∨ (if w then p.w else p.r) = false ∨ Config.windowBase ≤ va
    · rw [if_pos hc] at hr
      cases hr
    · rw [if_neg hc] at hr
      dsimp only at hr
      split at hr
      · cases hr
        exact canon_touchPage (canon_firstTouch hs)
      · cases hr

theorem canon_svcRead {s : State} {sid va k n : Nat} (hs : s.Canon) : (s.svcRead sid va k n).Canon := by
  induction n generalizing s k with
  | zero => exact canon_dropOnceOf hs
  | succ n ih =>
    unfold State.svcRead
    split
    · exact trivial
    · split
      · exact Avail.Canon.of_waits ‹_› (canon_lineRead (canon_some_fst ‹_› (canon_svcAt hs)))
      · exact trivial
      · refine canon_ite (motive := Svc.Canon) trivial ?_
        split
        · exact Svc.Canon.of_ok ‹_› (ih (Avail.Canon.of_ready ‹_› (canon_lineRead (canon_some_fst ‹_› (canon_svcAt
              hs)))))
        · exact ih (Avail.Canon.of_ready ‹_› (canon_lineRead (canon_some_fst ‹_› (canon_svcAt hs))))

theorem canon_svcWrite {s : State} {sid va k : Nat} {bs : List Byte} {ls : List (Nat × Nat)} (hs : s.Canon) :
    (s.svcWrite sid va k bs ls).Canon := by
  induction bs generalizing s k ls with
  | nil => exact canon_dropOnceOf hs
  | cons b bs ih =>
    unfold State.svcWrite
    split
    · exact trivial
    · split
      · exact Avail.Canon.of_waits ‹_› (canon_lineWrite (canon_some_fst ‹_› (canon_svcAt hs)))
      · exact trivial
      · extract_lets s1
        have h1 : s1.Canon := canon_commitWrite (Avail.Canon.of_ready ‹_› (canon_lineWrite (canon_some_fst ‹_›
            (canon_svcAt hs))))
        exact ih h1

theorem canon_effectDone {s : State} {id status d0 d1 : Nat} {ls : List (Nat × Nat)} (hs : s.Canon) :
    (s.effectDone id status d0 d1 ls).Canon := by
  unfold State.effectDone
  exact canon_modCmd hs

theorem canon_runCmd {id op : Nat} {s : State} {f : Command → State} (hs : s.Canon)
    (hf : ∀ c, (f c).Canon) : OutcomeCanon (runCmd id op s f) := by
  unfold runCmd
  split
  · exact hs
  · exact hf _

theorem canon_answer {s : State} {c : Command} {va at_ : Nat} {bs : List Byte} (hs : s.Canon) :
    (s.answer c va at_ bs).Canon := by
  unfold State.answer
  refine canon_ite (canon_effectDone hs) ?_
  split
  · exact canon_effectDone (Svc.Canon.of_ok ‹_› (canon_svcWrite hs))
  · exact Svc.Canon.of_waits ‹_› (canon_svcWrite hs)
  · exact canon_effectDone hs

theorem canon_addLaunch {s : State} {c : Command} (hs : s.Canon) : (s.addLaunch c).Canon := by
  unfold State.addLaunch
  exact canon_of_eq hs rfl rfl

theorem canon_modGraph {s : State} {cmd : Nat} {f : GraphRun → GraphRun} (hs : s.Canon) :
    (s.modGraph cmd f).Canon := by
  unfold State.modGraph
  exact canon_of_eq hs rfl rfl

theorem canon_startNode {s : State} {g : Command} {e : NodeEntry} {k status : Nat} (hs : s.Canon) :
    (s.startNode g e k status).Canon := by
  unfold State.startNode
  extract_lets _ _ s1 s2
  have h1 : s1.Canon := canon_of_eq hs rfl rfl
  have h2 : s2.Canon := canon_modGraph h1
  refine canon_ite (canon_effectDone h2) ?_
  split
  · exact canon_effectDone h2
  · exact canon_modGraph (canon_addLaunch h2)

theorem canon_startReady {s : State} {g : Command} (hs : s.Canon) : (s.startReady g).Canon := by
  unfold State.startReady
  split
  · exact hs
  · refine canon_foldl hs fun _ _ h1 => canon_ite ?_ h1
    split
    · exact canon_startNode h1
    · exact h1

theorem canon_nodeDone {s : State} {g k : Nat} {c : Command} (hs : s.Canon) : (s.nodeDone g k c).Canon := by
  unfold State.nodeDone
  split
  · extract_lets _ s1 s2
    have h1 : s1.Canon := canon_modGraph hs
    have h2 : s2.Canon := canon_ite (canon_modCmd h1) h1
    exact canon_ite (canon_modCmd (canon_of_eq h2 rfl rfl)) h2
  · exact hs

theorem canon_makeSignal {s : State} {g : SignalEntry} (hs : s.Canon) : (s.makeSignal g).Canon := by
  unfold State.makeSignal
  exact canon_modWord hs

theorem canon_endCmd {s : State} {c : Command} (hs : s.Canon) : (s.endCmd c).Canon := by
  unfold State.endCmd
  extract_lets s1 _ s2
  have h1 : s1.Canon := canon_modCmd hs
  have h2 : s2.Canon := canon_ite (canon_of_eq hs rfl rfl) h1
  split
  · exact canon_serveMail (canon_nodeDone h2)
  · exact canon_serveMail (canon_ite (canon_record h2) h2)

theorem canon_signalTurn {s : State} {a : Nat} (hs : s.Canon) : (s.signalTurn a).Canon := by
  unfold State.signalTurn
  refine canon_foldl (canon_takes hs) fun _ _ h1 => ?_
  split
  · split
    · exact canon_foldl h1 fun _ _ h2 => canon_takes h2
    · exact h1
  · exact h1

theorem canon_drainSignals {s : State} {id n : Nat} (hs : s.Canon) : (s.drainSignals id n).Canon := by
  induction n generalizing s with
  | zero => exact hs
  | succ n ih =>
    unfold State.drainSignals
    split
    · exact hs
    · refine canon_ite hs ?_
      split
      · exact canon_endCmd hs
      · extract_lets _ s1 s2
        have h1 : s1.Canon := canon_signalTurn hs
        have h2 : s2.Canon := canon_makeSignal (canon_modWord h1)
        exact canon_ite (canon_modWord h1) (ih (canon_serveMail (canon_modCmd h2)))

theorem canon_completeCmd {s : State} {id : Nat} (hs : s.Canon) : (s.completeCmd id).Canon := by
  unfold State.completeCmd
  split
  · exact hs
  · exact canon_drainSignals (canon_modCmd hs)

theorem canon_publish {s : State} {ls : List (Nat × Nat)} (hs : s.Canon) : (s.publish ls).Canon := by
  unfold State.publish
  refine canon_foldl hs fun _ _ h1 => ?_
  split
  · exact canon_ite h1 (canon_writeBack h1)
  · exact h1

theorem canon_execCommandComplete {cmd : Nat} {s : State} (hs : s.Canon) :
    OutcomeCanon (execCommandComplete cmd s) := by
  unfold execCommandComplete
  split
  · exact hs
  · exact canon_ite (motive := OutcomeCanon) (canon_completeCmd (canon_publish hs)) hs

theorem canon_execSignalDrain {cmd : Nat} {s : State} (hs : s.Canon) : OutcomeCanon (execSignalDrain cmd s) := by
  unfold execSignalDrain
  split
  · exact hs
  · exact canon_drainSignals hs

/-! ### Commands -/

theorem canon_takeMsg {s : State} {u : Submitter} {q : CmdQueue} {m : List Byte} (hs : s.Canon) :
    (s.takeMsg u q m).1.Canon := by
  unfold State.takeMsg
  extract_lets _ _ _ s1
  have h1 : s1.Canon := canon_modQueue (canon_of_eq hs rfl rfl)
  split
  · exact canon_record hs
  · exact canon_ite (canon_promote h1) h1

theorem canon_takeHeld {s : State} {sid q n : Nat} (hs : s.Canon) : (s.takeHeld sid q n).Canon := by
  induction n generalizing s with
  | zero => exact hs
  | succ n ih =>
    unfold State.takeHeld
    split
    · exact hs
    · split
      · exact hs
      · split
        · exact hs
        · extract_lets s1
          have h1 : s1.Canon := canon_modQueue hs
          split
          · exact ih (canon_fst ‹_› (canon_takeMsg h1))
          · exact canon_fst ‹_› (canon_takeMsg h1)

theorem canon_openQueue {s : State} {u : Submitter} {n : Nat} (hs : s.Canon) : (s.openQueue u n).1.Canon := by
  unfold State.openQueue
  split
  · exact hs
  · exact canon_ite_fst (canon_modSub hs) hs

theorem canon_arrive {s : State} {sid : Nat} {m : List Byte} (hs : s.Canon) : (s.arrive sid m).Canon := by
  unfold State.arrive
  split
  · exact hs
  · extract_lets
    split
    · exact canon_record (canon_fst ‹_› (canon_openQueue hs))
    · refine canon_ite (canon_fst ‹_› (canon_openQueue hs)) (canon_ite (canon_modQueue (canon_fst ‹_›
          (canon_openQueue hs))) ?_)
      split
      · exact canon_serveMail (canon_takeHeld (canon_fst ‹_› (canon_takeMsg (canon_fst ‹_› (canon_openQueue hs)))))
      · exact canon_fst ‹_› (canon_takeMsg (canon_fst ‹_› (canon_openQueue hs)))

theorem canon_hold {s : State} {f : Frame} (hs : s.Canon) : (s.hold f).Canon := by
  unfold State.hold
  exact canon_ite (canon_of_eq hs rfl rfl) (canon_of_eq hs rfl rfl)

theorem canon_frame {s : State} {f : Frame} {hit : Bool} (hs : s.Canon) : (s.frame f hit).Canon := by
  unfold State.frame
  exact canon_ite (canon_hold (canon_of_eq hs rfl rfl)) (canon_ite (canon_hold hs) (canon_of_eq hs rfl rfl))

theorem canon_execCommandArrival {sid : Nat} {msg : List Byte} {s : State} (hs : s.Canon) :
    OutcomeCanon (execCommandArrival sid msg s) := by
  unfold execCommandArrival
  exact canon_ite (canon_arrive hs) hs

theorem canon_execUnknownOp {sid : Nat} {msg : List Byte} {s : State} (hs : s.Canon) :
    OutcomeCanon (execUnknownOp sid msg s) := by
  unfold execUnknownOp
  exact canon_ite (canon_arrive hs) hs

theorem canon_execCommandStart {cmd : Nat} {s : State} (hs : s.Canon) : OutcomeCanon (execCommandStart cmd s) := by
  unfold execCommandStart
  split
  · exact hs
  · exact canon_ite (motive := OutcomeCanon) (canon_serveMail (canon_promote (canon_startTurn hs))) (canon_ite
        (motive := OutcomeCanon) (canon_serveMail (canon_startCmd (canon_startTurn hs))) hs)

theorem canon_execLaunch {cmd : Nat} {s : State} (hs : s.Canon) : OutcomeCanon (execLaunch cmd s) := by
  unfold execLaunch
  exact canon_runCmd hs (fun _ => canon_ite hs (canon_addLaunch hs))

theorem canon_clearWords {s : State} {dies : BitVec 4} {first n : Nat} (hs : s.Canon) :
    (s.clearWords dies first n).Canon := by
  unfold State.clearWords
  exact canon_foldl hs fun _ _ h1 => canon_modDie h1 (fun _ => rfl)

theorem canon_failLaunch {s : State} {l : Launch} {status d0 : Nat} (hs : s.Canon) :
    (s.failLaunch l status d0).Canon := by
  unfold State.failLaunch
  exact canon_effectDone (canon_modLaunch hs)

theorem canon_unready {s : State} {cmd : Nat} (hs : s.Canon) : (s.unready cmd).Canon := by
  unfold State.unready
  split
  · exact canon_modGraph hs
  · exact hs

theorem canon_takeIn {s : State} {l : Launch} {h : LaunchHeader} {first : Nat} (hs : s.Canon) :
    (s.takeIn l h first).Canon := by
  unfold State.takeIn
  extract_lets s1 s2 _ s3
  have h1 : s1.Canon := canon_clearWords hs
  have h2 : s2.Canon := canon_foldl h1 fun _ _ h3 => canon_foldl h3 fun _ _ h4 => canon_ite (canon_modSlot
      (canon_takes h4)) h4
  have h3 : s3.Canon := canon_modLaunch h2
  exact canon_offer (canon_modCmd h3)

theorem canon_reserve {s : State} {l : Launch} {h : LaunchHeader} (hs : s.Canon) : (s.reserve l h).Canon := by
  unfold State.reserve
  refine canon_ite (canon_unready (canon_failLaunch hs)) ?_
  split
  · exact hs
  · exact canon_ite (canon_unready (canon_takeIn hs)) hs

theorem canon_admission {s : State} {l : Launch} {first : Bool} (hs : s.Canon) : (s.admission l first).Canon := by
  unfold State.admission
  extract_lets f1
  refine canon_ite (canon_ite (canon_reserve hs) hs) (canon_ite (canon_unready (canon_failLaunch hs)) ?_)
  split
  · exact canon_unready (canon_failLaunch hs)
  · exact Svc.Canon.of_waits ‹_› (canon_svcRead hs)
  · split
    · exact canon_unready (canon_failLaunch (Svc.Canon.of_ok ‹_› (canon_svcRead hs)))
    · unfold f1
      exact canon_ite (canon_reserve (canon_modLaunch (Svc.Canon.of_ok ‹_› (canon_svcRead hs)))) (canon_modLaunch
          (Svc.Canon.of_ok ‹_› (canon_svcRead hs)))

theorem canon_execLaunchAdmission {cmd : Nat} {s : State} (hs : s.Canon) :
    OutcomeCanon (execLaunchAdmission cmd s) := by
  unfold execLaunchAdmission
  split
  · exact canon_admission hs
  · exact hs

theorem canon_flushSub {s : State} {sid : Nat} (hs : s.Canon) : (s.flushSub sid).Canon := by
  unfold State.flushSub
  split
  · exact hs
  · refine canon_foldl hs fun _ _ h1 => ?_
    split
    · exact canon_publish h1
    · exact h1

theorem canon_freeLaunch {s : State} {l : Launch} (hs : s.Canon) : (s.freeLaunch l).Canon := by
  unfold State.freeLaunch
  extract_lets s1 s2
  have h1 : s1.Canon := canon_foldl hs fun _ _ h2 => canon_freeSave h2
  have h2 : s2.Canon := canon_mapDies h1 rfl (fun _ => rfl) rfl
  exact canon_modLaunch h2

theorem canon_execLaunchComplete {launch : Nat} {s : State} (hs : s.Canon) :
    OutcomeCanon (execLaunchComplete launch s) := by
  unfold execLaunchComplete
  split
  · exact hs
  · exact canon_ite (motive := OutcomeCanon) (canon_effectDone (canon_freeLaunch (canon_flushSub (canon_takes hs))))
        hs

theorem canon_endLaunch {s : State} {l : Launch} {status : Nat} (hs : s.Canon) : (s.endLaunch l status).Canon := by
  unfold State.endLaunch
  extract_lets s1 s2
  have h1 : s1.Canon := canon_takes hs
  have h2 : s2.Canon := canon_modLaunch (canon_of_eq h1 rfl rfl)
  refine canon_foldl h2 fun _ _ h3 => ?_
  split
  · exact canon_request (canon_modEns h3)
  · exact canon_modEns h3
  · exact canon_retire h3
  · exact canon_retire h3
  · exact h3

theorem canon_execTlimitExpiry {launch : Nat} {s : State} (hs : s.Canon) :
    OutcomeCanon (execTlimitExpiry launch s) := by
  unfold execTlimitExpiry
  split
  · exact hs
  · split
    · exact canon_ite (motive := OutcomeCanon) (canon_endLaunch hs) hs
    · exact hs

theorem canon_execGraph {cmd : Nat} {s : State} (hs : s.Canon) : OutcomeCanon (execGraph cmd s) := by
  unfold execGraph
  exact canon_runCmd hs (fun _ => canon_ite hs (canon_ite (canon_effectDone hs) (canon_ite hs (canon_startReady
      (canon_of_eq hs rfl rfl)))))

theorem canon_execSignal {cmd : Nat} {s : State} (hs : s.Canon) : OutcomeCanon (execSignal cmd s) := by
  unfold execSignal
  exact canon_runCmd hs (fun _ => canon_effectDone hs)

theorem canon_execQuery {cmd : Nat} {s : State} (hs : s.Canon) : OutcomeCanon (execQuery cmd s) := by
  unfold execQuery
  exact canon_runCmd hs (fun _ => canon_effectDone (canon_record hs))

theorem canon_cancelLaunch {s : State} {l : Launch} (hs : s.Canon) : (s.cancelLaunch l).Canon := by
  unfold State.cancelLaunch
  exact canon_ite (canon_endLaunch hs) (canon_unready (canon_failLaunch hs))

theorem canon_cancelGraph {s : State} {g : Command} {r : GraphRun} (hs : s.Canon) : (s.cancelGraph g r).Canon := by
  unfold State.cancelGraph
  extract_lets s1
  have h1 : s1.Canon := by
    unfold s1
    refine canon_foldl hs fun _ _ h2 => ?_
    split
    · exact canon_cancelLaunch h2
    · exact h2
  refine canon_foldl h1 fun _ _ h2 => canon_ite h2 ?_
  split
  · exact canon_startNode h2
  · exact h2

theorem canon_cancelCmd {s : State} {d : Command} (hs : s.Canon) : OptionCanon (s.cancelCmd d) := by
  unfold State.cancelCmd
  split
  · exact canon_completeCmd (canon_effectDone (canon_leaveQueue hs))
  · exact canon_completeCmd (canon_effectDone (canon_leaveQueue hs))
  · exact canon_none
  · exact hs
  · refine canon_ite (motive := OptionCanon) canon_none ?_
    split
    · exact canon_cancelGraph hs
    · exact canon_ite (canon_cancelLaunch hs) hs
    · exact canon_ite (canon_completeCmd (canon_effectDone hs)) hs

theorem canon_execCancel {cmd : Nat} {s : State} (hs : s.Canon) : OutcomeCanon (execCancel cmd s) := by
  unfold execCancel
  refine canon_runCmd hs (fun _ => ?_)
  split
  · exact canon_effectDone (canon_some ‹_› (canon_bind fun _ => canon_cancelCmd hs))
  · exact canon_effectDone hs

/-! ### Table commands -/

theorem canon_execNodes {cmd : Nat} {s : State} (hs : s.Canon) : OutcomeCanon (execNodes cmd s) := by
  unfold execNodes
  refine canon_runCmd hs (fun _ => canon_ite hs ?_)
  split
  · exact canon_effectDone hs
  · exact Svc.Canon.of_waits ‹_› (canon_svcRead hs)
  · split
    · exact canon_effectDone (Svc.Canon.of_ok ‹_› (canon_svcRead hs))
    · extract_lets
      rename_i e1 _ e2 _
      exact canon_effectDone (canon_of_eq (Svc.Canon.of_ok e1 (canon_svcRead hs)) rfl rfl)

theorem canon_execNodefree {cmd : Nat} {s : State} (hs : s.Canon) : OutcomeCanon (execNodefree cmd s) := by
  unfold execNodefree
  exact canon_runCmd hs (fun _ => canon_ite hs (canon_effectDone (canon_of_eq hs rfl rfl)))

theorem canon_execMap {cmd : Nat} {s : State} (hs : s.Canon) : OutcomeCanon (execMap cmd s) := by
  unfold execMap
  exact canon_runCmd hs (fun _ => canon_ite (canon_effectDone hs) (canon_effectDone (canon_modSub hs)))

theorem canon_execUnmap {cmd : Nat} {s : State} (hs : s.Canon) : OutcomeCanon (execUnmap cmd s) := by
  unfold execUnmap
  refine canon_runCmd hs (fun _ => ?_)
  split
  · exact canon_effectDone hs
  · exact canon_ite hs (canon_effectDone (canon_modSub (canon_foldl hs fun _ _ h1 => canon_dropPage h1)))

theorem canon_execProtect {cmd : Nat} {s : State} (hs : s.Canon) : OutcomeCanon (execProtect cmd s) := by
  unfold execProtect
  refine canon_runCmd hs (fun _ => ?_)
  extract_lets
  split
  · exact canon_effectDone hs
  · exact canon_ite (canon_effectDone hs) (canon_ite hs (canon_effectDone (canon_modSub (canon_foldl hs
        fun _ _ h1 => canon_ite h1 (canon_dropPage h1)))))

theorem canon_execRingallot {cmd : Nat} {s : State} (hs : s.Canon) : OutcomeCanon (execRingallot cmd s) := by
  unfold execRingallot
  exact canon_runCmd hs (fun _ => canon_ite (canon_effectDone hs) (canon_effectDone (canon_mapDies hs rfl
      (fun _ => rfl) rfl)))

theorem canon_execRingfree {cmd : Nat} {s : State} (hs : s.Canon) : OutcomeCanon (execRingfree cmd s) := by
  unfold execRingfree
  exact canon_runCmd hs (fun _ => canon_ite hs (canon_effectDone (canon_of_eq hs rfl rfl)))

theorem canon_modGroup {s : State} {n : Nat} {f : Machine.Group → Machine.Group} (hs : s.Canon) :
    (s.modGroup n f).Canon := by
  unfold State.modGroup
  exact canon_of_eq hs rfl rfl

theorem canon_groupDone {s : State} {g : Machine.Group} (hs : s.Canon) : (s.groupDone g).Canon := by
  unfold State.groupDone
  exact canon_foldl hs fun _ _ h1 => canon_effectDone h1

theorem canon_activate {s : State} {g : Machine.Group} (hs : s.Canon) : (s.activate g).Canon := by
  unfold State.activate
  exact canon_groupDone (canon_modGroup hs)

theorem canon_tryActivate {s : State} {n : Nat} (hs : s.Canon) : (s.tryActivate n).Canon := by
  unfold State.tryActivate
  split
  · exact canon_ite (canon_activate hs) hs
  · exact hs

theorem canon_execGroup {cmd : Nat} {s : State} (hs : s.Canon) : OutcomeCanon (execGroup cmd s) := by
  unfold execGroup
  refine canon_runCmd hs (fun _ => canon_ite hs ?_)
  split
  · exact canon_effectDone hs
  · split
    · exact canon_effectDone hs
    · exact Svc.Canon.of_waits ‹_› (canon_svcRead hs)
    · rename_i e1 _ _ _ _ e2
      exact canon_ite (canon_effectDone (Svc.Canon.of_ok e2 (canon_svcRead hs))) (canon_tryActivate (canon_of_eq
          (Svc.Canon.of_ok e2 (canon_svcRead hs)) rfl rfl))

theorem canon_execGroupFormTimeout {grp : Nat} {s : State} (hs : s.Canon) :
    OutcomeCanon (execGroupFormTimeout grp s) := by
  unfold execGroupFormTimeout
  split
  · exact canon_ite (motive := OutcomeCanon) (canon_activate hs) hs
  · exact hs

theorem canon_execMemberConfirm {grp slot : Nat} {s : State} (hs : s.Canon) :
    OutcomeCanon (execMemberConfirm grp slot s) := by
  unfold execMemberConfirm
  split
  · exact canon_ite (motive := OutcomeCanon) (canon_tryActivate (canon_modGroup hs)) hs
  · exact hs

theorem canon_execGroupfree {cmd : Nat} {s : State} (hs : s.Canon) : OutcomeCanon (execGroupfree cmd s) := by
  unfold execGroupfree
  refine canon_runCmd hs (fun _ => ?_)
  extract_lets
  split
  · exact canon_effectDone hs
  · exact canon_ite (canon_effectDone hs) (canon_ite hs (canon_effectDone (canon_of_eq hs rfl rfl)))

theorem canon_lose {s : State} {n slot : Nat} (hs : s.Canon) : (s.lose n slot).Canon := by
  unfold State.lose
  exact canon_modGroup (canon_takes hs)

theorem canon_execMemberSessionFailure {grp slot : Nat} {s : State} (hs : s.Canon) :
    OutcomeCanon (execMemberSessionFailure grp slot s) := by
  unfold execMemberSessionFailure
  exact canon_modGroup hs

theorem canon_execMemberSessionRestored {grp slot : Nat} {s : State} (hs : s.Canon) :
    OutcomeCanon (execMemberSessionRestored grp slot s) := by
  unfold execMemberSessionRestored
  exact canon_modGroup hs

theorem canon_execMemberSessionTimeout {grp slot : Nat} {s : State} (hs : s.Canon) :
    OutcomeCanon (execMemberSessionTimeout grp slot s) := by
  unfold execMemberSessionTimeout
  split
  · exact hs
  · split
    · split
      · exact canon_ite (motive := OutcomeCanon) (canon_lose hs) hs
      · exact hs
    · exact hs

theorem canon_endColls {s : State} {grp : Nat} (hs : s.Canon) : (s.endColls grp).Canon := by
  unfold State.endColls
  exact canon_foldl hs fun _ _ h1 => canon_foldl h1 fun _ _ h2 => canon_tryFinish (canon_endWork h2)

theorem canon_notice {s : State} {grp fromSlot slot : Nat} (hs : s.Canon) : (s.notice grp fromSlot slot).Canon := by
  unfold State.notice
  split
  · exact hs
  · split
    · extract_lets _ s1 s2
      have h1 : s1.Canon := canon_endColls (canon_modGroup hs)
      have h2 : s2.Canon := canon_lose hs
      exact canon_ite hs (canon_ite (canon_ite (canon_groupDone h1) h1) (canon_ite (canon_ite
          (canon_tryActivate h2) h2) hs))
    · exact hs

theorem canon_execDropNotice {grp fromSlot slot : Nat} {s : State} (hs : s.Canon) :
    OutcomeCanon (execDropNotice grp fromSlot slot s) := by
  unfold execDropNotice
  exact canon_ite (motive := OutcomeCanon) (canon_notice hs) (canon_frame hs)

/-! ### Coherence -/

theorem canon_answered {s : State} {d : Nat} {r : CxlWait} (hs : s.Canon) : (s.answered d r).Canon := by
  unfold State.answered
  exact canon_modDie hs (fun _ => rfl)

theorem canon_serveAsker {s : State} {w : Asker} (hs : s.Canon) : (s.serveAsker w).Canon := by
  unfold State.serveAsker
  split
  · split
    · exact canon_setAcc (canon_fst ‹_› (canon_makeWith hs))
    · exact canon_fst ‹_› (canon_makeWith hs)
  · exact hs

theorem canon_passOn {s : State} {d : Nat} {r : CxlWait} (hs : s.Canon) : (s.passOn d r).Canon := by
  unfold State.passOn
  refine canon_ite hs ?_
  extract_lets s1
  have h1 : s1.Canon := canon_foldl hs fun _ _ h2 => canon_serveAsker h2
  split
  · exact canon_ite (canon_leave h1) h1
  · exact h1

theorem canon_execGntS {die : Nat} {m : Tagged} {data : List (Nat × Byte)} {s : State} (hs : s.Canon) :
    OutcomeCanon (execGntS die m data s) := by
  unfold execGntS
  split
  · exact hs
  · extract_lets _ s1
    have h1 : s1.Canon := canon_countDie (canon_putLine (canon_answered hs))
    exact canon_passOn (canon_ite h1 (canon_askCxl h1))

theorem canon_execGntE {die : Nat} {m : Tagged} {data : List (Nat × Byte)} {s : State} (hs : s.Canon) :
    OutcomeCanon (execGntE die m data s) := by
  unfold execGntE
  split
  · exact hs
  · extract_lets
    exact canon_ite (motive := OutcomeCanon) hs (canon_passOn (canon_countDie (canon_putLine (canon_answered hs))))

theorem canon_execGntNC {die : Nat} {m : Tagged} {data : List (Nat × Byte)} {s : State} (hs : s.Canon) :
    OutcomeCanon (execGntNC die m data s) := by
  unfold execGntNC
  split
  · exact hs
  · extract_lets _ _ s1 s2 _
    have h1 : s1.Canon := canon_countDie (canon_countDie (canon_putLine (canon_answered (canon_takes hs))))
    have h2 : s2.Canon := canon_serveAsker h1
    split
    · exact canon_ite h2 (canon_dropOnce h2)
    · exact canon_ite h2 (canon_dropOnce h2)
    · exact canon_ite h2 (canon_dropOnce h2)
    · exact canon_ite h2 (canon_dropOnce h2)
    · exact canon_dropOnce h2

theorem canon_execCmp {die : Nat} {m : Tagged} {s : State} (hs : s.Canon) : OutcomeCanon (execCmp die m s) := by
  unfold execCmp
  split
  · exact hs
  · split
    · exact canon_ite (motive := OutcomeCanon) (canon_passOn (canon_putLine (canon_answered hs))) hs
    · exact hs
    · exact canon_answered hs

theorem canon_respond {s : State} {d : Nat} {q : Snoop} {m : CxlMsg} (hs : s.Canon) : (s.respond d q m).Canon := by
  unfold State.respond
  exact canon_sendCxl hs

theorem canon_answerDat {s : State} {d : Nat} {q : Snoop} (hs : s.Canon) : (s.answerDat d q).Canon := by
  unfold State.answerDat
  split
  · exact canon_respond hs
  · split
    · exact canon_respond hs
    · exact canon_respond hs
    · exact canon_respond (canon_putLine hs)
    · exact canon_sendCxl (canon_putLine hs)
    · exact canon_sendCxl (canon_putLine hs)

theorem canon_invalidate {s : State} {d ln : Nat} (hs : s.Canon) : (s.invalidate d ln).Canon := by
  unfold State.invalidate
  split
  · exact hs
  · exact canon_ite (canon_delLine hs) (canon_putLine hs)

theorem canon_writeOwned {s : State} {d ln : Nat} (hs : s.Canon) : (s.writeOwned d ln).Canon := by
  unfold State.writeOwned
  split
  · exact hs
  · exact canon_sendWb (canon_countDie (canon_pool hs rfl fun h => poolWith_wf h))

theorem canon_answerInv {s : State} {d : Nat} {q : Snoop} (hs : s.Canon) : (s.answerInv d q).Canon := by
  unfold State.answerInv
  split
  · exact canon_respond hs
  · split
    · exact canon_respond (canon_invalidate (canon_writeOwned hs))
    · exact canon_respond (canon_invalidate (canon_writeOwned hs))
    · exact canon_respond (canon_invalidate hs)

theorem canon_answer_ {s : State} {d : Nat} {q : Snoop} (hs : s.Canon) : (s.answer_ d q).Canon := by
  unfold State.answer_
  exact canon_ite (canon_answerInv hs) (canon_answerDat hs)

theorem canon_snoop {s : State} {d : Nat} {q : Snoop} (hs : s.Canon) : (s.snoop d q).Canon := by
  unfold State.snoop
  extract_lets s1
  have h1 : s1.Canon := canon_countDie hs
  split
  · exact canon_ite (canon_answer_ h1) (canon_modDie h1 (fun _ => rfl))
  · exact canon_answer_ h1

theorem canon_sweepSnoops {s : State} (hs : s.Canon) : (s.sweepSnoops).Canon := by
  unfold State.sweepSnoops
  exact canon_foldl hs fun _ _ h1 => canon_ite h1 (canon_foldl (canon_modDie h1 (fun _ => rfl))
      fun _ _ h2 => canon_answer_ h2)

theorem canon_execSnpDat {die : Nat} {m : Tagged} {s : State} (hs : s.Canon) : OutcomeCanon (execSnpDat die m s) := by
  unfold execSnpDat
  exact canon_snoop hs

theorem canon_execSnpInv {die : Nat} {m : Tagged} {s : State} (hs : s.Canon) : OutcomeCanon (execSnpInv die m s) := by
  unfold execSnpInv
  exact canon_snoop hs

theorem canon_execHorizonPass {die line : Nat} {s : State} (hs : s.Canon) :
    OutcomeCanon (execHorizonPass die line s) := by
  unfold execHorizonPass
  split
  · exact hs
  · refine canon_ite (motive := OutcomeCanon) hs ?_
    split
    · exact canon_ite (motive := OutcomeCanon) hs (canon_leave hs)
    · extract_lets s1
      have h1 : s1.Canon := canon_modDie hs (fun _ => rfl)
      exact canon_foldl h1 fun _ _ h2 => canon_answer_ h2

theorem canon_failFences {s : State} {d ln : Nat} {stands : Bool} {ws : List Asker} (hs : s.Canon) :
    (s.failFences d ln stands ws).Canon := by
  unfold State.failFences
  refine canon_foldl hs fun _ _ h1 => canon_foldl h1 fun _ _ h2 => ?_
  split
  · split
    · exact canon_faultWord (canon_modPath h2)
    · exact h2
  · exact h2

theorem canon_failAsk {s : State} {w : Asker} (hs : s.Canon) : (s.failAsk w).Canon := by
  unfold State.failAsk
  split
  · exact hs
  · extract_lets
    split
    · exact canon_setAcc hs
    · exact canon_setAcc (canon_deliver hs)
    · exact canon_setAcc (canon_deliver hs)
    · exact canon_setAcc (canon_logFound hs)
    · exact hs

theorem canon_failLine {s : State} {d ln : Nat} (hs : s.Canon) : (s.failLine d ln).Canon := by
  unfold State.failLine
  split
  · exact hs
  · extract_lets s1
    have h1 : s1.Canon := canon_failFences hs
    exact canon_ite (canon_delLine h1) (canon_sendOpen (canon_delLine (canon_writeBack h1)))

theorem canon_failDue {s : State} (hs : s.Canon) : (s.failDue).Canon := by
  unfold State.failDue
  exact canon_foldl hs fun _ _ h1 => canon_ite h1 (canon_modDie (canon_foldl h1 fun _ _ h2 => canon_failLine h2)
      (fun _ => rfl))

theorem canon_failPort {s : State} {d port : Nat} (hs : s.Canon) : (s.failPort d port).Canon := by
  unfold State.failPort
  exact canon_ite hs (canon_failDue (canon_modDie (canon_foldl (canon_foldl (canon_takes hs)
      fun _ _ h1 => canon_failFences h1) fun _ _ h1 => canon_foldl h1 fun _ _ h2 => canon_failAsk h2) (fun _ => rfl)))

theorem canon_execSwitchLinkDown {die port : Nat} {s : State} (hs : s.Canon) :
    OutcomeCanon (execSwitchLinkDown die port s) := by
  unfold execSwitchLinkDown
  exact canon_failPort hs

theorem canon_execSwitchRequestTimeout {die line : Nat} {s : State} (hs : s.Canon) :
    OutcomeCanon (execSwitchRequestTimeout die line s) := by
  unfold execSwitchRequestTimeout
  refine canon_ite (motive := OutcomeCanon) ?_ hs
  split
  · exact canon_failPort hs
  · exact hs

theorem canon_execCoherenceRecoveryEnd {die : Nat} {s : State} (hs : s.Canon) :
    OutcomeCanon (execCoherenceRecoveryEnd die s) := by
  unfold execCoherenceRecoveryEnd
  exact canon_ite (motive := OutcomeCanon) hs (canon_ite (motive := OutcomeCanon) hs (canon_modDie hs (fun _ => rfl)))

/-! ### System commands -/

theorem canon_execIdent {cmd : Nat} {s : State} (hs : s.Canon) : OutcomeCanon (execIdent cmd s) := by
  unfold execIdent
  exact canon_runCmd hs (fun _ => canon_answer hs)

theorem canon_execAttest {cmd : Nat} {s : State} (hs : s.Canon) : OutcomeCanon (execAttest cmd s) := by
  unfold execAttest
  exact canon_runCmd hs (fun _ => canon_answer (canon_takes hs))

theorem canon_execHandler {cmd : Nat} {s : State} (hs : s.Canon) : OutcomeCanon (execHandler cmd s) := by
  unfold execHandler
  exact canon_runCmd hs (fun _ => canon_effectDone (canon_modSub hs))

theorem canon_execDepgrant {cmd : Nat} {s : State} (hs : s.Canon) : OutcomeCanon (execDepgrant cmd s) := by
  unfold execDepgrant
  exact canon_runCmd hs (fun _ => canon_ite (canon_effectDone hs) (canon_serveMail (canon_effectDone (canon_foldl hs
      fun _ _ h1 => canon_modWord (canon_modDie h1 (fun _ => rfl))))))

theorem canon_execTelem {cmd : Nat} {s : State} (hs : s.Canon) : OutcomeCanon (execTelem cmd s) := by
  unfold execTelem
  exact canon_runCmd hs (fun _ => canon_answer hs)

theorem canon_releaseItem {s : State} {cls idx : Nat} (hs : s.Canon) : (s.releaseItem cls idx).Canon := by
  unfold State.releaseItem
  split
  · exact canon_of_eq hs rfl rfl
  · extract_lets s1
    have h1 : s1.Canon := canon_retire hs
    exact canon_of_eq h1 rfl rfl
  · exact canon_modDie hs (fun _ => rfl)
  · exact hs

theorem canon_execReadback {cmd : Nat} {s : State} (hs : s.Canon) : OutcomeCanon (execReadback cmd s) := by
  unfold execReadback
  exact canon_runCmd hs (fun _ => canon_ite (canon_effectDone hs) (canon_ite (canon_releaseItem (canon_answer hs))
      (canon_answer hs)))

theorem canon_execFwstage {cmd : Nat} {s : State} (hs : s.Canon) : OutcomeCanon (execFwstage cmd s) := by
  unfold execFwstage
  refine canon_runCmd hs (fun _ => canon_ite (canon_effectDone hs) ?_)
  split
  · exact canon_effectDone hs
  · exact Svc.Canon.of_waits ‹_› (canon_svcRead hs)
  · extract_lets
    rename_i e1 _ _ _
    exact canon_ite (canon_effectDone (Svc.Canon.of_ok e1 (canon_svcRead hs))) (canon_effectDone (canon_of_eq
        (Svc.Canon.of_ok e1 (canon_svcRead hs)) rfl rfl))

theorem canon_execFwcommit {cmd : Nat} {s : State} (hs : s.Canon) : OutcomeCanon (execFwcommit cmd s) := by
  unfold execFwcommit
  exact canon_runCmd hs (fun _ => canon_ite (canon_effectDone hs) (canon_ite hs (canon_of_eq hs rfl rfl)))

theorem canon_execFwcommitCommitPoint {s : State} (hs : s.Canon) : OutcomeCanon (execFwcommitCommitPoint s) := by
  unfold execFwcommitCommitPoint
  split
  · exact canon_serveMail (canon_effectDone (canon_of_eq (canon_takes hs) rfl rfl))
  · exact hs

theorem canon_execPower {cmd : Nat} {s : State} (hs : s.Canon) : OutcomeCanon (execPower cmd s) := by
  unfold execPower
  exact canon_runCmd hs (fun _ => canon_effectDone (canon_of_eq hs rfl rfl))

theorem canon_execWakefilt {cmd : Nat} {s : State} (hs : s.Canon) : OutcomeCanon (execWakefilt cmd s) := by
  unfold execWakefilt
  exact canon_runCmd hs (fun _ => canon_effectDone (canon_of_eq hs rfl rfl))

theorem canon_execSetparam {cmd : Nat} {s : State} (hs : s.Canon) : OutcomeCanon (execSetparam cmd s) := by
  have h : ((List.range 4).foldl (fun (s : State) d => s.takes (.lease d) 1) s).Canon :=
    canon_foldl hs fun _ _ h => canon_takes h
  refine canon_runCmd hs fun c => canon_effectDone ?_
  have hd : ({ s with dies := s.dies.map fun D => { D with lambda := fld c.msg 0x84 2 } } : State).Canon :=
    canon_mapDies hs rfl (fun _ => rfl) rfl
  exact canon_pool hd rfl fun _ => h.2.2

theorem canon_execMode {cmd : Nat} {s : State} (hs : s.Canon) : OutcomeCanon (execMode cmd s) := by
  unfold execMode
  exact canon_runCmd hs (fun _ => canon_effectDone (canon_of_eq hs rfl rfl))

theorem canon_execReset {cmd : Nat} {s : State} (hs : s.Canon) : OutcomeCanon (execReset cmd s) := by
  unfold execReset
  exact canon_runCmd hs (fun _ => canon_effectDone hs)

theorem canon_loadObject {s : State} {sid : Nat} {b : List Byte} {va pa : Nat} (hs : s.Canon) :
    (s.loadObject sid b va pa).Canon := by
  unfold State.loadObject
  exact canon_modSub (canon_pool hs rfl fun h =>
    foldl_write_wf (foldl_write_wf (Memory.wf_write _ _ _ h)))

theorem canon_execLoad {cmd : Nat} {s : State} (hs : s.Canon) : OutcomeCanon (execLoad cmd s) := by
  refine canon_runCmd hs fun _ => ?_
  extract_lets
  split
  · exact canon_effectDone hs
  · exact Svc.Canon.of_waits ‹_› (canon_svcRead hs)
  · split
    · exact canon_effectDone (Svc.Canon.of_ok ‹_› (canon_svcRead hs))
    · extract_lets
      refine canon_ite (canon_effectDone (Svc.Canon.of_ok ‹_› (canon_svcRead hs))) (canon_ite (canon_effectDone
          (Svc.Canon.of_ok ‹_› (canon_svcRead hs))) (canon_ite (canon_effectDone (Svc.Canon.of_ok ‹_› (canon_svcRead
          hs))) ?_))
      split
      · exact canon_effectDone (canon_loadObject (Svc.Canon.of_ok ‹_› (canon_svcWrite (Svc.Canon.of_ok ‹_›
            (canon_svcRead hs)))))
      · exact Svc.Canon.of_waits ‹_› (canon_svcWrite (Svc.Canon.of_ok ‹_› (canon_svcRead hs)))
      · exact canon_effectDone (Svc.Canon.of_ok ‹_› (canon_svcRead hs))

theorem canon_execSubmitterAdmission {sid : Nat} {addr : DWord} {s : State} (hs : s.Canon) :
    OutcomeCanon (execSubmitterAdmission sid addr s) := by
  unfold execSubmitterAdmission
  split
  · exact canon_of_eq hs rfl rfl
  · exact hs

theorem canon_execSubmitterPoolWrite {pa : Nat} {bytes : List Byte} {s : State} (hs : s.Canon) :
    OutcomeCanon (execSubmitterPoolWrite pa bytes s) := by
  have hp : ({ s with pool := Memory.write s.pool pa bytes } : State).Canon :=
    canon_pool hs rfl fun h => Memory.wf_write _ _ _ h
  unfold execSubmitterPoolWrite
  exact canon_ite (motive := OutcomeCanon) hs (canon_mapDies hp rfl (fun _ => rfl) rfl)

/-! ### Device events -/

theorem canon_ckptDesc {s : State} {c : Command} (hs : s.Canon) : (s.ckptDesc c).Canon := by
  unfold State.ckptDesc
  extract_lets
  split
  · exact trivial
  · exact Svc.Canon.of_waits ‹_› (canon_svcRead hs)
  · refine canon_ite (motive := CkptDesc.Canon) trivial ?_
    split
    · exact trivial
    · exact Svc.Canon.of_waits ‹_› (canon_svcRead (Svc.Canon.of_ok ‹_› (canon_svcRead hs)))
    · split
      · exact Svc.Canon.of_ok ‹_› (canon_svcRead (Svc.Canon.of_ok ‹_› (canon_svcRead hs)))
      · exact trivial

theorem canon_ckptOut {s : State} {c : Command} {maint : Bool} {off : Nat} {rs : List CkptRange}
    {ls : List (Nat × Nat)} (hs : s.Canon) : (s.ckptOut c maint off rs ls).Canon := by
  induction rs generalizing s off ls with
  | nil => exact canon_effectDone hs
  | cons r rs ih =>
    unfold State.ckptOut
    split
    · exact canon_effectDone hs
    · exact Svc.Canon.of_waits ‹_› (canon_svcRead hs)
    · extract_lets
      refine canon_ite (canon_effectDone (Svc.Canon.of_ok ‹_› (canon_svcRead hs))) ?_
      split
      · exact ih (Svc.Canon.of_ok ‹_› (canon_svcWrite (Svc.Canon.of_ok ‹_› (canon_svcRead hs))))
      · exact Svc.Canon.of_waits ‹_› (canon_svcWrite (Svc.Canon.of_ok ‹_› (canon_svcRead hs)))
      · exact canon_effectDone (Svc.Canon.of_ok ‹_› (canon_svcRead hs))

theorem canon_execCkpt {cmd : Nat} {s : State} (hs : s.Canon) : OutcomeCanon (execCkpt cmd s) := by
  unfold execCkpt
  refine canon_runCmd hs (fun _ => ?_)
  split
  · exact canon_effectDone hs
  · exact CkptDesc.Canon.of_waits ‹_› (canon_ckptDesc hs)
  · exact canon_ckptOut (CkptDesc.Canon.of_ok ‹_› (canon_ckptDesc hs))

theorem canon_ckptIn {s : State} {c : Command} {off : Nat} {rs : List CkptRange} {ls : List (Nat × Nat)}
    (hs : s.Canon) : (s.ckptIn c off rs ls).Canon := by
  induction rs generalizing s off ls with
  | nil => exact canon_effectDone hs
  | cons r rs ih =>
    unfold State.ckptIn
    extract_lets
    split
    · exact canon_effectDone hs
    · exact Svc.Canon.of_waits ‹_› (canon_svcRead hs)
    · split
      · exact canon_effectDone (Svc.Canon.of_ok ‹_› (canon_svcRead hs))
      · exact Svc.Canon.of_waits ‹_› (canon_svcRead (Svc.Canon.of_ok ‹_› (canon_svcRead hs)))
      · split
        · exact canon_effectDone (Svc.Canon.of_ok ‹_› (canon_svcRead (Svc.Canon.of_ok ‹_› (canon_svcRead hs))))
        · refine canon_ite (canon_effectDone (Svc.Canon.of_ok ‹_› (canon_svcRead (Svc.Canon.of_ok ‹_› (canon_svcRead
              hs))))) ?_
          split
          · exact ih (Svc.Canon.of_ok ‹_› (canon_svcWrite (Svc.Canon.of_ok ‹_› (canon_svcRead (Svc.Canon.of_ok ‹_›
                (canon_svcRead hs))))))
          · exact Svc.Canon.of_waits ‹_› (canon_svcWrite (Svc.Canon.of_ok ‹_› (canon_svcRead (Svc.Canon.of_ok ‹_›
                (canon_svcRead hs)))))
          · exact canon_effectDone (Svc.Canon.of_ok ‹_› (canon_svcRead (Svc.Canon.of_ok ‹_› (canon_svcRead hs))))

theorem canon_execCkptload {cmd : Nat} {s : State} (hs : s.Canon) : OutcomeCanon (execCkptload cmd s) := by
  unfold execCkptload
  refine canon_runCmd hs (fun _ => ?_)
  split
  · exact canon_effectDone hs
  · exact CkptDesc.Canon.of_waits ‹_› (canon_ckptDesc hs)
  · exact canon_ckptIn (CkptDesc.Canon.of_ok ‹_› (canon_ckptDesc hs))

theorem canon_execDeviceReset {loader service config : BootImage} {s : State} (hs : s.Canon) :
    OutcomeCanon (execDeviceReset loader service config s) :=
  canon_pool canon_reset rfl fun _ => hs.2.2

theorem canon_freeze {s : State} {thermal : Bool} (hs : s.Canon) : (s.freeze thermal).Canon := by
  unfold State.freeze
  exact canon_of_eq hs rfl rfl

theorem canon_execWatchdogExpiry {ctl : Nat} {s : State} (hs : s.Canon) :
    OutcomeCanon (execWatchdogExpiry ctl s) := by
  unfold execWatchdogExpiry
  exact canon_ite (canon_freeze hs) hs

theorem canon_execThermalWithhold {die : Nat} {s : State} (hs : s.Canon) :
    OutcomeCanon (execThermalWithhold die s) := by
  unfold execThermalWithhold
  exact canon_modDie hs (fun _ => rfl)

theorem canon_execThermalRecover {die : Nat} {s : State} (hs : s.Canon) :
    OutcomeCanon (execThermalRecover die s) := by
  unfold execThermalRecover
  exact canon_modDie hs (fun _ => rfl)

theorem canon_execThermalShutdown {die : Nat} {s : State} (hs : s.Canon) :
    OutcomeCanon (execThermalShutdown die s) := by
  unfold execThermalShutdown
  exact canon_ite (canon_freeze hs) hs

theorem canon_execPowerWithhold {s : State} (hs : s.Canon) : OutcomeCanon (execPowerWithhold s) := by
  unfold execPowerWithhold
  exact canon_of_eq hs rfl rfl

theorem canon_execIdleGate {s : State} (hs : s.Canon) : OutcomeCanon (execIdleGate s) := by
  unfold execIdleGate
  exact canon_ite (motive := OutcomeCanon) (canon_of_eq hs rfl rfl) hs

theorem canon_execWakeFrame {src : DWord} {sid : Nat} {msg : List Byte} {s : State} (hs : s.Canon) :
    OutcomeCanon (execWakeFrame src sid msg s) := by
  unfold execWakeFrame
  exact canon_ite (motive := OutcomeCanon) hs (canon_frame hs)

theorem canon_parse {s : State} {f : Frame} (hs : s.Canon) : (s.parse f).Canon := by
  unfold State.parse
  split
  · exact canon_arrive hs
  · exact canon_notice hs

theorem canon_execWakeReplay {s : State} (hs : s.Canon) : OutcomeCanon (execWakeReplay s) := by
  unfold execWakeReplay
  exact canon_ite (motive := OutcomeCanon) hs (canon_foldl (canon_of_eq hs rfl rfl) fun _ _ h1 => canon_parse h1)

theorem canon_execInternalWake {ctl : Nat} {s : State} (hs : s.Canon) : OutcomeCanon (execInternalWake ctl s) := by
  show (if _ then _ else _ : State).Canon
  split
  · exact canon_of_eq hs rfl rfl
  · exact hs

theorem canon_replaceRequest {s : State} {d : Nat} {before : Bool} (hs : s.Canon) :
    (s.replaceRequest d before).Canon := by
  unfold State.replaceRequest
  exact canon_ite hs (canon_foldl hs fun _ _ h1 => canon_send h1)

theorem retire_skew (D : Die) (c : Nat) : (D.retire c).skew = D.skew := by
  unfold Die.retire
  dsimp only
  split
  · rfl
  · rfl

theorem canon_execCoreRetirement {die phys : Nat} {s : State} (hs : s.Canon) :
    OutcomeCanon (execCoreRetirement die phys s) := by
  have h1 : (s.takes (.retire die) phys).Canon := canon_takes hs
  unfold execCoreRetirement
  dsimp only
  split
  · exact hs
  · split
    · exact canon_ite (motive := OutcomeCanon)
        (canon_replaceRequest (canon_modDie h1 fun D => retire_skew D _)) hs
    · exact canon_ite (motive := OutcomeCanon)
        (canon_foldl (canon_modDie h1 fun _ => rfl) fun _ _ h => canon_request h) hs

/-! ### Dispatch -/

theorem canon_exec {i : Instr} {s : State} (hs : s.Canon) : OutcomeCanon (exec i s) := by
  unfold exec
  split
  · exact canon_execBra hs
  · exact canon_execBrc hs
  · exact canon_execBrd hs
  · exact canon_execJmpi hs
  · exact canon_execCall hs
  · exact canon_execCalli hs
  · exact canon_execRet hs
  · exact canon_execRegang hs
  · exact canon_execExit hs
  · exact canon_execIpf hs
  · exact canon_execYield hs
  · exact canon_execNop hs
  · exact canon_execMaskset hs
  · exact canon_execMaskget hs
  · exact canon_execBar hs
  · exact canon_execBararv hs
  · exact canon_execBarwt hs
  · exact canon_execXacq hs
  · exact canon_execExtendedSetGrant hs
  · exact canon_execXrel hs
  · exact canon_execIdf hs
  · exact canon_execMovs hs
  · exact canon_execMovsw hs
  · exact canon_execTrap hs
  · exact canon_execBkpt hs
  · exact canon_execTret hs
  · exact canon_execFwcall hs
  · exact canon_execFwcallAnswer hs
  · exact canon_execSavemark hs
  · exact canon_execRxdone hs
  · exact canon_execEntrydone hs
  · exact canon_execHalt hs
  · exact canon_execSleep hs
  · exact canon_execSleepExpiry hs
  · exact canon_execStallCountExpiry hs
  · exact canon_execPathAged hs
  · exact canon_execIadd hs
  · exact canon_execIsub hs
  · exact canon_execImul hs
  · exact canon_execImulhi hs
  · exact canon_execImad hs
  · exact canon_execImin hs
  · exact canon_execImax hs
  · exact canon_execIabs hs
  · exact canon_execIneg hs
  · exact canon_execIsad hs
  · exact canon_execIaddc hs
  · exact canon_execIsubb hs
  · exact canon_execAnd hs
  · exact canon_execOr hs
  · exact canon_execXor hs
  · exact canon_execAndn hs
  · exact canon_execNot hs
  · exact canon_execShl hs
  · exact canon_execShrl hs
  · exact canon_execShra hs
  · exact canon_execRotl hs
  · exact canon_execBfx hs
  · exact canon_execBfi hs
  · exact canon_execPopc hs
  · exact canon_execClz hs
  · exact canon_execCtz hs
  · exact canon_execBrev hs
  · exact canon_execPrmb hs
  · exact canon_execIcmp hs
  · exact canon_execSel hs
  · exact canon_execLea hs
  · exact canon_execAddw hs
  · exact canon_execSubw hs
  · exact canon_execShlw hs
  · exact canon_execMulw hs
  · exact canon_execLeaw hs
  · exact canon_execDot4 hs
  · exact canon_execMov hs
  · exact canon_execMovi hs
  · exact canon_execMoviw hs
  · exact canon_execRhash hs
  · exact canon_execFadd hs
  · exact canon_execFsub hs
  · exact canon_execFmul hs
  · exact canon_execFfma hs
  · exact canon_execFmin hs
  · exact canon_execFmax hs
  · exact canon_execFminn hs
  · exact canon_execFmaxn hs
  · exact canon_execFabs hs
  · exact canon_execFneg hs
  · exact canon_execFcmp hs
  · exact canon_execFclass hs
  · exact canon_execFrnd hs
  · exact canon_execFscale hs
  · exact canon_execFrcp hs
  · exact canon_execFrsq hs
  · exact canon_execFsqrt hs
  · exact canon_execFdiv hs
  · exact canon_execFlog2 hs
  · exact canon_execFexp2 hs
  · exact canon_execFsin hs
  · exact canon_execFcos hs
  · exact canon_execFtanh hs
  · exact canon_execFlgst hs
  · exact canon_execHadd2 hs
  · exact canon_execHmul2 hs
  · exact canon_execHfma2 hs
  · exact canon_execFdot2 hs
  · exact canon_execCvt hs
  · exact canon_execCvts hs
  · exact canon_execQuant hs
  · exact canon_execDeq hs
  · exact canon_execBlkscale hs
  · exact canon_execAmaxrec hs
  · exact canon_execAmaxrecRecord hs
  · exact canon_execAmaxrd hs
  · exact canon_execPack6 hs
  · exact canon_execUnpack6 hs
  · exact canon_execPack4 hs
  · exact canon_execUnpack4 hs
  · exact canon_execLd hs
  · exact canon_execLoadReturn hs
  · exact canon_execSt hs
  · exact canon_execStorePerformed hs
  · exact canon_execLdv hs
  · exact canon_execStv hs
  · exact canon_execAtom hs
  · exact canon_execAtomc hs
  · exact canon_execRed hs
  · exact canon_execFence hs
  · exact canon_execFenceRelease hs
  · exact canon_execCline hs
  · exact canon_execPfd hs
  · exact canon_execMbput hs
  · exact canon_execMbget hs
  · exact canon_execMbtryGet hs
  · exact canon_execMbtryPut hs
  · exact canon_execLdwp hs
  · exact canon_execShfl hs
  · exact canon_execVote hs
  · exact canon_execBallot hs
  · exact canon_execRedux hs
  · exact canon_execArgmx hs
  · exact canon_execArgmn hs
  · exact canon_execScan hs
  · exact canon_execBcast hs
  · exact canon_execMatch hs
  · exact canon_execFirstl hs
  · exact canon_execMma hs
  · exact canon_execMmaComplete hs
  · exact canon_execPageWaitResume hs
  · exact canon_execMmae hs
  · exact canon_execTzero hs
  · exact canon_execTld hs
  · exact canon_execTst hs
  · exact canon_execTileOpComplete hs
  · exact canon_execTmovr hs
  · exact canon_execTmovt hs
  · exact canon_execCpy hs
  · exact canon_execCpyDelivery hs
  · exact canon_execCpyTransferComplete hs
  · exact canon_execGather hs
  · exact canon_execScatter hs
  · exact canon_execGatherScatterComplete hs
  · exact canon_execColl hs
  · exact canon_execCollComplete hs
  · exact canon_execUmcfg hs
  · exact canon_execUmrank hs
  · exact canon_execUmcommit hs
  · exact canon_execUmdirty hs
  · exact canon_execUmCommandComplete hs
  · exact canon_execWaitc hs
  · exact canon_execFwait hs
  · exact canon_execFtest hs
  · exact canon_execFcancel hs
  · exact canon_execHeaderEntry hs
  · exact canon_execTroupeIdleRefill hs
  · exact canon_execBlockRefill hs
  · exact canon_execDemandFetch hs
  · exact canon_execHwPrefetch hs
  · exact canon_execPlacement hs
  · exact canon_execPlacerPreemptRequest hs
  · exact canon_execPlacerStarvationHold hs
  · exact canon_execPreemptRequest hs
  · exact canon_execPboundExpiry hs
  · exact canon_execPageFirstTouchFill hs
  · exact canon_execLeaseExpiry hs
  · exact canon_execHorizonPass hs
  · exact canon_execGntS hs
  · exact canon_execGntE hs
  · exact canon_execGntNC hs
  · exact canon_execCmp hs
  · exact canon_execSnpDat hs
  · exact canon_execSnpInv hs
  · exact canon_execSwitchLinkDown hs
  · exact canon_execSwitchRequestTimeout hs
  · exact canon_execCoherenceRecoveryEnd hs
  · exact canon_execDieChannelDelivery hs
  · exact canon_execDebuggerStop hs
  · exact canon_execDebuggerResume hs
  · exact canon_execSingleStep hs
  · exact canon_execDebuggerRegisterAccess hs
  · exact canon_execCommandArrival hs
  · exact canon_execUnknownOp hs
  · exact canon_execCommandStart hs
  · exact canon_execCommandComplete hs
  · exact canon_execSignalDrain hs
  · exact canon_execLaunch hs
  · exact canon_execLaunchAdmission hs
  · exact canon_execLaunchComplete hs
  · exact canon_execTlimitExpiry hs
  · exact canon_execGraph hs
  · exact canon_execSignal hs
  · exact canon_execQuery hs
  · exact canon_execCancel hs
  · exact canon_execNodes hs
  · exact canon_execNodefree hs
  · exact canon_execMap hs
  · exact canon_execUnmap hs
  · exact canon_execProtect hs
  · exact canon_execRingallot hs
  · exact canon_execRingfree hs
  · exact canon_execGroup hs
  · exact canon_execGroupFormTimeout hs
  · exact canon_execMemberConfirm hs
  · exact canon_execGroupfree hs
  · exact canon_execMemberSessionTimeout hs
  · exact canon_execDropNotice hs
  · exact canon_execIdent hs
  · exact canon_execAttest hs
  · exact canon_execHandler hs
  · exact canon_execDepgrant hs
  · exact canon_execTelem hs
  · exact canon_execReadback hs
  · exact canon_execCkpt hs
  · exact canon_execCkptload hs
  · exact canon_execFwstage hs
  · exact canon_execFwcommit hs
  · exact canon_execFwcommitCommitPoint hs
  · exact canon_execPower hs
  · exact canon_execWakefilt hs
  · exact canon_execSetparam hs
  · exact canon_execMode hs
  · exact canon_execReset hs
  · exact canon_execLoad hs
  · exact canon_execDeviceReset hs
  · exact canon_execCoreRetirement hs
  · exact canon_execWatchdogExpiry hs
  · exact canon_execThermalWithhold hs
  · exact canon_execThermalRecover hs
  · exact canon_execThermalShutdown hs
  · exact canon_execIdleGate hs
  · exact canon_execWakeFrame hs
  · exact canon_execWakeReplay hs
  · exact canon_execInternalWake hs
  · exact canon_execUndefinedInstruction hs
  · exact canon_execSubmitterAdmission hs
  · exact canon_execSubmitterPoolWrite hs
  · exact canon_execMemberSessionFailure hs
  · exact canon_execMemberSessionRestored hs
  · exact canon_execPowerWithhold hs
  · exact canon_execDebuggerAttach hs

/-! ### Scheduling -/

theorem canon_sweep {s : State} (hs : s.Canon) : (s.sweep).Canon := by
  unfold State.sweep
  exact canon_of_eq hs rfl rfl

theorem canon_sweepStops {s : State} (hs : s.Canon) : (s.sweepStops).Canon := by
  unfold State.sweepStops
  exact canon_foldl hs fun _ _ h1 => canon_ite (canon_discard h1) h1

theorem canon_sweepPending {s : State} (hs : s.Canon) : (s.sweepPending).Canon := by
  unfold State.sweepPending
  exact canon_foldl hs fun _ _ h1 => canon_ite (canon_startPreempt h1) h1

theorem canon_calm {s : State} (hs : s.Canon) : (s.calm).Canon := by
  unfold State.calm
  exact canon_sweep (canon_sweepStops (canon_sweepPending (canon_sweepSnoops (canon_dropOnceOf (canon_of_eq
      hs rfl rfl)))))

theorem canon_settled {o : Host.Outcome State Fault Refusal} (ho : OutcomeCanon o) : OutcomeCanon (settled o) := by
  unfold settled
  split
  · exact canon_calm ho
  · exact trivial
  · exact trivial

theorem canon_endHead {s : State} {r : PathRef} (hs : s.Canon) : (s.endHead r).Canon := by
  unfold State.endHead
  extract_lets s1
  have h1 : s1.Canon := canon_dropOnceOf hs
  exact canon_of_eq h1 rfl rfl

theorem canon_issueTurn {s : State} {t : Troupe} {i : Instr} (hs : s.Canon) : (s.issueTurn t i).Canon := by
  unfold State.issueTurn
  split
  · exact canon_takes hs
  · exact canon_takes hs
  · exact canon_takes hs
  · exact hs

theorem canon_eventTurn {s : State} {i : Instr} (hs : s.Canon) : (s.eventTurn i).Canon := by
  unfold State.eventTurn
  split
  · split
    · exact canon_takes hs
    · exact hs
  · split
    · exact canon_takes hs
    · exact hs
  · exact hs

theorem canon_troupeTurn {s : State} {t : Troupe} (hs : s.Canon) : (s.troupeTurn t).Canon := by
  unfold State.troupeTurn
  split
  · exact hs
  · extract_lets _ s1
    have h1 : s1.Canon := canon_ite (canon_takes hs) hs
    exact canon_ite (canon_takes hs) (canon_ite (canon_takes h1) h1)

theorem canon_ensTurn {s0 s : State} {e : Ensemble} (hs : s.Canon) : (s0.ensTurn s e).Canon := by
  unfold State.ensTurn
  split
  · exact hs
  · extract_lets
    exact canon_ite (canon_takes hs) (canon_ite (canon_takes hs) hs)

theorem canon_turned {s u : State} (hu : u.Canon) : (s.turned u).Canon := by
  unfold State.turned
  exact canon_foldl (canon_foldl hu fun _ _ h1 => canon_troupeTurn h1) fun _ _ h1 => canon_ensTurn h1

theorem canon_inTurn {s held : State} {o : Host.Outcome State Fault Refusal} (hs : held.Canon)
    (ho : OutcomeCanon o) : OutcomeCanon (s.inTurn held o) := by
  unfold State.inTurn
  split
  · exact canon_ite (motive := OutcomeCanon) hs (canon_turned ho)
  · exact ho

theorem canon_record_ {s : State} {h : Head} {port : Nat} {k : Pick} (hs : s.Canon) : (s.record_ h port k).Canon := by
  unfold State.record_
  extract_lets _ _ _ _ s1 s2 s3 s4
  have h1 : s1.Canon := canon_of_eq hs rfl rfl
  have h2 : s2.Canon := canon_countCore h1
  have h3 : s3.Canon := canon_ite (canon_countCore h2) h2
  have h4 : s4.Canon := canon_ite (canon_countCore h3) h3
  exact canon_modTroupe (canon_modPath (canon_endHead h4))

theorem canon_issueEnd {h : Head} {port : Nat} {k : Pick} {o : Host.Outcome State Fault Refusal}
    (ho : OutcomeCanon o) : OutcomeCanon (issueEnd h port k o) := by
  unfold issueEnd
  refine canon_settled ?_
  split
  · exact canon_ite (motive := State.Canon) ho (canon_record_ ho)
  · exact ho

theorem canon_overrunWord {s : State} {t : Troupe} {p : Path} {w : Slot} (hs : s.Canon) :
    (s.overrunWord t p w).Canon := by
  unfold State.overrunWord
  extract_lets s1 _ _
  have h1 : s1.Canon := canon_modTroupe hs
  split
  · exact canon_takeFaults (canon_modPath h1)
  · exact canon_faultBranch h1
  · exact canon_faultBranch h1
  · exact canon_faultBranch h1
  · exact canon_faultBranch h1
  · exact canon_faultBranch h1
  · exact canon_faultBranch h1
  · exact canon_faultWord h1

theorem canon_issueWord {s : State} {t : Troupe} {p : Path} {w : Slot} (hs : s.Canon) :
    OutcomeCanon (s.issueWord t p w) := by
  unfold State.issueWord
  extract_lets _ s1 _
  have h1 : s1.Canon := canon_of_eq hs rfl rfl
  refine canon_ite (motive := OutcomeCanon) hs (canon_ite (motive := OutcomeCanon) (canon_settled (canon_overrunWord
      hs)) ?_)
  split
  · exact canon_settled (canon_execUndefinedInstruction h1)
  · split
    · exact hs
    · refine canon_issueEnd ?_
      split
      · exact canon_exec (canon_issueTurn h1)
      · exact canon_execUndefinedInstruction h1

theorem canon_issue {s : State} {r : PathRef} (hs : s.Canon) : OutcomeCanon (s.issue r) := by
  unfold State.issue
  split
  · exact hs
  · refine canon_ite (motive := OutcomeCanon) hs ?_
    split
    · exact canon_settled (Fetched.Canon.of_waits ‹_› (canon_fetchHead hs))
    · exact canon_settled (Fetched.Canon.of_taken ‹_› (canon_fetchHead hs))
    · exact canon_issueWord (Fetched.Canon.of_slot ‹_› (canon_fetchHead hs))

theorem canon_upset {s : State} {u : Upset} (hs : s.Canon) : (s.upset u).Canon := by
  unfold State.upset
  split
  · exact canon_ite hs (canon_modTroupe hs)
  · exact canon_modCore hs
  · exact canon_ite hs (canon_of_eq hs rfl rfl)

theorem canon_corrected {s : State} {d : Nat} {c : Option Nat} (hs : s.Canon) : (s.corrected d c).Canon := by
  unfold State.corrected
  split
  · exact canon_countCore hs
  · exact canon_countDie hs

theorem canon_mismatch2 {s : State} {t : Troupe} {pc : Nat} (hs : s.Canon) : (s.mismatch2 t pc).Canon := by
  unfold State.mismatch2
  exact canon_halt (canon_strike (canon_countDie hs))

theorem canon_residue {s : State} {troupe op : Nat} {second : Bool} (hs : s.Canon) :
    OutcomeCanon (s.residue troupe op second) := by
  unfold State.residue
  split
  · exact hs
  · extract_lets _ s1
    have h1 : s1.Canon := canon_countDie hs
    exact canon_ite (motive := OutcomeCanon) hs (canon_settled (canon_ite (canon_prune (canon_modOp
        (canon_mismatch2 h1))) (canon_takes h1)))

theorem canon_mismatch {s : State} {r : PathRef} {second : Bool} (hs : s.Canon) :
    OutcomeCanon (s.mismatch r second) := by
  unfold State.mismatch
  split
  · exact hs
  · split
    · exact hs
    · extract_lets
      split
      · exact canon_ite (motive := OutcomeCanon) hs (canon_ite (motive := OutcomeCanon) (canon_settled
            (canon_mismatch2 (canon_countCore (canon_record_ hs)))) (canon_modTroupe (canon_modPath (canon_countCore
            (OutcomeCanon.of_next ‹_› (canon_issueWord hs))))))
      · exact hs

theorem canon_fuse {s : State} {troupe op q op2 q2 : Nat} (hs : s.Canon) : (s.fuse troupe op q op2 q2).Canon := by
  unfold State.fuse
  split
  · exact canon_ite (canon_countCore (canon_modOp hs)) hs
  · exact hs

theorem canon_uniform {s : State} {r : PathRef} {n : Nat} (hs : s.Canon) : (s.uniform r n).Canon := by
  unfold State.uniform
  split
  · exact canon_ite hs (canon_of_eq (canon_countCore hs) rfl rfl)
  · exact hs

theorem canon_readAhead {s : State} {t : Troupe} {o : Op} {va n : Nat} (hs : s.Canon) :
    (s.readAhead t o va n).Canon := by
  unfold State.readAhead
  refine canon_ite hs ?_
  split
  · exact canon_saw (canon_modOp (EGot.Canon.of_bytes ‹_› (canon_opRead hs)))
  · exact canon_opWaits hs
  · exact hs

theorem canon_renumberPath {s : State} {id a b : Nat} (hs : s.Canon) : (s.renumberPath id a b).Canon := by
  unfold State.renumberPath
  extract_lets
  exact canon_mapDies hs rfl (fun _ => rfl) rfl

theorem canon_gangTick {s : State} {t : Troupe} (hs : s.Canon) : (s.gangTick t).Canon := by
  unfold State.gangTick
  refine canon_ite hs (canon_ite (canon_ite (canon_sweepBars (canon_modEns hs)) hs) ?_)
  split
  · exact canon_sweepBars (canon_modEns (canon_modTroupe (canon_renumberPath hs)))
  · exact hs

theorem canon_startNodes {s : State} (hs : s.Canon) : (s.startNodes).Canon := by
  unfold State.startNodes
  refine canon_foldl hs fun _ _ h1 => ?_
  split
  · exact canon_startReady h1
  · exact h1

theorem canon_countHeld {s : State} (hs : s.Canon) : (s.countHeld).Canon := by
  unfold State.countHeld
  exact canon_foldl hs fun _ _ h1 => canon_ite h1 (canon_countDie (canon_modDie h1 (fun _ => rfl)))

theorem canon_portless {s : State} (hs : s.Canon) : (s.portless).Canon := by
  unfold State.portless
  refine canon_foldl hs fun _ _ h1 => canon_foldl h1 fun _ _ h2 => ?_
  split
  · refine canon_ite ?_ h2
    split
    · exact OutcomeCanon.of_next ‹_› (canon_issueWord h2)
    · exact h2
  · exact h2

theorem canon_tick {s : State} (hs : s.Canon) : (s.tick).Canon := by
  unfold State.tick
  exact canon_ite (canon_of_eq hs rfl rfl) (canon_sweep (canon_foldl (canon_foldl (canon_countHeld (canon_failDue
      (canon_unmapSaves (canon_placerClock (canon_startNodes (canon_foldl (canon_of_eq (canon_portless hs) rfl rfl)
      fun _ _ h1 => canon_gangTick h1)))))) fun _ _ h1 => canon_ite h1 (canon_prune h1))
      fun _ _ h1 => canon_settleEns h1))

theorem canon_busy {s : State} {r : PathRef} (hs : s.Canon) : (s.busy r).Canon := by
  unfold State.busy
  extract_lets
  exact canon_ite hs (canon_modPath hs)

theorem canon_happen {s : State} {i : Instr} (hs : s.Canon) : OutcomeCanon (s.happen i) := by
  unfold State.happen
  extract_lets s1
  have h1 : s1.Canon := canon_of_eq hs rfl rfl
  split
  · exact canon_ite (motive := OutcomeCanon) hs (canon_inTurn hs (canon_settled (canon_eventTurn
        (OutcomeCanon.of_next ‹_› (canon_exec h1)))))
  · exact canon_exec h1

theorem canon_skewTick {s : State} {d k : Nat} (hs : s.Canon) : (s.skewTick d k).Canon := by
  obtain ⟨hlen, hskew, hwf⟩ := canon_tick hs
  unfold State.skewTick
  dsimp only
  split
  next h =>
    refine ⟨(lmod_length ..).trans hlen, fun D hD => ?_, hwf⟩
    obtain hD | ⟨E, -, rfl⟩ := mem_lmod hD
    · exact hskew D hD
    · exact h.1
  next => exact hs

theorem canon_replace {s : State} {d c : Nat} {code : Bool} {key : Nat} (hs : s.Canon) :
    (s.replace d c code key).Canon := by
  unfold State.replace
  exact canon_modCore hs

theorem canon_act {s : State} {a : Act} (hs : s.Canon) : OutcomeCanon (s.act a) := by
  unfold State.act
  extract_lets
  split
  · exact canon_ite (motive := OutcomeCanon) (canon_happen hs) hs
  · exact canon_ite (motive := OutcomeCanon) hs (canon_inTurn (canon_busy hs) (canon_issue hs))
  · exact canon_ite hs (canon_busy hs)
  · exact canon_tick hs
  · exact canon_ite (canon_tick hs) (canon_skewTick hs)
  · exact canon_ite hs (canon_upset hs)
  · exact canon_ite hs (canon_corrected hs)
  · exact canon_ite (motive := OutcomeCanon) hs (canon_inTurn hs (canon_mismatch hs))
  · exact canon_ite (motive := OutcomeCanon) hs (canon_inTurn hs (canon_residue hs))
  · exact canon_ite (motive := OutcomeCanon) hs (canon_inTurn hs (canon_settled (canon_rowMma hs)))
  · exact canon_ite (motive := OutcomeCanon) hs (canon_inTurn hs (canon_settled (canon_endMma hs)))
  · exact canon_ite (motive := OutcomeCanon) hs (canon_inTurn hs (canon_settled (canon_partAhead hs)))
  · exact canon_ite hs (canon_replace hs)
  · refine canon_ite (motive := OutcomeCanon) hs (canon_inTurn hs (canon_settled ?_))
    split
    · exact canon_readAhead hs
    · exact hs
  · exact canon_ite hs (canon_fuse hs)
  · exact canon_ite hs (canon_uniform hs)

theorem canon_firstAct {s : State} {as : List Act} (hs : s.Canon) : OutcomeCanon (s.firstAct as) := by
  induction as with
  | nil => exact canon_tick hs
  | cons a as ih =>
    unfold State.firstAct
    have ha : OutcomeCanon (s.act a) := canon_act hs
    split
    · exact canon_ite (motive := OutcomeCanon) ih (OutcomeCanon.of_next ‹_› ha)
    · exact ha

theorem canon_stepOnce {s : State} (hs : s.Canon) : OutcomeCanon (s.stepOnce) := by
  unfold State.stepOnce
  split
  · exact canon_act (canon_of_eq hs rfl rfl)
  · exact canon_firstAct hs

/-! ### The step -/

theorem canon_step {s : State} (hs : s.Canon) : OutcomeCanon (step s) := by
  unfold step
  exact canon_stepOnce hs

/-! ### The invariant -/

theorem State.Canon.skew_le {s : State} (h : s.Canon) (d : Nat) : (s.die d).skew ≤ 2 := by
  obtain ⟨-, hskew, -⟩ := h
  obtain hd | hd := lget_mem_or Die.reset s.dies d
  · exact hskew _ hd
  · rw [State.die, hd]
    exact Nat.zero_le 2

end Sys2Proof.Machine

open Sys2Proof.Machine

/-- Settles O60: every function of the model keeps `State.Canon`, and so does `step`. -/
theorem stepsKeepTheDevice : Obligations.StepsKeepTheDevice := by
  unfold Obligations.StepsKeepTheDevice
  intro Inv s s' hs hstep
  have h : s'.Canon := OutcomeCanon.of_next hstep (canon_step hs)
  refine ⟨h, fun d e _ _ => ?_⟩
  have hd := h.skew_le d
  omega

end


/-! ## O55: messages, commands and their mailbox words -/

section
namespace Sys2Proof.Machine

/-! ### Commands, submitters and records -/

theorem State.cmd?_id {s : State} {id : Nat} {c : Command} (h : s.cmd? id = some c) : c.id = id := by
  simpa using List.find?_some h

theorem State.cmd?_modCmd {s : State} {f : Command → Command} (hf : ∀ v, (f v).id = v.id) (id j : Nat) :
    (s.modCmd id f).cmd? j = (s.cmd? j).map fun v => if v.id = id then f v else v := by
  rw [State.cmd?, State.modCmd, List.find?_map]
  congr 2
  exact funext fun v => by simp only [Function.comp_def]; split <;> simp [hf]

theorem State.cmd?_modCmd_same {s : State} {id : Nat} {c : Command} {f : Command → Command} (h : s.cmd? id = some c)
    (hf : ∀ v, (f v).id = v.id) : (s.modCmd id f).cmd? id = some (f c) := by
  rw [State.cmd?_modCmd hf, h, Option.map_some, if_pos (State.cmd?_id h)]

theorem State.cmd?_modCmd_other {s : State} {id j : Nat} {f : Command → Command} (hf : ∀ v, (f v).id = v.id) (hj : j ≠ id) :
    (s.modCmd id f).cmd? j = s.cmd? j := by
  rw [State.cmd?_modCmd hf]
  cases h : s.cmd? j with
  | none => rfl
  | some v => rw [Option.map_some, if_neg (by rw [State.cmd?_id h]; exact hj)]

theorem State.started_cmd? {s : State} {id op : Nat} {c : Command} (h : s.started id op = some c) :
    s.cmd? id = some c ∧ c.op = op ∧ c.st = .started ∧ c.effect = false ∧ c.node = none := by
  unfold State.started at h
  split at h
  next d hd =>
    split at h
    next hc =>
      obtain rfl := Option.some.inj h
      exact ⟨hd, hc⟩
    next => cases h
  next => cases h

theorem runCmd_of_started {s : State} {id op : Nat} {c : Command} (h : s.started id op = some c) (f : Command → State) :
    runCmd id op s f = .next (f c) := by rw [runCmd, h]

/-- The command after its effect. -/
theorem State.cmd?_effectDone {s : State} {c : Command} (h : s.cmd? c.id = some c) (st d0 d1 : Nat) (ls : List (Nat × Nat)) :
    (s.effectDone c.id st d0 d1 ls).cmd? c.id = some
      { c with effect := true, status := st, detail0 := BitVec.ofNat 64 d0, detail1 := BitVec.ofNat 64 d1, lines := ls } :=
  State.cmd?_modCmd_same h fun _ => rfl

theorem State.cmd?_effectDone_other {s : State} {id j st d0 d1 : Nat} {ls : List (Nat × Nat)} (hj : j ≠ id) :
    (s.effectDone id st d0 d1 ls).cmd? j = s.cmd? j := State.cmd?_modCmd_other (fun _ => rfl) hj

theorem State.sub?_sid {s : State} {sid : Nat} {u : Submitter} (h : s.sub? sid = some u) : u.sid = sid := by
  simpa using List.find?_some h

theorem State.sub?_modSub_same {s : State} {sid : Nat} {u : Submitter} {f : Submitter → Submitter}
    (h : s.sub? sid = some u) (hf : ∀ v, (f v).sid = v.sid) : (s.modSub sid f).sub? sid = some (f u) := by
  have hname : ∀ v : Submitter, (if v.sid = sid then f v else v).sid = v.sid := fun v => by split <;> simp [hf]
  rw [State.sub?, State.modSub, List.find?_map]
  simp only [Function.comp_def, hname]
  rw [show s.subs.find? _ = _ from h, Option.map_some, if_pos (State.sub?_sid h)]

theorem Submitter.queue?_num {u : Submitter} {n : Nat} {q : CmdQueue} (h : u.queue? n = some q) : q.num = n := by
  simpa using List.find?_some h

/-- A queue changed. -/
theorem State.queue?_modQueue {s : State} {sid n : Nat} {u : Submitter} {q : CmdQueue} {f : CmdQueue → CmdQueue}
    (hu : s.sub? sid = some u) (hq : u.queue? n = some q) (hf : ∀ v, (f v).num = v.num) :
    ∃ u' ∈ (s.modQueue sid n f).sub? sid, u'.queue? n = some (f q) := by
  refine ⟨_, State.sub?_modSub_same hu fun _ => rfl, ?_⟩
  have hname : ∀ v : CmdQueue, (if v.num = n then f v else v).num = v.num := fun v => by split <;> simp [hf]
  rw [Submitter.queue?, List.find?_map]
  simp only [Function.comp_def, hname]
  rw [show u.queues.find? _ = _ from hq, Option.map_some, if_pos (Submitter.queue?_num hq)]

/-! ### Mailbox words -/

theorem State.word_modWord {s : State} (hs : s.dies.length = 4) (a b : Nat) (f : MailboxWord → MailboxWord) :
    (s.modWord a f).word b = if b % 2 ^ 18 = a % 2 ^ 18 then f (s.word b) else s.word b := by
  unfold State.word State.modWord
  rw [State.die_modDie]
  by_cases hd : b / 65536 % 4 = a / 65536 % 4
  · rw [if_pos ⟨hd, by omega⟩]
    simp only [mget_mset]
    by_cases hk : b % 65536 = a % 65536
    · rw [if_pos hk, if_pos (by omega), hd, hk]
    · rw [if_neg hk, if_neg (by omega)]
  · rw [if_neg (by simp [hd]), if_neg (by omega)]

theorem State.word_modWord_same {s : State} (hs : s.dies.length = 4) (a : Nat) (f : MailboxWord → MailboxWord) :
    (s.modWord a f).word a = f (s.word a) := by rw [State.word_modWord hs, if_pos rfl]

theorem State.word_modWord_ne {s : State} (hs : s.dies.length = 4) {a b : Nat} (f : MailboxWord → MailboxWord)
    (h : b % 2 ^ 18 ≠ a % 2 ^ 18) : (s.modWord a f).word b = s.word b := by rw [State.word_modWord hs, if_neg h]

theorem State.word_modWord_other {s : State} (hs : s.dies.length = 4) {a b : Nat} (f : MailboxWord → MailboxWord)
    (ha : a < 2 ^ 18) (hb : b < 2 ^ 18) (h : b ≠ a) : (s.modWord a f).word b = s.word b := by
  rw [State.word_modWord hs, if_neg (by omega)]

theorem State.word_congr (s : State) {a b : Nat} (h : b % 2 ^ 18 = a % 2 ^ 18) : s.word b = s.word a := by
  unfold State.word
  rw [show b / 65536 % 4 = a / 65536 % 4 by omega, show b % 65536 = a % 65536 by omega]

@[simp] theorem State.modWord_dies_length (s : State) (a : Nat) (f : MailboxWord → MailboxWord) :
    (s.modWord a f).dies.length = s.dies.length := lmod_length ..

@[simp] theorem State.modQueue_dies (s : State) (sid n : Nat) (f : CmdQueue → CmdQueue) : (s.modQueue sid n f).dies = s.dies := rfl

@[simp] theorem State.word_modQueue (s : State) (sid n a : Nat) (f : CmdQueue → CmdQueue) :
    (s.modQueue sid n f).word a = s.word a := rfl

@[simp] theorem State.word_modCmd (s : State) (id a : Nat) (f : Command → Command) : (s.modCmd id f).word a = s.word a := rfl

@[simp] theorem State.word_withFresh (s : State) (n a : Nat) : ({ s with fresh := n } : State).word a = s.word a := rfl

/-- Nobody waits at any word. -/
def State.NoWaiters (s : State) : Prop := ∀ a, (s.word a).waiters = []

/-- Where nobody waits, nobody is served. -/
theorem State.NoWaiters.serveMail {s : State} (h : s.NoWaiters) : s.serveMail = s := by
  have h0 : (s.waitedWords.map fun a => (s.word a).waiters.length).sum = 0 :=
    List.sum_eq_zero fun n hn => by
      obtain ⟨a, -, rfl⟩ := List.mem_map.1 hn
      rw [h a, List.length_nil]
  rw [State.serveMail, h0, State.serveLoop]

theorem State.serveMail_eq {s t : State} (h : s = t) (hn : t.NoWaiters) : s.serveMail = t := by rw [h, hn.serveMail]

theorem mget_eq_or {α : Type} (z : α) (m : List (Nat × α)) (k : Nat) : (k, mget z m k) ∈ m ∨ mget z m k = z := by
  induction m with
  | nil => exact .inr rfl
  | cons e m ih =>
    obtain ⟨j, v⟩ := e
    by_cases hj : j = k
    · subst hj
      exact .inl (by simp [mget])
    · rw [mget, if_neg hj]
      exact ih.imp (List.mem_cons_of_mem _) id

/-- A word at which somebody waits is listed. -/
theorem State.waited_mem {s : State} {a : Nat} (h : (s.word a).waiters ≠ []) : a % 2 ^ 18 ∈ s.waitedWords := by
  obtain hm | hz := mget_eq_or MailboxWord.empty (s.die (a / 65536 % 4)).mbox (a % 65536)
  · refine List.mem_flatMap.2 ⟨a / 65536 % 4, by simp; omega, List.mem_map.2 ⟨_, List.mem_filter.2 ⟨hm, ?_⟩, ?_⟩⟩
    · simpa [State.word] using h
    · simp only
      omega
  · exact absurd (by rw [State.word, hz]; rfl) h

theorem State.noWaiters_of_quiet {s : State} (h : s.waitedWords = []) : s.NoWaiters := fun a => by
  by_contra hw
  exact List.not_mem_nil (h ▸ State.waited_mem hw)

/-- Where one word has a waiter, the others have none. -/
theorem State.noWaiters_but {s : State} {a : Nat} (h : s.waitedWords = [] ∨ s.waitedWords = [a]) {b : Nat}
    (hb : b % 2 ^ 18 ≠ a) : (s.word b).waiters = [] := by
  by_contra hw
  have hm := State.waited_mem hw
  obtain h | h := h
  · exact List.not_mem_nil (h ▸ hm)
  · exact hb (List.mem_singleton.1 (h ▸ hm))

/-- A state that differs in its dies alone, and there in no word. -/
def State.SameWords (s t : State) : Prop := (∀ a, t.word a = s.word a) ∧ ∃ ds, ds.length = s.dies.length ∧ t = { s with dies := ds }

theorem State.SameWords.refl (s : State) : s.SameWords s := ⟨fun _ => rfl, s.dies, rfl, rfl⟩

theorem State.SameWords.trans {s t u : State} (h : s.SameWords t) (k : t.SameWords u) : s.SameWords u := by
  obtain ⟨hw, ds, hl, rfl⟩ := h
  obtain ⟨kw, es, kl, rfl⟩ := k
  exact ⟨fun a => (kw a).trans (hw a), es, kl.trans hl, rfl⟩

theorem State.modWord_sameWords {s : State} (hs : s.dies.length = 4) {a : Nat} {f : MailboxWord → MailboxWord}
    (hf : f (s.word a) = s.word a) : s.SameWords (s.modWord a f) := by
  refine ⟨fun b => ?_, _, lmod_length .., rfl⟩
  rw [State.word_modWord hs]
  split
  next h =>
    rw [s.word_congr h, hf]
  next => rfl

/-- Waiters that are not there are struck off. -/
theorem State.eraseWaiters_sameWords {s : State} (hs : s.dies.length = 4) (hn : s.NoWaiters) (x : Waiter)
    (ws : List WaitEntry) :
    s.SameWords (ws.foldl (fun s w => s.modWord w.addr fun m => { m with waiters := m.waiters.erase x }) s) := by
  induction ws generalizing s with
  | nil => exact .refl s
  | cons w ws ih =>
    have h1 : s.SameWords (s.modWord w.addr fun m => { m with waiters := m.waiters.erase x }) :=
      State.modWord_sameWords hs (by rw [hn w.addr, List.erase_nil, ← hn w.addr])
    refine h1.trans (ih ((lmod_length ..).trans hs) fun a => ?_)
    rw [h1.1 a, hn a]

/-! ### The turns of a clock -/

/-- A state with other turns of its clock. -/
def State.withTurns (s : State) (ts : List (Spot × Nat)) (l : Bool) : State := { s with turns := ts, late := l }

@[simp] theorem State.word_withTurns (s : State) (ts : List (Spot × Nat)) (l : Bool) (a : Nat) :
    (s.withTurns ts l).word a = s.word a := rfl

/-- A state that differs in the turns of its clock alone. -/
def State.SameButTurns (s t : State) : Prop := ∃ ts l, t = s.withTurns ts l

theorem State.takes_turns (s : State) (sp : Spot) (k : Nat) : s.SameButTurns (s.takes sp k) := by
  unfold State.takes
  split
  · exact ⟨_, s.late, rfl⟩
  · split
    · exact ⟨s.turns, _, rfl⟩
    · exact ⟨_, s.late, rfl⟩

theorem State.SameButTurns.trans {s t u : State} (h : s.SameButTurns t) (k : t.SameButTurns u) : s.SameButTurns u := by
  obtain ⟨_, _, rfl⟩ := h
  obtain ⟨_, _, rfl⟩ := k
  exact ⟨_, _, rfl⟩

theorem State.foldl_takes_turns {α : Type} (s : State) (sp : α → Spot) (k : Nat) (xs : List α) :
    s.SameButTurns (xs.foldl (fun s x => s.takes (sp x) k) s) :=
  List.foldlRecOn xs _ (motive := s.SameButTurns) ⟨_, _, rfl⟩ fun t ht x _ => ht.trans (t.takes_turns (sp x) k)

theorem State.startTurn_turns (s : State) (c : Command) : s.SameButTurns (s.startTurn c) :=
  (s.takes_turns _ _).trans (State.foldl_takes_turns _ (fun w : WaitEntry => .word w.addr) 1 c.waits)

/-- Where no command waits at a word, its signal takes the word's turn alone. -/
theorem State.signalTurn_eq {s : State} {a : Nat} {w : Waiter} (h : (s.word a).waiters = [] ∨ (s.word a).waiters = [w])
    (hw : ∀ id, w ≠ .start id) : s.signalTurn a = s.takes (.word a) 0 := by
  unfold State.signalTurn
  obtain h | h := h
  · rw [h, List.foldl_nil]
  · rw [h, List.foldl_cons, List.foldl_nil]
    split
    next id => exact absurd rfl (hw id)
    next => rfl

/-! ### The end of a command -/

/-- A command leaves its queue, and no word changes where nobody waits. -/
theorem State.leaveQueue_sameWords {s : State} (hs : s.dies.length = 4) (hn : s.NoWaiters) (c : Command) :
    (s.modQueue c.sid c.queue fun q => { q with cmds := q.cmds.filter fun i => i != c.id }).SameWords (s.leaveQueue c) :=
  State.eraseWaiters_sameWords (s := s.modQueue c.sid c.queue _) hs hn _ _

/-- The state after the last signal of a command that is no node and no RESET: it is Complete, with its record. -/
def State.closed (s : State) (c : Command) : State :=
  if c.notify = true ∨ c.status ≠ 0 then
    (s.modCmd c.id fun c => { c with st := .complete }).record c 0 c.status c.detail0 c.detail1
  else s.modCmd c.id fun c => { c with st := .complete }

theorem State.closed_word (s : State) (c : Command) (a : Nat) : (s.closed c).word a = s.word a := by
  unfold State.closed
  split
  · rfl
  · rfl

theorem State.closed_cmd? {s : State} {c : Command} {id : Nat} : (s.closed c).cmd? id =
    (s.modCmd c.id fun c => { c with st := .complete }).cmd? id := by
  unfold State.closed
  split
  · rfl
  · rfl

theorem State.closed_complete {s : State} {c d : Command} (h : s.cmd? c.id = some d) :
    (s.closed c).cmd? c.id = some { d with st := .complete } :=
  State.closed_cmd?.trans (State.cmd?_modCmd_same h fun _ => rfl)

theorem State.closed_sent (s : State) (c : Command) : (s.closed c).sent = if c.notify = true ∨ c.status ≠ 0 then s.sent ++
    [{ sid := c.sid, tag := c.tag, seq := c.seq, queue := c.queue, kind := 0, status := c.status, detail0 := c.detail0,
       detail1 := c.detail1 }] else s.sent := by
  unfold State.closed
  split
  · rfl
  · rfl

theorem State.endCmd_eq {s : State} {c : Command} (hn : s.NoWaiters) (hnode : c.node = none)
    (hop : ¬ (c.op = 0x2E ∧ c.status = 0)) : s.endCmd c = s.closed c := by
  have hc : (s.closed c).NoWaiters := fun a => by rw [s.closed_word c a, hn a]
  unfold State.endCmd
  extract_lets s1 _ s2
  have h2 : s2 = s1 := if_neg hop
  rw [hnode, h2]
  exact hc.serveMail

/-- A Draining command without a signal left is Complete. -/
theorem State.drainSignals_over {s : State} {c : Command} {n : Nat} (h : s.cmd? c.id = some c) (hst : c.st = .draining)
    (hsig : c.sigs[c.sigs.length - c.sigsLeft]? = none) : s.drainSignals c.id (n + 1) = s.endCmd c := by
  unfold State.drainSignals
  simp only [h, hst, hsig, ne_eq, not_true_eq_false, if_false]

/-- A command whose effect is made, as it drains. -/
def Command.drained (c : Command) : Command :=
  { c with st := .draining, effect := true, sigsLeft := if silent c.status then 0 else c.sigs.length }

theorem State.completeCmd_eq {s : State} {c : Command} (h : s.cmd? c.id = some c) :
    s.completeCmd c.id = (s.modCmd c.id Command.drained).drainSignals c.id (c.sigs.length + 1) := by
  unfold State.completeCmd
  rw [h]
  rfl

/-- A command that makes no signal is Complete at once. -/
theorem State.completeCmd_silent {s : State} {c : Command} (h : s.cmd? c.id = some c) (hn : s.NoWaiters)
    (hnode : c.node = none) (hop : ¬ (c.op = 0x2E ∧ c.status = 0)) (hsig : c.sigs = [] ∨ silent c.status = true) :
    s.completeCmd c.id = (s.modCmd c.id Command.drained).closed c.drained := by
  have hd : (s.modCmd c.id Command.drained).cmd? c.drained.id = some c.drained :=
    State.cmd?_modCmd_same h fun _ => rfl
  rw [State.completeCmd_eq h]
  refine (State.drainSignals_over hd rfl ?_).trans (State.endCmd_eq (s := s.modCmd c.id Command.drained) hn hnode hop)
  obtain hsig | hsig := hsig
  · simp [Command.drained, hsig]
  · simp [Command.drained, hsig]

/-- The next signal of a Draining command, which no full word holds up, is made; the rest follow. -/
theorem State.drainSignals_makes {s : State} {c : Command} {g : SignalEntry} {n : Nat} (h : s.cmd? c.id = some c)
    (hst : c.st = .draining) (hsig : c.sigs[c.sigs.length - c.sigsLeft]? = some g)
    (hw : (s.word g.addr).waiters = [] ∨ (s.word g.addr).waiters = [.signal c.id])
    (hfree : g.mode ≠ 0 ∨ (s.word g.addr).full = false) : ∃ ts l, s.drainSignals c.id (n + 1) =
      ((((s.withTurns ts l).modWord g.addr fun m => { m with waiters := m.waiters.erase (.signal c.id) }).makeSignal
        g).modCmd c.id fun c => { c with sigsLeft := c.sigsLeft - 1 }).serveMail.drainSignals c.id n := by
  obtain ⟨ts, l, ht⟩ := s.takes_turns (.word g.addr) 0
  refine ⟨ts, l, ?_⟩
  rw [State.drainSignals]
  simp only [h, hst, hsig, ne_eq, not_true_eq_false, if_false, State.signalTurn_eq hw fun _ => nofun, ht]
  exact if_neg (by rintro ⟨h0, hf⟩; obtain hm | hm := hfree; exact hm h0; exact Bool.noConfusion (hm.symm.trans hf))


/-! ### Arrival (R361, R363) -/

theorem State.openQueue_of {s : State} {u : Submitter} {n : Nat} {q : CmdQueue} (hq : u.queue? n = some q) :
    s.openQueue u n = (s, some q) := by rw [State.openQueue, hq]

section
variable {s : State} {sid : Nat} {m : List Byte} {u : Submitter} {q : CmdQueue}
  (hu : s.sub? sid = some u) (hq : u.queue? (fld m 1 1 % 16) = some q)
include hu hq

theorem State.arrive_duplicate (h : fld m 4 4 < q.next) : s.arrive sid m = s := by
  rw [State.arrive, hu]
  dsimp only
  rw [State.openQueue_of hq]
  exact if_pos (.inl h)

theorem State.arrive_ahead (h : q.next < fld m 4 4) (hh : ∀ h ∈ q.held, h.1 ≠ fld m 4 4) : s.arrive sid m =
    s.modQueue sid q.num fun q => { q with held := q.held ++ [(fld m 4 4, m)] } := by
  rw [State.arrive, hu]
  dsimp only
  rw [State.openQueue_of hq]
  refine (if_neg ?_).trans ((if_pos h).trans (by rw [Submitter.queue?_num hq]))
  rw [List.any_eq_true]
  rintro (h' | ⟨x, hx, hx'⟩)
  · omega
  · exact hh x hx (by simpa using hx')

section
variable (hseq : fld m 4 4 = q.next) (hheld : q.held = [])
include hseq hheld

theorem State.arrive_rejected {st o : Nat} (h : s.rejection u q m = some (st, o)) :
    s.arrive sid m = s.record (cmdOf s.fresh sid m q.lastCmd) 0 st (BitVec.ofNat 64 o) 0 := by
  have ht : s.takeMsg u q m = (s.record (cmdOf s.fresh sid m q.lastCmd) 0 st (BitVec.ofNat 64 o) 0, false) := by
    rw [State.takeMsg, h, State.sub?_sid hu]
  rw [State.arrive, hu]
  dsimp only
  rw [State.openQueue_of hq]
  dsimp only
  rw [if_neg (by simp [hseq, hheld]), if_neg (by omega), ht]

/-- The state with a message accepted as the next command of its queue. -/
def State.accepted (s : State) (sid : Nat) (m : List Byte) (q : CmdQueue) : State :=
  ({ s with fresh := s.fresh + 1, cmds := s.cmds ++ [cmdOf s.fresh sid m q.lastCmd] } : State).modQueue sid q.num fun q =>
    { q with next := q.next + 1, lastCmd := some s.fresh, cmds := q.cmds ++ [s.fresh] }

theorem State.arrive_accepted (h : s.rejection u q m = none) (hc : s.fw.committing = none) (hn : s.NoWaiters) :
    s.arrive sid m = s.accepted sid m q := by
  have ht : s.takeMsg u q m = (s.accepted sid m q, true) := by
    rw [State.takeMsg, h, State.sub?_sid hu]
    simp [hc, State.accepted, cmdOf]
  rw [State.arrive, hu]
  dsimp only
  rw [State.openQueue_of hq]
  dsimp only
  rw [if_neg (by simp [hseq, hheld]), if_neg (by omega), ht, hheld]
  exact State.NoWaiters.serveMail (s := s.accepted sid m q) hn

end
end

theorem State.accepted_queue? {s : State} {sid : Nat} {m : List Byte} {u : Submitter} {q : CmdQueue}
    (hu : s.sub? sid = some u) (hq : u.queue? q.num = some q) : ∃ u' ∈ (s.accepted sid m q).sub? sid, u'.queue? q.num =
      some { q with next := q.next + 1, lastCmd := some s.fresh, cmds := q.cmds ++ [s.fresh] } :=
  State.queue?_modQueue (s := { s with fresh := _, cmds := _ }) hu hq fun _ => rfl

/-- The accepted command is the newest. -/
theorem State.cmd?_accepted {s : State} {sid : Nat} {m : List Byte} {q : CmdQueue} (hf : ∀ d ∈ s.cmds, d.id < s.fresh) :
    (s.accepted sid m q).cmd? s.fresh = some (cmdOf s.fresh sid m q.lastCmd) := by
  have h0 : s.cmds.find? (fun c => c.id == s.fresh) = none :=
    List.find?_eq_none.2 fun d hd => by simpa using (hf d hd).ne
  show (s.cmds ++ [cmdOf s.fresh sid m q.lastCmd]).find? _ = _
  rw [List.find?_append, h0, Option.none_or]
  exact List.find?_cons_of_pos (by simp [cmdOf])

/-- The causes of rejection in their order (log 25). -/
theorem State.rejection_unknown (s : State) (u : Submitter) (q : CmdQueue) {m : List Byte} (h : knownOp (fld m 0 1) = false) :
    s.rejection u q m = some (0x01, 0) := if_pos (by rw [h]; rfl)

theorem State.rejection_known (s : State) (u : Submitter) (q : CmdQueue) {m : List Byte} (h : knownOp (fld m 0 1) = true) :
    s.rejection u q m = match malformed m with
      | some o => some (0x02, o)
      | none =>
        if (operatorOp (fld m 0 1) && !u.operator) ||
          (s.fw.recovery && !(u.operator && recoveryOps.contains (fld m 0 1))) then some (0x0B, 0)
        else if fld m 0 1 = 0x28 ∧ s.fw.committing.isSome = true then some (0x02, 0)
        else if Config.queueDepth ≤ q.cmds.length then some (0x05, 0)
        else none := if_neg (by rw [h]; decide)

/-! ### Start (R365) -/

theorem execCommandStart_promotes {s : State} {c : Command} (h : s.cmd? c.id = some c) (hm : s.mayWait c = true) :
    execCommandStart c.id s = .next ((s.startTurn c).promote c).serveMail := by
  rw [execCommandStart, h]
  exact if_pos hm

theorem execCommandStart_starts {s : State} {c : Command} (h : s.cmd? c.id = some c) (hm : s.mayWait c = false)
    (hc : s.canStart c = true) : execCommandStart c.id s = .next ((s.startTurn c).startCmd c).serveMail := by
  rw [execCommandStart, h]
  exact (if_neg (by rw [hm]; decide)).trans (if_pos hc)

theorem execCommandComplete_of {s : State} {c : Command} (h : s.cmd? c.id = some c) (he : c.effect = true)
    (hst : c.st = .started) (hl : c.lines = []) : execCommandComplete c.id s = .next (s.completeCmd c.id) := by
  rw [execCommandComplete, h]
  dsimp only
  rw [if_pos (by simp [he, hst, hl, State.linesOver]), hl]
  rfl

/-! ### Records and the submitter's writes (R363, R450) -/

theorem fld_append_left {a b : List Byte} {o n : Nat} (h : o + n ≤ a.length) : fld (a ++ b) o n = fld a o n := by
  rw [fld, fld, List.drop_append_of_le_length (by omega), List.take_append_of_le_length (by rw [List.length_drop]; omega)]

theorem fld_append_right {a b : List Byte} {o n : Nat} (h : a.length ≤ o) : fld (a ++ b) o n = fld b (o - a.length) n := by
  rw [fld, fld, List.drop_append, List.drop_eq_nil_of_le h, List.nil_append]

theorem fld_cons_succ (b : Byte) (bs : List Byte) (o n : Nat) : fld (b :: bs) (o + 1) n = fld bs o n := by
  rw [fld, fld, List.drop_succ_cons]

theorem fld_cons_zero (b : Byte) (bs : List Byte) : fld (b :: bs) 0 1 = b.toNat := by
  simp [fld, leNat]

theorem fld_leBytes (n v : Nat) : fld (leBytes n v) 0 n = v % 256 ^ n := by
  rw [fld, List.drop_zero, List.take_of_length_le (by rw [leBytes_length]), leNat_leBytes]

/-- The 32 bytes of a record, field by field (R363). -/
theorem Record.bytes_fields (r : Record) : r.bytes.length = 32 ∧ fld r.bytes 0 8 = r.tag.toNat ∧
    (r.seq < 2 ^ 32 → fld r.bytes 8 4 = r.seq) ∧ (r.queue < 256 → fld r.bytes 12 1 = r.queue) ∧
    (r.kind < 256 → fld r.bytes 13 1 = r.kind) ∧ (r.status < 256 → fld r.bytes 14 1 = r.status) ∧ fld r.bytes 15 1 = 0 ∧
    fld r.bytes 16 8 = r.detail0.toNat ∧ fld r.bytes 24 8 = r.detail1.toNat := by
  refine ⟨?_, ?_, fun h => ?_, fun h => ?_, fun h => ?_, fun h => ?_, ?_, ?_, ?_⟩
  · simp [Record.bytes, leBytes_length]
  all_goals simp [Record.bytes, fld_append_left, fld_append_right, leBytes_length, fld_leBytes, fld_cons_succ, fld_cons_zero]
  all_goals omega

theorem Memory.byte_write (bs : List Byte) (m : Memory) (pa a : Nat) :
    (m.write pa bs).byte a = if pa ≤ a then (bs[a - pa]?).getD (m.byte a) else m.byte a := by
  split
  next h =>
    by_cases hk : a - pa < bs.length
    · rw [List.getElem?_eq_getElem hk, Option.getD_some, ← Memory.byte_write_inside bs m pa (a - pa) hk, Nat.add_sub_cancel' h]
    · rw [List.getElem?_eq_none (by omega), Option.getD_none, Memory.byte_write_outside bs m pa a (by omega)]
  next h => exact Memory.byte_write_outside bs m pa a (by omega)

theorem L2Line.race_keeps (l : L2Line) (ln pa n : Nat) :
    (l.race ln pa n).data = l.data ∧ (l.race ln pa n).dirty = l.dirty ∧ (l.race ln pa n).st = l.st := ⟨rfl, rfl, rfl⟩

theorem mfind_map_snd {α : Type} (f : Nat × α → α) (m : List (Nat × α)) (k : Nat) :
    mfind (m.map fun e => (e.1, f e)) k = (mfind m k).map fun v => f (k, v) := by
  induction m with
  | nil => rfl
  | cons e m ih =>
    obtain ⟨j, v⟩ := e
    by_cases h : j = k
    · subst h
      simp [mfind]
    · simpa [mfind, h] using ih

/-- A slice as a write past the device leaves it: the bytes written are noted with the lines (R450). -/
def Die.raced (D : Die) (pa n : Nat) : Die :=
  { D with l2 := D.l2.map fun e => if e.1 * 128 < pa + n ∧ pa < e.1 * 128 + 128 then (e.1, e.2.race e.1 pa n) else e }

/-- A line that the slice holds keeps its bytes. -/
theorem Die.raced_line (D : Die) (pa n ln : Nat) {l : L2Line} (h : mfind D.l2 ln = some l) :
    ∃ l' ∈ mfind (D.raced pa n).l2 ln, l'.data = l.data ∧ l'.dirty = l.dirty ∧ l'.st = l.st := by
  have he : (D.raced pa n).l2 = D.l2.map fun e =>
      (e.1, if e.1 * 128 < pa + n ∧ pa < e.1 * 128 + 128 then e.2.race e.1 pa n else e.2) :=
    List.map_congr_left fun e _ => by split <;> rfl
  rw [he, mfind_map_snd fun e : Nat × L2Line => if e.1 * 128 < pa + n ∧ pa < e.1 * 128 + 128 then e.2.race e.1 pa n else e.2, h]
  refine ⟨_, rfl, ?_⟩
  dsimp only
  split
  · exact l.race_keeps ln pa n
  · exact ⟨rfl, rfl, rfl⟩

theorem State.line?_raced {s : State} {pa n d ln : Nat} {l : L2Line} (pool : Memory) (h : s.line? d ln = some l) :
    ∃ l' ∈ ({ s with pool := pool, dies := s.dies.map fun D => D.raced pa n } : State).line? d ln,
      l'.data = l.data ∧ l'.dirty = l.dirty ∧ l'.st = l.st := by
  by_cases hd : d < s.dies.length
  · rw [State.line?, State.die, lget_map Die.reset Die.reset _ s.dies hd]
    exact Die.raced_line _ _ _ _ h
  · rw [State.line?, State.die, lget_beyond _ _ _ (Nat.le_of_not_lt hd)] at h
    cases h

/-! ### The course of a command -/

/-- A command that waits for nothing and names granted words becomes Waiting. -/
theorem State.promote_waiting {s : State} {c : Command} (hb : s.badAddr c = none) (hw : c.waits = []) :
    s.promote c = s.modCmd c.id fun c => { c with st := .waiting } := by
  rw [State.promote, hb, hw]
  rfl

/-- A command that names a word not granted is Complete with 0x09. -/
theorem State.promote_refused {s : State} {c : Command} {a : Nat} (hb : s.badAddr c = some a) : s.promote c =
    ((s.leaveQueue c).modCmd c.id fun c =>
      { c with st := .complete, effect := true, status := 0x09, detail0 := BitVec.ofNat 64 a }).record c 0 0x09
        (BitVec.ofNat 64 a) 0 := by
  rw [State.promote, hb]

theorem State.canStart_holds {s : State} {c : Command} (h : s.canStart c = true) :
    ∀ w ∈ c.waits, (s.word w.addr).full = w.want := by
  simp only [State.canStart, State.waitsHold, Bool.and_eq_true, List.all_eq_true, beq_iff_eq] at h
  exact h.2

theorem Command.consumed_single {c : Command} {w : WaitEntry} (h : c.waits = [w]) :
    c.consumed = if w.consume = true then [w.addr] else [] := by
  rw [Command.consumed, h]
  cases hw : w.consume <;> simp [hw]

/-- A command with one wait starts: its word flips where it consumes it, and its wait there ends. -/
theorem State.startCmd_single {s : State} {c : Command} {w : WaitEntry} (hs : s.dies.length = 4) (h : c.waits = [w]) :
    (s.startCmd c).word w.addr = { s.word w.addr with
      full := if w.consume = true then !(s.word w.addr).full else (s.word w.addr).full
      waiters := (s.word w.addr).waiters.erase (.start c.id) } ∧
    (∀ b, b % 2 ^ 18 ≠ w.addr % 2 ^ 18 → (s.startCmd c).word b = s.word b) ∧
    ∀ id, (s.startCmd c).cmd? id = (s.modCmd c.id fun d => { d with st := .started, startedAt := s.fresh }).cmd? id := by
  rw [State.startCmd, Command.consumed_single h, State.leaveQueue, h]
  split
  · refine ⟨?_, fun b hb => ?_, fun id => rfl⟩
    · simp [State.word_modWord_same, hs]
    · simp only [List.foldl_cons, List.foldl_nil]
      rw [State.word_modCmd, State.word_modWord_ne (by simpa using hs) _ hb, State.word_modQueue,
        State.word_modWord_ne (by exact hs) _ hb, State.word_withFresh]
  · refine ⟨?_, fun b hb => ?_, fun id => rfl⟩
    · simp [State.word_modWord_same, hs]
    · simp only [List.foldl_cons, List.foldl_nil]
      rw [State.word_modCmd, State.word_modWord_ne (by exact hs) _ hb, State.word_modQueue, State.word_withFresh]

/-- The last signal of a Draining command, made. -/
theorem State.drainSignals_last {s : State} {c : Command} {g : SignalEntry} (hs : s.dies.length = 4)
    (h : s.cmd? c.id = some c) (hst : c.st = .draining) (hsig : c.sigs = [g]) (hleft : c.sigsLeft = 1) (hnode : c.node = none)
    (hop : c.op ≠ 0x2E) (hw : (s.word g.addr).waiters = [] ∨ (s.word g.addr).waiters = [.signal c.id])
    (ho : ∀ b, b % 2 ^ 18 ≠ g.addr % 2 ^ 18 → (s.word b).waiters = []) (hfree : g.mode ≠ 0 ∨ (s.word g.addr).full = false) :
    ∃ t, s.drainSignals c.id 2 = t ∧ (∃ c' ∈ t.cmd? c.id, c'.st = .complete) ∧ (t.word g.addr).full = (g.mode != 2) ∧
      (g.mode ≠ 2 → (t.word g.addr).value = g.value) ∧ ∀ b, b % 2 ^ 18 ≠ g.addr % 2 ^ 18 → t.word b = s.word b := by
  obtain ⟨ts, l, hd⟩ := State.drainSignals_makes (n := 1) h hst (by rw [hsig, hleft]; rfl) hw hfree
  -- the state with the signal made
  set a := (s.withTurns ts l).modWord g.addr fun m => { m with waiters := m.waiters.erase (.signal c.id) } with ha
  have hal : a.dies.length = 4 := (lmod_length ..).trans hs
  have hword : ∀ b, b % 2 ^ 18 ≠ g.addr % 2 ^ 18 → (a.makeSignal g).word b = s.word b := fun b hb =>
    (State.word_modWord hal _ _ _).trans ((if_neg hb).trans ((State.word_modWord (s := s.withTurns ts l) hs _ _ _).trans
      (if_neg hb)))
  have hsame : (a.makeSignal g).word g.addr = if g.mode = 2 then (a.word g.addr).drain else (a.word g.addr).fill g.value :=
    State.word_modWord_same hal _ _
  have hawt : (a.word g.addr).waiters = [] := by
    rw [ha, State.word_modWord_same (s := s.withTurns ts l) hs]
    show (s.word g.addr).waiters.erase _ = []
    obtain hw | hw := hw
    · rw [hw, List.erase_nil]
    · rw [hw, List.erase_cons_head]
  have hn : (a.makeSignal g).NoWaiters := fun b => by
    by_cases hb : b % 2 ^ 18 = g.addr % 2 ^ 18
    · rw [State.word_congr _ hb, hsame]
      split
      · exact hawt
      · exact hawt
    · rw [hword b hb, ho b hb]
  -- the command with no signal left
  have hc : ((a.makeSignal g).modCmd c.id fun c => { c with sigsLeft := c.sigsLeft - 1 }).cmd? c.id =
      some { c with sigsLeft := c.sigsLeft - 1 } := State.cmd?_modCmd_same (s := a.makeSignal g) h fun _ => rfl
  have he := (State.drainSignals_over (n := 0) (c := { c with sigsLeft := c.sigsLeft - 1 }) hc hst (by simp [hsig, hleft])).trans
    (State.endCmd_eq (s := (a.makeSignal g).modCmd c.id _) hn hnode fun h => hop h.1)
  refine ⟨_, hd.trans ((congrArg (fun u => State.drainSignals u c.id 1) (State.NoWaiters.serveMail
    (s := (a.makeSignal g).modCmd c.id _) hn)).trans he), ⟨_, State.closed_complete hc, rfl⟩, ?_, fun hm => ?_, fun b hb => ?_⟩
  · rw [State.closed_word]
    refine (congrArg MailboxWord.full hsame).trans ?_
    split
    next h2 => simp [h2, MailboxWord.drain]
    next h2 => simp [h2, MailboxWord.fill]
  · rw [State.closed_word]
    exact (congrArg MailboxWord.value hsame).trans (by rw [if_neg hm]; rfl)
  · rw [State.closed_word]
    exact hword b hb

/-- A signal of mode 0 on a full word waits there. -/
theorem State.drainSignals_waits {s : State} {c : Command} {g : SignalEntry} {n : Nat} (h : s.cmd? c.id = some c)
    (hst : c.st = .draining) (hsig : c.sigs[c.sigs.length - c.sigsLeft]? = some g) (hw : (s.word g.addr).waiters = [])
    (hm : g.mode = 0) (hfull : (s.word g.addr).full = true) : ∃ ts l, s.drainSignals c.id (n + 1) =
      (s.withTurns ts l).modWord g.addr fun m =>
        if m.waiters.contains (Waiter.signal c.id) then m else { m with waiters := m.waiters ++ [Waiter.signal c.id] } := by
  obtain ⟨ts, l, ht⟩ := s.takes_turns (.word g.addr) 0
  refine ⟨ts, l, ?_⟩
  rw [State.drainSignals]
  simp only [h, hst, hsig, ne_eq, not_true_eq_false, if_false, State.signalTurn_eq (w := .signal c.id) (.inl hw) fun _ => nofun, ht]
  exact if_pos ⟨hm, hfull⟩

/-! ### CANCEL (R376) -/

theorem State.tagged_id_ne {s : State} {c d : Command} {tag : DWord} (h : s.tagged c tag = some d) : d.id ≠ c.id := by
  have := (List.mem_filter.1 (List.mem_of_getLast? h)).2
  simp only [Bool.and_eq_true, bne_iff_ne] at this
  exact this.1.2

theorem State.tagged_node {s : State} {c d : Command} {tag : DWord} (h : s.tagged c tag = some d) : d.node = none := by
  have := (List.mem_filter.1 (List.mem_of_getLast? h)).2
  simp only [Bool.and_eq_true, Option.isNone_iff_eq_none] at this
  exact this.2

/-- An Arrived or Waiting command without signals ends with 0x06. -/
theorem State.cancelCmd_unstarted {s : State} {d : Command} (hst : d.st = .arrived ∨ d.st = .waiting) :
    s.cancelCmd d = some (((s.leaveQueue d).effectDone d.id 0x06 0 0 []).completeCmd d.id) := by
  unfold State.cancelCmd
  obtain hst | hst := hst
  · rw [hst]
  · rw [hst]

/-- A command that is Complete, or whose effect is made and that does not drain, is not cancelled (R379). -/
theorem State.cancelCmd_none {s : State} {d : Command} (h : d.st = .complete ∨
    (d.effect = true ∧ d.st ≠ .arrived ∧ d.st ≠ .waiting ∧ d.st ≠ .draining)) : s.cancelCmd d = none := by
  unfold State.cancelCmd
  obtain h | ⟨he, ha, hw, hd⟩ := h
  · rw [h]
  · split
    next h => exact absurd h ha
    next h => exact absurd h hw
    next => rfl
    next h => exact absurd h hd
    next => exact if_pos he

theorem State.cancelCmd_draining {s : State} {d : Command} (h : d.st = .draining) : s.cancelCmd d = some s := by
  rw [State.cancelCmd, h]

theorem execCancel_some {s v : State} {c : Command} (h : s.started c.id 0x05 = some c)
    (hv : (s.tagged c (BitVec.ofNat 64 (fld c.msg 0x80 8))).bind s.cancelCmd = some v) :
    execCancel c.id s = .next (v.effectDone c.id 0 0 0 []) :=
  (runCmd_of_started h _).trans (by rw [hv])

theorem execCancel_none {s : State} {c : Command} (h : s.started c.id 0x05 = some c)
    (hv : (s.tagged c (BitVec.ofNat 64 (fld c.msg 0x80 8))).bind s.cancelCmd = none) :
    execCancel c.id s = .next (s.effectDone c.id 0 1 0 []) :=
  (runCmd_of_started h _).trans (by rw [hv])

/-- A command that has not started, without signals, is cancelled: it is Complete with 0x06, and its record says so. -/
theorem State.cancelCmd_ends {s : State} {d : Command} (hd : s.dies.length = 4) (hn : s.NoWaiters) (hc : s.cmd? d.id = some d)
    (hst : d.st = .arrived ∨ d.st = .waiting) (hsig : d.sigs = []) (hnode : d.node = none) :
    ∃ v, s.cancelCmd d = some v ∧ (∀ j, j ≠ d.id → v.cmd? j = s.cmd? j) ∧
      (∃ d' ∈ v.cmd? d.id, d'.st = .complete ∧ d'.status = 0x06) ∧ v.sent = s.sent ++
        [{ sid := d.sid, tag := d.tag, seq := d.seq, queue := d.queue, kind := 0, status := 0x06, detail0 := 0, detail1 := 0 }] := by
  obtain ⟨hw, ds, hl, he⟩ := State.leaveQueue_sameWords hd hn d
  have hcmds : ∀ j, (s.leaveQueue d).cmd? j = s.cmd? j := fun j => by rw [he]; rfl
  have hsent : (s.leaveQueue d).sent = s.sent := by rw [he]; rfl
  have hd' := State.cmd?_effectDone ((hcmds d.id).trans hc) 0x06 0 0 []
  set x : Command := { d with effect := true, status := 0x06, detail0 := BitVec.ofNat 64 0, detail1 := BitVec.ofNat 64 0, lines := [] }
  have hcl := State.completeCmd_silent (c := x) hd' (fun a => (congrArg MailboxWord.waiters (hw a)).trans (hn a)) hnode
    (fun h => absurd h.2 (by decide : (6 : Nat) ≠ 0)) (.inl hsig)
  refine ⟨_, (State.cancelCmd_unstarted hst).trans (congrArg some hcl), fun j hj => ?_,
    ⟨_, State.closed_complete (State.cmd?_modCmd_same hd' fun _ => rfl), rfl, rfl⟩, ?_⟩
  · exact State.closed_cmd?.trans ((State.cmd?_modCmd_other (by exact fun _ => rfl) hj).trans
      ((State.cmd?_modCmd_other (f := Command.drained) (fun _ => rfl) hj).trans ((State.cmd?_effectDone_other hj).trans (hcmds j))))
  · rw [State.closed_sent, if_pos (.inr (by decide : (6 : Nat) ≠ 0))]
    exact congrArg (· ++ _) hsent

end Sys2Proof.Machine

open Sys2Proof.Machine

/-- Settles O55: each message by what its SEQ and its checks say, each command by the words that it waits at and signals. -/
theorem commandsArriveStartAndComplete : Obligations.CommandsArriveStartAndComplete := by
  unfold Obligations.CommandsArriveStartAndComplete
  intro quiet alone next said ended ready target
  have hquiet : ∀ {s : State}, quiet s → s.NoWaiters := fun h => State.noWaiters_of_quiet h.1
  refine ⟨fun s sid m u q ⟨hp, hu, hq⟩ hseq hheld hr hc hw hf => ?_, fun s sid m u q st o ⟨hp, hu, hq⟩ hseq hheld hr => ?_,
    fun s sid m u q ⟨hp, hu, hq⟩ hseq => ?_, fun s sid m u q ⟨hp, hu, hq⟩ hseq hh => ?_,
    fun s u q m => ⟨s.rejection_unknown u q, fun o hk hm => ?_, fun hk hm ho hu => ?_, fun hk hm hu hrec hcom hlen => ?_⟩,
    fun s sid m u q ⟨hp, hu, hq⟩ hseq hheld hk => ?_, fun s c hqt hc hm hws hb => ?_, fun s c a hqt hc hm hb => ?_,
    fun s c w hal hc hm hst hws hw => ?_, fun s c ⟨hqt, hc, he, hst, hl, hnode, hop⟩ hsig => ?_,
    fun s c g ⟨hqt, hc, he, hst, hl, hnode, hop⟩ hsig hstat hg hfree => ?_,
    fun s c g ⟨hqt, hc, he, hst, hl, hnode, hop⟩ hsig hstat hg hm hfull => ?_,
    fun s c g hal hc hst hsig hleft hnode hop hg hfull hm => ?_, fun s c hc => ?_, fun s c hc => ?_,
    fun s c d hc hqt ht hd hst hsig hl => ?_, fun s c hc ht => ?_, fun s c d hc ht hst => ?_, fun r => ?_,
    fun s sid addr op hs hr => ?_, fun s sid addr hr => ?_, fun s pa bs h1 h2 h3 => ?_⟩
  · exact ⟨_, congrArg Host.Outcome.next ((if_pos hp).trans (State.arrive_accepted hu hq hseq hheld hr hc
      (State.noWaiters_of_quiet hw))), State.cmd?_accepted hf, rfl,
      State.accepted_queue? hu ((Submitter.queue?_num hq).symm ▸ hq)⟩
  · exact ⟨_, congrArg Host.Outcome.next ((if_pos hp).trans (State.arrive_rejected hu hq hseq hheld hr)), rfl, rfl, rfl⟩
  · exact congrArg Host.Outcome.next ((if_pos hp).trans (State.arrive_duplicate hu hq hseq))
  · refine ⟨_, congrArg Host.Outcome.next ((if_pos hp).trans (State.arrive_ahead hu hq hseq hh)), rfl, rfl, ?_⟩
    exact State.queue?_modQueue hu ((Submitter.queue?_num hq).symm ▸ hq) fun _ => rfl
  · rw [s.rejection_known u q hk, hm]
  · rw [s.rejection_known u q hk, hm]
    exact if_pos (by simp [ho, hu])
  · rw [s.rejection_known u q hk, hm]
    exact (if_neg (by simp [hu, hrec])).trans ((if_neg (by simp [hcom])).trans (if_pos hlen))
  · refine ⟨_, congrArg Host.Outcome.next ((if_pos (by rw [hp, hk]; rfl)).trans
      (State.arrive_rejected hu hq hseq hheld (s.rejection_unknown u q hk))), rfl⟩
  · obtain ⟨ts, l, ht⟩ := s.startTurn_turns c
    have hp : (s.startTurn c).promote c = (s.withTurns ts l).modCmd c.id fun c => { c with st := .waiting } := by
      rw [ht]
      exact State.promote_waiting hb hws
    refine ⟨_, (execCommandStart_promotes hc hm).trans (congrArg Host.Outcome.next
      (State.serveMail_eq hp (hquiet hqt))), ?_, rfl⟩
    exact State.cmd?_modCmd_same (s := s.withTurns ts l) hc fun _ => rfl
  · obtain ⟨ts, l, ht⟩ := s.startTurn_turns c
    obtain ⟨hw, ds, hl, he⟩ := State.leaveQueue_sameWords (s := s.withTurns ts l) hqt.2 (hquiet hqt) c
    have hp := State.promote_refused (s := s.withTurns ts l) (c := c) hb
    rw [he] at hp hw
    refine ⟨_, (execCommandStart_promotes hc hm).trans (congrArg Host.Outcome.next (State.serveMail_eq
      ((congrArg (State.promote · c) ht).trans hp) fun a => ?_)), rfl, ?_⟩
    · exact (congrArg MailboxWord.waiters (hw a)).trans (hquiet hqt a)
    · exact ⟨_, State.cmd?_modCmd_same (s := { State.modQueue (s.withTurns ts l) c.sid c.queue _ with
        dies := ds }) hc fun _ => rfl, rfl, rfl⟩
  · obtain ⟨ts, l, ht⟩ := s.startTurn_turns c
    obtain ⟨hd, hal⟩ := hal
    obtain ⟨hsame, hother, hcmd⟩ := State.startCmd_single (s := s.withTurns ts l) hd hws
    have hfull : (s.word w.addr).full = w.want := by
      have h := (State.canStart_holds hst) w (by simp [hws])
      exact h
    have hwt : (s.word w.addr).waiters.erase (.start c.id) = [] := by
      obtain hal | ⟨-, hal⟩ := hal
      · rw [State.noWaiters_of_quiet hal w.addr, List.erase_nil]
      · rw [hal, List.erase_cons_head]
    refine ⟨_, (execCommandStart_starts hc hm hst).trans (congrArg Host.Outcome.next (State.serveMail_eq
      (congrArg (State.startCmd · c) ht) fun b => ?_)), ?_, hfull, ?_, fun a ha hne => hother a (by omega)⟩
    · by_cases hb : b % 2 ^ 18 = w.addr % 2 ^ 18
      · rw [State.word_congr _ hb, hsame]
        exact hwt
      · rw [hother b hb]
        exact State.noWaiters_but (hal.imp_right And.left) (by omega)
    · rw [hcmd]
      exact State.cmd?_modCmd_same (s := s.withTurns ts l) hc fun _ => rfl
    · rw [hsame]
      simp [hfull]
  · have hcl := State.completeCmd_silent hc (hquiet hqt) hnode (fun h => hop h.1) (hsig.imp_right fun h => by simpa [silent] using h)
    refine ⟨_, (execCommandComplete_of hc he hst hl).trans (congrArg Host.Outcome.next hcl), ?_, fun a _ => State.closed_word .., ?_⟩
    · exact ⟨_, State.closed_complete (s := s.modCmd c.id _) (State.cmd?_modCmd_same hc fun _ => rfl), rfl, rfl⟩
    · have := State.closed_sent (s.modCmd c.id Command.drained) c.drained
      split
      next h => exact this.trans (if_pos h)
      next h => exact this.trans (if_neg h)
  · have hd : (s.modCmd c.id Command.drained).cmd? c.drained.id = some c.drained := State.cmd?_modCmd_same hc fun _ => rfl
    have hleft : c.drained.sigsLeft = 1 := by simp [Command.drained, silent, hstat, hsig]
    obtain ⟨t, ht, hc', hf, hv, ho⟩ := State.drainSignals_last (s := s.modCmd c.id _) hqt.2 hd rfl hsig hleft hnode hop
      (.inl (hquiet hqt g.addr)) (fun b _ => hquiet hqt b) hfree
    refine ⟨t, (execCommandComplete_of hc he hst hl).trans (congrArg Host.Outcome.next ((State.completeCmd_eq hc).trans ?_)),
      hc', hf, hv, fun a ha hne => ho a (by omega)⟩
    rw [hsig]
    exact ht
  · have hd : (s.modCmd c.id Command.drained).cmd? c.drained.id = some c.drained := State.cmd?_modCmd_same hc fun _ => rfl
    have hleft : c.drained.sigsLeft = 1 := by simp [Command.drained, silent, hstat, hsig]
    obtain ⟨ts, l, ht⟩ := State.drainSignals_waits (n := 1) hd rfl (g := g) (by rw [hleft]; simp [Command.drained, hsig])
      (hquiet hqt g.addr) hm hfull
    have hfirst := hquiet hqt g.addr
    refine ⟨_, (execCommandComplete_of hc he hst hl).trans (congrArg Host.Outcome.next ((State.completeCmd_eq hc).trans
      ((congrArg (fun n => State.drainSignals _ c.id (n + 1)) (by rw [hsig]; rfl)).trans ht))), ⟨_, hd, rfl, hleft⟩, ?_, rfl⟩
    refine (State.word_modWord_same (s := (s.modCmd c.id Command.drained).withTurns ts l) hqt.2 ..).trans ?_
    simp [hfirst, Command.drained]
  · obtain ⟨hd, hal⟩ := hal
    have hn : s.waitedWords = [] ∨ s.waitedWords = [g.addr] := hal.imp_right And.left
    have hw : (s.word g.addr).waiters = [] ∨ (s.word g.addr).waiters = [.signal c.id] :=
      hal.imp (fun h => State.noWaiters_of_quiet h g.addr) And.right
    obtain ⟨t, ht, hc', hf, hv, -⟩ := State.drainSignals_last hd hc hst hsig hleft hnode hop hw
      (fun b hb => State.noWaiters_but hn (by omega)) (.inr hfull)
    refine ⟨t, ?_, hc', by rw [hf, hm]; rfl, hv (by rw [hm]; decide)⟩
    refine (show execSignalDrain c.id s = _ from ?_)
    rw [execSignalDrain, hc]
    dsimp only
    rw [hsig]
    exact congrArg Host.Outcome.next ht
  · have hc' := (State.started_cmd? hc).1
    exact ⟨_, runCmd_of_started hc _, ⟨_, State.cmd?_effectDone hc' .., rfl, rfl, rfl, rfl, rfl⟩, rfl⟩
  · have hc' := (State.started_cmd? hc).1
    exact ⟨_, runCmd_of_started hc _, ⟨_, State.cmd?_effectDone (s := s.record ..) hc' .., rfl, rfl, rfl, rfl, rfl⟩, rfl⟩
  · have hc' := (State.started_cmd? hc).1
    obtain ⟨v, hv, hother, ⟨d', hd', hst', hstat⟩, hsent⟩ :=
      State.cancelCmd_ends hqt.2 (hquiet hqt) hd hst hsig (State.tagged_node ht)
    have hne := State.tagged_id_ne ht
    exact ⟨_, execCancel_some hc (by rw [show s.tagged c _ = some d from ht]; exact hv),
      ⟨_, State.cmd?_effectDone ((hother c.id hne.symm).trans hc') .., rfl, rfl, rfl, rfl, rfl⟩, hsent, d',
      (State.cmd?_effectDone_other hne).trans hd', hst', hstat⟩
  · have hc' := (State.started_cmd? hc).1
    refine ⟨_, execCancel_none hc ?_, ⟨_, State.cmd?_effectDone hc' .., rfl, rfl, rfl, rfl, rfl⟩, rfl⟩
    cases h : s.tagged c (BitVec.ofNat 64 (fld c.msg 0x80 8)) with
    | none => rfl
    | some d => exact State.cancelCmd_none (ht d h)
  · have hc' := (State.started_cmd? hc).1
    exact ⟨_, execCancel_some hc (by rw [show s.tagged c _ = some d from ht]; exact State.cancelCmd_draining hst),
      ⟨_, State.cmd?_effectDone hc' .., rfl, rfl, rfl, rfl, rfl⟩, rfl, State.cmd?_effectDone_other (State.tagged_id_ne ht)⟩
  · exact r.bytes_fields
  · refine ⟨_, by show execSubmitterAdmission sid addr s = _; rw [execSubmitterAdmission, hs, hr], ?_⟩
    rw [State.sub?, List.find?_append, show s.subs.find? _ = none from hs, Option.none_or]
    exact List.find?_cons_of_pos (by simp)
  · show execSubmitterAdmission sid addr s = _
    rw [execSubmitterAdmission, hr]
    cases s.sub? sid with
    | none => rfl
    | some _ => rfl
  · refine ⟨_, if_neg (by rw [h1, h2, Bool.false_or, Bool.false_or, decide_eq_true_eq]; exact Nat.not_lt.2 h3), rfl, fun a => ?_, fun d ln l hl => ?_⟩
    · exact Memory.byte_write bs s.pool pa a
    · exact State.line?_raced _ hl
end

/-! ### A time limit, with a candidate offered after it -/

namespace Sys2Proof.Machine.Placed

set_option Elab.async false

/-- A troupe of ensemble 2 whose lanes have all exited, with a path that has reached the refill header. -/
def refilledTroupe : Troupe := { idleTroupe with paths := [{ placedPath with pc := wordPage, blk := none }] }

/-- A troupe of ensemble 5 that is finished. It carries the number of the other one. -/
def finishedTroupe : Troupe := { idleTroupe with ens := 5, finish := .lifeless }

/-- The launch of both ensembles, 1 ms after its first placement, which its limit is. -/
def limitedLaunch : Launch := { wordLaunch 3 0 with tlimit := 1, hdr := { (wordLaunch 3 0).hdr with block := false } }

/-- Its ensembles: the one that is Running, and the one that is Pre-empting. -/
def twinState : State :=
  { idleState with now := 1800000, launches := [limitedLaunch], troupes := [finishedTroupe, refilledTroupe],
                   ens := [placedEns, { wordEns 5 3 1 with st := .preempting }] }

/-- The launches of the candidates that an outcome has queued. -/
def shownQueue (o : Host.Outcome State Fault Refusal) : List Nat :=
  match o with
  | .next s => s.queue.map (·.launch)
  | _ => []

theorem twin_offered : shownQueue (exec (.tlimitExpiry limitedLaunch.id) twinState) = [limitedLaunch.id] := by decide +kernel

/-- Refutes O56: two troupes of `twinState` carry one number. The request to ensemble 2, where the refill of its troupe is
due, finishes the first troupe of that number, which is ensemble 5's; that ensemble is swapped out before its turn to be
told that it ends, and its candidate stands in the queue of the launch that has ended. The clause on time limits would need
troupes of different numbers. -/
theorem not_launchesAndGraphs : ¬ Obligations.LaunchesAndGraphs := by
  rintro ⟨-, -, -, -, -, -, -, hlimit, -⟩
  obtain ⟨s', hex, hqueue, -⟩ := hlimit twinState limitedLaunch 0 (by decide +kernel) rfl (by decide) rfl rfl (by decide)
  have hoffered := twin_offered
  rw [hex] at hoffered
  obtain ⟨q, hq, hl⟩ := List.mem_map.mp (show limitedLaunch.id ∈ s'.queue.map (·.launch) by
    rw [show s'.queue.map (·.launch) = _ from hoffered]; exact List.mem_singleton_self _)
  exact hqueue q hq hl

end Sys2Proof.Machine.Placed

/-! ## What the service's accesses leave as it was -/

section
namespace Sys2Proof.Machine

/-- A page without what a translation or a first touch changes. -/
def Pte.shape (p : Pte) : Pte := { p with home := none, walked := 0, res := true, touched := false }

/-- A submitter with its pages so. -/
def Submitter.shape (u : Submitter) : Submitter := { u with pages := u.pages.map fun e => (e.1, e.2.shape) }

/-- A state without its dies, its pool, what translations and first touches change, and what a clock or an access counts. -/
def State.rest (s : State) : State :=
  { s with dies := [], pool := [], subs := s.subs.map Submitter.shape, turns := [], late := false, seenPass := 0, seenOpen := [], free := 0,
           fresh := 0, errs := [] }

/-- A state that differs from `z` in its dies, its pool, what translations and first touches change, and in what a clock or
an access counts, alone. -/
def State.Kept (z s : State) : Prop := s.dies.length = z.dies.length ∧ s.rest = z.rest

def Avail.Kept (z : State) : Avail → Prop
  | .ready s _ | .waits s => z.Kept s
  | .dead => True

def Svc.Kept (z : State) : Svc → Prop
  | .ok s _ _ | .waits s => z.Kept s
  | .bad _ => True

section
variable {z s t : State}

theorem State.Kept.refl (s : State) : s.Kept s := ⟨rfl, rfl⟩

theorem Avail.Kept.of_ready {a : Avail} {l : L2Line} (e : a = .ready s l) (h : a.Kept z) : z.Kept s := by subst e; exact h
theorem Avail.Kept.of_waits {a : Avail} (e : a = .waits s) (h : a.Kept z) : z.Kept s := by subst e; exact h
theorem Svc.Kept.of_ok {a : Svc} {bs : List Byte} {ls : List (Nat × Nat)} (e : a = .ok s bs ls) (h : a.Kept z) : z.Kept s := by
  subst e; exact h
theorem Svc.Kept.of_waits {a : Svc} (e : a = .waits s) (h : a.Kept z) : z.Kept s := by subst e; exact h
theorem kept_some_fst {α : Type} {o : Option (State × α)} {x : α} (e : o = some (s, x)) (h : ∀ r ∈ o, z.Kept r.1) :
    z.Kept s := h (s, x) e

theorem kept_of_eq (h : z.Kept s) (hd : t.dies = s.dies) (hr : t.rest = s.rest) : z.Kept t := by
  rw [State.Kept, hd, hr]
  exact h

theorem kept_mapDies {g : Die → Die} (h : z.Kept s) (hd : t.dies = s.dies.map g) (hr : t.rest = s.rest) : z.Kept t := by
  rw [State.Kept, hd, hr, List.length_map]
  exact h

theorem kept_modDie {d : Nat} {f : Die → Die} (h : z.Kept s) : z.Kept (s.modDie d f) :=
  ⟨(lmod_length ..).trans h.1, h.2⟩

theorem kept_foldl {α : Type} {f : State → α → State} {l : List α} (h : z.Kept s)
    (hf : ∀ s a, z.Kept s → z.Kept (f s a)) : z.Kept (l.foldl f s) :=
  List.foldlRecOn l f h fun s hs a _ => hf s a hs

theorem State.Kept.now (h : z.Kept s) : s.now = z.now := (congrArg State.now h.2 :)
theorem State.Kept.cmds (h : z.Kept s) : s.cmds = z.cmds := (congrArg State.cmds h.2 :)
theorem State.Kept.sent (h : z.Kept s) : s.sent = z.sent := (congrArg State.sent h.2 :)
theorem State.Kept.launches (h : z.Kept s) : s.launches = z.launches := (congrArg State.launches h.2 :)
theorem State.Kept.queue (h : z.Kept s) : s.queue = z.queue := (congrArg State.queue h.2 :)
theorem State.Kept.ens (h : z.Kept s) : s.ens = z.ens := (congrArg State.ens h.2 :)
theorem State.Kept.troupes (h : z.Kept s) : s.troupes = z.troupes := (congrArg State.troupes h.2 :)
theorem State.Kept.nodeTables (h : z.Kept s) : s.nodeTables = z.nodeTables := (congrArg State.nodeTables h.2 :)
theorem State.Kept.graphs (h : z.Kept s) : s.graphs = z.graphs := (congrArg State.graphs h.2 :)
theorem State.Kept.ringOwner (h : z.Kept s) : s.ringOwner = z.ringOwner := (congrArg State.ringOwner h.2 :)
theorem State.Kept.groups (h : z.Kept s) : s.groups = z.groups := (congrArg State.groups h.2 :)
theorem State.Kept.fw (h : z.Kept s) : s.fw = z.fw := (congrArg State.fw h.2 :)
theorem State.Kept.subs (h : z.Kept s) : s.subs.map Submitter.shape = z.subs.map Submitter.shape :=
  (congrArg State.subs h.2 :)
theorem State.Kept.pw (h : z.Kept s) : s.pw = z.pw := (congrArg State.pw h.2 :)

end

theorem kept_modCore {z s : State} {d c : Nat} {f : Core → Core} (hs : z.Kept s) : z.Kept (s.modCore d c f) := by
  unfold State.modCore
  exact kept_modDie hs

theorem kept_countDie {z s : State} {d k n : Nat} (hs : z.Kept s) : z.Kept (s.countDie d k n) := by
  unfold State.countDie
  exact kept_modDie hs

theorem kept_takes {z s : State} {sp : Spot} {k : Nat} (hs : z.Kept s) : z.Kept (s.takes sp k) := by
  unfold State.takes
  split
  · exact kept_of_eq hs rfl rfl
  · exact canon_ite (kept_of_eq hs rfl rfl) (kept_of_eq hs rfl rfl)

theorem kept_modPage {z s : State} {sid base : Nat} {f : Pte → Pte} (hf : ∀ p, (f p).shape = p.shape) (hs : z.Kept s) :
    z.Kept (s.modPage sid base f) := by
  refine kept_of_eq hs rfl ?_
  have hpages : ∀ ps : List (Nat × Pte), (ps.map fun e => if e.1 = base then (e.1, f e.2) else e).map
      (fun e => (e.1, e.2.shape)) = ps.map fun e => (e.1, e.2.shape) := fun ps => by
    rw [List.map_map]
    refine List.map_congr_left fun e _ => ?_
    simp only [Function.comp_def]
    split
    · rw [hf]
    · rfl
  have hsubs : (s.modPage sid base f).subs.map Submitter.shape = s.subs.map Submitter.shape := by
    rw [State.modPage, State.modSub, List.map_map]
    refine List.map_congr_left fun u _ => ?_
    simp only [Function.comp_def]
    split
    · simp only [Submitter.shape, hpages]
    · rfl
  rw [State.rest, State.rest, hsubs]
  rfl

theorem kept_touchPage {z s : State} {sid va d : Nat} (hs : z.Kept s) : z.Kept (s.touchPage sid va d) := by
  unfold State.touchPage
  split
  · exact hs
  · extract_lets s1
    have h1 : z.Kept s1 := canon_ite hs (kept_modPage (fun _ => rfl) hs)
    exact canon_ite (kept_takes h1) h1

theorem kept_putLine {z s : State} {d ln : Nat} {l : L2Line} (hs : z.Kept s) : z.Kept (s.putLine d ln l) := by
  unfold State.putLine
  exact kept_modDie hs

theorem kept_delLine {z s : State} {d ln : Nat} (hs : z.Kept s) : z.Kept (s.delLine d ln) := by
  unfold State.delLine
  extract_lets s1
  have h1 : z.Kept s1 := kept_modDie hs
  exact kept_of_eq h1 rfl rfl

theorem kept_writeBack {z s : State} {d ln : Nat} (hs : z.Kept s) : z.Kept (s.writeBack d ln) := by
  unfold State.writeBack
  split
  · exact hs
  · exact canon_ite hs (kept_countDie (kept_putLine (kept_of_eq hs rfl rfl)))

theorem kept_sendCxl {z s : State} {d : Nat} {m : CxlMsg} {ln tag : Nat} {data : Option (Memory × List Nat)}
    (hs : z.Kept s) :
    z.Kept (s.sendCxl d m ln tag data) := by
  unfold State.sendCxl
  exact kept_modDie hs

theorem kept_askAs {z s : State} {d ln : Nat} {m : CxlMsg} {data : Option (Memory × List Nat)} {r : CxlWait}
    (hs : z.Kept s) :
    z.Kept (s.askAs d ln m data r) := by
  unfold State.askAs
  extract_lets
  exact kept_modDie (kept_sendCxl hs)

theorem kept_askCxl {z s : State} {d ln : Nat} {k : CxlReq} {who : Asker} {keep : Bool} (hs : z.Kept s) :
    z.Kept (s.askCxl d ln k who keep) := by
  unfold State.askCxl
  exact kept_askAs hs

theorem kept_sendWb {z s : State} {d ln : Nat} {m : CxlMsg} {l : L2Line} (hs : z.Kept s) :
    z.Kept (s.sendWb d ln m l) := by
  unfold State.sendWb
  exact kept_askAs hs

theorem kept_sendOpen {z s : State} {d ln : Nat} {l : L2Line} (hs : z.Kept s) : z.Kept (s.sendOpen d ln l) := by
  unfold State.sendOpen
  exact kept_askAs hs

theorem kept_joinAsk {z s : State} {d ln : Nat} {who : Asker} {keep : Bool} (hs : z.Kept s) :
    z.Kept (s.joinAsk d ln who keep) := by
  unfold State.joinAsk
  exact kept_modDie hs

theorem kept_ask {z s : State} {d ln : Nat} {k : CxlReq} {who : Asker} {keep : Bool} (hs : z.Kept s) :
    z.Kept (s.ask d ln k who keep) := by
  unfold State.ask
  exact canon_ite (kept_joinAsk hs) (kept_askCxl hs)

theorem kept_leave {z s : State} {d ln : Nat} (hs : z.Kept s) : z.Kept (s.leave d ln) := by
  unfold State.leave
  split
  · exact hs
  · refine canon_ite ?_ (kept_delLine (kept_writeBack hs))
    split
    · exact kept_sendWb (kept_delLine (kept_writeBack hs))
    · exact kept_sendWb (kept_delLine (kept_writeBack hs))
    · exact kept_askCxl (kept_delLine hs)
    · exact kept_askCxl (kept_delLine hs)
    · exact canon_ite (kept_delLine hs) hs

theorem kept_holdFill {z s : State} {d ln : Nat} {who : Asker} (hs : z.Kept s) : z.Kept (s.holdFill d ln who) := by
  unfold State.holdFill
  exact canon_ite (kept_modDie hs) hs

theorem kept_lineRead {z s : State} {d ln : Nat} {coh : Bool} {offs : List Nat} {who : Asker} {keep : Bool}
    (hs : z.Kept s) :
    (s.lineRead d ln coh offs who keep).Kept z := by
  unfold State.lineRead
  split
  · exact canon_ite (motive := Avail.Kept z) hs (canon_ite (motive := Avail.Kept z) (kept_ask hs) hs)
  · refine canon_ite (motive := Avail.Kept z) hs ?_
    split
    · exact trivial
    · exact canon_ite (motive := Avail.Kept z) (kept_holdFill hs) (canon_ite (motive := Avail.Kept z) (kept_ask hs)
          (kept_countDie (canon_ite (kept_putLine hs) hs)))

theorem kept_lineWrite {z s : State} {d ln : Nat} {coh : Bool} {who : Asker} {keep : Bool} (hs : z.Kept s) :
    (s.lineWrite d ln coh who keep).Kept z := by
  unfold State.lineWrite
  split
  · refine canon_ite (motive := Avail.Kept z) hs (canon_ite (motive := Avail.Kept z) ?_ hs)
    split
    · exact hs
    · exact hs
    · exact kept_ask hs
    · exact kept_ask hs
    · exact kept_ask hs
  · refine canon_ite (motive := Avail.Kept z) hs ?_
    split
    · exact trivial
    · exact canon_ite (motive := Avail.Kept z) (kept_holdFill hs) (canon_ite (motive := Avail.Kept z) (kept_ask hs)
          (kept_countDie hs))

theorem kept_commitWrite {z s : State} {d c home ln : Nat} {l : L2Line} {off : Nat} {bs : List Byte}
    {mask : BitVec 16} (hs : z.Kept s) :
    z.Kept (s.commitWrite d c home ln l off bs mask).1 := by
  unfold State.commitWrite
  extract_lets _ _ _ s1
  have h1 : z.Kept s1 := kept_putLine (kept_of_eq hs rfl rfl)
  exact kept_modCore h1

theorem kept_leaveNC {z s : State} {home ln : Nat} {l : L2Line} (hs : z.Kept s) : z.Kept (s.leaveNC home ln l) := by
  unfold State.leaveNC
  exact canon_ite (kept_putLine hs) (kept_delLine hs)

theorem kept_dropOnce {z s : State} {home ln : Nat} {who : Asker} {wb : Bool} (hs : z.Kept s) :
    z.Kept (s.dropOnce home ln who wb) := by
  unfold State.dropOnce
  split
  · exact canon_ite (canon_ite (kept_leaveNC (kept_writeBack hs)) (kept_sendOpen (kept_leaveNC (kept_writeBack
        hs)))) hs
  · exact hs

theorem kept_dropOnceOf {z s : State} {p : Asker → Bool} (hs : z.Kept s) : z.Kept (s.dropOnceOf p) := by
  unfold State.dropOnceOf
  refine kept_foldl hs fun _ _ h1 => kept_foldl h1 fun _ _ h2 => ?_
  split
  · exact canon_ite (kept_dropOnce h2) h2
  · exact h2

theorem kept_dropPageL1 {z s : State} {h : Nat} {p : Pte} (hs : z.Kept s) : z.Kept (s.dropPageL1 h p) := by
  unfold State.dropPageL1
  exact kept_mapDies hs rfl rfl

theorem kept_dropPage {z s : State} {p : Pte} (hs : z.Kept s) : z.Kept (s.dropPage p) := by
  unfold State.dropPage
  split
  · exact hs
  · extract_lets s1
    have h1 : z.Kept s1 := by
      unfold s1
      refine kept_foldl hs fun _ _ h2 => ?_
      split
      · exact canon_ite (kept_delLine (kept_writeBack h2)) (kept_leave h2)
      · exact h2
    exact kept_dropPageL1 h1

theorem kept_firstTouch {z s : State} {sid va : Nat} (hs : z.Kept s) : z.Kept (s.firstTouch sid va) := by
  unfold State.firstTouch
  split
  · exact hs
  · exact canon_ite hs (kept_modPage (fun _ => rfl) (canon_ite hs (kept_of_eq (kept_dropPage hs) rfl rfl)))

theorem kept_svcAt {z s : State} {sid va : Nat} {w : Bool} (hs : z.Kept s) :
    ∀ r ∈ s.svcAt sid va w, z.Kept r.1 := by
  intro r hr
  rw [Option.mem_def, State.svcAt] at hr
  split at hr
  · cases hr
  next p _ =>
    by_cases hc : p.kind = .device ∨ (if w then p.w else p.r) = false ∨ Config.windowBase ≤ va
    · rw [if_pos hc] at hr
      cases hr
    · rw [if_neg hc] at hr
      dsimp only at hr
      split at hr
      · cases hr
        exact kept_touchPage (kept_firstTouch hs)
      · cases hr

theorem kept_svcRead {z s : State} {sid va k n : Nat} (hs : z.Kept s) : (s.svcRead sid va k n).Kept z := by
  induction n generalizing s k with
  | zero => exact kept_dropOnceOf hs
  | succ n ih =>
    unfold State.svcRead
    split
    · exact trivial
    · split
      · exact Avail.Kept.of_waits ‹_› (kept_lineRead (kept_some_fst ‹_› (kept_svcAt hs)))
      · exact trivial
      · refine canon_ite (motive := Svc.Kept z) trivial ?_
        split
        · exact Svc.Kept.of_ok ‹_› (ih (Avail.Kept.of_ready ‹_› (kept_lineRead (kept_some_fst ‹_› (kept_svcAt
              hs)))))
        · exact ih (Avail.Kept.of_ready ‹_› (kept_lineRead (kept_some_fst ‹_› (kept_svcAt hs))))

theorem kept_svcWrite {z s : State} {sid va k : Nat} {bs : List Byte} {ls : List (Nat × Nat)} (hs : z.Kept s) :
    (s.svcWrite sid va k bs ls).Kept z := by
  induction bs generalizing s k ls with
  | nil => exact kept_dropOnceOf hs
  | cons b bs ih =>
    unfold State.svcWrite
    split
    · exact trivial
    · split
      · exact Avail.Kept.of_waits ‹_› (kept_lineWrite (kept_some_fst ‹_› (kept_svcAt hs)))
      · exact trivial
      · extract_lets s1
        have h1 : z.Kept s1 := kept_commitWrite (Avail.Kept.of_ready ‹_› (kept_lineWrite (kept_some_fst ‹_›
            (kept_svcAt hs))))
        exact ih h1

theorem kept_publish {z s : State} {ls : List (Nat × Nat)} (hs : z.Kept s) : z.Kept (s.publish ls) := by
  unfold State.publish
  refine kept_foldl hs fun _ _ h1 => ?_
  split
  · exact canon_ite h1 (kept_writeBack h1)
  · exact h1

theorem kept_flushSub {z s : State} {sid : Nat} (hs : z.Kept s) : z.Kept (s.flushSub sid) := by
  unfold State.flushSub
  split
  · exact hs
  · refine kept_foldl hs fun _ _ h1 => ?_
    split
    · exact kept_publish h1
    · exact h1

end Sys2Proof.Machine
end

section
namespace Sys2Proof.Machine

/-! ## O57: the table commands -/

/-! ### Maps and lists -/

theorem mfind_mput {α : Type} (k j : Nat) (v : α) (m : List (Nat × α)) :
    mfind (mput k v m) j = if j = k then some v else mfind m j := by
  induction m with
  | nil =>
    simp only [mput, mfind]
    exact if_congr eq_comm rfl rfl
  | cons e m ih =>
    obtain ⟨i, w⟩ := e
    simp only [mput]
    split
    · simp only [mfind]
      exact if_congr eq_comm rfl rfl
    · split
      · subst_vars
        simp only [mfind, eq_comm (a := j)]
        split <;> rfl
      · simp only [mfind, ih]
        by_cases h : i = j
        · subst h
          simp [*]
        · simp [h]

theorem mfind_filter_key {α : Type} (p : Nat → Bool) (m : List (Nat × α)) (k : Nat) :
    mfind (m.filter fun e => p e.1) k = if p k = true then mfind m k else none := by
  induction m with
  | nil => simp [mfind]
  | cons e m ih =>
    obtain ⟨j, v⟩ := e
    rw [List.filter_cons]
    by_cases h : j = k
    · subst h
      split <;> simp_all [mfind]
    · split <;> simp [mfind, h, ih]

theorem mfind_mem {α : Type} {m : List (Nat × α)} {k : Nat} {v : α} (h : mfind m k = some v) : (k, v) ∈ m := by
  induction m with
  | nil => cases h
  | cons e m ih =>
    obtain ⟨j, w⟩ := e
    simp only [mfind] at h
    split at h
    · subst_vars
      cases h
      exact List.mem_cons_self
    · exact List.mem_cons_of_mem _ (ih h)

theorem mget_filter_key {α : Type} (z : α) (p : Nat → Bool) (m : List (Nat × α)) (k : Nat) :
    mget z (m.filter fun e => p e.1) k = if p k = true then mget z m k else z := by
  induction m with
  | nil => simp [mget]
  | cons e m ih =>
    obtain ⟨j, v⟩ := e
    rw [List.filter_cons]
    by_cases h : j = k
    · subst h
      split <;> simp_all [mget]
    · split <;> simp [mget, h, ih]

theorem mem_mput_self {α : Type} (k : Nat) (v : α) (m : List (Nat × α)) : (k, v) ∈ mput k v m :=
  mfind_mem (by rw [mfind_mput, if_pos rfl])

theorem mem_mput_of_ne {α : Type} {k : Nat} {v : α} {m : List (Nat × α)} {e : Nat × α} (h : e ∈ m) (hk : e.1 ≠ k) :
    e ∈ mput k v m := by
  induction m with
  | nil => cases h
  | cons f m ih =>
    obtain ⟨j, w⟩ := f
    simp only [mput]
    rcases List.mem_cons.mp h with rfl | h
    · simp only [if_neg hk]
      split <;> simp
    · split
      · exact List.mem_cons_of_mem _ (List.mem_cons_of_mem _ h)
      · split
        · exact List.mem_cons_of_mem _ h
        · exact List.mem_cons_of_mem _ (ih h)

/-- What a list of keys all put at one value reads. -/
theorem mfind_foldl_mput {α : Type} (v : α) (ks : List Nat) (m : List (Nat × α)) (j : Nat) :
    mfind (ks.foldl (fun m k => mput k v m) m) j = if j ∈ ks then some v else mfind m j := by
  induction ks generalizing m with
  | nil => rfl
  | cons k ks ih =>
    rw [List.foldl_cons, ih, mfind_mput]
    by_cases hj : j ∈ ks
    · simp [hj]
    · simp [hj]

/-- Entries put at keys of their own, in rising order of `k`. -/
def putAll {α : Type} (key : Nat → Nat) (v : Nat → α) (m : List (Nat × α)) (n : Nat) : List (Nat × α) :=
  (List.range n).foldl (fun m k => mput (key k) (v k) m) m

theorem putAll_succ {α : Type} (key : Nat → Nat) (v : Nat → α) (m : List (Nat × α)) (n : Nat) :
    putAll key v m (n + 1) = mput (key n) (v n) (putAll key v m n) := by
  rw [putAll, List.range_succ, List.foldl_append]
  rfl

theorem mem_putAll {α : Type} {key : Nat → Nat} {v : Nat → α} {m : List (Nat × α)} {n : Nat} {e : Nat × α}
    (h : e ∈ putAll key v m n) : e ∈ m ∨ ∃ k, k < n ∧ e = (key k, v k) := by
  induction n with
  | zero => exact .inl h
  | succ n ih =>
    rw [putAll_succ] at h
    rcases mem_mput h with rfl | h
    · exact .inr ⟨n, by omega, rfl⟩
    · rcases ih h with h | ⟨k, hk, rfl⟩
      · exact .inl h
      · exact .inr ⟨k, by omega, rfl⟩

theorem putAll_mem {α : Type} {key : Nat → Nat} (hkey : ∀ a b, key a = key b → a = b) (v : Nat → α) (m : List (Nat × α))
    {n k : Nat} (hk : k < n) : (key k, v k) ∈ putAll key v m n := by
  induction n with
  | zero => omega
  | succ n ih =>
    rw [putAll_succ]
    by_cases h : k = n
    · subst h
      exact mem_mput_self ..
    · exact mem_mput_of_ne (ih (by omega)) fun hc => h (hkey _ _ hc)

theorem all_iff_lget {α : Type} (z : α) (p : α → Bool) (xs : List α) :
    xs.all p = true ↔ ∀ j, j < xs.length → p (lget z xs j) = true := by
  induction xs with
  | nil => simp
  | cons x xs ih =>
    rw [List.all_cons, Bool.and_eq_true, ih]
    constructor
    · rintro ⟨hx, h⟩ j hj
      cases j with
      | zero => exact hx
      | succ j => exact h j (by simpa using hj)
    · exact fun h => ⟨h 0 (by simp), fun j hj => h (j + 1) (by simpa using hj)⟩

/-! ### Pages -/

/-- The page of an address, where the list holds it and no other page has the address. -/
theorem pageOf_eq_of_mem {ps : List (Nat × Pte)} {e : Nat × Pte} {a : Nat} (hm : e ∈ ps) (ha : e.1 ≤ a ∧ a < e.1 + e.2.size)
    (hu : ∀ f ∈ ps, f.1 ≤ a ∧ a < f.1 + f.2.size → f = e) : pageOf ps a = some e := by
  induction ps with
  | nil => cases hm
  | cons f ps ih =>
    obtain ⟨b, p⟩ := f
    rw [pageOf]
    split
    next h => rw [hu (b, p) List.mem_cons_self h]
    next h =>
      rcases List.mem_cons.mp hm with rfl | hm
      · exact absurd ha h
      · exact ih hm fun f hf => hu f (List.mem_cons_of_mem _ hf)

/-- The pages of one size that are put from an address upward, where none was mapped. -/
theorem pageOf_putAll {ps : List (Nat × Pte)} {key : Nat → Nat} {v : Nat → Pte} {va z n k a : Nat}
    (hm : mappedIn ps va (n * z) = false) (hkey : ∀ k, key k = va + k * z) (hv : ∀ k, (v k).size = z) (hk : k < n)
    (ha : va + k * z ≤ a ∧ a < va + k * z + z) : pageOf (putAll key v ps n) a = some (va + k * z, v k) := by
  have hz : 0 < z := by omega
  have hinj : ∀ i j, key i = key j → i = j := fun i j h => by
    rw [hkey, hkey] at h
    exact Nat.eq_of_mul_eq_mul_right hz (by omega)
  have hin : k * z + z ≤ n * z := by
    rw [← Nat.succ_mul]
    exact Nat.mul_le_mul_right z hk
  rw [← hkey k]
  refine pageOf_eq_of_mem (putAll_mem hinj v ps hk) (by rw [hkey, hv]; exact ha) fun f hf h => ?_
  rcases mem_putAll hf with hf | ⟨j, hj, rfl⟩
  · have := List.any_eq_false.mp hm f hf
    simp only [decide_eq_true_eq] at this
    omega
  · simp only [hkey, hv] at h
    have : j = k := by
      by_contra hne
      rcases Nat.lt_or_gt_of_ne hne with hlt | hlt
      · have : j * z + z ≤ k * z := by rw [← Nat.succ_mul]; exact Nat.mul_le_mul_right z hlt
        omega
      · have : k * z + z ≤ j * z := by rw [← Nat.succ_mul]; exact Nat.mul_le_mul_right z hlt
        omega
    rw [this]

theorem mapPages_eq (t va pa : Nat) (ps : List (Nat × Pte)) (n : Nat) : mapPages t va pa ps n =
    putAll (fun k => va + k * pageBytes t) (fun k => pteOf t (pa + k * pageBytes t)) ps n := rfl

/-! ### What a command's end leaves -/

/-- A command has ended with a status and a first detail, and is in a state. -/
def State.Ended (s : State) (id : Nat) (x : CmdState) (st d0 : Nat) : Prop :=
  ∃ c ∈ s.cmd? id, c.effect = true ∧ c.status = st ∧ c.detail0 = BitVec.ofNat 64 d0 ∧ c.detail1 = 0 ∧ c.st = x

theorem State.ended_effectDone {s : State} {c : Command} (h : s.cmd? c.id = some c) (st d0 : Nat) (ls : List (Nat × Nat)) :
    (s.effectDone c.id st d0 0 ls).Ended c.id c.st st d0 :=
  ⟨_, State.cmd?_effectDone h st d0 0 ls, rfl, rfl, rfl, rfl, rfl⟩

theorem State.Kept.cmd? {z s : State} (h : z.Kept s) (id : Nat) : s.cmd? id = z.cmd? id := by
  rw [State.cmd?, h.cmds]
  rfl

theorem State.kept_of_read {s t : State} {sid va k n : Nat} {b : List Byte} {ls : List (Nat × Nat)}
    (hr : s.svcRead sid va k n = .ok t b ls) : s.Kept t :=
  Svc.Kept.of_ok hr (kept_svcRead (State.Kept.refl s))

section
variable {s : State} {c : Command}

/-! ### Node tables -/

/-- A command's table of nodes. -/
def Command.table (c : Command) : Nat := fld c.msg 0x80 4

/-- The entries of a node table as bytes give them. -/
def nodesOf (bs : List Byte) (n : Nat) : List NodeEntry :=
  (List.range n).map fun k => nodeOfBytes ((bs.drop (256 * k)).take 256)

theorem execNodes_read {s1 : State} {bs : List Byte} {ls : List (Nat × Nat)} (h : s.started c.id 0x10 = some c)
    (hb : s.tableBusy c.table = false)
    (hr : s.svcRead c.sid (fld c.msg 0x88 8) 0 (256 * fld c.msg 0x84 2) = .ok s1 bs ls) :
    execNodes c.id s = .next (match firstBad (tableChecks bs (fld c.msg 0x84 2)) with
      | some o => s1.effectDone c.id 0x02 o 0 []
      | none => ({ s1 with nodeTables := mput c.table (nodesOf bs (fld c.msg 0x84 2)) s1.nodeTables } : State).effectDone
          c.id 0 0 0 []) := by
  rw [execNodes, runCmd_of_started h]
  simp only [Command.table] at hb
  simp only [hb, hr]
  rfl

theorem nodes_fills {s1 : State} {bs : List Byte} {ls : List (Nat × Nat)} (h : s.started c.id 0x10 = some c)
    (hb : s.tableBusy c.table = false)
    (hr : s.svcRead c.sid (fld c.msg 0x88 8) 0 (256 * fld c.msg 0x84 2) = .ok s1 bs ls) :
    ∃ s', execNodes c.id s = .next s' ∧ match firstBad (tableChecks bs (fld c.msg 0x84 2)) with
      | some o => s'.Ended c.id c.st 0x02 o ∧ s'.nodeTables = s.nodeTables
      | none => s'.Ended c.id c.st 0 0 ∧ ∀ n, mget [] s'.nodeTables n = if n = c.table then nodesOf bs (fld c.msg 0x84 2)
        else mget [] s.nodeTables n := by
  have hkept := State.kept_of_read hr
  have hcmd : s1.cmd? c.id = some c := (hkept.cmd? _).trans (State.started_cmd? h).1
  refine ⟨_, execNodes_read h hb hr, ?_⟩
  cases firstBad (tableChecks bs (fld c.msg 0x84 2)) with
  | some o => exact ⟨State.ended_effectDone hcmd 0x02 o [], hkept.nodeTables⟩
  | none =>
    refine ⟨State.ended_effectDone (s := { s1 with nodeTables := _ }) hcmd 0 0 [], fun n => ?_⟩
    show mget [] (mput c.table _ s1.nodeTables) n = _
    rw [hkept.nodeTables]
    split
    · subst_vars
      exact mget_mput_same ..
    · exact mget_mput_other _ _ ‹_› _

theorem nodefree_empties (h : s.started c.id 0x11 = some c) (hb : s.tableBusy c.table = false) :
    ∃ s', execNodefree c.id s = .next s' ∧ s'.Ended c.id c.st 0 0 ∧ ∀ n, mget [] s'.nodeTables n =
      if n = c.table then [] else mget [] s.nodeTables n := by
  have hcmd := (State.started_cmd? h).1
  refine ⟨({ s with nodeTables := mdel c.table s.nodeTables } : State).effectDone c.id 0 0 0 [], ?_,
    State.ended_effectDone (s := { s with nodeTables := _ }) hcmd 0 0 [], fun n => ?_⟩
  · rw [execNodefree, runCmd_of_started h]
    exact congrArg Host.Outcome.next (if_neg (Bool.eq_false_iff.mp hb))
  · show mget [] (mdel c.table s.nodeTables) n = _
    split
    · subst_vars
      exact mget_mdel_same ..
    · exact mget_mdel_other _ ‹_› _

theorem nodes_wait (h : s.started c.id 0x10 = some c ∨ s.started c.id 0x11 = some c) (hb : s.tableBusy c.table = true) :
    exec (if c.op = 0x10 then .nodes c.id else .nodefree c.id) s = .next s := by
  rcases h with h | h
  · rw [if_pos (State.started_cmd? h).2.1]
    show execNodes c.id s = _
    rw [execNodes, runCmd_of_started h]
    exact congrArg Host.Outcome.next (if_pos hb)
  · rw [if_neg (by rw [(State.started_cmd? h).2.1]; decide)]
    show execNodefree c.id s = _
    rw [execNodefree, runCmd_of_started h]
    exact congrArg Host.Outcome.next (if_pos hb)

/-! ### Page tables -/

theorem State.page?_of_sub {sid : Nat} {u : Submitter} (h : s.sub? sid = some u) (a : Nat) :
    s.page? sid a = pageOf u.pages a := by rw [State.page?, h]

theorem State.pagesOf_of_sub {sid : Nat} {u : Submitter} (h : s.sub? sid = some u) : s.pagesOf sid = u.pages := by
  rw [State.pagesOf, h]

theorem map_maps {u : Submitter} (h : s.started c.id 0x12 = some c) (hu : s.sub? c.sid = some u) :
    let va := fld c.msg 0x80 8
    let t := fld c.msg 0x88 8
    let n := fld c.msg 0x90 4
    ∃ s', execMap c.id s = .next s' ∧ s'.pool = s.pool ∧ s'.dies = s.dies ∧
      if mappedIn u.pages va (n * pageBytes t) = true then s'.Ended c.id c.st 0x02 0x80 ∧ s'.subs = s.subs
      else s'.Ended c.id c.st 0 0 ∧ ∀ k a, k < n → va + k * pageBytes t ≤ a → a < va + k * pageBytes t + pageBytes t →
        s'.page? c.sid a = some (va + k * pageBytes t, pteOf t (t % 2 ^ 46 / 65536 * 65536 + k * pageBytes t)) := by
  intro va t n
  have hcmd := (State.started_cmd? h).1
  rw [execMap, runCmd_of_started h, State.pagesOf_of_sub hu]
  by_cases hm : mappedIn u.pages va (n * pageBytes t) = true
  · refine ⟨_, rfl, ?_⟩
    rw [if_pos hm, if_pos hm]
    exact ⟨rfl, rfl, State.ended_effectDone hcmd 0x02 0x80 [], rfl⟩
  · refine ⟨_, rfl, ?_⟩
    rw [if_neg hm, if_neg hm]
    refine ⟨rfl, rfl, State.ended_effectDone (s := s.modSub _ _) hcmd 0 0 [], fun k a hk ha hb => ?_⟩
    have hsub := State.sub?_modSub_same (f := fun u => { u with
      pages := mapPages t va (t % 2 ^ 46 / 65536 * 65536) u.pages n }) hu fun _ => rfl
    refine (State.page?_of_sub (s := (s.modSub c.sid _).effectDone c.id 0 0 0 []) hsub a).trans ?_
    rw [mapPages_eq]
    exact pageOf_putAll (Bool.eq_false_iff.mpr hm) (fun _ => rfl) (fun _ => rfl) hk ⟨ha, hb⟩

end

end Sys2Proof.Machine
end

section
namespace Sys2Proof.Machine

/-! ### Lines of a slice after a change -/

theorem mfind_mdel {α : Type} (k j : Nat) (m : List (Nat × α)) :
    mfind (mdel k m) j = if j = k then none else mfind m j := by
  induction m with
  | nil => simp [mdel, mfind]
  | cons e m ih =>
    obtain ⟨i, w⟩ := e
    simp only [mdel]
    by_cases hi : i = k
    · subst hi
      rw [if_pos rfl, ih]
      split
      · rfl
      next hj => simp [mfind, Ne.symm hj]
    · rw [if_neg hi, mfind, ih, mfind]
      by_cases hj : i = j
      · subst hj
        simp [hi]
      · simp [hj]

theorem State.line?_modDie {s : State} {d : Nat} {f : Die → Die} (hf : ∀ D, (f D).l2 = D.l2) (d' ln : Nat) :
    (s.modDie d f).line? d' ln = s.line? d' ln := by
  rw [State.line?, State.die_modDie]
  split
  · rw [hf]
    rfl
  · rfl

theorem State.line?_beyond {s : State} {d : Nat} (h : s.dies.length ≤ d) (ln : Nat) : s.line? d ln = none := by
  rw [State.line?, State.die, lget_beyond _ _ _ h]
  rfl

theorem State.line?_delLine (s : State) (d ln d' ln' : Nat) :
    (s.delLine d ln).line? d' ln' = if d' = d ∧ ln' = ln then none else s.line? d' ln' := by
  show (s.modDie d fun D => { D with l2 := mdel ln D.l2 }).line? d' ln' = _
  rw [State.line?, State.die_modDie]
  by_cases hd : d' = d
  · subst hd
    by_cases hb : d' < s.dies.length
    · rw [if_pos ⟨rfl, hb⟩]
      simp only [mfind_mdel, true_and]
      rfl
    · rw [if_neg fun h => hb h.2]
      show s.line? d' ln' = _
      rw [State.line?_beyond (by omega), ite_self]
  · rw [if_neg fun h => hd h.1, if_neg fun h => hd h.1]
    rfl

theorem State.line?_putLine (s : State) {d : Nat} (hd : d < s.dies.length) (ln : Nat) (l : L2Line) (d' ln' : Nat) :
    (s.putLine d ln l).line? d' ln' = if d' = d ∧ ln' = ln then some l else s.line? d' ln' := by
  rw [State.putLine, State.line?, State.die_modDie]
  by_cases h : d' = d
  · subst h
    rw [if_pos ⟨rfl, hd⟩]
    simp only [mfind_mput, true_and]
    rfl
  · rw [if_neg fun k => h k.1, if_neg fun k => h k.1]
    rfl

theorem State.line?_lt {s : State} {d ln : Nat} {l : L2Line} (h : s.line? d ln = some l) : d < s.dies.length := by
  by_contra hd
  rw [State.line?_beyond (by omega)] at h
  cases h

theorem State.line?_countDie (s : State) (d k n d' ln' : Nat) : (s.countDie d k n).line? d' ln' = s.line? d' ln' := by
  unfold State.countDie
  exact State.line?_modDie (by exact fun _ => rfl) d' ln'

/-- No slice has gained a line. -/
def State.NoNew (s s' : State) : Prop := ∀ d ln, s.line? d ln = none → s'.line? d ln = none

theorem State.NoNew.trans {s t u : State} (h : s.NoNew t) (k : t.NoNew u) : s.NoNew u := fun d ln hn => k d ln (h d ln hn)

theorem State.noNew_of_line? {s s' : State} (h : ∀ d ln, s'.line? d ln = s.line? d ln) : s.NoNew s' :=
  fun d ln hn => (h d ln).trans hn

theorem State.noNew_writeBack (s : State) (d ln : Nat) : s.NoNew (s.writeBack d ln) := by
  unfold State.writeBack
  split
  · exact fun _ _ h => h
  next l hl =>
    split
    · exact fun _ _ h => h
    · intro d' ln' h
      refine (State.line?_countDie ..).trans ?_
      refine (State.line?_putLine _ (State.line?_lt (s := s) hl) ..).trans ((if_neg ?_).trans h)
      rintro ⟨rfl, rfl⟩
      exact absurd (h.symm.trans hl) nofun

theorem State.noNew_delLine (s : State) (d ln : Nat) : s.NoNew (s.delLine d ln) := fun d' ln' h => by
  rw [State.line?_delLine, h, ite_self]

theorem State.line?_askAs (s : State) (d ln : Nat) (m : CxlMsg) (b : Option (Memory × List Nat)) (r : CxlWait) (d' ln' : Nat) :
    (s.askAs d ln m b r).line? d' ln' = s.line? d' ln' := by
  unfold State.askAs State.sendCxl
  exact (State.line?_modDie (by exact fun _ => rfl) d' ln').trans (State.line?_modDie (by exact fun _ => rfl) d' ln')

theorem State.line?_sendWb (s : State) (d ln : Nat) (m : CxlMsg) (l : L2Line) (d' ln' : Nat) :
    (s.sendWb d ln m l).line? d' ln' = s.line? d' ln' := State.line?_askAs ..

theorem State.line?_askCxl (s : State) (d ln : Nat) (k : CxlReq) (w : Asker) (keep : Bool) (d' ln' : Nat) :
    (s.askCxl d ln k w keep).line? d' ln' = s.line? d' ln' := State.line?_askAs ..

/-- A line that is put out of its slice is gone, where it did not only hold bytes that await ownership. -/
theorem State.line?_leave {s : State} {d ln : Nat} {l : L2Line} (hl : s.line? d ln = some l)
    (h : (l.coherent && l.st == .i) = false) : (s.leave d ln).line? d ln = none := by
  have hgone : ∀ u : State, (u.delLine d ln).line? d ln = none := fun u => by
    rw [State.line?_delLine, if_pos ⟨rfl, rfl⟩]
  unfold State.leave
  simp only [hl]
  split
  next hc =>
    rw [hc, Bool.true_and] at h
    split
    · exact (State.line?_sendWb ..).trans (hgone _)
    · exact (State.line?_sendWb ..).trans (hgone _)
    · exact (State.line?_askCxl ..).trans (hgone _)
    · exact (State.line?_askCxl ..).trans (hgone _)
    next hi => rw [hi] at h; cases h
  · exact hgone _

theorem State.noNew_leave (s : State) (d ln : Nat) : s.NoNew (s.leave d ln) := by
  have hdrop : s.NoNew ((s.writeBack d ln).delLine d ln) := (s.noNew_writeBack d ln).trans (State.noNew_delLine _ _ _)
  unfold State.leave
  split
  · exact fun _ _ h => h
  · split
    · split
      · exact hdrop.trans (State.noNew_of_line? fun _ _ => State.line?_sendWb ..)
      · exact hdrop.trans (State.noNew_of_line? fun _ _ => State.line?_sendWb ..)
      · exact (s.noNew_delLine d ln).trans (State.noNew_of_line? fun _ _ => State.line?_askCxl ..)
      · exact (s.noNew_delLine d ln).trans (State.noNew_of_line? fun _ _ => State.line?_askCxl ..)
      · split
        · exact s.noNew_delLine d ln
        · exact fun _ _ h => h
    · exact hdrop

/-- One line of a page given up. -/
def State.dropLine (s : State) (h ln : Nat) : State :=
  match s.line? h ln with
  | some l => if l.coherent && l.st == .i then (s.writeBack h ln).delLine h ln else s.leave h ln
  | none => s

theorem State.dropPage_eq {p : Pte} {h : Nat} (s : State) (hp : p.home = some h) :
    s.dropPage p = ((s.pageLines h p).foldl (fun s ln => s.dropLine h ln) s).dropPageL1 h p := by
  rw [State.dropPage, hp]
  rfl

theorem State.noNew_dropLine (s : State) (h ln : Nat) : s.NoNew (s.dropLine h ln) := by
  unfold State.dropLine
  split
  · split
    · exact (s.noNew_writeBack h ln).trans (State.noNew_delLine _ _ _)
    · exact s.noNew_leave h ln
  · exact fun _ _ h => h

theorem State.line?_dropLine (s : State) (h ln : Nat) : (s.dropLine h ln).line? h ln = none := by
  unfold State.dropLine
  split
  next l hl =>
    split
    · rw [State.line?_delLine, if_pos ⟨rfl, rfl⟩]
    next hc => exact State.line?_leave hl (Bool.eq_false_iff.mpr hc)
  · assumption

theorem State.noNew_foldl {α : Type} {f : State → α → State} (hf : ∀ (s : State) a, s.NoNew (f s a)) (xs : List α) (s : State) :
    s.NoNew (xs.foldl f s) :=
  List.foldlRecOn xs f (motive := s.NoNew) (fun _ _ h => h) fun t ht a _ => ht.trans (hf t a)

theorem State.line?_dropLines {lns : List Nat} {ln : Nat} (hm : ln ∈ lns) (s : State) (h : Nat) :
    (lns.foldl (fun s ln => s.dropLine h ln) s).line? h ln = none := by
  induction lns generalizing s with
  | nil => cases hm
  | cons k lns ih =>
    rcases List.mem_cons.mp hm with rfl | hm
    · exact State.noNew_foldl (fun s a => s.noNew_dropLine h a) lns _ _ _ (s.line?_dropLine h ln)
    · exact ih hm _

theorem State.line?_dropPageL1 (s : State) (h : Nat) (p : Pte) (d ln : Nat) : (s.dropPageL1 h p).line? d ln = s.line? d ln := by
  by_cases hd : d < s.dies.length
  · rw [State.line?, State.die, State.dropPageL1, lget_map Die.reset Die.reset _ _ hd]
    rfl
  · rw [State.line?_beyond (s := s) (by omega), State.line?_beyond (by simpa [State.dropPageL1] using hd)]

theorem State.noNew_dropPage (s : State) (p : Pte) : s.NoNew (s.dropPage p) := by
  cases hp : p.home with
  | none => rw [State.dropPage, hp]; exact fun _ _ h => h
  | some h =>
    rw [s.dropPage_eq hp]
    exact (State.noNew_foldl (fun s a => s.noNew_dropLine h a) _ s).trans
      (State.noNew_of_line? fun _ _ => State.line?_dropPageL1 ..)

theorem State.line?_dropPage {p : Pte} {h ln : Nat} (s : State) (hp : p.home = some h) (hln : p.holds ln = true) :
    (s.dropPage p).line? h ln = none := by
  rw [s.dropPage_eq hp, State.line?_dropPageL1]
  cases hl : s.line? h ln with
  | none => exact State.noNew_foldl (fun s a => s.noNew_dropLine h a) _ s h ln hl
  | some l =>
    exact State.line?_dropLines (List.mem_map.mpr ⟨(ln, l), List.mem_filter.mpr ⟨mfind_mem hl, hln⟩, rfl⟩) s h

/-- The lines of pages that are dropped one after another. -/
theorem State.line?_dropPages {ps : List (Nat × Pte)} {e : Nat × Pte} {h ln : Nat} (hm : e ∈ ps) (hp : e.2.home = some h)
    (hln : e.2.holds ln = true) (s : State) : (ps.foldl (fun s e => s.dropPage e.2) s).line? h ln = none := by
  induction ps generalizing s with
  | nil => cases hm
  | cons f ps ih =>
    rcases List.mem_cons.mp hm with rfl | hm
    · exact State.noNew_foldl (fun s e => s.noNew_dropPage e.2) ps _ _ _ (s.line?_dropPage hp hln)
    · exact ih hm _

/-! ### Pages that are dropped keep the page tables -/

theorem State.writeBack_subs (s : State) (d ln : Nat) : (s.writeBack d ln).subs = s.subs := by
  unfold State.writeBack
  split
  · rfl
  · split <;> rfl

theorem State.delLine_subs (s : State) (d ln : Nat) : (s.delLine d ln).subs = s.subs := rfl

theorem State.sendWb_subs (s : State) (d ln : Nat) (m : CxlMsg) (l : L2Line) : (s.sendWb d ln m l).subs = s.subs := rfl

theorem State.askCxl_subs (s : State) (d ln : Nat) (k : CxlReq) (w : Asker) (keep : Bool) :
    (s.askCxl d ln k w keep).subs = s.subs := rfl

theorem State.leave_subs (s : State) (d ln : Nat) : (s.leave d ln).subs = s.subs := by
  unfold State.leave
  split
  · rfl
  · split
    · split
      · rw [State.sendWb_subs, State.delLine_subs, State.writeBack_subs]
      · rw [State.sendWb_subs, State.delLine_subs, State.writeBack_subs]
      · rw [State.askCxl_subs, State.delLine_subs]
      · rw [State.askCxl_subs, State.delLine_subs]
      · split <;> rfl
    · rw [State.delLine_subs, State.writeBack_subs]

theorem State.dropPage_subs (s : State) (p : Pte) : (s.dropPage p).subs = s.subs := by
  unfold State.dropPage
  split
  · rfl
  next h _ =>
    refine List.foldlRecOn (s.pageLines h p) _ (motive := fun t : State => t.subs = s.subs) rfl fun t ht ln _ => ?_
    split
    · split
      · rw [State.delLine_subs, State.writeBack_subs, ht]
      · exact (t.leave_subs h ln).trans ht
    · exact ht

end Sys2Proof.Machine
end

section
namespace Sys2Proof.Machine

/-! ### UNMAP, PROTECT and the rings -/

section
variable {s : State} {c : Command}

theorem State.sub?_congr {t : State} (h : t.subs = s.subs) (sid : Nat) : t.sub? sid = s.sub? sid := by
  rw [State.sub?, h]
  rfl

/-- Pages given up one after another. -/
def State.dropPages (s : State) (ps : List (Nat × Pte)) : State := ps.foldl (fun s e => s.dropPage e.2) s

theorem State.kept_dropPages (s : State) (ps : List (Nat × Pte)) : s.Kept (s.dropPages ps) :=
  kept_foldl (State.Kept.refl s) fun _ _ h => kept_dropPage h

theorem State.dropPages_subs (s : State) (ps : List (Nat × Pte)) : (s.dropPages ps).subs = s.subs :=
  List.foldlRecOn ps _ (motive := fun t : State => t.subs = s.subs) rfl fun t ht e _ => (t.dropPage_subs e.2).trans ht

theorem State.pagesOf_modSub {t : State} {sid : Nat} {u : Submitter} {f : Submitter → Submitter} (h : t.sub? sid = some u)
    (hf : ∀ v, (f v).sid = v.sid) : (t.modSub sid f).pagesOf sid = (f u).pages :=
  State.pagesOf_of_sub (State.sub?_modSub_same h hf)

theorem unmap_unmaps {u : Submitter} {ps : List (Nat × Pte)} (h : s.started c.id 0x13 = some c)
    (hu : s.sub? c.sid = some u) (hps : s.pagesNamed c = some ps) (hq : (ps.all fun e => s.pageQuiet c.sid e.2) = true) :
    ∃ s', execUnmap c.id s = .next s' ∧ s'.Ended c.id c.st 0 0 ∧
      (∀ e ∈ s'.pagesOf c.sid, e ∈ u.pages ∧ ∀ q ∈ ps, q.1 ≠ e.1) ∧
      (∀ e ∈ u.pages, (∀ q ∈ ps, q.1 ≠ e.1) → e ∈ s'.pagesOf c.sid) ∧
      ∀ e ∈ ps, ∀ h ln, e.2.home = some h → e.2.holds ln = true → s'.line? h ln = none := by
  have hsub : (s.dropPages ps).sub? c.sid = some u := (State.sub?_congr (s.dropPages_subs ps) _).trans hu
  have hpages : ((s.dropPages ps).modSub c.sid fun u => { u with
      pages := u.pages.filter fun e => !ps.any fun q => q.1 == e.1 }).pagesOf c.sid =
      u.pages.filter fun e => !ps.any fun q => q.1 == e.1 := State.pagesOf_modSub hsub (by exact fun _ => rfl)
  refine ⟨((s.dropPages ps).modSub c.sid fun u => { u with
    pages := u.pages.filter fun e => !ps.any fun q => q.1 == e.1 }).effectDone c.id 0 0 0 [], ?_, ?_, fun e he => ?_,
    fun e he hne => ?_, fun e he d ln hd hln => State.line?_dropPages he hd hln s⟩
  · rw [execUnmap, runCmd_of_started h]
    simp only [hps, hq]
    rfl
  · exact State.ended_effectDone (s := (s.dropPages ps).modSub _ _)
      (((s.kept_dropPages ps).cmd? _).trans (State.started_cmd? h).1) 0 0 []
  · obtain ⟨hmem, hkey⟩ := List.mem_filter.mp (hpages ▸ he)
    simp only [Bool.not_eq_true', List.any_eq_false, beq_iff_eq] at hkey
    exact ⟨hmem, hkey⟩
  · refine (hpages ▸ List.mem_filter.mpr ⟨he, ?_⟩ : e ∈ ((s.dropPages ps).modSub c.sid _).pagesOf c.sid)
    simpa using fun a b hq => hne (a, b) hq

theorem unmap_waits {ps : List (Nat × Pte)} (h : s.started c.id 0x13 = some c) (hps : s.pagesNamed c = some ps)
    (hq : (ps.all fun e => s.pageQuiet c.sid e.2) = false) : execUnmap c.id s = .next s := by
  rw [execUnmap, runCmd_of_started h]
  simp only [hps, hq]
  rfl

theorem unmap_rejects (h : s.started c.id 0x13 = some c) (hps : s.pagesNamed c = none) :
    ∃ s', execUnmap c.id s = .next s' ∧ s'.Ended c.id c.st 0x02 0x80 ∧ s'.subs = s.subs := by
  refine ⟨s.effectDone c.id 0x02 0x80 0 [], ?_, State.ended_effectDone (State.started_cmd? h).1 _ _ _, rfl⟩
  rw [execUnmap, runCmd_of_started h]
  simp only [hps]

/-- Whether PROTECT would change a page to or from the kind of a device. -/
theorem kindMixed_iff (ps : List (Nat × Pte)) (k : PageKind) :
    (ps.any fun e => (e.2.kind == .device) != (k == .device)) = true ↔ ∃ e ∈ ps, ¬ (e.2.kind = .device ↔ k = .device) := by
  rw [List.any_eq_true]
  refine exists_congr fun e => and_congr_right fun _ => ?_
  rw [bne_iff_ne, ne_eq, Bool.eq_iff_iff, beq_iff_eq, beq_iff_eq]

theorem protect_protects {u : Submitter} {ps : List (Nat × Pte)} (h : s.started c.id 0x14 = some c)
    (hu : s.sub? c.sid = some u) (hps : s.pagesNamed c = some ps) (hq : (ps.all fun e => s.pageQuiet c.sid e.2) = true)
    (hk : ∀ e ∈ ps, (e.2.kind = .device ↔ (pteOf (fld c.msg 0x88 8) 0).kind = .device)) :
    ∃ s', execProtect c.id s = .next s' ∧ s'.Ended c.id c.st 0 0 ∧ ∀ e ∈ u.pages,
      (if ∃ q ∈ ps, q.1 = e.1 then (e.1, e.2.protect (fld c.msg 0x88 8)) else e) ∈ s'.pagesOf c.sid := by
  let t := fld c.msg 0x88 8
  let d := ps.foldl (fun s e => if e.2.kind = (pteOf t 0).kind then s else s.dropPage e.2) s
  have hkept : s.Kept d := kept_foldl (State.Kept.refl s) fun _ _ h => canon_ite h (kept_dropPage h)
  have hsubs : d.subs = s.subs := List.foldlRecOn ps _ (motive := fun t : State => t.subs = s.subs) rfl
    fun v hv e _ => canon_ite (motive := fun t : State => t.subs = s.subs) hv ((v.dropPage_subs e.2).trans hv)
  have hpages : (d.modSub c.sid fun u => { u with pages := u.pages.map fun e =>
      if (ps.any fun q => q.1 == e.1) = true then (e.1, e.2.protect t) else e }).pagesOf c.sid =
      u.pages.map fun e => if (ps.any fun q => q.1 == e.1) = true then (e.1, e.2.protect t) else e :=
    State.pagesOf_modSub ((State.sub?_congr hsubs _).trans hu) (by exact fun _ => rfl)
  refine ⟨(d.modSub c.sid fun u => { u with pages := u.pages.map fun e =>
    if (ps.any fun q => q.1 == e.1) = true then (e.1, e.2.protect t) else e }).effectDone c.id 0 0 0 [], ?_, ?_, fun e he => ?_⟩
  · have hmix : (ps.any fun e => (e.2.kind == .device) != ((pteOf (fld c.msg 0x88 8) 0).kind == .device)) = false :=
      Bool.eq_false_iff.mpr fun hc => by
        obtain ⟨e, he, hne⟩ := (kindMixed_iff ps _).mp hc
        exact hne (hk e he)
    rw [execProtect, runCmd_of_started h]
    simp only [hps, hq, hmix]
    rfl
  · exact State.ended_effectDone (s := d.modSub _ _) ((hkept.cmd? _).trans (State.started_cmd? h).1) 0 0 []
  · refine (hpages ▸ List.mem_map.mpr ⟨e, he, ?_⟩ : _ ∈ (d.modSub c.sid _).pagesOf c.sid)
    refine if_congr ?_ rfl rfl
    simp only [List.any_eq_true, beq_iff_eq]

theorem protect_rejects {ps : List (Nat × Pte)} (h : s.started c.id 0x14 = some c) (hps : s.pagesNamed c = some ps)
    (hk : ∃ e ∈ ps, ¬ (e.2.kind = .device ↔ (pteOf (fld c.msg 0x88 8) 0).kind = .device)) :
    ∃ s', execProtect c.id s = .next s' ∧ s'.Ended c.id c.st 0x02 0x8F ∧ s'.subs = s.subs := by
  refine ⟨s.effectDone c.id 0x02 0x8F 0 [], ?_, State.ended_effectDone (State.started_cmd? h).1 _ _ _, rfl⟩
  rw [execProtect, runCmd_of_started h]
  simp only [hps]
  exact congrArg Host.Outcome.next (if_pos ((kindMixed_iff ps _).mpr hk))

/-! ### Amax rings -/

/-- The rings that a command names. -/
def Command.rings (c : Command) : List Nat := (List.range (fld c.msg 0x82 2)).map (fld c.msg 0x80 2 + ·)

theorem Command.mem_rings {r : Nat} :
    r ∈ c.rings ↔ fld c.msg 0x80 2 ≤ r ∧ r < fld c.msg 0x80 2 + fld c.msg 0x82 2 := by
  simp only [Command.rings, List.mem_map, List.mem_range]
  exact ⟨fun ⟨k, hk, he⟩ => by omega, fun h => ⟨r - fld c.msg 0x80 2, by omega, by omega⟩⟩

/-- Whether another submitter holds a ring of a list. -/
theorem heldElsewhere_iff (m : List (Nat × Nat)) (rs : List Nat) (sid : Nat) :
    (rs.any fun r => mfind m r != none && mfind m r != some sid) = true ↔ ∃ r ∈ rs, ∃ v, mfind m r = some v ∧ v ≠ sid := by
  simp only [List.any_eq_true, Bool.and_eq_true, bne_iff_ne, ne_eq]
  refine exists_congr fun r => and_congr_right fun _ => ?_
  cases mfind m r with
  | none => simp
  | some v => simp

theorem ringallot_refuses (h : s.started c.id 0x15 = some c)
    (hr : ∃ r ∈ c.rings, ∃ v, mfind s.ringOwner r = some v ∧ v ≠ c.sid) :
    execRingallot c.id s = .next (s.effectDone c.id 0x04 0 0 []) := by
  rw [execRingallot, runCmd_of_started h]
  exact congrArg Host.Outcome.next (if_pos ((heldElsewhere_iff ..).mpr hr))

/-- The state with some rings allotted to a submitter, each set anew on every die. -/
def State.allotRings (s : State) (sid : Nat) (rs : List Nat) : State :=
  { s with ringOwner := rs.foldl (fun m r => mput r sid m) s.ringOwner
           dies := s.dies.map fun D => { D with rings := D.rings.filter fun e => !rs.contains e.1 } }

/-- The named rings that nobody holds. -/
def State.freshRings (s : State) (c : Command) : List Nat := c.rings.filter fun r => mfind s.ringOwner r == none

theorem ringallot_allots (h : s.started c.id 0x15 = some c)
    (hr : ∀ r ∈ c.rings, ∀ v, mfind s.ringOwner r = some v → v = c.sid) :
    execRingallot c.id s = .next ((s.allotRings c.sid (s.freshRings c)).effectDone c.id 0 0 0 []) := by
  rw [execRingallot, runCmd_of_started h]
  refine congrArg Host.Outcome.next (if_neg fun hc => ?_)
  obtain ⟨r, hm, v, hv, hne⟩ := (heldElsewhere_iff ..).mp hc
  exact hne (hr r hm v hv)

theorem State.ring_allotRings (s : State) (sid : Nat) (rs : List Nat) (d r : Nat) :
    (s.allotRings sid rs).ring d r = if r ∈ rs then Ring.new else s.ring d r := by
  by_cases hd : d < s.dies.length
  · rw [State.ring, State.die, State.allotRings, lget_map Die.reset Die.reset _ _ hd]
    show mget Ring.new (List.filter (fun e => !rs.contains e.1) _) r = _
    rw [mget_filter_key Ring.new (fun k => !rs.contains k)]
    by_cases hm : r ∈ rs
    · simp [hm]
    · simp [hm, State.ring, State.die]
  · have hb : ∀ t : State, t.dies.length = s.dies.length → t.ring d r = Ring.new := fun t ht => by
      rw [State.ring, State.die, lget_beyond _ _ _ (by omega)]
      rfl
    rw [hb s rfl, hb _ (List.length_map _), ite_self]

theorem mem_freshRings {r : Nat} : r ∈ s.freshRings c ↔ r ∈ c.rings ∧ mfind s.ringOwner r = none := by
  simp [State.freshRings]

theorem mfind_allotted (hr : ∀ r ∈ c.rings, ∀ v, mfind s.ringOwner r = some v → v = c.sid) (r : Nat) :
    mfind (s.allotRings c.sid (s.freshRings c)).ringOwner r = if r ∈ c.rings then some c.sid else mfind s.ringOwner r := by
  refine (mfind_foldl_mput ..).trans ?_
  by_cases hm : r ∈ c.rings
  · rw [if_pos hm]
    cases ho : mfind s.ringOwner r with
    | none => rw [if_pos (mem_freshRings.mpr ⟨hm, ho⟩)]
    | some v => rw [ite_eq_left_iff.mpr fun _ => congrArg some (hr r hm v ho)]
  · rw [if_neg hm, if_neg fun h => hm (mem_freshRings.mp h).1]

theorem ringallot_ends (h : s.started c.id 0x15 = some c) :
    ∃ s', execRingallot c.id s = .next s' ∧
      ((∃ r v, (fld c.msg 0x80 2 ≤ r ∧ r < fld c.msg 0x80 2 + fld c.msg 0x82 2) ∧ mfind s.ringOwner r = some v ∧ v ≠ c.sid) →
        s'.Ended c.id c.st 0x04 0 ∧ s'.ringOwner = s.ringOwner) ∧
      ((∀ r v, fld c.msg 0x80 2 ≤ r ∧ r < fld c.msg 0x80 2 + fld c.msg 0x82 2 → mfind s.ringOwner r = some v → v = c.sid) →
        s'.Ended c.id c.st 0 0 ∧
        (∀ r, mfind s'.ringOwner r = if fld c.msg 0x80 2 ≤ r ∧ r < fld c.msg 0x80 2 + fld c.msg 0x82 2 then some c.sid
          else mfind s.ringOwner r) ∧
        ∀ d r, s'.ring d r = if (fld c.msg 0x80 2 ≤ r ∧ r < fld c.msg 0x80 2 + fld c.msg 0x82 2) ∧ mfind s.ringOwner r = none
          then { entries := List.replicate 16 0, head := 0 } else s.ring d r) := by
  simp only [← Command.mem_rings]
  have hcmd := (State.started_cmd? h).1
  by_cases hr : ∃ r ∈ c.rings, ∃ v, mfind s.ringOwner r = some v ∧ v ≠ c.sid
  · refine ⟨_, ringallot_refuses h hr, fun _ => ⟨State.ended_effectDone hcmd 0x04 0 [], rfl⟩, fun hall => ?_⟩
    obtain ⟨r, hm, v, hv, hne⟩ := hr
    exact absurd (hall r v hm hv) hne
  · have hall : ∀ r ∈ c.rings, ∀ v, mfind s.ringOwner r = some v → v = c.sid := fun r hm v hv =>
      by_contra fun hne => hr ⟨r, hm, v, hv, hne⟩
    refine ⟨_, ringallot_allots h hall, fun ⟨r, v, hm, hv, hne⟩ => absurd (hall r hm v hv) hne, fun _ =>
      ⟨State.ended_effectDone (s := s.allotRings c.sid (s.freshRings c)) hcmd 0 0 [], mfind_allotted hall, fun d r => ?_⟩⟩
    refine (s.ring_allotRings c.sid (s.freshRings c) d r).trans ?_
    simp only [mem_freshRings]
    rfl

theorem ringfree_ends (h : s.started c.id 0x16 = some c) :
    ∃ s', execRingfree c.id s = .next s' ∧
      (s.ringsNamed c.sid (fld c.msg 0x80 2) (fld c.msg 0x82 2) = true → s' = s) ∧
      (s.ringsNamed c.sid (fld c.msg 0x80 2) (fld c.msg 0x82 2) = false → s'.Ended c.id c.st 0 0 ∧
        ∀ r, fld c.msg 0x80 2 ≤ r ∧ r < fld c.msg 0x80 2 + fld c.msg 0x82 2 → mfind s'.ringOwner r ≠ some c.sid) := by
  rw [execRingfree, runCmd_of_started h]
  refine ⟨_, rfl, fun hn => if_pos hn, fun hn => ?_⟩
  dsimp only
  rw [if_neg (Bool.eq_false_iff.mp hn)]
  refine ⟨State.ended_effectDone (s := { s with ringOwner := _ }) (State.started_cmd? h).1 0 0 [], fun r hr hc => ?_⟩
  have := (List.mem_filter.mp (mfind_mem hc)).2
  simp only [beq_self_eq_true, Bool.true_and, decide_eq_true hr] at this
  cases this

end

end Sys2Proof.Machine
end

section
namespace Sys2Proof.Machine

/-! ### Membership tables -/

/-- A slot of a table that is none. -/
def Member.none_ : Member := { addr := 0, live := false, failedAt := none }

/-- A slot of a table. -/
def Group.slot (g : Group) (k : Nat) : Member := lget Member.none_ g.members k

theorem Group.slot_lt {g : Group} {k : Nat} (h : (g.slot k).live = true) : k < g.members.length := by
  by_contra hk
  rw [Group.slot, lget_beyond _ _ _ (by omega)] at h
  cases h

theorem getElem?_of_lget {α : Type} (z : α) {xs : List α} {k : Nat} (h : k < xs.length) : xs[k]? = some (lget z xs k) := by
  induction xs generalizing k with
  | nil => simp at h
  | cons x xs ih =>
    cases k with
    | zero => rfl
    | succ k => exact ih (by simpa using h)

theorem lget_range (z : Nat) {n k : Nat} (h : k < n) : lget z (List.range n) k = k := by
  have := getElem?_of_lget z (xs := List.range n) (k := k) (by simpa using h)
  simpa [List.getElem?_range h] using this.symm

theorem lget_map_range {α : Type} (w : α) (f : Nat → α) {n k : Nat} (h : k < n) : lget w ((List.range n).map f) k = f k := by
  rw [lget_map 0 w f _ (by simpa using h), lget_range _ h]

section
variable {s : State} {c : Command} {g : Group}

theorem State.group?_num {n : Nat} (h : s.group? n = some g) : g.num = n := by simpa using List.find?_some h

theorem State.group?_modGroup {n : Nat} {f : Group → Group} (h : s.group? n = some g) (hf : ∀ v, (f v).num = v.num) :
    (s.modGroup n f).group? n = some (f g) := by
  have hname : ∀ v : Group, (if v.num = n then f v else v).num = v.num := fun v => by split <;> simp [hf]
  rw [State.group?, State.modGroup, List.find?_map]
  simp only [Function.comp_def, hname]
  rw [show s.groups.find? _ = _ from h, Option.map_some, if_pos (State.group?_num h)]

theorem State.group?_congr {t : State} (h : t.groups = s.groups) (n : Nat) : t.group? n = s.group? n := by
  rw [State.group?, h]
  rfl

/-! #### The commands of a table -/

/-- Commands that all end well. -/
def State.endAll (s : State) (ids : List Nat) : State := ids.foldl (fun s id => s.effectDone id 0 0 0 []) s

theorem State.endAll_groups (s : State) (ids : List Nat) : (s.endAll ids).groups = s.groups :=
  List.foldlRecOn ids _ (motive := fun t : State => t.groups = s.groups) rfl fun _ ht _ _ => ht

theorem State.endAll_troupes (s : State) (ids : List Nat) : (s.endAll ids).troupes = s.troupes :=
  List.foldlRecOn ids _ (motive := fun t : State => t.troupes = s.troupes) rfl fun _ ht _ _ => ht

theorem State.Ended.effectDone {id j : Nat} {x : CmdState} (h : s.Ended id x 0 0) : (s.effectDone j 0 0 0 []).Ended id x 0 0 := by
  obtain ⟨d, hd, he, hs, h0, h1, hx⟩ := h
  by_cases hj : id = j
  · subst hj
    have hid := State.cmd?_id hd
    subst hid
    exact ⟨_, State.cmd?_effectDone hd 0 0 0 [], rfl, rfl, rfl, rfl, hx⟩
  · exact ⟨d, (State.cmd?_effectDone_other hj).trans hd, he, hs, h0, h1, hx⟩

theorem State.ended_of_effectDone {id : Nat} {d : Command} (h : s.cmd? id = some d) :
    (s.effectDone id 0 0 0 []).Ended id d.st 0 0 := by
  obtain rfl := State.cmd?_id h
  exact State.ended_effectDone h 0 0 []

theorem State.endAll_ended {ids : List Nat} (h : s.cmd? c.id = some c) (hm : c.id ∈ ids) :
    (s.endAll ids).Ended c.id c.st 0 0 := by
  have hkeep : ∀ (ids : List Nat) (t : State), t.Ended c.id c.st 0 0 → (t.endAll ids).Ended c.id c.st 0 0 := fun ids t ht =>
    List.foldlRecOn ids _ (motive := fun u : State => u.Ended c.id c.st 0 0) ht fun _ hu _ _ => hu.effectDone
  suffices hgo : ∀ t : State, (∃ d, t.cmd? c.id = some d ∧ d.st = c.st) → (t.endAll ids).Ended c.id c.st 0 0 from hgo s ⟨c, h, rfl⟩
  induction ids with
  | nil => cases hm
  | cons j ids ih =>
    rintro t ⟨d, hd, hst⟩
    by_cases hj : c.id = j
    · subst hj
      exact hkeep ids _ (hst ▸ State.ended_of_effectDone hd)
    · exact ih (List.mem_of_ne_of_mem hj hm) _ ⟨d, (State.cmd?_effectDone_other hj).trans hd, hst⟩

theorem State.activate_group (h : s.group? g.num = some g) (u : Group) (hu : u.num = g.num) :
    (s.activate u).group? g.num = some { g with st := .active, gen := 0 } := by
  refine (State.group?_congr ((State.endAll_groups _ u.cmds).trans rfl) _).trans ?_
  rw [hu]
  exact State.group?_modGroup (f := fun g => { g with st := .active, gen := 0 }) h fun _ => rfl

/-- A table as it stands once it has been looked at for its early activation (R389). -/
def Group.tried (g : Group) : Group :=
  if g.st = .forming ∧ (g.members.all fun m => m.live || m.lost) = true then { g with st := .active, gen := 0 } else g

theorem State.tryActivate_group {n : Nat} (h : s.group? n = some g) : (s.tryActivate n).group? n = some g.tried := by
  have hn := State.group?_num h
  subst hn
  unfold State.tryActivate Group.tried
  simp only [h]
  split
  · exact State.activate_group h g rfl
  · exact h

/-! #### GROUP -/

theorem State.noCmd_of {id : Nat} (h : ∀ g ∈ s.groups, id ∉ g.cmds) : (s.groups.any fun g => g.cmds.contains id) = false :=
  List.any_eq_false.mpr fun g hg => by simpa using h g hg

theorem execGroup_bars {st d : Nat} (h : s.started c.id 0x17 = some c) (hc : ∀ g ∈ s.groups, c.id ∉ g.cmds)
    (hg : s.group? (fld c.msg 0x80 1) = some g) (hb : g.bars c.sid = some (st, d)) :
    execGroup c.id s = .next (s.effectDone c.id st d 0 []) := by
  rw [execGroup, runCmd_of_started h]
  simp only [State.noCmd_of hc, hg, Option.bind_some, hb]
  rfl

theorem group_barred (h : s.started c.id 0x17 = some c) (hc : ∀ g ∈ s.groups, c.id ∉ g.cmds)
    (hg : s.group? (fld c.msg 0x80 1) = some g) (hb : g.sid ≠ c.sid ∨ g.st = .active) :
    ∃ s', execGroup c.id s = .next s' ∧ s'.groups = s.groups ∧
      s'.Ended c.id c.st (if g.sid ≠ c.sid then 0x04 else 0x02) (if g.sid ≠ c.sid then 0 else 0x80) := by
  have hcmd := (State.started_cmd? h).1
  by_cases hs : g.sid ≠ c.sid
  · rw [if_pos hs, if_pos hs]
    exact ⟨_, execGroup_bars h hc hg (if_pos hs), rfl, State.ended_effectDone hcmd _ _ _⟩
  · rw [if_neg hs, if_neg hs]
    exact ⟨_, execGroup_bars h hc hg ((if_neg hs).trans (if_pos (hb.resolve_left hs))), rfl, State.ended_effectDone hcmd _ _ _⟩

/-- The commands of a table that still forms. -/
def formingCmds (o : Option Group) : List Nat :=
  match o with
  | some g => if g.st = .forming then g.cmds else []
  | none => []

theorem mem_formingCmds {o : Option Group} {d : Nat} : d ∈ formingCmds o ↔ ∃ g, o = some g ∧ g.st = .forming ∧ d ∈ g.cmds := by
  cases o with
  | none => simp [formingCmds]
  | some g =>
    simp only [formingCmds, Option.some.injEq, exists_eq_left']
    split <;> simp [*]

variable {s1 : State} {bs : List Byte} {ls : List (Nat × Nat)}

/-- The table that GROUP enters. -/
def Group.entered (c : Command) (bs : List Byte) (now : Nat) (old : Option Group) : Group :=
  { Group.forms c bs now with also := formingCmds old }

theorem execGroup_forms (h : s.started c.id 0x17 = some c) (hc : ∀ g ∈ s.groups, c.id ∉ g.cmds)
    (hfree : ∀ g, s.group? (fld c.msg 0x80 1) = some g → g.sid = c.sid ∧ g.st ≠ .active)
    (hr : s.svcRead c.sid (fld c.msg 0x88 8) 0 (16 * fld c.msg 0x82 2) = .ok s1 bs ls)
    (hz : ∀ k, k < fld c.msg 0x82 2 → fld bs (16 * k + 8) 8 = 0) :
    execGroup c.id s = .next (({ s1 with groups := (s1.groups.filter fun g => g.num != fld c.msg 0x80 1) ++
      [Group.entered c bs s1.now (s1.group? (fld c.msg 0x80 1))] } : State).tryActivate (fld c.msg 0x80 1)) := by
  have hb : ((s.group? (fld c.msg 0x80 1)).bind fun g => g.bars c.sid) = none := by
    cases hg : s.group? (fld c.msg 0x80 1) with
    | none => rfl
    | some g =>
      obtain ⟨hs, ha⟩ := hfree g hg
      exact (if_neg (not_not.mpr hs)).trans (if_neg ha)
  have hzero : ((List.range (fld c.msg 0x82 2)).any fun k => fld bs (16 * k + 8) 8 != 0) = false :=
    List.any_eq_false.mpr fun k hk => by simpa using hz k (List.mem_range.mp hk)
  rw [execGroup, runCmd_of_started h]
  simp only [State.noCmd_of hc, hb, hr, hzero]
  rfl

theorem Group.slot_entered {old : Option Group} {now k : Nat} (hk : k < fld c.msg 0x82 2) :
    (Group.entered c bs now old).slot k =
      { addr := BitVec.ofNat 64 (fld bs (16 * k) 8), live := k == fld c.msg 0x84 2, failedAt := none } :=
  lget_map_range Member.none_ _ hk

theorem Group.tried_entered {old : Option Group} {now : Nat} (h2 : 2 ≤ fld c.msg 0x82 2) :
    (Group.entered c bs now old).tried = Group.entered c bs now old := by
  refine if_neg fun h => ?_
  have hall := (all_iff_lget Member.none_ _ _).mp h.2
  have hlen : (Group.entered c bs now old).members.length = fld c.msg 0x82 2 := by
    simp [Group.entered, Group.forms]
  have hself : ∀ k, k < fld c.msg 0x82 2 → k = fld c.msg 0x84 2 := fun k hk => by
    have := hall k (by rw [hlen]; exact hk)
    rw [show lget Member.none_ _ k = _ from Group.slot_entered (now := now) (old := old) (bs := bs) hk] at this
    simpa using this
  have h0 := hself 0 (by omega)
  have h1 := hself 1 (by omega)
  omega

theorem group_enters (h : s.started c.id 0x17 = some c) (hc : ∀ g ∈ s.groups, c.id ∉ g.cmds)
    (hfree : ∀ g, s.group? (fld c.msg 0x80 1) = some g → g.sid = c.sid ∧ g.st ≠ .active)
    (hr : s.svcRead c.sid (fld c.msg 0x88 8) 0 (16 * fld c.msg 0x82 2) = .ok s1 bs ls) (h2 : 2 ≤ fld c.msg 0x82 2)
    (hz : ∀ k, k < fld c.msg 0x82 2 → fld bs (16 * k + 8) 8 = 0) :
    ∃ s', execGroup c.id s = .next s' ∧ ∃ g ∈ s'.group? (fld c.msg 0x80 1), g.st = .forming ∧ g.sid = c.sid ∧
      g.cmd = c.id ∧ g.self = fld c.msg 0x84 2 ∧ g.tmo = fld c.msg 0x86 2 ∧ g.members.length = fld c.msg 0x82 2 ∧
      (∀ d, d ∈ g.also ↔ ∃ o, s.group? g.num = some o ∧ o.st = .forming ∧ d ∈ o.cmds) ∧ ∀ k, k < g.members.length → g.slot k =
        { addr := BitVec.ofNat 64 (fld bs (16 * k) 8), live := k == g.self, failedAt := none } := by
  have hkept := State.kept_of_read hr
  have hold : s1.group? (fld c.msg 0x80 1) = s.group? (fld c.msg 0x80 1) := State.group?_congr hkept.groups _
  have hlen : (Group.entered c bs s1.now (s1.group? (fld c.msg 0x80 1))).members.length = fld c.msg 0x82 2 := by
    simp [Group.entered, Group.forms]
  have hfind : ({ s1 with groups := (s1.groups.filter fun g => g.num != fld c.msg 0x80 1) ++
      [Group.entered c bs s1.now (s1.group? (fld c.msg 0x80 1))] } : State).group? (fld c.msg 0x80 1) =
      some (Group.entered c bs s1.now (s1.group? (fld c.msg 0x80 1))) := by
    rw [State.group?, List.find?_append, List.find?_eq_none.mpr]
    · simp [Group.entered, Group.forms]
    · intro g hg
      simpa using (List.mem_filter.mp hg).2
  refine ⟨_, execGroup_forms h hc hfree hr hz, Group.entered c bs s1.now (s1.group? (fld c.msg 0x80 1)), ?_, rfl, rfl, rfl, rfl,
    rfl, hlen, fun d => ?_, fun k hk => Group.slot_entered (hlen ▸ hk)⟩
  · rw [Option.mem_def, State.tryActivate_group hfind, Group.tried_entered h2]
  · show d ∈ formingCmds (s1.group? (fld c.msg 0x80 1)) ↔ ∃ o, s.group? (fld c.msg 0x80 1) = some o ∧ _
    rw [hold]
    exact mem_formingCmds

/-! #### The time limit and the members -/

theorem group_formTimeout (hg : s.group? g.num = some g) (hc : s.cmd? g.cmd = some c) (hf : g.st = .forming) :
    if g.formedAt + g.tmo * 1800000 ≤ s.now then ∃ s', execGroupFormTimeout g.num s = .next s' ∧ s'.Ended c.id c.st 0 0 ∧
      s'.group? g.num = some { g with st := .active, gen := 0 }
    else execGroupFormTimeout g.num s = .next s := by
  unfold execGroupFormTimeout
  simp only [hg]
  split
  next h =>
    rw [if_pos ⟨hf, h⟩]
    refine ⟨_, rfl, ?_, State.activate_group hg g rfl⟩
    have hid := State.cmd?_id hc
    refine State.endAll_ended (s := s.modGroup _ _) (by rw [hid]; exact hc) ?_
    rw [hid]
    simp [Group.cmds]
  next h => rw [if_neg fun hc => h hc.2]

theorem memberConfirm_late {k : Nat} (hg : s.group? g.num = some g) (h : g.formedAt + g.tmo * 1800000 ≤ s.now) :
    execMemberConfirm g.num k s = .next s := by
  unfold execMemberConfirm
  simp only [hg]
  exact if_neg fun hc => absurd hc.2 (Nat.not_lt.mpr h)

/-- A table of which one slot has changed. -/
theorem Group.slot_lmod (f : Member → Member) (k j : Nat) :
    ({ g with members := lmod f g.members k } : Group).slot j = if j = k ∧ k < g.members.length then f (g.slot j) else g.slot j :=
  lget_lmod ..

theorem Group.allSure_iff : (g.members.all fun m => m.live || m.lost) = true ↔
    ∀ j, j < g.members.length → (g.slot j).live = true ∨ (g.slot j).lost = true := by
  rw [all_iff_lget Member.none_]
  simp only [Bool.or_eq_true]
  rfl

theorem Member.sure_confirm (m : Member) : m.confirm.live = true ∨ m.confirm.lost = true := by
  unfold Member.confirm
  split
  · exact .inr ‹_›
  · exact .inl rfl

theorem Group.tried_members (g : Group) : g.tried.members = g.members := by
  unfold Group.tried
  split <;> rfl

theorem Group.slot_tried (g : Group) (k : Nat) : g.tried.slot k = g.slot k := by
  rw [Group.slot, Group.tried_members]
  rfl

theorem memberConfirm_confirms {k : Nat} (hg : s.group? g.num = some g) (hf : g.st = .forming)
    (h : s.now < g.formedAt + g.tmo * 1800000) :
    ∃ s' g', execMemberConfirm g.num k s = .next s' ∧ s'.group? g.num = some g' ∧
      (k < g.members.length → (g.slot k).lost = false → (g'.slot k).live = true) ∧
      ((g.slot k).lost = true → g'.slot k = g.slot k) ∧ (∀ j, j ≠ k → g'.slot j = g.slot j) ∧
      ((∀ j, j < g.members.length → j ≠ k → (g.slot j).live = true ∨ (g.slot j).lost = true) → g'.st = .active) ∧
      (¬ (∀ j, j < g.members.length → j ≠ k → (g.slot j).live = true ∨ (g.slot j).lost = true) → g'.st = .forming) := by
  let v : Group := { g with members := lmod Member.confirm g.members k }
  have hv : (s.modGroup g.num fun g => { g with members := lmod Member.confirm g.members k }).group? g.num = some v :=
    State.group?_modGroup hg (by exact fun _ => rfl)
  have hlen : v.members.length = g.members.length := lmod_length ..
  have hslot : ∀ j, v.slot j = if j = k ∧ k < g.members.length then (g.slot j).confirm else g.slot j :=
    Group.slot_lmod Member.confirm k
  have hsure : (v.members.all fun m => m.live || m.lost) = true ↔
      ∀ j, j < g.members.length → j ≠ k → (g.slot j).live = true ∨ (g.slot j).lost = true := by
    rw [Group.allSure_iff, hlen]
    refine forall_congr' fun j => forall_congr' fun hj => ?_
    rw [hslot]
    by_cases hk : j = k
    · subst hk
      rw [if_pos ⟨rfl, hj⟩]
      exact ⟨fun _ hne => absurd rfl hne, fun _ => Member.sure_confirm _⟩
    · rw [if_neg fun hc => hk hc.1]
      exact ⟨fun h _ => h, fun h => h hk⟩
  refine ⟨_, v.tried, ?_, State.tryActivate_group hv, fun hk hl => ?_, fun hl => ?_, fun j hj => ?_, fun hall => ?_, fun hall => ?_⟩
  · unfold execMemberConfirm
    simp only [hg]
    exact if_pos ⟨hf, h⟩
  · rw [Group.slot_tried, hslot, if_pos ⟨rfl, hk⟩, Member.confirm, hl]
    rfl
  · rw [Group.slot_tried, hslot]
    split
    · rw [Member.confirm, hl]
      rfl
    · rfl
  · rw [Group.slot_tried, hslot, if_neg fun hc => hj hc.1]
  · rw [Group.tried, if_pos ⟨hf, hsure.mpr hall⟩]
  · rw [Group.tried, if_neg fun hc => hall (hsure.mp hc.2)]
    exact hf

theorem memberFailure_dates {k : Nat} (hg : s.group? g.num = some g) (hst : g.st = .active ∨ g.st = .forming)
    (hk : k ≠ g.self) (hl : (g.slot k).live = true) (hn : (g.slot k).failedAt = none) :
    ∃ s' g', execMemberSessionFailure g.num k s = .next s' ∧ s'.group? g.num = some g' ∧
      g'.slot k = { g.slot k with failedAt := some s.now } ∧ g'.gen = g.gen ∧ ∀ j, j ≠ k → g'.slot j = g.slot j := by
  have hf := State.group?_modGroup (f := fun g => if (g.st = .active ∨ g.st = .forming) ∧ k ≠ g.self then
    { g with members := lmod (fun m => m.fail s.now) g.members k } else g) hg fun v => by split <;> rfl
  rw [if_pos ⟨hst, hk⟩] at hf
  refine ⟨_, _, rfl, hf, ?_, rfl, fun j hj => ?_⟩
  · rw [Group.slot_lmod, if_pos ⟨rfl, Group.slot_lt hl⟩, Member.fail, if_pos (by rw [hl, hn]; rfl)]
  · rw [Group.slot_lmod, if_neg fun hc => hj hc.1]

theorem memberRestored_keeps {k n : Nat} (hg : s.group? g.num = some g) (hn : (g.slot k).failedAt = some n)
    (h : s.now < n + g.tmo * 1800000) :
    ∃ s' g', execMemberSessionRestored g.num k s = .next s' ∧ s'.group? g.num = some g' ∧
      g'.slot k = { g.slot k with failedAt := none } ∧ g'.gen = g.gen := by
  have hk : k < g.members.length := by
    by_contra hc
    rw [Group.slot, lget_beyond _ _ _ (by omega)] at hn
    cases hn
  refine ⟨_, _, rfl, State.group?_modGroup (f := fun g => { g with
    members := lmod (fun m => m.restore s.now g.limit) g.members k }) hg fun _ => rfl, ?_, rfl⟩
  rw [Group.slot_lmod, if_pos ⟨rfl, hk⟩, Member.restore, hn]
  exact if_pos h

/-! #### Members that are lost -/

/-- A table whose member `k` has been lost, with the notices sent for it (R390). -/
structure Group.Loses (g g' : Group) (k : Nat) : Prop where
  dead : (g'.slot k).live = false
  lost : (g'.slot k).lost = true
  gen : g'.gen = g.gen + 1
  st : g'.st = g.st
  others : ∀ j, j ≠ k → g'.slot j = g.slot j
  told : ∃ ns, g'.notices = g.notices ++ ns ∧ ∀ j k', (j, k') ∈ ns ↔
    k' = k ∧ j ≠ k ∧ j ≠ g.self ∧ j < g.members.length ∧ (g.slot j).live = true

/-- The members after one is lost. -/
def Group.without (g : Group) (k : Nat) : List Member :=
  lmod (fun m => { m with live := false, failedAt := none, lost := true }) g.members k

/-- A table after one member is lost. -/
def Group.lose (g : Group) (k : Nat) : Group :=
  { g with members := g.without k, gen := g.gen + 1
           notices := g.notices ++ (((lenum (g.without k)).filter fun e => e.2.live && e.1 != g.self).map fun e => (e.1, k)) }

theorem State.SameButTurns.groups {s t : State} (h : s.SameButTurns t) : t.groups = s.groups := by
  obtain ⟨_, _, rfl⟩ := h
  rfl

theorem State.lose_group {n k : Nat} (hg : s.group? n = some g) : (s.lose n k).group? n = some (g.lose k) :=
  State.group?_modGroup (s := s.takes (.group n) 0) (f := fun g => g.lose k)
    ((State.group?_congr (s.takes_turns _ _).groups n).trans hg) fun _ => rfl

theorem Group.slot_lose (k j : Nat) : (g.lose k).slot j = if j = k ∧ k < g.members.length then
    { g.slot j with live := false, failedAt := none, lost := true } else g.slot j :=
  lget_lmod ..

theorem Group.loses_lose {k : Nat} (hk : k < g.members.length) : g.Loses (g.lose k) k where
  dead := by rw [Group.slot_lose, if_pos ⟨rfl, hk⟩]
  lost := by rw [Group.slot_lose, if_pos ⟨rfl, hk⟩]
  gen := rfl
  st := rfl
  others j hj := by rw [Group.slot_lose, if_neg fun hc => hj hc.1]
  told := by
    refine ⟨_, rfl, fun j k' => ?_⟩
    have hlen : (g.without k).length = g.members.length := lmod_length ..
    have hslot : lget Member.none_ (g.without k) j = (g.lose k).slot j := rfl
    simp only [List.mem_map, List.mem_filter, mem_lenum_iff Member.none_, Bool.and_eq_true, bne_iff_ne, ne_eq, Prod.mk.injEq]
    constructor
    · rintro ⟨e, ⟨⟨hlt, he⟩, hlive, hself⟩, rfl, rfl⟩
      rw [he, show lget Member.none_ (g.without k) e.1 = (g.lose k).slot e.1 from rfl, Group.slot_lose] at hlive
      by_cases hj : e.1 = k
      · rw [if_pos ⟨hj, hk⟩] at hlive
        cases hlive
      · rw [if_neg fun hc => hj hc.1] at hlive
        exact ⟨rfl, hj, hself, hlen ▸ hlt, hlive⟩
    · rintro ⟨rfl, hj, hself, hlt, hlive⟩
      refine ⟨(j, (g.lose k').slot j), ⟨⟨hlen ▸ hlt, rfl⟩, ?_, hself⟩, rfl, rfl⟩
      rw [Group.slot_lose, if_neg fun hc => hj hc.1]
      exact hlive

theorem memberTimeout_loses {k n : Nat} (hg : s.group? g.num = some g) (hst : g.st = .active) (hl : (g.slot k).live = true)
    (hn : (g.slot k).failedAt = some n) :
    if n + g.tmo * 1800000 ≤ s.now then ∃ s' g', execMemberSessionTimeout g.num k s = .next s' ∧
      s'.group? g.num = some g' ∧ g.Loses g' k else execMemberSessionTimeout g.num k s = .next s := by
  have hk := Group.slot_lt hl
  unfold execMemberSessionTimeout
  simp only [hg, getElem?_of_lget Member.none_ hk, show (lget Member.none_ g.members k).failedAt = some n from hn]
  split
  next h =>
    rw [if_pos ⟨hst, hl, h⟩]
    exact ⟨_, _, rfl, State.lose_group hg, Group.loses_lose hk⟩
  next h => rw [if_neg fun hc => h hc.2.2]

theorem State.notice_eq {n f k : Nat} (hg : s.group? n = some g) (hst : g.st = .active ∨ g.st = .forming)
    (hf : (g.slot f).live = true) (hk : k < g.members.length) :
    s.notice n f k = if k = g.self then
        if g.st = .forming then ((s.modGroup n fun g => { g with st := .dissolved }).endColls n).groupDone g
        else (s.modGroup n fun g => { g with st := .dissolved }).endColls n
      else if (g.slot k).live || (g.st == .forming && !(g.slot k).lost) then
        if g.st = .forming then (s.lose n k).tryActivate n else s.lose n k
      else s := by
  unfold State.notice
  simp only [hg, getElem?_of_lget Member.none_ (Group.slot_lt hf), getElem?_of_lget Member.none_ hk,
    show (lget Member.none_ g.members f).live = true from hf]
  rcases hst with h | h
  · simp [h, Group.slot]
  · simp [h, Group.slot]

theorem execDropNotice_parsing {n f k : Nat} (h : s.parsing = true) : execDropNotice n f k s = .next (s.notice n f k) := by
  rw [execDropNotice, if_pos h]

theorem dropNotice_loses {f k : Nat} (hp : s.parsing = true) (hg : s.group? g.num = some g) (hf : (g.slot f).live = true)
    (hk : (g.slot k).live = true) (hself : k ≠ g.self)
    (hst : g.st = .active ∨ (g.st = .forming ∧ ∃ j, j < g.members.length ∧ j ≠ k ∧ (g.slot j).live = false ∧ (g.slot j).lost = false)) :
    ∃ s' g', execDropNotice g.num f k s = .next s' ∧ s'.group? g.num = some g' ∧ g.Loses g' k := by
  have hlt := Group.slot_lt hk
  have hnotice := State.notice_eq hg (hst.imp_right And.left) hf hlt
  rw [if_neg hself, hk, Bool.true_or, if_pos rfl] at hnotice
  rw [execDropNotice_parsing hp, hnotice]
  have hlose := State.lose_group (k := k) hg
  rcases hst with h | ⟨h, j, hj, hjk, hlive, hlost⟩
  · rw [if_neg (by rw [h]; decide)]
    exact ⟨_, _, rfl, hlose, Group.loses_lose hlt⟩
  · rw [if_pos h]
    refine ⟨_, _, rfl, State.tryActivate_group hlose, ?_⟩
    rw [Group.tried, if_neg]
    · exact Group.loses_lose hlt
    · rintro ⟨-, hall⟩
      have := Group.allSure_iff.mp hall j (by rw [Group.lose, Group.without, lmod_length]; exact hj)
      rw [Group.slot_lose, if_neg fun hc => hjk hc.1, hlive, hlost] at this
      simp at this

theorem groupfree_frees (h : s.started c.id 0x18 = some c) (hg : s.group? (fld c.msg 0x80 1) = some g) (hs : g.sid = c.sid)
    (hf : g.st ≠ .forming)
    (hn : ∀ l ∈ s.naming, l.sid = c.sid → ¬ (l.hdr.grpBase ≤ g.num ∧ g.num < l.hdr.grpBase + l.hdr.grpCnt)) :
    ∃ s', execGroupfree c.id s = .next s' ∧ s'.Ended c.id c.st 0 0 ∧ s'.group? g.num = none := by
  have hnum := State.group?_num hg
  have hnaming : (s.naming.any fun l => l.sid == c.sid &&
      decide (l.hdr.grpBase ≤ fld c.msg 0x80 1 ∧ fld c.msg 0x80 1 < l.hdr.grpBase + l.hdr.grpCnt)) = false :=
    List.any_eq_false.mpr fun l hl => by
      rw [← hnum, Bool.and_eq_true, beq_iff_eq, decide_eq_true_eq]
      exact fun hc => hn l hl hc.1 hc.2
  refine ⟨({ s with groups := s.groups.filter fun q => q.num != fld c.msg 0x80 1 } : State).effectDone c.id 0 0 0 [], ?_,
    State.ended_effectDone (s := { s with groups := _ }) (State.started_cmd? h).1 0 0 [], ?_⟩
  · rw [execGroupfree, runCmd_of_started h]
    simp only [hg]
    rw [if_neg (not_not.mpr hs), if_neg (by rw [hnaming]; simpa using hf)]
  · refine List.find?_eq_none.mpr fun q hq => ?_
    rw [hnum]
    simpa using (List.mem_filter.mp hq).2

end

end Sys2Proof.Machine
end

section
namespace Sys2Proof.Machine

/-! #### The COLLs of a table that is dissolved -/

/-- Every operation of every troupe has a property, which may speak of the troupe's number. -/
def State.AllOps (Q : Nat → Op → Prop) (s : State) : Prop := ∀ t ∈ s.troupes, ∀ o ∈ t.ops, Q t.id o

section
variable {Q : Nat → Op → Prop} {s u : State}

theorem allOps_of_eq (h : s.AllOps Q) (ht : u.troupes = s.troupes) : u.AllOps Q := by
  rw [State.AllOps, ht]
  exact h

theorem allOps_map {f : Troupe → Troupe} (h : s.AllOps Q) (hf : ∀ t, (f t).id = t.id ∧ ∀ o ∈ (f t).ops, o ∈ t.ops)
    (ht : u.troupes = s.troupes.map f) : u.AllOps Q := by
  intro t' ht' o ho
  rw [ht] at ht'
  obtain ⟨t, hm, rfl⟩ := List.mem_map.mp ht'
  rw [(hf t).1]
  exact h t hm o ((hf t).2 o ho)

theorem allOps_modTroupe {id : Nat} {f : Troupe → Troupe} (h : s.AllOps Q)
    (hf : ∀ t, (f t).id = t.id ∧ ∀ o ∈ (f t).ops, o ∈ t.ops) : (s.modTroupe id f).AllOps Q :=
  allOps_map (f := fun t => if t.id = id then f t else t) h (fun t => by
    split
    · exact hf t
    · exact ⟨rfl, fun _ ho => ho⟩) rfl

theorem allOps_modOp {id k : Nat} {f : Op → Op} (h : s.AllOps Q)
    (hf : ∀ t ∈ s.troupes, t.id = id → ∀ o ∈ t.ops, o.id = k → Q id o → Q id (f o)) : (s.modOp id k f).AllOps Q := by
  intro t' ht' o ho
  obtain ⟨t, hm, rfl⟩ := List.mem_map.mp ht'
  by_cases hid : t.id = id
  · simp only [if_pos hid] at ho ⊢
    obtain ⟨v, hv, rfl⟩ := List.mem_map.mp ho
    have hq := h t hm v hv
    simp only [hid] at hq ⊢
    split
    · exact hf t hm hid v hv ‹_› hq
    · exact hq
  · simp only [if_neg hid] at ho ⊢
    exact h t hm o ho

theorem allOps_foldl {α : Type} {f : State → α → State} {l : List α} (h : s.AllOps Q)
    (hf : ∀ s a, s.AllOps Q → (f s a).AllOps Q) : (l.foldl f s).AllOps Q :=
  List.foldlRecOn l f (motive := State.AllOps Q) h fun s hs a _ => hf s a hs

theorem allOps_releaseExt {id : Nat} {keep : Bool} (h : s.AllOps Q) : (s.releaseExt id keep).AllOps Q := by
  unfold State.releaseExt
  split
  · exact h
  · exact canon_ite (motive := State.AllOps Q) (allOps_modTroupe (allOps_of_eq h rfl) fun _ => ⟨rfl, fun _ ho => ho⟩) h

theorem allOps_freeSave {id : Nat} (h : s.AllOps Q) : (s.freeSave id).AllOps Q := by
  have hmod : (s.modTroupe id fun t => { t with saveHeld := false }).AllOps Q :=
    allOps_modTroupe h fun _ => ⟨rfl, fun _ ho => ho⟩
  unfold State.freeSave
  split
  · exact h
  · exact canon_ite (motive := State.AllOps Q) h (canon_ite (motive := State.AllOps Q) hmod (allOps_of_eq hmod rfl))

theorem allOps_retire {ens : Nat} (h : s.AllOps Q) : (s.retire ens).AllOps Q := by
  unfold State.retire
  extract_lets _ s1
  have h1 : s1.AllOps Q := allOps_foldl h fun _ _ h2 =>
    allOps_modTroupe (allOps_freeSave (allOps_releaseExt h2)) fun _ => ⟨rfl, fun _ ho => ho⟩
  exact allOps_of_eq h1 rfl

theorem allOps_swapOut {ens : Nat} (h : s.AllOps Q) : (s.swapOut ens).AllOps Q := by
  unfold State.swapOut
  split
  · exact h
  · extract_lets _ s1 s2
    have h1 : s1.AllOps Q := allOps_foldl h fun _ _ h2 =>
      allOps_releaseExt (allOps_modTroupe h2 fun _ => ⟨rfl, fun _ ho => ho⟩)
    have h2 : s2.AllOps Q := allOps_map h1 (fun t => by
      by_cases ht : t.ens = ens
      · exact ⟨by rw [if_pos ht], by rw [if_pos ht]; exact fun _ ho => ho⟩
      · exact ⟨by rw [if_neg ht], by rw [if_neg ht]; exact fun _ ho => ho⟩) rfl
    exact canon_ite (motive := State.AllOps Q) (allOps_retire h2) (allOps_of_eq h2 rfl)

theorem allOps_settleEns {ens : Nat} (h : s.AllOps Q) : (s.settleEns ens).AllOps Q := by
  unfold State.settleEns
  split
  · exact h
  · extract_lets
    split
    · exact canon_ite (motive := State.AllOps Q) (allOps_retire h) h
    · exact canon_ite (motive := State.AllOps Q) (allOps_retire h) (canon_ite (motive := State.AllOps Q) (allOps_swapOut h) h)
    · exact h

theorem allOps_prune {id : Nat} (h : s.AllOps Q) : (s.prune id).AllOps Q := by
  unfold State.prune
  extract_lets s1
  have h1 : s1.AllOps Q := allOps_modTroupe h fun _ => ⟨rfl, fun _ ho => List.mem_of_mem_filter ho⟩
  split
  · exact allOps_settleEns h1
  · exact h1

theorem State.leaveChan_troupes (s : State) (t : Troupe) (k op : Nat) : (s.leaveChan t k op).troupes = s.troupes := by
  unfold State.leaveChan
  extract_lets _ _ s1
  split
  · split
    · split <;> rfl
    · rfl
  · rfl

/-- An operation of a troupe, as a member of its list. -/
theorem State.opOf_mem {id k : Nat} {t : Troupe} {o : Op} (h : s.opOf id k = some (t, o)) :
    t ∈ s.troupes ∧ t.id = id ∧ o ∈ t.ops ∧ o.id = k := by
  obtain ⟨v, hv, ho⟩ := Option.bind_eq_some_iff.mp h
  obtain ⟨w, hw, he⟩ := Option.map_eq_some_iff.mp ho
  cases he
  exact ⟨List.mem_of_find?_eq_some hv, by simpa using List.find?_some hv, List.mem_of_find?_eq_some hw,
    by simpa using List.find?_some hw⟩

/-- An operation without a future entry reaches its final state. -/
theorem allOps_finishOp {id k st v : Nat} {ch : Bool} (h : s.AllOps Q) (hnone : ∀ i o, Q i o → o.future = none)
    (hdone : ∀ i o n, Q i o → Q i { o with done := true, value := n }) : (s.finishOp id k st v ch).AllOps Q := by
  unfold State.finishOp
  split
  · exact h
  next o ho =>
    obtain ⟨t, ht, hop⟩ := Option.bind_eq_some_iff.mp ho
    have hfut : o.future = none := hnone t.id o (h t (List.mem_of_find?_eq_some ht) o (List.mem_of_find?_eq_some hop))
    simp only [hfut]
    exact allOps_prune (allOps_modOp h fun _ _ _ o _ _ hq => hdone _ o _ hq)

theorem allOps_tryFinish {id k : Nat} (h : s.AllOps Q) (hnone : ∀ i o, Q i o → o.future = none)
    (hdone : ∀ i o n, Q i o → Q i { o with done := true, value := n })
    (hfault : ∀ i o f, Q i o → Q i { o with fault := f }) : (s.tryFinish id k).AllOps Q := by
  unfold State.tryFinish
  split
  · exact h
  next t o ho =>
    obtain ⟨ht, -, hop, -⟩ := State.opOf_mem ho
    split
    · exact h
    next st v f _ =>
      refine canon_ite (motive := State.AllOps Q) h ?_
      extract_lets s1 s2 s3
      have h1 : s1.AllOps Q := by
        unfold s1
        split
        · exact allOps_of_eq h (s.leaveChan_troupes ..)
        · exact h
      have h2 : s2.AllOps Q := allOps_modOp h1 fun _ _ _ o _ _ hq => hfault _ o f hq
      have h3 : s3.AllOps Q := by
        unfold s3
        split <;> exact allOps_finishOp h2 hnone hdone
      simp only [hnone _ o (h t ht o hop)]
      cases o.cancelled <;> exact h3

/-- What is left to be done of the COLLs of a table: those whose troupe and number are listed still work. -/
def CollLeft (grp : Nat) (left : List (Nat × Nat)) (i : Nat) (o : Op) : Prop :=
  o.future = none ∧ ∀ op ty gen d w, o.kind = .coll op ty grp gen d w → o.done = true ∨ o.ends.isSome = true ∨ (i, o.id) ∈ left

/-- One COLL ended. -/
def State.endColl (s : State) (e : Nat × Nat) : State :=
  (s.endWork e.1 e.2 3 0 (some { code := 0x17, addr := 0 })).tryFinish e.1 e.2

theorem allOps_endColl {grp : Nat} {e : Nat × Nat} {left : List (Nat × Nat)} (h : s.AllOps (CollLeft grp (e :: left))) :
    (s.endColl e).AllOps (CollLeft grp left) := by
  have hend : (s.endWork e.1 e.2 3 0 (some { code := 0x17, addr := 0 })).AllOps (CollLeft grp left) := by
    intro t' ht' o ho
    obtain ⟨t, hm, rfl⟩ := List.mem_map.mp ht'
    by_cases hid : t.id = e.1
    · simp only [if_pos hid] at ho ⊢
      obtain ⟨v, hv, rfl⟩ := List.mem_map.mp ho
      obtain ⟨hfut, hcoll⟩ := h t hm v hv
      by_cases hk : v.id = e.2
      · simp only [if_pos hk]
        exact ⟨hfut, fun _ _ _ _ _ _ => .inr (.inl rfl)⟩
      · simp only [if_neg hk]
        refine ⟨hfut, fun op ty gen d w hkind => (hcoll op ty gen d w hkind).imp_right fun h => h.imp_right fun h => ?_⟩
        exact (List.mem_cons.mp h).resolve_left fun hc => hk (congrArg Prod.snd hc)
    · simp only [if_neg hid] at ho ⊢
      obtain ⟨hfut, hcoll⟩ := h t hm o ho
      refine ⟨hfut, fun op ty gen d w hkind => (hcoll op ty gen d w hkind).imp_right fun h => h.imp_right fun h => ?_⟩
      exact (List.mem_cons.mp h).resolve_left fun hc => hid (congrArg Prod.fst hc)
  exact allOps_tryFinish hend (fun _ _ hq => hq.1) (fun _ _ _ hq => ⟨hq.1, fun _ _ _ _ _ _ => .inl rfl⟩) fun _ _ _ hq => hq

/-- The COLLs of a table that still work, by troupe and number. -/
def State.workingColls (s : State) (grp : Nat) : List (Nat × Nat) :=
  s.troupes.flatMap fun t => (t.ops.filter fun o => !o.done && (match o.kind with
    | .coll _ _ g _ _ _ => g == grp
    | _ => false)).map fun o => (t.id, o.id)

theorem State.endColls_eq (s : State) (grp : Nat) : s.endColls grp = (s.workingColls grp).foldl State.endColl s := by
  rw [State.workingColls, List.foldl_flatMap]
  simp only [List.foldl_map]
  rfl

theorem allOps_endCollList {grp : Nat} {left : List (Nat × Nat)} (h : s.AllOps (CollLeft grp left)) :
    (left.foldl State.endColl s).AllOps (CollLeft grp []) := by
  induction left generalizing s with
  | nil => exact h
  | cons e left ih => exact ih (allOps_endColl h)

/-- Every COLL of the table is over once all have been ended. -/
theorem allOps_endColls {grp : Nat} (h : ∀ t ∈ s.troupes, ∀ o ∈ t.ops, o.future = none) :
    (s.endColls grp).AllOps (CollLeft grp []) := by
  rw [s.endColls_eq]
  refine allOps_endCollList fun t ht o ho => ⟨h t ht o ho, fun op ty gen d w hkind => ?_⟩
  cases hd : o.done with
  | true => exact .inl rfl
  | false =>
    refine .inr (.inr (List.mem_flatMap.mpr ⟨t, ht, List.mem_map.mpr ⟨o, List.mem_filter.mpr ⟨ho, ?_⟩, rfl⟩⟩))
    rw [hd, hkind]
    simp

end

/-! #### What the end of an operation leaves as it was -/

/-- A state without its troupes, their ensembles, and what those hold or wait for. -/
def State.still (s : State) : State := { s with troupes := [], ens := [], ext := [], unmaps := [], queue := [] }

section
variable (s : State)

theorem State.still_foldl {α : Type} {f : State → α → State} (hf : ∀ (t : State) a, (f t a).still = t.still) (xs : List α) :
    (xs.foldl f s).still = s.still :=
  List.foldlRecOn xs f (motive := fun t : State => t.still = s.still) rfl fun t ht a _ => (hf t a).trans ht

theorem State.modTroupe_still (id : Nat) (f : Troupe → Troupe) : (s.modTroupe id f).still = s.still := rfl

theorem State.releaseExt_still (id : Nat) (keep : Bool) : (s.releaseExt id keep).still = s.still := by
  unfold State.releaseExt
  split
  · rfl
  · split <;> rfl

theorem State.freeSave_still (id : Nat) : (s.freeSave id).still = s.still := by
  unfold State.freeSave
  split
  · rfl
  · split
    · rfl
    · dsimp only
      split <;> rfl

theorem State.retire_still (ens : Nat) : (s.retire ens).still = s.still :=
  State.still_foldl (f := fun s id => ((s.releaseExt id false).freeSave id).modTroupe id fun t =>
    { t with futures := freeFutures t.futures }) s
    (fun t id => ((t.releaseExt id false).freeSave_still id).trans (t.releaseExt_still id false)) _

theorem State.swapOut_still (ens : Nat) : (s.swapOut ens).still = s.still := by
  unfold State.swapOut
  split
  · rfl
  · extract_lets _ s1 s2
    have h1 : s1.still = s.still := List.foldlRecOn _ _ (motive := fun t : State => t.still = s.still) rfl
      fun _ ht id _ => (State.releaseExt_still _ id true).trans ht
    split
    · exact (State.retire_still s2 ens).trans h1
    · exact h1

theorem State.settleEns_still (ens : Nat) : (s.settleEns ens).still = s.still := by
  unfold State.settleEns
  split
  · rfl
  · extract_lets
    split
    · split
      · exact s.retire_still ens
      · rfl
    · split
      · exact s.retire_still ens
      · split
        · exact s.swapOut_still ens
        · rfl
    · rfl

theorem State.prune_still (id : Nat) : (s.prune id).still = s.still := by
  unfold State.prune
  extract_lets s1
  split
  · exact State.settleEns_still s1 _
  · rfl

theorem State.leaveChan_still (t : Troupe) (k op : Nat) : (s.leaveChan t k op).still = s.still := by
  unfold State.leaveChan
  extract_lets _ _ s1
  split
  · split
    · split <;> rfl
    · rfl
  · rfl

theorem State.serveFwait_still (id e : Nat) (st v : Word) : (s.serveFwait id e st v).1.still = s.still :=
  List.foldlRecOn _ _ (motive := fun t : State => t.still = s.still) rfl fun _ ht _ _ => ht

theorem State.finishOp_still (id op st v : Nat) (ch : Bool) : (s.finishOp id op st v ch).still = s.still := by
  unfold State.finishOp
  split
  · rfl
  · extract_lets _ w x s1
    split
    · exact State.prune_still s1 id
    next e _ =>
      extract_lets s2
      have h := s2.serveFwait_still id e w x
      split
      next r hr =>
        rw [hr] at h
        exact (State.prune_still _ id).trans (canon_ite (motive := fun t : State => t.still = s.still) h h)
      next r hr =>
        rw [hr] at h
        exact (State.prune_still _ id).trans h

theorem State.tryFinish_still (id op : Nat) : (s.tryFinish id op).still = s.still := by
  unfold State.tryFinish
  split
  · rfl
  next t o _ =>
    split
    · rfl
    · refine canon_ite (motive := fun t : State => t.still = s.still) rfl ?_
      extract_lets s1 s2 s3
      have h1 : s1.still = s.still := by
        unfold s1
        split
        · exact s.leaveChan_still t _ op
        · rfl
      have h3 : s3.still = s.still := by
        unfold s3
        split <;> exact (State.finishOp_still s2 id op _ _ _).trans h1
      split
      · extract_lets
        split
        · exact (State.prune_still _ id).trans h3
        · exact h3
      · exact h3

theorem State.endColls_still (grp : Nat) : (s.endColls grp).still = s.still := by
  rw [s.endColls_eq]
  exact State.still_foldl (f := State.endColl) s (fun _ e => State.tryFinish_still _ e.1 e.2) _

theorem State.endColls_groups (grp : Nat) : (s.endColls grp).groups = s.groups :=
  (congrArg State.groups (s.endColls_still grp) :)

end

/-- A notice that names this device dissolves the table and ends the COLLs that it has in flight. -/
theorem dropNotice_dissolves {s : State} {g : Group} {f : Nat} (hp : s.parsing = true) (hg : s.group? g.num = some g)
    (hst : g.st = .active ∨ g.st = .forming) (hf : (g.slot f).live = true) (hself : g.self < g.members.length)
    (hfut : ∀ t ∈ s.troupes, ∀ o ∈ t.ops, o.future = none) :
    ∃ s' g', execDropNotice g.num f g.self s = .next s' ∧ s'.group? g.num = some g' ∧ g'.st = .dissolved ∧
      ∀ t' ∈ s'.troupes, ∀ o ∈ t'.ops, ∀ op ty gen d w, o.kind = .coll op ty g.num gen d w →
        o.done = true ∨ o.ends.isSome = true := by
  let u := s.modGroup g.num fun g => { g with st := .dissolved }
  have hall : (u.endColls g.num).AllOps (CollLeft g.num []) := allOps_endColls hfut
  have hgrp : (u.endColls g.num).group? g.num = some { g with st := .dissolved } :=
    (State.group?_congr (u.endColls_groups _) _).trans (State.group?_modGroup hg (by exact fun _ => rfl))
  have hcolls : ∀ v : State, v.troupes = (u.endColls g.num).troupes → ∀ t' ∈ v.troupes, ∀ o ∈ t'.ops, ∀ op ty gen d w,
      o.kind = .coll op ty g.num gen d w → o.done = true ∨ o.ends.isSome = true := by
    intro v hv t' ht' o ho op ty gen d w hkind
    rw [hv] at ht'
    rcases (hall t' ht' o ho).2 op ty gen d w hkind with h | h | h
    · exact .inl h
    · exact .inr h
    · cases h
  have hnotice := State.notice_eq hg hst hf hself
  rw [if_pos rfl] at hnotice
  rw [execDropNotice_parsing hp, hnotice]
  by_cases hforms : g.st = .forming
  · rw [if_pos hforms]
    exact ⟨_, _, rfl, (State.group?_congr (State.endAll_groups _ g.cmds) _).trans hgrp, rfl,
      hcolls _ (State.endAll_troupes _ g.cmds)⟩
  · rw [if_neg hforms]
    exact ⟨_, _, rfl, hgrp, rfl, hcolls _ rfl⟩

end Sys2Proof.Machine

open Sys2Proof.Machine

/-- Settles O57: each command by the case of its rule that applies. MAP's pages are those put over a range where none was
mapped, UNMAP's lines go page by page, and the COLLs of a dissolved table end one by one. -/
theorem tableCommands : Obligations.TableCommands := by
  unfold Obligations.TableCommands
  refine ⟨fun s c s1 bs ls h hb hr => nodes_fills h hb hr, fun s c h hb => nodefree_empties h hb,
    fun s c h hb => nodes_wait h hb, fun s c u h hu => map_maps h hu,
    fun s c u ps h hu hps hq => unmap_unmaps h hu hps hq, fun s c ps h hps hq => unmap_waits h hps hq,
    fun s c h hps => unmap_rejects h hps, fun s c u ps h hu hps hq hk => protect_protects h hu hps hq hk,
    fun s c ps h hps hk => protect_rejects h hps hk, fun s c h => ringallot_ends h, fun s c h => ringfree_ends h,
    fun s c s1 bs ls h hc hfree hr h2 hz => group_enters h hc hfree hr h2 hz,
    fun s c g h hc hg hb => group_barred h hc hg hb, fun s g c hg hc hf => group_formTimeout hg hc hf,
    fun s g k hg _ h => memberConfirm_late hg h, fun s g k hg hf h => ?_,
    fun s g k hg hst hk hl hn => memberFailure_dates hg hst hk hl hn, fun s g k n hg hn h => memberRestored_keeps hg hn h,
    fun s g k n hg hst hl hn => ?_, fun s g f k hp hg hf hk hself hst => ?_,
    fun s g f hp hg hst hf hself _ hfut => dropNotice_dissolves hp hg hst hf hself hfut,
    fun s c g h hg hs hf hn => groupfree_frees h hg hs hf hn⟩
  · obtain ⟨s', g', hex, hg', hlive, hlost, hother, hact, hform⟩ := memberConfirm_confirms (k := k) hg hf h
    refine ⟨s', g', hex, hg', hlive, hlost, hother, ?_⟩
    split
    · exact hact ‹_›
    · exact hform ‹_›
  · have hlose := memberTimeout_loses hg hst hl hn
    split
    next h =>
      rw [if_pos h] at hlose
      obtain ⟨s', g', hex, hg', hl⟩ := hlose
      exact ⟨s', g', hex, hg', hl.dead, hl.lost, hl.gen, hl.st, hl.others, hl.told⟩
    next h =>
      rw [if_neg h] at hlose
      exact hlose
  · obtain ⟨s', g', hex, hg', hl⟩ := dropNotice_loses hp hg hf hk hself hst
    exact ⟨s', g', hex, hg', hl.dead, hl.lost, hl.gen, hl.st, hl.others, hl.told⟩
end


section
namespace Sys2Proof.Machine

/-! ## O58: the system commands -/

/-! ### Bytes that the service writes -/

/-- The bytes of a result area: `n` of them from `va` on, in resident pages that the service may write, which are neither
shared-coherent nor a device's, at the addresses from `pa` on of one home die. -/
def State.AreaPages (s : State) (sid va n h pa : Nat) : Prop :=
  ∀ i, i < n → ∃ b p, s.page? sid (va + i) = some (b, p) ∧ p.res = true ∧ p.w = true ∧ p.kind ≠ .device ∧ p.kind ≠ .coherent ∧
    p.home = some h ∧ p.pa + (va + i - b) = pa + i

/-- No line of any slice serves one asker alone. -/
def State.NoneOnce (s : State) : Prop := ∀ d, ∀ e ∈ (s.die d).l2, e.2.once = none

/-- A slice has its ports and room for `n` more lines. -/
def State.RoomAt (s : State) (h n : Nat) : Prop :=
  h < s.dies.length ∧ (s.die h).portsDown = [] ∧ s.used h + n ≤ s.fw.l2Mib * 8192

/-- A byte stands in a line of its slice. -/
def State.Holds (s : State) (h a : Nat) (b : Byte) : Prop :=
  ∃ l, s.line? h (a / 128) = some l ∧ l.st = .m ∧ l.data.byte (a % 128) = b

/-- Where the service stands in a write of `bs`: the first `i` are in their lines. -/
structure State.Writing (s : State) (sid va h pa : Nat) (bs : List Byte) (i : Nat) : Prop where
  below : va + bs.length ≤ Config.windowBase
  pages : s.AreaPages sid va bs.length h pa
  once : s.NoneOnce
  room : s.RoomAt h (bs.length - i)
  done : ∀ k b, k < i → bs[k]? = some b → s.Holds h (pa + k) b

theorem State.Holds.peekPool {s : State} {h a : Nat} {b : Byte} (hb : s.Holds h a b) : s.peekPool h a = b := by
  obtain ⟨l, hl, hst, rfl⟩ := hb
  rw [State.peekPool, hl]
  simp only [hst]
  exact if_neg (by simp)

/-! #### The pages -/

/-- The page of an address after a change that keeps its size. -/
theorem pageOf_map {f : Pte → Pte} (hf : ∀ p, (f p).size = p.size) (base : Nat) (ps : List (Nat × Pte)) (a : Nat) :
    pageOf (ps.map fun e => if e.1 = base then (e.1, f e.2) else e) a =
      (pageOf ps a).map fun e => if e.1 = base then (e.1, f e.2) else e := by
  induction ps with
  | nil => rfl
  | cons e ps ih =>
    obtain ⟨b, p⟩ := e
    rw [List.map_cons]
    by_cases hb : b = base
    · subst hb
      simp only [if_true, pageOf, ih]
      rw [hf]
      split <;> simp
    · simp only [if_neg hb, pageOf, ih]
      split
      · simp [hb]
      · rfl

section
variable {s : State}

theorem State.page?_modPage {sid base : Nat} {f : Pte → Pte} (hf : ∀ p, (f p).size = p.size) (a : Nat) :
    (s.modPage sid base f).page? sid a = (s.page? sid a).map fun e => if e.1 = base then (e.1, f e.2) else e := by
  cases hu : s.sub? sid with
  | none =>
    have hnone : (s.modPage sid base f).sub? sid = none := by
      refine List.find?_eq_none.mpr fun v hv => ?_
      obtain ⟨w, hw, rfl⟩ := List.mem_map.mp hv
      have := List.find?_eq_none.mp hu w hw
      dsimp only
      split
      · exact this
      · exact this
    rw [State.page?, hnone, State.page?, hu]
    rfl
  | some u =>
    have hsub := State.sub?_modSub_same (f := fun u => { u with
      pages := u.pages.map fun e => if e.1 = base then (e.1, f e.2) else e }) hu fun _ => rfl
    rw [State.page?_of_sub (s := s.modPage sid base f) hsub, State.page?_of_sub hu]
    exact pageOf_map hf base u.pages a

theorem State.page?_takes {sid : Nat} (sp : Spot) (k a : Nat) : (s.takes sp k).page? sid a = s.page? sid a := by
  obtain ⟨_, _, h⟩ := s.takes_turns sp k
  rw [h]
  rfl

theorem State.takes_dies (sp : Spot) (k : Nat) : (s.takes sp k).dies = s.dies := by
  obtain ⟨_, _, h⟩ := s.takes_turns sp k
  rw [h]
  rfl

/-- A translation by die 0 leaves a homed page of the address as it is, but for the dies that have walked it. -/
theorem State.page?_touchPage {sid va a b h : Nat} {p : Pte} (hp : s.page? sid a = some (b, p)) (hh : p.home = some h) :
    ∃ w, (s.touchPage sid va 0).page? sid a = some (b, { p with walked := w }) := by
  unfold State.touchPage
  split
  · exact ⟨p.walked, hp⟩
  next b0 p0 _ =>
    extract_lets s1
    have h1 : ∃ w, s1.page? sid a = some (b, { p with walked := w }) := by
      unfold s1
      split
      · exact ⟨p.walked, hp⟩
      · rw [State.page?_modPage (by exact fun _ => rfl), hp, Option.map_some]
        by_cases hb : b = b0
        · refine ⟨p.walked ||| BitVec.ofNat 4 (2 ^ 0), ?_⟩
          rw [if_pos hb, Pte.homeFrom, hh]
          obtain ⟨_, _, _, _, _, home, _, _, _, _, _⟩ := p
          obtain rfl : home = some h := hh
          rfl
        · exact ⟨p.walked, by rw [if_neg hb]⟩
    split
    · obtain ⟨w, hw⟩ := h1
      exact ⟨w, (State.page?_takes ..).trans hw⟩
    · exact h1

theorem State.touchPage_dies (sid va d : Nat) : (s.touchPage sid va d).dies = s.dies := by
  unfold State.touchPage
  split
  · rfl
  · extract_lets s1
    have h1 : s1.dies = s.dies := by
      unfold s1
      split <;> rfl
    split
    · exact (State.takes_dies ..).trans h1
    · exact h1

theorem State.AreaPages.touch {sid va n h pa v : Nat} (ha : s.AreaPages sid va n h pa) :
    (s.touchPage sid v 0).AreaPages sid va n h pa := fun i hi => by
  obtain ⟨b, p, hp, hres, hw, hdev, hcoh, hhome, hpa⟩ := ha i hi
  obtain ⟨w, hq⟩ := State.page?_touchPage (va := v) hp hhome
  exact ⟨b, _, hq, hres, hw, hdev, hcoh, hhome, hpa⟩

/-- What the service finds behind a byte of the area. -/
theorem State.AreaPages.svcAt {sid va n h pa i : Nat} (ha : s.AreaPages sid va n h pa) (hi : i < n)
    (hb : va + n ≤ Config.windowBase) :
    ∃ q, s.svcAt sid (va + i) true = some (s.touchPage sid (va + i) 0, h, pa + i, q) ∧ q.kind ≠ .coherent := by
  obtain ⟨b, p, hp, hres, hw, hdev, hcoh, hhome, hpa⟩ := ha i hi
  obtain ⟨w, hq⟩ := State.page?_touchPage (va := va + i) hp hhome
  have htouch : s.firstTouch sid (va + i) = s := by
    rw [State.firstTouch, hp]
    exact if_pos hres
  have htrans : (s.touchPage sid (va + i) 0).translate sid 0 (va + i) = .ok h (pa + i) { p with walked := w } := by
    rw [State.translate, if_neg (by omega), hq]
    simp only [hres, if_true, Pte.homeFrom, hhome, Option.getD_some, hpa]
  refine ⟨{ p with walked := w }, ?_, hcoh⟩
  rw [State.svcAt, hp]
  simp only [if_true]
  have hopen : ¬ (p.kind = .device ∨ p.w = false ∨ Config.windowBase ≤ va + i) := by
    rw [hw]
    rintro (hc | hc | hc)
    · exact hdev hc
    · cases hc
    · omega
  rw [if_neg hopen, htouch, htrans]

/-! #### The line of a write -/

/-- A slice as another one stands, but for what it has counted and what its cores hold. -/
def State.SameSlices (s t : State) : Prop :=
  t.dies.length = s.dies.length ∧ t.fw = s.fw ∧ t.subs = s.subs ∧ ∀ d, (t.die d).l2 = (s.die d).l2 ∧
    (t.die d).reqs = (s.die d).reqs ∧ (t.die d).portsDown = (s.die d).portsDown

theorem State.SameSlices.line? {t : State} (h : s.SameSlices t) (d ln : Nat) : t.line? d ln = s.line? d ln := by
  rw [State.line?, (h.2.2.2 d).1]
  rfl

theorem State.SameSlices.used {t : State} (h : s.SameSlices t) (d : Nat) : t.used d = s.used d := by
  unfold State.used
  rw [(h.2.2.2 d).1, (h.2.2.2 d).2.1]
  simp only [h.line?]

theorem State.sameSlices_modDie {d : Nat} {f : Die → Die}
    (hf : ∀ D, (f D).l2 = D.l2 ∧ (f D).reqs = D.reqs ∧ (f D).portsDown = D.portsDown) : s.SameSlices (s.modDie d f) := by
  refine ⟨lmod_length .., rfl, rfl, fun d' => ?_⟩
  rw [State.die_modDie]
  split
  · exact hf _
  · exact ⟨rfl, rfl, rfl⟩

theorem port_of_none_down {down : List Nat} (h : down = []) (a : Nat) : ∃ p, portWith down a = some p := by
  subst h
  exact ⟨_, rfl⟩

theorem L2Line.serves_of_none {l : L2Line} (h : l.once = none) (w : Asker) : l.serves w = true := by
  unfold L2Line.serves
  rw [h]

/-- A line of the area is written at once. -/
theorem State.lineWrite_plain {h ln n : Nat} {coh : Bool} (hc : coh = false) (ho : s.NoneOnce) (hr : s.RoomAt h n) (hn : 0 < n)
    (w : Asker) (keep : Bool) :
    ∃ t l, s.lineWrite h ln coh w keep = .ready t l ∧ s.SameSlices t ∧ l.st = .m ∧ l.once = none ∧
      ∀ v, s.line? h ln = some v → l.data = v.data := by
  subst hc
  obtain ⟨hlt, hports, hused⟩ := hr
  unfold State.lineWrite
  cases hl : s.line? h ln with
  | some v =>
    have hv := ho h _ (mfind_mem hl)
    simp only [L2Line.serves_of_none hv]
    exact ⟨s, { v with st := .m }, rfl, ⟨rfl, rfl, rfl, fun _ => ⟨rfl, rfl, rfl⟩⟩, rfl, hv, by rintro _ ⟨⟩; rfl⟩
  | none =>
    obtain ⟨p, hp⟩ := port_of_none_down hports (ln * 128)
    have hfull : s.full h = false := by
      rw [State.full, decide_eq_false_iff_not]
      omega
    simp only [show s.port h (ln * 128) = some p from hp, hfull, Bool.and_false]
    exact ⟨_, _, rfl, State.sameSlices_modDie fun _ => ⟨rfl, rfl, rfl⟩, rfl, rfl, nofun⟩

/-- The line of a write of one byte. -/
theorem L2Line.write_one (l : L2Line) (off : Nat) (b : Byte) :
    (l.write off [b] 1).data = l.data.put off b ∧ (l.write off [b] 1).st = l.st ∧ (l.write off [b] 1).once = l.once := by
  simp [L2Line.write, lenum, lenumFrom]

theorem State.commitWrite_slices {d c h ln off : Nat} {l : L2Line} {b : Byte} (hst : l.st = .m) (hon : l.once = none) :
    ∃ v, v.data = l.data.put off b ∧ v.st = .m ∧ v.once = none ∧
      (s.putLine h ln v).SameSlices (s.commitWrite d c h ln l off [b] 1).1 := by
  obtain ⟨hd, hs, ho⟩ := l.write_one off b
  refine ⟨{ l.write off [b] 1 with
    pass := max l.pass (max s.now l.horizon), passes := passesWith l.passes off 1 1 (max s.now l.horizon)
    openNo := if l.accepted = [] then s.fresh else l.openNo }, hd, hs.trans hst, ho.trans hon, ?_⟩
  exact State.sameSlices_modDie (s := ({ s with fresh := s.fresh + 1 } : State).putLine h ln _) (by exact fun _ => ⟨rfl, rfl, rfl⟩)

theorem mput_length_le {α : Type} (k : Nat) (v : α) (m : List (Nat × α)) : (mput k v m).length ≤ m.length + 1 := by
  induction m with
  | nil => rfl
  | cons e m ih =>
    obtain ⟨j, w⟩ := e
    simp only [mput]
    split
    · simp
    · split
      · simp
      · simpa using ih

theorem State.die_putLine {h : Nat} (hlt : h < s.dies.length) (ln : Nat) (l : L2Line) :
    (s.putLine h ln l).die h = { s.die h with l2 := mput ln l (s.die h).l2 } := by
  rw [State.putLine, State.die_modDie, if_pos ⟨rfl, hlt⟩]

/-- A line that is put into a slice takes no more than its own place. -/
theorem State.used_putLine {h : Nat} (hlt : h < s.dies.length) (ln : Nat) (l : L2Line) :
    (s.putLine h ln l).used h ≤ s.used h + 1 := by
  have hlen := mput_length_le ln l (s.die h).l2
  have hreqs : ((s.die h).reqs.filter fun r => r.kind.gets && r.keep && ((s.putLine h ln l).line? h r.line).isNone).length ≤
      ((s.die h).reqs.filter fun r => r.kind.gets && r.keep && (s.line? h r.line).isNone).length := by
    rw [← List.countP_eq_length_filter, ← List.countP_eq_length_filter]
    refine List.countP_mono_left fun r _ hr => ?_
    simp only [Bool.and_eq_true] at hr ⊢
    refine ⟨hr.1, ?_⟩
    rw [State.line?_putLine _ hlt] at hr
    by_cases hc : h = h ∧ r.line = ln
    · rw [if_pos hc] at hr
      cases hr.2
    · rw [if_neg hc] at hr
      exact hr.2
  unfold State.used
  rw [State.die_putLine hlt]
  dsimp only at hlen ⊢
  omega

/-! #### The course of the write -/

variable {t u : State} {sid va h pa i : Nat} {bs : List Byte}

theorem State.AreaPages.congr {n : Nat} (ht : u.subs = t.subs) (ha : t.AreaPages sid va n h pa) :
    u.AreaPages sid va n h pa := by
  have hp : ∀ a, u.page? sid a = t.page? sid a := fun a => by rw [State.page?, State.sub?_congr ht]; rfl
  intro j hj
  rw [hp]
  exact ha j hj

/-- After a byte has been written into its line. -/
theorem State.Writing.next {b : Byte} {l v : L2Line} (hw : t.Writing sid va h pa bs i) (hb : bs[i]? = some b)
    (hsub : ∀ n, t.AreaPages sid va n h pa → u.AreaPages sid va n h pa) (hlen : u.dies.length = t.dies.length) (hfw : u.fw = t.fw)
    (hdata : v.data = l.data.put ((pa + i) % 128) b) (hst : v.st = .m) (hon : v.once = none)
    (hold : ∀ w, t.line? h ((pa + i) / 128) = some w → l.data = w.data)
    (hslices : ∀ d, (u.die d).l2 = ((t.putLine h ((pa + i) / 128) v).die d).l2 ∧
      (u.die d).reqs = ((t.putLine h ((pa + i) / 128) v).die d).reqs ∧
      (u.die d).portsDown = ((t.putLine h ((pa + i) / 128) v).die d).portsDown) :
    u.Writing sid va h pa bs (i + 1) := by
  obtain ⟨hlt, hports, hused⟩ := hw.room
  have hi : i < bs.length := (List.getElem?_eq_some_iff.mp hb).1
  have hline : ∀ ln, u.line? h ln = if ln = (pa + i) / 128 then some v else t.line? h ln := fun ln => by
    rw [State.line?, (hslices h).1]
    exact (State.line?_putLine t hlt _ v h ln).trans (if_congr (and_iff_right rfl) rfl rfl)
  have huse : u.used h = (t.putLine h ((pa + i) / 128) v).used h := by
    unfold State.used State.line?
    rw [(hslices h).1, (hslices h).2.1]
  refine ⟨hw.below, hsub _ hw.pages, fun d e he => ?_, ⟨hlen ▸ hlt, ?_, ?_⟩, fun k c hk hc => ?_⟩
  · rw [(hslices d).1] at he
    rw [State.putLine, State.die_modDie] at he
    split at he
    · rcases mem_mput he with rfl | he
      · exact hon
      · exact hw.once d e he
    · exact hw.once d e he
  · rw [(hslices h).2.2, State.die_putLine hlt]
    exact hports
  · rw [huse, hfw]
    have := State.used_putLine hlt ((pa + i) / 128) v
    omega
  · rw [State.Holds, hline]
    by_cases hk : k = i
    · subst hk
      obtain rfl : b = c := Option.some.inj (hb.symm.trans hc)
      refine ⟨v, if_pos rfl, hst, ?_⟩
      rw [hdata]
      exact mget_mset_same ..
    · obtain ⟨w, hwl, hwm, hwb⟩ := hw.done k c (by omega) hc
      by_cases hln : (pa + k) / 128 = (pa + i) / 128
      · refine ⟨v, if_pos hln, hst, ?_⟩
        rw [hdata, hold w (hln ▸ hwl), ← hwb]
        exact mget_mset_other _ _ (by omega) _
      · exact ⟨w, (if_neg hln).trans hwl, hwm, hwb⟩

theorem State.NoneOnce.dropOnceOf (ho : s.NoneOnce) (p : Asker → Bool) : s.dropOnceOf p = s := by
  unfold State.dropOnceOf
  refine List.foldlRecOn (List.range 4) _ (motive := fun t : State => t = s) rfl fun t ht d _ => ?_
  subst ht
  refine List.foldlRecOn (t.die d).l2 _ (motive := fun v : State => v = t) rfl fun v hv e he => ?_
  rw [ho d e he]
  exact hv

theorem State.svcWrite_writing {rest : List Byte} (hw : t.Writing sid va h pa bs i) (hr : bs.drop i = rest)
    (ls : List (Nat × Nat)) :
    ∃ u ls', t.svcWrite sid va i rest ls = .ok u [] ls' ∧ ∀ k b, bs[k]? = some b → u.Holds h (pa + k) b := by
  induction rest generalizing t i ls with
  | nil =>
    refine ⟨t, ls, ?_, fun k b hb => hw.done k b ?_ hb⟩
    · rw [State.svcWrite, hw.once.dropOnceOf]
    · have := (List.getElem?_eq_some_iff.mp hb).1
      have := List.drop_eq_nil_iff.mp hr
      omega
  | cons b rest ih =>
    have hi : i < bs.length := by
      by_contra hc
      rw [List.drop_eq_nil_of_le (by omega)] at hr
      cases hr
    have hb : bs[i]? = some b := by
      have := congrArg List.head? hr
      rwa [List.head?_drop] at this
    obtain ⟨q, hat, hcoh⟩ := hw.pages.svcAt hi hw.below
    have hdies := State.touchPage_dies (s := t) sid (va + i) 0
    have hdie : ∀ d, (t.touchPage sid (va + i) 0).die d = t.die d := fun d => by rw [State.die, hdies]; rfl
    have hfw : (t.touchPage sid (va + i) 0).fw = t.fw := State.Kept.fw (kept_touchPage (State.Kept.refl t))
    have hline : ∀ d ln, (t.touchPage sid (va + i) 0).line? d ln = t.line? d ln := fun d ln => by
      rw [State.line?, hdie]
      rfl
    have huse : (t.touchPage sid (va + i) 0).used h = t.used h := by
      unfold State.used
      rw [hdie]
      simp only [hline]
    obtain ⟨hlt, hports, hused⟩ := hw.room
    obtain ⟨v, l, hready, hsame, hst, hon, hold⟩ := State.lineWrite_plain (s := t.touchPage sid (va + i) 0) (ln := (pa + i) / 128)
      (coh := q.kind == .coherent) (beq_eq_false_iff_ne.mpr hcoh) (fun d e he => hw.once d e (by rwa [hdie] at he))
      (n := bs.length - i) ⟨hdies ▸ hlt, by rw [hdie]; exact hports, by rw [huse, hfw]; exact hused⟩ (by omega) .service true
    obtain ⟨w, hdata, hwst, hwon, hput⟩ := State.commitWrite_slices (s := v) (d := 0) (c := Config.coresPerDie) (h := h)
      (ln := (pa + i) / 128) (off := (pa + i) % 128) (b := b) hst hon
    rw [State.svcWrite]
    simp only [hat, hready]
    refine ih (hw.next (v := w) (l := l) hb (fun n ha => ?_) ?_ ?_ hdata hwst hwon (fun x hx => hold x ((hline _ _).trans hx))
      fun d => ?_) (by rw [← List.drop_drop, hr]; rfl) _
    · exact State.AreaPages.congr hput.2.2.1 (State.AreaPages.congr (t := v) rfl
        (State.AreaPages.congr hsame.2.2.1 ha.touch))
    · rw [hput.1, State.putLine, State.modDie, lmod_length, hsame.1, hdies]
    · exact hput.2.1.trans (hsame.2.1.trans hfw)
    · obtain ⟨h1, h2, h3⟩ := hput.2.2.2 d
      obtain ⟨g1, g2, g3⟩ := hsame.2.2.2 d
      rw [h1, h2, h3, State.putLine, State.putLine, State.die_modDie, State.die_modDie]
      rw [hdie] at g1 g2 g3
      by_cases hd : d = h ∧ h < t.dies.length
      · rw [if_pos hd, if_pos ⟨hd.1, by rw [hsame.1, hdies]; exact hd.2⟩]
        simp only [g1, g2, g3, and_self]
      · rw [if_neg hd, if_neg (by rw [hsame.1, hdies]; exact hd)]
        exact ⟨g1, g2, g3⟩

end

end Sys2Proof.Machine
end

section
namespace Sys2Proof.Machine

/-! ### Answers of the service -/

/-- A result area of `n` bytes that the service can write at once. -/
structure State.Area (s : State) (sid va n h pa : Nat) : Prop where
  below : va + n ≤ Config.windowBase
  room : s.RoomAt h n
  once : s.NoneOnce
  pages : s.AreaPages sid va n h pa

section
variable {s t : State} {c : Command} {sid va h pa : Nat} {bs : List Byte}

theorem State.Area.writing (ha : s.Area sid va bs.length h pa) : s.Writing sid va h pa bs 0 :=
  ⟨ha.below, ha.pages, ha.once, ha.room, fun _ _ hk => absurd hk (Nat.not_lt_zero _)⟩

theorem State.Area.svcCan {n : Nat} (ha : s.Area sid va n h pa) : s.svcCan sid va n = true := by
  by_cases hn : n = 0
  · subst hn
    rfl
  have hat : ∀ a, va ≤ a → (decide (va + n ≤ a) || (s.svcAt sid a true).isSome) = true := fun a hle => by
    by_cases hlt : va + n ≤ a
    · simp [hlt]
    · obtain ⟨q, hq, -⟩ := ha.pages.svcAt (i := a - va) (by omega) ha.below
      rw [show va + (a - va) = a by omega] at hq
      simp [hq]
  unfold State.svcCan
  rw [Bool.or_eq_true, List.all_eq_true]
  refine .inr fun a hm => hat a ?_
  simp only [List.mem_cons, List.mem_map, List.mem_range] at hm
  obtain rfl | rfl | ⟨k, -, rfl⟩ := hm
  · exact Nat.le_refl _
  · omega
  · have := Nat.div_add_mod va 65536
    have := Nat.mod_lt va (show 0 < 65536 by decide)
    omega

/-- What the service writes stands in the submitter's memory. -/
theorem State.Area.writes (ha : s.Area sid va bs.length h pa) (ls : List (Nat × Nat)) :
    ∃ t ls', s.svcWrite sid va 0 bs ls = .ok t [] ls' ∧ s.Kept t ∧ ∀ k b, bs[k]? = some b → t.peekPool h (pa + k) = b := by
  obtain ⟨t, ls', hw, hb⟩ := State.svcWrite_writing ha.writing rfl ls
  exact ⟨t, ls', hw, Svc.Kept.of_ok hw (kept_svcWrite (State.Kept.refl s)), fun k b hk => (hb k b hk).peekPool⟩

/-- A state in which a command has ended well and its bytes stand at its result address. -/
def State.Wrote (s s' : State) (c : Command) (h pa : Nat) (bs : List Byte) : Prop :=
  s'.Ended c.id c.st 0 0 ∧ s'.troupes = s.troupes ∧ ∀ k b, bs[k]? = some b → s'.peekPool h (pa + k) = b

theorem State.answer_wrote {at_ : Nat} (hc : s.cmd? c.id = some c) (ha : s.Area c.sid va bs.length h pa) :
    s.Wrote (s.answer c va at_ bs) c h pa bs := by
  obtain ⟨t, ls, hw, hk, hb⟩ := ha.writes []
  unfold State.answer
  rw [ha.svcCan, if_neg (by decide), hw]
  exact ⟨State.ended_effectDone ((hk.cmd? _).trans hc) 0 0 ls, hk.troupes, hb⟩

theorem State.Area.takes {n : Nat} (ha : s.Area sid va n h pa) (sp : Spot) (k : Nat) : (s.takes sp k).Area sid va n h pa := by
  obtain ⟨_, _, ht⟩ := s.takes_turns sp k
  rw [ht]
  exact ⟨ha.below, ha.room, ha.once, ha.pages⟩

theorem ident_wrote (hc : s.started c.id 0x20 = some c)
    (hb : bs = leBytes 4 (0x04600100 + Config.stepping.toNat) ++ leBytes 4 s.fw.version.toNat ++ leBytes 2 s.fw.l2Mib ++
      [BitVec.ofNat 8 s.fw.mode, 0] ++ ((List.range 4).flatMap fun d => leBytes 8 (s.die d).off.toNat ++
        leBytes 8 ((if (s.die d).replace = true then 2 ^ 63 else 0) + (s.die d).spares * 4096 + (s.die d).retired)) ++
      [0, 0, 0, 0]) (ha : s.Area c.sid (fld c.msg 0x80 8) bs.length h pa) :
    ∃ s', execIdent c.id s = .next s' ∧ s.Wrote s' c h pa bs := by
  refine ⟨_, ?_, State.answer_wrote (at_ := 0x80) (State.started_cmd? hc).1 ha⟩
  rw [execIdent, runCmd_of_started hc, hb, show leBytes 4 0 = [0, 0, 0, 0] from rfl]
  simp only [List.append_assoc]
  rfl

theorem attest_wrote (hc : s.started c.id 0x21 = some c) (hb : bs = s.report ((c.msg.drop 0x88).take 32))
    (ha : s.Area c.sid (fld c.msg 0x80 8) bs.length h pa) : ∃ s', execAttest c.id s = .next s' ∧ s.Wrote s' c h pa bs := by
  obtain ⟨_, _, ht⟩ := s.takes_turns .handover 1
  obtain ⟨hend, htr, hbytes⟩ := State.answer_wrote (at_ := 0x80)
    (by rw [ht]; exact (State.started_cmd? hc).1) (ha.takes .handover 1)
  refine ⟨_, ?_, hend, htr.trans (by rw [ht]; rfl), hbytes⟩
  rw [execAttest, runCmd_of_started hc, hb]

theorem telem_wrote (hc : s.started c.id 0x24 = some c)
    (hb : bs = ((List.range 20).flatMap fun k => leBytes 8 (mget 0 (s.core (fld c.msg 0x88 1) (fld c.msg 0x89 1)).ev k).toNat) ++
      ((List.range 16).flatMap fun k => leBytes 8 (mget 0 (s.die (fld c.msg 0x88 1)).ev (0x40 + k)).toNat) ++
      ((List.range 2).flatMap fun k => leBytes 8 (mget 0 s.ev (0x80 + k)).toNat) ++ (s.die (fld c.msg 0x88 1)).spareWords)
    (ha : s.Area c.sid (fld c.msg 0x80 8) bs.length h pa) : ∃ s', execTelem c.id s = .next s' ∧ s.Wrote s' c h pa bs := by
  refine ⟨_, ?_, State.answer_wrote (at_ := 0x80) (State.started_cmd? hc).1 ha⟩
  rw [execTelem, runCmd_of_started hc, hb]
  simp only [counterBytes, Nat.zero_add]

theorem readback_certificate (hc : s.started c.id 0x25 = some c) (hcls : fld c.msg 0x88 1 = 5) (hrel : fld c.msg 0x89 1 = 0)
    (ha : s.Area c.sid (fld c.msg 0x80 8) Config.certificate.length h pa) :
    ∃ s', execReadback c.id s = .next s' ∧ s.Wrote s' c h pa Config.certificate := by
  refine ⟨_, ?_, State.answer_wrote (at_ := 0x80) (State.started_cmd? hc).1 ha⟩
  rw [execReadback, runCmd_of_started hc]
  simp only [hcls, hrel]
  rfl

theorem readback_missing (hc : s.started c.id 0x25 = some c) (hi : s.hasItem (fld c.msg 0x88 1) (fld c.msg 0x8C 4) = false) :
    ∃ s', execReadback c.id s = .next s' ∧ s'.Ended c.id c.st 0x02 0x8C := by
  refine ⟨s.effectDone c.id 0x02 0x8C 0 [], ?_, State.ended_effectDone (State.started_cmd? hc).1 _ _ _⟩
  rw [execReadback, runCmd_of_started hc]
  simp only [hi]
  rfl

/-! ### The attestation report -/

theorem slice_append_right {a b : List Byte} {o n : Nat} (h : a.length ≤ o) :
    ((a ++ b).drop o).take n = (b.drop (o - a.length)).take n := by
  rw [List.drop_append, List.drop_eq_nil_of_le h, List.nil_append]

theorem beBytes_length (n v : Nat) : (beBytes n v).length = n := by rw [beBytes, List.length_reverse, leBytes_length]

/-- The report as the list of its fields. -/
theorem State.report_eq (s : State) (n : List Byte) : ∃ flags next ver sig, s.report n = leBytes 2 1 ++ (leBytes 2 flags ++
    (leBytes 4 s.fw.version.toNat ++ (beBytes 32 s.fw.meas.toNat ++ (beBytes 32 next ++ (leBytes 4 ver ++ (leBytes 4 0 ++ (n ++
      (leBytes 8 (s.clock 0).toNat ++ beBytes 64 sig)))))))) := by
  simp only [State.report, State.reportBody, List.append_assoc]
  exact ⟨_, _, _, _, rfl⟩

theorem State.report_fields (s : State) {n : List Byte} (hn : n.length = 32) :
    (s.report n).length = 184 ∧ (s.report n).take 2 = [1, 0] ∧
    leNat (((s.report n).drop 4).take 4) = s.fw.version.toNat ∧ ((s.report n).drop 8).take 32 = beBytes 32 s.fw.meas.toNat ∧
    ((s.report n).drop 80).take 32 = n ∧ leNat (((s.report n).drop 112).take 8) = (s.clock 0).toNat := by
  obtain ⟨flags, next, ver, sig, hr⟩ := s.report_eq n
  have hle : ∀ {k v : Nat} {b : List Byte}, ((leBytes k v ++ b).drop 0).take k = leBytes k v := fun {k v b} => by
    rw [List.drop_zero, List.take_left' (leBytes_length k v)]
  have hbe : ∀ {k v : Nat} {b : List Byte}, ((beBytes k v ++ b).drop 0).take k = beBytes k v := fun {k v b} => by
    rw [List.drop_zero, List.take_left' (beBytes_length k v)]
  rw [hr]
  refine ⟨by simp [leBytes_length, beBytes_length, hn], rfl, ?_, ?_, ?_, ?_⟩
  · simp only [slice_append_right, leBytes_length, Nat.reduceLeDiff, Nat.reduceSub, hle, leNat_leBytes]
    exact Nat.mod_eq_of_lt s.fw.version.isLt
  · simp only [slice_append_right, leBytes_length, Nat.reduceLeDiff, Nat.reduceSub, hbe]
  · simp only [slice_append_right, leBytes_length, beBytes_length, Nat.reduceLeDiff, Nat.reduceSub, List.drop_zero,
      List.take_left' hn]
  · simp only [slice_append_right, leBytes_length, beBytes_length, hn, Nat.reduceLeDiff, Nat.reduceSub, hle, leNat_leBytes]
    exact Nat.mod_eq_of_lt (s.clock 0).isLt

end

end Sys2Proof.Machine
end

section
namespace Sys2Proof.Machine

/-! ### Settings -/

section
variable {s t : State} {c : Command}

theorem handler_sets {u : Submitter} (hc : s.started c.id 0x22 = some c) (hu : s.sub? c.sid = some u) :
    ∃ s', execHandler c.id s = .next s' ∧ s'.Ended c.id c.st 0 0 ∧
      s'.sub? c.sid = some { u with handler := fld c.msg 0x80 8 } := by
  rw [execHandler, runCmd_of_started hc]
  exact ⟨_, rfl, State.ended_effectDone (State.started_cmd? hc).1 .., State.sub?_modSub_same hu
    (f := fun u => { u with handler := fld c.msg 0x80 8 }) fun _ => rfl⟩

theorem power_sets (hc : s.started c.id 0x2A = some c) : ∃ s', execPower c.id s = .next s' ∧ s'.Ended c.id c.st 0 0 ∧
    s'.pw.cap = fld c.msg 0x80 2 ∧ s'.pw.idleMs = fld c.msg 0x82 4 ∧ s'.pw.filter = s.pw.filter := by
  rw [execPower, runCmd_of_started hc]
  exact ⟨_, rfl, State.ended_effectDone (State.started_cmd? hc).1 .., rfl, rfl, rfl⟩

theorem wakefilt_sets (hc : s.started c.id 0x2B = some c) : ∃ s', execWakefilt c.id s = .next s' ∧ s'.Ended c.id c.st 0 0 ∧
    s'.pw.cap = s.pw.cap ∧ s'.pw.filter = lmod (fun _ =>
      { valid := fld c.msg 0x81 1 == 1, src := BitVec.ofNat 64 (fld c.msg 0x84 8),
        srcMask := BitVec.ofNat 64 (fld c.msg 0x8C 8), pat := BitVec.ofNat 128 (fld c.msg 0x94 16),
        patMask := BitVec.ofNat 128 (fld c.msg 0xA4 16) }) s.pw.filter (fld c.msg 0x80 1) := by
  rw [execWakefilt, runCmd_of_started hc]
  exact ⟨_, rfl, State.ended_effectDone (State.started_cmd? hc).1 .., rfl, rfl⟩

theorem setparam_sets (hc : s.started c.id 0x2C = some c) : ∃ s', execSetparam c.id s = .next s' ∧ s'.Ended c.id c.st 0 0 ∧
    s'.pbound = fld c.msg 0x80 4 ∧ ∀ D ∈ s'.dies, D.lambda = fld c.msg 0x84 2 := by
  have hcmd : ((List.range 4).foldl (fun (s : State) d => s.takes (.lease d) 1) s).cmd? c.id = some c := by
    obtain ⟨_, _, h⟩ := s.foldl_takes_turns Spot.lease 1 (List.range 4)
    rw [h]
    exact (State.started_cmd? hc).1
  rw [execSetparam, runCmd_of_started hc]
  refine ⟨_, rfl, State.ended_effectDone (by exact hcmd) .., rfl, fun D hD => ?_⟩
  obtain ⟨E, -, rfl⟩ := List.mem_map.mp hD
  rfl

theorem mode_sets (hc : s.started c.id 0x2D = some c) : ∃ s', execMode c.id s = .next s' ∧ s'.Ended c.id c.st 0 0 ∧
    s'.fw = { s.fw with mode := fld c.msg 0x80 1 } := by
  rw [execMode, runCmd_of_started hc]
  exact ⟨_, rfl, State.ended_effectDone (State.started_cmd? hc).1 .., rfl⟩

theorem reset_ends (hc : s.started c.id 0x2E = some c) : ∃ s', execReset c.id s = .next s' ∧ s'.Ended c.id c.st 0 0 ∧
    s'.fw = s.fw := by
  rw [execReset, runCmd_of_started hc]
  exact ⟨_, rfl, State.ended_effectDone (State.started_cmd? hc).1 .., rfl⟩

theorem State.NoWaiters.congr (hn : s.NoWaiters) (ht : t.dies = s.dies) : t.NoWaiters := fun a => by
  rw [State.word, State.die, ht]
  exact hn a

/-- A RESET that is Complete leaves the device reset due. -/
theorem reset_completes (h : s.cmd? c.id = some c) (hop : c.op = 0x2E) (hst : c.st = .started) (he : c.effect = true)
    (hok : c.status = 0) (hl : c.lines = []) (hsig : c.sigs = []) (hnode : c.node = none) (hn : s.NoWaiters) :
    ∃ s', execCommandComplete c.id s = .next s' ∧ s'.fw = { s.fw with resetDue := true } ∧
      ∃ c' ∈ s'.cmd? c.id, c'.st = .complete := by
  have hd : (s.modCmd c.id Command.drained).cmd? c.drained.id = some c.drained := State.cmd?_modCmd_same h fun _ => rfl
  have hend : s.completeCmd c.id = (s.modCmd c.id Command.drained).endCmd c.drained := by
    rw [State.completeCmd_eq h, hsig]
    exact State.drainSignals_over (c := c.drained) hd rfl (by show c.sigs[_]? = none; rw [hsig]; rfl)
  refine ⟨_, (execCommandComplete_of h he hst hl).trans (congrArg _ hend), ?_⟩
  unfold State.endCmd
  extract_lets s1 _ s2
  have h1 : s1.cmd? c.id = some { c.drained with st := .complete } :=
    State.cmd?_modCmd_same (f := fun c => { c with st := .complete }) hd fun _ => rfl
  have h2 : s2 = { s1 with fw := { s1.fw with resetDue := true } } := if_pos ⟨hop, hok⟩
  rw [show c.drained.node = none from hnode, h2]
  dsimp only
  rw [State.NoWaiters.serveMail (hn.congr (by split <;> rfl))]
  split
  · exact ⟨rfl, _, h1, rfl⟩
  · exact ⟨rfl, _, h1, rfl⟩

/-! ### DEPGRANT -/

/-- A state in which the words `ws` of a die are the submitter's and empty, and nothing else has changed of what DEPGRANT
reads. -/
structure State.GrantedTo (s t : State) (sid d : Nat) (ws : List Nat) : Prop where
  four : t.dies.length = 4
  quiet : t.NoWaiters
  cmds : t.cmds = s.cmds
  owner : ∀ w ∈ ws, mfind (t.die d).depOwner w = some sid
  empty : ∀ w ∈ ws, t.word (d * 65536 + w) = MailboxWord.empty

/-- One more word granted. -/
def State.grantWord (s : State) (sid d w : Nat) : State :=
  (s.modDie d fun D => { D with depOwner := mput w sid D.depOwner }).modWord (d * 65536 + w) fun m =>
    { m with full := false, value := 0 }

theorem MailboxWord.emptied {m : MailboxWord} (h : m.waiters = []) : { m with full := false, value := 0 } = MailboxWord.empty := by
  obtain ⟨_, _, _⟩ := m
  obtain rfl := h
  rfl

theorem State.GrantedTo.next {sid d w : Nat} {ws : List Nat} (h : s.GrantedTo t sid d ws) (hd : d < 4) (hw : w < 65536) :
    s.GrantedTo (t.grantWord sid d w) sid d (ws ++ [w]) := by
  obtain ⟨hfour, hquiet, hcmds, howner, hempty⟩ := h
  have h4 : (t.modDie d fun D => { D with depOwner := mput w sid D.depOwner }).dies.length = 4 := (lmod_length ..).trans hfour
  have hword : ∀ a, (t.modDie d fun D => { D with depOwner := mput w sid D.depOwner }).word a = t.word a := fun a => by
    rw [State.word, State.die_modDie]
    split
    · rfl
    · rfl
  have hnew : ∀ a, (t.grantWord sid d w).word a =
      if a % 2 ^ 18 = (d * 65536 + w) % 2 ^ 18 then { t.word a with full := false, value := 0 } else t.word a := fun a => by
    rw [State.grantWord, State.word_modWord h4, hword]
  have hdep : (t.grantWord sid d w).die d = { t.die d with
      depOwner := mput w sid (t.die d).depOwner, mbox := ((t.grantWord sid d w).die d).mbox } := by
    rw [State.grantWord, State.modWord, State.die_modDie, if_pos ⟨by omega, by omega⟩, State.die_modDie,
      if_pos ⟨rfl, by omega⟩]
  refine ⟨(lmod_length ..).trans h4, fun a => ?_, hcmds, fun v hv => ?_, fun v hv => ?_⟩
  · rw [hnew]
    split
    · exact hquiet a
    · exact hquiet a
  · rw [hdep, mfind_mput]
    rcases List.mem_append.mp hv with hv | hv
    · rw [howner v hv, ite_self]
    · rw [if_pos (List.mem_singleton.mp hv)]
  · rw [hnew]
    split
    · exact MailboxWord.emptied (hquiet _)
    next hne =>
      rcases List.mem_append.mp hv with hv | hv
      · exact hempty v hv
      · rw [List.mem_singleton.mp hv] at hne
        exact absurd rfl hne

theorem State.GrantedTo.all {sid d : Nat} (h : s.GrantedTo t sid d []) (hd : d < 4) (ws : List Nat) (hws : ∀ w ∈ ws, w < 65536) :
    s.GrantedTo (ws.foldl (fun t w => t.grantWord sid d w) t) sid d ws := by
  induction ws using List.reverseRecOn with
  | nil => exact h
  | append_singleton ws w ih =>
    rw [List.foldl_append]
    exact (ih fun v hv => hws v (List.mem_append_left _ hv)).next hd (hws w (by simp))

theorem depgrant_grants (hc : s.started c.id 0x23 = some c) (hn : s.NoWaiters) (hs : s.dies.length = 4)
    (hd : fld c.msg 0x80 1 < 4) (hb : fld c.msg 0x82 2 + fld c.msg 0x84 2 ≤ 4096) :
    ∃ s', execDepgrant c.id s = .next s' ∧
      ((∃ w v, (fld c.msg 0x82 2 ≤ w ∧ w < fld c.msg 0x82 2 + fld c.msg 0x84 2) ∧
        mfind (s.die (fld c.msg 0x80 1)).depOwner w = some v ∧ v ≠ c.sid) → s'.Ended c.id c.st 0x04 0) ∧
      ((∀ w v, fld c.msg 0x82 2 ≤ w ∧ w < fld c.msg 0x82 2 + fld c.msg 0x84 2 →
        mfind (s.die (fld c.msg 0x80 1)).depOwner w = some v → v = c.sid) → s'.Ended c.id c.st 0 0 ∧
        ∀ w, fld c.msg 0x82 2 ≤ w ∧ w < fld c.msg 0x82 2 + fld c.msg 0x84 2 →
          s'.granted c.sid (fld c.msg 0x80 1 * 65536 + w) = true ∧
          s'.word (fld c.msg 0x80 1 * 65536 + w) = MailboxWord.empty) := by
  rw [execDepgrant, runCmd_of_started hc]
  extract_lets d ws owner u
  have hmem : ∀ w, w ∈ ws ↔ fld c.msg 0x82 2 ≤ w ∧ w < fld c.msg 0x82 2 + fld c.msg 0x84 2 := fun w => by
    simp only [ws, List.mem_map, List.mem_range]
    exact ⟨fun ⟨k, hk, e⟩ => by omega, fun hw => ⟨w - fld c.msg 0x82 2, by omega, by omega⟩⟩
  have htaken : (ws.any fun w => owner w != none && owner w != some c.sid) = true ↔
      ∃ w v, (fld c.msg 0x82 2 ≤ w ∧ w < fld c.msg 0x82 2 + fld c.msg 0x84 2) ∧
        mfind (s.die d).depOwner w = some v ∧ v ≠ c.sid := by
    simp only [List.any_eq_true, Bool.and_eq_true, bne_iff_ne, hmem]
    constructor
    · rintro ⟨w, hw, h0, h1⟩
      obtain ⟨v, hv⟩ := Option.ne_none_iff_exists'.mp h0
      exact ⟨w, v, hw, hv, fun e => h1 (hv.trans (congrArg some e))⟩
    · rintro ⟨w, v, hw, hv, hne⟩
      have ho : owner w = some v := hv
      exact ⟨w, hw, by simp [ho], by simp [ho, hne]⟩
  refine ⟨_, rfl, fun h => ?_, fun h => ?_⟩
  · rw [if_pos (htaken.mpr h)]
    exact State.ended_effectDone (State.started_cmd? hc).1 ..
  · rw [if_neg fun ht => by
      obtain ⟨w, v, hw, hv, hne⟩ := htaken.mp ht
      exact hne (h w v hw hv)]
    have hg : s.GrantedTo u c.sid d ws :=
      State.GrantedTo.all ⟨hs, hn, rfl, nofun, nofun⟩ hd ws fun w hw => by
        have := (hmem w).mp hw
        omega
    clear_value u
    have hcmd : u.cmd? c.id = some c := by
      rw [State.cmd?, hg.cmds]
      exact (State.started_cmd? hc).1
    rw [State.NoWaiters.serveMail (s := u.effectDone c.id 0 0 0 []) (hg.quiet.congr rfl)]
    refine ⟨State.ended_effectDone hcmd .., fun w hw => ⟨?_, hg.empty w ((hmem w).mpr hw)⟩⟩
    have hdiv : (d * 65536 + w) / 65536 = d ∧ (d * 65536 + w) % 65536 = w := by omega
    have howner : mfind (u.die d).depOwner w = some c.sid := hg.owner w ((hmem w).mpr hw)
    have hbound : d * 65536 + w < 2 ^ 18 ∧ w < Config.mboxFirst := by
      have hd4 : d < 4 := hd
      rw [Config.mboxFirst]
      omega
    show (decide (d * 65536 + w < 2 ^ 18 ∧ (d * 65536 + w) % 65536 < Config.mboxFirst) &&
      mfind (u.die ((d * 65536 + w) / 65536)).depOwner ((d * 65536 + w) % 65536) == some c.sid) = true
    rw [hdiv.1, hdiv.2, howner, decide_eq_true hbound, BEq.rfl, Bool.and_true]

end

end Sys2Proof.Machine
end

section
namespace Sys2Proof.Machine

/-! ### Firmware -/

section
variable {s s1 : State} {c : Command}

theorem fwstage_stages {bs : List Byte} {ls : List (Nat × Nat)} (hc : s.started c.id 0x28 = some c)
    (hcom : s.fw.committing = none) (hr : s.svcRead c.sid (fld c.msg 0x80 8) 0 (fld c.msg 0x88 4) = .ok s1 bs ls) :
    ∃ s', execFwstage c.id s = .next s' ∧
      if Config.imageSigned bs = true ∧ s.fw.antiRollback ≤ Config.imageVersion bs then s'.Ended c.id c.st 0 0 ∧
        s'.fw = { s.fw with staged := some ⟨⟨bs, Config.imageVersion bs, true⟩,
          chain (chain s.fw.m1 (Config.sha256 bs)) s.fw.config.digest⟩ }
      else s'.Ended c.id c.st 0x0C 0 ∧ s'.fw = s.fw := by
  have hk := State.kept_of_read hr
  have hcmd : s1.cmd? c.id = some c := (hk.cmd? _).trans (State.started_cmd? hc).1
  rw [execFwstage, runCmd_of_started hc]
  simp only [hcom, Option.isSome_none, hr, hk.fw, Bool.false_eq_true, if_false]
  refine ⟨_, rfl, ?_⟩
  by_cases hok : Config.imageSigned bs = true ∧ s.fw.antiRollback ≤ Config.imageVersion bs
  · rw [if_pos hok, if_neg (by rw [hok.1]; simpa using hok.2)]
    exact ⟨State.ended_effectDone (by exact hcmd) .., rfl⟩
  · rw [if_neg hok, if_pos (by
      by_cases hsig : Config.imageSigned bs = true
      · exact .inr (by simpa [hsig] using hok)
      · exact .inl (by simpa using hsig))]
    exact ⟨State.ended_effectDone hcmd .., hk.fw⟩

theorem fwcommit_of_none (hc : s.started c.id 0x29 = some c) (hst : s.fw.staged = none) :
    ∃ s', execFwcommit c.id s = .next s' ∧ s'.Ended c.id c.st 0x02 0 ∧ s'.fw = s.fw := by
  rw [execFwcommit, runCmd_of_started hc, hst]
  exact ⟨_, rfl, State.ended_effectDone (State.started_cmd? hc).1 .., rfl⟩

theorem fwcommit_of_staged (hc : s.started c.id 0x29 = some c) (hst : s.fw.staged.isSome = true) (hcom : s.fw.committing = none) :
    execFwcommit c.id s = .next { s with fw := { s.fw with committing := some c.id } } := by
  obtain ⟨g, hg⟩ := Option.isSome_iff_exists.mp hst
  rw [execFwcommit, runCmd_of_started hc, hg, hcom]
  rfl

theorem commit_point {g : Staged} (hcom : s.fw.committing = some c.id) (hc : s.cmd? c.id = some c) (hst : s.fw.staged = some g)
    (hn : s.NoWaiters) :
    ∃ s', execFwcommitCommitPoint s = .next s' ∧ s'.Ended c.id c.st 0 0 ∧ s'.fw.meas = g.next ∧ s'.fw.version = g.image.version ∧
      s'.fw.antiRollback = g.image.version ∧ s'.fw.staged = none ∧ s'.fw.committing = none := by
  obtain ⟨_, _, ht⟩ := s.takes_turns .handover 0
  rw [execFwcommitCommitPoint, hcom, hst, ht]
  dsimp only
  rw [State.NoWaiters.serveMail (hn.congr (by exact rfl))]
  exact ⟨_, rfl, State.ended_effectDone (by exact hc) .., rfl, rfl, rfl, rfl, rfl⟩

/-! ### Checkpoints -/

theorem State.kept_ckptDesc {rs : List CkptRange} (hd : s.ckptDesc c = .ok s1 rs) : s.Kept s1 := by
  unfold State.ckptDesc at hd
  dsimp only at hd
  split at hd
  · cases hd
  · cases hd
  next t h _ ht =>
    have hk := State.kept_of_read ht
    split at hd
    · cases hd
    split at hd
    · cases hd
    · cases hd
    next t' b _ ht' =>
      have hk' := Svc.Kept.of_ok ht' (kept_svcRead hk)
      split at hd
      · cases hd
        exact hk'
      · cases hd

theorem ckpt_writes {s2 : State} {r : CkptRange} {b : List Byte} {ls : List (Nat × Nat)} {h pa : Nat}
    (hc : s.started c.id 0x26 = some c) (hd : s.ckptDesc c = .ok s1 [r]) (hkind : r.kind = 0) (hmode : s1.fw.mode = 0)
    (hr : s1.svcRead c.sid r.addr 0 r.len = .ok s2 b ls)
    (ha : s2.Area c.sid (fld c.msg 0x88 8) (32 + b.length) h pa) :
    ∃ s', execCkpt c.id s = .next s' ∧ s'.Ended c.id c.st 0 0 ∧
      (∀ k, k < 32 → s'.peekPool h (pa + k) = lget 0 (leBytes 8 r.addr ++ leBytes 4 r.len ++ leBytes 4 r.kind ++
        leBytes 8 b.length ++ leBytes 8 0) k) ∧
      ∀ k x, b[k]? = some x → s'.peekPool h (pa + 32 + k) = x := by
  have hdata : ckptData false r b = b := by rw [ckptData, if_neg (by decide), if_pos hkind]
  have hlen : (ckptHeader false r b.length).length = 32 := by simp [ckptHeader, leBytes_length]
  have hall : (ckptHeader false r b.length ++ b).length = 32 + b.length := by rw [List.length_append, hlen]
  obtain ⟨t, ls', hw, hk, hb⟩ := State.Area.writes (bs := ckptHeader false r b.length ++ b) (by rw [hall]; exact ha) []
  rw [execCkpt, runCmd_of_started hc, hd]
  simp only [State.ckptOut, hr, hmode, Nat.reduceBEq, hdata, Nat.add_zero, ha.svcCan, hw, Bool.not_true, Bool.false_eq_true, if_false]
  refine ⟨_, rfl, ?_, fun k hlt => hb k _ ?_, fun k x hx => ?_⟩
  · exact State.ended_effectDone ((hk.cmd? _).trans (((State.kept_of_read hr).cmd? _).trans (((State.kept_ckptDesc hd).cmd? _).trans
      (State.started_cmd? hc).1))) ..
  · rw [List.getElem?_append_left (by omega), getElem?_of_lget 0 (by omega)]
    rfl
  · refine (congrArg _ (Nat.add_assoc ..)).trans (hb (32 + k) x ?_)
    rw [List.getElem?_append_right (by omega), hlen, Nat.add_sub_cancel_left]
    exact hx

theorem ckptload_writes {s2 s3 : State} {r : CkptRange} {hd d b : List Byte} {ls ls3 : List (Nat × Nat)} {h pa : Nat}
    (hc : s.started c.id 0x27 = some c) (hdesc : s.ckptDesc c = .ok s1 [r])
    (hr : s1.svcRead c.sid (fld c.msg 0x88 8) 0 32 = .ok s2 hd ls)
    (hr3 : s2.svcRead c.sid (fld c.msg 0x88 8 + 32) 0 (fld hd 16 8) = .ok s3 d ls3) (hback : ckptBack r hd d = some b)
    (ha : s3.Area c.sid r.addr b.length h pa) :
    ∃ s', execCkptload c.id s = .next s' ∧ s'.Ended c.id c.st 0 0 ∧ ∀ k x, b[k]? = some x → s'.peekPool h (pa + k) = x := by
  obtain ⟨t, ls', hw, hk, hb⟩ := ha.writes []
  have hcmd : s3.cmd? c.id = some c := by
    rw [(Svc.Kept.of_ok hr3 (kept_svcRead (Svc.Kept.of_ok hr (kept_svcRead (State.kept_ckptDesc hdesc))))).cmd?]
    exact (State.started_cmd? hc).1
  rw [execCkptload, runCmd_of_started hc, hdesc]
  simp only [State.ckptIn, Nat.add_zero, hr, hr3, hback, ha.svcCan, hw, Bool.not_true, Bool.false_eq_true, if_false]
  exact ⟨_, rfl, State.ended_effectDone ((hk.cmd? _).trans hcmd) .., hb⟩

end

/-- What CKPT stores of a range of KIND 0 gives the range back (R439). -/
theorem ckptBack_stored {r : CkptRange} {b : List Byte} (hk : r.kind = 0) (ha : r.addr < 2 ^ 64) (hl : r.len < 2 ^ 32)
    (hb : b.length = r.len) : ckptBack r (ckptHeader false r (ckptData false r b).length) (ckptData false r b) = some b := by
  have hdata : ckptData false r b = b := by rw [ckptData, if_neg (by decide), if_pos hk]
  have hh : ckptHeader false r b.length = leBytes 8 r.addr ++ (leBytes 4 r.len ++ (leBytes 4 0 ++ (leBytes 8 b.length ++
      leBytes 8 0))) := by
    rw [ckptHeader, hk]
    simp only [List.append_assoc]
    rfl
  have h0 : fld (ckptHeader false r b.length) 0 8 = r.addr := by
    rw [hh, fld_append_left (by rw [leBytes_length]), fld_leBytes, Nat.mod_eq_of_lt (by omega)]
  have h8 : fld (ckptHeader false r b.length) 8 4 = r.len := by
    rw [hh, fld_append_right (by rw [leBytes_length]), leBytes_length, fld_append_left (by rw [leBytes_length]), fld_leBytes,
      Nat.mod_eq_of_lt (by omega)]
  have h12 : fld (ckptHeader false r b.length) 12 4 = 0 := by
    rw [hh, fld_append_right (by simp [leBytes_length]), fld_append_right (by simp [leBytes_length])]
    simp only [leBytes_length, Nat.reduceSub]
    rw [fld_append_left (by rw [leBytes_length]), fld_leBytes, Nat.zero_mod]
  have h24 : fld (ckptHeader false r b.length) 24 8 = 0 := by
    rw [hh]
    simp only [fld_append_right, leBytes_length, Nat.reduceLeDiff, Nat.reduceSub]
    rw [fld_leBytes, Nat.zero_mod]
  rw [hdata, ckptBack, h0, h8, h12, h24, hk]
  simp [hb]

/-! ### LOAD -/

section
variable {s s1 s2 : State} {c : Command}

/-- The pages of a submitter, but for what translations and first touches change. -/
theorem State.Kept.pagesOf {t : State} (h : s.Kept t) (sid : Nat) :
    (t.pagesOf sid).map (fun e => (e.1, e.2.shape)) = (s.pagesOf sid).map fun e => (e.1, e.2.shape) := by
  have hsub : (t.sub? sid).map Submitter.shape = (s.sub? sid).map Submitter.shape := by
    have := congrArg (List.find? fun u => u.sid == sid) h.subs
    rwa [List.find?_map, List.find?_map] at this
  rw [State.pagesOf, State.pagesOf]
  cases ht : t.sub? sid with
  | none =>
    cases hs : s.sub? sid with
    | none => rfl
    | some u => rw [ht, hs] at hsub; cases hsub
  | some v =>
    cases hs : s.sub? sid with
    | none => rw [ht, hs] at hsub; cases hsub
    | some u =>
      rw [ht, hs] at hsub
      exact congrArg Submitter.pages (Option.some.inj hsub)

theorem mappedIn_shape (ps : List (Nat × Pte)) (va n : Nat) :
    mappedIn (ps.map fun e => (e.1, e.2.shape)) va n = mappedIn ps va n := by
  rw [mappedIn, List.any_map]
  rfl

theorem State.Kept.mappedIn {t : State} (h : s.Kept t) (sid va n : Nat) :
    mappedIn (t.pagesOf sid) va n = Machine.mappedIn (s.pagesOf sid) va n := by
  rw [← mappedIn_shape, h.pagesOf, mappedIn_shape]

theorem State.Kept.sub {t : State} (h : s.Kept t) {sid : Nat} {u : Submitter} (hu : s.sub? sid = some u) :
    ∃ v, t.sub? sid = some v := by
  have hsub : (t.sub? sid).map Submitter.shape = (s.sub? sid).map Submitter.shape := by
    have := congrArg (List.find? fun u => u.sid == sid) h.subs
    rwa [List.find?_map, List.find?_map] at this
  rw [hu] at hsub
  cases ht : t.sub? sid with
  | none => rw [ht] at hsub; cases hsub
  | some v => exact ⟨v, rfl⟩

/-- A submitter with the pages of an object that LOAD has put into place. -/
def loadedPages (b : List Byte) (va pa : Nat) (u : Submitter) : Submitter :=
  { u with pages := putAll (va + 65536 * ·) (fun k => loadPage (pa + 65536 * k) (decide (k < (layoutOf b va).code))) u.pages ((layoutOf b va).code + 1 + (layoutOf b va).data) }

theorem load_maps {b : List Byte} {ls ls2 : List (Nat × Nat)} {u : Submitter} (hc : s.started c.id 0x2F = some c)
    (hr : s.svcRead c.sid (fld c.msg 0x80 8) 0 (fld c.msg 0x88 4) = .ok s1 b ls) (hok : firstBad (objectChecks b) = none)
    {va pa n : Nat} (hva : va = fld c.msg 0x90 8) (hpa : pa = fld c.msg 0x98 8)
    (hn : n = (layoutOf b va).code + 1 + (layoutOf b va).data) (hbar : barredRange va (65536 * n) = false)
    (hmap : mappedIn (s1.pagesOf c.sid) va (65536 * n) = false) (hend : pa + 65536 * n ≤ 2 ^ 46)
    (hcan : s1.svcCan c.sid (fld c.msg 0xA0 8) (loadResult b va).length = true)
    (hw : s1.svcWrite c.sid (fld c.msg 0xA0 8) 0 (loadResult b va) [] = .ok s2 [] ls2) (hu : s.sub? c.sid = some u) :
    ∃ s', execLoad c.id s = .next s' ∧ s'.Ended c.id c.st 0 0 ∧ ∀ k a, k < n → va + 65536 * k ≤ a →
      a < va + 65536 * (k + 1) → ∃ p, s'.page? c.sid a = some (va + 65536 * k, p) ∧ p.pa = pa + 65536 * k ∧
        p.kind = .priv ∧ p.res = true ∧ p.pin = false ∧ p.r = true ∧ p.x = decide (k < (layoutOf b va).code) ∧
        p.w = decide ((layoutOf b va).code ≤ k) := by
  have hk1 := State.kept_of_read hr
  have hk2 : s1.Kept s2 := Svc.Kept.of_ok hw (kept_svcWrite (State.Kept.refl s1))
  have hcmd : s2.cmd? c.id = some c := (hk2.cmd? _).trans ((hk1.cmd? _).trans (State.started_cmd? hc).1)
  obtain ⟨v, hv⟩ := hk1.sub hu
  obtain ⟨v, hv⟩ := hk2.sub hv
  have hpages : mappedIn v.pages va (65536 * n) = false := by
    rw [← State.pagesOf_of_sub hv, hk2.mappedIn, hmap]
  subst hva hpa hn
  rw [execLoad, runCmd_of_started hc, hr]
  simp only [hok, hbar, hmap, hcan, hw, Bool.or_self, Bool.not_true, Bool.false_eq_true, if_false,
    show ¬ Config.poolEnd < _ from Nat.not_lt.mpr hend]
  refine ⟨_, rfl, State.ended_effectDone (by exact hcmd) .., fun k a hkn hlo hhi => ?_⟩
  refine ⟨loadPage (fld c.msg 0x98 8 + 65536 * k) (decide (k < (layoutOf b (fld c.msg 0x90 8)).code)), ?_, rfl, rfl, rfl, rfl, rfl,
    rfl, ?_⟩
  · have hsub := State.sub?_modSub_same (f := loadedPages b (fld c.msg 0x90 8) (fld c.msg 0x98 8)) hv fun _ => rfl
    have hpage := pageOf_putAll (z := 65536) (a := a) (key := (fld c.msg 0x90 8 + 65536 * ·))
      (v := fun k => loadPage (fld c.msg 0x98 8 + 65536 * k) (decide (k < (layoutOf b (fld c.msg 0x90 8)).code)))
      (by rw [Nat.mul_comm]; exact hpages) (fun k => by rw [Nat.mul_comm]) (fun _ => rfl) hkn (by omega)
    rw [Nat.mul_comm k] at hpage
    exact (State.page?_of_sub hsub a).trans hpage
  · simp only [loadPage]
    rw [← decide_not, decide_eq_decide]
    exact Nat.not_lt

theorem load_of_bad {b : List Byte} {ls : List (Nat × Nat)} {o : Nat} (hc : s.started c.id 0x2F = some c)
    (hr : s.svcRead c.sid (fld c.msg 0x80 8) 0 (fld c.msg 0x88 4) = .ok s1 b ls) (hbad : firstBad (objectChecks b) = some o) :
    ∃ s', execLoad c.id s = .next s' ∧ s'.Ended c.id c.st 0x02 o ∧ s'.pool = s1.pool := by
  rw [execLoad, runCmd_of_started hc, hr]
  simp only [hbad]
  exact ⟨_, rfl, State.ended_effectDone (((State.kept_of_read hr).cmd? _).trans (State.started_cmd? hc).1) .., rfl⟩

end

end Sys2Proof.Machine
end

section
open Sys2Proof Sys2Proof.Machine

/-- Settles O58: each command of the service ends with what it writes, and its bytes stand in the area's lines. -/
theorem systemCommands : Obligations.SystemCommands := by
  unfold Obligations.SystemCommands
  intro ended area wrote entry res
  have harea : ∀ {s : State} {c : Command} {va n h pa : Nat}, area s c va n h pa → s.Area c.sid va n h pa :=
    fun ⟨hb, hh, hports, honce, hused, hpages⟩ => ⟨hb, ⟨hh, hports, hused⟩, honce, hpages⟩
  have hwrote : ∀ {i : Instr} {s : State} {c : Command} {va : Nat} {bs : List Byte} (f : State → Host.Outcome State Fault Refusal), (∀ s, exec i s = f s) →
      (∀ h pa, s.Area c.sid va bs.length h pa → ∃ s', f s = .next s' ∧ s.Wrote s' c h pa bs) → wrote i s c va bs :=
    fun f hf hw h pa ha => by
      obtain ⟨s', hs', hend, htr, hb⟩ := hw h pa (harea ha)
      exact ⟨s', (hf _).trans hs', hend, htr, hb⟩
  refine ⟨fun s c hc => hwrote _ (fun _ => rfl) fun h pa ha => ident_wrote hc rfl ha,
    fun s c hc => hwrote _ (fun _ => rfl) fun h pa ha => attest_wrote hc rfl ha,
    fun s n hn => s.report_fields hn,
    fun s c hc => hwrote _ (fun _ => rfl) fun h pa ha => telem_wrote hc rfl ha,
    fun s c hc h5 h0 => hwrote _ (fun _ => rfl) fun h pa ha => readback_certificate hc h5 h0 ha,
    fun s c hc hi => readback_missing hc hi, fun s c u hc hu => handler_sets hc hu,
    fun s c hc hw hs hd hb => depgrant_grants hc (State.noWaiters_of_quiet hw) hs hd hb,
    fun s c hc => power_sets hc, fun s c hc => wakefilt_sets hc, fun s c hc => setparam_sets hc, fun s c hc => mode_sets hc,
    fun s c hc => reset_ends hc, ?_, fun s c s1 bs ls hc hcom hr => fwstage_stages hc hcom hr,
    fun s c hc hst => fwcommit_of_none hc hst, fun s c hc hst hcom => fwcommit_of_staged hc hst hcom,
    fun s c g hcom hc hst hw => commit_point hcom hc hst (State.noWaiters_of_quiet hw), ?_, ?_,
    fun r b hk ha hl hb => ckptBack_stored hk ha hl hb, ?_, fun s c s1 b ls o hc hr hbad => load_of_bad hc hr hbad⟩
  · exact fun s c hc hop hst he hok hl hsig hnode hw =>
      reset_completes hc hop hst he hok hl hsig hnode (State.noWaiters_of_quiet hw)
  · exact fun s c s1 r s2 b ls h pa hc hd hk hm hr ha => ckpt_writes hc hd hk hm hr (harea ha)
  · exact fun s c s1 r s2 hd ls s3 d ls3 b h pa hc hdesc hr hr3 hb ha => ckptload_writes hc hdesc hr hr3 hb (harea ha)
  · intro s c s1 b ls s2 ls2 hc hr hok va pa y n hbar hmap hend hcan hw hu
    obtain ⟨u, hu⟩ := hu
    exact load_maps hc hr hok rfl rfl rfl hbar hmap hend hcan hw hu

end


section
namespace Sys2Proof.Machine

/-! ## O51: placement -/

/-! ### Seats -/

/-- A seat in a partition of its offset, in a slot that was free. -/
def State.FreeSeat (s : State) (d off : Nat) (q : Seat) : Prop :=
  q.part = (q.idx + off) % 4 ∧ q.slot < 16 ∧ q.slot ∉ s.slotsTaken d q.core q.part

section
variable {s : State}

theorem State.freeSlot_free {d c p k : Nat} {ext : Bool} {given : List (Seat × Bool)} (h : s.freeSlot d c p ext given = some k) :
    k < 16 ∧ k ∉ s.slotsTaken d c p := by
  rw [State.freeSlot] at h
  refine ⟨List.mem_range.mp (List.mem_of_find?_eq_some h), ?_⟩
  have := List.find?_some h
  simp only [Bool.and_eq_true, Bool.not_eq_true', List.contains_eq_mem, decide_eq_false_iff_not] at this
  exact this.1.1

theorem State.seatAll_free {d off : Nat} {cores : List Nat} {ts : List (Nat × Nat × Bool)} {given : List (Seat × Bool)}
    {ss : List Seat} (hg : ∀ g ∈ given, s.FreeSeat d off g.1) (h : s.seatAll d off cores ts given = some ss) :
    ∀ q ∈ ss, s.FreeSeat d off q := by
  induction ts generalizing given with
  | nil =>
    rw [State.seatAll] at h
    obtain rfl := Option.some.inj h
    intro q hq
    obtain ⟨g, hm, rfl⟩ := List.mem_map.mp hq
    exact hg g hm
  | cons e ts ih =>
    obtain ⟨k, i, x⟩ := e
    rw [State.seatAll] at h
    split at h
    next n hn =>
      refine ih (fun g hm => ?_) h
      rcases List.mem_append.mp hm with hm | hm
      · exact hg g hm
      · obtain rfl := List.mem_singleton.mp hm
        exact ⟨rfl, State.freeSlot_free hn⟩
    · cases h

theorem firstSome_some {α β : Type} {f : α → Option β} {xs : List α} {y : β} (h : firstSome f xs = some y) :
    ∃ x ∈ xs, f x = some y := by
  induction xs with
  | nil => cases h
  | cons x xs ih =>
    rw [firstSome] at h
    split at h
    next z hz =>
      cases h
      exact ⟨x, List.mem_cons_self, hz⟩
    · obtain ⟨w, hw, hf⟩ := ih h
      exact ⟨w, List.mem_cons_of_mem _ hw, hf⟩

/-- Every seat of a site is free. -/
theorem State.fits_free {c : Candidate} {x : Site} (h : s.fits c = some x) : ∀ q ∈ x.seats, s.FreeSeat x.die x.offset q := by
  obtain ⟨a, -, h⟩ := Option.bind_eq_some_iff.mp h
  obtain ⟨d, -, h⟩ := firstSome_some h
  obtain ⟨cl, -, h⟩ := firstSome_some h
  obtain ⟨set, -, h⟩ := firstSome_some h
  obtain ⟨off, -, h⟩ := firstSome_some h
  obtain ⟨ss, hss, rfl⟩ := Option.map_eq_some_iff.mp h
  unfold State.seats at hss
  dsimp only at hss
  split at hss
  · cases hss
  · exact State.seatAll_free (fun _ hg => absurd hg List.not_mem_nil) hss

end

/-! ### What stays of a placed troupe when others become done -/

/-- A troupe of an ensemble in its place, with the states and items of its lanes, every register 0, and no wait at a barrier. -/
structure Troupe.InPlace (u : Troupe) (ens die : Nat) (q : Seat) (ls : List (LaneState × DWord)) : Prop where
  ens : u.ens = ens
  place : u.sec = q.sec ∧ u.idx = q.idx ∧ u.die = die ∧ u.core = q.core ∧ u.part = q.part ∧ u.slot = q.slot
  enable : u.enable = 0xFFFFFFFF
  lanes : u.lanes.map (fun l => (l.st, l.item)) = ls
  regs : ∀ l ∈ u.lanes, l.regs = []
  quiet : u.NoBarWait

/-- A change that leaves a troupe in its place. -/
def Troupe.KeepsPlace (t u : Troupe) : Prop := ∀ ens die q ls, t.InPlace ens die q ls → u.InPlace ens die q ls

/-- A change of a state that leaves each troupe in its place. -/
def State.KeepsPlaces (s s' : State) : Prop := ∀ t ∈ s.troupes, ∃ u ∈ s'.troupes, t.KeepsPlace u

section
variable {s s' : State} {t : Troupe} {id : Nat}

theorem Troupe.KeepsPlace.refl (t : Troupe) : t.KeepsPlace t := fun _ _ _ _ h => h

theorem State.KeepsPlaces.refl (s : State) : s.KeepsPlaces s := fun t ht => ⟨t, ht, .refl t⟩

theorem State.KeepsPlaces.trans {a b c : State} (h : a.KeepsPlaces b) (k : b.KeepsPlaces c) : a.KeepsPlaces c := by
  intro t ht
  obtain ⟨u, hu, htu⟩ := h t ht
  obtain ⟨v, hv, huv⟩ := k u hu
  exact ⟨v, hv, fun _ _ _ _ hp => huv _ _ _ _ (htu _ _ _ _ hp)⟩

theorem State.KeepsPlaces.of_map {f : Troupe → Troupe} (hf : ∀ t : Troupe, t.KeepsPlace (f t))
    (h : s'.troupes = s.troupes.map f) : s.KeepsPlaces s' := fun t ht =>
  ⟨f t, h ▸ List.mem_map_of_mem ht, hf t⟩

theorem State.KeepsPlaces.modTroupe (s : State) (id : Nat) {f : Troupe → Troupe} (hf : ∀ t : Troupe, t.KeepsPlace (f t)) :
    s.KeepsPlaces (s.modTroupe id f) :=
  .of_map (f := fun t => if t.id = id then f t else t) (fun t => by
    split
    · exact hf t
    · exact .refl t) rfl

theorem State.KeepsPlaces.foldl {α : Type} {f : State → α → State} (hf : ∀ (s : State) a, s.KeepsPlaces (f s a))
    (xs : List α) (s : State) : s.KeepsPlaces (xs.foldl f s) :=
  List.foldlRecOn xs f (motive := fun t => s.KeepsPlaces t) (.refl s) fun t ht a _ => ht.trans (hf t a)

/-- What the place of a troupe rests on, beside its lanes. -/
def Troupe.seatOf (t : Troupe) : Nat × Nat × Nat × Nat × Nat × Nat × Nat × Word :=
  (t.ens, t.sec, t.idx, t.die, t.core, t.part, t.slot, t.enable)

theorem Troupe.InPlace.congr {u : Troupe} {ens die : Nat} {q : Seat} {ls : List (LaneState × DWord)} (h : t.InPlace ens die q ls)
    (hs : u.seatOf = t.seatOf) (hl : u.lanes.map (fun l => (l.st, l.item)) = t.lanes.map fun l => (l.st, l.item))
    (hr : ∀ l ∈ u.lanes, l.regs = []) (hq : u.NoBarWait) : u.InPlace ens die q ls := by
  simp only [Troupe.seatOf, Prod.mk.injEq] at hs
  obtain ⟨h0, h1, h2, h3, h4, h5, h6, h7⟩ := hs
  obtain ⟨g1, g2, g3, g4, g5, g6⟩ := h.place
  exact ⟨h0.trans h.ens, ⟨h1.trans g1, h2.trans g2, h3.trans g3, h4.trans g4, h5.trans g5, h6.trans g6⟩, h7.trans h.enable,
    hl.trans h.lanes, hr, hq⟩

/-- A troupe with the same lanes, and with the same paths or none. -/
theorem Troupe.KeepsPlace.of_same {u : Troupe} (hs : u.seatOf = t.seatOf) (hl : u.lanes = t.lanes)
    (hp : u.paths = t.paths ∨ u.paths = []) : t.KeepsPlace u := fun _ _ _ _ h => by
  refine h.congr hs (by rw [hl]) (by rw [hl]; exact h.regs) fun p hm => ?_
  rcases hp with hp | hp
  · exact h.quiet p (hp ▸ hm)
  · rw [hp] at hm
    cases hm

/-- A troupe whose lanes have lost registers. -/
theorem Troupe.KeepsPlace.of_lanes {u : Troupe} {f : Lane → Lane} (hs : u.seatOf = t.seatOf) (hl : u.lanes = t.lanes.map f)
    (hp : u.paths = t.paths) (hf : ∀ l : Lane, (f l).st = l.st ∧ (f l).item = l.item ∧ (l.regs = [] → (f l).regs = [])) :
    t.KeepsPlace u := fun _ _ _ _ h => by
  refine h.congr hs ?_ (fun l hm => ?_) fun p hm => h.quiet p (hp ▸ hm)
  · rw [hl, List.map_map]
    exact List.map_congr_left fun l _ => by simp only [Function.comp, (hf l).1, (hf l).2.1]
  · rw [hl] at hm
    obtain ⟨v, hv, rfl⟩ := List.mem_map.mp hm
    exact (hf v).2.2 (h.regs v hv)

theorem Troupe.keepsPlace_withoutExt (t : Troupe) : t.KeepsPlace t.withoutExt :=
  .of_lanes rfl rfl rfl fun l => ⟨rfl, rfl, fun h => by simp only [h, List.filter_nil]⟩

theorem State.keepsPlaces_releaseExt (s : State) (id : Nat) (keep : Bool) : s.KeepsPlaces (s.releaseExt id keep) := by
  unfold State.releaseExt
  split
  · exact .refl s
  · split
    · cases keep
      · exact .modTroupe (s.setExt _) id Troupe.keepsPlace_withoutExt
      · exact .modTroupe (s.setExt _) id fun t => .of_same rfl rfl (.inl rfl)
    · exact .refl s

theorem State.keepsPlaces_freeSave (s : State) (id : Nat) : s.KeepsPlaces (s.freeSave id) := by
  have hmod : s.KeepsPlaces (s.modTroupe id fun t => { t with saveHeld := false }) :=
    .modTroupe s id fun t => .of_same rfl rfl (.inl rfl)
  unfold State.freeSave
  split
  · exact .refl s
  · split
    · exact .refl s
    · dsimp only
      split
      · exact hmod
      · exact hmod

theorem State.keepsPlaces_retire (s : State) (ens : Nat) : s.KeepsPlaces (s.retire ens) :=
  .foldl (f := fun s id => ((s.releaseExt id false).freeSave id).modTroupe id fun t =>
      { t with futures := freeFutures t.futures })
    (fun s id => ((s.keepsPlaces_releaseExt id false).trans (State.keepsPlaces_freeSave _ id)).trans
      (.modTroupe _ id fun _ => .of_same rfl rfl (.inl rfl))) _ s

theorem Troupe.keepsPlace_swapped (t : Troupe) (ens : Nat) : t.KeepsPlace (t.swapped ens) := by
  unfold Troupe.swapped
  split
  · split
    · exact .refl t
    · exact .of_lanes rfl rfl rfl fun l => ⟨rfl, rfl, fun h => by simp only [h, List.filter_nil]⟩
  · exact .refl t

theorem State.keepsPlaces_swapOut (s : State) (ens : Nat) : s.KeepsPlaces (s.swapOut ens) := by
  unfold State.swapOut
  split
  · exact .refl s
  · dsimp only
    have hreleased := State.KeepsPlaces.foldl (f := fun s id =>
      (s.modTroupe id fun t => { t with hadExt := t.holdsExt }).releaseExt id true)
      (fun s id => (State.KeepsPlaces.modTroupe s id (f := fun t => { t with hadExt := t.holdsExt }) fun _ =>
        .of_same rfl rfl (.inl rfl)).trans (State.keepsPlaces_releaseExt _ id true))
      ((s.troupes.filter fun t => t.ens == ens).map (·.id)) s
    generalize List.foldl _ s _ = s1 at hreleased ⊢
    have hdropped : s.KeepsPlaces { s1 with troupes := s1.troupes.map fun t => t.swapped ens } :=
      hreleased.trans (.of_map (fun t => t.keepsPlace_swapped ens) rfl)
    split
    · exact hdropped.trans (State.keepsPlaces_retire _ ens)
    · exact hdropped

theorem State.keepsPlaces_settleEns (s : State) (ens : Nat) : s.KeepsPlaces (s.settleEns ens) := by
  unfold State.settleEns
  split
  · exact .refl s
  · dsimp only
    split
    · exact canon_ite (motive := s.KeepsPlaces) (s.keepsPlaces_retire ens) (.refl s)
    · exact canon_ite (motive := s.KeepsPlaces) (s.keepsPlaces_retire ens)
        (canon_ite (motive := s.KeepsPlaces) (s.keepsPlaces_swapOut ens) (.refl s))
    · exact .refl s

theorem State.keepsPlaces_sweepBars (s : State) (ens : Nat) : s.KeepsPlaces (s.sweepBars ens) := by
  unfold State.sweepBars
  split
  · exact .refl s
  · refine .of_map (fun t => ?_) rfl
    dsimp only
    split
    · exact fun _ _ _ _ h => (Troupe.endBarWaits_of_noBarWait h.quiet _).symm ▸ h
    · exact .refl t

theorem State.keepsPlaces_wake (s : State) (t : Troupe) : s.KeepsPlaces (s.wake t) := by
  refine .of_map (fun u => ?_) rfl
  refine fun _ _ _ _ h => h.congr rfl rfl h.regs fun p hm => ?_
  obtain ⟨v, hv, rfl⟩ := List.mem_map.mp hm
  have hwoken : ∀ p : Path, p = v ∨ p.wait = .retry → (match p.wait with | .bar .. | .barwt .. => false | _ => true) = true :=
    fun p hp => by
      rcases hp with rfl | hp
      · exact h.quiet p hv
      · rw [hp]
  refine hwoken _ ?_
  split
  · exact canon_ite (motive := fun p => p = v ∨ p.wait = .retry) (.inr rfl) (.inl rfl)
  · exact canon_ite (motive := fun p => p = v ∨ p.wait = .retry) (.inr rfl) (.inl rfl)
  · exact .inl rfl

/-- A troupe at its end. -/
def Troupe.over (t : Troupe) : Troupe := { t with run := .done, paths := [], futures := freeFutures t.futures }

theorem State.makeDone_of_troupe (h : s.troupe? id = some t) : s.makeDone id =
    ((((s.releaseExt id false).modTroupe id Troupe.over).wake t).sweepBars t.ens).settleEns t.ens := by
  unfold State.makeDone
  rw [h]
  rfl

theorem State.keepsPlaces_makeDone (s : State) (id : Nat) : s.KeepsPlaces (s.makeDone id) := by
  cases h : s.troupe? id with
  | none =>
    unfold State.makeDone
    rw [h]
    exact .refl s
  | some t =>
    rw [State.makeDone_of_troupe h]
    have hover : s.KeepsPlaces ((s.releaseExt id false).modTroupe id Troupe.over) :=
      (s.keepsPlaces_releaseExt id false).trans (.modTroupe _ id fun _ => .of_same rfl rfl (.inr rfl))
    exact ((hover.trans (State.keepsPlaces_wake _ _)).trans (State.keepsPlaces_sweepBars _ _)).trans
      (State.keepsPlaces_settleEns _ _)

end

end Sys2Proof.Machine
end

section
namespace Sys2Proof.Machine

/-! ### What stays of an ensemble and its launch -/

/-- Where an ensemble is, and of what launch. -/
def Ensemble.site (e : Ensemble) : Nat × Nat × Nat × Nat × Nat := (e.launch, e.num, e.die, e.cluster, e.offset)

/-- A change of a state that leaves every ensemble at its site. -/
def State.KeepsSites (s s' : State) : Prop := ∀ j e, s.ens? j = some e → ∃ f, s'.ens? j = some f ∧ f.site = e.site

section
variable {s : State}

theorem State.ens?_id {id : Nat} {e : Ensemble} (h : s.ens? id = some e) : e.id = id := by
  simpa using List.find?_some h

theorem State.ens?_modEns_same {id : Nat} {e : Ensemble} (f : Ensemble → Ensemble) (h : s.ens? id = some e) (hf : (f e).id = e.id) :
    (s.modEns id f).ens? id = some (f e) := by
  simp only [State.ens?, State.modEns] at h ⊢
  generalize s.ens = es at h
  induction es with
  | nil => simp at h
  | cons u us ih =>
    simp only [List.find?_cons] at h
    simp only [List.map_cons, List.find?_cons]
    by_cases hu : u.id = id
    · obtain rfl : u = e := by simpa [hu] using h
      simp [hu, hf]
    · have : (u.id == id) = false := by simpa using hu
      rw [this] at h
      simp only [if_neg hu, this]
      exact ih h

theorem State.ens?_modEns_other {id j : Nat} (f : Ensemble → Ensemble) (hj : j ≠ id) (hf : ∀ e, e.id = id → (f e).id = id) :
    (s.modEns id f).ens? j = s.ens? j := by
  simp only [State.ens?, State.modEns]
  generalize s.ens = es
  induction es with
  | nil => rfl
  | cons u us ih =>
    simp only [List.map_cons, List.find?_cons]
    by_cases hu : u.id = id
    · have h1 : ((f u).id == j) = false := by rw [hf u hu]; simpa using Ne.symm hj
      have h2 : (u.id == j) = false := by rw [hu]; simpa using Ne.symm hj
      rw [if_pos hu, h1, h2]
      exact ih
    · simp [hu, ih]

theorem State.KeepsSites.refl (s : State) : s.KeepsSites s := fun _ e h => ⟨e, h, rfl⟩

theorem State.KeepsSites.trans {a b c : State} (h : a.KeepsSites b) (k : b.KeepsSites c) : a.KeepsSites c := by
  intro j e he
  obtain ⟨f, hf, hs⟩ := h j e he
  obtain ⟨g, hg, hs'⟩ := k j f hf
  exact ⟨g, hg, hs'.trans hs⟩

theorem State.KeepsSites.foldl {α : Type} {f : State → α → State} (hf : ∀ (s : State) a, s.KeepsSites (f s a))
    (xs : List α) (s : State) : s.KeepsSites (xs.foldl f s) :=
  List.foldlRecOn xs f (motive := fun t => s.KeepsSites t) (.refl s) fun t ht a _ => ht.trans (hf t a)

theorem State.KeepsSites.of_eq {s' : State} (h : s'.ens = s.ens) : s.KeepsSites s' := fun j e he =>
  ⟨e, by rw [State.ens?, h]; exact he, rfl⟩

theorem State.KeepsSites.modEns (id : Nat) {f : Ensemble → Ensemble} (hid : ∀ e, e.id = id → (f e).id = id)
    (hf : ∀ e, s.ens? id = some e → (f e).site = e.site) : s.KeepsSites (s.modEns id f) := by
  intro j e he
  by_cases hj : j = id
  · subst hj
    exact ⟨_, State.ens?_modEns_same f he ((hid e (State.ens?_id he)).trans (State.ens?_id he).symm), hf e he⟩
  · exact ⟨e, (State.ens?_modEns_other f hj hid).trans he, rfl⟩

theorem State.foldl_ens {α : Type} {f : State → α → State} (hf : ∀ (t : State) a, (f t a).ens = t.ens) (xs : List α) (s : State) :
    (xs.foldl f s).ens = s.ens :=
  List.foldlRecOn xs f (motive := fun t : State => t.ens = s.ens) rfl fun t ht a _ => (hf t a).trans ht

theorem State.releaseExt_ens (s : State) (id : Nat) (keep : Bool) : (s.releaseExt id keep).ens = s.ens := by
  unfold State.releaseExt
  split
  · rfl
  · split <;> rfl

theorem State.keepsSites_retire (s : State) (ens : Nat) : s.KeepsSites (s.retire ens) := by
  unfold State.retire
  extract_lets _ s1
  have h1 : s1.ens = s.ens := State.foldl_ens (f := fun s id => ((s.releaseExt id false).freeSave id).modTroupe id fun t =>
      { t with futures := freeFutures t.futures })
    (fun t id => (State.freeSave_ens _ id).trans (t.releaseExt_ens id false)) _ s
  exact (State.KeepsSites.of_eq h1).trans (.modEns ens (fun _ h => h) fun _ _ => rfl)

theorem State.keepsSites_swapOut (s : State) (ens : Nat) : s.KeepsSites (s.swapOut ens) := by
  unfold State.swapOut
  split
  · exact .refl s
  · extract_lets _ s1 s2
    have h1 : s1.ens = s.ens := State.foldl_ens (f := fun s id =>
        (s.modTroupe id fun t => { t with hadExt := t.holdsExt }).releaseExt id true)
      (fun t id => State.releaseExt_ens _ id true) _ s
    have h2 : s.KeepsSites s2 := .of_eq h1
    split
    · exact h2.trans (State.keepsSites_retire s2 ens)
    · exact h2.trans ((State.KeepsSites.modEns (s := s2) ens (f := fun e => { e with
        st := .swapped, kept := s2.namedSections ens }) (fun _ h => h) fun _ _ => rfl).trans (.of_eq rfl))

theorem State.keepsSites_settleEns (s : State) (ens : Nat) : s.KeepsSites (s.settleEns ens) := by
  unfold State.settleEns
  split
  · exact .refl s
  · dsimp only
    split
    · exact canon_ite (motive := s.KeepsSites) (s.keepsSites_retire ens) (.refl s)
    · exact canon_ite (motive := s.KeepsSites) (s.keepsSites_retire ens)
        (canon_ite (motive := s.KeepsSites) (s.keepsSites_swapOut ens) (.refl s))
    · exact .refl s

theorem Ensemble.modBar_site (e : Ensemble) (sec id : Nat) (f : Barrier → Barrier) :
    (e.modBar sec id f).id = e.id ∧ (e.modBar sec id f).site = e.site := by
  unfold Ensemble.modBar
  split
  · exact ⟨rfl, rfl⟩
  · exact ⟨rfl, rfl⟩

theorem State.keepsSites_sweepBars (s : State) (ens : Nat) : s.KeepsSites (s.sweepBars ens) := by
  unfold State.sweepBars
  split
  · exact .refl s
  next e he =>
    extract_lets mine e1 s1
    have h1 : e1.id = e.id ∧ e1.site = e.site :=
      List.foldlRecOn _ _ (motive := fun v : Ensemble => v.id = e.id ∧ v.site = e.site) ⟨rfl, rfl⟩ fun v hv id _ =>
        List.foldlRecOn _ _ (motive := fun v : Ensemble => v.id = e.id ∧ v.site = e.site) hv fun w hw sec _ =>
          ⟨(w.modBar_site ..).1.trans hw.1, (w.modBar_site ..).2.trans hw.2⟩
    have h2 : s.KeepsSites s1 := .modEns ens (f := fun _ => e1) (fun _ _ => h1.1.trans (State.ens?_id he)) fun f hf => by
      rw [Option.some.inj (hf.symm.trans he)]
      exact h1.2
    exact h2.trans (.of_eq rfl)

theorem State.keepsSites_makeDone (s : State) (id : Nat) : s.KeepsSites (s.makeDone id) := by
  cases h : s.troupe? id with
  | none =>
    unfold State.makeDone
    rw [h]
    exact .refl s
  | some t =>
    rw [State.makeDone_of_troupe h]
    have hover : s.KeepsSites (((s.releaseExt id false).modTroupe id Troupe.over).wake t) := .of_eq (s.releaseExt_ens id false)
    exact (hover.trans (State.keepsSites_sweepBars _ _)).trans (State.keepsSites_settleEns _ _)

theorem State.sweepBars_still (s : State) (ens : Nat) : (s.sweepBars ens).still = s.still := by
  unfold State.sweepBars
  split
  · rfl
  · rfl

theorem State.makeDone_still (s : State) (id : Nat) : (s.makeDone id).still = s.still := by
  cases h : s.troupe? id with
  | none =>
    unfold State.makeDone
    rw [h]
  | some t =>
    rw [State.makeDone_of_troupe h]
    exact (State.settleEns_still _ _).trans ((State.sweepBars_still _ _).trans
      ((rfl : _ = (s.releaseExt id false).still).trans (s.releaseExt_still id false)))

/-! ### A troupe at its placement -/

/-- The states and items of the lanes of a troupe at its placement, in stream mode. -/
def firstItems (T : Nat) (q : Seat) (next stop : Nat) : List (LaneState × DWord) :=
  (List.range 32).map fun k =>
    if next + (q.sec * 32 * T + q.idx * 32 + k) < stop then
      (.live, BitVec.ofNat 64 (next + (q.sec * 32 * T + q.idx * 32 + k))) else (.absent, 0)

theorem Troupe.InPlace.gangAt {t : Troupe} {ens die : Nat} {q : Seat} {ls : List (LaneState × DWord)} (h : t.InPlace ens die q ls)
    (hops : t.ops = []) (ss : BitVec 8) (pc now : Nat) : (t.gangAt ss pc now).InPlace ens die q ls := by
  refine h.congr rfl rfl h.regs fun p hm => ?_
  unfold Troupe.gangAt at hm
  dsimp only at hm
  rw [if_pos hops] at hm
  obtain rfl := List.mem_singleton.mp hm
  have hlearn : ∀ (ps : List Path) (p : Path), (ps.foldl Path.learn p).wait = p.wait := fun ps p =>
    List.foldlRecOn ps _ (motive := fun r : Path => r.wait = p.wait) rfl fun _ h _ _ => h
  dsimp only
  rw [hlearn]

theorem Troupe.InPlace.begin {t : Troupe} {ens die : Nat} {q : Seat} {ls : List (LaneState × DWord)} (h : t.InPlace ens die q ls)
    (hops : t.ops = []) (entry now : Nat) : (t.begin entry now).InPlace ens die q ls := by
  unfold Troupe.begin
  split
  · exact h
  · exact h.gangAt hops _ _ _

end

end Sys2Proof.Machine
end

section
namespace Sys2Proof.Machine

section
variable {s : State} {l : Launch} {x : Site} {q : Seat}

theorem lenum_replicate {α : Type} (n : Nat) (z : α) (k : Nat) :
    lenumFrom k (List.replicate n z) = (List.range' k n).map fun i => (i, z) := by
  induction n generalizing k with
  | zero => rfl
  | succ n ih => rw [List.replicate_succ, lenumFrom, ih, List.range'_succ, List.map_cons]

/-- The lanes of a new troupe, each changed by its number. -/
theorem Troupe.new_lanes (id ens die : Nat) (q : Seat) (f : Nat × Lane → Lane) :
    (lenum (Troupe.new id ens die q).lanes).map f = (List.range 32).map fun k => f (k, Lane.new) := by
  rw [Troupe.new, lenum, lenum_replicate, List.map_map, List.range_eq_range']
  rfl

/-- Lanes that are new but for their states and items put a new troupe in its place. -/
theorem Troupe.inPlace_new {id ens die : Nat} {f : Nat → Lane} {u : Troupe} (hf : ∀ k, (f k).regs = [])
    (hs : u.seatOf = (Troupe.new id ens die q).seatOf) (hl : u.lanes = (List.range 32).map f) (hp : u.paths = []) :
    u.InPlace ens die q ((List.range 32).map fun k => ((f k).st, (f k).item)) := by
  simp only [Troupe.seatOf, Prod.mk.injEq] at hs
  obtain ⟨h0, h1, h2, h3, h4, h5, h6, h7⟩ := hs
  refine ⟨h0, ⟨h1, h2, h3, h4, h5, h6⟩, h7, ?_, fun v hv => ?_, fun p hm => ?_⟩
  · rw [hl, List.map_map]
    rfl
  · rw [hl] at hv
    obtain ⟨k, -, rfl⟩ := List.mem_map.mp hv
    exact hf k
  · rw [hp] at hm
    cases hm

/-- A lane of a new troupe in stream mode. -/
def firstLane (T : Nat) (q : Seat) (next stop : Nat) (e : Nat × Lane) : Lane :=
  let i := next + (q.sec * 32 * T + q.idx * 32 + e.1)
  if i < stop then { e.2 with st := .live, item := BitVec.ofNat 64 i } else e.2

theorem Troupe.inPlace_takeFirst (id ens die T next stop : Nat) (q : Seat) :
    ((Troupe.new id ens die q).takeFirst T next stop).InPlace ens die q (firstItems T q next stop) := by
  have h := Troupe.inPlace_new (u := (Troupe.new id ens die q).takeFirst T next stop) (id := id)
    (f := fun k => firstLane T q next stop (k, Lane.new)) (fun k => by unfold firstLane; dsimp only; split <;> rfl) rfl
    (Troupe.new_lanes id ens die q (firstLane T q next stop)) rfl
  refine (?_ : firstItems T q next stop = _) ▸ h
  refine List.map_congr_left fun k _ => ?_
  unfold firstLane
  dsimp only
  split
  · rfl
  · rfl

/-- The item of a lane of a troupe in a block group. -/
def groupItem (T : Nat) (q : Seat) (size lo hi l : Nat) : Option Nat :=
  let k := q.sec * 32 * T + q.idx * 32 + l
  let i := lo / size * size + k
  if k < size ∧ lo ≤ i ∧ i < hi then some i else none

/-- A lane of a new troupe in block mode. -/
def groupLane (T : Nat) (q : Seat) (size lo hi : Nat) (e : Nat × Lane) : Lane :=
  match groupItem T q size lo hi e.1 with
  | some i => { e.2 with st := .live, item := BitVec.ofNat 64 i }
  | none => { e.2 with st := .absent }

theorem Troupe.inPlace_takeGroup (id ens die T size lo hi : Nat) (q : Seat) :
    ∃ ls, ((Troupe.new id ens die q).takeGroup T size lo hi true).InPlace ens die q ls := by
  have hones : ∀ m : Word, (0xFFFFFFFF : Word) ||| m = 0xFFFFFFFF := fun m => BitVec.allOnes_or
  refine ⟨_, Troupe.inPlace_new (id := id) (f := fun k => groupLane T q size lo hi (k, Lane.new)) (fun k => ?_) ?_
    (Troupe.new_lanes id ens die q (groupLane T q size lo hi)) rfl⟩
  · unfold groupLane
    split
    · rfl
    · rfl
  · simp only [Troupe.seatOf, Troupe.takeGroup, Troupe.new, hones]

/-- The end of the items that an ensemble placed now takes. -/
def Launch.placedStop (l : Launch) : Nat :=
  if l.hdr.block then groupEnd l.hdr.groupSize l.next l.stop else min l.stop (l.next + 32 * (l.hdr.sections * l.hdr.troupes))

/-- The troupe that a placement puts in a seat. -/
def Launch.placedTroupe (l : Launch) (ens die now : Nat) (q : Seat) : Troupe :=
  let t := Troupe.new (ens + 1 + (q.sec * l.hdr.troupes + q.idx)) ens die q
  let t := if l.hdr.block then t.takeGroup l.hdr.troupes l.hdr.groupSize l.next l.placedStop true
    else t.takeFirst l.hdr.troupes l.next l.placedStop
  t.begin l.entry now

theorem Launch.placedTroupe_inPlace (l : Launch) (ens die now : Nat) (q : Seat) : ∃ ls,
    (l.placedTroupe ens die now q).InPlace ens die q ls ∧
      (l.hdr.block = false → ls = firstItems l.hdr.troupes q l.next l.placedStop) := by
  unfold Launch.placedTroupe
  dsimp only
  cases hb : l.hdr.block with
  | true =>
    obtain ⟨ls, h⟩ := Troupe.inPlace_takeGroup (ens + 1 + (q.sec * l.hdr.troupes + q.idx)) ens die l.hdr.troupes
      l.hdr.groupSize l.next l.placedStop q
    exact ⟨ls, h.begin rfl _ _, nofun⟩
  | false => exact ⟨_, (Troupe.inPlace_takeFirst _ ens die l.hdr.troupes l.next l.placedStop q).begin rfl _ _, fun _ => rfl⟩

/-- The ensemble that a placement makes. -/
def Launch.placedEns (l : Launch) (eid : Nat) (x : Site) : Ensemble :=
  { id := eid, launch := l.id, num := l.nextNum, st := .running, die := x.die, cluster := x.cluster, offset := x.offset,
    sections := x.cores.map fun c => Section.new c l.hdr.chan, bars := List.replicate 8 Barrier.new,
    troupes := (List.range (l.hdr.sections * l.hdr.troupes)).map (eid + 1 + ·), bound := 0, boundMax := 0, pending := false,
    lastRefill := false, spilled := false, fetchSpill := false, waitPage := none, endOnSwap := false, placedAt := eid }

/-- The launch after a placement. -/
def Launch.placed (stop now : Nat) (v : Launch) : Launch :=
  { v with next := stop, handedOut := v.handedOut + (stop - v.next), nextNum := v.nextNum + 1,
           firstPlaced := if v.firstPlaced.isNone then some now else v.firstPlaced }

/-- The state with a new ensemble and its troupes, before those without items are done. -/
def State.seated (s : State) (l : Launch) (x : Site) : State :=
  (({ s with
      fresh := s.fresh + l.hdr.sections * l.hdr.troupes + 1
      ens := s.ens ++ [l.placedEns s.fresh x]
      troupes := s.troupes ++ x.seats.map (l.placedTroupe s.fresh x.die s.now) } : State).modLaunch l.id
    (Launch.placed l.placedStop s.now)).modCmd l.cmd fun c => if c.st = .placing then { c with st := .running } else c

theorem State.placeNew_eq (s : State) (l : Launch) (x : Site) : s.placeNew l x =
    (x.seats.map (l.placedTroupe s.fresh x.die s.now)).foldl (fun s t => if s.isDone t then s.makeDone t.id else s)
      (s.seated l x) := rfl

theorem State.seated_ens? (hfresh : ∀ e ∈ s.ens, e.id < s.fresh) : (s.seated l x).ens? s.fresh = some (l.placedEns s.fresh x) := by
  have h0 : s.ens.find? (fun e => e.id == s.fresh) = none :=
    List.find?_eq_none.mpr fun e he => by simpa using (hfresh e he).ne
  show (s.ens ++ [l.placedEns s.fresh x]).find? _ = _
  rw [List.find?_append, h0, Option.none_or]
  exact List.find?_cons_of_pos (by simp [Launch.placedEns])

theorem State.seated_launch? (hl : s.launch? l.id = some l) :
    (s.seated l x).launch? l.id = some (Launch.placed l.placedStop s.now l) :=
  State.launch?_modLaunch (s := { s with
    fresh := s.fresh + l.hdr.sections * l.hdr.troupes + 1
    ens := s.ens ++ [l.placedEns s.fresh x]
    troupes := s.troupes ++ x.seats.map (l.placedTroupe s.fresh x.die s.now) }) hl fun _ => rfl

/-- What stands after a new ensemble has been placed. -/
theorem State.placeNew_places (hl : s.launch? l.id = some l) (hfresh : ∀ e ∈ s.ens, e.id < s.fresh) :
    (∃ e, (s.placeNew l x).ens? s.fresh = some e ∧ e.site = (l.placedEns s.fresh x).site) ∧
    (s.placeNew l x).launch? l.id = some (Launch.placed l.placedStop s.now l) ∧
    ∀ q ∈ x.seats, ∃ t ∈ (s.placeNew l x).troupes, ∃ ls, t.InPlace s.fresh x.die q ls ∧
      (l.hdr.block = false → ls = firstItems l.hdr.troupes q l.next l.placedStop) := by
  rw [State.placeNew_eq]
  generalize hts : x.seats.map (l.placedTroupe s.fresh x.die s.now) = ts
  refine ⟨?_, ?_, fun q hq => ?_⟩
  · exact State.KeepsSites.foldl (f := fun s t => if s.isDone t then s.makeDone t.id else s) (fun t u => canon_ite (motive := t.KeepsSites) (t.keepsSites_makeDone u.id) (.refl t)) ts
      (s.seated l x) _ _ (State.seated_ens? hfresh)
  · have hstill := State.still_foldl (s.seated l x) (f := fun s t => if s.isDone t then s.makeDone t.id else s)
      (fun t u => canon_ite (motive := fun v : State => v.still = t.still) (t.makeDone_still u.id) rfl) ts
    have hlaunches := congrArg State.launches hstill
    refine Eq.trans ?_ (State.seated_launch? (x := x) hl)
    exact congrArg (List.find? fun v : Launch => v.id == l.id) hlaunches
  · obtain ⟨ls, hp, hls⟩ := l.placedTroupe_inPlace s.fresh x.die s.now q
    have hm : l.placedTroupe s.fresh x.die s.now q ∈ (s.seated l x).troupes :=
      List.mem_append_right _ (List.mem_map_of_mem hq)
    obtain ⟨u, hu, hk⟩ := State.KeepsPlaces.foldl (f := fun s t => if s.isDone t then s.makeDone t.id else s)
      (fun t u => canon_ite (motive := t.KeepsPlaces) (t.keepsPlaces_makeDone u.id) (.refl t)) ts (s.seated l x) _ hm
    exact ⟨u, hu, ls, hk _ _ _ _ hp, hls⟩

end

end Sys2Proof.Machine
end

section
namespace Sys2Proof.Machine

/-! ### Resumption -/

/-- A troupe before it resumes: it has moved, its memories may be empty, and what a resumption reads is as before. -/
structure Troupe.AsBefore (t u : Troupe) : Prop where
  id : u.id = t.id
  ens : u.ens = t.ens
  run : u.run = t.run
  finish : u.finish = t.finish
  region : u.region = t.region
  rsm : u.rsm = t.rsm
  routine : u.routine = t.routine
  enable : u.enable = t.enable
  paths : u.paths = t.paths
  lanes : ∃ f : Lane → Lane, u.lanes = t.lanes.map f ∧ ∀ l : Lane, (f l).st = l.st ∧ (f l).regs = l.regs

/-- A troupe that has been tried to resume once more: its paths have only moved. -/
structure Troupe.MovedOn (t u : Troupe) : Prop where
  finish : u.finish = t.finish
  routine : u.routine = t.routine
  enable : u.enable = t.enable
  lanes : u.lanes = t.lanes
  seat : u.die = t.die ∧ u.core = t.core ∧ u.part = t.part ∧ u.slot = t.slot
  paths : u.paths = t.paths.map Path.moved

/-- How a troupe stands after a resumption, by the way it had finished. -/
def Troupe.resumedAs (t : Troupe) (block : Bool) (live : Option Nat) (g : Option Region) (now : Nat) : Troupe :=
  let t := { t with
    futures := t.futures.map fun (f : FutureEntry) => { f with mark := none }
    ops := t.ops.map fun (o : Op) => { o with mark := none }
    paths := t.paths.map Path.moved, gone := t.gone.map Path.moved }
  let u := match t.finish with
    | .discarded => t.restart now
    | .ended => t.enterRoutine g now
    | .lifeless => t.restartLifeless block now
    | .spilled cut => t.restoreSpill cut live now
    | .no => t
  { u with finish := .no }

section
variable {s : State} {t u : Troupe} {id : Nat}

theorem State.troupe?_retakeExt (h : s.troupe? id = some t) :
    ∃ b, (s.retakeExt id).troupe? id = some { t with holdsExt := b, hadExt := false } := by
  unfold State.retakeExt
  rw [h]
  dsimp only
  split
  · exact ⟨true, State.troupe?_modTroupe_same (s := s.setExt _) (f := fun t => { t with holdsExt := true, hadExt := false }) h rfl⟩
  · exact ⟨t.holdsExt, State.troupe?_modTroupe_same (f := fun t => { t with hadExt := false }) h rfl⟩

theorem State.troupe?_retakeExt_other {j : Nat} (hj : j ≠ id) : (s.retakeExt id).troupe? j = s.troupe? j := by
  unfold State.retakeExt
  split
  · rfl
  · dsimp only
    split
    · exact State.troupe?_modTroupe_other (s := s.setExt _) _ hj fun _ _ => rfl
    · exact State.troupe?_modTroupe_other _ hj fun _ _ => rfl

theorem Troupe.resumedAs_id (t : Troupe) (block : Bool) (live : Option Nat) (g : Option Region) (now : Nat) :
    (t.resumedAs block live g now).id = t.id := by
  have hstart : ∀ (v : Troupe) ss pc n, (v.startAt ss pc n).id = v.id := fun v ss pc n => by
    unfold Troupe.startAt
    split <;> rfl
  unfold Troupe.resumedAs
  dsimp only
  split
  · exact hstart ..
  · exact hstart ..
  · exact hstart ..
  next cut _ =>
    unfold Troupe.restoreSpill
    cases cut
    · cases live <;> rfl
    · refine (hstart ..).trans ?_
      cases live <;> rfl
  · rfl

theorem State.troupe?_resumeTroupe (h : s.troupe? id = some t) :
    ∃ b block live now, (s.resumeTroupe id).troupe? id =
      some (({ t with holdsExt := b, hadExt := false } : Troupe).resumedAs block live t.region now) := by
  obtain ⟨b, hb⟩ := State.troupe?_retakeExt h
  unfold State.resumeTroupe
  rw [h]
  dsimp only
  exact ⟨b, _, _, _, State.troupe?_modTroupe_same (fun t' => t'.resumedAs _ _ t.region _) hb (Troupe.resumedAs_id ..)⟩

theorem State.troupe?_resumeTroupe_other {j : Nat} (hj : j ≠ id) : (s.resumeTroupe id).troupe? j = s.troupe? j := by
  unfold State.resumeTroupe
  split
  · rfl
  · exact (State.troupe?_modTroupe_other (fun t' => t'.resumedAs _ _ _ _) hj fun _ _ => Troupe.resumedAs_id ..).trans
      (State.troupe?_retakeExt_other hj)

/-- A troupe that has resumed resumes no more. -/
theorem Troupe.movedOn_of_resumed (h : t.finish = .no) (b : Bool) (block : Bool) (live : Option Nat) (g : Option Region) (now : Nat) :
    t.MovedOn (({ t with holdsExt := b, hadExt := false } : Troupe).resumedAs block live g now) := by
  unfold Troupe.resumedAs
  simp only [h]
  exact ⟨h.symm, rfl, rfl, rfl, ⟨rfl, rfl, rfl, rfl⟩, rfl⟩

/-- What one resumption gives and moving on keeps holds after the ensemble's troupes have resumed. -/
theorem State.resumes {P : Troupe → Prop} (h : s.troupe? id = some t)
    (hres : ∀ b block live now, P (({ t with holdsExt := b, hadExt := false } : Troupe).resumedAs block live t.region now))
    (hno : ∀ u, P u → u.finish = .no) (hmove : ∀ u v, u.MovedOn v → P u → P v) {ts : List Troupe} (hm : ∃ u ∈ ts, u.id = id) :
    ∃ u, (ts.foldl (fun s t => s.resumeTroupe t.id) s).troupe? id = some u ∧ P u := by
  have hafter : ∀ (ts : List Troupe) (s : State), (∃ u, s.troupe? id = some u ∧ P u) →
      ∃ u, (ts.foldl (fun s t => s.resumeTroupe t.id) s).troupe? id = some u ∧ P u := fun ts s hs => by
    refine List.foldlRecOn ts _ (motive := fun s : State => ∃ u, s.troupe? id = some u ∧ P u) hs fun s hs v _ => ?_
    obtain ⟨u, hu, hp⟩ := hs
    by_cases hv : id = v.id
    · rw [← hv]
      obtain ⟨b, block, live, now, hr⟩ := State.troupe?_resumeTroupe hu
      exact ⟨_, hr, hmove _ _ (Troupe.movedOn_of_resumed (hno u hp) b block live _ now) hp⟩
    · exact ⟨u, (State.troupe?_resumeTroupe_other hv).trans hu, hp⟩
  induction ts generalizing s with
  | nil => obtain ⟨_, hu, _⟩ := hm; cases hu
  | cons v ts ih =>
    rw [List.foldl_cons]
    by_cases hv : id = v.id
    · refine hafter ts _ ?_
      rw [← hv]
      obtain ⟨b, block, live, now, hr⟩ := State.troupe?_resumeTroupe h
      exact ⟨_, hr, hres b block live now⟩
    · refine ih ((State.troupe?_resumeTroupe_other hv).trans h) ?_
      obtain ⟨u, hu, hid⟩ := hm
      rcases List.mem_cons.mp hu with rfl | hu
      · exact absurd hid.symm hv
      · exact ⟨u, hu, hid⟩

end

end Sys2Proof.Machine
end

section
namespace Sys2Proof.Machine

/-! ### A swapped-out ensemble placed again -/

/-- A troupe of an ensemble in its seat of a site. -/
def Site.move (x : Site) (ens : Nat) (t : Troupe) : Troupe :=
  if t.ens = ens then
    match x.seats.find? fun (q : Seat) => q.sec == t.sec && q.idx == t.idx with
    | some q => { t with die := x.die, core := q.core, part := q.part, slot := q.slot, latches := [] }
    | none => t
  else t

/-- A troupe has the seat that a site gives it. -/
def Troupe.SeatedAt (t u : Troupe) (x : Site) : Prop := ∀ q, (x.seats.find? fun q => q.sec == t.sec && q.idx == t.idx) = some q →
  u.die = x.die ∧ u.core = q.core ∧ u.part = q.part ∧ u.slot = q.slot

/-- A troupe of an ensemble whose memories have been emptied. -/
def Troupe.cleared (ens : Nat) (t : Troupe) : Troupe :=
  if t.ens = ens then { t with tile := [], lanes := t.lanes.map fun (l : Lane) => { l with priv := [] } } else t

/-- An ensemble at a new site. -/
def Site.moveEns (x : Site) (placedAt : Nat) (e : Ensemble) : Ensemble :=
  { e with die := x.die, cluster := x.cluster, offset := x.offset, placedAt := placedAt,
           sections := (lenum e.sections).map fun (c : Nat × Section) => { c.2 with core := lget 0 x.cores c.1 } }

/-- An ensemble whose sections have lost their allotments, but for those that it keeps. -/
def Ensemble.cleared (keep : List Nat) (e : Ensemble) : Ensemble :=
  { e with sections := (lenum e.sections).map fun (c : Nat × Section) =>
      if keep.contains c.1 then c.2 else { c.2 with allot := [] } }

/-- An ensemble that runs again. -/
def Ensemble.resumed (e : Ensemble) : Ensemble :=
  { e with st := .running, bound := 0, pending := false, spilled := false, fetchSpill := false, waitPage := none, kept := [] }

section
variable {s : State} {t u v : Troupe} {e : Ensemble} {x : Site} {n : Nat}

theorem Troupe.AsBefore.refl (t : Troupe) : t.AsBefore t :=
  ⟨rfl, rfl, rfl, rfl, rfl, rfl, rfl, rfl, rfl, fun l => l, (List.map_id' _).symm, fun _ => ⟨rfl, rfl⟩⟩

theorem Troupe.AsBefore.cleared (h : t.AsBefore u) (ens : Nat) : t.AsBefore (u.cleared ens) := by
  unfold Troupe.cleared
  split
  · obtain ⟨f, hl, hf⟩ := h.lanes
    exact ⟨h.id, h.ens, h.run, h.finish, h.region, h.rsm, h.routine, h.enable, h.paths, fun l => { f l with priv := [] },
      by dsimp only; rw [hl, List.map_map]; rfl, hf⟩
  · exact h

theorem Site.asBefore_move (x : Site) (ens : Nat) (t : Troupe) : t.AsBefore (x.move ens t) := by
  have hmoved : ∀ d c p k, t.AsBefore { t with die := d, core := c, part := p, slot := k, latches := [] } := fun _ _ _ _ =>
    ⟨rfl, rfl, rfl, rfl, rfl, rfl, rfl, rfl, rfl, fun l => l, (List.map_id' _).symm, fun _ => ⟨rfl, rfl⟩⟩
  unfold Site.move
  split
  · split
    · exact hmoved ..
    · exact .refl t
  · exact .refl t

theorem Site.seatedAt_move (x : Site) (t : Troupe) : t.SeatedAt (x.move t.ens t) x := fun q hq => by
  rw [Site.move, if_pos rfl, hq]
  exact ⟨rfl, rfl, rfl, rfl⟩

/-- The state in which the troupes of an ensemble that has been placed again resume. -/
def State.replaced (s : State) (n : Nat) (e : Ensemble) (x : Site) : State :=
  let s := s.modEns n (x.moveEns s.fresh)
  let s := { s with fresh := s.fresh + 1, troupes := s.troupes.map (x.move n) }
  (if e.spilled then s else s.clearChip n).modEns n Ensemble.resumed

theorem State.placeAgain_eq (he : s.ens? n = some e) :
    s.placeAgain n x = ((s.replaced n e x).running n).foldl (fun s t => s.resumeTroupe t.id) (s.replaced n e x) := by
  unfold State.placeAgain State.resume
  extract_lets s1 s2
  have hens : s2.ens? n = some (x.moveEns s.fresh e) := State.ens?_modEns_same (x.moveEns s.fresh) he rfl
  rw [hens]
  rfl

theorem State.replaced_troupe? (ht : s.troupe? t.id = some t) (hens : t.ens = n) :
    ∃ u, (s.replaced n e x).troupe? t.id = some u ∧ t.AsBefore u ∧ t.SeatedAt u x := by
  have hclear : ∀ u : Troupe, t.SeatedAt u x → t.SeatedAt (u.cleared n) x := fun u hu q hq => by
    have := hu q hq
    unfold Troupe.cleared
    split
    · exact this
    · exact this
  have hseat : t.SeatedAt (x.move n t) x := hens ▸ x.seatedAt_move t
  have hmove : (s.troupes.map (x.move n)).find? (fun v => v.id == t.id) = some (x.move n t) := by
    rw [find?_id_map fun v => (x.asBefore_move n v).id]
    exact congrArg (Option.map _) ht
  unfold State.replaced
  extract_lets s1 s2
  change ∃ u, (if e.spilled then s2 else s2.clearChip n).troupe? t.id = some u ∧ t.AsBefore u ∧ t.SeatedAt u x
  split
  · exact ⟨_, hmove, x.asBefore_move n t, hseat⟩
  · refine ⟨(x.move n t).cleared n, ?_, (x.asBefore_move n t).cleared n, hclear _ hseat⟩
    show ((s.troupes.map (x.move n)).map (Troupe.cleared n)).find? (fun v => v.id == t.id) = _
    rw [find?_id_map fun v => ((Troupe.AsBefore.refl v).cleared n).id, hmove]
    rfl

theorem State.replaced_ens? (he : s.ens? n = some e) : ∃ f, (s.replaced n e x).ens? n = some f ∧ f.st = .running ∧
    f.die = x.die ∧ f.cluster = x.cluster ∧ f.offset = x.offset := by
  have h1 := State.ens?_modEns_same (x.moveEns s.fresh) he rfl
  unfold State.replaced
  extract_lets s1 s2
  have h3 : ∃ f, (if e.spilled then s2 else s2.clearChip n).ens? n = some f ∧ f.die = x.die ∧ f.cluster = x.cluster ∧
      f.offset = x.offset := by
    split
    · exact ⟨_, h1, rfl, rfl, rfl⟩
    · unfold State.clearChip
      extract_lets keep s4 mine
      exact ⟨_, State.ens?_modEns_same (s := s2) (Ensemble.cleared keep) h1 rfl, rfl, rfl, rfl⟩
  obtain ⟨f, hf, hd, hc, ho⟩ := h3
  exact ⟨_, State.ens?_modEns_same Ensemble.resumed hf rfl, rfl, hd, hc, ho⟩

theorem State.replaced_queue (s : State) (n : Nat) (e : Ensemble) (x : Site) : (s.replaced n e x).queue = s.queue := by
  unfold State.replaced
  extract_lets s1 s2
  show (if e.spilled then s2 else s2.clearChip n).queue = s.queue
  split <;> rfl

theorem State.resumeTroupe_still (s : State) (id : Nat) : (s.resumeTroupe id).queue = s.queue ∧ (s.resumeTroupe id).ens = s.ens := by
  have hext : (s.retakeExt id).queue = s.queue ∧ (s.retakeExt id).ens = s.ens := by
    unfold State.retakeExt
    split
    · exact ⟨rfl, rfl⟩
    · dsimp only
      split
      · exact ⟨rfl, rfl⟩
      · exact ⟨rfl, rfl⟩
  unfold State.resumeTroupe
  split
  · exact ⟨rfl, rfl⟩
  · exact hext

theorem State.resumeAll_still (ts : List Troupe) (s : State) : (ts.foldl (fun s t => s.resumeTroupe t.id) s).queue = s.queue ∧
    (ts.foldl (fun s t => s.resumeTroupe t.id) s).ens = s.ens :=
  List.foldlRecOn ts _ (motive := fun t : State => t.queue = s.queue ∧ t.ens = s.ens) ⟨rfl, rfl⟩ fun t ht v _ =>
    ⟨(t.resumeTroupe_still v.id).1.trans ht.1, (t.resumeTroupe_still v.id).2.trans ht.2⟩

theorem Troupe.startAt_seat (t : Troupe) (ss : BitVec 8) (pc now : Nat) :
    ((t.startAt ss pc now).die, (t.startAt ss pc now).core, (t.startAt ss pc now).part, (t.startAt ss pc now).slot) =
      (t.die, t.core, t.part, t.slot) := by
  unfold Troupe.startAt
  split <;> rfl

theorem Troupe.resumedAs_seat (t : Troupe) (block : Bool) (live : Option Nat) (g : Option Region) (now : Nat) :
    ((t.resumedAs block live g now).die, (t.resumedAs block live g now).core, (t.resumedAs block live g now).part,
      (t.resumedAs block live g now).slot) = (t.die, t.core, t.part, t.slot) := by
  unfold Troupe.resumedAs
  dsimp only
  split
  · exact Troupe.startAt_seat ..
  · exact Troupe.startAt_seat ..
  · exact Troupe.startAt_seat ..
  next cut _ =>
    unfold Troupe.restoreSpill
    cases cut
    · cases live <;> rfl
    · refine (Troupe.startAt_seat ..).trans ?_
      cases live <;> rfl
  · rfl

theorem Troupe.resumedAs_finish (t : Troupe) (block : Bool) (live : Option Nat) (g : Option Region) (now : Nat) :
    (t.resumedAs block live g now).finish = .no := by
  unfold Troupe.resumedAs
  rfl

/-- A troupe of a swapped-out ensemble resumes in its new place. -/
theorem State.placeAgain_resumes {Q : Troupe → Prop} (he : s.ens? n = some e) (ht : s.troupe? t.id = some t) (hens : t.ens = n)
    (hrun : t.run = .running)
    (hres : ∀ u, t.AsBefore u → ∀ b block live now, Q (({ u with holdsExt := b, hadExt := false } : Troupe).resumedAs block live u.region now))
    (hmove : ∀ u v, u.MovedOn v → Q u → Q v) :
    ∃ u, (s.placeAgain n x).troupe? t.id = some u ∧ u.finish = .no ∧ t.SeatedAt u x ∧ Q u := by
  obtain ⟨u, hu, hbefore, hseat⟩ := State.replaced_troupe? (e := e) (x := x) ht hens
  rw [State.placeAgain_eq he]
  refine State.resumes (P := fun u => u.finish = .no ∧ t.SeatedAt u x ∧ Q u) hu (fun b block live now => ?_) (fun _ h => h.1)
    (fun v w hvw hp => ?_) ⟨u, ?_, hbefore.id⟩
  · refine ⟨Troupe.resumedAs_finish .., fun q hq => ?_, hres u hbefore b block live now⟩
    have hsame := Troupe.resumedAs_seat ({ u with holdsExt := b, hadExt := false } : Troupe) block live u.region now
    simp only [Prod.mk.injEq] at hsame
    obtain ⟨h1, h2, h3, h4⟩ := hsame
    obtain ⟨g1, g2, g3, g4⟩ := hseat q hq
    exact ⟨h1.trans g1, h2.trans g2, h3.trans g3, h4.trans g4⟩
  · obtain ⟨hfin, hs, hq⟩ := hp
    refine ⟨hvw.finish.trans hfin, fun q h => ?_, hmove v w hvw hq⟩
    obtain ⟨h1, h2, h3, h4⟩ := hvw.seat
    obtain ⟨g1, g2, g3, g4⟩ := hs q h
    exact ⟨h1.trans g1, h2.trans g2, h3.trans g3, h4.trans g4⟩
  · exact List.mem_filter.mpr ⟨List.mem_of_find?_eq_some hu, by simp [hbefore.ens, hbefore.run, hens, hrun]⟩

end

end Sys2Proof.Machine
end

section
namespace Sys2Proof.Machine

/-! ### How troupes stand after a resumption -/

section
variable {t u v : Troupe}

theorem lenumFrom_map {α β : Type} (f : α → β) (xs : List α) (k : Nat) :
    lenumFrom k (xs.map f) = (lenumFrom k xs).map fun e => (e.1, f e.2) := by
  induction xs generalizing k with
  | nil => rfl
  | cons a xs ih => simp only [List.map_cons, lenumFrom, ih]

theorem Troupe.live_of_lanes {f : Lane → Lane} (hl : u.lanes = t.lanes.map f) (hf : ∀ l : Lane, (f l).st = l.st) :
    u.live = t.live := by
  unfold Troupe.live Troupe.inState
  rw [hl, lenum, lenumFrom_map, List.filter_map, List.map_map]
  simp only [Function.comp_def, hf]
  rfl

theorem Troupe.AsBefore.live (h : t.AsBefore u) : u.live = t.live := by
  obtain ⟨f, hl, hf⟩ := h.lanes
  exact Troupe.live_of_lanes hl fun l => (hf l).1

theorem Troupe.AsBefore.length (h : t.AsBefore u) : u.lanes.length = t.lanes.length := by
  obtain ⟨f, hl, -⟩ := h.lanes
  rw [hl, List.length_map]

theorem Troupe.reg_of_lanes {f : Lane → Lane} (hl : u.lanes = t.lanes.map f) (hf : ∀ l : Lane, (f l).regs = l.regs) (l r : Nat) :
    u.reg l r = t.reg l r := by
  unfold Troupe.reg Troupe.lane Lane.reg
  rw [hl]
  by_cases h : l < t.lanes.length
  · rw [lget_map Lane.none_ Lane.none_ f t.lanes h, hf]
  · rw [lget_beyond _ _ _ (by simpa using h), lget_beyond _ _ _ (by omega)]

theorem Troupe.AsBefore.sameRegs (h : t.AsBefore u) : t.SameRegs u := by
  obtain ⟨f, hl, hf⟩ := h.lanes
  exact Troupe.reg_of_lanes hl fun l => (hf l).2

theorem slicesOf_ne_zero {m : Word} (h : m ≠ 0) : slicesOf m ≠ 0 := fun hz => by
  refine h (BitVec.eq_of_getLsbD_eq fun k hk => ?_)
  rw [show (0 : Word) = 0#32 from rfl, BitVec.getLsbD_zero, Bool.eq_false_iff]
  intro hb
  have hs := (getLsbD_slicesOf m (k / 4)).mpr ⟨by omega, k % 4, Nat.mod_lt _ (by decide), by rw [Nat.div_add_mod]; exact hb⟩
  rw [hz, show (0 : BitVec 8) = 0#8 from rfl, BitVec.getLsbD_zero] at hs
  cases hs

/-- The one path of a troupe at its start. -/
def Path.StartsAt (q : Path) (ss : BitVec 8) (pc : Nat) : Prop := q.sel = .ord 0 ∧ q.pc = pc ∧ q.blk = none ∧ q.slices = ss

theorem Path.startsAt_learn {p q : Path} {ss : BitVec 8} {pc : Nat} (h : p.StartsAt ss pc) : (p.learn q).StartsAt ss pc := h

theorem Troupe.gangAt_path (t : Troupe) (ss : BitVec 8) (pc now : Nat) :
    ∃ q, (t.gangAt ss pc now).paths = [q] ∧ q.StartsAt ss pc := by
  unfold Troupe.gangAt
  extract_lets q q'
  have h : q'.StartsAt ss pc := List.foldlRecOn _ _ (motive := fun r : Path => r.StartsAt ss pc) ⟨rfl, rfl, rfl, rfl⟩
    fun _ h _ _ => Path.startsAt_learn h
  refine ⟨_, rfl, ?_⟩
  split
  · exact h
  · exact h

theorem Troupe.startAt_path {ss : BitVec 8} (hss : ss ≠ 0) (t : Troupe) (pc now : Nat) :
    ∃ q, (t.startAt ss pc now).paths = [q] ∧ q.StartsAt ss pc := by
  unfold Troupe.startAt
  rw [if_neg hss]
  exact t.gangAt_path ss pc now

theorem Troupe.startAt_frame (t : Troupe) (ss : BitVec 8) (pc now : Nat) : (t.startAt ss pc now).lanes = t.lanes ∧
    (t.startAt ss pc now).enable = t.enable ∧ (t.startAt ss pc now).routine = t.routine := by
  unfold Troupe.startAt
  split
  · exact ⟨rfl, rfl, rfl⟩
  · exact ⟨rfl, rfl, rfl⟩

/-- Every lane of a troupe holds a mark on each of its own registers. -/
def Troupe.Poisoned (t : Troupe) : Prop := ∀ l, l < 32 → ∀ r, r < 192 → (t.lane l).bad r = true

theorem Troupe.poisoned_of_lanes (hlen : t.lanes.length = 32) (hl : u.lanes = (t.poisonFrom 0).lanes) : u.Poisoned :=
  fun l hlt r hr => by
    rw [Troupe.lane, hl, Troupe.poisonFrom]
    dsimp only
    rw [lget_map Lane.none_ Lane.none_ _ t.lanes (by omega), Lane.bad, List.contains_iff_mem, mem_nunion, mem_nspan]
    refine .inr ⟨Nat.zero_le r, ?_⟩
    split <;> omega

theorem Troupe.MovedOn.poisoned (h : u.MovedOn v) (hp : u.Poisoned) : v.Poisoned := by
  unfold Troupe.Poisoned Troupe.lane
  rw [h.lanes]
  exact hp

theorem Troupe.MovedOn.startsAt {ss : BitVec 8} {pc : Nat} (h : u.MovedOn v) (hp : ∃ q, u.paths = [q] ∧ q.StartsAt ss pc) :
    ∃ q, v.paths = [q] ∧ q.StartsAt ss pc := by
  obtain ⟨q, hq, hs⟩ := hp
  exact ⟨q.moved, by rw [h.paths, hq]; rfl, hs⟩

/-- How a troupe that was discarded stands: at %rsm, with its region's mask. -/
def Troupe.Restarted (t : Troupe) (g : Region) (u : Troupe) : Prop :=
  u.enable = g.mask ∧ u.routine = .none ∧ u.Poisoned ∧ ∃ q, u.paths = [q] ∧ q.StartsAt (slicesOf t.live) t.rsm.toNat

/-- A discarded troupe as its region began: its mask, and its matrix state and routine as at reset. -/
def Troupe.rewound (t : Troupe) : Troupe :=
  { t with
    enable := match t.region with | some g => g.mask | none => t.enable
    tilePart := 32, mrow := 0, mrowOld := none, mrowSet := 0, routine := .none }

theorem Troupe.restart_eq (t : Troupe) (now : Nat) : t.restart now =
    ((t.rewound.poisonFrom 0).following (slicesOf t.live)).startAt (slicesOf t.live) t.rsm.toNat now := rfl

theorem Troupe.restarted_restart {g : Region} (hg : t.region = some g) (hlive : t.live ≠ 0) (hlen : t.lanes.length = 32)
    (now : Nat) : t.Restarted g (t.restart now) := by
  obtain ⟨hl, hen, hrt⟩ := Troupe.startAt_frame ((t.rewound.poisonFrom 0).following (slicesOf t.live)) (slicesOf t.live)
    t.rsm.toNat now
  rw [Troupe.restart_eq]
  refine ⟨hen.trans ?_, hrt, Troupe.poisoned_of_lanes (t := t.rewound) hlen hl,
    Troupe.startAt_path (slicesOf_ne_zero hlive) _ _ now⟩
  show (match t.region with | some g => g.mask | none => t.enable) = g.mask
  rw [hg]

theorem Troupe.AsBefore.restarted {g : Region} (h : t.AsBefore u) (hfin : t.finish = .discarded) (hg : t.region = some g)
    (hlive : t.live ≠ 0) (hlen : t.lanes.length = 32) (b block : Bool) (live : Option Nat) (now : Nat) :
    t.Restarted g (({ u with holdsExt := b, hadExt := false } : Troupe).resumedAs block live u.region now) := by
  unfold Troupe.resumedAs
  extract_lets w r
  have hr : r = w.restart now := by
    unfold r
    rw [show w.finish = .discarded from h.finish.trans hfin]
  have hw : w.live = t.live := (rfl : w.live = u.live).trans h.live
  have hres := Troupe.restarted_restart (t := w) (h.region.trans hg) (by rw [hw]; exact hlive) (h.length.trans hlen) now
  unfold Troupe.Restarted at hres ⊢
  rw [hw, show w.rsm = t.rsm from h.rsm] at hres
  rw [hr]
  exact hres

theorem Troupe.MovedOn.restarted {g : Region} (h : u.MovedOn v) (hu : t.Restarted g u) : t.Restarted g v := by
  obtain ⟨hen, hrt, hp, hq⟩ := hu
  exact ⟨h.enable.trans hen, h.routine.trans hrt, h.poisoned hp, h.startsAt hq⟩

/-- How a troupe whose exit routine had ended stands: in its entry routine. -/
def Troupe.Entering (t : Troupe) (g : Region) (u : Troupe) : Prop :=
  u.routine = .entry ∧ u.Poisoned ∧ ∃ q, u.paths = [q] ∧
    q.StartsAt (slicesOf t.live) (addrOf ((g.hdr : Int) + 16 * g.entry.toInt))

theorem Troupe.entering_enterRoutine {g : Region} (hlive : t.live ≠ 0) (hlen : t.lanes.length = 32) (now : Nat) :
    t.Entering g (t.enterRoutine (some g) now) := by
  unfold Troupe.enterRoutine
  extract_lets a ss
  obtain ⟨hl, -, hrt⟩ := Troupe.startAt_frame ((({ t with routine := .entry, region := some g } : Troupe).poisonFrom 0).following ss)
    ss a now
  refine ⟨hrt, Troupe.poisoned_of_lanes (t := { t with routine := .entry, region := some g }) hlen hl, ?_⟩
  obtain ⟨q, hq, hs⟩ := Troupe.startAt_path (slicesOf_ne_zero hlive)
    ((({ t with routine := .entry, region := some g } : Troupe).poisonFrom 0).following ss) a now
  refine ⟨{ q with last := t.rsm.toNat }, ?_, hs⟩
  refine (congrArg (List.map _) hq).trans ?_
  rw [List.map_cons, if_pos hs.1]
  rfl

theorem Troupe.AsBefore.entering {g : Region} (h : t.AsBefore u) (hfin : t.finish = .ended) (hg : t.region = some g)
    (hlive : t.live ≠ 0) (hlen : t.lanes.length = 32) (b block : Bool) (live : Option Nat) (now : Nat) :
    t.Entering g (({ u with holdsExt := b, hadExt := false } : Troupe).resumedAs block live u.region now) := by
  unfold Troupe.resumedAs
  extract_lets w r
  have hr : r = w.enterRoutine (some g) now := by
    unfold r
    rw [show w.finish = .ended from h.finish.trans hfin, show u.region = some g from h.region.trans hg]
  have hw : w.live = t.live := (rfl : w.live = u.live).trans h.live
  have hres := Troupe.entering_enterRoutine (t := w) (g := g) (by rw [hw]; exact hlive) (h.length.trans hlen) now
  unfold Troupe.Entering at hres ⊢
  rw [hw] at hres
  rw [hr]
  exact hres

theorem Troupe.MovedOn.entering {g : Region} (h : u.MovedOn v) (hu : t.Entering g u) : t.Entering g v := by
  obtain ⟨hrt, hp, hq⟩ := hu
  exact ⟨h.routine.trans hrt, h.poisoned hp, h.startsAt hq⟩

/-- How a spilled troupe stands: where it stood. -/
def Troupe.Restored (t u : Troupe) : Prop := t.SameRegs u ∧ u.routine = t.routine ∧ u.enable = t.enable ∧
  ∀ r q, t.path? r = some q → ∃ q', u.path? r = some q' ∧ q'.pc = q.pc ∧ q'.blk = q.blk ∧ q'.slices = q.slices ∧
    q'.stack = q.stack

theorem Troupe.Restored.of_paths {f : Path → Path} (hregs : t.SameRegs u) (hrt : u.routine = t.routine) (hen : u.enable = t.enable)
    (hp : u.paths = t.paths.map f) (hf : ∀ p : Path, (f p).sel = p.sel ∧ (f p).pc = p.pc ∧ (f p).blk = p.blk ∧
      (f p).slices = p.slices ∧ (f p).stack = p.stack) : t.Restored u := by
  refine ⟨hregs, hrt, hen, fun r q hq => ⟨f q, ?_, (hf q).2⟩⟩
  rw [Troupe.path?, hp, find?_sel_map fun p => (hf p).1]
  exact congrArg (Option.map f) hq

theorem Troupe.AsBefore.restored (h : t.AsBefore u) (hfin : t.finish = .spilled false) (b block : Bool) (live : Option Nat)
    (now : Nat) : t.Restored (({ u with holdsExt := b, hadExt := false } : Troupe).resumedAs block live u.region now) := by
  unfold Troupe.resumedAs
  extract_lets w r
  have hr : r = w.restoreSpill false live now := by
    unfold r
    rw [show w.finish = .spilled false from h.finish.trans hfin]
  have hpoison : ∀ k, u.SameRegs (w.poisonFrom k) := fun k => Troupe.reg_of_lanes rfl fun _ => rfl
  rw [hr]
  refine Troupe.Restored.of_paths (f := fun p => { p.moved with stall := now + 1 }) (fun l q => ?_) ?_ ?_ ?_
    fun _ => ⟨rfl, rfl, rfl, rfl, rfl⟩
  · cases live with
    | none => exact h.sameRegs l q
    | some k => exact (hpoison k l q).trans (h.sameRegs l q)
  · cases live <;> exact h.routine
  · cases live <;> exact h.enable
  · rw [← h.paths]
    cases live <;> exact List.map_map

theorem Troupe.MovedOn.restored (h : u.MovedOn v) (hu : t.Restored u) : t.Restored v := by
  obtain ⟨hregs, hrt, hen, hp⟩ := hu
  refine ⟨fun l r => ?_, h.routine.trans hrt, h.enable.trans hen, fun r q hq => ?_⟩
  · rw [← hregs l r]
    unfold Troupe.reg Troupe.lane
    rw [h.lanes]
  · obtain ⟨q', hq', hs⟩ := hp r q hq
    refine ⟨q'.moved, ?_, hs⟩
    rw [Troupe.path?, h.paths, find?_sel_map (f := Path.moved) fun _ => rfl]
    exact congrArg (Option.map Path.moved) hq'

end

end Sys2Proof.Machine
end

section
namespace Sys2Proof.Machine

/-! ### PLACEMENT -/

/-- The candidate that is placed, with its site. -/
def State.firstFit (s : State) : Option (Candidate × Site) :=
  firstSome (fun c => (s.fits c).map fun x => (c, x)) (placeable s.now s.candidates)

section
variable {s : State} {c : Candidate} {x : Site} {l : Launch} {n : Nat} {e : Ensemble}

theorem execPlacement_of_first (h : s.firstFit = some (c, x)) : execPlacement s = .next (s.place c x) := by
  rw [execPlacement, show firstSome _ _ = _ from h]

theorem State.firstFit_fits (h : s.firstFit = some (c, x)) : s.fits c = some x := by
  obtain ⟨d, -, hd⟩ := firstSome_some h
  obtain ⟨y, hy, hp⟩ := Option.map_eq_some_iff.mp hd
  cases hp
  exact hy

theorem State.place_new (hsw : c.swapped = none) (hl : s.launch? c.launch = some l) : ∃ ts late, s.place c x =
    ({ s.withTurns ts late with queue := s.queue.map fun q => if q.same c then q.restart s.now else q } : State).placeNew l x := by
  obtain ⟨ts, late, ht⟩ := s.takes_turns (.retire x.die) afterCores
  refine ⟨ts, late, ?_⟩
  unfold State.place
  rw [ht, hsw]
  dsimp only
  rw [show (s.withTurns ts late).launch? c.launch = some l from hl]
  rfl

theorem State.place_again (hsw : c.swapped = some n) : ∃ ts late, s.place c x =
    ({ s.withTurns ts late with queue := s.queue.filter fun q => !q.same c } : State).placeAgain n x := by
  obtain ⟨ts, late, ht⟩ := s.takes_turns (.retire x.die) afterCores
  refine ⟨ts, late, ?_⟩
  unfold State.place
  rw [ht, hsw]
  rfl

/-- The lanes of a troupe in its place hold their first items. -/
theorem Troupe.InPlace.items {t : Troupe} {ens die : Nat} {q : Seat} {T next stop k : Nat}
    (h : t.InPlace ens die q (firstItems T q next stop)) (hk : k < 32) :
    if next + (q.sec * 32 * T + q.idx * 32 + k) < stop then
      (t.lane k).st = .live ∧ (t.lane k).item = BitVec.ofNat 64 (next + (q.sec * 32 * T + q.idx * 32 + k))
    else (t.lane k).st = .absent := by
  have hlen : t.lanes.length = 32 := by
    have := congrArg List.length h.lanes
    simpa [firstItems] using this
  have hlane := lget_map Lane.none_ (LaneState.absent, (0 : DWord)) (fun l => (l.st, l.item)) t.lanes (l := k) (by omega)
  rw [h.lanes, firstItems, lget_map_range _ _ hk] at hlane
  rw [Troupe.lane]
  split at hlane
  next hin =>
    rw [if_pos hin]
    simp only [Prod.mk.injEq] at hlane
    exact ⟨hlane.1.symm, hlane.2.symm⟩
  next hout =>
    rw [if_neg hout]
    simp only [Prod.mk.injEq] at hlane
    exact hlane.1.symm

theorem Troupe.InPlace.reg {t : Troupe} {ens die : Nat} {q : Seat} {ls : List (LaneState × DWord)} (h : t.InPlace ens die q ls)
    (k r : Nat) : t.reg k r = 0 := by
  have hregs : (t.lane k).regs = [] := by
    rw [Troupe.lane]
    by_cases hk : k < t.lanes.length
    · exact h.regs _ (List.mem_of_getElem? (getElem?_of_lget Lane.none_ hk))
    · rw [lget_beyond _ _ _ (by omega)]
      rfl
  rw [Troupe.reg, Lane.reg, hregs]
  split <;> rfl

theorem placement_new (h : s.firstFit = some (c, x)) (hsw : c.swapped = none) (hl : s.launch? c.launch = some l)
    (hfresh : ∀ e ∈ s.ens, e.id < s.fresh) : ∃ s', execPlacement s = .next s' ∧
      (∃ e ∈ s'.ens? s.fresh, e.launch = l.id ∧ e.num = l.nextNum ∧ e.die = x.die ∧ e.cluster = x.cluster ∧
        e.offset = x.offset) ∧
      (∃ l' ∈ s'.launch? l.id, l'.nextNum = l.nextNum + 1 ∧ l'.next = if l.hdr.block = true
        then min ((l.next / l.hdr.groupSize + 1) * l.hdr.groupSize) l.stop
        else min l.stop (l.next + 32 * (l.hdr.sections * l.hdr.troupes))) ∧
      ∀ q ∈ x.seats, q.part = (q.idx + x.offset) % 4 ∧ q.slot < 16 ∧ q.slot ∉ s.slotsTaken x.die q.core q.part ∧
        ∃ t ∈ s'.troupes, t.ens = s.fresh ∧ t.sec = q.sec ∧ t.idx = q.idx ∧ t.die = x.die ∧ t.core = q.core ∧
          t.part = q.part ∧ t.slot = q.slot ∧ t.enable = 0xFFFFFFFF ∧ (∀ l r, t.reg l r = 0) ∧
          (l.hdr.block = false → ∀ k, k < 32 →
            let i := l.next + (q.sec * 32 * l.hdr.troupes + q.idx * 32 + k)
            if i < min l.stop (l.next + 32 * (l.hdr.sections * l.hdr.troupes)) then
              (t.lane k).st = .live ∧ (t.lane k).item = BitVec.ofNat 64 i else (t.lane k).st = .absent) := by
  obtain ⟨ts, late, hp⟩ := State.place_new (x := x) hsw hl
  have hid : l.id = c.launch := by simpa using List.find?_some hl
  obtain ⟨⟨e, he, hsite⟩, hlaunch, hseats⟩ := State.placeNew_places (x := x)
    (s := { s.withTurns ts late with queue := s.queue.map fun q => if q.same c then q.restart s.now else q }) (hid ▸ hl) hfresh
  rw [execPlacement_of_first h, hp]
  simp only [Ensemble.site, Launch.placedEns, Prod.mk.injEq] at hsite
  refine ⟨_, rfl, ⟨e, he, hsite⟩, ⟨_, hlaunch, rfl, rfl⟩, fun q hq => ?_⟩
  obtain ⟨hpart, hslot, hfree⟩ := State.fits_free (State.firstFit_fits h) q hq
  obtain ⟨t, ht, ls, hin, hls⟩ := hseats q hq
  obtain ⟨h1, h2, h3, h4, h5, h6⟩ := hin.place
  refine ⟨hpart, hslot, hfree, t, ht, hin.ens, h1, h2, h3, h4, h5, h6, hin.enable, hin.reg, fun hb k hk => ?_⟩
  have hstop : l.placedStop = min l.stop (l.next + 32 * (l.hdr.sections * l.hdr.troupes)) := by rw [Launch.placedStop, hb]; rfl
  rw [hls hb, hstop] at hin
  exact hin.items hk

theorem placement_again (h : s.firstFit = some (c, x)) (hsw : c.swapped = some n) (he : s.ens? n = some e) :
    ∃ s', execPlacement s = .next s' ∧ (∀ d ∈ s'.queue, d.same c = false) ∧
      ∃ e' ∈ s'.ens? n, e'.st = .running ∧ e'.die = x.die ∧ e'.cluster = x.cluster ∧ e'.offset = x.offset := by
  obtain ⟨ts, late, hp⟩ := State.place_again (x := x) (s := s) hsw
  rw [execPlacement_of_first h, hp, State.placeAgain_eq (by exact he)]
  generalize hs1 : ({ s.withTurns ts late with queue := s.queue.filter fun q => !q.same c } : State) = s1
  have he1 : s1.ens? n = some e := hs1 ▸ he
  have hq1 : s1.queue = s.queue.filter fun q => !q.same c := hs1 ▸ rfl
  obtain ⟨hq, hens⟩ := State.resumeAll_still ((s1.replaced n e x).running n) (s1.replaced n e x)
  obtain ⟨f, hf, hst⟩ := State.replaced_ens? (x := x) he1
  refine ⟨_, rfl, fun d hd => ?_, f, ?_, hst⟩
  · rw [hq, State.replaced_queue, hq1] at hd
    simpa using (List.mem_filter.mp hd).2
  · rw [State.ens?, hens]
    exact hf

/-- A troupe of a swapped-out ensemble that is placed again. -/
theorem placement_resumes {Q : Troupe → Prop} {t : Troupe} (h : s.firstFit = some (c, x)) (hsw : c.swapped = some n)
    (he : s.ens? n = some e) (ht : s.troupe? t.id = some t) (hens : t.ens = n) (hrun : t.run = .running)
    (hres : ∀ u, t.AsBefore u → ∀ b block live now, Q (({ u with holdsExt := b, hadExt := false } : Troupe).resumedAs block live u.region now))
    (hmove : ∀ u v, u.MovedOn v → Q u → Q v) :
    ∃ s' t', execPlacement s = .next s' ∧ s'.troupe? t.id = some t' ∧ t'.finish = .no ∧ t.SeatedAt t' x ∧ Q t' := by
  obtain ⟨ts, late, hp⟩ := State.place_again (x := x) (s := s) hsw
  obtain ⟨u, hu, hfin, hseat, hq⟩ := State.placeAgain_resumes (x := x)
    (s := { s.withTurns ts late with queue := s.queue.filter fun q => !q.same c }) he ht hens hrun hres hmove
  exact ⟨_, u, (execPlacement_of_first h).trans (congrArg _ hp), hu, hfin, hseat, hq⟩

theorem placement_of_none (h : s.firstFit = none) : execPlacement s = .next s := by
  rw [execPlacement, show firstSome _ _ = _ from h]

theorem starvation_holds (s : State) : ∃ s', execPlacerStarvationHold s = .next s' ∧ s' = { s with queue := s'.queue } ∧
    ∀ c ∈ s.queue, (if ∃ n, c.firstSince = some n ∧ 1048576 ≤ s.now - n then { c with blocking := true } else c) ∈ s'.queue := by
  refine ⟨_, rfl, rfl, fun c hc => ?_⟩
  have hmark : { c with blocking := c.starved s.now } =
      if ∃ n, c.firstSince = some n ∧ 1048576 ≤ s.now - n then { c with blocking := true } else c := by
    obtain ⟨swapped, launch, prio, since, firstSince, request, blocking⟩ := c
    cases firstSince with
    | none => simp [Candidate.starved]
    | some k => by_cases hk : 1048576 ≤ s.now - k <;> simp [Candidate.starved, hk, Config.starveClocks]
  rw [← hmark]
  exact List.mem_map_of_mem (f := fun c : Candidate => { c with blocking := c.starved s.now }) hc

end

end Sys2Proof.Machine
end

section
open Sys2Proof Sys2Proof.Machine

/-- Settles O51: a new ensemble's troupes stay in their places while those without items become done, and a troupe that resumes
does so once, by the way it had finished. -/
theorem placementPutsEnsemblesOnCores : Obligations.PlacementPutsEnsemblesOnCores := by
  unfold Obligations.PlacementPutsEnsemblesOnCores
  intro first again poisoned
  refine ⟨fun s c x l h hsw hl hfresh => placement_new h hsw hl hfresh, fun s c x n e h hsw he => ?_,
    fun s c x n t g h hsw he hfin hg hlive ht hens hrun hlen _ => ?_,
    fun s c x n t g h hsw he hfin hg hlive ht hens hrun hlen _ => ?_,
    fun s c x n t h hsw he hfin _ ht hens hrun _ _ => ?_, fun s h => placement_of_none h, starvation_holds⟩
  · obtain ⟨s', hs', hq, hens⟩ := placement_again h hsw he
    exact ⟨s', hs', hq, fun _ => hens⟩
  · obtain ⟨e, he⟩ := he
    exact placement_resumes h hsw he ht hens hrun (fun u hu b block live now => hu.restarted hfin hg hlive hlen b block live now)
      fun u v huv hq => huv.restarted hq
  · obtain ⟨e, he⟩ := he
    exact placement_resumes h hsw he ht hens hrun (fun u hu b block live now => hu.entering hfin hg hlive hlen b block live now)
      fun u v huv hq => huv.entering hq
  · obtain ⟨e, he⟩ := he
    exact placement_resumes h hsw he ht hens hrun (fun u hu b block live now => hu.restored hfin b block live now)
      fun u v huv hq => huv.restored hq

end


section
namespace Sys2Proof.Machine

/-! ## O49: engine operations and futures -/

/-! ### The end of an operation -/

section
variable {s : State} {t : Troupe} {o : Op} {e id : Nat}

theorem State.modTroupe_modTroupe (s : State) (id : Nat) (f g : Troupe → Troupe) (hf : ∀ t, (f t).id = t.id) :
    (s.modTroupe id f).modTroupe id g = s.modTroupe id fun t => g (f t) := by
  simp only [State.modTroupe, List.map_map]
  congr 1
  refine List.map_congr_left fun t _ => ?_
  by_cases h : t.id = id
  · simp [h, hf]
  · simp [h]

/-- An ensemble that runs, with a troupe that runs, is not settled. -/
theorem State.settleEns_of_running (ht : s.troupe? id = some t) (hrun : t.run = .running)
    (hens : ∀ e, s.ens? t.ens = some e → e.st = .running) : s.settleEns t.ens = s := by
  unfold State.settleEns
  split
  · rfl
  next e he =>
    dsimp only
    rw [hens e he]
    refine if_neg fun hall => ?_
    have := List.all_eq_true.mp hall t (List.mem_filter.mpr ⟨List.mem_of_find?_eq_some ht, by simp⟩)
    simp [hrun] at this

/-- A troupe without the operations that nothing waits for any more. -/
def Troupe.pruned (s : State) (t : Troupe) : Troupe := { t with ops := t.ops.filter fun o =>
    !(o.complete s.now && o.fault.isNone && (o.kind.accs.all fun a => s.accOver a) &&
      (o.volSeen.all fun v => !s.openByte v.2) &&
      !(t.ops.takeWhile fun e => e.id != o.id).any fun e =>
        e.cls == o.cls && (e.fault.isSome || !e.complete s.now)) }

theorem State.prune_of_running (ht : s.troupe? id = some t) (hrun : t.run = .running)
    (hens : ∀ e, s.ens? t.ens = some e → e.st = .running) : s.prune id = s.modTroupe id (Troupe.pruned s) := by
  have hp : (s.modTroupe id (Troupe.pruned s)).troupe? id = some (t.pruned s) := State.troupe?_modTroupe_same _ ht rfl
  show (match (s.modTroupe id (Troupe.pruned s)).troupe? id with
    | some t => (s.modTroupe id (Troupe.pruned s)).settleEns t.ens
    | none => s.modTroupe id (Troupe.pruned s)) = _
  rw [hp]
  exact State.settleEns_of_running hp hrun hens

/-- No path waits by FWAIT on an entry of a troupe. -/
def State.NoFwait (s : State) (id e : Nat) : Prop := ∀ u ∈ s.troupes, ∀ p ∈ u.paths, ∀ g d ls, p.wait ≠ .fwait id e g d ls

theorem State.serveFwait_of_none (h : s.NoFwait id e) (st v : Word) : s.serveFwait id e st v = (s, false) := by
  unfold State.serveFwait
  extract_lets ps
  have hnone : ps = [] := by
    refine List.flatMap_eq_nil_iff.mpr fun u hu => List.filterMap_eq_nil_iff.mpr fun p hp => ?_
    split
    next o k g d ls hw =>
      refine if_neg fun hk => ?_
      obtain ⟨rfl, rfl⟩ := hk
      exact h u hu p hp g d ls hw
    · rfl
  rw [hnone]
  rfl

theorem State.NoFwait.modTroupe {f : Troupe → Troupe} {j : Nat} (h : s.NoFwait id e) (hf : ∀ t, (f t).paths = t.paths) :
    (s.modTroupe j f).NoFwait id e := by
  intro u hu p hp
  obtain ⟨v, hv, rfl⟩ := List.mem_map.mp hu
  refine h v hv p ?_
  split at hp
  · rwa [hf] at hp
  · exact hp

/-- An operation at its end, with its value. -/
def Op.ended (value : Nat) (o : Op) : Op := { o with done := true, value := value }

/-- A future entry in its final state. -/
def FutureEntry.ended (now : Nat) (st v : Word) (f : FutureEntry) : FutureEntry :=
  { f with status := st, value := v, mark := none, fin := some (now, st, v) }

/-- A troupe whose operation has ended with an entry. -/
def Troupe.finished_ (now op e value : Nat) (st v : Word) (t : Troupe) : Troupe :=
  { t with
    ops := t.ops.map fun o => if o.id = op then o.ended value else o
    futures := lmod (FutureEntry.ended now st v) t.futures e }

/-- The end of the one operation of a troupe that runs, on whose entry no path waits. -/
theorem State.finishOp_eq {op : Nat} (ht : s.troupe? id = some t) (hrun : t.run = .running)
    (hens : ∀ e, s.ens? t.ens = some e → e.st = .running) (hops : t.ops = [o]) (hop : o.id = op) (hfut : o.future = some e)
    (hno : s.NoFwait id e) (hfault : o.fault = none) {status : Nat} (hst : status ≠ 3) (value : Nat) (changed : Bool) :
    ∃ s1 : State, s.finishOp id op status value changed = s.modTroupe id fun t => (t.finished_ s.now op e value
      (BitVec.ofNat 32 (status + if changed = true then 256 else 0)) (BitVec.ofNat 32 value)).pruned s1 := by
  have hfound : (s.troupe? id).bind (fun (t : Troupe) => t.op? op) = some o := by
    rw [ht]
    simp [Troupe.op?, hops, hop]
  unfold State.finishOp
  rw [hfound]
  simp only [hfault, if_neg hst, Nat.add_zero, hfut]
  generalize BitVec.ofNat 32 (status + if changed = true then 256 else 0) = st
  generalize BitVec.ofNat 32 value = v
  have hmod : (s.modOp id op fun o => { o with done := true, value := value }).modTroupe id (fun t =>
      { t with futures := lmod (fun f => { f with
          status := st, value := v, mark := none, fin := some (s.now, st, v) }) t.futures e }) =
      s.modTroupe id (Troupe.finished_ s.now op e value st v) := State.modTroupe_modTroupe s id _ _ fun _ => rfl
  rw [show (s.modOp id op fun o => { o with done := true, value := value }).now = s.now from rfl, hmod,
    State.serveFwait_of_none (hno.modTroupe (f := Troupe.finished_ s.now op e value st v) fun _ => rfl)]
  dsimp only
  rw [State.prune_of_running (State.troupe?_modTroupe_same (Troupe.finished_ s.now op e value st v) ht rfl) hrun hens]
  exact ⟨_, State.modTroupe_modTroupe s id _ _ fun _ => rfl⟩

end

end Sys2Proof.Machine
end

section
namespace Sys2Proof.Machine

section
variable {s : State} {t : Troupe} {o : Op} {e : Nat}

/-- An operation that has taken its deferred fault, or has none. -/
def Troupe.faultTaken (op : Nat) (t : Troupe) : Troupe :=
  { t with ops := t.ops.map fun o => if o.id = op then { o with fault := none } else o }

/-- A troupe after its one operation has ended: the registers stand, and the entry holds the result. -/
theorem Troupe.final_of_finished {now op value : Nat} {st v : Word} {s1 : State} (hops : t.ops = [o]) (hid : o.id = op)
    (hlen : e < t.futures.length) (hbusy : (lget FutureEntry.new t.futures e).busy = true) :
    t.SameRegs ((t.finished_ now op e value st v).pruned s1) ∧
      ((t.finished_ now op e value st v).pruned s1).Final o e st v := by
  have hentry : lget FutureEntry.new (lmod (FutureEntry.ended now st v) t.futures e) e =
      (lget FutureEntry.new t.futures e).ended now st v := by
    rw [lget_lmod, if_pos ⟨rfl, hlen⟩]
  refine ⟨fun _ _ => rfl, ?_⟩
  show (lget FutureEntry.new (lmod (FutureEntry.ended now st v) t.futures e) e).status = st ∧ _
  rw [Troupe.pruned, Troupe.finished_]
  dsimp only
  rw [hentry]
  refine ⟨rfl, rfl, hbusy, rfl, fun o' ho' _ => ?_⟩
  have hm := List.mem_of_mem_filter ho'
  rw [hops, List.map_cons, List.map_nil, if_pos hid, List.mem_singleton] at hm
  rw [hm]
  rfl

/-- What an operation of a kind ends with, and whether a lost member has been left out. -/
def State.resultOf (s : State) (k : OpKind) (v : Nat) : Nat × Bool :=
  match k with
  | .coll _ _ n _ _ w => ((s.liveOf n).length, w.changed)
  | _ => (v, false)

/-- A transfer has left its channel. -/
def State.channelLeft (s : State) (t : Troupe) (o : Op) : State :=
  match o.kind with
  | .cpy c _ _ _ _ _ => s.leaveChan t c o.id
  | _ => s

theorem State.modSect_ens? (s : State) (ens k : Nat) (f : Section → Section) (j : Nat) :
    ((s.modSect ens k f).ens? j).map Ensemble.st = (s.ens? j).map Ensemble.st := by
  have hid : ∀ v : Ensemble, (if v.id = ens then { v with sections := lmod f v.sections k } else v).id = v.id := fun v => by
    split <;> rfl
  have hst : ∀ v : Ensemble, (if v.id = ens then { v with sections := lmod f v.sections k } else v).st = v.st := fun v => by
    split <;> rfl
  rw [State.ens?, State.modSect, State.modEns, List.find?_map, Option.map_map]
  simp only [Function.comp_def, hid, hst]
  rfl

theorem State.leaveChan_ens? (s : State) (t : Troupe) (k op j : Nat) :
    ((s.leaveChan t k op).ens? j).map Ensemble.st = (s.ens? j).map Ensemble.st := by
  unfold State.leaveChan
  extract_lets q q' s1
  have h1 : (s1.ens? j).map Ensemble.st = (s.ens? j).map Ensemble.st := s.modSect_ens? ..
  split
  · split
    · split
      · exact (s1.modSect_ens? ..).trans h1
      · exact h1
    · exact h1
  · exact h1

theorem State.channelLeft_troupes (s : State) (t : Troupe) (o : Op) : (s.channelLeft t o).troupes = s.troupes := by
  unfold State.channelLeft
  split
  · exact s.leaveChan_troupes ..
  · rfl

theorem State.channelLeft_still (s : State) (t : Troupe) (o : Op) : (s.channelLeft t o).still = s.still := by
  unfold State.channelLeft
  split
  · exact s.leaveChan_still ..
  · rfl

theorem State.channelLeft_running (hens : ∀ e, s.ens? t.ens = some e → e.st = .running) (o : Op) :
    ∀ e, (s.channelLeft t o).ens? t.ens = some e → e.st = .running := fun e he => by
  have hst : ((s.channelLeft t o).ens? t.ens).map Ensemble.st = (s.ens? t.ens).map Ensemble.st := by
    unfold State.channelLeft
    split
    · exact s.leaveChan_ens? ..
    · rfl
  rw [he] at hst
  cases h : s.ens? t.ens with
  | none => rw [h] at hst; cases hst
  | some f =>
    rw [h] at hst
    exact (Option.some.inj hst).trans (hens f h)

/-- A troupe that runs, in an ensemble that runs, with one operation, which holds an entry on which no path waits. -/
structure State.Ending (s : State) (t : Troupe) (o : Op) (e : Nat) : Prop where
  here : s.troupe? t.id = some t
  run : t.run = .running
  ens : ∀ e, s.ens? t.ens = some e → e.st = .running
  ops : t.ops = [o]
  future : o.future = some e
  unawaited : s.NoFwait t.id e
  undone : o.done = false

theorem State.Ending.opOf (h : s.Ending t o e) : s.opOf t.id o.id = some (t, o) := by
  rw [State.opOf, h.here]
  simp [Troupe.op?, h.ops]

/-- The end of an operation whose work is over, and which is not cancelled. -/
theorem State.tryFinish_eq (h : s.Ending t o e) {st v : Nat} (hends : o.ends = some (st, v, none)) (hover : s.opOver o = true)
    (hcan : o.cancelled = false) (hst : st ≠ 3) :
    ∃ s1, s.tryFinish t.id o.id = (s.channelLeft t o).modTroupe t.id fun t => ((t.faultTaken o.id).finished_ s.now o.id e
      (s.resultOf o.kind v).1 (BitVec.ofNat 32 (st + if (s.resultOf o.kind v).2 = true then 256 else 0))
      (BitVec.ofNat 32 (s.resultOf o.kind v).1)).pruned s1 := by
  have hleft := s.channelLeft_still t o
  have htroupes := s.channelLeft_troupes t o
  have ht : (s.channelLeft t o).troupe? t.id = some t := by
    rw [State.troupe?, htroupes]
    exact h.here
  have hfault : ((s.channelLeft t o).modOp t.id o.id fun o => { o with fault := none }).troupe? t.id =
      some (t.faultTaken o.id) := State.troupe?_modTroupe_same (Troupe.faultTaken o.id) ht rfl
  have hno : ((s.channelLeft t o).modOp t.id o.id fun o => { o with fault := none }).NoFwait t.id e :=
    State.NoFwait.modTroupe (f := Troupe.faultTaken o.id) (fun u hu => h.unawaited u (htroupes ▸ hu)) fun _ => rfl
  have hnow : (s.channelLeft t o).now = s.now := (congrArg State.now hleft :)
  obtain ⟨s1, hfin⟩ := State.finishOp_eq (o := { o with fault := none }) (op := o.id) hfault h.run
    (State.channelLeft_running h.ens o) (by simp [Troupe.faultTaken, h.ops]) rfl h.future hno rfl hst (s.resultOf o.kind v).1
    (s.resultOf o.kind v).2
  refine ⟨s1, Eq.trans ?_ (hfin.trans ?_)⟩
  · unfold State.tryFinish
    rw [h.opOf]
    dsimp only
    rw [hends]
    dsimp only
    rw [if_neg (by simp [h.undone, hover]), hcan]
    dsimp only
    unfold State.resultOf State.channelLeft
    cases o.kind <;> rfl
  · refine (State.modTroupe_modTroupe _ _ (Troupe.faultTaken o.id) _ fun _ => rfl).trans ?_
    rw [← hnow]
    rfl

end

end Sys2Proof.Machine
end

section
namespace Sys2Proof.Machine

/-! ### Sections -/

/-- A section of an ensemble that is there. -/
def State.HasSect (s : State) (ens k : Nat) : Prop := ∃ e, s.ens? ens = some e ∧ k < e.sections.length

section
variable {s : State} {t : Troupe} {o : Op} {e : Nat}

theorem State.hasSect_of_ne {ens k : Nat} (h : s.sect ens k ≠ Section.empty) : s.HasSect ens k := by
  unfold State.sect at h
  split at h
  next n hn =>
    refine ⟨n, hn, ?_⟩
    by_contra hk
    exact h (lget_beyond _ _ _ (by omega))
  · exact absurd rfl h

theorem State.sect_modSect {ens k : Nat} (h : s.HasSect ens k) (f : Section → Section) :
    (s.modSect ens k f).sect ens k = f (s.sect ens k) := by
  obtain ⟨n, hn, hk⟩ := h
  unfold State.sect
  rw [State.modSect, State.ens?_modEns_same (fun e => { e with sections := lmod f e.sections k }) hn rfl, hn]
  exact (lget_lmod ..).trans (if_pos ⟨rfl, hk⟩)

theorem State.HasSect.modSect {ens k j m : Nat} (h : s.HasSect ens k) (f : Section → Section) : (s.modSect j m f).HasSect ens k := by
  obtain ⟨n, hn, hk⟩ := h
  by_cases hj : ens = j
  · subst hj
    exact ⟨_, State.ens?_modEns_same (fun e => { e with sections := lmod f e.sections m }) hn rfl, by
      dsimp only
      rw [lmod_length]
      exact hk⟩
  · exact ⟨n, (State.ens?_modEns_other (fun e => { e with sections := lmod f e.sections m }) hj fun _ h => h).trans hn, hk⟩

theorem State.hasSect_of_chan {c : Nat} {x : Nat × Nat} (h : (s.chan t c).head? = some x) : s.HasSect t.ens t.sec :=
  State.hasSect_of_ne fun he => by
    rw [State.chan, he] at h
    cases h

/-- A transfer that has left its channel is not there. -/
theorem State.not_mem_leaveChan {c op : Nat} (h : (s.chan t c).head? = some (t.id, op)) :
    (t.id, op) ∉ (s.leaveChan t c op).chan t c := by
  have hs := State.hasSect_of_chan h
  unfold State.leaveChan
  extract_lets q q' s1
  have h1 : s1.chan t c = q' := by
    rw [State.chan, State.sect_modSect hs]
    refine (lget_lmod ..).trans (if_pos ⟨rfl, ?_⟩)
    by_contra hc
    rw [State.chan, lget_beyond _ _ _ (by omega)] at h
    cases h
  have hout : (t.id, op) ∉ s1.chan t c := by
    rw [h1]
    intro hm
    simpa using (List.mem_filter.mp hm).2
  have hopen : ∀ dst, (s1.openChan t c dst).chan t c = s1.chan t c := fun dst => by
    rw [State.openChan, State.chan, State.sect_modSect (hs.modSect _)]
    rfl
  rw [if_pos (show q.head? = some (t.id, op) from h)]
  split
  · split
    · rw [hopen]
      exact hout
    · exact hout
  · exact hout

theorem lget_replicate {α : Type} (z : α) (n k : Nat) : lget z (List.replicate n z) k = z := by
  induction n generalizing k with
  | zero => rfl
  | succ n ih =>
    cases k with
    | zero => rfl
    | succ k => exact ih k

/-! ### Operations that end -/

theorem State.Sole.ending (h : s.Sole t o) (hu : s.Unawaited t o e) : s.Ending t o e := by
  obtain ⟨ht, hrun, hens, hops, hdone, -⟩ := h
  obtain ⟨hfut, -, -, hno⟩ := hu
  exact ⟨ht, hrun, hens, hops, hfut, hno, hdone⟩

/-- An operation whose work is over. -/
def Op.overWith (st v : Nat) (o : Op) : Op := { o with ends := some (st, v, none) }

/-- The troupe of an operation whose work is over. -/
def Troupe.overWith (op st v : Nat) (t : Troupe) : Troupe :=
  { t with ops := t.ops.map fun o => if o.id = op then o.overWith st v else o }

theorem State.Ending.endWork (h : s.Ending t o e) (st v : Nat) :
    (s.endWork t.id o.id st v none).Ending (t.overWith o.id st v) (o.overWith st v) e where
  here := State.troupe?_modTroupe_same (Troupe.overWith o.id st v) h.here rfl
  run := h.run
  ens := h.ens
  ops := by simp [Troupe.overWith, h.ops]
  future := h.future
  unawaited := State.NoFwait.modTroupe (f := Troupe.overWith o.id st v) h.unawaited fun _ => rfl
  undone := h.undone

/-- How an operation has ended: the registers and the pool stand, and the entry holds the result. -/
structure State.EndedWith (s s' : State) (t : Troupe) (o : Op) (e st v : Nat) (t' : Troupe) : Prop where
  here : s'.troupe? t.id = some t'
  regs : t.SameRegs t'
  pool : s'.pool = s.pool
  final : t'.Final o e (BitVec.ofNat 32 st) (BitVec.ofNat 32 v)
  place : t'.ens = t.ens ∧ t'.sec = t.sec

theorem State.tryFinish_ends (h : s.Ending t o e) {st v : Nat} (hends : o.ends = some (st, v, none)) (hover : s.opOver o = true)
    (hcan : o.cancelled = false) (hst : st ≠ 3) (hlen : e < t.futures.length)
    (hbusy : (lget FutureEntry.new t.futures e).busy = true) :
    ∃ t', s.EndedWith (s.tryFinish t.id o.id) t o e (st + if (s.resultOf o.kind v).2 = true then 256 else 0)
      (s.resultOf o.kind v).1 t' ∧ ∀ c, (s.tryFinish t.id o.id).chan t' c = (s.channelLeft t o).chan t c := by
  obtain ⟨s1, heq⟩ := State.tryFinish_eq h hends hover hcan hst
  have ht : (s.channelLeft t o).troupe? t.id = some t := by
    rw [State.troupe?, State.channelLeft_troupes]
    exact h.here
  obtain ⟨hregs, hfinal⟩ := Troupe.final_of_finished (t := t.faultTaken o.id) (o := { o with fault := none }) (now := s.now)
    (op := o.id) (value := (s.resultOf o.kind v).1) (s1 := s1)
    (st := BitVec.ofNat 32 (st + if (s.resultOf o.kind v).2 = true then 256 else 0))
    (v := BitVec.ofNat 32 (s.resultOf o.kind v).1) (by simp [Troupe.faultTaken, h.ops]) rfl hlen hbusy
  have hpool : (s.channelLeft t o).pool = s.pool := (congrArg State.pool (s.channelLeft_still t o) :)
  rw [heq]
  exact ⟨_, ⟨State.troupe?_modTroupe_same _ ht rfl, hregs, hpool, hfinal, rfl, rfl⟩, fun _ => rfl⟩

/-- The work of an operation that ends well, and its completion at once. -/
theorem State.endWork_ends (h : s.AtWork t o) (hu : s.Unawaited t o e) (hover : s.opOver o = true) (hcan : o.cancelled = false)
    (v : Nat) :
    ∃ t', s.EndedWith ((s.endWork t.id o.id 1 v none).tryFinish t.id o.id) t o e
      (1 + if (s.resultOf o.kind v).2 = true then 256 else 0) (s.resultOf o.kind v).1 t' ∧
      ∀ c, ((s.endWork t.id o.id 1 v none).tryFinish t.id o.id).chan t' c =
        ((s.endWork t.id o.id 1 v none).channelLeft (t.overWith o.id 1 v) (o.overWith 1 v)).chan t c := by
  obtain ⟨hfut, hlen, hbusy, hno⟩ := id hu
  obtain ⟨t', ⟨h1, h2, h3, h4, h5⟩, hc⟩ := State.tryFinish_ends ((h.1.ending hu).endWork 1 v) (st := 1) (v := v) rfl
    (by exact hover) hcan (by decide) hlen hbusy
  exact ⟨t', ⟨h1, h2, h3, h4, h5⟩, hc⟩

theorem cpyTransferComplete_ends {c src dst len : Nat} {im : Option (List Byte)} (h : s.AtWork t o)
    (hk : o.kind = .cpy c src dst len len im) (hover : s.opOver o = true) (hcan : o.cancelled = false)
    (hhead : (s.chan t c).head? = some (t.id, o.id)) (hu : s.Unawaited t o e) :
    ∃ s' t', execCpyTransferComplete t.id o.id s = .next s' ∧ s.EndedWith s' t o e 1 len t' ∧ (t.id, o.id) ∉ s'.chan t' c := by
  obtain ⟨t', hend, hchan⟩ := State.endWork_ends h hu hover hcan len
  have hres : s.resultOf o.kind len = (len, false) := by rw [hk]; rfl
  rw [hres] at hend
  refine ⟨_, t', ?_, hend, ?_⟩
  · rw [execCpyTransferComplete, (h.1.ending hu).opOf]
    simp only [hk, h.2, beq_self_eq_true, Bool.and_self, if_true]
  · rw [hchan]
    have hleft : (s.endWork t.id o.id 1 len none).channelLeft (t.overWith o.id 1 len) (o.overWith 1 len) =
        (s.endWork t.id o.id 1 len none).leaveChan (t.overWith o.id 1 len) c o.id := by
      rw [State.channelLeft, show (o.overWith 1 len).kind = .cpy c src dst len len im from hk]
      rfl
    rw [hleft]
    exact State.not_mem_leaveChan (s := s.endWork t.id o.id 1 len none) (t := t.overWith o.id 1 len) (op := o.id) hhead

theorem gatherScatterComplete_ends {i a b n z k : Nat} (h : s.AtWork t o)
    (hk : o.kind = .gather i a b n z n ∨ o.kind = .scatter i a b n z n) (hn : 0 < n) (hover : s.opOver o = true)
    (hcan : o.cancelled = false) (hu : s.Unawaited t o e) :
    ∃ s' t', execGatherScatterComplete t.id o.id k s = .next s' ∧ s.EndedWith s' t o e 1 n t' := by
  obtain ⟨t', hend, -⟩ := State.endWork_ends h hu hover hcan n
  have hcount : o.kind.copyCount = n ∧ o.kind.moved = n ∧ s.resultOf o.kind n = (n, false) := by
    rcases hk with hk | hk <;> rw [hk] <;> exact ⟨rfl, rfl, rfl⟩
  obtain ⟨hc, hm, hres⟩ := hcount
  rw [hres] at hend
  refine ⟨_, t', ?_, hend⟩
  rw [execGatherScatterComplete, (h.1.ending hu).opOf]
  dsimp only
  rw [hc, hm, if_neg (by omega), h.2, if_neg (by simp), if_pos rfl]

theorem collComplete_ends {c : CollOp} {ty : Ty} {n gen desc : Nat} {w : CollWork} {parts : List (Nat × List Byte)} {ch : Bool}
    (h : s.AtWork t o) (hk : o.kind = .coll c ty n gen desc w) (hgot : w.got ≠ []) (hparts : w.parts.isSome = true)
    (hmoved : w.moved = s.collTotal o.kind) (hover : s.opOver o = true) (hcan : o.cancelled = false) (hu : s.Unawaited t o e) :
    ∃ s' t', execCollComplete t.id o.id parts ch s = .next s' ∧
      s.EndedWith s' t o e (1 + if w.changed = true then 256 else 0) (s.liveOf n).length t' := by
  obtain ⟨t', hend, -⟩ := State.endWork_ends h hu hover hcan 0
  have hres : s.resultOf o.kind 0 = ((s.liveOf n).length, w.changed) := by rw [hk]; rfl
  rw [hres] at hend
  refine ⟨_, t', ?_, hend⟩
  obtain ⟨p, hp⟩ := Option.isSome_iff_exists.mp hparts
  rw [execCollComplete, (h.1.ending hu).opOf]
  dsimp only
  rw [hk] at hmoved ⊢
  dsimp only
  rw [h.2, if_neg (by decide), if_neg hgot, hp, if_neg (by simp), if_pos hmoved]

theorem umCommandComplete_ends {k : UmKind} {slot blk d j v : Nat} {w : UmWork} (h : s.WorkOver t o 1 v)
    (hk : o.kind = .um k slot blk w) (hcan : o.cancelled = false) (hhead : (s.slot d j).queue.head? = some (t.id, o.id))
    (hu : s.Unawaited t o e) :
    ∃ s' t', execUmCommandComplete d j s = .next s' ∧ s.EndedWith s' t o e 1 v t' ∧
      s'.slot d j = { s.slot d j with queue := (s.slot d j).queue.tail } := by
  obtain ⟨hsole, hends, hover⟩ := h
  obtain ⟨hfut, hlen, hbusy, hno⟩ := id hu
  have hending := hsole.ending hu
  obtain ⟨t', hend, -⟩ := State.tryFinish_ends hending hends hover hcan (by decide) hlen hbusy
  have hres : s.resultOf o.kind v = (v, false) := by rw [hk]; rfl
  rw [hres] at hend
  have hdies : (s.tryFinish t.id o.id).dies = s.dies := (congrArg State.dies (s.tryFinish_still t.id o.id) :)
  have hwork : o.working = false := by simp [Op.working, hends]
  obtain ⟨rest, hq⟩ : ∃ rest, (s.slot d j).queue = (t.id, o.id) :: rest := by
    cases hq : (s.slot d j).queue with
    | nil => rw [hq] at hhead; cases hhead
    | cons x rest =>
      rw [hq] at hhead
      exact ⟨rest, by rw [Option.some.inj hhead]⟩
  have hfin : s.finishUm d j t.id o.id = (s.tryFinish t.id o.id).popSlot d j := by
    unfold State.finishUm
    dsimp only
    split
    next u v hv =>
      obtain ⟨x, hx, hm⟩ := Option.bind_eq_some_iff.mp hv
      obtain ⟨y, hy, he⟩ := Option.map_eq_some_iff.mp hm
      cases he
      obtain rfl := Option.some.inj (hend.here.symm.trans hx)
      exact if_pos (hend.final.2.2.2.2 _ (List.mem_of_find?_eq_some hy) (by simpa using List.find?_some hy))
    · rfl
  refine ⟨(s.tryFinish t.id o.id).popSlot d j, t', ?_, ⟨hend.here, hend.regs, hend.pool, hend.final, hend.place⟩, ?_⟩
  · rw [execUmCommandComplete, hq]
    dsimp only
    rw [hending.opOf]
    dsimp only
    rw [hk]
    dsimp only
    rw [hending.undone, hwork, if_neg (by decide), if_pos rfl, hfin]
  · have hd : d < s.dies.length ∧ j < (s.die d).um.length := by
      constructor
      · by_contra hd
        have hfree : s.slot d j = UmSlot.free := by
          rw [State.slot, State.die, lget_beyond _ _ d (by omega)]
          exact lget_replicate UmSlot.free 16 j
        rw [hfree] at hq
        cases hq
      · by_contra hj
        rw [State.slot, lget_beyond _ _ j (by omega)] at hq
        cases hq
    rw [State.popSlot, State.modSlot, State.slot, State.die_modDie, if_pos ⟨rfl, by rw [hdies]; exact hd.1⟩]
    dsimp only
    rw [State.die, hdies]
    refine (lget_lmod ..).trans ((if_pos ⟨rfl, hd.2⟩).trans ?_)
    show ({ s.slot d j with queue := (s.slot d j).queue.drop 1 } : UmSlot) = _
    rw [List.drop_one]

end

end Sys2Proof.Machine
end

section
namespace Sys2Proof.Machine

/-! ### Handles and entries -/

section
variable {s : State} {t u : Troupe} {o e : Nat} {f : FutureEntry}

/-- What a handle names is the same after a change of a troupe that leaves its place, its ensemble and its entries. -/
theorem State.lookup_modTroupe (s : State) (id : Nat) (g : Troupe → Troupe) (hg : ∀ v, (g v).id = v.id ∧ (g v).ens = v.ens ∧
    (g v).futures = v.futures ∧ (g v).place = v.place ∧ (g v).run = v.run) (t : Troupe) (h : Word) :
    (s.modTroupe id g).lookup t h = s.lookup t h := by
  have hsel : ∀ v, ((if v.id = id then g v else v).id = v.id ∧ (if v.id = id then g v else v).ens = v.ens ∧
      (if v.id = id then g v else v).futures = v.futures ∧ (if v.id = id then g v else v).place = v.place ∧
      (if v.id = id then g v else v).run = v.run) := fun v => by
    split
    · exact hg v
    · exact ⟨rfl, rfl, rfl, rfl, rfl⟩
  have hid := fun v => (hsel v).1
  have hens := fun v => (hsel v).2.1
  have hfut := fun v => (hsel v).2.2.1
  have hplace := fun v => (hsel v).2.2.2.1
  have hrun := fun v => (hsel v).2.2.2.2
  unfold State.lookup
  simp only [State.modTroupe, State.ens?, List.filter_map, List.find?_map, List.any_map, Function.comp_def, hens, hfut, hplace,
    hrun]
  split
  · rfl
  · cases List.find? _ _ with
    | none => rfl
    | some v => simp only [Option.map_some, hid, hfut]

theorem State.justDone_modTroupe (s : State) (id : Nat) (g : Troupe → Troupe) (hg : ∀ v, (g v).ens = v.ens ∧
    (g v).futures = v.futures) (t : Troupe) (h : Word) : (s.modTroupe id g).justDone t h = s.justDone t h := by
  have hsel : ∀ v, (if v.id = id then g v else v).ens = v.ens ∧ (if v.id = id then g v else v).futures = v.futures := fun v => by
    split
    · exact hg v
    · exact ⟨rfl, rfl⟩
  have hens := fun v => (hsel v).1
  have hfut := fun v => (hsel v).2
  unfold State.justDone
  simp only [State.modTroupe, State.ens?, List.filter_map, List.findSome?_map, Function.comp_def, hens, hfut]

/-- The issuing troupe at the start of an issue. -/
def Troupe.issuing (t : Troupe) (p : Path) (x : Ins) (u : Use) (now : Nat) (v : Troupe) : Troupe :=
  (v.markErrors (t.pathLanes p) x u (t.guarded (t.pathLanes p) x)).modPath p.sel fun q => q.issued now x

theorem State.start_issuing (s : State) (t : Troupe) (p : Path) (x : Ins) (u : Use) :
    (s.modTroupe t.id (t.issuing p x u s.now)).Logged (s.start t p x u) := s.start_logged t p x u

theorem State.lookup_start (s : State) (t : Troupe) (p : Path) (x : Ins) (u : Use) (v : Troupe) (h : Word) :
    (s.start t p x u).lookup v h = s.lookup v h := by
  rw [(s.start_issuing t p x u).1]
  exact s.lookup_modTroupe t.id (t.issuing p x u s.now) (fun _ => ⟨rfl, rfl, rfl, rfl, rfl⟩) v h

theorem State.justDone_start (s : State) (t : Troupe) (p : Path) (x : Ins) (u : Use) (v : Troupe) (h : Word) :
    (s.start t p x u).justDone v h = s.justDone v h := by
  rw [(s.start_issuing t p x u).1]
  exact s.justDone_modTroupe t.id (t.issuing p x u s.now) (fun _ => ⟨rfl, rfl⟩) v h

/-- A future entry that has been freed. -/
def FutureEntry.freed (f : FutureEntry) : FutureEntry :=
  { f with gen := f.gen + 1, busy := false, status := 0, value := 0, mark := none }

/-- A change of a troupe that frees an entry, and leaves its registers and paths. -/
structure Frees (e : Nat) (g : Troupe → Troupe) : Prop where
  id : ∀ v, (g v).id = v.id
  lanes : ∀ v, (g v).lanes = v.lanes
  paths : ∀ v, (g v).paths = v.paths
  futures : ∀ v, (g v).futures = lmod FutureEntry.freed v.futures e
  ops : ∀ v, ∀ w ∈ (g v).ops, ∃ w' ∈ v.ops, w.done = w'.done ∧ w.cancelled = w'.cancelled

/-- A troupe of which an entry has been freed. -/
def Troupe.entryFreed (e : Nat) (t : Troupe) : Troupe :=
  { t with futures := lmod (fun f => { f with gen := f.gen + 1, busy := false, status := 0, value := 0, mark := none })
             t.futures e
           ops := t.ops.map fun o => if o.future = some e then
               { o with future := none, mark := if o.done then none else (lget FutureEntry.new t.futures e).mark }
             else o }

/-- A troupe whose operation with an entry has handed over its fault. -/
def Troupe.opFaultTaken (e : Nat) (t : Troupe) : Troupe :=
  { t with ops := t.ops.map fun o => if o.future = some e then { o with fault := none } else o }

/-- The operations of a troupe are those of another, as done and as cancelled as they were. -/
def Troupe.OpsFrom (t v : Troupe) : Prop := ∀ w ∈ v.ops, ∃ w' ∈ t.ops, w.done = w'.done ∧ w.cancelled = w'.cancelled

theorem Troupe.OpsFrom.pruned {v : Troupe} (h : t.OpsFrom v) (s : State) : t.OpsFrom (v.pruned s) :=
  fun w hw => h w (List.mem_of_mem_filter hw)

theorem Troupe.OpsFrom.trans {v w : Troupe} (h : t.OpsFrom v) (k : v.OpsFrom w) : t.OpsFrom w := fun x hx => by
  obtain ⟨y, hy, h1, h2⟩ := k x hx
  obtain ⟨z, hz, h3, h4⟩ := h y hy
  exact ⟨z, hz, h1.trans h3, h2.trans h4⟩

theorem Troupe.opsFrom_entryFreed (v : Troupe) (e : Nat) : v.OpsFrom (v.entryFreed e) := fun w hw => by
  obtain ⟨w', hw', rfl⟩ := List.mem_map.mp hw
  exact ⟨w', hw', by split <;> exact ⟨rfl, rfl⟩⟩

theorem Troupe.opsFrom_opFaultTaken (v : Troupe) (e : Nat) : v.OpsFrom (v.opFaultTaken e) := fun w hw => by
  obtain ⟨w', hw', rfl⟩ := List.mem_map.mp hw
  exact ⟨w', hw', by split <;> exact ⟨rfl, rfl⟩⟩

/-- An entry of a troupe that runs, freed: its troupe alone changes. -/
theorem State.freeEntryOf_prune (hu : s.troupe? o = some u) (hrun : u.run = .running)
    (hens : ∀ n, s.ens? u.ens = some n → n.st = .running) (taken : Bool) :
    ∃ g, Frees e g ∧ ((if taken = true then s.takeOpFault o e else s).freeEntryOf o e).prune o = s.modTroupe o g := by
  cases taken with
  | false =>
    refine ⟨fun v => (v.entryFreed e).pruned (s.freeEntryOf o e), ⟨fun _ => rfl, fun _ => rfl, fun _ => rfl, fun _ => rfl,
      fun v => (v.opsFrom_entryFreed e).pruned _⟩, ?_⟩
    refine (State.prune_of_running (State.troupe?_modTroupe_same (Troupe.entryFreed e) hu rfl) hrun hens).trans ?_
    exact State.modTroupe_modTroupe s o (Troupe.entryFreed e) _ fun _ => rfl
  | true =>
    refine ⟨fun v => ((v.opFaultTaken e).entryFreed e).pruned ((s.takeOpFault o e).freeEntryOf o e),
      ⟨fun _ => rfl, fun _ => rfl, fun _ => rfl, fun _ => rfl,
        fun v => ((v.opsFrom_opFaultTaken e).trans (Troupe.opsFrom_entryFreed _ e)).pruned _⟩, ?_⟩
    refine (State.prune_of_running (State.troupe?_modTroupe_same (Troupe.entryFreed e)
      (State.troupe?_modTroupe_same (Troupe.opFaultTaken e) hu rfl) rfl) hrun hens).trans ?_
    refine (State.modTroupe_modTroupe (s.takeOpFault o e) o (Troupe.entryFreed e) _ fun _ => rfl).trans ?_
    exact State.modTroupe_modTroupe s o (Troupe.opFaultTaken e) _ fun _ => rfl

/-- A troupe as it stands after a change of another or of itself. -/
theorem State.troupe?_modTroupe {j : Nat} (hu : s.troupe? o = some u) (g : Troupe → Troupe) (hg : ∀ v, (g v).id = v.id) :
    (s.modTroupe j g).troupe? o = some (if o = j then g u else u) := by
  split
  next h =>
    subst h
    exact State.troupe?_modTroupe_same g hu (hg u)
  next h => exact (State.troupe?_modTroupe_other g h fun v _ => hg v).trans hu

/-- A troupe's entries and its place stand. -/
def Troupe.SameEntries (u v : Troupe) : Prop := v.futures = u.futures ∧ v.run = u.run ∧ v.ens = u.ens

theorem Troupe.SameEntries.trans {v w : Troupe} (h : u.SameEntries v) (k : v.SameEntries w) : u.SameEntries w := by
  obtain ⟨h1, h2, h3⟩ := h
  obtain ⟨k1, k2, k3⟩ := k
  exact ⟨k1.trans h1, k2.trans h2, k3.trans h3⟩

theorem State.sameEntries_modTroupe {j : Nat} {g : Troupe → Troupe} (hu : s.troupe? o = some u) (hid : ∀ v, (g v).id = v.id)
    (hg : ∀ v : Troupe, v.SameEntries (g v)) : ∃ v, (s.modTroupe j g).troupe? o = some v ∧ u.SameEntries v := by
  refine ⟨_, State.troupe?_modTroupe hu g hid, ?_⟩
  split
  · exact hg u
  · exact ⟨rfl, rfl, rfl⟩

theorem Troupe.sameEntries_advance (v : Troupe) (r : PathSel) : v.SameEntries (v.advance r) := by
  rw [Troupe.advance_frame]
  exact ⟨rfl, rfl, rfl⟩

theorem State.sameEntries_start {p : Path} {x : Ins} {w : Use} (hu : s.troupe? o = some u) :
    ∃ v, (s.start t p x w).troupe? o = some v ∧ u.SameEntries v := by
  rw [(s.start_issuing t p x w).troupe?]
  exact State.sameEntries_modTroupe hu (fun _ => rfl) fun _ => ⟨rfl, rfl, rfl⟩

/-- An instruction that has written registers and gone on leaves every troupe's entries. -/
theorem State.sameEntries_written {r : PathRef} {id : Nat} (m : Word) (g : Nat → List (Nat × Word)) (hu : s.troupe? o = some u) :
    ∃ v, ((s.writeLanes id m g).advance r).troupe? o = some v ∧ u.SameEntries v := by
  obtain ⟨v, hv, hw⟩ := State.sameEntries_modTroupe (j := id) (g := fun t => t.writeLanes m g) hu (fun _ => rfl)
    fun _ => ⟨rfl, rfl, rfl⟩
  obtain ⟨w, hw', hk⟩ := State.sameEntries_modTroupe (j := r.troupe) (g := fun t => t.advance r.sel) hv
    (fun v => v.advance_id r.sel) fun v => v.sameEntries_advance r.sel
  exact ⟨w, hw', hw.trans hk⟩

/-- A troupe whose path has issued an instruction, which has not yet had an effect on it. -/
structure Troupe.Standing (t : Troupe) (p : Path) (now : Nat) (x : Ins) (t1 : Troupe) : Prop where
  path : t1.path? p.sel = some (p.issued now x)
  others : t.OtherPaths t1 p.sel
  length : t1.lanes.length = t.lanes.length
  regs : t.SameRegs t1

theorem Troupe.standing_started {p : Path} (hp : t.path? p.sel = some p) (x : Ins) (w : Use) (now : Nat) :
    t.Standing p now x (t.started p x w now) where
  path := Troupe.started_path? hp x w now
  others := t.started_otherPaths p x w now
  length := by rw [Troupe.started_lanes, Troupe.length_markErrors]
  regs := fun l q => t.reg_started p x w now l q

theorem Troupe.Standing.of_lanes {p : Path} {now : Nat} {x : Ins} {t1 t2 : Troupe} (h : t.Standing p now x t1)
    (hl : t2.lanes = t1.lanes) (hp : t2.paths = t1.paths) : t.Standing p now x t2 where
  path := (Troupe.path?_of_paths_eq hp _).trans h.path
  others := fun q hq => (Troupe.path?_of_paths_eq hp _).trans (h.others q hq)
  length := by rw [hl, h.length]
  regs := fun l q => by
    rw [← h.regs l q, Troupe.reg, Troupe.reg, Troupe.lane, Troupe.lane, hl]

/-- An instruction that writes registers and goes on. -/
theorem State.written_onward {p : Path} {x : Ins} {now : Nat} {t1 : Troupe} (m : Word) (g : Nat → List (Nat × Word))
    (ht : s.troupe? t.id = some t1) (hst : t.Standing p now x t1) :
    ∃ v, ((s.writeLanes t.id m g).advance (refOf t p)).troupe? t.id = some v ∧ t.Onward v p now x ∧
      t.Wrote v m g ∧ (s.writeLanes t.id m g).finish (refOf t p) 0 = (s.writeLanes t.id m g).advance (refOf t p) := by
  obtain ⟨hfin, htroupe, hon⟩ := State.finish_onward (t := t) (p := p) (now := now) (x := x)
    (State.troupe?_modTroupe_same (fun t => t.writeLanes m g) ht rfl) hst.path hst.others
  refine ⟨_, htroupe, hon, fun l r hl => ?_, hfin⟩
  rw [Troupe.reg_advance, Troupe.reg_writeLanes _ _ _ _ _ fun _ => by rw [hst.length]; exact hl, hst.regs]

theorem State.start_ens? (s : State) (t : Troupe) (p : Path) (x : Ins) (u : Use) (j : Nat) :
    (s.start t p x u).ens? j = s.ens? j := by
  rw [(s.start_same t p x u).1]
  rfl

/-- What a final entry gives FWAIT: the instruction goes on, and the entry is free. -/
theorem fwait_frees (x : Ins) (first : Bool) (o e : Nat) (f : FutureEntry) (u : Troupe) : Completes (.fwait x first) x (futureUse x first)
    (fun s t _ act => (s.lookup t (uni t act x.a) = .entry o e f ∧ s.troupe? o = some u ∧ lget FutureEntry.new u.futures e = f ∧
      u.run = .running ∧ (∀ n, s.ens? u.ens = some n → n.st = .running) ∧ e < u.futures.length) ∧
      (f.status.extractLsb' 0 8).toNat ≠ 0)
    fun s t p act s' t' => t.Onward t' p s.now x ∧ (∃ u' ∈ s'.troupe? o, (lget FutureEntry.new u'.futures e).busy = false ∧
      (lget FutureEntry.new u'.futures e).gen = f.gen + 1) ∧ t.Wrote t' act fun _ => wr2 x.d (f.value ++ f.status) := by
  rintro s t p act hs hp ⟨⟨hgot, hu, hf, hrun, hens, hlen⟩, hst⟩
  obtain ⟨-, ht, hpath, -⟩ := id hs
  obtain ⟨v, hv, hon, hw, -⟩ := State.written_onward (p := p) act (fun _ => wr2 x.d (f.value ++ f.status))
    (State.start_troupe? p x (futureUse x first) ht) (Troupe.standing_started hpath x _ s.now)
  obtain ⟨u1, hu1, hw1⟩ := State.sameEntries_start (t := t) (p := p) (x := x) (w := futureUse x first) hu
  obtain ⟨u2, hu2, hw2⟩ := State.sameEntries_written (r := refOf t p) (id := t.id) act
    (fun _ => wr2 x.d (f.value ++ f.status)) hu1
  obtain ⟨h1, h3, h4⟩ := hw1.trans hw2
  obtain ⟨g, hg, heq⟩ := State.freeEntryOf_prune (e := e) hu2 (h3.trans hrun)
    (by rw [h4]; intro n hn; exact hens n ((s.start_ens? t p x _ _).symm.trans hn)) (f.status.extractLsb' 0 8 == 3)
  have hne : f.status.extractLsb' 0 8 ≠ 0 := fun h => hst (by rw [h]; rfl)
  refine ⟨_, _, ?_, State.troupe?_modTroupe (j := o) hv g hg.id, ?_, ?_, ?_⟩
  · show execFwait x first s = _
    rw [execFwait, State.gate_of_passes hs hp]
    dsimp only
    rw [State.lookup_start, hgot]
    dsimp only
    rw [if_neg hne, ← heq]
    simp only [beq_iff_eq]
  · intro hr
    obtain ⟨ha, hb⟩ := hon hr
    have hpaths : (if t.id = o then g v else v).paths = v.paths := by
      split
      · exact hg.paths v
      · rfl
    exact ⟨(Troupe.path?_of_paths_eq hpaths _).trans ha, fun q hq => (Troupe.path?_of_paths_eq hpaths _).trans (hb q hq)⟩
  · refine ⟨_, State.troupe?_modTroupe_same g hu2 (hg.id _), ?_⟩
    rw [hg.futures, h1, lget_lmod, if_pos ⟨rfl, hlen⟩, hf]
    exact ⟨rfl, rfl⟩
  · intro l r hl
    have hreg : (if t.id = o then g v else v).reg l r = v.reg l r := by
      split
      · rw [Troupe.reg, Troupe.reg, Troupe.lane, Troupe.lane, hg.lanes]
      · rfl
    exact hreg.trans (hw l r hl)

theorem fwait_waits (x : Ins) (first : Bool) (o e : Nat) (f : FutureEntry) (u : Troupe) : Completes (.fwait x first) x (futureUse x first)
    (fun s t _ act => (s.lookup t (uni t act x.a) = .entry o e f ∧ s.troupe? o = some u ∧ lget FutureEntry.new u.futures e = f ∧
      u.run = .running ∧ (∀ n, s.ens? u.ens = some n → n.st = .running) ∧ e < u.futures.length) ∧
      (f.status.extractLsb' 0 8).toNat = 0)
    fun s t p act _ t' => t.Waits t' p s.now x (.fwait o e f.gen x.d.toNat act) := by
  rintro s t p act hs hp ⟨⟨hgot, -⟩, hst⟩
  obtain ⟨-, ht, hpath, -⟩ := id hs
  have hzero : f.status.extractLsb' 0 8 = 0 := BitVec.eq_of_toNat_eq hst
  refine ⟨_, (t.started p x (futureUse x first) s.now).modPath p.sel fun q => { q with wait := .fwait o e f.gen x.d.toNat act }, ?_,
    State.troupe?_modTroupe_same (fun v => v.modPath p.sel fun q => { q with wait := .fwait o e f.gen x.d.toNat act })
      (State.start_troupe? p x _ ht) rfl,
    Troupe.path?_modPath_same _ (Troupe.started_path? hpath x _ s.now) rfl,
    Troupe.otherPaths_modPath (t.started_otherPaths p x _ s.now) fun _ => rfl, fun l r => t.reg_started p x _ s.now l r⟩
  show execFwait x first s = _
  rw [execFwait, State.gate_of_passes hs hp]
  dsimp only
  rw [State.lookup_start, hgot]
  dsimp only
  rw [if_pos hzero]
  exact congrArg _ (State.waitAt_zero (r := refOf t p) (State.start_troupe? p x _ ht) (Troupe.started_path? hpath x _ s.now) _)

theorem fwait_stale (x : Ins) (first : Bool) : Completes (.fwait x first) x (futureUse x first)
    (fun s t _ act => s.lookup t (uni t act x.a) = .stale ∧ s.justDone t (uni t act x.a) = none)
    fun s t p act _ t' => t.Onward t' p s.now x ∧ t.Wrote t' act fun _ => wr2 x.d 4 := by
  rintro s t p act hs hp ⟨hgot, hdone⟩
  obtain ⟨-, ht, hpath, -⟩ := id hs
  obtain ⟨v, hv, hon, hw, -⟩ := State.written_onward (p := p) act (fun _ => wr2 x.d 4)
    (State.start_troupe? p x (futureUse x first) ht) (Troupe.standing_started hpath x _ s.now)
  refine ⟨_, v, ?_, hv, hon, hw⟩
  show execFwait x first s = _
  rw [execFwait, State.gate_of_passes hs hp]
  dsimp only
  rw [State.lookup_start, hgot, State.justDone_start, hdone]

theorem ftest_returns (x : Ins) (first : Bool) (o e : Nat) (f : FutureEntry) (u : Troupe) : Completes (.ftest x first) x (futureUse x first)
    (fun s t _ act => s.lookup t (uni t act x.a) = .entry o e f ∧ s.troupe? o = some u ∧ lget FutureEntry.new u.futures e = f ∧
      u.run = .running ∧ (∀ n, s.ens? u.ens = some n → n.st = .running) ∧ e < u.futures.length)
    fun s t p act s' t' => t.Onward t' p s.now x ∧ (∃ u' ∈ s'.troupe? o, lget FutureEntry.new u'.futures e = f) ∧
      t.Wrote t' act fun _ => wr2 x.d (f.value ++ f.status) := by
  rintro s t p act hs hp ⟨hgot, hu, hf, hrun, hens, hlen⟩
  obtain ⟨-, ht, hpath, -⟩ := id hs
  have hstart := State.start_troupe? p x (futureUse x first) ht
  have hstand := Troupe.standing_started hpath x (futureUse x first) s.now
  obtain ⟨u1, hu1, hw1⟩ := State.sameEntries_start (t := t) (p := p) (x := x) (w := futureUse x first) hu
  obtain ⟨s1, hs1, t1, ht1, hst1, u2, hu2, hw2⟩ : ∃ s1, (if f.status.extractLsb' 0 8 = 3 then
      (s.start t p x (futureUse x first)).takeOpFault o e else s.start t p x (futureUse x first)) = s1 ∧
      ∃ t1, s1.troupe? t.id = some t1 ∧ t.Standing p s.now x t1 ∧ ∃ v, s1.troupe? o = some v ∧ u1.SameEntries v := by
    refine ⟨_, rfl, ?_⟩
    split
    · refine ⟨_, State.troupe?_modTroupe hstart (Troupe.opFaultTaken e) fun _ => rfl, ?_,
        State.sameEntries_modTroupe (g := Troupe.opFaultTaken e) hu1 (fun _ => rfl) fun _ => ⟨rfl, rfl, rfl⟩⟩
      · split
        · exact hstand.of_lanes rfl rfl
        · exact hstand
    · exact ⟨_, hstart, hstand, u1, hu1, rfl, rfl, rfl⟩
  obtain ⟨v, hv, hon, hw, hfin⟩ := State.written_onward act (fun _ => wr2 x.d (f.value ++ f.status)) ht1 hst1
  obtain ⟨u3, hu3, hw3⟩ := State.sameEntries_written (r := refOf t p) (id := t.id) act
    (fun _ => wr2 x.d (f.value ++ f.status)) hu2
  refine ⟨_, v, ?_, hv, hon, ⟨u3, hu3, ?_⟩, hw⟩
  · show execFtest x first s = _
    rw [← hfin]
    refine runEff_of_passes _ hs hp ?_
    dsimp only
    rw [State.lookup_start, hgot]
    dsimp only
    rw [hs1]
  · rw [((hw1.trans hw2).trans hw3).1, hf]

/-- A word whose bits 31:30 are not 2 is no handle. -/
theorem State.lookup_of_not_handle (s : State) (t : Troupe) (h : Word) (hh : (h.extractLsb' 30 2).toNat ≠ 2) :
    s.lookup t h = .invalid := by
  unfold State.lookup
  exact if_pos fun he => hh (by rw [he]; rfl)

end

end Sys2Proof.Machine
end

section
namespace Sys2Proof.Machine

/-! ### FCANCEL -/

section
variable {s : State} {t u : Troupe} {o e : Nat} {f : FutureEntry} {v : Op}

theorem State.opOver_congr {s' : State} (hl : ∀ d ln, s'.line? d ln = s.line? d ln) (hr : ∀ d, (s'.die d).reqs = (s.die d).reqs)
    (hn : s'.now = s.now) (v : Op) : s'.opOver v = s.opOver v := by
  unfold State.opOver State.linesOver State.openByte State.poolDone State.sending
  simp only [hl, hr, hn]

theorem State.opOver_start (s : State) (t : Troupe) (p : Path) (x : Ins) (u : Use) (v : Op) :
    (s.start t p x u).opOver v = s.opOver v := by
  obtain ⟨hs, hd⟩ := s.start_same t p x u
  refine State.opOver_congr (fun d ln => ?_) (fun d => ?_) ?_ v
  · rw [State.line?, hd d]
    rfl
  · rw [hd d]
  · rw [hs]

theorem State.NoFwait.start (h : s.NoFwait o e) (t : Troupe) (p : Path) (x : Ins) (u : Use) :
    (s.start t p x u).NoFwait o e := by
  intro w hw q hq g d ls
  rw [(s.start_issuing t p x u).1] at hw
  obtain ⟨w', hw', rfl⟩ := List.mem_map.mp hw
  split at hq
  · obtain ⟨q', hq', rfl⟩ := List.mem_map.mp hq
    split
    · exact nofun
    · exact h w' hw' q' hq' g d ls
  · exact h w' hw' q hq g d ls

/-- The troupe of an operation that FCANCEL stops. -/
def Troupe.cancelling (op n : Nat) (t : Troupe) : Troupe :=
  Troupe.overWith op 2 n { t with ops := t.ops.map fun v => if v.id = op then { v with cancelled := true } else v }

/-- A change of a troupe that leaves its registers and its paths. -/
def Troupe.SamePlace (t w : Troupe) : Prop :=
  w.id = t.id ∧ w.lanes = t.lanes ∧ w.paths = t.paths ∧ w.run = t.run ∧ w.ens = t.ens

theorem Troupe.SamePlace.trans {t v w : Troupe} (h : t.SamePlace v) (k : v.SamePlace w) : t.SamePlace w := by
  obtain ⟨h1, h2, h3, h4, h5⟩ := h
  obtain ⟨k1, k2, k3, k4, k5⟩ := k
  exact ⟨k1.trans h1, k2.trans h2, k3.trans h3, k4.trans h4, k5.trans h5⟩

theorem Troupe.samePlace_cancelling (t : Troupe) (op n : Nat) : t.SamePlace (t.cancelling op n) := ⟨rfl, rfl, rfl, rfl, rfl⟩

theorem Troupe.samePlace_faultTaken (t : Troupe) (op : Nat) : t.SamePlace (t.faultTaken op) := ⟨rfl, rfl, rfl, rfl, rfl⟩

theorem Troupe.samePlace_finished (t : Troupe) (now op e k : Nat) (st val : Word) :
    t.SamePlace (t.finished_ now op e k st val) := ⟨rfl, rfl, rfl, rfl, rfl⟩

theorem Troupe.samePlace_pruned (t : Troupe) (s : State) : t.SamePlace (t.pruned s) := ⟨rfl, rfl, rfl, rfl, rfl⟩

/-- The troupe of an operation that FCANCEL has stopped, once it has ended with its entry. -/
def Troupe.cancelled_ (s1 : State) (now op e k : Nat) (st val : Word) (t : Troupe) : Troupe :=
  (((t.cancelling op k).faultTaken op).finished_ now op e k st val).pruned s1

section
variable (s1 : State) (now op k : Nat) (st val : Word) (t : Troupe)

theorem Troupe.samePlace_cancelled : t.SamePlace (t.cancelled_ s1 now op e k st val) :=
  (((t.samePlace_cancelling op k).trans (Troupe.samePlace_faultTaken _ op)).trans
    (Troupe.samePlace_finished _ now op e k st val)).trans (Troupe.samePlace_pruned _ s1)

theorem Troupe.cancelled_futures :
    (t.cancelled_ s1 now op e k st val).futures = lmod (FutureEntry.ended now st val) t.futures e := by
  have h1 : (t.cancelling op k).futures = t.futures := rfl
  have h2 : ((t.cancelling op k).faultTaken op).futures = (t.cancelling op k).futures := rfl
  rw [← h1, ← h2]
  rfl

theorem Troupe.cancelled_ops (hops : t.ops = [v]) (hid : v.id = op) :
    ∀ w ∈ (t.cancelled_ s1 now op e k st val).ops, w.done = true ∧ w.cancelled = true := by
  intro w hw
  have hm := List.mem_of_mem_filter hw
  simp only [Troupe.finished_, Troupe.faultTaken, Troupe.cancelling, Troupe.overWith, Op.overWith, hops, List.map_cons,
    List.map_nil, hid, if_true, List.mem_singleton] at hm
  rw [hm]
  exact ⟨rfl, rfl⟩

end

/-- A GATHER that is stopped, with every access performed, ends as cancelled. -/
theorem State.finishOp_cancelled {op : Nat} (hu : s.troupe? o = some u) (hrun : u.run = .running)
    (hens : ∀ n, s.ens? u.ens = some n → n.st = .running) (hops : u.ops = [v]) (hid : v.id = op) (hfut : v.future = some e)
    (hno : s.NoFwait o e) (k : Nat) :
    ∃ s1 st val, ((s.modTroupe o (Troupe.cancelling op k)).modTroupe o (Troupe.faultTaken op)).finishOp o op 2 k false =
      s.modTroupe o (Troupe.cancelled_ s1 s.now op e k st val) := by
  have hu3 : ((s.modTroupe o (Troupe.cancelling op k)).modTroupe o (Troupe.faultTaken op)).troupe? o =
      some ((u.cancelling op k).faultTaken op) := State.troupe?_modTroupe_same (Troupe.faultTaken op)
    (State.troupe?_modTroupe_same (Troupe.cancelling op k) hu rfl) rfl
  have hops3 : ((u.cancelling op k).faultTaken op).ops =
      [{ v with cancelled := true, ends := some (2, k, none), fault := none }] := by
    simp [Troupe.faultTaken, Troupe.cancelling, Troupe.overWith, Op.overWith, hops, hid]
  obtain ⟨s1, hfin⟩ := State.finishOp_eq (e := e) (op := op) hu3 hrun hens hops3 hid hfut
    ((hno.modTroupe (f := Troupe.cancelling op k) fun _ => rfl).modTroupe (f := Troupe.faultTaken op) fun _ => rfl) rfl
    (status := 2) (by decide) k false
  rw [hfin]
  generalize BitVec.ofNat 32 (2 + if false = true then 256 else 0) = st
  generalize BitVec.ofNat 32 k = val
  refine ⟨s1, st, val, ?_⟩
  refine (State.modTroupe_modTroupe _ o (Troupe.faultTaken op) _ fun _ => rfl).trans ?_
  exact State.modTroupe_modTroupe s o (Troupe.cancelling op k) _ fun _ => rfl

/-- The end of a GATHER that has been cancelled: its entry is freed. -/
theorem State.tryFinish_cancelled {s4 : State} {u4 : Troupe} {id op i a b n z m st k : Nat} (hof : s.opOf id op = some (u, v))
    (hends : v.ends = some (st, k, none)) (hdone : v.done = false) (hover : s.opOver v = true) (hkind : v.kind = .gather i a b n z m)
    (hcan : v.cancelled = true) (hfut : v.future = some e)
    (hfin : (s.modTroupe id (Troupe.faultTaken op)).finishOp id op st k false = s4) (hu4 : s4.troupe? id = some u4)
    (hheld : (lget FutureEntry.new u4.futures e).busy = true ∧
      (lget FutureEntry.new u4.futures e).gen = (lget FutureEntry.new u.futures e).gen) :
    s.tryFinish id op = (s4.freeEntryOf id e).prune id := by
  have hmod : (s.modOp id op fun o => { o with fault := none }) = s.modTroupe id (Troupe.faultTaken op) := rfl
  rw [State.tryFinish, hof]
  dsimp only
  rw [hends]
  dsimp only
  rw [if_neg (by rw [hdone, hover]; exact fun h => h.elim nofun nofun), hkind, hcan, hfut]
  dsimp only
  rw [hmod, hfin, hu4]
  dsimp only
  exact if_pos (by rw [hheld.1, hheld.2, beq_self_eq_true, Bool.and_self])

/-- A GATHER that is stopped, with every access performed: it ends as cancelled, and its entry is freed. -/
theorem State.cancel_eq {i a b n z m k : Nat} (hu : s.troupe? o = some u) (hrun : u.run = .running)
    (hens : ∀ n, s.ens? u.ens = some n → n.st = .running) (hops : u.ops = [v]) (hdone : v.done = false)
    (hkind : v.kind = .gather i a b n z m) (hover : s.opOver v = true) (hfut : v.future = some e) (hlen : e < u.futures.length)
    (hbusy : (lget FutureEntry.new u.futures e).busy = true) (hno : s.NoFwait o e) :
    ∃ g : Troupe → Troupe, (∀ w, (g w).id = w.id ∧ (g w).lanes = w.lanes ∧ (g w).paths = w.paths) ∧
      ((lget FutureEntry.new (g u).futures e).busy = false ∧
        (lget FutureEntry.new (g u).futures e).gen = (lget FutureEntry.new u.futures e).gen + 1) ∧
      (∀ w ∈ (g u).ops, w.done = true ∧ w.cancelled = true) ∧
      ((s.modOp o v.id fun v => { v with cancelled := true }).endWork o v.id 2 k none).tryFinish o v.id = s.modTroupe o g := by
  have hs2 : (s.modOp o v.id fun v => { v with cancelled := true }).endWork o v.id 2 k none =
      s.modTroupe o (Troupe.cancelling v.id k) := State.modTroupe_modTroupe s o _ _ fun _ => rfl
  have hops2 : (u.cancelling v.id k).ops = [{ v with cancelled := true, ends := some (2, k, none) }] := by
    simp [Troupe.cancelling, Troupe.overWith, Op.overWith, hops]
  have hu2 : (s.modTroupe o (Troupe.cancelling v.id k)).troupe? o = some (u.cancelling v.id k) :=
    State.troupe?_modTroupe_same (Troupe.cancelling v.id k) hu rfl
  have hof : (s.modTroupe o (Troupe.cancelling v.id k)).opOf o v.id =
      some (u.cancelling v.id k, { v with cancelled := true, ends := some (2, k, none) }) := by
    rw [State.opOf, hu2]
    simp [Troupe.op?, hops2]
  obtain ⟨s1, st, val, hfin⟩ := State.finishOp_cancelled hu hrun hens hops rfl hfut hno k
  have hu4 : (s.modTroupe o (Troupe.cancelled_ s1 s.now v.id e k st val)).troupe? o = some (u.cancelled_ s1 s.now v.id e k st val) :=
    State.troupe?_modTroupe_same (Troupe.cancelled_ s1 s.now v.id e k st val) hu (Troupe.samePlace_cancelled ..).1
  have hentry : lget FutureEntry.new (u.cancelled_ s1 s.now v.id e k st val).futures e =
      (lget FutureEntry.new u.futures e).ended s.now st val := by
    rw [Troupe.cancelled_futures, lget_lmod, if_pos ⟨rfl, hlen⟩]
  obtain ⟨-, -, -, hrun4, hens4⟩ := Troupe.samePlace_cancelled s1 s.now v.id k st val u (e := e)
  obtain ⟨g, hg, hfree⟩ := State.freeEntryOf_prune (e := e) hu4 (hrun4.trans hrun) (by
    intro n hn
    rw [hens4] at hn
    exact hens n hn) false
  refine ⟨fun w => g (w.cancelled_ s1 s.now v.id e k st val),
    fun w => ?_, ?_, fun w hw => ?_, ?_⟩
  · obtain ⟨h1, h2, h3, -⟩ := Troupe.samePlace_cancelled s1 s.now v.id k st val w (e := e)
    exact ⟨(hg.id _).trans h1, (hg.lanes _).trans h2, (hg.paths _).trans h3⟩
  · rw [hg.futures, lget_lmod, if_pos ⟨rfl, by rw [Troupe.cancelled_futures, lmod_length]; exact hlen⟩, hentry]
    exact ⟨rfl, rfl⟩
  · obtain ⟨w', hw', hd, hc⟩ := hg.ops _ w hw
    rw [hd, hc]
    exact Troupe.cancelled_ops s1 s.now v.id k st val u hops rfl w' hw'
  · rw [hs2, State.tryFinish_cancelled hof rfl hdone (by exact hover) hkind rfl hfut hfin hu4
      ⟨by rw [hentry]; exact hbusy, by rw [hentry]; rfl⟩]
    refine Eq.trans hfree ?_
    exact State.modTroupe_modTroupe s o (Troupe.cancelled_ s1 s.now v.id e k st val) g fun _ =>
      (Troupe.samePlace_cancelled ..).1

theorem Troupe.opsFrom_advance (t : Troupe) (r : PathSel) : t.OpsFrom (t.advance r) := by
  have hbranch : ∀ (u : Troupe) n o, (u.settleBranch n o).ops = u.ops := by
    intro u n o
    unfold Troupe.settleBranch
    split
    · rfl
    · split <;> rfl
  have hback : ∀ k, t.OpsFrom (t.rejoin k) := by
    intro k
    unfold Troupe.rejoin
    split
    · exact fun w hw => ⟨w, hw, rfl, rfl⟩
    · intro w hw
      obtain ⟨w1, hw1, rfl⟩ := List.mem_map.mp hw
      obtain ⟨w2, hw2, rfl⟩ := List.mem_map.mp hw1
      exact ⟨w2, hw2, rfl, rfl⟩
  unfold Troupe.advance
  split
  · exact fun w hw => ⟨w, hw, rfl, rfl⟩
  · split
    · split
      · unfold Troupe.endHandler
        split
        · exact fun w hw => ⟨w, hw, rfl, rfl⟩
        · intro w hw
          rw [hbranch] at hw
          exact hback _ w hw
      · exact fun w hw => ⟨w, hw, rfl, rfl⟩
    · exact fun w hw => ⟨w, hw, rfl, rfl⟩

theorem fcancel_frees (x : Ins) (first : Bool) (o e : Nat) (f : FutureEntry) (u : Troupe) (v : Op) (i a b n z m : Nat) :
    Completes (.fcancel x first) x (Use.cmd [] [(x.a, 1)] first)
      (fun s t _ act => (s.lookup t (uni t act x.a) = .entry o e f ∧ s.troupe? o = some u ∧ lget FutureEntry.new u.futures e = f ∧
        u.run = .running ∧ (∀ n, s.ens? u.ens = some n → n.st = .running) ∧ e < u.futures.length) ∧
        f.busy = true ∧ (f.status.extractLsb' 0 8).toNat = 0 ∧ s.Unawaited u v e ∧ u.ops = [v] ∧ v.done = false ∧
        v.fault = none ∧ v.ends = none ∧ v.kind = .gather i a b n z m ∧ s.opOver v = true)
      fun s t p _ s' t' => t.OnwardOnly t' p s.now x ∧ (∃ u' ∈ s'.troupe? o, (lget FutureEntry.new u'.futures e).busy = false ∧
        (lget FutureEntry.new u'.futures e).gen = f.gen + 1) ∧
        ∀ u' ∈ s'.troupe? o, ∀ v' ∈ u'.ops, v'.done = true ∧ v'.cancelled = true := by
  rintro s t p act hs hp ⟨⟨hgot, hu, hf, hrun, hens, hlen⟩, hbusy, hst, ⟨hfut, -, -, hno⟩, hops, hdone, -, hends, hkind, hover⟩
  obtain ⟨-, ht, hpath, -⟩ := id hs
  have huid : u.id = o := by simpa using List.find?_some hu
  subst huid
  set w := Use.cmd [] [(x.a, 1)] first with hwdef
  set u1 : Troupe := if u.id = t.id then t.issuing p x w s.now u else u with hu1def
  have hu1 : (s.start t p x w).troupe? u.id = some u1 := by
    rw [(s.start_issuing t p x w).troupe?]
    exact State.troupe?_modTroupe hu (t.issuing p x w s.now) fun _ => rfl
  obtain ⟨hfut1, hops1, hrun1, hens1⟩ : u1.futures = u.futures ∧ u1.ops = u.ops ∧ u1.run = u.run ∧ u1.ens = u.ens := by
    rw [hu1def]
    split
    · exact ⟨rfl, rfl, rfl, rfl⟩
    · exact ⟨rfl, rfl, rfl, rfl⟩
  obtain ⟨g, hg, hfree, hgops, hstop⟩ := State.cancel_eq (k := m + v.ahead.length) (e := e) hu1 (hrun1.trans hrun)
    (by rw [hens1]; intro n hn; exact hens n ((s.start_ens? t p x w _).symm.trans hn)) (hops1.trans hops) hdone hkind
    ((s.opOver_start t p x w v).trans hover) hfut (by rw [hfut1]; exact hlen) (by rw [hfut1, hf]; exact hbusy)
    (State.NoFwait.start hno t p x w)
  have hstand := Troupe.standing_started hpath x w s.now
  have htroupe := State.troupe?_modTroupe (j := u.id) (State.start_troupe? p x w ht) g fun w => (hg w).1
  have hstand1 : t.Standing p s.now x (if t.id = u.id then g (t.started p x w s.now) else t.started p x w s.now) := by
    split
    · exact hstand.of_lanes (hg _).2.1 (hg _).2.2
    · exact hstand
  obtain ⟨hfin, hadv, hon⟩ := State.finish_onward htroupe hstand1.path hstand1.others
  have hu2 := State.troupe?_modTroupe_same (s := s.start t p x w) g hu1 (hg u1).1
  have hu3 := State.troupe?_modTroupe (j := t.id) hu2 (fun v => v.advance p.sel) fun v => v.advance_id p.sel
  refine ⟨_, _, ?_, hadv, ⟨hon, fun l r => ?_⟩, ⟨_, hu3, ?_⟩, fun u' hu' v' hv' => ?_⟩
  · show execFcancel x first s = _
    rw [← hfin]
    refine runEff_of_passes _ hs hp ?_
    dsimp only
    rw [State.lookup_start, hgot]
    dsimp only
    rw [hu1, Option.bind_some, hops1, hops, List.find?_cons_of_pos (by simp [hfut])]
    dsimp only
    rw [if_neg (by simp [hdone, show f.status.extractLsb' 0 8 = 0 from BitVec.eq_of_toNat_eq hst]), hkind, hends]
    dsimp only
    rw [hstop]
  · rw [Troupe.reg_advance, hstand1.regs]
  · have hsame : (if u.id = t.id then (g u1).advance p.sel else g u1).futures = (g u1).futures := by
      split
      · exact ((g u1).sameEntries_advance p.sel).1
      · rfl
    rw [hsame]
    exact ⟨hfree.1, by rw [hfree.2, hfut1, hf]⟩
  · obtain rfl := Option.some.inj (hu3.symm.trans hu')
    have hfrom : (g u1).OpsFrom (if u.id = t.id then (g u1).advance p.sel else g u1) := by
      split
      · exact (g u1).opsFrom_advance p.sel
      · exact fun w hw => ⟨w, hw, rfl, rfl⟩
    obtain ⟨v1, hv1, hd, hc⟩ := hfrom v' hv'
    rw [hd, hc]
    exact hgops v1 hv1

end

end Sys2Proof.Machine
end

section
namespace Sys2Proof.Machine

/-! ### What the accesses of an engine leave as it was -/

section
variable {z s s' : State} {w : Asker} {t : Troupe} {g : Target}

/-- No line of a slice has been brought for an asker alone. -/
def State.FreeOf (w : Asker) (s : State) : Prop := ∀ d, ∀ e ∈ (s.die d).l2, e.2.once ≠ some w

/-- A step of an engine's access: troupes stand, and of the sections all but their allotments; no line is brought for its
asker alone. -/
structure State.Steps (w : Asker) (z s : State) : Prop where
  troupes : s.troupes = z.troupes
  ens : ∀ n, (s.ens? n).map Ensemble.st = (z.ens? n).map Ensemble.st
  sect : ∀ n k, s.sect n k = { z.sect n k with allot := (s.sect n k).allot }
  free : z.FreeOf w → s.FreeOf w

theorem State.Steps.refl (w : Asker) (s : State) : s.Steps w s := ⟨rfl, fun _ => rfl, fun _ _ => rfl, id⟩

theorem State.Steps.trans (h : z.Steps w s) (k : s.Steps w s') : z.Steps w s' where
  troupes := k.troupes.trans h.troupes
  ens := fun n => (k.ens n).trans (h.ens n)
  sect := fun n j => by rw [k.sect n j, h.sect n j]
  free := fun hz => k.free (h.free hz)

theorem State.Steps.of_kept (h : z.Kept s) (hf : z.FreeOf w → s.FreeOf w) : z.Steps w s where
  troupes := h.troupes
  ens := fun n => by
    rw [State.ens?, h.ens]
    rfl
  sect := fun n k => by
    have hs : s.sect n k = z.sect n k := by rw [State.sect, State.ens?, h.ens]; rfl
    rw [hs]
  free := hf

theorem State.freeOf_of_dies (h : s.FreeOf w) (hd : s'.dies = s.dies) : s'.FreeOf w := fun d => by
  rw [State.die, hd]
  exact h d

theorem State.freeOf_modDie {d : Nat} {f : Die → Die} (h : s.FreeOf w)
    (hf : ∀ D : Die, (∀ e ∈ D.l2, e.2.once ≠ some w) → ∀ e ∈ (f D).l2, e.2.once ≠ some w) : (s.modDie d f).FreeOf w := fun j => by
  rw [State.die_modDie]
  split
  · exact hf _ (h j)
  · exact h j

theorem State.FreeOf.line {d ln : Nat} {l : L2Line} (h : s.FreeOf w) (hl : s.line? d ln = some l) : l.once ≠ some w :=
  h d _ (mfind_mem hl)

theorem State.FreeOf.putLine {d ln : Nat} {l : L2Line} (h : s.FreeOf w) (hl : l.once ≠ some w) : (s.putLine d ln l).FreeOf w :=
  State.freeOf_modDie h fun D hD e he => by
    obtain rfl | he := mem_mput he
    · exact hl
    · exact hD e he

theorem State.FreeOf.ask {d ln : Nat} {k : CxlReq} {who : Asker} {keep : Bool} (h : s.FreeOf w) : (s.ask d ln k who keep).FreeOf w := by
  unfold State.ask
  split
  · exact State.freeOf_modDie h fun _ hD => hD
  · exact State.freeOf_modDie (State.freeOf_modDie h fun _ hD => hD) fun _ hD => hD

theorem State.FreeOf.countDie {d k n : Nat} (h : s.FreeOf w) : (s.countDie d k n).FreeOf w :=
  State.freeOf_modDie h fun _ hD => hD

/-- A line that a read finds, and the state. -/
theorem State.FreeOf.lineRead {d ln : Nat} {coh : Bool} {offs : List Nat} {who : Asker} {keep : Bool} {l : L2Line} (h : s.FreeOf w)
    (hr : s.lineRead d ln coh offs who keep = .ready s' l) : s'.FreeOf w := by
  unfold State.lineRead at hr
  split at hr
  · split at hr
    · cases hr
    · split at hr
      · cases hr
      · cases hr
        exact h
  · split at hr
    · cases hr
    · split at hr
      · cases hr
      · split at hr
        · cases hr
        · split at hr
          · cases hr
          · cases hr
            refine State.FreeOf.countDie ?_
            split
            · exact h.putLine nofun
            · exact h

theorem State.FreeOf.lineWrite {d ln : Nat} {coh : Bool} {who : Asker} {keep : Bool} {l : L2Line} (h : s.FreeOf w)
    (hr : s.lineWrite d ln coh who keep = .ready s' l) : s'.FreeOf w ∧ l.once ≠ some w := by
  unfold State.lineWrite at hr
  split at hr
  next v hv =>
    have hon := h.line hv
    split at hr
    · cases hr
    · split at hr
      · split at hr <;> cases hr
        · exact ⟨h, hon⟩
        · exact ⟨h, hon⟩
        · exact ⟨h.ask, hon⟩
        · exact ⟨h.ask, hon⟩
        · exact ⟨h.ask, hon⟩
      · cases hr
        exact ⟨h, hon⟩
  · split at hr
    · cases hr
    · split at hr
      · cases hr
      · split at hr
        · cases hr
        · split at hr
          · cases hr
            exact ⟨h.ask, nofun⟩
          · cases hr
            exact ⟨h.countDie, nofun⟩

theorem State.FreeOf.commitWrite {d c home ln off : Nat} {l : L2Line} {b : Byte} (h : s.FreeOf w) (hl : l.once ≠ some w) :
    (s.commitWrite d c home ln l off [b] 1).1.FreeOf w := by
  unfold State.commitWrite
  extract_lets _ _ _ s1
  have h1 : s1.FreeOf w := State.FreeOf.putLine (State.freeOf_of_dies h rfl) (by
    show (l.write off [b] 1).once ≠ some w
    rw [(l.write_one off b).2.2]
    exact hl)
  exact State.freeOf_modDie h1 fun _ hD => hD

theorem State.steps_takes (s : State) (sp : Spot) (k : Nat) : s.Steps w (s.takes sp k) :=
  .of_kept (kept_takes (State.Kept.refl s)) fun h => State.freeOf_of_dies h (s.takes_dies sp k)

theorem State.steps_touchPage (s : State) (sid va d : Nat) : s.Steps w (s.touchPage sid va d) :=
  .of_kept (kept_touchPage (State.Kept.refl s)) fun h => State.freeOf_of_dies h (s.touchPage_dies sid va d)

theorem State.steps_traffic (s : State) (d h n : Nat) (write : Bool) : s.Steps w (s.traffic d h n write) :=
  .of_kept (kept_countDie (State.Kept.refl s)) fun h => h.countDie

theorem State.steps_passChan (s : State) (src dst : Nat) (r : ChanReq) (k : Nat) : s.Steps w (s.passChan src dst r k).1 := by
  unfold State.passChan
  dsimp only
  split
  · exact .refl w s
  · split
    · exact s.steps_takes _ _
    · split
      · exact ⟨rfl, fun _ => rfl, fun _ _ => rfl, id⟩
      · split
        · exact .refl w s
        · exact (s.steps_takes _ _).trans ⟨rfl, fun _ => rfl, fun _ _ => rfl, id⟩

theorem State.steps_enginePass (s : State) (t : Troupe) (who : Asker) (last : Nat) (g : Target) :
    s.Steps w (s.enginePass t who last g).1 := by
  unfold State.enginePass
  split
  · exact .refl w s
  · exact s.steps_passChan _ _ _ _

theorem State.Steps.of_pass {who : Asker} {last va : Nat} {ok : Bool}
    (hp : (s.touchPage (s.sidOf t) va t.die).enginePass t who last g = (s', ok)) : s.Steps w s' := by
  have hpass := (s.touchPage (s.sidOf t) va t.die).steps_enginePass t who last g (w := w)
  rw [hp] at hpass
  exact (s.steps_touchPage (s.sidOf t) va t.die).trans hpass

theorem State.steps_writeTurn (s : State) (t : Troupe) (eng : Bool) (g : Target) : s.Steps w (s.writeTurn t eng g) := by
  unfold State.writeTurn
  dsimp only
  split
  · exact (s.steps_takes _ _).trans (State.steps_takes _ _ _)
  · exact s.steps_takes _ _
  · exact s.steps_takes _ _
  · exact .refl w s

theorem explicitTarget_not_priv {l : Launch} {sp : Space} {off o : Nat} (h : sp ≠ .priv) :
    explicitTarget t l sp off ≠ some (.priv o) := by
  unfold explicitTarget
  cases sp with
  | priv => exact absurd rfl h
  | core | clu | chip =>
    dsimp only
    split
    · simp
    · simp
  | glob => simp

theorem targetOf_not_priv {h pa o : Nat} {p : Pte} : targetOf h pa p ≠ .priv o := by
  unfold targetOf
  split <;> exact nofun

/-- No engine's byte lies in a lane's own memory. -/
theorem State.engineTarget_not_priv {va o : Nat} : (s.engineTarget t va).2 ≠ some (.priv o) := by
  unfold State.engineTarget
  split
  · exact nofun
  · split
    · dsimp only
      split
      next sp hsp =>
        split
        · refine explicitTarget_not_priv ?_
          rintro rfl
          split at hsp
          · cases hsp
          · split at hsp
            · cases hsp
            · split at hsp <;> cases hsp
        · exact nofun
      · exact nofun
    · split
      · exact fun h => targetOf_not_priv (Option.some.inj h)
      · exact nofun

/-- Where an engine's byte lies, or that it has no location. -/
theorem State.engineAt_cases (s : State) (t : Troupe) (va : Nat) (write : Bool) :
    (∃ g, s.engineAt t va write = .inr g ∧ (s.engineTarget t va).2 = some g) ∨
      ∃ e, s.engineAt t va write = .inl e ∧ ∀ v bs, e ≠ .bytes v bs := by
  unfold State.engineAt
  generalize s.engineTarget t va = x
  obtain ⟨tr, g⟩ := x
  have hno : ∀ (v : State) (c a : Nat), ∃ e : EGot, (Sum.inl (.fault v c a) : EGot ⊕ Target) = .inl e ∧ ∀ u bs, e ≠ .bytes u bs :=
    fun v c a => ⟨_, rfl, fun _ _ h => EGot.noConfusion h⟩
  cases tr with
  | none =>
    cases g with
    | none => exact .inr (hno _ _ _)
    | some g => exact .inl ⟨g, rfl, rfl⟩
  | some tr =>
    cases tr with
    | unmapped => exact .inr (hno _ _ _)
    | absent => exact .inr ⟨_, rfl, fun _ _ h => EGot.noConfusion h⟩
    | ok h pa p =>
      cases g with
      | none => exact .inr (hno _ _ _)
      | some g =>
        dsimp only
        by_cases hk : p.kind = .device
        · rw [if_pos hk]
          exact .inr (hno _ _ _)
        · rw [if_neg hk]
          by_cases hr : (if write = true then p.w else p.r) = true
          · rw [if_pos hr]
            exact .inl ⟨g, rfl, rfl⟩
          · rw [if_neg hr]
            exact .inr (hno _ _ _)

theorem State.engineAt_not_priv {va : Nat} {write : Bool} {o : Nat} : s.engineAt t va write ≠ .inr (.priv o) := by
  intro h
  obtain ⟨g, hg, ht⟩ | ⟨e, he, -⟩ := s.engineAt_cases t va write
  · cases hg.symm.trans h
    exact State.engineTarget_not_priv ht
  · cases he.symm.trans h

/-- Where an engine's byte has no location, it is not read. -/
theorem State.engineAt_not_bytes {va : Nat} {write : Bool} {g : EGot} (h : s.engineAt t va write = .inl g) (v : State) (bs : List Byte) :
    g ≠ .bytes v bs := by
  obtain ⟨g', hg, -⟩ | ⟨e, he, hne⟩ := s.engineAt_cases t va write
  · cases hg.symm.trans h
  · cases he.symm.trans h
    exact hne v bs

theorem State.steps_readByte {who : Asker} {g : Target} {bs : List Byte} (h : s.readByte t who g = .bytes s' bs) : s.Steps w s' := by
  unfold State.readByte at h
  split at h
  · unfold State.poolByte at h
    dsimp only at h
    split at h
    next v l hl =>
      split at h
      · cases h
      · cases h
        have hk : s.Kept v := Avail.Kept.of_ready hl (kept_lineRead (State.Kept.refl s))
        exact .of_kept (kept_countDie (kept_of_eq hk rfl rfl)) fun hz =>
          State.FreeOf.countDie (State.freeOf_of_dies (hz.lineRead hl) rfl)
    · cases h
    · cases h
  · split at h
    · cases h
    · cases h
      split
      · exact s.steps_traffic _ _ _ _
      · exact .refl w s

/-- A change of one section's allotment leaves all else of every section. -/
theorem State.sect_modAllot (s : State) (ens k : Nat) (f : Section → Memory) (n j : Nat) :
    (s.modSect ens k fun c => { c with allot := f c }).sect n j =
      { s.sect n j with allot := ((s.modSect ens k fun c => { c with allot := f c }).sect n j).allot } := by
  unfold State.sect State.modSect
  by_cases hn : n = ens
  · subst hn
    cases he : s.ens? n with
    | none =>
      have hnone : (s.modEns n fun e => { e with sections := lmod (fun c => { c with allot := f c }) e.sections k }).ens? n = none := by
        simp only [State.ens?, State.modEns, List.find?_eq_none, List.mem_map] at he ⊢
        rintro _ ⟨e, hm, rfl⟩
        have := he e hm
        split
        · exact this
        · exact this
      rw [hnone]
    | some e =>
      rw [State.ens?_modEns_same (fun e => { e with sections := lmod (fun c => { c with allot := f c }) e.sections k }) he rfl]
      dsimp only
      rw [lget_lmod]
      split <;> rfl
  · rw [State.ens?_modEns_other (fun e => { e with sections := lmod (fun c => { c with allot := f c }) e.sections k }) hn
      fun _ h => h]

theorem State.steps_writeChip (hg : ∀ o, g ≠ .priv o) (lane : Nat) (bs : List Byte) (mask : BitVec 16) :
    s.Steps w (s.writeChip t lane g bs mask) := by
  unfold State.writeChip
  split
  next o => exact absurd rfl (hg o)
  next k off =>
    exact ⟨rfl, fun n => s.modSect_ens? _ _ _ n, fun n j => s.sect_modAllot _ _ (fun c => c.allot.writeMask off bs mask) n j, id⟩
  · split
    · exact ⟨rfl, fun _ => rfl, fun _ _ => rfl, id⟩
    · exact .refl w s
  · exact .refl w s

theorem State.steps_writeByte {who : Asker} {g : Target} {b : Byte} {bs : List Byte} (hg : ∀ o, g ≠ .priv o)
    (h : s.writeByte t who g b = .bytes s' bs) : s.Steps w s' := by
  unfold State.writeByte at h
  dsimp only at h
  refine (s.steps_writeTurn t true g).trans ?_
  generalize s.writeTurn t true g = s1 at h ⊢
  split at h
  next hh pa k =>
    split at h
    next v l hl =>
      cases h
      have hk : s1.Kept v := Avail.Kept.of_ready hl (kept_lineWrite (State.Kept.refl s1))
      exact .of_kept (kept_countDie (kept_commitWrite hk)) fun hz =>
        State.FreeOf.countDie ((hz.lineWrite hl).1.commitWrite (hz.lineWrite hl).2)
    · cases h
    · cases h
  · cases h
    exact (State.steps_writeChip hg _ _ _).trans (State.steps_traffic _ _ _ _ _)
  · cases h
    exact State.steps_writeChip hg _ _ _

theorem State.steps_engineReadFrom {who : Asker} {pre : List (Nat × Byte)} {n last va : Nat} {bs : List Byte}
    (h : s.engineReadFrom t who pre last va n = .bytes s' bs) : s.Steps w s' := by
  induction n generalizing s last va bs with
  | zero =>
    cases h
    exact .refl w _
  | succ n ih =>
    have hmore : ∀ (v : State) (b : List Byte) (d : Nat), (match State.engineReadFrom v t who pre d (va + 1) n with
        | .bytes s bs => EGot.bytes s (b ++ bs) | g => g) = .bytes s' bs → v.Steps w s' := fun v b d hv => by
      split at hv
      next hv' =>
        cases hv
        exact ih hv'
      next hno => exact absurd hv (hno s' bs)
    unfold State.engineReadFrom at h
    dsimp only at h
    split at h
    · exact hmore _ _ _ h
    · split at h
      next g hg => exact absurd h (State.engineAt_not_bytes hg s' bs)
      next g hg =>
        split at h
        · cases h
        next v hp =>
          have hpass : s.Steps w v := State.Steps.of_pass hp
          split at h
          · cases h
          · cases h
          next hb => exact (hpass.trans (State.steps_readByte hb)).trans (hmore _ _ _ h)

theorem State.steps_engineWriteFrom {who : Asker} {last va : Nat} {bs bs' : List Byte}
    (h : s.engineWriteFrom t who last va bs = .bytes s' bs') : s.Steps w s' := by
  induction bs generalizing s last va with
  | nil =>
    cases h
    exact .refl w _
  | cons b bs ih =>
    unfold State.engineWriteFrom at h
    split at h
    next g hg => exact absurd h (State.engineAt_not_bytes hg s' bs')
    next g hg =>
      split at h
      · cases h
      next v hp =>
        have hpass : s.Steps w v := State.Steps.of_pass hp
        split at h
        · cases h
        · cases h
        next hb => exact (hpass.trans (State.steps_writeByte (fun o ho => State.engineAt_not_priv (ho ▸ hg)) hb)).trans (ih h)

end

end Sys2Proof.Machine
end

section
namespace Sys2Proof.Machine

/-! ### Units and elements -/

section
variable {s s1 s2 s3 : State} {t : Troupe} {o : Op}

/-- With no line brought for an asker alone, none leaves its slice for it. -/
theorem State.dropOnceOf_of_free {w : Asker} (h : s.FreeOf w) : (s.dropOnceOf fun v => v == w) = s := by
  unfold State.dropOnceOf
  refine List.foldlRecOn (List.range 4) _ (motive := fun v : State => v = s) rfl fun v hv d _ => ?_
  subst hv
  refine List.foldlRecOn (v.die d).l2 _ (motive := fun u : State => u = v) rfl fun u hu e he => ?_
  subst hu
  have hne := h d e he
  split
  next x hx => exact if_neg fun hw => hne (by rw [hx, beq_iff_eq.mp hw])
  · rfl

/-- An operation that has taken over what its reads have shown. -/
def Op.seen (s : State) (o : Op) : Op :=
  { o with rdPass := max o.rdPass s.seenPass, rdShared := nunion o.rdShared s.seenOpen }

theorem State.saw_of_free {id op : Nat} (h : s.FreeOf (.op id op)) :
    s.saw id op = { s.modOp id op (Op.seen s) with seenPass := 0, seenOpen := [] } :=
  State.dropOnceOf_of_free (s := { s.modOp id op (Op.seen s) with seenPass := 0, seenOpen := [] }) h

/-- A troupe whose one operation has changed. -/
def Troupe.modOps (op : Nat) (f : Op → Op) (t : Troupe) : Troupe := { t with ops := t.ops.map fun o => if o.id = op then f o else o }

theorem State.modOp_eq (s : State) (id op : Nat) (f : Op → Op) : s.modOp id op f = s.modTroupe id (Troupe.modOps op f) := rfl

theorem Troupe.ops_modOps {f : Op → Op} (h : t.ops = [o]) : (t.modOps o.id f).ops = [f o] := by
  simp [Troupe.modOps, h]

/-- A troupe whose latched fragments that a write meets are dropped. -/
def Troupe.dropLatches (va n : Nat) (t : Troupe) : Troupe := { t with latches := t.latches.filter fun l => !l.frag.meets va n }

/-- Of a troupe nothing has changed but what an operation works on: the tile, the latched fragments, %mrow, and the operations
themselves. -/
def Troupe.SameButWork (t u : Troupe) : Prop :=
  u = { t with tile := u.tile, latches := u.latches, mrow := u.mrow, mrowOld := u.mrowOld, mrowSet := u.mrowSet, ops := u.ops }

theorem Troupe.SameButWork.refl (t : Troupe) : t.SameButWork t := rfl

theorem Troupe.SameButWork.trans {u w : Troupe} (h : t.SameButWork u) (k : u.SameButWork w) : t.SameButWork w := by
  unfold Troupe.SameButWork at *
  rw [k, h]

theorem Troupe.SameButWork.id {u : Troupe} (h : t.SameButWork u) : u.id = t.id := (congrArg Troupe.id h :)
theorem Troupe.SameButWork.run {u : Troupe} (h : t.SameButWork u) : u.run = t.run := (congrArg Troupe.run h :)
theorem Troupe.SameButWork.ens {u : Troupe} (h : t.SameButWork u) : u.ens = t.ens := (congrArg Troupe.ens h :)
theorem Troupe.SameButWork.die {u : Troupe} (h : t.SameButWork u) : u.die = t.die := (congrArg Troupe.die h :)
theorem Troupe.SameButWork.regs {u : Troupe} (h : t.SameButWork u) : t.SameRegs u := fun l q => by
  have hl : u.lanes = t.lanes := (congrArg Troupe.lanes h :)
  rw [Troupe.reg, Troupe.reg, Troupe.lane, Troupe.lane, hl]

/-- The troupe of an operation as its accesses leave it: they have changed its latched fragments at most. -/
structure State.Worked (s s2 : State) (t : Troupe) (o : Op) (u : Troupe) : Prop where
  here : s2.troupe? t.id = some u
  same : t.SameButWork u
  tile : u.tile = t.tile
  ops : u.ops = [o]
  ens : ∀ n, (s2.ens? n).map Ensemble.st = (s.ens? n).map Ensemble.st
  sect : ∀ n k, s2.sect n k = { s.sect n k with allot := (s2.sect n k).allot }
  free : s2.FreeOf (.op t.id o.id)

theorem State.Sole.opOf (h : s.Sole t o) : s.opOf t.id o.id = some (t, o) := by
  obtain ⟨ht, -, -, hops, -⟩ := h
  rw [State.opOf, ht]
  simp [Troupe.op?, hops]

theorem State.Sole.freeOf (h : s.Sole t o) : s.FreeOf (.op t.id o.id) := by
  obtain ⟨-, -, -, -, -, -, -, -, -, hfree, -⟩ := h
  exact hfree

theorem State.Sole.opRead (h : s.Sole t o) (v : State) (va n : Nat) :
    v.opRead t o va n = v.engineRead t (.op t.id o.id) va n := by
  obtain ⟨-, -, -, -, -, -, -, hpre, -⟩ := h
  rw [State.opRead, hpre]
  rfl

theorem State.Sole.worked (h : s.Sole t o) (h1 : s.Steps (.op t.id o.id) s1) {va : Nat} {bs bs' : List Byte}
    (hw : s1.opWrite t o va bs = .bytes s2 bs') : ∃ u, s.Worked s2 t o u := by
  have hfree := h.freeOf
  obtain ⟨ht, -, -, hops, -⟩ := h
  have h2 : (s1.modTroupe t.id (Troupe.dropLatches va bs.length)).Steps (.op t.id o.id) s2 := State.steps_engineWriteFrom hw
  have ht1 : s1.troupe? t.id = some t := by
    rw [State.troupe?, h1.troupes]
    exact ht
  refine ⟨t.dropLatches va bs.length, ?_, rfl, rfl, hops, fun n => (h2.ens n).trans (h1.ens n),
    fun n k => (h2.sect n k).trans ?_, h2.free (h1.free hfree)⟩
  · rw [State.troupe?, h2.troupes]
    exact State.troupe?_modTroupe_same (Troupe.dropLatches va bs.length) ht1 rfl
  · rw [show (s1.modTroupe t.id (Troupe.dropLatches va bs.length)).sect n k =
      s1.sect n k from rfl, h1.sect n k]

/-- An operation that has recorded progress and taken over what its reads have shown. -/
theorem State.Worked.recorded {u : Troupe} (h : s.Worked s2 t o u) (f : Op → Op) (hf : (f o).id = o.id) {v : State}
    (hv : v.troupes = (s2.modOp t.id o.id f).troupes) (hd : v.dies = s2.dies) (hp : v.pool = s2.pool) :
    ∃ t' ls r sh, (v.saw t.id o.id).troupe? t.id = some t' ∧ t.SameButWork t' ∧ t'.tile = t.tile ∧ (v.saw t.id o.id).pool = s2.pool ∧
      (v.saw t.id o.id).dies = s2.dies ∧ (v.saw t.id o.id).ens = v.ens ∧
      t'.ops = [{ f o with lines := ls, rdPass := r, rdShared := sh }] := by
  rw [State.saw_of_free (State.freeOf_of_dies h.free hd)]
  have hu : v.troupe? t.id = some (u.modOps o.id f) := by
    rw [State.troupe?, hv]
    exact State.troupe?_modTroupe_same (Troupe.modOps o.id f) h.here rfl
  refine ⟨(u.modOps o.id f).modOps o.id (Op.seen v), (f o).lines, max (f o).rdPass v.seenPass, nunion (f o).rdShared v.seenOpen,
    State.troupe?_modTroupe_same (Troupe.modOps o.id (Op.seen v)) hu rfl, h.same.trans rfl, h.tile, hp, hd, rfl, ?_⟩
  have h1 : (u.modOps o.id f).ops = [f o] := Troupe.ops_modOps h.ops
  have h2 := Troupe.ops_modOps (f := Op.seen v) h1
  rw [hf] at h2
  exact h2

theorem cpyDelivery_delivers {c src dst len n : Nat} {bs : List Byte} (h : s.AtWork t o) (hk : o.kind = .cpy c src dst len n none)
    (hn : n < len) (hhead : (s.chan t c).head? = some (t.id, o.id)) (halias : s.rangesAlias t src dst len = false)
    (hc : c < (s.sect t.ens t.sec).wp.length) (hr : s.engineRead t (.op t.id o.id) (src + n) 16 = .bytes s1 bs)
    (hw : s1.opWrite t o (dst + n) bs = .bytes s2 []) :
    ∃ s' t' ls r sh, execCpyDelivery t.id o.id 1 s = .next s' ∧ s'.troupe? t.id = some t' ∧ t.SameRegs t' ∧
      s'.pool = s2.pool ∧ lget 0 (s'.sect t.ens t.sec).wp c = BitVec.ofNat 32 (n + 16) ∧
      t'.ops = [{ o with kind := .cpy c src dst len (n + 16) none, lines := ls, rdPass := r, rdShared := sh }] := by
  obtain ⟨hsole, hwork⟩ := h
  obtain ⟨u, hu⟩ := hsole.worked (State.steps_engineReadFrom hr) hw
  set f : Op → Op := fun o => { o with kind := o.kind.withDelivered (n + 16), lines := (s2.linesOf t (dst + n) 16 ++ o.lines).dedup }
    with hf
  obtain ⟨t', ls, r, sh, ht', hsame, -, hpool, -, hens, hops⟩ := hu.recorded f rfl
    (v := (s2.modOp t.id o.id f).setWp t c (n + 16)) rfl rfl rfl
  have hsect : (s2.modOp t.id o.id f).HasSect t.ens t.sec := by
    refine State.hasSect_of_ne fun he => ?_
    have hwp := congrArg (fun k : Section => k.wp.length) ((hu.sect t.ens t.sec).symm.trans he)
    have hz : (s.sect t.ens t.sec).wp.length = 0 := hwp
    omega
  have hwplen : c < ((s2.modOp t.id o.id f).sect t.ens t.sec).wp.length := by
    rw [show (s2.modOp t.id o.id f).sect t.ens t.sec = s2.sect t.ens t.sec from rfl, hu.sect]
    exact hc
  refine ⟨_, t', ls, r, sh, ?_, ht', hsame.regs, hpool, ?_, ?_⟩
  · rw [execCpyDelivery, hsole.opOf]
    simp only [hk]
    rw [if_neg (by rw [hwork, hhead]; simp), if_neg (by rw [halias]; simp), State.deliverUnits, hsole.opOf]
    simp only [hk]
    rw [if_neg (by simp [hwork, hn]), hsole.opRead, hr]
    dsimp only
    rw [hw]
    rfl
  · rw [State.sect, State.ens?, hens, ← State.ens?, ← State.sect, State.setWp, State.sect_modSect hsect]
    exact (lget_lmod ..).trans (if_pos ⟨rfl, hwplen⟩)
  · rw [hops, hf]
    simp only [hk]
    rfl

theorem State.peekPool_congr (hd : s1.dies = s.dies) (hp : s1.pool = s.pool) (h pa : Nat) : s1.peekPool h pa = s.peekPool h pa := by
  rw [State.peekPool, State.line?, State.die, hd, hp]
  rfl

/-- The next element of a GATHER or SCATTER: its index is read, then its bytes, which are written. -/
theorem gatherScatterComplete_moves {i a b n z m va vb : Nat} {gather : Bool} {w v : List Byte} {k' : OpKind} (h : s.AtWork t o)
    (hk : o.kind = if gather = true then .gather i a b n z m else .scatter i a b n z m) (hm : m < n)
    (hidx : s.engineRead t (.op t.id o.id) (i + 4 * m) 4 = .bytes s1 w)
    (hva : va = if gather = true then a + leNat w * z else a + m * z)
    (hvb : vb = if gather = true then b + m * z else b + leNat w * z) (ha : va < 2 ^ 64) (hb : vb < 2 ^ 64)
    (hr : s1.engineRead t (.op t.id o.id) va z = .bytes s2 v) (hw : s2.opWrite t o vb v = .bytes s3 [])
    (hk' : k' = if gather = true then .gather i a b n z (m + 1) else .scatter i a b n z (m + 1)) :
    ∃ s' t' ls r sh, execGatherScatterComplete t.id o.id 1 s = .next s' ∧ s'.troupe? t.id = some t' ∧ t.SameRegs t' ∧
      (∀ h pa, s'.peekPool h pa = s3.peekPool h pa) ∧
      t'.ops = [{ o with kind := k', lines := ls, rdPass := r, rdShared := sh }] := by
  obtain ⟨hsole, hwork⟩ := h
  obtain ⟨u, hu⟩ := hsole.worked ((State.steps_engineReadFrom hidx).trans (State.steps_engineReadFrom hr)) hw
  have hahead : o.ahead = [] := by
    obtain ⟨-, -, -, -, -, -, hah, -⟩ := hsole
    exact hah
  set f : Op → Op := fun o => { o with
    kind := o.kind.withMoved (m + 1), lines := (s3.linesOf t vb z ++ o.lines).dedup
    ahead := o.ahead.filter fun e => e.1 != m } with hf
  obtain ⟨t', ls, r, sh, ht', hsame, -, hpool, hdies, -, hops⟩ := hu.recorded f rfl (v := s3.modOp t.id o.id f) rfl rfl rfl
  have hcount : o.kind.copyCount = n ∧ o.kind.moved = m ∧ o.kind.withMoved (m + 1) = k' := by
    cases gather <;> (rw [hk, hk']; exact ⟨rfl, rfl, rfl⟩)
  obtain ⟨hn, hmoved, hkind⟩ := hcount
  have helem : s.copyElem t o m = .moved s3 vb (s3.linesOf t vb z) := by
    have hindex : s.indexElem t o i a b z m gather = .moved s3 vb (s3.linesOf t vb z) := by
      unfold State.indexElem
      rw [hsole.opRead, hidx]
      dsimp only
      rw [← hva, ← hvb, if_neg (by omega), if_neg (by omega), hsole.opRead, hr]
      dsimp only
      rw [hahead, if_neg (by simp), hw]
    unfold State.copyElem
    rw [hk]
    cases gather <;> exact hindex
  refine ⟨_, t', ls, r, sh, ?_, ht', hsame.regs, fun h pa => State.peekPool_congr hdies hpool h pa, ?_⟩
  · rw [execGatherScatterComplete, hsole.opOf]
    dsimp only
    rw [hn, hmoved, if_neg (by omega), if_pos (by simp [hwork, hm]), Nat.min_eq_left (by omega), State.moveNext, hsole.opOf]
    dsimp only
    rw [hwork, if_neg (by decide), hmoved, hahead, if_neg (by simp), helem]
    rfl
  · rw [hops, hf]
    dsimp only
    rw [hkind, hahead]
    rfl

end

end Sys2Proof.Machine
end

section
open Sys2Proof Sys2Proof.Machine

/-- Settles O49: an operation that ends hands its result to its entry; FWAIT, FTEST and FCANCEL find the entry by its handle;
and what the accesses of an engine change leaves the troupe's operation to record its unit or element. -/
theorem engineOperationsAndFutures : Obligations.EngineOperationsAndFutures := by
  unfold Obligations.EngineOperationsAndFutures
  intro ends got freed
  have hends : ∀ {i : Instr} {s : State} {t : Troupe} {o : Op} {st v : Nat} {post : State → Troupe → Prop},
      (∀ e, s.Unawaited t o e → ∃ s' t', exec i s = .next s' ∧ s.EndedWith s' t o e st v t' ∧ post s' t') →
      ends i s t o st v post := by
    intro i s t o st v post h e he
    obtain ⟨s', t', hx, ⟨h1, h2, h3, h4, -⟩, hp⟩ := h e he
    exact ⟨s', t', hx, h1, h2, h3, h4, hp⟩
  refine ⟨?_, ?_, ?_, ?_, ?_, ?_, ?_, ?_, ?_, ?_, ?_, ?_, ?_⟩
  · intro s t o c src dst len n s1 bs s2 h hk hn hhead halias hc hr hw
    exact cpyDelivery_delivers h hk hn hhead halias hc hr hw
  · intro s t o c src dst len im h hk hover hcan hhead
    refine hends fun e he => ?_
    obtain ⟨s', t', hx, hend, hout⟩ := cpyTransferComplete_ends h hk hover hcan hhead he
    exact ⟨s', t', hx, hend, hout⟩
  · intro s t o i a b n z m s1 w s2 v s3 h hk hm hidx ha hb hr hw _
    exact gatherScatterComplete_moves (gather := true) h hk hm hidx rfl rfl ha hb hr hw rfl
  · intro s t o i a b n z m s1 w s2 v s3 h hk hm hidx ha hb hr hw _
    exact gatherScatterComplete_moves (gather := false) h hk hm hidx rfl rfl ha hb hr hw rfl
  · intro s t o i a b n z k h hk hn hover hcan
    refine hends fun e he => ?_
    obtain ⟨s', t', hx, hend⟩ := gatherScatterComplete_ends (k := k) h hk hn hover hcan he
    exact ⟨s', t', hx, hend, trivial⟩
  · intro s t o c ty n gen desc w parts ch h hk hgot hparts hmoved hover hcan
    refine hends fun e he => ?_
    obtain ⟨s', t', hx, hend⟩ := collComplete_ends (parts := parts) (ch := ch) h hk hgot hparts hmoved hover hcan he
    exact ⟨s', t', hx, hend, trivial⟩
  · intro s t o k slot blk w d j v h hk hcan hhead
    refine hends fun e he => ?_
    obtain ⟨s', t', hx, hend, hslot⟩ := umCommandComplete_ends h hk hcan hhead he
    exact ⟨s', t', hx, hend, hslot⟩
  · exact fwait_frees
  · exact fwait_waits
  · exact fwait_stale
  · exact ftest_returns
  · exact fcancel_frees
  · exact State.lookup_of_not_handle

end


section
namespace Sys2Proof.Machine

/-! ## O47: tile operations -/

/-! ### Words in a tile -/

theorem Memory.write_append (m : Memory) (a : Nat) (bs cs : List Byte) :
    m.write a (bs ++ cs) = (m.write a bs).write (a + bs.length) cs := by
  induction bs generalizing m a with
  | nil => rfl
  | cons b bs ih =>
    rw [List.cons_append, Memory.write, Memory.write, ih, List.length_cons, Nat.add_assoc, Nat.add_comm 1]

theorem Memory.bytes_congr {m v : Memory} {a b n : Nat} (h : ∀ i, i < n → m.byte (a + i) = v.byte (b + i)) : m.bytes a n = v.bytes b n := by
  induction n generalizing a b with
  | zero => rfl
  | succ n ih =>
    have h0 : m.byte a = v.byte b := h 0 (by omega)
    rw [Memory.bytes, Memory.bytes, h0, ih fun i hi => by
      have := h (i + 1) (by omega)
      rwa [Nat.add_comm i 1, ← Nat.add_assoc, ← Nat.add_assoc] at this]

theorem Memory.nat_congr {m v : Memory} {a n : Nat} (h : ∀ i, i < n → m.byte (a + i) = v.byte (a + i)) : m.nat a n = v.nat a n := by
  rw [Memory.nat, Memory.nat, Memory.bytes_congr h]

theorem Memory.bytes_write (m : Memory) (a : Nat) (bs : List Byte) : (m.write a bs).bytes a bs.length = bs := by
  induction bs generalizing m a with
  | nil => rfl
  | cons b bs ih =>
    rw [List.length_cons, Memory.bytes, Memory.write, ih, Memory.byte_write_outside _ _ _ _ (.inl (by omega)),
      Memory.byte_put_same]

theorem Memory.nat_write (m : Memory) (a n v : Nat) : (m.write a (leBytes n v)).nat a n = v % 256 ^ n := by
  have h := m.bytes_write a (leBytes n v)
  rw [leBytes_length] at h
  rw [Memory.nat, h, leNat_leBytes]

theorem getElem?_leBytes (n v r : Nat) (h : r < n) : (leBytes n v)[r]? = some (BitVec.ofNat 8 (v / 256 ^ r)) := by
  induction n generalizing v r with
  | zero => omega
  | succ n ih =>
    cases r with
    | zero => simp [leBytes]
    | succ r =>
      rw [leBytes, List.getElem?_cons_succ, ih _ _ (by omega), Nat.div_div_eq_div_mul, Nat.pow_succ']

/-- Words written one after another. -/
def wordBytes (vs : List Nat) : List Byte := vs.flatMap fun v => leBytes 4 v

theorem wordBytes_cons (v : Nat) (vs : List Nat) : wordBytes (v :: vs) = leBytes 4 v ++ wordBytes vs := rfl

theorem wordBytes_length (vs : List Nat) : (wordBytes vs).length = 4 * vs.length := by
  induction vs with
  | nil => rfl
  | cons v vs ih =>
    rw [wordBytes_cons, List.length_append, leBytes_length, ih, List.length_cons]
    omega

theorem Memory.nat_write_words (m : Memory) (a j : Nat) (vs : List Nat) (h : j < vs.length) :
    (m.write a (wordBytes vs)).nat (a + 4 * j) 4 = vs[j] % 2 ^ 32 := by
  induction vs generalizing m a j with
  | nil => cases h
  | cons v vs ih =>
    rw [wordBytes_cons, Memory.write_append, leBytes_length]
    cases j with
    | zero =>
      rw [Memory.nat_congr fun i hi => Memory.byte_write_outside _ _ _ _ (.inl (by omega))]
      exact m.nat_write a 4 v
    | succ j =>
      have := ih (m.write a (leBytes 4 v)) (a + 4) j (by simpa using h)
      rwa [show a + 4 + 4 * j = a + 4 * (j + 1) by omega] at this

theorem Memory.byte_write_words (m : Memory) (a v n i : Nat) (h : i < 4 * n) :
    (m.write a (wordBytes (List.replicate n v))).byte (a + i) = BitVec.ofNat 8 (v / 256 ^ (i % 4)) := by
  induction n generalizing m a i with
  | zero => omega
  | succ n ih =>
    rw [List.replicate_succ, wordBytes_cons, Memory.write_append, leBytes_length]
    by_cases hi : i < 4
    · have hlen : i < (leBytes 4 v).length := by rwa [leBytes_length]
      rw [Memory.byte_write_outside _ _ _ _ (.inl (by omega)), Memory.byte_write_inside _ _ _ _ hlen, Nat.mod_eq_of_lt hi]
      have := getElem?_leBytes 4 v i hi
      rw [List.getElem?_eq_getElem hlen] at this
      exact Option.some.inj this
    · have := ih (m.write a (leBytes 4 v)) (a + 4) (i - 4) (by omega)
      rw [show a + 4 + (i - 4) = a + i by omega, show (i - 4) % 4 = i % 4 by omega] at this
      exact this

/-! ### Row counts -/

theorem getLsbD_byteMask (q j : Nat) (hj : j < 32) :
    ((255 : Word) <<< (8 * q)).getLsbD j = (decide (8 * q ≤ j) && decide (j < 8 * q + 8)) := by
  rw [BitVec.getLsbD_shiftLeft]
  have h255 : ∀ i, (255 : Word).getLsbD i = decide (i < 8) := fun i => by
    by_cases hi : i < 32
    · interval_cases i <;> rfl
    · rw [BitVec.getLsbD_of_ge _ _ (by omega)]
      simp only [Bool.false_eq, decide_eq_false_iff_not]
      omega
  rw [h255]
  by_cases h1 : 8 * q ≤ j <;> simp [hj, h1, Nat.not_lt.mpr, Nat.sub_lt_iff_lt_add', Nat.lt_of_not_le]

/-- A row count that is cleared, and the others. -/
theorem rowsOf_setRows (m : Word) {q k : Nat} (hk : k < 4) : rowsOf (setRows m q 0) k = if k = q then 0 else rowsOf m k := by
  have hbits : ∀ i, i < 8 → (setRows m q 0).getLsbD (8 * k + i) = (!decide (k = q) && m.getLsbD (8 * k + i)) := fun i hi => by
    have hin : (decide (8 * q ≤ 8 * k + i) && decide (8 * k + i < 8 * q + 8)) = decide (k = q) := by
      rw [← Bool.decide_and, decide_eq_decide]
      omega
    have hlt : 8 * k + i < 32 := by omega
    rw [setRows, BitVec.getLsbD_or, BitVec.getLsbD_and, BitVec.getLsbD_not, getLsbD_byteMask q _ hlt, hin]
    simp [hlt, Bool.and_comm]
  have hext : (setRows m q 0).extractLsb' (8 * k) 8 = if k = q then 0 else m.extractLsb' (8 * k) 8 := by
    refine BitVec.eq_of_getLsbD_eq fun i hi => ?_
    rw [BitVec.getLsbD_extractLsb', hbits i hi]
    split
    next h => simp [h]
    next h => simp [h, hi]
  unfold rowsOf
  rw [hext]
  split <;> rfl

end Sys2Proof.Machine
end

section
namespace Sys2Proof.Machine

/-! ### Reads of the matrix unit -/

section
variable {z s s' : State} {t : Troupe} {o : Op}

/-- A page as an agent of a die sees it: which dies have walked it does not show. -/
def Pte.seenFrom (d : Nat) (p : Pte) : Pte := { p with home := some (p.homeFrom d), walked := 0 }

/-- A state that differs from `z` in what an agent of a die does not see: its troupes, what a translation or an access counts,
and what the reads have shown, which is performed. -/
structure State.Seen (d : Nat) (z s : State) : Prop where
  dies : ∀ k, s.die k = { z.die k with ev := (s.die k).ev }
  now : s.now = z.now
  channels : s.channels = z.channels
  errs : s.errs = z.errs
  pool : s.pool = z.pool
  launches : s.launches = z.launches
  ens : s.ens = z.ens
  pages : ∀ sid a, (s.page? sid a).map (fun e => (e.1, e.2.seenFrom d)) = (z.page? sid a).map fun e => (e.1, e.2.seenFrom d)
  pass : z.seenPass ≤ z.now → s.seenPass ≤ z.now
  open_ : z.seenOpen = [] → s.seenOpen = []

section
variable {d : Nat}

theorem State.Seen.refl (d : Nat) (z : State) : z.Seen d z :=
  ⟨fun _ => rfl, rfl, rfl, rfl, rfl, rfl, rfl, fun _ _ => rfl, id, id⟩

theorem State.Seen.trans (h : z.Seen d s) (k : s.Seen d s') : z.Seen d s' where
  dies := fun j => by rw [k.dies j, h.dies j]
  now := k.now.trans h.now
  channels := k.channels.trans h.channels
  errs := k.errs.trans h.errs
  pool := k.pool.trans h.pool
  launches := k.launches.trans h.launches
  ens := k.ens.trans h.ens
  pages := fun sid a => (k.pages sid a).trans (h.pages sid a)
  pass := fun hz => by
    have := k.pass (by rw [h.now]; exact h.pass hz)
    rwa [h.now] at this
  open_ := fun hz => k.open_ (h.open_ hz)

/-- What a change of the troupes alone leaves. -/
theorem State.Seen.of_troupes (h : z.Seen d s) (hs : s' = { s with troupes := s'.troupes }) : z.Seen d s' := by
  rw [hs]
  exact ⟨h.dies, h.now, h.channels, h.errs, h.pool, h.launches, h.ens, h.pages, h.pass, h.open_⟩

theorem State.Seen.line? (h : z.Seen d s) (k ln : Nat) : s.line? k ln = z.line? k ln := by
  rw [State.line?, h.dies k]
  rfl

theorem State.Seen.reqs (h : z.Seen d s) (k : Nat) : (s.die k).reqs = (z.die k).reqs := by
  rw [h.dies k]

theorem State.Seen.peekPool (h : z.Seen d s) (k pa : Nat) : s.peekPool k pa = z.peekPool k pa := by
  rw [State.peekPool, h.line?, h.pool]
  rfl

theorem State.Seen.inRecovery (h : z.Seen d s) (k ln : Nat) : s.inRecovery k ln = z.inRecovery k ln := by
  rw [State.inRecovery, h.dies k]
  rfl

theorem State.Seen.opOver (h : z.Seen d s) (o : Op) : s.opOver o = z.opOver o :=
  State.opOver_congr h.line? h.reqs h.now o

theorem State.Seen.freeOf {w : Asker} (h : z.Seen d s) (hf : z.FreeOf w) : s.FreeOf w := fun k => by
  rw [h.dies k]
  exact hf k

theorem State.Seen.launchOf (h : z.Seen d s) (n : Nat) : s.launchOf n = z.launchOf n := by
  simp only [State.launchOf, State.ens?, State.launch?, h.ens, h.launches]

theorem State.Seen.ens? (h : z.Seen d s) (n : Nat) : s.ens? n = z.ens? n := by
  rw [State.ens?, h.ens]
  rfl

/-- A translation gives the same location with the same permissions. -/
theorem State.Seen.translate (h : z.Seen d s) {sid va home pa : Nat} {p : Pte} (hz : z.translate sid d va = .ok home pa p) :
    ∃ q, s.translate sid d va = .ok home pa q ∧ q.seenFrom d = p.seenFrom d := by
  unfold State.translate at hz ⊢
  split at hz
  · cases hz
  next hlt =>
    rw [if_neg hlt]
    have hp := h.pages sid va
    cases hpz : z.page? sid va with
    | none => rw [hpz] at hz; cases hz
    | some e =>
      obtain ⟨b, pz⟩ := e
      rw [hpz] at hz hp
      obtain ⟨⟨b', ps⟩, hps, he⟩ := Option.map_eq_some_iff.mp hp
      obtain ⟨rfl, hseen⟩ := Prod.mk.inj he
      have hseen : ps.seenFrom d = pz.seenFrom d := hseen
      rw [hps]
      dsimp only at hz ⊢
      have hres : ps.res = pz.res := (congrArg Pte.res hseen :)
      have hpa : ps.pa = pz.pa := (congrArg Pte.pa hseen :)
      have hhome : ps.homeFrom d = pz.homeFrom d := Option.some.inj (congrArg Pte.home hseen)
      rw [hres, hpa, hhome]
      split at hz
      · cases hz
        rename_i hr
        rw [if_pos hr]
        exact ⟨ps, rfl, hseen⟩
      · cases hz

theorem State.Seen.sidOf (h : z.Seen d s) (t : Troupe) : s.sidOf t = z.sidOf t := by
  rw [State.sidOf, h.launchOf]
  rfl

/-- What puts an engine's byte below the windows into the pool. -/
theorem State.engineAt_pool_iff {va home pa : Nat} {k : PageKind} (hva : va < Config.windowBase) :
    s.engineAt t va false = .inr (.pool home pa k) ↔ ∃ l p, s.launchOf t.ens = some l ∧
      s.translate l.sid t.die va = .ok home pa p ∧ p.kind = k ∧ p.kind ≠ .device ∧ p.r = true := by
  unfold State.engineAt State.engineTarget
  cases hl : s.launchOf t.ens with
  | none => exact ⟨nofun, fun ⟨l, _, h, _⟩ => nomatch h⟩
  | some l =>
    dsimp only
    rw [if_neg (by omega)]
    cases htr : s.translate l.sid t.die va with
    | unmapped =>
      refine ⟨nofun, fun ⟨l', p, h, h2, _⟩ => ?_⟩
      cases h
      cases htr.symm.trans h2
    | absent =>
      refine ⟨nofun, fun ⟨l', p, h, h2, _⟩ => ?_⟩
      cases h
      cases htr.symm.trans h2
    | ok h0 pa0 p0 =>
      dsimp only
      constructor
      · intro h
        by_cases hk : p0.kind = .device
        · rw [if_pos hk] at h
          cases h
        · rw [if_neg hk] at h
          by_cases hr : p0.r = true
          · rw [if_pos (by simpa using hr), targetOf, if_neg hk] at h
            cases h
            exact ⟨l, p0, rfl, htr, rfl, hk, hr⟩
          · rw [if_neg (by simpa using hr)] at h
            cases h
      · rintro ⟨l', p, h, h2, hkind, hk, hr⟩
        cases h
        cases htr.symm.trans h2
        rw [if_neg hk, if_pos (by simpa using hr), targetOf, if_neg hk, hkind]

/-- An engine's byte that lies in the pool lies there still. -/
theorem State.Seen.engineAt (h : z.Seen t.die s) {va home pa : Nat} {k : PageKind} (hva : va < Config.windowBase)
    (hz : z.engineAt t va false = .inr (.pool home pa k)) : s.engineAt t va false = .inr (.pool home pa k) := by
  obtain ⟨l, p, hl, htr, hkind, hdev, hr⟩ := (State.engineAt_pool_iff hva).mp hz
  obtain ⟨q, hq, hseen⟩ := h.translate htr
  have hk : q.kind = p.kind := (congrArg Pte.kind hseen :)
  have hqr : q.r = p.r := (congrArg Pte.r hseen :)
  exact (State.engineAt_pool_iff hva).mpr ⟨l, q, (h.launchOf _).trans hl, hq, hk.trans hkind, by rwa [hk], by rwa [hqr]⟩

/-! ### What a read leaves for its agent -/

theorem State.seen_takes (s : State) (d : Nat) (sp : Spot) (k : Nat) : s.Seen d (s.takes sp k) := by
  obtain ⟨ts, l, h⟩ := s.takes_turns sp k
  rw [h]
  exact ⟨fun _ => rfl, rfl, rfl, rfl, rfl, rfl, rfl, fun _ _ => rfl, id, id⟩

theorem State.seen_countDie (s : State) (d a k n : Nat) : s.Seen d (s.countDie a k n) :=
  ⟨fun j => by
    rw [State.countDie, State.die_modDie]
    split <;> rfl, rfl, rfl, rfl, rfl, rfl, rfl, fun _ _ => rfl, id, id⟩

theorem State.sub?_modSub_other {sid sid' : Nat} {f : Submitter → Submitter} (h : sid' ≠ sid) (hf : ∀ v, (f v).sid = v.sid) :
    (s.modSub sid f).sub? sid' = s.sub? sid' := by
  have hname : ∀ v : Submitter, (if v.sid = sid then f v else v).sid = v.sid := fun v => by split <;> simp [hf]
  rw [State.sub?, State.modSub, List.find?_map]
  simp only [Function.comp_def, hname]
  rw [State.sub?]
  cases hu : s.subs.find? fun u => u.sid == sid' with
  | none => rfl
  | some u =>
    have : u.sid = sid' := by simpa using List.find?_some hu
    rw [Option.map_some, if_neg (by omega)]

/-- A page that has been translated for an agent is as that agent sees it. -/
theorem State.page?_modPage_seen {sid base d : Nat} {f : Pte → Pte} (hs : ∀ p, (f p).size = p.size)
    (hf : ∀ p, (f p).seenFrom d = p.seenFrom d) (sid' a : Nat) :
    ((s.modPage sid base f).page? sid' a).map (fun e => (e.1, e.2.seenFrom d)) =
      (s.page? sid' a).map fun e => (e.1, e.2.seenFrom d) := by
  by_cases hsid : sid' = sid
  · subst hsid
    rw [State.page?_modPage hs, Option.map_map]
    congr 1
    funext e
    simp only [Function.comp]
    split
    · rw [hf]
    · rfl
  · have hsub := State.sub?_modSub_other (s := s) (f := fun u => { u with
      pages := u.pages.map fun e => if e.1 = base then (e.1, f e.2) else e }) hsid fun _ => rfl
    rw [State.page?, State.modPage, hsub]
    rfl

theorem State.seen_touchPage (s : State) (d sid va : Nat) : s.Seen d (s.touchPage sid va d) := by
  unfold State.touchPage
  split
  · exact .refl d s
  next b p _ =>
    extract_lets s1
    have h1 : s.Seen d s1 := by
      unfold s1
      split
      · exact .refl d s
      · exact ⟨fun _ => rfl, rfl, rfl, rfl, rfl, rfl, rfl,
          fun sid' a => State.page?_modPage_seen (by exact fun _ => rfl) (fun q => by
            simp only [Pte.seenFrom, Pte.homeFrom, Option.getD_some]) sid' a, id, id⟩
    split
    · exact h1.trans (s1.seen_takes d _ _)
    · exact h1

/-- A request that finds its channel empty passes. -/
theorem State.enginePass_empty {who : Asker} {last : Nat} {g : Target} (h : ∀ k, mget [] s.channels (t.die * 4 + k) = []) :
    ∃ v, s.enginePass t who last g = (v, true) ∧ s.Seen t.die v ∧ v.troupes = s.troupes := by
  unfold State.enginePass
  split
  · exact ⟨s, rfl, .refl _ s, rfl⟩
  · unfold State.passChan
    dsimp only
    split
    · exact ⟨s, rfl, .refl _ s, rfl⟩
    · rw [h]
      exact ⟨_, rfl, s.seen_takes _ _ _, (kept_takes (State.Kept.refl s)).troupes⟩

/-- A byte of a line that its slice holds, written by now and nowhere accepted alone. -/
theorem State.poolByte_held {d home pa : Nat} {coh : Bool} {who : Asker} {l : L2Line} (hrec : coh = true → s.inRecovery home (pa / 128) = false)
    (hl : s.line? home (pa / 128) = some l) (hst : l.st ≠ .i) (honce : l.once = none) (hpass : mget 0 l.passes (pa % 128) ≤ s.now)
    (hacc : l.accepted.contains (pa % 128) = false) (herrs : s.errs = []) :
    ∃ v, s.poolByte d home pa coh who = .bytes v [l.data.byte (pa % 128)] ∧ s.Seen d v ∧ v.troupes = s.troupes := by
  have hread : s.lineRead home (pa / 128) coh [pa % 128] who true = .ready s l := by
    unfold State.lineRead
    rw [hl]
    dsimp only
    rw [if_neg, if_neg (by simp [hst])]
    rw [L2Line.serves_of_none honce]
    cases coh with
    | false => simp
    | true => simp [hrec rfl]
  have hopen : l.open_ home (pa / 128) (pa % 128) 1 = [] := by
    have hm : pa % 128 ∉ l.accepted := by simpa using hacc
    simp [L2Line.open_, lineOffs, hm]
  unfold State.poolByte
  dsimp only
  rw [hread]
  dsimp only
  rw [if_neg (by rw [herrs]; simp), hopen]
  refine ⟨_, rfl, ?_, rfl⟩
  have h1 : s.Seen d { s with seenPass := max s.seenPass (mget 0 l.passes (pa % 128)), seenOpen := nunion s.seenOpen [] } :=
    ⟨fun _ => rfl, rfl, rfl, rfl, rfl, rfl, rfl, fun _ _ => rfl, fun h => Nat.max_le.mpr ⟨h, hpass⟩, id⟩
  exact h1.trans (State.seen_countDie _ _ _ _ _)

/-- Bytes that stand in held lines are read. -/
theorem State.Seen.engineReadFrom (hz : z.Seen t.die s) (hchan : ∀ k, mget [] z.channels (t.die * 4 + k) = []) (herrs : z.errs = [])
    {who : Asker} {last va n : Nat} {bs : List Byte} (hva : va + n ≤ Config.windowBase) (hr : z.Reads t va n bs) :
    ∃ v, s.engineReadFrom t who [] last va n = .bytes v bs ∧ z.Seen t.die v ∧ v.troupes = s.troupes := by
  induction n generalizing s last va bs with
  | zero =>
    obtain rfl := List.length_eq_zero_iff.mp hr.1
    exact ⟨s, rfl, hz, rfl⟩
  | succ n ih =>
    obtain ⟨hlen, hbytes⟩ := hr
    obtain ⟨b, bs, rfl⟩ := List.exists_cons_of_length_eq_add_one hlen
    obtain ⟨home, pa, k, l, hat, hrec, hl, hst, honce, hpass, hacc, hb⟩ := hbytes 0 (by omega)
    rw [Nat.add_zero] at hat
    obtain rfl : b = l.data.byte (pa % 128) := by simpa using hb
    have hat' := hz.engineAt (by omega) hat
    have h1 := hz.trans (s.seen_touchPage t.die (s.sidOf t) va)
    obtain ⟨v2, hpass2, hs2, ht2⟩ := State.enginePass_empty (s := s.touchPage (s.sidOf t) va t.die) (who := who) (last := last)
      (g := .pool home pa k) (by rw [h1.channels]; exact hchan)
    have h2 := h1.trans hs2
    obtain ⟨v3, hread, hs3, ht3⟩ := State.poolByte_held (s := v2) (d := t.die) (home := home) (pa := pa) (coh := k == .coherent)
      (who := who) (l := l) (fun hc => by rw [h2.inRecovery]; exact hrec (by simpa using hc)) ((h2.line? _ _).trans hl) hst honce
      (by rw [h2.now]; exact hpass) hacc (by rw [h2.errs]; exact herrs)
    obtain ⟨v4, hrest, hs4, ht4⟩ := ih (s := v3) (last := home) (va := va + 1) (bs := bs) (h2.trans hs3) (by omega)
      ⟨by simpa using hlen, fun i hi => by
        have := hbytes (i + 1) (by omega)
        rw [Nat.add_comm i 1, ← Nat.add_assoc] at this
        simpa [Nat.add_comm 1 i] using this⟩
    refine ⟨v4, ?_, hs4, ht4.trans (ht3.trans (ht2.trans (kept_touchPage (State.Kept.refl s)).troupes))⟩
    rw [State.engineReadFrom]
    dsimp only
    rw [show mfind ([] : List (Nat × Byte)) va = none from rfl]
    dsimp only
    rw [hat']
    dsimp only
    rw [hpass2]
    dsimp only
    rw [show v2.readByte t who (.pool home pa k) = v2.poolByte t.die home pa (k == .coherent) who from rfl, hread]
    dsimp only
    rw [show (Target.pool home pa k).dieOf t.die = home from rfl, hrest]
    rfl

/-- The same for the matrix unit. -/
theorem State.Seen.matRead (hz : z.Seen t.die s) (hchan : ∀ k, mget [] z.channels (t.die * 4 + k) = []) (herrs : z.errs = [])
    (hpre : o.pre = []) {va n : Nat} {bs : List Byte} (hr : z.MatReads t va n bs) :
    ∃ v, s.matRead t o va n = .bytes v bs ∧ z.Seen t.die v ∧ v.troupes = s.troupes := by
  obtain ⟨hva, hr⟩ := hr
  unfold State.matRead
  dsimp only
  split
  next hn =>
    subst hn
    obtain rfl := List.length_eq_zero_iff.mp hr.1
    exact ⟨s, rfl, hz, rfl⟩
  · rw [if_neg (by omega), State.opRead, hpre]
    exact hz.engineReadFrom hchan herrs hva hr

end

end

end Sys2Proof.Machine
end

section
namespace Sys2Proof.Machine

/-! ### The ends of tile operations -/

section
variable {z s : State} {t u : Troupe} {o v : Op}

/-- What a tile operation reads is what any troupe of its place reads. -/
theorem Troupe.SameButWork.matReads (h : t.SameButWork u) {va n : Nat} {bs : List Byte} (hr : z.MatReads t va n bs) : z.MatReads u va n bs := by
  rw [h]
  exact hr

/-- What an operation `o` has become, which is not complete and has met no fault: its accesses are performed where those of `o`
are. -/
structure Op.Clear (z : State) (o v : Op) : Prop where
  id : v.id = o.id
  done : v.done = false
  ends : v.ends = o.ends
  page : v.waitPage = o.waitPage
  fault : v.fault = none
  pre : v.pre = []
  ahead : v.ahead = []
  vol : v.volSeen = []
  performed : z.opOver o = true → z.opOver v = true

theorem Op.Clear.working (h : Op.Clear z o v) (hdone : o.done = false) : v.working = o.working := by
  rw [Op.working, Op.working, h.done, h.ends, h.page, hdone]

/-- The kinds of operation whose completion is their own. -/
def OpKind.plain (k : OpKind) : Prop := k.accs = [] ∧ ∀ (v : Op) n, v.kind = k → v.complete n = v.done

theorem OpKind.plain_mma (w : MmaWork) : (OpKind.mma w).plain := ⟨rfl, fun v n h => by rw [Op.complete, h]⟩

theorem OpKind.plain_tzero (a b : Nat) (w : Word) : (OpKind.tzero a b w).plain := ⟨rfl, fun v n h => by rw [Op.complete, h]⟩

/-- An operation that is done without a fault leaves its troupe. -/
theorem State.prune_done (hu : s.troupe? u.id = some u) (hrun : u.run = .running)
    (hens : ∀ e, s.ens? u.ens = some e → e.st = .running) (hops : u.ops = [v]) (hk : v.kind.plain) (hdone : v.done = true)
    (hfault : v.fault = none) (hvol : v.volSeen = []) :
    ∃ w, (s.prune u.id).troupe? u.id = some w ∧ w = { u with ops := [] } ∧ s.prune u.id = { s with troupes := (s.prune u.id).troupes } := by
  rw [State.prune_of_running hu hrun hens]
  refine ⟨_, State.troupe?_modTroupe_same (Troupe.pruned s) hu rfl, ?_, rfl⟩
  rw [Troupe.pruned, hops]
  simp [hk.2 v _ rfl, hk.1, hdone, hfault, hvol]

/-- A state in which an operation `o` of a troupe `t` works as from `z`: `u` and `v` are what they have become. -/
structure State.Works (z s : State) (t : Troupe) (o : Op) (u : Troupe) (v : Op) : Prop where
  seen : z.Seen t.die s
  here : s.troupe? t.id = some u
  tile : t.SameButWork u
  ops : u.ops = [v]
  clear : Op.Clear z o v

section
variable (hz : z.Sole t o)
include hz

theorem State.Sole.works : z.Works z t o t o := by
  obtain ⟨ht, -, -, hops, hdone, hfault, hahead, hpre, hvol, -⟩ := hz
  exact ⟨.refl _ z, ht, rfl, hops, ⟨rfl, hdone, rfl, rfl, hfault, hpre, hahead, hvol, fun h => h⟩⟩

theorem State.Sole.undone : o.done = false := by
  obtain ⟨-, -, -, -, hdone, -⟩ := hz
  exact hdone

theorem State.Sole.errs_nil : z.errs = [] := by
  obtain ⟨-, -, -, -, -, -, -, -, -, -, -, herrs, -⟩ := hz
  exact herrs

theorem State.Sole.channels_nil : ∀ k, mget [] z.channels (t.die * 4 + k) = [] := by
  obtain ⟨-, -, -, -, -, -, -, -, -, -, hchan, -⟩ := hz
  exact hchan

omit hz in
theorem State.Works.opOf (h : z.Works s t o u v) : s.opOf t.id o.id = some (u, v) := by
  rw [State.opOf, h.here]
  simp [Troupe.op?, h.ops, h.clear.id]

omit hz in
/-- A change of the troupe that its place and its registers outlive. -/
theorem State.Works.modTroupe (h : z.Works s t o u v) {g : Troupe → Troupe} {v' : Op} (hg : t.SameButWork (g u)) (hops : (g u).ops = [v'])
    (hv : Op.Clear z o v') : z.Works (s.modTroupe t.id g) t o (g u) v' where
  seen := h.seen.of_troupes rfl
  here := State.troupe?_modTroupe_same g h.here (hg.id.trans h.tile.id.symm)
  tile := hg
  ops := hops
  clear := hv

omit hz in
theorem State.Works.modOp (h : z.Works s t o u v) {f : Op → Op} (hv : Op.Clear z o (f v)) :
    z.Works (s.modOp t.id o.id f) t o (u.modOps o.id f) (f v) :=
  h.modTroupe (g := Troupe.modOps o.id f) (h.tile.trans rfl) (by rw [← h.clear.id, Troupe.ops_modOps h.ops]) hv

/-- Bytes that stand in held lines are read. -/
theorem State.Works.matRead (h : z.Works s t o u v) {x : Troupe} (hx : t.SameButWork x) {o' : Op} (hpre : o'.pre = []) {va n : Nat}
    {bs : List Byte} (hr : z.MatReads t va n bs) : ∃ s', s.matRead x o' va n = .bytes s' bs ∧ z.Works s' t o u v := by
  obtain ⟨s', hread, hseen, htroupes⟩ := State.Seen.matRead (t := x) (o := o') (s := s) (by rw [hx.die]; exact h.seen)
    (by rw [hx.die]; exact hz.channels_nil) hz.errs_nil hpre (hx.matReads hr)
  refine ⟨s', hread, by rw [hx.die] at hseen; exact hseen, ?_, h.tile, h.ops, h.clear⟩
  rw [State.troupe?, htroupes]
  exact h.here

/-- A write of the tile. -/
theorem State.Works.tileWrite (h : z.Works s t o u v) (off : Nat) (bs : List Byte) :
    z.Works (s.tileWrite t.id off bs) t o { u with tile := u.tile.write off bs } v := by
  have h1 := h.modTroupe (g := fun t => { t with tile := t.tile.write off bs }) (h.tile.trans rfl) h.ops h.clear
  have herrs : s.errs = [] := h.seen.errs.trans hz.errs_nil
  obtain ⟨h1, h2, h3, h4, h5⟩ := h1
  refine ⟨⟨h1.dies, h1.now, h1.channels, ?_, h1.pool, h1.launches, h1.ens, h1.pages, h1.pass, h1.open_⟩, h2, h3, h4, h5⟩
  rw [State.tileWrite, herrs, hz.errs_nil]
  rfl

theorem Op.Clear.seen (h : Op.Clear z o v) (hs : z.Seen t.die s) : Op.Clear z o (v.seen s) := by
  obtain ⟨-, -, -, -, -, -, -, -, -, -, -, -, hpass, hopen⟩ := hz
  obtain ⟨h1, h2, h3, h4, h5, h6, h7, h8, h9⟩ := h
  refine ⟨h1, h2, h3, h4, h5, h6, h7, h8, fun hover => ?_⟩
  have h9 := h9 hover
  simp only [State.opOver, Bool.and_eq_true, decide_eq_true_eq] at h9 ⊢
  obtain ⟨⟨ha, hb⟩, hc⟩ := h9
  refine ⟨⟨ha, Nat.max_le.mpr ⟨hb, hs.pass hpass⟩⟩, ?_⟩
  rw [Op.seen, hs.open_ hopen]
  exact hc

/-- The operation takes over what its reads have shown. -/
theorem State.Works.saw (h : z.Works s t o u v) : z.Works (s.saw t.id o.id) t o (u.modOps o.id (Op.seen s)) (v.seen s) := by
  rw [State.saw_of_free (h.seen.freeOf hz.freeOf)]
  obtain ⟨h1, h2, h3, h4, h5⟩ := h.modOp (f := Op.seen s) (h.clear.seen hz h.seen)
  exact ⟨⟨h1.dies, h1.now, h1.channels, h1.errs, h1.pool, h1.launches, h1.ens, h1.pages, fun _ => Nat.zero_le _, fun _ => rfl⟩,
    h2, h3, h4, h5⟩

/-- How a tile operation has ended: its troupe has none, its registers stand, and the pool shows what it showed. -/
structure State.TileEnded (z s : State) (t u w : Troupe) : Prop where
  here : s.troupe? t.id = some w
  regs : t.SameRegs w
  ops : w.ops = []
  pool : ∀ h pa, s.peekPool h pa = z.peekPool h pa
  tile : w.tile = u.tile
  mrow : w.mrow = u.mrow

/-- An operation that is done leaves its troupe. -/
theorem State.Works.leaves_as (h : z.Works s t o u v) {g : Troupe → Troupe} {v' : Op} (hg : t.SameButWork (g u)) (hops : (g u).ops = [v'])
    (hk : v'.kind.plain) (hdone : v'.done = true) (hfault : v'.fault = none) (hvol : v'.volSeen = []) :
    ∃ w, z.TileEnded ((s.modTroupe t.id g).prune t.id) t (g u) w := by
  obtain ⟨-, hrun, hens, -⟩ := hz
  have hid := hg.id
  have hu : (s.modTroupe t.id g).troupe? (g u).id = some (g u) := by
    rw [hid]
    exact State.troupe?_modTroupe_same g h.here (hid.trans h.tile.id.symm)
  obtain ⟨w, hw, rfl, hs⟩ := State.prune_done hu (hg.run.trans hrun)
    (by
      intro e he
      refine hens e ?_
      rw [← h.seen.ens?, ← hg.ens]
      exact he)
    hops hk hdone hfault hvol
  rw [hid] at hw hs
  have hseen : z.Seen t.die ((s.modTroupe t.id g).prune t.id) := (h.seen.of_troupes (s' := s.modTroupe t.id g) rfl).of_troupes hs
  exact ⟨_, hw, hg.regs, rfl, fun h pa => hseen.peekPool h pa, rfl, rfl⟩

theorem State.Works.leaves (h : z.Works s t o u v) {f : Op → Op} (hk : (f v).kind.plain)
    (hdone : (f v).done = true) (hfault : (f v).fault = none) (hvol : (f v).volSeen = []) :
    ∃ w, z.TileEnded ((s.modOp t.id o.id f).prune t.id) t (u.modOps o.id f) w :=
  h.leaves_as hz (g := Troupe.modOps o.id f) (h.tile.trans rfl) (by rw [← h.clear.id, Troupe.ops_modOps h.ops]) hk hdone hfault hvol

omit hz in
/-- Two changes of one operation are one. -/
theorem State.modOp_modOp (s : State) (id op : Nat) (f g : Op → Op) (hf : ∀ v, (f v).id = v.id) :
    (s.modOp id op f).modOp id op g = s.modOp id op fun v => g (f v) := by
  refine (State.modTroupe_modTroupe s id (Troupe.modOps op f) (Troupe.modOps op g) fun _ => rfl).trans ?_
  have hops : ∀ t : Troupe, (t.modOps op f).modOps op g = t.modOps op fun v => g (f v) := fun t => by
    simp only [Troupe.modOps, List.map_map]
    congr 1
    refine List.map_congr_left fun v _ => ?_
    by_cases h : v.id = op
    · simp [h, hf]
    · simp [h]
  simp only [hops]
  rfl

/-- A TLD or TST that has moved all its elements, or whose work is over, is complete once its accesses are performed. -/
theorem State.Works.finishTile (h : z.Works s t o u v) (hover : z.opOver o = true) (hk : v.kind.plain)
    (hc : o.ends = some (1, 0, none) ∨ (o.working = true ∧ v.kind.moved = v.kind.tileCount)) :
    ∃ w, z.TileEnded (s.finishTile t.id o.id) t u w := by
  have hleave : ∀ f : Op → Op, (∃ w, z.TileEnded ((s.modOp t.id o.id f).prune t.id) t (u.modOps o.id f) w) →
      ∃ w, z.TileEnded ((s.modOp t.id o.id f).prune t.id) t u w := fun f ⟨w, h1, h2, h3, h4, h5, h6⟩ => ⟨w, h1, h2, h3, h4, h5, h6⟩
  have hperf : s.opOver v = true := (h.seen.opOver v).trans (h.clear.performed hover)
  have hwork := h.clear.working hz.undone
  unfold State.finishTile
  rw [h.opOf]
  dsimp only
  obtain hends | ⟨hw, hmoved⟩ := hc
  · have hnot : o.working = false := by simp [Op.working, hends]
    rw [hwork, hnot, if_neg (by simp), h.opOf]
    dsimp only
    rw [h.clear.ends, hends]
    dsimp only
    rw [if_neg (by rw [h.clear.done, hperf]; simp)]
    exact hleave _ (h.leaves hz hk rfl rfl h.clear.vol)
  · rw [hwork, hw, hmoved, beq_self_eq_true, Bool.and_self, if_pos rfl]
    have hof : (s.endWork t.id o.id 1 0 none).opOf t.id o.id = some (u.modOps o.id (Op.overWith 1 0), v.overWith 1 0) := by
      rw [State.opOf, show (s.endWork t.id o.id 1 0 none).troupe? t.id = some (u.modOps o.id (Op.overWith 1 0)) from
        State.troupe?_modTroupe_same (Troupe.modOps o.id (Op.overWith 1 0)) h.here rfl, Option.bind_some, Troupe.op?, ← h.clear.id,
        Troupe.ops_modOps h.ops]
      simp [Op.overWith]
    rw [hof]
    dsimp only
    rw [show (v.overWith 1 0).ends = some (1, 0, none) from rfl]
    dsimp only
    rw [if_neg (by
      rw [show (v.overWith 1 0).done = false from h.clear.done, show (s.endWork t.id o.id 1 0 none).opOver (v.overWith 1 0) = true
        from hperf]
      simp)]
    rw [show s.endWork t.id o.id 1 0 none = s.modOp t.id o.id (Op.overWith 1 0) from rfl,
      State.modOp_modOp s t.id o.id (Op.overWith 1 0) _ fun _ => rfl]
    exact hleave _ (h.leaves hz hk rfl rfl h.clear.vol)

end

end

end Sys2Proof.Machine
end

section
namespace Sys2Proof.Machine

/-! ### TZERO, TST and PAGE_WAIT_RESUME -/

section
variable {s s1 s2 s3 : State} {t : Troupe} {o : Op}

theorem OpKind.plain_tst (ty : Ty) (rnd : Rnd) (sat : Bool) (fb : FormatBlock) (base : Nat) (a : DWord) (pitch : Nat) (qs : List Quarter)
    (m : Nat) : (OpKind.tst ty rnd sat fb base a pitch qs m).plain := ⟨rfl, fun v n h => by rw [Op.complete, h]⟩

theorem OpKind.plain_tld (ty : Ty) (fb : FormatBlock) (base : Nat) (a : DWord) (pitch : Nat) (qs : List Quarter)
    (m : Nat) : (OpKind.tld ty fb base a pitch qs m).plain := ⟨rfl, fun v n h => by rw [Op.complete, h]⟩

/-- No earlier operation holds the ranges of a troupe's one operation. -/
theorem Troupe.tileReady_one (h : t.ops = [o]) : t.tileReady o = true := by
  simp [Troupe.tileReady, tileFree, h]

theorem State.Sole.ops (h : s.Sole t o) : t.ops = [o] := by
  obtain ⟨-, -, -, hops, -⟩ := h
  exact hops

/-- TZERO (R279). -/
theorem tzero_completes {off n : Nat} {w : Word} (h : s.AtWork t o) (hk : o.kind = .tzero off n w) :
    ∃ s' t', execTileOpComplete t.id o.id s = .next s' ∧ s.TileEnded s' t { t with
      tile := t.tile.write off (wordBytes (List.replicate (n / 4) w.toNat)) } t' := by
  obtain ⟨hz, hwork⟩ := h
  obtain ⟨w', h1, h2, h3, h4, h5, h6⟩ := (hz.works.tileWrite hz off (wordBytes (List.replicate (n / 4) w.toNat))).leaves hz
    (f := fun o => { o with done := true }) (by
      rw [show ({ o with done := true } : Op).kind = o.kind from rfl, hk]
      exact OpKind.plain_tzero off n w) rfl hz.works.clear.fault hz.works.clear.vol
  refine ⟨_, w', ?_, ⟨h1, h2, h3, h4, h5, h6⟩⟩
  have hbytes : ((List.range (n / 4)).flatMap fun _ => leBytes 4 w.toNat) = wordBytes (List.replicate (n / 4) w.toNat) := by
    simp [wordBytes, List.flatMap_def]
  rw [execTileOpComplete, hz.opOf]
  dsimp only
  rw [hwork, if_neg (by simp), Troupe.tileReady_one hz.ops, if_neg (by simp), hk]
  dsimp only
  rw [hbytes]

/-- A tile operation whose work is over and performed leaves its troupe. -/
theorem tileOp_leaves (h : s.WorkOver t o 1 0) (hk : o.kind.plain) :
    ∃ s' t', execTileOpComplete t.id o.id s = .next s' ∧ s.TileEnded s' t t t' := by
  obtain ⟨hz, hends, hover⟩ := h
  obtain ⟨w, hend⟩ := hz.works.finishTile hz hover hk (.inl hends)
  refine ⟨_, w, ?_, hend⟩
  rw [execTileOpComplete, hz.opOf]
  dsimp only
  rw [if_pos (by simp [Op.working, hends])]

theorem pageWaitResume_resumes {va : Nat} (ht : s.troupe? t.id = some t) (ho : t.op? o.id = some o) (hp : o.waitPage = some va)
    (htr : s.translate (s.sidOf t) t.die va ≠ .absent) :
    ∃ s' t', execPageWaitResume t.id o.id s = .next s' ∧ s'.troupe? t.id = some t' ∧ t.SameRegs t' ∧ s'.pool = s.pool ∧
      t'.op? o.id = some { o with waitPage := none } := by
  refine ⟨s.modOp t.id o.id fun o => { o with waitPage := none }, t.modOps o.id fun o => { o with waitPage := none }, ?_,
    State.troupe?_modTroupe_same (Troupe.modOps o.id fun o => { o with waitPage := none }) ht rfl, fun _ _ => rfl, rfl, ?_⟩
  · rw [execPageWaitResume, ht, Option.bind_some, ho]
    dsimp only [Option.map_some]
    rw [hp]
    dsimp only
    split
    next h => exact absurd h htr
    · rfl
  · have hid : ∀ v : Op, (if v.id = o.id then { v with waitPage := none } else v).id = v.id := fun v => by split <;> rfl
    rw [Troupe.op?] at ho ⊢
    rw [Troupe.modOps, List.find?_map]
    simp only [Function.comp_def, hid, ho, Option.map_some, if_true]

/-! #### An element of a TST -/

theorem State.steps_matRead {w : Asker} {va n : Nat} {bs : List Byte} (h : s.matRead t o va n = .bytes s1 bs) : s.Steps w s1 := by
  unfold State.matRead at h
  dsimp only at h
  split at h
  · cases h
    exact .refl w s
  · split at h
    · cases h
    · exact State.steps_engineReadFrom h

theorem State.steps_bandOf {w : Asker} {band r : Nat} {bs : List Byte} {p : Num} (h : s.bandOf t o band r = (.bytes s1 bs, p)) :
    s.Steps w s1 := by
  unfold State.bandOf at h
  split at h
  · cases h
    exact .refl w s
  · cases hr : s.matRead t o (band + 2 * (r / 64)) 2 with
    | bytes v bs =>
      rw [hr] at h
      cases h
      exact State.steps_matRead hr
    | waits v pg =>
      rw [hr] at h
      cases h
    | fault v c a =>
      rw [hr] at h
      cases h

theorem State.opWrite_of_matWrite {va : Nat} {bs bs' : List Byte} (h : s.matWrite t o va bs = .bytes s1 bs') :
    s.opWrite t o (va % 2 ^ 64) bs = .bytes s1 bs' := by
  unfold State.matWrite at h
  dsimp only at h
  split at h
  · cases h
  · exact h

/-- Rows of one length, one after another. -/
theorem getElem?_flatMap_range {α : Type} (f : Nat → Nat → α) (n : Nat) {m i j : Nat} (hi : i < m) (hj : j < n) :
    ((List.range m).flatMap fun i => (List.range n).map (f i))[i * n + j]? = some (f i j) := by
  have hlen : ∀ m, ((List.range m).flatMap fun i => (List.range n).map (f i)).length = m * n := fun m => by simp
  induction m with
  | zero => omega
  | succ m ih =>
    rw [List.range_succ, List.flatMap_append]
    by_cases him : i < m
    · have hin : i * n + j < m * n := by
        calc i * n + j < i * n + n := by omega
          _ = (i + 1) * n := by rw [Nat.add_mul, Nat.one_mul]
          _ ≤ m * n := Nat.mul_le_mul_right n him
      rw [List.getElem?_append_left (by rw [hlen]; exact hin), ih him]
    · obtain rfl : i = m := by omega
      rw [List.getElem?_append_right (by rw [hlen]; omega), hlen, Nat.add_sub_cancel_left]
      simp [hj]

/-- The elements of a quarter, row by row. -/
theorem tileElems_get (fb : FormatBlock) (q : Quarter) {i j : Nat} (hi : i < fb.m) (hj : j < fb.n) :
    (tileElems fb [q])[i * fb.n + j]? = some (q, i, j) := by
  rw [tileElems, List.flatMap_singleton]
  exact getElem?_flatMap_range (fun i j => (q, i, j)) fb.n hi hj

theorem tileElems_length (fb : FormatBlock) (q : Quarter) : (tileElems fb [q]).length = fb.m * fb.n := by
  simp [tileElems]

/-- A state that shows of a troupe's tile and registers, and of the pool, what `z` shows. -/
structure State.Shows (z s : State) (t w : Troupe) : Prop where
  here : s.troupe? t.id = some w
  same : t.SameButWork w
  tile : w.tile = t.tile
  dies : s.dies = z.dies
  pool : s.pool = z.pool
  ens : s.ens = z.ens

theorem State.Shows.modOp {z : State} {w : Troupe} (h : z.Shows s t w) (op : Nat) (f : Op → Op) :
    z.Shows (s.modOp t.id op f) t (w.modOps op f) where
  here := State.troupe?_modTroupe_same (Troupe.modOps op f) h.here rfl
  same := h.same.trans rfl
  tile := h.tile
  dies := h.dies
  pool := h.pool
  ens := h.ens

theorem State.Shows.prune {z : State} {w : Troupe} (h : z.Shows s t w) (hrun : t.run = .running)
    (hens : ∀ e, z.ens? t.ens = some e → e.st = .running) : ∃ w, z.Shows (s.prune t.id) t w := by
  rw [State.prune_of_running h.here (h.same.run.trans hrun) fun e he => hens e (by
    rw [← h.same.ens, State.ens?, ← h.ens]
    exact he)]
  exact ⟨w.pruned s, State.troupe?_modTroupe_same (Troupe.pruned s) h.here rfl, h.same.trans rfl, h.tile, h.dies, h.pool, h.ens⟩

/-- The end of a tile operation leaves the tile, the registers and what the pool shows, whether it is complete or not. -/
theorem State.finishTile_shows (ht : s.troupe? t.id = some t) (hrun : t.run = .running)
    (hens : ∀ e, s.ens? t.ens = some e → e.st = .running) (op : Nat) : ∃ w, s.Shows (s.finishTile t.id op) t w := by
  have h0 : s.Shows s t t := ⟨ht, rfl, rfl, rfl, rfl, rfl⟩
  unfold State.finishTile
  split
  · exact ⟨t, h0⟩
  next v _ =>
    extract_lets s1
    obtain ⟨u, h1⟩ : ∃ u, s.Shows s1 t u := by
      unfold s1
      split
      · exact ⟨_, h0.modOp op (Op.overWith 1 0)⟩
      · exact ⟨t, h0⟩
    split
    · exact ⟨u, h1⟩
    · split
      · split
        · exact ⟨u, h1⟩
        next f _ _ => exact (h1.modOp op fun o => { o with done := true, fault := f }).prune hrun hens
      · exact ⟨u, h1⟩

/-- The last element of a TST, rounded with its bands. -/
theorem tst_writes_last {ty : Ty} {rnd : Rnd} {sat : Bool} {fb : FormatBlock} {base : Nat} {a : DWord} {pitch : Nat} {q : Quarter}
    {b1 b2 : List Byte} {p1 p2 : Num} (h : s.AtWork t o)
    (hk : o.kind = .tst ty rnd sat fb base a pitch [q] (fb.m * fb.n - 1)) (hm : 0 < fb.m) (hn : 0 < fb.n)
    (hb1 : s.bandOf t o (if ty.cls = true then fb.aband else 0) (q.m0 + (fb.m - 1)) = (.bytes s1 b1, p1))
    (hb2 : s1.bandOf t o (if ty.cls = true then fb.bband else 0) (q.n0 + (fb.n - 1)) = (.bytes s2 b2, p2))
    (hw : s2.matWrite t o (a.toNat + (q.m0 + (fb.m - 1)) * pitch + (q.n0 + (fb.n - 1)) * moveSize ty)
      (leBytes (moveSize ty) (if ty.cls = true then
          roundTo ty rnd sat 0 ((value .f32 (t.tileWord (base + 4 * (q.q * fb.m * fb.n + (fb.m - 1) * fb.n + (fb.n - 1))))).mul
            (p1.mul p2))
        else t.tileWord (base + 4 * (q.q * fb.m * fb.n + (fb.m - 1) * fb.n + (fb.n - 1))))) = .bytes s3 []) :
    ∃ s' t', execTileOpComplete t.id o.id s = .next s' ∧ s'.troupe? t.id = some t' ∧ t.SameRegs t' ∧ t'.tile = t.tile ∧
      ∀ h pa, s'.peekPool h pa = s3.peekPool h pa := by
  obtain ⟨hz, hwork⟩ := h
  have hopw := State.opWrite_of_matWrite hw
  obtain ⟨u, hu⟩ := hz.worked ((State.steps_bandOf hb1).trans (State.steps_bandOf hb2)) hopw
  have hlast : (fb.m - 1) * fb.n + (fb.n - 1) = fb.m * fb.n - 1 := by
    have : fb.m * fb.n = (fb.m - 1) * fb.n + fb.n := by
      rw [← Nat.succ_mul, Nat.succ_eq_add_one, Nat.sub_add_cancel hm]
    omega
  have hpos : 0 < fb.m * fb.n := Nat.mul_pos hm hn
  set k := fb.m * fb.n - 1 with hkdef
  set va := a.toNat + (q.m0 + (fb.m - 1)) * pitch + (q.n0 + (fb.n - 1)) * moveSize ty with hva
  have helem : s.tileElem t o k = .moved s3 (va % 2 ^ 64) (s3.linesOf t (va % 2 ^ 64) (moveSize ty)) := by
    unfold State.tileElem
    rw [hk]
    dsimp only
    rw [← hlast, tileElems_get fb q (by omega) (by omega)]
    dsimp only [State.tstElem, elemOff, elemAddr]
    rw [hb1]
    dsimp only
    rw [hb2]
    dsimp only
    have hmod : s2.matWrite t o (va % 2 ^ 64) = s2.matWrite t o va := by
      funext bs
      rw [State.matWrite, State.matWrite, Nat.mod_mod]
    rw [← hva, hmod, hw]
  set f : Op → Op := fun o => { o with
    kind := o.kind.withMoved (k + 1), lines := (s3.linesOf t (va % 2 ^ 64) (moveSize ty) ++ o.lines).dedup
    ahead := o.ahead.filter fun e => e.1 != k } with hf
  obtain ⟨t', ls, r, sh, ht', hsame, htile, hpool, hdies, hens', -⟩ := hu.recorded f rfl (v := s3.modOp t.id o.id f) rfl rfl rfl
  have hahead := hz.works.clear.ahead
  obtain ⟨-, hrun, hens, -⟩ := id hz
  have hid := hsame.id
  obtain ⟨w, hshow⟩ := State.finishTile_shows (s := (s3.modOp t.id o.id f).saw t.id o.id) (t := t') (by rw [hsame.id]; exact ht')
    (hsame.run.trans hrun) (by
      intro e he
      rw [hsame.ens, State.ens?, hens'] at he
      have hst := hu.ens t.ens
      rw [show s3.ens? t.ens = some e from he] at hst
      obtain ⟨e', he', hst'⟩ := Option.map_eq_some_iff.mp hst.symm
      exact hst' ▸ hens e' he') o.id
  rw [hid] at hshow
  have hmoved : o.kind.moved = k ∧ o.kind.tileCount = k + 1 := by
    rw [hk]
    exact ⟨rfl, by rw [OpKind.tileCount, tileElems_length]; omega⟩
  refine ⟨((s3.modOp t.id o.id f).saw t.id o.id).finishTile t.id o.id, w, ?_, ?_, (hsame.trans hshow.same).regs,
    hshow.tile.trans htile, fun h pa => ?_⟩
  · have hok : (o.kind.tileRanges.any fun r => s.tileBad t.id r.1 r.2) = false := by
      simp [State.tileBad, hz.errs_nil]
    have hstep : s.moveNext State.tileElem tileCode t.id o.id (o.kind.tileCount - o.kind.moved) =
        (s3.modOp t.id o.id f).saw t.id o.id := by
      rw [hmoved.1, hmoved.2, Nat.add_sub_cancel_left, State.moveNext, hz.opOf]
      dsimp only
      rw [hwork, if_neg (by decide), hmoved.1, hahead, if_neg (by simp), helem]
      rfl
    rw [execTileOpComplete, hz.opOf]
    dsimp only
    rw [hwork, if_neg (by simp), Troupe.tileReady_one hz.ops, if_neg (by simp), hstep, hok]
    rw [hk]
    rfl
  · have := hshow.here
    rwa [hid] at this
  · rw [State.peekPool_congr hshow.dies hshow.pool, State.peekPool_congr hdies hpool]

end

end Sys2Proof.Machine
end

section
namespace Sys2Proof.Machine

/-! ### TLD -/

section
variable {z s : State} {t u : Troupe} {o v : Op}

theorem State.linesOver_dedup (s : State) (ls : List (Nat × Nat)) : s.linesOver ls.dedup = s.linesOver ls := by
  rw [Bool.eq_iff_iff, State.linesOver, State.linesOver, List.all_eq_true, List.all_eq_true]
  simp only [List.mem_dedup]

/-- An operation that has moved an element and written no line. -/
def Op.moved_ (k : Nat) (v : Op) : Op :=
  { v with kind := v.kind.withMoved (k + 1), lines := ([] ++ v.lines).dedup, ahead := v.ahead.filter fun e => e.1 != k }

theorem Op.Clear.moved (h : Op.Clear z o v) (k : Nat) : Op.Clear z o (v.moved_ k) where
  id := h.id
  done := h.done
  ends := h.ends
  page := h.page
  fault := h.fault
  pre := h.pre
  ahead := by rw [Op.moved_, h.ahead]; rfl
  vol := h.vol
  performed := fun hover => by
    have := h.performed hover
    rw [State.opOver] at this ⊢
    rwa [Op.moved_, List.nil_append, State.linesOver_dedup]

/-- A matrix read depends on its address modulo 2^64 alone. -/
theorem State.matRead_mod (s : State) (t : Troupe) (o : Op) (va n : Nat) : s.matRead t o (va % 2 ^ 64) n = s.matRead t o va n := by
  rw [State.matRead, State.matRead, Nat.mod_mod]

/-- A tile of which the words below the `k`-th of a range hold what `V` names, and the rest is as it was. -/
def Memory.FilledTo (m m' : Memory) (lo k : Nat) (V : Nat → Nat) : Prop :=
  (∀ i, i < k → m'.nat (lo + 4 * i) 4 = V i % 2 ^ 32) ∧ ∀ x, x < lo ∨ lo + 4 * k ≤ x → m'.byte x = m.byte x

theorem Memory.filledTo_zero (m : Memory) (lo : Nat) (V : Nat → Nat) : m.FilledTo m lo 0 V := ⟨nofun, fun _ _ => rfl⟩

/-- The next words written. -/
theorem Memory.FilledTo.write {m m' : Memory} {lo k : Nat} {V : Nat → Nat} (h : m.FilledTo m' lo k V) (vs : List Nat)
    (hv : ∀ j (hj : j < vs.length), vs[j] = V (k + j)) : m.FilledTo (m'.write (lo + 4 * k) (wordBytes vs)) lo (k + vs.length) V := by
  refine ⟨fun i hi => ?_, fun x hx => ?_⟩
  · by_cases hk : i < k
    · rw [Memory.nat_congr fun r hr => Memory.byte_write_outside _ _ _ _ (.inl (by omega))]
      exact h.1 i hk
    · have hj : i - k < vs.length := by omega
      have := m'.nat_write_words (lo + 4 * k) (i - k) vs hj
      rw [hv _ hj, show k + (i - k) = i by omega, show lo + 4 * k + 4 * (i - k) = lo + 4 * i by omega] at this
      exact this
  · rw [Memory.byte_write_outside _ _ _ _ (by rw [wordBytes_length]; omega)]
    exact h.2 x (by omega)

section
variable (hz : z.Sole t o)
include hz

/-- The elements of a TLD that are left, read in order and written to the tile. -/
theorem State.Works.loads {ty : Ty} {fb : FormatBlock} {base : Nat} {a : DWord} {pitch : Nat} {q : Quarter} {E : Nat → Nat → List Byte}
    {V : Nat → Nat} (hwork : o.working = true)
    (hread : ∀ i j, i < fb.m → j < fb.n →
      z.MatReads t (a.toNat + (q.m0 + i) * pitch + (q.n0 + j) * moveSize ty) (moveSize ty) (E i j))
    (hV : ∀ i j, i < fb.m → j < fb.n → V (i * fb.n + j) =
      if ty.cls = true then rne .f32 (value ty (leNat (E i j))) else leNat (E i j))
    (n : Nat) {k : Nat} (hkn : k + n = fb.m * fb.n) (h : z.Works s t o u v) (hkind : v.kind = .tld ty fb base a pitch [q] k)
    (htile : t.tile.FilledTo u.tile (base + 4 * (q.q * fb.m * fb.n)) k V) :
    ∃ u' v', z.Works (s.moveNext State.tileElem tileCode t.id o.id n) t o u' v' ∧
      v'.kind = .tld ty fb base a pitch [q] (fb.m * fb.n) ∧
      t.tile.FilledTo u'.tile (base + 4 * (q.q * fb.m * fb.n)) (fb.m * fb.n) V ∧ u'.mrow = u.mrow := by
  induction n generalizing s u v k with
  | zero =>
    obtain rfl : k = fb.m * fb.n := hkn
    exact ⟨u, v, h, hkind, htile, rfl⟩
  | succ n ih =>
    have hn : 0 < fb.n := Nat.pos_of_ne_zero fun h0 => by
      rw [h0, Nat.mul_zero] at hkn
      omega
    have hi : k / fb.n < fb.m := Nat.div_lt_of_lt_mul (by rw [Nat.mul_comm]; omega)
    have hj : k % fb.n < fb.n := Nat.mod_lt _ hn
    have hk : k / fb.n * fb.n + k % fb.n = k := by rw [Nat.mul_comm]; exact Nat.div_add_mod ..
    obtain ⟨s1, hr, h1⟩ := h.matRead hz h.tile h.clear.pre (hread _ _ hi hj)
    have hoff : base + 4 * (q.q * fb.m * fb.n + k / fb.n * fb.n + k % fb.n) = base + 4 * (q.q * fb.m * fb.n) + 4 * k := by
      rw [Nat.add_assoc (q.q * fb.m * fb.n), hk]
      omega
    have hval : (if ty.cls = true then rne .f32 (value ty (leNat (E (k / fb.n) (k % fb.n)))) else leNat (E (k / fb.n) (k % fb.n))) =
        V k := by rw [← hV _ _ hi hj, hk]
    set bytes := leBytes 4 (V k) with hbytes
    have helem : s.tileElem u v k = .moved (s1.tileWrite t.id (base + 4 * (q.q * fb.m * fb.n) + 4 * k) bytes) 0 [] := by
      rw [State.tileElem, hkind]
      dsimp only
      rw [← hk, tileElems_get fb q hi hj, hk]
      dsimp only [State.tldElem, elemOff, elemAddr]
      rw [State.matRead_mod, hr]
      dsimp only
      rw [hoff, h.tile.id, show (if ty.cls = true then rne32 (value ty (leNat (E (k / fb.n) (k % fb.n))))
        else leNat (E (k / fb.n) (k % fb.n))) = V k from hval]
    have h2 := ((h1.tileWrite hz (base + 4 * (q.q * fb.m * fb.n) + 4 * k) bytes).modOp (h1.clear.moved k)).saw hz
    have hwords : bytes = wordBytes [V k] := by simp [wordBytes, hbytes]
    obtain ⟨u', v', h3, hkind3, htile3, hmrow⟩ := ih (k := k + 1) (by omega) h2 (by
        rw [show ((v.moved_ k).seen _).kind = v.kind.withMoved (k + 1) from rfl, hkind]
        rfl)
      (by
        have := htile.write [V k] fun j hj => by
          obtain rfl : j = 0 := by simpa using hj
          rfl
        rw [← hwords] at this
        exact this)
    refine ⟨u', v', ?_, hkind3, htile3, hmrow⟩
    rw [State.moveNext, h.opOf]
    dsimp only
    rw [h.clear.working hz.undone, hwork, if_neg (by decide), h.clear.ahead, if_neg (by simp),
      show v.kind.moved = k by rw [hkind]; rfl, helem]
    exact h3

end

/-- A TLD of one quarter. -/
theorem tld_completes {ty : Ty} {fb : FormatBlock} {base : Nat} {a : DWord} {pitch : Nat} {q : Quarter} {E : Nat → Nat → List Byte}
    (h : z.AtWork t o) (hk : o.kind = .tld ty fb base a pitch [q] 0) (hover : z.opOver o = true)
    (hread : ∀ i j, i < fb.m → j < fb.n →
      z.MatReads t (a.toNat + (q.m0 + i) * pitch + (q.n0 + j) * moveSize ty) (moveSize ty) (E i j)) :
    ∃ s' t' u, execTileOpComplete t.id o.id z = .next s' ∧ z.TileEnded s' t u t' ∧ u.mrow = t.mrow ∧
      t.tile.FilledTo u.tile (base + 4 * (q.q * fb.m * fb.n)) (fb.m * fb.n) fun k =>
        if ty.cls = true then rne .f32 (value ty (leNat (E (k / fb.n) (k % fb.n)))) else leNat (E (k / fb.n) (k % fb.n)) := by
  obtain ⟨hz, hwork⟩ := h
  obtain ⟨u, v, hw, hkind, htile, hmrow⟩ := hz.works.loads hz hwork hread (V := fun k =>
      if ty.cls = true then rne .f32 (value ty (leNat (E (k / fb.n) (k % fb.n)))) else leNat (E (k / fb.n) (k % fb.n)))
    (fun i j hi hj => by
      rw [Nat.add_comm (i * fb.n), Nat.add_mul_div_right _ _ (by omega), Nat.add_mul_mod_self_right, Nat.div_eq_of_lt hj,
        Nat.mod_eq_of_lt hj, Nat.zero_add])
    (fb.m * fb.n) (Nat.zero_add _) hk (Memory.filledTo_zero ..)
  obtain ⟨w, hend⟩ := hw.finishTile hz hover (by rw [hkind]; exact OpKind.plain_tld ..) (.inr ⟨hwork, by
    rw [hkind, OpKind.tileCount, tileElems_length]
    rfl⟩)
  refine ⟨_, w, u, ?_, hend, hmrow, htile⟩
  have hcount : o.kind.tileCount - o.kind.moved = fb.m * fb.n := by
    rw [hk, OpKind.tileCount, tileElems_length]
    rfl
  rw [execTileOpComplete, hz.opOf]
  dsimp only
  rw [hwork, if_neg (by simp), Troupe.tileReady_one hz.ops, if_neg (by simp), hcount, hk]

end

end Sys2Proof.Machine
end

section
namespace Sys2Proof.Machine

/-! ### MMA -/

section
variable {z s : State} {t u x : Troupe} {o o' v : Op}

/-- A row of a fragment, with its scales and its band scale, stands in held lines. -/
def State.HasRow (z : State) (t : Troupe) (f : Fragment) (r : Nat) (d : RowData) : Prop :=
  ∃ bs, z.MatReads t (f.base + r * f.ld + elemBits f.ty * f.k0 / 8) (elemBits f.ty * f.k / 8) bs ∧ d.bits = leNat bs ∧
    (if f.scl = 0 then d.scales = [] else z.MatReads t (f.scl + r * f.lds + f.k0 / f.blk) (f.k / f.blk) d.scales) ∧
    (f.band = 0 ∨ ∃ x, z.MatReads t (f.band + 2 * (r / 64)) 2 x)

theorem State.matRead_zero (s : State) (t : Troupe) (o : Op) (va : Nat) : s.matRead t o va 0 = .bytes s [] := rfl

theorem Op.Clear.withKind (h : Op.Clear z o v) (k : OpKind) : Op.Clear z o { v with kind := k } := by
  obtain ⟨h1, h2, h3, h4, h5, h6, h7, h8, h9⟩ := h
  exact ⟨h1, h2, h3, h4, h5, h6, h7, h8, h9⟩

section
variable (hz : z.Sole t o)
include hz

theorem State.Works.operandRow (h : z.Works s t o u v) (hx : t.SameButWork x) (hpre : o'.pre = []) {f : Fragment} {r : Nat}
    {d : RowData} (hr : z.HasRow t f r d) : ∃ s', s.operandRow x o' f r = .row s' d ∧ z.Works s' t o u v := by
  obtain ⟨bs, hbits, hd, hscales, hband⟩ := hr
  obtain ⟨s1, hr1, h1⟩ := h.matRead hz hx hpre hbits
  obtain ⟨s2, hr2, h2⟩ : ∃ s2, s1.matRead x o' (f.scl + r * f.lds + f.k0 / f.blk) (if f.scl = 0 then 0 else f.k / f.blk) =
      .bytes s2 d.scales ∧ z.Works s2 t o u v := by
    by_cases h0 : f.scl = 0
    · rw [if_pos h0] at hscales ⊢
      rw [hscales]
      exact ⟨s1, s1.matRead_zero .., h1⟩
    · rw [if_neg h0] at hscales ⊢
      exact h1.matRead hz hx hpre hscales
  obtain ⟨s3, bb, hr3, h3⟩ : ∃ s3 bb, s2.matRead x o' (f.band + 2 * (r / 64)) (if f.band = 0 then 0 else 2) = .bytes s3 bb ∧
      z.Works s3 t o u v := by
    by_cases h0 : f.band = 0
    · rw [if_pos h0]
      exact ⟨s2, [], s2.matRead_zero .., h2⟩
    · obtain ⟨y, hy⟩ := hband.resolve_left h0
      rw [if_neg h0]
      obtain ⟨s3, hr3, h3⟩ := h2.matRead hz hx hpre hy
      exact ⟨s3, y, hr3, h3⟩
  refine ⟨s3, ?_, h3⟩
  unfold State.operandRow
  rw [hr1]
  dsimp only
  rw [hr2]
  dsimp only
  rw [hr3, ← hd]

theorem State.Works.fragmentRow (h : z.Works s t o u v) (hx : t.SameButWork x) (hpre : o'.pre = []) {f : Fragment} {opB : Bool} {r : Nat}
    {d : RowData} (hr : z.HasRow t f (f.row + r) d) :
    ∃ s', s.fragmentRow x o' [] f opB r = .row s' d ∧ z.Works s' t o u v :=
  h.operandRow hz hx hpre hr

/-- The cells of one row of a quarter. -/
theorem State.Works.rowCells (h : z.Works s t o u v) (hx : t.SameButWork x) (hpre : o'.pre = []) {w : MmaWork} {q : Quarter} {i : Nat}
    {a : RowData} {B : Nat → RowData} (hB : ∀ j, j < w.fb.n → z.HasRow t (w.fragment q true) (q.n0 + j) (B j)) (n : Nat) {j : Nat}
    (hjn : j + n = w.fb.n) :
    ∃ s', s.rowCells x o' [] w q i a j n = (s', (List.range n).map (fun k => cell w.sr w.fb
      (x.tileWord (w.t + 4 * (q.q * w.fb.m * w.fb.n + i * w.fb.n + (j + k)))) a (B (j + k))), .done) ∧ z.Works s' t o u v := by
  induction n generalizing s j with
  | zero => exact ⟨s, rfl, h⟩
  | succ n ih =>
    obtain ⟨s1, hr, h1⟩ := h.fragmentRow hz hx hpre (f := w.fragment q true) (opB := true) (r := j) (hB j (by omega))
    obtain ⟨s2, hrest, h2⟩ := ih h1 (j := j + 1) (by omega)
    refine ⟨s2, ?_, h2⟩
    rw [State.rowCells, hr]
    dsimp only
    rw [hrest, List.range_succ_eq_map, List.map_cons, List.map_map]
    simp only [Function.comp_def, Nat.add_zero, Nat.succ_eq_add_one, Nat.add_assoc, Nat.add_comm 1]

/-- A row of A that has been read goes to the join. -/
theorem State.Works.shareRow (h : z.Works s t o u v) {w : MmaWork} {c : List (Nat × RowData)} (hk : v.kind = .mma { w with common := c })
    (r : Nat) (d : RowData) : ∃ u' v' c', z.Works (s.shareRow w r d) t o u' v' ∧ v'.kind = .mma { w with common := c' } ∧
      (∀ k, k ≠ r → mfind c' k = mfind c k) ∧ u'.tile = u.tile ∧ u'.mrow = u.mrow := by
  unfold State.shareRow
  split
  · exact ⟨u, v, c, h, hk, fun _ _ => rfl, rfl, rfl⟩
  · set share : Op → Op := fun o => match o.kind with
      | .mma v =>
        if v.join = w.join ∧ v.fb = w.fb then
          { o with kind := .mma { v with common := mput r d v.common }, rdPass := max o.rdPass s.seenPass,
                   rdShared := nunion o.rdShared s.seenOpen }
        else o
      | _ => o with hshare
    have hv : share v = { v.seen s with kind := .mma { w with common := mput r d c } } := by
      rw [hshare]
      dsimp only
      rw [hk]
      dsimp only
      rw [if_pos ⟨rfl, rfl⟩]
      rfl
    have hfind : (s.troupes.map fun t => { t with ops := t.ops.map share }).find? (fun x => x.id == t.id) =
        some { u with ops := u.ops.map share } := by
      rw [List.find?_map]
      exact congrArg (Option.map _) h.here
    refine ⟨{ u with ops := u.ops.map share }, share v, mput r d c, ⟨h.seen.of_troupes rfl, hfind, h.tile.trans rfl, ?_, ?_⟩, ?_,
      fun k hk => ?_, rfl, rfl⟩
    · dsimp only
      rw [h.ops]
      rfl
    · rw [hv]
      exact (h.clear.seen hz h.seen).withKind _
    · rw [hv]
    · rw [mfind_mput, if_neg hk]

/-- The rows of a quarter that are left. -/
theorem State.Works.quarterRows {w : MmaWork} {q : Quarter} {A B : Nat → RowData} {V : Nat → Nat} (hpre : o'.pre = [])
    (hid : o'.id = o.id)
    (hA : ∀ i, q.start ≤ i → i < w.fb.m → z.HasRow t (w.fragment q false) (q.m0 + i) (A i))
    (hB : ∀ j, j < w.fb.n → z.HasRow t (w.fragment q true) (q.n0 + j) (B j))
    (hV : ∀ i j, q.start + i < w.fb.m → j < w.fb.n → V (i * w.fb.n + j) = cell w.sr w.fb
      (t.tile.nat (w.t + 4 * (q.q * w.fb.m * w.fb.n + (q.start + i) * w.fb.n + j)) 4) (A (q.start + i)) (B j))
    (n : Nat) {i : Nat} (hin : q.start + i + n = w.fb.m) (h : z.Works s t o u v) {c : List (Nat × RowData)}
    (hk : v.kind = .mma { w with common := c }) (hc : ∀ k, q.m0 + (q.start + i) ≤ k → mfind c k = none)
    (htile : t.tile.FilledTo u.tile (w.t + 4 * (q.q * w.fb.m * w.fb.n + q.start * w.fb.n)) (i * w.fb.n) V) :
    ∃ s' u' v' c', s.quarterRows t.id o' [] w q (q.start + i) n = (s', w.fb.m, .done) ∧ z.Works s' t o u' v' ∧
      v'.kind = .mma { w with common := c' } ∧ u'.mrow = u.mrow ∧
      t.tile.FilledTo u'.tile (w.t + 4 * (q.q * w.fb.m * w.fb.n + q.start * w.fb.n)) ((w.fb.m - q.start) * w.fb.n) V := by
  induction n generalizing s u v i c with
  | zero =>
    have hi : q.start + i = w.fb.m := hin
    refine ⟨s, u, v, c, by rw [State.quarterRows, hi], h, hk, rfl, ?_⟩
    rw [show w.fb.m - q.start = i by omega]
    exact htile
  | succ n ih =>
    have hoff : w.t + 4 * (q.q * w.fb.m * w.fb.n + (q.start + i) * w.fb.n) =
        w.t + 4 * (q.q * w.fb.m * w.fb.n + q.start * w.fb.n) + 4 * (i * w.fb.n) := by
      rw [Nat.add_mul]
      omega
    obtain ⟨s1, hrow, h1⟩ := h.fragmentRow hz h.tile hpre (f := w.fragment q false) (opB := false) (r := q.start + i)
      (hA _ (by omega) (by omega))
    obtain ⟨u2, v2, c2, h2, hk2, hc2, ht2, hm2⟩ := h1.shareRow hz hk (q.m0 + (q.start + i)) (A (q.start + i))
    obtain ⟨s3, hcells, h3⟩ := h2.rowCells hz h.tile hpre (i := q.start + i) (a := A (q.start + i)) hB w.fb.n (j := 0) (Nat.zero_add _)
    set vs := (List.range w.fb.n).map (fun k => cell w.sr w.fb
      (u.tileWord (w.t + 4 * (q.q * w.fb.m * w.fb.n + (q.start + i) * w.fb.n + (0 + k)))) (A (q.start + i)) (B (0 + k))) with hvs
    have hlen : vs.length = w.fb.n := by simp [hvs]
    have h4 := h3.tileWrite hz (w.t + 4 * (q.q * w.fb.m * w.fb.n + (q.start + i) * w.fb.n)) (wordBytes vs)
    have htile4 := htile.write vs fun j hj => by
      have hj' : j < w.fb.n := by rwa [hlen] at hj
      rw [hV i j (by omega) hj']
      simp only [hvs, List.getElem_map, List.getElem_range, Nat.zero_add, Troupe.tileWord]
      congr 1
      exact Memory.nat_congr fun r hr => htile.2 _ (.inr (by omega))
    obtain ⟨s5, u5, v5, c5, hrest, h5, hk5, hm5, ht5⟩ := ih (i := i + 1) (by omega) h4 hk2
      (fun k hk => (hc2 k (by omega)).trans (hc k (by omega))) (by
        rw [hlen, ← hoff] at htile4
        rw [show (i + 1) * w.fb.n = i * w.fb.n + w.fb.n by rw [Nat.add_mul, Nat.one_mul]]
        show t.tile.FilledTo (u2.tile.write _ _) _ _ V
        rw [ht2]
        exact htile4)
    refine ⟨s5, u5, v5, c5, ?_, h5, hk5, hm5.trans hm2, ht5⟩
    have herrs : s.tileBad t.id (w.t + 4 * (q.q * w.fb.m * w.fb.n + (q.start + i) * w.fb.n)) (4 * w.fb.n) = false := by
      simp [State.tileBad, h.seen.errs, hz.errs_nil]
    have hcommon : s.commonRow u o' (q.m0 + (q.start + i)) = none := by
      rw [State.commonRow, h.tile.id, hid, h.opOf]
      dsimp only
      rw [hk]
      exact hc _ (Nat.le_refl _)
    have hA' : s.rowOfA u o' [] w q (q.start + i) = .row (s1.shareRow w (q.m0 + (q.start + i)) (A (q.start + i))) (A (q.start + i)) := by
      rw [State.rowOfA, hcommon]
      dsimp only
      rw [hrow]
    rw [State.quarterRows, h.here]
    dsimp only
    rw [herrs, if_neg (by simp), hA']
    dsimp only
    rw [hcells]
    exact hrest

end

/-- The latched fragments of a troupe replaced. -/
def Troupe.withLatches (ls : List Latch) (t : Troupe) : Troupe := { t with latches := ls }

/-- %mrow as an operation of the matrix unit leaves it, with no fault. -/
def Troupe.rowsDone (w : MmaWork) (t : Troupe) : Troupe :=
  { t with
    mrow := mrowAfter t.mrow w false false
    mrowOld := t.mrowOld.map fun m => mrowAfter m w false false
    mrowSet := t.mrowSet ||| mrowBits w false false }

/-- An operation of the matrix unit that is done without a fault. -/
def Op.doneWell (o : Op) : Op := { o with done := true, fault := none }

/-- The troupe of an MMA whose work is over, with what it leaves latched. -/
def Troupe.mmaOver (full : List Latch) (op : Nat) (f : Op → Op) (t : Troupe) : Troupe := (t.withLatches full).modOps op f

/-- The troupe of an MMA that is done. -/
def Troupe.mmaDone (full : List Latch) (w : MmaWork) (op : Nat) (f : Op → Op) (t : Troupe) : Troupe :=
  ((t.mmaOver full op f).rowsDone w).modOps op Op.doneWell

section
variable (full : List Latch) (w : MmaWork) (op : Nat) (f : Op → Op)

theorem Troupe.ops_mmaOver (h : t.ops = [v]) : (t.mmaOver full v.id f).ops = [f v] := Troupe.ops_modOps (t := t.withLatches full) h

theorem Troupe.ops_mmaDone (h : t.ops = [v]) (hf : (f v).id = v.id) : (t.mmaDone full w v.id f).ops = [(f v).doneWell] := by
  have h1 : ((t.mmaOver full v.id f).rowsDone w).ops = [f v] := Troupe.ops_mmaOver full f h
  have h2 := Troupe.ops_modOps (f := Op.doneWell) h1
  rwa [hf] at h2

theorem State.mmaOver_eq (s : State) (id : Nat) : (s.modTroupe id fun u => { u with latches := full }).modOp id op f =
    s.modTroupe id (Troupe.mmaOver full op f) :=
  State.modTroupe_modTroupe s id (Troupe.withLatches full) (Troupe.modOps op f) fun _ => rfl

theorem State.mmaDone_eq (s : State) (id : Nat) :
    ((s.modTroupe id (Troupe.mmaOver full op f)).modTroupe id (Troupe.rowsDone w)).modOp id op Op.doneWell =
      s.modTroupe id (Troupe.mmaDone full w op f) := by
  rw [State.modTroupe_modTroupe s id (Troupe.mmaOver full op f) (Troupe.rowsDone w) fun _ => rfl, State.modOp_eq]
  exact State.modTroupe_modTroupe s id (fun t => (t.mmaOver full op f).rowsDone w) (Troupe.modOps op Op.doneWell) fun _ => rfl

end

/-- The fault at which a quarter of a matrix operation has stopped. -/
def OpKind.quarterFault (k : OpKind) : Option DeferredFault :=
  match k with
  | .mma w => w.quarters.findSome? fun q => q.stop
  | _ => none

/-- A matrix operation whose quarters have all stopped. -/
def Op.mmaEnds (o : Op) : Op := { o with ends := some (1, 0, o.kind.quarterFault) }

theorem Op.mmaEnds_eq {w : MmaWork} (hk : v.kind = .mma w) (hstop : ∀ q ∈ w.quarters, q.stop = none) : v.mmaEnds = v.overWith 1 0 := by
  have hnone : v.kind.quarterFault = none := by
    rw [hk]
    exact List.findSome?_eq_none_iff.mpr hstop
  rw [Op.mmaEnds, hnone]
  rfl

section
variable (hz : z.Sole t o)
include hz

/-- An MMA of one quarter that has computed its rows ends: its quarter's row count is cleared. -/
theorem State.Works.finishMma (h : z.Works s t o u v) {w : MmaWork} {q : Quarter} (hk : v.kind = .mma w) (hq : w.quarters = [q])
    (hover : z.opOver o = true) (hstop : q.stop = none) (full : List Latch) :
    ∃ t', z.TileEnded (((s.modTroupe t.id fun u => { u with latches := full }).modOp t.id o.id Op.mmaEnds).finishMma t.id o.id) t
      { u with mrow := setRows u.mrow q.q 0 } t' := by
  have hf : v.mmaEnds = v.overWith 1 0 := Op.mmaEnds_eq hk (by simp [hq, hstop])
  have hperf : s.opOver v = true := (h.seen.opOver v).trans (h.clear.performed hover)
  have hops : (u.mmaOver full o.id Op.mmaEnds).ops = [v.overWith 1 0] := by
    rw [← h.clear.id, Troupe.ops_mmaOver full Op.mmaEnds h.ops, hf]
  have hof : (s.modTroupe t.id (Troupe.mmaOver full o.id Op.mmaEnds)).opOf t.id o.id = some (u.mmaOver full o.id Op.mmaEnds, v.overWith 1 0) := by
    rw [State.opOf, State.troupe?_modTroupe_same (Troupe.mmaOver full o.id Op.mmaEnds) h.here rfl, Option.bind_some, Troupe.op?, hops]
    simp [Op.overWith, h.clear.id]
  have hpend : ((u.mmaOver full o.id Op.mmaEnds).ops.any fun e => e.cls == OpClass.tm && e.fault.isSome) = false := by
    rw [hops]
    simp [Op.overWith, h.clear.fault]
  have hopen : ¬ ((v.overWith 1 0).done = true ∨
      (s.modTroupe t.id (Troupe.mmaOver full o.id Op.mmaEnds)).opOver (v.overWith 1 0) = false) := by
    rw [show (v.overWith 1 0).done = false from h.clear.done,
      show (s.modTroupe t.id (Troupe.mmaOver full o.id Op.mmaEnds)).opOver (v.overWith 1 0) = true from hperf]
    simp
  have hmrow : mrowAfter u.mrow w false false = setRows u.mrow q.q 0 := by
    rw [mrowAfter, hq]
    rfl
  obtain ⟨t', h1, h2, h3, h4, h5, h6⟩ := h.leaves_as hz (g := Troupe.mmaDone full w o.id Op.mmaEnds) (v' := (v.overWith 1 0).doneWell)
    (h.tile.trans rfl)
    (by
      have := Troupe.ops_mmaDone full w Op.mmaEnds h.ops (by rw [hf]; rfl)
      rwa [h.clear.id, hf] at this)
    (by
      rw [show (v.overWith 1 0).doneWell.kind = v.kind from rfl, hk]
      exact OpKind.plain_mma w) rfl rfl h.clear.vol
  have heq : ((s.modTroupe t.id fun u => { u with latches := full }).modOp t.id o.id Op.mmaEnds).finishMma t.id o.id =
      (s.modTroupe t.id (Troupe.mmaDone full w o.id Op.mmaEnds)).prune t.id := by
    rw [State.mmaOver_eq, State.finishMma, hof]
    dsimp only
    rw [show (v.overWith 1 0).kind = .mma w from hk, show (v.overWith 1 0).ends = some (1, 0, none) from rfl]
    dsimp only
    rw [if_neg hopen, hpend]
    exact congrArg (fun x : State => x.prune t.id) (State.mmaDone_eq full w o.id Op.mmaEnds s t.id)
  rw [heq]
  exact ⟨t', h1, h2, h3, h4, h5, h6.trans hmrow⟩

/-- An MMA of one quarter. -/
theorem State.Sole.mma_completes {w : MmaWork} {q : Quarter} {A B : Nat → RowData} {V : Nat → Nat} (hwork : o.working = true)
    (hk : o.kind = .mma w) (hq : w.quarters = [q]) (hcommon : w.common = []) (hstart : q.start ≤ w.fb.m) (hstop : q.stop = none)
    (hover : z.opOver o = true)
    (hA : ∀ i, q.start ≤ i → i < w.fb.m → z.HasRow t (w.fragment q false) (q.m0 + i) (A i))
    (hB : ∀ j, j < w.fb.n → z.HasRow t (w.fragment q true) (q.n0 + j) (B j))
    (hV : ∀ i j, q.start + i < w.fb.m → j < w.fb.n → V (i * w.fb.n + j) = cell w.sr w.fb
      (t.tile.nat (w.t + 4 * (q.q * w.fb.m * w.fb.n + (q.start + i) * w.fb.n + j)) 4) (A (q.start + i)) (B j)) :
    ∃ s' t' u, execMmaComplete t.id o.id z = .next s' ∧ z.TileEnded s' t u t' ∧ u.mrow = setRows t.mrow q.q 0 ∧
      t.tile.FilledTo u.tile (w.t + 4 * (q.q * w.fb.m * w.fb.n + q.start * w.fb.n)) ((w.fb.m - q.start) * w.fb.n) V := by
  obtain ⟨s1, u1, v1, c1, hrows, h1, hk1, hm1, ht1⟩ := hz.works.quarterRows hz hz.works.clear.pre rfl hA hB hV (w.fb.m - q.start)
    (i := 0) (by omega) (c := []) (by rw [hk, ← hcommon]) (fun _ _ => rfl) (by
      rw [Nat.zero_mul]
      exact Memory.filledTo_zero ..)
  rw [Nat.add_zero] at hrows
  set after : Op → Op := fun o => { o with kind := o.kind.withQuarters fun v => if v.q = q.q then v.after w.fb.m .done else v }
    with hafter
  have h2 := (h1.modOp (f := after) (h1.clear.withKind _)).saw hz
  set s2 := (s1.modOp t.id o.id after).saw t.id o.id with hs2
  obtain ⟨w2, hkind2, hq2⟩ : ∃ w2 : MmaWork, ((after v1).seen (s1.modOp t.id o.id after)).kind = .mma w2 ∧
      w2.quarters = [q.after w.fb.m .done] := by
    refine ⟨_, (show (after v1).kind = .mma _ by rw [hafter]; dsimp only; rw [hk1]; rfl), ?_⟩
    simp [hq]
  have hquarter : z.workQuarter t.id o.id [] w q (w.fb.m - q.start) = (s2, .done) := by
    rw [State.workQuarter, hz.opOf]
    dsimp only
    rw [hstop, if_neg (by simp), hrows]
  obtain ⟨full, hexec⟩ : ∃ full, execMmaComplete t.id o.id z = .next (((s2.modTroupe t.id fun u => { u with latches := full }).modOp
      t.id o.id Op.mmaEnds).finishMma t.id o.id) := by
    rw [execMmaComplete, State.endMma, hz.opOf]
    dsimp only
    rw [hk]
    dsimp only
    rw [if_neg (by rw [hwork, Troupe.tileReady_one hz.ops]; simp), hq, List.foldl_cons, List.foldl_nil]
    simp only [Bool.false_eq_true, if_false, List.any_nil, hquarter, List.nil_append, List.any_cons, List.findSome?_cons,
      List.findSome?_nil]
    rw [if_neg (by decide)]
    exact ⟨_, rfl⟩
  obtain ⟨t', hend⟩ := h2.finishMma hz hkind2 hq2 hover (show (q.after w.fb.m .done).stop = none from hstop) full
  exact ⟨_, t', _, hexec, hend, congrArg (fun m => setRows m q.q 0) hm1, ht1⟩

end

end

end Sys2Proof.Machine
end

section
namespace Sys2Proof.Machine

/-! ### What is left of the tile -/

section
variable {m m' : Memory} {lo k : Nat} {V : Nat → Nat}

/-- A word of a range that has been filled, by its row and its column. -/
theorem Memory.FilledTo.nat_at (h : m.FilledTo m' lo k V) {i a : Nat} (hi : i < k) (ha : a = lo + 4 * i) :
    m'.nat a 4 = V i % 2 ^ 32 := by
  rw [ha]
  exact h.1 i hi

/-- An element of a row below the `k`-th one. -/
theorem mul_add_lt {i j n k : Nat} (hi : i < k) (hj : j < n) : i * n + j < k * n := by
  calc i * n + j < i * n + n := by omega
    _ = (i + 1) * n := by rw [Nat.add_mul, Nat.one_mul]
    _ ≤ k * n := Nat.mul_le_mul_right n hi

theorem div_mod_row {i j n : Nat} (hj : j < n) : (i * n + j) / n = i ∧ (i * n + j) % n = j := by
  rw [Nat.add_comm, Nat.add_mul_div_right _ _ (by omega), Nat.add_mul_mod_self_right, Nat.div_eq_of_lt hj, Nat.mod_eq_of_lt hj,
    Nat.zero_add]
  exact ⟨rfl, rfl⟩

end

end Sys2Proof.Machine
end

section
open Sys2Proof Sys2Proof.Machine

/-- Settles O47: the reads of a tile operation find the bytes that the home slices hold and show of the pool nothing new, its
words are written one after another, and it leaves its troupe once it is complete. -/
theorem tileOperationsComplete : Obligations.TileOperationsComplete := by
  unfold Obligations.TileOperationsComplete
  intro same at_ outside row ended
  refine ⟨?_, ?_, ?_, ?_, ?_, ?_⟩
  · intro s t o w q A B ⟨hz, hwork⟩ hk hq hcommon hq4 hstart hstop hover hA hB
    obtain ⟨s', t', u, hx, ⟨hhere, hregs, hops, hpool, htile, hmrow⟩, hrows, hfill⟩ := hz.mma_completes (V := fun k =>
        cell w.sr w.fb (t.tile.nat (w.t + 4 * (q.q * w.fb.m * w.fb.n + (q.start + k / w.fb.n) * w.fb.n + k % w.fb.n)) 4)
          (A (q.start + k / w.fb.n)) (B (k % w.fb.n))) hwork hk hq hcommon hstart hstop hover hA hB
      fun i j _ hj => by simp only [div_mod_row hj]
    have hsplit : ∀ i, q.start ≤ i → i * w.fb.n = q.start * w.fb.n + (i - q.start) * w.fb.n := fun i hi => by
      rw [← Nat.add_mul, Nat.add_sub_cancel' hi]
    refine ⟨s', t', hx, ⟨hhere, hregs, hops⟩, hpool, fun x hx => ?_, fun i j hi him hj => ?_, fun k hk => ?_⟩
    · rw [htile]
      refine hfill.2 x ?_
      have hend := hsplit w.fb.m hstart
      have hx : x < w.t + 4 * (q.q * w.fb.m * w.fb.n + q.start * w.fb.n + 0) ∨
        w.t + 4 * (q.q * w.fb.m * w.fb.n + w.fb.m * w.fb.n + 0) ≤ x := hx
      omega
    · have hrow := hsplit i hi
      have hcell := hfill.nat_at (a := w.t + 4 * (q.q * w.fb.m * w.fb.n + i * w.fb.n + j))
        (mul_add_lt (show i - q.start < w.fb.m - q.start by omega) hj) (by omega)
      rw [(div_mod_row hj).1, (div_mod_row hj).2, show q.start + (i - q.start) = i by omega, ← htile] at hcell
      exact hcell
    · rw [hmrow, hrows]
      exact rowsOf_setRows t.mrow hk
  · intro s t o off n w h hk hn
    obtain ⟨s', t', hx, hhere, hregs, hops, hpool, htile, hmrow⟩ := tzero_completes h hk
    have hlen : (wordBytes (List.replicate (n / 4) w.toNat)).length = n := by
      rw [wordBytes_length, List.length_replicate]
      omega
    refine ⟨s', t', hx, ⟨hhere, hregs, hops⟩, hpool, hmrow, fun x hx => ?_, fun i hi => ?_⟩
    · rw [htile]
      exact Memory.byte_write_outside _ _ _ _ (by rwa [hlen])
    · rw [htile]
      exact Memory.byte_write_words _ _ _ _ _ (by omega)
  · intro s t o ty fb base a pitch q E h hk hover hread
    obtain ⟨s', t', u, hx, ⟨hhere, hregs, hops, hpool, htile, hmrow⟩, hrow, hfill⟩ := tld_completes h hk hover hread
    refine ⟨s', t', hx, ⟨hhere, hregs, hops⟩, hpool, hmrow.trans hrow, fun x hx => ?_, fun i j hi hj => ?_⟩
    · rw [htile]
      refine hfill.2 x ?_
      have hx : x < base + 4 * (q.q * fb.m * fb.n + 0 * fb.n + 0) ∨ base + 4 * (q.q * fb.m * fb.n + fb.m * fb.n + 0) ≤ x := hx
      omega
    · have hword := hfill.nat_at (a := base + 4 * (q.q * fb.m * fb.n + i * fb.n + j)) (mul_add_lt hi hj) (by omega)
      rw [(div_mod_row hj).1, (div_mod_row hj).2, ← htile] at hword
      exact hword
  · intro s t o ty rnd sat fb base a pitch q s1 b1 p1 s2 b2 p2 s3 h hk hm hn hb1 hb2 hw _
    exact tst_writes_last h hk hm hn hb1 hb2 hw
  · intro s t o ty rnd sat fb base a pitch qs m h hk
    obtain ⟨s', t', hx, hhere, hregs, hops, hpool, htile, -⟩ := tileOp_leaves h (by rw [hk]; exact OpKind.plain_tst ..)
    exact ⟨s', t', hx, ⟨hhere, hregs, hops⟩, hpool, htile⟩
  · intro s t o va ht ho hp htr
    exact pageWaitResume_resumes ht ho hp htr

end
